-- ==== Sys2Proof/Word.lean ====
section
/-! DEFINITION. Word.lean: the word types of the F9640 (02_describing_work, 06_strands). -/

namespace Sys2Proof

/-- A 64-bit word: a scalar register, a CSR, a virtual address (Table 6-2). -/
abbrev Word := BitVec 64

/-- One byte of memory. -/
abbrev Byte := BitVec 8

/-- A mask register, mf or ms: bit i governs element i, 0 to 16,383 (Table 6-2). -/
abbrev Mask := BitVec 16384

end Sys2Proof
end

