-- ==== Sys2Proof/Config.lean ====
section
/-! DEFINITION. Config.lean: what the implementation fixes and the free values. A free value is a constant with no body:
nothing can be proved of it, so a statement holds whatever it is (log 6). -/

namespace Sys2Proof.Config

/-- The free values, one for each count of `State.free` (log 6). -/
opaque freeWord : Nat → BitVec 64

/-- The SPDM 1.3 response to a supported request (R403, log 24): by the count of `State.free`, the firmware image whose
hashes are the measurements, the requests before it and the request. -/
opaque spdmReply : Nat → List Byte → List Byte → List Byte → List Byte

/-- The SPDM response to a request that the module does not support (R403, log 24). -/
opaque spdmUnsupported : List Byte → List Byte

/-- The module accepts a supported request, by the requests before it (R403, log 24). -/
opaque spdmAccepts : List Byte → List Byte → Bool

/-- The export master secret of an SPDM session (R404, log 24), by the count of `State.free`, which stands for the
ephemeral key, and the requests of the session. -/
opaque exportSecret : Nat → List Byte → List Byte

/-- HKDF-SHA-384 of a secret under a label (R404, log 24). -/
opaque hkdf : List Byte → List Byte → List Byte

/-- What a read under one key of device memory finds where a byte was written under another (R389, log 48): the reader's key, the
number of the writer's, the address and the byte written. -/
opaque foreignByte : List Byte → Nat → Nat → Byte → Byte

/-- The verdict of the firmware checks of R402: 0 accepted, 1, 2 or 3 refused (log 24). -/
opaque firmwareVerdict : List Byte → BitVec 2

/-- The personality that the image's configuration gives a group (R370, log 24); codes above 4 are never used. -/
opaque firmwarePersonality : List Byte → Nat → BitVec 4

/-- A word of a fused variant (R34, log 23): by the words of every image of the arena with their offsets, the physical length,
where the variant stands, and the offset of the word it is a variant of. Equal arenas have equal variants. -/
opaque variantWord : List (Nat × List (BitVec 64)) → Nat → Nat → Nat → BitVec 64

/-- AES-256-GCM over one chunk under a key (R388, log 25): the ciphertext and the 16-byte tag of a nonce, offset and
plaintext. -/
opaque sealChunk : List Byte → List Byte → Nat → List Byte → List Byte × List Byte

/-- The session direction number of a session's outward direction (R388, log 25). -/
opaque directionNumber : Nat → BitVec 32

/-- The plaintext of a chunk whose tag verifies, or none (R388, log 25): key, nonce, offset, tag, ciphertext. -/
opaque openChunk : List Byte → List Byte → Nat → List Byte → List Byte → Option (List Byte)

end Sys2Proof.Config
end

