-- ==== Sys2Proof/Syntax.lean ====
section
/-! DEFINITION. Syntax.lean: every instruction, packet and event of spec/opcode_table.json as one constructor of
`Instr`, over operand records that hold exactly the fields the instruction's description names (04_encodings,
07, 09, 10, 12, 14, 15, 16, 18, 21 and 95_what_each_step_holds). -/

namespace Sys2Proof

/-! ### Names used by operands -/

/-- A scalar register number, x0 to x31 (R126). -/
abbrev XReg := BitVec 5

/-- A vector register number; the limit vnreg is a decode check of the machine (R71). -/
abbrev VReg := BitVec 6

/-- A mask register number; 0 is "unmasked" or m0, which reads all ones (R64, R183). -/
abbrev MReg := BitVec 3

/-- Element widths of Table 4-7, codes 0 to 3. -/
inductive EW where
  | e8 | e16 | e32 | e64
  deriving DecidableEq, Repr

/-- Element widths of VLD and VST: Table 4-7, codes 0 to 4 (R68). -/
inductive MemEW where
  | of (ew : EW)
  | nibble
  deriving DecidableEq, Repr

/-- Scopes of Table 4-10. -/
inductive Scope where
  | strand | core | die | device | system
  deriving DecidableEq, Repr

/-- Orders of Table 4-10. -/
inductive AmoOrder where
  | relaxed | acquire | release | acqRel
  deriving DecidableEq, Repr

/-- Scalar floating-point formats, fn [9:8] (R75). -/
inductive FFmt where
  | fp64 | fp32 | fp16 | bf16
  deriving DecidableEq, Repr

/-- Integer types of the scalar conversions (Table 4-11). -/
inductive IntTy where
  | int64 | nat64 | int32 | nat32
  deriving DecidableEq, Repr

/-- Vector floating-point element formats: ew 1 to 3, with fl [0] choosing BF16 (R80, R194). -/
inductive VFmt where
  | fp16 | bf16 | fp32 | fp64
  deriving DecidableEq, Repr

/-- Format names of Table 3-6 (code 7 is reserved, R69). -/
inductive Fmt where
  | fp64 | fp32 | fp16 | bf16 | e4m3 | e5m2 | e2m1 | int8 | int16 | int32 | int64 | nat8 | nat4 | int4 | e8m0
  deriving DecidableEq, Repr

/-- Rounding modes of frm (Table 8-4). -/
inductive RMode where
  | rne | rtz | rdn | rup | rmm
  deriving DecidableEq, Repr

/-- The rounding field of VFCVT: a mode, or frm (R202). -/
inductive CvtRM where
  | fixed (r : RMode)
  | frm
  deriving DecidableEq, Repr

/-- Integer compare conditions of VCMP (Table 4-6). -/
inductive Cond where
  | eq | ne | lt | le | ltn | len | gt | ge | gtn | gen
  deriving DecidableEq, Repr

/-- Floating-point compare conditions of VFCMP (Table 10-5). -/
inductive FCond where
  | eq | lt | le | un | ne
  deriving DecidableEq, Repr

/-- The CSRs of Table 6-3. -/
inductive Csr where
  | vl | vlmax | vstart | vtype | vnreg | vrm | vsat | frm | fflags | lanegrant | planebase | mmode
  | lidx (n : BitVec 2)
  | partid | strandid | coreid
  | trpc | trcause | trval | trstat | trvec | trscratch | trpend | trslot | trpages | trpcount
  | vowner | ctxid | arenabase | arenabound
  | watch (n : BitVec 2) | wctl (n : BitVec 2)
  | cycle | convoys
  | pcnt (n : BitVec 4)
  | pcntsel
  deriving DecidableEq, Repr

/-- The ways a scoreboard entry is settled (RESUME, R347). -/
inductive Settle where
  | replay | zero | propagate
  deriving DecidableEq, Repr

/-! ### Operand records of the scalar parcels (Table 4-1) -/

/-- xd, xa, xb (format SR). -/
structure RRR where
  d : XReg
  a : XReg
  b : XReg
  deriving DecidableEq, Repr

/-- xd, xa (format SR with xb = 0). -/
structure RR where
  d : XReg
  a : XReg
  deriving DecidableEq, Repr

/-- xd, xa and a signed 15-bit immediate (format SI); in stores d is the data register xs (format SS). -/
structure RRI where
  d : XReg
  a : XReg
  imm : BitVec 15
  deriving DecidableEq, Repr

/-- xd, xa and a shift amount of 0 to 63. -/
structure RRSh where
  d : XReg
  a : XReg
  sh : BitVec 6
  deriving DecidableEq, Repr

/-- xd and a signed 20-bit immediate (formats SU and SJ). -/
structure RI20 where
  d : XReg
  imm : BitVec 20
  deriving DecidableEq, Repr

/-- xa, xb and a signed 15-bit offset in 4-byte units (format SB). -/
structure BranchOp where
  a : XReg
  b : XReg
  off : BitVec 15
  deriving DecidableEq, Repr

/-- An atomic read-modify-write (format SA, Table 4-10). -/
structure AmoOp where
  d : XReg
  a : XReg
  b : XReg
  scope : Scope
  order : AmoOrder
  w32 : Bool
  deriving DecidableEq, Repr

/-- A scalar floating-point operation on two registers. -/
structure FOp2 where
  fmt : FFmt
  d : XReg
  a : XReg
  b : XReg
  deriving DecidableEq, Repr

/-- A scalar floating-point operation on one register. -/
structure FOp1 where
  fmt : FFmt
  d : XReg
  a : XReg
  deriving DecidableEq, Repr

/-- A conversion between a floating-point format and an integer type. -/
structure FCvtInt where
  fmt : FFmt
  ty : IntTy
  d : XReg
  a : XReg
  deriving DecidableEq, Repr

/-- A conversion between two different floating-point formats. -/
structure FCvtFlt where
  dst : FFmt
  src : FFmt
  d : XReg
  a : XReg
  deriving DecidableEq, Repr

/-- A scalar fused multiply-add (format S4). -/
structure FOp3 where
  fmt : FFmt
  d : XReg
  a : XReg
  b : XReg
  c : XReg
  deriving DecidableEq, Repr

/-- CSRGET: xd and the CSR. -/
structure CsrGet where
  d : XReg
  csr : Csr
  deriving DecidableEq, Repr

/-- CSRPUT: the CSR and xa. -/
structure CsrPut where
  csr : Csr
  a : XReg
  deriving DecidableEq, Repr

/-- CSRSWAP, CSRSET, CSRCLR: xd, the CSR and xa. -/
structure CsrRmw where
  d : XReg
  csr : Csr
  a : XReg
  deriving DecidableEq, Repr

/-- FENCE: scope, the kinds LL, LS, SL, SS (bit 0 is LL) and E. -/
structure FenceOp where
  scope : Scope
  kinds : BitVec 4
  e : Bool
  deriving DecidableEq, Repr

/-- INVTLB: xa and whether every entry goes (op 1). -/
structure InvtlbOp where
  a : XReg
  all : Bool
  deriving DecidableEq, Repr

/-- CACHE: xa and the cache operation, 0 to 3 (R355). -/
structure CacheOp where
  a : XReg
  op : BitVec 2
  deriving DecidableEq, Repr

/-- RESUME: xd, xa and the way to settle. -/
structure ResumeOp where
  d : XReg
  a : XReg
  how : Settle
  deriving DecidableEq, Repr

/-! ### Operand records of the 64-bit words (Tables 4-2 to 4-5) -/

/-- Three vector registers at one width under a mask. -/
structure VV where
  m : MReg
  d : VReg
  a : VReg
  b : VReg
  ew : EW
  deriving DecidableEq, Repr

/-- Vector and scalar register at one width under a mask. -/
structure VS where
  m : MReg
  d : VReg
  a : VReg
  x : XReg
  ew : EW
  deriving DecidableEq, Repr

/-- Vector and signed 16-bit immediate at one width under a mask. -/
structure VI where
  m : MReg
  d : VReg
  a : VReg
  imm : BitVec 16
  ew : EW
  deriving DecidableEq, Repr

/-- Two vector registers at one width under a mask: VMV (a is vb), VCONFL. -/
structure VV1 where
  m : MReg
  d : VReg
  a : VReg
  ew : EW
  deriving DecidableEq, Repr

/-- A vector destination and a scalar source: VMV, VBCAST. -/
structure VS1 where
  m : MReg
  d : VReg
  x : XReg
  ew : EW
  deriving DecidableEq, Repr

/-- A vector destination and an immediate: VMV. -/
structure VI1 where
  m : MReg
  d : VReg
  imm : BitVec 16
  ew : EW
  deriving DecidableEq, Repr

/-- Three vector registers whose second source may be of twice the width (ew2 = ew + 1, R179, R180). -/
structure VVW where
  m : MReg
  d : VReg
  a : VReg
  b : VReg
  ew : EW
  wide : Bool
  deriving DecidableEq, Repr

/-- VCMP on two vectors: the destination d is a mask register. -/
structure CmpVV where
  cond : Cond
  m : MReg
  d : MReg
  a : VReg
  b : VReg
  ew : EW
  deriving DecidableEq, Repr

/-- VCMP of a vector with a scalar. -/
structure CmpVS where
  cond : Cond
  m : MReg
  d : MReg
  a : VReg
  x : XReg
  ew : EW
  deriving DecidableEq, Repr

/-- VCMP of a vector with an immediate. -/
structure CmpVI where
  cond : Cond
  m : MReg
  d : MReg
  a : VReg
  imm : BitVec 16
  ew : EW
  deriving DecidableEq, Repr

/-- A mask operation on two masks. -/
structure MaskOp2 where
  m : MReg
  d : MReg
  a : MReg
  b : MReg
  deriving DecidableEq, Repr

/-- A mask operation on one mask. -/
structure MaskOp1 where
  m : MReg
  d : MReg
  a : MReg
  deriving DecidableEq, Repr

/-- MCNT, MLOW: a scalar destination and a mask source. -/
structure MaskToX where
  m : MReg
  d : XReg
  a : MReg
  deriving DecidableEq, Repr

/-- MCUM: a vector destination and a mask source. -/
structure MaskToV where
  m : MReg
  d : VReg
  a : MReg
  ew : EW
  deriving DecidableEq, Repr

/-- VSEQ: a vector destination. -/
structure SeqOp where
  m : MReg
  d : VReg
  ew : EW
  deriving DecidableEq, Repr

/-- MMOVF: the destination mask, and which of mf (false) and ms (true) is copied. -/
structure MmovfOp where
  m : MReg
  d : MReg
  seg : Bool
  deriving DecidableEq, Repr

/-- VCOMPRESS: destination, source and selecting mask (1 to 7). -/
structure CompressOp where
  d : VReg
  a : VReg
  m : MReg
  ew : EW
  deriving DecidableEq, Repr

/-- VMVXS: a scalar destination and a vector source. -/
structure VToX where
  d : XReg
  a : VReg
  ew : EW
  deriving DecidableEq, Repr

/-- VMVSX: a vector destination and a scalar source. -/
structure XToV where
  d : VReg
  x : XReg
  ew : EW
  deriving DecidableEq, Repr

/-- Vector floating-point operation on two vectors; in VRED b is the seed vector. -/
structure FVV where
  m : MReg
  d : VReg
  a : VReg
  b : VReg
  fmt : VFmt
  deriving DecidableEq, Repr

/-- Vector floating-point operation on a vector and a scalar. -/
structure FVS where
  m : MReg
  d : VReg
  a : VReg
  x : XReg
  fmt : VFmt
  deriving DecidableEq, Repr

/-- Vector floating-point operation on three vectors. -/
structure FVVV where
  m : MReg
  d : VReg
  a : VReg
  b : VReg
  c : VReg
  fmt : VFmt
  deriving DecidableEq, Repr

/-- Vector floating-point operation on a vector and two scalars. -/
structure FVSS where
  m : MReg
  d : VReg
  a : VReg
  x : XReg
  z : XReg
  fmt : VFmt
  deriving DecidableEq, Repr

/-- Vector floating-point operation on one vector. -/
structure FV where
  m : MReg
  d : VReg
  a : VReg
  fmt : VFmt
  deriving DecidableEq, Repr

/-- VFCMP on two vectors. -/
structure FCmpVV where
  cond : FCond
  m : MReg
  d : MReg
  a : VReg
  b : VReg
  fmt : VFmt
  deriving DecidableEq, Repr

/-- VFCMP of a vector with a scalar. -/
structure FCmpVS where
  cond : FCond
  m : MReg
  d : MReg
  a : VReg
  x : XReg
  fmt : VFmt
  deriving DecidableEq, Repr

/-- VFCVT (R202). -/
structure CvtOp where
  m : MReg
  d : VReg
  a : VReg
  dst : Fmt
  src : Fmt
  rm : CvtRM
  sat : Bool
  deriving DecidableEq, Repr

/-- VWHILE, VWHILEM (format VB, R189): mask, remaining count, index register, offset in 8-byte units. -/
structure LoopOp where
  m : MReg
  rem : XReg
  idx : XReg
  off : BitVec 20
  deriving DecidableEq, Repr

/-- VLD: unit stride, 4-bit elements allowed. -/
structure VldOp where
  m : MReg
  d : VReg
  base : XReg
  ew : MemEW
  scope : Scope
  off : BitVec 16
  deriving DecidableEq, Repr

/-- VLDFF: unit stride. -/
structure VldffOp where
  m : MReg
  d : VReg
  base : XReg
  ew : EW
  scope : Scope
  off : BitVec 16
  deriving DecidableEq, Repr

/-- VLDS: the stride in a scalar register. -/
structure VldsOp where
  m : MReg
  d : VReg
  base : XReg
  stride : XReg
  ew : EW
  scope : Scope
  off : BitVec 16
  deriving DecidableEq, Repr

/-- VLDX, VSCADD: an index vector of 32-bit or (x64) 64-bit indices. -/
structure VldxOp where
  m : MReg
  d : VReg
  base : XReg
  vi : VReg
  ew : EW
  x64 : Bool
  scope : Scope
  off : BitVec 16
  deriving DecidableEq, Repr

/-- VLDSEG: nf + 1 fields, nf 1 to 7. -/
structure VldsegOp where
  m : MReg
  d : VReg
  base : XReg
  ew : EW
  nf : BitVec 3
  scope : Scope
  off : BitVec 16
  deriving DecidableEq, Repr

/-- How a store orders its elements (fl8 bits U and N, R66, R81): ordered, unordered, or ordered with a progress
word whose address a scalar register holds. -/
inductive StoreMode where
  | ordered
  | unordered
  | notify (progress : XReg)
  deriving DecidableEq, Repr

/-- VST: unit stride. -/
structure VstOp where
  m : MReg
  d : VReg
  base : XReg
  ew : MemEW
  mode : StoreMode
  scope : Scope
  off : BitVec 16
  deriving DecidableEq, Repr

/-- VSTS: strided; u is the unordered flag. -/
structure VstsOp where
  m : MReg
  d : VReg
  base : XReg
  stride : XReg
  ew : EW
  u : Bool
  scope : Scope
  off : BitVec 16
  deriving DecidableEq, Repr

/-- VSTX: indexed. -/
structure VstxOp where
  m : MReg
  d : VReg
  base : XReg
  vi : VReg
  ew : EW
  x64 : Bool
  mode : StoreMode
  scope : Scope
  off : BitVec 16
  deriving DecidableEq, Repr

/-- VSTSEG: nf + 1 fields, nf 1 to 7. -/
structure VstsegOp where
  m : MReg
  d : VReg
  base : XReg
  ew : EW
  nf : BitVec 3
  mode : StoreMode
  scope : Scope
  off : BitVec 16
  deriving DecidableEq, Repr

/-- VWAIT: d receives the unmet mask, vi holds the expected values, timeout the limit (R81, R325). -/
structure VwaitOp where
  m : MReg
  d : MReg
  base : XReg
  timeout : XReg
  vi : VReg
  ew : EW
  scope : Scope
  off : BitVec 16
  deriving DecidableEq, Repr

/-- SETVL: xd and the requested length xa. -/
structure SetvlOp where
  d : XReg
  a : XReg
  deriving DecidableEq, Repr

/-- SETVLF: xd, the requested length and the segment-boundary source (field 0: none). -/
structure SetvlfOp where
  d : XReg
  a : XReg
  b : XReg
  deriving DecidableEq, Repr

/-- SETVT: the MZ, S, TP and EW it writes. -/
structure SetvtOp where
  mz : Bool
  s : Bool
  tp : Bool
  ew : EW
  deriving DecidableEq, Repr

/-- VCONFIG: 0 to 3 for 8, 16, 32 and 64 registers. -/
structure VconfigOp where
  n : BitVec 2
  deriving DecidableEq, Repr

/-- STCFG: the stream and the pattern block address register. -/
structure StcfgOp where
  s : BitVec 3
  a : XReg
  deriving DecidableEq, Repr

/-- STBIND: the stream, the vector register and the direction. -/
structure StbindOp where
  s : BitVec 3
  v : VReg
  write : Bool
  deriving DecidableEq, Repr

/-- STUNBIND: the stream. -/
structure StunbindOp where
  s : BitVec 3
  deriving DecidableEq, Repr

/-- STSTAT: the destination and the stream. -/
structure StstatOp where
  s : BitVec 3
  d : XReg
  deriving DecidableEq, Repr

/-- QCOPY: queue, source, destination, count and notify registers, SL and DL. -/
structure QcopyOp where
  q : BitVec 5
  src : XReg
  dst : XReg
  cnt : XReg
  ntf : XReg
  scope : Scope
  sl : Bool
  dl : Bool
  deriving DecidableEq, Repr

/-- QGATHER, QSCATTER, QPLOAD, QPSTORE, QSPLOAD: queue, block address and notify registers. -/
structure QblockOp where
  q : BitVec 5
  blk : XReg
  ntf : XReg
  scope : Scope
  deriving DecidableEq, Repr

/-- QFENCE: queue, notify register and join mask. -/
structure QfenceOp where
  q : BitVec 5
  ntf : XReg
  join : BitVec 4
  scope : Scope
  deriving DecidableEq, Repr

/-- QSIGNAL: queue, write address (field 0: none), value, addend and signal word registers. -/
structure QsignalOp where
  q : BitVec 5
  wr : XReg
  val : XReg
  add : XReg
  sig : XReg
  scope : Scope
  deriving DecidableEq, Repr

/-- QSTAT: queue, status and record destinations, W, CLR and DROP. -/
structure QstatOp where
  q : BitVec 5
  st : XReg
  recd : XReg
  w : Bool
  clr : Bool
  drop : Bool
  deriving DecidableEq, Repr

/-- MZERO: the tile and its kind. -/
structure MzeroOp where
  acc : BitVec 1
  fa : Fmt
  deriving DecidableEq, Repr

/-- MUPD, MUPDN: row mask, column mask, vector operands, tile and formats. -/
structure MupdOp where
  rmask : MReg
  cmask : MReg
  a : VReg
  b : VReg
  acc : BitVec 1
  fa : Fmt
  fb : Fmt
  deriving DecidableEq, Repr

/-- MMAC: panels, tile, formats, group size code (K = 32 · 2^grp) and planes − 1. -/
structure MmacOp where
  pa : BitVec 4
  pb : BitVec 4
  acc : BitVec 1
  fa : Fmt
  fb : Fmt
  grp : BitVec 2
  planes : BitVec 4
  deriving DecidableEq, Repr

/-- MREAD: destination, row register, tensor scale register, tile and format (int64: raw). -/
structure MreadOp where
  d : VReg
  row : XReg
  scale : XReg
  acc : BitVec 1
  fa : Fmt
  deriving DecidableEq, Repr

/-- MWRITE: source, row register and tile. -/
structure MwriteOp where
  s : VReg
  row : XReg
  acc : BitVec 1
  deriving DecidableEq, Repr

/-- MSCL: the scale vectors, FP16 or (e8m0) E8M0. -/
structure MsclOp where
  a : VReg
  b : VReg
  e8m0 : Bool
  deriving DecidableEq, Repr

/-- MZPT: the zero-point vectors; a flag is true for NAT4 and false for NAT8. -/
structure MzptOp where
  a : VReg
  b : VReg
  a4 : Bool
  b4 : Bool
  deriving DecidableEq, Repr

/-- MSTAT: destination and tile. -/
structure MstatOp where
  d : XReg
  acc : BitVec 1
  deriving DecidableEq, Repr

/-- SPMMAC: term set register, B panel, tile, formats, planes − 1 and row window. -/
structure SpmmacOp where
  ts : XReg
  pb : BitVec 4
  acc : BitVec 1
  fa : Fmt
  fb : Fmt
  planes : BitVec 4
  win : BitVec 2
  deriving DecidableEq, Repr

/-- SPRES: term set and window register, B panel, tile, formats and planes − 1. -/
structure SpresOp where
  ts : XReg
  pb : BitVec 4
  acc : BitVec 1
  fa : Fmt
  fb : Fmt
  planes : BitVec 4
  deriving DecidableEq, Repr

/-- SPSTAT: destination and term set register. -/
structure SpstatOp where
  d : XReg
  ts : XReg
  deriving DecidableEq, Repr

/-- PORTQ: destination and group, 0 to 23. -/
structure PortqOp where
  d : XReg
  g : BitVec 5
  deriving DecidableEq, Repr

/-- PORTSW: destination, request register and group, 0 to 23. -/
structure PortswOp where
  d : XReg
  a : XReg
  g : BitVec 5
  deriving DecidableEq, Repr

/-! ### What packets and events carry (95_what_each_step_holds) -/

/-- A strand of the module: core 0 to 63, strand 0 to 7 (R7). -/
structure StrandId where
  core : BitVec 6
  sid : BitVec 3
  deriving DecidableEq, Repr

/-- A hardware queue of a partition (05_launch). -/
structure QueueId where
  part : Nat
  q : Nat
  deriving DecidableEq, Repr

/-- A packet the Landing has fetched: its queue, its index and its eight words (R91). -/
structure Packet where
  queue : QueueId
  index : Nat
  words : List Word
  deriving DecidableEq, Repr

/-- One failed element of a scoreboard entry: its index and virtual address, the value that a store, an AMO, a CLAIM or an
update would have brought there, and for CAS the compare value (R345, R347). -/
structure SbElem where
  index : Nat
  addr : Word
  value : Word
  was : Word
  deriving DecidableEq, Repr

/-- A pending entry of the scoreboard: the fields of Table 18-5 and the elements it names. kind is 0 load, 1 store,
2 AMO or CLAIM; `amo` is op [3:0] of an AMO, 15 for a CLAIM, and 14 for a store that is an update of VSCADD; `sx` says that a scalar load extends the sign; `age` counts the parcels and convoys of the
task before it, which gives program order. -/
structure SbEntry where
  pc : Word
  slot : BitVec 2
  kind : BitVec 3
  perf : Bool
  settled : Bool
  err : BitVec 3
  addr : Word
  first : Nat
  nfail : Nat
  reg : BitVec 6
  ew : BitVec 3
  vector : Bool
  sx : Bool
  amo : BitVec 4
  elems : List SbElem
  age : Nat := 0
  deriving DecidableEq, Repr

/-- Where a strand stops for a late error of accesses still to come, and what its entry says (R283, R305, R346): at the boundary after
its next access, with ERR, and PERF for an AMO or CLAIM; at its next load, with ERR; or at step k of its next matrix word, with the
address of the read that failed. -/
inductive LatePoint where
  | boundary (err : BitVec 3) (perf : Bool)
  | load (err : BitVec 3)
  | matrix (k : Nat) (addr : Word)
  deriving DecidableEq, Repr

/-- An RPC message: the path (port group) it came on, its four header words and its payload (Table 21-11). -/
structure Msg where
  path : Nat
  w0 : Word
  w1 : Word
  w2 : Word
  w3 : Word
  payload : List Byte
  deriving DecidableEq, Repr

/-- A part that can retire (Table 23-6). -/
inductive PartRef where
  | core (n : BitVec 6)
  | strandCore (s : StrandId)
  | landingCore (die : BitVec 1) (i : Nat)
  | gddr (n : Nat)
  | bank (core : BitVec 6) (i : Nat)
  | lane (g : Nat) (i : Nat)
  deriving DecidableEq, Repr

/-- Every instruction, packet and event of the opcode table, one constructor a row. -/
inductive Instr where
  /-- ADD (R129): Writes xa + xb modulo 2^64 to xd. -/
  | add (o : RRR)
  /-- SUB (R129): Writes xa - xb modulo 2^64 to xd. -/
  | sub (o : RRR)
  /-- AND (R129): Writes the bitwise AND of xa and xb to xd. -/
  | and (o : RRR)
  /-- OR (R129): Writes the bitwise OR of xa and xb to xd. -/
  | or (o : RRR)
  /-- XOR (R129): Writes the bitwise XOR of xa and xb to xd. -/
  | xor (o : RRR)
  /-- ANDN (R129): Writes xa & ~xb to xd. -/
  | andn (o : RRR)
  /-- SHL (R129): Shifts xa left by xb[5:0] into xd. -/
  | shl (o : RRR)
  /-- SHR (R129): Shifts xa right logically by xb[5:0] into xd. -/
  | shr (o : RRR)
  /-- SHA (R129): Shifts xa right arithmetically by xb[5:0] into xd. -/
  | sha (o : RRR)
  /-- MIN (R129): Writes the signed minimum of xa and xb to xd. -/
  | min (o : RRR)
  /-- MAX (R129): Writes the signed maximum of xa and xb to xd. -/
  | max (o : RRR)
  /-- MINN (R129): Writes the unsigned minimum of xa and xb to xd. -/
  | minn (o : RRR)
  /-- MAXN (R129): Writes the unsigned maximum of xa and xb to xd. -/
  | maxn (o : RRR)
  /-- SLT (R129): Writes 1 to xd if xa < xb signed, else 0. -/
  | slt (o : RRR)
  /-- SLTN (R129): Writes 1 to xd if xa < xb unsigned, else 0. -/
  | sltn (o : RRR)
  /-- MUL (R129): Writes the low 64 bits of xa × xb to xd. -/
  | mul (o : RRR)
  /-- MULH (R129): Writes the high 64 bits of the signed 128-bit product to xd. -/
  | mulh (o : RRR)
  /-- MULHN (R129): Writes the high 64 bits of the unsigned 128-bit product to xd. -/
  | mulhn (o : RRR)
  /-- DIV (R131): Writes the signed quotient, truncated toward zero, with fixed results for a zero divisor and for overflow. -/
  | div (o : RRR)
  /-- DIVN (R131): Writes the unsigned quotient, with a fixed result for a zero divisor. -/
  | divn (o : RRR)
  /-- REM (R131): Writes the signed remainder, which takes the sign of the dividend. -/
  | rem (o : RRR)
  /-- REMN (R131): Writes the unsigned remainder. -/
  | remn (o : RRR)
  /-- CLZ (R129): Counts the leading zero bits of xa into xd. -/
  | clz (o : RR)
  /-- CTZ (R129): Counts the trailing zero bits of xa into xd. -/
  | ctz (o : RR)
  /-- POPC (R129): Counts the set bits of xa into xd. -/
  | popc (o : RR)
  /-- ADDI (R130): Adds the sign-extended imm15 to xa and writes xd. -/
  | addi (o : RRI)
  /-- ANDI (R130): ANDs xa with the sign-extended immediate. -/
  | andi (o : RRI)
  /-- ORI (R130): ORs xa with the sign-extended immediate. -/
  | ori (o : RRI)
  /-- XORI (R130): XORs xa with the sign-extended immediate. -/
  | xori (o : RRI)
  /-- SLTI (R130): Signed compare of xa with the immediate, writing 1 or 0. -/
  | slti (o : RRI)
  /-- SLTNI (R130): Unsigned compare of xa with the sign-extended immediate, writing 1 or 0. -/
  | sltni (o : RRI)
  /-- SHLI (R130): Shifts xa left by an immediate of 0 to 63. -/
  | shli (o : RRSh)
  /-- SHRI (R130): Shifts xa right logically by an immediate of 0 to 63. -/
  | shri (o : RRSh)
  /-- SHAI (R130): Shifts xa right arithmetically by an immediate of 0 to 63. -/
  | shai (o : RRSh)
  /-- LUI (R132): Writes the sign-extended imm20 shifted left by 16 to xd. -/
  | lui (o : RI20)
  /-- ADPC (R132): Writes Pc + 8 + (imm20 << 16) to xd. -/
  | adpc (o : RI20)
  /-- LD8 (R133): Loads a sign-extended byte after the access checks. -/
  | ld8 (o : RRI)
  /-- LD16 (R133): Loads a sign-extended halfword. -/
  | ld16 (o : RRI)
  /-- LD32 (R133): Loads a sign-extended word. -/
  | ld32 (o : RRI)
  /-- LD64 (R133): Loads a doubleword. -/
  | ld64 (o : RRI)
  /-- LDN8 (R133): Loads a zero-extended byte. -/
  | ldn8 (o : RRI)
  /-- LDN16 (R133): Loads a zero-extended halfword. -/
  | ldn16 (o : RRI)
  /-- LDN32 (R133): Loads a zero-extended word. -/
  | ldn32 (o : RRI)
  /-- ST8 (R133): Stores the low byte of xs. -/
  | st8 (o : RRI)
  /-- ST16 (R133): Stores the low halfword of xs. -/
  | st16 (o : RRI)
  /-- ST32 (R133): Stores the low word of xs. -/
  | st32 (o : RRI)
  /-- ST64 (R133): Stores xs as a doubleword. -/
  | st64 (o : RRI)
  /-- AMO_ADD (R318): Atomically adds xb to memory and returns the old value. -/
  | amoAdd (o : AmoOp)
  /-- AMO_SWAP (R318): Atomically swaps xb into memory and returns the old value. -/
  | amoSwap (o : AmoOp)
  /-- AMO_AND (R318): Atomic bitwise AND into memory. -/
  | amoAnd (o : AmoOp)
  /-- AMO_OR (R318): Atomic bitwise OR into memory. -/
  | amoOr (o : AmoOp)
  /-- AMO_XOR (R318): Atomic bitwise XOR into memory. -/
  | amoXor (o : AmoOp)
  /-- AMO_MIN (R318): Atomic signed minimum into memory. -/
  | amoMin (o : AmoOp)
  /-- AMO_MAX (R318): Atomic signed maximum into memory. -/
  | amoMax (o : AmoOp)
  /-- AMO_MINN (R318): Atomic unsigned minimum into memory. -/
  | amoMinn (o : AmoOp)
  /-- AMO_MAXN (R318): Atomic unsigned maximum into memory. -/
  | amoMaxn (o : AmoOp)
  /-- AMO_CAS (R318): Atomic compare-and-swap against the old xd value. -/
  | amoCas (o : AmoOp)
  /-- CLAIM (R322): Atomically claims up to xb iterations from a claim block, setting vl and returning the base. -/
  | claim (o : RRR)
  /-- BEQ (R137): Branches if xa == xb. -/
  | beq (o : BranchOp)
  /-- BNE (R137): Branches if xa != xb. -/
  | bne (o : BranchOp)
  /-- BLT (R137): Branches if xa < xb signed. -/
  | blt (o : BranchOp)
  /-- BGE (R137): Branches if xa >= xb signed. -/
  | bge (o : BranchOp)
  /-- BLTN (R137): Branches if xa < xb unsigned. -/
  | bltn (o : BranchOp)
  /-- BGEN (R137): Branches if xa >= xb unsigned. -/
  | bgen (o : BranchOp)
  /-- JAL (R138): Jumps PC-relative and writes the link address. -/
  | jal (o : RI20)
  /-- JALR (R138): Jumps to xa + imm and writes the link address; a misaligned target raises ALIGN. -/
  | jalr (o : RRI)
  /-- FADD (R141): Scalar floating-point addition, rounded under frm. -/
  | fadd (o : FOp2)
  /-- FSUB (R141): Scalar floating-point subtraction. -/
  | fsub (o : FOp2)
  /-- FMUL (R141): Scalar floating-point multiplication. -/
  | fmul (o : FOp2)
  /-- FDIV (R141): Scalar floating-point division. -/
  | fdiv (o : FOp2)
  /-- FSQRT (R141): Scalar floating-point square root. -/
  | fsqrt (o : FOp1)
  /-- FMIN (R143): Scalar minimumNumber. -/
  | fmin (o : FOp2)
  /-- FMAX (R143): Scalar maximumNumber. -/
  | fmax (o : FOp2)
  /-- FEQ (R143): Writes 1 if the operands are equal. -/
  | feq (o : FOp2)
  /-- FLT (R143): Writes 1 if xa < xb. -/
  | flt (o : FOp2)
  /-- FLE (R143): Writes 1 if xa <= xb. -/
  | fle (o : FOp2)
  /-- FCLASS (R143): Writes the class word of xa. -/
  | fclass (o : FOp1)
  /-- FSGNJ (R143): Writes xa with the sign of xb. -/
  | fsgnj (o : FOp2)
  /-- FSGNJN (R143): Writes xa with the complemented sign of xb. -/
  | fsgnjn (o : FOp2)
  /-- FCVTFI (R144): Converts floating point to an integer type, saturating. -/
  | fcvtfi (o : FCvtInt)
  /-- FCVTIF (R145): Converts an integer type to floating point. -/
  | fcvtif (o : FCvtInt)
  /-- FCVTFF (R145): Converts between floating-point formats. -/
  | fcvtff (o : FCvtFlt)
  /-- FMA (R146): Computes xa × xb + xc with one rounding. -/
  | fma (o : FOp3)
  /-- FMS (R146): Computes xa × xb − xc with one rounding. -/
  | fms (o : FOp3)
  /-- FNMA (R146): Computes −(xa × xb) + xc with one rounding. -/
  | fnma (o : FOp3)
  /-- FNMS (R146): Computes −(xa × xb) − xc with one rounding. -/
  | fnms (o : FOp3)
  /-- CSRGET (R148): Reads a CSR into xd, serialising the strand. -/
  | csrget (o : CsrGet)
  /-- CSRPUT (R148): Writes xa to a CSR. -/
  | csrput (o : CsrPut)
  /-- CSRSWAP (R148): Writes xa to a CSR and returns its old value. -/
  | csrswap (o : CsrRmw)
  /-- CSRSET (R148): ORs xa into a CSR and returns its old value. -/
  | csrset (o : CsrRmw)
  /-- CSRCLR (R148): Clears the bits of xa in a CSR and returns its old value. -/
  | csrclr (o : CsrRmw)
  /-- LANEGRANT_WRITE (R109): An accepted lanegrant write changes the lane groups held and resets the vector state, streams and tiles. -/
  | lanegrantWrite (v : Word)
  /-- CTXID_WRITE (R359): A write of ctxid changes the current context, subject to the task-context check. -/
  | ctxidWrite (v : Word)
  /-- VOWNER_WRITE (R359): A write of vowner relabels the owner of the vector state. -/
  | vownerWrite (v : Word)
  /-- PCNTSEL_WRITE (R393): Assigns an event to the counter named by IDX. -/
  | pcntselWrite (v : Word)
  /-- FENCE (R324): Orders earlier accesses of the selected kinds before later ones at a scope, optionally waiting on queue commands. -/
  | fence (o : FenceOp)
  /-- FENCE_E_WAIT_DONE (R324): A FENCE with E = 1 resumes once every earlier queue command is performed or held in a halted queue. -/
  | fenceEWaitDone (who : StrandId)
  /-- SYSCALL (R349): Raises the SYSCALL trap. -/
  | syscall
  /-- TRAPRET (R348): Returns from a trap by the resume word in trscratch. -/
  | trapret
  /-- RESUME (R347): Settles one pending scoreboard entry by replay, zero or propagate. -/
  | resume (o : ResumeOp)
  /-- TRACK (R351): Clears trstat.IN. -/
  | track
  /-- YIELD (R358): Pre-empts the gang if a PREEMPT is outstanding or a gang waits, else does nothing. -/
  | yield
  /-- HALT (R352): Ends the task once its accesses are performed. -/
  | halt
  /-- WAITEV (R353): Waits for and removes a supervisor event, storing its record. -/
  | waitev (o : RRR)
  /-- WAITEV_WAKE (R353): A sleeping WAITEV is woken by an arriving event and delivers it. -/
  | waitevWake (who : StrandId)
  /-- WAITEV_TIMEOUT (R353): A WAITEV's timeout expires and it writes 0 to xd. -/
  | waitevTimeout (who : StrandId)
  /-- INVTLB (R354): Invalidates TLB entries of the partition for an address or entirely. -/
  | invtlb (o : InvtlbOp)
  /-- EBREAK (R349): Raises the EBREAK trap. -/
  | ebreak
  /-- CACHE (R355): Performs a cache operation on the line holding xa. -/
  | cache (o : CacheOp)
  /-- SETVL (R174): Sets vl to min(xa, vlmax). -/
  | setvl (o : SetvlOp)
  /-- SETVT (R175): Sets vtype MZ, S, TP and EW and clips vl. -/
  | setvt (o : SetvtOp)
  /-- VCONFIG (R176): Changes vnreg, zeroing vector registers and unbinding streams. -/
  | vconfig (o : VconfigOp)
  /-- SETVLF (R177): Sets vl and loads the segment-boundary mask ms from memory. -/
  | setvlf (o : SetvlfOp)
  /-- MENTER (R260): Enters matrix mode. -/
  | menter
  /-- MEXIT (R260): Leaves matrix mode. -/
  | mexit
  /-- VADD_VV (R179): Element-wise add, vector-vector. -/
  | vaddVV (o : VV)
  /-- VADD_VS (R179): Element-wise add, vector-scalar. -/
  | vaddVS (o : VS)
  /-- VADD_VI (R179): Element-wise add, vector-immediate. -/
  | vaddVI (o : VI)
  /-- VSUB_VV (R179): Element-wise subtract, vector-vector. -/
  | vsubVV (o : VV)
  /-- VSUB_VS (R179): Element-wise subtract, vector-scalar. -/
  | vsubVS (o : VS)
  /-- VSUB_VI (R179): Element-wise subtract, vector-immediate. -/
  | vsubVI (o : VI)
  /-- VAND_VV (R179): Element-wise AND, vector-vector. -/
  | vandVV (o : VV)
  /-- VAND_VS (R179): Element-wise AND, vector-scalar. -/
  | vandVS (o : VS)
  /-- VAND_VI (R179): Element-wise AND, vector-immediate. -/
  | vandVI (o : VI)
  /-- VOR_VV (R179): Element-wise OR, vector-vector. -/
  | vorVV (o : VV)
  /-- VOR_VS (R179): Element-wise OR, vector-scalar. -/
  | vorVS (o : VS)
  /-- VOR_VI (R179): Element-wise OR, vector-immediate. -/
  | vorVI (o : VI)
  /-- VXOR_VV (R179): Element-wise XOR, vector-vector. -/
  | vxorVV (o : VV)
  /-- VXOR_VS (R179): Element-wise XOR, vector-scalar. -/
  | vxorVS (o : VS)
  /-- VXOR_VI (R179): Element-wise XOR, vector-immediate. -/
  | vxorVI (o : VI)
  /-- VSHL_VV (R179): Element-wise shift left, vector-vector. -/
  | vshlVV (o : VV)
  /-- VSHL_VS (R179): Element-wise shift left, vector-scalar. -/
  | vshlVS (o : VS)
  /-- VSHL_VI (R179): Element-wise shift left, vector-immediate. -/
  | vshlVI (o : VI)
  /-- VSHR_VV (R179): Element-wise logical shift right, vector-vector. -/
  | vshrVV (o : VV)
  /-- VSHR_VS (R179): Element-wise logical shift right, vector-scalar. -/
  | vshrVS (o : VS)
  /-- VSHR_VI (R179): Element-wise logical shift right, vector-immediate. -/
  | vshrVI (o : VI)
  /-- VSHA_VV (R179): Element-wise arithmetic shift right, vector-vector. -/
  | vshaVV (o : VV)
  /-- VSHA_VS (R179): Element-wise arithmetic shift right, vector-scalar. -/
  | vshaVS (o : VS)
  /-- VSHA_VI (R179): Element-wise arithmetic shift right, vector-immediate. -/
  | vshaVI (o : VI)
  /-- VMIN_VV (R179): Element-wise signed minimum, vector-vector. -/
  | vminVV (o : VV)
  /-- VMIN_VS (R179): Element-wise signed minimum, vector-scalar. -/
  | vminVS (o : VS)
  /-- VMIN_VI (R179): Element-wise signed minimum, vector-immediate. -/
  | vminVI (o : VI)
  /-- VMAX_VV (R179): Element-wise signed maximum, vector-vector. -/
  | vmaxVV (o : VV)
  /-- VMAX_VS (R179): Element-wise signed maximum, vector-scalar. -/
  | vmaxVS (o : VS)
  /-- VMAX_VI (R179): Element-wise signed maximum, vector-immediate. -/
  | vmaxVI (o : VI)
  /-- VMINN_VV (R179): Element-wise unsigned minimum, vector-vector. -/
  | vminnVV (o : VV)
  /-- VMINN_VS (R179): Element-wise unsigned minimum, vector-scalar. -/
  | vminnVS (o : VS)
  /-- VMINN_VI (R179): Element-wise unsigned minimum, vector-immediate. -/
  | vminnVI (o : VI)
  /-- VMAXN_VV (R179): Element-wise unsigned maximum, vector-vector. -/
  | vmaxnVV (o : VV)
  /-- VMAXN_VS (R179): Element-wise unsigned maximum, vector-scalar. -/
  | vmaxnVS (o : VS)
  /-- VMAXN_VI (R179): Element-wise unsigned maximum, vector-immediate. -/
  | vmaxnVI (o : VI)
  /-- VMUL_VV (R179): Element-wise low product, vector-vector. -/
  | vmulVV (o : VV)
  /-- VMUL_VS (R179): Element-wise low product, vector-scalar. -/
  | vmulVS (o : VS)
  /-- VMULH_VV (R179): Element-wise signed high product, vector-vector. -/
  | vmulhVV (o : VV)
  /-- VMULH_VS (R179): Element-wise signed high product, vector-scalar. -/
  | vmulhVS (o : VS)
  /-- VMULHN_VV (R179): Element-wise unsigned high product, vector-vector. -/
  | vmulhnVV (o : VV)
  /-- VMULHN_VS (R179): Element-wise unsigned high product, vector-scalar. -/
  | vmulhnVS (o : VS)
  /-- VDIV_VV (R179): Element-wise signed division, vector-vector. -/
  | vdivVV (o : VV)
  /-- VDIV_VS (R179): Element-wise signed division, vector-scalar. -/
  | vdivVS (o : VS)
  /-- VDIVN_VV (R179): Element-wise unsigned division, vector-vector. -/
  | vdivnVV (o : VV)
  /-- VDIVN_VS (R179): Element-wise unsigned division, vector-scalar. -/
  | vdivnVS (o : VS)
  /-- VREM_VV (R179): Element-wise signed remainder, vector-vector. -/
  | vremVV (o : VV)
  /-- VREM_VS (R179): Element-wise signed remainder, vector-scalar. -/
  | vremVS (o : VS)
  /-- VREMN_VV (R179): Element-wise unsigned remainder, vector-vector. -/
  | vremnVV (o : VV)
  /-- VREMN_VS (R179): Element-wise unsigned remainder, vector-scalar. -/
  | vremnVS (o : VS)
  /-- VMACC_VV (R179): Element-wise multiply-accumulate, vector-vector. -/
  | vmaccVV (o : VV)
  /-- VMACC_VS (R179): Element-wise multiply-accumulate, vector-scalar. -/
  | vmaccVS (o : VS)
  /-- VMERGE_VV (R181): Selects y or x per mask bit, vector-vector. -/
  | vmergeVV (o : VV)
  /-- VMERGE_VS (R181): Selects the scalar or x per mask bit. -/
  | vmergeVS (o : VS)
  /-- VMERGE_VI (R181): Selects the immediate or x per mask bit. -/
  | vmergeVI (o : VI)
  /-- VMV_VV (R179): Copies a vector into vd. -/
  | vmvVV (o : VV1)
  /-- VMV_VS (R179): Copies a scalar into each active element. -/
  | vmvVS (o : VS1)
  /-- VMV_VI (R179): Copies an immediate into each active element. -/
  | vmvVI (o : VI1)
  /-- VADDS_VV (R179): Signed saturating add, vector-vector. -/
  | vaddsVV (o : VV)
  /-- VADDS_VS (R179): Signed saturating add, vector-scalar. -/
  | vaddsVS (o : VS)
  /-- VADDS_VI (R179): Signed saturating add, vector-immediate. -/
  | vaddsVI (o : VI)
  /-- VSUBS_VV (R179): Signed saturating subtract, vector-vector. -/
  | vsubsVV (o : VV)
  /-- VSUBS_VS (R179): Signed saturating subtract, vector-scalar. -/
  | vsubsVS (o : VS)
  /-- VSUBS_VI (R179): Signed saturating subtract, vector-immediate. -/
  | vsubsVI (o : VI)
  /-- VADDSN_VV (R179): Unsigned saturating add, vector-vector. -/
  | vaddsnVV (o : VV)
  /-- VADDSN_VS (R179): Unsigned saturating add, vector-scalar. -/
  | vaddsnVS (o : VS)
  /-- VADDSN_VI (R179): Unsigned saturating add, vector-immediate. -/
  | vaddsnVI (o : VI)
  /-- VSUBSN_VV (R179): Unsigned saturating subtract, vector-vector. -/
  | vsubsnVV (o : VV)
  /-- VSUBSN_VS (R179): Unsigned saturating subtract, vector-scalar. -/
  | vsubsnVS (o : VS)
  /-- VSUBSN_VI (R179): Unsigned saturating subtract, vector-immediate. -/
  | vsubsnVI (o : VI)
  /-- VAVG_VV (R179): Rounded average, vector-vector. -/
  | vavgVV (o : VV)
  /-- VAVG_VS (R179): Rounded average, vector-scalar. -/
  | vavgVS (o : VS)
  /-- VSMUL_VV (R179): Fractional saturating multiply, vector-vector. -/
  | vsmulVV (o : VV)
  /-- VSMUL_VS (R179): Fractional saturating multiply, vector-scalar. -/
  | vsmulVS (o : VS)
  /-- VSSHR_VV (R179): Rounding arithmetic shift right, vector-vector. -/
  | vsshrVV (o : VV)
  /-- VSSHR_VS (R179): Rounding arithmetic shift right, vector-scalar. -/
  | vsshrVS (o : VS)
  /-- VSSHR_VI (R179): Rounding arithmetic shift right, vector-immediate. -/
  | vsshrVI (o : VI)
  /-- VWADD_VV (R179): Widening signed add, vector-vector. -/
  | vwaddVV (o : VVW)
  /-- VWADD_VS (R179): Widening signed add, vector-scalar. -/
  | vwaddVS (o : VS)
  /-- VWADDN_VV (R179): Widening unsigned add, vector-vector. -/
  | vwaddnVV (o : VVW)
  /-- VWADDN_VS (R179): Widening unsigned add, vector-scalar. -/
  | vwaddnVS (o : VS)
  /-- VWMUL_VV (R179): Widening signed multiply, vector-vector. -/
  | vwmulVV (o : VV)
  /-- VWMUL_VS (R179): Widening signed multiply, vector-scalar. -/
  | vwmulVS (o : VS)
  /-- VWMULN_VV (R179): Widening unsigned multiply, vector-vector. -/
  | vwmulnVV (o : VV)
  /-- VWMULN_VS (R179): Widening unsigned multiply, vector-scalar. -/
  | vwmulnVS (o : VS)
  /-- VWMACC_VV (R179): Widening signed multiply-accumulate, vector-vector. -/
  | vwmaccVV (o : VV)
  /-- VWMACC_VS (R179): Widening signed multiply-accumulate, vector-scalar. -/
  | vwmaccVS (o : VS)
  /-- VWMACCN_VV (R179): Widening unsigned multiply-accumulate, vector-vector. -/
  | vwmaccnVV (o : VV)
  /-- VWMACCN_VS (R179): Widening unsigned multiply-accumulate, vector-scalar. -/
  | vwmaccnVS (o : VS)
  /-- VNSHR_VV (R179): Narrowing rounding shift right, vector-vector. -/
  | vnshrVV (o : VVW)
  /-- VNSHR_VS (R179): Narrowing rounding shift right, vector-scalar. -/
  | vnshrVS (o : VS)
  /-- VNSHR_VI (R179): Narrowing rounding shift right, vector-immediate. -/
  | vnshrVI (o : VI)
  /-- VNCLIP_VV (R179): Narrowing signed round and clip, vector-vector. -/
  | vnclipVV (o : VVW)
  /-- VNCLIP_VS (R179): Narrowing signed round and clip, vector-scalar. -/
  | vnclipVS (o : VS)
  /-- VNCLIP_VI (R179): Narrowing signed round and clip, vector-immediate. -/
  | vnclipVI (o : VI)
  /-- VNCLIPN_VV (R179): Narrowing unsigned round and clip, vector-vector. -/
  | vnclipnVV (o : VVW)
  /-- VNCLIPN_VS (R179): Narrowing unsigned round and clip, vector-scalar. -/
  | vnclipnVS (o : VS)
  /-- VNCLIPN_VI (R179): Narrowing unsigned round and clip, vector-immediate. -/
  | vnclipnVI (o : VI)
  /-- VCMP_VV (R182): Integer compare of two vectors into a mask. -/
  | vcmpVV (o : CmpVV)
  /-- VCMP_VS (R182): Integer compare of a vector with a scalar into a mask. -/
  | vcmpVS (o : CmpVS)
  /-- VCMP_VI (R182): Integer compare of a vector with an immediate into a mask. -/
  | vcmpVI (o : CmpVI)
  /-- MAND (R183): Mask AND. -/
  | mand (o : MaskOp2)
  /-- MOR (R183): Mask OR. -/
  | mor (o : MaskOp2)
  /-- MXOR (R183): Mask XOR. -/
  | mxor (o : MaskOp2)
  /-- MANDN (R183): Mask AND with complement. -/
  | mandn (o : MaskOp2)
  /-- MNOT (R183): Mask complement. -/
  | mnot (o : MaskOp1)
  /-- MORX (R184): Exclusive running OR of a mask. -/
  | morx (o : MaskOp1)
  /-- MORI (R184): Inclusive running OR of a mask. -/
  | mori (o : MaskOp1)
  /-- MCNT (R184): Counts set active mask bits into xd. -/
  | mcnt (o : MaskToX)
  /-- MLOW (R184): Writes the lowest set active mask bit index into xd. -/
  | mlow (o : MaskToX)
  /-- MCUM (R184): Running count of set mask bits into a vector. -/
  | mcum (o : MaskToV)
  /-- VSEQ (R184): Writes each element's index. -/
  | vseq (o : SeqOp)
  /-- VCONFL (R185): Counts earlier active equal values per element. -/
  | vconfl (o : VV1)
  /-- MMOVF (R186): Copies mf or ms into a mask register. -/
  | mmovf (o : MmovfOp)
  /-- VSLIDEUP (R188): Slides elements up by a scalar offset. -/
  | vslideup (o : VS)
  /-- VSLIDEDN (R188): Slides elements down by a scalar offset. -/
  | vslidedn (o : VS)
  /-- VPERMV (R188): Permutes elements by an index vector. -/
  | vpermv (o : VV)
  /-- VCOMPRESS (R188): Packs the elements selected by a mask. -/
  | vcompress (o : CompressOp)
  /-- VMVXS (R188): Moves element 0 to a scalar register. -/
  | vmvxs (o : VToX)
  /-- VMVSX (R188): Moves a scalar into element 0. -/
  | vmvsx (o : XToV)
  /-- VBCAST (R188): Broadcasts a scalar to active elements. -/
  | vbcast (o : VS1)
  /-- VWHILE (R190): Advances the index, counts down the remaining elements, writes the next mask and branches. -/
  | vwhile (o : LoopOp)
  /-- VWHILEM (R190): Stops at the first set mask bit or continues as VWHILE. -/
  | vwhilem (o : LoopOp)
  /-- VFADD_VV (R197): Vector floating add, vector-vector. -/
  | vfaddVV (o : FVV)
  /-- VFADD_VS (R197): Vector floating add, vector-scalar. -/
  | vfaddVS (o : FVS)
  /-- VFSUB_VV (R197): Vector floating subtract, vector-vector. -/
  | vfsubVV (o : FVV)
  /-- VFSUB_VS (R197): Vector floating subtract, vector-scalar. -/
  | vfsubVS (o : FVS)
  /-- VFMUL_VV (R197): Vector floating multiply, vector-vector. -/
  | vfmulVV (o : FVV)
  /-- VFMUL_VS (R197): Vector floating multiply, vector-scalar. -/
  | vfmulVS (o : FVS)
  /-- VFDIV_VV (R197): Vector floating divide, vector-vector. -/
  | vfdivVV (o : FVV)
  /-- VFDIV_VS (R197): Vector floating divide, vector-scalar. -/
  | vfdivVS (o : FVS)
  /-- VFSQRT (R197): Vector floating square root. -/
  | vfsqrt (o : FV)
  /-- VFMIN_VV (R197): Vector minimumNumber, vector-vector. -/
  | vfminVV (o : FVV)
  /-- VFMIN_VS (R197): Vector minimumNumber, vector-scalar. -/
  | vfminVS (o : FVS)
  /-- VFMAX_VV (R197): Vector maximumNumber, vector-vector. -/
  | vfmaxVV (o : FVV)
  /-- VFMAX_VS (R197): Vector maximumNumber, vector-scalar. -/
  | vfmaxVS (o : FVS)
  /-- VFMA_VV (R197): Vector fused x × y + z, vector-vector. -/
  | vfmaVV (o : FVVV)
  /-- VFMA_VS (R197): Vector fused x × y + z, vector-scalar. -/
  | vfmaVS (o : FVSS)
  /-- VFMS_VV (R197): Vector fused x × y − z, vector-vector. -/
  | vfmsVV (o : FVVV)
  /-- VFMS_VS (R197): Vector fused x × y − z, vector-scalar. -/
  | vfmsVS (o : FVSS)
  /-- VFNMA_VV (R197): Vector fused −(x × y) + z, vector-vector. -/
  | vfnmaVV (o : FVVV)
  /-- VFNMA_VS (R197): Vector fused −(x × y) + z, vector-scalar. -/
  | vfnmaVS (o : FVSS)
  /-- VFWMA_VV (R198): Widening fused multiply-add, vector-vector. -/
  | vfwmaVV (o : FVV)
  /-- VFWMA_VS (R198): Widening fused multiply-add, vector-scalar. -/
  | vfwmaVS (o : FVS)
  /-- VFSGN_VV (R199): Sign injection, vector-vector. -/
  | vfsgnVV (o : FVV)
  /-- VFSGN_VS (R199): Sign injection, vector-scalar. -/
  | vfsgnVS (o : FVS)
  /-- VFSGNN_VV (R199): Negated sign injection, vector-vector. -/
  | vfsgnnVV (o : FVV)
  /-- VFSGNN_VS (R199): Negated sign injection, vector-scalar. -/
  | vfsgnnVS (o : FVS)
  /-- VFCLASS (R199): Writes the class word of each element. -/
  | vfclass (o : FV)
  /-- VFEXP2 (R200): Computes 2^x per element. -/
  | vfexp2 (o : FV)
  /-- VFRCP (R200): Computes 1 ÷ x per element. -/
  | vfrcp (o : FV)
  /-- VFRSQRT (R200): Computes 1 ÷ sqrt(x) per element. -/
  | vfrsqrt (o : FV)
  /-- VFCMP_VV (R201): Floating compare of two vectors into a mask. -/
  | vfcmpVV (o : FCmpVV)
  /-- VFCMP_VS (R201): Floating compare of a vector with a scalar into a mask. -/
  | vfcmpVS (o : FCmpVS)
  /-- VFCVT (R203): Converts each element between formats. -/
  | vfcvt (o : CvtOp)
  /-- VREDSUM (R208): Integer sum reduction per segment. -/
  | vredsum (o : VV)
  /-- VREDMIN (R208): Signed minimum reduction. -/
  | vredmin (o : VV)
  /-- VREDMAX (R208): Signed maximum reduction. -/
  | vredmax (o : VV)
  /-- VREDAND (R208): Bitwise AND reduction. -/
  | vredand (o : VV)
  /-- VREDOR (R208): Bitwise OR reduction. -/
  | vredor (o : VV)
  /-- VREDXOR (R208): Bitwise XOR reduction. -/
  | vredxor (o : VV)
  /-- VWREDSUM (R208): Widening signed sum reduction. -/
  | vwredsum (o : VV)
  /-- VFREDSUM (R209): Floating sum reduction over a fixed tree. -/
  | vfredsum (o : FVV)
  /-- VFREDOSUM (R210): Floating sum reduction in ascending order. -/
  | vfredosum (o : FVV)
  /-- VFREDMIN (R208): Floating minimumNumber reduction. -/
  | vfredmin (o : FVV)
  /-- VFREDMAX (R208): Floating maximumNumber reduction. -/
  | vfredmax (o : FVV)
  /-- VSCAN (R212): Inclusive integer scan per segment. -/
  | vscan (o : VV)
  /-- VFSCAN (R212): Inclusive ascending floating scan per segment. -/
  | vfscan (o : FVV)
  /-- VLD (R238): Unit-stride vector load. -/
  | vld (o : VldOp)
  /-- VLDS (R238): Strided vector load. -/
  | vlds (o : VldsOp)
  /-- VLDX (R238): Indexed vector gather. -/
  | vldx (o : VldxOp)
  /-- VLDSEG (R238): Segment vector load. -/
  | vldseg (o : VldsegOp)
  /-- VLDFF (R239): Fault-first load that marks unloaded elements in mf. -/
  | vldff (o : VldffOp)
  /-- VST (R240): Unit-stride vector store, ordered or unordered, optionally with a progress word. -/
  | vst (o : VstOp)
  /-- VSTS (R240): Strided vector store. -/
  | vsts (o : VstsOp)
  /-- VSTX (R240): Indexed vector scatter. -/
  | vstx (o : VstxOp)
  /-- VSTSEG (R240): Segment vector store. -/
  | vstseg (o : VstsegOp)
  /-- VSCADD (R242): Atomic scatter-add through the combining network. -/
  | vscadd (o : VldxOp)
  /-- VWAIT (R326): Waits until watched words reach their expected values or the timeout expires. -/
  | vwait (o : VwaitOp)
  /-- VWAIT_WAKE (R327): A write to a watched word, or a window re-read, wakes a sleeping VWAIT to re-read. -/
  | vwaitWake (who : StrandId)
  /-- VWAIT_TIMEOUT (R326): A VWAIT's deadline expires and it writes its unmet mask. -/
  | vwaitTimeout (who : StrandId)
  /-- STCFG (R244): Loads a stream pattern block. -/
  | stcfg (o : StcfgOp)
  /-- STBIND (R245): Binds a stream to a vector register for reading or writing. -/
  | stbind (o : StbindOp)
  /-- STUNBIND (R246): Unbinds a stream after older convoys retire. -/
  | stunbind (o : StunbindOp)
  /-- STSTAT (R247): Returns the stream status word. -/
  | ststat (o : StstatOp)
  /-- STREAM_FETCH (R227): A read stream's fetch of elements arrives, or meets a fault that stops the stream. -/
  | streamFetch (who : StrandId) (s : BitVec 3) (n : Nat)
  /-- QCOPY (R249): Enters a copy command into an engine queue. -/
  | qcopy (o : QcopyOp)
  /-- QGATHER (R249): Enters a gather command. -/
  | qgather (o : QblockOp)
  /-- QSCATTER (R249): Enters a scatter command. -/
  | qscatter (o : QblockOp)
  /-- QPLOAD (R249): Enters a plane-load command. -/
  | qpload (o : QblockOp)
  /-- QPSTORE (R249): Enters a plane-store command. -/
  | qpstore (o : QblockOp)
  /-- QSPLOAD (R290): Enters an Onion sparse-load command. -/
  | qspload (o : QblockOp)
  /-- QFENCE (R255): Enters a fence that joins several queues. -/
  | qfence (o : QfenceOp)
  /-- QSIGNAL (R249): Enters a signal command. -/
  | qsignal (o : QsignalOp)
  /-- QSTAT (R257): Returns the queue status and fault record, optionally waiting, clearing, retrying or dropping. -/
  | qstat (o : QstatOp)
  /-- QSTAT_WAIT_DONE (R257): A QSTAT with W resumes once its queue is empty or halted, raising RESIDUAL if due. -/
  | qstatWaitDone (who : StrandId)
  /-- QUEUE_ENTRY_ROOM (R229): A QUEUE word waiting at a full queue proceeds once a place frees. -/
  | queueEntryRoom (who : StrandId)
  /-- QCOPY_PERFORM (R251): The engine copies the bytes and notifies, or halts the queue on a fault. -/
  | qcopyPerform (who : StrandId) (j : BitVec 2)
  /-- QGATHER_PERFORM (R252): The engine gathers indexed elements into the packed data. -/
  | qgatherPerform (who : StrandId) (j : BitVec 2)
  /-- QSCATTER_PERFORM (R252): The engine scatters packed elements to indexed addresses. -/
  | qscatterPerform (who : StrandId) (j : BitVec 2)
  /-- QPLOAD_PERFORM (R253): The engine writes a slice-panel as bit planes and sets its plane record. -/
  | qploadPerform (who : StrandId) (j : BitVec 2)
  /-- QPSTORE_PERFORM (R253): The engine writes a slice-panel back to memory. -/
  | qpstorePerform (who : StrandId) (j : BitVec 2)
  /-- QSPLOAD_PERFORM (R294): The Onion decomposes the tile into terms and a residual and writes the term set. -/
  | qsploadPerform (who : StrandId) (j : BitVec 2)
  /-- QFENCE_PASS (R255): A fence passes once all joined queues have performed earlier commands, and notifies. -/
  | qfencePass (who : StrandId) (j : BitVec 2)
  /-- QSIGNAL_PERFORM (R256): Stores the value and atomically adds to the signal word with release order. -/
  | qsignalPerform (who : StrandId) (j : BitVec 2)
  /-- WATCH_IMPRECISE (R332): A performed queue command that matched a watchpoint raises WATCH at the next boundary. -/
  | watchImprecise (who : StrandId) (j : BitVec 2)
  /-- MZERO (R279): Sets the tile kind and resets its cells and group sums. -/
  | mzero (o : MzeroOp)
  /-- MUPD (R280): Rank-one update of a tile. -/
  | mupd (o : MupdOp)
  /-- MUPDN (R280): Negated rank-one update of a tile. -/
  | mupdn (o : MupdOp)
  /-- MMAC (R281): Multiplies A panels by B panels into exact group sums, then ends the group. -/
  | mmac (o : MmacOp)
  /-- MREAD (R284): Reads a tile row, rounded or raw, into a vector. -/
  | mread (o : MreadOp)
  /-- MWRITE (R285): Writes a raw part of a tile row. -/
  | mwrite (o : MwriteOp)
  /-- MSCL (R286): Sets the block scales. -/
  | mscl (o : MsclOp)
  /-- MZPT (R287): Sets zero points or flags a refusal in ZR. -/
  | mzpt (o : MzptOp)
  /-- MSTAT (R288): Returns the tile status. -/
  | mstat (o : MstatOp)
  /-- SPMMAC (R302): Adds the structured terms of a term set into a row window. -/
  | spmmac (o : SpmmacOp)
  /-- SPRES (R303): Applies the residual list of a term set to a row window. -/
  | spres (o : SpresOp)
  /-- SPSTAT (R304): Returns the status word of a term set. -/
  | spstat (o : SpstatOp)
  /-- VSAVE (R361): Writes the vector save image. -/
  | vsave (a : XReg)
  /-- VRESTORE (R362): Restores vector state from an image or raises VIMAGE. -/
  | vrestore (a : XReg)
  /-- PORTQ (R378): Returns the state word of a port group. -/
  | portq (o : PortqOp)
  /-- PORTSW (R379): Requests a Pliez switch of a port group and waits for the drain. -/
  | portsw (o : PortswOp)
  /-- LATE_ERROR (R346): A late data, link or abort error stops the strand with one LATE trap and a scoreboard image. -/
  | lateError (who : StrandId) (stop : LatePoint) (errs : List Nat)
  /-- SCOREBOARD_SETTLE_TIMEOUT (R356): An entry still unsettled 100 µs after a pre-emption request is settled by propagate. -/
  | scoreboardSettleTimeout (who : StrandId)
  /-- QUEUE_DOORBELL (R90): A write to a tail word sets the pending bit and runs selection, checking QOVER. -/
  | queueDoorbell (q : QueueId)
  /-- QUEUE_RUN_START (R92): Writing RUN = 1 latches the configuration and starts or resumes the queue, or faults QCONFIG. -/
  | queueRunStart (q : QueueId)
  /-- QUEUE_RUN_STOP (R92): Writing RUN = 0 stops fetching. -/
  | queueRunStop (q : QueueId)
  /-- LANDING_SELECT (R102): Selection runs periodically, at least every 10 µs, choosing queues and placing launches. -/
  | landingSelect (die : BitVec 1)
  /-- PRIORITY_AGING (R102): Each 10 ms ready without a start lowers a queue's effective level. -/
  | priorityAging (q : QueueId)
  /-- SLICE_END (R104): A launch whose deficit is spent while a gang waits is pre-empted. -/
  | sliceEnd (l : Nat)
  /-- NOP (R98): A packet that does nothing and retires. -/
  | nop (p : Packet)
  /-- LAUNCH (R97): A packet that is validated and turned into tasks under the gang rule. -/
  | launch (p : Packet)
  /-- WRITE (R98): A packet that performs up to three 64-bit stores. -/
  | write (p : Packet)
  /-- SIGNAL (R98): A packet that performs a release signal. -/
  | signal (p : Packet)
  /-- WAIT (R98): A packet that waits on a word's condition. -/
  | wait (p : Packet)
  /-- WAIT_RECHECK (R98): A holding WAIT re-reads its word on a write or every 2 µs. -/
  | waitRecheck (q : QueueId)
  /-- WAIT_TIMEOUT (R98): A WAIT's timeout elapses and the queue faults QTIMEOUT. -/
  | waitTimeout (q : QueueId)
  /-- WRITE_SIGNAL (R98): A packet that writes a word then signals. -/
  | writeSignal (p : Packet)
  /-- COPY (R98): A packet that copies bytes on a Landing copy engine. -/
  | copy (p : Packet)
  /-- COPY_DONE (R98): A Landing copy engine completes a COPY packet, which then retires. -/
  | copyDone (q : QueueId)
  /-- DEPEND (R98): A packet that holds until other queues' qdone reach thresholds. -/
  | depend (p : Packet)
  /-- DEPEND_SATISFIED (R98): A holding DEPEND step sees its threshold reached and proceeds. -/
  | dependSatisfied (q : QueueId)
  /-- FENCE_PACKET (R98): A packet that makes earlier retired packets' writes visible at a scope. -/
  | fencePacket (p : Packet)
  /-- LAUNCH_RETIRE (R392): Once all tasks halt and accesses are performed, frees strands, signals, advances qdone and sends the event. -/
  | launchRetire (l : Nat)
  /-- GANG_PREEMPT (R357): The Landing requests a gang pre-emption and raises PREEMPT on its strands. -/
  | gangPreempt (l : Nat)
  /-- PREEMPT_DEADLINE (R357): A strand not yielded 50 µs after the request is stopped at its next pre-emption point. -/
  | preemptDeadline (who : StrandId)
  /-- GANG_RESUME (R215): The Landing resumes a pre-empted gang on strands of its partition. -/
  | gangResume (l : Nat)
  /-- ENGINE_QUIESCE_TIMEOUT (R363): Engines not quiesced 100 µs after a task abort are reset. -/
  | engineQuiesceTimeout (part : Nat)
  /-- STALE_COMPLETION (R364): A completion with an old context generation is discarded and counted. -/
  | staleCompletion (part : Nat)
  /-- SWITCH_DRAIN_COMPLETE (R374): A draining group finishes its accesses and enters QUIESCED, retiring PORTSW. -/
  | switchDrainComplete (g : Nat)
  /-- SWITCH_DRAIN_LIMIT (R374): The drain limit expires; outstanding accesses fail and the group enters QUIESCED. -/
  | switchDrainLimit (g : Nat)
  /-- QUIESCE_END (R374): QUIESCED ends and the lanes begin retraining toward TARGET. -/
  | quiesceEnd (g : Nat)
  /-- RETRAIN_DONE (R374): Training at full width and rate completes and VERIFYING begins. -/
  | retrainDone (g : Nat)
  /-- TRAINING_FAIL (R374): Training fails twice and the group enters FALLBACK. -/
  | trainingFail (g : Nat)
  /-- VERIFY_PASS (R374): The protocol check passes and the group becomes ACTIVE in TARGET. -/
  | verifyPass (g : Nat)
  /-- VERIFY_FAIL (R374): The protocol check fails and the group enters FALLBACK. -/
  | verifyFail (g : Nat)
  /-- VERIFY_TIMEOUT (R374): 50 µs pass in VERIFYING and the group enters FALLBACK. -/
  | verifyTimeout (g : Nat)
  /-- FALLBACK_ACTIVE (R374): PREV retrains and verifies and the group becomes ACTIVE in PREV. -/
  | fallbackActive (g : Nat)
  /-- FALLBACK_DOWN (R374): The fallback fails or PREV is none; the group goes DOWN and stalled routes fail. -/
  | fallbackDown (g : Nat)
  /-- LINK_LOST (R374): Loss of a link, or a second lane failure, sends an ACTIVE group to RETRAINING. -/
  | linkLost (g : Nat)
  /-- LANE_FAILURE (R11): A failed lane is replaced by the group's spare lane. -/
  | laneFailure (g : Nat) (lane : Nat)
  /-- OPEN (R406): Opens a host session, optionally adopting a detached partition. -/
  | openSession (m : Msg)
  /-- ATTEST (R403): Carries an SPDM 1.3 message to the module and returns its response. -/
  | attest (m : Msg)
  /-- CREATE_PARTITION (R381): Creates a partition, zeroes its Larders and returns partid and handle. -/
  | createPartition (m : Msg)
  /-- LOAD_CODE (R29): Copies code into the arena and runs the Criloth translator. -/
  | loadCode (m : Msg)
  /-- MAP_WINDOW_MAP (R372): Maps a window into a partition's page tables. -/
  | mapWindowMap (m : Msg)
  /-- MAP_WINDOW_CHANGE (R372): Changes EN and RM of a mapped window. -/
  | mapWindowChange (m : Msg)
  /-- MAP_WINDOW_REMOVE (R372): Removes a window and invalidates its leaves. -/
  | mapWindowRemove (m : Msg)
  /-- SUBMIT (R407): Publishes one to three packets into a queue for the host. -/
  | submit (m : Msg)
  /-- READ_COUNTERS (R395): Returns a core's private counters and the partition counts. -/
  | readCounters (m : Msg)
  /-- SWITCH_PORT (R379): Requests a Pliez switch of a session-owned group. -/
  | switchPort (m : Msg)
  /-- CHECKPOINT (R381): Copies a partition's device memory and Larders to a CXL window. -/
  | checkpoint (m : Msg)
  /-- CLOSE (R381): Ends the session and tears down its partitions. -/
  | close (m : Msg)
  /-- KEEPALIVE (R383): A keepalive message from the host is received. -/
  | keepalive (m : Msg)
  /-- KEEPALIVE_SEND (R383): The device sends a keepalive when it has sent nothing for 10 ms. -/
  | keepaliveSend (session : Nat)
  /-- SESSION_LOST (R386): 50 ms without messages loses a session, revoking windows and applying the loss policy. -/
  | sessionLost (session : Nat)
  /-- ATOMICOP_COMPLETION (R384): An AtomicOp completion arrives, completing the AMO or triggering the proxy fallback or HOSTATOM. -/
  | atomicopCompletion (who : StrandId) (ok : Bool) (old : Word)
  /-- PROXY_RESPONSE (R384): The host's proxy response completes the AMO with the old value. -/
  | proxyResponse (who : StrandId) (ok : Bool) (old : Word)
  /-- ATOMIC_TIMEOUT (R385): An AtomicOp or proxy response not received within 10 ms raises LATE with PERF set. -/
  | atomicTimeout (who : StrandId)
  /-- FIRMWARE (R402): Delivers a chunk of the firmware image to the boot ROM, verified at the last chunk. -/
  | firmware (m : Msg)
  /-- POWER_GOOD (R402): Power-up starts the boot ROM, which trains group 0 as HOSTLINK. -/
  | powerGood
  /-- POWER_SAMPLE (R405): Every 100 µs the power manager samples power and temperature and steps the clock, or trips at 115 °C. -/
  | powerSample (watts : Nat) (tempC : Nat) (flow : Nat)
  /-- CORRECTED_ERROR (R401): A corrected error is counted against the part's trigger. -/
  | correctedError (p : PartRef)
  /-- GDDR_COPY_DONE (R397): The copy of a retiring GDDR 7 device to its spare completes. -/
  | gddrCopyDone (dev : Nat)
  /-- PATROL_SCRUB (R401): The scrubber reads and corrects Larder and device-memory lines within 24 h cycles. -/
  | patrolScrub
  /-- ILLEGAL_WORD (R72): The strand fetches a word or parcel that matches no instruction (reserved major, function or value, non-zero unused field, out-of-range register) and raises ILLEGAL. -/
  | illegalWord (w : Word)
  /-- UNCORRECTABLE_ERROR (R396): An uncorrectable error in a part's logic, or a failed Landing self-check, triggers that part's retirement or removal. -/
  | uncorrectableError (p : PartRef)
  /-- CHECKPOINT_DONE (R381): The Landing copy engines finish copying a partition to the CXL window, and the CHECKPOINT response is sent. -/
  | checkpointDone (part : Nat)
  /-- POWER_LOSS (R405): Module power is removed, for example in the host power cycle that the 115 °C trip waits for. -/
  | powerLoss
  deriving DecidableEq, Repr

end Sys2Proof
end

