-- ==== Sys2Proof/WellFormed.lean ====
section
/-! DEFINITION. WellFormed.lean: the limits on an instruction's operands that its word alone decides (R71, R78 to R81 and
the limits each instruction's description gives). A word whose operands fail them matches no instruction. -/

namespace Sys2Proof

/-- The width of an element in bits (Table 4-7). -/
def EW.bits : EW → Nat
  | .e8 => 8
  | .e16 => 16
  | .e32 => 32
  | .e64 => 64

/-- Widening and narrowing functions have ew 0 to 2 (Table 4-14). -/
def EW.narrow (ew : EW) : Bool := ew != .e64

/-- The immediate of a function that is no shift: −128 to 255 at ew = 0, any value at ew 1 to 3 (Table 9-5). -/
def immOk (ew : EW) (imm : BitVec 16) : Bool :=
  match ew with
  | .e8 => decide (-128 ≤ imm.toInt) && decide (imm.toInt ≤ 255)
  | _ => true

/-- The immediate of a shift of a w-bit value: 0 to w − 1 (Table 9-5). -/
def shiftOk (w : Nat) (imm : BitVec 16) : Bool := decide (imm.toNat < w)

/-- FP64 is outside the formats of VFWMA, VFEXP2, VFRCP and VFRSQRT (Table 4-17). -/
def VFmt.small (f : VFmt) : Bool := f != .fp64

/-- The floating-point exact formats {2, 4, 5, 6} (R278). -/
def Fmt.exactFloat (f : Fmt) : Bool := f == .fp16 || f == .e4m3 || f == .e5m2 || f == .e2m1

/-- The integer exact formats {8, 12, 13, 14} (R278). -/
def Fmt.exactInt (f : Fmt) : Bool := f == .int8 || f == .nat8 || f == .nat4 || f == .int4

/-- The format pairs of MUPD, MUPDN and MMAC (R278). -/
def matrixPair (fa fb : Fmt) : Bool :=
  (fa.exactFloat && fb.exactFloat) || (fa.exactInt && fb.exactInt) || (fa == .bf16 && fb == .bf16)

/-- The tile kinds of MZERO (R278). -/
def Fmt.tileKind (f : Fmt) : Bool := f == .bf16 || f.exactFloat || f.exactInt

/-- The read-out formats of MREAD: codes 0 to 5 and 11 (Table 14-7). -/
def Fmt.readOut (f : Fmt) : Bool :=
  f == .fp64 || f == .fp32 || f == .fp16 || f == .bf16 || f == .e4m3 || f == .e5m2 || f == .int64

/-- The tile formats of SPMMAC and SPRES: 2, 4, 5, 6, 8 or 14 (R300). -/
def Fmt.sparse (f : Fmt) : Bool := f.exactFloat || f == .int8 || f == .int4

/-- The panels pa to pa + 2^grp − 1 exist (R278) and grp is 0 to 2 (R78). -/
def MmacOp.panelsOk (o : MmacOp) : Bool :=
  decide (o.grp.toNat ≤ 2) && decide (o.pa.toNat + 2 ^ o.grp.toNat ≤ 16) && decide (o.pb.toNat + 2 ^ o.grp.toNat ≤ 16)

/-- The words on which an instruction is well formed: every limit that depends on the word alone. The limits that
depend on vnreg and vtype.EW (R71, R115) are decode checks of the machine. -/
def Instr.wf : Instr → Bool
  | .add _ | .sub _ | .and _ | .or _ | .xor _ | .andn _ | .shl _ | .shr _ | .sha _ | .min _ | .max _ | .minn _ => true
  | .maxn _ | .slt _ | .sltn _ | .mul _ | .mulh _ | .mulhn _ | .div _ | .divn _ | .rem _ | .remn _ | .clz _ => true
  | .ctz _ | .popc _ | .addi _ | .andi _ | .ori _ | .xori _ | .slti _ | .sltni _ | .shli _ | .shri _ | .shai _ => true
  | .lui _ | .adpc _ | .ld8 _ | .ld16 _ | .ld32 _ | .ld64 _ | .ldn8 _ | .ldn16 _ | .ldn32 _ | .st8 _ | .st16 _ => true
  | .st32 _ | .st64 _ | .amoAdd _ | .amoSwap _ | .amoAnd _ | .amoOr _ | .amoXor _ | .amoMin _ | .amoMax _ => true
  | .amoMinn _ | .amoMaxn _ | .amoCas _ | .claim _ | .beq _ | .bne _ | .blt _ | .bge _ | .bltn _ | .bgen _ => true
  | .jal _ | .jalr _ | .fadd _ | .fsub _ | .fmul _ | .fdiv _ | .fsqrt _ | .fmin _ | .fmax _ | .feq _ | .flt _ => true
  | .fle _ | .fclass _ | .fsgnj _ | .fsgnjn _ | .fcvtfi _ | .fcvtif _ | .fma _ | .fms _ | .fnma _ | .fnms _ => true
  | .csrget _ | .csrput _ | .csrswap _ | .csrset _ | .csrclr _ | .lanegrantWrite _ | .ctxidWrite _ => true
  | .vownerWrite _ | .pcntselWrite _ | .fence _ | .fenceEWaitDone _ | .syscall | .trapret | .resume _ | .track => true
  | .yield | .halt | .waitev _ | .waitevWake _ | .waitevTimeout _ | .invtlb _ | .ebreak | .cache _ | .setvl _ => true
  | .setvt _ | .vconfig _ | .setvlf _ | .menter | .mexit | .vaddVV _ | .vaddVS _ | .vsubVV _ | .vsubVS _ => true
  | .vandVV _ | .vandVS _ | .vorVV _ | .vorVS _ | .vxorVV _ | .vxorVS _ | .vshlVV _ | .vshlVS _ | .vshrVV _ => true
  | .vshrVS _ | .vshaVV _ | .vshaVS _ | .vminVV _ | .vminVS _ | .vmaxVV _ | .vmaxVS _ | .vminnVV _ => true
  | .vminnVS _ | .vmaxnVV _ | .vmaxnVS _ | .vmulVV _ | .vmulVS _ | .vmulhVV _ | .vmulhVS _ | .vmulhnVV _ => true
  | .vmulhnVS _ | .vdivVV _ | .vdivVS _ | .vdivnVV _ | .vdivnVS _ | .vremVV _ | .vremVS _ | .vremnVV _ => true
  | .vremnVS _ | .vmaccVV _ | .vmaccVS _ | .vmergeVV _ | .vmergeVS _ | .vmvVV _ | .vmvVS _ | .vaddsVV _ => true
  | .vaddsVS _ | .vsubsVV _ | .vsubsVS _ | .vaddsnVV _ | .vaddsnVS _ | .vsubsnVV _ | .vsubsnVS _ | .vavgVV _ => true
  | .vavgVS _ | .vsmulVV _ | .vsmulVS _ | .vsshrVV _ | .vsshrVS _ | .mcnt _ | .mlow _ | .mcum _ | .vseq _ => true
  | .vconfl _ | .vslideup _ | .vslidedn _ | .vpermv _ | .vmvxs _ | .vmvsx _ | .vbcast _ | .vfaddVV _ => true
  | .vfaddVS _ | .vfsubVV _ | .vfsubVS _ | .vfmulVV _ | .vfmulVS _ | .vfdivVV _ | .vfdivVS _ | .vfsqrt _ => true
  | .vfminVV _ | .vfminVS _ | .vfmaxVV _ | .vfmaxVS _ | .vfmaVV _ | .vfmaVS _ | .vfmsVV _ | .vfmsVS _ => true
  | .vfnmaVV _ | .vfnmaVS _ | .vfsgnVV _ | .vfsgnVS _ | .vfsgnnVV _ | .vfsgnnVS _ | .vfclass _ | .vredsum _ => true
  | .vredmin _ | .vredmax _ | .vredand _ | .vredor _ | .vredxor _ | .vfredsum _ | .vfredosum _ | .vfredmin _ => true
  | .vfredmax _ | .vscan _ | .vfscan _ | .vld _ | .vlds _ | .vldx _ | .vldff _ | .vst _ | .vsts _ | .vstx _ => true
  | .vscadd _ | .vwaitWake _ | .vwaitTimeout _ | .stcfg _ | .stbind _ | .stunbind _ | .ststat _ => true
  | .streamFetch _ _ _ | .qcopy _ | .qgather _ | .qscatter _ | .qpload _ | .qpstore _ | .qspload _ | .qfence _ => true
  | .qstatWaitDone _ | .queueEntryRoom _ | .qcopyPerform _ _ | .qgatherPerform _ _ | .qscatterPerform _ _ => true
  | .qploadPerform _ _ | .qpstorePerform _ _ | .qsploadPerform _ _ | .qfencePass _ _ | .qsignalPerform _ _ => true
  | .watchImprecise _ _ | .mwrite _ | .mscl _ | .mzpt _ | .mstat _ | .spstat _ | .vsave _ | .vrestore _ => true
  | .lateError _ _ _ | .scoreboardSettleTimeout _ | .queueDoorbell _ | .queueRunStart _ | .queueRunStop _ => true
  | .landingSelect _ | .priorityAging _ | .sliceEnd _ | .nop _ | .launch _ | .write _ | .signal _ | .wait _ => true
  | .waitRecheck _ | .waitTimeout _ | .writeSignal _ | .copy _ | .copyDone _ | .depend _ | .dependSatisfied _ => true
  | .fencePacket _ | .launchRetire _ | .gangPreempt _ | .preemptDeadline _ | .gangResume _ => true
  | .engineQuiesceTimeout _ | .staleCompletion _ | .switchDrainComplete _ | .switchDrainLimit _ => true
  | .quiesceEnd _ | .retrainDone _ | .trainingFail _ | .verifyPass _ | .verifyFail _ | .verifyTimeout _ => true
  | .fallbackActive _ | .fallbackDown _ | .linkLost _ | .laneFailure _ _ | .openSession _ | .attest _ => true
  | .createPartition _ | .loadCode _ | .mapWindowMap _ | .mapWindowChange _ | .mapWindowRemove _ | .submit _ => true
  | .readCounters _ | .switchPort _ | .checkpoint _ | .close _ | .keepalive _ | .keepaliveSend _ => true
  | .sessionLost _ | .atomicopCompletion _ _ _ | .proxyResponse _ _ _ | .atomicTimeout _ | .firmware _ => true
  | .powerGood | .powerSample _ _ _ | .correctedError _ | .gddrCopyDone _ | .patrolScrub | .illegalWord _ => true
  | .uncorrectableError _ | .checkpointDone _ | .powerLoss => true
  | .fcvtff o | .vfcvt o => decide (o.dst ≠ o.src)
  | .vaddVI o | .vsubVI o | .vandVI o | .vorVI o | .vxorVI o | .vminVI o | .vmaxVI o | .vminnVI o | .vmaxnVI o =>
    immOk o.ew o.imm
  | .vmergeVI o | .vmvVI o | .vaddsVI o | .vsubsVI o | .vaddsnVI o | .vsubsnVI o => immOk o.ew o.imm
  | .vshlVI o | .vshrVI o | .vshaVI o | .vsshrVI o => shiftOk o.ew.bits o.imm
  | .vwaddVV o | .vwaddVS o | .vwaddnVV o | .vwaddnVS o | .vwmulVV o | .vwmulVS o | .vwmulnVV o | .vwmulnVS o => o.ew.narrow
  | .vwmaccVV o | .vwmaccVS o | .vwmaccnVV o | .vwmaccnVS o | .vnshrVV o | .vnshrVS o | .vnclipVV o => o.ew.narrow
  | .vnclipVS o | .vnclipnVV o | .vnclipnVS o | .vwredsum o => o.ew.narrow
  | .vnshrVI o | .vnclipVI o | .vnclipnVI o => o.ew.narrow && shiftOk (2 * o.ew.bits) o.imm
  | .vcmpVV o | .vcmpVS o | .mand o | .mor o | .mxor o | .mandn o | .mnot o | .morx o | .mori o | .mmovf o => o.d != 0
  | .vfcmpVV o | .vfcmpVS o => o.d != 0
  | .vcmpVI o => o.d != 0 && immOk o.ew o.imm
  | .vcompress o => o.m != 0
  | .vwhile o => o.rem != 0 && o.idx != 0 && o.rem != o.idx
  | .vwhilem o => o.rem != 0 && o.idx != 0 && o.rem != o.idx && o.m != 0
  | .vfwmaVV o | .vfwmaVS o | .vfexp2 o | .vfrcp o | .vfrsqrt o => o.fmt.small
  | .vldseg o | .vstseg o => o.nf != 0
  | .vwait o => o.d != 0 && (o.ew == .e32 || o.ew == .e64)
  | .qsignal o => o.sig != 0
  | .qstat o => !o.drop || o.clr
  | .mzero o => o.fa.tileKind
  | .mupd o | .mupdn o => matrixPair o.fa o.fb
  | .mmac o => matrixPair o.fa o.fb && o.panelsOk
  | .mread o => o.fa.readOut && (o.fa != .int64 || o.scale == 0)
  | .spmmac o | .spres o => o.fa.sparse && matrixPair o.fa o.fb
  | .portq o | .portsw o => decide (o.g.toNat < 24)

/-- An instruction is well formed. -/
abbrev Instr.WellFormed (i : Instr) : Prop := i.wf = true

end Sys2Proof
end

