-- ==== Sys2Proof/Decode.lean ====
section
/-! DEFINITION. Decode.lean: the words of 04_encodings. `decodeParcel` and `decodeWord` read a 32-bit scalar parcel and
a 64-bit instruction word; a word that matches no instruction has none (R72, R77, R78), and its unused fields must be
zero (R70). `encode` writes the words of an instruction from the same tables. -/

namespace Sys2Proof

/-- Bits [lo + len − 1 : lo] of a word. -/
def field {n : Nat} (lo len : Nat) (w : BitVec n) : BitVec len := BitVec.ofNat len (w.toNat / 2 ^ lo)

/-! ### Codes of the named fields -/

/-- Table 4-7, codes 0 to 3. -/
def EW.code : EW → BitVec 3
  | .e8 => 0#3
  | .e16 => 1#3
  | .e32 => 2#3
  | .e64 => 3#3

/-- The value of a code, if it has one. -/
def EW.ofCode (c : BitVec 3) : Option EW :=
  match c.toNat with
  | 0 => some .e8
  | 1 => some .e16
  | 2 => some .e32
  | 3 => some .e64
  | _ => none

/-- Table 4-7, codes 0 to 4 (VLD and VST). -/
def MemEW.code : MemEW → BitVec 3
  | .of .e8 => 0#3
  | .of .e16 => 1#3
  | .of .e32 => 2#3
  | .of .e64 => 3#3
  | .nibble => 4#3

/-- The value of a code, if it has one. -/
def MemEW.ofCode (c : BitVec 3) : Option MemEW :=
  match c.toNat with
  | 0 => some (.of .e8)
  | 1 => some (.of .e16)
  | 2 => some (.of .e32)
  | 3 => some (.of .e64)
  | 4 => some .nibble
  | _ => none

/-- Table 4-10. -/
def Scope.code : Scope → BitVec 3
  | .strand => 0#3
  | .core => 1#3
  | .die => 2#3
  | .device => 3#3
  | .system => 4#3

/-- The value of a code, if it has one. -/
def Scope.ofCode (c : BitVec 3) : Option Scope :=
  match c.toNat with
  | 0 => some .strand
  | 1 => some .core
  | 2 => some .die
  | 3 => some .device
  | 4 => some .system
  | _ => none

/-- Table 4-10. -/
def AmoOrder.code : AmoOrder → BitVec 2
  | .relaxed => 0#2
  | .acquire => 1#2
  | .release => 2#2
  | .acqRel => 3#2

/-- The value of a code, if it has one. -/
def AmoOrder.ofCode (c : BitVec 2) : Option AmoOrder :=
  match c.toNat with
  | 0 => some .relaxed
  | 1 => some .acquire
  | 2 => some .release
  | _ => some .acqRel

/-- fn [9:8] of the scalar floating-point major (R75). -/
def FFmt.code : FFmt → BitVec 2
  | .fp64 => 0#2
  | .fp32 => 1#2
  | .fp16 => 2#2
  | .bf16 => 3#2

/-- The value of a code, if it has one. -/
def FFmt.ofCode (c : BitVec 2) : Option FFmt :=
  match c.toNat with
  | 0 => some .fp64
  | 1 => some .fp32
  | 2 => some .fp16
  | _ => some .bf16

/-- The xb field of FCVTFI and FCVTIF (Table 4-11). -/
def IntTy.code : IntTy → BitVec 5
  | .int64 => 0#5
  | .nat64 => 1#5
  | .int32 => 2#5
  | .nat32 => 3#5

/-- The value of a code, if it has one. -/
def IntTy.ofCode (c : BitVec 5) : Option IntTy :=
  match c.toNat with
  | 0 => some .int64
  | 1 => some .nat64
  | 2 => some .int32
  | 3 => some .nat32
  | _ => none

/-- The rounding codes of frm (R202). -/
def RMode.code : RMode → BitVec 3
  | .rne => 0#3
  | .rtz => 1#3
  | .rdn => 2#3
  | .rup => 3#3
  | .rmm => 4#3

/-- The value of a code, if it has one. -/
def RMode.ofCode (c : BitVec 3) : Option RMode :=
  match c.toNat with
  | 0 => some .rne
  | 1 => some .rtz
  | 2 => some .rdn
  | 3 => some .rup
  | 4 => some .rmm
  | _ => none

/-- fn [10:8] of VFCVT (R202). -/
def CvtRM.code : CvtRM → BitVec 3
  | .fixed .rne => 0#3
  | .fixed .rtz => 1#3
  | .fixed .rdn => 2#3
  | .fixed .rup => 3#3
  | .fixed .rmm => 4#3
  | .frm => 7#3

/-- The value of a code, if it has one. -/
def CvtRM.ofCode (c : BitVec 3) : Option CvtRM :=
  match c.toNat with
  | 0 => some (.fixed .rne)
  | 1 => some (.fixed .rtz)
  | 2 => some (.fixed .rdn)
  | 3 => some (.fixed .rup)
  | 4 => some (.fixed .rmm)
  | 7 => some .frm
  | _ => none

/-- fn of VCMP (Table 4-6). -/
def Cond.code : Cond → BitVec 16
  | .eq => 0#16
  | .ne => 1#16
  | .lt => 2#16
  | .le => 3#16
  | .ltn => 4#16
  | .len => 5#16
  | .gt => 6#16
  | .ge => 7#16
  | .gtn => 8#16
  | .gen => 9#16

/-- The value of a code, if it has one. -/
def Cond.ofCode (c : BitVec 16) : Option Cond :=
  match c.toNat with
  | 0 => some .eq
  | 1 => some .ne
  | 2 => some .lt
  | 3 => some .le
  | 4 => some .ltn
  | 5 => some .len
  | 6 => some .gt
  | 7 => some .ge
  | 8 => some .gtn
  | 9 => some .gen
  | _ => none

/-- fn of VFCMP (Table 4-6). -/
def FCond.code : FCond → BitVec 16
  | .eq => 0#16
  | .lt => 1#16
  | .le => 2#16
  | .un => 3#16
  | .ne => 4#16

/-- The value of a code, if it has one. -/
def FCond.ofCode (c : BitVec 16) : Option FCond :=
  match c.toNat with
  | 0 => some .eq
  | 1 => some .lt
  | 2 => some .le
  | 3 => some .un
  | 4 => some .ne
  | _ => none

/-- The xb field of RESUME (Table 18-6). -/
def Settle.code : Settle → BitVec 5
  | .replay => 0#5
  | .zero => 1#5
  | .propagate => 2#5

/-- The value of a code, if it has one. -/
def Settle.ofCode (c : BitVec 5) : Option Settle :=
  match c.toNat with
  | 0 => some .replay
  | 1 => some .zero
  | 2 => some .propagate
  | _ => none

/-- Table 3-6. -/
def Fmt.code : Fmt → BitVec 4
  | .fp64 => 0#4
  | .fp32 => 1#4
  | .fp16 => 2#4
  | .bf16 => 3#4
  | .e4m3 => 4#4
  | .e5m2 => 5#4
  | .e2m1 => 6#4
  | .int8 => 8#4
  | .int16 => 9#4
  | .int32 => 10#4
  | .int64 => 11#4
  | .nat8 => 12#4
  | .nat4 => 13#4
  | .int4 => 14#4
  | .e8m0 => 15#4

/-- The value of a code, if it has one. -/
def Fmt.ofCode (c : BitVec 4) : Option Fmt :=
  match c.toNat with
  | 0 => some .fp64
  | 1 => some .fp32
  | 2 => some .fp16
  | 3 => some .bf16
  | 4 => some .e4m3
  | 5 => some .e5m2
  | 6 => some .e2m1
  | 8 => some .int8
  | 9 => some .int16
  | 10 => some .int32
  | 11 => some .int64
  | 12 => some .nat8
  | 13 => some .nat4
  | 14 => some .int4
  | 15 => some .e8m0
  | _ => none

/-- The number of a CSR (Table 6-3). -/
def Csr.code : Csr → BitVec 12
  | .vl => 0x000#12
  | .vlmax => 0x001#12
  | .vstart => 0x002#12
  | .vtype => 0x003#12
  | .vnreg => 0x004#12
  | .vrm => 0x005#12
  | .vsat => 0x006#12
  | .frm => 0x007#12
  | .fflags => 0x008#12
  | .lanegrant => 0x009#12
  | .planebase => 0x00a#12
  | .mmode => 0x00b#12
  | .lidx n => 0x010#12 + n.setWidth 12
  | .partid => 0x015#12
  | .strandid => 0x016#12
  | .coreid => 0x017#12
  | .trpc => 0x020#12
  | .trcause => 0x021#12
  | .trval => 0x022#12
  | .trstat => 0x023#12
  | .trvec => 0x024#12
  | .trscratch => 0x025#12
  | .trpend => 0x026#12
  | .trslot => 0x027#12
  | .trpages => 0x028#12
  | .trpcount => 0x029#12
  | .vowner => 0x030#12
  | .ctxid => 0x031#12
  | .arenabase => 0x040#12
  | .arenabound => 0x041#12
  | .watch n => 0x050#12 + 2#12 * n.setWidth 12
  | .wctl n => 0x051#12 + 2#12 * n.setWidth 12
  | .cycle => 0x060#12
  | .convoys => 0x061#12
  | .pcnt n => 0x070#12 + n.setWidth 12
  | .pcntsel => 0x080#12

/-- The CSR of a number; a number that Table 6-3 does not list has none (R73). -/
def Csr.ofCode (c : BitVec 12) : Option Csr :=
  match c.toNat with
  | 0x000 => some .vl
  | 0x001 => some .vlmax
  | 0x002 => some .vstart
  | 0x003 => some .vtype
  | 0x004 => some .vnreg
  | 0x005 => some .vrm
  | 0x006 => some .vsat
  | 0x007 => some .frm
  | 0x008 => some .fflags
  | 0x009 => some .lanegrant
  | 0x00a => some .planebase
  | 0x00b => some .mmode
  | 0x010 => some (.lidx 0)
  | 0x011 => some (.lidx 1)
  | 0x012 => some (.lidx 2)
  | 0x013 => some (.lidx 3)
  | 0x015 => some .partid
  | 0x016 => some .strandid
  | 0x017 => some .coreid
  | 0x020 => some .trpc
  | 0x021 => some .trcause
  | 0x022 => some .trval
  | 0x023 => some .trstat
  | 0x024 => some .trvec
  | 0x025 => some .trscratch
  | 0x026 => some .trpend
  | 0x027 => some .trslot
  | 0x028 => some .trpages
  | 0x029 => some .trpcount
  | 0x030 => some .vowner
  | 0x031 => some .ctxid
  | 0x040 => some .arenabase
  | 0x041 => some .arenabound
  | 0x050 => some (.watch 0)
  | 0x051 => some (.wctl 0)
  | 0x052 => some (.watch 1)
  | 0x053 => some (.wctl 1)
  | 0x054 => some (.watch 2)
  | 0x055 => some (.wctl 2)
  | 0x056 => some (.watch 3)
  | 0x057 => some (.wctl 3)
  | 0x060 => some .cycle
  | 0x061 => some .convoys
  | 0x070 => some (.pcnt 0)
  | 0x071 => some (.pcnt 1)
  | 0x072 => some (.pcnt 2)
  | 0x073 => some (.pcnt 3)
  | 0x074 => some (.pcnt 4)
  | 0x075 => some (.pcnt 5)
  | 0x076 => some (.pcnt 6)
  | 0x077 => some (.pcnt 7)
  | 0x078 => some (.pcnt 8)
  | 0x079 => some (.pcnt 9)
  | 0x07a => some (.pcnt 10)
  | 0x07b => some (.pcnt 11)
  | 0x07c => some (.pcnt 12)
  | 0x07d => some (.pcnt 13)
  | 0x07e => some (.pcnt 14)
  | 0x07f => some (.pcnt 15)
  | 0x080 => some .pcntsel
  | _ => none

/-! ### Raw formats -/

/-- Formats SR, SA and S4 (Table 4-1): fn holds bits [9:0]. -/
structure RawSR where
  major : BitVec 7
  d : BitVec 5
  a : BitVec 5
  b : BitVec 5
  fn : BitVec 10
  deriving DecidableEq, Repr

/-- The fields of a word. -/
def RawSR.unpack (w : BitVec 32) : RawSR :=
  { major := field 25 7 w, d := field 20 5 w, a := field 15 5 w, b := field 10 5 w, fn := field 0 10 w }

/-- The word of the fields. -/
def RawSR.pack (r : RawSR) : BitVec 32 :=
  BitVec.ofNat 32 (r.major.toNat * 2 ^ 25 + r.d.toNat * 2 ^ 20 + r.a.toNat * 2 ^ 15 + r.b.toNat * 2 ^ 10 + r.fn.toNat)

/-- Formats SI, SS and SB (Table 4-1). -/
structure RawSI where
  major : BitVec 7
  d : BitVec 5
  a : BitVec 5
  imm : BitVec 15
  deriving DecidableEq, Repr

/-- The fields of a word. -/
def RawSI.unpack (w : BitVec 32) : RawSI :=
  { major := field 25 7 w, d := field 20 5 w, a := field 15 5 w, imm := field 0 15 w }

/-- The word of the fields. -/
def RawSI.pack (r : RawSI) : BitVec 32 :=
  BitVec.ofNat 32 (r.major.toNat * 2 ^ 25 + r.d.toNat * 2 ^ 20 + r.a.toNat * 2 ^ 15 + r.imm.toNat)

/-- Formats SU and SJ (Table 4-1). -/
structure RawSU where
  major : BitVec 7
  d : BitVec 5
  imm : BitVec 20
  deriving DecidableEq, Repr

/-- The fields of a word. -/
def RawSU.unpack (w : BitVec 32) : RawSU :=
  { major := field 25 7 w, d := field 20 5 w, imm := field 0 20 w }

/-- The word of the fields. -/
def RawSU.pack (r : RawSU) : BitVec 32 :=
  BitVec.ofNat 32 (r.major.toNat * 2 ^ 25 + r.d.toNat * 2 ^ 20 + r.imm.toNat)

/-- Formats VV and VS (Table 4-3); in VS the six-bit field b holds xb and a zero, c holds xc and a zero. -/
structure RawVV where
  major : BitVec 6
  last : BitVec 1
  m : BitVec 3
  d : BitVec 6
  a : BitVec 6
  b : BitVec 6
  c : BitVec 6
  ew : BitVec 3
  ew2 : BitVec 3
  fl : BitVec 6
  fn : BitVec 16
  deriving DecidableEq, Repr

/-- The fields of a word. -/
def RawVV.unpack (w : BitVec 64) : RawVV :=
  { major := field 56 6 w, last := field 55 1 w, m := field 52 3 w, d := field 46 6 w, a := field 40 6 w, b := field 34 6 w, c := field 28 6 w, ew := field 25 3 w, ew2 := field 22 3 w, fl := field 16 6 w, fn := field 0 16 w }

/-- The word of the fields. -/
def RawVV.pack (r : RawVV) : BitVec 64 :=
  BitVec.ofNat 64 (3 * 2 ^ 62 + r.major.toNat * 2 ^ 56 + r.last.toNat * 2 ^ 55 + r.m.toNat * 2 ^ 52 + r.d.toNat * 2 ^ 46 + r.a.toNat * 2 ^ 40 + r.b.toNat * 2 ^ 34 + r.c.toNat * 2 ^ 28 + r.ew.toNat * 2 ^ 25 + r.ew2.toNat * 2 ^ 22 + r.fl.toNat * 2 ^ 16 + r.fn.toNat)

/-- Format VI (Table 4-3). -/
structure RawVI where
  major : BitVec 6
  last : BitVec 1
  m : BitVec 3
  d : BitVec 6
  a : BitVec 6
  imm : BitVec 16
  ew : BitVec 3
  fl : BitVec 5
  fn : BitVec 16
  deriving DecidableEq, Repr

/-- The fields of a word. -/
def RawVI.unpack (w : BitVec 64) : RawVI :=
  { major := field 56 6 w, last := field 55 1 w, m := field 52 3 w, d := field 46 6 w, a := field 40 6 w, imm := field 24 16 w, ew := field 21 3 w, fl := field 16 5 w, fn := field 0 16 w }

/-- The word of the fields. -/
def RawVI.pack (r : RawVI) : BitVec 64 :=
  BitVec.ofNat 64 (3 * 2 ^ 62 + r.major.toNat * 2 ^ 56 + r.last.toNat * 2 ^ 55 + r.m.toNat * 2 ^ 52 + r.d.toNat * 2 ^ 46 + r.a.toNat * 2 ^ 40 + r.imm.toNat * 2 ^ 24 + r.ew.toNat * 2 ^ 21 + r.fl.toNat * 2 ^ 16 + r.fn.toNat)

/-- Format VM (Table 4-4); fl8 is [23:22] reserved, [21:19] scope, [18] X, [17] N, [16] U (R66). -/
structure RawVM where
  major : BitVec 6
  last : BitVec 1
  m : BitVec 3
  d : BitVec 6
  a : BitVec 5
  b : BitVec 5
  vi : BitVec 6
  ew : BitVec 3
  nf : BitVec 3
  res : BitVec 2
  scope : BitVec 3
  x : BitVec 1
  n : BitVec 1
  u : BitVec 1
  off : BitVec 16
  deriving DecidableEq, Repr

/-- The fields of a word. -/
def RawVM.unpack (w : BitVec 64) : RawVM :=
  { major := field 56 6 w, last := field 55 1 w, m := field 52 3 w, d := field 46 6 w, a := field 41 5 w, b := field 36 5 w, vi := field 30 6 w, ew := field 27 3 w, nf := field 24 3 w, res := field 22 2 w, scope := field 19 3 w, x := field 18 1 w, n := field 17 1 w, u := field 16 1 w, off := field 0 16 w }

/-- The word of the fields. -/
def RawVM.pack (r : RawVM) : BitVec 64 :=
  BitVec.ofNat 64 (3 * 2 ^ 62 + r.major.toNat * 2 ^ 56 + r.last.toNat * 2 ^ 55 + r.m.toNat * 2 ^ 52 + r.d.toNat * 2 ^ 46 + r.a.toNat * 2 ^ 41 + r.b.toNat * 2 ^ 36 + r.vi.toNat * 2 ^ 30 + r.ew.toNat * 2 ^ 27 + r.nf.toNat * 2 ^ 24 + r.res.toNat * 2 ^ 22 + r.scope.toNat * 2 ^ 19 + r.x.toNat * 2 ^ 18 + r.n.toNat * 2 ^ 17 + r.u.toNat * 2 ^ 16 + r.off.toNat)

/-- Format VC (Table 4-4): fn is imm36 [35:28]. -/
structure RawVC where
  major : BitVec 6
  last : BitVec 1
  m : BitVec 3
  d : BitVec 6
  a : BitVec 5
  b : BitVec 5
  fn : BitVec 8
  imm : BitVec 28
  deriving DecidableEq, Repr

/-- The fields of a word. -/
def RawVC.unpack (w : BitVec 64) : RawVC :=
  { major := field 56 6 w, last := field 55 1 w, m := field 52 3 w, d := field 46 6 w, a := field 41 5 w, b := field 36 5 w, fn := field 28 8 w, imm := field 0 28 w }

/-- The word of the fields. -/
def RawVC.pack (r : RawVC) : BitVec 64 :=
  BitVec.ofNat 64 (3 * 2 ^ 62 + r.major.toNat * 2 ^ 56 + r.last.toNat * 2 ^ 55 + r.m.toNat * 2 ^ 52 + r.d.toNat * 2 ^ 46 + r.a.toNat * 2 ^ 41 + r.b.toNat * 2 ^ 36 + r.fn.toNat * 2 ^ 28 + r.imm.toNat)

/-- Format VB (Table 4-4). -/
structure RawVB where
  major : BitVec 6
  last : BitVec 1
  m : BitVec 3
  d : BitVec 6
  a : BitVec 5
  b : BitVec 5
  off : BitVec 20
  fn : BitVec 16
  deriving DecidableEq, Repr

/-- The fields of a word. -/
def RawVB.unpack (w : BitVec 64) : RawVB :=
  { major := field 56 6 w, last := field 55 1 w, m := field 52 3 w, d := field 46 6 w, a := field 41 5 w, b := field 36 5 w, off := field 16 20 w, fn := field 0 16 w }

/-- The word of the fields. -/
def RawVB.pack (r : RawVB) : BitVec 64 :=
  BitVec.ofNat 64 (3 * 2 ^ 62 + r.major.toNat * 2 ^ 56 + r.last.toNat * 2 ^ 55 + r.m.toNat * 2 ^ 52 + r.d.toNat * 2 ^ 46 + r.a.toNat * 2 ^ 41 + r.b.toNat * 2 ^ 36 + r.off.toNat * 2 ^ 16 + r.fn.toNat)

/-- Format VQ (Table 4-4). -/
structure RawVQ where
  major : BitVec 6
  last : BitVec 1
  m : BitVec 3
  d : BitVec 6
  a : BitVec 5
  b : BitVec 5
  c : BitVec 5
  e : BitVec 5
  fl : BitVec 10
  fn : BitVec 16
  deriving DecidableEq, Repr

/-- The fields of a word. -/
def RawVQ.unpack (w : BitVec 64) : RawVQ :=
  { major := field 56 6 w, last := field 55 1 w, m := field 52 3 w, d := field 46 6 w, a := field 41 5 w, b := field 36 5 w, c := field 31 5 w, e := field 26 5 w, fl := field 16 10 w, fn := field 0 16 w }

/-- The word of the fields. -/
def RawVQ.pack (r : RawVQ) : BitVec 64 :=
  BitVec.ofNat 64 (3 * 2 ^ 62 + r.major.toNat * 2 ^ 56 + r.last.toNat * 2 ^ 55 + r.m.toNat * 2 ^ 52 + r.d.toNat * 2 ^ 46 + r.a.toNat * 2 ^ 41 + r.b.toNat * 2 ^ 36 + r.c.toNat * 2 ^ 31 + r.e.toNat * 2 ^ 26 + r.fl.toNat * 2 ^ 16 + r.fn.toNat)

/-- Format MX (Table 4-5): p is [19:16]. -/
structure RawMX where
  major : BitVec 6
  last : BitVec 1
  m : BitVec 3
  d : BitVec 6
  a : BitVec 6
  b : BitVec 6
  acc : BitVec 3
  fa : BitVec 4
  fb : BitVec 4
  grp : BitVec 3
  p : BitVec 4
  fn : BitVec 16
  deriving DecidableEq, Repr

/-- The fields of a word. -/
def RawMX.unpack (w : BitVec 64) : RawMX :=
  { major := field 56 6 w, last := field 55 1 w, m := field 52 3 w, d := field 46 6 w, a := field 40 6 w, b := field 34 6 w, acc := field 31 3 w, fa := field 27 4 w, fb := field 23 4 w, grp := field 20 3 w, p := field 16 4 w, fn := field 0 16 w }

/-- The word of the fields. -/
def RawMX.pack (r : RawMX) : BitVec 64 :=
  BitVec.ofNat 64 (3 * 2 ^ 62 + r.major.toNat * 2 ^ 56 + r.last.toNat * 2 ^ 55 + r.m.toNat * 2 ^ 52 + r.d.toNat * 2 ^ 46 + r.a.toNat * 2 ^ 40 + r.b.toNat * 2 ^ 34 + r.acc.toNat * 2 ^ 31 + r.fa.toNat * 2 ^ 27 + r.fb.toNat * 2 ^ 23 + r.grp.toNat * 2 ^ 20 + r.p.toNat * 2 ^ 16 + r.fn.toNat)

/-- The six-bit field of a scalar register in its high five bits (format VS, Table 4-3). -/
def xHigh (x : XReg) : BitVec 6 := BitVec.ofNat 6 (x.toNat * 2)

/-- The scalar register of a VS field; bit 0 must be zero (Table 4-3). -/
def ofXHigh (f : BitVec 6) : Option XReg := if f.toNat % 2 = 0 then some (BitVec.ofNat 5 (f.toNat / 2)) else none

/-- A six-bit field that names a scalar register: bit 5 is reserved (R67). -/
def ofXLow (f : BitVec 6) : Option XReg := if f.toNat < 32 then some (f.setWidth 5) else none

/-- A six-bit field that names a mask register holds 0 to 7 (R67). -/
def ofM6 (f : BitVec 6) : Option MReg := if f.toNat < 8 then some (f.setWidth 3) else none

/-- A six-bit field that names a plane register holds 0 to 15 (R67). -/
def ofP6 (f : BitVec 6) : Option (BitVec 4) := if f.toNat < 16 then some (f.setWidth 4) else none

/-- One bit as a Bool. -/
def bit1 (b : BitVec 1) : Bool := b == 1#1

/-- `some a` when the condition holds. -/
def whenOk {α : Type} (c : Bool) (a : α) : Option α := if c then some a else none

/-! ### Operands of the scalar parcels (Tables 4-1, 4-9 to 4-12) -/

/-- SR with three registers. -/
def RRR.raw (o : RRR) (major : BitVec 7) (fn : BitVec 10) : RawSR :=
  { major := major, d := o.d, a := o.a, b := o.b, fn := fn }

/-- The operands of the raw fields; unused fields must be zero (R70). -/
def RRR.ofRaw (r : RawSR) : Option RRR :=
  whenOk (true) { d := r.d, a := r.a, b := r.b }

/-- SR with xb = 0. -/
def RR.raw (o : RR) (major : BitVec 7) (fn : BitVec 10) : RawSR :=
  { major := major, d := o.d, a := o.a, b := 0, fn := fn }

/-- The operands of the raw fields; unused fields must be zero (R70). -/
def RR.ofRaw (r : RawSR) : Option RR :=
  whenOk (r.b == 0) { d := r.d, a := r.a }

/-- SI and SS. -/
def RRI.raw (o : RRI) (major : BitVec 7) : RawSI :=
  { major := major, d := o.d, a := o.a, imm := o.imm }

/-- The operands of the raw fields; unused fields must be zero (R70). -/
def RRI.ofRaw (r : RawSI) : Option RRI :=
  whenOk (true) { d := r.d, a := r.a, imm := r.imm }

/-- SI with a shift amount: imm [14:6] is zero. -/
def RRSh.raw (o : RRSh) (major : BitVec 7) : RawSI :=
  { major := major, d := o.d, a := o.a, imm := o.sh.setWidth 15 }

/-- The operands of the raw fields; unused fields must be zero (R70). -/
def RRSh.ofRaw (r : RawSI) : Option RRSh :=
  whenOk (decide (r.imm.toNat < 64)) { d := r.d, a := r.a, sh := r.imm.setWidth 6 }

/-- SU and SJ. -/
def RI20.raw (o : RI20) (major : BitVec 7) : RawSU :=
  { major := major, d := o.d, imm := o.imm }

/-- The operands of the raw fields; unused fields must be zero (R70). -/
def RI20.ofRaw (r : RawSU) : Option RI20 :=
  whenOk (true) { d := r.d, imm := r.imm }

/-- SB. -/
def BranchOp.raw (o : BranchOp) (major : BitVec 7) : RawSI :=
  { major := major, d := o.a, a := o.b, imm := o.off }

/-- The operands of the raw fields; unused fields must be zero (R70). -/
def BranchOp.ofRaw (r : RawSI) : Option BranchOp :=
  whenOk (true) { a := r.d, b := r.a, off := r.imm }

/-- SA: scope [9:7], order [6:5], op [4:0] with op [4] the 32-bit width (R74). -/
def AmoOp.raw (o : AmoOp) (major : BitVec 7) (op : BitVec 4) : RawSR :=
  { major := major, d := o.d, a := o.a, b := o.b, fn := BitVec.ofNat 10 (o.scope.code.toNat * 128 + o.order.code.toNat * 32 + o.w32.toNat * 16 + op.toNat) }

/-- The operands of the raw fields; unused fields must be zero (R70). -/
def AmoOp.ofRaw (r : RawSR) : Option AmoOp :=
  (Scope.ofCode (field 7 3 r.fn)).bind fun scope =>
    (AmoOrder.ofCode (field 5 2 r.fn)).bind fun order =>
    whenOk (true) { d := r.d, a := r.a, b := r.b, scope := scope, order := order, w32 := bit1 (field 4 1 r.fn) }

/-- FP: format fn [9:8], function fn [7:0] (R75). -/
def FOp2.raw (o : FOp2) (major : BitVec 7) (fc : BitVec 8) : RawSR :=
  { major := major, d := o.d, a := o.a, b := o.b, fn := BitVec.ofNat 10 (o.fmt.code.toNat * 256 + fc.toNat) }

/-- The operands of the raw fields; unused fields must be zero (R70). -/
def FOp2.ofRaw (r : RawSR) : Option FOp2 :=
  (FFmt.ofCode (field 8 2 r.fn)).bind fun fmt =>
    whenOk (true) { fmt := fmt, d := r.d, a := r.a, b := r.b }

/-- FP with xb = 0. -/
def FOp1.raw (o : FOp1) (major : BitVec 7) (fc : BitVec 8) : RawSR :=
  { major := major, d := o.d, a := o.a, b := 0, fn := BitVec.ofNat 10 (o.fmt.code.toNat * 256 + fc.toNat) }

/-- The operands of the raw fields; unused fields must be zero (R70). -/
def FOp1.ofRaw (r : RawSR) : Option FOp1 :=
  (FFmt.ofCode (field 8 2 r.fn)).bind fun fmt =>
    whenOk (r.b == 0) { fmt := fmt, d := r.d, a := r.a }

/-- FP conversion with an integer type in xb. -/
def FCvtInt.raw (o : FCvtInt) (major : BitVec 7) (fc : BitVec 8) : RawSR :=
  { major := major, d := o.d, a := o.a, b := o.ty.code, fn := BitVec.ofNat 10 (o.fmt.code.toNat * 256 + fc.toNat) }

/-- The operands of the raw fields; unused fields must be zero (R70). -/
def FCvtInt.ofRaw (r : RawSR) : Option FCvtInt :=
  (FFmt.ofCode (field 8 2 r.fn)).bind fun fmt =>
    (IntTy.ofCode r.b).bind fun ty =>
    whenOk (true) { fmt := fmt, ty := ty, d := r.d, a := r.a }

/-- FP conversion with a source format in xb. -/
def FCvtFlt.raw (o : FCvtFlt) (major : BitVec 7) (fc : BitVec 8) : RawSR :=
  { major := major, d := o.d, a := o.a, b := o.src.code.setWidth 5, fn := BitVec.ofNat 10 (o.dst.code.toNat * 256 + fc.toNat) }

/-- The operands of the raw fields; unused fields must be zero (R70). -/
def FCvtFlt.ofRaw (r : RawSR) : Option FCvtFlt :=
  (FFmt.ofCode (field 8 2 r.fn)).bind fun tgt =>
    (FFmt.ofCode (r.b.setWidth 2)).bind fun src =>
    whenOk (decide (r.b.toNat < 4)) { dst := tgt, src := src, d := r.d, a := r.a }

/-- S4: xc [9:5], fmt [4:3], op [2:0]. -/
def FOp3.raw (o : FOp3) (major : BitVec 7) (op : BitVec 3) : RawSR :=
  { major := major, d := o.d, a := o.a, b := o.b, fn := BitVec.ofNat 10 (o.c.toNat * 32 + o.fmt.code.toNat * 8 + op.toNat) }

/-- The operands of the raw fields; unused fields must be zero (R70). -/
def FOp3.ofRaw (r : RawSR) : Option FOp3 :=
  (FFmt.ofCode (field 3 2 r.fn)).bind fun fmt =>
    whenOk (true) { fmt := fmt, d := r.d, a := r.a, b := r.b, c := field 5 5 r.fn }

/-- CSR op with xa = 0. -/
def CsrGet.raw (o : CsrGet) (major : BitVec 7) (op : BitVec 3) : RawSI :=
  { major := major, d := o.d, a := 0, imm := BitVec.ofNat 15 (op.toNat * 4096 + o.csr.code.toNat) }

/-- The operands of the raw fields; unused fields must be zero (R70). -/
def CsrGet.ofRaw (r : RawSI) : Option CsrGet :=
  (Csr.ofCode (field 0 12 r.imm)).bind fun csr =>
    whenOk (r.a == 0) { d := r.d, csr := csr }

/-- CSR op with xd = 0. -/
def CsrPut.raw (o : CsrPut) (major : BitVec 7) (op : BitVec 3) : RawSI :=
  { major := major, d := 0, a := o.a, imm := BitVec.ofNat 15 (op.toNat * 4096 + o.csr.code.toNat) }

/-- The operands of the raw fields; unused fields must be zero (R70). -/
def CsrPut.ofRaw (r : RawSI) : Option CsrPut :=
  (Csr.ofCode (field 0 12 r.imm)).bind fun csr =>
    whenOk (r.d == 0) { csr := csr, a := r.a }

/-- CSR op with xd and xa. -/
def CsrRmw.raw (o : CsrRmw) (major : BitVec 7) (op : BitVec 3) : RawSI :=
  { major := major, d := o.d, a := o.a, imm := BitVec.ofNat 15 (op.toNat * 4096 + o.csr.code.toNat) }

/-- The operands of the raw fields; unused fields must be zero (R70). -/
def CsrRmw.ofRaw (r : RawSI) : Option CsrRmw :=
  (Csr.ofCode (field 0 12 r.imm)).bind fun csr =>
    whenOk (true) { d := r.d, csr := csr, a := r.a }

/-- FENCE: imm [2:0] scope, [6:3] kinds, [7] E. -/
def FenceOp.raw (o : FenceOp) (major : BitVec 7) : RawSI :=
  { major := major, d := 0, a := 0, imm := BitVec.ofNat 15 (o.e.toNat * 128 + o.kinds.toNat * 8 + o.scope.code.toNat) }

/-- The operands of the raw fields; unused fields must be zero (R70). -/
def FenceOp.ofRaw (r : RawSI) : Option FenceOp :=
  (Scope.ofCode (field 0 3 r.imm)).bind fun scope =>
    whenOk (decide (r.imm.toNat < 256) && r.d == 0 && r.a == 0) { scope := scope, kinds := field 3 4 r.imm, e := bit1 (field 7 1 r.imm) }

/-- RESUME. -/
def ResumeOp.raw (o : ResumeOp) (major : BitVec 7) (fn : BitVec 10) : RawSR :=
  { major := major, d := o.d, a := o.a, b := o.how.code, fn := fn }

/-- The operands of the raw fields; unused fields must be zero (R70). -/
def ResumeOp.ofRaw (r : RawSR) : Option ResumeOp :=
  (Settle.ofCode r.b).bind fun how =>
    whenOk (true) { d := r.d, a := r.a, how := how }

/-- INVTLB. -/
def InvtlbOp.raw (o : InvtlbOp) (major : BitVec 7) (fn : BitVec 10) : RawSR :=
  { major := major, d := 0, a := o.a, b := BitVec.ofNat 5 o.all.toNat, fn := fn }

/-- The operands of the raw fields; unused fields must be zero (R70). -/
def InvtlbOp.ofRaw (r : RawSR) : Option InvtlbOp :=
  whenOk (decide (r.b.toNat < 2) && r.d == 0) { a := r.a, all := r.b == 1#5 }

/-- CACHE. -/
def CacheOp.raw (o : CacheOp) (major : BitVec 7) (fn : BitVec 10) : RawSR :=
  { major := major, d := 0, a := o.a, b := o.op.setWidth 5, fn := fn }

/-- The operands of the raw fields; unused fields must be zero (R70). -/
def CacheOp.ofRaw (r : RawSR) : Option CacheOp :=
  whenOk (decide (r.b.toNat < 4) && r.d == 0) { a := r.a, op := r.b.setWidth 2 }

/-! ### Operands of the 64-bit words -/

/-- VV at one width. -/
def VV.raw (o : VV) (major : BitVec 6) (last : Bool) (fn : BitVec 16) : RawVV :=
  { major := major, last := BitVec.ofBool last, m := o.m, d := o.d, a := o.a, b := o.b, c := 0, ew := o.ew.code, ew2 := o.ew.code, fl := 0, fn := fn }

/-- The operands of the raw fields; unused fields must be zero (R70). -/
def VV.ofRaw (r : RawVV) : Option VV :=
  (EW.ofCode r.ew).bind fun ew =>
    whenOk (r.ew2 == r.ew && r.c == 0 && r.fl == 0) { m := r.m, d := r.d, a := r.a, b := r.b, ew := ew }

/-- VS at one width. -/
def VS.raw (o : VS) (major : BitVec 6) (last : Bool) (fn : BitVec 16) : RawVV :=
  { major := major, last := BitVec.ofBool last, m := o.m, d := o.d, a := o.a, b := xHigh o.x, c := 0, ew := o.ew.code, ew2 := o.ew.code, fl := 0, fn := fn }

/-- The operands of the raw fields; unused fields must be zero (R70). -/
def VS.ofRaw (r : RawVV) : Option VS :=
  (EW.ofCode r.ew).bind fun ew =>
    (ofXHigh r.b).bind fun x =>
    whenOk (r.ew2 == r.ew && r.c == 0 && r.fl == 0) { m := r.m, d := r.d, a := r.a, x := x, ew := ew }

/-- VI. -/
def VI.raw (o : VI) (major : BitVec 6) (last : Bool) (fn : BitVec 16) : RawVI :=
  { major := major, last := BitVec.ofBool last, m := o.m, d := o.d, a := o.a, imm := o.imm, ew := o.ew.code, fl := 0, fn := fn }

/-- The operands of the raw fields; unused fields must be zero (R70). -/
def VI.ofRaw (r : RawVI) : Option VI :=
  (EW.ofCode r.ew).bind fun ew =>
    whenOk (r.fl == 0) { m := r.m, d := r.d, a := r.a, imm := r.imm, ew := ew }

/-- VMV: the a field is zero (R178). -/
def VV1.rawB (o : VV1) (major : BitVec 6) (last : Bool) (fn : BitVec 16) : RawVV :=
  { major := major, last := BitVec.ofBool last, m := o.m, d := o.d, a := 0, b := o.a, c := 0, ew := o.ew.code, ew2 := o.ew.code, fl := 0, fn := fn }

/-- The operands of the raw fields; unused fields must be zero (R70). -/
def VV1.ofRawB (r : RawVV) : Option VV1 :=
  (EW.ofCode r.ew).bind fun ew =>
    whenOk (r.ew2 == r.ew && r.a == 0 && r.c == 0 && r.fl == 0) { m := r.m, d := r.d, a := r.b, ew := ew }

/-- VCONFL: the b field is zero. -/
def VV1.rawA (o : VV1) (major : BitVec 6) (last : Bool) (fn : BitVec 16) : RawVV :=
  { major := major, last := BitVec.ofBool last, m := o.m, d := o.d, a := o.a, b := 0, c := 0, ew := o.ew.code, ew2 := o.ew.code, fl := 0, fn := fn }

/-- The operands of the raw fields; unused fields must be zero (R70). -/
def VV1.ofRawA (r : RawVV) : Option VV1 :=
  (EW.ofCode r.ew).bind fun ew =>
    whenOk (r.ew2 == r.ew && r.b == 0 && r.c == 0 && r.fl == 0) { m := r.m, d := r.d, a := r.a, ew := ew }

/-- VS with the a field zero. -/
def VS1.raw (o : VS1) (major : BitVec 6) (last : Bool) (fn : BitVec 16) : RawVV :=
  { major := major, last := BitVec.ofBool last, m := o.m, d := o.d, a := 0, b := xHigh o.x, c := 0, ew := o.ew.code, ew2 := o.ew.code, fl := 0, fn := fn }

/-- The operands of the raw fields; unused fields must be zero (R70). -/
def VS1.ofRaw (r : RawVV) : Option VS1 :=
  (EW.ofCode r.ew).bind fun ew =>
    (ofXHigh r.b).bind fun x =>
    whenOk (r.ew2 == r.ew && r.a == 0 && r.c == 0 && r.fl == 0) { m := r.m, d := r.d, x := x, ew := ew }

/-- VI with the a field zero. -/
def VI1.raw (o : VI1) (major : BitVec 6) (last : Bool) (fn : BitVec 16) : RawVI :=
  { major := major, last := BitVec.ofBool last, m := o.m, d := o.d, a := 0, imm := o.imm, ew := o.ew.code, fl := 0, fn := fn }

/-- The operands of the raw fields; unused fields must be zero (R70). -/
def VI1.ofRaw (r : RawVI) : Option VI1 :=
  (EW.ofCode r.ew).bind fun ew =>
    whenOk (r.a == 0 && r.fl == 0) { m := r.m, d := r.d, imm := r.imm, ew := ew }

/-- VV whose ew2 is ew or ew + 1 (Table 4-14). -/
def VVW.raw (o : VVW) (major : BitVec 6) (last : Bool) (fn : BitVec 16) : RawVV :=
  { major := major, last := BitVec.ofBool last, m := o.m, d := o.d, a := o.a, b := o.b, c := 0, ew := o.ew.code, ew2 := if o.wide then o.ew.code + 1 else o.ew.code, fl := 0, fn := fn }

/-- The operands of the raw fields; unused fields must be zero (R70). -/
def VVW.ofRaw (r : RawVV) : Option VVW :=
  (EW.ofCode r.ew).bind fun ew =>
    whenOk ((r.ew2 == r.ew || r.ew2 == r.ew + 1) && r.c == 0 && r.fl == 0) { m := r.m, d := r.d, a := r.a, b := r.b, ew := ew, wide := r.ew2 != r.ew }

/-- VCMP, fl [1:0] = 0. -/
def CmpVV.raw (o : CmpVV) (major : BitVec 6) (last : Bool) : RawVV :=
  { major := major, last := BitVec.ofBool last, m := o.m, d := o.d.setWidth 6, a := o.a, b := o.b, c := 0, ew := o.ew.code, ew2 := o.ew.code, fl := 0, fn := o.cond.code }

/-- The operands of the raw fields; unused fields must be zero (R70). -/
def CmpVV.ofRaw (r : RawVV) : Option CmpVV :=
  (EW.ofCode r.ew).bind fun ew =>
    (ofM6 r.d).bind fun d =>
    (Cond.ofCode r.fn).bind fun cond =>
    whenOk (r.ew2 == r.ew && r.c == 0 && r.fl == 0) { cond := cond, m := r.m, d := d, a := r.a, b := r.b, ew := ew }

/-- VCMP, fl [1:0] = 1. -/
def CmpVS.raw (o : CmpVS) (major : BitVec 6) (last : Bool) : RawVV :=
  { major := major, last := BitVec.ofBool last, m := o.m, d := o.d.setWidth 6, a := o.a, b := xHigh o.x, c := 0, ew := o.ew.code, ew2 := o.ew.code, fl := 1, fn := o.cond.code }

/-- The operands of the raw fields; unused fields must be zero (R70). -/
def CmpVS.ofRaw (r : RawVV) : Option CmpVS :=
  (EW.ofCode r.ew).bind fun ew =>
    (ofM6 r.d).bind fun d =>
    (ofXHigh r.b).bind fun x =>
    (Cond.ofCode r.fn).bind fun cond =>
    whenOk (r.ew2 == r.ew && r.fl == 1 && r.c == 0) { cond := cond, m := r.m, d := d, a := r.a, x := x, ew := ew }

/-- VCMP, fl [1:0] = 2. -/
def CmpVI.raw (o : CmpVI) (major : BitVec 6) (last : Bool) : RawVI :=
  { major := major, last := BitVec.ofBool last, m := o.m, d := o.d.setWidth 6, a := o.a, imm := o.imm, ew := o.ew.code, fl := 2, fn := o.cond.code }

/-- The operands of the raw fields; unused fields must be zero (R70). -/
def CmpVI.ofRaw (r : RawVI) : Option CmpVI :=
  (EW.ofCode r.ew).bind fun ew =>
    (ofM6 r.d).bind fun d =>
    (Cond.ofCode r.fn).bind fun cond =>
    whenOk (r.fl == 2) { cond := cond, m := r.m, d := d, a := r.a, imm := r.imm, ew := ew }

/-- VMASK on two masks. -/
def MaskOp2.raw (o : MaskOp2) (major : BitVec 6) (last : Bool) (fn : BitVec 16) : RawVV :=
  { major := major, last := BitVec.ofBool last, m := o.m, d := o.d.setWidth 6, a := o.a.setWidth 6, b := o.b.setWidth 6, c := 0, ew := 0, ew2 := 0, fl := 0, fn := fn }

/-- The operands of the raw fields; unused fields must be zero (R70). -/
def MaskOp2.ofRaw (r : RawVV) : Option MaskOp2 :=
  (ofM6 r.d).bind fun d =>
    (ofM6 r.a).bind fun a =>
    (ofM6 r.b).bind fun b =>
    whenOk (r.c == 0 && r.ew == 0 && r.ew2 == 0 && r.fl == 0) { m := r.m, d := d, a := a, b := b }

/-- VMASK on one mask. -/
def MaskOp1.raw (o : MaskOp1) (major : BitVec 6) (last : Bool) (fn : BitVec 16) : RawVV :=
  { major := major, last := BitVec.ofBool last, m := o.m, d := o.d.setWidth 6, a := o.a.setWidth 6, b := 0, c := 0, ew := 0, ew2 := 0, fl := 0, fn := fn }

/-- The operands of the raw fields; unused fields must be zero (R70). -/
def MaskOp1.ofRaw (r : RawVV) : Option MaskOp1 :=
  (ofM6 r.d).bind fun d =>
    (ofM6 r.a).bind fun a =>
    whenOk (r.b == 0 && r.c == 0 && r.ew == 0 && r.ew2 == 0 && r.fl == 0) { m := r.m, d := d, a := a }

/-- MCNT, MLOW. -/
def MaskToX.raw (o : MaskToX) (major : BitVec 6) (last : Bool) (fn : BitVec 16) : RawVV :=
  { major := major, last := BitVec.ofBool last, m := o.m, d := o.d.setWidth 6, a := o.a.setWidth 6, b := 0, c := 0, ew := 0, ew2 := 0, fl := 0, fn := fn }

/-- The operands of the raw fields; unused fields must be zero (R70). -/
def MaskToX.ofRaw (r : RawVV) : Option MaskToX :=
  (ofXLow r.d).bind fun d =>
    (ofM6 r.a).bind fun a =>
    whenOk (r.b == 0 && r.c == 0 && r.ew == 0 && r.ew2 == 0 && r.fl == 0) { m := r.m, d := d, a := a }

/-- MCUM. -/
def MaskToV.raw (o : MaskToV) (major : BitVec 6) (last : Bool) (fn : BitVec 16) : RawVV :=
  { major := major, last := BitVec.ofBool last, m := o.m, d := o.d, a := o.a.setWidth 6, b := 0, c := 0, ew := o.ew.code, ew2 := o.ew.code, fl := 0, fn := fn }

/-- The operands of the raw fields; unused fields must be zero (R70). -/
def MaskToV.ofRaw (r : RawVV) : Option MaskToV :=
  (EW.ofCode r.ew).bind fun ew =>
    (ofM6 r.a).bind fun a =>
    whenOk (r.ew2 == r.ew && r.b == 0 && r.c == 0 && r.fl == 0) { m := r.m, d := r.d, a := a, ew := ew }

/-- VSEQ. -/
def SeqOp.raw (o : SeqOp) (major : BitVec 6) (last : Bool) (fn : BitVec 16) : RawVV :=
  { major := major, last := BitVec.ofBool last, m := o.m, d := o.d, a := 0, b := 0, c := 0, ew := o.ew.code, ew2 := o.ew.code, fl := 0, fn := fn }

/-- The operands of the raw fields; unused fields must be zero (R70). -/
def SeqOp.ofRaw (r : RawVV) : Option SeqOp :=
  (EW.ofCode r.ew).bind fun ew =>
    whenOk (r.ew2 == r.ew && r.a == 0 && r.b == 0 && r.c == 0 && r.fl == 0) { m := r.m, d := r.d, ew := ew }

/-- MMOVF. -/
def MmovfOp.raw (o : MmovfOp) (major : BitVec 6) (last : Bool) (fn : BitVec 16) : RawVV :=
  { major := major, last := BitVec.ofBool last, m := o.m, d := o.d.setWidth 6, a := BitVec.ofNat 6 o.seg.toNat, b := 0, c := 0, ew := 0, ew2 := 0, fl := 0, fn := fn }

/-- The operands of the raw fields; unused fields must be zero (R70). -/
def MmovfOp.ofRaw (r : RawVV) : Option MmovfOp :=
  (ofM6 r.d).bind fun d =>
    whenOk (decide (r.a.toNat < 2) && r.b == 0 && r.c == 0 && r.ew == 0 && r.ew2 == 0 && r.fl == 0) { m := r.m, d := d, seg := r.a == 1#6 }

/-- VCOMPRESS. -/
def CompressOp.raw (o : CompressOp) (major : BitVec 6) (last : Bool) (fn : BitVec 16) : RawVV :=
  { major := major, last := BitVec.ofBool last, m := 0, d := o.d, a := o.a, b := o.m.setWidth 6, c := 0, ew := o.ew.code, ew2 := o.ew.code, fl := 0, fn := fn }

/-- The operands of the raw fields; unused fields must be zero (R70). -/
def CompressOp.ofRaw (r : RawVV) : Option CompressOp :=
  (EW.ofCode r.ew).bind fun ew =>
    (ofM6 r.b).bind fun m =>
    whenOk (r.ew2 == r.ew && r.m == 0 && r.c == 0 && r.fl == 0) { d := r.d, a := r.a, m := m, ew := ew }

/-- VMVXS. -/
def VToX.raw (o : VToX) (major : BitVec 6) (last : Bool) (fn : BitVec 16) : RawVV :=
  { major := major, last := BitVec.ofBool last, m := 0, d := o.d.setWidth 6, a := o.a, b := 0, c := 0, ew := o.ew.code, ew2 := o.ew.code, fl := 0, fn := fn }

/-- The operands of the raw fields; unused fields must be zero (R70). -/
def VToX.ofRaw (r : RawVV) : Option VToX :=
  (EW.ofCode r.ew).bind fun ew =>
    (ofXLow r.d).bind fun d =>
    whenOk (r.ew2 == r.ew && r.m == 0 && r.b == 0 && r.c == 0 && r.fl == 0) { d := d, a := r.a, ew := ew }

/-- VMVSX. -/
def XToV.raw (o : XToV) (major : BitVec 6) (last : Bool) (fn : BitVec 16) : RawVV :=
  { major := major, last := BitVec.ofBool last, m := 0, d := o.d, a := 0, b := xHigh o.x, c := 0, ew := o.ew.code, ew2 := o.ew.code, fl := 0, fn := fn }

/-- The operands of the raw fields; unused fields must be zero (R70). -/
def XToV.ofRaw (r : RawVV) : Option XToV :=
  (EW.ofCode r.ew).bind fun ew =>
    (ofXHigh r.b).bind fun x =>
    whenOk (r.ew2 == r.ew && r.m == 0 && r.a == 0 && r.c == 0 && r.fl == 0) { d := r.d, x := x, ew := ew }

/-- The ew code of a vector floating-point format (R80). -/
def VFmt.ewCode : VFmt → BitVec 3
  | .fp16 => 1#3
  | .bf16 => 1#3
  | .fp32 => 2#3
  | .fp64 => 3#3

/-- The BF16 selection bit (R80, R194). -/
def VFmt.bf : VFmt → Bool
  | .bf16 => true
  | _ => false

/-- The format of an ew code and the BF16 bit (R80, R194). -/
def VFmt.ofCodes (ew : BitVec 3) (bf : Bool) : Option VFmt :=
  match ew.toNat, bf with
  | 1, false => some .fp16
  | 1, true => some .bf16
  | 2, false => some .fp32
  | 3, false => some .fp64
  | _, _ => none

/-- VFP .vv and the floating-point VRED. -/
def FVV.raw (o : FVV) (major : BitVec 6) (last : Bool) (fn : BitVec 16) : RawVV :=
  { major := major, last := BitVec.ofBool last, m := o.m, d := o.d, a := o.a, b := o.b, c := 0, ew := o.fmt.ewCode, ew2 := o.fmt.ewCode, fl := BitVec.ofNat 6 o.fmt.bf.toNat, fn := fn }

/-- The operands of the raw fields; unused fields must be zero (R70). -/
def FVV.ofRaw (r : RawVV) : Option FVV :=
  (VFmt.ofCodes r.ew (r.fl == 1)).bind fun fmt =>
    whenOk (r.ew2 == r.ew && decide (r.fl.toNat < 2) && r.c == 0) { m := r.m, d := r.d, a := r.a, b := r.b, fmt := fmt }

/-- VFP .vs. -/
def FVS.raw (o : FVS) (major : BitVec 6) (last : Bool) (fn : BitVec 16) : RawVV :=
  { major := major, last := BitVec.ofBool last, m := o.m, d := o.d, a := o.a, b := xHigh o.x, c := 0, ew := o.fmt.ewCode, ew2 := o.fmt.ewCode, fl := BitVec.ofNat 6 o.fmt.bf.toNat, fn := fn }

/-- The operands of the raw fields; unused fields must be zero (R70). -/
def FVS.ofRaw (r : RawVV) : Option FVS :=
  (VFmt.ofCodes r.ew (r.fl == 1)).bind fun fmt =>
    (ofXHigh r.b).bind fun x =>
    whenOk (r.ew2 == r.ew && decide (r.fl.toNat < 2) && r.c == 0) { m := r.m, d := r.d, a := r.a, x := x, fmt := fmt }

/-- VFP .vv with a third source in c. -/
def FVVV.raw (o : FVVV) (major : BitVec 6) (last : Bool) (fn : BitVec 16) : RawVV :=
  { major := major, last := BitVec.ofBool last, m := o.m, d := o.d, a := o.a, b := o.b, c := o.c, ew := o.fmt.ewCode, ew2 := o.fmt.ewCode, fl := BitVec.ofNat 6 o.fmt.bf.toNat, fn := fn }

/-- The operands of the raw fields; unused fields must be zero (R70). -/
def FVVV.ofRaw (r : RawVV) : Option FVVV :=
  (VFmt.ofCodes r.ew (r.fl == 1)).bind fun fmt =>
    whenOk (r.ew2 == r.ew && decide (r.fl.toNat < 2)) { m := r.m, d := r.d, a := r.a, b := r.b, c := r.c, fmt := fmt }

/-- VFP .vs with a third source in xc. -/
def FVSS.raw (o : FVSS) (major : BitVec 6) (last : Bool) (fn : BitVec 16) : RawVV :=
  { major := major, last := BitVec.ofBool last, m := o.m, d := o.d, a := o.a, b := xHigh o.x, c := xHigh o.z, ew := o.fmt.ewCode, ew2 := o.fmt.ewCode, fl := BitVec.ofNat 6 o.fmt.bf.toNat, fn := fn }

/-- The operands of the raw fields; unused fields must be zero (R70). -/
def FVSS.ofRaw (r : RawVV) : Option FVSS :=
  (VFmt.ofCodes r.ew (r.fl == 1)).bind fun fmt =>
    (ofXHigh r.b).bind fun x =>
    (ofXHigh r.c).bind fun z =>
    whenOk (r.ew2 == r.ew && decide (r.fl.toNat < 2)) { m := r.m, d := r.d, a := r.a, x := x, z := z, fmt := fmt }

/-- VFP with one source: b and c are zero. -/
def FV.raw (o : FV) (major : BitVec 6) (last : Bool) (fn : BitVec 16) : RawVV :=
  { major := major, last := BitVec.ofBool last, m := o.m, d := o.d, a := o.a, b := 0, c := 0, ew := o.fmt.ewCode, ew2 := o.fmt.ewCode, fl := BitVec.ofNat 6 o.fmt.bf.toNat, fn := fn }

/-- The operands of the raw fields; unused fields must be zero (R70). -/
def FV.ofRaw (r : RawVV) : Option FV :=
  (VFmt.ofCodes r.ew (r.fl == 1)).bind fun fmt =>
    whenOk (r.ew2 == r.ew && decide (r.fl.toNat < 2) && r.b == 0 && r.c == 0) { m := r.m, d := r.d, a := r.a, fmt := fmt }

/-- VFCMP, fl [1:0] = 0, BF16 in fl [2]. -/
def FCmpVV.raw (o : FCmpVV) (major : BitVec 6) (last : Bool) : RawVV :=
  { major := major, last := BitVec.ofBool last, m := o.m, d := o.d.setWidth 6, a := o.a, b := o.b, c := 0, ew := o.fmt.ewCode, ew2 := o.fmt.ewCode, fl := BitVec.ofNat 6 (o.fmt.bf.toNat * 4), fn := o.cond.code }

/-- The operands of the raw fields; unused fields must be zero (R70). -/
def FCmpVV.ofRaw (r : RawVV) : Option FCmpVV :=
  (VFmt.ofCodes r.ew (bit1 (field 2 1 r.fl))).bind fun fmt =>
    (ofM6 r.d).bind fun d =>
    (FCond.ofCode r.fn).bind fun cond =>
    whenOk (r.ew2 == r.ew && (r.fl == 0 || r.fl == 4) && r.c == 0) { cond := cond, m := r.m, d := d, a := r.a, b := r.b, fmt := fmt }

/-- VFCMP, fl [1:0] = 1, BF16 in fl [2]. -/
def FCmpVS.raw (o : FCmpVS) (major : BitVec 6) (last : Bool) : RawVV :=
  { major := major, last := BitVec.ofBool last, m := o.m, d := o.d.setWidth 6, a := o.a, b := xHigh o.x, c := 0, ew := o.fmt.ewCode, ew2 := o.fmt.ewCode, fl := BitVec.ofNat 6 (o.fmt.bf.toNat * 4 + 1), fn := o.cond.code }

/-- The operands of the raw fields; unused fields must be zero (R70). -/
def FCmpVS.ofRaw (r : RawVV) : Option FCmpVS :=
  (VFmt.ofCodes r.ew (bit1 (field 2 1 r.fl))).bind fun fmt =>
    (ofM6 r.d).bind fun d =>
    (FCond.ofCode r.fn).bind fun cond =>
    (ofXHigh r.b).bind fun x =>
    whenOk (r.ew2 == r.ew && (r.fl == 1 || r.fl == 5) && r.c == 0) { cond := cond, m := r.m, d := d, a := r.a, x := x, fmt := fmt }

/-- The container width of a format in a vector register (Table 10-6). -/
def Fmt.container : Fmt → EW
  | .fp64 => .e64
  | .int64 => .e64
  | .fp32 => .e32
  | .int32 => .e32
  | .fp16 => .e16
  | .bf16 => .e16
  | .int16 => .e16
  | .e4m3 | .e5m2 | .int8 | .nat8 | .e8m0 | .e2m1 => .e8
  | .int4 | .nat4 => .e8

/-- VFCVT (R202). -/
def CvtOp.raw (o : CvtOp) (major : BitVec 6) (last : Bool) : RawVV :=
  { major := major, last := BitVec.ofBool last, m := o.m, d := o.d, a := o.a, b := 0, c := 0, ew := o.dst.container.code, ew2 := o.src.container.code, fl := 0, fn := BitVec.ofNat 16 (o.sat.toNat * 2048 + o.rm.code.toNat * 256 + o.src.code.toNat * 16 + o.dst.code.toNat) }

/-- The operands of the raw fields; unused fields must be zero (R70). -/
def CvtOp.ofRaw (r : RawVV) : Option CvtOp :=
  (Fmt.ofCode (field 0 4 r.fn)).bind fun tgt =>
    (Fmt.ofCode (field 4 4 r.fn)).bind fun src =>
    (CvtRM.ofCode (field 8 3 r.fn)).bind fun rm =>
    whenOk (r.ew == tgt.container.code && r.ew2 == src.container.code && decide (r.fn.toNat < 4096) && r.b == 0 && r.c == 0 && r.fl == 0) { m := r.m, d := r.d, a := r.a, dst := tgt, src := src, rm := rm, sat := bit1 (field 11 1 r.fn) }

/-- VLOOP (Table 9-9). -/
def LoopOp.raw (o : LoopOp) (major : BitVec 6) (last : Bool) (fn : BitVec 16) : RawVB :=
  { major := major, last := BitVec.ofBool last, m := 0, d := o.m.setWidth 6, a := o.rem, b := o.idx, off := o.off, fn := fn }

/-- The operands of the raw fields; unused fields must be zero (R70). -/
def LoopOp.ofRaw (r : RawVB) : Option LoopOp :=
  (ofM6 r.d).bind fun m =>
    whenOk (r.m == 0) { m := m, rem := r.a, idx := r.b, off := r.off }

/-- VLD. -/
def VldOp.raw (o : VldOp) (major : BitVec 6) (last : Bool) : RawVM :=
  { major := major, last := BitVec.ofBool last, m := o.m, d := o.d, a := o.base, b := 0, vi := 0, ew := o.ew.code, nf := 0, res := 0, scope := o.scope.code, x := 0, n := 0, u := 0, off := o.off }

/-- The operands of the raw fields; unused fields must be zero (R70). -/
def VldOp.ofRaw (r : RawVM) : Option VldOp :=
  (MemEW.ofCode r.ew).bind fun ew =>
    (Scope.ofCode r.scope).bind fun scope =>
    whenOk (r.b == 0 && r.vi == 0 && r.nf == 0 && r.res == 0 && r.x == 0 && r.n == 0 && r.u == 0) { m := r.m, d := r.d, base := r.a, ew := ew, scope := scope, off := r.off }

/-- VLDFF. -/
def VldffOp.raw (o : VldffOp) (major : BitVec 6) (last : Bool) : RawVM :=
  { major := major, last := BitVec.ofBool last, m := o.m, d := o.d, a := o.base, b := 0, vi := 0, ew := o.ew.code, nf := 0, res := 0, scope := o.scope.code, x := 0, n := 0, u := 0, off := o.off }

/-- The operands of the raw fields; unused fields must be zero (R70). -/
def VldffOp.ofRaw (r : RawVM) : Option VldffOp :=
  (EW.ofCode r.ew).bind fun ew =>
    (Scope.ofCode r.scope).bind fun scope =>
    whenOk (r.b == 0 && r.vi == 0 && r.nf == 0 && r.res == 0 && r.x == 0 && r.n == 0 && r.u == 0) { m := r.m, d := r.d, base := r.a, ew := ew, scope := scope, off := r.off }

/-- VLDS. -/
def VldsOp.raw (o : VldsOp) (major : BitVec 6) (last : Bool) : RawVM :=
  { major := major, last := BitVec.ofBool last, m := o.m, d := o.d, a := o.base, b := o.stride, vi := 0, ew := o.ew.code, nf := 0, res := 0, scope := o.scope.code, x := 0, n := 0, u := 0, off := o.off }

/-- The operands of the raw fields; unused fields must be zero (R70). -/
def VldsOp.ofRaw (r : RawVM) : Option VldsOp :=
  (EW.ofCode r.ew).bind fun ew =>
    (Scope.ofCode r.scope).bind fun scope =>
    whenOk (r.vi == 0 && r.nf == 0 && r.res == 0 && r.x == 0 && r.n == 0 && r.u == 0) { stride := r.b, m := r.m, d := r.d, base := r.a, ew := ew, scope := scope, off := r.off }

/-- VLDX, VSCADD. -/
def VldxOp.raw (o : VldxOp) (major : BitVec 6) (last : Bool) : RawVM :=
  { major := major, last := BitVec.ofBool last, m := o.m, d := o.d, a := o.base, b := 0, vi := o.vi, ew := o.ew.code, nf := 0, res := 0, scope := o.scope.code, x := BitVec.ofBool o.x64, n := 0, u := 0, off := o.off }

/-- The operands of the raw fields; unused fields must be zero (R70). -/
def VldxOp.ofRaw (r : RawVM) : Option VldxOp :=
  (EW.ofCode r.ew).bind fun ew =>
    (Scope.ofCode r.scope).bind fun scope =>
    whenOk (r.b == 0 && r.nf == 0 && r.res == 0 && r.n == 0 && r.u == 0) { vi := r.vi, x64 := bit1 r.x, m := r.m, d := r.d, base := r.a, ew := ew, scope := scope, off := r.off }

/-- VLDSEG. -/
def VldsegOp.raw (o : VldsegOp) (major : BitVec 6) (last : Bool) : RawVM :=
  { major := major, last := BitVec.ofBool last, m := o.m, d := o.d, a := o.base, b := 0, vi := 0, ew := o.ew.code, nf := o.nf, res := 0, scope := o.scope.code, x := 0, n := 0, u := 0, off := o.off }

/-- The operands of the raw fields; unused fields must be zero (R70). -/
def VldsegOp.ofRaw (r : RawVM) : Option VldsegOp :=
  (EW.ofCode r.ew).bind fun ew =>
    (Scope.ofCode r.scope).bind fun scope =>
    whenOk (r.b == 0 && r.vi == 0 && r.res == 0 && r.x == 0 && r.n == 0 && r.u == 0) { nf := r.nf, m := r.m, d := r.d, base := r.a, ew := ew, scope := scope, off := r.off }

/-- N, U and xb of a store mode (Table 4-18). -/
def StoreMode.n : StoreMode → Bool
  | .notify _ => true
  | _ => false

/-- The U flag. -/
def StoreMode.u : StoreMode → Bool
  | .unordered => true
  | _ => false

/-- The xb field: the progress-word register, or zero. -/
def StoreMode.xb : StoreMode → XReg
  | .notify x => x
  | _ => 0

/-- The store mode of N, U and xb; N with U is illegal and xb is zero without N (R81). -/
def StoreMode.ofBits (n u : BitVec 1) (xb : XReg) : Option StoreMode :=
  if n == 1 then (if u == 0 then some (.notify xb) else none)
  else if xb == 0 then some (if u == 1 then .unordered else .ordered) else none

/-- VST. -/
def VstOp.raw (o : VstOp) (major : BitVec 6) (last : Bool) : RawVM :=
  { major := major, last := BitVec.ofBool last, m := o.m, d := o.d, a := o.base, b := o.mode.xb, vi := 0, ew := o.ew.code, nf := 0, res := 0, scope := o.scope.code, x := 0, n := BitVec.ofBool o.mode.n, u := BitVec.ofBool o.mode.u, off := o.off }

/-- The operands of the raw fields; unused fields must be zero (R70). -/
def VstOp.ofRaw (r : RawVM) : Option VstOp :=
  (MemEW.ofCode r.ew).bind fun ew =>
    (Scope.ofCode r.scope).bind fun scope =>
    (StoreMode.ofBits r.n r.u r.b).bind fun mode =>
    whenOk (r.vi == 0 && r.nf == 0 && r.res == 0 && r.x == 0) { mode := mode, m := r.m, d := r.d, base := r.a, ew := ew, scope := scope, off := r.off }

/-- VSTS. -/
def VstsOp.raw (o : VstsOp) (major : BitVec 6) (last : Bool) : RawVM :=
  { major := major, last := BitVec.ofBool last, m := o.m, d := o.d, a := o.base, b := o.stride, vi := 0, ew := o.ew.code, nf := 0, res := 0, scope := o.scope.code, x := 0, n := 0, u := BitVec.ofBool o.u, off := o.off }

/-- The operands of the raw fields; unused fields must be zero (R70). -/
def VstsOp.ofRaw (r : RawVM) : Option VstsOp :=
  (EW.ofCode r.ew).bind fun ew =>
    (Scope.ofCode r.scope).bind fun scope =>
    whenOk (r.vi == 0 && r.nf == 0 && r.res == 0 && r.x == 0 && r.n == 0) { stride := r.b, u := bit1 r.u, m := r.m, d := r.d, base := r.a, ew := ew, scope := scope, off := r.off }

/-- VSTX. -/
def VstxOp.raw (o : VstxOp) (major : BitVec 6) (last : Bool) : RawVM :=
  { major := major, last := BitVec.ofBool last, m := o.m, d := o.d, a := o.base, b := o.mode.xb, vi := o.vi, ew := o.ew.code, nf := 0, res := 0, scope := o.scope.code, x := BitVec.ofBool o.x64, n := BitVec.ofBool o.mode.n, u := BitVec.ofBool o.mode.u, off := o.off }

/-- The operands of the raw fields; unused fields must be zero (R70). -/
def VstxOp.ofRaw (r : RawVM) : Option VstxOp :=
  (EW.ofCode r.ew).bind fun ew =>
    (Scope.ofCode r.scope).bind fun scope =>
    (StoreMode.ofBits r.n r.u r.b).bind fun mode =>
    whenOk (r.nf == 0 && r.res == 0) { vi := r.vi, x64 := bit1 r.x, mode := mode, m := r.m, d := r.d, base := r.a, ew := ew, scope := scope, off := r.off }

/-- VSTSEG. -/
def VstsegOp.raw (o : VstsegOp) (major : BitVec 6) (last : Bool) : RawVM :=
  { major := major, last := BitVec.ofBool last, m := o.m, d := o.d, a := o.base, b := o.mode.xb, vi := 0, ew := o.ew.code, nf := o.nf, res := 0, scope := o.scope.code, x := 0, n := BitVec.ofBool o.mode.n, u := BitVec.ofBool o.mode.u, off := o.off }

/-- The operands of the raw fields; unused fields must be zero (R70). -/
def VstsegOp.ofRaw (r : RawVM) : Option VstsegOp :=
  (EW.ofCode r.ew).bind fun ew =>
    (Scope.ofCode r.scope).bind fun scope =>
    (StoreMode.ofBits r.n r.u r.b).bind fun mode =>
    whenOk (r.vi == 0 && r.res == 0 && r.x == 0) { nf := r.nf, mode := mode, m := r.m, d := r.d, base := r.a, ew := ew, scope := scope, off := r.off }

/-- VWAIT. -/
def VwaitOp.raw (o : VwaitOp) (major : BitVec 6) (last : Bool) : RawVM :=
  { major := major, last := BitVec.ofBool last, m := o.m, d := o.d.setWidth 6, a := o.base, b := o.timeout, vi := o.vi, ew := o.ew.code, nf := 0, res := 0, scope := o.scope.code, x := 0, n := 0, u := 0, off := o.off }

/-- The operands of the raw fields; unused fields must be zero (R70). -/
def VwaitOp.ofRaw (r : RawVM) : Option VwaitOp :=
  (EW.ofCode r.ew).bind fun ew =>
    (Scope.ofCode r.scope).bind fun scope =>
    (ofM6 r.d).bind fun d =>
    whenOk (r.nf == 0 && r.res == 0 && r.x == 0 && r.n == 0 && r.u == 0) { timeout := r.b, vi := r.vi, m := r.m, d := d, base := r.a, ew := ew, scope := scope, off := r.off }

/-- SETVL. -/
def SetvlOp.raw (o : SetvlOp) (major : BitVec 6) (last : Bool) (fn : BitVec 8) : RawVC :=
  { major := major, last := BitVec.ofBool last, m := 0, d := o.d.setWidth 6, a := o.a, b := 0, fn := fn, imm := 0 }

/-- The operands of the raw fields; unused fields must be zero (R70). -/
def SetvlOp.ofRaw (r : RawVC) : Option SetvlOp :=
  (ofXLow r.d).bind fun d =>
    whenOk (r.m == 0 && r.b == 0 && r.imm == 0) { d := d, a := r.a }

/-- SETVLF. -/
def SetvlfOp.raw (o : SetvlfOp) (major : BitVec 6) (last : Bool) (fn : BitVec 8) : RawVC :=
  { major := major, last := BitVec.ofBool last, m := 0, d := o.d.setWidth 6, a := o.a, b := o.b, fn := fn, imm := 0 }

/-- The operands of the raw fields; unused fields must be zero (R70). -/
def SetvlfOp.ofRaw (r : RawVC) : Option SetvlfOp :=
  (ofXLow r.d).bind fun d =>
    whenOk (r.m == 0 && r.imm == 0) { d := d, a := r.a, b := r.b }

/-- SETVT: imm [6] MZ, [4] S, [3] TP, [2:0] EW (R175). -/
def SetvtOp.raw (o : SetvtOp) (major : BitVec 6) (last : Bool) (fn : BitVec 8) : RawVC :=
  { major := major, last := BitVec.ofBool last, m := 0, d := 0, a := 0, b := 0, fn := fn, imm := BitVec.ofNat 28 (o.mz.toNat * 64 + o.s.toNat * 16 + o.tp.toNat * 8 + o.ew.code.toNat) }

/-- The operands of the raw fields; unused fields must be zero (R70). -/
def SetvtOp.ofRaw (r : RawVC) : Option SetvtOp :=
  (EW.ofCode (field 0 3 r.imm)).bind fun ew =>
    whenOk (decide (r.imm.toNat < 128) && field 5 1 r.imm == 0#1 && r.m == 0 && r.d == 0 && r.a == 0 && r.b == 0) { mz := bit1 (field 6 1 r.imm), s := bit1 (field 4 1 r.imm), tp := bit1 (field 3 1 r.imm), ew := ew }

/-- VCONFIG. -/
def VconfigOp.raw (o : VconfigOp) (major : BitVec 6) (last : Bool) (fn : BitVec 8) : RawVC :=
  { major := major, last := BitVec.ofBool last, m := 0, d := 0, a := 0, b := 0, fn := fn, imm := o.n.setWidth 28 }

/-- The operands of the raw fields; unused fields must be zero (R70). -/
def VconfigOp.ofRaw (r : RawVC) : Option VconfigOp :=
  whenOk (decide (r.imm.toNat < 4) && r.m == 0 && r.d == 0 && r.a == 0 && r.b == 0) { n := r.imm.setWidth 2 }

/-- STCFG. -/
def StcfgOp.raw (o : StcfgOp) (major : BitVec 6) (last : Bool) (fn : BitVec 8) : RawVC :=
  { major := major, last := BitVec.ofBool last, m := 0, d := 0, a := o.a, b := 0, fn := fn, imm := o.s.setWidth 28 }

/-- The operands of the raw fields; unused fields must be zero (R70). -/
def StcfgOp.ofRaw (r : RawVC) : Option StcfgOp :=
  whenOk (decide (r.imm.toNat < 8) && r.m == 0 && r.d == 0 && r.b == 0) { s := r.imm.setWidth 3, a := r.a }

/-- STBIND. -/
def StbindOp.raw (o : StbindOp) (major : BitVec 6) (last : Bool) (fn : BitVec 8) : RawVC :=
  { major := major, last := BitVec.ofBool last, m := 0, d := o.v, a := 0, b := 0, fn := fn, imm := BitVec.ofNat 28 (o.write.toNat * 8 + o.s.toNat) }

/-- The operands of the raw fields; unused fields must be zero (R70). -/
def StbindOp.ofRaw (r : RawVC) : Option StbindOp :=
  whenOk (decide (r.imm.toNat < 16) && r.m == 0 && r.a == 0 && r.b == 0) { s := field 0 3 r.imm, v := r.d, write := bit1 (field 3 1 r.imm) }

/-- STUNBIND. -/
def StunbindOp.raw (o : StunbindOp) (major : BitVec 6) (last : Bool) (fn : BitVec 8) : RawVC :=
  { major := major, last := BitVec.ofBool last, m := 0, d := 0, a := 0, b := 0, fn := fn, imm := o.s.setWidth 28 }

/-- The operands of the raw fields; unused fields must be zero (R70). -/
def StunbindOp.ofRaw (r : RawVC) : Option StunbindOp :=
  whenOk (decide (r.imm.toNat < 8) && r.m == 0 && r.d == 0 && r.a == 0 && r.b == 0) { s := r.imm.setWidth 3 }

/-- STSTAT. -/
def StstatOp.raw (o : StstatOp) (major : BitVec 6) (last : Bool) (fn : BitVec 8) : RawVC :=
  { major := major, last := BitVec.ofBool last, m := 0, d := o.d.setWidth 6, a := 0, b := 0, fn := fn, imm := o.s.setWidth 28 }

/-- The operands of the raw fields; unused fields must be zero (R70). -/
def StstatOp.ofRaw (r : RawVC) : Option StstatOp :=
  (ofXLow r.d).bind fun d =>
    whenOk (decide (r.imm.toNat < 8) && r.m == 0 && r.a == 0 && r.b == 0) { s := r.imm.setWidth 3, d := d }

/-- QCOPY. -/
def QcopyOp.raw (o : QcopyOp) (major : BitVec 6) (last : Bool) (fn : BitVec 16) : RawVQ :=
  { major := major, last := BitVec.ofBool last, m := 0, d := o.q.setWidth 6, a := o.src, b := o.dst, c := o.cnt, e := o.ntf, fl := BitVec.ofNat 10 (o.dl.toNat * 16 + o.sl.toNat * 8 + o.scope.code.toNat), fn := fn }

/-- The operands of the raw fields; unused fields must be zero (R70). -/
def QcopyOp.ofRaw (r : RawVQ) : Option QcopyOp :=
  (ofXLow r.d).bind fun q =>
    (Scope.ofCode (field 0 3 r.fl)).bind fun scope =>
    whenOk (decide (r.fl.toNat < 32) && r.m == 0) { q := q, src := r.a, dst := r.b, cnt := r.c, ntf := r.e, scope := scope, sl := bit1 (field 3 1 r.fl), dl := bit1 (field 4 1 r.fl) }

/-- A command with a block. -/
def QblockOp.raw (o : QblockOp) (major : BitVec 6) (last : Bool) (fn : BitVec 16) : RawVQ :=
  { major := major, last := BitVec.ofBool last, m := 0, d := o.q.setWidth 6, a := o.blk, b := 0, c := 0, e := o.ntf, fl := o.scope.code.setWidth 10, fn := fn }

/-- The operands of the raw fields; unused fields must be zero (R70). -/
def QblockOp.ofRaw (r : RawVQ) : Option QblockOp :=
  (ofXLow r.d).bind fun q =>
    (Scope.ofCode (field 0 3 r.fl)).bind fun scope =>
    whenOk (decide (r.fl.toNat < 8) && r.m == 0 && r.b == 0 && r.c == 0) { q := q, blk := r.a, ntf := r.e, scope := scope }

/-- QFENCE. -/
def QfenceOp.raw (o : QfenceOp) (major : BitVec 6) (last : Bool) (fn : BitVec 16) : RawVQ :=
  { major := major, last := BitVec.ofBool last, m := 0, d := o.q.setWidth 6, a := 0, b := 0, c := 0, e := o.ntf, fl := BitVec.ofNat 10 (o.join.toNat * 8 + o.scope.code.toNat), fn := fn }

/-- The operands of the raw fields; unused fields must be zero (R70). -/
def QfenceOp.ofRaw (r : RawVQ) : Option QfenceOp :=
  (ofXLow r.d).bind fun q =>
    (Scope.ofCode (field 0 3 r.fl)).bind fun scope =>
    whenOk (decide (r.fl.toNat < 128) && r.m == 0 && r.a == 0 && r.b == 0 && r.c == 0) { q := q, ntf := r.e, join := field 3 4 r.fl, scope := scope }

/-- QSIGNAL. -/
def QsignalOp.raw (o : QsignalOp) (major : BitVec 6) (last : Bool) (fn : BitVec 16) : RawVQ :=
  { major := major, last := BitVec.ofBool last, m := 0, d := o.q.setWidth 6, a := o.wr, b := o.val, c := o.add, e := o.sig, fl := o.scope.code.setWidth 10, fn := fn }

/-- The operands of the raw fields; unused fields must be zero (R70). -/
def QsignalOp.ofRaw (r : RawVQ) : Option QsignalOp :=
  (ofXLow r.d).bind fun q =>
    (Scope.ofCode (field 0 3 r.fl)).bind fun scope =>
    whenOk (decide (r.fl.toNat < 8) && r.m == 0) { q := q, wr := r.a, val := r.b, add := r.c, sig := r.e, scope := scope }

/-- QSTAT. -/
def QstatOp.raw (o : QstatOp) (major : BitVec 6) (last : Bool) (fn : BitVec 16) : RawVQ :=
  { major := major, last := BitVec.ofBool last, m := 0, d := o.q.setWidth 6, a := o.st, b := o.recd, c := 0, e := 0, fl := BitVec.ofNat 10 (o.drop.toNat * 32 + o.clr.toNat * 16 + o.w.toNat * 8), fn := fn }

/-- The operands of the raw fields; unused fields must be zero (R70). -/
def QstatOp.ofRaw (r : RawVQ) : Option QstatOp :=
  (ofXLow r.d).bind fun q =>
    whenOk (decide (r.fl.toNat < 64) && field 0 3 r.fl == 0#3 && r.m == 0 && r.c == 0 && r.e == 0) { q := q, st := r.a, recd := r.b, w := bit1 (field 3 1 r.fl), clr := bit1 (field 4 1 r.fl), drop := bit1 (field 5 1 r.fl) }

/-- MZERO. -/
def MzeroOp.raw (o : MzeroOp) (major : BitVec 6) (last : Bool) (fn : BitVec 16) : RawMX :=
  { major := major, last := BitVec.ofBool last, m := 0, d := 0, a := 0, b := 0, acc := o.acc.setWidth 3, fa := o.fa.code, fb := 0, grp := 0, p := 0, fn := fn }

/-- The operands of the raw fields; unused fields must be zero (R70). -/
def MzeroOp.ofRaw (r : RawMX) : Option MzeroOp :=
  (Fmt.ofCode r.fa).bind fun fa =>
    whenOk (decide (r.acc.toNat < 2) && r.m == 0 && r.d == 0 && r.a == 0 && r.b == 0 && r.fb == 0 && r.grp == 0 && r.p == 0) { acc := r.acc.setWidth 1, fa := fa }

/-- MUPD, MUPDN. -/
def MupdOp.raw (o : MupdOp) (major : BitVec 6) (last : Bool) (fn : BitVec 16) : RawMX :=
  { major := major, last := BitVec.ofBool last, m := o.rmask, d := 0, a := o.a, b := o.b, acc := o.acc.setWidth 3, fa := o.fa.code, fb := o.fb.code, grp := 0, p := o.cmask.setWidth 4, fn := fn }

/-- The operands of the raw fields; unused fields must be zero (R70). -/
def MupdOp.ofRaw (r : RawMX) : Option MupdOp :=
  (Fmt.ofCode r.fa).bind fun fa =>
    (Fmt.ofCode r.fb).bind fun fb =>
    whenOk (decide (r.acc.toNat < 2) && decide (r.p.toNat < 8) && r.d == 0 && r.grp == 0) { rmask := r.m, cmask := r.p.setWidth 3, a := r.a, b := r.b, acc := r.acc.setWidth 1, fa := fa, fb := fb }

/-- MMAC. -/
def MmacOp.raw (o : MmacOp) (major : BitVec 6) (last : Bool) (fn : BitVec 16) : RawMX :=
  { major := major, last := BitVec.ofBool last, m := 0, d := 0, a := o.pa.setWidth 6, b := o.pb.setWidth 6, acc := o.acc.setWidth 3, fa := o.fa.code, fb := o.fb.code, grp := o.grp.setWidth 3, p := o.planes, fn := fn }

/-- The operands of the raw fields; unused fields must be zero (R70). -/
def MmacOp.ofRaw (r : RawMX) : Option MmacOp :=
  (Fmt.ofCode r.fa).bind fun fa =>
    (Fmt.ofCode r.fb).bind fun fb =>
    (ofP6 r.a).bind fun pa =>
    (ofP6 r.b).bind fun pb =>
    whenOk (decide (r.acc.toNat < 2) && decide (r.grp.toNat < 4) && r.m == 0 && r.d == 0) { pa := pa, pb := pb, acc := r.acc.setWidth 1, fa := fa, fb := fb, grp := r.grp.setWidth 2, planes := r.p }

/-- MREAD. -/
def MreadOp.raw (o : MreadOp) (major : BitVec 6) (last : Bool) (fn : BitVec 16) : RawMX :=
  { major := major, last := BitVec.ofBool last, m := 0, d := o.d, a := o.row.setWidth 6, b := o.scale.setWidth 6, acc := o.acc.setWidth 3, fa := o.fa.code, fb := 0, grp := 0, p := 0, fn := fn }

/-- The operands of the raw fields; unused fields must be zero (R70). -/
def MreadOp.ofRaw (r : RawMX) : Option MreadOp :=
  (Fmt.ofCode r.fa).bind fun fa =>
    (ofXLow r.a).bind fun row =>
    (ofXLow r.b).bind fun scale =>
    whenOk (decide (r.acc.toNat < 2) && r.m == 0 && r.fb == 0 && r.grp == 0 && r.p == 0) { d := r.d, row := row, scale := scale, acc := r.acc.setWidth 1, fa := fa }

/-- MWRITE. -/
def MwriteOp.raw (o : MwriteOp) (major : BitVec 6) (last : Bool) (fn : BitVec 16) : RawMX :=
  { major := major, last := BitVec.ofBool last, m := 0, d := o.s, a := o.row.setWidth 6, b := 0, acc := o.acc.setWidth 3, fa := 11, fb := 0, grp := 0, p := 0, fn := fn }

/-- The operands of the raw fields; unused fields must be zero (R70). -/
def MwriteOp.ofRaw (r : RawMX) : Option MwriteOp :=
  (ofXLow r.a).bind fun row =>
    whenOk (decide (r.acc.toNat < 2) && r.fa == 11 && r.m == 0 && r.b == 0 && r.fb == 0 && r.grp == 0 && r.p == 0) { s := r.d, row := row, acc := r.acc.setWidth 1 }

/-- MSCL. -/
def MsclOp.raw (o : MsclOp) (major : BitVec 6) (last : Bool) (fn : BitVec 16) : RawMX :=
  { major := major, last := BitVec.ofBool last, m := 0, d := 0, a := o.a, b := o.b, acc := 0, fa := if o.e8m0 then 15 else 2, fb := 0, grp := 0, p := 0, fn := fn }

/-- The operands of the raw fields; unused fields must be zero (R70). -/
def MsclOp.ofRaw (r : RawMX) : Option MsclOp :=
  whenOk ((r.fa == 2 || r.fa == 15) && r.m == 0 && r.d == 0 && r.acc == 0 && r.fb == 0 && r.grp == 0 && r.p == 0) { a := r.a, b := r.b, e8m0 := r.fa == 15 }

/-- MZPT. -/
def MzptOp.raw (o : MzptOp) (major : BitVec 6) (last : Bool) (fn : BitVec 16) : RawMX :=
  { major := major, last := BitVec.ofBool last, m := 0, d := 0, a := o.a, b := o.b, acc := 0, fa := if o.a4 then 13 else 12, fb := if o.b4 then 13 else 12, grp := 0, p := 0, fn := fn }

/-- The operands of the raw fields; unused fields must be zero (R70). -/
def MzptOp.ofRaw (r : RawMX) : Option MzptOp :=
  whenOk ((r.fa == 12 || r.fa == 13) && (r.fb == 12 || r.fb == 13) && r.m == 0 && r.d == 0 && r.acc == 0 && r.grp == 0 && r.p == 0) { a := r.a, b := r.b, a4 := r.fa == 13, b4 := r.fb == 13 }

/-- MSTAT. -/
def MstatOp.raw (o : MstatOp) (major : BitVec 6) (last : Bool) (fn : BitVec 16) : RawMX :=
  { major := major, last := BitVec.ofBool last, m := 0, d := o.d.setWidth 6, a := 0, b := 0, acc := o.acc.setWidth 3, fa := 0, fb := 0, grp := 0, p := 0, fn := fn }

/-- The operands of the raw fields; unused fields must be zero (R70). -/
def MstatOp.ofRaw (r : RawMX) : Option MstatOp :=
  (ofXLow r.d).bind fun d =>
    whenOk (decide (r.acc.toNat < 2) && r.m == 0 && r.a == 0 && r.b == 0 && r.fa == 0 && r.fb == 0 && r.grp == 0 && r.p == 0) { d := d, acc := r.acc.setWidth 1 }

/-- SPMMAC: the row window is fn [15:12], 0 to 3 (R78). -/
def SpmmacOp.raw (o : SpmmacOp) (major : BitVec 6) (last : Bool) : RawMX :=
  { major := major, last := BitVec.ofBool last, m := 0, d := 0, a := o.ts.setWidth 6, b := o.pb.setWidth 6, acc := o.acc.setWidth 3, fa := o.fa.code, fb := o.fb.code, grp := 0, p := o.planes, fn := BitVec.ofNat 16 (o.win.toNat * 4096 + 16) }

/-- The operands of the raw fields; unused fields must be zero (R70). -/
def SpmmacOp.ofRaw (r : RawMX) : Option SpmmacOp :=
  (Fmt.ofCode r.fa).bind fun fa =>
    (Fmt.ofCode r.fb).bind fun fb =>
    (ofXLow r.a).bind fun ts =>
    (ofP6 r.b).bind fun pb =>
    whenOk (decide (r.acc.toNat < 2) && field 0 12 r.fn == 16#12 && decide (r.fn.toNat < 16384) && r.m == 0 && r.d == 0 && r.grp == 0) { ts := ts, pb := pb, acc := r.acc.setWidth 1, fa := fa, fb := fb, planes := r.p, win := field 12 2 r.fn }

/-- SPRES. -/
def SpresOp.raw (o : SpresOp) (major : BitVec 6) (last : Bool) (fn : BitVec 16) : RawMX :=
  { major := major, last := BitVec.ofBool last, m := 0, d := 0, a := o.ts.setWidth 6, b := o.pb.setWidth 6, acc := o.acc.setWidth 3, fa := o.fa.code, fb := o.fb.code, grp := 0, p := o.planes, fn := fn }

/-- The operands of the raw fields; unused fields must be zero (R70). -/
def SpresOp.ofRaw (r : RawMX) : Option SpresOp :=
  (Fmt.ofCode r.fa).bind fun fa =>
    (Fmt.ofCode r.fb).bind fun fb =>
    (ofXLow r.a).bind fun ts =>
    (ofP6 r.b).bind fun pb =>
    whenOk (decide (r.acc.toNat < 2) && r.m == 0 && r.d == 0 && r.grp == 0) { ts := ts, pb := pb, acc := r.acc.setWidth 1, fa := fa, fb := fb, planes := r.p }

/-- SPSTAT. -/
def SpstatOp.raw (o : SpstatOp) (major : BitVec 6) (last : Bool) (fn : BitVec 16) : RawMX :=
  { major := major, last := BitVec.ofBool last, m := 0, d := o.d.setWidth 6, a := o.ts.setWidth 6, b := 0, acc := 0, fa := 0, fb := 0, grp := 0, p := 0, fn := fn }

/-- The operands of the raw fields; unused fields must be zero (R70). -/
def SpstatOp.ofRaw (r : RawMX) : Option SpstatOp :=
  (ofXLow r.d).bind fun d =>
    (ofXLow r.a).bind fun ts =>
    whenOk (r.m == 0 && r.b == 0 && r.acc == 0 && r.fa == 0 && r.fb == 0 && r.grp == 0 && r.p == 0) { d := d, ts := ts }

/-- PORTQ. -/
def PortqOp.raw (o : PortqOp) (major : BitVec 6) (last : Bool) (fn : BitVec 8) : RawVC :=
  { major := major, last := BitVec.ofBool last, m := 0, d := o.d.setWidth 6, a := 0, b := 0, fn := fn, imm := o.g.setWidth 28 }

/-- The operands of the raw fields; unused fields must be zero (R70). -/
def PortqOp.ofRaw (r : RawVC) : Option PortqOp :=
  (ofXLow r.d).bind fun d =>
    whenOk (decide (r.imm.toNat < 32) && r.m == 0 && r.a == 0 && r.b == 0) { d := d, g := r.imm.setWidth 5 }

/-- PORTSW. -/
def PortswOp.raw (o : PortswOp) (major : BitVec 6) (last : Bool) (fn : BitVec 8) : RawVC :=
  { major := major, last := BitVec.ofBool last, m := 0, d := o.d.setWidth 6, a := o.a, b := 0, fn := fn, imm := o.g.setWidth 28 }

/-- The operands of the raw fields; unused fields must be zero (R70). -/
def PortswOp.ofRaw (r : RawVC) : Option PortswOp :=
  (ofXLow r.d).bind fun d =>
    whenOk (decide (r.imm.toNat < 32) && r.m == 0 && r.b == 0) { d := d, a := r.a, g := r.imm.setWidth 5 }

/-- The raw fields of a VC word with no operand: MENTER, MEXIT. -/
def bareVC (major : BitVec 6) (last : Bool) (fn : BitVec 8) : RawVC :=
  { major := major, last := BitVec.ofBool last, m := 0, d := 0, a := 0, b := 0, fn := fn, imm := 0 }

/-- A VC word with no operand has every operand field zero. -/
def isBareVC (r : RawVC) : Bool := r.m == 0 && r.d == 0 && r.a == 0 && r.b == 0 && r.imm == 0

/-- The raw fields of VSAVE and VRESTORE (R360). -/
def addrVC (a : XReg) (major : BitVec 6) (last : Bool) (fn : BitVec 8) : RawVC :=
  { major := major, last := BitVec.ofBool last, m := 0, d := 0, a := a, b := 0, fn := fn, imm := 0 }

/-- The address register of VSAVE and VRESTORE. -/
def ofAddrVC (r : RawVC) : Option XReg := whenOk (r.m == 0 && r.d == 0 && r.b == 0 && r.imm == 0) r.a

/-- The raw fields of a SYS parcel with no operand. -/
def bareSR (major : BitVec 7) (fn : BitVec 10) : RawSR := { major := major, d := 0, a := 0, b := 0, fn := fn }

/-- A SYS parcel with no operand has xd, xa and xb zero. -/
def isBareSR (r : RawSR) : Bool := r.d == 0 && r.a == 0 && r.b == 0

/-! ### The scalar opcode map (Tables 4-8 to 4-12) -/

/-- Table 4-9. -/
def decodeAlu (r : RawSR) : Option Instr :=
  match r.fn.toNat with
  | 0x0 => (RRR.ofRaw r).map .add   -- ADD
  | 0x1 => (RRR.ofRaw r).map .sub   -- SUB
  | 0x2 => (RRR.ofRaw r).map .and   -- AND
  | 0x3 => (RRR.ofRaw r).map .or   -- OR
  | 0x4 => (RRR.ofRaw r).map .xor   -- XOR
  | 0x5 => (RRR.ofRaw r).map .andn   -- ANDN
  | 0x8 => (RRR.ofRaw r).map .shl   -- SHL
  | 0x9 => (RRR.ofRaw r).map .shr   -- SHR
  | 0xa => (RRR.ofRaw r).map .sha   -- SHA
  | 0x10 => (RRR.ofRaw r).map .min   -- MIN
  | 0x11 => (RRR.ofRaw r).map .max   -- MAX
  | 0x12 => (RRR.ofRaw r).map .minn   -- MINN
  | 0x13 => (RRR.ofRaw r).map .maxn   -- MAXN
  | 0x14 => (RRR.ofRaw r).map .slt   -- SLT
  | 0x15 => (RRR.ofRaw r).map .sltn   -- SLTN
  | 0x20 => (RRR.ofRaw r).map .mul   -- MUL
  | 0x21 => (RRR.ofRaw r).map .mulh   -- MULH
  | 0x22 => (RRR.ofRaw r).map .mulhn   -- MULHN
  | 0x24 => (RRR.ofRaw r).map .div   -- DIV
  | 0x25 => (RRR.ofRaw r).map .divn   -- DIVN
  | 0x26 => (RRR.ofRaw r).map .rem   -- REM
  | 0x27 => (RRR.ofRaw r).map .remn   -- REMN
  | 0x30 => (RR.ofRaw r).map .clz   -- CLZ
  | 0x31 => (RR.ofRaw r).map .ctz   -- CTZ
  | 0x32 => (RR.ofRaw r).map .popc   -- POPC
  | _ => none

/-- Table 4-10. -/
def decodeAmo (r : RawSR) : Option Instr :=
  match (field 0 4 r.fn : BitVec 4).toNat with
  | 0x0 => (AmoOp.ofRaw r).map .amoAdd   -- AMO_ADD
  | 0x1 => (AmoOp.ofRaw r).map .amoSwap   -- AMO_SWAP
  | 0x2 => (AmoOp.ofRaw r).map .amoAnd   -- AMO_AND
  | 0x3 => (AmoOp.ofRaw r).map .amoOr   -- AMO_OR
  | 0x4 => (AmoOp.ofRaw r).map .amoXor   -- AMO_XOR
  | 0x5 => (AmoOp.ofRaw r).map .amoMin   -- AMO_MIN
  | 0x6 => (AmoOp.ofRaw r).map .amoMax   -- AMO_MAX
  | 0x7 => (AmoOp.ofRaw r).map .amoMinn   -- AMO_MINN
  | 0x8 => (AmoOp.ofRaw r).map .amoMaxn   -- AMO_MAXN
  | 0x9 => (AmoOp.ofRaw r).map .amoCas   -- AMO_CAS
  | _ => none

/-- Table 4-11. -/
def decodeFp (r : RawSR) : Option Instr :=
  match (field 0 8 r.fn : BitVec 8).toNat with
  | 0x0 => (FOp2.ofRaw r).map .fadd   -- FADD
  | 0x1 => (FOp2.ofRaw r).map .fsub   -- FSUB
  | 0x2 => (FOp2.ofRaw r).map .fmul   -- FMUL
  | 0x3 => (FOp2.ofRaw r).map .fdiv   -- FDIV
  | 0x4 => (FOp1.ofRaw r).map .fsqrt   -- FSQRT
  | 0x5 => (FOp2.ofRaw r).map .fmin   -- FMIN
  | 0x6 => (FOp2.ofRaw r).map .fmax   -- FMAX
  | 0x8 => (FOp2.ofRaw r).map .feq   -- FEQ
  | 0x9 => (FOp2.ofRaw r).map .flt   -- FLT
  | 0xa => (FOp2.ofRaw r).map .fle   -- FLE
  | 0xb => (FOp1.ofRaw r).map .fclass   -- FCLASS
  | 0xc => (FOp2.ofRaw r).map .fsgnj   -- FSGNJ
  | 0xd => (FOp2.ofRaw r).map .fsgnjn   -- FSGNJN
  | 0x10 => (FCvtInt.ofRaw r).map .fcvtfi   -- FCVTFI
  | 0x11 => (FCvtInt.ofRaw r).map .fcvtif   -- FCVTIF
  | 0x12 => (FCvtFlt.ofRaw r).map .fcvtff   -- FCVTFF
  | _ => none

/-- Major 0x29 (Table 4-8). -/
def decodeFma (r : RawSR) : Option Instr :=
  match (field 0 3 r.fn : BitVec 3).toNat with
  | 0x0 => (FOp3.ofRaw r).map .fma   -- FMA
  | 0x1 => (FOp3.ofRaw r).map .fms   -- FMS
  | 0x2 => (FOp3.ofRaw r).map .fnma   -- FNMA
  | 0x3 => (FOp3.ofRaw r).map .fnms   -- FNMS
  | _ => none

/-- Major 0x30 (Table 4-8). -/
def decodeCsr (r : RawSI) : Option Instr :=
  match (field 12 3 r.imm : BitVec 3).toNat with
  | 0x0 => (CsrGet.ofRaw r).map .csrget   -- CSRGET
  | 0x1 => (CsrPut.ofRaw r).map .csrput   -- CSRPUT
  | 0x2 => (CsrRmw.ofRaw r).map .csrswap   -- CSRSWAP
  | 0x3 => (CsrRmw.ofRaw r).map .csrset   -- CSRSET
  | 0x4 => (CsrRmw.ofRaw r).map .csrclr   -- CSRCLR
  | _ => none

/-- Table 4-12. -/
def decodeSys (r : RawSR) : Option Instr :=
  match r.fn.toNat with
  | 0x0 => whenOk (isBareSR r) .syscall   -- SYSCALL
  | 0x1 => whenOk (isBareSR r) .trapret   -- TRAPRET
  | 0x2 => (ResumeOp.ofRaw r).map .resume   -- RESUME
  | 0x3 => whenOk (isBareSR r) .track   -- TRACK
  | 0x4 => whenOk (isBareSR r) .yield   -- YIELD
  | 0x5 => whenOk (isBareSR r) .halt   -- HALT
  | 0x6 => (RRR.ofRaw r).map .waitev   -- WAITEV
  | 0x7 => (InvtlbOp.ofRaw r).map .invtlb   -- INVTLB
  | 0x8 => whenOk (isBareSR r) .ebreak   -- EBREAK
  | 0x9 => (CacheOp.ofRaw r).map .cache   -- CACHE
  | _ => none

/-- CLAIM: fn must be 0 (Table 4-8). -/
def decodeClaim (r : RawSR) : Option Instr :=
  match r.fn.toNat with
  | 0x0 => (RRR.ofRaw r).map .claim
  | _ => none

/-- Table 4-8, before the operand limits of `Instr.wf`. -/
def decodeParcelRaw (w : BitVec 32) : Option Instr :=
  match (field 25 7 w : BitVec 7).toNat with
  | 0x01 => decodeAlu (.unpack w)
  | 0x02 => (RRI.ofRaw (.unpack w)).map .addi
  | 0x03 => (RRI.ofRaw (.unpack w)).map .andi
  | 0x04 => (RRI.ofRaw (.unpack w)).map .ori
  | 0x05 => (RRI.ofRaw (.unpack w)).map .xori
  | 0x06 => (RRI.ofRaw (.unpack w)).map .slti
  | 0x07 => (RRI.ofRaw (.unpack w)).map .sltni
  | 0x08 => (RRSh.ofRaw (.unpack w)).map .shli
  | 0x09 => (RRSh.ofRaw (.unpack w)).map .shri
  | 0x0a => (RRSh.ofRaw (.unpack w)).map .shai
  | 0x0b => (RI20.ofRaw (.unpack w)).map .lui
  | 0x0c => (RI20.ofRaw (.unpack w)).map .adpc
  | 0x10 => (RRI.ofRaw (.unpack w)).map .ld8
  | 0x11 => (RRI.ofRaw (.unpack w)).map .ld16
  | 0x12 => (RRI.ofRaw (.unpack w)).map .ld32
  | 0x13 => (RRI.ofRaw (.unpack w)).map .ld64
  | 0x14 => (RRI.ofRaw (.unpack w)).map .ldn8
  | 0x15 => (RRI.ofRaw (.unpack w)).map .ldn16
  | 0x16 => (RRI.ofRaw (.unpack w)).map .ldn32
  | 0x18 => (RRI.ofRaw (.unpack w)).map .st8
  | 0x19 => (RRI.ofRaw (.unpack w)).map .st16
  | 0x1a => (RRI.ofRaw (.unpack w)).map .st32
  | 0x1b => (RRI.ofRaw (.unpack w)).map .st64
  | 0x1c => decodeAmo (.unpack w)
  | 0x1d => decodeClaim (.unpack w)
  | 0x20 => (BranchOp.ofRaw (.unpack w)).map .beq
  | 0x21 => (BranchOp.ofRaw (.unpack w)).map .bne
  | 0x22 => (BranchOp.ofRaw (.unpack w)).map .blt
  | 0x23 => (BranchOp.ofRaw (.unpack w)).map .bge
  | 0x24 => (BranchOp.ofRaw (.unpack w)).map .bltn
  | 0x25 => (BranchOp.ofRaw (.unpack w)).map .bgen
  | 0x26 => (RI20.ofRaw (.unpack w)).map .jal
  | 0x27 => (RRI.ofRaw (.unpack w)).map .jalr
  | 0x28 => decodeFp (.unpack w)
  | 0x29 => decodeFma (.unpack w)
  | 0x30 => decodeCsr (.unpack w)
  | 0x31 => (FenceOp.ofRaw (.unpack w)).map .fence
  | 0x32 => decodeSys (.unpack w)
  | _ => none

/-! ### The 64-bit opcode map (Tables 4-6, 4-13 to 4-17) -/

/-- Table 4-13. -/
def decodeVcfg (r : RawVC) : Option Instr :=
  match r.fn.toNat with
  | 0x0 => (SetvlOp.ofRaw r).map .setvl   -- SETVL
  | 0x1 => (SetvtOp.ofRaw r).map .setvt   -- SETVT
  | 0x2 => (VconfigOp.ofRaw r).map .vconfig   -- VCONFIG
  | 0x3 => (SetvlfOp.ofRaw r).map .setvlf   -- SETVLF
  | 0x8 => whenOk (isBareVC r) .menter   -- MENTER
  | 0x9 => whenOk (isBareVC r) .mexit   -- MEXIT
  | _ => none

/-- Table 4-14, form .vv. -/
def decodeVintVV (r : RawVV) : Option Instr :=
  match r.fn.toNat with
  | 0x0 => (VV.ofRaw r).map .vaddVV   -- VADD_VV
  | 0x1 => (VV.ofRaw r).map .vsubVV   -- VSUB_VV
  | 0x4 => (VV.ofRaw r).map .vandVV   -- VAND_VV
  | 0x5 => (VV.ofRaw r).map .vorVV   -- VOR_VV
  | 0x6 => (VV.ofRaw r).map .vxorVV   -- VXOR_VV
  | 0x8 => (VV.ofRaw r).map .vshlVV   -- VSHL_VV
  | 0x9 => (VV.ofRaw r).map .vshrVV   -- VSHR_VV
  | 0xa => (VV.ofRaw r).map .vshaVV   -- VSHA_VV
  | 0x10 => (VV.ofRaw r).map .vminVV   -- VMIN_VV
  | 0x11 => (VV.ofRaw r).map .vmaxVV   -- VMAX_VV
  | 0x12 => (VV.ofRaw r).map .vminnVV   -- VMINN_VV
  | 0x13 => (VV.ofRaw r).map .vmaxnVV   -- VMAXN_VV
  | 0x18 => (VV.ofRaw r).map .vmulVV   -- VMUL_VV
  | 0x19 => (VV.ofRaw r).map .vmulhVV   -- VMULH_VV
  | 0x1a => (VV.ofRaw r).map .vmulhnVV   -- VMULHN_VV
  | 0x1c => (VV.ofRaw r).map .vdivVV   -- VDIV_VV
  | 0x1d => (VV.ofRaw r).map .vdivnVV   -- VDIVN_VV
  | 0x1e => (VV.ofRaw r).map .vremVV   -- VREM_VV
  | 0x1f => (VV.ofRaw r).map .vremnVV   -- VREMN_VV
  | 0x20 => (VV.ofRaw r).map .vmaccVV   -- VMACC_VV
  | 0x28 => (VV.ofRaw r).map .vmergeVV   -- VMERGE_VV
  | 0x29 => (VV1.ofRawB r).map .vmvVV   -- VMV_VV
  | 0x30 => (VV.ofRaw r).map .vaddsVV   -- VADDS_VV
  | 0x31 => (VV.ofRaw r).map .vsubsVV   -- VSUBS_VV
  | 0x32 => (VV.ofRaw r).map .vaddsnVV   -- VADDSN_VV
  | 0x33 => (VV.ofRaw r).map .vsubsnVV   -- VSUBSN_VV
  | 0x34 => (VV.ofRaw r).map .vavgVV   -- VAVG_VV
  | 0x36 => (VV.ofRaw r).map .vsmulVV   -- VSMUL_VV
  | 0x37 => (VV.ofRaw r).map .vsshrVV   -- VSSHR_VV
  | 0x40 => (VVW.ofRaw r).map .vwaddVV   -- VWADD_VV
  | 0x41 => (VVW.ofRaw r).map .vwaddnVV   -- VWADDN_VV
  | 0x44 => (VV.ofRaw r).map .vwmulVV   -- VWMUL_VV
  | 0x45 => (VV.ofRaw r).map .vwmulnVV   -- VWMULN_VV
  | 0x46 => (VV.ofRaw r).map .vwmaccVV   -- VWMACC_VV
  | 0x47 => (VV.ofRaw r).map .vwmaccnVV   -- VWMACCN_VV
  | 0x50 => (VVW.ofRaw r).map .vnshrVV   -- VNSHR_VV
  | 0x52 => (VVW.ofRaw r).map .vnclipVV   -- VNCLIP_VV
  | 0x53 => (VVW.ofRaw r).map .vnclipnVV   -- VNCLIPN_VV
  | _ => none

/-- Table 4-14, form .vs. -/
def decodeVintVS (r : RawVV) : Option Instr :=
  match r.fn.toNat with
  | 0x0 => (VS.ofRaw r).map .vaddVS   -- VADD_VS
  | 0x1 => (VS.ofRaw r).map .vsubVS   -- VSUB_VS
  | 0x4 => (VS.ofRaw r).map .vandVS   -- VAND_VS
  | 0x5 => (VS.ofRaw r).map .vorVS   -- VOR_VS
  | 0x6 => (VS.ofRaw r).map .vxorVS   -- VXOR_VS
  | 0x8 => (VS.ofRaw r).map .vshlVS   -- VSHL_VS
  | 0x9 => (VS.ofRaw r).map .vshrVS   -- VSHR_VS
  | 0xa => (VS.ofRaw r).map .vshaVS   -- VSHA_VS
  | 0x10 => (VS.ofRaw r).map .vminVS   -- VMIN_VS
  | 0x11 => (VS.ofRaw r).map .vmaxVS   -- VMAX_VS
  | 0x12 => (VS.ofRaw r).map .vminnVS   -- VMINN_VS
  | 0x13 => (VS.ofRaw r).map .vmaxnVS   -- VMAXN_VS
  | 0x18 => (VS.ofRaw r).map .vmulVS   -- VMUL_VS
  | 0x19 => (VS.ofRaw r).map .vmulhVS   -- VMULH_VS
  | 0x1a => (VS.ofRaw r).map .vmulhnVS   -- VMULHN_VS
  | 0x1c => (VS.ofRaw r).map .vdivVS   -- VDIV_VS
  | 0x1d => (VS.ofRaw r).map .vdivnVS   -- VDIVN_VS
  | 0x1e => (VS.ofRaw r).map .vremVS   -- VREM_VS
  | 0x1f => (VS.ofRaw r).map .vremnVS   -- VREMN_VS
  | 0x20 => (VS.ofRaw r).map .vmaccVS   -- VMACC_VS
  | 0x28 => (VS.ofRaw r).map .vmergeVS   -- VMERGE_VS
  | 0x29 => (VS1.ofRaw r).map .vmvVS   -- VMV_VS
  | 0x30 => (VS.ofRaw r).map .vaddsVS   -- VADDS_VS
  | 0x31 => (VS.ofRaw r).map .vsubsVS   -- VSUBS_VS
  | 0x32 => (VS.ofRaw r).map .vaddsnVS   -- VADDSN_VS
  | 0x33 => (VS.ofRaw r).map .vsubsnVS   -- VSUBSN_VS
  | 0x34 => (VS.ofRaw r).map .vavgVS   -- VAVG_VS
  | 0x36 => (VS.ofRaw r).map .vsmulVS   -- VSMUL_VS
  | 0x37 => (VS.ofRaw r).map .vsshrVS   -- VSSHR_VS
  | 0x40 => (VS.ofRaw r).map .vwaddVS   -- VWADD_VS
  | 0x41 => (VS.ofRaw r).map .vwaddnVS   -- VWADDN_VS
  | 0x44 => (VS.ofRaw r).map .vwmulVS   -- VWMUL_VS
  | 0x45 => (VS.ofRaw r).map .vwmulnVS   -- VWMULN_VS
  | 0x46 => (VS.ofRaw r).map .vwmaccVS   -- VWMACC_VS
  | 0x47 => (VS.ofRaw r).map .vwmaccnVS   -- VWMACCN_VS
  | 0x50 => (VS.ofRaw r).map .vnshrVS   -- VNSHR_VS
  | 0x52 => (VS.ofRaw r).map .vnclipVS   -- VNCLIP_VS
  | 0x53 => (VS.ofRaw r).map .vnclipnVS   -- VNCLIPN_VS
  | _ => none

/-- Table 4-14, form .vi. -/
def decodeVintVI (r : RawVI) : Option Instr :=
  match r.fn.toNat with
  | 0x0 => (VI.ofRaw r).map .vaddVI   -- VADD_VI
  | 0x1 => (VI.ofRaw r).map .vsubVI   -- VSUB_VI
  | 0x4 => (VI.ofRaw r).map .vandVI   -- VAND_VI
  | 0x5 => (VI.ofRaw r).map .vorVI   -- VOR_VI
  | 0x6 => (VI.ofRaw r).map .vxorVI   -- VXOR_VI
  | 0x8 => (VI.ofRaw r).map .vshlVI   -- VSHL_VI
  | 0x9 => (VI.ofRaw r).map .vshrVI   -- VSHR_VI
  | 0xa => (VI.ofRaw r).map .vshaVI   -- VSHA_VI
  | 0x10 => (VI.ofRaw r).map .vminVI   -- VMIN_VI
  | 0x11 => (VI.ofRaw r).map .vmaxVI   -- VMAX_VI
  | 0x12 => (VI.ofRaw r).map .vminnVI   -- VMINN_VI
  | 0x13 => (VI.ofRaw r).map .vmaxnVI   -- VMAXN_VI
  | 0x28 => (VI.ofRaw r).map .vmergeVI   -- VMERGE_VI
  | 0x29 => (VI1.ofRaw r).map .vmvVI   -- VMV_VI
  | 0x30 => (VI.ofRaw r).map .vaddsVI   -- VADDS_VI
  | 0x31 => (VI.ofRaw r).map .vsubsVI   -- VSUBS_VI
  | 0x32 => (VI.ofRaw r).map .vaddsnVI   -- VADDSN_VI
  | 0x33 => (VI.ofRaw r).map .vsubsnVI   -- VSUBSN_VI
  | 0x37 => (VI.ofRaw r).map .vsshrVI   -- VSSHR_VI
  | 0x50 => (VI.ofRaw r).map .vnshrVI   -- VNSHR_VI
  | 0x52 => (VI.ofRaw r).map .vnclipVI   -- VNCLIP_VI
  | 0x53 => (VI.ofRaw r).map .vnclipnVI   -- VNCLIPN_VI
  | _ => none

/-- Table 4-15. -/
def decodeVmask (r : RawVV) : Option Instr :=
  match r.fn.toNat with
  | 0x0 => (MaskOp2.ofRaw r).map .mand   -- MAND
  | 0x1 => (MaskOp2.ofRaw r).map .mor   -- MOR
  | 0x2 => (MaskOp2.ofRaw r).map .mxor   -- MXOR
  | 0x3 => (MaskOp2.ofRaw r).map .mandn   -- MANDN
  | 0x4 => (MaskOp1.ofRaw r).map .mnot   -- MNOT
  | 0x8 => (MaskOp1.ofRaw r).map .morx   -- MORX
  | 0x9 => (MaskOp1.ofRaw r).map .mori   -- MORI
  | 0xc => (MaskToX.ofRaw r).map .mcnt   -- MCNT
  | 0xd => (MaskToX.ofRaw r).map .mlow   -- MLOW
  | 0xe => (MaskToV.ofRaw r).map .mcum   -- MCUM
  | 0xf => (SeqOp.ofRaw r).map .vseq   -- VSEQ
  | 0x10 => (VV1.ofRawA r).map .vconfl   -- VCONFL
  | 0x11 => (MmovfOp.ofRaw r).map .mmovf   -- MMOVF
  | _ => none

/-- Table 4-16. -/
def decodeVperm (r : RawVV) : Option Instr :=
  match r.fn.toNat with
  | 0x0 => (VS.ofRaw r).map .vslideup   -- VSLIDEUP
  | 0x1 => (VS.ofRaw r).map .vslidedn   -- VSLIDEDN
  | 0x2 => (VV.ofRaw r).map .vpermv   -- VPERMV
  | 0x3 => (CompressOp.ofRaw r).map .vcompress   -- VCOMPRESS
  | 0x4 => (VToX.ofRaw r).map .vmvxs   -- VMVXS
  | 0x5 => (XToV.ofRaw r).map .vmvsx   -- VMVSX
  | 0x6 => (VS1.ofRaw r).map .vbcast   -- VBCAST
  | _ => none

/-- VRED (Table 10-7). -/
noncomputable def decodeVred (r : RawVV) : Option Instr :=
  match r.fn.toNat with
  | 0x0 => (VV.ofRaw r).map .vredsum   -- VREDSUM
  | 0x1 => (VV.ofRaw r).map .vredmin   -- VREDMIN
  | 0x2 => (VV.ofRaw r).map .vredmax   -- VREDMAX
  | 0x5 => (VV.ofRaw r).map .vredand   -- VREDAND
  | 0x6 => (VV.ofRaw r).map .vredor   -- VREDOR
  | 0x7 => (VV.ofRaw r).map .vredxor   -- VREDXOR
  | 0x8 => (VV.ofRaw r).map .vwredsum   -- VWREDSUM
  | 0x10 => (FVV.ofRaw r).map .vfredsum   -- VFREDSUM
  | 0x11 => (FVV.ofRaw r).map .vfredosum   -- VFREDOSUM
  | 0x12 => (FVV.ofRaw r).map .vfredmin   -- VFREDMIN
  | 0x13 => (FVV.ofRaw r).map .vfredmax   -- VFREDMAX
  | 0x18 => (VV.ofRaw r).map .vscan   -- VSCAN
  | 0x19 => (FVV.ofRaw r).map .vfscan   -- VFSCAN
  | _ => none

/-- Table 4-17, form .vv. -/
noncomputable def decodeVfpVV (r : RawVV) : Option Instr :=
  match r.fn.toNat with
  | 0x0 => (FVV.ofRaw r).map .vfaddVV   -- VFADD_VV
  | 0x1 => (FVV.ofRaw r).map .vfsubVV   -- VFSUB_VV
  | 0x2 => (FVV.ofRaw r).map .vfmulVV   -- VFMUL_VV
  | 0x3 => (FVV.ofRaw r).map .vfdivVV   -- VFDIV_VV
  | 0x4 => (FV.ofRaw r).map .vfsqrt   -- VFSQRT
  | 0x5 => (FVV.ofRaw r).map .vfminVV   -- VFMIN_VV
  | 0x6 => (FVV.ofRaw r).map .vfmaxVV   -- VFMAX_VV
  | 0x8 => (FVVV.ofRaw r).map .vfmaVV   -- VFMA_VV
  | 0x9 => (FVVV.ofRaw r).map .vfmsVV   -- VFMS_VV
  | 0xa => (FVVV.ofRaw r).map .vfnmaVV   -- VFNMA_VV
  | 0xc => (FVV.ofRaw r).map .vfwmaVV   -- VFWMA_VV
  | 0x10 => (FVV.ofRaw r).map .vfsgnVV   -- VFSGN_VV
  | 0x11 => (FVV.ofRaw r).map .vfsgnnVV   -- VFSGNN_VV
  | 0x14 => (FV.ofRaw r).map .vfclass   -- VFCLASS
  | 0x18 => (FV.ofRaw r).map .vfexp2   -- VFEXP2
  | 0x19 => (FV.ofRaw r).map .vfrcp   -- VFRCP
  | 0x1a => (FV.ofRaw r).map .vfrsqrt   -- VFRSQRT
  | _ => none

/-- Table 4-17, form .vs. -/
noncomputable def decodeVfpVS (r : RawVV) : Option Instr :=
  match r.fn.toNat with
  | 0x0 => (FVS.ofRaw r).map .vfaddVS   -- VFADD_VS
  | 0x1 => (FVS.ofRaw r).map .vfsubVS   -- VFSUB_VS
  | 0x2 => (FVS.ofRaw r).map .vfmulVS   -- VFMUL_VS
  | 0x3 => (FVS.ofRaw r).map .vfdivVS   -- VFDIV_VS
  | 0x5 => (FVS.ofRaw r).map .vfminVS   -- VFMIN_VS
  | 0x6 => (FVS.ofRaw r).map .vfmaxVS   -- VFMAX_VS
  | 0x8 => (FVSS.ofRaw r).map .vfmaVS   -- VFMA_VS
  | 0x9 => (FVSS.ofRaw r).map .vfmsVS   -- VFMS_VS
  | 0xa => (FVSS.ofRaw r).map .vfnmaVS   -- VFNMA_VS
  | 0xc => (FVS.ofRaw r).map .vfwmaVS   -- VFWMA_VS
  | 0x10 => (FVS.ofRaw r).map .vfsgnVS   -- VFSGN_VS
  | 0x11 => (FVS.ofRaw r).map .vfsgnnVS   -- VFSGNN_VS
  | _ => none

/-- VLOOP (Table 9-9). -/
def decodeVloop (r : RawVB) : Option Instr :=
  match r.fn.toNat with
  | 0x0 => (LoopOp.ofRaw r).map .vwhile   -- VWHILE
  | 0x1 => (LoopOp.ofRaw r).map .vwhilem   -- VWHILEM
  | _ => none

/-- STREAM (Table 12-5). -/
noncomputable def decodeStream (r : RawVC) : Option Instr :=
  match r.fn.toNat with
  | 0x0 => (StcfgOp.ofRaw r).map .stcfg   -- STCFG
  | 0x1 => (StbindOp.ofRaw r).map .stbind   -- STBIND
  | 0x2 => (StunbindOp.ofRaw r).map .stunbind   -- STUNBIND
  | 0x3 => (StstatOp.ofRaw r).map .ststat   -- STSTAT
  | _ => none

/-- QUEUE (Table 12-8). -/
noncomputable def decodeQueue (r : RawVQ) : Option Instr :=
  match r.fn.toNat with
  | 0x0 => (QcopyOp.ofRaw r).map .qcopy   -- QCOPY
  | 0x1 => (QblockOp.ofRaw r).map .qgather   -- QGATHER
  | 0x2 => (QblockOp.ofRaw r).map .qscatter   -- QSCATTER
  | 0x3 => (QblockOp.ofRaw r).map .qpload   -- QPLOAD
  | 0x4 => (QblockOp.ofRaw r).map .qpstore   -- QPSTORE
  | 0x5 => (QblockOp.ofRaw r).map .qspload   -- QSPLOAD
  | 0x6 => (QfenceOp.ofRaw r).map .qfence   -- QFENCE
  | 0x7 => (QsignalOp.ofRaw r).map .qsignal   -- QSIGNAL
  | 0x8 => (QstatOp.ofRaw r).map .qstat   -- QSTAT
  | _ => none

/-- SYS64 (R360, Table 21-6). -/
noncomputable def decodeSys64 (r : RawVC) : Option Instr :=
  match r.fn.toNat with
  | 0x0 => (ofAddrVC r).map .vsave   -- VSAVE
  | 0x1 => (ofAddrVC r).map .vrestore   -- VRESTORE
  | 0x2 => (PortqOp.ofRaw r).map .portq   -- PORTQ
  | 0x3 => (PortswOp.ofRaw r).map .portsw   -- PORTSW
  | _ => none

/-- MATRIX (Tables 14-7 and 15-8): fn [15:12] is reserved except in SPMMAC. -/
noncomputable def decodeMatrix (r : RawMX) : Option Instr :=
  match r.fn.toNat % 4096 with
  | 0x10 => (SpmmacOp.ofRaw r).map .spmmac
  | _ =>
    match r.fn.toNat with
    | 0x0 => (MzeroOp.ofRaw r).map .mzero   -- MZERO
    | 0x1 => (MupdOp.ofRaw r).map .mupd   -- MUPD
    | 0x2 => (MupdOp.ofRaw r).map .mupdn   -- MUPDN
    | 0x3 => (MmacOp.ofRaw r).map .mmac   -- MMAC
    | 0x4 => (MreadOp.ofRaw r).map .mread   -- MREAD
    | 0x5 => (MwriteOp.ofRaw r).map .mwrite   -- MWRITE
    | 0x6 => (MsclOp.ofRaw r).map .mscl   -- MSCL
    | 0x7 => (MzptOp.ofRaw r).map .mzpt   -- MZPT
    | 0x8 => (MstatOp.ofRaw r).map .mstat   -- MSTAT
    | 0x11 => (SpresOp.ofRaw r).map .spres   -- SPRES
    | 0x12 => (SpstatOp.ofRaw r).map .spstat   -- SPSTAT
    | _ => none

/-- VCMP: fl [1:0] selects the form (R182). -/
def decodeVcmp (w : BitVec 64) : Option Instr :=
  match (field 16 2 w : BitVec 2).toNat with
  | 0 => (CmpVV.ofRaw (.unpack w)).map .vcmpVV
  | 1 => (CmpVS.ofRaw (.unpack w)).map .vcmpVS
  | 2 => (CmpVI.ofRaw (.unpack w)).map .vcmpVI
  | _ => none

/-- VFCMP: fl [1:0] selects the form (R201). -/
noncomputable def decodeVfcmp (w : BitVec 64) : Option Instr :=
  match (field 16 2 w : BitVec 2).toNat with
  | 0 => (FCmpVV.ofRaw (.unpack w)).map .vfcmpVV
  | 1 => (FCmpVS.ofRaw (.unpack w)).map .vfcmpVS
  | _ => none

/-- Table 4-6, before the operand limits of `Instr.wf`. -/
noncomputable def decodeWordRaw (w : BitVec 64) : Option Instr :=
  match (field 56 6 w : BitVec 6).toNat with
  | 0x01 => decodeVcfg (.unpack w)
  | 0x02 => decodeVintVV (.unpack w)
  | 0x03 => decodeVintVS (.unpack w)
  | 0x04 => decodeVintVI (.unpack w)
  | 0x05 => decodeVcmp w
  | 0x06 => decodeVmask (.unpack w)
  | 0x07 => decodeVperm (.unpack w)
  | 0x08 => decodeVred (.unpack w)
  | 0x09 => decodeVfpVV (.unpack w)
  | 0x0a => decodeVfpVS (.unpack w)
  | 0x0b => decodeVfcmp w
  | 0x0c => (CvtOp.ofRaw (.unpack w)).map .vfcvt
  | 0x0f => decodeVloop (.unpack w)
  | 0x10 => (VldOp.ofRaw (.unpack w)).map .vld
  | 0x11 => (VldsOp.ofRaw (.unpack w)).map .vlds
  | 0x12 => (VldxOp.ofRaw (.unpack w)).map .vldx
  | 0x13 => (VldsegOp.ofRaw (.unpack w)).map .vldseg
  | 0x14 => (VldffOp.ofRaw (.unpack w)).map .vldff
  | 0x18 => (VstOp.ofRaw (.unpack w)).map .vst
  | 0x19 => (VstsOp.ofRaw (.unpack w)).map .vsts
  | 0x1a => (VstxOp.ofRaw (.unpack w)).map .vstx
  | 0x1b => (VstsegOp.ofRaw (.unpack w)).map .vstseg
  | 0x1c => (VldxOp.ofRaw (.unpack w)).map .vscadd
  | 0x1e => (VwaitOp.ofRaw (.unpack w)).map .vwait
  | 0x20 => decodeStream (.unpack w)
  | 0x24 => decodeQueue (.unpack w)
  | 0x30 => decodeMatrix (.unpack w)
  | 0x38 => decodeSys64 (.unpack w)
  | _ => none

/-- An instruction within the limits of its description, or none (R71). -/
def keepWf (i : Option Instr) : Option Instr := i.bind fun j => whenOk j.wf j

/-- A scalar parcel; bits [31:30] equal to 0b11 are illegal, since no major exceeds 0x5F (R60, R72). -/
def decodeParcel (w : BitVec 32) : Option Instr := keepWf (decodeParcelRaw w)

/-- A 64-bit instruction word, whose bits [63:62] are 0b11 (R58, R77). -/
noncomputable def decodeWord (w : BitVec 64) : Option Instr :=
  if (field 62 2 w : BitVec 2) = 3#2 then keepWf (decodeWordRaw w) else none

/-- C, bit [55]: the last word of a convoy (R64). -/
def lastBit (w : BitVec 64) : Bool := bit1 (field 55 1 w)

/-- A word whose bits [63:62] are 0b11 is one 64-bit instruction (R58). -/
def isWide (w : BitVec 64) : Bool := decide ((field 62 2 w : BitVec 2) = 3#2)

/-- The instruction a table word stands for: a 64-bit word, or the low parcel of a word (R58). -/
noncomputable def decodeTableWord (nbits w : Nat) : Option Instr :=
  if nbits > 32 && isWide (BitVec.ofNat 64 w) then decodeWord (BitVec.ofNat 64 w)
  else decodeParcel (BitVec.ofNat 32 w)

/-! ### The encoder -/

/-- What an instruction is written as: a parcel, a 64-bit word, or nothing (packets and events have no word). -/
inductive Encoded where
  | parcel (w : BitVec 32)
  | word (w : BitVec 64)
  | none
  deriving DecidableEq, Repr

/-- The words of an instruction; `last` is the C bit of a 64-bit word (R64). -/
def encode (i : Instr) (last : Bool) : Encoded :=
  match i with
  | .add o => .parcel (o.raw 0x01#7 0x0#10).pack
  | .sub o => .parcel (o.raw 0x01#7 0x1#10).pack
  | .and o => .parcel (o.raw 0x01#7 0x2#10).pack
  | .or o => .parcel (o.raw 0x01#7 0x3#10).pack
  | .xor o => .parcel (o.raw 0x01#7 0x4#10).pack
  | .andn o => .parcel (o.raw 0x01#7 0x5#10).pack
  | .shl o => .parcel (o.raw 0x01#7 0x8#10).pack
  | .shr o => .parcel (o.raw 0x01#7 0x9#10).pack
  | .sha o => .parcel (o.raw 0x01#7 0xa#10).pack
  | .min o => .parcel (o.raw 0x01#7 0x10#10).pack
  | .max o => .parcel (o.raw 0x01#7 0x11#10).pack
  | .minn o => .parcel (o.raw 0x01#7 0x12#10).pack
  | .maxn o => .parcel (o.raw 0x01#7 0x13#10).pack
  | .slt o => .parcel (o.raw 0x01#7 0x14#10).pack
  | .sltn o => .parcel (o.raw 0x01#7 0x15#10).pack
  | .mul o => .parcel (o.raw 0x01#7 0x20#10).pack
  | .mulh o => .parcel (o.raw 0x01#7 0x21#10).pack
  | .mulhn o => .parcel (o.raw 0x01#7 0x22#10).pack
  | .div o => .parcel (o.raw 0x01#7 0x24#10).pack
  | .divn o => .parcel (o.raw 0x01#7 0x25#10).pack
  | .rem o => .parcel (o.raw 0x01#7 0x26#10).pack
  | .remn o => .parcel (o.raw 0x01#7 0x27#10).pack
  | .clz o => .parcel (o.raw 0x01#7 0x30#10).pack
  | .ctz o => .parcel (o.raw 0x01#7 0x31#10).pack
  | .popc o => .parcel (o.raw 0x01#7 0x32#10).pack
  | .addi o => .parcel (o.raw 0x02#7).pack
  | .andi o => .parcel (o.raw 0x03#7).pack
  | .ori o => .parcel (o.raw 0x04#7).pack
  | .xori o => .parcel (o.raw 0x05#7).pack
  | .slti o => .parcel (o.raw 0x06#7).pack
  | .sltni o => .parcel (o.raw 0x07#7).pack
  | .shli o => .parcel (o.raw 0x08#7).pack
  | .shri o => .parcel (o.raw 0x09#7).pack
  | .shai o => .parcel (o.raw 0x0a#7).pack
  | .lui o => .parcel (o.raw 0x0b#7).pack
  | .adpc o => .parcel (o.raw 0x0c#7).pack
  | .ld8 o => .parcel (o.raw 0x10#7).pack
  | .ld16 o => .parcel (o.raw 0x11#7).pack
  | .ld32 o => .parcel (o.raw 0x12#7).pack
  | .ld64 o => .parcel (o.raw 0x13#7).pack
  | .ldn8 o => .parcel (o.raw 0x14#7).pack
  | .ldn16 o => .parcel (o.raw 0x15#7).pack
  | .ldn32 o => .parcel (o.raw 0x16#7).pack
  | .st8 o => .parcel (o.raw 0x18#7).pack
  | .st16 o => .parcel (o.raw 0x19#7).pack
  | .st32 o => .parcel (o.raw 0x1a#7).pack
  | .st64 o => .parcel (o.raw 0x1b#7).pack
  | .amoAdd o => .parcel (o.raw 0x1c#7 0x0#4).pack
  | .amoSwap o => .parcel (o.raw 0x1c#7 0x1#4).pack
  | .amoAnd o => .parcel (o.raw 0x1c#7 0x2#4).pack
  | .amoOr o => .parcel (o.raw 0x1c#7 0x3#4).pack
  | .amoXor o => .parcel (o.raw 0x1c#7 0x4#4).pack
  | .amoMin o => .parcel (o.raw 0x1c#7 0x5#4).pack
  | .amoMax o => .parcel (o.raw 0x1c#7 0x6#4).pack
  | .amoMinn o => .parcel (o.raw 0x1c#7 0x7#4).pack
  | .amoMaxn o => .parcel (o.raw 0x1c#7 0x8#4).pack
  | .amoCas o => .parcel (o.raw 0x1c#7 0x9#4).pack
  | .claim o => .parcel (o.raw 0x1d#7 0x0#10).pack
  | .beq o => .parcel (o.raw 0x20#7).pack
  | .bne o => .parcel (o.raw 0x21#7).pack
  | .blt o => .parcel (o.raw 0x22#7).pack
  | .bge o => .parcel (o.raw 0x23#7).pack
  | .bltn o => .parcel (o.raw 0x24#7).pack
  | .bgen o => .parcel (o.raw 0x25#7).pack
  | .jal o => .parcel (o.raw 0x26#7).pack
  | .jalr o => .parcel (o.raw 0x27#7).pack
  | .fadd o => .parcel (o.raw 0x28#7 0x0#8).pack
  | .fsub o => .parcel (o.raw 0x28#7 0x1#8).pack
  | .fmul o => .parcel (o.raw 0x28#7 0x2#8).pack
  | .fdiv o => .parcel (o.raw 0x28#7 0x3#8).pack
  | .fsqrt o => .parcel (o.raw 0x28#7 0x4#8).pack
  | .fmin o => .parcel (o.raw 0x28#7 0x5#8).pack
  | .fmax o => .parcel (o.raw 0x28#7 0x6#8).pack
  | .feq o => .parcel (o.raw 0x28#7 0x8#8).pack
  | .flt o => .parcel (o.raw 0x28#7 0x9#8).pack
  | .fle o => .parcel (o.raw 0x28#7 0xa#8).pack
  | .fclass o => .parcel (o.raw 0x28#7 0xb#8).pack
  | .fsgnj o => .parcel (o.raw 0x28#7 0xc#8).pack
  | .fsgnjn o => .parcel (o.raw 0x28#7 0xd#8).pack
  | .fcvtfi o => .parcel (o.raw 0x28#7 0x10#8).pack
  | .fcvtif o => .parcel (o.raw 0x28#7 0x11#8).pack
  | .fcvtff o => .parcel (o.raw 0x28#7 0x12#8).pack
  | .fma o => .parcel (o.raw 0x29#7 0x0#3).pack
  | .fms o => .parcel (o.raw 0x29#7 0x1#3).pack
  | .fnma o => .parcel (o.raw 0x29#7 0x2#3).pack
  | .fnms o => .parcel (o.raw 0x29#7 0x3#3).pack
  | .csrget o => .parcel (o.raw 0x30#7 0x0#3).pack
  | .csrput o => .parcel (o.raw 0x30#7 0x1#3).pack
  | .csrswap o => .parcel (o.raw 0x30#7 0x2#3).pack
  | .csrset o => .parcel (o.raw 0x30#7 0x3#3).pack
  | .csrclr o => .parcel (o.raw 0x30#7 0x4#3).pack
  | .lanegrantWrite _ => .none
  | .ctxidWrite _ => .none
  | .vownerWrite _ => .none
  | .pcntselWrite _ => .none
  | .fence o => .parcel (o.raw 0x31#7).pack
  | .fenceEWaitDone _ => .none
  | .syscall => .parcel (bareSR 0x32#7 0x0#10).pack
  | .trapret => .parcel (bareSR 0x32#7 0x1#10).pack
  | .resume o => .parcel (o.raw 0x32#7 0x2#10).pack
  | .track => .parcel (bareSR 0x32#7 0x3#10).pack
  | .yield => .parcel (bareSR 0x32#7 0x4#10).pack
  | .halt => .parcel (bareSR 0x32#7 0x5#10).pack
  | .waitev o => .parcel (o.raw 0x32#7 0x6#10).pack
  | .waitevWake _ => .none
  | .waitevTimeout _ => .none
  | .invtlb o => .parcel (o.raw 0x32#7 0x7#10).pack
  | .ebreak => .parcel (bareSR 0x32#7 0x8#10).pack
  | .cache o => .parcel (o.raw 0x32#7 0x9#10).pack
  | .setvl o => .word (o.raw 0x01#6 last 0x0#8).pack
  | .setvt o => .word (o.raw 0x01#6 last 0x1#8).pack
  | .vconfig o => .word (o.raw 0x01#6 last 0x2#8).pack
  | .setvlf o => .word (o.raw 0x01#6 last 0x3#8).pack
  | .menter => .word (bareVC 0x01#6 last 0x8#8).pack
  | .mexit => .word (bareVC 0x01#6 last 0x9#8).pack
  | .vaddVV o => .word (o.raw 0x02#6 last 0x0#16).pack
  | .vaddVS o => .word (o.raw 0x03#6 last 0x0#16).pack
  | .vaddVI o => .word (o.raw 0x04#6 last 0x0#16).pack
  | .vsubVV o => .word (o.raw 0x02#6 last 0x1#16).pack
  | .vsubVS o => .word (o.raw 0x03#6 last 0x1#16).pack
  | .vsubVI o => .word (o.raw 0x04#6 last 0x1#16).pack
  | .vandVV o => .word (o.raw 0x02#6 last 0x4#16).pack
  | .vandVS o => .word (o.raw 0x03#6 last 0x4#16).pack
  | .vandVI o => .word (o.raw 0x04#6 last 0x4#16).pack
  | .vorVV o => .word (o.raw 0x02#6 last 0x5#16).pack
  | .vorVS o => .word (o.raw 0x03#6 last 0x5#16).pack
  | .vorVI o => .word (o.raw 0x04#6 last 0x5#16).pack
  | .vxorVV o => .word (o.raw 0x02#6 last 0x6#16).pack
  | .vxorVS o => .word (o.raw 0x03#6 last 0x6#16).pack
  | .vxorVI o => .word (o.raw 0x04#6 last 0x6#16).pack
  | .vshlVV o => .word (o.raw 0x02#6 last 0x8#16).pack
  | .vshlVS o => .word (o.raw 0x03#6 last 0x8#16).pack
  | .vshlVI o => .word (o.raw 0x04#6 last 0x8#16).pack
  | .vshrVV o => .word (o.raw 0x02#6 last 0x9#16).pack
  | .vshrVS o => .word (o.raw 0x03#6 last 0x9#16).pack
  | .vshrVI o => .word (o.raw 0x04#6 last 0x9#16).pack
  | .vshaVV o => .word (o.raw 0x02#6 last 0xa#16).pack
  | .vshaVS o => .word (o.raw 0x03#6 last 0xa#16).pack
  | .vshaVI o => .word (o.raw 0x04#6 last 0xa#16).pack
  | .vminVV o => .word (o.raw 0x02#6 last 0x10#16).pack
  | .vminVS o => .word (o.raw 0x03#6 last 0x10#16).pack
  | .vminVI o => .word (o.raw 0x04#6 last 0x10#16).pack
  | .vmaxVV o => .word (o.raw 0x02#6 last 0x11#16).pack
  | .vmaxVS o => .word (o.raw 0x03#6 last 0x11#16).pack
  | .vmaxVI o => .word (o.raw 0x04#6 last 0x11#16).pack
  | .vminnVV o => .word (o.raw 0x02#6 last 0x12#16).pack
  | .vminnVS o => .word (o.raw 0x03#6 last 0x12#16).pack
  | .vminnVI o => .word (o.raw 0x04#6 last 0x12#16).pack
  | .vmaxnVV o => .word (o.raw 0x02#6 last 0x13#16).pack
  | .vmaxnVS o => .word (o.raw 0x03#6 last 0x13#16).pack
  | .vmaxnVI o => .word (o.raw 0x04#6 last 0x13#16).pack
  | .vmulVV o => .word (o.raw 0x02#6 last 0x18#16).pack
  | .vmulVS o => .word (o.raw 0x03#6 last 0x18#16).pack
  | .vmulhVV o => .word (o.raw 0x02#6 last 0x19#16).pack
  | .vmulhVS o => .word (o.raw 0x03#6 last 0x19#16).pack
  | .vmulhnVV o => .word (o.raw 0x02#6 last 0x1a#16).pack
  | .vmulhnVS o => .word (o.raw 0x03#6 last 0x1a#16).pack
  | .vdivVV o => .word (o.raw 0x02#6 last 0x1c#16).pack
  | .vdivVS o => .word (o.raw 0x03#6 last 0x1c#16).pack
  | .vdivnVV o => .word (o.raw 0x02#6 last 0x1d#16).pack
  | .vdivnVS o => .word (o.raw 0x03#6 last 0x1d#16).pack
  | .vremVV o => .word (o.raw 0x02#6 last 0x1e#16).pack
  | .vremVS o => .word (o.raw 0x03#6 last 0x1e#16).pack
  | .vremnVV o => .word (o.raw 0x02#6 last 0x1f#16).pack
  | .vremnVS o => .word (o.raw 0x03#6 last 0x1f#16).pack
  | .vmaccVV o => .word (o.raw 0x02#6 last 0x20#16).pack
  | .vmaccVS o => .word (o.raw 0x03#6 last 0x20#16).pack
  | .vmergeVV o => .word (o.raw 0x02#6 last 0x28#16).pack
  | .vmergeVS o => .word (o.raw 0x03#6 last 0x28#16).pack
  | .vmergeVI o => .word (o.raw 0x04#6 last 0x28#16).pack
  | .vmvVV o => .word (o.rawB 0x02#6 last 0x29#16).pack
  | .vmvVS o => .word (o.raw 0x03#6 last 0x29#16).pack
  | .vmvVI o => .word (o.raw 0x04#6 last 0x29#16).pack
  | .vaddsVV o => .word (o.raw 0x02#6 last 0x30#16).pack
  | .vaddsVS o => .word (o.raw 0x03#6 last 0x30#16).pack
  | .vaddsVI o => .word (o.raw 0x04#6 last 0x30#16).pack
  | .vsubsVV o => .word (o.raw 0x02#6 last 0x31#16).pack
  | .vsubsVS o => .word (o.raw 0x03#6 last 0x31#16).pack
  | .vsubsVI o => .word (o.raw 0x04#6 last 0x31#16).pack
  | .vaddsnVV o => .word (o.raw 0x02#6 last 0x32#16).pack
  | .vaddsnVS o => .word (o.raw 0x03#6 last 0x32#16).pack
  | .vaddsnVI o => .word (o.raw 0x04#6 last 0x32#16).pack
  | .vsubsnVV o => .word (o.raw 0x02#6 last 0x33#16).pack
  | .vsubsnVS o => .word (o.raw 0x03#6 last 0x33#16).pack
  | .vsubsnVI o => .word (o.raw 0x04#6 last 0x33#16).pack
  | .vavgVV o => .word (o.raw 0x02#6 last 0x34#16).pack
  | .vavgVS o => .word (o.raw 0x03#6 last 0x34#16).pack
  | .vsmulVV o => .word (o.raw 0x02#6 last 0x36#16).pack
  | .vsmulVS o => .word (o.raw 0x03#6 last 0x36#16).pack
  | .vsshrVV o => .word (o.raw 0x02#6 last 0x37#16).pack
  | .vsshrVS o => .word (o.raw 0x03#6 last 0x37#16).pack
  | .vsshrVI o => .word (o.raw 0x04#6 last 0x37#16).pack
  | .vwaddVV o => .word (o.raw 0x02#6 last 0x40#16).pack
  | .vwaddVS o => .word (o.raw 0x03#6 last 0x40#16).pack
  | .vwaddnVV o => .word (o.raw 0x02#6 last 0x41#16).pack
  | .vwaddnVS o => .word (o.raw 0x03#6 last 0x41#16).pack
  | .vwmulVV o => .word (o.raw 0x02#6 last 0x44#16).pack
  | .vwmulVS o => .word (o.raw 0x03#6 last 0x44#16).pack
  | .vwmulnVV o => .word (o.raw 0x02#6 last 0x45#16).pack
  | .vwmulnVS o => .word (o.raw 0x03#6 last 0x45#16).pack
  | .vwmaccVV o => .word (o.raw 0x02#6 last 0x46#16).pack
  | .vwmaccVS o => .word (o.raw 0x03#6 last 0x46#16).pack
  | .vwmaccnVV o => .word (o.raw 0x02#6 last 0x47#16).pack
  | .vwmaccnVS o => .word (o.raw 0x03#6 last 0x47#16).pack
  | .vnshrVV o => .word (o.raw 0x02#6 last 0x50#16).pack
  | .vnshrVS o => .word (o.raw 0x03#6 last 0x50#16).pack
  | .vnshrVI o => .word (o.raw 0x04#6 last 0x50#16).pack
  | .vnclipVV o => .word (o.raw 0x02#6 last 0x52#16).pack
  | .vnclipVS o => .word (o.raw 0x03#6 last 0x52#16).pack
  | .vnclipVI o => .word (o.raw 0x04#6 last 0x52#16).pack
  | .vnclipnVV o => .word (o.raw 0x02#6 last 0x53#16).pack
  | .vnclipnVS o => .word (o.raw 0x03#6 last 0x53#16).pack
  | .vnclipnVI o => .word (o.raw 0x04#6 last 0x53#16).pack
  | .vcmpVV o => .word (o.raw 0x05#6 last).pack
  | .vcmpVS o => .word (o.raw 0x05#6 last).pack
  | .vcmpVI o => .word (o.raw 0x05#6 last).pack
  | .mand o => .word (o.raw 0x06#6 last 0x0#16).pack
  | .mor o => .word (o.raw 0x06#6 last 0x1#16).pack
  | .mxor o => .word (o.raw 0x06#6 last 0x2#16).pack
  | .mandn o => .word (o.raw 0x06#6 last 0x3#16).pack
  | .mnot o => .word (o.raw 0x06#6 last 0x4#16).pack
  | .morx o => .word (o.raw 0x06#6 last 0x8#16).pack
  | .mori o => .word (o.raw 0x06#6 last 0x9#16).pack
  | .mcnt o => .word (o.raw 0x06#6 last 0xc#16).pack
  | .mlow o => .word (o.raw 0x06#6 last 0xd#16).pack
  | .mcum o => .word (o.raw 0x06#6 last 0xe#16).pack
  | .vseq o => .word (o.raw 0x06#6 last 0xf#16).pack
  | .vconfl o => .word (o.rawA 0x06#6 last 0x10#16).pack
  | .mmovf o => .word (o.raw 0x06#6 last 0x11#16).pack
  | .vslideup o => .word (o.raw 0x07#6 last 0x0#16).pack
  | .vslidedn o => .word (o.raw 0x07#6 last 0x1#16).pack
  | .vpermv o => .word (o.raw 0x07#6 last 0x2#16).pack
  | .vcompress o => .word (o.raw 0x07#6 last 0x3#16).pack
  | .vmvxs o => .word (o.raw 0x07#6 last 0x4#16).pack
  | .vmvsx o => .word (o.raw 0x07#6 last 0x5#16).pack
  | .vbcast o => .word (o.raw 0x07#6 last 0x6#16).pack
  | .vwhile o => .word (o.raw 0x0f#6 last 0x0#16).pack
  | .vwhilem o => .word (o.raw 0x0f#6 last 0x1#16).pack
  | .vfaddVV o => .word (o.raw 0x09#6 last 0x0#16).pack
  | .vfaddVS o => .word (o.raw 0x0a#6 last 0x0#16).pack
  | .vfsubVV o => .word (o.raw 0x09#6 last 0x1#16).pack
  | .vfsubVS o => .word (o.raw 0x0a#6 last 0x1#16).pack
  | .vfmulVV o => .word (o.raw 0x09#6 last 0x2#16).pack
  | .vfmulVS o => .word (o.raw 0x0a#6 last 0x2#16).pack
  | .vfdivVV o => .word (o.raw 0x09#6 last 0x3#16).pack
  | .vfdivVS o => .word (o.raw 0x0a#6 last 0x3#16).pack
  | .vfsqrt o => .word (o.raw 0x09#6 last 0x4#16).pack
  | .vfminVV o => .word (o.raw 0x09#6 last 0x5#16).pack
  | .vfminVS o => .word (o.raw 0x0a#6 last 0x5#16).pack
  | .vfmaxVV o => .word (o.raw 0x09#6 last 0x6#16).pack
  | .vfmaxVS o => .word (o.raw 0x0a#6 last 0x6#16).pack
  | .vfmaVV o => .word (o.raw 0x09#6 last 0x8#16).pack
  | .vfmaVS o => .word (o.raw 0x0a#6 last 0x8#16).pack
  | .vfmsVV o => .word (o.raw 0x09#6 last 0x9#16).pack
  | .vfmsVS o => .word (o.raw 0x0a#6 last 0x9#16).pack
  | .vfnmaVV o => .word (o.raw 0x09#6 last 0xa#16).pack
  | .vfnmaVS o => .word (o.raw 0x0a#6 last 0xa#16).pack
  | .vfwmaVV o => .word (o.raw 0x09#6 last 0xc#16).pack
  | .vfwmaVS o => .word (o.raw 0x0a#6 last 0xc#16).pack
  | .vfsgnVV o => .word (o.raw 0x09#6 last 0x10#16).pack
  | .vfsgnVS o => .word (o.raw 0x0a#6 last 0x10#16).pack
  | .vfsgnnVV o => .word (o.raw 0x09#6 last 0x11#16).pack
  | .vfsgnnVS o => .word (o.raw 0x0a#6 last 0x11#16).pack
  | .vfclass o => .word (o.raw 0x09#6 last 0x14#16).pack
  | .vfexp2 o => .word (o.raw 0x09#6 last 0x18#16).pack
  | .vfrcp o => .word (o.raw 0x09#6 last 0x19#16).pack
  | .vfrsqrt o => .word (o.raw 0x09#6 last 0x1a#16).pack
  | .vfcmpVV o => .word (o.raw 0x0b#6 last).pack
  | .vfcmpVS o => .word (o.raw 0x0b#6 last).pack
  | .vfcvt o => .word (o.raw 0x0c#6 last).pack
  | .vredsum o => .word (o.raw 0x08#6 last 0x0#16).pack
  | .vredmin o => .word (o.raw 0x08#6 last 0x1#16).pack
  | .vredmax o => .word (o.raw 0x08#6 last 0x2#16).pack
  | .vredand o => .word (o.raw 0x08#6 last 0x5#16).pack
  | .vredor o => .word (o.raw 0x08#6 last 0x6#16).pack
  | .vredxor o => .word (o.raw 0x08#6 last 0x7#16).pack
  | .vwredsum o => .word (o.raw 0x08#6 last 0x8#16).pack
  | .vfredsum o => .word (o.raw 0x08#6 last 0x10#16).pack
  | .vfredosum o => .word (o.raw 0x08#6 last 0x11#16).pack
  | .vfredmin o => .word (o.raw 0x08#6 last 0x12#16).pack
  | .vfredmax o => .word (o.raw 0x08#6 last 0x13#16).pack
  | .vscan o => .word (o.raw 0x08#6 last 0x18#16).pack
  | .vfscan o => .word (o.raw 0x08#6 last 0x19#16).pack
  | .vld o => .word (o.raw 0x10#6 last).pack
  | .vlds o => .word (o.raw 0x11#6 last).pack
  | .vldx o => .word (o.raw 0x12#6 last).pack
  | .vldseg o => .word (o.raw 0x13#6 last).pack
  | .vldff o => .word (o.raw 0x14#6 last).pack
  | .vst o => .word (o.raw 0x18#6 last).pack
  | .vsts o => .word (o.raw 0x19#6 last).pack
  | .vstx o => .word (o.raw 0x1a#6 last).pack
  | .vstseg o => .word (o.raw 0x1b#6 last).pack
  | .vscadd o => .word (o.raw 0x1c#6 last).pack
  | .vwait o => .word (o.raw 0x1e#6 last).pack
  | .vwaitWake _ => .none
  | .vwaitTimeout _ => .none
  | .stcfg o => .word (o.raw 0x20#6 last 0x0#8).pack
  | .stbind o => .word (o.raw 0x20#6 last 0x1#8).pack
  | .stunbind o => .word (o.raw 0x20#6 last 0x2#8).pack
  | .ststat o => .word (o.raw 0x20#6 last 0x3#8).pack
  | .streamFetch _ _ _ => .none
  | .qcopy o => .word (o.raw 0x24#6 last 0x0#16).pack
  | .qgather o => .word (o.raw 0x24#6 last 0x1#16).pack
  | .qscatter o => .word (o.raw 0x24#6 last 0x2#16).pack
  | .qpload o => .word (o.raw 0x24#6 last 0x3#16).pack
  | .qpstore o => .word (o.raw 0x24#6 last 0x4#16).pack
  | .qspload o => .word (o.raw 0x24#6 last 0x5#16).pack
  | .qfence o => .word (o.raw 0x24#6 last 0x6#16).pack
  | .qsignal o => .word (o.raw 0x24#6 last 0x7#16).pack
  | .qstat o => .word (o.raw 0x24#6 last 0x8#16).pack
  | .qstatWaitDone _ | .queueEntryRoom _ | .qcopyPerform _ _ | .qgatherPerform _ _ | .qscatterPerform _ _ | .qploadPerform _ _ | .qpstorePerform _ _ => .none
  | .qsploadPerform _ _ | .qfencePass _ _ | .qsignalPerform _ _ | .watchImprecise _ _ => .none
  | .mzero o => .word (o.raw 0x30#6 last 0x0#16).pack
  | .mupd o => .word (o.raw 0x30#6 last 0x1#16).pack
  | .mupdn o => .word (o.raw 0x30#6 last 0x2#16).pack
  | .mmac o => .word (o.raw 0x30#6 last 0x3#16).pack
  | .mread o => .word (o.raw 0x30#6 last 0x4#16).pack
  | .mwrite o => .word (o.raw 0x30#6 last 0x5#16).pack
  | .mscl o => .word (o.raw 0x30#6 last 0x6#16).pack
  | .mzpt o => .word (o.raw 0x30#6 last 0x7#16).pack
  | .mstat o => .word (o.raw 0x30#6 last 0x8#16).pack
  | .spmmac o => .word (o.raw 0x30#6 last).pack
  | .spres o => .word (o.raw 0x30#6 last 0x11#16).pack
  | .spstat o => .word (o.raw 0x30#6 last 0x12#16).pack
  | .vsave a => .word (addrVC a 0x38#6 last 0x0#8).pack
  | .vrestore a => .word (addrVC a 0x38#6 last 0x1#8).pack
  | .portq o => .word (o.raw 0x38#6 last 0x2#8).pack
  | .portsw o => .word (o.raw 0x38#6 last 0x3#8).pack
  | .lateError _ _ _ | .scoreboardSettleTimeout _ | .queueDoorbell _ | .queueRunStart _ | .queueRunStop _ => .none
  | .landingSelect _ | .priorityAging _ | .sliceEnd _ | .nop _ | .launch _ | .write _ | .signal _ => .none
  | .wait _ | .waitRecheck _ | .waitTimeout _ | .writeSignal _ | .copy _ => .none
  | .copyDone _ | .depend _ | .dependSatisfied _ | .fencePacket _ | .launchRetire _ | .gangPreempt _ | .preemptDeadline _ => .none
  | .gangResume _ | .engineQuiesceTimeout _ | .staleCompletion _ | .switchDrainComplete _ | .switchDrainLimit _ => .none
  | .quiesceEnd _ | .retrainDone _ | .trainingFail _ | .verifyPass _ | .verifyFail _ | .verifyTimeout _ | .fallbackActive _ => .none
  | .fallbackDown _ | .linkLost _ | .laneFailure _ _ | .openSession _ | .attest _ => .none
  | .createPartition _ | .loadCode _ | .mapWindowMap _ | .mapWindowChange _ | .mapWindowRemove _ | .submit _ | .readCounters _ => .none
  | .switchPort _ | .checkpoint _ | .close _ | .keepalive _ | .keepaliveSend _ => .none
  | .sessionLost _ | .atomicopCompletion _ _ _ | .proxyResponse _ _ _ | .atomicTimeout _ | .firmware _ | .powerGood | .powerSample _ _ _ => .none
  | .correctedError _ | .gddrCopyDone _ | .patrolScrub | .illegalWord _ | .uncorrectableError _ => .none
  | .checkpointDone _ | .powerLoss => .none

end Sys2Proof
end

