-- ==== Sys2Proof/Machine/SMap.lean ====
section
/-! DEFINITION. Machine/SMap.lean: sparse maps from addresses to values, lists of pairs in one canonical form: keys
strictly rising, and no entry equal to what an unlisted key reads as. Device memory is such a map of bytes. -/

namespace Sys2Proof.Machine

/-- A sparse map; `dflt` is what an unlisted key reads as, named by each use. -/
abbrev SMap (α : Type) := List (Nat × α)

/-- The value at a key. -/
def SMap.get {α : Type} (dflt : α) (m : SMap α) (k : Nat) : α :=
  match m with
  | [] => dflt
  | (a, v) :: t => if a = k then v else SMap.get dflt t k

/-- The map without a key. -/
def SMap.erase {α : Type} (m : SMap α) (k : Nat) : SMap α :=
  match m with
  | [] => []
  | (a, v) :: t => if a = k then SMap.erase t k else (a, v) :: SMap.erase t k

/-- A pair put in before the first greater key. -/
def SMap.insert {α : Type} (m : SMap α) (k : Nat) (v : α) : SMap α :=
  match m with
  | [] => [(k, v)]
  | (a, w) :: t => if k < a then (k, v) :: (a, w) :: t else (a, w) :: SMap.insert t k v

/-- The map with a key holding a value; writing the default removes the entry. -/
def SMap.set {α : Type} [DecidableEq α] (dflt : α) (m : SMap α) (k : Nat) (v : α) : SMap α :=
  if v = dflt then m.erase k else (m.erase k).insert k v

/-- Every key of the map is above a bound and the keys rise strictly. -/
def SMap.rising {α : Type} (lo : Option Nat) (m : SMap α) : Bool :=
  match m with
  | [] => true
  | (a, _) :: t => (match lo with
      | none => true
      | some l => decide (l < a)) && SMap.rising (some a) t

/-- No entry equals the default. -/
def SMap.noDefault {α : Type} [DecidableEq α] (dflt : α) (m : SMap α) : Bool :=
  match m with
  | [] => true
  | (_, v) :: t => decide (v ≠ dflt) && SMap.noDefault dflt t

/-- The canonical form. -/
def SMap.wf {α : Type} [DecidableEq α] (dflt : α) (m : SMap α) : Bool := m.rising none && m.noDefault dflt

/-- Values at the keys k, k + 1, and so on. -/
def SMap.getRange {α : Type} (dflt : α) (m : SMap α) (k n : Nat) : List α :=
  (List.range n).map fun i => m.get dflt (k + i)

/-- The map with consecutive keys from k holding the values of a list. -/
def SMap.setRange {α : Type} [DecidableEq α] (dflt : α) (m : SMap α) (k : Nat) (vs : List α) : SMap α :=
  match vs with
  | [] => m
  | v :: t => SMap.setRange dflt (m.set dflt k v) (k + 1) t

/-- Bytes of memory by address: a list of host cells; an unlisted address reads 0 (DESIGN CHOICE, log 1). -/
abbrev Memory := SMap Byte

/-- What a byte that nothing has written reads as (DESIGN CHOICE, log 1). -/
def Memory.fresh : Byte := 0#8

/-- One byte. -/
def Memory.read (m : Memory) (a : Nat) : Byte := SMap.get Memory.fresh m a

/-- One byte written. -/
def Memory.write (m : Memory) (a : Nat) (b : Byte) : Memory := SMap.set Memory.fresh m a b

/-- The canonical form of memory. -/
def Memory.wf (m : Memory) : Bool := SMap.wf Memory.fresh m

/-- n bytes from an address, the first least significant (R58, little-endian). -/
def Memory.readLE (m : Memory) (a : Nat) : Nat → Nat
  | 0 => 0
  | n + 1 => (m.read a).toNat + 256 * Memory.readLE m (a + 1) n

/-- n bytes written from an address, the least significant first. -/
def Memory.writeLE (m : Memory) (a : Nat) : Nat → Nat → Memory
  | 0, _ => m
  | n + 1, v => Memory.writeLE (m.write a (BitVec.ofNat 8 v)) (a + 1) n (v / 256)

end Sys2Proof.Machine
end

