-- ==== Sys2Proof/Machine/State.lean ====
section
/-! DEFINITION. Machine/State.lean: every piece of state the spec gives the module, as plain data, and its state after
reset. INVENTORY.md lists each field with its rule and reset value. -/

namespace Sys2Proof.Machine

/-! ### Small names -/

/-- Privilege levels (Table 6-9). -/
inductive Level where
  | a | s | f
  deriving DecidableEq, Repr

/-- Fixed-point rounding modes, vrm (R161). -/
inductive Vrm where
  | near | even | floor | trunc | jam
  deriving DecidableEq, Repr

/-- Special states of a cell or group sum (Table 14-3). -/
inductive Special where
  | none | pinf | ninf | nan
  deriving DecidableEq, Repr

/-! ### Tiles (14_matrix) -/

/-- A cell of an exact tile: the running sum V in units of 2⁻⁶⁴ and the state word (Table 14-3). -/
structure Cell where
  v : BitVec 136
  sp : Special
  nz : Bool
  empty : Bool
  inex : Bool
  big : Bool
  deriving DecidableEq, Repr

/-- The cell MZERO leaves (Table 14-3, column Reset). -/
def Cell.reset : Cell := { v := 0, sp := .none, nz := true, empty := true, inex := false, big := false }

/-- A group sum in units of 2⁻⁴⁸ (Table 14-5). -/
structure GSum where
  v : BitVec 96
  sp : Special
  nz : Bool
  act : Bool
  deriving DecidableEq, Repr

/-- The group sum MZERO leaves (Table 14-5). -/
def GSum.reset : GSum := { v := 0, sp := .none, nz := true, act := false }

/-- An accumulator tile: cell (r, c) has key 128 r + c. A BF16 tile uses `flt`, an exact tile the other two. -/
structure Tile where
  bf16 : Bool
  cells : SMap Cell
  sums : SMap GSum
  flt : SMap (BitVec 32)
  deriving DecidableEq, Repr

/-- An empty exact tile (R261). -/
def Tile.reset : Tile := { bf16 := false, cells := [], sums := [], flt := [] }

/-- What one granted slice holds (R261): two tiles, the block scales, the zero points, SK and ZR. -/
structure Slice where
  acc0 : Tile
  acc1 : Tile
  sa : SMap (BitVec 16)
  sb : SMap (BitVec 16)
  za : SMap Byte
  zb : SMap Byte
  sk : Bool
  zr : Bool
  deriving DecidableEq, Repr

/-- The block scale at task start: FP16 1.0 (R261). -/
def scaleOne : BitVec 16 := 0x3C00#16

/-- A slice at task start (R261). -/
def Slice.reset : Slice :=
  { acc0 := .reset, acc1 := .reset, sa := [], sb := [], za := [], zb := [], sk := false, zr := false }

/-! ### Causes -/

/-- Trap causes (Table 18-3). -/
inductive Cause where
  | illegal | convoy | priv | align | page | access | arena | vowner | precision | late | portgone | hostgone | hostatom
  | vimage | watch | ebreak | syscall | preempt | mode | residual
  deriving DecidableEq, Repr

/-- The code of a cause (Table 18-3). -/
def Cause.code : Cause → BitVec 8
  | .illegal => 0x01#8
  | .convoy => 0x02#8
  | .priv => 0x03#8
  | .align => 0x04#8
  | .page => 0x05#8
  | .access => 0x06#8
  | .arena => 0x07#8
  | .vowner => 0x08#8
  | .precision => 0x0A#8
  | .late => 0x0B#8
  | .portgone => 0x0C#8
  | .hostgone => 0x0D#8
  | .hostatom => 0x0E#8
  | .vimage => 0x0F#8
  | .watch => 0x10#8
  | .ebreak => 0x11#8
  | .syscall => 0x12#8
  | .preempt => 0x13#8
  | .mode => 0x14#8
  | .residual => 0x15#8

/-! ### Places and leaves -/

/-- Where bytes stand: in memory by physical address, or in host memory by host address, and the number of the key under which
they are reached, 0 outside the device memory of a confidential partition (R389). -/
structure Place where
  host : Bool
  addr : Nat
  key : Nat := 0
  deriving DecidableEq, Repr

/-- A leaf found by a walk: where its entry stands, the entry, the first virtual address of its page and log2 of its
size. -/
structure Leaf where
  entry : Nat
  word : Word
  base : Nat
  size : Nat
  deriving DecidableEq, Repr

/-! ### Streams (11_feeding_data) -/

/-- A stream: its pattern block, binding, position, FCODE, fetched elements, the fault that stopped it at the element after
them, and the leaf of each granule it has looked up for them (R224, R226 to R228, Table 12-6). -/
structure Stream where
  cfg : Bool
  pattern : List Word
  bound : Option VReg
  write : Bool
  pos : Nat
  fcode : BitVec 8
  ovr : Bool
  exh : Bool
  fetched : List Word
  stop : Option Cause
  leaves : List (Nat × Leaf)
  deriving DecidableEq, Repr

/-- A stream at task start (Table 12-6). -/
def Stream.reset : Stream :=
  { cfg := false, pattern := [], bound := none, write := false, pos := 0, fcode := 0, ovr := false, exh := false,
    fetched := [], stop := none, leaves := [] }

/-! ### The vector part of a strand (Tables 6-2, 6-3; R112) -/

/-- The vector part: it migrates and switches under vowner (R112, R359). -/
structure VecPart where
  vl : Nat
  vstart : Nat
  mz : Bool
  virt : Bool
  seg : Bool
  tp : Bool
  ew : EW
  vnreg : Nat
  vrm : Vrm
  vsat : Bool
  planebase : BitVec 12
  mmode : Bool
  v : SMap Byte
  m : Vector Mask 7
  mf : Mask
  ms : Mask
  streams : Vector Stream 8
  slices : List Slice
  entered : Bool
  deriving DecidableEq, Repr

/-- The vector part at task start with no lane group (Table 6-3; v, m, mf and ms: DESIGN CHOICE 0, log 13). -/
def VecPart.reset : VecPart :=
  { vl := 0, vstart := 0, mz := false, virt := false, seg := false, tp := false, ew := .e8, vnreg := 8, vrm := .near,
    vsat := false, planebase := 0, mmode := false, v := [], m := Vector.replicate 7 0, mf := 0, ms := 0,
    streams := Vector.replicate 8 .reset, slices := [], entered := false }

/-! ### Engine queues (11 R229, 12 R248 to R258) -/

/-- A command of an engine queue with its operand values, read when the word retired (R249). -/
inductive QCmd where
  | copy (src dst cnt : Word) (sl dl : Bool)
  | gather (block : List Word)
  | scatter (block : List Word)
  | pload (block : List Word)
  | pstore (block : List Word)
  | spload (block : List Word)
  | fence (id : Nat) (joined : List Nat)
  | signal (wr : Option Word) (value add sig : Word)
  deriving DecidableEq, Repr

/-- An entered command: the notify address if any, the scope, and the level it was issued at (R230). -/
structure QEntry where
  cmd : QCmd
  ntf : Option Word
  scope : Scope
  level : Level
  deriving DecidableEq, Repr

/-- One engine queue: entered commands in order, the halt with its fault record, and DONE (Tables 12-12, 12-13). -/
structure EngineQueue where
  entries : List QEntry
  halted : Bool
  fault : Word
  done : BitVec 16
  deriving DecidableEq, Repr

/-- An engine queue at task start. -/
def EngineQueue.reset : EngineQueue := { entries := [], halted := false, fault := 0, done := 0 }

/-- What an access needs of its page (R222): RD, W, or both. -/
structure Need where
  rd : Bool
  wr : Bool
  deriving DecidableEq, Repr

/-- A trap to take: its cause, resume kind, slot, trpc, trval and, for PAGE, the faulting granules with what they need
(R343). -/
structure Trap where
  cause : Cause
  rk : BitVec 3
  slot : BitVec 2
  tpc : Word
  tval : Word
  pages : List (Nat × Need)
  deriving DecidableEq, Repr

/-! ### Accesses under way -/

/-- An AMO sent toward a host window, whose completion the strand waits for (R320, R384): the operation, width, order,
address and operands of its parcel, the host address and the window it was routed to, the groups of that window and the one
that carries it, the leaf it was reached through, the generation of the task that sent it (R364), and the groups that entered
DRAINING while it was under way to one of their windows, of which each waits for it (R333). -/
structure AmoFlight where
  op : Nat
  n : Nat
  order : Nat
  va : Word
  b : Nat
  c : Nat
  d : XReg
  addr : Nat
  session : Nat
  fb : Bool
  groups : BitVec 24
  group : Nat
  leaf : Option Leaf
  gen : Nat
  drains : BitVec 24
  deriving DecidableEq, Repr

/-- A word that a sleeping VWAIT watches: its element, where it stands, the virtual address and the window by which it is routed at
each read, and the leaf it is reached through (R222, R224, R327, R373). -/
structure Watched where
  elem : Nat
  place : Place
  va : Nat
  win : Option Nat
  leaf : Option Leaf
  deriving DecidableEq, Repr

/-- A sleeping VWAIT: the words it watches, and whether its deadline has passed (R326). -/
structure Sleep where
  words : List Watched
  late : Bool
  deriving DecidableEq, Repr

/-! ### Convoys, traps and waits of a strand -/

/-- Elements a convoy's write-bound registers push at its retirement: the stream and the elements active in the last
write (R227). -/
structure Push where
  s : BitVec 3
  active : Mask
  deriving DecidableEq, Repr

/-- What a convoy carries to its retirement: the read-bound registers already popped, its pushes, the address of the
first watch match, and the flags and saturation its words raised (R171, R192, R227, R332). -/
structure ConvCtx where
  popped : List VReg
  pushes : List Push
  watch : Option Word
  flags : BitVec 5
  sat : Bool
  deriving DecidableEq, Repr

/-- A convoy that carries nothing. -/
def ConvCtx.none : ConvCtx := { popped := [], pushes := [], watch := Option.none, flags := 0, sat := false }

/-- What TRAPRET leaves to the next issue (R348): nothing, words of the stopped convoy with the first under mf, such words
from vstart, such words as they stand, only the convoy's retirement, or only that of a parcel. -/
inductive Reissue where
  | none | underMf | fromVstart | rest | retire | parcel
  deriving DecidableEq, Repr

/-- The accesses that fail late, and where the strand stops for it (R346): elements of its next scalar load, store, VSCADD,
AMO, CLAIM or push, reported at the boundary after it, with ERR and, for an AMO or CLAIM, PERF (the progress word of a store
counts as element 16,384, and the elements of a convoy's pushes are numbered through); elements of its next load, which it stops
at; or the read of a K-step of its next matrix word, with the address of that read. -/
inductive LateStop where
  | boundary (elems : List Nat) (err : BitVec 3) (perf : Bool)
  | load (elems : List Nat) (err : BitVec 3)
  | matrix (k : Nat) (addr : Word)
  deriving DecidableEq, Repr

/-- What the history buffer keeps of a convoy that waits within it: the vector part, what the convoy carried and what TRAPRET
had left to it before its first word, and the scalar registers its words write as they were (R123, R125). What its words do
outside the strand is not done while it waits: they retire when the wait is over (R124, R327; log 33). -/
structure History where
  vec : VecPart
  conv : ConvCtx
  how : Reissue
  xs : List (XReg × Word)
  deriving DecidableEq, Repr

/-- A convoy that TRAPRET issues again with what it carried, known by its trpc and trslot: one stopped with RK 1, 2 or 3, for
which `how` is none, or words of such a convoy that a trap of RK 0 has undone, which begin again as they did (R227, R344). -/
structure Suspended where
  pc : Word
  slot : BitVec 2
  ctx : ConvCtx
  how : Reissue
  deriving DecidableEq, Repr

/-- Why a strand is not issuing (R121, R229, R257, R324, R326, R352, R353, R379, R384, R398). -/
inductive Run where
  | idle
  | running
  | vwait
  | waitev
  | queueRoom
  | qstatWait
  | fenceE
  | portsw
  | routeStall
  | atomicWait
  | proxyWait
  | halted
  | preempted
  | stopped
  | haltWait
  | fTrap
  | moved
  deriving DecidableEq, Repr

/-- A stop of the strand: none; a pre-emption requested; requested to arrive at step k of the next matrix word; requested
with PREEMPT raised already (R283, R356, R357); a forced stop or the end of its launch, which wait for its next pre-emption
point (R357, R363). -/
inductive Preempt where
  | none
  | requested
  | arriving (k : Nat)
  | raised
  | forced
  | ending
  deriving DecidableEq, Repr

/-- A strand of the module and the task it holds (06_strands, 18_traps). -/
structure Strand where
  id : StrandId
  part : Nat
  run : Run
  task : Option (Nat × Nat)
  pc : Word
  x : Vector Word 32
  level : Level
  frm : RMode
  fflags : BitVec 5
  lanegrant : BitVec 8
  lidx : Vector Word 4
  trpc : Word
  trRk : BitVec 3
  trCode : BitVec 8
  trval : Word
  trIn : Bool
  trLvl : Level
  trvec : BitVec 32
  trscratch : Word
  trpend : Word
  trslot : BitVec 2
  trpages : Word
  trpcount : Word
  vowner : BitVec 16
  ctxid : BitVec 16
  arenabase : Word
  arenabound : Word
  watch : Vector Word 4
  wctl : Vector Word 4
  strandid : BitVec 3
  coreid : BitVec 6
  cycle : Word
  convoys : Word
  vec : VecPart
  queues : Vector EngineQueue 4
  board : List SbEntry
  lateHeld : List SbEntry
  lateStop : Option LateStop
  panelLate : Option Word
  watchHeld : List (BitVec 6 × Word)
  preempt : Preempt
  moving : Bool
  iword : Word
  slot : BitVec 2
  reissue : Reissue
  conv : ConvCtx
  history : Option History
  suspended : List Suspended
  vwait : Option Sleep
  amo : Option AmoFlight
  note : Option Trap
  usedLarder : Bool
  restarted : Bool
  taskCtx : BitVec 16
  age : Nat
  gen : Nat
  deriving DecidableEq, Repr

/-- Table 6-3, column Reset, on a strand that holds no task: no lane group is placed, so lanegrant and the lane state are
those of lanegrant 0x00; values that placement or a LAUNCH sets are 0 until then (log 2). -/
def Strand.reset (id : StrandId) : Strand :=
  { id := id, part := 0, run := .idle, task := none, pc := 0, x := Vector.replicate 32 0, level := .a, frm := .rne,
    fflags := 0, lanegrant := 0, lidx := Vector.replicate 4 0, trpc := 0, trRk := 0, trCode := 0, trval := 0,
    trIn := false, trLvl := .a, trvec := 0, trscratch := 0, trpend := 0, trslot := 0, trpages := 0, trpcount := 0,
    vowner := 0, ctxid := 0, arenabase := 0, arenabound := 0, watch := Vector.replicate 4 0,
    wctl := Vector.replicate 4 0, strandid := id.sid, coreid := id.core, cycle := 0, convoys := 0, vec := .reset, queues := Vector.replicate 4 .reset,
    board := [], lateHeld := [], lateStop := none, panelLate := none, watchHeld := [], preempt := .none, moving := false,
    iword := 0, slot := 0, reissue := .none, conv := .none, history := none, suspended := [], vwait := none, amo := none,
    note := none, usedLarder := false, restarted := false, taskCtx := 0, age := 0, gen := 0 }

/-! ### Cores, translation, memory systems -/

/-- What a core holds for the partition that owns it: the counters, their events and pcntsel.IDX (Tables 23-2, 23-3),
which counters may have moved on since they were last read by an amount the model does not follow (log 7), whether it is
absent, and its absent strand cores (R17, R18). -/
structure CoreState where
  core : BitVec 6
  pcnt : Vector Word 16
  events : Vector (BitVec 8) 16
  stirred : Vector Bool 16
  idx : BitVec 4
  absent : Bool
  lostStrands : List (BitVec 3)
  deriving DecidableEq, Repr

/-- A core after CREATE_PARTITION (R393). -/
def CoreState.reset (c : BitVec 6) : CoreState :=
  { core := c, pcnt := Vector.replicate 16 0, events := Vector.replicate 16 0, stirred := Vector.replicate 16 false,
    idx := 0, absent := false, lostStrands := [] }

/-- A cached translation: the die whose TLB holds it, the partition, the first virtual address and log2 of the size it
maps, log2 of its page's size, the leaf and where its entry stands (R13, R223): a 64 MiB page is held as four entries of
16 MiB. -/
structure TlbEntry where
  die : BitVec 1
  part : Nat
  base : Nat
  size : Nat
  page : Nat
  entry : Nat
  leaf : Word
  deriving DecidableEq, Repr

/-! ### Partitions and windows (05, 21) -/

/-- A window of a partition (Table 21-2); `revoked` once its session is lost or closed (R386). -/
structure Window where
  num : Nat
  kind : BitVec 2
  va : Nat
  len : Nat
  pa : Nat
  groups : BitVec 24
  ways : Nat
  gran4k : Bool
  en : Bool
  rm : Bool
  fb : Bool
  bounce : Bool
  session : Nat
  peer : Nat
  hbase : Nat
  revoked : Bool
  deriving DecidableEq, Repr

/-- An event record (Table 18-9): the fields of word 0, without LOST, and words 1 to 3. -/
structure EventRec where
  kind : BitVec 8
  subj : BitVec 16
  ctx : BitVec 16
  a : Word
  b : Word
  c : Word
  deriving DecidableEq, Repr

/-- A fused variant in the translation area (R34): the image range it was made from, the physical length and where the
variant of the image's first word stands. -/
structure Variant where
  off : Nat
  len : Nat
  phys : Nat
  base : Nat
  deriving DecidableEq, Repr

/-- A CHECKPOINT under way: the session, path and SEQ of its request, the window and the byte offset in it (Table 21-14). -/
structure CheckpointJob where
  session : Nat
  path : Nat
  seq : Nat
  win : Nat
  off : Nat
  deriving DecidableEq, Repr

/-- A partition (R28, R29, R34, R87, R371, R381, R395); `secret` is the export master secret of the SPDM session it was
created under, from which the keys of a confidential partition come (R404); `memKey` is the number of the key of its device memory,
or 0 where it is not encrypted (R389); `ending` says that its launches end by its loss
policy, and that it is torn down when they have (R386, Table 21-13). -/
structure Partition where
  pid : Nat
  first : Nat
  count : Nat
  policy : Nat
  conf : Bool
  root : Nat
  queueArea : Nat
  arenaBase : Nat
  arenaSize : Nat
  transSize : Nat
  images : List (Nat × Nat)
  variants : List Variant
  handle : Word × Word
  owner : Option Nat
  creator : Nat
  events : List EventRec
  lost : Nat
  stale : Word
  proxies : Word
  windows : List Window
  nextWin : Nat
  job : Option CheckpointJob
  secret : List Byte
  memKey : Nat
  ending : Bool
  deriving DecidableEq, Repr

/-! ### Hardware queues and launches (05) -/

/-- States of a hardware queue (Table 5-2). -/
inductive QState where
  | stopped | running | halted
  deriving DecidableEq, Repr

/-- What a performed packet is waiting for: a WAIT's word, a DEPEND step, a COPY engine (R98). -/
inductive Hold where
  | wait (p : Packet)
  | depend (p : Packet) (step : Nat)
  | copy (p : Packet)
  deriving DecidableEq, Repr

/-- A signal: address, value, operation (R94). -/
structure Signal where
  a : Word
  v : Word
  o : BitVec 2
  deriving DecidableEq, Repr

/-- A completion signal that is not performed yet: its launch's index, the signal, and ORDERED, EVT and TAG (R101). -/
structure HeldSignal where
  index : Nat
  signal : Signal
  ordered : Bool
  evt : Bool
  tag : BitVec 16
  deriving DecidableEq, Repr

/-- A hardware queue as its Landing holds it: the latched words (R87), its state and counts (R88, R92), the packets
fetched but not started, started and not retired, and retired out of order (R100, R101), launches whose signal is not
yet performed, the signals held, by ascending index, the deficit and the aging of R102, the packet that holds, and the steps that
a data error is to meet, by packet index and step (Table 5-9); a LAUNCH's completion signal counts as its step 0. -/
structure HwQueue where
  id : QueueId
  state : QState
  ring : Word
  size : Nat
  opmask : BitVec 16
  prio : Nat
  quantum : Nat
  windows : List (Word × Word)
  ran : Bool
  head : Nat
  qdone : Nat
  faultIdx : Nat
  fetched : List Packet
  active : List (Nat × Bool)
  retired : List Nat
  unsignalled : List Nat
  heldSignals : List HeldSignal
  deficit : Int
  aged : Nat
  hold : Option Hold
  errors : List (Nat × Nat)
  deriving DecidableEq, Repr

/-- Where a launch stands: waiting for strands, running, pre-empted, or ended by an unrecovered trap. -/
inductive LState where
  | waiting | running | preempted | ended
  deriving DecidableEq, Repr

/-- A validated launch (R94, R95, R101): its packet's fields and what its descriptor gives. -/
structure Launch where
  lid : Nat
  queue : QueueId
  index : Nat
  tag : BitVec 16
  sup : Bool
  evt : Bool
  ordered : Bool
  conc : Bool
  grant : BitVec 3
  vnreg : Nat
  param : Word
  stack : Word
  ssize : Nat
  trvec : BitVec 32
  entry : Nat
  signal : Signal
  virt : Bool
  tasks : Nat
  tripC : Nat
  fuse : Nat
  levelC : Option Nat
  levelD : Option Nat
  code : List (Nat × Nat)
  state : LState
  seq : Nat
  halted : Nat
  endRec : Option EventRec
  deriving DecidableEq, Repr

/-! ### Port groups, sessions, messages, the module (21, 23) -/

/-- States of a port group (Table 21-7). -/
inductive GState where
  | active | draining | quiesced | retraining | verifying | fallback | down
  deriving DecidableEq, Repr

/-- A port group: the fields of its state word, its owner, its stored presets, and the strand at PORTSW
or the session and SEQ of the SWITCH_PORT that waits for it (R374, R375, R379). -/
structure Group where
  state : GState
  pers : BitVec 4
  target : BitVec 4
  prev : BitVec 4
  result : BitVec 4
  switches : BitVec 8
  warm : Bool
  spare : Bool
  owner : Option Nat
  presets : List (BitVec 4)
  waiter : Option StrandId
  asker : Option (Nat × Nat)
  deriving DecidableEq, Repr

/-- A host session (R380 to R386, R406): the SPDM requests it has made and that were accepted, as bytes, whether a
KEY_EXCHANGE awaits its FINISH, the export master secret of its SPDM session (R403, R404), and the requests that wait for an
earlier one of their path, oldest first (R380). -/
structure Session where
  num : Nat
  order : Nat
  attested : Bool
  paths : List Nat
  transcript : List Byte
  exchange : Bool
  secret : Option (List Byte)
  waiting : List Msg
  deriving DecidableEq, Repr

/-- A message the device sends to a host: the path or session, TYPE, VERB, SEQ, STATUS and payload (Table 21-11). -/
structure OutMsg where
  session : Nat
  type : Nat
  verb : Nat
  seq : Nat
  status : Nat
  payload : List Byte
  deriving DecidableEq, Repr

/-- A SUBMIT that waits for earlier producers to publish: its session, path and SEQ, its queue, the index it reserved and its
count of packets (R407). -/
structure PendingSubmit where
  session : Nat
  path : Nat
  seq : Nat
  queue : QueueId
  index : Nat
  count : Nat
  deriving DecidableEq, Repr

/-- Phases of the module (Table 23-9, R405). -/
inductive Phase where
  | off | bootRom | service | tripped
  deriving DecidableEq, Repr

/-- Module-wide service state (R6, R9, R17, R396 to R398, R402); `taken` counts the spares used: class, scope (die, core or
group) and count; `removed` lists the parts gone from service, `moving` the parts whose tasks are on the way to a spare; `memKeys`
counts the keys of device memory made so far (R389). -/
structure Module where
  phase : Phase
  clockMHz : Nat
  firmware : List Byte
  taken : List (Nat × Nat × Nat)
  errors : List (PartRef × Nat)
  removed : List PartRef
  moving : List PartRef
  copying : List Nat
  owning : Option Nat
  nextSession : Nat
  sessionOrder : Nat
  startSeq : Nat
  memKeys : Nat
  deriving DecidableEq, Repr

/-! ### The state of the module -/

/-- An error that no check corrects where the fault is a queue's (R97, R99, R250, R401): in the command an engine performs, at
the part of it that DETAIL names; in a step of a packet of a hardware queue, or in the completion signal of a LAUNCH, which counts as its
step 0; or on the Landing's save of a task context's vector part (R365). -/
inductive DataError where
  | engine (who : StrandId) (j : BitVec 2) (detail : Int)
  | step (q : QueueId) (index : Nat) (step : Nat)
  | save (ctx : BitVec 16)
  deriving DecidableEq, Repr

/-- Something due to happen (log 3): an event of the opcode table, a fetched packet's performance, a doorbell or RUN
write reaching the Landing, a strand's turn to issue, a byte that an outside agent writes, an uncorrected error, the teardown
of a partition whose launches have ended, the end of a move to a spare, or a request that an earlier one of its path has held up
(R380). -/
inductive Act where
  | event (i : Instr)
  | packet (p : Packet)
  | doorbell (q : QueueId)
  | runStart (q : QueueId)
  | runStop (q : QueueId)
  | select (die : BitVec 1)
  | issue (who : StrandId)
  | poke (host : Bool) (addr : Nat) (byte : Byte)
  | dataError (e : DataError)
  | tearDown (part : Nat)
  | moveDone (p : PartRef)
  | request (m : Msg)
  deriving DecidableEq, Repr

/-- The module: the strand that issues and the others, the acts due, memory, and everything the Landing, the ports and
the service processor hold. `keys` holds, for each byte of device memory, the number of the key that it was written under, 0 for none (R389, log 48).
`strays` are the AMO completions still to come for tasks that have ended, by strand and
partition (R364). `reservations` are of launches that wait for strands, by partition and launch (R103). `free` counts the free values taken (log 6), `tables` the page tables that MAP_WINDOW has made (log 28). -/
structure State where
  cur : Strand
  others : List Strand
  parked : List Strand
  saved : List (BitVec 16 × VecPart)
  agenda : List Act
  free : Nat
  mem : Memory
  keys : SMap Nat
  hostMem : Memory
  larder : Memory
  planes : SMap (BitVec 5)
  tlb : List TlbEntry
  cores : List CoreState
  parts : List Partition
  hwq : List HwQueue
  launches : List Launch
  nextLaunch : Nat
  pending : List QueueId
  reservations : List (Nat × Nat)
  rr : List (BitVec 1 × Nat × QueueId)
  groups : Vector Group 24
  sessions : List Session
  outbox : List OutMsg
  submits : List PendingSubmit
  strays : List (StrandId × Nat)
  tables : Nat
  module : Module
  deriving DecidableEq, Repr

/-- Why the machine stops. No instruction of this model ends in a fault: every meaning has a next state. -/
inductive Fault where
  /-- Raised by no instruction; kept so that the type says that a stop would be safe: the machine goes no further. -/
  | none
  deriving DecidableEq, Repr

/-- Why an instruction has no meaning. -/
inductive Refusal where
  /-- Raised by an arm of `exec` whose instruction has no meaning yet (safe: the machine stops). -/
  | notModelled (mnemonic : String)
  deriving DecidableEq, Repr

/-- A port group at power good: no personality is configured before the firmware image gives one (R370, Table 21-7);
PERS 15 and TARGET 15 until then (DESIGN CHOICE, log 14). -/
def Group.reset : Group :=
  { state := .active, pers := 15, target := 15, prev := 15, result := 0, switches := 0, warm := false, spare := false,
    owner := none, presets := [], waiter := none, asker := none }

/-- The module before POWER_GOOD starts its boot ROM: no session, partition or task exists (R402, log 2). -/
def Module.reset : Module :=
  { phase := .off, clockMHz := 2100, firmware := [], taken := [], errors := [], removed := [], moving := [],
    copying := [], owning := none, nextSession := 1, sessionOrder := 0, startSeq := 0, memKeys := 0 }

/-- The module right after reset. -/
def State.reset : State :=
  { cur := .reset { core := 0, sid := 0 }, others := [], parked := [], saved := [], agenda := [], free := 0, mem := [], keys := [],
    hostMem := [], larder := [], planes := [], tlb := [], cores := [], parts := [], hwq := [], launches := [],
    nextLaunch := 0, pending := [], reservations := [], rr := [], groups := Vector.replicate 24 .reset, sessions := [],
    outbox := [], submits := [], strays := [], tables := 0, module := .reset }

end Sys2Proof.Machine
end

