-- ==== Sys2Proof/Machine/Ops.lean ====
section
/-! DEFINITION. Machine/Ops.lean: the named operations over registers, counters, memory and traps that the meanings
share. -/

namespace Sys2Proof.Machine

/-- What a meaning answers. -/
abbrev Out := Host.Outcome State Fault Refusal

/-! ### Registers of the issuing strand -/

/-- The value of a scalar register; x0 reads zero (R126). -/
def Strand.getX (c : Strand) (r : XReg) : Word := if r = 0 then 0 else c.x[r.toNat]

/-- A scalar register written; a write to x0 is discarded (R126). -/
def Strand.setX (c : Strand) (r : XReg) (v : Word) : Strand :=
  if r = 0 then c else { c with x := c.x.set r.toNat v }

/-- The value of a scalar register of the issuing strand. -/
def State.getX (s : State) (r : XReg) : Word := s.cur.getX r

/-- The state with the issuing strand replaced. -/
def State.withCur (s : State) (c : Strand) : State := { s with cur := c }

/-- A scalar register of the issuing strand written. -/
def State.setX (s : State) (r : XReg) (v : Word) : State := s.withCur (s.cur.setX r v)

/-- The program counter of the issuing strand set. -/
def State.setPc (s : State) (v : Word) : State := s.withCur { s.cur with pc := v }

/-- Past a scalar parcel. -/
def State.next4 (s : State) : State := s.setPc (s.cur.pc + 4)

/-- Past a 64-bit word. -/
def State.next8 (s : State) : State := s.setPc (s.cur.pc + 8)

/-- The issuing strand's vector part replaced. -/
def State.withVec (s : State) (v : VecPart) : State := s.withCur { s.cur with vec := v }

/-- Sticky floating-point flags raised (Table 6-7). -/
def State.raise (s : State) (f : BitVec 5) : State := s.withCur { s.cur with fflags := s.cur.fflags ||| f }

/-- A free value, and the state whose counter has moved on (log 6). -/
def State.takeFree (s : State) : Word × State := (Config.freeWord s.free, { s with free := s.free + 1 })

/-- Any order of a list: each element goes to the place that a free value names (log 9). -/
def State.shuffle {α : Type} (s : State) : List α → List α × State
  | [] => ([], s)
  | x :: t =>
    match s.shuffle t with
    | (ys, s1) =>
      let r := s1.takeFree
      let k := r.1.toNat % (ys.length + 1)
      (ys.take k ++ x :: ys.drop k, r.2)

/-- The count of lane groups a mask holds (R114). -/
def laneCount (g : BitVec 8) : Nat := ((List.range 8).filter fun i => g.getLsbD i).length

/-- g of R114. -/
def Strand.lanes (c : Strand) : Nat := laneCount c.lanegrant

/-- The bits of a vector register: g × 262,144 ÷ vnreg (R114). -/
def Strand.regBits (c : Strand) : Nat := c.lanes * (262144 / c.vec.vnreg)

/-- vlmax in bits: min(65,536, g × b), or 16,384 in virtual-length mode; 0 without lane groups (R31, R114). -/
def Strand.vlmaxBits (c : Strand) : Nat :=
  if c.lanes = 0 then 0 else if c.vec.virt then 16384 else min 65536 c.regBits

/-- vlmax: 128 in matrix mode (Table 14-1), else by R31 and R114. -/
def Strand.vlmax (c : Strand) : Nat :=
  if c.vec.mmode then 128 else c.vlmaxBits / c.vec.ew.bits

/-! ### Counters (23, R393, R394) -/

/-- The counters of a core: those whose event matches move on. -/
def CoreState.count (k : CoreState) (ev : BitVec 8) (n : Nat) : CoreState :=
  { k with pcnt := Vector.ofFn fun i : Fin 16 =>
      if k.events[i] = ev ∧ ev ≠ 0 then k.pcnt[i] + BitVec.ofNat 64 n else k.pcnt[i] }

/-- An event counted on a core (Table 23-4). -/
def State.countOn (s : State) (core : BitVec 6) (ev : BitVec 8) (n : Nat) : State :=
  { s with cores := s.cores.map fun k => if k.core = core then k.count ev n else k }

/-- Events whose amount the model does not follow: clocks, element groups, lines and walks (Table 23-4; log 7). -/
def freeCounted (e : BitVec 8) : Bool := [1, 4, 6, 7, 8, 9, 14].contains e.toNat

/-- Something has happened on a core that counts such events: the counters they are assigned to have moved on, by an amount
that is a free value when they are read (R394, log 7). -/
def State.stir (s : State) (core : BitVec 6) (evs : List Nat) : State :=
  { s with cores := s.cores.map fun k =>
      if k.core = core then
        { k with stirred := Vector.ofFn fun i : Fin 16 => k.stirred[i] || (freeCounted k.events[i] && evs.contains k.events[i].toNat) }
      else k }

/-- The issuing strand's core, as the partition holds it. -/
def State.coreOf (s : State) : CoreState :=
  (s.cores.find? fun k => k.core = s.cur.id.core).getD (.reset s.cur.id.core)

/-- A counter of a core brought up to date before it is read or its event is changed: if it may have moved on, a free value
says by how much (R393, R394, log 7). -/
def State.settleCounter (s : State) (core : BitVec 6) (i : BitVec 4) : State :=
  if s.cores.any fun k => k.core = core && k.stirred[i.toNat] then
    let r := s.takeFree
    { r.2 with cores := r.2.cores.map fun k =>
        if k.core = core then
          { k with pcnt := k.pcnt.set i.toNat (k.pcnt[i.toNat] + r.1), stirred := k.stirred.set i.toNat false }
        else k }
  else s

/-- An event counted on the issuing strand's core. -/
def State.count (s : State) (ev : BitVec 8) (n : Nat) : State := s.countOn s.cur.id.core ev n

/-! ### Partitions and events -/

/-- The partition of a number. -/
def State.partition? (s : State) (p : Nat) : Option Partition := s.parts.find? fun q => q.pid = p

/-- One partition changed. -/
def State.mapPart (s : State) (p : Nat) (f : Partition → Partition) : State :=
  { s with parts := s.parts.map fun q => if q.pid = p then f q else q }

/-- An event reaches the supervisor event queue: 64 records, a further one is counted as lost (R353). -/
def State.partEvent (s : State) (p : Nat) (e : EventRec) : State :=
  s.mapPart p fun q => if q.events.length < 64 then { q with events := q.events ++ [e] } else { q with lost := q.lost + 1 }

/-- The low bytes of a word, least significant first. -/
def leBytes : Nat → Nat → List Byte
  | 0, _ => []
  | n + 1, v => BitVec.ofNat 8 v :: leBytes n (v / 256)

/-- The value of bytes, least significant first. -/
def ofBytes : List Byte → Nat
  | [] => 0
  | b :: t => b.toNat + 256 * ofBytes t

/-- Word 0 of an event record (Table 18-9). -/
def EventRec.word0 (e : EventRec) (lost : Nat) : Word :=
  BitVec.ofNat 64 (e.kind.toNat + 256 * min lost 255 + 65536 * e.subj.toNat + 4294967296 * e.ctx.toNat)

/-- The 32 bytes of a record. -/
def EventRec.bytes (e : EventRec) (lost : Nat) : List Byte :=
  leBytes 8 (e.word0 lost).toNat ++ leBytes 8 e.a.toNat ++ leBytes 8 e.b.toNat ++ leBytes 8 e.c.toNat

/-- A message sent to a host. -/
def State.send (s : State) (m : OutMsg) : State := { s with outbox := s.outbox ++ [m] }

/-- A response: TYPE 2 with the verb and SEQ of its request (Table 21-11). -/
def State.respond (s : State) (session verb seq status : Nat) (payload : List Byte) : State :=
  s.send { session := session, type := 2, verb := verb, seq := seq, status := status, payload := payload }

/-- An event record sent to a session, with the partition it concerns (VERB 0x31, R382). -/
def State.hostEvent (s : State) (session : Option Nat) (e : EventRec) (part : Nat) : State :=
  match session with
  | none => s
  | some n => s.send {
      session := n, type := 3, verb := 0x31, seq := 0, status := 0, payload := e.bytes 0 ++ [BitVec.ofNat 8 part] }

/-! ### The physical map (R217) -/

/-- The ranges of Table 11-2. -/
inductive Range where
  | gddr | cxl | peer | host | reserved
  deriving DecidableEq, Repr

/-- The range of a physical address (Table 11-2). -/
def rangeOf (pa : Nat) : Range :=
  if pa < 0x2000000000 then .gddr
  else if pa < 0x100000000000 then .reserved
  else if pa < 0x400000000000 then .cxl
  else if pa < 0x800000000000 then .peer
  else if pa < 0x1000000000000 then .host
  else .reserved

/-- The first virtual address the Landing keeps for a strand: +0 the batch page list, +0x1000 the scoreboard image,
+0x2000 to +0x2FFF the escalation stack (R342, R343, R346; DESIGN CHOICE, log 5). -/
def landingVA (id : StrandId) : Nat := 0xFE000000000000 + (id.core.toNat * 8 + id.sid.toNat) * 0x10000

/-- The physical address behind `landingVA` (DESIGN CHOICE, log 5). -/
def landingPA (id : StrandId) : Nat := 0x1FF0000000 + (id.core.toNat * 8 + id.sid.toNat) * 0x10000

/-- The strand whose Landing region holds an address, and the offset in that region. -/
def landingHome (va : Nat) : Option (StrandId × Nat) :=
  let n := (va - 0xFE000000000000) / 0x10000
  let off := va % 0x10000
  if 0xFE000000000000 ≤ va ∧ n < 512 ∧ off < 0x3000 then
    some ({ core := BitVec.ofNat 6 (n / 8), sid := BitVec.ofNat 3 n }, off)
  else none

/-- Why an access is not performed: a trap, or a stall at the routing stage (R373). -/
inductive Fail where
  | trap (c : Cause)
  | stall
  deriving DecidableEq, Repr

/-! ### Page tables (R219 to R222) -/

/-- A walk's result. -/
abbrev WalkResult := Except Cause Leaf

/-- V of an entry. -/
def pteV (e : Word) : Bool := e.getLsbD 0

/-- T of an entry. -/
def pteT (e : Word) : Bool := e.getLsbD 1

/-- SZ of an entry. -/
def pteSz (e : Word) : Nat := e.toNat / 128 % 8

/-- The reserved fields [55:52] and [12:10] of an entry are zero (Table 11-3). -/
def pteReservedOk (e : Word) : Bool := decide (e.toNat / 2 ^ 52 % 16 = 0) && decide (e.toNat / 1024 % 8 = 0)

/-- FRAME and TLO together: physical address bits [51:13] (Table 11-3). -/
def pteNext (e : Word) : Nat := e.toNat / 8192 % 2 ^ 39 * 8192

/-- The frame of a leaf: physical address bits [51:16]. -/
def pteFrame (e : Word) : Nat := e.toNat / 65536 % 2 ^ 36 * 65536

/-- TLO of an entry. -/
def pteTlo (e : Word) : Nat := e.toNat / 8192 % 8

/-- log2 of a leaf's size by level and SZ (Table 11-3); a value not listed has none (R221). -/
def leafSize (level sz : Nat) : Option Nat :=
  match level, sz with
  | 4, 0 => some 16
  | 4, 1 => some 21
  | 4, 2 => some 24
  | 3, 0 => some 26
  | 3, 3 => some 30
  | _, _ => none

/-- log2 of what one entry of a level maps. -/
def entryShift (level : Nat) : Nat := 16 + 10 * (4 - level)

/-- A leaf entry checked: its reserved fields, SZ, TLO and FRAME alignment (R221). -/
def checkLeaf (level : Nat) (e : Word) : Except Cause Nat :=
  match leafSize level (pteSz e) with
  | none => .error .access
  | some size =>
    if pteReservedOk e && decide (pteTlo e = 0) && decide (pteFrame e % 2 ^ size = 0) then .ok size
    else .error .access

/-- A leaf entry met at a level: a run is read at its first entry alone (R221). Of another entry of the run only V, T, SZ and the
reserved fields are looked at (DESIGN CHOICE, log 58). -/
def walkLeaf (mem : Memory) (table level va : Nat) (e : Word) : WalkResult :=
  match leafSize level (pteSz e) with
  | none => .error .access
  | some size =>
    if !pteReservedOk e then .error .access
    else
      let idx := va / 2 ^ size * 2 ^ size / 2 ^ entryShift level % 1024
      let first := BitVec.ofNat 64 (mem.readLE (table + 8 * idx) 8)
      if !pteV first then .error .page
      else if pteT first || decide (pteSz first ≠ pteSz e) then .error .access
      else match checkLeaf level first with
        | .error c => .error c
        | .ok sz => .ok { entry := table + 8 * idx, word := first, base := va / 2 ^ sz * 2 ^ sz, size := sz }

/-- The walk from a level's table (R219, R221); `ok` says where a table may stand, and fuel counts the levels left. -/
def walkFrom (mem : Memory) (ok : Nat → Bool) (va : Nat) : Nat → Nat → Nat → WalkResult
  | 0, _, _ => .error .access
  | fuel + 1, level, table =>
    if !ok table then .error .access
    else
      let e := BitVec.ofNat 64 (mem.readLE (table + 8 * (va / 2 ^ entryShift level % 1024)) 8)
      if !pteV e then .error .page
      else if pteT e then
        if level = 4 || !pteReservedOk e || decide (pteSz e ≠ 0) then .error .access
        else walkFrom mem ok va fuel (level + 1) (pteNext e)
      else if level ≤ 2 then .error .access
      else walkLeaf mem table level va e

/-- The four-level walk (R219). -/
def walk (mem : Memory) (ok : Nat → Bool) (root va : Nat) : WalkResult := walkFrom mem ok va 4 1 root

/-- A load. -/
def Need.load : Need := { rd := true, wr := false }

/-- A store. -/
def Need.store : Need := { rd := false, wr := true }

/-- An AMO, CLAIM. -/
def Need.amo : Need := { rd := true, wr := true }

/-- A leaf permits an access at a level (R222). -/
def leafPermits (e : Word) (lvl : Level) (n : Need) : Bool :=
  (!n.rd || e.getLsbD 2) && (!n.wr || e.getLsbD 3) && (lvl ≠ .a || e.getLsbD 4)

/-- The bits an access sets in its leaf: A, and D for a write (R222). -/
def touchBits (n : Need) : Word := if n.wr then 0x60#64 else 0x20#64

/-- A leaf with A, and D for a write, set (R222). -/
def leafTouched (e : Word) (n : Need) : Word := e ||| touchBits n

/-! ### Windows and routing (R372, R373) -/

/-- The personality codes that serve a window kind (R370). -/
def serves (kind : BitVec 2) (pers : BitVec 4) : Bool :=
  match kind.toNat with
  | 0 => pers = 0
  | 1 => pers = 2
  | _ => pers = 1 || pers = 3 || pers = 4

/-- The groups of a mask, ascending. -/
def maskGroups (m : BitVec 24) : List Nat := (List.range 24).filter fun g => m.getLsbD g

/-- The port group of a number, if there is one. -/
def State.group? (s : State) (g : Nat) : Option Group := s.groups[g]?

/-- The groups that may carry an access at offset a of a window (R373). -/
def routeGroups (w : Window) (a : Nat) : List Nat :=
  let gs := maskGroups w.groups
  if w.kind = 0 then
    match gs[a / (if w.gran4k then 4096 else 256) % max w.ways 1]? with
    | some g => [g]
    | none => []
  else gs

/-- A group is ACTIVE in a personality that serves the window. -/
def groupServes (g : Group) (kind : BitVec 2) : Bool := g.state = .active && serves kind g.pers

/-- A group is between DRAINING and FALLBACK. -/
def groupSwitching (g : Group) : Bool :=
  match g.state with
  | .draining => true
  | .quiesced => true
  | .retraining => true
  | .verifying => true
  | .fallback => true
  | .active => false
  | .down => false

/-- Route (R373): PORTGONE is check 5 of Table 7-7, and HOSTGONE, of a host window of a lost session, check 6; an access to such
a window does not stall, for it fails in any case (R386). -/
def State.route (s : State) (w : Window) (a : Nat) : Except Fail Unit :=
  if !w.en then .error (.trap .access)
  else
    let gs := (routeGroups w a).filterMap s.group?
    if gs.any fun g => groupServes g w.kind then
      if w.revoked then .error (.trap .hostgone) else .ok ()
    else if !w.rm && gs.any groupSwitching then if w.revoked then .error (.trap .hostgone) else .error .stall
    else .error (.trap .portgone)

/-- The routes of every access of a range of a window, in ascending order: an interleave granule has 256 bytes at least (R373). -/
def State.routeRange (s : State) (w : Window) (off len : Nat) : Except Fail Unit :=
  (List.range ((len + 255) / 256)).foldl (fun r k => match r with
    | .error e => .error e
    | .ok () => s.route w (off + 256 * k)) (.ok ())

/-- The window of a partition that covers a physical address, the one mapped at the virtual address first (R217). -/
def Partition.windowAt (p : Partition) (va pa : Nat) : Option Window :=
  (p.windows.find? fun w => w.pa ≤ pa && pa < w.pa + w.len && w.va ≤ va && va < w.va + w.len && w.pa + (va - w.va) = pa).or
    (p.windows.find? fun w => w.pa ≤ pa && pa < w.pa + w.len)

/-- Some partition's arena holds the address: only LOAD_CODE writes it and only fetch reads it (R29). -/
def State.inArena (s : State) (pa : Nat) : Bool :=
  s.parts.any fun p => p.arenaBase ≤ pa && pa < p.arenaBase + p.arenaSize

/-- The GDDR 7 device that a physical address lies on (R218). -/
def gddrDevice (pa : Nat) : Nat := pa / 2048 % 32 ^^^ pa / 65536 % 32

/-- The address lies on a device that is gone from service with no spare left (R17; ACCESS there is a DESIGN CHOICE,
log 49). -/
def State.memoryGone (s : State) (pa : Nat) : Bool :=
  s.module.removed.any fun p => match p with
    | .gddr n => decide (n = gddrDevice pa)
    | _ => false

/-- Device memory that loads, stores, engines and walks reach: no arena, no device that is gone (R17, R29). -/
def State.memoryOk (s : State) (pa : Nat) : Bool := !s.inArena pa && !s.memoryGone pa

/-- A page table may stand at the address (R17, R29, R219). -/
def State.tableOk (s : State) (pa : Nat) : Bool := decide (rangeOf pa = .gddr) && s.memoryOk pa

/-- A translated access: its place, the window if any, and the leaf to touch. -/
structure Xlat where
  place : Place
  win : Option Window
  leaf : Option Leaf
  deriving DecidableEq, Repr

/-- The number of the key of a partition's device memory (R389). -/
def State.memKeyOf (s : State) (part : Nat) : Nat := ((s.partition? part).map (·.memKey)).getD 0

/-- The place of a physical address reached from a virtual one (R217, R372, R387). `bounce` permits a bounce window. -/
def State.place (s : State) (part va pa : Nat) (bounce : Bool) : Except Fail (Place × Option Window) :=
  match rangeOf pa with
  | .reserved => .error (.trap .access)
  | .gddr => if s.memoryOk pa then .ok ({ host := false, addr := pa, key := s.memKeyOf part }, none) else .error (.trap .access)
  | r =>
    match s.partition? part with
    | none => .error (.trap .access)
    | some p =>
      match p.windowAt va pa with
      | none => .error (.trap .access)
      | some w =>
        if w.bounce && !bounce then .error (.trap .access)
        else match s.route w (pa - w.pa) with
          | .error f => .error f
          | .ok _ =>
            if r = .host then .ok ({ host := true, addr := w.hbase + (pa - w.pa) }, some w)
            else .ok ({ host := false, addr := pa }, some w)

/-- An A-level write to the queue area outside a resv or tail word (R87). -/
def queueAreaDenied (p : Option Partition) (lvl : Level) (n : Need) (va : Nat) : Bool :=
  match p with
  | none => false
  | some q =>
    lvl = .a && n.wr && decide (q.queueArea ≤ va) && decide (va < q.queueArea + 16384) &&
      !(decide (0x10 ≤ (va - q.queueArea) % 256) && decide ((va - q.queueArea) % 256 < 0x20))

/-- By which TLB an access is translated: the partition that tags the entry, and the die of the core or the Landing that
makes the access (R13, R223). -/
structure Via where
  part : Nat
  die : BitVec 1
  deriving DecidableEq, Repr

/-- The die of a core: 0 for cores 0 to 31, else 1. -/
def coreDie (core : BitVec 6) : BitVec 1 := if core.toNat < 32 then 0 else 1

/-- The TLB that a strand's accesses go through. -/
def Strand.via (c : Strand) : Via := { part := c.part, die := coreDie c.id.core }

/-- The die of a partition's lowest-numbered core, whose Landing serves its queues (R90). -/
def State.dieOf (s : State) (part : Nat) : BitVec 1 :=
  match s.partition? part with
  | none => 0
  | some p => if p.first < 32 then 0 else 1

/-- The TLB that the Landing's accesses for a partition go through. -/
def State.landingVia (s : State) (part : Nat) : Via := { part := part, die := s.dieOf part }

/-- A cached leaf that covers an address, in the TLB of the die (R223). -/
def State.cached (s : State) (v : Via) (va : Nat) : Option TlbEntry :=
  s.tlb.find? fun t => t.die = v.die && t.part = v.part && t.base ≤ va && va < t.base + 2 ^ t.size

/-- The first virtual address of a cached page. -/
def TlbEntry.pageBase (t : TlbEntry) : Nat := t.base / 2 ^ t.page * 2 ^ t.page

/-- The leaf of a TLB entry as it stood when the entry was filled. -/
def TlbEntry.toLeaf (t : TlbEntry) : Leaf := { entry := t.entry, word := t.leaf, base := t.pageBase, size := t.page }

/-- The TLB entry that a walk fills for an address: a 64 MiB page is cached by 16 MiB parts (R223). -/
def Leaf.cache (l : Leaf) (v : Via) (va : Nat) : TlbEntry :=
  let size := if l.size = 26 then 24 else l.size
  { die := v.die, part := v.part, base := va / 2 ^ size * 2 ^ size, size := size, page := l.size, entry := l.entry, leaf := l.word }

/-- Two entries stand in one array of one die: that of 1 GiB pages, or that of the smaller ones (R13). -/
def TlbEntry.sameArray (a b : TlbEntry) : Bool := decide (a.die = b.die) && (decide (a.size = 30) == decide (b.size = 30))

/-- The entries that an array holds (R13). -/
def TlbEntry.capacity (t : TlbEntry) : Nat := if t.size = 30 then 1024 else 24576

/-- A TLB entry filled: where its array is full, a free value says which entry leaves (R13, log 6). -/
def State.fillTlb (s : State) (t : TlbEntry) : State :=
  let same := s.tlb.filter t.sameArray
  if same.length < t.capacity then { s with tlb := t :: s.tlb }
  else
    let r := s.takeFree
    match same[r.1.toNat % same.length]? with
    | none => { r.2 with tlb := t :: s.tlb }
    | some e => { r.2 with tlb := t :: s.tlb.erase e }

/-- The leaf an access uses: the walk's, or the cached one where software has changed the entry and not yet invalidated
it; which of the two is a free value (R223, log 6). A walk that succeeds fills the TLB. -/
def State.findLeaf (s : State) (v : Via) (va : Nat) : WalkResult × State :=
  match s.partition? v.part with
  | none => (.error .page, s)
  | some p =>
    let r := walk s.mem s.tableOk p.root va
    match s.cached v va with
    | none =>
      match r with
      | .ok l => (r, s.fillTlb (l.cache v va))
      | .error _ => (r, s)
    | some t =>
      let fresh := match r with
        | .ok l => decide (l = t.toLeaf)
        | .error _ => false
      if fresh then (r, s)
      else
        let (f, s1) := s.takeFree
        if f.getLsbD 0 then (.ok t.toLeaf, s1) else (r, s1)

/-- A Landing region of a partition's strand at an address: its physical address (log 5). -/
def State.landingAt (s : State) (part va : Nat) : Option Nat :=
  match landingHome va, s.partition? part with
  | some (id, off), some p =>
    if p.first ≤ id.core.toNat ∧ id.core.toNat < p.first + p.count then some (landingPA id + off) else none
  | some (id, off), none => if id = s.cur.id ∧ part = s.cur.part then some (landingPA id + off) else none
  | none, _ => none

/-- The leaf an access to an address uses, or a Landing region, which has none and is mapped at S level (R342, log 5). -/
def State.leafOf (s : State) (v : Via) (lvl : Level) (va : Nat) : Except Cause (Option Leaf) × State :=
  if (s.landingAt v.part va).isSome then (if lvl = .a then .error .access else .ok none, s)
  else
    match s.findLeaf v va with
    | (.error c, s1) => (.error c, s1)
    | (.ok l, s1) => (.ok (some l), s1)

/-- Permission, queue area, physical range, window and route of an address whose leaf is found (Table 7-7 from 4 to 6). -/
def State.locate (s : State) (part : Nat) (lvl : Level) (va : Nat) (n : Need) (bounce : Bool) :
    Option Leaf → Except Fail Xlat
  | none =>
    match s.landingAt part va with
    | none => .error (.trap .access)
    | some pa => .ok { place := { host := false, addr := pa }, win := none, leaf := none }
  | some l =>
    if !leafPermits l.word lvl n || queueAreaDenied (s.partition? part) lvl n va then .error (.trap .access)
    else
      match s.place part va (pteFrame l.word + (va - l.base)) bounce with
      | .error f => .error f
      | .ok (pl, w) => .ok { place := pl, win := w, leaf := some l }

/-- Translation and the checks of Table 7-7 from 3 to 6 for one address (R134, R222, R373). -/
def State.translate (s : State) (v : Via) (lvl : Level) (va : Nat) (n : Need) (bounce : Bool) : Except Fail Xlat × State :=
  match s.leafOf v lvl va with
  | (.error c, s1) => (.error (.trap c), s1)
  | (.ok l, s1) => (s1.locate v.part lvl va n bounce l, s1)

/-- A, and D for a write, set in an entry of the page tables where the leaf read lacks them, and in the copies of that
leaf which the die has cached: an OR into the entry, whatever it holds by now (R222, R225). An entry in an arena or on a device
that is gone is not written (R17, R29). -/
def State.touchLeaf (s : State) (v : Via) (l : Leaf) (n : Need) : State :=
  if leafTouched l.word n = l.word then s
  else
    { s with
      mem := if !s.memoryOk l.entry then s.mem
        else s.mem.writeLE l.entry 8 (BitVec.ofNat 64 (s.mem.readLE l.entry 8) ||| touchBits n).toNat
      tlb := s.tlb.map fun t =>
        if t.die = v.die ∧ t.part = v.part ∧ t.entry = l.entry then { t with leaf := leafTouched t.leaf n } else t }

/-- A and D set in the leaf of a performed access (R222). -/
def State.touch (s : State) (v : Via) (x : Xlat) (n : Need) : State :=
  match x.leaf with
  | none => s
  | some l => s.touchLeaf v l n

/-! ### Bytes -/

/-- The label of the key of a partition's device memory (R404): "felotte mem" as ASCII bytes. -/
def memLabel : List Byte := [0x66, 0x65, 0x6C, 0x6F, 0x74, 0x74, 0x65, 0x20, 0x6D, 0x65, 0x6D]

/-- The key of device memory of a number, while its partition stands: CLOSE destroys it (R404). -/
def State.memoryKey (s : State) (key : Nat) : List Byte :=
  ((s.parts.find? fun p => decide (p.memKey = key) && decide (key ≠ 0)).map fun p => Config.hkdf p.secret memLabel).getD []

/-- The number of the key that a byte of device memory stands under. -/
def State.keyAt (s : State) (a : Nat) : Nat := SMap.get 0 s.keys a

/-- A byte of device memory as it reads under a key: what was written under that key, else a value of which nothing is known
(R389, log 48). -/
def State.byteUnder (s : State) (key a : Nat) : Byte :=
  if s.keyAt a = key then s.mem.read a else Config.foreignByte (s.memoryKey key) (s.keyAt a) a (s.mem.read a)

/-- n bytes at a place, little-endian. -/
def State.readPlace (s : State) (p : Place) (n : Nat) : Nat :=
  if p.host then s.hostMem.readLE p.addr n
  else if (List.range n).all fun i => decide (s.keyAt (p.addr + i) = p.key) then s.mem.readLE p.addr n
  else ofBytes ((List.range n).map fun i => s.byteUnder p.key (p.addr + i))

/-- n bytes of device memory stand under a key from now on. -/
def setKeys (keys : SMap Nat) (a n key : Nat) : SMap Nat := SMap.setRange 0 keys a (List.replicate n key)

/-- n bytes written at a place, little-endian. -/
def State.writePlace (s : State) (p : Place) (n v : Nat) : State :=
  if p.host then { s with hostMem := s.hostMem.writeLE p.addr n v }
  else { s with mem := s.mem.writeLE p.addr n v, keys := setKeys s.keys p.addr n p.key }

/-- A write to a tail or control word of the queue area is a doorbell (R90): the Landing's part is due next. -/
def State.bell (s : State) (part va n : Nat) : State :=
  match s.partition? part with
  | none => s
  | some p =>
    if p.queueArea ≤ va ∧ va < p.queueArea + 16384 then
      let off := (va - p.queueArea) % 256
      let q : QueueId := { part := part, q := (va - p.queueArea) / 256 }
      let s1 := if off < 0x20 ∧ 0x18 < off + n then { s with agenda := .doorbell q :: s.agenda } else s
      if off < 0x10 ∧ 0x08 < off + n then { s1 with agenda := .runStart q :: s1.agenda } else s1
    else s

/-- n bytes stored at a translated virtual address: the bytes, A and D, and the doorbell. -/
def State.storeAt (s : State) (u : Via) (va : Nat) (x : Xlat) (n v : Nat) : State :=
  (((s.touch u x .store).writePlace x.place n v)).bell u.part va n

/-! ### Watchpoints (R136, R331, R332) -/

/-- The range of a watchpoint: its first address and length. -/
def watchRange (c : Strand) (i : Fin 4) : Nat × Nat :=
  let len := 2 ^ (c.wctl[i].toNat / 256 % 16)
  (c.watch[i].toNat % 2 ^ 56 / len * len, len)

/-- The lowest watchpoint that an access of n bytes matches (R332). -/
def Strand.watchMatch (c : Strand) (va n : Nat) (write : Bool) : Bool :=
  (List.finRange 4).any fun i =>
    let (b, len) := watchRange c i
    c.wctl[i].getLsbD (if write then 2 else 1) && decide (va < b + len) && decide (b < va + n)

/-- A match is held until the parcel or convoy has retired (R136, R332, R344). -/
def State.noteWatch (s : State) (va n : Nat) (rd wr : Bool) : State :=
  if s.cur.conv.watch.isNone && ((rd && s.cur.watchMatch va n false) || (wr && s.cur.watchMatch va n true)) then
    s.withCur { s.cur with conv := { s.cur.conv with watch := some (BitVec.ofNat 64 va) } }
  else s

/-! ### The Landing's words of a queue descriptor (Table 5-1) -/

/-- The virtual address of a descriptor word. -/
def State.qwordVA (s : State) (q : QueueId) (off : Nat) : Nat :=
  ((s.partition? q.part).map fun p => p.queueArea + 256 * q.q + off).getD 0

/-- A descriptor word, read through the partition supervisor's translation; 0 where it has no translation (DESIGN CHOICE,
log 27). -/
def State.qword (s : State) (q : QueueId) (off : Nat) : Word :=
  match (s.translate (s.landingVia q.part) .s (s.qwordVA q off) .load false).1 with
  | .ok x => BitVec.ofNat 64 (s.readPlace x.place 8)
  | .error _ => 0

/-- A descriptor word written by the Landing; it rings no doorbell. Where the word has no translation the write is dropped,
with no fault: R87 does not say (DESIGN CHOICE, log 27). -/
def State.setQword (s : State) (q : QueueId) (off : Nat) (v : Word) : State :=
  match s.translate (s.landingVia q.part) .s (s.qwordVA q off) .store false with
  | (.ok x, s1) => (s1.touch (s1.landingVia q.part) x .store).writePlace x.place 8 v.toNat
  | (.error _, s1) => s1

/-- The Landing's record of a hardware queue. -/
def State.hwq? (s : State) (q : QueueId) : Option HwQueue := s.hwq.find? fun h => h.id = q

/-- One hardware queue changed. -/
def State.mapHwq (s : State) (q : QueueId) (f : HwQueue → HwQueue) : State :=
  { s with hwq := s.hwq.map fun h => if h.id = q then f h else h }

/-- STATE in a control word (Table 5-2). -/
def QState.code : QState → Nat
  | .stopped => 0
  | .running => 1
  | .halted => 2

/-- The fields of a control word that software writes: OPMASK, QUANTUM, SIZE and PRIO (Table 5-2). -/
def controlFields : Word := 0xFFFFFFFF0F000300#64

/-- The control word with STATE and RUN as the Landing keeps them; its reserved bits read 0 (R4, Table 5-2). -/
def controlWord (w : Word) (st : QState) : Word :=
  (w &&& controlFields) ||| BitVec.ofNat 64 (4 * st.code + (if st = .running then 2 else 0))

/-- fault0 (Table 5-6). -/
def fault0Word (tag : BitVec 16) (step code : Nat) : Word :=
  BitVec.ofNat 64 (tag.toNat * 2 ^ 32 + step % 8 * 2 ^ 16 + code % 2 ^ 16)

/-- TAG and the low 48 bits of a packet index, word B of kinds 1 and 7 (Table 18-9). -/
def tagIndex (tag : BitVec 16) (idx : Nat) : Word := BitVec.ofNat 64 (tag.toNat * 2 ^ 48 + idx % 2 ^ 48)

/-- A queue halts: the fault is recorded, RUN is cleared, an event of kind 1 is sent (Table 5-4, R93). A packet that holds
the queue is fetched already and runs to its retirement. -/
def State.haltQueue (s : State) (q : QueueId) (tag : BitVec 16) (step code idx : Nat) : State :=
  let f0 := fault0Word tag step code
  let s1 := s.mapHwq q fun h => { h with state := .halted, faultIdx := idx }
  let s2 := s1.setQword q 0x08 (controlWord (s1.qword q 0x08) .halted)
  let s3 := (s2.setQword q 0x30 f0).setQword q 0x38 (BitVec.ofNat 64 idx)
  s3.partEvent q.part { kind := 1, subj := BitVec.ofNat 16 q.q, ctx := 0, a := f0, b := tagIndex tag idx, c := 0 }

/-- qdone advanced over the longest retired prefix (R101); a launch whose signal is held also holds qdone (R392). -/
def advanceDone (retired : List Nat) (held : List Nat) : Nat → Nat → Nat
  | 0, d => d
  | fuel + 1, d => if retired.contains d && !held.contains d then advanceDone retired held fuel (d + 1) else d

/-- A packet counts as retired: qdone advances and its word is written (R101, Table 23-1 step 3). -/
def State.retirePacket (s : State) (q : QueueId) (idx : Nat) : State :=
  let s1 := s.mapHwq q fun h =>
    let r := if h.retired.contains idx then h.retired else h.retired ++ [idx]
    let d := advanceDone r h.unsignalled r.length h.qdone
    { h with
      active := h.active.filter fun a => a.1 ≠ idx, retired := r.filter fun i => d ≤ i, qdone := d
      errors := h.errors.filter fun e => e.1 ≠ idx }
  match s1.hwq? q with
  | none => s1
  | some h => s1.setQword q 0x28 (BitVec.ofNat 64 h.qdone)

/-! ### Completion signals (R94, R98, R99, R101) -/

/-- A range of the partition's memory read by the Landing, through the supervisor's translation. -/
def State.landingRead (s : State) (part va n : Nat) : Except Fail Word × State :=
  if va % n ≠ 0 ∨ 2 ^ 56 ≤ va then (.error (.trap .access), s)
  else match s.translate (s.landingVia part) .s va .load false with
    | (.error f, s1) => (.error f, s1)
    | (.ok x, s1) => (.ok (BitVec.ofNat 64 (s1.readPlace x.place n)), s1.touch (s1.landingVia part) x .load)

/-- An aligned 64-bit store by the Landing (R98). -/
def State.landingStore (s : State) (part va : Nat) (v : Word) : Except Fail State :=
  if va % 8 ≠ 0 ∨ 2 ^ 56 ≤ va then .error (.trap .access)
  else match s.translate (s.landingVia part) .s va .store false with
    | (.error f, _) => .error f
    | (.ok x, s1) => .ok (s1.storeAt (s1.landingVia part) va x 8 v.toNat)

/-- An AMOADD by the Landing (R94). -/
def State.landingAdd (s : State) (part va : Nat) (v : Word) : Except Fail State :=
  if va % 8 ≠ 0 ∨ 2 ^ 56 ≤ va then .error (.trap .access)
  else match s.translate (s.landingVia part) .s va .amo false with
    | (.error f, _) => .error f
    | (.ok x, s1) =>
      let old := BitVec.ofNat 64 (s1.readPlace x.place 8)
      .ok (((s1.touch (s1.landingVia part) x .amo).writePlace x.place 8 (old + v).toNat).bell part va 8)

/-- A signal performed: SET, ADD or SUB; an address of 0 means none (R94). -/
def State.doSignal (s : State) (part : Nat) (g : Signal) : Except Fail State :=
  if g.a = 0 then .ok s
  else if g.o = 0 then s.landingStore part g.a.toNat g.v
  else s.landingAdd part g.a.toNat (if g.o = 1 then g.v else -g.v)

/-- The queue number as the subject of an event. -/
def queueSubj (q : QueueId) : BitVec 16 := BitVec.ofNat 16 q.q

/-- The event of a packet with EVT set (R98, kind 7 of Table 18-9). -/
def State.retireEvent (s : State) (q : QueueId) (tag : BitVec 16) (idx : Nat) : State :=
  s.partEvent q.part {
    kind := 7, subj := queueSubj q, ctx := 0, a := BitVec.ofNat 64 (((s.hwq? q).map (·.qdone)).getD 0), b := tagIndex tag idx, c := 0 }

/-- A step of a packet is to meet an error that no check corrects (Table 5-9). -/
def State.stepFails (s : State) (q : QueueId) (idx step : Nat) : Bool := (s.hwq? q).any fun h => h.errors.contains (idx, step)

/-- A completion signal performed, unless it meets a data error (R99). -/
def State.trySignal (s : State) (q : QueueId) (g : HeldSignal) : Except Fail State :=
  if decide (g.signal.a ≠ 0) && s.stepFails q g.index 0 then .error (.trap .late) else s.doSignal q.part g.signal

/-- Steps 2 to 4 of Table 23-1 for a launch whose signal may be performed: the signal, qdone, the event. A signal that
faults counts as absent, and its queue halts with QSTEP (R99), recorded in the same way where the queue is STOPPED or HALTED
by then, for which Table 5-4 has no row (DESIGN CHOICE, log 27). A signal that stalls is still held, and tried again at the next
selection. -/
def State.signalLaunch (s : State) (q : QueueId) (g : HeldSignal) : State :=
  match s.trySignal q g with
  | .error .stall => s
  | r =>
    let s1 := match r with
      | .ok t => t
      | .error _ => s
    let s2 := s1.mapHwq q fun h =>
      { h with
        unsignalled := h.unsignalled.filter (· ≠ g.index), heldSignals := h.heldSignals.filter fun x => x.index ≠ g.index }
    let s3 := s2.retirePacket q g.index
    let s4 := if g.evt then s3.retireEvent q g.tag g.index else s3
    match r with
    | .ok _ => s4
    | .error _ => s4.haltQueue q g.tag 0 0x217 g.index

/-- A held signal may be performed: at once without ORDERED, else when no earlier launch's signal is awaited (R101). -/
def State.mayRelease (s : State) (q : QueueId) (g : HeldSignal) : Bool :=
  !g.ordered || (s.hwq? q).any fun h => h.unsignalled.all fun j => g.index ≤ j

/-- Signals of a queue, in ascending order, each performed where it may be. -/
def State.releaseSignals (s : State) (q : QueueId) : List HeldSignal → State
  | [] => s
  | g :: t => (if s.mayRelease q g then s.signalLaunch q g else s).releaseSignals q t

/-- The signals that a queue holds, each performed where it may be (R99, R101). -/
def State.releaseHeld (s : State) (q : QueueId) : State :=
  match s.hwq? q with
  | none => s
  | some h => s.releaseSignals q h.heldSignals

/-- A launch that has retired holds its signal, among the others by its index. -/
def HwQueue.hold1 (h : HwQueue) (g : HeldSignal) : HwQueue :=
  { h with heldSignals := (h.heldSignals.filter fun x => x.index < g.index) ++ g :: h.heldSignals.filter fun x => g.index < x.index }

/-! ### The end of tasks -/

/-- A strand whose task has ended is free: its registers stand (R352, R392), what was under way for the task is gone, and its
generation has moved on (R364). -/
def Strand.release (c : Strand) : Strand :=
  { c with
    task := none, run := .idle, preempt := .none, moving := false, queues := c.queues.map fun q => { q with entries := [] }
    board := [], lateHeld := [], lateStop := none, panelLate := none, watchHeld := [], reissue := .none, conv := .none
    history := none, suspended := [], vwait := none, amo := none, note := none
    gen := if c.run = .halted then c.gen else c.gen + 1 }

/-- Every strand of the module, the issuing one first. -/
def State.strands (s : State) : List Strand := s.cur :: s.others

/-- A function over every strand that stands on a core. -/
def State.mapStrands (s : State) (f : Strand → Strand) : State := { s with cur := f s.cur, others := s.others.map f }

/-- The leaves that a vector part's streams have looked up, without those of some ranges. -/
def VecPart.forget (v : VecPart) (hits : Nat × Nat → Bool) : VecPart :=
  { v with streams := v.streams.map fun t => { t with leaves := t.leaves.filter fun e => !hits (e.2.base, 2 ^ e.2.size) } }

/-- A strand of a partition without the leaves of some ranges that its streams have looked up. -/
def Strand.forget (c : Strand) (part : Nat) (hits : Nat × Nat → Bool) : Strand :=
  if c.part = part then { c with vec := c.vec.forget hits } else c

/-- What is invalidated where INVTLB names some ranges (R354), or MAP_WINDOW removes one (R372): on every die the entries of the
partition that map some of them, and the leaves that the streams of its strands and task contexts have looked up there. -/
def State.dropTlb (s : State) (part : Nat) (hits : Nat × Nat → Bool) : State :=
  let ctxs := ((s.strands ++ s.parked).filter fun c => decide (c.part = part)).map (·.taskCtx)
  let s1 := s.mapStrands fun c => c.forget part hits
  { s1 with
    parked := s1.parked.map fun c => c.forget part hits
    saved := s1.saved.map fun p => if ctxs.contains p.1 then (p.1, p.2.forget hits) else p
    tlb := s1.tlb.filter fun t => !(decide (t.part = part) && hits (t.base, 2 ^ t.size)) }

/-- The launch of a number. -/
def State.launch? (s : State) (l : Nat) : Option Launch := s.launches.find? fun x => x.lid = l

/-- A strand holds a task of the launch. -/
def Strand.ofLaunch (c : Strand) (l : Nat) : Bool :=
  match c.task with
  | none => false
  | some t => t.1 = l

/-- The strands and lane groups of a gang are free again, and its parked tasks are gone (Table 23-1 step 1). -/
def State.freeGang (s : State) (l : Nat) : State :=
  let s1 := s.mapStrands fun c => if c.ofLaunch l then c.release else c
  { s1 with parked := s1.parked.filter fun c => !c.ofLaunch l, reservations := s1.reservations.filter fun r => r.2 ≠ l }

/-- Some strand holds a task of the launch. -/
def State.hasTasks (s : State) (l : Nat) : Bool := s.strands.any fun c => c.ofLaunch l

/-- The strand stands between convoys or parcels. -/
def Strand.atBoundary (c : Strand) : Bool := decide (c.run = .running) && decide (c.slot = 0) && decide (c.reissue = .none)

/-- The strand stands at a pre-emption point (R356): a boundary, a sleep, or a wait at issue. -/
def Strand.atPoint (c : Strand) : Bool :=
  c.atBoundary || match c.run with
    | .vwait => true
    | .waitev => true
    | .queueRoom => true
    | .qstatWait => true
    | _ => false

/-- Some entry of the scoreboard image is unsettled (R347). -/
def Strand.boardOpen (c : Strand) : Bool := c.board.any fun e => !e.settled

/-- Some scoreboard entry is unsettled, those of errors that are reported and not yet raised included (R345, R356). -/
def Strand.unsettled (c : Strand) : Bool := c.boardOpen || decide (c.lateHeld ≠ [])

/-- A stop by the Landing may take effect on the strand (R356): IN is 0 and no scoreboard entry is unsettled. -/
def Strand.stoppable (c : Strand) : Bool := !c.trIn && !c.unsettled

/-- An AMO under way when its task ends: its completion is still to come, and will be stale (R364). -/
def State.stray (s : State) (gone : Strand → Bool) : State :=
  { s with strays := s.strays ++ ((s.strands.filter fun c => gone c && c.amo.isSome).map fun c => (c.id, c.part)) }

/-- Steps 4 and 5 of R363 once no strand holds a task of an ended launch: the packet counts as retired without its signal,
its queue records TRAPPED unless it is HALTED already, and the record of kind 3 goes to the supervisor and the host. -/
def State.finishEnd (s : State) (l : Nat) : State :=
  match s.launch? l with
  | none => s
  | some la =>
    match la.endRec with
    | none => s
    | some e =>
      if s.hasTasks l then s
      else
        let s1 := { s with launches := s.launches.filter fun x => x.lid ≠ l }
        let s2 := s1.mapHwq la.queue fun h =>
          { h with unsignalled := h.unsignalled.filter (· ≠ la.index), heldSignals := h.heldSignals.filter fun x => x.index ≠ la.index }
        let s3 := s2.retirePacket la.queue la.index
        let s4 := match s3.hwq? la.queue with
          | some h => if h.state = QState.halted then s3 else s3.haltQueue la.queue la.tag 0 0x219 la.index
          | none => s3
        let s5 := (s4.partEvent la.queue.part e).hostEvent ((s4.partition? la.queue.part).bind (·.owner)) e la.queue.part
        s5.releaseHeld la.queue

/-- A strand of an ended launch: the task that ended by itself, and one that no longer runs, is released; another at once
where it stands at a pre-emption point and may be stopped, else at its next one (R356, R363); one that sleeps within a convoy does
at its next turn what the words before its VWAIT do (R327). -/
def Strand.endsNow (c : Strand) (who : Option StrandId) : Bool :=
  (c.stoppable && c.atPoint && c.history.isNone) || decide (who = some c.id) || match c.run with
    | .halted => true
    | .preempted => true
    | .moved => true
    | .stopped => true
    | _ => false

/-- A strand of an ended launch released or asked to stop; its commands are cancelled (R363). -/
def Strand.endWith (c : Strand) (l : Nat) (who : Option StrandId) : Strand :=
  if !c.ofLaunch l then c
  else if c.endsNow who then c.release
  else { c with preempt := .ending, queues := c.queues.map fun q => { q with entries := [] } }

/-- A launch ends by an unrecovered trap (R363): its tasks stop, `who` among them at once, its queue commands are cancelled,
and the rest follows when every task has stopped. -/
def State.endLaunch (s : State) (l : Nat) (who : Option StrandId) (e : EventRec) : State :=
  let s0 := s.stray fun c => c.ofLaunch l && c.endsNow who
  let s1 := s0.mapStrands fun c => c.endWith l who
  let s2 : State := { s1 with
    parked := s1.parked.filter fun c => !c.ofLaunch l
    reservations := s1.reservations.filter fun r => r.2 ≠ l
    launches := s1.launches.map fun x =>
      if x.lid = l then { x with state := .ended, endRec := x.endRec.or (some e) } else x }
  s2.finishEnd l

/-- trcause as the CSR reads (Table 18-1). -/
def Strand.trcause (c : Strand) : Word := BitVec.ofNat 64 (c.trRk.toNat * 256 + c.trCode.toNat)

/-- The task number k of a strand, for events. -/
def Strand.taskNo (c : Strand) : Nat :=
  match c.task with
  | none => 0
  | some t => t.2

/-- The issuing strand's task ends with an unrecovered trap (R342, R363). A strand that holds no task only stops. -/
def State.endTask (s : State) (cause tpc tval : Word) : State :=
  match s.cur.task with
  | none => s.withCur { s.cur with run := .stopped }
  | some t =>
    s.endLaunch t.1 (some s.cur.id) { kind := 3, subj := BitVec.ofNat 16 t.2, ctx := s.cur.taskCtx, a := cause, b := tpc, c := tval }

/-! ### Taking a trap (R337, R341, R342) -/

/-- A trap of the word or parcel at pc, with trpc at the convoy's first word. -/
def State.trapHere (s : State) (c : Cause) (tval : Word) : Trap :=
  { cause := c, rk := 0, slot := s.cur.slot, tpc := s.cur.pc - 8 * s.cur.slot.setWidth 64, tval := tval, pages := [] }

/-- An entry of the batch page list (R343). -/
def pageEntry (g : Nat × Need) : Word :=
  BitVec.ofNat 64 (g.1 / 65536 * 65536 + (if g.2.wr then 2 else 0) + (if g.2.rd then 1 else 0))

/-- The batch page list, at most 256 entries (Table 18-4). -/
def writePages (m : Memory) (pa : Nat) : List (Nat × Need) → Memory
  | [] => m
  | g :: t => writePages (m.writeLE pa 8 (pageEntry g).toNat) (pa + 8) t

/-- trpcount (Table 18-4). -/
def pageCount (n : Nat) : Word := if n ≤ 256 then BitVec.ofNat 64 n else 0x8000000000000100#64

/-- The batch is written at trpages and counted in trpcount (R343). -/
def State.listPages (s : State) (ps : List (Nat × Need)) : State :=
  if ps = [] then s
  else
    { s with
      mem := writePages s.mem (landingPA s.cur.id) (ps.take 256)
      cur := { s.cur with trpcount := pageCount ps.length } }

/-- The escalation stack's top (R342). -/
def escalationTop (id : StrandId) : Word := BitVec.ofNat 64 (landingVA id + 0x3000)

/-- The handler's entry: arenabase + trvec (R337). -/
def Strand.handler (c : Strand) : Word := c.arenabase + c.trvec.setWidth 64

/-- An event counted for a trap: 0x0A, and 0x0B for PAGE (Table 23-4). -/
def State.countTrap (s : State) (c : Cause) : State :=
  if c = .page then (s.count 0x0A 1).count 0x0B 1 else s.count 0x0A 1

/-- A trap while trstat.IN is 1 (R341, R342): the Landing receives an event with both traps, then restarts the handler on
the escalation stack once, or ends the task. -/
def State.escalate (s : State) (t : Trap) : State :=
  let c := s.cur
  let e : EventRec := {
    kind := 2, subj := BitVec.ofNat 16 c.taskNo, ctx := c.taskCtx, a := c.trcause, b := c.trpc,
    c := BitVec.ofNat 64 (c.trval.toNat % 2 ^ 56 + t.cause.code.toNat * 2 ^ 56) }
  let s1 := s.partEvent c.part e
  if c.restarted || (t.cause = .arena && t.tpc = c.handler) then s1.endTask c.trcause c.trpc c.trval
  else
    s1.withCur { s1.cur.setX 2 (escalationTop c.id) with
      pc := c.handler, slot := 0, restarted := true, conv := .none,
      history := none, vwait := none, reissue := .none, run := .running }

/-- A convoy stopped with RK 1, 2 or 3 keeps its pops, pushes and watch match until it is issued again (R227, R344); so do
words that TRAPRET has issued again and that a trap of RK 0 undoes. -/
def Strand.suspend (c : Strand) (t : Trap) : List Suspended :=
  let rest := c.suspended.filter fun x => !(x.pc = t.tpc && x.slot = t.slot)
  let again := match c.reissue with
    | .underMf => true
    | .fromVstart => true
    | .rest => true
    | .retire => true
    | .none => false
    | .parcel => false
  if t.rk ≠ 0 then { pc := t.tpc, slot := t.slot, ctx := c.conv, how := .none } :: rest
  else if again then { pc := t.tpc, slot := t.slot, ctx := c.conv, how := c.reissue } :: rest
  else rest

/-- Trap entry (R337), escalation while IN is 1 (R341); traps at F level are handled within the Landing, which ends the
strand's run here (log 12). The one operation by which every trap is taken. -/
def State.takeTrap (s : State) (t : Trap) : State :=
  let s0 := s.countTrap t.cause
  let note : Option Trap := some t
  if s0.cur.level = .f then s0.withCur { s0.cur with run := .fTrap, note := note }
  else if s0.cur.trIn then
    let s1 := s0.escalate t
    s1.withCur { s1.cur with note := note }
  else
    let s1 := s0.listPages t.pages
    let c := s1.cur
    s1.withCur { c with
      trpc := t.tpc, trslot := t.slot, trCode := t.cause.code, trRk := t.rk, trval := t.tval, trIn := true,
      trLvl := c.level, level := .s, pc := c.handler, slot := 0, restarted := false, reissue := .none,
      suspended := c.suspend t, conv := .none, history := none, vwait := none, note := note, run := .running }

/-- PREEMPT raised on the strand, a stop at a pre-emption point (R357, event 0x0C of Table 23-4). -/
def State.raisePreempt (s : State) (t : Trap) : State :=
  ((s.withCur { s.cur with preempt := .raised }).count 0x0C 1).takeTrap t

/-- The trap of the word or parcel at pc, taken. -/
def State.trap (s : State) (c : Cause) (tval : Word) : State := s.takeTrap (s.trapHere c tval)

/-- The trap of one failed access: PAGE reports a batch of one page (R134). -/
def State.accessTrap (s : State) (c : Cause) (va : Word) (n : Need) : Trap :=
  { s.trapHere c va with pages := if c = .page then [(va.toNat / 65536 * 65536, n)] else [] }

/-! ### Returning from a trap (R348) -/

/-- The fields of a resume word: LVL, SLOT and RK, or none where a reserved field is set, LVL is 2 or more or RK is 4 or
more (R348). -/
def resumeWord (r : Word) : Option (Level × BitVec 2 × Nat) :=
  let n := r.toNat
  if n / 2 ^ 22 ≠ 0 ∨ n / 2 ^ 18 % 4 ≠ 0 ∨ n / 2 ^ 11 % 32 ≠ 0 ∨ n / 2 ^ 20 % 4 ≥ 2 ∨ n / 256 % 8 ≥ 4 then none
  else some (if n / 2 ^ 20 % 4 = 0 then .a else .s, BitVec.ofNat 2 (n / 2 ^ 16), n / 256 % 8)

/-- The 64-bit word of the code arena that holds an address; fetch reads memory by physical address (R27). -/
def State.codeWord (s : State) (a : Word) : Word := BitVec.ofNat 64 (s.mem.readLE (a.toNat / 8 * 8) 8)

/-- The stopped convoy known by trpc and SLOT. -/
def Strand.stoppedConvoy (c : Strand) (slot : BitVec 2) : Option Suspended :=
  c.suspended.find? fun x => x.pc = c.trpc && x.slot = slot

/-- What that convoy carried. -/
def Strand.carried (c : Strand) (slot : BitVec 2) : ConvCtx := ((c.stoppedConvoy slot).map (·.ctx)).getD .none

/-- The return itself (R348), once the scoreboard is settled: IN is cleared, the level and pc are set, and the words of
the stopped convoy that are still to issue keep what it carried. -/
def State.trapReturn (s : State) (lvl : Level) (slot : BitVec 2) (rk : Nat) : State :=
  let c := s.cur
  let c1 := { c with trIn := false, level := lvl, slot := 0, restarted := false, conv := .none, history := none, reissue := .none }
  let how := ((c.stoppedConvoy slot).map (·.how)).getD .none
  let cont : Strand := { c1 with
    conv := c.carried slot, suspended := c.suspended.filter fun x => !(x.pc = c.trpc && x.slot = slot) }
  let at_ := c.trpc + 8 * slot.setWidth 64
  match rk with
  | 0 => s.withCur (if how = .none then { c1 with pc := c.trpc }
    else { cont with pc := if how = .retire then c.trpc + 8 else c.trpc, reissue := how })
  | 1 => s.withCur { cont with pc := at_, reissue := .underMf }
  | 2 => s.withCur { cont with pc := at_, reissue := .fromVstart }
  | _ =>
    if !isWide (s.codeWord c.trpc) then s.withCur { cont with pc := c.trpc + 4, reissue := .parcel }
    else if lastBit (s.codeWord at_) then s.withCur { cont with pc := at_ + 8, reissue := .retire }
    else s.withCur { cont with pc := at_ + 8, reissue := .rest }

end Sys2Proof.Machine
end

