-- ==== Sys2Proof/Machine/Operands.lean ====
section
/-! DEFINITION. Machine/Operands.lean: every operand form of the vector words (R115, R116, R167 to R170, R264), the decode
checks that depend on the strand (Table 4-19), the strips that streams give to bound registers (R227, R228), and the
write of a vector or mask destination. -/

namespace Sys2Proof.Machine

/-! ### Widths and values -/

/-- The value of an n-bit field read as signed. -/
def signed (n v : Nat) : Int := if v % 2 ^ n < 2 ^ (n - 1) then (v % 2 ^ n : Nat) else (v % 2 ^ n : Nat) - (2 ^ n : Nat)

/-- An integer narrowed to n bits, modulo 2ⁿ. -/
def wrapTo (n : Nat) (v : Int) : Nat := (v % (2 ^ n : Nat)).toNat

/-- A signed 15-bit immediate extended to 64 bits (R63). -/
def sext15 (i : BitVec 15) : Word := i.signExtend 64

/-- A signed 16-bit displacement extended to 64 bits (R235). -/
def sext16 (i : BitVec 16) : Word := i.signExtend 64

/-- A signed 20-bit immediate extended to 64 bits. -/
def sext20 (i : BitVec 20) : Word := i.signExtend 64

/-! ### Register groups and the place of an element -/

/-- The bytes a vector register holds: g × b bits (R114); in virtual-length mode at least 16,384 bits (R31, log 15). -/
def Strand.regBytes (c : Strand) : Nat :=
  let p := c.lanes * (32768 / c.vec.vnreg)
  if c.vec.virt then max 2048 p else p

/-- The count of registers an operand of width w takes (R115); in matrix mode 64-bit operands take two (R264), also in a
floating-point word, where R115 with the EW that MENTER sets would give one (DESIGN CHOICE, log 58). -/
def Strand.groupSize (c : Strand) (w : Nat) : Nat :=
  if c.vec.mmode then max 1 (w / 32) else max 1 (w / c.vec.ew.bits)

/-- The first bit of element e of an operand of width w that starts at register r, counted over the register storage
(R116; in matrix mode R264). -/
def Strand.elemBit (c : Strand) (r w e : Nat) : Nat :=
  if c.vec.mmode then
    let o := e % 128 * w
    (r + o / 4096) * c.regBytes * 8 + 4096 * (e / 128) + o % 4096
  else r * c.regBytes * 8 + e * w

/-- Element e of an operand of width w, 4 or a multiple of 8 bits. -/
def Strand.elem (c : Strand) (r : VReg) (w e : Nat) : Nat :=
  let b := c.elemBit r.toNat w e
  if w = 4 then ((Memory.read c.vec.v (b / 8)).toNat / 2 ^ (b % 8)) % 16 else Memory.readLE c.vec.v (b / 8) (w / 8)

/-- Register storage with element e of an operand set. -/
def Strand.putElem (c : Strand) (v : SMap Byte) (r : VReg) (w e x : Nat) : SMap Byte :=
  let b := c.elemBit r.toNat w e
  if w = 4 then
    let old := (Memory.read v (b / 8)).toNat
    let new := if b % 8 = 0 then old / 16 * 16 + x % 16 else old % 16 + x % 16 * 16
    Memory.write v (b / 8) (BitVec.ofNat 8 new)
  else Memory.writeLE v (b / 8) (w / 8) x

/-- Storage without the bytes of a range: they read zero. -/
def clearBytes (v : SMap Byte) (lo hi : Nat) : SMap Byte := v.filter fun p => !(decide (lo ≤ p.1) && decide (p.1 < hi))

/-! ### Element classes (R167, Table 9-1; in matrix mode R264) -/

/-- The elements below vl, ascending: 0 to vl − 1, or in matrix mode those with index i < vl in a granted slice. -/
def Strand.body (c : Strand) : List Nat :=
  if c.vec.mmode then (List.range (128 * c.lanes)).filter fun e => e % 128 < c.vec.vl else List.range c.vec.vl

/-- Bit e of a mask operand; m0 reads all ones (R183). -/
def Strand.maskBit (c : Strand) (m : MReg) (e : Nat) : Bool :=
  if h : m = 0 then true else (c.vec.m[m.toNat - 1]'(by have := m.isLt; have : m.toNat ≠ 0 := fun h' => h (BitVec.eq_of_toNat_eq h'); omega)).getLsbD e

/-- The word runs under mf (R344). -/
def Strand.underMf (c : Strand) : Bool := c.reissue = .underMf

/-- The index that vstart is compared with: the element number, in matrix mode its index within the slice (R264; DEDUCED,
log 17). -/
def Strand.index (c : Strand) (e : Nat) : Nat := if c.vec.mmode then e % 128 else e

/-- An element at or above vstart is active under a mask (R167); under mf exactly the elements of mf are (R344). -/
def Strand.activeAt (c : Strand) (m : MReg) (e : Nat) : Bool :=
  if c.underMf then c.vec.mf.getLsbD e else decide (c.vec.vstart ≤ c.index e) && c.maskBit m e

/-- The active elements, ascending. -/
def Strand.actives (c : Strand) (m : MReg) : List Nat := c.body.filter fun e => c.activeAt m e

/-- The active elements of a function that ignores vstart (R168, R206). -/
def Strand.activesFrom0 (c : Strand) (m : MReg) : List Nat := c.body.filter fun e => c.maskBit m e

/-- One bit of a mask set or cleared. -/
def setBit (m : Mask) (i : Nat) (b : Bool) : Mask := if b then m ||| (1#16384 <<< i) else m &&& ~~~(1#16384 <<< i)

/-- A mask with the listed bits set, starting from another. -/
def setBits (m : Mask) (is : List Nat) (b : Bool) : Mask := is.foldl (fun a i => setBit a i b) m

/-- A mask register written; m0 is not writable. -/
def VecPart.setMask (v : VecPart) (m : MReg) (x : Mask) : VecPart :=
  if h : m = 0 then v else
    { v with m := v.m.set (m.toNat - 1) x (by have := m.isLt; have : m.toNat ≠ 0 := fun h' => h (BitVec.eq_of_toNat_eq h'); omega) }

/-! ### Decode checks that depend on the strand (R71, R111, R112, R115, R236, Table 4-19) -/

/-- A vector operand: its first register and its count of registers. -/
structure RegUse where
  r : VReg
  n : Nat
  deriving DecidableEq, Repr

/-- A register lies in an operand. -/
def RegUse.has (u : RegUse) (r : Nat) : Bool := decide (u.r.toNat ≤ r) && decide (r < u.r.toNat + u.n)

/-- Two operands share a register. -/
def RegUse.meets (u v : RegUse) : Bool := decide (u.r.toNat < v.r.toNat + v.n) && decide (v.r.toNat < u.r.toNat + u.n)

/-- A group starts at a multiple of its size and ends below vnreg (R71, R115). -/
def RegUse.ok (u : RegUse) (vnreg : Nat) : Bool :=
  decide (u.r.toNat % u.n = 0) && decide (u.r.toNat + u.n ≤ vnreg)

/-- In which mode a word is legal (R172, R193, R236, R277); `never` where the strand's vnreg forbids it (R260). -/
inductive WordMode where
  | vector | either | matrix | never
  deriving DecidableEq, Repr

/-- The convoy classes of Table 4-6; a scalar parcel or an event is no word. -/
inductive Klass where
  | noWord | arith | load | store | reduction | matrix | standalone
  deriving DecidableEq, Repr

/-- What the decode checks, the composition checks and the streams need to know of a word (R71, R83, R111, R112, R118):
its class; its vector sources and destinations; whether they overlap illegally; the mode it is legal in; whether it needs
lane groups, ownership or S level; the masks and scalar registers it reads; the mask or scalar register it writes; whether
it belongs to the iterative unit or is a VPERM word. -/
structure WordInfo where
  klass : Klass := .arith
  srcs : List RegUse := []
  idx : List RegUse := []
  dsts : List RegUse := []
  clash : Bool := false
  mode : WordMode := .vector
  lanes : Bool := true
  owner : Bool := true
  priv : Bool := false
  ms : List MReg := []
  xs : List XReg := []
  md : Option MReg := none
  xd : Option XReg := none
  iter : Bool := false
  perm : Bool := false
  deriving DecidableEq, Repr

/-- Every vector operand of a word. -/
def WordInfo.uses (i : WordInfo) : List RegUse := i.srcs ++ i.dsts

/-- ILLEGAL by register limits and overlaps (R71, R115). -/
def Strand.illegalRegs (c : Strand) (i : WordInfo) : Bool := i.clash || i.uses.any (fun u => !u.ok c.vec.vnreg)

/-- PRIV: the word needs S level. -/
def Strand.privFails (c : Strand) (i : WordInfo) : Bool := i.priv && decide (c.level = .a)

/-- MODE: no lane groups (R111), or a word of the other mode (R172, R193, R236, R277). -/
def Strand.modeFails (c : Strand) (i : WordInfo) : Bool :=
  (i.lanes && decide (c.lanes = 0)) ||
    match i.mode with
    | .vector => c.vec.mmode
    | .either => c.vec.mmode && i.uses.any fun u => decide (32 < u.r.toNat + u.n)
    | .matrix => !c.vec.mmode || i.uses.any fun u => decide (32 < u.r.toNat + u.n)
    | .never => true

/-- VOWNER (R112). -/
def Strand.ownerFails (c : Strand) (i : WordInfo) : Bool := i.owner && decide (c.vowner ≠ c.ctxid)

/-- The decode check a word fails first, by Table 4-19. -/
def Strand.wordCheck (c : Strand) (i : WordInfo) : Option Cause :=
  if c.illegalRegs i then some .illegal
  else if c.privFails i then some .priv
  else if c.modeFails i then some .mode
  else if c.ownerFails i then some .vowner
  else none

/-- The Landing's own handling of VOWNER on a task context (R359): the old owner's vector part is kept if it is a task's
and not kept already, the task's own is put back, vowner is written, and the convoy is issued again; one that TRAPRET had
issued again keeps what it carries (R227). -/
def State.vectorSwitch (s : State) : State :=
  let c := s.cur
  let kept := if 0x8000 ≤ c.vowner.toNat ∧ !(s.saved.any fun p => p.1 = c.vowner) then (c.vowner, c.vec) :: s.saved else s.saved
  let vec := ((kept.find? fun p => p.1 = c.ctxid).map (·.2)).getD c.vec
  { s with
    saved := kept.filter fun p => p.1 ≠ c.ctxid
    cur := { c with
      vec := vec, vowner := c.ctxid, pc := c.pc - 8 * c.slot.setWidth 64, slot := 0, conv := if c.reissue = .none then .none else c.conv
      note := some (s.trapHere .vowner (c.vowner.setWidth 64)) } }

/-- VOWNER: the Landing's own switch on a task context, a trap on a software context (R359). -/
def State.vownerTrap (s : State) : State :=
  if 0x8000 ≤ s.cur.ctxid.toNat then s.vectorSwitch else s.trap .vowner (s.cur.vowner.setWidth 64)

/-- The trap of a failed decode check (R85): trval holds the word, and for VOWNER vowner. -/
def State.decodeTrap (s : State) (c : Cause) : State :=
  if c = .vowner then s.vownerTrap else s.trap c s.cur.iword

/-! ### Streams: addresses, pops and pushes (R226 to R228) -/

/-- A word of a stream's pattern block. -/
def Stream.word (t : Stream) (i : Nat) : Nat := ((t.pattern[i]?).getD 0).toNat

/-- EW of a pattern in bits (Table 11-4). -/
def Stream.bits (t : Stream) : Nat := 8 * 2 ^ (t.word 1 % 8)

/-- LAR of a pattern. -/
def Stream.larder (t : Stream) : Bool := t.word 1 / 64 % 2 = 1

/-- The dimensions in use. -/
def Stream.dims (t : Stream) : Nat := t.word 1 / 16 % 4 + 1

/-- COUNT of a dimension. -/
def Stream.count (t : Stream) (d : Nat) : Nat := t.word (2 + d) % 2 ^ 32

/-- STRIDE of a dimension. -/
def Stream.stride (t : Stream) (d : Nat) : Int := signed 32 (t.word (2 + d) / 2 ^ 32)

/-- The stream's length: the product of the counts in use. -/
def Stream.length (t : Stream) : Nat := (List.range t.dims).foldl (fun a d => a * t.count d) 1

/-- The displacement of element k: its mixed-radix digits times the strides. -/
def Stream.disp (t : Stream) (k : Nat) : Int :=
  ((List.range t.dims).foldl (fun (a : Int × Nat) d => (a.1 + (a.2 % max 1 (t.count d) : Nat) * t.stride d, a.2 / max 1 (t.count d)))
    (0, k)).1

/-- The address or Larder offset of element k. -/
def Stream.addr (t : Stream) (k : Nat) : Nat := wrapTo 64 ((t.word 0 : Int) + t.disp k)

/-- The first byte of a core's Larder in `State.larder`. -/
def larderBase (core : BitVec 6) : Nat := core.toNat * 0x10000000

/-- Larder offsets end at 0xBFF_FFFF (R213). -/
def larderSize : Nat := 0xC000000

/-- Bytes of a Larder written by anything but QPLOAD: the plane records of the slice-panels they lie in are 16 again
(R253, R266). -/
def State.larderPut (s : State) (a n v : Nat) : State :=
  { s with
    larder := s.larder.writeLE a n v
    planes := (SMap.erase s.planes (a / 8192)).erase ((a + n - 1) / 8192) }

/-- The stream as STUNBIND leaves it (R246): a read stream's fetched elements are discarded. DIR of a stream that is not bound is
that of its last binding, or 0 since STCFG: Table 12-6 does not say (DESIGN CHOICE, log 58). -/
def Stream.unbind (t : Stream) : Stream := { t with bound := none, fetched := [], stop := none, leaves := [] }

/-- The fault code of a failed stream access (Table 12-6). -/
def streamCode : Cause → BitVec 8
  | .page => 1
  | .access => 2
  | .align => 3
  | .portgone => 4
  | .hostgone => 5
  | _ => 2

/-- The granule of an address. -/
def granule (va : Nat) : Nat := va / 65536 * 65536

/-- Where a stream element stands: in the Larder or in memory. -/
inductive StreamSpot where
  | larder (a : Nat)
  | mem (x : Xlat)
  deriving DecidableEq, Repr

/-- The leaf of an element's granule, which a stream looks up once (R224). -/
def State.streamLeaf (s : State) (t : Stream) (va : Nat) : Except Cause (Option Leaf) × Stream × State :=
  match t.leaves.find? fun e => e.1 = granule va with
  | some e => (.ok (some e.2), t, s)
  | none =>
    match s.leafOf s.cur.via s.cur.level (granule va) with
    | (.ok (some l), s1) => (.ok (some l), { t with leaves := (granule va, l) :: t.leaves }, s1)
    | (r, s1) => (r, t, s1)

/-- The checks of one stream element: its place in the Larder or in memory (R213, R226, R228). -/
def State.streamPlace (s : State) (t : Stream) (k : Nat) (n : Need) : Except Fail StreamSpot × Stream × State :=
  let a := t.addr k
  let size := t.bits / 8
  if a % size ≠ 0 then (.error (.trap .align), t, s)
  else if t.larder then
    if larderSize < a + size then (.error (.trap .access), t, s) else (.ok (.larder (larderBase s.cur.id.core + a)), t, s)
  else if 2 ^ 56 ≤ a then (.error (.trap .access), t, s)
  else
    match s.streamLeaf t a with
    | (.error c, t1, s1) => (.error (.trap c), t1, s1)
    | (.ok l, t1, s1) => match s1.locate s1.cur.part s1.cur.level a n false l with
      | .error f => (.error f, t1, s1)
      | .ok x => (.ok (.mem x), t1, s1)

/-- Element k of a read stream fetched as a plain load. -/
def State.streamRead (s : State) (t : Stream) (k : Nat) : Except Fail Nat × Stream × State :=
  match s.streamPlace t k .load with
  | (.error f, t1, s1) => (.error f, t1, s1)
  | (.ok (.larder a), t1, s1) => (.ok (s1.larder.readLE a (t.bits / 8)), t1, s1)
  | (.ok (.mem x), t1, s1) => (.ok (s1.readPlace x.place (t.bits / 8)), t1, s1.touch s1.cur.via x .load)

/-- A fetch has failed: the stream stops there, and FCODE shows it where it waits at POS (R228, Table 12-6). -/
def Stream.stopAt (t : Stream) (c : Cause) : Stream :=
  { t with stop := some c, fcode := if t.fetched = [] then streamCode c else t.fcode }

/-- Up to n further elements fetched behind those already fetched; a failure stops the stream there (R228). -/
def State.streamFetch (s : State) (t : Stream) : Nat → Stream × State
  | 0 => (t, s)
  | n + 1 =>
    let k := t.pos + t.fetched.length
    if t.length ≤ k || t.stop.isSome then (t, s)
    else match s.streamRead t k with
      | (.error (.trap c), t1, s1) => (t1.stopAt c, s1)
      | (.error .stall, t1, s1) => (t1, s1)
      | (.ok v, t1, s1) =>
        s1.streamFetch { t1 with
          fetched := t1.fetched ++ [BitVec.ofNat 64 v], fcode := if t1.fetched = [] then 0 else t1.fcode } n

/-- A stream of the issuing strand. -/
def Strand.stream (c : Strand) (i : BitVec 3) : Stream := c.vec.streams[i.toNat]

/-- A stream of the issuing strand replaced. -/
def State.setStream (s : State) (i : BitVec 3) (t : Stream) : State :=
  s.withVec { s.cur.vec with streams := s.cur.vec.streams.set i.toNat t }

/-- The stream bound to a register in a direction, if there is one. -/
def Strand.boundTo (c : Strand) (r : Nat) (write : Bool) : Option (BitVec 3) :=
  ((List.range 8).find? fun i => match c.vec.streams[i]? with
    | some t => t.bound = some (BitVec.ofNat 6 r) && t.write = write
    | none => false).map fun i => BitVec.ofNat 3 i

/-- The strip put into elements 0 upward of a register. -/
def Strand.fillStrip (c : Strand) (v : SMap Byte) (r : VReg) (w : Nat) : Nat → List Nat → SMap Byte
  | _, [] => v
  | i, x :: t => c.fillStrip (c.putElem v r w i x) r w (i + 1) t

/-- What a pop answers: the popped state, a trap and the state that met it, or a stall at the routing stage. -/
abbrev PopResult := Except ((Trap × State) ⊕ State) State

/-- A stream whose strip of n elements has been taken; `short` says that fewer than vl were left. -/
def Stream.taken (t : Stream) (n : Nat) (short : Bool) : Stream :=
  let rest := t.fetched.drop n
  { t with
    fetched := rest, pos := t.pos + n, exh := t.exh || short, leaves := if rest = [] then [] else t.leaves
    fcode := if rest = [] then (t.stop.map streamCode).getD 0 else t.fcode }

/-- The trap of a pop whose element waits behind a fault; the stream retries the fetch from then on (R228). -/
def State.popTrap (s : State) (i : BitVec 3) (t : Stream) (c : Cause) : Trap × State :=
  let s1 := s.setStream i { t with stop := none }
  (s1.accessTrap c (BitVec.ofNat 64 (t.addr (t.pos + t.fetched.length))) .load, s1)

/-- The pop of one read-bound register (R227): the strip is fetched; a fault that a fetch has met is raised by the first pop
that needs its element; elements beyond the end read zero. -/
def State.popOne (s : State) (i : BitVec 3) (r : VReg) : PopResult :=
  let t0 := s.cur.stream i
  let vl := s.cur.vec.vl
  let want := min vl (t0.length - t0.pos)
  let (t1, s1) := s.streamFetch t0 (want - t0.fetched.length)
  if t1.fetched.length < want then
    match t1.stop with
    | some c => .error (.inl (s1.popTrap i t1 c))
    | none => .error (.inr (s1.setStream i t1))
  else
    let vals := (t1.fetched.take want).map BitVec.toNat ++ List.replicate (vl - want) 0
    let s2 := s1.setStream i (t1.taken want (decide (want < vl)))
    let c := s2.cur
    .ok (s2.withCur { c with
      vec := { c.vec with v := c.fillStrip c.vec.v r t1.bits 0 vals }
      conv := { c.conv with popped := r :: c.conv.popped } })

/-- The registers of a list of operands. -/
def regsOf (us : List RegUse) : List Nat := us.flatMap fun u => (List.range u.n).map fun k => u.r.toNat + k

/-- The pops a word's sources need, before the convoy's first read of each (R227). -/
def State.popAll (s : State) : List Nat → PopResult
  | [] => .ok s
  | r :: t =>
    match s.cur.boundTo r false with
    | none => s.popAll t
    | some i =>
      if s.cur.conv.popped.contains (BitVec.ofNat 6 r) then s.popAll t
      else match s.popOne i (BitVec.ofNat 6 r) with
        | .ok s1 => s1.popAll t
        | .error e => .error e

/-- A destination that a read stream is bound to: the word raises ACCESS with its number (R227). -/
def Strand.readBoundDst (c : Strand) (ds : List RegUse) : Option Nat :=
  (regsOf ds).find? fun r => (c.boundTo r false).isSome

/-- The elements of a write-bound register that the word under mf wrote before it stopped (R227, R344). -/
def Strand.pushedBefore (c : Strand) (i : BitVec 3) : Mask :=
  if c.underMf then ((c.conv.pushes.find? fun p => p.s = i).map (·.active)).getD 0 else 0

/-- A write to a write-bound register is noted for the convoy's retirement; the last write's active elements count, those it
had written before a trap of RK 1 among them (R227). -/
def State.notePush (s : State) (u : RegUse) (act : List Nat) : State :=
  (regsOf [u]).foldl (fun s r => match s.cur.boundTo r true with
    | none => s
    | some i =>
      s.withCur { s.cur with conv := { s.cur.conv with
        pushes := (s.cur.conv.pushes.filter fun p => p.s ≠ i) ++ [{ s := i, active := setBits (s.cur.pushedBefore i) act true }] } }) s

/-! ### The frame of a vector word -/

/-- A stream that a convoy has popped and fetched from, as it is once its elements are back (R227): a fault met at the element
after those it then holds waits there, and FCODE shows one that waits at POS alone (R228, Table 12-6). Elements fetched since are
fetched again. -/
def Stream.unpop (before after : Stream) : Stream :=
  let met := decide (after.pos + after.fetched.length = before.pos + before.fetched.length)
  { before with
    stop := if met then after.stop else none
    fcode := if before.fetched ≠ [] then before.fcode else if met then after.fcode else 0 }

/-- A state unwound to an earlier one (R125, R227): but for the free values taken and what the streams have met (R228). -/
def State.unwind (before after : State) : State :=
  let streams : Vector Stream 8 := Vector.ofFn fun i : Fin 8 => before.cur.vec.streams[i].unpop after.cur.vec.streams[i]
  State.withVec { before with free := after.free } { before.cur.vec with streams := streams }

/-- The state before the first word of a convoy that waits within it (R125): the strand is at that word again, and a match that a
VWAIT has made is kept (R327). -/
def State.rewound (s : State) : State :=
  match s.cur.history with
  | none => s
  | some h =>
    let c := h.xs.foldl (fun (c : Strand) x => c.setX x.1 x.2) s.cur
    s.withCur { c with
      pc := c.pc - 8 * c.slot.setWidth 64, slot := 0, vec := h.vec, reissue := h.how, history := none
      conv := { h.conv with watch := h.conv.watch.or c.conv.watch } }

/-- A strand that stalls at the routing stage stays at its word (R373). -/
def State.stallHere (s : State) : State := s.withCur { s.cur with run := .routeStall }

/-- The frame of every vector word: the decode checks of the strand, the read-bound destination check, the pops, then the
effect. The check and the pops come first at vl = 0 and with vstart ≥ vl too, where R237 has the word do nothing further: it does
not say whether a word that writes a read-bound register then raises ACCESS (R227), nor whether its sources are popped (DESIGN
CHOICE, log 58). -/
def vecWord (i : WordInfo) (s : State) (eff : State → State) : Out :=
  match s.cur.wordCheck i with
  | some c => .next (s.decodeTrap c)
  | none =>
    match s.cur.readBoundDst i.dsts with
    | some r => .next (s.trap .access (BitVec.ofNat 64 r))
    | none =>
      match s.popAll (regsOf i.srcs) with
      | .error (.inl t) => .next ((s.unwind t.2).takeTrap t.1)
      | .error (.inr s1) => .next s1.stallHere
      | .ok s1 => .next (eff s1)

/-- Flags raised by a word of a convoy: they reach fflags when the convoy retires (R192). -/
def State.convFlags (s : State) (f : BitVec 5) : State :=
  s.withCur { s.cur with conv := { s.cur.conv with flags := s.cur.conv.flags ||| f } }

/-- Saturation by a word of a convoy: it reaches vsat when the convoy retires (R171). -/
def State.convSat (s : State) (b : Bool) : State :=
  s.withCur { s.cur with conv := { s.cur.conv with sat := s.cur.conv.sat || b } }

/-- vstart set to 0. -/
def State.vstart0 (s : State) : State := s.withVec { s.cur.vec with vstart := 0 }

/-! ### Writing a vector destination -/

/-- The tail of a vector destination is written zero (R167, R264). -/
def Strand.zeroTail (c : Strand) (v : SMap Byte) (r : VReg) (w n : Nat) : SMap Byte :=
  if c.vec.mmode then
    ((List.range (128 * c.lanes)).filter fun e => c.vec.vl ≤ e % 128).foldl (fun v e => c.putElem v r w e 0) v
  else
    let lo := r.toNat * c.regBytes * 8 + c.vec.vl * w
    let v1 := if lo % 8 = 0 then v else c.putElem v r w c.vec.vl 0
    clearBytes v1 ((lo + 7) / 8) ((r.toNat + n) * c.regBytes)

/-- Results of the active elements written. -/
def Strand.putAll (c : Strand) (v : SMap Byte) (r : VReg) (w : Nat) : List (Nat × Nat) → SMap Byte
  | [] => v
  | (e, x) :: t => c.putAll (c.putElem v r w e x) r w t

/-- A vector destination written: the active results, zeros for masked-off elements under MZ, the tail under TP, and
vstart 0 (R167, R168). `off` lists the masked-off elements. -/
def State.writeVec (s : State) (d : VReg) (w : Nat) (res : List (Nat × Nat)) (off : List Nat) : State :=
  let c := s.cur
  let n := c.groupSize w
  let v1 := c.putAll c.vec.v d w res
  let v2 := if c.vec.mz && !c.underMf then c.putAll v1 d w (off.map fun e => (e, 0)) else v1
  let v3 := if c.vec.tp then c.zeroTail v2 d w n else v2
  (s.withVec { c.vec with v := v3, vstart := 0 }).notePush { r := d, n := n } (res.map (·.1))

/-- The masked-off elements: at or above vstart, below vl, mask bit 0 (R167). -/
def Strand.maskedOff (c : Strand) (m : MReg) : List Nat :=
  c.body.filter fun e => decide (c.vec.vstart ≤ c.index e) && !c.maskBit m e

/-- The masked-off elements of a function that ignores vstart. -/
def Strand.maskedOff0 (c : Strand) (m : MReg) : List Nat := c.body.filter fun e => !c.maskBit m e

/-- A mask destination written bit by bit for the active elements; the other bits follow R167. -/
def State.writeMask (s : State) (d : MReg) (act off : List Nat) (f : Nat → Bool) : State :=
  let c := s.cur
  let m0 := if h : d = 0 then (0 : Mask) else c.vec.m[d.toNat - 1]'(by have := d.isLt; have : d.toNat ≠ 0 := fun h' => h (BitVec.eq_of_toNat_eq h'); omega)
  let m1 := act.foldl (fun a e => setBit a e (f e)) m0
  let m2 := if c.vec.mz && !c.underMf then setBits m1 off false else m1
  let m3 := if c.vec.tp then m2 &&& setBits 0 c.body true else m2
  s.withVec ({ c.vec with vstart := 0 }.setMask d m3)

/-- ElementWise of R168 with results of a width for the active elements: at vstart ≥ vl only vstart changes. -/
def State.elementWise (s : State) (d : VReg) (w : Nat) (m : MReg) (f : Nat → Nat) : State :=
  if s.cur.vec.vl ≤ s.cur.vec.vstart then s.vstart0
  else s.writeVec d w ((s.cur.actives m).map fun e => (e, f e)) (s.cur.maskedOff m)

/-- The same for a function that reads across elements: vstart is ignored, and at vl = 0 only vstart changes (R168). -/
def State.acrossElements (s : State) (d : VReg) (w : Nat) (m : MReg) (f : Nat → Nat) : State :=
  if s.cur.vec.vl = 0 then s.vstart0
  else s.writeVec d w ((s.cur.activesFrom0 m).map fun e => (e, f e)) (s.cur.maskedOff0 m)

/-- ElementWise for a mask destination. -/
def State.elementWiseMask (s : State) (d m : MReg) (f : Nat → Bool) : State :=
  if s.cur.vec.vl ≤ s.cur.vec.vstart then s.vstart0 else s.writeMask d (s.cur.actives m) (s.cur.maskedOff m) f

/-- The same for a mask function that reads across elements. -/
def State.acrossMask (s : State) (d m : MReg) (f : Nat → Bool) : State :=
  if s.cur.vec.vl = 0 then s.vstart0 else s.writeMask d (s.cur.activesFrom0 m) (s.cur.maskedOff0 m) f

/-! ### Late errors (R345, R346, Table 18-5) -/

/-- The four words of an entry of the scoreboard image (Table 18-5). -/
def SbEntry.words (e : SbEntry) : List Nat :=
  [e.pc.toNat % 2 ^ 52 + e.slot.toNat * 2 ^ 52 + e.kind.toNat * 2 ^ 54 + e.perf.toNat * 2 ^ 57 + e.settled.toNat * 2 ^ 58 +
     e.err.toNat * 2 ^ 59,
   e.addr.toNat, e.first % 2 ^ 32 + e.nfail % 2 ^ 32 * 2 ^ 32, e.reg.toNat + e.ew.toNat * 64]

/-- Words written one after another. -/
def writeWords (m : Memory) (a : Nat) : List Nat → Memory
  | [] => m
  | w :: t => writeWords (m.writeLE a 8 w) (a + 8) t

/-- The scoreboard image as it stands: the count, then each entry (Table 18-5). -/
def State.writeBoard (s : State) : State :=
  let image := [s.cur.board.length, 0, 0, 0] ++ s.cur.board.flatMap SbEntry.words
  { s with mem := writeWords s.mem (landingPA s.cur.id + 0x1000) image }

/-- Entries in program order (R346). -/
def byAge (es : List SbEntry) : List SbEntry := es.mergeSort fun a b => decide (a.age ≤ b.age)

/-- One LATE trap for every error reported up to the stop (R346); the image lists every pending instruction in program
order. `panel` is the address of a failed panel read, for which no entry is made. -/
def State.raiseLate (s : State) (rk : BitVec 3) (slot : BitVec 2) (tpc : Word) (panel : Option Word) : State :=
  let c := s.cur
  let board := byAge ((c.board.filter fun e => !e.settled) ++ c.lateHeld)
  let s1 := s.withCur { c with board := board.take 32, lateHeld := [], panelLate := none }
  let s2 := if board = [] then s1 else s1.writeBoard
  s2.takeTrap {
    cause := .late, rk := rk, slot := slot, tpc := tpc, tval := ((board.head?.map (·.addr)).or (panel.or c.panelLate)).getD 0, pages := [] }

/-- The elements of the next load whose data fails, and the error (R346). -/
def Strand.lateLoad (c : Strand) : Option (List Nat × BitVec 3) :=
  match c.lateStop with
  | some (.load es err) => some (es, err)
  | _ => none

/-- The elements of the next scalar load, store, update, AMO, CLAIM or push that fail, ERR and PERF (R345, R346). -/
def Strand.lateAccess (c : Strand) : List Nat × BitVec 3 × Bool :=
  match c.lateStop with
  | some (.boundary es err perf) => (es, err, perf)
  | _ => ([], 0, false)

/-- An element of the access that the strand makes fails late (R345). -/
def Strand.failsLate (c : Strand) (e : Nat) : Bool := c.lateAccess.1.contains e

/-- The entry of an access that has failed, held for the next boundary (R346); none where nothing of it has failed. -/
def State.holdLate (s : State) (e : SbEntry) : State :=
  if e.elems = [] then s else s.withCur { s.cur with lateHeld := s.cur.lateHeld ++ [e], lateStop := none }

/-- An entry of the strand's word or parcel for some failed elements, with their data register and their width in bytes, or 0
for nibbles (R345, Table 18-5). -/
def Strand.entry (c : Strand) (kind : BitVec 3) (reg : BitVec 6) (n : Nat) (elems : List SbElem) : SbEntry :=
  { pc := c.pc, slot := c.slot, kind := kind, perf := false, settled := false, err := c.lateAccess.2.1
    addr := (elems.head?.map (·.addr)).getD 0, first := (elems.head?.map (·.index % 16384)).getD 0
    nfail := (elems.map (·.index % 16384)).eraseDups.length, reg := reg, ew := if n = 0 then 4 else BitVec.ofNat 3 (Nat.log2 n)
    vector := false, sx := false, amo := 0, elems := elems, age := c.age }

/-- A load some of whose data failed, at its word: its entry is made, and LATE has RK 3 (R346). While IN is 1 the error is
held, and the load goes on without that data (R341, R345). -/
def State.stopLoad (s : State) (e : SbEntry) (goOn : State → State) : State :=
  let c := s.cur
  let s1 := s.withCur { c with lateHeld := c.lateHeld ++ [e], lateStop := none }
  if c.trIn then goOn s1 else s1.raiseLate 3 c.slot (c.pc - 8 * c.slot.setWidth 64) none

/-! ### The retirement of a parcel and of waits -/

/-- WATCH held by a parcel or convoy that has retired: raised before the next one (R136, R332). -/
def State.raiseWatch (s : State) : State :=
  match s.cur.conv.watch with
  | none => s
  | some va =>
    let s1 := s.withCur { s.cur with conv := { s.cur.conv with watch := none } }
    s1.takeTrap { cause := .watch, rk := 0, slot := 0, tpc := s1.cur.pc, tval := va, pages := [] }

/-- The instruction at pc has retired: the strand's age moves on. -/
def Strand.older (c : Strand) : Strand := { c with age := c.age + 1 }

/-- A parcel has retired: it is counted, by the events assigned to the core's counters before it (R393, Table 23-4), and a
watch match it made is raised. After TRAPRET the match that a stopped convoy carries waits until that convoy has retired
(R344). -/
def State.retireCounting (s : State) (events : Vector (BitVec 8) 16) : State :=
  let s0 := s.withCur s.cur.older
  let s1 : State := { s0 with cores := s0.cores.map fun k =>
      if k.core = s0.cur.id.core then
        { k with pcnt := Vector.ofFn fun i : Fin 16 => if events[i] = 0x03#8 then k.pcnt[i] + 1 else k.pcnt[i] }
      else k }
  if s1.cur.reissue = .none then s1.raiseWatch else s1

/-- The retirement of a parcel that has assigned no event. -/
def State.retireParcel (s : State) : State := s.retireCounting s.coreOf.events

/-- The strand `who` brought to the front: it changes places with the one that issues; nothing if no strand has that
number. -/
def State.focus (s : State) (who : StrandId) : State :=
  if s.cur.id = who then s
  else
    match s.others.find? fun c => c.id = who with
    | none => s
    | some c => { s with cur := c, others := s.others.map fun d => if d.id = who then s.cur else d }

/-- Something that happens to a strand, whichever one issues; nothing if no strand has that number. -/
def State.onStrand (s : State) (who : StrandId) (f : State → State) : State :=
  let s1 := s.focus who
  if s1.cur.id = who then (f s1).focus s.cur.id else s

/-- A field of the parcel that a waiting strand stands at. -/
def Strand.parcelField (c : Strand) (lo n : Nat) : Nat := c.iword.toNat / 2 ^ lo % 2 ^ n

/-- xd of the parcel that a waiting strand stands at (Table 4-1). -/
def Strand.parcelD (c : Strand) : XReg := BitVec.ofNat 5 (c.parcelField 20 5)

/-- xa of that parcel. -/
def Strand.parcelA (c : Strand) : XReg := BitVec.ofNat 5 (c.parcelField 15 5)

/-- xb of that parcel. -/
def Strand.parcelB (c : Strand) : XReg := BitVec.ofNat 5 (c.parcelField 10 5)

/-- Past a word whose wait has ended outside the issue of its convoy: the next word, or only the retirement (R117). The slot
stays that of the last word until then. -/
def State.passWord (s : State) : State :=
  let c := s.cur
  if lastBit c.iword then s.withCur { c with pc := c.pc + 8, reissue := .retire, run := .running }
  else s.withCur { c with pc := c.pc + 8, slot := c.slot + 1, run := .running }

/-! ### Operand records as register uses (R115, R169, R170, R180) -/

/-- One operand of width w of a MATRIX word, whose groups are those of matrix mode whatever the mode (R264, R277). -/
def matrixUse (r : VReg) (w : Nat) : RegUse := { r := r, n := max 1 (w / 32) }

/-- One operand of width w. -/
def Strand.use (c : Strand) (r : VReg) (w : Nat) : RegUse := { r := r, n := c.groupSize w }

end Sys2Proof.Machine
end

