-- ==== Sys2Proof/Machine/Flags.lean ====
section
/-! DEFINITION. Machine/Flags.lean: the number formats (08_number_formats), every rounding, and the flags each operation
raises (R141 to R146, R158 to R166, R197 to R203). -/

namespace Sys2Proof.Machine

/-! ### Formats (Tables 8-1 and 8-2) -/

/-- A floating-point format: width, fraction bits, bias, the encoding of its largest finite value, whether it has
infinities, and its canonical NaN. -/
structure FloatFmt where
  width : Nat
  frac : Nat
  bias : Nat
  maxEnc : Nat
  hasInf : Bool
  canon : Nat
  deriving DecidableEq, Repr

/-- FP64. -/
def fp64 : FloatFmt :=
  { width := 64, frac := 52, bias := 1023, maxEnc := 0x7FEFFFFFFFFFFFFF, hasInf := true, canon := 0x7FF8000000000000 }

/-- FP32. -/
def fp32 : FloatFmt :=
  { width := 32, frac := 23, bias := 127, maxEnc := 0x7F7FFFFF, hasInf := true, canon := 0x7FC00000 }

/-- FP16. -/
def fp16 : FloatFmt := { width := 16, frac := 10, bias := 15, maxEnc := 0x7BFF, hasInf := true, canon := 0x7E00 }

/-- BF16. -/
def bf16 : FloatFmt := { width := 16, frac := 7, bias := 127, maxEnc := 0x7F7F, hasInf := true, canon := 0x7FC0 }

/-- FP8 E4M3: no infinity; its NaN encodings are 0x7F and 0xFF. -/
def e4m3 : FloatFmt := { width := 8, frac := 3, bias := 7, maxEnc := 0x7E, hasInf := false, canon := 0x7F }

/-- FP8 E5M2. -/
def e5m2 : FloatFmt := { width := 8, frac := 2, bias := 15, maxEnc := 0x7B, hasInf := true, canon := 0x7E }

/-- FP4 E2M1: no infinity and no NaN; `canon` is what a NaN source gives (Table 8-7). -/
def e2m1 : FloatFmt := { width := 4, frac := 1, bias := 1, maxEnc := 0x7, hasInf := false, canon := 0 }

/-- The format of a scalar floating-point instruction (R75). -/
def scalarFmt : FFmt → FloatFmt
  | .fp64 => fp64
  | .fp32 => fp32
  | .fp16 => fp16
  | .bf16 => bf16

/-- The format of a vector floating-point instruction (R194). -/
def vectorFmt : VFmt → FloatFmt
  | .fp64 => fp64
  | .fp32 => fp32
  | .fp16 => fp16
  | .bf16 => bf16

/-- The sign bit of an encoding. -/
def FloatFmt.neg (f : FloatFmt) (b : Nat) : Bool := decide (b / 2 ^ (f.width - 1) % 2 = 1)

/-- The magnitude field of an encoding: exponent and fraction. -/
def FloatFmt.mag (f : FloatFmt) (b : Nat) : Nat := b % 2 ^ (f.width - 1)

/-- An encoding with a sign. -/
def FloatFmt.signed (f : FloatFmt) (neg : Bool) (m : Nat) : Nat := (if neg then 2 ^ (f.width - 1) else 0) + m

/-- The infinity's magnitude field, where the format has one: it follows the largest finite value. -/
def FloatFmt.infEnc (f : FloatFmt) : Nat := f.maxEnc + 1

/-- The NaN encodings (Table 8-2). -/
def FloatFmt.isNaN (f : FloatFmt) (b : Nat) : Bool :=
  if f.hasInf then decide (f.infEnc < f.mag b) else decide (f.maxEnc < f.mag b)

/-- A NaN is quiet when the most significant fraction bit is 1; both E4M3 NaNs are (R153). -/
def FloatFmt.quiet (f : FloatFmt) (b : Nat) : Bool := decide (b / 2 ^ (f.frac - 1) % 2 = 1)

/-! ### Exact values -/

/-- A value: a NaN, an infinity, or the number ± m × 2ᵉ. A quotient, a root or a power that does not come out is held to
more bits than any format keeps, with its last bit 1: it rounds as the exact value does and is inexact as it is. -/
inductive FVal where
  | nan (quiet : Bool)
  | inf (neg : Bool)
  | num (neg : Bool) (m : Nat) (e : Int)
  deriving DecidableEq, Repr

/-- Value of R152. -/
def FloatFmt.value (f : FloatFmt) (b : Nat) : FVal :=
  let ex := f.mag b / 2 ^ f.frac
  let fr := b % 2 ^ f.frac
  if f.isNaN b then .nan (f.quiet b)
  else if f.hasInf && decide (f.mag b = f.infEnc) then .inf (f.neg b)
  else if ex = 0 then .num (f.neg b) fr (1 - (f.bias : Int) - f.frac)
  else .num (f.neg b) (2 ^ f.frac + fr) ((ex : Int) - f.bias - f.frac)

/-- The signed mantissa of a number at a lower exponent. -/
def scaled (neg : Bool) (m : Nat) (e lo : Int) : Int :=
  let v : Int := (m * 2 ^ (e - lo).toNat : Nat)
  if neg then -v else v

/-- x < y for numbers. -/
def numLt (n1 : Bool) (m1 : Nat) (e1 : Int) (n2 : Bool) (m2 : Nat) (e2 : Int) : Bool :=
  decide (scaled n1 m1 e1 (min e1 e2) < scaled n2 m2 e2 (min e1 e2))

/-- x < y, false where either is a NaN. -/
def FVal.lt : FVal → FVal → Bool
  | .num n1 m1 e1, .num n2 m2 e2 => numLt n1 m1 e1 n2 m2 e2
  | .inf n, .inf k => n && !k
  | .inf n, .num _ _ _ => n
  | .num _ _ _, .inf k => !k
  | _, _ => false

/-- A value is a NaN. -/
def FVal.isNaN : FVal → Bool
  | .nan _ => true
  | .inf _ => false
  | .num _ _ _ => false

/-- A value is a signalling NaN. -/
def FVal.isSNaN : FVal → Bool
  | .nan q => !q
  | .inf _ => false
  | .num _ _ _ => false

/-- x = y, false where either is a NaN. -/
def FVal.eq (x y : FVal) : Bool := !x.isNaN && !y.isNaN && !x.lt y && !y.lt x

/-! ### Flags (Table 6-7) -/

/-- A result and the flags it raises. -/
structure FRes where
  bits : Nat
  flags : BitVec 5
  deriving DecidableEq, Repr

/-- NV. -/
def flagNV : BitVec 5 := 16#5
/-- NV where an operand is a signalling NaN (R153). -/
def FVal.nv (x : FVal) : BitVec 5 := if x.isSNaN then flagNV else 0
/-- DZ. -/
def flagDZ : BitVec 5 := 8#5
/-- OF. -/
def flagOF : BitVec 5 := 4#5
/-- UF. -/
def flagUF : BitVec 5 := 2#5
/-- NX. -/
def flagNX : BitVec 5 := 1#5

/-- A flag that a condition raises. -/
def flagIf (b : Bool) (f : BitVec 5) : BitVec 5 := if b then f else 0

/-! ### RoundFloat (R158 to R160) -/

/-- The kept part q of m ÷ 2ᵈ goes to q + 1 in a mode (Table 8-4, on magnitudes). -/
def roundsUp (mode : RMode) (neg : Bool) (q rest half : Nat) : Bool :=
  match mode with
  | .rne => decide (half < rest) || (decide (rest = half) && decide (q % 2 = 1))
  | .rtz => false
  | .rdn => neg && decide (rest ≠ 0)
  | .rup => !neg && decide (rest ≠ 0)
  | .rmm => decide (half ≤ rest)

/-- m × 2ᵉ rounded to a multiple of 2ᵏ: the multiple, and whether it is inexact. -/
def roundAt (mode : RMode) (neg : Bool) (m : Nat) (e k : Int) : Nat × Bool :=
  if k ≤ e then (m * 2 ^ (e - k).toNat, false)
  else
    let d := (k - e).toNat
    let q := m / 2 ^ d
    let rest := m % 2 ^ d
    -- half is 2^(d−1); both sides are doubled
    (if roundsUp mode neg q (2 * rest) (2 ^ d) then q + 1 else q, decide (rest ≠ 0))

/-- floor(log2(m × 2ᵉ)). -/
def floorLog2 (m : Nat) (e : Int) : Int := (Nat.log2 m : Int) + e

/-- emin of a format. -/
def FloatFmt.emin (f : FloatFmt) : Int := 1 - f.bias

/-- What an overflow delivers (R159, Table 8-5). -/
def FloatFmt.overflow (f : FloatFmt) (mode : RMode) (neg sat : Bool) : Nat :=
  let toInf := match mode with
    | .rne => true
    | .rtz => false
    | .rdn => neg
    | .rup => !neg
    | .rmm => true
  if !toInf || sat then f.signed neg f.maxEnc
  else if f.hasInf then f.signed neg f.infEnc
  else if f.canon = 0 then f.signed neg f.maxEnc
  else f.canon

/-- Tiny (R160): rounded to p bits with an unbounded exponent, the magnitude is below 2^emin. -/
def FloatFmt.tiny (f : FloatFmt) (mode : RMode) (neg : Bool) (m : Nat) (e : Int) : Bool :=
  let k := floorLog2 m e - f.frac
  let q := (roundAt mode neg m e k).1
  decide (floorLog2 q k < f.emin)

/-- RoundFloat with its overflow and flags (R158 to R160): the number ± m × 2ᵉ into a format. A zero keeps its sign. -/
def FloatFmt.round (f : FloatFmt) (mode : RMode) (sat neg : Bool) (m : Nat) (e : Int) : FRes :=
  if m = 0 then { bits := f.signed neg 0, flags := 0 }
  else
    let kmin := f.emin - f.frac
    let k := max (floorLog2 m e - f.frac) kmin
    let r := roundAt mode neg m e k
    let enc := (k - kmin).toNat * 2 ^ f.frac + r.1
    if f.maxEnc < enc then { bits := f.overflow mode neg sat, flags := flagOF ||| flagNX }
    else
      { bits := f.signed neg enc
        flags := flagIf r.2 flagNX ||| flagIf (r.2 && f.tiny mode neg m e) flagUF }

/-- The canonical NaN with NV where an operand signals. -/
def FloatFmt.nan (f : FloatFmt) (invalid : Bool) : FRes := { bits := f.canon, flags := flagIf invalid flagNV }

/-- An exact result delivered by arithmetic in a format. -/
def FloatFmt.deliver (f : FloatFmt) (mode : RMode) : FVal → FRes
  | .nan q => f.nan !q
  | .inf n => { bits := f.signed n f.infEnc, flags := 0 }
  | .num n m e => f.round mode false n m e

/-! ### Arithmetic (R141, R142) -/

/-- The exact sum of two values; `.nan false` where it is invalid. A zero sum of opposite signs is +0, under RDN −0. -/
def FVal.add (mode : RMode) : FVal → FVal → FVal
  | .num n1 m1 e1, .num n2 m2 e2 =>
    let lo := min e1 e2
    let v := scaled n1 m1 e1 lo + scaled n2 m2 e2 lo
    if v = 0 then
      if n1 = n2 then .num n1 0 lo else .num (decide (mode = .rdn)) 0 lo
    else .num (decide (v < 0)) v.natAbs lo
  | .inf n, .inf k => if n = k then .inf n else .nan false
  | .inf n, .num _ _ _ => .inf n
  | .num _ _ _, .inf k => .inf k
  | .nan q, y => .nan (q && !y.isSNaN)
  | .inf _, .nan q => .nan q
  | .num _ _ _, .nan q => .nan q

/-- The exact product; `.nan false` for zero by infinity, which a quiet NaN elsewhere does not silence (R142). -/
def FVal.mul : FVal → FVal → FVal
  | .num n1 m1 e1, .num n2 m2 e2 => .num (n1 != n2) (m1 * m2) (e1 + e2)
  | .inf n, .inf k => .inf (n != k)
  | .inf n, .num k m _ => if m = 0 then .nan false else .inf (n != k)
  | .num k m _, .inf n => if m = 0 then .nan false else .inf (n != k)
  | .nan q, y => .nan (q && !y.isSNaN)
  | .inf _, .nan q => .nan q
  | .num _ _ _, .nan q => .nan q

/-- A value with the opposite sign. -/
def FVal.negate : FVal → FVal
  | .nan q => .nan q
  | .inf n => .inf !n
  | .num n m e => .num (!n) m e

/-- A quotient or root carried further than any format needs: the last bit says that it did not come out. -/
def sticky (q : Nat) (exact : Bool) : Nat := 2 * q + (if exact then 0 else 1)

/-- m1 ÷ m2 to at least 64 bits: the mantissa and the exponent to add. -/
def quotient (m1 m2 : Nat) : Nat × Int :=
  let s := 66 + Nat.log2 m2
  (sticky (m1 * 2 ^ s / m2) (decide (m1 * 2 ^ s % m2 = 0)), -(s : Int) - 1)

/-- One Newton step at a time toward the integer square root, from above. -/
def isqrtFrom (n : Nat) : Nat → Nat → Nat
  | 0, x => x
  | fuel + 1, x =>
    let y := (x + n / x) / 2
    if x ≤ y then x else isqrtFrom n fuel y

/-- The integer square root. -/
def isqrt (n : Nat) : Nat := if n = 0 then 0 else isqrtFrom n (Nat.log2 n + 8) (2 ^ (Nat.log2 n / 2 + 1))

/-- The square root of m × 2ᵉ to at least 64 bits. -/
def rootOf (m : Nat) (e : Int) : Nat × Int :=
  let t : Nat := 132 + (e % 2).toNat
  let q := isqrt (m * 2 ^ t)
  (sticky q (decide (q * q = m * 2 ^ t)), (e - t) / 2 - 1)

/-- The reciprocal of the square root of m × 2ᵉ to at least 64 bits. -/
def rsqrtOf (m : Nat) (e : Int) : Nat × Int :=
  let t0 : Nat := 132 + Nat.log2 m
  let t : Nat := t0 + (((t0 : Int) + e) % 2).toNat
  let q := isqrt (2 ^ t / m)
  (sticky q (decide (q * q * m = 2 ^ t)), -(((t : Int) + e) / 2) - 1)

/-- FADD (R141, R142). -/
def fAdd (f : FloatFmt) (mode : RMode) (a b : Nat) : FRes := f.deliver mode ((f.value a).add mode (f.value b))

/-- FSUB. -/
def fSub (f : FloatFmt) (mode : RMode) (a b : Nat) : FRes := f.deliver mode ((f.value a).add mode (f.value b).negate)

/-- FMUL. -/
def fMul (f : FloatFmt) (mode : RMode) (a b : Nat) : FRes := f.deliver mode ((f.value a).mul (f.value b))

/-- FDIV: DZ for a finite non-zero value by zero. -/
def fDiv (f : FloatFmt) (mode : RMode) (a b : Nat) : FRes :=
  match f.value a, f.value b with
  | .num n1 m1 e1, .num n2 m2 e2 =>
    if m2 = 0 then
      if m1 = 0 then f.nan true else { bits := f.signed (n1 != n2) f.infEnc, flags := flagDZ }
    else
      let q := quotient m1 m2
      f.round mode false (n1 != n2) q.1 (e1 - e2 + q.2)
  | .inf _, .inf _ => f.nan true
  | .inf n, .num k _ _ => { bits := f.signed (n != k) f.infEnc, flags := 0 }
  | .num n _ _, .inf k => { bits := f.signed (n != k) 0, flags := 0 }
  | x, y => f.nan (x.isSNaN || y.isSNaN)

/-- FSQRT: −0 stays −0; a value below −0 is invalid. -/
def fSqrt (f : FloatFmt) (mode : RMode) (a : Nat) : FRes :=
  match f.value a with
  | .num n m e =>
    if m = 0 then { bits := f.signed n 0, flags := 0 }
    else if n then f.nan true
    else
      let r := rootOf m e
      f.round mode false false r.1 r.2
  | .inf n => if n then f.nan true else { bits := f.infEnc, flags := 0 }
  | .nan q => f.nan !q

/-- ± x × y ± z with one rounding (R146); a product of zero by infinity is invalid whatever z is (R142). -/
def fFma (f : FloatFmt) (mode : RMode) (negP negZ : Bool) (a b c : Nat) : FRes :=
  let p := (f.value a).mul (f.value b)
  let p1 := if negP then p.negate else p
  let z := if negZ then (f.value c).negate else f.value c
  f.deliver mode (p1.add mode z)

/-! ### Comparison, classification, signs (R143, R197, Table 10-5) -/

/-- minimumNumber (R143). -/
def fMin (f : FloatFmt) (a b : Nat) : FRes :=
  let x := f.value a
  let y := f.value b
  let fl := flagIf (x.isSNaN || y.isSNaN) flagNV
  if x.isNaN then { bits := if y.isNaN then f.canon else b, flags := fl }
  else if y.isNaN then { bits := a, flags := fl }
  else if x.lt y || (x.eq y && f.neg a) then { bits := a, flags := 0 } else { bits := b, flags := 0 }

/-- maximumNumber (R143). -/
def fMax (f : FloatFmt) (a b : Nat) : FRes :=
  let x := f.value a
  let y := f.value b
  let fl := flagIf (x.isSNaN || y.isSNaN) flagNV
  if x.isNaN then { bits := if y.isNaN then f.canon else b, flags := fl }
  else if y.isNaN then { bits := a, flags := fl }
  else if y.lt x || (x.eq y && f.neg b) then { bits := a, flags := 0 } else { bits := b, flags := 0 }

/-- A comparison: its truth, and NV for a signalling NaN, or for any NaN where `strict` (LT, LE). -/
def fCmp (f : FloatFmt) (c : FCond) (a b : Nat) : Bool × BitVec 5 :=
  let x := f.value a
  let y := f.value b
  let snan := x.isSNaN || y.isSNaN
  let anyNaN := x.isNaN || y.isNaN
  match c with
  | .eq => (x.eq y, flagIf snan flagNV)
  | .lt => (x.lt y, flagIf anyNaN flagNV)
  | .le => (x.lt y || x.eq y, flagIf anyNaN flagNV)
  | .un => (anyNaN, flagIf snan flagNV)
  | .ne => (!x.eq y, flagIf snan flagNV)

/-- x with the sign of y, or with its complement. -/
def fSign (f : FloatFmt) (complement : Bool) (a b : Nat) : Nat := f.signed (f.neg b != complement) (f.mag a)

/-- A number ± m × 2ᵉ has no fraction part. -/
def isIntegral (m : Nat) (e : Int) : Bool := decide (0 ≤ e) || decide (m % 2 ^ (-e).toNat = 0)

/-- The class word (Table 7-12). -/
def fClass (f : FloatFmt) (a : Nat) : Nat :=
  let neg := if f.neg a then 8 else 0
  match f.value a with
  | .nan q => neg + (if q then 4 else 5)
  | .inf _ => neg + 3
  | .num _ m e =>
    let kind := if m = 0 then 0 else if f.mag a < 2 ^ f.frac then 1 else 2
    neg + kind + (if isIntegral m e then 16 else 0)

/-! ### The iterative functions (R200) -/

/-- VFRCP. -/
def fRcp (f : FloatFmt) (mode : RMode) (a : Nat) : FRes :=
  match f.value a with
  | .num n m e =>
    if m = 0 then { bits := f.signed n f.infEnc, flags := flagDZ }
    else
      let q := quotient 1 m
      f.round mode false n q.1 (q.2 - e)
  | .inf n => { bits := f.signed n 0, flags := 0 }
  | .nan q => f.nan !q

/-- VFRSQRT. -/
def fRsqrt (f : FloatFmt) (mode : RMode) (a : Nat) : FRes :=
  match f.value a with
  | .num n m e =>
    if m = 0 then { bits := f.signed n f.infEnc, flags := flagDZ }
    else if n then f.nan true
    else
      let q := rsqrtOf m e
      f.round mode false false q.1 q.2
  | .inf n => if n then f.nan true else { bits := 0, flags := 0 }
  | .nan q => f.nan !q

/-- The bits to which 2^f is carried. -/
def expBits : Nat := 384

/-- 2^(fr ÷ 2ᵏ) × 2^expBits from below, by the binary digits of fr: `root` is 2^(2⁻ʲ) at that scale for the digit met. -/
def exp2Frac (fr : Nat) : Nat → Nat → Nat → Nat
  | 0, _, acc => acc
  | k + 1, root, acc =>
    let r := isqrt (root * 2 ^ expBits)
    exp2Frac fr k r (if fr / 2 ^ k % 2 = 1 then acc * r / 2 ^ expBits else acc)

/-- VFEXP2 (R200): exact for an integer, else the irrational 2^x carried to 64 bits. Below −1,000 and above 1,000 every
format of R200 underflows or overflows, so the exponent is held there. -/
def fExp2 (f : FloatFmt) (mode : RMode) (a : Nat) : FRes :=
  match f.value a with
  | .num n m e =>
    let k := (-e).toNat
    let v := scaled n m e (min e 0)
    let i := v / (2 ^ k : Nat)
    let fr := (v % (2 ^ k : Nat)).toNat
    let ic := max (-1000) (min 1000 i)
    if fr = 0 then f.round mode false false 1 ic
    else
      let t := exp2Frac fr k (2 * 2 ^ expBits) (2 ^ expBits)
      f.round mode false false (sticky (t / 2 ^ (expBits - 64)) false) (ic - 65)
  | .inf n => if n then { bits := 0, flags := 0 } else { bits := f.infEnc, flags := 0 }
  | .nan q => f.nan !q

/-! ### Conversions (R144, R145, R163 to R166) -/

/-- A value into a floating-point format (Table 8-7). -/
def toFloat (f : FloatFmt) (mode : RMode) (sat : Bool) : FVal → FRes
  | .nan q => if f.canon = 0 then { bits := 0, flags := flagNV } else f.nan !q
  | .inf n =>
    if sat || f.canon = 0 then { bits := f.signed n f.maxEnc, flags := flagNV }
    else if f.hasInf then { bits := f.signed n f.infEnc, flags := 0 }
    else { bits := f.canon, flags := flagNV }
  | .num n m e => f.round mode sat n m e

/-- A number rounded to an integer in a mode, and whether it was inexact. -/
def toInteger (mode : RMode) (neg : Bool) (m : Nat) (e : Int) : Int × Bool :=
  let r := roundAt mode neg m e 0
  (if neg then -(r.1 : Int) else r.1, r.2)

/-- A floating-point value into an integer range (R144): saturation raises NV and no NX. -/
def toIntRange (mode : RMode) (lo hi : Int) : FVal → Int × BitVec 5
  | .nan _ => (hi, flagNV)
  | .inf n => (if n then lo else hi, flagNV)
  | .num n m e =>
    let r := toInteger mode n m e
    if r.1 < lo then (lo, flagNV) else if hi < r.1 then (hi, flagNV) else (r.1, flagIf r.2 flagNX)

/-- The range of an n-bit integer. -/
def intRange (n : Nat) (isSigned : Bool) : Int × Int :=
  if isSigned then (-(2 ^ (n - 1) : Nat), (2 ^ (n - 1) : Nat) - 1) else (0, (2 ^ n : Nat) - 1)

/-- An integer as a value; zero is +0. -/
def FVal.ofInt (v : Int) : FVal := .num (decide (v < 0)) v.natAbs 0

/-- The value of an E8M0 byte (R155). -/
def e8m0Value (b : Nat) : FVal := if b % 256 = 255 then .nan true else .num false 1 ((b % 256 : Nat) - 127)

/-- A value into E8M0 (R165). -/
def toE8m0 (mode : RMode) (sat : Bool) : FVal → FRes
  | .nan _ => { bits := 0xFF, flags := flagNV }
  | .inf n => if n then { bits := 0xFF, flags := flagNV } else { bits := if sat then 0xFE else 0xFF, flags := flagNV }
  | .num n m e =>
    if n || decide (m = 0) then { bits := 0xFF, flags := flagNV }
    else
      let j := floorLog2 m e
      let exact := decide (m = 2 ^ Nat.log2 m)
      let up := match mode with
        | .rtz => false
        | .rdn => false
        | .rup => !exact
        | .rne => decide (3 * 2 ^ Nat.log2 m ≤ 2 * m)
        | .rmm => decide (3 * 2 ^ Nat.log2 m ≤ 2 * m)
      let k := if up then j + 1 else j
      if 127 < k then { bits := if sat then 0xFE else 0xFF, flags := flagOF ||| flagNX }
      else if k < -127 then { bits := 0, flags := flagUF ||| flagNX }
      else { bits := (k + 127).toNat, flags := flagIf (!exact) flagNX }

/-- What a format name stands for: a floating-point format, an integer of a width, or E8M0 (Table 3-6). -/
inductive FmtKind where
  | float (f : FloatFmt)
  | int (bits : Nat) (isSigned : Bool)
  | e8m0
  deriving DecidableEq, Repr

/-- Table 3-6. -/
def fmtKind : Fmt → FmtKind
  | .fp64 => .float fp64
  | .fp32 => .float fp32
  | .fp16 => .float fp16
  | .bf16 => .float bf16
  | .e4m3 => .float e4m3
  | .e5m2 => .float e5m2
  | .e2m1 => .float e2m1
  | .int8 => .int 8 true
  | .int16 => .int 16 true
  | .int32 => .int 32 true
  | .int64 => .int 64 true
  | .nat8 => .int 8 false
  | .nat4 => .int 4 false
  | .int4 => .int 4 true
  | .e8m0 => .e8m0

/-- The value of an encoding in a format; a NAT4 or NAT8 element is a plain unsigned integer (R157). -/
def FmtKind.value (k : FmtKind) (b : Nat) : FVal :=
  match k with
  | .float f => f.value (b % 2 ^ f.width)
  | .int n s => .ofInt (if s then Machine.signed n b else (b % 2 ^ n : Nat))
  | .e8m0 => e8m0Value b

/-- An integer source into an integer destination (R164): the result and whether vsat is set. -/
def intToInt (n : Nat) (isSigned sat : Bool) (v : Int) : Nat × Bool :=
  let r := intRange n isSigned
  if r.1 ≤ v ∧ v ≤ r.2 then (wrapTo n v, false)
  else if sat then (wrapTo n (if v < r.1 then r.1 else r.2), true)
  else (wrapTo n v, false)

/-- The bits of a format's exponent field. -/
def FloatFmt.expBits (f : FloatFmt) : Nat := f.width - f.frac - 1

/-- A conversion of Table 8-8 from one floating-point format into another: every value of the source has an encoding. -/
def exactPair (src dst : FloatFmt) : Bool :=
  decide (src.width < dst.width) && decide (src.frac ≤ dst.frac) && decide (src.expBits ≤ dst.expBits) && dst.hasInf

/-- A conversion between formats (R163 to R166): the result with its flags, and vsat. An infinity stays one in the exact
conversions, whatever saturate holds (R166). -/
def convertFmt (dst src : FmtKind) (mode : RMode) (sat : Bool) (b : Nat) : FRes × Bool :=
  match dst, src with
  | .float f, .float g => (toFloat f mode (sat && !exactPair g f) (g.value b), false)
  | .float f, _ => (toFloat f mode sat (src.value b), false)
  | .e8m0, _ => (toE8m0 mode sat (src.value b), false)
  | .int n s, .int k t =>
    let r := intToInt n s sat (if t then Machine.signed k b else (b % 2 ^ k : Nat))
    ({ bits := r.1, flags := 0 }, r.2)
  | .int n s, _ =>
    let r := toIntRange mode (intRange n s).1 (intRange n s).2 (src.value b)
    ({ bits := wrapTo n r.1, flags := r.2 }, false)

/-- The width and sign of an integer type of the scalar conversions (Table 4-11). -/
def intTyShape : IntTy → Nat × Bool
  | .int64 => (64, true)
  | .nat64 => (64, false)
  | .int32 => (32, true)
  | .nat32 => (32, false)

/-- FCVTFI (R144): INT32 results are written sign-extended, NAT32 results zero-extended. -/
def fCvtToInt (f : FloatFmt) (t : IntTy) (mode : RMode) (a : Nat) : FRes :=
  let sh := intTyShape t
  let r := toIntRange mode (intRange sh.1 sh.2).1 (intRange sh.1 sh.2).2 (f.value a)
  { bits := wrapTo 64 r.1, flags := r.2 }

/-- FCVTIF (R145). -/
def fCvtFromInt (f : FloatFmt) (t : IntTy) (mode : RMode) (a : Nat) : FRes :=
  let sh := intTyShape t
  f.deliver mode (.ofInt (if sh.2 then Machine.signed sh.1 a else (a % 2 ^ sh.1 : Nat)))

/-! ### Fixed point (R161, R162) -/

/-- RoundFixed (R161). -/
def roundFixed (mode : Vrm) (v : Int) (d : Nat) : Int :=
  if d = 0 then v
  else
    let q := v / (2 ^ d : Nat)
    let rest := v % (2 ^ d : Nat)
    let half : Int := (2 ^ (d - 1) : Nat)
    match mode with
    | .near => if half < rest ∨ (rest = half ∧ 0 ≤ v) then q + 1 else q
    | .even => if half < rest ∨ (rest = half ∧ q % 2 = 1) then q + 1 else q
    | .floor => q
    | .trunc => if rest ≠ 0 ∧ v < 0 then q + 1 else q
    | .jam => if rest ≠ 0 ∧ q % 2 = 0 then q + 1 else q

/-- Clip (R162): the value in range, and whether vsat is set. -/
def clip (n : Nat) (isSigned : Bool) (v : Int) : Int × Bool :=
  let r := intRange n isSigned
  if v < r.1 then (r.1, true) else if r.2 < v then (r.2, true) else (v, false)

/-- An integer condition of VCMP (Table 4-6). -/
def condHolds (c : Cond) (n a b : Nat) : Bool :=
  let x := Machine.signed n a
  let y := Machine.signed n b
  match c with
  | .eq => decide (a = b)
  | .ne => decide (a ≠ b)
  | .lt => decide (x < y)
  | .le => decide (x ≤ y)
  | .ltn => decide (a < b)
  | .len => decide (a ≤ b)
  | .gt => decide (y < x)
  | .ge => decide (y ≤ x)
  | .gtn => decide (b < a)
  | .gen => decide (b ≤ a)

end Sys2Proof.Machine
end

