-- ==== Sys2Proof/Machine/Scalar.lean ====
section
/-! DEFINITION. Machine/Scalar.lean: the scalar parcels of 07_scalar_instructions: integer, load and store, branch and
jump (R126 to R138). -/

namespace Sys2Proof.Machine

/-! ### Shared operations -/

/-- A register result and the next parcel (R126). -/
def State.result (s : State) (d : XReg) (v : Word) : Out := .next (s.setX d v).next4

/-- An ALU function of xa and xb (R129). -/
def aluRR (o : RRR) (s : State) (f : Word → Word → Word) : Out := s.result o.d (f (s.getX o.a) (s.getX o.b))

/-- An ALU function of xa (R129). -/
def aluR (o : RR) (s : State) (f : Word → Word) : Out := s.result o.d (f (s.getX o.a))

/-- An ALU function of xa and the sign-extended immediate (R130). -/
def aluRI (o : RRI) (s : State) (f : Word → Word → Word) : Out := s.result o.d (f (s.getX o.a) (sext15 o.imm))

/-- A shift of xa by an immediate (R130). -/
def aluSh (o : RRSh) (s : State) (f : Word → Nat → Word) : Out := s.result o.d (f (s.getX o.a) o.sh.toNat)

/-- A shift count: xb[5:0] (R129). -/
def shiftCount (b : Word) : Nat := b.toNat % 64

/-- 1 or 0. -/
def boolWord (b : Bool) : Word := if b then 1 else 0

/-- S(a) < S(b). -/
def sltW (a b : Word) : Bool := decide (a.toInt < b.toInt)

/-- U(a) < U(b). -/
def sltnW (a b : Word) : Bool := decide (a.toNat < b.toNat)

/-- Divide of R131, signed: quotient and remainder. -/
def divideS (a b : Word) : Word × Word :=
  if b = 0 then (0xFFFFFFFFFFFFFFFF#64, a)
  else if a = 0x8000000000000000#64 ∧ b = 0xFFFFFFFFFFFFFFFF#64 then (a, 0)
  else
    let q := Int.tdiv a.toInt b.toInt
    (BitVec.ofInt 64 q, BitVec.ofInt 64 (a.toInt - q * b.toInt))

/-- Divide of R131, unsigned. -/
def divideU (a b : Word) : Word × Word :=
  if b = 0 then (0xFFFFFFFFFFFFFFFF#64, a) else (BitVec.ofNat 64 (a.toNat / b.toNat), BitVec.ofNat 64 (a.toNat % b.toNat))

/-- Zero bits above the highest set bit; 64 for zero. -/
def leadingZeros (a : Word) : Nat := if a = 0 then 64 else 63 - Nat.log2 a.toNat

/-- Zero bits below the lowest set bit; 64 for zero. -/
def trailingZeros (a : Word) : Nat := ((List.range 64).find? fun i => a.getLsbD i).getD 64

/-- Set bits. -/
def popCount (a : Word) : Nat := ((List.range 64).filter fun i => a.getLsbD i).length

/-! ### ALU functions (R129, R131) -/

/-- ADD (R129). -/
def execAdd (o : RRR) (s : State) : Out := aluRR o s fun a b => a + b
/-- SUB (R129). -/
def execSub (o : RRR) (s : State) : Out := aluRR o s fun a b => a - b
/-- AND (R129). -/
def execAnd (o : RRR) (s : State) : Out := aluRR o s fun a b => a &&& b
/-- OR (R129). -/
def execOr (o : RRR) (s : State) : Out := aluRR o s fun a b => a ||| b
/-- XOR (R129). -/
def execXor (o : RRR) (s : State) : Out := aluRR o s fun a b => a ^^^ b
/-- ANDN (R129). -/
def execAndn (o : RRR) (s : State) : Out := aluRR o s fun a b => a &&& ~~~b
/-- SHL (R129). -/
def execShl (o : RRR) (s : State) : Out := aluRR o s fun a b => a <<< shiftCount b
/-- SHR (R129). -/
def execShr (o : RRR) (s : State) : Out := aluRR o s fun a b => a >>> shiftCount b
/-- SHA (R129). -/
def execSha (o : RRR) (s : State) : Out := aluRR o s fun a b => a.sshiftRight (shiftCount b)
/-- MIN (R129). -/
def execMin (o : RRR) (s : State) : Out := aluRR o s fun a b => if sltW b a then b else a
/-- MAX (R129). -/
def execMax (o : RRR) (s : State) : Out := aluRR o s fun a b => if sltW a b then b else a
/-- MINN (R129). -/
def execMinn (o : RRR) (s : State) : Out := aluRR o s fun a b => if sltnW b a then b else a
/-- MAXN (R129). -/
def execMaxn (o : RRR) (s : State) : Out := aluRR o s fun a b => if sltnW a b then b else a
/-- SLT (R129). -/
def execSlt (o : RRR) (s : State) : Out := aluRR o s fun a b => boolWord (sltW a b)
/-- SLTN (R129). -/
def execSltn (o : RRR) (s : State) : Out := aluRR o s fun a b => boolWord (sltnW a b)
/-- MUL (R129). -/
def execMul (o : RRR) (s : State) : Out := aluRR o s fun a b => a * b
/-- MULH (R129). -/
def execMulh (o : RRR) (s : State) : Out := aluRR o s fun a b => BitVec.ofInt 64 (a.toInt * b.toInt / 18446744073709551616)
/-- MULHN (R129). -/
def execMulhn (o : RRR) (s : State) : Out := aluRR o s fun a b => BitVec.ofNat 64 (a.toNat * b.toNat / 18446744073709551616)
/-- DIV (R131). -/
def execDiv (o : RRR) (s : State) : Out := aluRR o s fun a b => (divideS a b).1
/-- DIVN (R131). -/
def execDivn (o : RRR) (s : State) : Out := aluRR o s fun a b => (divideU a b).1
/-- REM (R131). -/
def execRem (o : RRR) (s : State) : Out := aluRR o s fun a b => (divideS a b).2
/-- REMN (R131). -/
def execRemn (o : RRR) (s : State) : Out := aluRR o s fun a b => (divideU a b).2
/-- CLZ (R129). -/
def execClz (o : RR) (s : State) : Out := aluR o s fun a => BitVec.ofNat 64 (leadingZeros a)
/-- CTZ (R129). -/
def execCtz (o : RR) (s : State) : Out := aluR o s fun a => BitVec.ofNat 64 (trailingZeros a)
/-- POPC (R129). -/
def execPopc (o : RR) (s : State) : Out := aluR o s fun a => BitVec.ofNat 64 (popCount a)

/-! ### Immediate forms (R130, R132) -/

/-- ADDI (R130). -/
def execAddi (o : RRI) (s : State) : Out := aluRI o s fun a b => a + b
/-- ANDI (R130). -/
def execAndi (o : RRI) (s : State) : Out := aluRI o s fun a b => a &&& b
/-- ORI (R130). -/
def execOri (o : RRI) (s : State) : Out := aluRI o s fun a b => a ||| b
/-- XORI (R130). -/
def execXori (o : RRI) (s : State) : Out := aluRI o s fun a b => a ^^^ b
/-- SLTI (R130). -/
def execSlti (o : RRI) (s : State) : Out := aluRI o s fun a b => boolWord (sltW a b)
/-- SLTNI (R130): the sign-extended immediate read as unsigned. -/
def execSltni (o : RRI) (s : State) : Out := aluRI o s fun a b => boolWord (sltnW a b)
/-- SHLI (R130). -/
def execShli (o : RRSh) (s : State) : Out := aluSh o s fun a n => a <<< n
/-- SHRI (R130). -/
def execShri (o : RRSh) (s : State) : Out := aluSh o s fun a n => a >>> n
/-- SHAI (R130). -/
def execShai (o : RRSh) (s : State) : Out := aluSh o s fun a n => a.sshiftRight n
/-- LUI (R132). -/
def execLui (o : RI20) (s : State) : Out := s.result o.d (sext20 o.imm <<< 16)
/-- ADPC (R132). -/
def execAdpc (o : RI20) (s : State) : Out := s.result o.d (s.cur.pc + 8 + (sext20 o.imm <<< 16))

/-! ### Checked accesses (R134) -/

/-- CheckAccess of R134 for the issuing strand: n bytes at ea. -/
def State.access (s : State) (ea : Word) (n : Nat) (need : Need) : Except Fail Xlat × State :=
  if ea.toNat % n ≠ 0 then (.error (.trap .align), s)
  else if 2 ^ 56 ≤ ea.toNat then (.error (.trap .access), s)
  else s.translate s.cur.via s.cur.level ea.toNat need false

/-- A failed access of a parcel: its trap, or the stall at the routing stage (R134, R373). -/
def State.failed (s : State) (f : Fail) (ea : Word) (need : Need) : State :=
  match f with
  | .trap c => s.takeTrap (s.accessTrap c ea need)
  | .stall => s.stallHere

/-- The address of a load or store. -/
def effAddr (o : RRI) (s : State) : Word := s.getX o.a + sext15 o.imm

/-- The width code of n bytes (Table 4-7). -/
def widthCode (n : Nat) : BitVec 3 := BitVec.ofNat 3 (Nat.log2 n)

/-- The scoreboard entry of a scalar load whose data failed (R345). -/
def Strand.loadEntry (c : Strand) (ea : Word) (n : Nat) (d : XReg) (sx : Bool) (err : BitVec 3) : SbEntry :=
  { pc := c.pc, slot := c.slot, kind := 0, perf := false, settled := false, err := err, addr := ea, first := 0, nfail := 1
    reg := d.setWidth 6, ew := widthCode n, vector := false, sx := sx, amo := 0, age := c.age
    elems := [{ index := 0, addr := ea, value := 0, was := 0 }] }

/-- A scalar load of n bytes (R133); one whose data fails late keeps its register, and stops with LATE at once or at the next
boundary (R345, R346). -/
def scalarLoad (o : RRI) (s : State) (n : Nat) (ext : Nat → Word) : Out :=
  let ea := effAddr o s
  match s.access ea n .load with
  | (.error f, s1) => .next (s1.failed f ea .load)
  | (.ok x, s1) =>
    let s2 := (s1.touch s1.cur.via x .load).noteWatch ea.toNat n true false
    match s2.cur.lateLoad with
    | some (0 :: _, err) =>
      .next (s2.stopLoad (s2.cur.loadEntry ea n o.d (decide (ext (2 ^ (8 * n) - 1) = BitVec.allOnes 64)) err) State.next4)
    | _ =>
      if s2.cur.failsLate 0 then
        .next (s2.holdLate (s2.cur.loadEntry ea n o.d (decide (ext (2 ^ (8 * n) - 1) = BitVec.allOnes 64)) s2.cur.lateAccess.2.1)).next4
      else .next (s2.setX o.d (ext (s1.readPlace x.place n))).next4

/-- A scalar store of n bytes (R133); one that fails late has not happened (R345). -/
def scalarStore (o : RRI) (s : State) (n : Nat) : Out :=
  let ea := effAddr o s
  match s.access ea n .store with
  | (.error f, s1) => .next (s1.failed f ea .store)
  | (.ok x, s1) =>
    if s1.cur.failsLate 0 then
      .next (s1.holdLate (s1.cur.entry 1 (o.d.setWidth 6) n [{ index := 0, addr := ea, value := s.getX o.d, was := 0 }])).next4
    else .next ((s1.storeAt s1.cur.via ea.toNat x n (s.getX o.d).toNat).noteWatch ea.toNat n false true).next4

/-- The value of n bits sign-extended to 64. -/
def sextN (n v : Nat) : Word := BitVec.ofInt 64 (signed n v)

/-- LD8 (R133). -/
def execLd8 (o : RRI) (s : State) : Out := scalarLoad o s 1 (sextN 8)
/-- LD16 (R133). -/
def execLd16 (o : RRI) (s : State) : Out := scalarLoad o s 2 (sextN 16)
/-- LD32 (R133). -/
def execLd32 (o : RRI) (s : State) : Out := scalarLoad o s 4 (sextN 32)
/-- LD64 (R133). -/
def execLd64 (o : RRI) (s : State) : Out := scalarLoad o s 8 (BitVec.ofNat 64)
/-- LDN8 (R133). -/
def execLdn8 (o : RRI) (s : State) : Out := scalarLoad o s 1 (BitVec.ofNat 64)
/-- LDN16 (R133). -/
def execLdn16 (o : RRI) (s : State) : Out := scalarLoad o s 2 (BitVec.ofNat 64)
/-- LDN32 (R133). -/
def execLdn32 (o : RRI) (s : State) : Out := scalarLoad o s 4 (BitVec.ofNat 64)
/-- ST8 (R133). -/
def execSt8 (o : RRI) (s : State) : Out := scalarStore o s 1
/-- ST16 (R133). -/
def execSt16 (o : RRI) (s : State) : Out := scalarStore o s 2
/-- ST32 (R133). -/
def execSt32 (o : RRI) (s : State) : Out := scalarStore o s 4
/-- ST64 (R133). -/
def execSt64 (o : RRI) (s : State) : Out := scalarStore o s 8

/-! ### Branches and jumps (R137, R138) -/

/-- A branch (R137): the offset counts 4-byte units from the branch's own parcel. -/
def branchOn (o : BranchOp) (s : State) (f : Word → Word → Bool) : Out :=
  if f (s.getX o.a) (s.getX o.b) then .next (s.setPc (s.cur.pc + (o.off.signExtend 64 <<< 2))) else .next s.next4

/-- BEQ (R137). -/
def execBeq (o : BranchOp) (s : State) : Out := branchOn o s fun a b => decide (a = b)
/-- BNE (R137). -/
def execBne (o : BranchOp) (s : State) : Out := branchOn o s fun a b => decide (a ≠ b)
/-- BLT (R137). -/
def execBlt (o : BranchOp) (s : State) : Out := branchOn o s sltW
/-- BGE (R137). -/
def execBge (o : BranchOp) (s : State) : Out := branchOn o s fun a b => !sltW a b
/-- BLTN (R137). -/
def execBltn (o : BranchOp) (s : State) : Out := branchOn o s sltnW
/-- BGEN (R137). -/
def execBgen (o : BranchOp) (s : State) : Out := branchOn o s fun a b => !sltnW a b

/-- JAL (R138). -/
def execJal (o : RI20) (s : State) : Out :=
  .next ((s.setX o.d (s.cur.pc + 4)).setPc (s.cur.pc + (sext20 o.imm <<< 2)))

/-- JALR (R138). -/
def execJalr (o : RRI) (s : State) : Out :=
  let t := s.getX o.a + sext15 o.imm
  if t.toNat % 4 ≠ 0 then .next (s.trap .align t) else .next ((s.setX o.d (s.cur.pc + 4)).setPc t)

end Sys2Proof.Machine
end

