-- ==== Sys2Proof/Machine/Atomic.lean ====
section
/-! DEFINITION. Machine/Atomic.lean: AMO, CLAIM and FENCE (R317 to R324), and the completions an AMO to a host window waits
for (R320, R384, R385). -/

namespace Sys2Proof.Machine

/-! ### The operations of Table 4-10 -/

/-- The new value of an operation on n bytes (R318): none where a CAS writes nothing. -/
def amoNew (op n old b c : Nat) : Option Nat :=
  let w := 8 * n
  let m := 2 ^ w
  match op with
  | 0 => some ((old + b) % m)
  | 1 => some b
  | 2 => some (old &&& b)
  | 3 => some (old ||| b)
  | 4 => some (old ^^^ b)
  | 5 => some (if signed w b < signed w old then b else old)
  | 6 => some (if signed w old < signed w b then b else old)
  | 7 => some (min old b)
  | 8 => some (max old b)
  | _ => if old = c then some b else none

/-- xd of an AMO: 32-bit results are sign-extended (R318). -/
def amoResult (n old : Nat) : Word := if n = 8 then BitVec.ofNat 64 old else sextN 32 old

/-- The PCIe AtomicOps: FetchAdd, Swap and CAS (R384). -/
def isAtomicOp (op : Nat) : Bool := op = 0 || op = 1 || op = 9

/-- The code of an order (Table 4-10). -/
def orderCode : AmoOrder → Nat
  | .relaxed => 0
  | .acquire => 1
  | .release => 2
  | .acqRel => 3

/-- n bytes written at a place by an AMO, with A and D, and the doorbell; a CAS that writes nothing is a read (R318). -/
def State.amoWrite (s : State) (va : Nat) (x : Xlat) (n : Nat) (new : Option Nat) : State :=
  match new with
  | none => s.touch s.cur.via x .load
  | some v => ((s.touch s.cur.via x .amo).writePlace x.place n v).bell s.cur.part va n

/-- A proxy request (R384): VERB 0x20 of TYPE 5 to the session of the window; the value that a CAS compares with is its
alone (R382). -/
def proxyMessage (f : AmoFlight) : OutMsg :=
  { session := f.session, type := 5, verb := 0x20, seq := 0, status := 0
    payload := [BitVec.ofNat 8 f.op, BitVec.ofNat 8 f.n, BitVec.ofNat 8 f.order, 0, 0, 0, 0, 0] ++ leBytes 8 f.addr ++
      leBytes 8 f.b ++ leBytes 8 (if f.op = 9 then f.c else 0) }

/-- The strand sends the proxy request and waits for its response, or, with FB = 0, raises HOSTATOM (R384). -/
def State.proxyOrTrap (s : State) (f : AmoFlight) : State :=
  if f.fb then (s.send (proxyMessage f)).withCur { s.cur with run := .proxyWait, amo := some f }
  else (s.withCur { s.cur with run := .running, amo := none }).trap .hostatom f.va

/-- The group that carries an access: which of those that may is a free value (R373, log 6). -/
def State.carrier (s : State) (w : Window) (a : Nat) : Nat × State :=
  let gs := (routeGroups w a).filter fun g => (s.group? g).any fun p => groupServes p w.kind
  let r := s.takeFree
  ((gs[r.1.toNat % max 1 gs.length]?).getD 0, r.2)

/-- An AMO routed to a host window: an AtomicOp whose completion the strand waits for, or the proxy (R320, R384). -/
def State.amoOut (s : State) (op n order b c : Nat) (va : Word) (d : XReg) (x : Xlat) (w : Window) : State :=
  let r := s.carrier w (x.place.addr - w.hbase)
  let f : AmoFlight := { op := op, n := n, order := order, va := va, b := b, c := c, d := d, addr := x.place.addr
                         session := w.session, fb := w.fb, groups := w.groups, group := r.1, leaf := x.leaf, gen := s.cur.gen, drains := 0 }
  if isAtomicOp op then r.2.withCur { r.2.cur with run := .atomicWait, amo := some f } else r.2.proxyOrTrap f

/-- The entry of an AMO or a CLAIM that has failed late (R345): PERF says whether its update is known to be performed, and `amo`
is its operation, or 15. -/
def Strand.lateAmo (k : Strand) (op n : Nat) (va : Word) (b c : Nat) (d : XReg) : SbEntry :=
  { k.entry 2 (d.setWidth 6) n [{ index := 0, addr := va, value := BitVec.ofNat 64 b, was := BitVec.ofNat 64 c }] with
    perf := k.lateAccess.2.2, sx := true, amo := BitVec.ofNat 4 op }

/-- An AMO (R318, R320): at once toward device, CXL and peer memory; toward a host window as `State.amoOut`. One that fails late
gives no value, and has not happened unless its update is performed (R345). -/
def amo (op : Nat) (o : AmoOp) (s : State) : Out :=
  let n := if o.w32 then 4 else 8
  let va := s.getX o.a
  let b := (s.getX o.b).toNat % 2 ^ (8 * n)
  let c := (s.getX o.d).toNat % 2 ^ (8 * n)
  match s.access va n .amo with
  | (.error f, s1) => .next (s1.failed f va .amo)
  | (.ok x, s1) =>
    match x.place.host, x.win with
    | true, some w => .next (s1.amoOut op n (orderCode o.order) b c va o.d x w)
    | _, _ =>
      let old := s1.readPlace x.place n
      let s2 := (s1.amoWrite va.toNat x n (amoNew op n old b c)).noteWatch va.toNat n true true
      if s1.cur.failsLate 0 then
        let e := s1.cur.lateAmo op n va b c o.d
        .next ((if e.perf then s2 else s1).holdLate e).next4
      else .next (s2.setX o.d (amoResult n old)).next4

/-- AMO_ADD (R318). -/
def execAmoAdd (o : AmoOp) (s : State) : Out := amo 0 o s
/-- AMO_SWAP (R318). -/
def execAmoSwap (o : AmoOp) (s : State) : Out := amo 1 o s
/-- AMO_AND (R318). -/
def execAmoAnd (o : AmoOp) (s : State) : Out := amo 2 o s
/-- AMO_OR (R318). -/
def execAmoOr (o : AmoOp) (s : State) : Out := amo 3 o s
/-- AMO_XOR (R318). -/
def execAmoXor (o : AmoOp) (s : State) : Out := amo 4 o s
/-- AMO_MIN (R318). -/
def execAmoMin (o : AmoOp) (s : State) : Out := amo 5 o s
/-- AMO_MAX (R318). -/
def execAmoMax (o : AmoOp) (s : State) : Out := amo 6 o s
/-- AMO_MINN (R318). -/
def execAmoMinn (o : AmoOp) (s : State) : Out := amo 7 o s
/-- AMO_MAXN (R318). -/
def execAmoMaxn (o : AmoOp) (s : State) : Out := amo 8 o s
/-- AMO_CAS (R318). -/
def execAmoCas (o : AmoOp) (s : State) : Out := amo 9 o s

/-! ### Completions toward a host window (R384, R385) -/

/-- The old value has arrived: the host location holds the new value, A and D are set in the leaf that the AMO was reached
through, xd holds the old value, and the AMO retires (R318, R384). -/
def State.finishAmo (s : State) (f : AmoFlight) (old : Word) : State :=
  let o := old.toNat % 2 ^ (8 * f.n)
  let new := amoNew f.op f.n o f.b f.c
  let s1 := match f.leaf with
    | none => s
    | some l => s.touchLeaf s.cur.via l (if new.isSome then .amo else .load)
  let s2 := match new with
    | none => s1
    | some v => (s1.writePlace { host := true, addr := f.addr } f.n v).bell s1.cur.part f.va.toNat f.n
  let s3 := s2.noteWatch f.va.toNat f.n true true
  ((s3.withCur { s3.cur with run := .running, amo := none }).setX f.d (amoResult f.n o)).next4.retireParcel

/-- The AMO that the strand waits for, if it is of the task that the strand holds (R364). -/
def Strand.awaited (c : Strand) : Option AmoFlight := c.amo.filter fun f => decide (f.gen = c.gen)

/-- A completion for a strand is that of a task that has ended, where one is still to come and the strand waits for none, or
where both are and a free value says so (R364, log 6): it is discarded and counted. -/
def State.staleFor (s : State) (who : StrandId) : Bool × State :=
  match s.strays.find? fun x => x.1 = who with
  | none => (false, s)
  | some x =>
    let r := s.takeFree
    if (s.strands.any fun c => c.id = who && c.awaited.isSome) && r.1.getLsbD 0 then (false, r.2)
    else (true, { r.2 with strays := r.2.strays.erase x }.mapPart x.2 fun q => { q with stale := q.stale + 1 })

/-- What a completion does to the AMO that a strand waits for in a state of `run`. -/
def State.onAmo (s : State) (who : StrandId) (run : Run) (f : State → AmoFlight → State) : State :=
  match s.staleFor who with
  | (true, s1) => s1
  | (false, s1) => s1.onStrand who fun t =>
    match t.cur.awaited with
    | some a => if t.cur.run = run then f t a else t
    | none => t

/-- ATOMICOP_COMPLETION (R384): the AMO completes, or, where the completer refuses it, goes by the proxy. -/
def execAtomicopCompletion (who : StrandId) (ok : Bool) (old : Word) (s : State) : Out :=
  .next (s.onAmo who .atomicWait fun t f => if ok then t.finishAmo f old else t.proxyOrTrap f)

/-- PROXY_RESPONSE (R384): the AMO completes and the partition's proxy count rises, or HOSTATOM. -/
def execProxyResponse (who : StrandId) (ok : Bool) (old : Word) (s : State) : Out :=
  .next (s.onAmo who .proxyWait fun t f =>
    if ok then (t.mapPart t.cur.part fun q => { q with proxies := q.proxies + 1 }).finishAmo f old
    else (t.withCur { t.cur with run := .running, amo := none }).trap .hostatom f.va)

/-- The scoreboard entry of an AMO whose completion did not arrive (R385): ERR 2, PERF 1. -/
def Strand.amoEntry (k : Strand) (f : AmoFlight) : SbEntry :=
  { pc := k.pc, slot := 0, kind := 2, perf := true, settled := false, err := 2, addr := f.va, first := 0, nfail := 1
    reg := f.d.setWidth 6, ew := if f.n = 4 then 2 else 3, vector := false, sx := true, amo := BitVec.ofNat 4 f.op
    elems := [{ index := 0, addr := f.va, value := BitVec.ofNat 64 f.b, was := BitVec.ofNat 64 f.c }], age := k.age }

/-- ATOMIC_TIMEOUT (R385): LATE is held for the next boundary, with the AMO pending. -/
def execAtomicTimeout (who : StrandId) (s : State) : Out :=
  .next (s.onStrand who fun t =>
    match t.cur.awaited with
    | none => t
    | some f =>
      let c := t.cur
      (t.withCur { c.older with run := .running, amo := none, lateHeld := c.lateHeld ++ [c.amoEntry f] }).next4)

/-! ### CLAIM (R321, R322) -/

/-- VOWNER of CLAIM: the Landing's own switch on a task context (R359), else a trap with trval 0 (R322). -/
def State.claimVowner (s : State) : State :=
  if 0x8000 ≤ s.cur.ctxid.toNat then s.vectorSwitch else s.trap .vowner 0

/-- CLAIM (R322): MODE and VOWNER have trval 0. One that fails late grants nothing, and has not happened unless its update is
performed (R345). -/
def execClaim (o : RRR) (s : State) : Out :=
  let va := s.getX o.a
  if s.cur.vec.mmode then .next (s.trap .mode 0)
  else if s.cur.vowner ≠ s.cur.ctxid then .next s.claimVowner
  else
    match s.access va 16 .amo with
    | (.error f, s1) => .next (s1.failed f va .amo)
    | (.ok x, s1) =>
      if x.place.host || decide (rangeOf x.place.addr ≠ .gddr) then .next (s1.takeTrap (s1.accessTrap .access va .amo))
      else
        let next := s1.readPlace x.place 8
        let limit := s1.readPlace { x.place with addr := x.place.addr + 8 } 8
        let g := min (s1.getX o.b).toNat (min s1.cur.vlmax (limit - next))
        let s2 := s1.amoWrite va.toNat x 8 (some ((next + g) % 2 ^ 64))
        let s3 := (s2.noteWatch va.toNat 16 true false).noteWatch va.toNat 8 false true
        if s1.cur.failsLate 0 then
          let e := s1.cur.lateAmo 15 8 va (s1.getX o.b).toNat 0 o.d
          .next ((if e.perf then s3 else s1).holdLate e).next4
        else .next ((s3.withVec { s3.cur.vec with vl := g, vstart := 0 }).setX o.d (BitVec.ofNat 64 next)).next4

/-! ### FENCE (R324) -/

/-- Every command entered into a queue is performed, or the queue has halted at it or at an earlier one (R324). -/
def EngineQueue.quiet (q : EngineQueue) : Bool := q.halted || q.entries.isEmpty

/-- Every command the strand has entered is performed, or held by a halted queue (R324). -/
def Strand.commandsDone (k : Strand) : Bool := k.queues.toList.all EngineQueue.quiet

/-- FENCE (R324): every access is performed in one order here (log 4), so only E waits. -/
def execFence (o : FenceOp) (s : State) : Out :=
  if o.e && !s.cur.commandsDone then .next (s.withCur { s.cur with run := .fenceE }) else .next s.next4

/-- FENCE_E_WAIT_DONE (R324). -/
def execFenceEWaitDone (who : StrandId) (s : State) : Out :=
  .next (s.onStrand who fun t =>
    if t.cur.run = .fenceE && t.cur.commandsDone then ((t.withCur { t.cur with run := .running }).next4).retireParcel
    else t)

end Sys2Proof.Machine
end

