-- ==== Sys2Proof/Machine/Csr.lean ====
section
/-! DEFINITION. Machine/Csr.lean: the CSR instructions (R147 to R150), what a read of every CSR of Table 6-3 gives, what a
write does, and the side effects of the writes of lanegrant, ctxid, vowner and pcntsel (R109, R110, R359, R393). -/

namespace Sys2Proof.Machine

/-! ### Rights (Table 6-3, R113, R149) -/

/-- Who may write a CSR: nobody below F level, S and F, or every level. -/
inductive WriteRight where
  | none | super | all
  deriving DecidableEq, Repr

/-- The write rights of Table 6-3; every level may read every CSR. -/
def csrRight : Csr → WriteRight
  | .vl => .none | .vlmax => .none | .vstart => .all | .vtype => .none | .vnreg => .none | .vrm => .all | .vsat => .all
  | .frm => .all | .fflags => .all | .lanegrant => .super | .planebase => .all | .mmode => .none | .lidx _ => .none
  | .partid => .none | .strandid => .none | .coreid => .none
  | .trpc => .all | .trcause => .none | .trval => .none | .trstat => .none | .trvec => .all | .trscratch => .all
  | .trpend => .none | .trslot => .none | .trpages => .none | .trpcount => .none
  | .vowner => .super | .ctxid => .super | .arenabase => .none | .arenabound => .none
  | .watch _ => .all | .wctl _ => .all | .cycle => .none | .convoys => .none | .pcnt _ => .all | .pcntsel => .all

/-- The CSRs of the vector part (Table 6-3, R112). -/
def csrVector : Csr → Bool
  | .vl => true | .vlmax => true | .vstart => true | .vtype => true | .vnreg => true | .vrm => true | .vsat => true
  | .planebase => true | .mmode => true
  | .frm => false | .fflags => false | .lanegrant => false | .lidx _ => false
  | .partid => false | .strandid => false | .coreid => false
  | .trpc => false | .trcause => false | .trval => false | .trstat => false | .trvec => false | .trscratch => false
  | .trpend => false | .trslot => false | .trpages => false | .trpcount => false
  | .vowner => false | .ctxid => false | .arenabase => false | .arenabound => false
  | .watch _ => false | .wctl _ => false | .cycle => false | .convoys => false | .pcnt _ => false | .pcntsel => false

/-- A level may write a CSR. -/
def mayWrite (l : Level) (c : Csr) : Bool :=
  match l, csrRight c with
  | .f, _ => true
  | _, .all => true
  | .s, .super => true
  | .s, .none => false
  | .a, .super => false
  | .a, .none => false

/-! ### Reading -/

/-- The code of an element width (Table 4-7). -/
def ewCode : EW → Nat
  | .e8 => 0
  | .e16 => 1
  | .e32 => 2
  | .e64 => 3

/-- vtype as the CSR reads (Table 6-5). -/
def VecPart.vtype (v : VecPart) : Nat :=
  (if v.mz then 64 else 0) + (if v.virt then 32 else 0) + (if v.seg then 16 else 0) + (if v.tp then 8 else 0) + ewCode v.ew

/-- The code of a level (Table 6-9). -/
def levelCode : Level → Nat
  | .a => 0
  | .s => 1
  | .f => 2

/-- The code of a fixed-point rounding mode (Table 6-3). -/
def vrmCode : Vrm → Nat
  | .near => 0
  | .even => 1
  | .floor => 2
  | .trunc => 3
  | .jam => 4

/-- The code of a floating-point rounding mode (Table 8-4). -/
def frmCode : RMode → Nat
  | .rne => 0
  | .rtz => 1
  | .rdn => 2
  | .rup => 3
  | .rmm => 4

/-- The issuing strand's core changed. -/
def State.mapCore (s : State) (f : CoreState → CoreState) : State :=
  { s with cores := if s.cores.any (fun k => k.core = s.cur.id.core)
      then s.cores.map fun k => if k.core = s.cur.id.core then f k else k
      else f (.reset s.cur.id.core) :: s.cores }

/-- A CSR read: its value and the state, in which cycle and the counters of clocks have moved on by free amounts
(R148, R150, log 7). -/
def State.csrRead (s : State) (c : Csr) : Word × State :=
  let k := s.cur
  let n (v : Nat) : Word × State := (BitVec.ofNat 64 v, s)
  match c with
  | .vl => n k.vec.vl
  | .vlmax => n k.vlmax
  | .vstart => n k.vec.vstart
  | .vtype => n k.vec.vtype
  | .vnreg => n k.vec.vnreg
  | .vrm => n (vrmCode k.vec.vrm)
  | .vsat => n (if k.vec.vsat then 1 else 0)
  | .frm => n (frmCode k.frm)
  | .fflags => n k.fflags.toNat
  | .lanegrant => n k.lanegrant.toNat
  | .planebase => n (k.vec.planebase.toNat * 65536)
  | .mmode => n (if k.vec.mmode then 1 else 0)
  | .lidx i => (k.lidx[i.toNat], s)
  | .partid => n k.part
  | .strandid => n k.strandid.toNat
  | .coreid => n k.coreid.toNat
  | .trpc => (k.trpc, s)
  | .trcause => (k.trcause, s)
  | .trval => (k.trval, s)
  | .trstat => n ((if k.trIn then 256 else 0) + levelCode k.trLvl)
  | .trvec => n k.trvec.toNat
  | .trscratch => (k.trscratch, s)
  | .trpend => (k.trpend, s)
  | .trslot => n k.trslot.toNat
  | .trpages => (k.trpages, s)
  | .trpcount => (k.trpcount, s)
  | .vowner => n k.vowner.toNat
  | .ctxid => n k.ctxid.toNat
  | .arenabase => (k.arenabase, s)
  | .arenabound => (k.arenabound, s)
  | .watch i => (k.watch[i.toNat], s)
  | .wctl i => (k.wctl[i.toNat], s)
  | .cycle =>
    let r := s.takeFree
    let v := k.cycle + r.1
    (v, r.2.withCur { r.2.cur with cycle := v })
  | .convoys => (k.convoys, s)
  | .pcnt i =>
    let s1 := s.settleCounter k.id.core i
    (s1.coreOf.pcnt[i.toNat], s1)
  | .pcntsel => n (s.coreOf.events[s.coreOf.idx.toNat].toNat * 256 + s.coreOf.idx.toNat)

/-! ### Writes with side effects -/

/-- A run of 1, 2, 4 or 8 set bits that starts at a multiple of its length, or 0x00 (R109). -/
def grantShape (g : BitVec 8) : Bool :=
  g = 0 || [1, 2, 4, 8].any fun n => (List.range (8 / n)).any fun k => decide (g.toNat = (2 ^ n - 1) * 2 ^ (n * k))

/-- Another strand of the core that holds a task holds one of the lane groups. -/
def State.lanesHeld (s : State) (g : BitVec 8) : Bool :=
  s.others.any fun c => c.id.core = s.cur.id.core && c.task.isSome && decide (c.lanegrant &&& g ≠ 0)

/-- Every stream unbound (R110, R176, R246). -/
def VecPart.unbindAll (v : VecPart) : VecPart :=
  { v with streams := v.streams.map fun t => t.unbind }

/-- An accepted write that changes lanegrant (R110, R262): vl, vstart, the vector and mask registers, the bindings and the
tile state are reset. -/
def Strand.regrant (c : Strand) (g : BitVec 8) : Strand :=
  { c with
    lanegrant := g
    vec := { c.vec.unbindAll with
      vl := 0, vstart := 0, v := [], m := Vector.replicate 7 0, mf := 0, ms := 0
      slices := List.replicate (laneCount g) .reset } }

/-- A write of lanegrant (R109): in matrix mode, of another shape, or of held lane groups, it changes nothing. -/
def State.writeLanegrant (s : State) (v : Word) : State :=
  let g := v.setWidth 8
  if s.cur.vec.mmode || !grantShape g || s.lanesHeld g || decide (g = s.cur.lanegrant) then s
  else s.withCur (s.cur.regrant g)

/-- A context value that a level may write: F level any (R113), another a software context or the task context of the strand's
task (R359). -/
def contextAccepted (c : Strand) (x : BitVec 16) : Bool :=
  decide (c.level = .f) || decide (x.toNat < 0x8000) || decide (x = c.taskCtx)

/-- A write of ctxid (R359). -/
def State.writeCtxid (s : State) (v : Word) : State :=
  let x := v.setWidth 16
  if contextAccepted s.cur x then s.withCur { s.cur with ctxid := x } else s

/-- A write of vowner (R359): it relabels the vector state. The Landing keeps the vector part of a task context whose label
is taken away, for its own switch back; relabelling to a task context drops what it kept (DESIGN CHOICE, log 16). -/
def State.writeVowner (s : State) (v : Word) : State :=
  let x := v.setWidth 16
  let c := s.cur
  if !contextAccepted c x then s
  else
    let rest := s.saved.filter fun p => p.1 ≠ x
    let kept := if 0x8000 ≤ c.vowner.toNat ∧ c.vowner ≠ x ∧ !(rest.any fun p => p.1 = c.vowner)
      then (c.vowner, c.vec) :: rest else rest
    { s with saved := kept, cur := { c with vowner := x } }

/-- A write of pcntsel (R393): IDX is set and EVENT assigned to the counter IDX, whose count so far stands; an event Table
23-4 does not list is not accepted. -/
def State.writePcntsel (s : State) (v : Word) : State :=
  let idx := v.setWidth 4
  let ev : BitVec 8 := (v >>> 8).setWidth 8
  if 0x0F < ev.toNat then s
  else (s.settleCounter s.cur.id.core idx).mapCore fun k => { k with idx := idx, events := k.events.set idx.toNat ev }

/-- A value of vrm (Table 6-3). -/
def vrmOf : Nat → Option Vrm
  | 0 => some .near
  | 1 => some .even
  | 2 => some .floor
  | 3 => some .trunc
  | 4 => some .jam
  | _ => none

/-- A value of frm (Table 8-4). -/
def frmOf : Nat → Option RMode
  | 0 => some .rne
  | 1 => some .rtz
  | 2 => some .rdn
  | 3 => some .rup
  | 4 => some .rmm
  | _ => none

/-- A value of an element width field. -/
def ewOf : Nat → Option EW
  | 0 => some .e8
  | 1 => some .e16
  | 2 => some .e32
  | 3 => some .e64
  | _ => none

/-- A value of a level field. -/
def levelOf : Nat → Option Level
  | 0 => some .a
  | 1 => some .s
  | 2 => some .f
  | _ => none

/-- A CSR written (R148): reserved bits are ignored, and a value that a field does not accept leaves the CSR unchanged
(R113). What the CSRs that only F level writes accept beyond their ranges Table 6-3 does not say: vl takes no more than vlmax; vlmax, which
R114 fixes, stays as it is; partid, strandid, coreid and trslot take the low bits of the value; trpcount refuses a COUNT above 256
(DESIGN CHOICE, log 52). A task that has written planebase uses the Larder (R215). -/
def State.csrWrite (s : State) (c : Csr) (v : Word) : State :=
  let k := s.cur
  let n := v.toNat
  match c with
  | .vl => s.withVec { k.vec with vl := min n k.vlmax }
  | .vlmax => s
  | .vstart => if n < k.vlmax then s.withVec { k.vec with vstart := n } else s
  | .vtype =>
    match ewOf (n % 8) with
    | none => s
    | some e => s.withVec { k.vec with
        mz := v.getLsbD 6, virt := v.getLsbD 5, seg := v.getLsbD 4, tp := v.getLsbD 3, ew := e }
  | .vnreg => if n = 8 ∨ n = 16 ∨ n = 32 ∨ n = 64 then s.withVec { k.vec with vnreg := n } else s
  | .vrm =>
    match vrmOf (n % 8) with
    | none => s
    | some r => s.withVec { k.vec with vrm := r }
  | .vsat => s.withVec { k.vec with vsat := v.getLsbD 0 }
  | .frm =>
    match frmOf (n % 8) with
    | none => s
    | some r => s.withCur { k with frm := r }
  | .fflags => s.withCur { k with fflags := v.setWidth 5 }
  | .lanegrant => s.writeLanegrant v
  | .planebase =>
    let b := n / 65536 % 4096
    if b ≤ 0xBF0 then s.withCur { k with usedLarder := true, vec := { k.vec with planebase := BitVec.ofNat 12 b } } else s
  | .mmode => s.withVec { k.vec with mmode := v.getLsbD 0 }
  | .lidx i => s.withCur { k with lidx := k.lidx.set i.toNat v }
  | .partid => s.withCur { k with part := n % 64 }
  | .strandid => s.withCur { k with strandid := v.setWidth 3 }
  | .coreid => s.withCur { k with coreid := v.setWidth 6 }
  | .trpc => s.withCur { k with trpc := v }
  | .trcause => s.withCur { k with trCode := v.setWidth 8, trRk := (v >>> 8).setWidth 3 }
  | .trval => s.withCur { k with trval := v }
  | .trstat =>
    match levelOf (n % 4) with
    | none => s
    | some l => s.withCur { k with trIn := v.getLsbD 8, trLvl := l }
  | .trvec => if n % 8 = 0 then s.withCur { k with trvec := v.setWidth 32 } else s
  | .trscratch => s.withCur { k with trscratch := v }
  | .trpend => s.withCur { k with trpend := v }
  | .trslot => s.withCur { k with trslot := v.setWidth 2 }
  | .trpages => s.withCur { k with trpages := v }
  | .trpcount => if n % 512 ≤ 256 then s.withCur { k with trpcount := v &&& 0x80000000000001FF#64 } else s
  | .vowner => s.writeVowner v
  | .ctxid => s.writeCtxid v
  | .arenabase => s.withCur { k with arenabase := BitVec.ofNat 64 (n % 2 ^ 52 / 4096 * 4096) }
  | .arenabound => s.withCur { k with arenabound := BitVec.ofNat 64 (n % 2 ^ 52 / 4096 * 4096) }
  | .watch i => s.withCur { k with watch := k.watch.set i.toNat (BitVec.ofNat 64 (n % 2 ^ 56)) }
  | .wctl i =>
    if n / 256 % 16 ≤ 12 then s.withCur { k with wctl := k.wctl.set i.toNat (v &&& 0xF0E#64) } else s
  | .cycle => s.withCur { k with cycle := v }
  | .convoys => s.withCur { k with convoys := v }
  | .pcnt i => s.mapCore fun q => { q with pcnt := q.pcnt.set i.toNat v, stirred := q.stirred.set i.toNat false }
  | .pcntsel => s.writePcntsel v

/-! ### The instructions (R148, R149) -/

/-- The checks of R149 after ILLEGAL: PRIV, then VOWNER. -/
def csrCheck (c : Strand) (r : Csr) (writes : Bool) : Option Cause :=
  if writes && !mayWrite c.level r then some .priv
  else if csrVector r && decide (c.vowner ≠ c.ctxid) then some .vowner
  else none

/-- A read-modify-write of a CSR: xd receives the old value. -/
def csrModify (o : CsrRmw) (s : State) (f : Word → Word → Word) : Out :=
  match csrCheck s.cur o.csr true with
  | some c => .next (s.decodeTrap c)
  | none =>
    let r := s.csrRead o.csr
    .next ((r.2.csrWrite o.csr (f r.1 (s.getX o.a))).setX o.d r.1).next4

/-- CSRGET (R148). -/
def execCsrget (o : CsrGet) (s : State) : Out :=
  match csrCheck s.cur o.csr false with
  | some c => .next (s.decodeTrap c)
  | none =>
    let r := s.csrRead o.csr
    .next (r.2.setX o.d r.1).next4

/-- CSRPUT (R148): it reads nothing. -/
def execCsrput (o : CsrPut) (s : State) : Out :=
  match csrCheck s.cur o.csr true with
  | some c => .next (s.decodeTrap c)
  | none => .next (s.csrWrite o.csr (s.getX o.a)).next4

/-- CSRSWAP (R148). -/
def execCsrswap (o : CsrRmw) (s : State) : Out := csrModify o s fun _ a => a
/-- CSRSET (R148). -/
def execCsrset (o : CsrRmw) (s : State) : Out := csrModify o s fun old a => old ||| a
/-- CSRCLR (R148). -/
def execCsrclr (o : CsrRmw) (s : State) : Out := csrModify o s fun old a => old &&& ~~~a

/-! ### The steps inside a CSR write (95_what_each_step_holds) -/

/-- LANEGRANT_WRITE (R109, R110). -/
def execLanegrantWrite (v : Word) (s : State) : Out := .next (s.writeLanegrant v)
/-- CTXID_WRITE (R359). -/
def execCtxidWrite (v : Word) (s : State) : Out := .next (s.writeCtxid v)
/-- VOWNER_WRITE (R359). -/
def execVownerWrite (v : Word) (s : State) : Out := .next (s.writeVowner v)
/-- PCNTSEL_WRITE (R393). -/
def execPcntselWrite (v : Word) (s : State) : Out := .next (s.writePcntsel v)

end Sys2Proof.Machine
end

