-- ==== Sys2Proof/Machine/Panels.lean ====
section
/-! DEFINITION. Machine/Panels.lean: slice-panels as bit planes in the Larder, the planes an element needs, and elements
read at a declared precision (R253, R265 to R267). -/

namespace Sys2Proof.Machine

/-- The width of the encodings of a format (Table 3-6). -/
def fmtWidth : Fmt → Nat
  | .fp64 => 64
  | .fp32 => 32
  | .fp16 => 16
  | .bf16 => 16
  | .e4m3 => 8
  | .e5m2 => 8
  | .e2m1 => 4
  | .int8 => 8
  | .int16 => 16
  | .int32 => 32
  | .int64 => 64
  | .nat8 => 8
  | .nat4 => 4
  | .int4 => 4
  | .e8m0 => 8

/-- The bytes of a slice-panel. -/
def panelBytes : Nat := 8192

/-- The Larder offset of panel n of slice j (R265). -/
def Strand.panelAt (c : Strand) (n j : Nat) : Nat := c.vec.planebase.toNat * 65536 + 65536 * n + 8192 * j

/-- The plane record of the slice-panel at an offset of a core's Larder: 16 unless QPLOAD set it (R266). -/
def State.planeRecord (s : State) (core : BitVec 6) (off : Nat) : Nat :=
  (SMap.get 16#5 s.planes ((larderBase core + off) / panelBytes)).toNat

/-- The plane record of a slice-panel set by QPLOAD. -/
def State.setPlaneRecord (s : State) (core : BitVec 6) (off n : Nat) : State :=
  { s with planes := SMap.set 16#5 s.planes ((larderBase core + off) / panelBytes) (BitVec.ofNat 5 n) }

/-- The zeros below the lowest set bit. -/
def lowZeros : Nat → Nat → Nat
  | 0, _ => 0
  | fuel + 1, v => if v = 0 ∨ v % 2 = 1 then 0 else 1 + lowZeros fuel (v / 2)

/-- The bits that hold a natural number. -/
def bitLength (v : Nat) : Nat := if v = 0 then 0 else Nat.log2 v + 1

/-- The planes an element of a format needs (Table 14-2). -/
def planeNeed (f : Fmt) (enc : Nat) : Nat :=
  match fmtKind f with
  | .int n true =>
    let x := signed n enc
    bitLength (if 0 ≤ x then x.toNat else (-x - 1).toNat) + 1
  | .int _ false => max 1 (bitLength enc)
  | .float g =>
    match g.value enc with
    | .num _ m _ => if m = 0 then 1 else g.frac + 1 - lowZeros (g.frac + 1) m
    | .inf _ => 1
    | .nan _ => 1
  | .e8m0 => 1

/-- An encoding read at p planes (R267); an infinity or a NaN needs one plane and is read as it is. -/
def declared (f : Fmt) (p enc : Nat) : Nat :=
  match fmtKind f with
  | .int n true => if n ≤ p then enc else wrapTo n (signed p enc)
  | .int n false => if n ≤ p then enc else enc % 2 ^ p
  | .float g =>
    match g.value enc with
    | .num _ _ _ => if g.frac + 1 ≤ p then enc else enc / 2 ^ (g.frac + 1 - p) * 2 ^ (g.frac + 1 - p)
    | .inf _ => enc
    | .nan _ => enc
  | .e8m0 => enc

/-- Bits b of words, gathered into one number: bit i is bit k of the i-th word. -/
def gatherBit (k : Nat) : List Nat → Nat
  | [] => 0
  | w :: t => w / 2 ^ k % 2 + 2 * gatherBit k t

/-- Row r of the slice-panel at an absolute Larder address: its 32 encodings (R265). -/
def State.panelRow (s : State) (a : Nat) (f : Fmt) (r : Nat) : List Nat :=
  let ws := (List.range (fmtWidth f)).map fun b => s.larder.readLE (a + 512 * b + 4 * r) 4
  (List.range 32).map fun k => gatherBit k ws

/-- The bytes of a slice-panel with the given rows of encodings; every other element is zero (R253, R265). -/
def panelImage (f : Fmt) (rows : List (List Nat)) : List Byte :=
  (List.range 16).flatMap fun b =>
    (List.range 128).flatMap fun r =>
      let row := rows.getD r []
      (List.range 4).map fun q =>
        if b < fmtWidth f then BitVec.ofNat 8 (gatherBit b ((row.drop (8 * q)).take 8)) else 0

/-- The plane record that QPLOAD sets: the largest need, the zero padding's among them (R266). -/
def panelNeed (f : Fmt) (rows : List (List Nat)) : Nat :=
  rows.foldl (fun a row => row.foldl (fun b e => max b (planeNeed f e)) a) 1

end Sys2Proof.Machine
end

