-- ==== Sys2Proof/Machine/Streams.lean ====
section
/-! DEFINITION. Machine/Streams.lean: STCFG, STBIND, STUNBIND, STSTAT, the arrival of a stream's fetch, and the pushes of
write streams at a convoy's retirement (R226 to R228, R243 to R247). -/

namespace Sys2Proof.Machine

/-- STCFG, STUNBIND and STSTAT are standalone and legal in either mode (R243). -/
def streamInfo (xs : List XReg) (xd : Option XReg) (_ : Strand) : WordInfo :=
  { klass := .standalone, mode := .either, xs := xs, xd := xd }

/-- STCFG. -/
def stcfgInfo (o : StcfgOp) (c : Strand) : WordInfo := streamInfo [o.a] none c
/-- STBIND: the register lies below vnreg (R71, R227), and in matrix mode below v32 (R243). -/
def stbindInfo (o : StbindOp) (c : Strand) : WordInfo :=
  { klass := .standalone, clash := decide (c.vec.vnreg ≤ o.v.toNat)
    mode := if c.vec.mmode ∧ 32 ≤ o.v.toNat then .never else .either }
/-- STUNBIND. -/
def stunbindInfo (_ : StunbindOp) (c : Strand) : WordInfo := streamInfo [] none c
/-- STSTAT. -/
def ststatInfo (o : StstatOp) (c : Strand) : WordInfo := streamInfo [] (some o.d) c

/-- The eight words at a translated place. -/
def State.blockWords (s : State) (p : Place) : List Word :=
  (List.range 8).map fun i => BitVec.ofNat 64 (s.readPlace { p with addr := p.addr + 8 * i } 8)

/-- A pattern block is malformed (R244 step 3). -/
def malformed (b : List Word) : Bool :=
  let t : Stream := { Stream.reset with pattern := b }
  let ctl := t.word 1
  decide (ctl / 128 ≠ 0) || decide (ctl / 8 % 2 ≠ 0) || decide (t.word 6 ≠ 0) || decide (t.word 7 ≠ 0) ||
    decide (3 < ctl % 8) || (t.larder && decide (2 ^ 28 ≤ t.word 0)) || decide (2 ^ 48 < t.length)

/-- A 64-byte block at a register's address, read as a plain load (R244 steps 1 and 2, R249). -/
def State.readBlock (s : State) (ea : Word) : Except Fail (List Word) × State :=
  match s.access ea 64 .load with
  | (.error f, s1) => (.error f, s1)
  | (.ok x, s1) => (.ok (s1.blockWords x.place), (s1.touch s1.cur.via x .load).noteWatch ea.toNat 64 true false)

/-- STCFG (R244). -/
def execStcfg (o : StcfgOp) (s : State) : Out :=
  vecWord (stcfgInfo o s.cur) s fun t =>
    let ea := t.getX o.a
    match t.readBlock ea with
    | (.error f, s1) => s1.failed f ea .load
    | (.ok b, s1) =>
      if malformed b then s1.trap .access ea
      else (s1.setStream o.s { Stream.reset with cfg := true, pattern := b }).next8

/-- Any binding of a register undone (R245). -/
def VecPart.unbindReg (v : VecPart) (r : VReg) : VecPart :=
  { v with streams := v.streams.map fun t => if t.bound = some r then t.unbind else t }

/-- STBIND (R245). -/
def execStbind (o : StbindOp) (s : State) : Out :=
  vecWord (stbindInfo o s.cur) s fun t =>
    if !(t.cur.stream o.s).cfg then t.trap .access (o.s.setWidth 64)
    else
      let t1 := t.withVec (t.cur.vec.unbindReg o.v)
      let st := (t1.cur.stream o.s).unbind
      let t2 := t1.setStream o.s { st with bound := some o.v, write := o.write }
      (t2.withCur { t2.cur with usedLarder := t2.cur.usedLarder || st.larder }).next8

/-- STUNBIND (R246): every older convoy has retired, and its pushes with it. -/
def execStunbind (o : StunbindOp) (s : State) : Out :=
  vecWord (stunbindInfo o s.cur) s fun t =>
    let st := t.cur.stream o.s
    if st.bound.isNone then t.next8 else (t.setStream o.s st.unbind).next8

/-- The status word of a stream (Table 12-6). -/
def Stream.status (t : Stream) : Word :=
  BitVec.ofNat 64 (t.pos % 2 ^ 48 * 65536 + t.fcode.toNat * 256 + t.ovr.toNat * 64 + t.exh.toNat * 32 + t.write.toNat * 16 +
    t.bound.isSome.toNat * 8 + t.cfg.toNat * 4)

/-- STSTAT (R247). -/
def execStstat (o : StstatOp) (s : State) : Out :=
  vecWord (ststatInfo o s.cur) s fun t => (t.setX o.d (t.cur.stream o.s).status).next8

/-- STREAM_FETCH (R227, R228): up to n further elements of a bound read stream arrive, or a fault stops it. -/
def execStreamFetch (who : StrandId) (i : BitVec 3) (n : Nat) (s : State) : Out :=
  .next (s.onStrand who fun t =>
    let st := t.cur.stream i
    if st.bound.isSome && !st.write then
      match (t.stir t.cur.id.core [6, 7, 9]).streamFetch st n with
      | (st1, t1) => t1.setStream i st1
    else t)

/-! ### Pushes at a convoy's retirement (R227) -/

/-- The positions of a strip that a push writes: active, and within the stream. -/
def Push.positions (p : Push) (t : Stream) (vl : Nat) : List Nat :=
  (List.range vl).filter fun j => p.active.getLsbD j && decide (t.pos + j < t.length)

/-- Where a push's elements go, in ascending positions, or the address and the failure of the first that fails. -/
def State.pushPlaces (s : State) (t : Stream) : List Nat → Except (Nat × Fail) (List (Nat × StreamSpot)) × State
  | [] => (.ok [], s)
  | j :: rest =>
    match s.streamPlace t (t.pos + j) .store with
    | (.error f, _, s1) => (.error (t.addr (t.pos + j), f), s1)
    | (.ok p, t1, s1) => match s1.pushPlaces t1 rest with
      | (.ok ps, s2) => (.ok ((j, p) :: ps), s2)
      | (.error e, s2) => (.error e, s2)

/-- One element pushed. -/
def State.pushElem (s : State) (t : Stream) (r : VReg) (p : Nat × StreamSpot) : State :=
  let v := s.cur.elem r t.bits p.1
  match p.2 with
  | .larder a => s.larderPut a (t.bits / 8) v
  | .mem x => s.storeAt s.cur.via (t.addr (t.pos + p.1)) x (t.bits / 8) v

/-- An element pushed to memory, the nth of its convoy, fails late on the strand `k` (R345). -/
def Strand.pushFails (k : Strand) (n : Nat) : StreamSpot → Bool
  | .larder _ => false
  | .mem _ => k.failsLate n

/-- The entry of a push's failed elements: of the convoy's last word, which the strand `k` has passed (R345). -/
def Strand.latePush (k : Strand) (t : Stream) (r : VReg) (es : List Nat) : SbEntry :=
  { k.entry 1 r (t.bits / 8) (es.map fun j =>
      ({ index := j, addr := BitVec.ofNat 64 (t.addr (t.pos + j)), value := BitVec.ofNat 64 (k.elem r t.bits j), was := 0 } : SbElem)) with
    pc := k.pc - 8, vector := true }

/-- A push: its elements in ascending order, the first of which is the nth that its convoy pushes; the position advances by vl, and
positions past the end mark the over-run. Elements that fail late on the strand `k` have not happened (R345). -/
def State.pushOne (s : State) (k : Strand) (n : Nat) (p : Push × List (Nat × StreamSpot)) : State :=
  let t := s.cur.stream p.1.s
  match t.bound with
  | none => s
  | some r =>
    let vl := s.cur.vec.vl
    let good := (p.2.zipIdx.filter fun e => !k.pushFails (n + e.2) e.1.2).map (·.1)
    let bad := (p.2.zipIdx.filter fun e => k.pushFails (n + e.2) e.1.2).map fun e => e.1.1
    let s1 := (good.foldl (fun u e => u.pushElem t r e) s).holdLate (k.latePush t r bad)
    s1.setStream p.1.s { t with pos := t.pos + vl, fcode := 0, ovr := t.ovr || decide (t.length < t.pos + vl) }

/-- The pushes of a convoy, whose elements are numbered through. -/
def State.pushFrom (s : State) (k : Strand) : Nat → List (Push × List (Nat × StreamSpot)) → State
  | _, [] => s
  | n, p :: t => (s.pushOne k n p).pushFrom k (n + p.2.length) t

/-- The places of a list of pushes, or the stream, address and failure of the first element that fails. -/
def State.placePushes (s : State) : List Push → Except (BitVec 3 × Nat × Fail) (List (Push × List (Nat × StreamSpot))) × State
  | [] => (.ok [], s)
  | p :: rest =>
    let t := s.cur.stream p.s
    match s.pushPlaces t (p.positions t s.cur.vec.vl) with
    | (.error (a, f), s1) => (.error (p.s, a, f), s1)
    | (.ok es, s1) => match s1.placePushes rest with
      | (.ok ps, s2) => (.ok ((p, es) :: ps), s2)
      | (.error e, s2) => (.error e, s2)

/-- The pushes of a convoy that retires: each element is translated once, all are checked first, and a failing one pushes
nothing (R224, log 19); FCODE then shows its fault (log 38). -/
def State.pushAll (s : State) (slot : BitVec 2) : Except ((Trap × State) ⊕ State) State :=
  match s.placePushes s.cur.conv.pushes with
  | (.ok ps, s1) => .ok (s1.pushFrom s1.cur 0 ps)
  | (.error (_, _, .stall), s1) => .error (.inr s1)
  | (.error (i, a, .trap c), s1) =>
    let s2 := s1.setStream i { s1.cur.stream i with fcode := streamCode c }
    .error (.inl ({ s2.accessTrap c (BitVec.ofNat 64 a) .store with
      slot := slot, tpc := s2.cur.pc - 8 * slot.setWidth 64 - 8 }, s2))

end Sys2Proof.Machine
end

