-- ==== Sys2Proof/Machine/Queue.lean ====
section
/-! DEFINITION. Machine/Queue.lean: the QUEUE words: entering commands into engine queues, QSTAT, and the ends of their
waits (R229, R248, R249, R255, R257, R258). -/

namespace Sys2Proof.Machine

/-- A QUEUE word executes without lane groups and whoever owns the vector part (R111, R112). -/
def queueInfo (xs : List XReg) (_ : Strand) : WordInfo :=
  { klass := .standalone, mode := .either, lanes := false, owner := false, xs := xs }

/-- QCOPY. -/
def qcopyInfo (o : QcopyOp) (c : Strand) : WordInfo := queueInfo [o.src, o.dst, o.cnt, o.ntf] c
/-- A command with a block. -/
def qblockInfo (o : QblockOp) (c : Strand) : WordInfo := queueInfo [o.blk, o.ntf] c
/-- QFENCE. -/
def qfenceInfo (o : QfenceOp) (c : Strand) : WordInfo := queueInfo [o.ntf] c
/-- QSIGNAL. -/
def qsignalInfo (o : QsignalOp) (c : Strand) : WordInfo := queueInfo [o.wr, o.val, o.add, o.sig] c
/-- QSTAT writes two scalar registers; it stands alone in its convoy. -/
def qstatInfo (o : QstatOp) (c : Strand) : WordInfo := { queueInfo [] c with xd := some o.st }

/-- The strand owns the queue of a number (R229). -/
def Strand.ownsQueue (c : Strand) (q : BitVec 5) : Bool := decide (q.toNat / 4 = c.id.sid.toNat)

/-- The place of a queue among the strand's four. -/
def localQueue (q : BitVec 5) : BitVec 2 := BitVec.ofNat 2 q.toNat

/-- An engine queue of the strand. -/
def Strand.queue (c : Strand) (j : BitVec 2) : EngineQueue := c.queues[j.toNat]

/-- An engine queue of the strand replaced. -/
def Strand.setQueue (c : Strand) (j : BitVec 2) (q : EngineQueue) : Strand :=
  { c with queues := c.queues.set j.toNat q }

/-- A queue holds 16 commands at most (R229). -/
def EngineQueue.full (q : EngineQueue) : Bool := decide (16 ≤ q.entries.length)

/-- A command entered into a queue. -/
def Strand.enter (c : Strand) (j : BitVec 2) (e : QEntry) : Strand :=
  c.setQueue j { c.queue j with entries := (c.queue j).entries ++ [e] }

/-- The strand waits at a full queue (R229). -/
def State.waitRoom (s : State) : State := s.withCur { s.cur with run := .queueRoom }

/-- An entered command of the strand, at its level (R230). -/
def State.entry (s : State) (cmd : QCmd) (ntf : Option Word) (scope : Scope) : QEntry :=
  { cmd := cmd, ntf := ntf, scope := scope, level := s.cur.level }

/-- The value of a register whose zero field means none. -/
def State.optX (s : State) (r : XReg) : Option Word := if r = 0 then none else some (s.getX r)

/-- The command names a Larder operand, or may reach the Larder (R215). -/
def QCmd.usesLarder : QCmd → Bool
  | .copy _ _ _ sl dl => sl || dl
  | .gather b => decide ((b.getD 3 0).toNat / 2 ^ 36 % 4 ≠ 0)
  | .scatter b => decide ((b.getD 3 0).toNat / 2 ^ 36 % 4 ≠ 0)
  | .pload _ => true
  | .pstore _ => true
  | .spload _ => true
  | .fence _ _ => false
  | .signal _ _ _ _ => false

/-- The entry of a command into queue j, once the queue has room (R249). -/
def State.enterCmd (s : State) (j : BitVec 2) (cmd : QCmd) (ntf : Option Word) (scope : Scope) : State :=
  let c := s.cur.enter j (s.entry cmd ntf scope)
  (s.withCur { c with usedLarder := c.usedLarder || cmd.usesLarder }).next8

/-- A QUEUE word for a queue: ACCESS for another strand's, the wait where it is full (R229, R249). -/
def State.withRoom (s : State) (q : BitVec 5) (f : State → State) : State :=
  if !s.cur.ownsQueue q then s.trap .access (q.setWidth 64)
  else if (s.cur.queue (localQueue q)).full then s.waitRoom
  else f s

/-- The effect of QCOPY. -/
def State.doQcopy (s : State) (o : QcopyOp) : State :=
  s.withRoom o.q fun t =>
    t.enterCmd (localQueue o.q) (.copy (t.getX o.src) (t.getX o.dst) (t.getX o.cnt) o.sl o.dl) (t.optX o.ntf) o.scope

/-- The effect of a command with a block: the block is read at entry (R249). -/
def State.doQblock (s : State) (o : QblockOp) (mk : List Word → QCmd) : State :=
  s.withRoom o.q fun t =>
    let ea := t.getX o.blk
    match t.readBlock ea with
    | (.error f, s1) => s1.failed f ea .load
    | (.ok b, s1) => s1.enterCmd (localQueue o.q) (mk b) (s1.optX o.ntf) o.scope

/-- The queues a fence joins: its own and those of the mask (R255). -/
def joined (q : BitVec 5) (mask : BitVec 4) : List Nat :=
  (List.range 4).filter fun j => decide (j = q.toNat % 4) || mask.getLsbD j

/-- The number of a fence that no entered fence of the strand bears. -/
def Strand.freshFence (c : Strand) : Nat :=
  c.queues.toList.foldl (fun a q => q.entries.foldl (fun b e => match e.cmd with
    | .fence id _ => max b (id + 1)
    | _ => b) a) 0

/-- The effect of QFENCE: entered into every queue of its set at once, with the notify in its own (R255). -/
def State.doQfence (s : State) (o : QfenceOp) : State :=
  if !s.cur.ownsQueue o.q then s.trap .access (o.q.setWidth 64)
  else
    let js := joined o.q o.join
    if js.any fun j => (s.cur.queue (BitVec.ofNat 2 j)).full then s.waitRoom
    else
      let cmd : QCmd := .fence s.cur.freshFence js
      (s.withCur (js.foldl (fun c j =>
        c.enter (BitVec.ofNat 2 j) (s.entry cmd (if j = o.q.toNat % 4 then s.optX o.ntf else none) o.scope)) s.cur)).next8

/-- The effect of QSIGNAL. -/
def State.doQsignal (s : State) (o : QsignalOp) : State :=
  s.withRoom o.q fun t =>
    t.enterCmd (localQueue o.q) (.signal (t.optX o.wr) (t.getX o.val) (t.getX o.add) (t.getX o.sig)) none o.scope

/-- A queue waits at a fence: the fence is its oldest command. -/
def EngineQueue.atFence (q : EngineQueue) : Bool :=
  match q.entries with
  | [] => false
  | e :: _ => match e.cmd with
    | .fence _ _ => !q.halted
    | _ => false

/-- The status word (Table 12-12). -/
def EngineQueue.status (q : EngineQueue) : Word :=
  BitVec.ofNat 64 (q.done.toNat * 65536 + q.atFence.toNat * 512 + q.halted.toNat * 256 + min q.entries.length 31)

/-- A halted queue cleared: its head is retried, or discarded without its notify (R257). -/
def EngineQueue.clear (q : EngineQueue) (drop : Bool) : EngineQueue :=
  { q with halted := false, fault := 0, entries := if drop then q.entries.drop 1 else q.entries }

/-- The code of a fault record. -/
def faultCode (r : Word) : Nat := r.toNat % 65536

/-- The effect of QSTAT (R257, R258). -/
def State.doQstat (s : State) (o : QstatOp) : State :=
  if !s.cur.ownsQueue o.q then s.trap .access (o.q.setWidth 64)
  else
    let j := localQueue o.q
    let q := s.cur.queue j
    if o.w && !q.halted && decide (q.entries ≠ []) then s.withCur { s.cur with run := .qstatWait }
    else if o.w && q.halted && decide (faultCode q.fault = 0x10B) then s.trap .residual q.fault
    else
      let s1 := (s.setX o.st q.status).setX o.recd q.fault
      (if o.clr && q.halted then s1.withCur (s1.cur.setQueue j (q.clear o.drop)) else s1).next8

/-- QCOPY (R249). -/
def execQcopy (o : QcopyOp) (s : State) : Out := vecWord (qcopyInfo o s.cur) s fun t => t.doQcopy o
/-- QGATHER (R249). -/
def execQgather (o : QblockOp) (s : State) : Out := vecWord (qblockInfo o s.cur) s fun t => t.doQblock o .gather
/-- QSCATTER (R249). -/
def execQscatter (o : QblockOp) (s : State) : Out := vecWord (qblockInfo o s.cur) s fun t => t.doQblock o .scatter
/-- QPLOAD (R249). -/
def execQpload (o : QblockOp) (s : State) : Out := vecWord (qblockInfo o s.cur) s fun t => t.doQblock o .pload
/-- QPSTORE (R249). -/
def execQpstore (o : QblockOp) (s : State) : Out := vecWord (qblockInfo o s.cur) s fun t => t.doQblock o .pstore
/-- QSPLOAD (R249, R290). -/
def execQspload (o : QblockOp) (s : State) : Out := vecWord (qblockInfo o s.cur) s fun t => t.doQblock o .spload
/-- QFENCE (R255). -/
def execQfence (o : QfenceOp) (s : State) : Out := vecWord (qfenceInfo o s.cur) s fun t => t.doQfence o
/-- QSIGNAL (R249). -/
def execQsignal (o : QsignalOp) (s : State) : Out := vecWord (qsignalInfo o s.cur) s fun t => t.doQsignal o
/-- QSTAT (R257). -/
def execQstat (o : QstatOp) (s : State) : Out := vecWord (qstatInfo o s.cur) s fun t => t.doQstat o

/-! ### The ends of waits -/

/-- The effect of the QUEUE word that a waiting strand stands at, read from its fields. -/
def State.queueWord (s : State) : State :=
  let r := RawVQ.unpack s.cur.iword
  let go := fun (x : Option State) => x.getD s
  match r.fn.toNat with
  | 0 => go ((QcopyOp.ofRaw r).map fun o => s.doQcopy o)
  | 1 => go ((QblockOp.ofRaw r).map fun o => s.doQblock o .gather)
  | 2 => go ((QblockOp.ofRaw r).map fun o => s.doQblock o .scatter)
  | 3 => go ((QblockOp.ofRaw r).map fun o => s.doQblock o .pload)
  | 4 => go ((QblockOp.ofRaw r).map fun o => s.doQblock o .pstore)
  | 5 => go ((QblockOp.ofRaw r).map fun o => s.doQblock o .spload)
  | 6 => go ((QfenceOp.ofRaw r).map fun o => s.doQfence o)
  | 7 => go ((QsignalOp.ofRaw r).map fun o => s.doQsignal o)
  | _ => go ((QstatOp.ofRaw r).map fun o => s.doQstat o)

/-- A waiting word, the only one of its convoy, done outside the issue of its convoy: only the retirement is left unless
it waits again or traps. -/
def State.afterWait (s : State) (eff : State → State) : State :=
  let t := eff (s.withCur { s.cur with run := .running, note := none })
  if t.cur.note.isNone && decide (t.cur.run = .running) then t.withCur { t.cur with slot := 0, reissue := .retire } else t

/-- QUEUE_ENTRY_ROOM (R229): the word proceeds where its queues have room. -/
def execQueueEntryRoom (who : StrandId) (s : State) : Out :=
  .next (s.onStrand who fun t => if t.cur.run = .queueRoom then t.afterWait State.queueWord else t)

/-- QSTAT_WAIT_DONE (R257): QSTAT resumes once its queue is empty or halted, and raises RESIDUAL where due (R258). -/
def execQstatWaitDone (who : StrandId) (s : State) : Out :=
  .next (s.onStrand who fun t => if t.cur.run = .qstatWait then t.afterWait State.queueWord else t)

end Sys2Proof.Machine
end

