-- ==== Sys2Proof/Machine/VectorMem.lean ====
section
/-! DEFINITION. Machine/VectorMem.lean: the vector loads and stores, VSCADD and VWAIT (R233 to R242, R325 to R327), through
the page-sorting unit (R224). -/

namespace Sys2Proof.Machine

/-! ### The page-sorting unit (R224) -/

/-- A list without repeats, in the order of first places. -/
def distinct : List Nat → List Nat
  | [] => []
  | x :: t => if (distinct t).contains x then distinct t else x :: distinct t

/-- The leaf of each distinct granule, looked up once. -/
def State.sortPages (s : State) : List Nat → List (Nat × Except Cause (Option Leaf)) × State
  | [] => ([], s)
  | g :: t =>
    match s.leafOf s.cur.via s.cur.level g with
    | (r, s1) =>
      match s1.sortPages t with
      | (rs, s2) => ((g, r) :: rs, s2)

/-- The translation of one address by the leaf of its granule. -/
def State.byGranule (s : State) (tbl : List (Nat × Except Cause (Option Leaf))) (n : Need) (va : Nat) : Except Fail Xlat :=
  match tbl.find? fun p => p.1 = granule va with
  | none => .error (.trap .page)
  | some (_, .error c) => .error (.trap c)
  | some (_, .ok l) => s.locate s.cur.part s.cur.level va n false l

/-! ### What a VM word accesses (R235, R237) -/

/-- A VM word's accesses: the active elements in ascending order, the field addresses of each, the bytes and the alignment
of a field, what the page must permit, the progress word, and whether host windows are denied (R233). -/
structure VmPlan where
  acts : List (Nat × List Nat)
  size : Nat
  align : Nat
  need : Need
  prog : Option Nat
  noHost : Bool

/-- B of R235. -/
def vmBase (s : State) (base : XReg) (off : BitVec 16) : Word := s.getX base + sext16 off

/-- An address modulo 2⁶⁴. -/
def vmAddr (v : Int) : Nat := wrapTo 64 v

/-- Step 1 for one element: ALIGN of any field, then ACCESS of any field. -/
def checkFields (align : Nat) (as : List Nat) : Option (Cause × Nat) :=
  match as.find? fun a => decide (a % align ≠ 0) with
  | some a => some (.align, a)
  | none => (as.find? fun a => decide (2 ^ 56 ≤ a)).map fun a => (.access, a)

/-- Step 1 of R237: the progress word ahead of element 0, then the active elements in ascending order. -/
def VmPlan.precise (p : VmPlan) : Option (Cause × Nat) :=
  match p.prog.bind fun a => checkFields 8 [a] with
  | some r => some r
  | none => p.acts.findSome? fun e => checkFields p.align e.2

/-- Every address of a plan with what it needs. -/
def VmPlan.addresses (p : VmPlan) : List (Nat × Need) :=
  (match p.prog with
    | none => []
    | some a => [(a, .store)]) ++ p.acts.flatMap fun e => e.2.map fun a => (a, p.need)

/-- The address lies in a host window, by the leaf of its granule. -/
def hostField (tbl : List (Nat × Except Cause (Option Leaf))) (va : Nat) : Bool :=
  match tbl.find? fun p => p.1 = granule va with
  | some (_, .ok (some l)) => decide (rangeOf (pteFrame l.word + (va - l.base)) = .host)
  | _ => false

/-- The outcome of one field; a host window is denied before it is routed (R233). -/
def State.field (s : State) (tbl : List (Nat × Except Cause (Option Leaf))) (p : VmPlan) (a : Nat) : Except Fail Xlat :=
  if p.noHost && hostField tbl a then .error (.trap .access) else s.byGranule tbl p.need a

/-- The cause and the address of each failing field of an element; a field that stalls does not fail. -/
def State.fieldFaults (s : State) (tbl : List (Nat × Except Cause (Option Leaf))) (p : VmPlan) (as : List Nat) :
    List (Cause × Nat) :=
  as.filterMap fun a => match s.field tbl p a with
    | .error (.trap c) => some (c, a)
    | .error .stall => none
    | .ok _ => none

/-- How an element with failing fields fails (R237 step 3): on a page fault only where every one of them is, else with the
cause of the first other one; the address is the first failing field's. -/
def elementCause (fs : List (Cause × Nat)) : Option (Cause × Nat) :=
  fs.head?.map fun f => (((fs.find? fun x => decide (x.1 ≠ .page)).map (·.1)).getD .page, f.2)

/-- The failure of an element. -/
def State.elementFault (s : State) (tbl : List (Nat × Except Cause (Option Leaf))) (p : VmPlan) (as : List Nat) :
    Option (Cause × Nat) :=
  elementCause (s.fieldFaults tbl p as)

/-- An access stalls at the routing stage (R373). -/
def stalls : Except Fail Xlat → Bool
  | .error .stall => true
  | .error (.trap _) => false
  | .ok _ => false

/-- Some address stalls at the routing stage (R373). -/
def State.anyStall (s : State) (tbl : List (Nat × Except Cause (Option Leaf))) (p : VmPlan) : Bool :=
  (p.prog.any fun a => stalls (s.byGranule tbl .store a)) || p.acts.any fun e => e.2.any fun a => stalls (s.field tbl p a)

/-- An element with its fields and, where it faults, the cause and address of its first failing field. -/
abbrev VmElem := Nat × List Nat × Option (Cause × Nat)

/-- Step 2 of R237: each element with its fault. -/
def State.vmElems (s : State) (tbl : List (Nat × Except Cause (Option Leaf))) (p : VmPlan) : List VmElem :=
  p.acts.map fun e => (e.1, e.2, s.elementFault tbl p e.2)

/-- The fault of the progress word. -/
def State.progFault (s : State) (tbl : List (Nat × Except Cause (Option Leaf))) (p : VmPlan) : Option (Cause × Nat) :=
  p.prog.bind fun a => match s.byGranule tbl .store a with
    | .error (.trap c) => some (c, a)
    | .error .stall => none
    | .ok _ => none

/-- The faults in the order of R237: the progress word, then the elements. -/
def faultList (pf : Option (Cause × Nat)) (es : List VmElem) : List (Cause × Nat) :=
  pf.toList ++ es.filterMap fun e => e.2.2

/-- The cause and address reported (R237 step 3): PAGE where every failure is a page fault, else the first other one. -/
def reported (fs : List (Cause × Nat)) : Cause × Nat :=
  ((fs.find? fun f => decide (f.1 ≠ .page)).or fs.head?).getD (.page, 0)

/-- The page-faulting granules of a plan in ascending order, each with what its accesses need (R343). -/
def VmPlan.pages (p : VmPlan) (tbl : List (Nat × Except Cause (Option Leaf))) : List (Nat × Need) :=
  let gs := (tbl.filter fun g => match g.2 with
    | .error .page => true
    | .error _ => false
    | .ok _ => false).map (·.1)
  (gs.mergeSort (· ≤ ·)).map fun g =>
    let ns := (p.addresses.filter fun a => granule a.1 = g).map (·.2)
    (g, { rd := ns.any (·.rd), wr := ns.any (·.wr) })

/-! ### Performing elements -/

/-- A and D set for every field of the performed elements (R222, R225), before any of them. -/
def State.touchElems (s : State) (tbl : List (Nat × Except Cause (Option Leaf))) (p : VmPlan) (es : List VmElem) : State :=
  (es.flatMap fun e => e.2.1).foldl (fun t a => match t.field tbl p a with
    | .ok x => t.touch t.cur.via x p.need
    | .error _ => t) s

/-- The watch matches of performed elements, in ascending order (R332). -/
def State.watchElems (s : State) (p : VmPlan) (es : List VmElem) : State :=
  (es.flatMap fun e => e.2.1).foldl (fun t a => t.noteWatch a p.size p.need.rd p.need.wr) s

/-- The elements a word performs, by whether an element above a fault may be (R238, R240, R242). -/
def performed (ordered progOk : Bool) (es : List VmElem) : List VmElem :=
  if !progOk then []
  else if ordered then es.takeWhile fun e => e.2.2.isNone
  else es.filter fun e => e.2.2.isNone

/-- mf after a word that stops: the active elements that were not performed. -/
def mfOf (es done : List VmElem) : Mask :=
  setBits 0 ((es.filter fun e => !(done.any fun d => d.1 = e.1)).map (·.1)) true

/-- The word is performed in passes: virtual-length mode on lane groups of fewer than 16,384 bits (R32). A VM word in matrix mode of a
strand with V = 1 counts as such: R32 does not say; its vstart is then the element's index, which may pass 127 (DESIGN CHOICE, log
50). -/
def Strand.inPasses (c : Strand) : Bool := c.vec.virt && decide (c.regBits < 16384)

/-- Where a word that stops under mf leaves vstart: in passes at its first element not performed (R32, log 50). -/
def Strand.stopStart (c : Strand) (es done : List VmElem) : Nat :=
  if c.inPasses then ((es.find? fun e => !(done.any fun d => d.1 = e.1)).map (·.1)).getD c.vec.vstart else c.vec.vstart

/-- Step 3 of R237 after the performed elements: the word completes, or stops under mf with RK 1. -/
def State.vmReport (s : State) (p : VmPlan) (tbl : List (Nat × Except Cause (Option Leaf))) (pf : Option (Cause × Nat))
    (es done : List VmElem) : State :=
  let fs := faultList pf es
  if fs = [] then s.vstart0.next8
  else
    let r := reported fs
    (s.withVec { s.cur.vec with mf := mfOf es done, vstart := s.cur.stopStart es done }).takeTrap {
      s.trapHere r.1 (BitVec.ofNat 64 r.2) with rk := 1, pages := p.pages tbl }

/-- The frame of R237: nothing at vl = 0 or with vstart ≥ vl, then the precise checks, the translation, and the
performance. -/
def vmRun (s : State) (p : VmPlan)
    (perform : State → List (Nat × Except Cause (Option Leaf)) → List VmElem → Option (Cause × Nat) → State) : State :=
  if s.cur.vec.vl = 0 || (decide (s.cur.vec.vl ≤ s.cur.vec.vstart) && !s.cur.underMf) then s.vstart0.next8
  else
    match p.precise with
    | some (c, a) => s.trap c (BitVec.ofNat 64 a)
    | none =>
      match s.sortPages (distinct (p.addresses.map fun a => granule a.1)) with
      | (tbl, s1) => if s1.anyStall tbl p then s1.stallHere else perform s1 tbl (s1.vmElems tbl p) (s1.progFault tbl p)

/-- The bytes of one field read: for a 4-bit element its nibble (R235). -/
def State.readField (s : State) (tbl : List (Nat × Except Cause (Option Leaf))) (p : VmPlan) (w e a : Nat) : Nat :=
  match s.field tbl p a with
  | .error _ => 0
  | .ok x =>
    let v := s.readPlace x.place p.size
    if w = 4 then v / 16 ^ (e % 2) % 16 else v

/-- The performed elements of a load written field by field (R238); masked-off and tail elements follow R167. -/
def State.fillFields (s : State) (tbl : List (Nat × Except Cause (Option Leaf))) (p : VmPlan) (d : VReg) (w : Nat)
    (m : MReg) (done : List VmElem) (nf : Nat) : State :=
  let c := s.cur
  let g := c.groupSize w
  (List.range nf).foldl (fun t k =>
    let r : VReg := BitVec.ofNat 6 (d.toNat + k * g)
    let vs := done.filterMap fun e => e.2.1[k]?.map fun a => (e.1, s.readField tbl p w e.1 a)
    let keep := t.cur.vec.vstart
    let t1 := t.writeVec r w vs (c.maskedOff m)
    t1.withVec { t1.cur.vec with vstart := keep }) s

/-- The scoreboard entry of a vector load some of whose elements failed late (R345): an element's index counts 16,384 for
each field before its own. -/
def Strand.vloadEntry (c : Strand) (d : VReg) (w : Nat) (bad : List VmElem) (err : BitVec 3) : SbEntry :=
  { pc := c.pc, slot := c.slot, kind := 0, perf := false, settled := false, err := err
    addr := BitVec.ofNat 64 ((bad.head?.bind fun e => e.2.1.head?).getD 0), first := (bad.head?.map (·.1)).getD 0
    nfail := bad.length, reg := d, ew := if w = 4 then 4 else widthCode (w / 8), vector := true, sx := false, amo := 0, age := c.age
    elems := bad.flatMap fun e => e.2.1.zipIdx.map fun (f : Nat × Nat) =>
      { index := e.1 + 16384 * f.2, addr := BitVec.ofNat 64 f.1, value := 0, was := 0 } }

/-- Elements of a load put back to what they were. -/
def Strand.putBack (old c : Strand) (d : VReg) (w nf : Nat) (bad : List VmElem) : SMap Byte :=
  let g := c.groupSize w
  (List.range nf).foldl (fun v k =>
    let r : VReg := BitVec.ofNat 6 (d.toNat + k * g)
    c.putAll v r w (bad.map fun e => (e.1, old.elem r w e.1))) c.vec.v

/-- A load that completes stops instead with LATE where some of its data fails: those elements keep their values (R346); while
IN is 1 it goes on without them (R341). -/
def State.lateElems (s old : State) (d : VReg) (w nf : Nat) (done : List VmElem) : Option State :=
  match s.cur.lateLoad with
  | none => none
  | some (es, err) =>
    let bad := done.filter fun e => es.contains e.1
    if bad = [] then none
    else
      let s1 := s.withVec { s.cur.vec with v := old.cur.putBack s.cur d w nf bad, vstart := 0 }
      some (s1.stopLoad (s1.cur.vloadEntry d w bad err) State.next8)

/-- A load (R238). -/
def vmLoad (s : State) (p : VmPlan) (d : VReg) (w : Nat) (m : MReg) (nf : Nat) : State :=
  vmRun s p fun s1 tbl es pf =>
    let done := performed false true es
    let s2 := ((s1.touchElems tbl p done).fillFields tbl p d w m done nf).watchElems p done
    match if faultList pf es = [] then s2.lateElems s1 d w nf done else none with
    | some s3 => s3
    | none => s2.vmReport p tbl pf es done

/-- One field stored: a nibble is a read-modify-write of its byte (R240). -/
def State.writeField (s : State) (tbl : List (Nat × Except Cause (Option Leaf))) (p : VmPlan) (w e a v : Nat) : State :=
  match s.field tbl p a with
  | .error _ => s
  | .ok x =>
    if w = 4 then
      let b := s.readPlace x.place 1
      let v1 := if e % 2 = 0 then b / 16 * 16 + v % 16 else b % 16 + v % 16 * 16
      (s.writePlace x.place 1 v1).bell s.cur.part a 1
    else (s.writePlace x.place p.size v).bell s.cur.part a p.size

/-- The elements that fail late among those of a store or an update: they have not happened (R345). -/
def Strand.lateOf (c : Strand) (es : List VmElem) : List VmElem := es.filter fun e => c.failsLate e.1

/-- The entry of a store's failed elements: a field's index counts 16,384 for each field before its own (R345). -/
def State.lateStore (s : State) (d : VReg) (w : Nat) (bad : List VmElem) : SbEntry :=
  let c := s.cur
  { c.entry 1 d (w / 8) (bad.flatMap fun e => e.2.1.zipIdx.map fun (f : Nat × Nat) =>
      ({ index := e.1 + 16384 * f.2, addr := BitVec.ofNat 64 f.1
         value := BitVec.ofNat 64 (c.elem (BitVec.ofNat 6 (d.toNat + f.2 * c.groupSize w)) w e.1), was := 0 } : SbElem)) with vector := true }

/-- The performed elements of a store, in the order given, each in ascending field order (R240). -/
def State.storeElems (s : State) (tbl : List (Nat × Except Cause (Option Leaf))) (p : VmPlan) (d : VReg) (w : Nat)
    (done : List VmElem) : State :=
  let g := s.cur.groupSize w
  done.foldl (fun t e =>
    (e.2.1.zipIdx).foldl (fun u f =>
      u.writeField tbl p w e.1 f.1 (s.cur.elem (BitVec.ofNat 6 (d.toNat + f.2 * g)) w e.1)) t) s

/-- The order in which a store with U = 1 is performed: which of the elements that write a byte stays is free (R240, log 9).
-/
def State.anyOrder (s : State) (done : List VmElem) : List VmElem × State := s.shuffle done

/-- The progress word written (R241). -/
def State.writeProgress (s : State) (tbl : List (Nat × Except Cause (Option Leaf))) (p : VmPlan) (c : Nat) : State :=
  match p.prog with
  | none => s
  | some a =>
    match s.byGranule tbl .store a with
    | .error _ => s
    | .ok x => (s.storeAt s.cur.via a x 8 c).noteWatch a 8 false true

/-- The progress word written, or its entry held where the write fails late, as the strand `k` says (R241, R345). -/
def State.progress (s : State) (k : Strand) (tbl : List (Nat × Except Cause (Option Leaf))) (p : VmPlan) (d : VReg) (c : Nat) : State :=
  if k.failsLate 16384 then
    s.holdLate { k.entry 1 d 8 (p.prog.toList.map fun a =>
      ({ index := 0, addr := BitVec.ofNat 64 a, value := BitVec.ofNat 64 c, was := 0 } : SbElem)) with vector := true }
  else s.writeProgress tbl p c

/-- A store (R240, R241): c is vl when the store completes, else the lowest element not performed. Elements that fail late have
not happened; their entry is held (R345). -/
def vmStore (s : State) (p : VmPlan) (d : VReg) (w : Nat) (ordered : Bool) : State :=
  vmRun s p fun s1 tbl es pf =>
    let all := performed ordered pf.isNone es
    let bad := s1.cur.lateOf all
    let done := all.filter fun e => !s1.cur.failsLate e.1
    let s2 := s1.touchElems tbl p done
    let r := if ordered then (done, s2) else s2.anyOrder done
    let s3 := (r.2.storeElems tbl p d w r.1).watchElems p done
    let c := ((es.find? fun e => !(done.any fun q => q.1 = e.1)).map (·.1)).getD s1.cur.vec.vl
    let s4 := s3.holdLate (s1.lateStore d w bad)
    (if pf.isNone then s4.progress s1.cur tbl p d c else s4).vmReport p tbl pf es all

/-- One update of VSCADD (R242). -/
def State.addField (s : State) (tbl : List (Nat × Except Cause (Option Leaf))) (p : VmPlan) (w a v : Nat) : State :=
  match s.field tbl p a with
  | .error _ => s
  | .ok x => (s.writePlace x.place p.size ((s.readPlace x.place p.size + v) % 2 ^ w)).bell s.cur.part a p.size

/-- VSCADD's elements: each update applied once (R231, R242). The elements of an address are one update, which fails late as a
whole; its entry says that it adds (R345). -/
def vmScatterAdd (s : State) (p : VmPlan) (d : VReg) (w : Nat) : State :=
  vmRun s p fun s1 tbl es pf =>
    let all := performed false true es
    let late := s1.cur.lateOf all
    let bad := all.filter fun e => late.any fun x => x.2.1 = e.2.1
    let done := all.filter fun e => !bad.any fun x => x.1 = e.1
    let s2 := done.foldl (fun t e => e.2.1.foldl (fun u a => u.addField tbl p w a (s1.cur.elem d w e.1)) t)
      (s1.touchElems tbl p done)
    ((s2.watchElems p done).holdLate { s1.lateStore d w bad with amo := 14 }).vmReport p tbl pf es all

/-- VLDFF's loaded elements and the mf and vstart it leaves; a late error among them stops it with RK 3 (R239, R346). -/
def State.firstDone (s : State) (tbl : List (Nat × Except Cause (Option Leaf))) (p : VmPlan) (d : VReg) (w : Nat) (m : MReg)
    (ok left : List (Nat × List Nat)) : State :=
  let done := ok.map fun e => ((e.1, e.2, none) : VmElem)
  let s1 := ((s.touchElems tbl p done).fillFields tbl p d w m done 1).watchElems p done
  let s2 := s1.withVec { s1.cur.vec with vstart := 0, mf := setBits 0 (left.map (·.1)) true }
  match s2.lateElems s d w 1 done with
  | some s3 => s3
  | none => s2.next8

/-- VLDFF (R239). -/
def vmFirst (s : State) (p : VmPlan) (d : VReg) (w : Nat) (m : MReg) : State :=
  if s.cur.vec.vl ≤ s.cur.vec.vstart then s.vstart0.next8
  else
    let good := p.acts.filter fun e => (checkFields p.align e.2).isNone
    match s.sortPages (distinct ((good.flatMap (·.2)).map granule)) with
    | (tbl, s1) =>
      if s1.anyStall tbl { p with acts := good } then s1.stallHere
      else
        let fault := fun (e : Nat × List Nat) => (checkFields p.align e.2).or (s1.elementFault tbl p e.2)
        match p.acts.find? fun e => (fault e).isSome, p.acts.head? with
        | some f, some l =>
          if f.1 = l.1 then
            match fault f with
            | none => s1
            | some (c, a) => s1.takeTrap (s1.accessTrap c (BitVec.ofNat 64 a) .load)
          else s1.firstDone tbl p d w m (p.acts.takeWhile fun e => e.1 < f.1) (p.acts.filter fun e => f.1 ≤ e.1)
        | _, _ => s1.firstDone tbl p d w m p.acts []

/-! ### Operands of the VM words (R235, R236) -/

/-- The width of a VLD or VST element. -/
def memEwBits : MemEW → Nat
  | .of e => e.bits
  | .nibble => 4

/-- The operands of a VM word: the data registers of its fields (none where they would pass v63, which is illegal), the
index vector, on which its checks depend, what it reads, and the class. -/
def vmInfo (k : Klass) (load : Bool) (m : MReg) (d : VReg) (w nf : Nat) (vi : Option (VReg × Nat)) (xs : List XReg)
    (noShare : Bool) (c : Strand) : WordInfo :=
  let g := c.groupSize w
  let data := (List.range nf).map fun f => ({ r := BitVec.ofNat 6 (d.toNat + f * g), n := g } : RegUse)
  let idx := vi.toList.map fun v => c.use v.1 v.2
  { klass := k, srcs := (if load then [] else data) ++ idx, idx := idx, dsts := if load then data else []
    clash := decide (c.vec.vnreg < d.toNat + nf * g) || (noShare && idx.any fun i => data.any fun u => u.meets i)
    mode := .either, ms := [m], xs := xs }

/-- The active elements with the field addresses that a function gives. -/
def withAddrs (acts : List Nat) (f : Nat → List Int) : List (Nat × List Nat) := acts.map fun e => (e, (f e).map vmAddr)

/-- Unit stride: B + i × s, a nibble at B + i div 2. -/
def unitAddrs (s : State) (base : XReg) (off : BitVec 16) (w : Nat) (e : Nat) : List Int :=
  [((vmBase s base off).toNat : Int) + (if w = 4 then e / 2 else e * (w / 8) : Nat)]

/-- Strided: B + i × S(xb). -/
def stridedAddrs (s : State) (base stride : XReg) (off : BitVec 16) (e : Nat) : List Int :=
  [((vmBase s base off).toNat : Int) + e * (s.getX stride).toInt]

/-- The width of an index. -/
def idxBits (x64 : Bool) : Nat := if x64 then 64 else 32

/-- Indexed: B + Idx(i). -/
def indexedAddrs (s : State) (base : XReg) (off : BitVec 16) (vi : VReg) (x64 : Bool) (e : Nat) : List Int :=
  [((vmBase s base off).toNat : Int) + s.cur.elem vi (idxBits x64) e]

/-- Segments: B + (i × (nf + 1) + f) × s. -/
def segmentAddrs (s : State) (base : XReg) (off : BitVec 16) (w nf : Nat) (e : Nat) : List Int :=
  (List.range nf).map fun f => ((vmBase s base off).toNat : Int) + ((e * nf + f) * (w / 8) : Nat)

/-- A load's plan. -/
def loadPlan (s : State) (m : MReg) (w : Nat) (f : Nat → List Int) : VmPlan :=
  { acts := withAddrs (s.cur.actives m) f, size := max 1 (w / 8), align := max 1 (w / 8), need := .load, prog := none,
    noHost := false }

/-- The progress word of a store. -/
def progressOf (s : State) : StoreMode → Option Nat
  | .ordered => none
  | .unordered => none
  | .notify x => some (s.getX x).toNat

/-- The scalar registers a store's mode reads. -/
def modeRegs : StoreMode → List XReg
  | .ordered => []
  | .unordered => []
  | .notify x => [x]

/-- A store is ordered unless U = 1. -/
def isOrdered (m : StoreMode) : Bool := decide (m ≠ .unordered)

/-- A store's plan. -/
def storePlan (s : State) (m : MReg) (w : Nat) (mode : StoreMode) (f : Nat → List Int) : VmPlan :=
  { acts := withAddrs (s.cur.actives m) f, size := max 1 (w / 8), align := max 1 (w / 8), need := .store,
    prog := progressOf s mode, noHost := false }

/-! ### The words -/

/-- The operands of VLD. -/
def vldInfo (o : VldOp) (c : Strand) : WordInfo := vmInfo .load true o.m o.d (memEwBits o.ew) 1 none [o.base] false c
/-- The operands of VLDS. -/
def vldsInfo (o : VldsOp) (c : Strand) : WordInfo :=
  vmInfo .load true o.m o.d o.ew.bits 1 none [o.base, o.stride] false c
/-- The operands of VLDX. -/
def vldxInfo (o : VldxOp) (c : Strand) : WordInfo :=
  vmInfo .load true o.m o.d o.ew.bits 1 (some (o.vi, idxBits o.x64)) [o.base] true c
/-- The operands of VLDSEG. -/
def vldsegInfo (o : VldsegOp) (c : Strand) : WordInfo :=
  vmInfo .load true o.m o.d o.ew.bits (o.nf.toNat + 1) none [o.base] false c
/-- The operands of VLDFF. -/
def vldffInfo (o : VldffOp) (c : Strand) : WordInfo := vmInfo .load true o.m o.d o.ew.bits 1 none [o.base] false c
/-- The operands of VST. -/
def vstInfo (o : VstOp) (c : Strand) : WordInfo :=
  vmInfo .store false o.m o.d (memEwBits o.ew) 1 none (o.base :: modeRegs o.mode) false c
/-- The operands of VSTS. -/
def vstsInfo (o : VstsOp) (c : Strand) : WordInfo :=
  vmInfo .store false o.m o.d o.ew.bits 1 none [o.base, o.stride] false c
/-- The operands of VSTX. -/
def vstxInfo (o : VstxOp) (c : Strand) : WordInfo :=
  vmInfo .store false o.m o.d o.ew.bits 1 (some (o.vi, idxBits o.x64)) (o.base :: modeRegs o.mode) true c
/-- The operands of VSTSEG. -/
def vstsegInfo (o : VstsegOp) (c : Strand) : WordInfo :=
  vmInfo .store false o.m o.d o.ew.bits (o.nf.toNat + 1) none (o.base :: modeRegs o.mode) false c
/-- The operands of VSCADD. -/
def vscaddInfo (o : VldxOp) (c : Strand) : WordInfo :=
  vmInfo .store false o.m o.d o.ew.bits 1 (some (o.vi, idxBits o.x64)) [o.base] true c

/-- VLD (R238). -/
def execVld (o : VldOp) (s : State) : Out :=
  let w := memEwBits o.ew
  vecWord (vldInfo o s.cur) s fun t => vmLoad t (loadPlan t o.m w (unitAddrs t o.base o.off w)) o.d w o.m 1
/-- VLDS (R238). -/
def execVlds (o : VldsOp) (s : State) : Out :=
  let w := o.ew.bits
  vecWord (vldsInfo o s.cur) s fun t => vmLoad t (loadPlan t o.m w (stridedAddrs t o.base o.stride o.off)) o.d w o.m 1
/-- VLDX (R238). -/
def execVldx (o : VldxOp) (s : State) : Out :=
  let w := o.ew.bits
  vecWord (vldxInfo o s.cur) s fun t =>
    vmLoad t (loadPlan t o.m w (indexedAddrs t o.base o.off o.vi o.x64)) o.d w o.m 1
/-- VLDSEG (R238). -/
def execVldseg (o : VldsegOp) (s : State) : Out :=
  let w := o.ew.bits
  let nf := o.nf.toNat + 1
  vecWord (vldsegInfo o s.cur) s fun t => vmLoad t (loadPlan t o.m w (segmentAddrs t o.base o.off w nf)) o.d w o.m nf
/-- VLDFF (R239). -/
def execVldff (o : VldffOp) (s : State) : Out :=
  let w := o.ew.bits
  vecWord (vldffInfo o s.cur) s fun t => vmFirst t (loadPlan t o.m w (unitAddrs t o.base o.off w)) o.d w o.m
/-- VST (R240). -/
def execVst (o : VstOp) (s : State) : Out :=
  let w := memEwBits o.ew
  vecWord (vstInfo o s.cur) s fun t =>
    vmStore t (storePlan t o.m w o.mode (unitAddrs t o.base o.off w)) o.d w (isOrdered o.mode)
/-- VSTS (R240). -/
def execVsts (o : VstsOp) (s : State) : Out :=
  let w := o.ew.bits
  let mode : StoreMode := if o.u then .unordered else .ordered
  vecWord (vstsInfo o s.cur) s fun t =>
    vmStore t (storePlan t o.m w mode (stridedAddrs t o.base o.stride o.off)) o.d w (isOrdered mode)
/-- VSTX (R240). -/
def execVstx (o : VstxOp) (s : State) : Out :=
  let w := o.ew.bits
  vecWord (vstxInfo o s.cur) s fun t =>
    vmStore t (storePlan t o.m w o.mode (indexedAddrs t o.base o.off o.vi o.x64)) o.d w (isOrdered o.mode)
/-- VSTSEG (R240). -/
def execVstseg (o : VstsegOp) (s : State) : Out :=
  let w := o.ew.bits
  let nf := o.nf.toNat + 1
  vecWord (vstsegInfo o s.cur) s fun t =>
    vmStore t (storePlan t o.m w o.mode (segmentAddrs t o.base o.off w nf)) o.d w (isOrdered o.mode)
/-- VSCADD (R242). -/
def execVscadd (o : VldxOp) (s : State) : Out :=
  let w := o.ew.bits
  vecWord (vscaddInfo o s.cur) s fun t =>
    vmScatterAdd t { storePlan t o.m w .unordered (indexedAddrs t o.base o.off o.vi o.x64) with noHost := true } o.d w

/-! ### VWAIT (R325 to R327) -/

/-- The operands of VWAIT. -/
def vwaitInfo (o : VwaitOp) (c : Strand) : WordInfo :=
  { klass := .load, srcs := [c.use o.vi o.ew.bits], mode := .either, ms := [o.m], xs := [o.base, o.timeout]
    md := some o.d }

/-- The words that a VWAIT watches, with their places and windows: they are translated once (R224, R327). -/
def State.watchPlaces (s : State) (tbl : List (Nat × Except Cause (Option Leaf))) (p : VmPlan) : List Watched :=
  p.acts.flatMap fun e => e.2.filterMap fun a => match s.field tbl p a with
    | .error _ => none
    | .ok x => some { elem := e.1, place := x.place, va := a, win := x.win.map (·.num), leaf := x.leaf }

/-- A watched word is routed anew at each read (R333, R373). -/
def State.rerouteWatched (s : State) (w : Watched) : Except Fail Unit :=
  match w.win with
  | none => .ok ()
  | some n => match (s.partition? s.cur.part).bind fun p => p.windows.find? fun x => x.num = n with
    | none => .error (.trap .access)
    | some x => s.route x (w.place.addr - if w.place.host then x.hbase else x.pa)

/-- A VWAIT is done: the unmet mask is written. -/
def State.vwaitDone (s : State) (o : VwaitOp) (un : List Nat) : State :=
  let c := s.cur
  (s.withCur { c with
    run := .running, vwait := none, vec := { c.vec with vstart := 0 }.setMask o.d (setBits 0 un true) }).next8

/-- A look of VWAIT at its words (R326): it sleeps on, is done, or raises what its route does; `last` where its deadline has
passed, which a look that stalls leaves so. -/
def State.vwaitLook (s : State) (o : VwaitOp) (ws : List Watched) (last : Bool) : State :=
  let sleep : State := s.withCur { s.cur with run := .vwait, vwait := some { words := ws, late := last } }
  let outs := ws.map fun w => (w.va, s.rerouteWatched w)
  match outs.findSome? fun r => match r.2 with
    | .error (.trap c) => some (c, r.1)
    | .error .stall => none
    | .ok _ => none with
  | some (c, a) => s.takeTrap { s.trapHere c (BitVec.ofNat 64 a) with rk := 0 }
  | none =>
    if outs.any fun r => match r.2 with
      | .error .stall => true
      | .error (.trap _) => false
      | .ok _ => false then sleep
    else
      let w := o.ew.bits
      let un := (ws.filter fun x => decide (s.readPlace x.place (w / 8) < s.cur.elem o.vi w x.elem)).map (·.elem)
      if un ≠ [] ∧ !last then sleep else s.vwaitDone o un

/-- The start of a VWAIT (R326, R327): its checks and translations, made once before any read, then its first look. -/
def State.vwaitStart (s : State) (o : VwaitOp) : State :=
  let c := s.cur
  let p : VmPlan :=
    { loadPlan s o.m o.ew.bits (unitAddrs s o.base o.off o.ew.bits) with
      acts := withAddrs (c.activesFrom0 o.m) (unitAddrs s o.base o.off o.ew.bits) }
  if c.vec.vl = 0 then s.vwaitDone o []
  else
    match p.precise with
    | some (k, a) => s.trap k (BitVec.ofNat 64 a)
    | none =>
      match s.sortPages (distinct (p.addresses.map fun a => granule a.1)) with
      | (tbl, s1) =>
        let es := s1.vmElems tbl p
        if s1.anyStall tbl p then s1.stallHere
        else if faultList none es ≠ [] then
          let r := reported (faultList none es)
          s1.takeTrap { s1.trapHere r.1 (BitVec.ofNat 64 r.2) with pages := p.pages tbl }
        else
          let ws := s1.watchPlaces tbl p
          ((s1.touchElems tbl p es).watchElems p es).vwaitLook o ws (decide ((s.getX o.timeout).toNat = 0))

/-- VWAIT (R326): begun, or, for a strand that sleeps in it, looked at again. -/
def execVwait (o : VwaitOp) (s : State) : Out :=
  vecWord (vwaitInfo o s.cur) s fun t => match t.cur.vwait with
    | some x => t.vwaitLook o x.words x.late
    | none => t.vwaitStart o

/-- The VWAIT that a sleeping strand stands at. -/
def Strand.vwaitOp? (c : Strand) : Option VwaitOp := VwaitOp.ofRaw (RawVM.unpack c.iword)

/-- A sleeping VWAIT looks at its words at the strand's next turn, which is due; `late` where its deadline has passed. -/
def State.vwaitAgain (s : State) (late : Bool) : State :=
  match s.cur.vwait with
  | none => s
  | some x =>
    if s.cur.run ≠ .vwait then s
    else { s.withCur { s.cur with vwait := some { x with late := x.late || late } } with agenda := .issue s.cur.id :: s.agenda }

/-- VWAIT_WAKE (R327). -/
def execVwaitWake (who : StrandId) (s : State) : Out := .next (s.onStrand who fun t => t.vwaitAgain false)

/-- VWAIT_TIMEOUT (R326): a timeout of all ones has no deadline. -/
def execVwaitTimeout (who : StrandId) (s : State) : Out :=
  .next (s.onStrand who fun t => match t.cur.vwaitOp? with
    | none => t
    | some o => if t.getX o.timeout = BitVec.allOnes 64 then t else t.vwaitAgain true)

end Sys2Proof.Machine
end

