-- ==== Sys2Proof/Machine/Engine.lean ====
section
/-! DEFINITION. Machine/Engine.lean: the engines of the queues: the performance of each command, its notify, and the halt
on a fault (R230, R248 to R256, Tables 12-9 and 12-13); kind-E watchpoints (R332). -/

namespace Sys2Proof.Machine

/-! ### Where operands lie -/

/-- A byte of an operand: in memory with the leaf it is reached through, or in a Larder. -/
inductive Spot where
  | mem (x : Xlat) (va : Nat)
  | larder (a : Nat)
  deriving DecidableEq, Repr

/-- A byte a command writes; `src` names the byte it copies, which may change before it is read (R251). -/
structure EWrite where
  dst : Spot
  src : Option Spot
  val : Byte
  deriving DecidableEq, Repr

/-- What a command does when it is performed: its writes in order, with those that come before every other and those that
come once every other is made (R299), the plane records it sets, and the ranges it reads or writes in device memory, for
watchpoints. -/
structure EDone where
  first : List EWrite := []
  writes : List EWrite
  last : List EWrite := []
  records : List (Nat × Nat) := []
  spans : List (Nat × Nat)

/-- Every write of a performed command. -/
def EDone.all (r : EDone) : List EWrite := r.first ++ r.writes ++ r.last

/-- Why a command is not performed: it stalls at the routing stage, or faults with a code and a byte offset, having
written an unspecified subset of the bytes listed (R250). -/
inductive EStop where
  | stall
  | fault (code : Nat) (detail : Int) (part : List EWrite)

/-- A command's outcome and the state its translations leave. -/
abbrev ERun := Except EStop EDone × State

/-- The fault code of a failed access (Table 12-9). -/
def engineCode : Cause → Nat
  | .page => 0x101
  | .align => 0x104
  | .portgone => 0x109
  | .hostgone => 0x10A
  | _ => 0x102

/-- The stop of a failed access. -/
def failStop (f : Fail) (detail : Int) (part : List EWrite) : EStop :=
  match f with
  | .stall => .stall
  | .trap c => .fault (engineCode c) detail part

/-- Looked-up granules (R224, R230). -/
abbrev PageTable := List (Nat × Except Cause (Option Leaf))

/-- One byte of a device operand. -/
def State.spotAt (s : State) (tbl : PageTable) (n : Need) (bounce : Bool) (va : Nat) : Except Fail Spot :=
  if 2 ^ 56 ≤ va then .error (.trap .access)
  else match tbl.find? fun p => p.1 = granule va with
    | none => .error (.trap .page)
    | some (_, .error c) => .error (.trap c)
    | some (_, .ok l) => match s.locate s.cur.part s.cur.level va n bounce l with
      | .error f => .error f
      | .ok x => .ok (.mem x va)

/-- The granules of a range below 2⁵⁶. -/
def rangeGranules (va n : Nat) : List Nat :=
  if n = 0 then []
  else
    let lo := min va (2 ^ 56) / 65536
    let hi := (min (va + n) (2 ^ 56) + 65535) / 65536
    (List.range (hi - lo)).map fun i => (lo + i) * 65536

/-- The byte at a spot. -/
def State.readSpot (s : State) : Spot → Byte
  | .mem x _ => BitVec.ofNat 8 (s.readPlace x.place 1)
  | .larder a => s.larder.read a

/-- A byte written at a spot. -/
def State.writeSpot (s : State) (p : Spot) (b : Byte) : State :=
  match p with
  | .mem x _ => s.writePlace x.place 1 b.toNat
  | .larder a => s.larderPut a 1 b.toNat

/-- The leaf of a spot. -/
def Spot.leaf : Spot → Option Leaf
  | .mem x _ => x.leaf
  | .larder _ => none

/-- What the parts of an operand that are reached stand for. -/
def reached {α β : Type} (l : List (α × Except Fail β)) : List β :=
  l.filterMap fun p => match p.2 with
    | .ok b => some b
    | .error _ => none

/-- The bits of accesses set in their leaves, once for each run of accesses through one leaf. -/
def State.touchEach (s : State) (n : Need) (l : List Spot) : State :=
  ((l.filterMap Spot.leaf).foldl (fun (r : State × Option Leaf) x =>
    if r.2 = some x then r else (r.1.touchLeaf r.1.cur.via x n, some x)) (s, none)).1

/-- A set for the pages that an operand was read through (R222). -/
def State.touchReads (s : State) (l : List Spot) : State := s.touchEach .load l

/-- D set for the pages of a list of writes, before them (R225). -/
def State.touchWrites (s : State) (ws : List EWrite) : State := s.touchEach .store (ws.map (·.dst))

/-- One write. Where the command has changed the byte it copies, either value may be copied: a free value decides (R251). -/
def State.doWrite (s : State) (w : EWrite) : State :=
  match w.src with
  | none => s.writeSpot w.dst w.val
  | some p =>
    let now := s.readSpot p
    if now = w.val then s.writeSpot w.dst w.val
    else
      let r := s.takeFree
      r.2.writeSpot w.dst (if r.1.getLsbD 0 then now else w.val)

/-- The 8-byte words of virtual memory that a list of writes touches within a queue area. -/
def queueWords (area : Nat) (ws : List EWrite) : List Nat :=
  distinct (ws.filterMap fun w => match w.dst with
    | .mem _ va => if area ≤ va ∧ va < area + 16384 then some (va / 8 * 8) else none
    | .larder _ => none)

/-- The doorbells that a command's writes ring (R90). -/
def State.bellWrites (s : State) (ws : List EWrite) : State :=
  match s.partition? s.cur.part with
  | none => s
  | some p => (queueWords p.queueArea ws).foldl (fun t a => t.bell t.cur.part a 8) s

/-- Writes performed. -/
def State.doWrites (s : State) (ws : List EWrite) : State := (ws.foldl State.doWrite (s.touchWrites ws)).bellWrites ws

/-- An unspecified subset of a list: one free value for each write (R250, log 8). -/
def State.someOf (s : State) : List EWrite → List EWrite × State
  | [] => ([], s)
  | w :: t =>
    let r := s.takeFree
    match r.2.someOf t with
    | (ws, s1) => (if r.1.getLsbD 0 then w :: ws else ws, s1)

/-- The bytes that a command has written which had only its notify left, or which a data error met: a subset, in which a
write that comes after every other stands only with all of them, and no write without those that come first (R250, R299,
log 8). `whole` says that the last writes may have been made. -/
def State.partOf (s : State) (r : EDone) (whole : Bool) : List EWrite × State :=
  let x := s.takeFree
  if whole && x.1.getLsbD 0 then (r.all, x.2)
  else
    match x.2.someOf r.writes with
    | (ws, s1) => (r.first ++ ws, s1)

/-! ### The notify and signal words (R248, R256) -/

/-- An atomic add of a value to the 64-bit word at an address, or the code of its fault. -/
def State.addWord (s : State) (a v : Word) : Except EStop State :=
  if a.toNat % 8 ≠ 0 then .error (.fault 0x104 0 [])
  else if 2 ^ 56 ≤ a.toNat then .error (.fault 0x102 0 [])
  else match s.translate s.cur.via s.cur.level a.toNat .amo false with
    | (.error f, _) => .error (failStop f 0 [])
    | (.ok x, s1) =>
      let old := s1.readPlace x.place 8
      .ok (((s1.touch s1.cur.via x .amo).writePlace x.place 8 ((old + v.toNat) % 2 ^ 64)).bell s1.cur.part a.toNat 8)

/-! ### Performing a command (R250) -/

/-- fn of a command (Table 12-8). -/
def QCmd.fn : QCmd → Nat
  | .copy _ _ _ _ _ => 0
  | .gather _ => 1
  | .scatter _ => 2
  | .pload _ => 3
  | .pstore _ => 4
  | .spload _ => 5
  | .fence _ _ => 6
  | .signal _ _ _ _ => 7

/-- The fault record (Table 12-13). -/
def faultRecord (fn code : Nat) (detail : Int) : Word :=
  BitVec.ofNat 64 (min detail.natAbs (2 ^ 32 - 1) * 2 ^ 32 + (if detail < 0 then 2 ^ 20 else 0) + fn * 65536 + code)

/-- A queue halts at its oldest command. -/
def State.haltEngine (s : State) (j : BitVec 2) (fn code : Nat) (detail : Int) : State :=
  s.withCur (s.cur.setQueue j { s.cur.queue j with halted := true, fault := faultRecord fn code detail })

/-- The oldest command of a queue is performed, and counted (event 0x0D of Table 23-4). -/
def State.popEngine (s : State) (j : BitVec 2) : State :=
  let q := s.cur.queue j
  (s.withCur (s.cur.setQueue j { q with entries := q.entries.drop 1, done := q.done + 1 })).count 0x0D 1

/-- An engine moves bytes: lines, Larder reads and walks may be counted (Table 23-4, log 7). -/
def State.stirEngine (s : State) : State := s.stir s.cur.id.core [6, 7, 8, 9]

/-- The lowest watchpoint of kind E that a command matches (R332): the base of its range. -/
def Strand.commandMatch (c : Strand) (spans : List (Nat × Nat)) : Option Nat :=
  ((List.finRange 4).find? fun i =>
    let r := watchRange c i
    c.wctl[i].getLsbD 3 && spans.any fun p => decide (0 < p.2) && decide (p.1 < r.1 + r.2) && decide (r.1 < p.1 + p.2)).map
    fun i => (watchRange c i).1

/-- The queue number of a strand's queue. -/
def queueNumber (id : StrandId) (j : BitVec 2) : Nat := 4 * id.sid.toNat + j.toNat

/-- A kind-E match is held for the next boundary (R332); those of several commands are raised one after another, in the
order in which the commands were performed (DESIGN CHOICE, log 54). -/
def State.holdWatch (s : State) (j : BitVec 2) (spans : List (Nat × Nat)) : State :=
  match s.cur.commandMatch spans with
  | none => s
  | some b =>
    let m := (BitVec.ofNat 6 (queueNumber s.cur.id j), BitVec.ofNat 64 b)
    s.withCur { s.cur with watchHeld := s.cur.watchHeld ++ [m] }

/-- A function run at the level of a command (R230), the strand's own level put back after it. -/
def State.atLevel (s : State) (l : Level) (f : State → State) : State :=
  let t := f (s.withCur { s.cur with level := l })
  t.withCur { t.cur with level := s.cur.level }

/-- The halt of a command that has written some of its bytes; a plane record it would have set is open if there is one. -/
def State.haltWith (s : State) (j : BitVec 2) (fn code : Nat) (detail : Int) (ws : List EWrite) (record : Option Nat) : State :=
  let s2 := s.doWrites ws
  let s3 := match record with
    | some off =>
      if ws = [] then s2
      else
        let r := s2.takeFree
        r.2.setPlaneRecord s.cur.id.core off (r.1.toNat % 16 + 1)
    | none => s2
  s3.haltEngine j fn code detail

/-- The halt of a command that faults: a subset of its bytes is written (R250). -/
def State.engineFault (s : State) (j : BitVec 2) (fn code : Nat) (detail : Int) (part : List EWrite)
    (record : Option Nat) : State :=
  match s.someOf part with
  | (ws, s1) => s1.haltWith j fn code detail ws record

/-- The panel whose record a command sets. -/
def QCmd.panel? : QCmd → Option Nat
  | .pload b => some ((b.getD 2 0).toNat % 2 ^ 28)
  | _ => none

/-- Plane records set. -/
def State.setRecords (s : State) (l : List (Nat × Nat)) : State :=
  l.foldl (fun u x => u.setPlaneRecord u.cur.id.core x.1 x.2) s

/-- A command performed at the head of a queue: its writes, its records, its notify; or its queue halts (R250). A term set written
whole has set its records where its notify fails (R299). -/
def State.performCmd (s : State) (j : BitVec 2) (e : QEntry) (run : State → ERun) : State :=
  s.atLevel e.level fun t =>
    match run t with
    | (.error .stall, t1) => t1
    | (.error (.fault code d part), t1) => t1.engineFault j e.cmd.fn code d part e.cmd.panel?
    | (.ok r, t1) =>
      let t2 := t1.doWrites r.all
      let t3 := t2.setRecords r.records
      match e.ntf with
      | none => (t3.popEngine j).holdWatch j r.spans
      | some a =>
        match t3.addWord a 1 with
        | .ok t4 => (t4.popEngine j).holdWatch j ((a.toNat, 8) :: r.spans)
        | .error .stall => t1
        | .error (.fault code d _) =>
          match t1.partOf r true with
          | (ws, t4) =>
            let t5 := t4.haltWith j e.cmd.fn code d ws e.cmd.panel?
            if ws = r.all && e.cmd.panel?.isNone then t5.setRecords r.records else t5

/-- A PERFORM event of a kind of command: nothing unless the queue is not halted and such a command is its oldest. -/
def performEvent (who : StrandId) (j : BitVec 2) (s : State) (sel : QCmd → Option (State → ERun)) : Out :=
  .next (s.onStrand who fun t =>
    let q := t.cur.queue j
    if q.halted || t.cur.run = .stopped then t
    else match q.entries with
      | [] => t
      | e :: _ => match sel e.cmd with
        | none => t
        | some run => t.stirEngine.performCmd j e run)

/-! ### QCOPY (R251, R387, R388) -/

/-- The spots of a range, with their offsets; a Larder range is already checked. -/
def State.rangeSpots (s : State) (tbl : PageTable) (n : Need) (larder bounce : Bool) (a len : Nat) :
    List (Nat × Except Fail Spot) :=
  (List.range len).map fun k =>
    (k, if larder then .ok (.larder (larderBase s.cur.id.core + a + k)) else s.spotAt tbl n bounce (a + k))

/-- The first failure of a list. -/
def firstFail {α β : Type} (l : List (α × Except Fail β)) : Option (α × Fail) :=
  l.findSome? fun p => match p.2 with
    | .error f => some (p.1, f)
    | .ok _ => none

/-- The window of a spot, if it is a bounce window. -/
def Spot.bounce? : Spot → Option Window
  | .mem x _ => match x.win with
    | some w => if w.bounce then some w else none
    | none => none
  | .larder _ => none

/-- The first bounce window among spots. -/
def bounceOf (l : List (Nat × Except Fail Spot)) : Option Window :=
  l.findSome? fun p => match p.2 with
    | .ok sp => sp.bounce?
    | .error _ => none

/-- A plain copy of the bytes whose source and destination are both reached. -/
def State.copyWrites (s : State) (src dst : List (Nat × Except Fail Spot)) : List EWrite :=
  (src.zip dst).filterMap fun p => match p.1.2, p.2.2 with
    | .ok a, .ok b => some { dst := b, src := some a, val := s.readSpot a }
    | _, _ => none

/-- The count of chunks of a bounce window: chunks and then their trailers (R388; DESIGN CHOICE, log 25). -/
def chunkCount (w : Window) : Nat := w.len / 4128

/-- The host address of a chunk's trailer. -/
def trailerAt (w : Window) (i : Nat) : Nat := w.hbase + chunkCount w * 4096 + 32 * i

/-- Bytes of host memory. -/
def State.hostBytes (s : State) (a n : Nat) : List Byte := (List.range n).map fun k => s.hostMem.read (a + k)

/-- A byte of host memory written. -/
def hostWrite (a : Nat) (b : Byte) : EWrite :=
  { dst := .mem { place := { host := true, addr := a }, win := none, leaf := none } 0, src := none, val := b }

/-- The labels of R404: "felotte h2d" and "felotte d2h" as ASCII bytes. -/
def keyLabel (outward : Bool) : List Byte :=
  [0x66, 0x65, 0x6C, 0x6F, 0x74, 0x74, 0x65, 0x20] ++ if outward then [0x64, 0x32, 0x68] else [0x68, 0x32, 0x64]

/-- The key of a direction of the issuing strand's partition (R404). -/
def State.chunkKey (s : State) (outward : Bool) : List Byte :=
  Config.hkdf (((s.partition? s.cur.part).map (·.secret)).getD []) (keyLabel outward)

/-- One chunk decrypted: its plaintext, or none where its tag does not verify (R388). -/
def State.openAt (s : State) (w : Window) (i : Nat) : Option (List Byte) :=
  let t := s.hostBytes (trailerAt w i) 32
  Config.openChunk (s.chunkKey false) (t.take 12) (4096 * i) ((t.drop 12).take 16) (s.hostBytes (w.hbase + 4096 * i) 4096)

/-- The nonce of the k-th chunk the device encrypts: the session's direction number and a counter that never repeats, the
count of free values taken (R388, log 25). -/
def nonceOf (w : Window) (k : Nat) : List Byte :=
  leBytes 4 (Config.directionNumber w.session).toNat ++ leBytes 8 k

/-- One chunk encrypted: the bytes of the chunk and of its trailer. -/
def sealWrites (key : List Byte) (w : Window) (k i : Nat) (plain : List Byte) : List EWrite :=
  let nonce := nonceOf w k
  let r := Config.sealChunk key nonce (4096 * i) plain
  ((r.1.take 4096).zipIdx.map fun (b : Byte × Nat) => hostWrite (w.hbase + 4096 * i + b.2) b.1) ++
    ((nonce ++ r.2.take 16 ++ [0, 0, 0, 0]).zipIdx.map fun (b : Byte × Nat) => hostWrite (trailerAt w i + b.2) b.1)

/-- The chunks of a bounce operand: the window and the chunk number of each. -/
def chunksOf (l : List (Nat × Except Fail Spot)) (n : Nat) : Option (List (Window × Nat)) :=
  (List.range (n / 4096)).mapM fun i =>
    match (l.drop (4096 * i)).head? with
    | some (_, .ok (.mem x _)) => match x.win with
      | some w =>
        let c := (x.place.addr - w.hbase) / 4096
        if c < chunkCount w then some (w, c) else none
      | none => none
    | _ => none

/-- A copy from a bounce window: each chunk is verified and decrypted (R387, R388). -/
def State.copyOut (s : State) (src dst : List (Nat × Except Fail Spot)) (n : Nat) : Except EStop (List EWrite) :=
  match chunksOf src n with
  | none => .error (.fault 0x102 0 [])
  | some cs =>
    let step := fun (acc : List EWrite × Option Nat) (c : (Window × Nat) × Nat) =>
      match s.openAt c.1.1 c.1.2 with
      | none => (acc.1, acc.2.or (some (4096 * c.2)))
      | some plain =>
        (acc.1 ++ (((dst.drop (4096 * c.2)).take 4096).zip (plain.take 4096)).filterMap fun p => match p.1.2 with
          | .ok sp => some { dst := sp, src := none, val := p.2 }
          | .error _ => none, acc.2)
    match cs.zipIdx.foldl step ([], none) with
    | (ws, none) => .ok ws
    | (ws, some d) => .error (.fault 0x108 d ws)

/-- A copy to a bounce window: each chunk is encrypted under a fresh nonce. -/
def State.copyIn (s : State) (src dst : List (Nat × Except Fail Spot)) (n : Nat) : Except EStop (List EWrite) :=
  match chunksOf dst n with
  | none => .error (.fault 0x102 0 [])
  | some cs =>
    .ok (cs.zipIdx.flatMap fun c =>
      let plain := ((src.drop (4096 * c.2)).take 4096).map fun p => match p.2 with
        | .ok sp => s.readSpot sp
        | .error _ => 0
      sealWrites (s.chunkKey true) c.1.1 (s.free + c.2) c.1.2 plain)

/-- The operand of a copy that is not the bounce window lies in device memory (R387). -/
def allDevice (l : List (Nat × Except Fail Spot)) : Bool :=
  l.all fun p => match p.2 with
    | .ok (.mem x _) => !x.place.host && decide (rangeOf x.place.addr = .gddr)
    | .ok (.larder _) => false
    | .error _ => true

/-- The copy itself, once both operands are reached. -/
def State.copyBody (s : State) (src dst : List (Nat × Except Fail Spot)) (sa da n : Nat) : Except EStop (List EWrite) :=
  match bounceOf src, bounceOf dst with
  | none, none => .ok (s.copyWrites src dst)
  | some _, some _ => .error (.fault 0x102 0 [])
  | some _, none =>
    if !allDevice dst then .error (.fault 0x102 0 [])
    else if sa % 4096 ≠ 0 || n % 4096 ≠ 0 then .error (.fault 0x104 0 [])
    else s.copyOut src dst n
  | none, some _ =>
    if !allDevice src then .error (.fault 0x102 0 [])
    else if da % 4096 ≠ 0 || n % 4096 ≠ 0 then .error (.fault 0x104 0 [])
    else s.copyIn src dst n

/-- The checks of QCOPY that read nothing (R250, R251). -/
def copyFault (src dst n : Nat) (sl dl : Bool) : Option (Nat × Int) :=
  if 2 ^ 32 < n then some (0x105, 0)
  else if n = 0 then none
  else if sl && decide (larderSize < src + n) then some (0x103, ((larderSize - src : Nat) : Int))
  else if dl && decide (larderSize < dst + n) then some (0x103, ((larderSize - dst : Nat) : Int))
  else if sl = dl && decide (src < dst + n) && decide (dst < src + n) then some (0x106, 0)
  else none

/-- QCOPY performed. A granule that both operands touch is looked up for each (DESIGN CHOICE, log 58). -/
def State.runCopy (src dst cnt : Word) (sl dl : Bool) (s : State) : ERun :=
  let a := src.toNat
  let b := dst.toNat
  let n := cnt.toNat
  match copyFault a b n sl dl with
  | some (c, d) => (.error (.fault c d []), s)
  | none =>
    match s.sortPages (if sl then [] else rangeGranules a n) with
    | (ts, s1) =>
      match s1.sortPages (if dl then [] else rangeGranules b n) with
      | (td, s2) =>
        let ss := s2.rangeSpots ts .load sl true a n
        let ds := s2.rangeSpots td .store dl true b n
        let s3 := s2.touchReads (reached ss)
        match (firstFail ss).or (firstFail ds) with
        | some (k, f) =>
          let part := if (bounceOf ss).isNone && (bounceOf ds).isNone then s3.copyWrites ss ds else []
          (.error (failStop f k part), s3)
        | none =>
          match s3.copyBody ss ds a b n with
          | .error e => (.error e, s3)
          | .ok ws =>
            -- the nonces that were used never come again
            let used := if (bounceOf ds).isSome then n / 4096 else 0
            (.ok { writes := ws, spans := (if sl then [] else [(a, n)]) ++ (if dl then [] else [(b, n)]) },
              { s3 with free := s3.free + used })

/-- QCOPY_PERFORM (R251). -/
def execQcopyPerform (who : StrandId) (j : BitVec 2) (s : State) : Out :=
  performEvent who j s fun c => match c with
    | .copy a b n sl dl => some (State.runCopy a b n sl dl)
    | _ => none

/-! ### QGATHER and QSCATTER (R252) -/

/-- A word of a command block. -/
def blockWord (b : List Word) (i : Nat) : Nat := (b.getD i 0).toNat

/-- The fields of a gather or scatter block (Table 12-10). -/
structure GatherBlock where
  base : Nat
  index : Nat
  data : Nat
  count : Nat
  size : Nat
  isize : Nat
  ilar : Bool
  dlar : Bool

/-- The block read, or EBLOCK. -/
def gatherBlock (b : List Word) : Option GatherBlock :=
  let w := blockWord b 3
  let ew := w / 2 ^ 32 % 8
  if w / 2 ^ 38 ≠ 0 ∨ 3 < ew ∨ blockWord b 4 ≠ 0 ∨ blockWord b 5 ≠ 0 ∨ blockWord b 6 ≠ 0 ∨ blockWord b 7 ≠ 0 then none
  else some {
    base := blockWord b 0, index := blockWord b 1, data := blockWord b 2, count := w % 2 ^ 32, size := 2 ^ ew
    isize := if w / 2 ^ 35 % 2 = 1 then 8 else 4, ilar := decide (w / 2 ^ 36 % 2 = 1), dlar := decide (w / 2 ^ 37 % 2 = 1) }

/-- An element of bytes reached: its spots, or the first failure. -/
def State.elemSpots (s : State) (tbl : PageTable) (n : Need) (larder : Bool) (a len : Nat) : Except Fail (List Spot) :=
  (List.range len).mapM fun k =>
    if larder then .ok (.larder (larderBase s.cur.id.core + a + k)) else s.spotAt tbl n false ((a + k) % 2 ^ 64)

/-- The number at spots. -/
def State.readSpots (s : State) (l : List Spot) : Nat := ofBytes (l.map s.readSpot)

/-- The granules of aligned elements. -/
def elemGranules (as : List Nat) : List Nat := distinct ((as.filter fun a => decide (a < 2 ^ 56)).map granule)

/-- The bytes of one element copied between spots. -/
def State.elemWrites (s : State) (src dst : List Spot) : List EWrite :=
  (src.zip dst).map fun p => { dst := p.2, src := none, val := s.readSpot p.1 }

/-- The element list of a gather or scatter, once its indices are read: `scatter` gives the direction. -/
def State.runElements (s : State) (g : GatherBlock) (scatter : Bool) (idx : List Nat) : ERun :=
  let as := idx.map fun i => (g.base + i) % 2 ^ 64
  match (as.zip idx).find? fun p => decide (p.1 % g.size ≠ 0) with
  | some p => (.error (.fault 0x104 p.2 []), s)
  | none =>
    match s.sortPages (elemGranules as) with
    | (te, s1) =>
      match s1.sortPages (if g.dlar then [] else rangeGranules g.data (g.count * g.size)) with
      | (td, s2) =>
        let list := (as.zip idx).map fun p => ((p.2 : Int), s2.elemSpots te (if scatter then .store else .load) false p.1 g.size)
        let data := (List.range g.count).map fun k =>
          (((k * g.size : Nat) : Int), s2.elemSpots td (if scatter then .load else .store) g.dlar (g.data + k * g.size) g.size)
        let s3 := s2.touchReads (reached (if scatter then data else list)).flatten
        let ws := ((if scatter then data.zip list else list.zip data)).flatMap fun p => match p.1.2, p.2.2 with
          | .ok a, .ok b => s3.elemWrites a b
          | _, _ => []
        match (firstFail list).or (firstFail data) with
        | some (d, f) => (.error (failStop f d ws), s3)
        | none =>
          (.ok { writes := ws,
                 spans := as.map (fun a => (a, g.size)) ++ (if g.dlar then [] else [(g.data, g.count * g.size)]) ++
                   (if g.ilar then [] else [(g.index, g.count * g.isize)]) }, s3)

/-- A gather or scatter performed. -/
def State.runGather (b : List Word) (scatter : Bool) (s : State) : ERun :=
  match gatherBlock b with
  | none => (.error (.fault 0x107 0 []), s)
  | some g =>
    if g.count = 0 then (.ok { writes := [], spans := [] }, s)
    else if g.ilar && decide (larderSize < g.index + g.count * g.isize) then
      (.error (.fault 0x103 ((larderSize - g.index : Nat) : Int) []), s)
    else if g.dlar && decide (larderSize < g.data + g.count * g.size) then
      (.error (.fault 0x103 ((larderSize - g.data : Nat) : Int) []), s)
    else if g.index % g.isize ≠ 0 then (.error (.fault 0x104 0 []), s)
    else
      match s.sortPages (if g.ilar then [] else rangeGranules g.index (g.count * g.isize)) with
      | (ti, s1) =>
        let reads := (List.range g.count).map fun k =>
          (((k * g.isize : Nat) : Int), s1.elemSpots ti .load g.ilar (g.index + k * g.isize) g.isize)
        let s2 := s1.touchReads (reached reads).flatten
        match firstFail reads with
        | some (d, f) => (.error (failStop f d []), s2)
        | none =>
          s2.runElements g scatter (reads.map fun r => match r.2 with
            | .ok l => s2.readSpots l
            | .error _ => 0)

/-- QGATHER_PERFORM (R252). -/
def execQgatherPerform (who : StrandId) (j : BitVec 2) (s : State) : Out :=
  performEvent who j s fun c => match c with
    | .gather b => some (State.runGather b false)
    | _ => none

/-- QSCATTER_PERFORM (R252). -/
def execQscatterPerform (who : StrandId) (j : BitVec 2) (s : State) : Out :=
  performEvent who j s fun c => match c with
    | .scatter b => some (State.runGather b true)
    | _ => none

/-! ### QPLOAD and QPSTORE (R253) -/

/-- The fields of a plane block (Table 12-11). -/
structure PlaneBlock where
  addr : Nat
  stride : Int
  panel : Nat
  fmt : Fmt
  rows : Nat
  kcount : Nat

/-- The formats a panel holds (R253). -/
def panelFmt (f : Fmt) : Bool :=
  match f with
  | .fp16 => true
  | .bf16 => true
  | .e4m3 => true
  | .e5m2 => true
  | .e2m1 => true
  | .int8 => true
  | .nat8 => true
  | .nat4 => true
  | .int4 => true
  | _ => false

/-- The block read, or EBLOCK; QPSTORE takes no odd KCOUNT of a 4-bit format. -/
def planeBlock (b : List Word) (store : Bool) : Option PlaneBlock :=
  let p := blockWord b 2
  let w := blockWord b 3
  let rows := w / 16 % 256
  let kc := w / 4096 % 64
  match Fmt.ofCode (BitVec.ofNat 4 w) with
  | none => none
  | some f =>
    if !panelFmt f || decide (p / 2 ^ 28 ≠ 0) || decide (w / 2 ^ 18 ≠ 0) || decide (p % 8192 ≠ 0) ||
        decide (rows = 0) || decide (128 < rows) || decide (kc = 0) || decide (32 < kc) ||
        (store && decide (fmtWidth f = 4) && decide (kc % 2 = 1)) ||
        (List.range 4).any fun i => decide (blockWord b (4 + i) ≠ 0) then none
    else some {
      addr := blockWord b 0, stride := signed 64 (blockWord b 1), panel := p % 2 ^ 28, fmt := f, rows := rows, kcount := kc }

/-- The bytes of one element; a 4-bit element has one byte (R253). -/
def fmtBytes (f : Fmt) : Nat := max 1 (fmtWidth f / 8)

/-- The bytes of a row. -/
def PlaneBlock.rowBytes (p : PlaneBlock) : Nat :=
  if fmtWidth p.fmt = 4 then (p.kcount + 1) / 2 else p.kcount * fmtBytes p.fmt

/-- Every byte of the rows in memory: its signed offset from MEM and its address. -/
def PlaneBlock.offsets (p : PlaneBlock) : List Int :=
  (List.range p.rows).flatMap fun r => (List.range p.rowBytes).map fun b => Int.ofNat r * p.stride + Int.ofNat b

/-- The address of an offset. -/
def PlaneBlock.at_ (p : PlaneBlock) (o : Int) : Nat := wrapTo 64 ((p.addr : Int) + o)

/-- The spans of the rows. -/
def PlaneBlock.spans (p : PlaneBlock) : List (Nat × Nat) :=
  (List.range p.rows).map fun r => (p.at_ (Int.ofNat r * p.stride), p.rowBytes)

/-- A list cut into rows of n. -/
def rowsOf {α : Type} (n : Nat) : Nat → List α → List (List α)
  | 0, _ => []
  | r + 1, l => l.take n :: rowsOf n r (l.drop n)

/-- The encodings of a row's bytes. -/
def rowEncodings (f : Fmt) (kcount : Nat) (row : List Byte) : List Nat :=
  (List.range kcount).map fun k =>
    if fmtWidth f = 4 then (row.getD (k / 2) 0).toNat / 16 ^ (k % 2) % 16
    else ofBytes ((row.drop (k * fmtBytes f)).take (fmtBytes f))

/-- The bytes of a row's encodings. -/
def rowImage (f : Fmt) : List Nat → List Byte
  | [] => []
  | x :: t =>
    if fmtWidth f = 4 then
      match t with
      | [] => [BitVec.ofNat 8 x]
      | y :: u => BitVec.ofNat 8 (x + 16 * y) :: rowImage f u
    else leBytes (fmtBytes f) x ++ rowImage f t

/-- The checks after the block: ELARDER, then EALIGN. -/
def PlaneBlock.fault (p : PlaneBlock) : Option (Nat × Int) :=
  if larderSize < p.panel + panelBytes then some (0x103, ((larderSize - p.panel : Nat) : Int))
  else if p.addr % fmtBytes p.fmt ≠ 0 ∨ p.stride % (fmtBytes p.fmt : Nat) ≠ 0 then some (0x104, 0)
  else none

/-- The encodings of the rows that QPLOAD reads; a byte that is not reached counts as `fill`. -/
def PlaneBlock.encodings (p : PlaneBlock) (s : State) (reads : List (Int × Except Fail Spot)) (fill : Byte) : List (List Nat) :=
  (rowsOf p.rowBytes p.rows (reads.map fun r => match r.2 with
    | .ok sp => s.readSpot sp
    | .error _ => fill)).map (rowEncodings p.fmt p.kcount)

/-- The bytes of the slice-panel that QPLOAD makes of them. -/
def PlaneBlock.image (p : PlaneBlock) (s : State) (reads : List (Int × Except Fail Spot)) (fill : Byte) : List Byte :=
  panelImage p.fmt (p.encodings s reads fill)

/-- QPLOAD performed: the whole slice-panel is written. -/
def State.runPload (b : List Word) (s : State) : ERun :=
  match planeBlock b false with
  | none => (.error (.fault 0x107 0 []), s)
  | some p =>
    match p.fault with
    | some (c, d) => (.error (.fault c d []), s)
    | none =>
      match s.sortPages (elemGranules (p.offsets.map p.at_)) with
      | (tbl, s1) =>
        let reads := p.offsets.map fun o => (o, s1.spotAt tbl .load false (p.at_ o))
        let s2 := s1.touchReads (reached reads)
        let a := larderBase s.cur.id.core + p.panel
        let ws := (p.image s2 reads 0).zipIdx.map fun x => ({ dst := .larder (a + x.2), src := none, val := x.1 } : EWrite)
        match firstFail reads with
        | some (d, f) =>
          -- a byte of the panel with a bit of an element that is not reached is not among those written
          (.error (failStop f d ((ws.zip (p.image s2 reads 0xFF)).filterMap fun x => if x.1.val = x.2 then some x.1 else none)), s2)
        | none => (.ok { writes := ws, records := [(p.panel, panelNeed p.fmt (p.encodings s2 reads 0))], spans := p.spans }, s2)

/-- QPLOAD_PERFORM (R253). -/
def execQploadPerform (who : StrandId) (j : BitVec 2) (s : State) : Out :=
  performEvent who j s fun c => match c with
    | .pload b => some (State.runPload b)
    | _ => none

/-- Rows of a stored panel may overlap in memory: the order of their bytes is then free (R230, log 9). -/
def State.storeOrder (s : State) (p : PlaneBlock) (ws : List EWrite) : List EWrite × State :=
  if p.rows ≤ 1 ∨ p.rowBytes ≤ p.stride.natAbs then (ws, s)
  else s.shuffle ws

/-- QPSTORE performed. -/
def State.runPstore (b : List Word) (s : State) : ERun :=
  match planeBlock b true with
  | none => (.error (.fault 0x107 0 []), s)
  | some p =>
    match p.fault with
    | some (c, d) => (.error (.fault c d []), s)
    | none =>
      match s.sortPages (elemGranules (p.offsets.map p.at_)) with
      | (tbl, s1) =>
        let a := larderBase s.cur.id.core + p.panel
        let bytes := (List.range p.rows).flatMap fun r => rowImage p.fmt ((s1.panelRow a p.fmt r).take p.kcount)
        let outs := p.offsets.map fun o => (o, s1.spotAt tbl .store false (p.at_ o))
        let ws := (outs.zip bytes).filterMap fun x => match x.1.2 with
          | .ok sp => some ({ dst := sp, src := none, val := x.2 } : EWrite)
          | .error _ => none
        match s1.storeOrder p ws with
        | (ws1, s2) =>
          match firstFail outs with
          | some (d, f) => (.error (failStop f d ws1), s2)
          | none => (.ok { writes := ws1, spans := p.spans }, s2)

/-- QPSTORE_PERFORM (R253). -/
def execQpstorePerform (who : StrandId) (j : BitVec 2) (s : State) : Out :=
  performEvent who j s fun c => match c with
    | .pstore b => some (State.runPstore b)
    | _ => none

/-! ### QSIGNAL (R256) -/

/-- The eight writes of a word at a reached address. -/
def wordWrites (sps : List Spot) (v : Word) : List EWrite :=
  (sps.zip (leBytes 8 v.toNat)).map fun p => { dst := p.1, src := none, val := p.2 }

/-- The store of QSIGNAL, if it has one. -/
def State.signalStore (s : State) (wr : Option Word) (v : Word) : Except EStop (List EWrite) × State :=
  match wr with
  | none => (.ok [], s)
  | some a =>
    match s.sortPages (elemGranules [a.toNat]) with
    | (tbl, s1) => match s1.elemSpots tbl .store false a.toNat 8 with
      | .error f => (.error (failStop f 0 []), s1)
      | .ok sps => (.ok (wordWrites sps v), s1)

/-- A signal performed at the head of queue j: the store, then the add. -/
def State.performSignal (s : State) (j : BitVec 2) (wr : Option Word) (v add sig : Word) : State :=
  if (wr.any fun a => decide (a.toNat % 8 ≠ 0)) || decide (sig.toNat % 8 ≠ 0) then s.haltEngine j 7 0x104 0
  else
    match s.signalStore wr v with
    | (.error .stall, s1) => s1
    | (.error (.fault c d part), s1) => s1.engineFault j 7 c d part none
    | (.ok ws, s1) =>
      match (s1.doWrites ws).addWord sig add with
      | .ok s2 => (s2.popEngine j).holdWatch j ((sig.toNat, 8) :: wr.toList.map fun a => (a.toNat, 8))
      | .error .stall => s1
      | .error (.fault c d _) => s1.engineFault j 7 c d ws none

/-- QSIGNAL_PERFORM (R256). -/
def execQsignalPerform (who : StrandId) (j : BitVec 2) (s : State) : Out :=
  .next (s.onStrand who fun t =>
    let q := t.cur.queue j
    if q.halted || t.cur.run = .stopped then t
    else match q.entries with
      | [] => t
      | e :: _ => match e.cmd with
        | .signal wr v add sig => t.stirEngine.atLevel e.level fun u => u.performSignal j wr v add sig
        | _ => t)

/-! ### QFENCE (R255) -/

/-- A queue's oldest command is the fence. -/
def EngineQueue.headIs (q : EngineQueue) (id : Nat) : Bool :=
  match q.entries with
  | [] => false
  | e :: _ => match e.cmd with
    | .fence i _ => decide (i = id)
    | _ => false

/-- A queue holds the fence. -/
def EngineQueue.holds (q : EngineQueue) (id : Nat) : Bool :=
  q.entries.any fun e => match e.cmd with
    | .fence i _ => decide (i = id)
    | _ => false

/-- Every queue of the set that still holds the fence is not halted and has it as its oldest command. -/
def Strand.fenceReady (c : Strand) (id : Nat) (js : List Nat) : Bool :=
  js.all fun j =>
    let q := c.queue (BitVec.ofNat 2 j)
    !q.holds id || (q.headIs id && !q.halted)

/-- The queue of the set whose entry of the fence has the notify. -/
def Strand.fenceNotify (c : Strand) (id : Nat) (js : List Nat) : Option (BitVec 2 × QEntry × Word) :=
  js.findSome? fun j =>
    let q := c.queue (BitVec.ofNat 2 j)
    if q.headIs id then
      match q.entries with
      | [] => none
      | e :: _ => e.ntf.map fun a => (BitVec.ofNat 2 j, e, a)
    else none

/-- The fence leaves every queue of its set. -/
def State.popFence (s : State) (id : Nat) (js : List Nat) : State :=
  js.foldl (fun t j => if (t.cur.queue (BitVec.ofNat 2 j)).headIs id then t.popEngine (BitVec.ofNat 2 j) else t) s

/-- QFENCE_PASS (R255): the fence passes and its notify is performed, or its queue halts on the notify. -/
def execQfencePass (who : StrandId) (j : BitVec 2) (s : State) : Out :=
  .next (s.onStrand who fun t =>
    let q := t.cur.queue j
    match q.entries with
    | [] => t
    | e :: _ => match e.cmd with
      | .fence id js =>
        if !t.cur.fenceReady id js || t.cur.run = .stopped then t
        else match t.cur.fenceNotify id js with
          | none => t.popFence id js
          | some (k, f, a) => t.atLevel f.level fun u =>
            match u.addWord a 1 with
            | .ok u1 => (u1.popFence id js).holdWatch k [(a.toNat, 8)]
            | .error .stall => u
            | .error (.fault c d _) => u.haltEngine k 6 c d
      | _ => t)

/-! ### Kind-E watchpoints (R332) -/

/-- trval of an imprecise match. -/
def impreciseVal (h : BitVec 6 × Word) : Word := BitVec.ofNat 64 (2 ^ 63 + h.1.toNat * 2 ^ 56 + h.2.toNat % 2 ^ 56)

/-- The match held longest is raised before the next instruction; not while IN is 1 (R351). -/
def State.raiseHeldWatch (s : State) : State :=
  match s.cur.watchHeld with
  | [] => s
  | h :: rest =>
    if s.cur.trIn then s
    else (s.withCur { s.cur with watchHeld := rest }).takeTrap {
      cause := .watch, rk := 0, slot := 0, tpc := s.cur.pc, tval := impreciseVal h, pages := [] }

/-- WATCH_IMPRECISE (R332): a match held for a queue of the strand is raised at a boundary. -/
def execWatchImprecise (who : StrandId) (j : BitVec 2) (s : State) : Out :=
  .next (s.onStrand who fun t =>
    match t.cur.watchHeld with
    | h :: _ => if h.1.toNat % 4 = j.toNat ∧ t.cur.atBoundary then t.raiseHeldWatch else t
    | [] => t)

end Sys2Proof.Machine
end

