-- ==== Sys2Proof/Machine/Gang.lean ====
section
/-! DEFINITION. Machine/Gang.lean: effective levels, placement, the start of tasks, and the stop and resumption of gangs
(R95, R102 to R108, R215, R356 to R358). -/

namespace Sys2Proof.Machine

/-! ### Effective levels and waiting gangs (R102, R104, R358) -/

/-- The effective level: PRIO less one for each full 10 ms ready, never below 0 (R102). -/
def HwQueue.level (h : HwQueue) : Nat := h.prio - h.aged

/-- The effective level of a queue, and so of its launches. -/
def State.levelOf (s : State) (q : QueueId) : Nat := ((s.hwq? q).map HwQueue.level).getD 3

/-- A launch waits for strands: it is not placed yet, or it is pre-empted. -/
def Launch.waits (l : Launch) : Bool := decide (l.state = .waiting) || decide (l.state = .preempted)

/-- Another gang of the partition waits for strands at a level that satisfies a condition. -/
def State.gangWaits (s : State) (part me : Nat) (lvl : Nat → Bool) : Bool :=
  s.launches.any fun l => decide (l.lid ≠ me) && decide (l.queue.part = part) && l.waits && lvl (s.levelOf l.queue)

/-- Selection is due on a partition's die (R102). -/
def State.selectDue (s : State) (part : Nat) : State :=
  let a := Act.select (s.dieOf part)
  if s.agenda.contains a then s else { s with agenda := s.agenda ++ [a] }

/-! ### Placement (R106, R107, R108, R215) -/

/-- A strand and the lane groups it is to hold. -/
structure Seat where
  id : StrandId
  lanes : BitVec 8
  deriving DecidableEq, Repr

/-- The seats that strands with a task hold. -/
def seatsOf (cs : List Strand) : List Seat := (cs.filter fun c => c.task.isSome).map fun c => { id := c.id, lanes := c.lanegrant }

/-- The count of lane groups of GRANT (Table 5-8). -/
def grantCount (g : BitVec 3) : Nat :=
  match g.toNat with
  | 0 => 0
  | 1 => 1
  | 2 => 2
  | 3 => 4
  | _ => 8

/-- The lane groups of a core that seats hold. -/
def lanesHeldOn (occ : List Seat) (core : BitVec 6) : BitVec 8 :=
  (occ.filter fun x => x.id.core = core).foldl (fun a x => a ||| x.lanes) 0

/-- The lowest aligned run of g lane groups that none holds; the empty run for 0 (R106). -/
def alignedRun (g : Nat) (held : BitVec 8) : Option (BitVec 8) :=
  if g = 0 then some 0
  else
    ((List.range (8 / g)).map fun i => BitVec.ofNat 8 ((2 ^ g - 1) * 2 ^ (g * i))).find? fun r => decide (r &&& held = 0)

/-- A core's record. -/
def State.core? (s : State) (core : BitVec 6) : Option CoreState := s.cores.find? fun k => k.core = core

/-- A strand core of a partition is present (R17, R18). -/
def State.present (s : State) (id : StrandId) : Bool :=
  match s.core? id.core with
  | none => false
  | some k => !k.absent && !k.lostStrands.contains id.sid

/-- The cores of a partition, ascending. -/
def Partition.cores (p : Partition) : List (BitVec 6) := (List.range p.count).map fun i => BitVec.ofNat 6 (p.first + i)

/-- The strand kept for the supervisor context (R107). Where that strand core is absent, R18 counts six strands of the core for
ordinary launches, as if another were kept, while R107 and R108 name strand 0 alone: the model keeps strand 0, so a SUP launch waits and
the core offers seven (DESIGN CHOICE, log 58). -/
def Partition.supStrand (p : Partition) : StrandId := { core := BitVec.ofNat 6 p.first, sid := 0 }

/-- A strand is free for an ordinary task (R107). -/
def State.strandFree (s : State) (p : Partition) (occ : List Seat) (id : StrandId) : Bool :=
  s.present id && decide (id ≠ p.supStrand) && !occ.any fun x => x.id = id

/-- A seat on a strand with g lane groups, if both are free. -/
def State.seatAt (s : State) (p : Partition) (occ : List Seat) (g : Nat) (id : StrandId) : Option Seat :=
  if s.strandFree p occ id then (alignedRun g (lanesHeldOn occ id.core)).map fun r => { id := id, lanes := r } else none

/-- FirstFree of R106. -/
def State.firstFree (s : State) (p : Partition) (occ : List Seat) (die : Option Nat) (g : Nat) : Option Seat :=
  (p.cores.filter fun c => match die with
    | none => true
    | some d => decide (c.toNat / 32 = d)).findSome? fun c =>
      (List.range 8).findSome? fun i => s.seatAt p occ g { core := c, sid := BitVec.ofNat 3 i }

/-- Place of R106: every task in ascending k, each with the die it prefers, or none. -/
def State.placeTasks (s : State) (p : Partition) (g : Nat) : List Seat → List (Option Nat) → Option (List Seat)
  | _, [] => some []
  | occ, pref :: rest =>
    let seat := (s.firstFree p occ pref g).or (pref.bind fun d => s.firstFree p occ (some (1 - d)) g)
    match seat with
    | none => none
    | some x => (s.placeTasks p g (occ ++ [x]) rest).map fun t => x :: t

/-- The die each task prefers (R106). -/
def Launch.prefs (l : Launch) (p : Partition) : List (Option Nat) :=
  (List.range l.tasks).map fun k =>
    if l.levelD.isSome && decide (p.count = 64) then some (k / max 1 l.tripC % 2) else none

/-- The seats of a launch while some seats are held: R106, or for a SUP launch strand 0 of the lowest core (R108). -/
def State.seatsFor (s : State) (p : Partition) (l : Launch) (occ : List Seat) : Option (List Seat) :=
  let g := grantCount l.grant
  if l.sup then
    let id := p.supStrand
    if s.present id && !occ.any fun x => x.id = id then
      (alignedRun g (lanesHeldOn occ id.core)).map fun r => [{ id := id, lanes := r }]
    else none
  else s.placeTasks p g occ (l.prefs p)

/-- The seats of a launch as things stand. -/
def State.seatsNow (s : State) (l : Launch) : Option (List Seat) :=
  match s.partition? l.queue.part with
  | none => none
  | some p => s.seatsFor p l (seatsOf s.strands)

/-! ### The start of tasks (R95, R5) -/

/-- The task contexts in use. -/
def State.contexts (s : State) : List (BitVec 16) :=
  ((s.strands.filter fun c => c.task.isSome) ++ s.parked).map (·.taskCtx) ++ s.saved.map (·.1)

/-- The lowest task context that is not in use (DESIGN CHOICE, log 12). -/
def freshContext (used : List (BitVec 16)) : BitVec 16 :=
  (((List.range (used.length + 1)).map fun i => BitVec.ofNat 16 (0x8000 + i)).find? fun x => !used.contains x).getD 0xFFFF

/-- A strand as a task's first issue finds it (R95, R5, R23, R34, R108). -/
def Launch.strandFor (l : Launch) (p : Partition) (k : Nat) (seat : Seat) (ctx : BitVec 16) (gen : Nat) : Strand :=
  let base : Word := BitVec.ofNat 64 p.arenaBase
  let c := k % max 1 l.tripC
  let d := k / max 1 l.tripC
  let idx : Vector Word 4 := Vector.ofFn fun (i : Fin 4) =>
    if l.levelC = some i.val then BitVec.ofNat 64 (c * max 1 l.fuse)
    else if l.levelD = some i.val then BitVec.ofNat 64 d else 0
  let x := (Vector.replicate 32 (0 : Word)).set 3 l.param
  let x := x.set 2 (if l.ssize = 0 then 0 else l.stack + BitVec.ofNat 64 ((k + 1) * l.ssize))
  { Strand.reset seat.id with
    part := p.pid, run := .running, task := some (l.lid, k), pc := base + BitVec.ofNat 64 l.entry, x := x
    level := if l.sup then .s else .a
    lanegrant := seat.lanes, lidx := idx, trvec := l.trvec
    trpend := BitVec.ofNat 64 (landingVA seat.id + 0x1000), trpages := BitVec.ofNat 64 (landingVA seat.id)
    vowner := ctx, ctxid := ctx, taskCtx := ctx
    arenabase := base, arenabound := BitVec.ofNat 64 (p.arenaBase + p.arenaSize)
    vec := { VecPart.reset with
      virt := l.virt, vnreg := l.vnreg, slices := List.replicate (laneCount seat.lanes) .reset }
    gen := gen }

/-- One task put on its seat. -/
def State.seatTask (s : State) (l : Launch) (p : Partition) (k : Nat) (seat : Seat) : State :=
  let ctx := freshContext s.contexts
  s.mapStrands fun c => if c.id = seat.id then l.strandFor p k seat ctx c.gen else c

/-- A launch changed. -/
def State.mapLaunch (s : State) (l : Nat) (f : Launch → Launch) : State :=
  { s with launches := s.launches.map fun x => if x.lid = l then f x else x }

/-- A launch starts on its seats: its tasks, its packet among those started, its queue's level back at PRIO (R102), its
reservation gone (R103). -/
def State.startLaunch (s : State) (l : Launch) (p : Partition) (seats : List Seat) : State :=
  let s1 := (seats.zipIdx).foldl (fun t x => t.seatTask l p x.2 x.1) s
  let s2 := s1.mapLaunch l.lid fun x => { x with state := .running, seq := s1.module.startSeq }
  let s3 := s2.mapHwq l.queue fun h => { h with aged := 0 }
  { s3 with
    module := { s3.module with startSeq := s3.module.startSeq + 1 }
    reservations := s3.reservations.filter fun r => r.2 ≠ l.lid }

/-! ### Stopping a gang (R103, R356, R357, R358) -/

/-- A strand that holds no task, its task moved elsewhere: the generation stays (R364). -/
def Strand.vacate (c : Strand) : Strand := { Strand.reset c.id with gen := c.gen }

/-- The strand leaves a pre-emption point where the Landing stops it: a sleeping VWAIT is to begin again, with what its
convoy has popped (R327, R356). -/
def Strand.leavePoint (c : Strand) : Strand := if c.run = .vwait then { c with reissue := .fromVstart, vwait := none } else c

/-- The strand stops for the pre-emption of its gang. -/
def Strand.stopped (c : Strand) : Strand := { c.leavePoint with run := .preempted, preempt := .none, moving := false }

/-- The issuing strand stops for the pre-emption of its gang; counted unless PREEMPT has counted this stop (Table 23-4). -/
def State.stopStrand (s : State) : State :=
  let s1 := if s.cur.preempt = .raised then s else s.count 0x0C 1
  s1.withCur s1.cur.stopped

/-- A pre-emption is requested of a strand (R357). Where it arrives is a free value: at the next boundary, or at a step of
the matrix word that comes before one (R283, R305, R356). -/
def Strand.ask (f : Word) (c : Strand) : Strand :=
  if c.preempt = .none && decide (c.run ≠ .halted) && decide (c.run ≠ .preempted) then
    { c with preempt := if f.getLsbD 0 then .arriving (f.toNat / 2) else .requested }
  else c

/-- A move to a spare is under way: gang pre-emptions that the Landing requests wait until it ends (R398). Which moves hold which gangs:
those of a core of the gang's partition (DEDUCED, log 47). -/
def State.movesPart (s : State) (part : Nat) : Bool :=
  s.module.moving.any fun p => match p with
    | .core n => (s.partition? part).any fun q => decide (q.first ≤ n.toNat) && decide (n.toNat < q.first + q.count)
    | .strandCore w => (s.partition? part).any fun q => decide (q.first ≤ w.core.toNat) && decide (w.core.toNat < q.first + q.count)
    | _ => false

/-- A pre-emption that is requested of the strand in front waits for the end of a move (R398). -/
def State.held (s : State) : Bool := s.movesPart s.cur.part

/-- A pre-emption is requested of a launch's gang (R357). -/
def State.askGang (s : State) (l : Nat) : State :=
  let ask := fun (c : Strand) (i : Nat) => if c.ofLaunch l then c.ask (Config.freeWord (s.free + i)) else c
  { s with
    cur := ask s.cur 0, others := s.others.zipIdx.map fun x => ask x.1 (x.2 + 1)
    free := s.free + s.others.length + 1 }

/-- A pre-emption of the gang is outstanding (R358). -/
def State.gangAsked (s : State) (l : Nat) : Bool :=
  s.strands.any fun c => c.ofLaunch l && match c.preempt with
    | .requested => true
    | .arriving _ => true
    | .raised => true
    | .forced => true
    | .none => false
    | .ending => false

/-- Every strand of the gang has stopped, and some task of it is still to run (R357). -/
def State.gangStopped (s : State) (l : Nat) : Bool :=
  let cs := s.strands.filter fun c => c.ofLaunch l
  (cs.all fun c => decide (c.run = .preempted) || decide (c.run = .halted)) && cs.any fun c => c.run = .preempted

/-- A gang that has stopped leaves its strands: its stopped tasks wait, and the strands and lane groups are free (R103). -/
def State.parkGang (s : State) (l : Nat) : State :=
  if !s.gangStopped l then s
  else
    let out := s.strands.filter fun c => c.ofLaunch l && decide (c.run = .preempted)
    let s1 := (s.mapStrands fun c => if !c.ofLaunch l then c else if c.run = .halted then c.release else c.vacate).mapLaunch l
      fun x => { x with state := .preempted }
    let s2 := { s1 with parked := s1.parked ++ out }
    match s2.launch? l with
    | none => s2
    | some x => s2.selectDue x.queue.part

/-! ### Resumption (R215, R316, R358) -/

/-- The seat of a pre-empted task: the strandid it left, on its core if it has used the Larder, with as many lane groups. -/
def State.resumeSeat (s : State) (p : Partition) (occ : List Seat) (c : Strand) (sup : Bool) : Option Seat :=
  let g := laneCount c.lanegrant
  let cores := if c.usedLarder then p.cores.filter fun k => k = c.id.core else p.cores
  cores.findSome? fun k =>
    let id : StrandId := { core := k, sid := c.id.sid }
    if sup then
      if s.present id && !occ.any fun x => x.id = id then
        (alignedRun g (lanesHeldOn occ id.core)).map fun r => { id := id, lanes := r }
      else none
    else s.seatAt p occ g id

/-- The seats of all tasks of a pre-empted gang, or none. -/
def State.resumeSeats (s : State) (p : Partition) (sup : Bool) : List Seat → List Strand → Option (List Seat)
  | _, [] => some []
  | occ, c :: rest =>
    match s.resumeSeat p occ c sup with
    | none => none
    | some x => (s.resumeSeats p sup (occ ++ [x]) rest).map fun t => x :: t

/-- The Landing's words of a strand follow its task to another strand; `old` is memory before any of them moved. -/
def moveRegion (old m : Memory) (src dst : StrandId) : Memory :=
  if src = dst then m
  else SMap.setRange Memory.fresh m (landingPA dst) (SMap.getRange Memory.fresh old (landingPA src) 0x3000)

/-- A pre-empted task put on its seat. -/
def State.reseat (s : State) (c : Strand) (seat : Seat) : State :=
  s.mapStrands fun d =>
    if d.id = seat.id then
      { c with
        id := seat.id, strandid := seat.id.sid, coreid := seat.id.core, lanegrant := seat.lanes, run := .running, preempt := .none, gen := d.gen
        trpend := BitVec.ofNat 64 (landingVA seat.id + 0x1000), trpages := BitVec.ofNat 64 (landingVA seat.id) }
    else d

/-- The parked tasks of a launch in ascending task number, those first that must resume on the core they left (R215). -/
def State.parkedOf (s : State) (l : Nat) : List Strand :=
  let cs := (s.parked.filter fun c => c.ofLaunch l).mergeSort fun a b => decide (a.taskNo ≤ b.taskNo)
  (cs.filter fun c => c.usedLarder) ++ cs.filter fun c => !c.usedLarder

/-- The module has stopped at 115 °C: the Landing starts and resumes nothing until a power cycle (R405). -/
def State.tripped (s : State) : Bool := decide (s.module.phase = .tripped)

/-- The gang of a pre-empted launch resumes as a whole, if its strands and lane groups are free (R103, R215). -/
def State.resumeGang (s : State) (l : Nat) : State :=
  match s.launch? l with
  | none => s
  | some x =>
    if x.state ≠ .preempted || s.tripped then s
    else match s.partition? x.queue.part with
      | none => s
      | some p =>
        let cs := s.parkedOf l
        match s.resumeSeats p x.sup (seatsOf s.strands) cs with
        | none => s
        | some seats =>
          let s1 := (cs.zip seats).foldl (fun t y => t.reseat y.1 y.2) s
          let mem := (cs.zip seats).foldl (fun m y => moveRegion s.mem m y.1.id y.2.id) s.mem
          ({ s1 with mem := mem, parked := s1.parked.filter fun c => !c.ofLaunch l }).mapLaunch l fun y => { y with state := .running }

end Sys2Proof.Machine
end

