-- ==== Sys2Proof/Machine/Packets.lean ====
section
/-! DEFINITION. Machine/Packets.lean: the packets of a hardware queue: their validation, their steps and their retirement
(R20 to R26, R94 to R101), and the start of a LAUNCH. -/

namespace Sys2Proof.Machine

/-! ### Fields of a packet (Tables 5-5, 5-7, 5-8) -/

/-- Word i of a packet. -/
def pw (p : Packet) (i : Nat) : Nat := (p.words.getD i 0).toNat

/-- Bits hi to lo of a number. -/
def bitField (w hi lo : Nat) : Nat := w / 2 ^ lo % 2 ^ (hi - lo + 1)

/-- TYPE. -/
def pktType (p : Packet) : Nat := pw p 0 % 256
/-- CONC. -/
def pktConc (p : Packet) : Bool := pw p 0 / 256 % 2 = 1
/-- ORDERED. -/
def pktOrdered (p : Packet) : Bool := pw p 0 / 512 % 2 = 1
/-- EVT. -/
def pktEvt (p : Packet) : Bool := pw p 0 / 1024 % 2 = 1
/-- SUP. -/
def pktSup (p : Packet) : Bool := pw p 0 / 2048 % 2 = 1
/-- STEPS. -/
def pktSteps (p : Packet) : Nat := pw p 0 / 4096 % 16
/-- TAG. -/
def pktTag (p : Packet) : BitVec 16 := BitVec.ofNat 16 (pw p 0 / 65536)

/-- Byte i of a packet. -/
def pktByte (p : Packet) (i : Nat) : Nat := pw p (i / 8) / 256 ^ (i % 8) % 256

/-- The seven bytes of a DEPEND step. -/
def dependStep (p : Packet) (i : Nat) : Nat :=
  (List.range 7).foldr (fun k a => pktByte p (8 + 7 * i + k) + 256 * a) 0

/-- The queue that a DEPEND step names. -/
def dependQueue (p : Packet) (i : Nat) : Nat := dependStep p i % 64

/-- The threshold of a DEPEND step. -/
def dependThreshold (p : Packet) (i : Nat) : Nat := dependStep p i / 256

/-- A signal in three words. -/
def pktSignal (p : Packet) (i : Nat) : Signal :=
  { a := BitVec.ofNat 64 (pw p i), v := BitVec.ofNat 64 (pw p (i + 1)), o := BitVec.ofNat 2 (pw p (i + 2)) }

/-- The completion signal of a LAUNCH. -/
def launchSignal (p : Packet) : Signal := pktSignal p 5

/-! ### QFORMAT (Table 5-9) -/

/-- Words from i to 7 are zero. -/
def zeroFrom (p : Packet) (i : Nat) : Bool := (List.range 8).all fun k => decide (k < i) || decide (pw p k = 0)

/-- An address is 8-byte aligned. -/
def aligned8 (a : Nat) : Bool := a % 8 = 0

/-- The counts of steps of a type (Table 5-7). -/
def stepsOk (t n : Nat) : Bool :=
  match t with
  | 0 => n = 0
  | 2 => 1 ≤ n && n ≤ 3
  | 5 => n = 2
  | 7 => 1 ≤ n && n ≤ 8
  | _ => n = 1

/-- The body of a packet has the form of its type (R94, Tables 5-7 to 5-9). -/
def bodyOk (p : Packet) : Bool :=
  match pktType p with
  | 0 => zeroFrom p 1
  | 1 =>
    decide (pw p 1 / 2 ^ 38 = 0) && decide (pw p 1 / 2 ^ 35 % 2 = 0) && decide (bitField (pw p 1) 34 32 ≤ 4) &&
      decide (pw p 3 % 64 = 0) && decide (pw p 4 % 2 ^ 32 % 64 = 0) && decide (pw p 4 / 2 ^ 32 % 8 = 0) &&
      aligned8 (pw p 5) && decide (pw p 7 ≤ 2)
  | 2 =>
    ((List.range 3).all fun i =>
      if i < pktSteps p then aligned8 (pw p (1 + 2 * i)) else decide (pw p (1 + 2 * i) = 0) && decide (pw p (2 + 2 * i) = 0)) &&
      zeroFrom p 7
  | 3 => aligned8 (pw p 1) && decide (pw p 3 ≤ 2) && zeroFrom p 4
  | 4 => aligned8 (pw p 1) && decide (pw p 3 % 2 ^ 32 ≤ 3) && zeroFrom p 4
  | 5 => aligned8 (pw p 1) && aligned8 (pw p 3) && decide (pw p 5 ≤ 2) && zeroFrom p 6
  | 6 => decide (pw p 3 ≠ 0) && decide (pw p 3 ≤ 2 ^ 32) && zeroFrom p 4
  | 7 => (List.range 8).all fun i =>
      if i < pktSteps p then decide (dependStep p i / 64 % 4 = 0) && decide (dependQueue p i ≠ p.queue.q) else decide (dependStep p i = 0)
  | _ => decide (pw p 1 ≤ 4) && zeroFrom p 2

/-- QFORMAT does not hold. -/
def formatOk (p : Packet) : Bool :=
  decide (pw p 0 / 2 ^ 32 = 0) && stepsOk (pktType p) (pktSteps p) &&
    (decide (pktType p = 1) || !(pktSup p || pktConc p || pktOrdered p)) && bodyOk p

/-! ### QWINDOW (R97, Table 5-3) -/

/-- A window covers a range and grants what it needs. -/
def windowCovers (w : Word × Word) (a len : Nat) (rd wr : Bool) : Bool :=
  let base := w.1.toNat % 2 ^ 56
  let n := w.2.toNat % 2 ^ 56
  decide (base ≤ a) && decide (a + len ≤ base + n) && (!rd || w.2.getLsbD 56) && (!wr || w.2.getLsbD 57)

/-- A range lies wholly inside one window of the queue; a range of zero bytes needs none (R97). -/
def HwQueue.covers (h : HwQueue) (a len : Nat) (rd wr : Bool) : Bool :=
  decide (len = 0) || h.windows.any fun w => windowCovers w a len rd wr

/-- The address of a signal is covered; no signal needs no window. -/
def HwQueue.coversSignal (h : HwQueue) (g : Signal) : Bool := decide (g.a = 0) || h.covers g.a.toNat 8 true true

/-- The ranges of Table 5-7 that need no descriptor are covered. -/
def HwQueue.windowsOk (h : HwQueue) (p : Packet) : Bool :=
  match pktType p with
  | 1 => h.coversSignal (launchSignal p)
  | 2 => (List.range (pktSteps p)).all fun i => h.covers (pw p (1 + 2 * i)) 8 false true
  | 3 => h.coversSignal (pktSignal p 1)
  | 4 => h.covers (pw p 1) 8 true false
  | 5 => h.covers (pw p 1) 8 false true && h.coversSignal (pktSignal p 3)
  | 6 => h.covers (pw p 1) (pw p 3) true false && h.covers (pw p 2) (pw p 3) false true
  | _ => true

/-- The first check of Table 5-9 that a fetched packet fails (R97); for a LAUNCH, those that need no descriptor. -/
def HwQueue.packetFault (h : HwQueue) (p : Packet) : Option Nat :=
  if 9 ≤ pktType p then some 0x213
  else if !h.opmask.getLsbD (pktType p) || (decide (pktType p = 1) && pktSup p && !h.opmask.getLsbD 15) then some 0x214
  else if !formatOk p then some 0x215
  else if !h.windowsOk p then some 0x216
  else none

/-! ### Faults and retirement -/

/-- A fault of validation or of a step: the queue halts, and head is the faulting packet's index (R93). On a queue that is
STOPPED or HALTED by then, for which Table 5-4 has no row, the fault is recorded in the same way (DESIGN CHOICE, log 27). -/
def State.packetHalt (s : State) (p : Packet) (step code : Nat) : State :=
  let s1 := s.mapHwq p.queue fun h =>
    { h with
      head := p.index, hold := none, active := h.active.filter fun a => a.1 ≠ p.index
      fetched := h.fetched.filter fun x => x.index ≠ p.index, errors := h.errors.filter fun e => e.1 ≠ p.index }
  (s1.setQword p.queue 0x20 (BitVec.ofNat 64 p.index)).haltQueue p.queue (pktTag p) step code p.index

/-- A packet that the Landing performs retires: qdone, then its event (R98). -/
def State.packetDone (s : State) (p : Packet) : State :=
  let s1 := (s.mapHwq p.queue fun h => { h with hold := none }).retirePacket p.queue p.index
  (if pktEvt p then s1.retireEvent p.queue (pktTag p) p.index else s1).selectDue p.queue.part

/-- A packet has started: it is no longer waiting to, and its queue's level is PRIO again (R102). -/
def State.packetStarts (s : State) (p : Packet) (launch : Bool) : State :=
  s.mapHwq p.queue fun h =>
    { h with
      fetched := h.fetched.filter fun x => x.index ≠ p.index
      active := if h.active.any fun a => a.1 = p.index then h.active else h.active ++ [(p.index, launch)]
      aged := 0 }

/-- A packet holds its queue. -/
def State.holdAt (s : State) (p : Packet) (x : Hold) : State := s.mapHwq p.queue fun h => { h with hold := some x }

/-! ### Steps (R98) -/

/-- The outcome of a step: performed, still holding, or a fault. -/
inductive StepResult where
  | done (s : State)
  | holds
  | fault

/-- The outcome of an access by the Landing. -/
def stepOf (r : Except Fail State) : StepResult :=
  match r with
  | .ok s => .done s
  | .error .stall => .holds
  | .error (.trap _) => .fault

/-- Step i of a WRITE, SIGNAL, WRITE_SIGNAL or DEPEND packet; one that meets a data error faults (Table 5-9). -/
def State.packetStep (s : State) (p : Packet) (i : Nat) : StepResult :=
  if s.stepFails p.queue p.index i then .fault
  else match pktType p with
  | 2 => stepOf (s.landingStore p.queue.part (pw p (1 + 2 * i)) (BitVec.ofNat 64 (pw p (2 + 2 * i))))
  | 3 => stepOf (s.doSignal p.queue.part (pktSignal p 1))
  | 5 =>
    if i = 0 then stepOf (s.landingStore p.queue.part (pw p 1) (BitVec.ofNat 64 (pw p 2)))
    else stepOf (s.doSignal p.queue.part (pktSignal p 3))
  | _ =>
    match s.hwq? { p.queue with q := dependQueue p i } with
    | none => .holds
    | some h => if dependThreshold p i ≤ h.qdone then .done s else .holds

/-- The steps of a packet from one on, in index order, each once; a step that faults records QSTEP with its index (R98). -/
def State.packetSteps (s : State) (p : Packet) : Nat → Nat → State
  | 0, _ => s.packetDone p
  | n + 1, i =>
    match s.packetStep p i with
    | .done t => t.packetSteps p n (i + 1)
    | .holds => s.holdAt p (.depend p i)
    | .fault => s.packetHalt p i 0x217

/-- The steps of a packet that are left from one on. -/
def State.stepsFrom (s : State) (p : Packet) (i : Nat) : State := s.packetSteps p (pktSteps p - i) i

/-- The condition of a WAIT (Table 5-7). -/
def waitHolds (c x v : Nat) : Bool :=
  match c with
  | 0 => x = v
  | 1 => x ≠ v
  | 2 => v ≤ x
  | _ => x < v

/-- A WAIT reads its word: it retires where the condition holds, else it holds its queue (R98); a read that meets a data error
faults (Table 5-9). -/
def State.waitLook (s : State) (p : Packet) : State :=
  if s.stepFails p.queue p.index 0 then s.packetHalt p 0 0x217
  else match s.landingRead p.queue.part (pw p 1) 8 with
  | (.ok x, s1) => if waitHolds (pw p 3 % 8) x.toNat (pw p 2) then s1.packetDone p else s1.holdAt p (.wait p)
  | (.error .stall, s1) => s1.holdAt p (.wait p)
  | (.error (.trap _), s1) => s1.packetHalt p 0 0x217

/-- The bytes of a copy between ranges of device memory, which may overlap. -/
def State.runCopyBytes (a b n : Nat) (u : State) : ERun :=
  match u.sortPages (rangeGranules a n ++ rangeGranules b n) with
  | (tbl, u1) =>
    let ss := u1.rangeSpots tbl .load false false a n
    let ds := u1.rangeSpots tbl .store false false b n
    let u2 := u1.touchReads (reached ss)
    match (firstFail ss).or (firstFail ds) with
    | some (k, f) => (.error (failStop f k (u2.copyWrites ss ds)), u2)
    | none => (.ok { writes := u2.copyWrites ss ds, spans := [] }, u2)

/-- The copy of a COPY packet, at S level of its partition (R91): it stalls, faults having written some of its bytes, or is
done (R98), or meets a data error (Table 5-9). -/
def State.copyPacket (s : State) (p : Packet) : State :=
  let back (t : State) : State := t.withCur { t.cur with part := s.cur.part, level := s.cur.level }
  match State.runCopyBytes (pw p 1) (pw p 2) (pw p 3) (s.withCur { s.cur with part := p.queue.part, level := .s }) with
  | (.error .stall, u) => back u
  | (.error (.fault _ _ part), u) => match u.someOf part with
    | (ws, u1) => (back (u1.doWrites ws)).packetHalt p 0 0x217
  | (.ok r, u) =>
    if s.stepFails p.queue p.index 0 then match u.partOf r false with
      | (ws, u1) => (back (u1.doWrites ws)).packetHalt p 0 0x217
    else (back (u.doWrites r.all)).packetDone p

end Sys2Proof.Machine
end

