-- ==== Sys2Proof/Machine/Landing.lean ====
section
/-! DEFINITION. Machine/Landing.lean: the Landing's steps: doorbells, RUN, selection, the packets, the retirement of launches,
pre-emption and resumption of gangs, and the quiescing of engines (R87 to R104, R357, R363, R364, R392). -/

namespace Sys2Proof.Machine

/-! ### The kernel descriptor (R20 to R24) -/

/-- A kernel descriptor as the Landing reads it (Tables 2-1, 2-2). -/
structure KDesc where
  entry : Nat
  control : Nat
  levels : List Nat
  deriving DecidableEq, Repr

/-- PSIZE. -/
def KDesc.psize (k : KDesc) : Nat := bitField k.control 27 16
/-- V. -/
def KDesc.virt (k : KDesc) : Bool := bitField k.control 8 8 = 1
/-- ACC. -/
def KDesc.acc (k : KDesc) : Nat := bitField k.control 7 4
/-- LEVELS. -/
def KDesc.count (k : KDesc) : Nat := bitField k.control 2 0
/-- The level words in use (R22). -/
def KDesc.used (k : KDesc) : List Nat := k.levels.take k.count

/-- The descriptor at a code-arena offset; the Landing reads the arena by physical address. -/
def State.descriptor (s : State) (p : Partition) (off : Nat) : KDesc :=
  let w := fun i => s.mem.readLE (p.arenaBase + off + 8 * i) 8
  { entry := w 0 % 2 ^ 32, control := w 1, levels := [w 2, w 3, w 4, w 5] }

/-- KIND of a level word (Table 2-3). -/
def lvKind (w : Nat) : Nat := bitField w 63 62
/-- R. -/
def lvR (w : Nat) : Bool := bitField w 61 61 = 1
/-- F. -/
def lvF (w : Nat) : Bool := bitField w 60 60 = 1
/-- S. -/
def lvS (w : Nat) : Bool := bitField w 59 59 = 1
/-- TRIP. -/
def lvTrip (w : Nat) : Nat := w % 2 ^ 32

/-- The checks of Table 2-4 from KDESC to KREDUCE. -/
def descFault (size off : Nat) (k : KDesc) : Option Nat :=
  let ls := k.used
  let kinds := fun (n : Nat) => (ls.filter fun w => lvKind w = n).length
  if off % 64 ≠ 0 ∨ size < off + 64 then some 0x201
  else if k.entry % 8 ≠ 0 ∨ size ≤ k.entry then some 0x202
  else if 4 < k.count then some 0x203
  else if 0 < kinds 3 ∨ 1 < kinds 1 ∨ 1 < kinds 2 ∨ ls.any (fun w => decide (lvKind w = 2) && lvF w) then some 0x204
  else if 3 ≤ k.acc ∨ (k.acc = 0 ∧ ls.any fun w => lvR w && (decide (lvKind w ≠ 0) || lvF w)) then some 0x205
  else none

/-- KPARAM without reading: the address or a source offset (Table 2-4). -/
def paramFault (k : KDesc) (param : Nat) : Bool :=
  decide (param % 64 ≠ 0) || k.used.any fun w =>
    lvS w && (decide (lvTrip w / 65536 ≠ 0) || decide (lvTrip w % 8 ≠ 0) || decide (8 * k.psize < lvTrip w % 65536 + 8))

/-- The trip counts of the levels, each parameter word read once (R26); a read that fails is KPARAM, or stalls. Table 2-4 names a
page fault and a protection violation; one that fails with PORTGONE or HOSTGONE, for which it gives no code, is KPARAM too (DESIGN
CHOICE, log 58). -/
def State.readTrips (s : State) (part param : Nat) : List Nat → Except Fail (List Nat) × State
  | [] => (.ok [], s)
  | w :: t =>
    if lvS w then
      match s.landingRead part (param + lvTrip w % 65536) 8 with
      | (.error f, s1) => (.error f, s1)
      | (.ok v, s1) => match s1.readTrips part param t with
        | (.error f, s2) => (.error f, s2)
        | (.ok vs, s2) => (.ok (v.toNat :: vs), s2)
    else match s.readTrips part param t with
      | (.error f, s1) => (.error f, s1)
      | (.ok vs, s1) => (.ok (lvTrip w :: vs), s1)

/-! ### Variants and the code of a launch (R29, R34) -/

/-- The physical length of a launch in bits (R31, R34). -/
def physBits (g vnreg : Nat) : Nat := min 65536 (g * (262144 / vnreg))

/-- The variant that holds the word at an offset, for a kernel that is fused at a physical length (R34). -/
def Partition.variant (p : Partition) (k : KDesc) (phys off : Nat) : Option Variant :=
  if k.virt && decide (16384 < phys) && k.used.any lvF then
    p.variants.find? fun v => v.phys = phys && v.off ≤ off && decide (off < v.off + v.len)
  else none

/-- Where the word at an offset stands for such a kernel: in its variant, or as loaded. -/
def Partition.mapCode (p : Partition) (k : KDesc) (phys off : Nat) : Nat :=
  ((p.variant k phys off).map fun v => v.base + (off - v.off)).getD off

/-- The level that fusion merges: the outermost with F = 1 (DESIGN CHOICE, log 23). -/
def KDesc.fusedLevel (k : KDesc) : Option Nat := (List.range k.used.length).find? fun i => lvF (k.used.getD i 0)

/-- The number of the level of a kind. -/
def KDesc.levelOf (k : KDesc) (kind : Nat) : Option Nat := (List.range k.used.length).find? fun i => lvKind (k.used.getD i 0) = kind

/-- The image that holds an offset. -/
def Partition.imageAt (p : Partition) (off : Nat) : Option (Nat × Nat) := p.images.find? fun i => i.1 ≤ off && decide (off < i.1 + i.2)

/-- The code of a launch (R29). -/
def Partition.codeOf (p : Partition) (desc entry trvec : Nat) : List (Nat × Nat) :=
  match p.imageAt desc, p.imageAt entry, p.imageAt trvec with
  | some a, some b, some c =>
    [a, b, c] ++ (p.variants.filter fun v => [a, b, c].any fun i => i.1 = v.off).map fun v => (v.base, v.len)
  | _, _, _ => [(0, p.arenaSize - p.transSize)]

/-! ### The validation of a LAUNCH (R24, R97) -/

/-- What the validation of a LAUNCH answers: a fault code, a stall of a read, or the launch with the state its reads leave. -/
inductive LaunchCheck where
  | fault (code : Nat) (s : State)
  | stall (s : State)
  | ok (l : Launch) (s : State)

/-- The launch that a validated packet, its descriptor and its trip counts make. -/
def mkLaunch (s : State) (p : Packet) (q : Partition) (k : KDesc) (trips : List Nat) : Launch :=
  let g := bitField (pw p 1) 34 32
  let vnreg := 8 * 2 ^ bitField (pw p 1) 37 36
  let phys := physBits (grantCount (BitVec.ofNat 3 g)) vnreg
  let cl := k.levelOf 1
  let fuse := if (q.variant k phys k.entry).isSome && k.fusedLevel.isSome && decide (k.fusedLevel = cl) then phys / 16384 else 1
  let trip := fun (l : Option Nat) => (l.map fun i => trips.getD i 0).getD 1
  let tripC := (trip cl + fuse - 1) / fuse
  let trvec := pw p 4 / 2 ^ 32
  { lid := s.nextLaunch, queue := p.queue, index := p.index, tag := pktTag p, sup := pktSup p, evt := pktEvt p
    ordered := pktOrdered p, conc := pktConc p, grant := BitVec.ofNat 3 g, vnreg := vnreg
    param := BitVec.ofNat 64 (pw p 2), stack := BitVec.ofNat 64 (pw p 3), ssize := pw p 4 % 2 ^ 32
    trvec := BitVec.ofNat 32 (q.mapCode k phys trvec), entry := q.mapCode k phys k.entry
    signal := launchSignal p, virt := k.virt, tasks := tripC * trip (k.levelOf 2), tripC := tripC, fuse := fuse
    levelC := cl, levelD := k.levelOf 2, code := q.codeOf (pw p 1 % 2 ^ 32) k.entry trvec, state := .waiting, seq := 0
    halted := 0, endRec := none }

/-- KPLACE: the launch could not be placed even alone beside the supervisor context (Table 2-4). -/
def State.unplaceable (s : State) (q : Partition) (l : Launch) : Bool :=
  !l.sup && (s.seatsFor q l (seatsOf (s.strands.filter fun c => match c.task.bind fun t => s.launch? t.1 with
    | some x => x.sup
    | none => false))).isNone

/-- KTASKS, KSUP and KPLACE (Table 2-4), then the stack's window. -/
def State.launchFault (s : State) (h : HwQueue) (q : Partition) (l : Launch) : Option Nat :=
  if 8 * q.count < l.tasks then some 0x208
  else if l.sup && (decide (l.tasks ≠ 1) || s.launches.any fun x =>
      x.sup && decide (x.queue.part = q.pid) && decide (x.state ≠ .waiting)) then some 0x209
  else if s.unplaceable q l then some 0x20A
  else if !h.covers l.stack.toNat (l.tasks * l.ssize) true true then some 0x216
  else none

/-- The checks of a LAUNCH that need its descriptor, in the order of R97. -/
def State.checkLaunch (s : State) (p : Packet) (h : HwQueue) (q : Partition) : LaunchCheck :=
  let off := pw p 1 % 2 ^ 32
  let k := s.descriptor q off
  match descFault q.arenaSize off k with
  | some c => .fault c s
  | none =>
    if !h.covers (pw p 2) (8 * k.psize) true false then .fault 0x216 s
    else if paramFault k (pw p 2) then .fault 0x206 s
    else match s.readTrips q.pid (pw p 2) k.used with
      | (.error .stall, s1) => .stall s1
      | (.error (.trap _), s1) => .fault 0x206 s1
      | (.ok trips, s1) =>
        if trips.any fun t => decide (2 ^ 32 ≤ t) then .fault 0x207 s1
        else
          let l := mkLaunch s1 p q k trips
          match s1.launchFault h q l with
          | some c => .fault c s1
          | none => .ok l s1

/-! ### The start of a launch (R102, R103) -/

/-- Another launch of the partition, at a level or a lesser one as things stand, holds a reservation (R103). -/
def State.reservedBefore (s : State) (l : Launch) (lvl : Nat) : Bool :=
  s.reservations.any fun r => decide (r.1 = l.queue.part) && decide (r.2 ≠ l.lid) &&
    (s.launch? r.2).any fun x => decide (s.levelOf x.queue ≤ lvl)

/-- A launch with its seats starts: it is among the packets started, and its signal is awaited until it is performed or found to
be absent (R101). That a launch has no signal (A = 0) is found when it retires, and not before: R101 does not say (DESIGN CHOICE,
log 58). -/
def State.beginLaunch (s : State) (l : Launch) (q : Partition) (seats : List Seat) : State :=
  (s.startLaunch l q seats).mapHwq l.queue fun h =>
    { h with
      fetched := h.fetched.filter fun x => x.index ≠ l.index
      active := h.active ++ [(l.index, true)], unsignalled := h.unsignalled ++ [l.index] }

/-- The running gangs that a launch at a level may pre-empt, the most recently started first (R103). -/
def State.victims (s : State) (l : Launch) (lvl : Nat) : List Launch :=
  (s.launches.filter fun x =>
    decide (x.state = .running) && !x.sup && decide (x.queue.part = l.queue.part) && decide (lvl < s.levelOf x.queue)).mergeSort
      fun a b => decide (b.seq ≤ a.seq)

/-- The seats that are held once some gangs are gone. -/
def State.seatsWithout (s : State) (vs : List Launch) : List Seat :=
  seatsOf (s.strands.filter fun c => !vs.any fun x => c.ofLaunch x.lid)

/-- The gangs to pre-empt for a launch: as few as make it placeable, else all (R103). -/
def State.toPreempt (s : State) (l : Launch) (q : Partition) (lvl : Nat) : List Launch :=
  let vs := s.victims l lvl
  match (List.range (vs.length + 1)).find? fun n => (s.seatsFor q l (s.seatsWithout (vs.take n))).isSome with
  | some n => vs.take n
  | none => vs

/-- A launch that cannot be placed holds a reservation (R103). -/
def State.reserve (s : State) (l : Launch) : State :=
  if s.reservations.any fun r => r.2 = l.lid then s
  else { s with reservations := s.reservations ++ [(l.queue.part, l.lid)] }

/-- A validated launch starts if it can be placed; else gangs are asked to stop and it holds a reservation, which ends the
selection: Preempt of R102 is over only when they have stopped, and then the launch is placed (DESIGN CHOICE, log 11). The
Bool says that it has started. -/
def State.tryLaunch (s : State) (l : Launch) (q : Partition) : Bool × State :=
  let lvl := s.levelOf l.queue
  if s.reservedBefore l lvl then (false, s)
  else match s.seatsFor q l (seatsOf s.strands) with
    | some seats => (true, s.beginLaunch l q seats)
    | none => (false, ((s.toPreempt l q lvl).foldl (fun t x => t.askGang x.lid) s).reserve l)

/-- The completion signal of a launch, as its queue holds it until it is performed. -/
def Launch.held (l : Launch) : HeldSignal :=
  { index := l.index, signal := l.signal, ordered := l.ordered, evt := l.evt, tag := l.tag }

/-- A launch of no tasks is placed, with its queue's level back at PRIO (R102), and retires at once, with its signal (R23). -/
def State.emptyLaunch (s : State) (l : Launch) : State :=
  let s1 := s.mapHwq l.queue fun h =>
    { h.hold1 l.held with
      fetched := h.fetched.filter fun x => x.index ≠ l.index
      active := h.active ++ [(l.index, true)], unsignalled := h.unsignalled ++ [l.index], aged := 0 }
  { s1 with module := { s1.module with startSeq := s1.module.startSeq + 1 } }.releaseHeld l.queue

/-- A fetched LAUNCH (R97): it is refused with a fault, or becomes a launch that starts or waits. -/
def State.takeLaunch (s : State) (p : Packet) : State :=
  match s.hwq? p.queue, s.partition? p.queue.part with
  | some h, some q =>
    match s.checkLaunch p h q with
    | .fault c s1 => s1.packetHalt p 0 c
    | .stall s1 => s1.mapHwq p.queue fun x => { x with fetched := [p] }
    | .ok l s1 =>
      let s2 := { s1 with nextLaunch := s1.nextLaunch + 1 }
      if l.tasks = 0 then (s2.emptyLaunch l).selectDue q.pid
      else ({ s2 with launches := s2.launches ++ [l] }.tryLaunch l q).2
  | _, _ => s

/-! ### Packets (R98) -/

/-- A packet that has passed Table 5-9 is performed, or starts to be. -/
def State.performPacket (s : State) (p : Packet) : State :=
  let s1 := s.packetStarts p false
  match pktType p with
  | 0 => s1.packetDone p
  | 1 => s.takeLaunch p
  | 4 => s1.waitLook p
  | 6 => s1.holdAt p (.copy p)
  | 8 => s1.packetDone p
  | _ => s1.stepsFrom p 0

/-- A fetched packet is validated and performed (R97, R98); nothing where its queue does not exist, or once the module has
tripped (R405). -/
def State.runPacket (s : State) (p : Packet) : State :=
  match s.hwq? p.queue with
  | none => s
  | some h =>
    if s.tripped then s
    else match h.packetFault p with
      | some c => s.packetHalt p 0 c
      | none => s.performPacket p

/-- A packet of one type is run; one of another type is not this step's. -/
def packetStepOf (t : Nat) (p : Packet) (s : State) : Out := .next (if pktType p = t then s.runPacket p else s)

/-- NOP. -/
def execNop (p : Packet) (s : State) : Out := packetStepOf 0 p s
/-- LAUNCH (R97). -/
def execLaunch (p : Packet) (s : State) : Out := packetStepOf 1 p s
/-- WRITE. -/
def execWrite (p : Packet) (s : State) : Out := packetStepOf 2 p s
/-- SIGNAL. -/
def execSignal (p : Packet) (s : State) : Out := packetStepOf 3 p s
/-- WAIT. -/
def execWait (p : Packet) (s : State) : Out := packetStepOf 4 p s
/-- WRITE_SIGNAL. -/
def execWriteSignal (p : Packet) (s : State) : Out := packetStepOf 5 p s
/-- COPY. -/
def execCopy (p : Packet) (s : State) : Out := packetStepOf 6 p s
/-- DEPEND. -/
def execDepend (p : Packet) (s : State) : Out := packetStepOf 7 p s
/-- FENCE: every write is performed at once here (log 4). -/
def execFencePacket (p : Packet) (s : State) : Out := packetStepOf 8 p s

/-- What holds a queue. -/
def State.holdOf (s : State) (q : QueueId) : Option Hold := (s.hwq? q).bind (·.hold)

/-- WAIT_RECHECK (R98). -/
def execWaitRecheck (q : QueueId) (s : State) : Out :=
  .next (match s.holdOf q with
    | some (.wait p) => s.waitLook p
    | some (.depend _ _) => s
    | some (.copy _) => s
    | none => s)

/-- WAIT_TIMEOUT (R98): QTIMEOUT where the WAIT has a timeout. -/
def execWaitTimeout (q : QueueId) (s : State) : Out :=
  .next (match s.holdOf q with
    | some (.wait p) => if pw p 3 / 2 ^ 32 = 0 then s else s.packetHalt p 0 0x218
    | some (.depend _ _) => s
    | some (.copy _) => s
    | none => s)

/-- COPY_DONE (R98); not once the module has tripped (R405). -/
def execCopyDone (q : QueueId) (s : State) : Out :=
  .next (match s.holdOf q with
    | some (.copy p) => if s.tripped then s else s.copyPacket p
    | some (.wait _) => s
    | some (.depend _ _) => s
    | none => s)

/-- DEPEND_SATISFIED (R98): the holding step is tried again. -/
def execDependSatisfied (q : QueueId) (s : State) : Out :=
  .next (match s.holdOf q with
    | some (.depend p i) => s.stepsFrom p i
    | some (.wait _) => s
    | some (.copy _) => s
    | none => s)

/-! ### Selection (R91, R102) -/

/-- The waiting launch of a queue. -/
def State.waitingLaunch (s : State) (q : QueueId) : Option Launch :=
  s.launches.find? fun l => decide (l.queue = q) && decide (l.state = .waiting)

/-- The slot of a packet (R88). -/
def HwQueue.slot (h : HwQueue) (n : Nat) : Nat := h.ring.toNat + 64 * (n % 2 ^ h.size)

/-- The read of a slot through the supervisor's translation (R91). -/
def State.readSlot (s : State) (h : HwQueue) : Except Fail Packet × State :=
  let a := h.slot h.head
  if 2 ^ 56 ≤ a then (.error (.trap .access), s)
  else match s.translate (s.landingVia h.id.part) .s a .load false with
    | (.error f, s1) => (.error f, s1)
    | (.ok x, s1) =>
      let ws := (List.range 8).map fun i => BitVec.ofNat 64 (s1.readPlace { x.place with addr := x.place.addr + 8 * i } 8)
      (.ok { queue := h.id, index := h.head, words := ws }, s1.touch (s1.landingVia h.id.part) x .load)

/-- A packet's start condition (Table 5-10), with no launch of the queue waiting. -/
def HwQueue.mayStart (h : HwQueue) (p : Packet) : Bool :=
  if pktType p = 1 && pktConc p then h.active.all (·.2) else h.active.isEmpty

/-- The tail of a queue. -/
def State.tailOf (s : State) (q : QueueId) : Nat := (s.qword q 0x18).toNat

/-- A queue has something that may start: a launch or a packet fetched before, or a packet published. -/
def State.queueReady (s : State) (h : HwQueue) : Bool :=
  (s.waitingLaunch h.id).isSome || decide (h.fetched ≠ []) ||
    (decide (h.state = .running) && h.hold.isNone && decide (h.head < s.tailOf h.id))

/-- The fetch of a queue's next packet, if it may start: head advances (R91), and the packet runs. A slot that cannot be read
gives no TYPE, and so no start condition: QFETCH is recorded, with TAG 0, once every earlier packet is a launch that has
started (DESIGN CHOICE, log 27). -/
def State.fetchNext (s : State) (h : HwQueue) : State :=
  match s.readSlot h with
  | (.error .stall, s1) => s1
  | (.error (.trap _), s1) =>
    if h.active.all (·.2) then s1.haltQueue h.id 0 0 0x212 h.head else s1
  | (.ok p, s1) =>
    if !h.mayStart p then s1
    else
      let s2 := (s1.mapHwq h.id fun x => { x with head := x.head + 1 }).setQword h.id 0x20 (BitVec.ofNat 64 (h.head + 1))
      s2.runPacket p

/-- What serving a queue in a pass comes to: it was topped up, the selection goes on, or it ends (R102). -/
inductive Served where
  | topped (s : State)
  | goOn (s : State)
  | ends (s : State)

/-- The round-robin position of a level. -/
def State.setRr (s : State) (die : BitVec 1) (lvl : Nat) (q : QueueId) : State :=
  { s with rr := (s.rr.filter fun r => !(decide (r.1 = die) && decide (r.2.1 = lvl))) ++ [(die, lvl, q)] }

/-- A launch of the queue waits after the queue was served, and holds a reservation: the selection ends (R102). -/
def State.endsSelect (s : State) (q : QueueId) : Bool :=
  match s.waitingLaunch q with
  | none => false
  | some l => s.reservations.any fun r => r.2 = l.lid

/-- After a queue was served: round robin moves past a queue whose launch was placed; a reservation ends the selection. -/
def State.afterServe (s0 s : State) (die : BitVec 1) (lvl : Nat) (q : QueueId) : Served :=
  if s.endsSelect q then .ends s
  else if s0.module.startSeq < s.module.startSeq then .goOn (s.setRr die lvl q) else .goOn s

/-- One queue served in a pass. -/
def State.serve (s : State) (die : BitVec 1) (lvl : Nat) (q : QueueId) : Served :=
  match s.hwq? q with
  | none => .goOn s
  | some h =>
    if h.deficit ≤ 0 then .topped (s.mapHwq q fun x => { x with deficit := x.deficit + x.quantum })
    else match s.waitingLaunch q, h.fetched with
      | some l, _ => match s.partition? q.part with
        | none => .goOn s
        | some p => s.afterServe (s.tryLaunch l p).2 die lvl q
      | none, p :: _ => s.afterServe (s.runPacket p) die lvl q
      | none, [] =>
        if s.queueReady h then s.afterServe (s.fetchNext h) die lvl q else .goOn s

/-- One pass over queues: the state, the queues topped up, and whether the selection ends. -/
def State.selectPass (s : State) (die : BitVec 1) (lvl : Nat) : List QueueId → State × List QueueId × Bool
  | [] => (s, [], false)
  | q :: t =>
    match s.serve die lvl q with
    | .ends s1 => (s1, [], true)
    | .goOn s1 => s1.selectPass die lvl t
    | .topped s1 => match s1.selectPass die lvl t with
      | (s2, qs, e) => (s2, q :: qs, e)

/-- The passes of a level; a queue is topped up at most twice, so the passes end (R102). -/
def State.selectLevel (s : State) (die : BitVec 1) (lvl : Nat) : Nat → List QueueId → State × Bool
  | 0, _ => (s, false)
  | fuel + 1, qs =>
    if qs = [] then (s, false)
    else match s.selectPass die lvl qs with
      | (s1, _, true) => (s1, true)
      | (s1, rest, false) => s1.selectLevel die lvl fuel rest

/-- The ready queues of a level on a die, in round-robin order. -/
def State.readyQueues (s : State) (die : BitVec 1) (lvl : Nat) : List QueueId :=
  let qs := (s.hwq.filter fun h => decide (s.dieOf h.id.part = die) && decide (h.level = lvl) && s.queueReady h).map (·.id)
  match s.rr.find? fun r => r.1 = die && r.2.1 = lvl with
  | none => qs
  | some r =>
    let after := fun (q : QueueId) => decide (r.2.2.part < q.part) || (decide (r.2.2.part = q.part) && decide (r.2.2.q < q.q))
    qs.filter after ++ qs.filter fun q => !after q

/-- Select (R102) over the levels from one on. -/
def State.selectFrom (s : State) (die : BitVec 1) : Nat → Nat → State
  | 0, _ => s
  | fuel + 1, lvl =>
    match s.selectLevel die lvl 4 (s.readyQueues die lvl) with
    | (s1, true) => s1
    | (s1, false) => s1.selectFrom die fuel (lvl + 1)

/-- The deficit of a queue that has emptied is 0 (R102). -/
def State.clearDeficits (s : State) : State :=
  { s with hwq := s.hwq.map fun h => if h.qdone = s.tailOf h.id then { h with deficit := 0 } else h }

/-- The queues of a die. -/
def State.queuesOf (s : State) (die : BitVec 1) : List QueueId :=
  (s.hwq.filter fun h => decide (s.dieOf h.id.part = die)).map (·.id)

/-- The signals held on a die, each performed where it may be: one that stalled is tried again (R99, R101, R373). -/
def State.retrySignals (s : State) (die : BitVec 1) : State :=
  (s.queuesOf die).foldl (fun (t : State) q => t.releaseHeld q) s

/-- Selection on a die: the pending bits are cleared, signals that stalled are tried again, then Select (R90, R102); a module
that has tripped starts nothing (R405). -/
def State.select (s : State) (die : BitVec 1) : State :=
  if s.tripped then s
  else
    let s1 := { s with pending := s.pending.filter fun q => s.dieOf q.part ≠ die }
    (s1.retrySignals die).clearDeficits.selectFrom die 4 0

/-- LANDING_SELECT (R102). -/
def execLandingSelect (die : BitVec 1) (s : State) : Out := .next (s.select die)

/-! ### Doorbells and RUN (R87 to R92) -/

/-- tail − qdone is greater than the ring (R88). -/
def State.overRun (s : State) (h : HwQueue) : Bool := decide (2 ^ h.size < s.tailOf h.id - h.qdone)

/-- The fault QOVER: fault1 holds the index of the first packet that does not fit (R88); TAG is 0, for that packet is in no
slot (DESIGN CHOICE, log 27). -/
def State.haltOver (s : State) (h : HwQueue) : State := s.haltQueue h.id 0 0 0x211 (h.qdone + 2 ^ h.size)

/-- An earlier request of a session that has come on a path is answered: those that wait behind it are due, in their order
(R380). -/
def State.resumeRequests (s : State) (session path : Nat) : State :=
  let due := (s.sessions.filter fun x => decide (x.num = session)).flatMap fun x => x.waiting.filter fun m => decide (m.path = path)
  { s with
    agenda := due.map Act.request ++ s.agenda
    sessions := s.sessions.map fun x =>
      if x.num = session then { x with waiting := x.waiting.filter fun m => decide (m.path ≠ path) } else x }

/-- The tail update of a submission whose turn has come: it is the queue's doorbell, and the response follows (R407). -/
def State.publish (s : State) (x : PendingSubmit) : State :=
  let s1 := s.setQword x.queue 0x18 (BitVec.ofNat 64 (x.index + x.count))
  let s2 := s1.respond x.session 0x06 x.seq 0 (leBytes 8 x.index)
  let s3 : State := { s2 with submits := s2.submits.filter fun y => y ≠ x }
  let s4 := s3.resumeRequests x.session x.path
  { s4 with agenda := .doorbell x.queue :: s4.agenda }

/-- Submissions that waited for earlier producers are published once tail has reached them (R89 step 4, R407). -/
def State.publishDue (s : State) (q : QueueId) : State :=
  match s.submits.find? fun x => decide (x.queue = q) && decide (x.index = s.tailOf q) with
  | none => s
  | some x => s.publish x

/-- The pending bit of a queue is set (R90). -/
def State.markPending (s : State) (q : QueueId) : State :=
  { s with pending := if s.pending.contains q then s.pending else s.pending ++ [q] }

/-- A doorbell (R90): the pending bit is set, QOVER is checked on a RUNNING queue, and selection runs. -/
def State.ring (s : State) (q : QueueId) : State :=
  match s.hwq? q with
  | none => s
  | some h =>
    let s1 := s.markPending q
    let s2 := if h.state = QState.running && s1.overRun h then s1.haltOver h else s1
    s2.select (s2.dieOf q.part)

/-- QUEUE_DOORBELL (R90): a submission whose turn has come is published (R407), and the doorbell rings. -/
def execQueueDoorbell (q : QueueId) (s : State) : Out :=
  .next (match s.hwq? q with
    | none => s
    | some _ => (s.publishDue q).ring q)

/-- The eight address windows of a descriptor (Table 5-3). -/
def State.readWindows (s : State) (q : QueueId) : List (Word × Word) :=
  (List.range 8).map fun i => (s.qword q (0x40 + 16 * i), s.qword q (0x48 + 16 * i))

/-- The words latched at a change of RUN from 0 to 1 (R87). -/
def HwQueue.latch (h : HwQueue) (ring control : Word) (ws : List (Word × Word)) : HwQueue :=
  { h with
    ring := ring, size := bitField control.toNat 27 24, opmask := BitVec.ofNat 16 (bitField control.toNat 63 48)
    prio := bitField control.toNat 9 8, quantum := bitField control.toNat 47 32, windows := ws, ran := true }

/-- The configuration is valid (R88). -/
def HwQueue.configOk (h : HwQueue) : Bool :=
  decide (4 ≤ h.size) && decide (h.quantum ≠ 0) && decide (h.ring.toNat % 64 = 0)

/-- RUN written 1 on a STOPPED or HALTED queue: it latches its words and runs, or faults (R87, R88, R92); the write is a doorbell
(R90), whose tail has been read by then. A halt by QCONFIG sends the event of kind 1 (Table 18-9), though its row of Table 5-4 does not
name it (DESIGN CHOICE, log 27). -/
def State.beginRun (s : State) (q : QueueId) (h : HwQueue) (ctl : Word) : State :=
  let h1 := h.latch (s.qword q 0x00) ctl (s.readWindows q)
  let s1 := s.mapHwq q fun _ => h1
  if !h1.configOk then
    -- no packet is at fault: fault1 is open (log 27)
    let r := s1.takeFree
    r.2.haltQueue q 0 0 0x210 r.1.toNat
  else if s1.overRun h1 then s1.haltOver h1
  else
    let s2 := s1.mapHwq q fun x => { x with state := .running }
    let s3 := s2.setQword q 0x08 (controlWord ctl .running)
    let s4 := if h.state = .halted then (s3.setQword q 0x30 0).setQword q 0x38 0 else s3
    (s4.markPending q).select (s4.dieOf q.part)

/-- A control word written with RUN = 1 (R87, R90, R92): a queue that runs already goes on, and its word shows so; a control
write is a doorbell in any case. -/
def State.runStart (s : State) (q : QueueId) : State :=
  match s.hwq? q with
  | none => s
  | some h =>
    let ctl := s.qword q 0x08
    if !ctl.getLsbD 1 then s
    else if h.state = .running then (s.setQword q 0x08 (controlWord ctl .running)).ring q
    else s.beginRun q h ctl

/-- A control word written with RUN = 0: a RUNNING queue stops fetching; a HALTED or STOPPED one keeps its state, which its
word shows (R92, Table 5-4); the write is a doorbell (R90). -/
def State.runStop (s : State) (q : QueueId) : State :=
  match s.hwq? q with
  | none => s
  | some h =>
    let ctl := s.qword q 0x08
    if ctl.getLsbD 1 then s
    else
      let st : QState := if h.state = .running then .stopped else h.state
      ((s.mapHwq q fun x => { x with state := st }).setQword q 0x08 (controlWord ctl st)).ring q

/-- QUEUE_RUN_START (R92). -/
def execQueueRunStart (q : QueueId) (s : State) : Out := .next (s.runStart q)

/-- QUEUE_RUN_STOP (R92). -/
def execQueueRunStop (q : QueueId) (s : State) : Out := .next (s.runStop q)

/-! ### Aging and the end of a slice (R102, R104) -/

/-- PRIORITY_AGING (R102): a ready queue whose next packet has not started rises by one level. -/
def execPriorityAging (q : QueueId) (s : State) : Out :=
  .next (match s.hwq? q with
    | none => s
    | some h => if s.queueReady h then s.mapHwq q fun x => { x with aged := x.aged + 1 } else s)

/-- SLICE_END (R104): the deficit of the launch's queue is 0 or below, by an amount that time gives (log 11), the supervisor
context's too (R102); the gang is asked to stop where another waits at its level, but not the supervisor context's (R108). -/
def execSliceEnd (l : Nat) (s : State) : Out :=
  .next (match s.launch? l with
    | none => s
    | some x =>
      if x.state ≠ .running then s
      else
        let r := s.takeFree
        let s1 := r.2.mapHwq x.queue fun h => { h with deficit := -((r.1.toNat % (h.quantum + 1) : Nat) : Int) }
        if !x.sup && s1.gangWaits x.queue.part l (fun n => decide (n = s1.levelOf x.queue)) then s1.askGang l else s1)

/-! ### The retirement of a launch (R392) -/

/-- Every task of a running launch has halted. -/
def Launch.finished (l : Launch) : Bool := decide (l.state = .running) && decide (l.tasks ≤ l.halted)

/-- The steps of Table 23-1 with a completion signal: the strands are freed, the signal is performed or held, qdone advances,
and the event is sent. -/
def State.retireLaunch (s : State) (x : Launch) : State :=
  let s1 := s.freeGang x.lid
  let s2 := { s1 with launches := s1.launches.filter fun y => y.lid ≠ x.lid }
  let s3 := s2.mapHwq x.queue fun h => { h.hold1 x.held with active := h.active.filter fun a => a.1 ≠ x.index }
  (s3.releaseHeld x.queue).selectDue x.queue.part

/-- LAUNCH_RETIRE (R392): once every task has halted, the launch completes. -/
def execLaunchRetire (l : Nat) (s : State) : Out :=
  .next (match s.launch? l with
    | none => s
    | some x => if x.finished then s.retireLaunch x else s)

/-! ### Late data errors of the Landing's accesses (Table 5-9, R97, R99, R365) -/

/-- A step of a packet of a queue, or the signal of a LAUNCH, is to meet an error that no check corrects: QSTEP when it is
performed, after the steps before it (R98, R99, Table 5-9). -/
def State.stepDataError (s : State) (q : QueueId) (idx step : Nat) : State :=
  s.mapHwq q fun h => if h.errors.contains (idx, step) then h else { h with errors := h.errors ++ [(idx, step)] }

/-- A late error on the Landing's save of a task context's vector part ends the task that owns it (R365, R363); the record's
trval is a free value. -/
def State.saveDataError (s : State) (ctx : BitVec 16) : State :=
  if !s.saved.any fun p => p.1 = ctx then s
  else match (s.strands ++ s.parked).find? fun c => c.taskCtx = ctx && c.task.isSome with
    | none => s
    | some c =>
      let r := s.takeFree
      r.2.endLaunch ((c.task.map (·.1)).getD 0) (some c.id) {
        kind := 3, subj := BitVec.ofNat 16 c.taskNo, ctx := ctx, a := Cause.late.code.setWidth 64, b := c.pc, c := r.1 }

/-! ### Pre-emption and resumption (R357, R215) -/

/-- GANG_PREEMPT (R357): every strand of a running gang is asked to stop; never the supervisor context's (R108). -/
def execGangPreempt (l : Nat) (s : State) : Out :=
  .next (match s.launch? l with
    | none => s
    | some x => if x.state = .running && !x.sup then s.askGang l else s)

/-- A strand stopped as if it had executed YIELD where it stands, whatever IN holds (R357). -/
def State.forceStop (s : State) : State :=
  match s.cur.task with
  | none => s
  | some t => s.stopStrand.parkGang t.1

/-- PREEMPT_DEADLINE (R357): a strand of which a stop is outstanding stops at once where it stands at a pre-emption point
with no unsettled entry, else at the next one; one that sleeps within a convoy does at its next turn what the words before its
VWAIT do (R327). During a move the stop waits (R398). -/
def execPreemptDeadline (who : StrandId) (s : State) : Out :=
  .next (s.onStrand who fun t =>
    match t.cur.preempt with
    | .none => t
    | .ending => t
    | _ => if t.cur.atPoint && !t.cur.unsettled && t.cur.history.isNone && !t.held then t.forceStop
      else t.withCur { t.cur with preempt := .forced })

/-- GANG_RESUME (R215). -/
def execGangResume (l : Nat) (s : State) : Out := .next (s.resumeGang l)

/-! ### Quiescing and stale completions (R363, R364) -/

/-- The oldest command of a queue is in flight: the queue is not halted, and it is no fence. -/
def EngineQueue.inFlight (q : EngineQueue) : Bool := !q.halted && !q.atFence && decide (q.entries ≠ [])

/-- The engines of a strand reset: its commands in flight halt their queues with EDATA, DETAIL all ones. -/
def Strand.resetEngines (c : Strand) : Strand :=
  { c with queues := c.queues.map fun q =>
      if q.inFlight then
        { q with halted := true, fault := faultRecord ((q.entries.head?.map fun e => e.cmd.fn).getD 0) 0x108 (2 ^ 32 - 1) }
      else q }

/-- ENGINE_QUIESCE_TIMEOUT (R363). -/
def execEngineQuiesceTimeout (part : Nat) (s : State) : Out :=
  .next (s.mapStrands fun c => if c.part = part && c.task.isSome then c.resetEngines else c)

/-- STALE_COMPLETION (R364): what it would write is not written; it is counted. -/
def execStaleCompletion (part : Nat) (s : State) : Out := .next (s.mapPart part fun p => { p with stale := p.stale + 1 })

end Sys2Proof.Machine
end

