-- ==== Sys2Proof/Machine/VectorInt.lean ====
section
/-! DEFINITION. Machine/VectorInt.lean: the element-wise integer and fixed-point words VINT and the comparisons VCMP
(R167 to R171, R178 to R182). -/

namespace Sys2Proof.Machine

/-! ### Operands of the forms (R115, R169, R170, R180) -/

/-- The shapes of the VINT functions: same width, the iterative unit, accumulating, widening, widening and accumulating,
narrowing. -/
inductive VKind where
  | plain | iter | acc | wide | wideAcc | narrow
  deriving DecidableEq, Repr

/-- The width of va: twice n in the narrowing functions. -/
def VKind.aw (k : VKind) (n : Nat) : Nat :=
  match k with
  | .narrow => 2 * n
  | .plain => n
  | .iter => n
  | .acc => n
  | .wide => n
  | .wideAcc => n

/-- The width of vd: twice n in the widening functions. -/
def VKind.dw (k : VKind) (n : Nat) : Nat :=
  match k with
  | .wide => 2 * n
  | .wideAcc => 2 * n
  | .plain => n
  | .iter => n
  | .acc => n
  | .narrow => n

/-- vd is a source too. -/
def VKind.readsD (k : VKind) : Bool := k = .acc || k = .wideAcc

/-- The operands of a VINT word: `bs` lists its second source, where it is a vector, with its width. -/
def vintInfo (k : VKind) (n : Nat) (m : MReg) (d a : VReg) (bs : List (VReg × Nat)) (xs : List XReg) (c : Strand) :
    WordInfo :=
  let du := c.use d (k.dw n)
  let au := c.use a (k.aw n)
  let bus := bs.map fun b => (c.use b.1 b.2, b.2)
  { srcs := au :: bus.map (·.1) ++ (if k.readsD then [du] else [])
    dsts := [du]
    clash := (decide (k.aw n ≠ k.dw n) && du.meets au) || bus.any fun b => decide (b.2 ≠ k.dw n) && du.meets b.1
    ms := [m], xs := xs, iter := decide (k = .iter) }

/-- A .vv word. -/
def vvInfo (k : VKind) (o : VV) (c : Strand) : WordInfo :=
  vintInfo k o.ew.bits o.m o.d o.a [(o.b, o.ew.bits)] [] c

/-- A .vv word whose second source may be wide (R180). -/
def vvwInfo (k : VKind) (o : VVW) (c : Strand) : WordInfo :=
  vintInfo k o.ew.bits o.m o.d o.a [(o.b, if o.wide then 2 * o.ew.bits else o.ew.bits)] [] c

/-- A .vs word. -/
def vsInfo (k : VKind) (o : VS) (c : Strand) : WordInfo := vintInfo k o.ew.bits o.m o.d o.a [] [o.x] c

/-- A .vi word. -/
def viInfo (k : VKind) (o : VI) (c : Strand) : WordInfo := vintInfo k o.ew.bits o.m o.d o.a [] [] c

/-! ### The functions of Table 9-6: n, vrm, x, y and the old vd[i] give the result and whether Clip saturated -/

/-- A VINT function. -/
abbrev VFun := Nat → Vrm → Nat → Nat → Nat → Nat × Bool

/-- A result that never saturates. -/
def exactly (f : Nat → Nat → Nat → Nat) : VFun := fun n _ x y _ => (f n x y, false)

/-- A clipped result in n bits (R162). -/
def clipped (n : Nat) (isSigned : Bool) (v : Int) : Nat × Bool :=
  let r := clip n isSigned v
  (wrapTo n r.1, r.2)

/-- VADD. -/
def vAdd : VFun := exactly fun n x y => (x + y) % 2 ^ n
/-- VSUB. -/
def vSub : VFun := exactly fun n x y => (x + (2 ^ n - y % 2 ^ n)) % 2 ^ n
/-- VAND. -/
def vAnd : VFun := exactly fun _ x y => x &&& y
/-- VOR. -/
def vOr : VFun := exactly fun _ x y => x ||| y
/-- VXOR. -/
def vXor : VFun := exactly fun _ x y => x ^^^ y
/-- VSHL. -/
def vShl : VFun := exactly fun n x y => x * 2 ^ (y % n) % 2 ^ n
/-- VSHR. -/
def vShr : VFun := exactly fun n x y => x / 2 ^ (y % n)
/-- VSHA. -/
def vSha : VFun := exactly fun n x y => wrapTo n (signed n x / (2 ^ (y % n) : Nat))
/-- VMIN. -/
def vMin : VFun := exactly fun n x y => if signed n y < signed n x then y else x
/-- VMAX. -/
def vMax : VFun := exactly fun n x y => if signed n x < signed n y then y else x
/-- VMINN. -/
def vMinn : VFun := exactly fun _ x y => min x y
/-- VMAXN. -/
def vMaxn : VFun := exactly fun _ x y => max x y
/-- VMUL. -/
def vMul : VFun := exactly fun n x y => x * y % 2 ^ n
/-- VMULH. -/
def vMulh : VFun := exactly fun n x y => wrapTo n (signed n x * signed n y / (2 ^ n : Nat))
/-- VMULHN. -/
def vMulhn : VFun := exactly fun n x y => x * y / 2 ^ n
/-- The signed Divide of R131 at width n. -/
def divideAtS (n x y : Nat) : Nat × Nat :=
  if y = 0 then (2 ^ n - 1, x)
  else if x = 2 ^ (n - 1) ∧ y = 2 ^ n - 1 then (x, 0)
  else
    let q := Int.tdiv (signed n x) (signed n y)
    (wrapTo n q, wrapTo n (signed n x - q * signed n y))
/-- The unsigned Divide of R131 at width n. -/
def divideAtU (n x y : Nat) : Nat × Nat := if y = 0 then (2 ^ n - 1, x) else (x / y, x % y)
/-- VDIV. -/
def vDiv : VFun := exactly fun n x y => (divideAtS n x y).1
/-- VDIVN. -/
def vDivn : VFun := exactly fun n x y => (divideAtU n x y).1
/-- VREM. -/
def vRem : VFun := exactly fun n x y => (divideAtS n x y).2
/-- VREMN. -/
def vRemn : VFun := exactly fun n x y => (divideAtU n x y).2
/-- VMACC. -/
def vMacc : VFun := fun n _ x y d => ((d + x * y) % 2 ^ n, false)
/-- VADDS. -/
def vAdds : VFun := fun n _ x y _ => clipped n true (signed n x + signed n y)
/-- VSUBS. -/
def vSubs : VFun := fun n _ x y _ => clipped n true (signed n x - signed n y)
/-- VADDSN. -/
def vAddsn : VFun := fun n _ x y _ => clipped n false ((x : Int) + y)
/-- VSUBSN. -/
def vSubsn : VFun := fun n _ x y _ => clipped n false ((x : Int) - y)
/-- VAVG. -/
def vAvg : VFun := fun n r x y _ => (wrapTo n (roundFixed r (signed n x + signed n y) 1), false)
/-- VSMUL. -/
def vSmul : VFun := fun n r x y _ => clipped n true (roundFixed r (signed n x * signed n y) (n - 1))
/-- VSSHR. -/
def vSshr : VFun := fun n r x y _ => (wrapTo n (roundFixed r (signed n x) (y % n)), false)
/-- VWADD: y is read at its own width, so the caller gives it as signed. -/
def vWadd (yw : Nat) : VFun := fun n _ x y _ => (wrapTo (2 * n) (signed n x + signed yw y), false)
/-- VWADDN. -/
def vWaddn : VFun := fun n _ x y _ => ((x + y) % 2 ^ (2 * n), false)
/-- VWMUL. -/
def vWmul : VFun := fun n _ x y _ => (wrapTo (2 * n) (signed n x * signed n y), false)
/-- VWMULN. -/
def vWmuln : VFun := fun n _ x y _ => (x * y % 2 ^ (2 * n), false)
/-- VWMACC. -/
def vWmacc : VFun := fun n _ x y d => (wrapTo (2 * n) ((d : Int) + signed n x * signed n y), false)
/-- VWMACCN. -/
def vWmaccn : VFun := fun n _ x y d => ((d + x * y) % 2 ^ (2 * n), false)
/-- VNSHR. -/
def vNshr : VFun := fun n r x y _ => (wrapTo n (roundFixed r (x : Int) (y % (2 * n))), false)
/-- VNCLIP. -/
def vNclip : VFun := fun n r x y _ => clipped n true (roundFixed r (signed (2 * n) x) (y % (2 * n)))
/-- VNCLIPN. -/
def vNclipn : VFun := fun n r x y _ => clipped n false (roundFixed r (x : Int) (y % (2 * n)))

/-! ### The forms -/

/-- ElementWise of R168 for a function that may saturate: vsat follows when the convoy retires (R171). -/
def State.intWise (s : State) (d : VReg) (w : Nat) (m : MReg) (f : Nat → Nat × Bool) : State :=
  if s.cur.vec.vl ≤ s.cur.vec.vstart then s.vstart0
  else
    let rs := (s.cur.actives m).map fun e => (e, f e)
    (s.writeVec d w (rs.map fun r => (r.1, r.2.1)) (s.cur.maskedOff m)).convSat (rs.any fun r => r.2.2)

/-- A .vv word (R179). -/
def intVV (k : VKind) (f : VFun) (o : VV) (s : State) : Out :=
  let n := o.ew.bits
  vecWord (vvInfo k o s.cur) s fun t =>
    (t.intWise o.d (k.dw n) o.m fun e =>
      f n t.cur.vec.vrm (t.cur.elem o.a (k.aw n) e) (t.cur.elem o.b n e) (t.cur.elem o.d (k.dw n) e)).next8

/-- A .vv word whose second source is n or 2n bits wide (R180). -/
def intVVW (k : VKind) (f : Nat → VFun) (o : VVW) (s : State) : Out :=
  let n := o.ew.bits
  let bw := if o.wide then 2 * n else n
  vecWord (vvwInfo k o s.cur) s fun t =>
    (t.intWise o.d (k.dw n) o.m fun e =>
      f bw n t.cur.vec.vrm (t.cur.elem o.a (k.aw n) e) (t.cur.elem o.b bw e) (t.cur.elem o.d (k.dw n) e)).next8

/-- A .vs word: the scalar operand is xb[n − 1:0] (R169). -/
def intVS (k : VKind) (f : VFun) (o : VS) (s : State) : Out :=
  let n := o.ew.bits
  vecWord (vsInfo k o s.cur) s fun t =>
    (t.intWise o.d (k.dw n) o.m fun e =>
      f n t.cur.vec.vrm (t.cur.elem o.a (k.aw n) e) ((t.getX o.x).toNat % 2 ^ n) (t.cur.elem o.d (k.dw n) e)).next8

/-- A .vi word: imm16 is sign-extended and truncated to n bits (R169). -/
def intVI (k : VKind) (f : VFun) (o : VI) (s : State) : Out :=
  let n := o.ew.bits
  vecWord (viInfo k o s.cur) s fun t =>
    (t.intWise o.d (k.dw n) o.m fun e =>
      f n t.cur.vec.vrm (t.cur.elem o.a (k.aw n) e) (wrapTo n o.imm.toInt) (t.cur.elem o.d (k.dw n) e)).next8

/-! ### The words of Table 9-6 -/

/-- VADD_VV (R179). -/
def execVaddVV (o : VV) (s : State) : Out := intVV .plain vAdd o s
/-- VADD_VS (R179). -/
def execVaddVS (o : VS) (s : State) : Out := intVS .plain vAdd o s
/-- VADD_VI (R179). -/
def execVaddVI (o : VI) (s : State) : Out := intVI .plain vAdd o s
/-- VSUB_VV (R179). -/
def execVsubVV (o : VV) (s : State) : Out := intVV .plain vSub o s
/-- VSUB_VS (R179). -/
def execVsubVS (o : VS) (s : State) : Out := intVS .plain vSub o s
/-- VSUB_VI (R179). -/
def execVsubVI (o : VI) (s : State) : Out := intVI .plain vSub o s
/-- VAND_VV (R179). -/
def execVandVV (o : VV) (s : State) : Out := intVV .plain vAnd o s
/-- VAND_VS (R179). -/
def execVandVS (o : VS) (s : State) : Out := intVS .plain vAnd o s
/-- VAND_VI (R179). -/
def execVandVI (o : VI) (s : State) : Out := intVI .plain vAnd o s
/-- VOR_VV (R179). -/
def execVorVV (o : VV) (s : State) : Out := intVV .plain vOr o s
/-- VOR_VS (R179). -/
def execVorVS (o : VS) (s : State) : Out := intVS .plain vOr o s
/-- VOR_VI (R179). -/
def execVorVI (o : VI) (s : State) : Out := intVI .plain vOr o s
/-- VXOR_VV (R179). -/
def execVxorVV (o : VV) (s : State) : Out := intVV .plain vXor o s
/-- VXOR_VS (R179). -/
def execVxorVS (o : VS) (s : State) : Out := intVS .plain vXor o s
/-- VXOR_VI (R179). -/
def execVxorVI (o : VI) (s : State) : Out := intVI .plain vXor o s
/-- VSHL_VV (R179). -/
def execVshlVV (o : VV) (s : State) : Out := intVV .plain vShl o s
/-- VSHL_VS (R179). -/
def execVshlVS (o : VS) (s : State) : Out := intVS .plain vShl o s
/-- VSHL_VI (R179). -/
def execVshlVI (o : VI) (s : State) : Out := intVI .plain vShl o s
/-- VSHR_VV (R179). -/
def execVshrVV (o : VV) (s : State) : Out := intVV .plain vShr o s
/-- VSHR_VS (R179). -/
def execVshrVS (o : VS) (s : State) : Out := intVS .plain vShr o s
/-- VSHR_VI (R179). -/
def execVshrVI (o : VI) (s : State) : Out := intVI .plain vShr o s
/-- VSHA_VV (R179). -/
def execVshaVV (o : VV) (s : State) : Out := intVV .plain vSha o s
/-- VSHA_VS (R179). -/
def execVshaVS (o : VS) (s : State) : Out := intVS .plain vSha o s
/-- VSHA_VI (R179). -/
def execVshaVI (o : VI) (s : State) : Out := intVI .plain vSha o s
/-- VMIN_VV (R179). -/
def execVminVV (o : VV) (s : State) : Out := intVV .plain vMin o s
/-- VMIN_VS (R179). -/
def execVminVS (o : VS) (s : State) : Out := intVS .plain vMin o s
/-- VMIN_VI (R179). -/
def execVminVI (o : VI) (s : State) : Out := intVI .plain vMin o s
/-- VMAX_VV (R179). -/
def execVmaxVV (o : VV) (s : State) : Out := intVV .plain vMax o s
/-- VMAX_VS (R179). -/
def execVmaxVS (o : VS) (s : State) : Out := intVS .plain vMax o s
/-- VMAX_VI (R179). -/
def execVmaxVI (o : VI) (s : State) : Out := intVI .plain vMax o s
/-- VMINN_VV (R179). -/
def execVminnVV (o : VV) (s : State) : Out := intVV .plain vMinn o s
/-- VMINN_VS (R179). -/
def execVminnVS (o : VS) (s : State) : Out := intVS .plain vMinn o s
/-- VMINN_VI (R179). -/
def execVminnVI (o : VI) (s : State) : Out := intVI .plain vMinn o s
/-- VMAXN_VV (R179). -/
def execVmaxnVV (o : VV) (s : State) : Out := intVV .plain vMaxn o s
/-- VMAXN_VS (R179). -/
def execVmaxnVS (o : VS) (s : State) : Out := intVS .plain vMaxn o s
/-- VMAXN_VI (R179). -/
def execVmaxnVI (o : VI) (s : State) : Out := intVI .plain vMaxn o s
/-- VMUL_VV (R179). -/
def execVmulVV (o : VV) (s : State) : Out := intVV .plain vMul o s
/-- VMUL_VS (R179). -/
def execVmulVS (o : VS) (s : State) : Out := intVS .plain vMul o s
/-- VMULH_VV (R179). -/
def execVmulhVV (o : VV) (s : State) : Out := intVV .plain vMulh o s
/-- VMULH_VS (R179). -/
def execVmulhVS (o : VS) (s : State) : Out := intVS .plain vMulh o s
/-- VMULHN_VV (R179). -/
def execVmulhnVV (o : VV) (s : State) : Out := intVV .plain vMulhn o s
/-- VMULHN_VS (R179). -/
def execVmulhnVS (o : VS) (s : State) : Out := intVS .plain vMulhn o s
/-- VDIV_VV (R179). -/
def execVdivVV (o : VV) (s : State) : Out := intVV .iter vDiv o s
/-- VDIV_VS (R179). -/
def execVdivVS (o : VS) (s : State) : Out := intVS .iter vDiv o s
/-- VDIVN_VV (R179). -/
def execVdivnVV (o : VV) (s : State) : Out := intVV .iter vDivn o s
/-- VDIVN_VS (R179). -/
def execVdivnVS (o : VS) (s : State) : Out := intVS .iter vDivn o s
/-- VREM_VV (R179). -/
def execVremVV (o : VV) (s : State) : Out := intVV .iter vRem o s
/-- VREM_VS (R179). -/
def execVremVS (o : VS) (s : State) : Out := intVS .iter vRem o s
/-- VREMN_VV (R179). -/
def execVremnVV (o : VV) (s : State) : Out := intVV .iter vRemn o s
/-- VREMN_VS (R179). -/
def execVremnVS (o : VS) (s : State) : Out := intVS .iter vRemn o s
/-- VMACC_VV (R179). -/
def execVmaccVV (o : VV) (s : State) : Out := intVV .acc vMacc o s
/-- VMACC_VS (R179). -/
def execVmaccVS (o : VS) (s : State) : Out := intVS .acc vMacc o s
/-- VADDS_VV (R179). -/
def execVaddsVV (o : VV) (s : State) : Out := intVV .plain vAdds o s
/-- VADDS_VS (R179). -/
def execVaddsVS (o : VS) (s : State) : Out := intVS .plain vAdds o s
/-- VADDS_VI (R179). -/
def execVaddsVI (o : VI) (s : State) : Out := intVI .plain vAdds o s
/-- VSUBS_VV (R179). -/
def execVsubsVV (o : VV) (s : State) : Out := intVV .plain vSubs o s
/-- VSUBS_VS (R179). -/
def execVsubsVS (o : VS) (s : State) : Out := intVS .plain vSubs o s
/-- VSUBS_VI (R179). -/
def execVsubsVI (o : VI) (s : State) : Out := intVI .plain vSubs o s
/-- VADDSN_VV (R179). -/
def execVaddsnVV (o : VV) (s : State) : Out := intVV .plain vAddsn o s
/-- VADDSN_VS (R179). -/
def execVaddsnVS (o : VS) (s : State) : Out := intVS .plain vAddsn o s
/-- VADDSN_VI (R179). -/
def execVaddsnVI (o : VI) (s : State) : Out := intVI .plain vAddsn o s
/-- VSUBSN_VV (R179). -/
def execVsubsnVV (o : VV) (s : State) : Out := intVV .plain vSubsn o s
/-- VSUBSN_VS (R179). -/
def execVsubsnVS (o : VS) (s : State) : Out := intVS .plain vSubsn o s
/-- VSUBSN_VI (R179). -/
def execVsubsnVI (o : VI) (s : State) : Out := intVI .plain vSubsn o s
/-- VAVG_VV (R179). -/
def execVavgVV (o : VV) (s : State) : Out := intVV .plain vAvg o s
/-- VAVG_VS (R179). -/
def execVavgVS (o : VS) (s : State) : Out := intVS .plain vAvg o s
/-- VSMUL_VV (R179). -/
def execVsmulVV (o : VV) (s : State) : Out := intVV .plain vSmul o s
/-- VSMUL_VS (R179). -/
def execVsmulVS (o : VS) (s : State) : Out := intVS .plain vSmul o s
/-- VSSHR_VV (R179). -/
def execVsshrVV (o : VV) (s : State) : Out := intVV .plain vSshr o s
/-- VSSHR_VS (R179). -/
def execVsshrVS (o : VS) (s : State) : Out := intVS .plain vSshr o s
/-- VSSHR_VI (R179). -/
def execVsshrVI (o : VI) (s : State) : Out := intVI .plain vSshr o s
/-- VWADD_VV (R179). -/
def execVwaddVV (o : VVW) (s : State) : Out := intVVW .wide vWadd o s
/-- VWADD_VS (R179). -/
def execVwaddVS (o : VS) (s : State) : Out := intVS .wide (fun n => vWadd n n) o s
/-- VWADDN_VV (R179). -/
def execVwaddnVV (o : VVW) (s : State) : Out := intVVW .wide (fun _ => vWaddn) o s
/-- VWADDN_VS (R179). -/
def execVwaddnVS (o : VS) (s : State) : Out := intVS .wide vWaddn o s
/-- VWMUL_VV (R179). -/
def execVwmulVV (o : VV) (s : State) : Out := intVV .wide vWmul o s
/-- VWMUL_VS (R179). -/
def execVwmulVS (o : VS) (s : State) : Out := intVS .wide vWmul o s
/-- VWMULN_VV (R179). -/
def execVwmulnVV (o : VV) (s : State) : Out := intVV .wide vWmuln o s
/-- VWMULN_VS (R179). -/
def execVwmulnVS (o : VS) (s : State) : Out := intVS .wide vWmuln o s
/-- VWMACC_VV (R179). -/
def execVwmaccVV (o : VV) (s : State) : Out := intVV .wideAcc vWmacc o s
/-- VWMACC_VS (R179). -/
def execVwmaccVS (o : VS) (s : State) : Out := intVS .wideAcc vWmacc o s
/-- VWMACCN_VV (R179). -/
def execVwmaccnVV (o : VV) (s : State) : Out := intVV .wideAcc vWmaccn o s
/-- VWMACCN_VS (R179). -/
def execVwmaccnVS (o : VS) (s : State) : Out := intVS .wideAcc vWmaccn o s
/-- VNSHR_VV (R179). -/
def execVnshrVV (o : VVW) (s : State) : Out := intVVW .narrow (fun _ => vNshr) o s
/-- VNSHR_VS (R179). -/
def execVnshrVS (o : VS) (s : State) : Out := intVS .narrow vNshr o s
/-- VNSHR_VI (R179). -/
def execVnshrVI (o : VI) (s : State) : Out := intVI .narrow vNshr o s
/-- VNCLIP_VV (R179). -/
def execVnclipVV (o : VVW) (s : State) : Out := intVVW .narrow (fun _ => vNclip) o s
/-- VNCLIP_VS (R179). -/
def execVnclipVS (o : VS) (s : State) : Out := intVS .narrow vNclip o s
/-- VNCLIP_VI (R179). -/
def execVnclipVI (o : VI) (s : State) : Out := intVI .narrow vNclip o s
/-- VNCLIPN_VV (R179). -/
def execVnclipnVV (o : VVW) (s : State) : Out := intVVW .narrow (fun _ => vNclipn) o s
/-- VNCLIPN_VS (R179). -/
def execVnclipnVS (o : VS) (s : State) : Out := intVS .narrow vNclipn o s
/-- VNCLIPN_VI (R179). -/
def execVnclipnVI (o : VI) (s : State) : Out := intVI .narrow vNclipn o s

/-! ### VMERGE and VMV (R181, R179) -/

/-- The elements from vstart to vl − 1, whatever the mask (R181). -/
def Strand.fromVstart (c : Strand) : List Nat := c.body.filter fun e => decide (c.vec.vstart ≤ c.index e)

/-- VMERGE: y where the mask bit is 1, else x. -/
def State.merge (s : State) (d : VReg) (n : Nat) (m : MReg) (x y : Nat → Nat) : State :=
  if s.cur.vec.vl ≤ s.cur.vec.vstart then s.vstart0
  else s.writeVec d n (s.cur.fromVstart.map fun e => (e, if s.cur.maskBit m e then y e else x e)) []

/-- VMERGE_VV (R181). -/
def execVmergeVV (o : VV) (s : State) : Out :=
  let n := o.ew.bits
  vecWord (vvInfo .plain o s.cur) s fun t =>
    (t.merge o.d n o.m (fun e => t.cur.elem o.a n e) (fun e => t.cur.elem o.b n e)).next8
/-- VMERGE_VS (R181). -/
def execVmergeVS (o : VS) (s : State) : Out :=
  let n := o.ew.bits
  vecWord (vsInfo .plain o s.cur) s fun t =>
    (t.merge o.d n o.m (fun e => t.cur.elem o.a n e) (fun _ => (t.getX o.x).toNat % 2 ^ n)).next8
/-- VMERGE_VI (R181). -/
def execVmergeVI (o : VI) (s : State) : Out :=
  let n := o.ew.bits
  vecWord (viInfo .plain o s.cur) s fun t =>
    (t.merge o.d n o.m (fun e => t.cur.elem o.a n e) (fun _ => wrapTo n o.imm.toInt)).next8

/-- A word with one vector destination and the listed vector sources, legal in either mode (R172). -/
def moveInfo (n : Nat) (m : MReg) (d : VReg) (srcs : List VReg) (xs : List XReg) (c : Strand) : WordInfo :=
  { srcs := srcs.map fun r => c.use r n, dsts := [c.use d n], mode := .either, ms := [m], xs := xs }

/-- The operands of VMV_VV. -/
def vmvVVInfo (o : VV1) (c : Strand) : WordInfo := moveInfo o.ew.bits o.m o.d [o.a] [] c
/-- The operands of VMV_VS. -/
def vmvVSInfo (o : VS1) (c : Strand) : WordInfo := moveInfo o.ew.bits o.m o.d [] [o.x] c
/-- The operands of VMV_VI. -/
def vmvVIInfo (o : VI1) (c : Strand) : WordInfo := moveInfo o.ew.bits o.m o.d [] [] c

/-- VMV_VV (R179). -/
def execVmvVV (o : VV1) (s : State) : Out :=
  vecWord (vmvVVInfo o s.cur) s fun t => (t.elementWise o.d o.ew.bits o.m fun e => t.cur.elem o.a o.ew.bits e).next8
/-- VMV_VS (R179). -/
def execVmvVS (o : VS1) (s : State) : Out :=
  vecWord (vmvVSInfo o s.cur) s fun t =>
    (t.elementWise o.d o.ew.bits o.m fun _ => (t.getX o.x).toNat % 2 ^ o.ew.bits).next8
/-- VMV_VI (R179). -/
def execVmvVI (o : VI1) (s : State) : Out :=
  vecWord (vmvVIInfo o s.cur) s fun t => (t.elementWise o.d o.ew.bits o.m fun _ => wrapTo o.ew.bits o.imm.toInt).next8

/-! ### VCMP (R182) -/

/-- The operands of VCMP_VV. -/
def vcmpVVInfo (o : CmpVV) (c : Strand) : WordInfo :=
  { srcs := [c.use o.a o.ew.bits, c.use o.b o.ew.bits], ms := [o.m], md := some o.d }
/-- The operands of VCMP_VS. -/
def vcmpVSInfo (o : CmpVS) (c : Strand) : WordInfo :=
  { srcs := [c.use o.a o.ew.bits], ms := [o.m], xs := [o.x], md := some o.d }
/-- The operands of VCMP_VI. -/
def vcmpVIInfo (o : CmpVI) (c : Strand) : WordInfo := { srcs := [c.use o.a o.ew.bits], ms := [o.m], md := some o.d }

/-- VCMP_VV (R182). -/
def execVcmpVV (o : CmpVV) (s : State) : Out :=
  let n := o.ew.bits
  vecWord (vcmpVVInfo o s.cur) s fun t =>
    (t.elementWiseMask o.d o.m fun e => condHolds o.cond n (t.cur.elem o.a n e) (t.cur.elem o.b n e)).next8
/-- VCMP_VS (R182). -/
def execVcmpVS (o : CmpVS) (s : State) : Out :=
  let n := o.ew.bits
  vecWord (vcmpVSInfo o s.cur) s fun t =>
    (t.elementWiseMask o.d o.m fun e => condHolds o.cond n (t.cur.elem o.a n e) ((t.getX o.x).toNat % 2 ^ n)).next8
/-- VCMP_VI (R182). -/
def execVcmpVI (o : CmpVI) (s : State) : Out :=
  let n := o.ew.bits
  vecWord (vcmpVIInfo o s.cur) s fun t =>
    (t.elementWiseMask o.d o.m fun e => condHolds o.cond n (t.cur.elem o.a n e) (wrapTo n o.imm.toInt)).next8

end Sys2Proof.Machine
end

