-- ==== Sys2Proof/Machine/VectorFloat.lean ====
section
/-! DEFINITION. Machine/VectorFloat.lean: the floating-point words VFP, VFCMP and VFCVT, and the reductions and scans
VRED (10_vector_float). -/

namespace Sys2Proof.Machine

/-! ### Operands of the forms (R195, R196, R198) -/

/-- The operands of an element-wise floating-point word: its vector sources, at the width of the format. -/
def vfpInfo (n : Nat) (m : MReg) (d : VReg) (srcs : List VReg) (xs : List XReg) (iter : Bool) (c : Strand) : WordInfo :=
  { srcs := srcs.map fun r => c.use r n, dsts := [c.use d n], ms := [m], xs := xs, iter := iter }

/-- A two-source .vv word. -/
def fvvInfo (iter : Bool) (o : FVV) (c : Strand) : WordInfo :=
  vfpInfo (vectorFmt o.fmt).width o.m o.d [o.a, o.b] [] iter c

/-- A two-source .vs word. -/
def fvsInfo (iter : Bool) (o : FVS) (c : Strand) : WordInfo :=
  vfpInfo (vectorFmt o.fmt).width o.m o.d [o.a] [o.x] iter c

/-- A three-source .vv word. -/
def fvvvInfo (o : FVVV) (c : Strand) : WordInfo := vfpInfo (vectorFmt o.fmt).width o.m o.d [o.a, o.b, o.c] [] false c

/-- A three-source .vs word. -/
def fvssInfo (o : FVSS) (c : Strand) : WordInfo := vfpInfo (vectorFmt o.fmt).width o.m o.d [o.a] [o.x, o.z] false c

/-- A one-source word. -/
def fvInfo (iter : Bool) (o : FV) (c : Strand) : WordInfo := vfpInfo (vectorFmt o.fmt).width o.m o.d [o.a] [] iter c

/-- VFWMA: the destination is the addend at twice the width and shares no register with a source (R198). -/
def fwmaInfo (n : Nat) (m : MReg) (d : VReg) (srcs : List VReg) (xs : List XReg) (c : Strand) : WordInfo :=
  let du := c.use d (2 * n)
  let sus := srcs.map fun r => c.use r n
  { srcs := sus ++ [du], dsts := [du], clash := sus.any fun u => du.meets u, ms := [m], xs := xs }

/-- VFWMA_VV. -/
def fwmaVVInfo (o : FVV) (c : Strand) : WordInfo := fwmaInfo (vectorFmt o.fmt).width o.m o.d [o.a, o.b] [] c

/-- VFWMA_VS. -/
def fwmaVSInfo (o : FVS) (c : Strand) : WordInfo := fwmaInfo (vectorFmt o.fmt).width o.m o.d [o.a] [o.x] c

/-! ### The frame of an element-wise floating-point word (R192) -/

/-- ElementWise of R168, the flags of the active elements gathered for the convoy's retirement (R192). -/
def State.floatWise (s : State) (d : VReg) (w : Nat) (m : MReg) (f : Nat → FRes) : State :=
  if s.cur.vec.vl ≤ s.cur.vec.vstart then s.vstart0
  else
    let rs := (s.cur.actives m).map fun e => (e, f e)
    (s.writeVec d w (rs.map fun r => (r.1, r.2.bits)) (s.cur.maskedOff m)).convFlags
      (rs.foldl (fun a r => a ||| r.2.flags) 0)

/-- A scalar operand: the low bits of the register (R196). -/
def floatScalar (f : FloatFmt) (s : State) (r : XReg) : Nat := (s.getX r).toNat % 2 ^ f.width

/-- A function of a format, a mode and two operands. -/
abbrev FFun := FloatFmt → RMode → Nat → Nat → FRes

/-- A result that raises no flag. -/
def flagless (b : Nat) : FRes := { bits := b, flags := 0 }

/-- VFMIN. -/
def vfMin : FFun := fun f _ x y => fMin f x y
/-- VFMAX. -/
def vfMax : FFun := fun f _ x y => fMax f x y
/-- VFSGN (R199). -/
def vfSgn : FFun := fun f _ x y => flagless (fSign f false x y)
/-- VFSGNN (R199). -/
def vfSgnn : FFun := fun f _ x y => flagless (fSign f true x y)

/-- A two-source .vv word. -/
def floatVV (iter : Bool) (g : FFun) (o : FVV) (s : State) : Out :=
  let f := vectorFmt o.fmt
  vecWord (fvvInfo iter o s.cur) s fun t =>
    (t.floatWise o.d f.width o.m fun e => g f t.cur.frm (t.cur.elem o.a f.width e) (t.cur.elem o.b f.width e)).next8

/-- A two-source .vs word. -/
def floatVS (iter : Bool) (g : FFun) (o : FVS) (s : State) : Out :=
  let f := vectorFmt o.fmt
  vecWord (fvsInfo iter o s.cur) s fun t =>
    (t.floatWise o.d f.width o.m fun e => g f t.cur.frm (t.cur.elem o.a f.width e) (floatScalar f t o.x)).next8

/-- A fused .vv word. -/
def fusedVV (negP negZ : Bool) (o : FVVV) (s : State) : Out :=
  let f := vectorFmt o.fmt
  vecWord (fvvvInfo o s.cur) s fun t =>
    (t.floatWise o.d f.width o.m fun e =>
      fFma f t.cur.frm negP negZ (t.cur.elem o.a f.width e) (t.cur.elem o.b f.width e) (t.cur.elem o.c f.width e)).next8

/-- A fused .vs word. -/
def fusedVS (negP negZ : Bool) (o : FVSS) (s : State) : Out :=
  let f := vectorFmt o.fmt
  vecWord (fvssInfo o s.cur) s fun t =>
    (t.floatWise o.d f.width o.m fun e =>
      fFma f t.cur.frm negP negZ (t.cur.elem o.a f.width e) (floatScalar f t o.x) (floatScalar f t o.z)).next8

/-- A one-source word. -/
def floatV (iter : Bool) (g : FloatFmt → RMode → Nat → FRes) (o : FV) (s : State) : Out :=
  let f := vectorFmt o.fmt
  vecWord (fvInfo iter o s.cur) s fun t =>
    (t.floatWise o.d f.width o.m fun e => g f t.cur.frm (t.cur.elem o.a f.width e)).next8

/-! ### VFWMA (R198) -/

/-- The destination format of VFWMA. -/
def wideFmt : VFmt → FloatFmt
  | .fp16 => fp32
  | .bf16 => fp32
  | .fp32 => fp64
  | .fp64 => fp64

/-- d + x × y with one rounding in the wide format. -/
def fWma (f g : FloatFmt) (mode : RMode) (x y d : Nat) : FRes :=
  g.deliver mode (((f.value x).mul (f.value y)).add mode (g.value d))

/-- VFWMA_VV (R198). -/
def execVfwmaVV (o : FVV) (s : State) : Out :=
  let f := vectorFmt o.fmt
  let g := wideFmt o.fmt
  vecWord (fwmaVVInfo o s.cur) s fun t =>
    (t.floatWise o.d (2 * f.width) o.m fun e =>
      fWma f g t.cur.frm (t.cur.elem o.a f.width e) (t.cur.elem o.b f.width e) (t.cur.elem o.d (2 * f.width) e)).next8
/-- VFWMA_VS (R198). -/
def execVfwmaVS (o : FVS) (s : State) : Out :=
  let f := vectorFmt o.fmt
  let g := wideFmt o.fmt
  vecWord (fwmaVSInfo o s.cur) s fun t =>
    (t.floatWise o.d (2 * f.width) o.m fun e =>
      fWma f g t.cur.frm (t.cur.elem o.a f.width e) (floatScalar f t o.x) (t.cur.elem o.d (2 * f.width) e)).next8

/-! ### The words of Table 10-3 -/

/-- VFADD_VV (R197). -/
def execVfaddVV (o : FVV) (s : State) : Out := floatVV false fAdd o s
/-- VFADD_VS (R197). -/
def execVfaddVS (o : FVS) (s : State) : Out := floatVS false fAdd o s
/-- VFSUB_VV (R197). -/
def execVfsubVV (o : FVV) (s : State) : Out := floatVV false fSub o s
/-- VFSUB_VS (R197). -/
def execVfsubVS (o : FVS) (s : State) : Out := floatVS false fSub o s
/-- VFMUL_VV (R197). -/
def execVfmulVV (o : FVV) (s : State) : Out := floatVV false fMul o s
/-- VFMUL_VS (R197). -/
def execVfmulVS (o : FVS) (s : State) : Out := floatVS false fMul o s
/-- VFDIV_VV (R197). -/
def execVfdivVV (o : FVV) (s : State) : Out := floatVV true fDiv o s
/-- VFDIV_VS (R197). -/
def execVfdivVS (o : FVS) (s : State) : Out := floatVS true fDiv o s
/-- VFMIN_VV (R197). -/
def execVfminVV (o : FVV) (s : State) : Out := floatVV false vfMin o s
/-- VFMIN_VS (R197). -/
def execVfminVS (o : FVS) (s : State) : Out := floatVS false vfMin o s
/-- VFMAX_VV (R197). -/
def execVfmaxVV (o : FVV) (s : State) : Out := floatVV false vfMax o s
/-- VFMAX_VS (R197). -/
def execVfmaxVS (o : FVS) (s : State) : Out := floatVS false vfMax o s
/-- VFSGN_VV (R199). -/
def execVfsgnVV (o : FVV) (s : State) : Out := floatVV false vfSgn o s
/-- VFSGN_VS (R199). -/
def execVfsgnVS (o : FVS) (s : State) : Out := floatVS false vfSgn o s
/-- VFSGNN_VV (R199). -/
def execVfsgnnVV (o : FVV) (s : State) : Out := floatVV false vfSgnn o s
/-- VFSGNN_VS (R199). -/
def execVfsgnnVS (o : FVS) (s : State) : Out := floatVS false vfSgnn o s
/-- VFMA_VV (R197). -/
def execVfmaVV (o : FVVV) (s : State) : Out := fusedVV false false o s
/-- VFMA_VS (R197). -/
def execVfmaVS (o : FVSS) (s : State) : Out := fusedVS false false o s
/-- VFMS_VV (R197). -/
def execVfmsVV (o : FVVV) (s : State) : Out := fusedVV false true o s
/-- VFMS_VS (R197). -/
def execVfmsVS (o : FVSS) (s : State) : Out := fusedVS false true o s
/-- VFNMA_VV (R197). -/
def execVfnmaVV (o : FVVV) (s : State) : Out := fusedVV true false o s
/-- VFNMA_VS (R197). -/
def execVfnmaVS (o : FVSS) (s : State) : Out := fusedVS true false o s
/-- VFSQRT (R197). -/
def execVfsqrt (o : FV) (s : State) : Out := floatV true fSqrt o s
/-- VFCLASS (R199). -/
def execVfclass (o : FV) (s : State) : Out := floatV false (fun f _ x => flagless (fClass f x)) o s
/-- VFEXP2 (R200). -/
def execVfexp2 (o : FV) (s : State) : Out := floatV true fExp2 o s
/-- VFRCP (R200). -/
def execVfrcp (o : FV) (s : State) : Out := floatV true fRcp o s
/-- VFRSQRT (R200). -/
def execVfrsqrt (o : FV) (s : State) : Out := floatV true fRsqrt o s

/-! ### VFCMP (R201) -/

/-- The operands of VFCMP_VV. -/
def vfcmpVVInfo (o : FCmpVV) (c : Strand) : WordInfo :=
  let n := (vectorFmt o.fmt).width
  { srcs := [c.use o.a n, c.use o.b n], ms := [o.m], md := some o.d }
/-- The operands of VFCMP_VS. -/
def vfcmpVSInfo (o : FCmpVS) (c : Strand) : WordInfo :=
  { srcs := [c.use o.a (vectorFmt o.fmt).width], ms := [o.m], xs := [o.x], md := some o.d }

/-- A comparison over the active elements: the mask and the flags (Table 10-5). -/
def State.floatMask (s : State) (d m : MReg) (f : Nat → Bool × BitVec 5) : State :=
  if s.cur.vec.vl ≤ s.cur.vec.vstart then s.vstart0
  else
    (s.writeMask d (s.cur.actives m) (s.cur.maskedOff m) fun e => (f e).1).convFlags
      ((s.cur.actives m).foldl (fun a e => a ||| (f e).2) 0)

/-- VFCMP_VV (R201). -/
def execVfcmpVV (o : FCmpVV) (s : State) : Out :=
  let f := vectorFmt o.fmt
  vecWord (vfcmpVVInfo o s.cur) s fun t =>
    (t.floatMask o.d o.m fun e => fCmp f o.cond (t.cur.elem o.a f.width e) (t.cur.elem o.b f.width e)).next8
/-- VFCMP_VS (R201). -/
def execVfcmpVS (o : FCmpVS) (s : State) : Out :=
  let f := vectorFmt o.fmt
  vecWord (vfcmpVSInfo o s.cur) s fun t =>
    (t.floatMask o.d o.m fun e => fCmp f o.cond (t.cur.elem o.a f.width e) (floatScalar f t o.x)).next8

/-! ### VFCVT (R202, R203) -/

/-- The container width of a format in a vector register (Table 10-6). -/
def container : Fmt → Nat
  | .fp64 => 64
  | .int64 => 64
  | .fp32 => 32
  | .int32 => 32
  | .fp16 => 16
  | .bf16 => 16
  | .int16 => 16
  | .e4m3 => 8
  | .e5m2 => 8
  | .e2m1 => 8
  | .int8 => 8
  | .nat8 => 8
  | .nat4 => 8
  | .int4 => 8
  | .e8m0 => 8

/-- The operands of VFCVT: a shared register of another container width is illegal. -/
def vfcvtInfo (o : CvtOp) (c : Strand) : WordInfo :=
  let du := c.use o.d (container o.dst)
  let au := c.use o.a (container o.src)
  { srcs := [au], dsts := [du], clash := decide (container o.dst ≠ container o.src) && du.meets au, ms := [o.m] }

/-- The rounding mode of VFCVT. -/
def cvtMode (r : CvtRM) (frm : RMode) : RMode :=
  match r with
  | .fixed m => m
  | .frm => frm

/-- VFCVT (R202, R203). -/
def execVfcvt (o : CvtOp) (s : State) : Out :=
  vecWord (vfcvtInfo o s.cur) s fun t =>
    let g := fun e =>
      convertFmt (fmtKind o.dst) (fmtKind o.src) (cvtMode o.rm t.cur.frm) o.sat (t.cur.elem o.a (container o.src) e)
    let sat := decide (t.cur.vec.vstart < t.cur.vec.vl) && (t.cur.actives o.m).any fun e => (g e).2
    ((t.floatWise o.d (container o.dst) o.m fun e => (g e).1).convSat sat).next8

/-! ### Reductions and scans (R205 to R212) -/

/-- The segments of the strip in order, each the list of its elements (R207); at vl = 0 the one empty segment. -/
def Strand.segments (c : Strand) : List (List Nat) :=
  (List.range c.vec.vl).foldr (fun e acc =>
      match acc with
      | [] => [[e]]
      | seg :: rest =>
        -- the next element begins a segment of its own if its bit of ms is set
        if c.vec.seg && c.vec.ms.getLsbD (e + 1) && decide (e + 1 < c.vec.vl) then [e] :: seg :: rest
        else (e :: seg) :: rest) []
    |> fun l => if l = [] then [[]] else l

/-- The operands of a reduction: source of width n, seed and result of width w (Table 10-7). -/
def redInfo (n w : Nat) (m : MReg) (d a b : VReg) (c : Strand) : WordInfo :=
  let du := c.use d w
  let au := c.use a n
  { klass := .reduction, srcs := [au, c.use b w], dsts := [du], clash := decide (n ≠ w) && du.meets au, ms := [m] }

/-- An integer reduction. -/
def ireInfo (wide : Bool) (o : VV) (c : Strand) : WordInfo :=
  redInfo o.ew.bits (if wide then 2 * o.ew.bits else o.ew.bits) o.m o.d o.a o.b c

/-- A floating-point reduction. -/
def freInfo (o : FVV) (c : Strand) : WordInfo :=
  redInfo (vectorFmt o.fmt).width (vectorFmt o.fmt).width o.m o.d o.a o.b c

/-- The results of a reduction written to elements 0 upward, the rest by the tail policy, vstart 0 (R206, R208). -/
def State.writeSeeds (s : State) (d : VReg) (w : Nat) (rs : List FRes) : State :=
  let c := s.cur
  let v1 := c.putAll c.vec.v d w ((List.range rs.length).zip (rs.map (·.bits)))
  let v2 := if c.vec.tp then
      { c with vec := { c.vec with vl := rs.length } }.zeroTail v1 d w (c.groupSize w)
    else v1
  ((s.withVec { c.vec with v := v2, vstart := 0 }).notePush (c.use d w) (List.range rs.length)).convFlags
    (rs.foldl (fun a r => a ||| r.flags) 0)

/-- Reduce of R208: each segment's seed and active elements combined, an empty one leaving the seed. `comb` takes the
seed and the segment's elements, an inactive one as none. -/
def State.reduce (s : State) (d a b : VReg) (n w : Nat) (m : MReg) (comb : Nat → List (Option Nat) → FRes) : State :=
  let c := s.cur
  let segs := c.segments
  s.writeSeeds d w (((List.range segs.length).zip segs).map fun k =>
    let seed := c.elem b w k.1
    let xs := k.2.map fun e => if c.maskBit m e then some (c.elem a n e) else none
    if xs.all Option.isNone then flagless seed else comb seed xs)

/-- An order-free combination of the seed with each active element. -/
def foldActive (g : Nat → Nat → Nat) (seed : Nat) (xs : List (Option Nat)) : FRes :=
  flagless (xs.foldl (fun r x => match x with
    | some v => g r v
    | none => r) seed)

/-- An integer reduction word. -/
def redWord (wide : Bool) (g : Nat → Nat → Nat → Nat) (o : VV) (s : State) : Out :=
  let n := o.ew.bits
  let w := if wide then 2 * n else n
  vecWord (ireInfo wide o s.cur) s fun t => (t.reduce o.d o.a o.b n w o.m (foldActive (g n))).next8

/-- A floating-point combination in ascending order, the flags gathered (R210). -/
def foldFloat (g : Nat → Nat → FRes) (seed : Nat) (xs : List (Option Nat)) : FRes :=
  xs.foldl (fun r x => match x with
    | some v =>
      let q := g r.bits v
      { bits := q.bits, flags := r.flags ||| q.flags }
    | none => r) (flagless seed)

/-- One level of the tree of R209: an EMPTY node passes the other operand. -/
def treeLevel (g : Nat → Nat → FRes) : List (Option FRes) → List (Option FRes)
  | [] => []
  | [x] => [x]
  | x :: y :: t =>
    (match x, y with
      | none, y => y
      | some p, none => some p
      | some p, some q =>
        let r := g p.bits q.bits
        some { bits := r.bits, flags := p.flags ||| q.flags ||| r.flags }) :: treeLevel g t

/-- The tree over the leaves; fuel counts the levels. -/
def treeOf (g : Nat → Nat → FRes) : Nat → List (Option FRes) → Option FRes
  | 0, l => l.head?.join
  | fuel + 1, l => if l.length ≤ 1 then l.head?.join else treeOf g fuel (treeLevel g l)

/-- Combine of R209. -/
def foldTree (g : Nat → Nat → FRes) (seed : Nat) (xs : List (Option Nat)) : FRes :=
  match treeOf g (xs.length + 1) (xs.map fun x => x.map flagless) with
  | none => flagless seed
  | some t =>
    let r := g seed t.bits
    { bits := r.bits, flags := t.flags ||| r.flags }

/-- A floating-point reduction word. -/
def fredWord (comb : (Nat → Nat → FRes) → Nat → List (Option Nat) → FRes) (g : FFun) (o : FVV) (s : State) : Out :=
  let f := vectorFmt o.fmt
  vecWord (freInfo o s.cur) s fun t => (t.reduce o.d o.a o.b f.width f.width o.m (comb (g f t.cur.frm))).next8

/-- VREDSUM (R208). -/
def execVredsum (o : VV) (s : State) : Out := redWord false (fun n x y => (x + y) % 2 ^ n) o s
/-- VREDMIN (R208). -/
def execVredmin (o : VV) (s : State) : Out := redWord false (fun n x y => if signed n y < signed n x then y else x) o s
/-- VREDMAX (R208). -/
def execVredmax (o : VV) (s : State) : Out := redWord false (fun n x y => if signed n x < signed n y then y else x) o s
/-- VREDAND (R208). -/
def execVredand (o : VV) (s : State) : Out := redWord false (fun _ x y => x &&& y) o s
/-- VREDOR (R208). -/
def execVredor (o : VV) (s : State) : Out := redWord false (fun _ x y => x ||| y) o s
/-- VREDXOR (R208). -/
def execVredxor (o : VV) (s : State) : Out := redWord false (fun _ x y => x ^^^ y) o s
/-- VWREDSUM (R208): each element is sign-extended to 2n bits. -/
def execVwredsum (o : VV) (s : State) : Out :=
  redWord true (fun n x y => wrapTo (2 * n) ((x : Int) + signed n y)) o s
/-- VFREDSUM (R209). -/
def execVfredsum (o : FVV) (s : State) : Out := fredWord foldTree fAdd o s
/-- VFREDOSUM (R210). -/
def execVfredosum (o : FVV) (s : State) : Out := fredWord foldFloat fAdd o s
/-- VFREDMIN (R208). -/
def execVfredmin (o : FVV) (s : State) : Out := fredWord foldFloat vfMin o s
/-- VFREDMAX (R208). -/
def execVfredmax (o : FVV) (s : State) : Out := fredWord foldFloat vfMax o s

/-- The running values of one segment: the active elements with their results (R212). -/
def scanSeg (g : Nat → Nat → FRes) (act : Nat → Bool) (x : Nat → Nat) : Nat → List Nat → List (Nat × FRes)
  | _, [] => []
  | run, e :: t =>
    if act e then
      let r := g run (x e)
      (e, r) :: scanSeg g act x r.bits t
    else scanSeg g act x run t

/-- A scan of width n: at vl = 0 only vstart changes (R212). -/
def State.scan (s : State) (d a b : VReg) (n : Nat) (m : MReg) (g : Nat → Nat → FRes) : State :=
  let c := s.cur
  if c.vec.vl = 0 then s.vstart0
  else
    let segs := c.segments
    let rs := ((List.range segs.length).zip segs).flatMap fun k =>
      scanSeg g (c.maskBit m) (c.elem a n) (c.elem b n k.1) k.2
    (s.writeVec d n (rs.map fun r => (r.1, r.2.bits)) (c.maskedOff0 m)).convFlags (rs.foldl (fun x r => x ||| r.2.flags) 0)

/-- VSCAN (R212). -/
def execVscan (o : VV) (s : State) : Out :=
  let n := o.ew.bits
  vecWord (ireInfo false o s.cur) s fun t => (t.scan o.d o.a o.b n o.m fun x y => flagless ((x + y) % 2 ^ n)).next8
/-- VFSCAN (R212). -/
def execVfscan (o : FVV) (s : State) : Out :=
  let f := vectorFmt o.fmt
  vecWord (freInfo o s.cur) s fun t => (t.scan o.d o.a o.b f.width o.m (fAdd f t.cur.frm)).next8

end Sys2Proof.Machine
end

