-- ==== Sys2Proof/Machine/Matrix.lean ====
section
/-! DEFINITION. Machine/Matrix.lean: the exact and BF16 tiles and the MATRIX words (14_matrix). -/

namespace Sys2Proof.Machine

/-! ### Cells and group sums (R268 to R271) -/

/-- Merge (R269). -/
def Special.merge (a b : Special) : Special := if a = .none then b else if b = .none ∨ a = b then a else .nan

/-- The infinity of a sign. -/
def Special.inf (neg : Bool) : Special := if neg then .ninf else .pinf

/-- The opposite infinity where a sign is negative. -/
def Special.flip (a : Special) (neg : Bool) : Special :=
  match a with
  | .pinf => .inf neg
  | .ninf => .inf !neg
  | .none => .none
  | .nan => .nan

/-- The code of a special state (Table 14-3). -/
def Special.code : Special → Nat
  | .none => 0
  | .pinf => 1
  | .ninf => 2
  | .nan => 3

/-- The special state of a code. -/
def Special.ofCode (n : Nat) : Special :=
  match n % 4 with
  | 0 => .none
  | 1 => .pinf
  | 2 => .ninf
  | _ => .nan

/-- AddProduct (R270). -/
def GSum.addProduct (g : GSum) (a b : FVal) : GSum :=
  match a.mul b with
  | .nan _ => { g with sp := g.sp.merge .nan, act := true }
  | .inf n => { g with sp := g.sp.merge (.inf n), act := true }
  | .num n m e =>
    { g with
      v := g.v + BitVec.ofInt 96 (scaled n m e (-48))
      nz := g.nz && decide (m = 0) && n
      act := true }

/-- The special state that a group and its scale give a cell (R271). -/
def groupSpecial (g : GSum) (s : FVal) : Special :=
  match g.sp, s with
  | .nan, _ => .nan
  | _, .nan _ => .nan
  | .none, .num _ _ _ => .none
  | .none, .inf n => if g.v = 0 then .nan else .inf (g.v.msb != n)
  | sp, .inf n => sp.flip n
  | sp, .num n m _ => if m = 0 then .nan else sp.flip n

/-- EndGroup on a cell (R271). -/
def Cell.endGroup (c : Cell) (g : GSum) (s : FVal) : Cell :=
  match groupSpecial g s with
  | .none =>
    match s with
    | .num n m e =>
      let gv := g.v.toInt
      let neg := (if gv = 0 then g.nz else decide (gv < 0)) != n
      let r := roundAt .rne false (gv.natAbs * m) (e + 16) 0
      { c with
        v := c.v + BitVec.ofInt 136 (if neg then -(r.1 : Int) else r.1)
        nz := c.nz && decide (gv.natAbs * m = 0) && neg
        empty := false
        inex := c.inex || r.2
        big := c.big || decide (2 ^ 135 ≤ r.1) }
    | .inf _ => c
    | .nan _ => c
  | sp => { c with sp := c.sp.merge sp, nz := false, empty := false }

/-- The cell has overflowed (R268). -/
def Cell.overflowed (c : Cell) : Bool :=
  c.big || decide (c.v.extractLsb' 128 8 ≠ if c.v.getLsbD 127 then 0xFF#8 else 0#8)

/-! ### Tiles and slices (R261, R263) -/

/-- The cells of a tile. -/
def tileCells : Nat := 16384

/-- A map whose keys below n hold the values of a function. -/
def SMap.tabulate {α : Type} [DecidableEq α] (dflt : α) (n : Nat) (f : Nat → α) : SMap α :=
  (List.range n).filterMap fun k => if f k = dflt then none else some (k, f k)

/-- A tile of a slice. -/
def Slice.tile (s : Slice) (acc : BitVec 1) : Tile := if acc = 0 then s.acc0 else s.acc1

/-- A tile of a slice replaced. -/
def Slice.setTile (s : Slice) (acc : BitVec 1) (t : Tile) : Slice :=
  if acc = 0 then { s with acc0 := t } else { s with acc1 := t }

/-- A block scale's value, by the kind SK records (R286). -/
def Slice.scaleValue (s : Slice) (x : BitVec 16) : FVal := if s.sk then e8m0Value (x.toNat % 256) else fp16.value x.toNat

/-- The scale of a cell: the exact product of its row's and its column's (R271). -/
def Slice.scale (s : Slice) (r c : Nat) : FVal :=
  (s.scaleValue (SMap.get scaleOne s.sa r)).mul (s.scaleValue (SMap.get scaleOne s.sb c))

/-- NV where a block scale of a cell is a signalling NaN (R153). -/
def Slice.scaleNv (s : Slice) (r c : Nat) : BitVec 5 :=
  (s.scaleValue (SMap.get scaleOne s.sa r)).nv ||| (s.scaleValue (SMap.get scaleOne s.sb c)).nv

/-- The union of flags over a list. -/
def orFlags {α : Type} (l : List α) (f : α → BitVec 5) : BitVec 5 := l.foldl (fun a x => a ||| f x) 0

/-- The zero points of the rows. -/
def Slice.zeroA (s : Slice) (r : Nat) : Nat := (SMap.get 0#8 s.za r).toNat

/-- The zero points of the columns. -/
def Slice.zeroB (s : Slice) (c : Nat) : Nat := (SMap.get 0#8 s.zb c).toNat

/-- The value of an operand element; a zero point applies to NAT formats alone (R270). -/
def operandValue (f : Fmt) (z enc : Nat) : FVal :=
  match fmtKind f with
  | .int n false => .ofInt ((enc % 2 ^ n : Nat) - (z : Int))
  | k => k.value enc

/-- Every granted slice changed, the flags gathered. -/
def State.mapSlices (s : State) (f : Nat → Slice → Slice × BitVec 5) : State × BitVec 5 :=
  let rs := s.cur.vec.slices.zipIdx.map fun x => f x.2 x.1
  (s.withVec { s.cur.vec with slices := rs.map (·.1) }, orFlags rs (·.2))

/-- Some granted slice's tile is of another kind than a format pair needs (R278). -/
def Strand.kindDiffers (c : Strand) (acc : BitVec 1) (bf : Bool) : Bool :=
  c.vec.slices.any fun s => (s.tile acc).bf16 != bf

/-- A step of the BF16 tile on one cell (R273). -/
def bfStep (neg : Bool) (a b : Nat) (cell : FRes) : FRes :=
  let p := (bf16.value a).mul (bf16.value b)
  let r := fp32.deliver .rne ((if neg then p.negate else p).add .rne (fp32.value cell.bits))
  { bits := r.bits, flags := cell.flags ||| r.flags }

/-- A tile's BF16 cells changed. -/
def Tile.mapFlt (t : Tile) (f : Nat → FRes → FRes) : Tile × BitVec 5 :=
  let rs := (List.range tileCells).map fun k => (k, f k (flagless (SMap.get 0#32 t.flt k).toNat))
  ({ t with flt := rs.filterMap fun r =>
      if BitVec.ofNat 32 r.2.bits = 0 then none else some (r.1, BitVec.ofNat 32 r.2.bits) },
    orFlags rs (·.2.flags))

/-- The cell of a key. -/
def Tile.cell (t : Tile) (k : Nat) : Cell := SMap.get Cell.reset t.cells k

/-- The group sum of a key. -/
def Tile.sum (t : Tile) (k : Nat) : GSum := SMap.get GSum.reset t.sums k

/-- Group sums changed. -/
def Tile.mapSums (t : Tile) (f : Nat → GSum → GSum) : Tile :=
  { t with sums := SMap.tabulate GSum.reset tileCells fun k => f k (t.sum k) }

/-- The groups of some cells ended (R271): each takes its addend and its sum is reset. -/
def Tile.endGroups (t : Tile) (which : Nat → Bool) (scale : Nat → Nat → FVal) : Tile :=
  { t with
    cells := SMap.tabulate Cell.reset tileCells fun k =>
      if which k then (t.cell k).endGroup (t.sum k) (scale (k / 128) (k % 128)) else t.cell k
    sums := t.sums.filter fun p => !which p.1 }

/-! ### Interruption (R283, R305) -/

/-- Where a matrix word of n steps stops before its end, with the address of a failed read or, for a pre-emption, none.
While IN is 1 it stops nowhere (R341). -/
def Strand.stepStop (c : Strand) (n : Nat) : Option (Nat × Option Word) :=
  let lo := c.vec.vstart
  let at_ := fun k => if max lo k < n then some (max lo k) else none
  if c.trIn then none
  else
    let late := match c.lateStop with
      | some (.matrix k a) => (at_ k).map fun i => (i, some a)
      | _ => none
    let pre := match c.preempt with
      | .arriving k => if c.stoppable then (at_ k).map fun i => (i, none) else none
      | _ => none
    match late, pre with
    | some l, some p => if p.1 < l.1 then some p else some l
    | some l, none => some l
    | none, p => p

/-- The step of a matrix word of n steps whose data failed while IN is 1: the word is not stopped (R341), and the step is not
performed, for the data surfaces nowhere (R345, R401; DESIGN CHOICE, log 53). -/
def Strand.stepSkip (c : Strand) (n : Nat) : Option Nat :=
  match c.lateStop with
  | some (.matrix k _) => if c.trIn && decide (max c.vec.vstart k < n) then some (max c.vec.vstart k) else none
  | _ => none

/-- The steps of a list from one on and before another, without one that is skipped. -/
def stepsBetween {α : Type} (lo hi : Nat) (skip : Option Nat) (l : List α) : List α :=
  l.zipIdx.filterMap fun x => if lo ≤ x.2 ∧ x.2 < hi ∧ some x.2 ≠ skip then some x.1 else none

/-- A matrix word stopped before a step: vstart names it, and LATE, which gathers every error reported, or PREEMPT is raised
with RK 2 (R346, R356). -/
def State.stopMatrix (s : State) (k : Nat) (late : Option Word) : State :=
  let s1 := s.withVec { s.cur.vec with vstart := k }
  match late with
  | some a =>
    let s2 := s1.withCur { s1.cur with lateStop := none }
    s2.raiseLate 2 s2.cur.slot (s2.cur.pc - 8 * s2.cur.slot.setWidth 64) (some a)
  | none => s1.raisePreempt { s1.trapHere .preempt 0 with rk := 2 }

/-- A matrix word of steps done: vstart is 0; a request that was to arrive within it is outstanding. A read that failed while
IN is 1 has not stopped it: its LATE is held until TRACK (R341; that the word runs on without that step is a DESIGN CHOICE,
log 53). -/
def State.endMatrix (s : State) : State :=
  let c := s.cur
  let failed := match c.lateStop with
    | some (.matrix _ a) => if c.trIn then some a else none
    | _ => none
  (s.withCur { c with
    vec := { c.vec with vstart := 0 }
    preempt := (match c.preempt with
      | .arriving _ => .requested
      | p => p)
    lateStop := (match c.lateStop with
      | some (.matrix _ _) => none
      | l => l)
    panelLate := c.panelLate.or failed }).next8

/-! ### Operands of the words (R277) -/

/-- A MATRIX word. -/
def matrixInfo (srcs dsts : List RegUse) (ms : List MReg) (xs : List XReg) (xd : Option XReg) : WordInfo :=
  { klass := .matrix, srcs := srcs, dsts := dsts, mode := .matrix, ms := ms, xs := xs, xd := xd }

/-- MZERO. -/
def mzeroInfo (_ : MzeroOp) (_ : Strand) : WordInfo := matrixInfo [] [] [] [] none
/-- MUPD, MUPDN. -/
def mupdInfo (o : MupdOp) (_ : Strand) : WordInfo :=
  matrixInfo [matrixUse o.a (container o.fa), matrixUse o.b (container o.fb)] [] [o.rmask, o.cmask] [] none
/-- MMAC. -/
def mmacInfo (_ : MmacOp) (_ : Strand) : WordInfo := matrixInfo [] [] [] [] none
/-- MREAD. -/
def mreadInfo (o : MreadOp) (_ : Strand) : WordInfo := matrixInfo [] [matrixUse o.d (container o.fa)] [] [o.row, o.scale] none
/-- MWRITE. -/
def mwriteInfo (o : MwriteOp) (_ : Strand) : WordInfo := matrixInfo [matrixUse o.s 64] [] [] [o.row] none
/-- The width of MSCL's elements. -/
def sclWidth (o : MsclOp) : Nat := if o.e8m0 then 8 else 16
/-- MSCL. -/
def msclInfo (o : MsclOp) (_ : Strand) : WordInfo := matrixInfo [matrixUse o.a (sclWidth o), matrixUse o.b (sclWidth o)] [] [] [] none
/-- MZPT. -/
def mzptInfo (o : MzptOp) (_ : Strand) : WordInfo := matrixInfo [matrixUse o.a 8, matrixUse o.b 8] [] [] [] none
/-- MSTAT. -/
def mstatInfo (o : MstatOp) (_ : Strand) : WordInfo := matrixInfo [] [] [] [] (some o.d)

/-! ### MZERO, MUPD, MUPDN (R279, R280) -/

/-- MZERO (R279). -/
def execMzero (o : MzeroOp) (s : State) : Out :=
  vecWord (mzeroInfo o s.cur) s fun t =>
    (t.mapSlices fun _ sl => (sl.setTile o.acc { Tile.reset with bf16 := decide (o.fa = .bf16) }, 0)).1.next8

/-- A row or column element is active (R264, R280). -/
def Strand.rowActive (c : Strand) (m : MReg) (j i : Nat) : Bool := decide (i < c.vec.vl) && c.maskBit m (128 * j + i)

/-- The encodings of an operand's 128 elements in slice j. -/
def Strand.sliceElems (c : Strand) (r : VReg) (f : Fmt) (j : Nat) : List Nat :=
  (List.range 128).map fun i => c.elem r (container f) (128 * j + i) % 2 ^ fmtWidth f

/-- The rank-one update of one slice (R280); signalling NaNs among what a live cell takes set NV (R153). -/
def Slice.update (sl : Slice) (c : Strand) (o : MupdOp) (neg : Bool) (j : Nat) : Slice × BitVec 5 :=
  let as := c.sliceElems o.a o.fa j
  let bs := c.sliceElems o.b o.fb j
  let live := fun k => c.rowActive o.rmask j (k / 128) && c.rowActive o.cmask j (k % 128)
  let t := sl.tile o.acc
  if t.bf16 then
    let r := t.mapFlt fun k x => if live k then bfStep neg (as.getD (k / 128) 0) (bs.getD (k % 128) 0) x else x
    (sl.setTile o.acc r.1, r.2)
  else
    let a := fun k => operandValue o.fa (sl.zeroA (k / 128)) (as.getD (k / 128) 0)
    let b := fun k => operandValue o.fb (sl.zeroB (k % 128)) (bs.getD (k % 128) 0)
    let cell := fun k =>
      (t.cell k).endGroup (GSum.reset.addProduct (if neg then (a k).negate else a k) (b k)) (sl.scale (k / 128) (k % 128))
    (sl.setTile o.acc { t with cells := SMap.tabulate Cell.reset tileCells fun k => if live k then cell k else t.cell k },
      orFlags ((List.range tileCells).filter live) fun k => (a k).nv ||| (b k).nv ||| sl.scaleNv (k / 128) (k % 128))

/-- MUPD and MUPDN: MODE where the tile is of another kind (R278). -/
def rankOne (neg : Bool) (o : MupdOp) (s : State) : Out :=
  vecWord (mupdInfo o s.cur) s fun t =>
    if t.cur.kindDiffers o.acc (decide (o.fa = .bf16)) then t.trap .mode t.cur.iword
    else
      let r := t.mapSlices fun j sl => sl.update t.cur o neg j
      (r.1.convFlags r.2).next8

/-- MUPD (R280). -/
def execMupd (o : MupdOp) (s : State) : Out := rankOne false o s
/-- MUPDN (R280). -/
def execMupdn (o : MupdOp) (s : State) : Out := rankOne true o s

/-! ### MMAC (R281 to R283) -/

/-- Row r of n consecutive panels of slice j: 32n encodings. -/
def State.panelsRow (s : State) (p n j r : Nat) (f : Fmt) : List Nat :=
  (List.range n).flatMap fun m => s.panelRow (larderBase s.cur.id.core + s.cur.panelAt (p + m) j) f r

/-- The first panel of a list, and slice, whose record exceeds the declared planes, as PRECISION's trval (R282). -/
def State.precisionFault (s : State) (p n planes : Nat) : Option Word :=
  ((List.range n).flatMap fun m => (List.range s.cur.lanes).map fun j => (p + m, j)).findSome? fun x =>
    let rec_ := s.planeRecord s.cur.id.core (s.cur.panelAt x.1 x.2)
    if planes < rec_ then some (BitVec.ofNat 64 (rec_ + x.1 * 256 + x.2 * 65536)) else none

/-- The sum of products of two rows (R270). -/
def dotSum : GSum → List FVal → List FVal → GSum
  | g, a :: as, b :: bs => dotSum (g.addProduct a b) as bs
  | g, _, _ => g

/-- The BF16 steps of one cell over two rows (R273). -/
def dotFlt : FRes → List Nat → List Nat → FRes
  | x, a :: as, b :: bs => dotFlt (bfStep false a b x) as bs
  | x, _, _ => x

/-- Steps lo to hi − 1 of MMAC on one slice, without one that is skipped: the A rows in full, the B rows at the declared planes; signalling NaNs among
them set NV (R153). -/
def Slice.steps (sl : Slice) (s : State) (o : MmacOp) (j lo hi : Nat) (skip : Option Nat) : Slice × BitVec 5 :=
  let n := 2 ^ o.grp.toNat
  let cut := fun (l : List Nat) => stepsBetween lo hi skip l
  let as := (List.range 128).map fun r => cut (s.panelsRow o.pa.toNat n j r o.fa)
  let bs := (List.range 128).map fun r => (cut (s.panelsRow o.pb.toNat n j r o.fb)).map (declared o.fb (o.planes.toNat + 1))
  let t := sl.tile o.acc
  if t.bf16 then
    let r := t.mapFlt fun k x => dotFlt x (as.getD (k / 128) []) (bs.getD (k % 128) [])
    (sl.setTile o.acc r.1, r.2)
  else
    let av := as.zipIdx.map fun x => x.1.map (operandValue o.fa (sl.zeroA x.2))
    let bv := bs.zipIdx.map fun x => x.1.map (operandValue o.fb (sl.zeroB x.2))
    (sl.setTile o.acc (t.mapSums fun k g => dotSum g (av.getD (k / 128) []) (bv.getD (k % 128) [])),
      orFlags (av ++ bv) fun row => orFlags row FVal.nv)

/-- Every group sum of a tile cleared. -/
def Slice.clearSums (sl : Slice) (acc : BitVec 1) : Slice := sl.setTile acc { sl.tile acc with sums := [] }

/-- The flags of ended groups: signalling NaNs among their block scales set NV (R153). -/
def Slice.endFlags (sl : Slice) (which : Nat → Bool) : BitVec 5 :=
  orFlags ((List.range tileCells).filter which) fun k => sl.scaleNv (k / 128) (k % 128)

/-- Every group of an exact tile ended. -/
def Slice.endAll (sl : Slice) (acc : BitVec 1) : Slice × BitVec 5 :=
  if (sl.tile acc).bf16 then (sl, 0)
  else (sl.setTile acc ((sl.tile acc).endGroups (fun _ => true) sl.scale), sl.endFlags fun _ => true)

/-- Steps of a matrix word on every granted slice, counted (event 0x05 of Table 23-4). -/
def State.countSteps (s : State) (n : Nat) : State := s.count 0x05 (n * s.cur.vec.slices.length)

/-- The steps of MMAC, to its end or to where it is interrupted. -/
def State.mmacSteps (s : State) (o : MmacOp) : State :=
  let n := 32 * 2 ^ o.grp.toNat
  let lo := s.cur.vec.vstart
  let s1 := if lo = 0 then (s.mapSlices fun _ sl => (sl.clearSums o.acc, 0)).1 else s
  let stop := s1.cur.stepStop n
  let hi := (stop.map (·.1)).getD n
  let r := s1.mapSlices fun j sl => sl.steps s1 o j lo hi (s1.cur.stepSkip n)
  let s2 := r.1.countSteps (hi - lo)
  match stop with
  | some x => (s2.raise r.2).stopMatrix x.1 x.2
  | none =>
    let e := s2.mapSlices fun _ sl => sl.endAll o.acc
    (e.1.convFlags (r.2 ||| e.2)).endMatrix

/-- MMAC (R281): MODE for a tile of another kind, then PRECISION, then the steps. -/
def execMmac (o : MmacOp) (s : State) : Out :=
  vecWord (mmacInfo o s.cur) s fun t =>
    if t.cur.kindDiffers o.acc (decide (o.fa = .bf16)) then t.trap .mode t.cur.iword
    else match t.precisionFault o.pb.toNat (2 ^ o.grp.toNat) (o.planes.toNat + 1) with
      | some v => t.trap .precision v
      | none => t.mmacSteps o

/-! ### Read-out and raw parts (R274, R275, R284, R285) -/

/-- A zero of a sign. -/
def zeroRes (f : FloatFmt) (neg : Bool) : FRes := flagless (f.signed neg 0)

/-- ReadCell for a cell value that is not empty, not a special NaN and has not overflowed (R274). -/
def readValue (x t : FVal) (f : FloatFmt) (mode : RMode) (sat : Bool) : FRes :=
  match x, t with
  | .nan q, _ => toFloat f mode sat (.nan q)
  | _, .nan q => toFloat f mode sat (.nan q)
  | .inf n, .inf k => toFloat f mode sat (.inf (n != k))
  | .inf n, .num k m _ => if m = 0 then f.nan true else toFloat f mode sat (.inf (n != k))
  | .num n m _, .inf k => if m = 0 then f.nan true else toFloat f mode sat (.inf (n != k))
  | .num n m e, .num k l d => if m = 0 ∨ l = 0 then zeroRes f (n != k) else f.round mode sat (n != k) (m * l) (e + d)

/-- The value of an exact cell: V[127:0] × 2⁻⁶⁴, a zero negative where NZ is 1. -/
def Cell.value (c : Cell) : FVal :=
  match c.sp with
  | .pinf => .inf false
  | .ninf => .inf true
  | .nan => .nan true
  | .none =>
    let v := (c.v.setWidth 128).toInt
    if v = 0 then .num c.nz 0 (-64) else .num (decide (v < 0)) v.natAbs (-64)

/-- ReadCell (R274). -/
def readCell (t : Tile) (k : Nat) (scale : FVal) (f : FloatFmt) (mode : RMode) (sat : Bool) : FRes :=
  if t.bf16 then
    match scale with
    | .nan q => toFloat f mode sat (.nan q)
    | _ => readValue (fp32.value (SMap.get 0#32 t.flt k).toNat) scale f mode sat
  else
    let c := t.cell k
    if c.empty then flagless 0
    else match scale with
      | .nan q => toFloat f mode sat (.nan q)
      | _ =>
        if c.sp = .none && c.overflowed then
          { bits := f.overflow mode (c.v.getLsbD 135) sat, flags := flagOF ||| flagNX }
        else readValue c.value scale f mode sat

/-- The state word of a cell (Table 14-3). -/
def Cell.word (c : Cell) : Nat :=
  (c.v.extractLsb' 128 8).toNat + c.sp.code * 256 + c.nz.toNat * 1024 + c.empty.toNat * 2048 + c.inex.toNat * 4096 +
    c.big.toNat * 8192

/-- The scale and zero-point registers of an index (Table 14-5, part 5). -/
def Slice.regs (sl : Slice) (i : Nat) : Nat :=
  (SMap.get scaleOne sl.sa i).toNat + sl.zeroA i * 2 ^ 16 + (SMap.get scaleOne sl.sb i).toNat * 2 ^ 24 + sl.zeroB i * 2 ^ 40 +
    sl.sk.toNat * 2 ^ 48 + sl.zr.toNat * 2 ^ 49

/-- A raw part of a cell (Table 14-5). -/
def Slice.raw (sl : Slice) (acc : BitVec 1) (part r c : Nat) : Nat :=
  let t := sl.tile acc
  let k := 128 * r + c
  if part = 5 then sl.regs c
  else if t.bf16 then if part = 0 then (SMap.get 0#32 t.flt k).toNat else 0
  else match part with
    | 0 => (t.cell k).v.toNat % 2 ^ 64
    | 1 => (t.cell k).v.toNat / 2 ^ 64 % 2 ^ 64
    | 2 => (t.cell k).word
    | 3 => (t.sum k).v.toNat % 2 ^ 64
    | 4 => (t.sum k).v.toNat / 2 ^ 64 + (t.sum k).sp.code * 2 ^ 32 + (t.sum k).nz.toNat * 2 ^ 34 + (t.sum k).act.toNat * 2 ^ 35
    | _ => 0

/-- A cell with a raw part written. -/
def Cell.put (c : Cell) (part : Nat) (x : Word) : Cell :=
  match part with
  | 0 => { c with v := c.v.extractLsb' 64 72 ++ x }
  | 1 => { c with v := c.v.extractLsb' 128 8 ++ (x ++ c.v.extractLsb' 0 64) }
  | 2 => { v := x.extractLsb' 0 8 ++ c.v.extractLsb' 0 128, sp := .ofCode (x.toNat / 256), nz := x.getLsbD 10,
           empty := x.getLsbD 11, inex := x.getLsbD 12, big := x.getLsbD 13 }
  | _ => c

/-- A group sum with a raw part written. -/
def GSum.put (g : GSum) (part : Nat) (x : Word) : GSum :=
  match part with
  | 3 => { g with v := g.v.extractLsb' 64 32 ++ x }
  | 4 => { v := x.extractLsb' 0 32 ++ g.v.extractLsb' 0 64, sp := .ofCode (x.toNat / 2 ^ 32), nz := x.getLsbD 34,
           act := x.getLsbD 35 }
  | _ => g

/-- The scale and zero-point registers of an index written, as given (R285). Every element of part 5 names the slice's SK and
ZR: the last element written decides them (DESIGN CHOICE, log 57). -/
def Slice.putRegs (sl : Slice) (i : Nat) (x : Word) : Slice :=
  { sl with
    sa := SMap.set scaleOne sl.sa i (x.extractLsb' 0 16), za := SMap.set 0#8 sl.za i (x.extractLsb' 16 8)
    sb := SMap.set scaleOne sl.sb i (x.extractLsb' 24 16), zb := SMap.set 0#8 sl.zb i (x.extractLsb' 40 8)
    sk := x.getLsbD 48, zr := x.getLsbD 49 }

/-- A raw part of a cell written (Table 14-5): parts 1 to 4 of a BF16 tile, 6 and 7 write nothing. -/
def Slice.putRaw (sl : Slice) (acc : BitVec 1) (part r c : Nat) (x : Word) : Slice :=
  let t := sl.tile acc
  let k := 128 * r + c
  if part = 5 then sl.putRegs c x
  else if t.bf16 then
    if part = 0 then sl.setTile acc { t with flt := SMap.set 0#32 t.flt k (x.setWidth 32) } else sl
  else if part < 3 then sl.setTile acc { t with cells := SMap.set Cell.reset t.cells k ((t.cell k).put part x) }
  else if part < 5 then sl.setTile acc { t with sums := SMap.set GSum.reset t.sums k ((t.sum k).put part x) }
  else sl

/-- The elements c < vl of every granted slice. -/
def Strand.liveElems (c : Strand) : List (Nat × Nat) :=
  (List.range c.vec.slices.length).flatMap fun j => (List.range (min 128 c.vec.vl)).map fun i => (j, i)

/-- Elements of a vector destination in matrix mode written, the tail under TP; vstart is kept (R284). -/
def State.writeRow (s : State) (d : VReg) (w : Nat) (rs : List (Nat × Nat)) : State :=
  let c := s.cur
  let v1 := c.putAll c.vec.v d w rs
  let v2 := if c.vec.tp then c.zeroTail v1 d w (c.groupSize w) else v1
  (s.withVec { c.vec with v := v2 }).notePush (matrixUse d w) (rs.map (·.1))

/-- One element of MREAD. -/
def State.readElem (s : State) (o : MreadOp) (j i : Nat) : FRes :=
  let xa := (s.getX o.row).toNat
  let sl := s.cur.vec.slices.getD j .reset
  match fmtKind o.fa with
  | .float f =>
    readCell (sl.tile o.acc) (128 * (xa % 128) + i) (fp32.value ((s.getX o.scale).toNat % 2 ^ 32)) f s.cur.frm
      (decide (xa / 2 ^ 11 % 2 = 1))
  | _ => flagless (sl.raw o.acc (xa / 256 % 8) (xa % 128) i)

/-- MREAD (R284). -/
def execMread (o : MreadOp) (s : State) : Out :=
  vecWord (mreadInfo o s.cur) s fun t =>
    let rs := t.cur.liveElems.map fun e => (128 * e.1 + e.2, t.readElem o e.1 e.2)
    ((t.writeRow o.d (container o.fa) (rs.map fun r => (r.1, r.2.bits))).convFlags (orFlags rs (·.2.flags))).next8

/-- MWRITE (R285). -/
def execMwrite (o : MwriteOp) (s : State) : Out :=
  vecWord (mwriteInfo o s.cur) s fun t =>
    let xa := (t.getX o.row).toNat
    (t.mapSlices fun j sl => ((List.range (min 128 t.cur.vec.vl)).foldl (fun sl i =>
      sl.putRaw o.acc (xa / 256 % 8) (xa % 128) i (BitVec.ofNat 64 (t.cur.elem o.s 64 (128 * j + i)))) sl, 0)).1.next8

/-! ### MSCL, MZPT, MSTAT (R286 to R288) -/

/-- MSCL (R286). -/
def execMscl (o : MsclOp) (s : State) : Out :=
  vecWord (msclInfo o s.cur) s fun t =>
    let w := sclWidth o
    (t.mapSlices fun j sl => ({ sl with
      sa := SMap.tabulate scaleOne 128 fun i => BitVec.ofNat 16 (t.cur.elem o.a w (128 * j + i))
      sb := SMap.tabulate scaleOne 128 fun i => BitVec.ofNat 16 (t.cur.elem o.b w (128 * j + i))
      sk := o.e8m0 }, 0)).1.next8

/-- An operand of MZPT is in range: 4-bit values where NAT4 is named (R287). -/
def Strand.zeroOk (c : Strand) (r : VReg) (four : Bool) : Bool :=
  !four || (List.range (128 * c.vec.slices.length)).all fun e => decide (c.elem r 8 e < 16)

/-- MZPT (R287). -/
def execMzpt (o : MzptOp) (s : State) : Out :=
  vecWord (mzptInfo o s.cur) s fun t =>
    if t.cur.zeroOk o.a o.a4 && t.cur.zeroOk o.b o.b4 then
      (t.mapSlices fun j sl => ({ sl with
        za := SMap.tabulate 0#8 128 fun i => BitVec.ofNat 8 (t.cur.elem o.a 8 (128 * j + i))
        zb := SMap.tabulate 0#8 128 fun i => BitVec.ofNat 8 (t.cur.elem o.b 8 (128 * j + i))
        zr := false }, 0)).1.next8
    else (t.mapSlices fun _ sl => ({ sl with zr := true }, 0)).1.next8

/-- The FP32 cell of a BF16 tile is a NaN, or an infinity of a sign. -/
def fltIs (x : BitVec 32) (f : FVal → Bool) : Bool := f (fp32.value x.toNat)

/-- Some cell of a tile has a special state; on a BF16 tile some FP32 cell has such a value (R288). -/
def Tile.anySpecial (t : Tile) (sp : Special) : Bool :=
  if t.bf16 then t.flt.any fun p => fltIs p.2 fun v => match v with
    | .nan _ => decide (sp = .nan)
    | .inf n => decide (sp = .inf n)
    | .num _ _ _ => false
  else t.cells.any fun p => decide (p.2.sp = sp)

/-- The status of a tile over the granted slices (Table 14-10). -/
def tileStatus (sls : List Slice) (acc : BitVec 1) : Nat :=
  let ts := sls.map fun s => s.tile acc
  let bit := fun (b : Bool) (n : Nat) => b.toNat * 2 ^ n
  bit (ts.any fun t => t.sums.any fun p => p.2.act) 11 + bit (ts.any (·.bf16)) 10 + bit (sls.any (·.zr)) 9 +
    bit (ts.all fun t => !t.bf16 && t.cells.all fun p => p.2.empty) 8 + bit (ts.any (·.anySpecial .nan)) 4 +
    bit (ts.any (·.anySpecial .ninf)) 3 + bit (ts.any (·.anySpecial .pinf)) 2 +
    bit (ts.any fun t => !t.bf16 && t.cells.any fun p => p.2.overflowed) 1 +
    bit (ts.any fun t => !t.bf16 && t.cells.any fun p => p.2.inex) 0

/-- MSTAT (R288). -/
def execMstat (o : MstatOp) (s : State) : Out :=
  vecWord (mstatInfo o s.cur) s fun t => (t.setX o.d (BitVec.ofNat 64 (tileStatus t.cur.vec.slices o.acc))).next8

end Sys2Proof.Machine
end

