-- ==== Sys2Proof/Machine/Onion.lean ====
section
/-! DEFINITION. Machine/Onion.lean: the Onion sparse operand loader: QSPLOAD's performance, SPMMAC, SPRES and SPSTAT
(15_onion_loader). -/

namespace Sys2Proof.Machine

/-! ### The command block (R290, R291, Tables 15-1 to 15-3) -/

/-- A pattern N:M of a code (Table 15-2). -/
def patternOf (code : Nat) : Nat × Nat :=
  match code with
  | 0 => (1, 4)
  | 1 => (2, 4)
  | 2 => (1, 8)
  | 3 => (2, 8)
  | 4 => (4, 8)
  | _ => (32, 32)

/-- Slots per row of a pattern code. -/
def slotsOf (code : Nat) : Nat := 32 * (patternOf code).1 / (patternOf code).2

/-- The formats of a tile. -/
def spFmt (f : Fmt) : Bool :=
  match f with
  | .fp16 => true
  | .e4m3 => true
  | .e5m2 => true
  | .e2m1 => true
  | .int8 => true
  | .int4 => true
  | _ => false

/-- The fields of a QSPLOAD block. -/
structure SpBlock where
  src : Nat
  stride : Int
  tset : Nat
  fmt : Fmt
  list : Bool
  fallback : Bool
  npat : Nat
  pats : List Nat
  loss : Nat
  count : Nat

/-- L accepted: from +0 to 1.0, or −0 (Table 15-1). -/
def lossOk (l : Nat) : Bool := decide (l ≤ 0x3C00) || decide (l = 0x8000)

/-- The block read, or EBLOCK. -/
def spBlock (b : List Word) : Option SpBlock :=
  let w := blockWord b 3
  let t := blockWord b 2
  let npat := w / 2 ^ 8 % 4
  let pats := (List.range 4).map fun i => w / 2 ^ (16 + 3 * i) % 8
  let list := decide (w / 16 % 2 = 1)
  let loss := w / 2 ^ 32 % 65536
  let count := w / 2 ^ 48 % 2048
  match Fmt.ofCode (BitVec.ofNat 4 w) with
  | none => none
  | some f =>
    if !spFmt f || decide (t / 2 ^ 28 ≠ 0) || decide (w / 64 % 4 ≠ 0) || decide (w / 1024 % 64 ≠ 0) ||
        decide (w / 2 ^ 28 % 16 ≠ 0) || decide (w / 2 ^ 59 ≠ 0) ||
        ((List.range 4).any fun i => decide (blockWord b (4 + i) ≠ 0)) ||
        ((pats.take (npat + 1)).any fun p => decide (4 < p)) || ((pats.drop (npat + 1)).any fun p => decide (p ≠ 0)) ||
        !lossOk loss || decide (t % 4096 ≠ 0) || (list && decide (blockWord b 1 ≠ 0)) || (!list && decide (count ≠ 0)) then
      none
    else some {
      src := blockWord b 0, stride := signed 64 (blockWord b 1), tset := t % 2 ^ 28, fmt := f, list := list
      fallback := decide (w / 32 % 2 = 1), npat := npat, pats := pats, loss := if loss = 0x8000 then 0 else loss
      count := count }

/-- The checks after the block's own: ELARDER, ECOUNT, EALIGN. -/
def SpBlock.fault (p : SpBlock) : Option Nat :=
  if larderSize < p.tset + 0x6000 then some 0x103
  else if 1024 < p.count then some 0x105
  else if p.list then if p.src % 4 ≠ 0 then some 0x104 else none
  else if p.src % fmtBytes p.fmt ≠ 0 ∨ p.stride % (fmtBytes p.fmt : Nat) ≠ 0 then some 0x104
  else none

/-! ### The tile (R292, R293) -/

/-- An element read: its row, column and encoding. -/
structure SpElem where
  r : Nat
  c : Nat
  enc : Nat
  deriving DecidableEq, Repr

/-- The value of an element. -/
def SpElem.value (f : Fmt) (x : SpElem) : FVal := (fmtKind f).value x.enc

/-- The magnitude of an element in units of 2⁻²⁴, which every accepted format's values are multiples of. -/
def SpElem.mag (f : Fmt) (x : SpElem) : Nat :=
  match x.value f with
  | .num _ m e => m * 2 ^ (e + 24).toNat
  | .inf _ => 0
  | .nan _ => 0

/-- A value is finite. -/
def FVal.finite : FVal → Bool
  | .num _ _ _ => true
  | .inf _ => false
  | .nan _ => false

/-- The byte offset from SRC of each element of a dense tile, in ascending row and column. -/
def SpBlock.denseAt (p : SpBlock) : List (Nat × Nat × Int) :=
  (List.range 32).flatMap fun r => (List.range 32).map fun c =>
    (r, c, Int.ofNat r * p.stride + Int.ofNat (if fmtWidth p.fmt = 4 then c / 2 else c * fmtBytes p.fmt))

/-- The address of an offset. -/
def SpBlock.at_ (p : SpBlock) (o : Int) : Nat := wrapTo 64 ((p.src : Int) + o)

/-- A dense element's encoding from its bytes. -/
def SpBlock.denseEnc (p : SpBlock) (c v : Nat) : Nat := if fmtWidth p.fmt = 4 then v / 16 ^ (c % 2) % 16 else v

/-- One element of a dense tile: its fault, or the element. -/
def State.denseElem (s : State) (tbl : PageTable) (p : SpBlock) (x : Nat × Nat × Int) : Except EStop SpElem :=
  match s.elemSpots tbl .load false (p.at_ x.2.2) (fmtBytes p.fmt) with
  | .error f => .error (failStop f x.2.2 [])
  | .ok sps =>
    let e : SpElem := { r := x.1, c := x.2.1, enc := p.denseEnc x.2.1 (s.readSpots sps) }
    if (e.value p.fmt).finite then .ok e else .error (.fault 0x107 x.2.2 [])

/-- One entry of a list (Table 15-6): `seen` holds the places named before it. -/
def State.listElem (s : State) (tbl : PageTable) (p : SpBlock) (seen : List (Nat × Nat)) (i : Nat) : Except EStop SpElem :=
  let o : Int := Int.ofNat (4 * i)
  match s.elemSpots tbl .load false (p.at_ o) 4 with
  | .error f => .error (failStop f o [])
  | .ok sps =>
    let w := s.readSpots sps
    let e : SpElem := { r := w / 2 ^ 21 % 32, c := w / 2 ^ 16 % 32, enc := w % 65536 }
    if w / 2 ^ 26 ≠ 0 ∨ 2 ^ fmtWidth p.fmt ≤ e.enc ∨ seen.contains (e.r, e.c) then .error (.fault 0x107 o [])
    else if (e.value p.fmt).finite then .ok e else .error (.fault 0x107 o [])

/-- The elements of a dense tile, or the first fault in row and column order. -/
def State.denseTile (s : State) (tbl : PageTable) (p : SpBlock) : List (Nat × Nat × Int) → Except EStop (List SpElem)
  | [] => .ok []
  | x :: t =>
    match s.denseElem tbl p x with
    | .error e => .error e
    | .ok y => match s.denseTile tbl p t with
      | .error e => .error e
      | .ok ys => .ok (y :: ys)

/-- The entries of a list from an index on, or the first fault. -/
def State.listTile (s : State) (tbl : PageTable) (p : SpBlock) : Nat → List (Nat × Nat) → Nat → Except EStop (List SpElem)
  | 0, _, _ => .ok []
  | n + 1, seen, i =>
    match s.listElem tbl p seen i with
    | .error e => .error e
    | .ok y => match s.listTile tbl p n ((y.r, y.c) :: seen) (i + 1) with
      | .error e => .error e
      | .ok ys => .ok (y :: ys)

/-- The granules that the source spans. -/
def SpBlock.granules (p : SpBlock) : List Nat :=
  if p.list then rangeGranules p.src (4 * p.count) else elemGranules (p.denseAt.map fun x => p.at_ x.2.2)

/-- The tile's non-zero elements in ascending row and column, or the fault reported (R293). -/
def State.spTile (s : State) (tbl : PageTable) (p : SpBlock) : Except EStop (List SpElem) :=
  match if p.list then s.listTile tbl p p.count [] 0 else s.denseTile tbl p p.denseAt with
  | .error e => .error e
  | .ok xs => .ok ((xs.filter fun x => decide (x.mag p.fmt ≠ 0)).mergeSort fun a b => 32 * a.r + a.c ≤ 32 * b.r + b.c)

/-! ### Decomposition (R294, R295) -/

/-- A term: its pattern code and the slots of each row. -/
structure SpTerm where
  code : Nat
  rows : List (List (Option SpElem))

/-- What a group of columns yields: its first N by descending magnitude and then ascending column, by ascending column. -/
def takeGroup (f : Fmt) (rem : List SpElem) (r lo n m : Nat) : List SpElem :=
  let cs := rem.filter fun x => x.r = r && decide (lo ≤ x.c) && decide (x.c < lo + m)
  let byMag := cs.mergeSort fun a b => decide (b.mag f < a.mag f) || (decide (a.mag f = b.mag f) && decide (a.c ≤ b.c))
  (byMag.take n).mergeSort fun a b => a.c ≤ b.c

/-- The slots of a group: its members, then empty slots. -/
def padSlots (n : Nat) (xs : List SpElem) : List (Option SpElem) := xs.map some ++ List.replicate (n - xs.length) none

/-- The term of a pattern over the remaining elements. -/
def buildTerm (f : Fmt) (rem : List SpElem) (code : Nat) : SpTerm :=
  let p := patternOf code
  { code := code
    rows := (List.range 32).map fun r => (List.range (32 / p.2)).flatMap fun g =>
      padSlots p.1 (takeGroup f rem r (p.2 * g) p.1 p.2) }

/-- The elements of a term. -/
def SpTerm.elems (t : SpTerm) : List SpElem := t.rows.flatMap fun row => row.filterMap id

/-- Decompose (R294): the structured terms and what remains; fuel counts the terms left. -/
def decompose (f : Fmt) (p : SpBlock) : Nat → List SpElem → List SpTerm → List SpTerm × List SpElem
  | 0, rem, ts => (ts, rem)
  | fuel + 1, rem, ts =>
    if rem.length ≤ 64 then (ts, rem)
    else
      let t := buildTerm f rem (p.pats.getD (min ts.length p.npat) 0)
      decompose f p fuel (rem.filter fun x => !t.elems.contains x) (ts ++ [t])

/-- The FP32 sum of magnitudes in order (R295). -/
def massOf (f : Fmt) (xs : List SpElem) : Nat :=
  xs.foldl (fun a x =>
    (fp32.deliver .rne ((fp32.value a).add .rne (.num false (x.mag f) (-24)))).bits) 0

/-- The dense fallback term. -/
def denseTerm (rem : List SpElem) : SpTerm :=
  { code := 7, rows := (List.range 32).map fun r => (List.range 32).map fun c => rem.find? fun x => x.r = r && x.c = c }

/-- What Settle decides: the terms, the list, the status fields (R295). -/
structure SpResult where
  terms : List SpTerm
  list : List SpElem
  dense : Bool
  dropped : Bool
  rcount : Nat
  mass : Nat
  total : Nat

/-- Settle (R295); none is the RESIDUAL fault. -/
def settle (p : SpBlock) (all : List SpElem) (ts : List SpTerm) (rem : List SpElem) : Option SpResult :=
  let total := massOf p.fmt all
  let mass := massOf p.fmt rem
  let bound := (fp32.deliver .rne ((fp16.value p.loss).mul (fp32.value total))).bits
  let base : SpResult :=
    { terms := ts, list := [], dense := false, dropped := false, rcount := rem.length, mass := mass, total := total }
  if rem.length = 0 then some base
  else if mass ≤ bound then some { base with dropped := true }
  else if rem.length ≤ 64 then some { base with list := rem }
  else if p.fallback then some { base with terms := ts ++ [denseTerm rem], dense := true }
  else none

/-! ### The term set (R297 to R299) -/

/-- The header word at 0x000 (Table 15-4). -/
def SpResult.header (r : SpResult) (p : SpBlock) (ver : Nat) : Nat :=
  ver + p.fmt.code.toNat * 256 + ((List.range r.terms.length).zip r.terms).foldl (fun a t => a + t.2.code * 2 ^ (16 + 3 * t.1)) 0

/-- The status word (Table 15-5). -/
def SpResult.status (r : SpResult) : Nat :=
  r.terms.length * 2 ^ 45 + r.dense.toNat * 2 ^ 44 + r.dropped.toNat * 2 ^ 43 + r.rcount * 2 ^ 32 + r.mass

/-- An entry of the residual list (Table 15-6). -/
def SpElem.entry (x : SpElem) : Nat := x.enc + x.c * 65536 + x.r * 2 ^ 21

/-- Bits b of the encodings in eight slots. -/
def slotBits (b : Nat) (slots : List (Option SpElem)) : Nat :=
  gatherBit b (slots.map fun x => (x.map (·.enc)).getD 0)

/-- The written bytes of a term block (Table 15-7). -/
def SpTerm.block (t : SpTerm) (f : Fmt) : List Byte :=
  ((List.range 16).flatMap fun b => (List.range 32).flatMap fun r => (List.range 4).map fun q =>
      if b < fmtWidth f then BitVec.ofNat 8 (slotBits b (((t.rows.getD r []).drop (8 * q)).take 8)) else 0) ++
    (List.range 32).flatMap fun r => (List.range 32).map fun k =>
      match ((t.rows.getD r []).getD k none) with
      | some x => BitVec.ofNat 8 x.c
      | none => 0xFF

/-- Bytes written to the Larder from an address. -/
def larderWrites (a : Nat) (bs : List Byte) : List EWrite :=
  bs.zipIdx.map fun (b : Byte × Nat) => { dst := .larder (a + b.2), src := none, val := b.1 }

/-- The header word that a term set begins and ends with, by its VER (R299). -/
def SpResult.headWrites (r : SpResult) (p : SpBlock) (a ver : Nat) : List EWrite := larderWrites a (leBytes 8 (r.header p ver))

/-- The writes of a term set between the two of its header word, in the order of R299. -/
def SpResult.writes (r : SpResult) (p : SpBlock) (a : Nat) : List EWrite :=
  larderWrites (a + 0x18) (List.replicate 40 0) ++
    larderWrites (a + 0x40) ((List.range 64).flatMap fun i => leBytes 4 ((r.list[i]?.map SpElem.entry).getD 0)) ++
    (r.terms.zipIdx.flatMap fun (t : SpTerm × Nat) => larderWrites (a + 0x1000 * (t.2 + 1)) (t.1.block p.fmt)) ++
    larderWrites (a + 8) (leBytes 8 r.status) ++ larderWrites (a + 0x10) (leBytes 8 (p.loss * 2 ^ 32 + r.total))

/-- The slice-panels that a term set overlaps: their plane records are 16 (R299). -/
def SpBlock.records (p : SpBlock) : List (Nat × Nat) :=
  (List.range 4).filterMap fun i =>
    let off := (p.tset / panelBytes + i) * panelBytes
    if off < p.tset + 0x6000 then some (off, 16) else none

/-- What QSPLOAD does when it is performed. -/
def SpResult.done (r : SpResult) (p : SpBlock) (a : Nat) (spans : List (Nat × Nat)) : EDone :=
  { first := r.headWrites p a 0, writes := r.writes p a, last := r.headWrites p a 1, records := p.records, spans := spans }

/-- The ranges QSPLOAD reads. -/
def SpBlock.spans (p : SpBlock) : List (Nat × Nat) :=
  if p.list then [(p.src, 4 * p.count)]
  else (List.range 32).map fun r => (p.at_ (Int.ofNat r * p.stride), if fmtWidth p.fmt = 4 then 16 else 32 * fmtBytes p.fmt)

/-- What each element or entry of the source is read at, in the order of R293, with its byte offset. -/
def State.spReads (s : State) (tbl : PageTable) (p : SpBlock) : List (Int × Except Fail (List Spot)) :=
  let at_ := fun (o : Int) (n : Nat) => (o, s.elemSpots tbl .load false (p.at_ o) n)
  if p.list then (List.range p.count).map fun i => at_ (Int.ofNat (4 * i)) 4
  else p.denseAt.map fun x => at_ x.2.2 (fmtBytes p.fmt)

/-- QSPLOAD performed. -/
def State.runSpload (b : List Word) (s : State) : ERun :=
  match spBlock b with
  | none => (.error (.fault 0x107 0 []), s)
  | some p =>
    match p.fault with
    | some c => (.error (.fault c 0 []), s)
    | none =>
      match s.sortPages p.granules with
      | (tbl, s1) =>
        let s2 := s1.touchReads (reached (s1.spReads tbl p)).flatten
        match s2.spTile tbl p with
        | .error e => (.error e, s2)
        | .ok xs =>
          let d := decompose p.fmt p 4 xs []
          match settle p xs d.1 d.2 with
          | none => (.error (.fault 0x10B d.2.length []), s2)
          | some r =>
            (.ok (r.done p (larderBase s.cur.id.core + p.tset) p.spans), s2)

/-- QSPLOAD_PERFORM (R294). -/
def execQsploadPerform (who : StrandId) (j : BitVec 2) (s : State) : Out :=
  performEvent who j s fun c => match c with
    | .spload b => some (State.runSpload b)
    | _ => none

/-! ### Errors that no check corrects (R250, R293, R299, R401) -/

/-- The elements or entries that a QSPLOAD block reads, at most n of them. -/
def State.spTileUpTo (s : State) (tbl : PageTable) (p : SpBlock) (n : Nat) : Except EStop (List SpElem) :=
  if p.list then s.listTile tbl p (min n p.count) [] 0 else s.denseTile tbl p (p.denseAt.take n)

/-- The count of elements or entries that a block reads. -/
def SpBlock.reads (p : SpBlock) : Nat := if p.list then p.count else 1024

/-- QSPLOAD where the data of element k fails: a fault of its block, of an element before that one, or of its own access comes
first (R293). -/
def State.runSploadUpTo (b : List Word) (k : Nat) (s : State) : ERun :=
  match spBlock b with
  | none => (.error (.fault 0x107 0 []), s)
  | some p =>
    match p.fault with
    | some c => (.error (.fault c 0 []), s)
    | none =>
      match s.sortPages p.granules with
      | (tbl, s1) =>
        let s2 := s1.touchReads (reached (s1.spReads tbl p)).flatten
        match s2.spTileUpTo tbl p k with
        | .error e => (.error e, s2)
        | .ok _ => match (s2.spReads tbl p)[k]? with
          | some (o, .error f) => (.error (failStop f o []), s2)
          | some (o, .ok _) => (.error (.fault 0x108 o []), s2)
          | none => (.error (.fault 0x108 0 []), s2)

/-- What a command that writes bytes does when it is performed; QFENCE and QSIGNAL have none but their words. -/
def QCmd.run? : QCmd → Option (State → ERun)
  | .copy a b n sl dl => some (State.runCopy a b n sl dl)
  | .gather b => some (State.runGather b false)
  | .scatter b => some (State.runGather b true)
  | .pload b => some (State.runPload b)
  | .pstore b => some (State.runPstore b)
  | .spload b => some (State.runSpload b)
  | .fence _ _ => none
  | .signal _ _ _ _ => none

/-- A command some of whose bytes meet an error that no check corrects: unless it faults otherwise, its queue halts with
EDATA, with a subset of the bytes written (R250). A Larder write of QSPLOAD that fails leaves VER at 0 (R299). -/
def State.failCmd (s : State) (j : BitVec 2) (e : QEntry) (detail : Int) (run : State → ERun) : State :=
  match run s with
  | (.error .stall, t) => t
  | (.error (.fault c d part), t) => t.engineFault j e.cmd.fn c d part e.cmd.panel?
  | (.ok r, t) => match t.partOf r false with
    | (ws, t1) => t1.haltWith j e.cmd.fn 0x108 detail ws e.cmd.panel?

/-- EDATA at the head of a queue: `k` counts the elements or entries of QSPLOAD before the read that fails, and one beyond
them all is a Larder write; of the other commands `k` is the offset of the access that fails in its operand, which a negative ROWSTRIDE makes negative (R257). -/
def State.commandDataError (s : State) (j : BitVec 2) (k : Int) : State :=
  let q := s.cur.queue j
  if q.halted || s.cur.run = .stopped then s
  else match q.entries with
    | [] => s
    | e :: _ => s.atLevel e.level fun t => match e.cmd with
      | .spload b =>
        if ((spBlock b).map SpBlock.reads).getD 0 ≤ k.toNat then t.failCmd j e 0 (State.runSpload b)
        else t.failCmd j e 0 (State.runSploadUpTo b k.toNat)
      | .fence id js =>
        match if t.cur.fenceReady id js then t.cur.fenceNotify id js else none with
        | some (i, _, _) => t.haltEngine i 6 0x108 0
        | none => t
      | .signal wr v _ _ =>
        match t.signalStore wr v with
        | (.ok ws, t1) => t1.engineFault j 7 0x108 k ws none
        | (.error _, t1) => t1
      | c => match c.run? with
        | some run => t.failCmd j e k run
        | none => t

/-! ### Term sets read back (R301) -/

/-- SPMMAC. -/
def spmmacInfo (o : SpmmacOp) (_ : Strand) : WordInfo := matrixInfo [] [] [] [o.ts] none
/-- SPRES. -/
def spresInfo (o : SpresOp) (_ : Strand) : WordInfo := matrixInfo [] [] [] [o.ts] none
/-- SPSTAT. -/
def spstatInfo (o : SpstatOp) (_ : Strand) : WordInfo := matrixInfo [] [] [] [o.ts] (some o.d)

/-- The Larder offset of the term set that a register names (R300). -/
def termSetAt (x : Word) : Nat := x.toNat / 4096 % 65536 * 4096

/-- The header words of a term set. -/
structure SpHead where
  hdr : Nat
  status : Nat

/-- The header words at an offset of the strand's Larder. -/
def State.spHead (s : State) (ts : Nat) : SpHead :=
  let a := larderBase s.cur.id.core + ts
  { hdr := s.larder.readLE a 8, status := s.larder.readLE (a + 8) 8 }

/-- TERMS. -/
def SpHead.terms (h : SpHead) : Nat := h.status / 2 ^ 45 % 8
/-- DENSE. -/
def SpHead.dense (h : SpHead) : Bool := decide (h.status / 2 ^ 44 % 2 = 1)
/-- DROPPED. -/
def SpHead.dropped (h : SpHead) : Bool := decide (h.status / 2 ^ 43 % 2 = 1)
/-- RCOUNT. -/
def SpHead.rcount (h : SpHead) : Nat := h.status / 2 ^ 32 % 2048
/-- The pattern code of a term. -/
def SpHead.pat (h : SpHead) (t : Nat) : Nat := h.hdr / 2 ^ (16 + 3 * t) % 8

/-- The header holds a value that QSPLOAD never writes (R301). -/
def SpHead.bad (h : SpHead) : Bool :=
  decide (h.hdr / 4096 % 16 ≠ 0) || decide (h.hdr / 2 ^ 31 ≠ 0) || decide (h.status / 2 ^ 48 ≠ 0) || decide (5 < h.terms) ||
    ((List.range 5).any fun t =>
      let p := h.pat t
      if t < h.terms then decide (p = 5) || decide (p = 6) || (decide (p = 7) && (decide (t ≠ h.terms - 1) || !h.dense))
      else decide (p ≠ 0)) ||
    (h.dropped && h.dense) || (decide (64 < h.rcount) && !h.dropped && !h.dense)

/-- The checks of R300 and R301 for SPMMAC and SPRES: the trap, or the header. -/
def State.spCheck (s : State) (ts : Nat) (acc : BitVec 1) (fa : Fmt) (pb planes : Nat) : Except (Cause × Word) SpHead :=
  if s.cur.kindDiffers acc false then .error (.mode, s.cur.iword)
  else if larderSize < ts + 0x6000 then .error (.access, BitVec.ofNat 64 ts)
  else
    let h := s.spHead ts
    if h.hdr % 256 ≠ 1 ∨ h.hdr / 256 % 16 ≠ fa.code.toNat ∨ h.bad then .error (.access, BitVec.ofNat 64 ts)
    else match s.precisionFault pb 1 planes with
      | some v => .error (.precision, v)
      | none => .ok h

/-! ### SPMMAC and SPRES (R302, R303, R305) -/

/-- A product that a step adds to a window row: the row, the column of B, the value's encoding. -/
structure SpUse where
  i : Nat
  k : Nat
  enc : Nat

/-- The products of slot s of a term block (Table 15-7); an index above 31 marks an empty slot. -/
def State.slotUses (s : State) (a : Nat) (f : Fmt) (slot : Nat) : List SpUse :=
  (List.range 32).filterMap fun i =>
    let k := (s.larder.read (a + 0x800 + 32 * i + slot)).toNat
    if k < 32 then
      some { i := i, k := k
             enc := gatherBit slot ((List.range (fmtWidth f)).map fun b => s.larder.readLE (a + 0x80 * b + 4 * i) 4) }
    else none

/-- The steps of SPMMAC: the terms in order, slot by slot (R302). -/
def State.termSteps (s : State) (ts : Nat) (h : SpHead) (f : Fmt) : List (List SpUse) :=
  (List.range h.terms).flatMap fun t =>
    (List.range (slotsOf (h.pat t))).map fun slot =>
      s.slotUses (larderBase s.cur.id.core + ts + 0x1000 * (t + 1)) f slot

/-- The entries of the residual list (R303): each a step of one product. -/
def State.listSteps (s : State) (ts : Nat) (h : SpHead) (f : Fmt) : List (List SpUse) :=
  if h.dropped || h.dense then []
  else (List.range h.rcount).map fun n =>
    let w := s.larder.readLE (larderBase s.cur.id.core + ts + 0x40 + 4 * n) 4
    [{ i := w / 2 ^ 21 % 32, k := w / 2 ^ 16 % 32, enc := w % 2 ^ fmtWidth f }]

/-- The key of a cell lies in window w. -/
def inWindow (w k : Nat) : Bool := decide (k / 128 / 32 = w)

/-- The products added to the group sums of one slice's window; signalling NaNs among their operands set NV (R153). -/
def Slice.sparse (sl : Slice) (s : State) (acc : BitVec 1) (fa fb : Fmt) (pb planes w j : Nat) (uses : List SpUse) :
    Slice × BitVec 5 :=
  let bs := (List.range 128).map fun c =>
    (s.panelsRow pb 1 j c fb).map fun e => operandValue fb (sl.zeroB c) (declared fb planes e)
  let rows := (List.range 32).map fun i =>
    (uses.filter fun u => u.i = i).map fun u => ((fmtKind fa).value u.enc, u.k)
  let t := sl.tile acc
  (sl.setTile acc (t.mapSums fun key g =>
    if inWindow w key then
      (rows.getD (key / 128 % 32) []).foldl (fun g u => g.addProduct u.1 ((bs.getD (key % 128) []).getD u.2 (.ofInt 0))) g
    else g),
    orFlags uses fun u => ((fmtKind fa).value u.enc).nv ||| orFlags bs fun row => (row.getD u.k (.ofInt 0)).nv)

/-- The group sums of a window cleared. -/
def Slice.clearWindow (sl : Slice) (acc : BitVec 1) (w : Nat) : Slice :=
  let t := sl.tile acc
  sl.setTile acc { t with sums := t.sums.filter fun p => !inWindow w p.1 }

/-- The active groups of a window ended. -/
def Slice.endWindow (sl : Slice) (acc : BitVec 1) (w : Nat) : Slice × BitVec 5 :=
  let t := sl.tile acc
  let which := fun k => inWindow w k && (t.sum k).act
  (sl.setTile acc (t.endGroups which sl.scale), sl.endFlags which)

/-- The steps of SPMMAC or SPRES over a window, to their end or to where they are interrupted (R305). -/
def State.sparseSteps (s : State) (acc : BitVec 1) (fa fb : Fmt) (pb planes w : Nat) (steps : List (List SpUse)) : State :=
  let lo := s.cur.vec.vstart
  let s1 := if lo = 0 then (s.mapSlices fun _ sl => (sl.clearWindow acc w, 0)).1 else s
  let stop := s1.cur.stepStop steps.length
  let hi := (stop.map (·.1)).getD steps.length
  let uses := (stepsBetween lo hi (s1.cur.stepSkip steps.length) steps).flatten
  let r := s1.mapSlices fun j sl => sl.sparse s1 acc fa fb pb planes w j uses
  let s2 := r.1.countSteps (hi - lo)
  match stop with
  | some x => (s2.raise r.2).stopMatrix x.1 x.2
  | none =>
    let e := s2.mapSlices fun _ sl => sl.endWindow acc w
    (e.1.convFlags (r.2 ||| e.2)).endMatrix

/-- SPMMAC (R302). -/
def execSpmmac (o : SpmmacOp) (s : State) : Out :=
  vecWord (spmmacInfo o s.cur) s fun t =>
    let ts := termSetAt (t.getX o.ts)
    let p := o.planes.toNat + 1
    match t.spCheck ts o.acc o.fa o.pb.toNat p with
    | .error (c, v) => t.trap c v
    | .ok h => t.sparseSteps o.acc o.fa o.fb o.pb.toNat p o.win.toNat (t.termSteps ts h o.fa)

/-- SPRES (R303): with no entry only vstart changes. -/
def execSpres (o : SpresOp) (s : State) : Out :=
  vecWord (spresInfo o s.cur) s fun t =>
    let x := t.getX o.ts
    let ts := termSetAt x
    let p := o.planes.toNat + 1
    match t.spCheck ts o.acc o.fa o.pb.toNat p with
    | .error (c, v) => t.trap c v
    | .ok h =>
      let es := t.listSteps ts h o.fa
      if es.length = 0 then t.endMatrix else t.sparseSteps o.acc o.fa o.fb o.pb.toNat p (x.toNat % 4) es

/-- SPSTAT (R304). -/
def execSpstat (o : SpstatOp) (s : State) : Out :=
  vecWord (spstatInfo o s.cur) s fun t =>
    let ts := termSetAt (t.getX o.ts)
    if larderSize < ts + 0x6000 then t.trap .access (BitVec.ofNat 64 ts)
    else
      let h := t.spHead ts
      if h.hdr % 256 ≠ 1 then t.trap .access (BitVec.ofNat 64 ts)
      else (t.setX o.d (BitVec.ofNat 64 h.status)).next8

end Sys2Proof.Machine
end

