-- ==== Sys2Proof/Machine/Ports.lean ====
section
/-! DEFINITION. Machine/Ports.lean: PORTQ, PORTSW, the steps of a switch, link and lane failures (R11, R369 to R379, R399). -/

namespace Sys2Proof.Machine

/-! ### Messages -/

/-- A SERVICE report to the owning session and to one that owns a partition concerned (R399, Table 23-7). -/
def State.serviceReport (s : State) (kind cls index left : Nat) (holder : Option Nat) : State :=
  let m (n : Nat) : OutMsg := {
    session := n, type := 3, verb := 0x30, seq := 0, status := 0
    payload := [BitVec.ofNat 8 kind, BitVec.ofNat 8 cls] ++ leBytes 2 index ++ [BitVec.ofNat 8 left, 0, 0, 0] }
  let rcv := s.module.owning.toList ++ (holder.toList.filter fun n => some n ≠ s.module.owning)
  rcv.foldl (fun (t : State) n => t.send (m n)) s

/-! ### The state word (Table 21-7) -/

/-- STATE. -/
def GState.code : GState → Nat
  | .active => 0
  | .draining => 1
  | .quiesced => 2
  | .retraining => 3
  | .verifying => 4
  | .fallback => 5
  | .down => 6

/-- The state word of a group. -/
def Group.word (g : Group) : Word :=
  BitVec.ofNat 64 (g.switches.toNat * 2 ^ 48 + g.result.toNat * 2 ^ 40 + (if g.owner.isSome then 2 ^ 38 else 0) +
    (g.owner.getD 0 % 64) * 2 ^ 32 + (if g.spare then 2 ^ 17 else 0) + (if g.warm then 2 ^ 16 else 0) +
    g.prev.toNat * 2 ^ 12 + g.target.toNat * 2 ^ 8 + g.pers.toNat * 2 ^ 4 + g.state.code)

/-- A group; a number of 24 or more names none. -/
def State.groupD (s : State) (g : Nat) : Group := (s.groups[g]?).getD .reset

/-- One group changed. -/
def State.mapGroup (s : State) (g : Nat) (f : Group → Group) : State :=
  { s with groups := Vector.ofFn fun i : Fin 24 => if i.val = g then f s.groups[i] else s.groups[i] }

/-- PORTQ: in either mode, without lane groups, whoever owns the vector part (R377). -/
def portqInfo (o : PortqOp) (_ : Strand) : WordInfo :=
  { klass := .standalone, mode := .either, lanes := false, owner := false, xd := some o.d }

/-- PORTSW: as PORTQ, at S level (R377). -/
def portswInfo (o : PortswOp) (_ : Strand) : WordInfo :=
  { klass := .standalone, mode := .either, lanes := false, owner := false, priv := true, xs := [o.a], xd := some o.d }

/-- PORTQ (R378). -/
def execPortq (o : PortqOp) (s : State) : Out :=
  vecWord (portqInfo o s.cur) s fun t => (t.setX o.d (t.groupD o.g.toNat).word).next8

/-! ### A request for a switch (R379) -/

/-- A switch of the group is in progress (R374). -/
def Group.inProgress (g : Group) : Bool := decide (g.state ≠ .active) && decide (g.state ≠ .down)

/-- The group counts toward the limit of two HOSTLINK groups (R370). -/
def Group.counts (g : Group) : Bool :=
  (decide (g.state = .active) && decide (g.pers = 1)) || (g.inProgress && (decide (g.target = 1) || decide (g.prev = 1) || decide (g.pers = 1)))

/-- The group is ACTIVE in a personality that carries RPC messages (R370, R379). -/
def Group.carriesRpc (g : Group) : Bool := decide (g.state = .active) && (g.pers = 1 || g.pers = 3 || g.pers = 4)

/-- Every window of every partition. -/
def State.windows (s : State) : List Window := s.parts.flatMap (·.windows)

/-- An enabled CXL window with two ways or more includes the group (BUSY). -/
def State.groupBusy (s : State) (g : Nat) : Bool :=
  s.windows.any fun w => w.en && decide (w.kind = 0) && decide (2 ≤ w.ways) && w.groups.getLsbD g

/-- The group carries the only path of an open session (INUSE). -/
def State.onlyPath (s : State) (g : Nat) : Bool :=
  (s.groupD g).carriesRpc && s.sessions.any fun x =>
    x.paths.contains g && !x.paths.any fun h => decide (h ≠ g) && (s.groupD h).carriesRpc

/-- RM set in every window whose GROUPS is the group alone (RMALL). -/
def State.rmAll (s : State) (g : Nat) : State :=
  { s with parts := s.parts.map fun p =>
      { p with windows := p.windows.map fun w => if w.groups = (1#24 <<< g) then { w with rm := true } else w } }

/-- The start of a switch (R374): PREV, TARGET, and whether it is warm (R375). -/
def Group.start (g : Group) (target : BitVec 4) (cold : Bool) : Group :=
  { g with
    state := if g.state = .down then .retraining else .draining
    prev := if g.state = .down then 15 else g.pers
    target := target, warm := !cold && g.presets.contains target }

/-- The AMOs to a group's windows that are outstanding as the group enters DRAINING: the drain awaits each of them, whatever group
carries it (R333). -/
def AmoFlight.drainBy (f : AmoFlight) (g : Nat) : AmoFlight :=
  if f.groups.getLsbD g then { f with drains := f.drains ||| (1#24 <<< g) } else f

/-- A switch begins (R374): what an ACTIVE group's drain awaits is noted. -/
def State.startSwitch (s : State) (g : Nat) (target : BitVec 4) (cold : Bool) : State :=
  let s1 := s.mapGroup g fun y => y.start target cold
  if (s1.groupD g).state = .draining then s1.mapStrands fun c => { c with amo := c.amo.map fun f => f.drainBy g } else s1

/-- The result of the request of R379 where `owned` says that the requester owns the group, and the state it leaves. -/
def State.requestSwitch (s : State) (g : Nat) (r : Word) (owned : Bool) : Nat × State :=
  let n := r.toNat
  let x := s.groupD g
  let t : BitVec 4 := BitVec.ofNat 4 n
  if n / 64 ≠ 0 ∨ 4 < n % 16 then (7, s)
  else if !owned then (2, s)
  else if x.inProgress then (6, s)
  else if x.state = .active ∧ x.pers = t then (3, s)
  else if t = 1 && decide (2 ≤ ((List.range 24).filter fun h => decide (h ≠ g) && (s.groupD h).counts).length) then (4, s)
  else if x.pers = 0 && decide (t ≠ 0) && s.groupBusy g then (1, s)
  else if s.onlyPath g then (5, s)
  else
    let s1 := if n / 32 % 2 = 1 then s.rmAll g else s
    (0, s1.startSwitch g t (decide (n / 16 % 2 = 1)))

/-- PORTSW (R379): a refusal's code at once; else DONE once the group has drained. -/
def execPortsw (o : PortswOp) (s : State) : Out :=
  vecWord (portswInfo o s.cur) s fun t =>
    let g := o.g.toNat
    match t.requestSwitch g (t.getX o.a) (decide ((t.groupD g).owner = some t.cur.part)) with
    | (code, t1) =>
      if code = 0 ∧ (t1.groupD g).state = .draining then
        (t1.mapGroup g fun y => { y with waiter := some t1.cur.id }).withCur { t1.cur with run := .portsw }
      else (t1.setX o.d (BitVec.ofNat 64 code)).next8

/-! ### The steps of a switch (Table 21-3) -/

/-- xd of the PORTSW that a waiting strand stands at (Table 21-6). -/
def Strand.portswD (c : Strand) : XReg := BitVec.ofNat 5 (c.parcelField 46 6)

/-- The PORTSW or SWITCH_PORT that waits for a group's drain is answered DONE (R379). -/
def State.answerSwitch (s : State) (g : Nat) : State :=
  let x := s.groupD g
  let s1 := s.mapGroup g fun y => { y with waiter := none, asker := none }
  let s2 := match x.asker with
    | none => s1
    | some (n, seq) => s1.respond n 0x08 seq 0 [0]
  match x.waiter with
  | none => s2
  | some who => s2.onStrand who fun t =>
      if t.cur.run = .portsw then (t.setX t.cur.portswD 0).passWord else t

/-- DRAINING ends: the group is QUIESCED and serves no personality (Table 21-7). -/
def State.quiesce (s : State) (g : Nat) : State :=
  (s.mapGroup g fun y => { y with state := .quiesced, pers := 15 }).answerSwitch g

/-- A group in a state changed; nothing in another state. -/
def State.whenGroup (s : State) (g : Nat) (st : GState) (f : State → State) : State :=
  match s.group? g with
  | none => s
  | some y => if y.state = st then f s else s

/-- A UET personality. -/
def isUet (pers : BitVec 4) : Bool := pers = 3 || pers = 4

/-- An AMO carried by a group: a connection of a UET group moves to another ACTIVE UET group of its window (Table 21-4). -/
def State.rehome (s : State) (g : Nat) (f : AmoFlight) : AmoFlight :=
  if f.group ≠ g || !isUet (s.groupD g).pers then f
  else match (maskGroups f.groups).find? fun h => decide (h ≠ g) && decide ((s.groupD h).state = .active) && isUet (s.groupD h).pers with
    | some h => { f with group := h }
    | none => f

/-- The AMOs that a draining group carries moved where they can be (Table 21-4). -/
def State.drain (s : State) (g : Nat) : State := s.mapStrands fun c => { c with amo := c.amo.map (s.rehome g) }

/-- The strand waits for an AMO that a group's drain awaits (R333). -/
def Strand.awaits (c : Strand) (g : Nat) : Bool := c.awaited.any fun f => f.drains.getLsbD g

/-- SWITCH_DRAIN_COMPLETE (R374): once every AMO that the drain awaits is performed or has failed; every other access is
performed when its instruction is (log 4). -/
def execSwitchDrainComplete (g : Nat) (s : State) : Out :=
  .next (s.whenGroup g .draining fun t =>
    let t1 := t.drain g
    if t1.strands.any fun c => c.awaits g then t1 else t1.quiesce g)

/-- An AMO that a group's drain still awaits at its limit fails with PORTGONE (R333, R375). -/
def State.failPending (s : State) (g : Nat) (who : StrandId) : State :=
  s.onStrand who fun t =>
    match t.cur.awaited with
    | none => t
    | some f =>
      if f.drains.getLsbD g then (t.withCur { t.cur with run := .running, amo := none }).trap .portgone f.va else t

/-- SWITCH_DRAIN_LIMIT (R374, R375): accesses still outstanding fail, and the group is QUIESCED. -/
def execSwitchDrainLimit (g : Nat) (s : State) : Out :=
  .next (s.whenGroup g .draining fun t =>
    let t1 := t.drain g
    ((t1.strands.map (·.id)).foldl (fun (u : State) who => u.failPending g who) t1).quiesce g)

/-- QUIESCE_END (R374). -/
def execQuiesceEnd (g : Nat) (s : State) : Out :=
  .next (s.whenGroup g .quiesced fun t => t.mapGroup g fun y => { y with state := .retraining })

/-- A lane of the group is gone from service: the group has fewer than eight (R11, R17). -/
def State.laneGone (s : State) (g : Nat) : Bool :=
  s.module.removed.any fun p => match p with
    | .lane h _ => decide (h = g)
    | _ => false

/-- RETRAIN_DONE (R374): only a group with all its eight lanes trains. -/
def execRetrainDone (g : Nat) (s : State) : Out :=
  .next (s.whenGroup g .retraining fun t => if t.laneGone g then t else t.mapGroup g fun y => { y with state := .verifying })

/-- TRAINING_FAIL (R374). -/
def execTrainingFail (g : Nat) (s : State) : Out :=
  .next (s.whenGroup g .retraining fun t => t.mapGroup g fun y => { y with state := .fallback })

/-- The event of kind 5 to the group's owner (R374, R382). -/
def State.groupEvent (s : State) (g : Nat) : State :=
  let x := s.groupD g
  let e : EventRec := { kind := 5, subj := BitVec.ofNat 16 g, ctx := 0, a := x.word, b := 0, c := 0 }
  match x.owner with
  | some p => s.partEvent p e
  | none => s.hostEvent s.module.owning e 0

/-- The group is ACTIVE in a personality: its presets are stored, the switch is counted, and the event is sent; stalled
accesses are routed again when their strands next issue (R373, R374). -/
def State.activate (s : State) (g : Nat) (result : BitVec 4) (pers : BitVec 4) : State :=
  (s.mapGroup g fun y =>
    { y with
      state := .active, pers := pers, result := result, switches := y.switches + 1
      presets := if y.presets.contains pers then y.presets else y.presets ++ [pers] }).groupEvent g

/-- VERIFY_PASS (R374): only a group with all its eight lanes enters ACTIVE (R11). -/
def execVerifyPass (g : Nat) (s : State) : Out :=
  .next (s.whenGroup g .verifying fun t => if t.laneGone g then t else t.activate g 1 (t.groupD g).target)

/-- VERIFY_FAIL (R374). -/
def execVerifyFail (g : Nat) (s : State) : Out :=
  .next (s.whenGroup g .verifying fun t => t.mapGroup g fun y => { y with state := .fallback })

/-- VERIFY_TIMEOUT (R374). -/
def execVerifyTimeout (g : Nat) (s : State) : Out :=
  .next (s.whenGroup g .verifying fun t => t.mapGroup g fun y => { y with state := .fallback })

/-- FALLBACK_ACTIVE (R374): only where PREV is a personality, and the group can train. -/
def execFallbackActive (g : Nat) (s : State) : Out :=
  .next (s.whenGroup g .fallback fun t =>
    if (t.groupD g).prev.toNat ≤ 4 ∧ t.laneGone g = false then t.activate g 2 (t.groupD g).prev else t)

/-- FALLBACK_DOWN (R374): stalled routes fail with PORTGONE when their strands next issue. -/
def execFallbackDown (g : Nat) (s : State) : Out :=
  .next (s.whenGroup g .fallback fun t =>
    (t.mapGroup g fun y => { y with state := .down, pers := 15, result := 3, switches := y.switches + 1 }).groupEvent g)

/-- A link lost: the group retrains in its own personality (R374). -/
def State.loseLink (s : State) (g : Nat) : State :=
  s.whenGroup g .active fun t => t.mapGroup g fun y =>
    { y with
      state := .retraining, target := y.pers, prev := y.pers, pers := 15, warm := y.presets.contains y.pers }

/-- LINK_LOST (R374). -/
def execLinkLost (g : Nat) (s : State) : Out := .next (s.loseLink g)

/-- The session of the partition that owns a group. -/
def State.groupHolder (s : State) (g : Nat) : Option Nat :=
  ((s.groupD g).owner.bind s.partition?).bind (·.owner)

/-- A part gone from service (R17). -/
def State.markRemoved (s : State) (p : PartRef) : State :=
  if s.module.removed.contains p then s else { s with module := { s.module with removed := s.module.removed ++ [p] } }

/-- A lane of a group is retired: the spare lane takes over, or, with none left, it is gone from service, an ACTIVE group
retrains and the module is degraded (R11, R17, R374, R399). -/
def State.retireLane (s : State) (g lane : Nat) : State :=
  match s.group? g with
  | none => s
  | some y =>
    if s.module.removed.contains (.lane g lane) then s
    else if y.spare then
      ((s.markRemoved (.lane g lane)).loseLink g).serviceReport 2 6 (g * 256 + lane) 0 (s.groupHolder g)
    else (s.mapGroup g fun z => { z with spare := true }).serviceReport 1 6 (g * 256 + lane) 0 (s.groupHolder g)

/-- LANE_FAILURE (R11, R374, R396). -/
def execLaneFailure (g : Nat) (lane : Nat) (s : State) : Out := .next (s.retireLane g lane)

end Sys2Proof.Machine
end

