-- ==== Sys2Proof/Machine/Rpc.lean ====
section
/-! DEFINITION. Machine/Rpc.lean: the host's messages: sessions, partitions, code, windows, packets, counters and the loss of a
session (R28, R29, R34, R371, R372, R380 to R386, R395, R402, R403, R406, R407). -/

namespace Sys2Proof.Machine

/-! ### Messages (Tables 21-11, 21-12) -/

/-- TYPE. -/
def msgType (m : Msg) : Nat := m.w0.toNat % 256
/-- n bytes of a message's payload from an offset; a byte it does not have is zero (DESIGN CHOICE, log 28). -/
def payload (m : Msg) (off n : Nat) : Nat := (List.range n).foldr (fun i a => (m.payload.getD (off + i) 0).toNat + 256 * a) 0

/-- VERB. -/
def msgVerb (m : Msg) : Nat := m.w0.toNat / 256 % 256

/-- SEQ. -/
def msgSeq (m : Msg) : Nat := m.w0.toNat / 2 ^ 32
/-- SESSION. -/
def msgSession (m : Msg) : Nat := m.w1.toNat % 2 ^ 32
/-- LEN. -/
def msgLen (m : Msg) : Nat := m.w1.toNat / 2 ^ 32 % 65536

/-- Every payload byte outside some ranges is zero (R382). -/
def reservedZero (m : Msg) (used : List (Nat × Nat)) : Bool :=
  m.payload.zipIdx.all fun b => decide (b.1 = 0) || used.any fun u => decide (u.1 ≤ b.2) && decide (b.2 < u.1 + u.2)

/-- The verbs of Table 21-12. -/
def knownVerb (v : Nat) : Bool := (1 ≤ v && v ≤ 10) || v = 0x20 || v = 0x30 || v = 0x31 || v = 0x40

/-- The header is well formed: its reserved fields, TYPE, VERB, LEN and STATUS (R380, Table 21-11). -/
def headerOk (m : Msg) : Bool :=
  decide (m.w0.toNat / 65536 % 65536 = 0) && decide (1 ≤ msgType m) && decide (msgType m ≤ 6) && knownVerb (msgVerb m) &&
    decide (m.w1.toNat / 2 ^ 48 = 0) && decide (msgLen m ≤ 224) && decide (msgLen m = m.payload.length) && decide (m.w2 = 0) &&
    decide (m.w3 = 0)

/-- The open session of a number. -/
def State.session? (s : State) (n : Nat) : Option Session := s.sessions.find? fun x => x.num = n

/-- A message of a session has arrived on a path (R406). -/
def State.heard (s : State) (n path : Nat) : State :=
  { s with sessions := s.sessions.map fun x =>
      if x.num = n && !x.paths.contains path then { x with paths := x.paths ++ [path] } else x }

/-- The response to a message. -/
def State.answer (s : State) (m : Msg) (status : Nat) (body : List Byte) : State :=
  s.respond (msgSession m) (msgVerb m) (msgSeq m) status body

/-- Some payload bytes use their low bits alone: the others are reserved (R382, Table 21-14). -/
def flagsOk (m : Msg) (bits : List (Nat × Nat)) : Bool := bits.all fun b => decide (payload m b.1 1 < 2 ^ b.2)

/-- An earlier request of a session that came on a path is not answered yet: a SUBMIT that waits for earlier producers, a
CHECKPOINT whose copy runs, or one that waits behind them (R380). -/
def State.mustWait (s : State) (x : Session) (path : Nat) : Bool :=
  (s.submits.any fun y => decide (y.session = x.num) && decide (y.path = path)) ||
    (s.parts.any fun p => p.job.any fun j => decide (j.session = x.num) && decide (j.path = path)) ||
    x.waiting.any fun m => decide (m.path = path)

/-- A request that waits behind the earlier ones of its session and path (R380). -/
def State.queueRequest (s : State) (x : Session) (m : Msg) : State :=
  { s with sessions := s.sessions.map fun y => if y.num = x.num then { y with waiting := y.waiting ++ [m] } else y }

/-- A request of a verb: nothing for a message of another verb, or on a group that carries no RPC messages (R370); BADMSG
for one that is malformed, with a byte outside `used` or a bit outside `bits` set (R380, R382); DENIED for a session that is
not open (R382); REFUSED where the module is out of service, which the spec does not give (DESIGN CHOICE, log 28); else it waits
for the earlier requests of its path (R380), or has the verb's effect (R381). -/
def request (verb : Nat) (used bits : List (Nat × Nat)) (m : Msg) (s : State) (f : Session → State → State) : Out :=
  .next (
    if msgVerb m ≠ verb && knownVerb (msgVerb m) || !(s.groupD m.path).carriesRpc then s
    else if !headerOk m || decide (msgType m ≠ 1) || !reservedZero m used || !flagsOk m bits then s.answer m 1 []
    else match s.session? (msgSession m) with
      | none => s.answer m 2 []
      | some x =>
        if s.module.phase ≠ .service then s.answer m 4 []
        else if s.mustWait x m.path then (s.heard x.num m.path).queueRequest x m
        else f x (s.heard x.num m.path))

/-- The partition a payload names, if the session owns it. -/
def State.ownPart (s : State) (x : Session) (pid : Nat) : Option Partition :=
  match s.partition? pid with
  | none => none
  | some p => if p.owner = some x.num then some p else none

/-- A verb on a partition: DENIED where the session does not own it (R406). -/
def State.onPart (s : State) (m : Msg) (x : Session) (f : Partition → State) : State :=
  match s.ownPart x (payload m 0 1) with
  | none => s.answer m 2 []
  | some p => f p

/-! ### OPEN, ATTEST, keepalives (R383, R403, R406) -/

/-- The partition that an adoption handle names, if it is detached (R386). -/
def State.detached (s : State) (h : Word × Word) : Option Partition := s.parts.find? fun p => p.owner.isNone && !p.ending && decide (p.handle = h)

/-- A session opened on a path; the one opened while no other is open owns the unassigned groups (R406). -/
def State.addSession (s : State) (path : Nat) : State :=
  let n := s.module.nextSession
  { s with
    sessions := s.sessions ++ [{
      num := n, order := s.module.sessionOrder, attested := false, paths := [path], transcript := [], exchange := false, secret := none
      waiting := [] }]
    module := { s.module with
      nextSession := n + 1, sessionOrder := s.module.sessionOrder + 1
      owning := if s.sessions = [] then some n else s.module.owning } }

/-- OPEN (R381, R386, R406): with ADOPT, a detached partition is taken over where a session of the path is attested
(DEDUCED, log 28); otherwise DENIED. -/
def execOpenSession (m : Msg) (s : State) : Out :=
  .next (
    if msgVerb m ≠ 1 && knownVerb (msgVerb m) || !(s.groupD m.path).carriesRpc then s
    else if !headerOk m || decide (msgType m ≠ 1) || decide (msgSession m ≠ 0) || decide (1 < payload m 0 1) ||
        !reservedZero m [(0, 1), (8, 16)] || (payload m 0 1 = 0 && decide (payload m 8 16 ≠ 0)) then s.answer m 1 []
    else if s.module.phase ≠ .service then s.answer m 4 []
    else
      let n := s.module.nextSession
      if payload m 0 1 = 0 then (s.addSession m.path).answer m 0 (leBytes 4 n)
      else
        match s.detached (BitVec.ofNat 64 (payload m 8 8), BitVec.ofNat 64 (payload m 16 8)) with
        | none => s.answer m 2 []
        | some p =>
          if s.sessions.any fun x => x.attested && x.paths.contains m.path then
            ((s.addSession m.path).mapPart p.pid fun q => { q with owner := some n }).answer m 0
              (leBytes 4 n ++ [BitVec.ofNat 8 p.pid])
          else s.answer m 2 [])

/-- The SPDM request codes that the module supports, by name in R403; their values are those of SPDM 1.3 (PRESUMED, log 24). -/
def spdmCodes : List Nat := [0x81, 0x82, 0x83, 0x84, 0xE0, 0xE1, 0xE3, 0xE4, 0xE5]

/-- The code of an SPDM request (PRESUMED, log 24). -/
def spdmCode (m : Msg) : Nat := payload m 1 1

/-- A session after a request that its responder has accepted: KEY_EXCHANGE opens an exchange, and the FINISH of one attests
the session and makes its export master secret (R403, R404; DESIGN CHOICE, log 24). -/
def Session.accept (x : Session) (free : Nat) (m : Msg) : Session :=
  let t := x.transcript ++ m.payload
  let ends := x.exchange && decide (spdmCode m = 0xE5)
  { x with
    transcript := t, attested := x.attested || ends
    exchange := decide (spdmCode m = 0xE4) || (x.exchange && !ends)
    secret := if ends then some (Config.exportSecret free t) else x.secret }

/-- ATTEST (R403): the nine requests have their responses, the measurements among them those of the firmware image; another
request has the response to an unsupported one, and no effect (log 24). -/
def execAttest (m : Msg) (s : State) : Out :=
  request 2 [(0, 224)] [] m s fun x t =>
    if !spdmCodes.contains (spdmCode m) then t.answer m 0 ((Config.spdmUnsupported m.payload).take 224)
    else
      let took := Config.spdmAccepts x.transcript m.payload
      let t1 : State := { t with
        free := t.free + 1
        sessions := t.sessions.map fun y => if y.num = x.num && took then y.accept t.free m else y }
      t1.answer m 0 ((Config.spdmReply t.free t.module.firmware x.transcript m.payload).take 224)

/-- The verbs of the messages that the device alone begins (Table 21-12). -/
def deviceVerb (v : Nat) : Bool := v = 0x20 || v = 0x30 || v = 0x31

/-- A message of a verb that the device begins: BADMSG where it is malformed (R380); DENIED for a request of no open session
(R382), and BADMSG for another request (DESIGN CHOICE, log 28). The response to a proxy request is PROXY_RESPONSE's (R384). -/
def State.answerDevice (s : State) (m : Msg) : State :=
  if !headerOk m || (msgType m = 6 && !reservedZero m [(0, 8)]) then s.answer m 1 []
  else if msgType m ≠ 1 then s
  else s.answer m (if (s.session? (msgSession m)).isSome then 1 else 2) []

/-- KEEPALIVE (R380, R383): a message of the session; it has no other effect and no answer, unless it is malformed. Its VERB is
not given, and it carries no payload (DESIGN CHOICE, log 28). A message of another TYPE is this step's where its VERB is one that
the device begins. -/
def execKeepalive (m : Msg) (s : State) : Out :=
  .next (if !(s.groupD m.path).carriesRpc then s
    else if msgType m ≠ 4 then if deviceVerb (msgVerb m) then s.answerDevice m else s
    else if !headerOk { m with w0 := m.w0 &&& 0xFFFFFFFFFFFF00FF#64 ||| 0x100#64 } || decide (m.payload ≠ []) then s.answer m 1 []
    else s.heard (msgSession m) m.path)

/-- KEEPALIVE_SEND (R383). -/
def execKeepaliveSend (session : Nat) (s : State) : Out :=
  .next (match s.session? session with
    | none => s
    | some x => s.send { session := x.num, type := 4, verb := 0, seq := 0, status := 0, payload := [] })

/-! ### CREATE_PARTITION (R18, R28, R34, R214, R371, R381, R393, R395, R406) -/

/-- The first byte of a partition's arena (DESIGN CHOICE, log 10). -/
def arenaAt (pid : Nat) : Nat := 0x1000000000 + pid * 0x10000000

/-- The lowest partition number not in use. -/
def State.freePid (s : State) : Option Nat := (List.range 64).find? fun i => (s.partition? i).isNone

/-- Some core of a block lies in a partition, is absent, or does not exist (R18, R406). -/
def State.coresTaken (s : State) (first count : Nat) : Bool :=
  decide (64 < first + count) || (s.parts.any fun p => decide (p.first < first + count) && decide (first < p.first + p.count)) ||
    s.cores.any fun k => k.absent && decide (first ≤ k.core.toNat) && decide (k.core.toNat < first + count)

/-- A core lies in a block. -/
def inBlock (first count : Nat) (core : BitVec 6) : Bool := decide (first ≤ core.toNat) && decide (core.toNat < first + count)

/-- The core records of a block at creation; what is absent stays so (R393). -/
def State.freshCores (s : State) (first count : Nat) : List CoreState :=
  (s.cores.filter fun k => !inBlock first count k.core) ++ (List.range count).map fun i =>
    let c : BitVec 6 := BitVec.ofNat 6 (first + i)
    let old := (s.core? c).getD (.reset c)
    { CoreState.reset c with absent := old.absent, lostStrands := old.lostStrands }

/-- Every strand of a block of cores, of the partition and without a task. -/
def State.freshStrands (s : State) (pid first count : Nat) : State :=
  let ids : List StrandId := (List.range (8 * count)).map fun i =>
    { core := BitVec.ofNat 6 (first + i / 8), sid := BitVec.ofNat 3 i }
  let fresh := fun (c : Strand) => if inBlock first count c.id.core then { c.vacate with part := pid } else c
  let s1 := s.mapStrands fresh
  { s1 with others := s1.others ++ (ids.filter fun id => !s1.strands.any fun c => c.id = id).map fun id =>
      { Strand.reset id with part := pid } }

/-- A hardware queue at CREATE_PARTITION (Tables 5-2, 5-6). -/
def HwQueue.fresh (q : QueueId) : HwQueue :=
  { id := q, state := .stopped, ring := 0, size := 0, opmask := 0, prio := 0, quantum := 0, windows := [], ran := false, head := 0,
    qdone := 0, faultIdx := 0, fetched := [], active := [], retired := [], unsignalled := [], heldSignals := [], deficit := 0,
    aged := 0, hold := none, errors := [] }

/-- The hardware queues with the 64 of a partition, in the order of their numbers (R102). -/
def State.withQueues (s : State) (pid : Nat) : List HwQueue :=
  (s.hwq.filter fun h => decide (h.id.part < pid)) ++ ((List.range 64).map fun i => HwQueue.fresh { part := pid, q := i }) ++
    s.hwq.filter fun h => decide (pid ≤ h.id.part)

/-- The words of a descriptor that CREATE_PARTITION writes (Tables 5-1, 5-2, 5-6). -/
def State.clearDescriptor (s : State) (q : QueueId) : State :=
  [0x08, 0x20, 0x28, 0x30, 0x38].foldl (fun (t : State) off => t.setQword q off 0) s

/-- The Larder of a block of cores zeroed, and its plane records at 16 (R214, R266). -/
def State.zeroLarders (s : State) (first count : Nat) : State :=
  let lo := larderBase 0 + first * 0x10000000
  let hi := lo + count * 0x10000000
  { s with
    larder := clearBytes s.larder lo hi
    planes := s.planes.filter fun p => !(decide (lo / 8192 ≤ p.1) && decide (p.1 < hi / 8192)) }

/-- The partition that a CREATE_PARTITION payload describes. -/
def newPartition (m : Msg) (pid owner : Nat) (handle : Word × Word) (secret : List Byte) (key : Nat) : Partition :=
  { pid := pid, first := payload m 0 1, count := 2 ^ payload m 1 1, policy := payload m 2 1, conf := decide (payload m 3 1 = 1)
    root := payload m 8 8, queueArea := payload m 16 8, arenaBase := arenaAt pid, arenaSize := payload m 24 4 * 65536
    transSize := payload m 28 4 * 65536, images := [], variants := [], handle := handle, owner := some owner, creator := owner
    events := [], lost := 0, stale := 0, proxies := 0, windows := [], nextWin := 0, job := none, secret := secret
    memKey := if payload m 3 1 = 1 then key else 0, ending := false }

/-- The request is one that the module refuses: its values, its cores (R18, R28, R406), or a page table where none may stand
(R29, R219). -/
def State.createRefused (s : State) (m : Msg) : Bool :=
  let first := payload m 0 1
  let lg := payload m 1 1
  decide (6 < lg) || decide (first % 2 ^ lg ≠ 0) || decide (2 < payload m 2 1) ||
    s.coresTaken first (2 ^ lg) || decide (payload m 8 8 % 8192 ≠ 0) || !s.tableOk (payload m 8 8) ||
    decide (payload m 16 8 % 65536 ≠ 0) || decide (2 ^ 56 < payload m 16 8 + 16384) || decide (4096 < payload m 24 4) ||
    decide (payload m 24 4 < payload m 28 4)

/-- Some group of the mask is held by a partition (R406). -/
def State.groupsHeld (s : State) (mask : BitVec 24) : Bool := (maskGroups mask).any fun g => (s.groupD g).owner.isSome

/-- CREATE_PARTITION (R381). -/
def execCreatePartition (m : Msg) (s : State) : Out :=
  request 3 [(0, 7), (8, 24)] [(3, 1)] m s fun x t =>
    let first := payload m 0 1
    let count := 2 ^ payload m 1 1
    let mask : BitVec 24 := BitVec.ofNat 24 (payload m 4 3)
    if t.createRefused m then t.answer m 4 []
    else if t.groupsHeld mask then t.answer m 2 []
    else match t.freePid with
      | none => t.answer m 3 []
      | some pid =>
        let r := t.takeFree
        let r2 := r.2.takeFree
        let key := t.module.memKeys + 1
        let p := newPartition m pid x.num (r.1, r2.1) (x.secret.getD []) key
        let t1 : State := { (r2.2.zeroLarders first count).freshStrands pid first count with
          cores := r2.2.freshCores first count, parts := r2.2.parts ++ [p], module := { r2.2.module with memKeys := key }
          hwq := r2.2.withQueues pid
          groups := Vector.ofFn fun i : Fin 24 =>
            if mask.getLsbD i.val then { r2.2.groups[i] with owner := some pid } else r2.2.groups[i] }
        let t2 := (List.range 64).foldl (fun (u : State) i => u.clearDescriptor { part := pid, q := i }) t1
        t2.answer m 0 (leBytes 8 pid ++ leBytes 8 r.1.toNat ++ leBytes 8 r2.1.toNat ++ leBytes 8 p.arenaBase)

/-! ### LOAD_CODE and the Criloth translator (R29, R33, R34) -/

/-- Two ranges share a byte: both have one, and each begins before the other's end. -/
def rangesMeet (a b : Nat × Nat) : Bool :=
  decide (0 < a.2) && decide (0 < b.2) && decide (a.1 < b.1 + b.2) && decide (b.1 < a.1 + a.2)

/-- The range is code of a launch that has been validated and has not retired (R29). -/
def State.codeInUse (s : State) (pid : Nat) (r : Nat × Nat) : Bool :=
  s.launches.any fun l => decide (l.queue.part = pid) && l.code.any fun c => rangesMeet c r

/-- An image holds the descriptor of a V = 1 kernel with an F level: a 64-byte block of it reads as one (R34; DESIGN CHOICE,
log 23). -/
def State.hasVirtual (s : State) (p : Partition) (off len : Nat) : Bool :=
  (List.range (len / 64 + 1)).any fun i =>
    let a := (off + 63) / 64 * 64 + 64 * i
    let k := s.descriptor p a
    decide (a + 64 ≤ off + len) && (descFault p.arenaSize a k).isNone && k.virt && k.used.any lvF

/-- The first free byte of the translation area. -/
def Partition.transFree (p : Partition) : Nat :=
  p.variants.foldl (fun a v => max a (v.base + v.len)) (p.arenaSize - p.transSize)

/-- The variants of an image: one for 32,768 and one for 65,536 bits, each as long as the image (log 23). -/
def Partition.newVariants (p : Partition) (off len : Nat) : List Variant :=
  let b := p.transFree
  [{ off := off, len := len, phys := 32768, base := b }, { off := off, len := len, phys := 65536, base := b + len }]

/-- A partition with the variants of an image, if it has none: what a fused kernel and its handlers reach may lie in any image
of the arena (R34, log 23). -/
def Partition.addVariants (p : Partition) (i : Nat × Nat) : Partition :=
  if p.variants.any fun v => v.off = i.1 then p else { p with variants := p.variants ++ p.newVariants i.1 i.2 }

/-- The words of every image of an arena. -/
def State.imageWords (s : State) (p : Partition) : List (Nat × List Word) :=
  p.images.map fun i => (i.1, (List.range (i.2 / 8)).map fun k => BitVec.ofNat 64 (s.mem.readLE (p.arenaBase + i.1 + 8 * k) 8))

/-- The words of a variant written into the translation area: they follow from the images and from where the variant stands
(R34, log 23). -/
def State.writeVariant (s : State) (p : Partition) (imgs : List (Nat × List Word)) (v : Variant) : State :=
  { s with
    mem := (List.range (v.len / 8)).foldl (fun (mm : Memory) i =>
      mm.writeLE (p.arenaBase + v.base + 8 * i) 8 (Config.variantWord imgs v.phys v.base (v.off + 8 * i)).toNat) s.mem
    keys := setKeys s.keys (p.arenaBase + v.base) v.len p.memKey }

/-- The code copied from host memory into the arena, each 8-byte word whole (R29), under a key of device memory (R389). -/
def State.copyCode (s : State) (key dst host len : Nat) : State :=
  { s with
    mem := (List.range (len / 8)).foldl (fun (mm : Memory) i => mm.writeLE (dst + 8 * i) 8 (s.hostMem.readLE (host + 8 * i) 8)) s.mem
    keys := setKeys s.keys dst len key }

/-- A byte of a physical range lies on a device that is gone from service (R17): devices alternate every 2 KiB (R218). -/
def State.rangeGone (s : State) (a len : Nat) : Bool :=
  decide (0 < len) && (List.range (len / 2048 + 2)).any fun i => s.memoryGone (min (a + 2048 * i) (a + len - 1))

/-- LOAD_CODE (R29, R34): refused where it overlaps code in use, reaches into the translation area, or a variant does not fit;
also, which the spec does not give, where its offset or length is no multiple of 8 (DESIGN CHOICE, log 28), or where a word would
stand on memory that is gone from service (DESIGN CHOICE, log 49). Where an image of the arena holds a V = 1 kernel with an F
level, every image has its variants (log 23). -/
def execLoadCode (m : Msg) (s : State) : Out :=
  request 4 [(0, 1), (4, 20)] [] m s fun x t =>
    t.onPart m x fun p =>
      let off := payload m 4 4
      let len := payload m 16 8
      if off % 8 ≠ 0 ∨ len % 8 ≠ 0 ∨ p.arenaSize - p.transSize < off + len ∨ t.codeInUse p.pid (off, len) ∨ t.rangeGone (p.arenaBase + off) len then
        t.answer m 4 []
      else
        let t1 := t.copyCode p.memKey (p.arenaBase + off) (payload m 8 8) len
        let kept := p.images.filter fun i => !rangesMeet i (off, len)
        let p1 := { p with
          images := if len = 0 then kept else kept ++ [(off, len)]
          variants := p.variants.filter fun v => kept.any fun i => i.1 = v.off }
        let p2 := if p1.images.any fun i => t1.hasVirtual p i.1 i.2 then p1.images.foldl Partition.addVariants p1 else p1
        if p.arenaSize < p2.transFree then t.answer m 4 []
        else
          let t2 := (p2.variants.drop p1.variants.length).foldl (fun (u : State) v => u.writeVariant p (t1.imageWords p1) v) t1
          (t2.mapPart p.pid fun _ => p2).answer m 0 []

/-! ### MAP_WINDOW (R372) -/

/-- Entry i of a page table. -/
def tableEntry (mem : Memory) (table i : Nat) : Word := BitVec.ofNat 64 (mem.readLE (table + 8 * i) 8)

/-- The index of an address in a table of a level (R219). -/
def tableIndex (va level : Nat) : Nat := va / 2 ^ entryShift level % 1024

/-- An entry points to a table. -/
def pteTable (e : Word) : Bool := pteV e && pteT e

/-- The table of a level on the way to a virtual address, by table pointers alone. -/
def tableFor (mem : Memory) (va : Nat) : Nat → Nat → Nat → Option Nat
  | 0, _, table => some table
  | n + 1, level, table =>
    let e := tableEntry mem table (tableIndex va level)
    if pteTable e then tableFor mem va n (level + 1) (pteNext e) else none

/-- The leaf of a window's page: readable, writable, reached from A level. -/
def windowLeaf (pa : Nat) : Nat := pa / 65536 * 65536 + 0x1D

/-- The physical address of the nth table that the Landing makes for windows (DESIGN CHOICE, log 28). -/
def madeTable (n : Nat) : Nat := 0x1FE0000000 + 8192 * n

/-- Memory with the tables that the Landing has made and the keys it stands under, the key of the partition, the count of tables,
and where they may stand (R29, R219, R389). -/
structure Tables where
  mem : Memory
  keys : SMap Nat
  key : Nat
  made : Nat
  ok : Nat → Bool

/-- An entry of a table written, where the table may stand there. -/
def Tables.put (t : Tables) (table i v : Nat) : Tables :=
  if t.ok table then { t with mem := t.mem.writeLE (table + 8 * i) 8 v, keys := setKeys t.keys (table + 8 * i) 8 t.key } else t

/-- Part k of a leaf that is divided into leaves of one entry of a level each: its attributes, and its part of the frame. -/
def leafPart (e : Word) (level k : Nat) : Nat :=
  if pteV e then e.toNat - 128 * pteSz e + k * 2 ^ entryShift level else 0

/-- The run of entries that holds a leaf of another mapping rewritten as leaves of one entry each, so that the mapping keeps
what lies outside the window (R372, log 28). -/
def Tables.splitRun (t : Tables) (table level va : Nat) : Tables :=
  let e := tableEntry t.mem table (tableIndex va level)
  match leafSize level (pteSz e) with
  | none => t
  | some size =>
    if !pteV e || pteT e || decide (size = entryShift level) then t
    else
      let first := tableIndex (va / 2 ^ size * 2 ^ size) level
      let e0 := tableEntry t.mem table first
      (List.range (2 ^ (size - entryShift level))).foldl (fun (u : Tables) k => u.put table (first + k) (leafPart e0 level k)) t

/-- A new table for an entry of a level: empty, or with the pages of the 64 MiB leaf that stood in the entry (log 28). -/
def Tables.newTable (t : Tables) (e : Word) (level : Nat) : Tables :=
  let a := madeTable t.made
  let t1 : Tables := { t with
    mem := clearBytes t.mem a (a + 8192), keys := setKeys t.keys a 8192 t.key, made := t.made + 1 }
  if pteV e && level = 3 then (List.range 1024).foldl (fun (u : Tables) k => u.put a k (leafPart e 4 k)) t1 else t1

/-- The table of the last level on the way to va, with fuel levels left: a missing table is made (log 28). -/
def Tables.reach (t : Tables) (va : Nat) : Nat → Nat → Nat → Tables × Nat
  | 0, _, table => (t, table)
  | n + 1, level, table =>
    let t0 := t.splitRun table level va
    let e := tableEntry t0.mem table (tableIndex va level)
    if pteTable e then t0.reach va n (level + 1) (pteNext e)
    else ((t0.newTable e level).put table (tableIndex va level) (madeTable t0.made + 3)).reach va n (level + 1) (madeTable t0.made)

/-- One leaf of a window written at va, and the bytes it maps: a 64 MiB leaf where one fits and no table stands there, else a
64 KiB leaf (log 28). -/
def Tables.putLeaf (t : Tables) (root va pa left : Nat) : Tables × Nat :=
  match t.reach va 2 1 root with
  | (t1, t3) =>
    if va % 2 ^ 26 = 0 ∧ pa % 2 ^ 26 = 0 ∧ 2 ^ 26 ≤ left ∧ !pteTable (tableEntry t1.mem t3 (tableIndex va 3)) then
      ((t1.splitRun t3 3 va).put t3 (tableIndex va 3) (windowLeaf pa), 2 ^ 26)
    else match t1.reach va 1 3 t3 with
      | (t2, t4) => ((t2.splitRun t4 4 va).put t4 (tableIndex va 4) (windowLeaf pa), 65536)

/-- The leaves of a window (R372); fuel counts its 64 KiB pages. -/
def Tables.putLeaves (root : Nat) : Nat → Tables → Nat → Nat → Nat → Tables
  | 0, t, _, _, _ => t
  | fuel + 1, t, va, pa, left =>
    if left = 0 then t
    else match t.putLeaf root va pa left with
      | (t1, n) => t1.putLeaves root fuel (va + n) (pa + n) (left - n)

/-- The leaves of a window cleared to V = 0 (R372). -/
def Tables.clearLeaves (root : Nat) : Nat → Tables → Nat → Nat → Tables
  | 0, t, _, _ => t
  | fuel + 1, t, va, left =>
    if left = 0 then t
    else
      let t1 := match tableFor t.mem va 2 1 root with
        | none => t
        | some t3 =>
          let e3 := tableEntry t.mem t3 (tableIndex va 3)
          if pteTable e3 then t.put (pteNext e3) (tableIndex va 4) 0 else t.put t3 (tableIndex va 3) 0
      t1.clearLeaves root fuel (va + 65536) (left - 65536)

/-- A partition's page tables as the Landing writes them. -/
def State.tablesOf (s : State) (p : Partition) : Tables :=
  { mem := s.mem, keys := s.keys, key := p.memKey, made := s.tables, ok := s.tableOk }

/-- The page tables as the Landing has left them. -/
def State.withTables (s : State) (t : Tables) : State := { s with mem := t.mem, keys := t.keys, tables := t.made }

/-- The window that a map request describes. In a confidential partition every host window is a bounce window (R387). -/
def newWindow (m : Msg) (p : Partition) (n session : Nat) : Window :=
  let f := payload m 3 1
  { num := n, kind := BitVec.ofNat 2 (payload m 2 1), va := payload m 16 8, len := payload m 24 8, pa := payload m 32 8
    groups := BitVec.ofNat 24 (payload m 4 3), ways := payload m 7 1, gran4k := decide (f / 16 % 2 = 1), en := decide (f % 2 = 1)
    rm := decide (f / 2 % 2 = 1), fb := decide (f / 4 % 2 = 1), bounce := p.conf && decide (payload m 2 1 = 2)
    session := session, peer := payload m 8 1, hbase := payload m 40 8, revoked := false }

/-- The physical part of a kind (Table 11-2). -/
def kindRange (k : BitVec 2) : Range :=
  match k.toNat with
  | 0 => .cxl
  | 1 => .peer
  | _ => .host

/-- The attributes are those of Table 21-2. PEER is not compared with the slot that PA lies in (DESIGN CHOICE, log 58). -/
def windowOk (m : Msg) (w : Window) : Bool :=
  let ones := (maskGroups w.groups).length
  decide (payload m 2 1 ≤ 2) && decide (w.va % 65536 = 0) && decide (w.len % 65536 = 0) &&
    decide (0 < w.len) && decide (w.va + w.len ≤ 2 ^ 56) && decide (w.pa % 65536 = 0) &&
    decide (rangeOf w.pa = kindRange w.kind) && decide (rangeOf (w.pa + w.len - 1) = kindRange w.kind) &&
    (if w.kind = 0 then [1, 2, 4, 8].contains w.ways && decide (w.ways = ones) else decide (w.ways = 1)) &&
    decide (w.hbase % 65536 = 0)

/-- A mapping request for operation 0, 1 or 2; another operation's message is not this step's. -/
def mapRequest (op : Nat) (used bits : List (Nat × Nat)) (m : Msg) (s : State) (f : Session → Partition → State → State) : Out :=
  if msgVerb m = 5 ∧ payload m 1 1 ≠ op ∧ payload m 1 1 ≤ 2 then .next s
  else request 5 used bits m s fun x t =>
    if payload m 1 1 ≠ op then t.answer m 1 [] else t.onPart m x fun p => f x p t

/-- The bytes that the payload of operation 0 uses: HBASE for KIND 2 alone, the window number for none (Table 21-14). -/
def mapBytes (m : Msg) : List (Nat × Nat) := [(0, 9), (16, if payload m 2 1 = 2 then 32 else 24)]

/-- MAP_WINDOW, operation 0 (R372). -/
def execMapWindowMap (m : Msg) (s : State) : Out :=
  mapRequest 0 (mapBytes m) [(3, 5)] m s fun x p t =>
    let w := newWindow m p p.nextWin x.num
    if !windowOk m w || p.windows.any fun v => rangesMeet (v.va, v.len) (w.va, w.len) then t.answer m 4 []
    else
      ((t.withTables ((t.tablesOf p).putLeaves p.root (w.len / 65536) w.va w.pa w.len)).mapPart p.pid fun q => { q with windows := q.windows ++ [w], nextWin := q.nextWin + 1 }).answer m 0
        (leBytes 4 w.num)

/-- The window that a request names. -/
def Partition.window? (p : Partition) (n : Nat) : Option Window := p.windows.find? fun w => w.num = n

/-- MAP_WINDOW, operation 1: EN and RM (R372). -/
def execMapWindowChange (m : Msg) (s : State) : Out :=
  mapRequest 1 [(0, 2), (3, 1), (12, 4)] [(3, 2)] m s fun _ p t =>
    match p.window? (payload m 12 4) with
    | none => t.answer m 2 []
    | some w =>
      (t.mapPart p.pid fun q => { q with windows := q.windows.map fun v =>
          if v.num = w.num then { v with en := decide (payload m 3 1 % 2 = 1), rm := decide (payload m 3 1 / 2 % 2 = 1) } else v }).answer m 0
        (leBytes 4 w.num)

/-- MAP_WINDOW, operation 2: the leaves cleared and invalidated before the answer (R372). -/
def execMapWindowRemove (m : Msg) (s : State) : Out :=
  mapRequest 2 [(0, 2), (12, 4)] [] m s fun _ p t =>
    match p.window? (payload m 12 4) with
    | none => t.answer m 2 []
    | some w =>
      let t1 := t.withTables ((t.tablesOf p).clearLeaves p.root (w.len / 65536) w.va w.len)
      ((t1.dropTlb p.pid fun r => rangesMeet r (w.va, w.len)).mapPart p.pid fun q => { q with windows := q.windows.filter fun v => v.num ≠ w.num }).answer m 0
        (leBytes 4 w.num)

/-! ### SUBMIT (R89, R407) -/

/-- The latched ring and SIZE, or, for a queue that has never run, those of its descriptor (R407). -/
def State.ringOf (s : State) (h : HwQueue) : Word × Nat :=
  if h.ran then (h.ring, h.size) else (s.qword h.id 0x00, bitField (s.qword h.id 0x08).toNat 27 24)

/-- The packets of a submission written into their slots; none where a slot cannot be written (log 28). -/
def State.writeSlots (s : State) (part ring size : Nat) (m : Msg) (n : Nat) : Nat → Option State
  | 0 => some s
  | k + 1 => match s.writeSlots part ring size m n k with
    | none => none
    | some t =>
      (List.range 8).foldl (fun (o : Option State) i => o.bind fun u =>
        match u.landingStore part (ring + 64 * ((n + k) % 2 ^ size) + 8 * i) (BitVec.ofNat 64 (payload m (8 + 64 * k + 8 * i) 8)) with
        | .ok v => some v
        | .error _ => none) (some t)

/-- SUBMIT (R407). -/
def execSubmit (m : Msg) (s : State) : Out :=
  request 6 [(0, 3), (8, 64 * payload m 2 1)] [] m s fun x t =>
    t.onPart m x fun p =>
      let q : QueueId := { part := p.pid, q := payload m 1 1 }
      let count := payload m 2 1
      match t.hwq? q with
      | none => t.answer m 4 []
      | some h =>
        let r := t.ringOf h
        if count = 0 ∨ 3 < count then t.answer m 1 []
        else if r.2 < 4 ∨ r.1.toNat % 64 ≠ 0 then t.answer m 4 []
        else
          let n := (t.qword q 0x10).toNat
          if 2 ^ r.2 < n + count - h.qdone then t.answer m 3 []
          else match t.writeSlots p.pid r.1.toNat r.2 m n count with
            | none => t.answer m 4 []
            | some t1 =>
              let t2 := t1.setQword q 0x10 (BitVec.ofNat 64 (n + count))
              let job : PendingSubmit := { session := x.num, path := m.path, seq := msgSeq m, queue := q, index := n, count := count }
              let t3 : State := { t2 with submits := t2.submits ++ [job] }
              t3.publishDue q

/-! ### READ_COUNTERS, SWITCH_PORT, CHECKPOINT (R379, R381, R395) -/

/-- The counters of a core brought up to date (log 7): clocks have passed where some strand of it is resident (R121). -/
def State.settleCounters (s : State) (core : BitVec 6) : State :=
  let s1 := if s.strands.any fun c => c.id.core = core && decide (c.run = .running) then s.stir core [1] else s
  (List.range 16).foldl (fun (t : State) i => t.settleCounter core (BitVec.ofNat 4 i)) s1

/-- READ_COUNTERS (R395). -/
def execReadCounters (m : Msg) (s : State) : Out :=
  request 7 [(0, 2)] [] m s fun x t =>
    t.onPart m x fun p =>
      let core : BitVec 6 := BitVec.ofNat 6 (payload m 1 1)
      if !(decide (payload m 1 1 < 64) && inBlock p.first p.count core) then t.answer m 4 []
      else
        let t1 := t.settleCounters core
        let k := (t1.core? core).getD (.reset core)
        t1.answer m 0 ((k.pcnt.toList.flatMap fun c => leBytes 8 c.toNat) ++ leBytes 8 p.stale.toNat ++ leBytes 8 p.proxies.toNat)

/-- A group is a session's own (R406): the owning session has those that no partition holds, and each session those of its
partitions. -/
def State.sessionOwns (s : State) (n g : Nat) : Bool :=
  match (s.groupD g).owner with
  | none => s.module.owning = some n
  | some p => (s.partition? p).any fun q => q.owner = some n

/-- SWITCH_PORT (R379): a group that is not the session's is answered DENIED (R406); then the steps of PORTSW, which answer
the code DENIED for a group that a partition holds (R371); DONE is answered once the group has drained. -/
def execSwitchPort (m : Msg) (s : State) : Out :=
  request 8 [(0, 1), (8, 8)] [] m s fun x t =>
    let g := payload m 0 1
    if decide (24 ≤ g) || !t.sessionOwns x.num g then t.answer m 2 []
    else match t.requestSwitch g (BitVec.ofNat 64 (payload m 8 8)) (t.groupD g).owner.isNone with
      | (code, t1) =>
        if code = 0 ∧ (t1.groupD g).state = .draining then t1.mapGroup g fun y => { y with asker := some (x.num, msgSeq m) }
        else t1.answer m 0 [BitVec.ofNat 8 code]

/-- CHECKPOINT (R381): the copy begins; CHECKPOINT_DONE ends it. -/
def execCheckpoint (m : Msg) (s : State) : Out :=
  request 9 [(0, 1), (4, 12)] [] m s fun x t =>
    t.onPart m x fun p =>
      match p.window? (payload m 4 4) with
      | none => t.answer m 2 []
      | some w =>
        if w.kind ≠ 0 ∨ payload m 8 8 % 4096 ≠ 0 ∨ w.len < payload m 8 8 ∨ p.job.isSome then t.answer m 4 []
        else t.mapPart p.pid fun q => { q with job := some { session := x.num, path := m.path, seq := msgSeq m, win := w.num, off := payload m 8 8 } }

/-- The device-memory pages that the tables from a level on map: first physical address and length. -/
def mappedPages (mem : Memory) (ok : Nat → Bool) : Nat → Nat → Nat → List (Nat × Nat)
  | 0, _, _ => []
  | n + 1, level, table =>
    if !ok table then []
    else (List.range 1024).flatMap fun i =>
      let e := tableEntry mem table i
      if !pteV e then []
      else if pteT e then mappedPages mem ok n (level + 1) (pteNext e)
      else match checkLeaf level e with
        | .error _ => []
        | .ok size => if rangeOf (pteFrame e) = .gddr then [(pteFrame e, 2 ^ size)] else []

/-- What a checkpoint copies: the partition's device memory, which is its arena and the pages its tables map, and the Larders
of its cores; each piece is in a Larder or not, with its first address and length (R381, log 26). -/
def State.checkpointPieces (s : State) (p : Partition) : List (Bool × Nat × Nat) :=
  let pages := (mappedPages s.mem s.tableOk 4 1 p.root).eraseDups.filter fun g => s.memoryOk g.1
  (false, p.arenaBase, p.arenaSize) :: pages.map (fun g => (false, g.1, g.2)) ++ p.cores.map fun k => (true, larderBase k, larderSize)

/-- A byte of what a checkpoint copies: of a Larder, or of device memory as it reads under the partition's key (R389). -/
def State.pieceByte (s : State) (p : Partition) (larder : Bool) (a : Nat) : Byte :=
  if larder then s.larder.read a else s.byteUnder p.memKey a

/-- The bytes of a piece. -/
def State.pieceBytes (s : State) (p : Partition) (g : Bool × Nat × Nat) : List Byte :=
  (List.range g.2.2).map fun i => s.pieceByte p g.1 (g.2.1 + i)

/-- A CHECKPOINT ends: its response is sent, and the requests behind it go on (R380). -/
def State.endCheckpoint (s : State) (part : Nat) (j : CheckpointJob) (status : Nat) (body : List Byte) : State :=
  ((s.mapPart part fun q => { q with job := none }).respond j.session 9 j.seq status body).resumeRequests j.session j.path

/-- CHECKPOINT_DONE (R381): the copy stands in the window, and the response says how many bytes it has. The order of the pieces
is the implementation's, a free value; a copy that does not fit, or that the window's routes fail, is REFUSED (log 26); one that
they stall is not done (R373). -/
def execCheckpointDone (part : Nat) (s : State) : Out :=
  .next (match s.partition? part with
    | none => s
    | some p => match p.job with
      | none => s
      | some j => match p.window? j.win with
        | none => s.endCheckpoint part j 4 []
        | some w =>
          let r := s.shuffle (s.checkpointPieces p)
          let bytes := r.1.flatMap (s.pieceBytes p)
          if w.len < j.off + bytes.length then s.endCheckpoint part j 4 []
          else match s.routeRange w j.off bytes.length with
            | .error .stall => s
            | .error (.trap _) => s.endCheckpoint part j 4 []
            | .ok () =>
              let s2 : State := { r.2 with mem := SMap.setRange Memory.fresh r.2.mem (w.pa + j.off) bytes }
              s2.endCheckpoint part j 0 (leBytes 8 bytes.length))

/-! ### The end of sessions and partitions (R364, R371, R381, R386, R406) -/

/-- The event of kind 3 for a strand's task as it stands (Table 18-9). -/
def Strand.endEvent (c : Strand) : EventRec :=
  { kind := 3, subj := BitVec.ofNat 16 c.taskNo, ctx := c.taskCtx, a := c.trcause, b := c.trpc, c := c.trval }

/-- The event of kind 3 for a launch that ends by policy: that of its first task, or, where it has none on a strand or
pre-empted, one that names none (R363, log 29). -/
def State.endEventOf (s : State) (l : Nat) : EventRec :=
  (((s.strands ++ s.parked).find? fun c => c.ofLaunch l).map Strand.endEvent).getD
    { kind := 3, subj := 0, ctx := 0, a := 0, b := 0, c := 0 }

/-- A partition torn down: its tasks and queue commands are gone and their completions are stale from then on (R364), its
queues are emptied, its groups return to the owning session (R371), and its translations are dropped. -/
def State.tearDown (s : State) (pid : Nat) : State :=
  let gone := fun (c : Strand) => decide (c.part = pid)
  let s1 := (s.stray fun c => gone c && c.task.isSome).mapStrands fun c => if gone c then c.release else c
  let ctxs := ((s.strands ++ s.parked).filter gone).map (·.taskCtx)
  { s1 with
    parked := s1.parked.filter fun c => !gone c
    saved := s1.saved.filter fun p => !ctxs.contains p.1
    tlb := s1.tlb.filter fun t => t.part ≠ pid
    parts := s1.parts.filter fun p => p.pid ≠ pid
    hwq := s1.hwq.filter fun h => h.id.part ≠ pid
    launches := s1.launches.filter fun l => l.queue.part ≠ pid
    pending := s1.pending.filter fun q => q.part ≠ pid
    reservations := s1.reservations.filter fun r => r.1 ≠ pid
    submits := s1.submits.filter fun x => x.queue.part ≠ pid
    groups := s1.groups.map fun g => if g.owner = some pid then { g with owner := none, waiter := none } else g }

/-- A session gone: the longest-open remaining session owns the unassigned groups (R406). -/
def State.dropSession (s : State) (n : Nat) : State :=
  let rest := s.sessions.filter fun x => x.num ≠ n
  let oldest := rest.foldl (fun (o : Option Session) x => match o with
    | none => some x
    | some y => if x.order < y.order then some x else o) none
  { s with
    sessions := rest
    groups := s.groups.map fun g => if (g.asker.map (·.1)) = some n then { g with asker := none } else g
    module := { s.module with owning := if s.module.owning = some n then oldest.map (·.num) else s.module.owning } }

/-- The partitions of a session. -/
def State.partsOf (s : State) (n : Nat) : List Partition := s.parts.filter fun p => p.owner = some n

/-- The windows of a session revoked (R386). -/
def State.revoke (s : State) (n : Nat) : State :=
  { s with parts := s.parts.map fun p =>
      { p with windows := p.windows.map fun w => if w.kind = 2 ∧ w.session = n then { w with revoked := true } else w } }

/-- An AMO that awaits its completion through a window of the session raises HOSTGONE (R385). -/
def State.failSession (s : State) (n : Nat) (who : StrandId) : State :=
  s.onStrand who fun t =>
    match t.cur.awaited with
    | none => t
    | some f => if f.session = n then (t.withCur { t.cur with run := .running, amo := none }).trap .hostgone f.va else t

/-- RUN of every queue of a partition cleared (Table 21-13): a RUNNING queue is STOPPED. -/
def State.quiesceQueues (s : State) (pid : Nat) : State :=
  (s.hwq.filter fun h => decide (h.id.part = pid) && decide (h.state = .running)).foldl (fun (t : State) h =>
    (t.mapHwq h.id fun x => { x with state := .stopped }).setQword h.id 0x08 (controlWord (t.qword h.id 0x08) .stopped)) s

/-- CLOSE (R381): the queues of the session's partitions are STOPPED (Table 5-4), they are torn down, and it ends. -/
def execClose (m : Msg) (s : State) : Out :=
  request 10 [] [] m s fun x t =>
    let t1 := (t.partsOf x.num).foldl (fun (u : State) p => (u.quiesceQueues p.pid).tearDown p.pid) t
    (t1.answer m 0 []).dropSession x.num

/-- Some strand holds a task of the partition. -/
def State.busy (s : State) (pid : Nat) : Bool := s.strands.any fun c => c.part = pid && c.task.isSome

/-- Terminate (R363, R386, Table 21-13): every queue stops, every launch ends, and the partition is torn down once no strand
holds a task of it. -/
def State.terminate (s : State) (pid : Nat) : State :=
  let s1 := (s.quiesceQueues pid).mapPart pid fun q => { q with ending := true }
  let ls := (s1.launches.filter fun l => l.queue.part = pid).map (·.lid)
  let s2 := ls.foldl (fun (t : State) l => t.endLaunch l none (s1.endEventOf l)) s1
  if s2.busy pid then s2 else s2.tearDown pid

/-- The teardown of a terminated partition, once its tasks have stopped. -/
def State.tearDownDue (s : State) (pid : Nat) : State :=
  match s.partition? pid with
  | none => s
  | some p => if p.ending && !s.busy pid then s.tearDown pid else s

/-- A partition meets its loss policy (R386, Table 21-13). -/
def State.losePart (s : State) (p : Partition) : State :=
  let e : EventRec := { kind := 6, subj := 0, ctx := 0, a := 0, b := 0, c := 0 }
  let s1 := (s.partEvent p.pid e).mapPart p.pid fun q => { q with owner := none }
  match p.policy with
  | 0 => s1
  | 1 => s1.quiesceQueues p.pid
  | _ => s1.terminate p.pid

/-- SESSION_LOST (R386). -/
def execSessionLost (session : Nat) (s : State) : Out :=
  .next (match s.session? session with
    | none => s
    | some x =>
      let s1 := s.revoke x.num
      let s2 := (s1.strands.map (·.id)).foldl (fun (t : State) who => t.failSession x.num who) s1
      ((s2.partsOf x.num).foldl State.losePart s2).dropSession x.num)

/-! ### FIRMWARE (R402, Table 23-9) -/

/-- The bytes of the image so far with a chunk at its offset. -/
def withChunk (img : List Byte) (off : Nat) (chunk : List Byte) : List Byte :=
  img.take off ++ List.replicate (off - img.length) 0 ++ chunk ++ img.drop (off + chunk.length)

/-- The personality that an image's configuration gives a group: HOSTLINK to at most two, the lowest-numbered; a code for a
further one counts as CXL.mem (R370, log 24). -/
def personality (img : List Byte) (g : Nat) : BitVec 4 :=
  let code := fun (h : Nat) => (Config.firmwarePersonality img h).toNat % 5
  if code g = 1 ∧ 2 ≤ ((List.range g).filter fun h => decide (code h = 1)).length then 0 else BitVec.ofNat 4 (code g)

/-- A group trained in the personality that the image's configuration gives it; its presets are stored beside those of its
trainings before (R370, R375). It keeps what has befallen its lanes (R11). -/
def configured (img : List Byte) (old : Group) (g : Nat) : Group :=
  let p := personality img g
  { Group.reset with
    pers := p, target := p, spare := old.spare, switches := old.switches
    presets := if old.presets.contains p then old.presets else old.presets ++ [p] }

/-- A group that lacks a lane does not train: it is DOWN (R11, R17). -/
def untrained (old : Group) : Group := { old with state := .down, pers := 15 }

/-- An accepted image brings the module into service: groups trained, Larders zeroed (Table 23-9). -/
def State.bringUp (s : State) (img : List Byte) : State :=
  { s with
    larder := [], planes := []
    groups := Vector.ofFn fun i : Fin 24 => if s.laneGone i.val then untrained s.groups[i] else configured img s.groups[i] i.val
    module := { s.module with phase := .service, firmware := img } }

/-- FIRMWARE (R402): a chunk is kept; after the last one the checks' verdict is answered, and an accepted image comes into
service. Only the boot ROM accepts it (R382). -/
def execFirmware (m : Msg) (s : State) : Out :=
  .next (
    if msgVerb m ≠ 0x40 && knownVerb (msgVerb m) || !(s.groupD m.path).carriesRpc then s
    else if !headerOk m || decide (msgType m ≠ 1) || decide (msgSession m ≠ 0) then s.answer m 1 []
    else if s.module.phase ≠ .bootRom then s.answer m 4 []
    else
      let chunk := m.payload.drop 8
      let img := withChunk s.module.firmware (payload m 0 4) chunk
      if payload m 0 4 + chunk.length < payload m 4 4 then
        ({ s with module := { s.module with firmware := img } }).answer m 0 [0]
      else
        let v := Config.firmwareVerdict img
        let s1 := if v = 0 then s.bringUp img else { s with module := { s.module with firmware := [] } }
        s1.answer m 0 [v.setWidth 8])

end Sys2Proof.Machine
end

