-- ==== Sys2Proof/Machine/ScalarFloat.lean ====
section
/-! DEFINITION. Machine/ScalarFloat.lean: the scalar floating-point parcels (R139 to R146). -/

namespace Sys2Proof.Machine

/-- The operand of a scalar floating-point instruction: the low bits of the register (R139). -/
def floatOperand (f : FloatFmt) (s : State) (r : XReg) : Nat := (s.getX r).toNat % 2 ^ f.width

/-- A floating-point result: zero-extended, its flags raised (R139, R142). -/
def floatResult (d : XReg) (r : FRes) (s : State) : Out := .next ((s.setX d (BitVec.ofNat 64 r.bits)).raise r.flags).next4

/-- A function of two operands in the mode of frm. -/
def float2 (o : FOp2) (s : State) (op : FloatFmt → RMode → Nat → Nat → FRes) : Out :=
  let f := scalarFmt o.fmt
  floatResult o.d (op f s.cur.frm (floatOperand f s o.a) (floatOperand f s o.b)) s

/-- A function of one operand in the mode of frm. -/
def float1 (o : FOp1) (s : State) (op : FloatFmt → RMode → Nat → FRes) : Out :=
  let f := scalarFmt o.fmt
  floatResult o.d (op f s.cur.frm (floatOperand f s o.a)) s

/-- A comparison: 1 or 0 (R143). -/
def floatCmp (o : FOp2) (s : State) (c : FCond) : Out :=
  float2 o s fun f _ a b => { bits := if (fCmp f c a b).1 then 1 else 0, flags := (fCmp f c a b).2 }

/-- The fused family (R146). -/
def float3 (o : FOp3) (s : State) (negP negZ : Bool) : Out :=
  let f := scalarFmt o.fmt
  floatResult o.d (fFma f s.cur.frm negP negZ (floatOperand f s o.a) (floatOperand f s o.b) (floatOperand f s o.c)) s

/-- FADD (R141). -/
def execFadd (o : FOp2) (s : State) : Out := float2 o s fAdd
/-- FSUB (R141). -/
def execFsub (o : FOp2) (s : State) : Out := float2 o s fSub
/-- FMUL (R141). -/
def execFmul (o : FOp2) (s : State) : Out := float2 o s fMul
/-- FDIV (R141). -/
def execFdiv (o : FOp2) (s : State) : Out := float2 o s fDiv
/-- FSQRT (R141). -/
def execFsqrt (o : FOp1) (s : State) : Out := float1 o s fSqrt
/-- FMIN (R143). -/
def execFmin (o : FOp2) (s : State) : Out := float2 o s fun f _ => fMin f
/-- FMAX (R143). -/
def execFmax (o : FOp2) (s : State) : Out := float2 o s fun f _ => fMax f
/-- FEQ (R143). -/
def execFeq (o : FOp2) (s : State) : Out := floatCmp o s .eq
/-- FLT (R143). -/
def execFlt (o : FOp2) (s : State) : Out := floatCmp o s .lt
/-- FLE (R143). -/
def execFle (o : FOp2) (s : State) : Out := floatCmp o s .le
/-- FCLASS (R143). -/
def execFclass (o : FOp1) (s : State) : Out := float1 o s fun f _ a => { bits := fClass f a, flags := 0 }
/-- FSGNJ (R143). -/
def execFsgnj (o : FOp2) (s : State) : Out := float2 o s fun f _ a b => { bits := fSign f false a b, flags := 0 }
/-- FSGNJN (R143). -/
def execFsgnjn (o : FOp2) (s : State) : Out := float2 o s fun f _ a b => { bits := fSign f true a b, flags := 0 }

/-- FCVTFI (R144). -/
def execFcvtfi (o : FCvtInt) (s : State) : Out :=
  let f := scalarFmt o.fmt
  floatResult o.d (fCvtToInt f o.ty s.cur.frm (floatOperand f s o.a)) s

/-- FCVTIF (R145): the source is the whole register or its low 32 bits. -/
def execFcvtif (o : FCvtInt) (s : State) : Out :=
  floatResult o.d (fCvtFromInt (scalarFmt o.fmt) o.ty s.cur.frm (s.getX o.a).toNat) s

/-- FCVTFF (R145). -/
def execFcvtff (o : FCvtFlt) (s : State) : Out :=
  let g := scalarFmt o.src
  floatResult o.d (toFloat (scalarFmt o.dst) s.cur.frm false (g.value (floatOperand g s o.a))) s

/-- FMA (R146). -/
def execFma (o : FOp3) (s : State) : Out := float3 o s false false
/-- FMS (R146). -/
def execFms (o : FOp3) (s : State) : Out := float3 o s false true
/-- FNMA (R146). -/
def execFnma (o : FOp3) (s : State) : Out := float3 o s true false
/-- FNMS (R146). -/
def execFnms (o : FOp3) (s : State) : Out := float3 o s true true

end Sys2Proof.Machine
end

