-- ==== Sys2Proof/Machine/Scoreboard.lean ====
section
/-! DEFINITION. Machine/Scoreboard.lean: late errors and the settling of pending scoreboard entries (R345 to R348, R356). -/

namespace Sys2Proof.Machine

/-! ### The elements of an entry -/

/-- The width of an entry's elements in bits; code 4 stands for 4-bit elements (Table 4-7). -/
def sbBits (e : SbEntry) : Nat := if e.ew = 4 then 4 else 8 * 2 ^ (e.ew.toNat % 4)

/-- The bytes one access of an entry moves: a CLAIM's are those of its next count. -/
def sbBytes (e : SbEntry) : Nat := if sbBits e = 4 then 1 else sbBits e / 8

/-- The register of an element: fields of a segment follow one another (R235). -/
def sbReg (e : SbEntry) (c : Strand) (x : SbElem) : VReg :=
  BitVec.ofNat 6 (e.reg.toNat + x.index / 16384 * c.groupSize (sbBits e))

/-- A value written to the data register of a load for one element. -/
def State.deliverLoad (s : State) (e : SbEntry) (x : SbElem) (v : Nat) : State :=
  if e.vector then
    s.withVec { s.cur.vec with v := s.cur.putElem s.cur.vec.v (sbReg e s.cur x) (sbBits e) (x.index % 16384) v }
  else s.setX (e.reg.setWidth 5) (if e.sx then BitVec.ofInt 64 (signed (sbBits e) v) else BitVec.ofNat 64 v)

/-- A nibble of a byte. -/
def nibble (b i : Nat) : Nat := b / 16 ^ (i % 2) % 16

/-- A byte with one nibble replaced. -/
def withNibble (b i v : Nat) : Nat := if i % 2 = 0 then b / 16 * 16 + v % 16 else b % 16 + v % 16 * 16

/-- One failed element of a load read again and delivered (R347). -/
def State.replayLoad (s : State) (e : SbEntry) (x : SbElem) : Except Fail State :=
  match s.access x.addr (sbBytes e) .load with
  | (.error f, _) => .error f
  | (.ok p, s1) =>
    let b := s1.readPlace p.place (sbBytes e)
    .ok ((s1.touch s1.cur.via p .load).deliverLoad e x (if sbBits e = 4 then nibble b x.index else b))

/-- One failed element of a store performed (R347). -/
def State.replayStore (s : State) (e : SbEntry) (x : SbElem) : Except Fail State :=
  match s.access x.addr (sbBytes e) .store with
  | (.error f, _) => .error f
  | (.ok p, s1) =>
    let v := if sbBits e = 4 then withNibble (s1.readPlace p.place 1) x.index x.value.toNat else x.value.toNat
    .ok (s1.storeAt s1.cur.via x.addr.toNat p (sbBytes e) v)

/-- One failed update of VSCADD performed, once (R242, R347). -/
def State.replayAdd (s : State) (e : SbEntry) (x : SbElem) : Except Fail State :=
  match s.access x.addr (sbBytes e) .store with
  | (.error f, _) => .error f
  | (.ok p, s1) =>
    .ok (s1.storeAt s1.cur.via x.addr.toNat p (sbBytes e) ((s1.readPlace p.place (sbBytes e) + x.value.toNat) % 2 ^ sbBits e))

/-- A pending AMO performed (R318). -/
def State.replayAmo (s : State) (e : SbEntry) (x : SbElem) : Except Fail State :=
  let n := sbBytes e
  match s.access x.addr n .amo with
  | (.error f, _) => .error f
  | (.ok p, s1) =>
    let old := s1.readPlace p.place n
    .ok ((s1.amoWrite x.addr.toNat p n (amoNew e.amo.toNat n old x.value.toNat x.was.toNat)).setX (e.reg.setWidth 5)
      (amoResult n old))

/-- A pending CLAIM performed (R322). -/
def State.replayClaim (s : State) (e : SbEntry) (x : SbElem) : Except Fail State :=
  match s.access x.addr 16 .amo with
  | (.error f, _) => .error f
  | (.ok p, s1) =>
    let next := s1.readPlace p.place 8
    let limit := s1.readPlace { p.place with addr := p.place.addr + 8 } 8
    let g := min x.value.toNat (min s1.cur.vlmax (limit - next))
    let s2 := s1.amoWrite x.addr.toNat p 8 (some ((next + g) % 2 ^ 64))
    .ok ((s2.withVec { s2.cur.vec with vl := g, vstart := 0 }).setX (e.reg.setWidth 5) (BitVec.ofNat 64 next))

/-- One failed element performed (R347). -/
def State.replayElem (s : State) (e : SbEntry) (x : SbElem) : Except Fail State :=
  match e.kind.toNat with
  | 0 => s.replayLoad e x
  | 1 => if e.amo = 14 then s.replayAdd e x else s.replayStore e x
  | _ => if e.amo = 15 then s.replayClaim e x else s.replayAmo e x

/-- The failed elements performed in ascending order up to the first that fails again; the rest is left (R347). -/
def State.replayFrom (s : State) (e : SbEntry) : List SbElem → Option Fail × List SbElem × State
  | [] => (none, [], s)
  | x :: t =>
    match s.replayElem e x with
    | .ok s1 => s1.replayFrom e t
    | .error f => (some f, x :: t, s)

/-! ### Settling (R347) -/

/-- An entry of the scoreboard replaced, and the image with it. -/
def State.setEntry (s : State) (i : Nat) (e : SbEntry) : State :=
  (s.withCur { s.cur with board := s.cur.board.set i e }).writeBoard

/-- An entry settled: its SET bit is written. -/
def State.markSettled (s : State) (i : Nat) (e : SbEntry) : State := s.setEntry i { e with settled := true }

/-- The zero choice: zeros to the failed elements of a load, a store discarded, an AMO's update discarded and its xd zero
(R347). -/
def State.zeroEntry (s : State) (i : Nat) (e : SbEntry) : State :=
  let s1 := match e.kind.toNat with
    | 0 => e.elems.foldl (fun (t : State) x => t.deliverLoad e x 0) s
    | 1 => s
    | _ => s.setX (e.reg.setWidth 5) 0
  s1.markSettled i e

/-- The event of a propagated entry (kind 4 of Table 18-9). -/
def Strand.lateEvent (c : Strand) (e : SbEntry) : EventRec :=
  { kind := 4, subj := BitVec.ofNat 16 c.taskNo, ctx := c.taskCtx, a := BitVec.ofNat 64 ((SbEntry.words e).getD 0 0), b := e.addr
    c := BitVec.ofNat 64 ((SbEntry.words e).getD 2 0) }

/-- The propagate choice: as zero, with an event that carries the entry (R347). -/
def State.propagateEntry (s : State) (i : Nat) (e : SbEntry) : State :=
  (s.partEvent s.cur.part (s.cur.lateEvent e)).zeroEntry i e

/-- An entry whose replay has failed again: it names what is left (R347). -/
def sbRest (e : SbEntry) (left : List SbElem) : SbEntry :=
  { e with
    elems := left, nfail := left.length
    addr := (left.head?.map (·.addr)).getD e.addr, first := (left.head?.map (·.index % 16384)).getD e.first }

/-- A replay (R347): 0 settled, 2 failed again, 3 refused, or none where it stalls at the routing stage. Its accesses are
made at the level of the trap. -/
def State.replayEntry (s : State) (i : Nat) (e : SbEntry) : Option Nat × State :=
  if e.kind = 2 && e.perf then (some 3, s)
  else
    let lvl := s.cur.level
    let r := (s.withCur { s.cur with level := s.cur.trLvl }).replayFrom e e.elems
    let back (t : State) : State := t.withCur { t.cur with level := lvl }
    match r with
    | (none, _, s1) => (some 0, (back s1).markSettled i e)
    | (some (.trap _), left, s1) => (some 2, (back s1).setEntry i (sbRest e left))
    | (some .stall, left, s1) => (none, (back s1).setEntry i (sbRest e left))

/-- Every unsettled entry of the image settled by one choice of settling, in its order. -/
def State.settleWith (s : State) (f : State → Nat → SbEntry → State) : State :=
  (List.range s.cur.board.length).foldl (fun t i =>
    match t.cur.board[i]? with
    | none => t
    | some e => if e.settled then t else f t i e) s

/-- The entries of errors that are reported and not yet raised, put into the image. -/
def State.holdInBoard (s : State) : State :=
  s.withCur { s.cur with board := s.cur.board ++ byAge s.cur.lateHeld, lateHeld := [] }

/-- Settling by propagate, of the errors that are not yet raised too (R352, R356). -/
def State.propagateAll (s : State) : State := s.holdInBoard.settleWith State.propagateEntry

/-- The settling of TRAPRET: by replay, then by propagate if the replay fails (R348). A replay that stalls is left. -/
def State.returnSettle (s : State) : State :=
  s.settleWith fun t i e =>
    match t.replayEntry i e with
    | (some 0, t1) => t1
    | (some _, t1) => t1.propagateEntry i ((t1.cur.board[i]?).getD e)
    | (none, t1) => t1

/-! ### Late errors (R345, R346) -/

/-- The late error that a strand is to meet where some elements fail. -/
def armLate (p : LatePoint) (errs : List Nat) : LateStop :=
  match p with
  | .boundary err perf => .boundary errs err perf
  | .load err => .load errs err
  | .matrix k addr => .matrix k addr

/-- LATE_ERROR (R346): accesses that the strand has still to make fail late, and it stops for it where `stop` says: at its next load,
in its next matrix word, or at the boundary after the access; `errs` are the elements of a load or access that fail (log 41). -/
def execLateError (who : StrandId) (stop : LatePoint) (errs : List Nat) (s : State) : Out :=
  .next (s.onStrand who fun t => t.withCur { t.cur with lateStop := some (armLate stop errs) })

/-- SCOREBOARD_SETTLE_TIMEOUT (R356): 100 µs after a request for pre-emption, unsettled entries are settled by propagate. -/
def execScoreboardSettleTimeout (who : StrandId) (s : State) : Out :=
  .next (s.onStrand who fun t => if t.cur.preempt = .none then t else t.propagateAll)

end Sys2Proof.Machine
end

