-- ==== Sys2Proof/Machine/Service.lean ====
section
/-! DEFINITION. Machine/Service.lean: power good and power loss, the power manager, error counts and the retirement of parts
(R9, R12, R15, R17, R18, R396 to R402, R405). -/

namespace Sys2Proof.Machine

/-! ### Power (R402, R405) -/

/-- POWER_GOOD (R402): the boot ROM runs with group 0 as HOSTLINK, whose presets are stored (R375). -/
def execPowerGood (s : State) : Out :=
  .next (if s.module.phase ≠ .off then s
    else ({ s with module := { s.module with phase := .bootRom } }).mapGroup 0 fun g =>
      { g with state := .active, pers := 1, target := 1, presets := [1] })

/-- POWER_LOSS (R405): the module is as after reset; what lies outside it stays: host memory, the memory behind the ports and
the messages already sent. The spares taken and the parts removed are forgotten with the rest: the spec does not say whether they
outlast a power cycle (DESIGN CHOICE, log 29). -/
def execPowerLoss (s : State) : Out :=
  .next { State.reset with
    mem := s.mem.filter fun c => decide (0x100000000000 ≤ c.1)
    hostMem := s.hostMem, outbox := s.outbox, free := s.free }

/-- The power limit at a coolant flow in L/min: 3,200 W, less in proportion below 4 L/min (R15, R405). -/
def powerLimit (flow : Nat) : Nat := 3200 * min flow 4 / 4

/-- At 115 °C: strands and engines stop, and every running task has its event of kind 3 (R405). -/
def State.trip (s : State) : State :=
  let s1 := (s.strands.filter fun c => c.task.isSome && decide (c.run ≠ .halted)).foldl (fun (t : State) c =>
    (t.partEvent c.part c.endEvent).hostEvent ((t.partition? c.part).bind (·.owner)) c.endEvent c.part) s
  { s1.mapStrands fun c => { c with run := .stopped, amo := none } with module := { s1.module with phase := .tripped } }

/-- The clock after a sample (R9): a step down at the limit; below it a step down, none or a step up, as a free value says,
for R9 does not say how near the limit is near (log 30). Never below 1,200 MHz, where 105 °C holds it, nor above 2,100. -/
def nextClock (mhz watts tempC flow : Nat) (f : Word) : Nat :=
  if powerLimit flow ≤ watts then max 1200 (mhz - 25)
  else if mhz ≤ 1200 ∧ 105 ≤ tempC then mhz
  else match f.toNat % 3 with
    | 0 => max 1200 (mhz - 25)
    | 1 => mhz
    | _ => min 2100 (mhz + 25)

/-- POWER_SAMPLE (R405). -/
def execPowerSample (watts : Nat) (tempC : Nat) (flow : Nat) (s : State) : Out :=
  .next (if s.module.phase = .off ∨ s.module.phase = .tripped then s
    else if 115 ≤ tempC then s.trip
    else
      let r := s.takeFree
      { r.2 with module := { r.2.module with clockMHz := nextClock s.module.clockMHz watts tempC flow r.1 } })

/-! ### Parts, their triggers and their spares (Tables 1-1, 23-6, 23-7) -/

/-- The part is one of Table 1-1. -/
def partExists : PartRef → Bool
  | .core _ => true
  | .strandCore _ => true
  | .landingCore _ i => i < 4
  | .gddr n => n < 32
  | .bank _ i => i < 64
  | .lane g i => g < 24 && decide (i < 9)

/-- CLASS, the scope whose spares it shares (die, core or group), their number, and INDEX. -/
def partClass : PartRef → Nat × Nat × Nat × Nat
  | .core n => (1, n.toNat / 32, 2, n.toNat)
  | .strandCore w => (2, w.core.toNat, 1, w.core.toNat * 8 + w.sid.toNat)
  | .landingCore die i => (3, die.toNat, 1, die.toNat * 4 + i)
  | .gddr n => (4, n / 16, 1, n)
  | .bank k i => (5, k.toNat, 4, k.toNat * 256 + i)
  | .lane g i => (6, g, 1, g * 256 + i)

/-- The core whose tasks a part belongs to. -/
def partCore : PartRef → Option (BitVec 6)
  | .core n => some n
  | .strandCore w => some w.core
  | .landingCore _ _ => none
  | .gddr _ => none
  | .bank k _ => some k
  | .lane _ _ => none

/-- The corrected errors that a part may have within 24 h (Table 23-6); a lane's threshold is its link's. -/
def partLimit : PartRef → Option Nat
  | .core _ => some 64
  | .strandCore _ => some 64
  | .landingCore _ _ => none
  | .gddr _ => some 256
  | .bank _ _ => some 16
  | .lane _ _ => none

/-- The partition that holds a core. -/
def State.partOn (s : State) (core : BitVec 6) : Option Partition := s.parts.find? fun p => inBlock p.first p.count core

/-- The session of the partition that held a part (R399). -/
def State.partHolder (s : State) (p : PartRef) : Option Nat :=
  ((partCore p).bind s.partOn).bind (·.owner)

/-- The spares of a class taken in a scope. -/
def Module.takenOf (m : Module) (cls scope : Nat) : Nat :=
  ((m.taken.find? fun t => t.1 = cls && t.2.1 = scope).map (·.2.2)).getD 0

/-- One more spare taken. -/
def Module.take (m : Module) (cls scope : Nat) : Module :=
  { m with taken := (m.taken.filter fun t => !(decide (t.1 = cls) && decide (t.2.1 = scope))) ++ [(cls, scope, m.takenOf cls scope + 1)] }

/-- The corrected errors counted for a part. -/
def Module.errorsOf (m : Module) (p : PartRef) : Nat := ((m.errors.find? fun e => e.1 = p).map (·.2)).getD 0

/-- The corrected errors of a part set. -/
def Module.setErrors (m : Module) (p : PartRef) (n : Nat) : Module :=
  { m with errors := (m.errors.filter fun e => e.1 ≠ p) ++ (if n = 0 then [] else [(p, n)]) }

/-- The strand's task moves with a part: a core's or a strand core's (Table 23-6). -/
def Strand.movesWith (c : Strand) (p : PartRef) : Bool :=
  c.task.isSome && match p with
    | .core n => c.id.core = n
    | .strandCore w => c.id = w
    | _ => false

/-- The strand's task has nothing to stop: it has halted, or stands pre-empted or stopped already. -/
def Strand.still (c : Strand) : Bool :=
  match c.run with
  | .halted => true
  | .preempted => true
  | .stopped => true
  | _ => false

/-- What moves to a spare: the tasks of a core or strand core, which stop at their next pre-emption points (R398); a GDDR 7
device, which is copied while in use (R397). -/
def State.takeOver (s : State) (p : PartRef) : State :=
  match p with
  | .core _ | .strandCore _ =>
    { s.mapStrands fun c => if c.movesWith p && !c.still then { c with moving := true } else c with
      module := { s.module with moving := s.module.moving ++ [p] } }
  | .gddr n => { s with module := { s.module with copying := s.module.copying ++ [n] } }
  | .landingCore _ _ => s
  | .bank _ _ => s
  | .lane _ _ => s

/-- A task that moves with a part has still to stop (R398). -/
def Strand.stillMoving (c : Strand) (p : PartRef) : Bool := c.movesWith p && c.moving && decide (c.run ≠ .moved) && !c.still

/-- Every task that moves with a part has stopped. -/
def State.moveReady (s : State) (p : PartRef) : Bool := !s.strands.any fun c => c.stillMoving p

/-- The end of a move: each task resumes where it stopped (R398). -/
def State.moveEnds (s : State) (p : PartRef) : State :=
  if s.module.moving.contains p && s.moveReady p then
    { s.mapStrands fun c => if c.movesWith p && decide (c.run = .moved) then { c with moving := false, run := .running } else c with
      module := { s.module with moving := s.module.moving.filter (· ≠ p) } }
  else s

/-- A core's record changed, made first where it has none. -/
def State.withCore (s : State) (core : BitVec 6) (f : CoreState → CoreState) : State :=
  { s with cores := (s.cores.filter fun k => k.core ≠ core) ++ [f ((s.core? core).getD (.reset core))] }

/-- The part lies on a core. -/
def onCore (core : BitVec 6) (p : PartRef) : Bool :=
  match p with
  | .strandCore w => w.core = core
  | .bank k _ => k = core
  | .core _ => false
  | .landingCore _ _ => false
  | .gddr _ => false
  | .lane _ _ => false

/-- The strand cores and banks of the spare core that takes over a number are its own: none of their spares is taken, no error
is counted against them, and none is absent (R396, Table 1-1). -/
def State.freshCore (s : State) (core : BitVec 6) : State :=
  let s1 := s.withCore core fun k => { k with lostStrands := [] }
  { s1 with module := { s1.module with
      taken := s1.module.taken.filter fun t => !((t.1 = 2 || t.1 = 5) && decide (t.2.1 = core.toNat))
      errors := s1.module.errors.filter fun e => !onCore core e.1 } }

/-- A spare takes over a part (R396). -/
def State.spareFor (s : State) (p : PartRef) : State :=
  match p with
  | .core n => (s.freshCore n).takeOver p
  | _ => s.takeOver p

/-- The tasks of a core stand still. -/
def State.stopCore (s : State) (core : BitVec 6) : State :=
  s.mapStrands fun c => if c.id.core = core && c.task.isSome then { c with run := .stopped, amo := none } else c

/-- A part without a spare leaves service (R17, R18): a core's partition ends as under Terminate, and the task of a strand
core ends its launch (log 29); a device-memory range is reached by no access from then on (log 49), and the queues of a
Landing core are served by those that remain (DESIGN CHOICE, log 29). R17 does not name a Larder bank among
what is removed: it stays in use, and only the report says that no spare is left (DESIGN CHOICE, log 29). -/
def State.removePart (s : State) (p : PartRef) : State :=
  match p with
  | .core n =>
    let s1 := (s.withCore n fun k => { k with absent := true }).stopCore n
    match s1.partOn n with
    | none => s1
    | some q => s1.terminate q.pid
  | .strandCore w =>
    let s1 := s.withCore w.core fun k => { k with lostStrands := k.lostStrands ++ [w.sid] }
    match s1.strands.find? fun c => c.id = w with
    | none => s1
    | some c => match c.task with
      | none => s1
      | some t => s1.endLaunch t.1 (some w) c.endEvent
  | .landingCore _ _ => s.markRemoved p
  | .gddr _ => s.markRemoved p
  | .bank _ _ => s
  | .lane _ _ => s

/-- A part that has met its trigger is retired (R396, R399). -/
def State.retirePart (s : State) (p : PartRef) : State :=
  match p with
  | .lane g i => s.retireLane g i
  | _ =>
    let (cls, scope, spares, index) := partClass p
    let used := s.module.takenOf cls scope
    let holder := s.partHolder p
    let s1 := { s with module := s.module.setErrors p 0 }
    if used < spares then
      let s2 := { s1 with module := s1.module.take cls scope }
      (s2.spareFor p).serviceReport 1 cls index (spares - used - 1) holder
    else (s1.removePart p).serviceReport 2 cls index 0 holder

/-- The part is gone from service already. -/
def State.partGone (s : State) (p : PartRef) : Bool :=
  s.module.removed.contains p || match partCore p with
    | none => false
    | some c => match s.core? c with
      | none => false
      | some k => k.absent || match p with
        | .strandCore w => k.lostStrands.contains w.sid
        | _ => false

/-- A corrected error counted, and the part retired once its trigger is met. The errors counted may lie more than 24 h
apart, and a lane's threshold is not given: where the count does not settle it, a free value does (log 30). -/
def State.correct (s : State) (p : PartRef) : State :=
  let n := s.module.errorsOf p + 1
  let s1 : State := { s with module := s.module.setErrors p n }
  let s2 := match partCore p with
    | none => s1
    | some c => s1.countOn c 0x0F 1
  let may := match p, partLimit p with
    | .lane _ _, _ => true
    | _, some k => decide (k < n)
    | _, none => false
  if may then
    let r := s2.takeFree
    if r.1.getLsbD 0 then r.2.retirePart p else r.2
  else s2

/-- CORRECTED_ERROR (R396, R401). -/
def execCorrectedError (p : PartRef) (s : State) : Out :=
  .next (if partExists p && !s.partGone p then s.correct p else s)

/-- UNCORRECTABLE_ERROR (R396): a Larder bank has no such trigger (Table 23-6). -/
def execUncorrectableError (p : PartRef) (s : State) : Out :=
  .next (if !partExists p || s.partGone p then s
    else match p with
      | .bank _ _ => s
      | _ => s.retirePart p)

/-- GDDR_COPY_DONE (R397): reads and writes gave the same values all along. -/
def execGddrCopyDone (dev : Nat) (s : State) : Out :=
  .next { s with module := { s.module with copying := s.module.copying.filter (· ≠ dev) } }

/-- PATROL_SCRUB (R401): it writes back only what a line holds. -/
def execPatrolScrub (s : State) : Out := .next s

end Sys2Proof.Machine
end

