-- ==== Sys2Proof/Machine/System.lean ====
section
/-! DEFINITION. Machine/System.lean: the SYS parcels of 18_traps, the ends of WAITEV's sleep and ILLEGAL_WORD (R72, R347 to
R358). -/

namespace Sys2Proof.Machine

/-! ### Traps, return and the scoreboard -/

/-- SYSCALL (R349). -/
def execSyscall (s : State) : Out := .next (s.trap .syscall 0)

/-- EBREAK (R349). -/
def execEbreak (s : State) : Out := .next (s.trap .ebreak 0)

/-- ILLEGAL_WORD (R72, R85): a word or parcel that matches no instruction; trval holds it. -/
def execIllegalWord (w : Word) (s : State) : Out := .next (s.trap .illegal w)

/-- TRAPRET (R348): PRIV at A level, ILLEGAL for a resume word that is not accepted; else the scoreboard is settled and the
strand returns. -/
def execTrapret (s : State) : Out :=
  if s.cur.level = .a then .next (s.decodeTrap .priv)
  else
    match resumeWord s.cur.trscratch with
    | none => .next (s.trap .illegal s.cur.trscratch)
    | some (lvl, slot, rk) =>
      let t := s.returnSettle
      if t.cur.boardOpen then .next t.stallHere else .next (t.trapReturn lvl slot rk)

/-- TRACK (R351). -/
def execTrack (s : State) : Out := .next (s.withCur { s.cur with trIn := false }).next4

/-- RESUME (R347): 0 settled, 1 no unsettled entry, 2 the replay failed again, 3 refused. -/
def execResume (o : ResumeOp) (s : State) : Out :=
  if s.cur.level = .a then .next (s.decodeTrap .priv)
  else
    let i := (s.getX o.a).toNat
    match s.cur.board[i]? with
    | none => .next (s.setX o.d 1).next4
    | some e =>
      if e.settled then .next (s.setX o.d 1).next4
      else
        match o.how with
        | .zero => .next ((s.zeroEntry i e).setX o.d 0).next4
        | .propagate => .next ((s.propagateEntry i e).setX o.d 0).next4
        | .replay =>
          match s.replayEntry i e with
          | (some r, t) => .next (t.setX o.d (BitVec.ofNat 64 r)).next4
          | (none, t) => .next t.stallHere

/-! ### YIELD and HALT (R352, R358) -/

/-- YIELD (R358): the gang is pre-empted where a PREEMPT of it is outstanding or a gang at the same or a higher effective
level waits; the supervisor context, or a strand with an unsettled entry (R356), goes on. -/
def execYield (s : State) : Out :=
  let t := s.next4
  match t.cur.task.bind fun x => t.launch? x.1 with
  | none => .next t
  | some l =>
    if l.sup || t.cur.unsettled then .next t
    else if t.gangAsked l.lid || t.gangWaits l.queue.part l.lid (fun n => decide (n ≤ t.levelOf l.queue)) then
      .next ((t.stopStrand.askGang l.lid).parkGang l.lid)
    else .next t

/-- The end of a task by HALT: commands left in halted queues are cancelled, the generation advances (R364), and the launch
counts it; selection is due (R102). A launch that has ended already loses one more of its tasks (R363). -/
def State.haltTask (s : State) : State :=
  let c := s.cur
  let s1 := s.withCur { c with
    run := .halted, gen := c.gen + 1, preempt := .none, moving := false
    queues := c.queues.map fun q => { q with entries := [] } }
  match c.task with
  | none => s1
  | some t =>
    if c.preempt = .ending then ((s1.withCur s1.cur.release).finishEnd t.1).selectDue c.part
    else (s1.mapLaunch t.1 fun l => { l with halted := l.halted + 1 }).selectDue c.part

/-- A command is one of some fences. -/
def QEntry.fenceOf (ids : List Nat) (e : QEntry) : Bool :=
  match e.cmd with
  | .fence id _ => ids.contains id
  | .copy _ _ _ _ _ => false
  | .gather _ => false
  | .scatter _ => false
  | .pload _ => false
  | .pstore _ => false
  | .spload _ => false
  | .signal _ _ _ _ => false

/-- HALT cancels the commands that halted queues of the task hold (R352); a fence among them is cancelled in every queue of its
set (R255; DEDUCED, log 55). -/
def Strand.cancelHalted (c : Strand) : Strand :=
  let ids := (c.queues.toList.filter (·.halted)).flatMap fun q => q.entries.filterMap fun e => match e.cmd with
    | .fence id _ => some id
    | _ => none
  { c with queues := c.queues.map fun q => { q with entries := if q.halted then [] else q.entries.filter fun e => !e.fenceOf ids } }

/-- HALT (R352): it cancels what halted queues hold, waits for the others, settles the scoreboard by propagate, and ends the
task; a gang that only waited for it has stopped. -/
def execHalt (s : State) : Out :=
  let s1 := s.withCur s.cur.cancelHalted
  if !s1.cur.commandsDone then .next (s1.withCur { s1.cur with run := .haltWait })
  else
    let t := s1.propagateAll.haltTask
    match s.cur.task with
    | none => .next t
    | some x => .next (t.parkGang x.1)

/-! ### WAITEV (R353) -/

/-- The places of a record's stores: each is checked before any is performed (R134), or the first that fails. -/
def State.recordPlaces (s : State) (va : Word) : List Nat → Except (Word × Fail) (List (Word × Xlat)) × State
  | [] => (.ok [], s)
  | i :: t =>
    let a := va + BitVec.ofNat 64 (8 * i)
    match s.access a 8 .store with
    | (.error f, s1) => (.error (a, f), s1)
    | (.ok x, s1) => match s1.recordPlaces va t with
      | (.ok xs, s2) => (.ok ((a, x) :: xs), s2)
      | (.error e, s2) => (.error e, s2)

/-- One word of a record stored. -/
def State.storeWord (s : State) (p : Word × Xlat) (v : Nat) : State :=
  (s.storeAt s.cur.via p.1.toNat p.2 8 v).noteWatch p.1.toNat 8 false true

/-- The four words of a record. -/
def recordWords (e : EventRec) (lost : Nat) : List Nat := [(e.word0 lost).toNat, e.a.toNat, e.b.toNat, e.c.toNat]

/-- The delivery of the oldest event to WAITEV's registers, if the queue holds one; a failed store removes nothing. -/
def State.deliverEvent (s : State) (d : XReg) (va : Word) : Option State :=
  match s.partition? s.cur.part with
  | none => none
  | some p =>
    match p.events with
    | [] => none
    | e :: rest =>
      match s.recordPlaces va [0, 1, 2, 3] with
      | (.error (a, f), s1) => some (s1.failed f a .store)
      | (.ok ps, s1) =>
        let s2 := s1.mapPart s.cur.part fun q => { q with events := rest, lost := 0 }
        let s3 := (ps.zip (recordWords e p.lost)).foldl (fun (t : State) w => t.storeWord w.1 w.2) s2
        some ((s3.withCur { s3.cur with run := .running }).setX d (e.kind.setWidth 64)).next4

/-- WAITEV (R353): it delivers an event, or with a timeout of 0 writes 0, or sleeps. -/
def execWaitev (o : RRR) (s : State) : Out :=
  if s.cur.level = .a then .next (s.decodeTrap .priv)
  else
    match s.deliverEvent o.d (s.getX o.b) with
    | some t => .next t
    | none =>
      if s.getX o.a = 0 then .next (s.setX o.d 0).next4
      else .next (s.withCur { s.cur with run := .waitev })

/-- WAITEV_WAKE (R353): an event wakes the sleeping strand. -/
def execWaitevWake (who : StrandId) (s : State) : Out :=
  .next (s.onStrand who fun t =>
    if t.cur.run ≠ .waitev then t
    else
      let u := t.withCur { t.cur with run := .running, note := none }
      match u.deliverEvent u.cur.parcelD (u.getX u.cur.parcelB) with
      | none => t
      | some v => if v.cur.note.isNone && decide (v.cur.run = .running) then v.retireParcel else v)

/-- WAITEV_TIMEOUT (R353): 0 to xd, nothing stored; an event that is present is delivered, and a timeout of all ones never
elapses. -/
def execWaitevTimeout (who : StrandId) (s : State) : Out :=
  .next (s.onStrand who fun t =>
    if t.cur.run ≠ .waitev ∨ t.getX t.cur.parcelA = BitVec.allOnes 64 then t
    else if ((t.partition? t.cur.part).map (·.events)).getD [] ≠ [] then t
    else (((t.withCur { t.cur with run := .running }).setX t.cur.parcelD 0).next4).retireParcel)

/-! ### INVTLB and CACHE (R354, R355) -/

/-- The ranges that INVTLB names: every one, or those that hold an address (R354). -/
def invtlbHits (va : Option Nat) (r : Nat × Nat) : Bool :=
  match va with
  | none => true
  | some a => decide (r.1 ≤ a) && decide (a < r.1 + r.2)

/-- INVTLB (R354): no access is under way when it executes (log 4). -/
def execInvtlb (o : InvtlbOp) (s : State) : Out :=
  if s.cur.level = .a then .next (s.decodeTrap .priv)
  else .next (s.dropTlb s.cur.part (invtlbHits (if o.all then none else some (s.getX o.a).toNat))).next4

/-- CACHE (R355): ops 0 to 2 change only timing, and every write is performed when op 3 executes (log 4). -/
def execCache (_ : CacheOp) (s : State) : Out := .next s.next4

end Sys2Proof.Machine
end

