-- ==== Sys2Proof/Machine/VectorConfig.lean ====
section
/-! DEFINITION. Machine/VectorConfig.lean: SETVL, SETVT, VCONFIG, SETVLF, MENTER, MEXIT and the loops (R173 to R177, R189 to
R191, R260). -/

namespace Sys2Proof.Machine

/-- The operands of SETVL. At lanegrant 0x00 it raises MODE as R111 says of it, though R31 has it grant 0 (log 51). -/
def setvlInfo (o : SetvlOp) (_ : Strand) : WordInfo := { klass := .standalone, xs := [o.a], xd := some o.d }
/-- The operands of SETVLF; at lanegrant 0x00 it raises MODE (R111, log 51). -/
def setvlfInfo (o : SetvlfOp) (_ : Strand) : WordInfo := { klass := .standalone, xs := [o.a, o.b], xd := some o.d }
/-- SETVT and VCONFIG execute without lane groups (R111) and belong to the owner (R112). -/
def configInfo (_ : Strand) : WordInfo := { klass := .standalone, lanes := false }

/-- SETVL (R174). -/
def execSetvl (o : SetvlOp) (s : State) : Out :=
  vecWord (setvlInfo o s.cur) s fun t =>
    let vl := min (t.getX o.a).toNat t.cur.vlmax
    ((t.withVec { t.cur.vec with vl := vl, vstart := 0 }).setX o.d (BitVec.ofNat 64 vl)).next8

/-- SETVT (R175): vl counts the same elements unless it must shrink. -/
def execSetvt (o : SetvtOp) (s : State) : Out :=
  vecWord (configInfo s.cur) s fun t =>
    let v1 : VecPart := { t.cur.vec with mz := o.mz, seg := o.s, tp := o.tp, ew := o.ew, vstart := 0 }
    let m := ({ t.cur with vec := v1 } : Strand).vlmax
    (t.withVec { v1 with vl := min t.cur.vec.vl m }).next8

/-- The count of registers of VCONFIG. -/
def vconfigCount (n : BitVec 2) : Nat := 8 * 2 ^ n.toNat

/-- VCONFIG (R176): nothing where vnreg keeps its value; masks keep their contents. -/
def execVconfig (o : VconfigOp) (s : State) : Out :=
  vecWord (configInfo s.cur) s fun t =>
    let n := vconfigCount o.n
    if n = t.cur.vec.vnreg then t.next8
    else (t.withVec { t.cur.vec.unbindAll with vnreg := n, vl := 0, vstart := 0, v := [] }).next8

/-- The bytes of SETVLF's string that are read (R177): one field per byte, with no alignment. -/
def setvlfPlan (a : Word) (vl : Nat) : VmPlan :=
  { acts := (List.range ((vl + 7) / 8)).map fun i => (i, [vmAddr ((a.toNat : Int) + i)])
    size := 1, align := 1, need := .load, prog := none, noHost := false }

/-- The vl and ms that SETVLF writes. -/
def State.setvlfWrite (s : State) (d : XReg) (vl : Nat) (ms : Mask) : State :=
  ((s.withVec { s.cur.vec with vl := vl, vstart := 0, ms := ms }).setX d (BitVec.ofNat 64 vl)).next8

/-- The failures of SETVLF's bytes in ascending address (R177). -/
def State.setvlfFaults (s : State) (tbl : List (Nat × Except Cause (Option Leaf))) (p : VmPlan) : List (Cause × Nat) :=
  (p.acts.filterMap fun e => (checkFields 1 e.2).or (s.elementFault tbl p e.2)).mergeSort fun a b => decide (a.2 ≤ b.2)

/-- SETVLF (R177). -/
def execSetvlf (o : SetvlfOp) (s : State) : Out :=
  vecWord (setvlfInfo o s.cur) s fun t =>
    let vl := min (t.getX o.a).toNat t.cur.vlmax
    if o.b = 0 ∨ vl = 0 then t.setvlfWrite o.d vl 0
    else
      let p := setvlfPlan (t.getX o.b) vl
      let q := { p with acts := p.acts.filter fun e => (checkFields 1 e.2).isNone }
      match t.sortPages (distinct (q.addresses.map fun a => granule a.1)) with
      | (tbl, s1) =>
        if s1.anyStall tbl q then s1.stallHere
        else if s1.setvlfFaults tbl p ≠ [] then
          let r := reported (s1.setvlfFaults tbl p)
          s1.takeTrap { s1.trapHere r.1 (BitVec.ofNat 64 r.2) with pages := q.pages tbl }
        else
          let es := s1.vmElems tbl p
          let bytes : List Nat := es.map fun e => match e.2.1 with
            | [] => 0
            | a :: _ => s1.readField tbl p 8 e.1 a
          let on := (List.range vl).filter fun i => decide (bytes.getD (i / 8) 0 / 2 ^ (i % 8) % 2 = 1)
          ((s1.touchElems tbl p es).watchElems p es).setvlfWrite o.d vl (setBits 0 on true)

/-! ### Matrix mode (R260) -/

/-- MENTER is legal in vector mode with vnreg 64 alone (R260). -/
def menterInfo (c : Strand) : WordInfo :=
  { klass := .standalone, mode := if c.vec.vnreg = 64 then .vector else .never }

/-- MEXIT is legal in matrix mode alone. -/
def mexitInfo (_ : Strand) : WordInfo := { klass := .standalone, mode := .matrix }

/-- Streams bound to registers 32 upward unbound (Table 14-1). -/
def VecPart.unbindHigh (v : VecPart) : VecPart :=
  { v with streams := v.streams.map fun t => match t.bound with
      | none => t
      | some r => if 32 ≤ r.toNat then t.unbind else t }

/-- MENTER (R260): MODE unless mmode is 0 and vnreg 64. -/
def execMenter (s : State) : Out :=
  vecWord (menterInfo s.cur) s fun t =>
    let c := t.cur
    (t.withCur { c with
      usedLarder := true
      vec := { c.vec.unbindHigh with
        mmode := true, vl := 128, vstart := 0, ew := .e64, tp := false, seg := false, mz := false
        v := clearBytes c.vec.v (32 * c.regBytes) (64 * c.regBytes), entered := true } }).next8

/-- MEXIT (R260). -/
def execMexit (s : State) : Out :=
  vecWord (mexitInfo s.cur) s fun t =>
    let c := t.cur
    (t.withVec { c.vec with
      mmode := false, vl := 0, vstart := 0, v := clearBytes c.vec.v (32 * c.regBytes) (64 * c.regBytes) }).next8

/-! ### Loops (R189, R190) -/

/-- A VLOOP word changes masks and scalar registers; its convoy class is standalone. -/
def loopInfo (o : LoopOp) (_ : Strand) : WordInfo :=
  { klass := .standalone, ms := [o.m], xs := [o.rem, o.idx], md := if o.m = 0 then none else some o.m }

/-- VWHILE (R190) at vl > 0. -/
def State.vwhile (s : State) (o : LoopOp) : State :=
  let vl := s.cur.vec.vl
  let a := (s.getX o.rem).toNat
  let step := min vl a
  let rest := a - step
  let s1 := (s.setX o.idx (s.getX o.idx + BitVec.ofNat 64 step)).setX o.rem (BitVec.ofNat 64 rest)
  if rest = 0 then s1.next8
  else
    let s2 := if o.m = 0 then s1 else s1.withVec (s1.cur.vec.setMask o.m (setBits 0 (List.range (min rest vl)) true))
    s2.setPc (s.cur.pc + (sext20 o.off <<< 3))

/-- VWHILE (R190). -/
def execVwhile (o : LoopOp) (s : State) : Out :=
  vecWord (loopInfo o s.cur) s fun t => if t.cur.vec.vl = 0 then t.next8 else t.vwhile o

/-- VWHILEM (R190): at the first set bit below vl it falls through, else it is VWHILE. -/
def execVwhilem (o : LoopOp) (s : State) : Out :=
  vecWord (loopInfo o s.cur) s fun t =>
    let vl := t.cur.vec.vl
    if vl = 0 then t.next8
    else
      match (List.range vl).find? fun i => t.cur.maskBit o.m i with
      | none => t.vwhile o
      | some f =>
        let a := (t.getX o.rem).toNat
        ((t.setX o.idx (t.getX o.idx + BitVec.ofNat 64 f)).setX o.rem (BitVec.ofNat 64 (a - min f a))).next8

end Sys2Proof.Machine
end

