-- ==== Sys2Proof/Machine/VectorMask.lean ====
section
/-! DEFINITION. Machine/VectorMask.lean: the mask words VMASK and the permutes VPERM (R183 to R188). -/

namespace Sys2Proof.Machine

/-! ### Mask words (R183 to R186) -/

/-- A bit of a mask source; m0 reads all ones. -/
def State.bitOf (s : State) (m : MReg) (e : Nat) : Bool := s.cur.maskBit m e

/-- The operands of a mask word on two masks. -/
def maskOp2Info (o : MaskOp2) (_ : Strand) : WordInfo := { ms := [o.m, o.a, o.b], md := some o.d }
/-- The operands of a mask word on one mask. -/
def maskOp1Info (o : MaskOp1) (_ : Strand) : WordInfo := { ms := [o.m, o.a], md := some o.d }
/-- The operands of MCNT and MLOW. -/
def maskToXInfo (o : MaskToX) (_ : Strand) : WordInfo := { ms := [o.m, o.a], xd := some o.d }
/-- The operands of MCUM. -/
def mcumInfo (o : MaskToV) (c : Strand) : WordInfo := { dsts := [c.use o.d o.ew.bits], ms := [o.m, o.a] }
/-- The operands of VSEQ. -/
def vseqInfo (o : SeqOp) (c : Strand) : WordInfo := { dsts := [c.use o.d o.ew.bits], mode := .either, ms := [o.m] }
/-- The operands of VCONFL. -/
def vconflInfo (o : VV1) (c : Strand) : WordInfo :=
  { srcs := [c.use o.a o.ew.bits], dsts := [c.use o.d o.ew.bits], ms := [o.m] }
/-- The operands of MMOVF. -/
def mmovfInfo (o : MmovfOp) (_ : Strand) : WordInfo := { ms := [o.m], md := some o.d }

/-- A bitwise mask word (R183). -/
def maskBits2 (o : MaskOp2) (s : State) (f : Bool → Bool → Bool) : Out :=
  vecWord (maskOp2Info o s.cur) s fun t => (t.elementWiseMask o.d o.m fun e => f (t.bitOf o.a e) (t.bitOf o.b e)).next8

/-- MAND (R183). -/
def execMand (o : MaskOp2) (s : State) : Out := maskBits2 o s fun a b => a && b
/-- MOR (R183). -/
def execMor (o : MaskOp2) (s : State) : Out := maskBits2 o s fun a b => a || b
/-- MXOR (R183). -/
def execMxor (o : MaskOp2) (s : State) : Out := maskBits2 o s fun a b => a != b
/-- MANDN (R183). -/
def execMandn (o : MaskOp2) (s : State) : Out := maskBits2 o s fun a b => a && !b
/-- MNOT (R183). -/
def execMnot (o : MaskOp1) (s : State) : Out :=
  vecWord (maskOp1Info o s.cur) s fun t => (t.elementWiseMask o.d o.m fun e => !t.bitOf o.a e).next8

/-- The active elements whose source bit is set, vstart ignored (R184). -/
def State.setActives (s : State) (m a : MReg) : List Nat := (s.cur.activesFrom0 m).filter fun e => s.bitOf a e

/-- MORX (R184). -/
def execMorx (o : MaskOp1) (s : State) : Out :=
  vecWord (maskOp1Info o s.cur) s fun t =>
    let on := t.setActives o.m o.a
    (t.acrossMask o.d o.m fun e => on.any fun j => decide (j < e)).next8

/-- MORI (R184). -/
def execMori (o : MaskOp1) (s : State) : Out :=
  vecWord (maskOp1Info o s.cur) s fun t =>
    let on := t.setActives o.m o.a
    (t.acrossMask o.d o.m fun e => on.any fun j => decide (j ≤ e)).next8

/-- MCNT (R184): 0 at vl = 0 (R168). -/
def execMcnt (o : MaskToX) (s : State) : Out :=
  vecWord (maskToXInfo o s.cur) s fun t =>
    (t.vstart0.setX o.d (BitVec.ofNat 64 (t.setActives o.m o.a).length)).next8

/-- MLOW (R184): all ones where no active bit is set, at vl = 0 too (R168). -/
def execMlow (o : MaskToX) (s : State) : Out :=
  vecWord (maskToXInfo o s.cur) s fun t =>
    let v : Word := match (t.setActives o.m o.a).head? with
      | some e => BitVec.ofNat 64 e
      | none => 0xFFFFFFFFFFFFFFFF#64
    (t.vstart0.setX o.d v).next8

/-- MCUM (R184). -/
def execMcum (o : MaskToV) (s : State) : Out :=
  vecWord (mcumInfo o s.cur) s fun t =>
    let on := t.setActives o.m o.a
    (t.acrossElements o.d o.ew.bits o.m fun e => (on.filter fun j => decide (j ≤ e)).length % 2 ^ o.ew.bits).next8

/-- VSEQ (R184): in matrix mode the element number of R264. -/
def execVseq (o : SeqOp) (s : State) : Out :=
  vecWord (vseqInfo o s.cur) s fun t => (t.acrossElements o.d o.ew.bits o.m fun e => e % 2 ^ o.ew.bits).next8

/-- VCONFL (R185). -/
def execVconfl (o : VV1) (s : State) : Out :=
  vecWord (vconflInfo o s.cur) s fun t =>
    let n := o.ew.bits
    let acts := t.cur.activesFrom0 o.m
    (t.acrossElements o.d n o.m fun e =>
      min (acts.filter fun j => decide (j < e) && decide (t.cur.elem o.a n j = t.cur.elem o.a n e)).length (2 ^ n - 1)).next8

/-- MMOVF (R186). -/
def execMmovf (o : MmovfOp) (s : State) : Out :=
  vecWord (mmovfInfo o s.cur) s fun t =>
    let src := if o.seg then t.cur.vec.ms else t.cur.vec.mf
    (t.acrossMask o.d o.m fun e => src.getLsbD e).next8

/-! ### Permutes (R187, R188) -/

/-- The operands of a slide. -/
def slideInfo (up : Bool) (o : VS) (c : Strand) : WordInfo :=
  let d := c.use o.d o.ew.bits
  let a := c.use o.a o.ew.bits
  { srcs := [a], dsts := [d], clash := up && d.meets a, ms := [o.m], xs := [o.x], perm := true }
/-- The operands of VPERMV. -/
def vpermvInfo (o : VV) (c : Strand) : WordInfo :=
  let d := c.use o.d o.ew.bits
  let a := c.use o.a o.ew.bits
  let b := c.use o.b o.ew.bits
  { srcs := [a, b], dsts := [d], clash := d.meets a || d.meets b, ms := [o.m], perm := true }
/-- The operands of VCOMPRESS. -/
def vcompressInfo (o : CompressOp) (c : Strand) : WordInfo :=
  let d := c.use o.d o.ew.bits
  let a := c.use o.a o.ew.bits
  { srcs := [a], dsts := [d], clash := d.meets a, ms := [o.m], perm := true }
/-- The operands of VMVXS. -/
def vmvxsInfo (o : VToX) (c : Strand) : WordInfo := { srcs := [c.use o.a o.ew.bits], xd := some o.d, perm := true }
/-- The operands of VMVSX. -/
def vmvsxInfo (o : XToV) (c : Strand) : WordInfo := { dsts := [c.use o.d o.ew.bits], xs := [o.x], perm := true }
/-- The operands of VBCAST. -/
def vbcastInfo (o : VS1) (c : Strand) : WordInfo :=
  { dsts := [c.use o.d o.ew.bits], mode := .either, ms := [o.m], xs := [o.x], perm := true }

/-- VSLIDEUP (R188): the active elements below the offset keep their values. -/
def execVslideup (o : VS) (s : State) : Out :=
  vecWord (slideInfo true o s.cur) s fun t =>
    let n := o.ew.bits
    let off := (t.getX o.x).toNat
    if t.cur.vec.vl = 0 then t.vstart0.next8
    else
      let acts := (t.cur.activesFrom0 o.m).filter fun e => decide (off ≤ e)
      (t.writeVec o.d n (acts.map fun e => (e, t.cur.elem o.a n (e - off))) (t.cur.maskedOff0 o.m)).next8

/-- VSLIDEDN (R188). -/
def execVslidedn (o : VS) (s : State) : Out :=
  vecWord (slideInfo false o s.cur) s fun t =>
    let n := o.ew.bits
    let off := (t.getX o.x).toNat
    (t.acrossElements o.d n o.m fun e => if e + off < t.cur.vlmax then t.cur.elem o.a n (e + off) else 0).next8

/-- VPERMV (R188). -/
def execVpermv (o : VV) (s : State) : Out :=
  vecWord (vpermvInfo o s.cur) s fun t =>
    let n := o.ew.bits
    (t.acrossElements o.d n o.m fun e =>
      let k := t.cur.elem o.b n e
      if k < t.cur.vlmax then t.cur.elem o.a n k else 0).next8

/-- VCOMPRESS (R188): the elements from the count on follow the tail policy. -/
def execVcompress (o : CompressOp) (s : State) : Out :=
  vecWord (vcompressInfo o s.cur) s fun t =>
    let n := o.ew.bits
    let c := t.cur
    if c.vec.vl = 0 then t.vstart0.next8
    else
      let xs := (c.body.filter fun e => c.maskBit o.m e).map fun e => c.elem o.a n e
      let v1 := c.fillStrip c.vec.v o.d n 0 xs
      let v2 := if c.vec.tp then ({ c with vec := { c.vec with vl := xs.length } } : Strand).zeroTail v1 o.d n (c.groupSize n)
        else v1
      ((t.withVec { c.vec with v := v2, vstart := 0 }).notePush (c.use o.d n) (List.range xs.length)).next8

/-- VMVXS (R188): element 0, whatever vstart is. -/
def execVmvxs (o : VToX) (s : State) : Out :=
  vecWord (vmvxsInfo o s.cur) s fun t =>
    let n := o.ew.bits
    let t1 := t.vstart0
    (if 0 < t.cur.vec.vl then t1.setX o.d (sextN n (t.cur.elem o.a n 0)) else t1).next8

/-- VMVSX (R188): the other elements keep their values. -/
def execVmvsx (o : XToV) (s : State) : Out :=
  vecWord (vmvsxInfo o s.cur) s fun t =>
    let n := o.ew.bits
    let c := t.cur
    if c.vec.vl = 0 then t.vstart0.next8
    else
      let v := c.putElem c.vec.v o.d n 0 ((t.getX o.x).toNat % 2 ^ n)
      ((t.withVec { c.vec with v := v, vstart := 0 }).notePush (c.use o.d n) [0]).next8

/-- VBCAST (R188). -/
def execVbcast (o : VS1) (s : State) : Out :=
  vecWord (vbcastInfo o s.cur) s fun t =>
    (t.acrossElements o.d o.ew.bits o.m fun _ => (t.getX o.x).toNat % 2 ^ o.ew.bits).next8

end Sys2Proof.Machine
end

