-- ==== Sys2Proof/Machine/VectorSave.lean ====
section
/-! DEFINITION. Machine/VectorSave.lean: VSAVE and VRESTORE (R360 to R362, Table 18-10). -/

namespace Sys2Proof.Machine

/-- VSAVE and VRESTORE: legal in either mode. -/
def vsaveInfo (a : XReg) (_ : Strand) : WordInfo := { klass := .standalone, mode := .either, xs := [a] }

/-! ### The layout of the image (Table 18-10) -/

/-- VLMAXB: min(65,536, g × b). -/
def Strand.vlmaxb (c : Strand) : Nat := min 65536 c.regBits

/-- X: the end of the registers rounded up to 4 KiB. -/
def Strand.regsEnd (c : Strand) : Nat := (0x6000 + c.vec.vnreg * (c.vlmaxb / 8) + 4095) / 4096 * 4096

/-- The bytes of a slice block. -/
def sliceBytes : Nat := 1311744

/-- The bytes of an image with or without slices (DEDUCED: X where T = 0). -/
def Strand.imageSize (c : Strand) (slices : Bool) : Nat := c.regsEnd + if slices then sliceBytes * c.lanes else 0

/-- Word 0: VER, T, G and VLMAXB. -/
def Strand.imageHead (c : Strand) : Nat :=
  1 + (if c.vec.entered then 256 else 0) + c.lanegrant.toNat * 512 + c.vlmaxb * 2 ^ 32

/-- A tile of the strand is of the BF16 kind. -/
def Strand.tileKind (c : Strand) (acc : BitVec 1) : Bool :=
  match c.vec.slices.head? with
  | none => false
  | some sl => (sl.tile acc).bf16

/-- Word 1: VNREG, K0 and K1. -/
def Strand.imageKinds (c : Strand) : Nat :=
  c.vec.vnreg + (if c.tileKind 0 then 128 else 0) + (if c.tileKind 1 then 256 else 0)

/-- The words of the CSRs from 0x40. -/
def Strand.imageCsrs (c : Strand) : List Nat :=
  [c.vec.vl, c.vec.vstart, c.vec.vtype, vrmCode c.vec.vrm, c.vec.vsat.toNat, c.vec.planebase.toNat * 65536, c.vec.mmode.toNat]

/-- The words of a stream: its pattern block, status word and bound register. -/
def streamWords (t : Stream) : List Nat :=
  ((List.range 8).map fun i => ((t.pattern[i]?).getD 0).toNat) ++
    [t.status.toNat, match t.bound with
      | none => 0
      | some r => r.toNat]

/-- The words of a mask. -/
def maskWords (m : Mask) : List Nat := (List.range 256).map fun i => m.toNat / 2 ^ (64 * i) % 2 ^ 64

/-- The mask q of the image: m1 to m7, mf, ms. -/
def VecPart.maskAt (v : VecPart) (q : Nat) : Mask :=
  match q with
  | 7 => v.mf
  | 8 => v.ms
  | _ => (v.m[q]?).getD 0

/-- The words of a register. -/
def Strand.regWords (c : Strand) (n : Nat) : List Nat :=
  (List.range (c.vlmaxb / 64)).map fun i => Memory.readLE c.vec.v (n * c.regBytes + 8 * i) 8

/-- The words of a tile: raw parts 0 to 4 of every cell. -/
def Slice.tileWords (sl : Slice) (acc : BitVec 1) : List Nat :=
  (List.range tileCells).flatMap fun k => (List.range 5).map fun p => sl.raw acc p (k / 128) (k % 128)

/-- The words of a slice block: both tiles, then raw part 5. -/
def Slice.words (sl : Slice) : List Nat :=
  sl.tileWords 0 ++ sl.tileWords 1 ++ (List.range 128).map fun c => sl.raw 0 5 0 c

/-- Words with their offsets from a start. -/
def placed (off : Nat) (ws : List Nat) : List (Nat × Nat) := ws.zipIdx.map fun w => (off + 8 * w.2, w.1)

/-- Every word that VSAVE stores, with its offset. -/
def Strand.image (c : Strand) : List (Nat × Nat) :=
  placed 0 [c.imageHead, c.imageKinds, c.vowner.toNat, c.imageSize c.vec.entered] ++ placed 0x40 c.imageCsrs ++
    ((List.range 8).flatMap fun i => placed (0x100 + 128 * i) (streamWords (c.stream (BitVec.ofNat 3 i)))) ++
    ((List.range 9).flatMap fun q => placed (0x1000 + 2048 * q) (maskWords (c.vec.maskAt q))) ++
    ((List.range c.vec.vnreg).flatMap fun n => placed (0x6000 + n * (c.vlmaxb / 8)) (c.regWords n)) ++
    if c.vec.entered then
      c.vec.slices.zipIdx.flatMap fun sl => placed (c.regsEnd + sliceBytes * sl.2) sl.1.words
    else []

/-! ### The checks (R360) -/

/-- The plan of an image: its extent, one address a granule. -/
def imagePlan (va len : Nat) (need : Need) : VmPlan :=
  { acts := [(0, va :: (List.range ((va % 65536 + len + 65535) / 65536 - 1)).map fun i => granule va + 65536 * (i + 1))]
    size := 1, align := 1, need := need, prog := none, noHost := false }

/-- The translations of an image's granules. -/
abbrev ImageTable := List (Nat × Except Cause (Option Leaf))

/-- ALIGN of the image address, then the translation of every granule of an image of at most `most` bytes, whose length `len`
may depend on its header; a failure traps with RK 0, and PAGE lists every faulting granule (R360). -/
def State.withImage (s : State) (xa : Word) (most : Nat) (len : State → ImageTable → Nat) (need : Need)
    (f : State → ImageTable → State) : State :=
  if xa.toNat % 4096 ≠ 0 then s.trap .align xa
  else if 2 ^ 56 ≤ xa.toNat then s.trap .access xa
  else
    match s.sortPages (distinct ((imagePlan xa.toNat most need).addresses.map fun a => granule a.1)) with
    | (tbl, s1) =>
      let n := len s1 tbl
      let p := imagePlan xa.toNat n need
      if 2 ^ 56 < xa.toNat + n then s1.trap .access (BitVec.ofNat 64 (2 ^ 56))
      else if s1.anyStall tbl p then s1.stallHere
      else
        let fs := p.addresses.filterMap fun a => match s1.byGranule tbl a.2 a.1 with
          | .error (.trap c) => some (c, a.1)
          | .error .stall => none
          | .ok _ => none
        if fs ≠ [] then
          let r := reported fs
          let pages := (p.pages tbl).filter fun g => p.addresses.any fun a => granule a.1 = g.1
          s1.takeTrap { s1.trapHere r.1 (BitVec.ofNat 64 r.2) with pages := pages }
        else f s1 tbl

/-! ### VSAVE (R361) -/

/-- One word of an image stored. -/
def State.imageStore (s : State) (tbl : ImageTable) (va v : Nat) : State :=
  match s.byGranule tbl .store va with
  | .error _ => s
  | .ok x => (s.storeAt s.cur.via va x 8 v).noteWatch va 8 false true

/-- VSAVE (R361): the words of Table 18-10 with plain stores; no register and no CSR changes. -/
def execVsave (a : XReg) (s : State) : Out :=
  vecWord (vsaveInfo a s.cur) s fun t =>
    let xa := t.getX a
    let n := t.cur.imageSize t.cur.vec.entered
    t.withImage xa n (fun _ _ => n) .store fun t1 tbl =>
      (t1.cur.image.foldl (fun (u : State) w => u.imageStore tbl (xa.toNat + w.1) w.2) t1).next8

/-! ### VRESTORE (R362) -/

/-- A word of an image. -/
def State.imageWord (s : State) (tbl : ImageTable) (va : Nat) : Nat :=
  match s.byGranule tbl .load va with
  | .error _ => 0
  | .ok x => s.readPlace x.place 8

/-- The image is one this strand can take (R362). -/
def Strand.imageFits (c : Strand) (w0 w1 : Nat) : Bool :=
  decide (w0 % 256 = 1) && decide (w0 / 2 ^ 32 = c.vlmaxb) && decide (w1 % 128 = c.vec.vnreg) &&
    (w0 / 256 % 2 = 0 || decide (laneCount (BitVec.ofNat 8 (w0 / 512)) = c.lanes))

/-- The stream an image holds; elements fetched ahead are fetched again. -/
def streamOf (rd : Nat → Nat) (off : Nat) : Stream :=
  let st := rd (off + 64)
  { cfg := decide (st / 4 % 2 = 1), pattern := (List.range 8).map fun i => BitVec.ofNat 64 (rd (off + 8 * i))
    bound := if st / 8 % 2 = 1 then some (BitVec.ofNat 6 (rd (off + 72))) else none
    write := decide (st / 16 % 2 = 1), pos := st / 65536, fcode := BitVec.ofNat 8 (st / 256)
    ovr := decide (st / 64 % 2 = 1), exh := decide (st / 32 % 2 = 1), fetched := [], stop := none, leaves := [] }

/-- The mask an image holds at an offset. -/
def maskOf (rd : Nat → Nat) (off : Nat) : Mask :=
  BitVec.ofNat 16384 ((List.range 256).foldr (fun i a => rd (off + 8 * i) + 2 ^ 64 * a) 0)

/-- The tile an image holds at an offset. -/
def tileOf (rd : Nat → Nat) (off : Nat) (bf : Bool) : Tile :=
  let part := fun k p => BitVec.ofNat 64 (rd (off + 40 * k + 8 * p))
  if bf then
    { bf16 := true, cells := [], sums := [], flt := SMap.tabulate 0#32 tileCells fun k => (part k 0).setWidth 32 }
  else
    { bf16 := false
      cells := SMap.tabulate Cell.reset tileCells fun k =>
        ((Cell.reset.put 0 (part k 0)).put 1 (part k 1)).put 2 (part k 2)
      sums := SMap.tabulate GSum.reset tileCells fun k => (GSum.reset.put 3 (part k 3)).put 4 (part k 4), flt := [] }

/-- The slice an image holds at an offset. -/
def sliceOf (rd : Nat → Nat) (off : Nat) (k0 k1 : Bool) : Slice :=
  let s0 : Slice := { Slice.reset with acc0 := tileOf rd off k0, acc1 := tileOf rd (off + 655360) k1 }
  (List.range 128).foldl (fun sl c => sl.putRegs c (BitVec.ofNat 64 (rd (off + 1310720 + 8 * c)))) s0

/-- The vector part an image holds, for a strand it fits (R362). A value that a field cannot hold leaves that field as it
is (R113). -/
def Strand.restored (c : Strand) (rd : Nat → Nat) : VecPart :=
  let v := c.vec
  let ty := rd 0x50
  let t := decide (rd 0 / 256 % 2 = 1)
  let v1 : VecPart := { v with
    mz := decide (ty / 64 % 2 = 1), virt := decide (ty / 32 % 2 = 1), seg := decide (ty / 16 % 2 = 1)
    tp := decide (ty / 8 % 2 = 1), ew := (ewOf (ty % 8)).getD v.ew
    mmode := if v.vnreg = 64 then decide (rd 0x70 % 2 = 1) else v.mmode
    vrm := (vrmOf (rd 0x58 % 8)).getD v.vrm, vsat := decide (rd 0x60 % 2 = 1)
    planebase := if rd 0x68 / 65536 % 4096 ≤ 0xBF0 then BitVec.ofNat 12 (rd 0x68 / 65536) else v.planebase }
  let c1 : Strand := { c with vec := v1 }
  let lim := c1.vlmax
  { v1 with
    vl := if rd 0x40 ≤ lim then rd 0x40 else min v.vl lim
    vstart := if rd 0x48 < max 1 lim then rd 0x48 else min v.vstart (lim - 1)
    streams := Vector.ofFn fun i : Fin 8 => streamOf rd (0x100 + 128 * i.val)
    m := Vector.ofFn fun i : Fin 7 => maskOf rd (0x1000 + 2048 * i.val)
    mf := maskOf rd 0x4800, ms := maskOf rd 0x5000
    v := (List.range v.vnreg).foldl (fun b n =>
      (List.range (c.vlmaxb / 64)).foldl (fun b i =>
        Memory.writeLE b (n * c1.regBytes + 8 * i) 8 (rd (0x6000 + n * (c.vlmaxb / 8) + 8 * i))) b)
      (if v1.virt = v.virt then v.v else [])
    slices := (List.range c.lanes).map fun j =>
      if t then sliceOf rd (c.regsEnd + sliceBytes * j) (decide (rd 8 / 128 % 2 = 1)) (decide (rd 8 / 256 % 2 = 1))
      else .reset
    entered := v.entered || t }

/-- A and D of an image's granules (R222), and its watch match. -/
def State.imageRead (s : State) (tbl : ImageTable) (va len : Nat) : State :=
  let p := imagePlan va len .load
  (s.touchElems tbl p [(0, p.acts.flatMap (·.2), none)]).noteWatch va len true false

/-- The length of the image at an address: T of its header tells whether it holds slices; an image whose header is not reached
counts as one without (DESIGN CHOICE, log 43). -/
def State.imageLen (s : State) (xa : Nat) (tbl : ImageTable) : Nat :=
  s.cur.imageSize (decide (s.imageWord tbl xa / 256 % 2 = 1))

/-- VRESTORE (R362): VIMAGE for an image that does not fit, else everything Table 18-10 holds but vowner; it writes planebase, and
so the task has used the Larder (R215). -/
def execVrestore (a : XReg) (s : State) : Out :=
  vecWord (vsaveInfo a s.cur) s fun t =>
    let xa := t.getX a
    t.withImage xa (t.cur.imageSize true) (fun u tbl => u.imageLen xa.toNat tbl) .load fun t1 tbl =>
      let rd := fun off => t1.imageWord tbl (xa.toNat + off)
      if t1.cur.imageFits (rd 0) (rd 8) then
        let v := t1.cur.restored rd
        let t2 := t1.imageRead tbl xa.toNat (t1.imageLen xa.toNat tbl)
        ((t2.withCur { t2.cur with usedLarder := true }).withVec v).next8
      else t1.trap .vimage xa

end Sys2Proof.Machine
end

