-- ==== Sys2Proof/Machine/Dispatch.lean ====
section
/-! DEFINITION. Machine/Dispatch.lean: one arm per constructor of `Instr`. -/

namespace Sys2Proof.Machine

/-- The meaning of an instruction, packet or event. -/
def exec (i : Instr) (s : State) : Host.Outcome State Fault Refusal :=
  match i with
  | .add o => Sys2Proof.Machine.execAdd o s
  | .sub o => Sys2Proof.Machine.execSub o s
  | .and o => Sys2Proof.Machine.execAnd o s
  | .or o => Sys2Proof.Machine.execOr o s
  | .xor o => Sys2Proof.Machine.execXor o s
  | .andn o => Sys2Proof.Machine.execAndn o s
  | .shl o => Sys2Proof.Machine.execShl o s
  | .shr o => Sys2Proof.Machine.execShr o s
  | .sha o => Sys2Proof.Machine.execSha o s
  | .min o => Sys2Proof.Machine.execMin o s
  | .max o => Sys2Proof.Machine.execMax o s
  | .minn o => Sys2Proof.Machine.execMinn o s
  | .maxn o => Sys2Proof.Machine.execMaxn o s
  | .slt o => Sys2Proof.Machine.execSlt o s
  | .sltn o => Sys2Proof.Machine.execSltn o s
  | .mul o => Sys2Proof.Machine.execMul o s
  | .mulh o => Sys2Proof.Machine.execMulh o s
  | .mulhn o => Sys2Proof.Machine.execMulhn o s
  | .div o => Sys2Proof.Machine.execDiv o s
  | .divn o => Sys2Proof.Machine.execDivn o s
  | .rem o => Sys2Proof.Machine.execRem o s
  | .remn o => Sys2Proof.Machine.execRemn o s
  | .clz o => Sys2Proof.Machine.execClz o s
  | .ctz o => Sys2Proof.Machine.execCtz o s
  | .popc o => Sys2Proof.Machine.execPopc o s
  | .addi o => Sys2Proof.Machine.execAddi o s
  | .andi o => Sys2Proof.Machine.execAndi o s
  | .ori o => Sys2Proof.Machine.execOri o s
  | .xori o => Sys2Proof.Machine.execXori o s
  | .slti o => Sys2Proof.Machine.execSlti o s
  | .sltni o => Sys2Proof.Machine.execSltni o s
  | .shli o => Sys2Proof.Machine.execShli o s
  | .shri o => Sys2Proof.Machine.execShri o s
  | .shai o => Sys2Proof.Machine.execShai o s
  | .lui o => Sys2Proof.Machine.execLui o s
  | .adpc o => Sys2Proof.Machine.execAdpc o s
  | .ld8 o => Sys2Proof.Machine.execLd8 o s
  | .ld16 o => Sys2Proof.Machine.execLd16 o s
  | .ld32 o => Sys2Proof.Machine.execLd32 o s
  | .ld64 o => Sys2Proof.Machine.execLd64 o s
  | .ldn8 o => Sys2Proof.Machine.execLdn8 o s
  | .ldn16 o => Sys2Proof.Machine.execLdn16 o s
  | .ldn32 o => Sys2Proof.Machine.execLdn32 o s
  | .st8 o => Sys2Proof.Machine.execSt8 o s
  | .st16 o => Sys2Proof.Machine.execSt16 o s
  | .st32 o => Sys2Proof.Machine.execSt32 o s
  | .st64 o => Sys2Proof.Machine.execSt64 o s
  | .amoAdd o => Sys2Proof.Machine.execAmoAdd o s
  | .amoSwap o => Sys2Proof.Machine.execAmoSwap o s
  | .amoAnd o => Sys2Proof.Machine.execAmoAnd o s
  | .amoOr o => Sys2Proof.Machine.execAmoOr o s
  | .amoXor o => Sys2Proof.Machine.execAmoXor o s
  | .amoMin o => Sys2Proof.Machine.execAmoMin o s
  | .amoMax o => Sys2Proof.Machine.execAmoMax o s
  | .amoMinn o => Sys2Proof.Machine.execAmoMinn o s
  | .amoMaxn o => Sys2Proof.Machine.execAmoMaxn o s
  | .amoCas o => Sys2Proof.Machine.execAmoCas o s
  | .claim o => Sys2Proof.Machine.execClaim o s
  | .beq o => Sys2Proof.Machine.execBeq o s
  | .bne o => Sys2Proof.Machine.execBne o s
  | .blt o => Sys2Proof.Machine.execBlt o s
  | .bge o => Sys2Proof.Machine.execBge o s
  | .bltn o => Sys2Proof.Machine.execBltn o s
  | .bgen o => Sys2Proof.Machine.execBgen o s
  | .jal o => Sys2Proof.Machine.execJal o s
  | .jalr o => Sys2Proof.Machine.execJalr o s
  | .fadd o => Sys2Proof.Machine.execFadd o s
  | .fsub o => Sys2Proof.Machine.execFsub o s
  | .fmul o => Sys2Proof.Machine.execFmul o s
  | .fdiv o => Sys2Proof.Machine.execFdiv o s
  | .fsqrt o => Sys2Proof.Machine.execFsqrt o s
  | .fmin o => Sys2Proof.Machine.execFmin o s
  | .fmax o => Sys2Proof.Machine.execFmax o s
  | .feq o => Sys2Proof.Machine.execFeq o s
  | .flt o => Sys2Proof.Machine.execFlt o s
  | .fle o => Sys2Proof.Machine.execFle o s
  | .fclass o => Sys2Proof.Machine.execFclass o s
  | .fsgnj o => Sys2Proof.Machine.execFsgnj o s
  | .fsgnjn o => Sys2Proof.Machine.execFsgnjn o s
  | .fcvtfi o => Sys2Proof.Machine.execFcvtfi o s
  | .fcvtif o => Sys2Proof.Machine.execFcvtif o s
  | .fcvtff o => Sys2Proof.Machine.execFcvtff o s
  | .fma o => Sys2Proof.Machine.execFma o s
  | .fms o => Sys2Proof.Machine.execFms o s
  | .fnma o => Sys2Proof.Machine.execFnma o s
  | .fnms o => Sys2Proof.Machine.execFnms o s
  | .csrget o => Sys2Proof.Machine.execCsrget o s
  | .csrput o => Sys2Proof.Machine.execCsrput o s
  | .csrswap o => Sys2Proof.Machine.execCsrswap o s
  | .csrset o => Sys2Proof.Machine.execCsrset o s
  | .csrclr o => Sys2Proof.Machine.execCsrclr o s
  | .lanegrantWrite v => Sys2Proof.Machine.execLanegrantWrite v s
  | .ctxidWrite v => Sys2Proof.Machine.execCtxidWrite v s
  | .vownerWrite v => Sys2Proof.Machine.execVownerWrite v s
  | .pcntselWrite v => Sys2Proof.Machine.execPcntselWrite v s
  | .fence o => Sys2Proof.Machine.execFence o s
  | .fenceEWaitDone who => Sys2Proof.Machine.execFenceEWaitDone who s
  | .syscall => Sys2Proof.Machine.execSyscall s
  | .trapret => Sys2Proof.Machine.execTrapret s
  | .resume o => Sys2Proof.Machine.execResume o s
  | .track => Sys2Proof.Machine.execTrack s
  | .yield => Sys2Proof.Machine.execYield s
  | .halt => Sys2Proof.Machine.execHalt s
  | .waitev o => Sys2Proof.Machine.execWaitev o s
  | .waitevWake who => Sys2Proof.Machine.execWaitevWake who s
  | .waitevTimeout who => Sys2Proof.Machine.execWaitevTimeout who s
  | .invtlb o => Sys2Proof.Machine.execInvtlb o s
  | .ebreak => Sys2Proof.Machine.execEbreak s
  | .cache o => Sys2Proof.Machine.execCache o s
  | .setvl o => Sys2Proof.Machine.execSetvl o s
  | .setvt o => Sys2Proof.Machine.execSetvt o s
  | .vconfig o => Sys2Proof.Machine.execVconfig o s
  | .setvlf o => Sys2Proof.Machine.execSetvlf o s
  | .menter => Sys2Proof.Machine.execMenter s
  | .mexit => Sys2Proof.Machine.execMexit s
  | .vaddVV o => Sys2Proof.Machine.execVaddVV o s
  | .vaddVS o => Sys2Proof.Machine.execVaddVS o s
  | .vaddVI o => Sys2Proof.Machine.execVaddVI o s
  | .vsubVV o => Sys2Proof.Machine.execVsubVV o s
  | .vsubVS o => Sys2Proof.Machine.execVsubVS o s
  | .vsubVI o => Sys2Proof.Machine.execVsubVI o s
  | .vandVV o => Sys2Proof.Machine.execVandVV o s
  | .vandVS o => Sys2Proof.Machine.execVandVS o s
  | .vandVI o => Sys2Proof.Machine.execVandVI o s
  | .vorVV o => Sys2Proof.Machine.execVorVV o s
  | .vorVS o => Sys2Proof.Machine.execVorVS o s
  | .vorVI o => Sys2Proof.Machine.execVorVI o s
  | .vxorVV o => Sys2Proof.Machine.execVxorVV o s
  | .vxorVS o => Sys2Proof.Machine.execVxorVS o s
  | .vxorVI o => Sys2Proof.Machine.execVxorVI o s
  | .vshlVV o => Sys2Proof.Machine.execVshlVV o s
  | .vshlVS o => Sys2Proof.Machine.execVshlVS o s
  | .vshlVI o => Sys2Proof.Machine.execVshlVI o s
  | .vshrVV o => Sys2Proof.Machine.execVshrVV o s
  | .vshrVS o => Sys2Proof.Machine.execVshrVS o s
  | .vshrVI o => Sys2Proof.Machine.execVshrVI o s
  | .vshaVV o => Sys2Proof.Machine.execVshaVV o s
  | .vshaVS o => Sys2Proof.Machine.execVshaVS o s
  | .vshaVI o => Sys2Proof.Machine.execVshaVI o s
  | .vminVV o => Sys2Proof.Machine.execVminVV o s
  | .vminVS o => Sys2Proof.Machine.execVminVS o s
  | .vminVI o => Sys2Proof.Machine.execVminVI o s
  | .vmaxVV o => Sys2Proof.Machine.execVmaxVV o s
  | .vmaxVS o => Sys2Proof.Machine.execVmaxVS o s
  | .vmaxVI o => Sys2Proof.Machine.execVmaxVI o s
  | .vminnVV o => Sys2Proof.Machine.execVminnVV o s
  | .vminnVS o => Sys2Proof.Machine.execVminnVS o s
  | .vminnVI o => Sys2Proof.Machine.execVminnVI o s
  | .vmaxnVV o => Sys2Proof.Machine.execVmaxnVV o s
  | .vmaxnVS o => Sys2Proof.Machine.execVmaxnVS o s
  | .vmaxnVI o => Sys2Proof.Machine.execVmaxnVI o s
  | .vmulVV o => Sys2Proof.Machine.execVmulVV o s
  | .vmulVS o => Sys2Proof.Machine.execVmulVS o s
  | .vmulhVV o => Sys2Proof.Machine.execVmulhVV o s
  | .vmulhVS o => Sys2Proof.Machine.execVmulhVS o s
  | .vmulhnVV o => Sys2Proof.Machine.execVmulhnVV o s
  | .vmulhnVS o => Sys2Proof.Machine.execVmulhnVS o s
  | .vdivVV o => Sys2Proof.Machine.execVdivVV o s
  | .vdivVS o => Sys2Proof.Machine.execVdivVS o s
  | .vdivnVV o => Sys2Proof.Machine.execVdivnVV o s
  | .vdivnVS o => Sys2Proof.Machine.execVdivnVS o s
  | .vremVV o => Sys2Proof.Machine.execVremVV o s
  | .vremVS o => Sys2Proof.Machine.execVremVS o s
  | .vremnVV o => Sys2Proof.Machine.execVremnVV o s
  | .vremnVS o => Sys2Proof.Machine.execVremnVS o s
  | .vmaccVV o => Sys2Proof.Machine.execVmaccVV o s
  | .vmaccVS o => Sys2Proof.Machine.execVmaccVS o s
  | .vmergeVV o => Sys2Proof.Machine.execVmergeVV o s
  | .vmergeVS o => Sys2Proof.Machine.execVmergeVS o s
  | .vmergeVI o => Sys2Proof.Machine.execVmergeVI o s
  | .vmvVV o => Sys2Proof.Machine.execVmvVV o s
  | .vmvVS o => Sys2Proof.Machine.execVmvVS o s
  | .vmvVI o => Sys2Proof.Machine.execVmvVI o s
  | .vaddsVV o => Sys2Proof.Machine.execVaddsVV o s
  | .vaddsVS o => Sys2Proof.Machine.execVaddsVS o s
  | .vaddsVI o => Sys2Proof.Machine.execVaddsVI o s
  | .vsubsVV o => Sys2Proof.Machine.execVsubsVV o s
  | .vsubsVS o => Sys2Proof.Machine.execVsubsVS o s
  | .vsubsVI o => Sys2Proof.Machine.execVsubsVI o s
  | .vaddsnVV o => Sys2Proof.Machine.execVaddsnVV o s
  | .vaddsnVS o => Sys2Proof.Machine.execVaddsnVS o s
  | .vaddsnVI o => Sys2Proof.Machine.execVaddsnVI o s
  | .vsubsnVV o => Sys2Proof.Machine.execVsubsnVV o s
  | .vsubsnVS o => Sys2Proof.Machine.execVsubsnVS o s
  | .vsubsnVI o => Sys2Proof.Machine.execVsubsnVI o s
  | .vavgVV o => Sys2Proof.Machine.execVavgVV o s
  | .vavgVS o => Sys2Proof.Machine.execVavgVS o s
  | .vsmulVV o => Sys2Proof.Machine.execVsmulVV o s
  | .vsmulVS o => Sys2Proof.Machine.execVsmulVS o s
  | .vsshrVV o => Sys2Proof.Machine.execVsshrVV o s
  | .vsshrVS o => Sys2Proof.Machine.execVsshrVS o s
  | .vsshrVI o => Sys2Proof.Machine.execVsshrVI o s
  | .vwaddVV o => Sys2Proof.Machine.execVwaddVV o s
  | .vwaddVS o => Sys2Proof.Machine.execVwaddVS o s
  | .vwaddnVV o => Sys2Proof.Machine.execVwaddnVV o s
  | .vwaddnVS o => Sys2Proof.Machine.execVwaddnVS o s
  | .vwmulVV o => Sys2Proof.Machine.execVwmulVV o s
  | .vwmulVS o => Sys2Proof.Machine.execVwmulVS o s
  | .vwmulnVV o => Sys2Proof.Machine.execVwmulnVV o s
  | .vwmulnVS o => Sys2Proof.Machine.execVwmulnVS o s
  | .vwmaccVV o => Sys2Proof.Machine.execVwmaccVV o s
  | .vwmaccVS o => Sys2Proof.Machine.execVwmaccVS o s
  | .vwmaccnVV o => Sys2Proof.Machine.execVwmaccnVV o s
  | .vwmaccnVS o => Sys2Proof.Machine.execVwmaccnVS o s
  | .vnshrVV o => Sys2Proof.Machine.execVnshrVV o s
  | .vnshrVS o => Sys2Proof.Machine.execVnshrVS o s
  | .vnshrVI o => Sys2Proof.Machine.execVnshrVI o s
  | .vnclipVV o => Sys2Proof.Machine.execVnclipVV o s
  | .vnclipVS o => Sys2Proof.Machine.execVnclipVS o s
  | .vnclipVI o => Sys2Proof.Machine.execVnclipVI o s
  | .vnclipnVV o => Sys2Proof.Machine.execVnclipnVV o s
  | .vnclipnVS o => Sys2Proof.Machine.execVnclipnVS o s
  | .vnclipnVI o => Sys2Proof.Machine.execVnclipnVI o s
  | .vcmpVV o => Sys2Proof.Machine.execVcmpVV o s
  | .vcmpVS o => Sys2Proof.Machine.execVcmpVS o s
  | .vcmpVI o => Sys2Proof.Machine.execVcmpVI o s
  | .mand o => Sys2Proof.Machine.execMand o s
  | .mor o => Sys2Proof.Machine.execMor o s
  | .mxor o => Sys2Proof.Machine.execMxor o s
  | .mandn o => Sys2Proof.Machine.execMandn o s
  | .mnot o => Sys2Proof.Machine.execMnot o s
  | .morx o => Sys2Proof.Machine.execMorx o s
  | .mori o => Sys2Proof.Machine.execMori o s
  | .mcnt o => Sys2Proof.Machine.execMcnt o s
  | .mlow o => Sys2Proof.Machine.execMlow o s
  | .mcum o => Sys2Proof.Machine.execMcum o s
  | .vseq o => Sys2Proof.Machine.execVseq o s
  | .vconfl o => Sys2Proof.Machine.execVconfl o s
  | .mmovf o => Sys2Proof.Machine.execMmovf o s
  | .vslideup o => Sys2Proof.Machine.execVslideup o s
  | .vslidedn o => Sys2Proof.Machine.execVslidedn o s
  | .vpermv o => Sys2Proof.Machine.execVpermv o s
  | .vcompress o => Sys2Proof.Machine.execVcompress o s
  | .vmvxs o => Sys2Proof.Machine.execVmvxs o s
  | .vmvsx o => Sys2Proof.Machine.execVmvsx o s
  | .vbcast o => Sys2Proof.Machine.execVbcast o s
  | .vwhile o => Sys2Proof.Machine.execVwhile o s
  | .vwhilem o => Sys2Proof.Machine.execVwhilem o s
  | .vfaddVV o => Sys2Proof.Machine.execVfaddVV o s
  | .vfaddVS o => Sys2Proof.Machine.execVfaddVS o s
  | .vfsubVV o => Sys2Proof.Machine.execVfsubVV o s
  | .vfsubVS o => Sys2Proof.Machine.execVfsubVS o s
  | .vfmulVV o => Sys2Proof.Machine.execVfmulVV o s
  | .vfmulVS o => Sys2Proof.Machine.execVfmulVS o s
  | .vfdivVV o => Sys2Proof.Machine.execVfdivVV o s
  | .vfdivVS o => Sys2Proof.Machine.execVfdivVS o s
  | .vfsqrt o => Sys2Proof.Machine.execVfsqrt o s
  | .vfminVV o => Sys2Proof.Machine.execVfminVV o s
  | .vfminVS o => Sys2Proof.Machine.execVfminVS o s
  | .vfmaxVV o => Sys2Proof.Machine.execVfmaxVV o s
  | .vfmaxVS o => Sys2Proof.Machine.execVfmaxVS o s
  | .vfmaVV o => Sys2Proof.Machine.execVfmaVV o s
  | .vfmaVS o => Sys2Proof.Machine.execVfmaVS o s
  | .vfmsVV o => Sys2Proof.Machine.execVfmsVV o s
  | .vfmsVS o => Sys2Proof.Machine.execVfmsVS o s
  | .vfnmaVV o => Sys2Proof.Machine.execVfnmaVV o s
  | .vfnmaVS o => Sys2Proof.Machine.execVfnmaVS o s
  | .vfwmaVV o => Sys2Proof.Machine.execVfwmaVV o s
  | .vfwmaVS o => Sys2Proof.Machine.execVfwmaVS o s
  | .vfsgnVV o => Sys2Proof.Machine.execVfsgnVV o s
  | .vfsgnVS o => Sys2Proof.Machine.execVfsgnVS o s
  | .vfsgnnVV o => Sys2Proof.Machine.execVfsgnnVV o s
  | .vfsgnnVS o => Sys2Proof.Machine.execVfsgnnVS o s
  | .vfclass o => Sys2Proof.Machine.execVfclass o s
  | .vfexp2 o => Sys2Proof.Machine.execVfexp2 o s
  | .vfrcp o => Sys2Proof.Machine.execVfrcp o s
  | .vfrsqrt o => Sys2Proof.Machine.execVfrsqrt o s
  | .vfcmpVV o => Sys2Proof.Machine.execVfcmpVV o s
  | .vfcmpVS o => Sys2Proof.Machine.execVfcmpVS o s
  | .vfcvt o => Sys2Proof.Machine.execVfcvt o s
  | .vredsum o => Sys2Proof.Machine.execVredsum o s
  | .vredmin o => Sys2Proof.Machine.execVredmin o s
  | .vredmax o => Sys2Proof.Machine.execVredmax o s
  | .vredand o => Sys2Proof.Machine.execVredand o s
  | .vredor o => Sys2Proof.Machine.execVredor o s
  | .vredxor o => Sys2Proof.Machine.execVredxor o s
  | .vwredsum o => Sys2Proof.Machine.execVwredsum o s
  | .vfredsum o => Sys2Proof.Machine.execVfredsum o s
  | .vfredosum o => Sys2Proof.Machine.execVfredosum o s
  | .vfredmin o => Sys2Proof.Machine.execVfredmin o s
  | .vfredmax o => Sys2Proof.Machine.execVfredmax o s
  | .vscan o => Sys2Proof.Machine.execVscan o s
  | .vfscan o => Sys2Proof.Machine.execVfscan o s
  | .vld o => Sys2Proof.Machine.execVld o s
  | .vlds o => Sys2Proof.Machine.execVlds o s
  | .vldx o => Sys2Proof.Machine.execVldx o s
  | .vldseg o => Sys2Proof.Machine.execVldseg o s
  | .vldff o => Sys2Proof.Machine.execVldff o s
  | .vst o => Sys2Proof.Machine.execVst o s
  | .vsts o => Sys2Proof.Machine.execVsts o s
  | .vstx o => Sys2Proof.Machine.execVstx o s
  | .vstseg o => Sys2Proof.Machine.execVstseg o s
  | .vscadd o => Sys2Proof.Machine.execVscadd o s
  | .vwait o => Sys2Proof.Machine.execVwait o s
  | .vwaitWake who => Sys2Proof.Machine.execVwaitWake who s
  | .vwaitTimeout who => Sys2Proof.Machine.execVwaitTimeout who s
  | .stcfg o => Sys2Proof.Machine.execStcfg o s
  | .stbind o => Sys2Proof.Machine.execStbind o s
  | .stunbind o => Sys2Proof.Machine.execStunbind o s
  | .ststat o => Sys2Proof.Machine.execStstat o s
  | .streamFetch who sn n => Sys2Proof.Machine.execStreamFetch who sn n s
  | .qcopy o => Sys2Proof.Machine.execQcopy o s
  | .qgather o => Sys2Proof.Machine.execQgather o s
  | .qscatter o => Sys2Proof.Machine.execQscatter o s
  | .qpload o => Sys2Proof.Machine.execQpload o s
  | .qpstore o => Sys2Proof.Machine.execQpstore o s
  | .qspload o => Sys2Proof.Machine.execQspload o s
  | .qfence o => Sys2Proof.Machine.execQfence o s
  | .qsignal o => Sys2Proof.Machine.execQsignal o s
  | .qstat o => Sys2Proof.Machine.execQstat o s
  | .qstatWaitDone who => Sys2Proof.Machine.execQstatWaitDone who s
  | .queueEntryRoom who => Sys2Proof.Machine.execQueueEntryRoom who s
  | .qcopyPerform who j => Sys2Proof.Machine.execQcopyPerform who j s
  | .qgatherPerform who j => Sys2Proof.Machine.execQgatherPerform who j s
  | .qscatterPerform who j => Sys2Proof.Machine.execQscatterPerform who j s
  | .qploadPerform who j => Sys2Proof.Machine.execQploadPerform who j s
  | .qpstorePerform who j => Sys2Proof.Machine.execQpstorePerform who j s
  | .qsploadPerform who j => Sys2Proof.Machine.execQsploadPerform who j s
  | .qfencePass who j => Sys2Proof.Machine.execQfencePass who j s
  | .qsignalPerform who j => Sys2Proof.Machine.execQsignalPerform who j s
  | .watchImprecise who j => Sys2Proof.Machine.execWatchImprecise who j s
  | .mzero o => Sys2Proof.Machine.execMzero o s
  | .mupd o => Sys2Proof.Machine.execMupd o s
  | .mupdn o => Sys2Proof.Machine.execMupdn o s
  | .mmac o => Sys2Proof.Machine.execMmac o s
  | .mread o => Sys2Proof.Machine.execMread o s
  | .mwrite o => Sys2Proof.Machine.execMwrite o s
  | .mscl o => Sys2Proof.Machine.execMscl o s
  | .mzpt o => Sys2Proof.Machine.execMzpt o s
  | .mstat o => Sys2Proof.Machine.execMstat o s
  | .spmmac o => Sys2Proof.Machine.execSpmmac o s
  | .spres o => Sys2Proof.Machine.execSpres o s
  | .spstat o => Sys2Proof.Machine.execSpstat o s
  | .vsave a => Sys2Proof.Machine.execVsave a s
  | .vrestore a => Sys2Proof.Machine.execVrestore a s
  | .portq o => Sys2Proof.Machine.execPortq o s
  | .portsw o => Sys2Proof.Machine.execPortsw o s
  | .lateError who stop errs => Sys2Proof.Machine.execLateError who stop errs s
  | .scoreboardSettleTimeout who => Sys2Proof.Machine.execScoreboardSettleTimeout who s
  | .queueDoorbell q => Sys2Proof.Machine.execQueueDoorbell q s
  | .queueRunStart q => Sys2Proof.Machine.execQueueRunStart q s
  | .queueRunStop q => Sys2Proof.Machine.execQueueRunStop q s
  | .landingSelect die => Sys2Proof.Machine.execLandingSelect die s
  | .priorityAging q => Sys2Proof.Machine.execPriorityAging q s
  | .sliceEnd l => Sys2Proof.Machine.execSliceEnd l s
  | .nop p => Sys2Proof.Machine.execNop p s
  | .launch p => Sys2Proof.Machine.execLaunch p s
  | .write p => Sys2Proof.Machine.execWrite p s
  | .signal p => Sys2Proof.Machine.execSignal p s
  | .wait p => Sys2Proof.Machine.execWait p s
  | .waitRecheck q => Sys2Proof.Machine.execWaitRecheck q s
  | .waitTimeout q => Sys2Proof.Machine.execWaitTimeout q s
  | .writeSignal p => Sys2Proof.Machine.execWriteSignal p s
  | .copy p => Sys2Proof.Machine.execCopy p s
  | .copyDone q => Sys2Proof.Machine.execCopyDone q s
  | .depend p => Sys2Proof.Machine.execDepend p s
  | .dependSatisfied q => Sys2Proof.Machine.execDependSatisfied q s
  | .fencePacket p => Sys2Proof.Machine.execFencePacket p s
  | .launchRetire l => Sys2Proof.Machine.execLaunchRetire l s
  | .gangPreempt l => Sys2Proof.Machine.execGangPreempt l s
  | .preemptDeadline who => Sys2Proof.Machine.execPreemptDeadline who s
  | .gangResume l => Sys2Proof.Machine.execGangResume l s
  | .engineQuiesceTimeout part => Sys2Proof.Machine.execEngineQuiesceTimeout part s
  | .staleCompletion part => Sys2Proof.Machine.execStaleCompletion part s
  | .switchDrainComplete g => Sys2Proof.Machine.execSwitchDrainComplete g s
  | .switchDrainLimit g => Sys2Proof.Machine.execSwitchDrainLimit g s
  | .quiesceEnd g => Sys2Proof.Machine.execQuiesceEnd g s
  | .retrainDone g => Sys2Proof.Machine.execRetrainDone g s
  | .trainingFail g => Sys2Proof.Machine.execTrainingFail g s
  | .verifyPass g => Sys2Proof.Machine.execVerifyPass g s
  | .verifyFail g => Sys2Proof.Machine.execVerifyFail g s
  | .verifyTimeout g => Sys2Proof.Machine.execVerifyTimeout g s
  | .fallbackActive g => Sys2Proof.Machine.execFallbackActive g s
  | .fallbackDown g => Sys2Proof.Machine.execFallbackDown g s
  | .linkLost g => Sys2Proof.Machine.execLinkLost g s
  | .laneFailure g lane => Sys2Proof.Machine.execLaneFailure g lane s
  | .openSession m => Sys2Proof.Machine.execOpenSession m s
  | .attest m => Sys2Proof.Machine.execAttest m s
  | .createPartition m => Sys2Proof.Machine.execCreatePartition m s
  | .loadCode m => Sys2Proof.Machine.execLoadCode m s
  | .mapWindowMap m => Sys2Proof.Machine.execMapWindowMap m s
  | .mapWindowChange m => Sys2Proof.Machine.execMapWindowChange m s
  | .mapWindowRemove m => Sys2Proof.Machine.execMapWindowRemove m s
  | .submit m => Sys2Proof.Machine.execSubmit m s
  | .readCounters m => Sys2Proof.Machine.execReadCounters m s
  | .switchPort m => Sys2Proof.Machine.execSwitchPort m s
  | .checkpoint m => Sys2Proof.Machine.execCheckpoint m s
  | .close m => Sys2Proof.Machine.execClose m s
  | .keepalive m => Sys2Proof.Machine.execKeepalive m s
  | .keepaliveSend session => Sys2Proof.Machine.execKeepaliveSend session s
  | .sessionLost session => Sys2Proof.Machine.execSessionLost session s
  | .atomicopCompletion who ok old => Sys2Proof.Machine.execAtomicopCompletion who ok old s
  | .proxyResponse who ok old => Sys2Proof.Machine.execProxyResponse who ok old s
  | .atomicTimeout who => Sys2Proof.Machine.execAtomicTimeout who s
  | .firmware m => Sys2Proof.Machine.execFirmware m s
  | .powerGood => Sys2Proof.Machine.execPowerGood s
  | .powerSample watts tempC flow => Sys2Proof.Machine.execPowerSample watts tempC flow s
  | .correctedError p => Sys2Proof.Machine.execCorrectedError p s
  | .gddrCopyDone dev => Sys2Proof.Machine.execGddrCopyDone dev s
  | .patrolScrub => Sys2Proof.Machine.execPatrolScrub s
  | .illegalWord w => Sys2Proof.Machine.execIllegalWord w s
  | .uncorrectableError p => Sys2Proof.Machine.execUncorrectableError p s
  | .checkpointDone part => Sys2Proof.Machine.execCheckpointDone part s
  | .powerLoss => Sys2Proof.Machine.execPowerLoss s

end Sys2Proof.Machine
end

