-- ==== Sys2Proof/Machine/Words.lean ====
section
/-! DEFINITION. Machine/Words.lean: what the checks of a convoy need to know of each 64-bit word (Table 4-6, R83, R111, R112,
R115, R118). -/

namespace Sys2Proof.Machine

/-- A scalar parcel, a packet or an event is no 64-bit word. -/
def noWord : WordInfo := { klass := .noWord, lanes := false, owner := false, mode := .either }

/-- The operands and the class of a word on a strand. -/
def wordInfo (i : Instr) (c : Strand) : WordInfo :=
  match i with
  | .add _ | .sub _ | .and _ | .or _ | .xor _ | .andn _ | .shl _ | .shr _ | .sha _ | .min _ | .max _ | .minn _ => noWord
  | .maxn _ | .slt _ | .sltn _ | .mul _ | .mulh _ | .mulhn _ | .div _ | .divn _ | .rem _ | .remn _ | .clz _ => noWord
  | .ctz _ | .popc _ | .addi _ | .andi _ | .ori _ | .xori _ | .slti _ | .sltni _ | .shli _ | .shri _ | .shai _ => noWord
  | .lui _ | .adpc _ | .ld8 _ | .ld16 _ | .ld32 _ | .ld64 _ | .ldn8 _ | .ldn16 _ | .ldn32 _ | .st8 _ | .st16 _ => noWord
  | .st32 _ | .st64 _ | .amoAdd _ | .amoSwap _ | .amoAnd _ | .amoOr _ | .amoXor _ | .amoMin _ | .amoMax _ => noWord
  | .amoMinn _ | .amoMaxn _ | .amoCas _ | .claim _ | .beq _ | .bne _ | .blt _ | .bge _ | .bltn _ | .bgen _ => noWord
  | .jal _ | .jalr _ | .fadd _ | .fsub _ | .fmul _ | .fdiv _ | .fsqrt _ | .fmin _ | .fmax _ | .feq _ | .flt _ => noWord
  | .fle _ | .fclass _ | .fsgnj _ | .fsgnjn _ | .fcvtfi _ | .fcvtif _ | .fcvtff _ | .fma _ | .fms _ | .fnma _ => noWord
  | .fnms _ | .csrget _ | .csrput _ | .csrswap _ | .csrset _ | .csrclr _ | .lanegrantWrite _ | .ctxidWrite _ => noWord
  | .vownerWrite _ | .pcntselWrite _ | .fence _ | .fenceEWaitDone _ | .syscall | .trapret | .resume _ | .track => noWord
  | .yield | .halt | .waitev _ | .waitevWake _ | .waitevTimeout _ | .invtlb _ | .ebreak | .cache _ => noWord
  | .vwaitWake _ | .vwaitTimeout _ | .streamFetch _ _ _ | .qstatWaitDone _ | .queueEntryRoom _ => noWord
  | .qcopyPerform _ _ | .qgatherPerform _ _ | .qscatterPerform _ _ | .qploadPerform _ _ | .qpstorePerform _ _ => noWord
  | .qsploadPerform _ _ | .qfencePass _ _ | .qsignalPerform _ _ | .watchImprecise _ _ | .lateError _ _ _ => noWord
  | .scoreboardSettleTimeout _ | .queueDoorbell _ | .queueRunStart _ | .queueRunStop _ | .landingSelect _ => noWord
  | .priorityAging _ | .sliceEnd _ | .nop _ | .launch _ | .write _ | .signal _ | .wait _ | .waitRecheck _ => noWord
  | .waitTimeout _ | .writeSignal _ | .copy _ | .copyDone _ | .depend _ | .dependSatisfied _ | .fencePacket _ => noWord
  | .launchRetire _ | .gangPreempt _ | .preemptDeadline _ | .gangResume _ | .engineQuiesceTimeout _ => noWord
  | .staleCompletion _ | .switchDrainComplete _ | .switchDrainLimit _ | .quiesceEnd _ | .retrainDone _ => noWord
  | .trainingFail _ | .verifyPass _ | .verifyFail _ | .verifyTimeout _ | .fallbackActive _ | .fallbackDown _ => noWord
  | .linkLost _ | .laneFailure _ _ | .openSession _ | .attest _ | .createPartition _ | .loadCode _ => noWord
  | .mapWindowMap _ | .mapWindowChange _ | .mapWindowRemove _ | .submit _ | .readCounters _ | .switchPort _ => noWord
  | .checkpoint _ | .close _ | .keepalive _ | .keepaliveSend _ | .sessionLost _ | .atomicopCompletion _ _ _ => noWord
  | .proxyResponse _ _ _ | .atomicTimeout _ | .firmware _ | .powerGood | .powerSample _ _ _ => noWord
  | .correctedError _ | .gddrCopyDone _ | .patrolScrub | .illegalWord _ | .uncorrectableError _ => noWord
  | .checkpointDone _ | .powerLoss => noWord
  | .setvl o => setvlInfo o c
  | .setvt _ | .vconfig _ => configInfo c
  | .setvlf o => setvlfInfo o c
  | .menter => menterInfo c
  | .mexit => mexitInfo c
  | .vaddVV o | .vsubVV o | .vandVV o | .vorVV o | .vxorVV o | .vshlVV o | .vshrVV o | .vshaVV o | .vminVV o =>
    vvInfo .plain o c
  | .vmaxVV o | .vminnVV o | .vmaxnVV o | .vmulVV o | .vmulhVV o | .vmulhnVV o | .vmergeVV o | .vaddsVV o => vvInfo .plain o c
  | .vsubsVV o | .vaddsnVV o | .vsubsnVV o | .vavgVV o | .vsmulVV o | .vsshrVV o => vvInfo .plain o c
  | .vaddVS o | .vsubVS o | .vandVS o | .vorVS o | .vxorVS o | .vshlVS o | .vshrVS o | .vshaVS o | .vminVS o =>
    vsInfo .plain o c
  | .vmaxVS o | .vminnVS o | .vmaxnVS o | .vmulVS o | .vmulhVS o | .vmulhnVS o | .vmergeVS o | .vaddsVS o => vsInfo .plain o c
  | .vsubsVS o | .vaddsnVS o | .vsubsnVS o | .vavgVS o | .vsmulVS o | .vsshrVS o => vsInfo .plain o c
  | .vaddVI o | .vsubVI o | .vandVI o | .vorVI o | .vxorVI o | .vshlVI o | .vshrVI o | .vshaVI o | .vminVI o =>
    viInfo .plain o c
  | .vmaxVI o | .vminnVI o | .vmaxnVI o | .vmergeVI o | .vaddsVI o | .vsubsVI o | .vaddsnVI o | .vsubsnVI o =>
    viInfo .plain o c
  | .vsshrVI o => viInfo .plain o c
  | .vdivVV o | .vdivnVV o | .vremVV o | .vremnVV o => vvInfo .iter o c
  | .vdivVS o | .vdivnVS o | .vremVS o | .vremnVS o => vsInfo .iter o c
  | .vmaccVV o => vvInfo .acc o c
  | .vmaccVS o => vsInfo .acc o c
  | .vmvVV o => vmvVVInfo o c
  | .vmvVS o => vmvVSInfo o c
  | .vmvVI o => vmvVIInfo o c
  | .vwaddVV o | .vwaddnVV o => vvwInfo .wide o c
  | .vwaddVS o | .vwaddnVS o | .vwmulVS o | .vwmulnVS o => vsInfo .wide o c
  | .vwmulVV o | .vwmulnVV o => vvInfo .wide o c
  | .vwmaccVV o | .vwmaccnVV o => vvInfo .wideAcc o c
  | .vwmaccVS o | .vwmaccnVS o => vsInfo .wideAcc o c
  | .vnshrVV o | .vnclipVV o | .vnclipnVV o => vvwInfo .narrow o c
  | .vnshrVS o | .vnclipVS o | .vnclipnVS o => vsInfo .narrow o c
  | .vnshrVI o | .vnclipVI o | .vnclipnVI o => viInfo .narrow o c
  | .vcmpVV o => vcmpVVInfo o c
  | .vcmpVS o => vcmpVSInfo o c
  | .vcmpVI o => vcmpVIInfo o c
  | .mand o | .mor o | .mxor o | .mandn o => maskOp2Info o c
  | .mnot o | .morx o | .mori o => maskOp1Info o c
  | .mcnt o | .mlow o => maskToXInfo o c
  | .mcum o => mcumInfo o c
  | .vseq o => vseqInfo o c
  | .vconfl o => vconflInfo o c
  | .mmovf o => mmovfInfo o c
  | .vslideup o => slideInfo true o c
  | .vslidedn o => slideInfo false o c
  | .vpermv o => vpermvInfo o c
  | .vcompress o => vcompressInfo o c
  | .vmvxs o => vmvxsInfo o c
  | .vmvsx o => vmvsxInfo o c
  | .vbcast o => vbcastInfo o c
  | .vwhile o | .vwhilem o => loopInfo o c
  | .vfaddVV o | .vfsubVV o | .vfmulVV o | .vfminVV o | .vfmaxVV o | .vfsgnVV o | .vfsgnnVV o => fvvInfo false o c
  | .vfaddVS o | .vfsubVS o | .vfmulVS o | .vfminVS o | .vfmaxVS o | .vfsgnVS o | .vfsgnnVS o => fvsInfo false o c
  | .vfdivVV o => fvvInfo true o c
  | .vfdivVS o => fvsInfo true o c
  | .vfsqrt o | .vfexp2 o | .vfrcp o | .vfrsqrt o => fvInfo true o c
  | .vfmaVV o | .vfmsVV o | .vfnmaVV o => fvvvInfo o c
  | .vfmaVS o | .vfmsVS o | .vfnmaVS o => fvssInfo o c
  | .vfwmaVV o => fwmaVVInfo o c
  | .vfwmaVS o => fwmaVSInfo o c
  | .vfclass o => fvInfo false o c
  | .vfcmpVV o => vfcmpVVInfo o c
  | .vfcmpVS o => vfcmpVSInfo o c
  | .vfcvt o => vfcvtInfo o c
  | .vredsum o | .vredmin o | .vredmax o | .vredand o | .vredor o | .vredxor o | .vscan o => ireInfo false o c
  | .vwredsum o => ireInfo true o c
  | .vfredsum o | .vfredosum o | .vfredmin o | .vfredmax o | .vfscan o => freInfo o c
  | .vld o => vldInfo o c
  | .vlds o => vldsInfo o c
  | .vldx o => vldxInfo o c
  | .vldseg o => vldsegInfo o c
  | .vldff o => vldffInfo o c
  | .vst o => vstInfo o c
  | .vsts o => vstsInfo o c
  | .vstx o => vstxInfo o c
  | .vstseg o => vstsegInfo o c
  | .vscadd o => vscaddInfo o c
  | .vwait o => vwaitInfo o c
  | .stcfg o => stcfgInfo o c
  | .stbind o => stbindInfo o c
  | .stunbind o => stunbindInfo o c
  | .ststat o => ststatInfo o c
  | .qcopy o => qcopyInfo o c
  | .qgather o | .qscatter o | .qpload o | .qpstore o | .qspload o => qblockInfo o c
  | .qfence o => qfenceInfo o c
  | .qsignal o => qsignalInfo o c
  | .qstat o => qstatInfo o c
  | .mzero o => mzeroInfo o c
  | .mupd o | .mupdn o => mupdInfo o c
  | .mmac o => mmacInfo o c
  | .mread o => mreadInfo o c
  | .mwrite o => mwriteInfo o c
  | .mscl o => msclInfo o c
  | .mzpt o => mzptInfo o c
  | .mstat o => mstatInfo o c
  | .spmmac o => spmmacInfo o c
  | .spres o => spresInfo o c
  | .spstat o => spstatInfo o c
  | .vsave a | .vrestore a => vsaveInfo a c
  | .portq o => portqInfo o c
  | .portsw o => portswInfo o c

/-- What an instruction's accesses to memory may have the counters count (Table 23-4): lines read and written, and walks. -/
def Instr.reaches : Instr → List Nat
  | .ld8 _ | .ld16 _ | .ld32 _ | .ld64 _ | .ldn8 _ | .ldn16 _ | .ldn32 _ | .st8 _ | .st16 _ | .st32 _ | .st64 _
  | .amoAdd _ | .amoSwap _ | .amoAnd _ | .amoOr _ | .amoXor _ | .amoMin _ | .amoMax _ | .amoMinn _ | .amoMaxn _ | .amoCas _
  | .claim _ | .waitev _ | .resume _ | .trapret | .vld _ | .vlds _ | .vldx _ | .vldseg _ | .vldff _ | .vst _ | .vsts _ | .vstx _
  | .vstseg _ | .vscadd _ | .vwait _ | .stcfg _ | .qgather _ | .qscatter _ | .qpload _ | .qpstore _ | .qspload _ | .vsave _
  | .vrestore _ => [7, 8, 9]
  | _ => []

end Sys2Proof.Machine
end

