-- ==== Sys2Proof/Machine/Issue.lean ====
section
/-! DEFINITION. Machine/Issue.lean: the issue of a parcel or a convoy: fetch, the decode checks of a whole convoy (R83 to R86,
R118), what a strand meets at a boundary (R346, R356, R365), execution in slot order (R117, R336) and retirement (R124, R125).
-/

namespace Sys2Proof.Machine

/-! ### Fetch (R27, R58, R60, R61, R84) -/

/-- n bytes at an address lie outside the strand's code arena (R27). -/
def Strand.outside (c : Strand) (a : Word) (n : Nat) : Bool :=
  decide (a.toNat < c.arenabase.toNat) || decide (c.arenabound.toNat < a.toNat + n)

/-- What stands at pc: a fetch trap with its trval, a parcel, or the first word of a convoy. -/
inductive Fetched where
  | trap (c : Cause)
  | parcel (w : BitVec 32)
  | wide (w : Word)

/-- The parcel at an address. -/
def State.parcelAt (s : State) (a : Word) : BitVec 32 := BitVec.ofNat 32 (s.mem.readLE a.toNat 4)

/-- The fetch at pc: ARENA, then ALIGN for an address that no parcel has or the high half of a wide word (R61); a word of
the arena lies inside it whole, for its bounds are multiples of 4 KiB. A fetch from a device that is gone raises ACCESS (R17; DESIGN
CHOICE, log 49). -/
def State.fetch (s : State) : Fetched :=
  let pc := s.cur.pc
  if s.cur.outside pc 1 then .trap .arena
  else if pc.toNat % 4 ≠ 0 then .trap .align
  else if s.memoryGone pc.toNat then .trap .access
  else if isWide (s.codeWord pc) then if pc.toNat % 8 = 0 then .wide (s.codeWord pc) else .trap .align
  else .parcel (s.parcelAt pc)

/-- How the words of a convoy end: with C = 1, outside the arena, on a device that is gone, before a pair of parcels, or at a
fourth word with C = 0 that is before no such pair. -/
inductive ConvoyEnd where
  | last | outside | gone | scalar | long
  deriving DecidableEq, Repr

/-- The words of the convoy from an address, at most n, and how they end (R83): the word after the last of n with C = 0 is
looked at too, for ILLEGAL comes before CONVOY where it is a pair of parcels. -/
def State.convoyAt (s : State) (a : Word) : Nat → List Word × ConvoyEnd
  | 0 => ([], if !s.cur.outside a 8 && !isWide (s.codeWord a) then .scalar else .long)
  | n + 1 =>
    if s.cur.outside a 8 then ([], .outside)
    else if s.memoryGone a.toNat then ([], .gone)
    else
      let w := s.codeWord a
      if !isWide w then ([], .scalar)
      else if lastBit w then ([w], .last)
      else match s.convoyAt (a + 8) n with
        | (ws, e) => (w :: ws, e)

/-! ### The decode checks of a convoy (R83, R85, R118) -/

/-- A word of a convoy: its bits, its instruction where it has one, and what the checks need of it. -/
structure CWord where
  w : Word
  i : Option Instr
  info : WordInfo

/-- The words of a convoy decoded on a strand. -/
noncomputable def decodeConvoy (c : Strand) (ws : List Word) : List CWord :=
  ws.map fun w =>
    let i := decodeWord w
    { w := w, i := i, info := match i with
        | none => noWord
        | some k => wordInfo k c }

/-- How many words of a list satisfy a condition. -/
def countIf (is : List WordInfo) (f : WordInfo → Bool) : Nat := (is.filter f).length

/-- The words of a class. -/
def countClass (is : List WordInfo) (k : Klass) : Nat := countIf is fun i => i.klass = k

/-- Two words write a common vector register, or the same mask register (R118). -/
def sharesDst (a b : WordInfo) : Bool :=
  (a.dsts.any fun u => b.dsts.any fun v => u.meets v) || (a.md.isSome && decide (a.md = b.md))

/-- The history buffer entries a word takes (R123); a scalar destination x0 takes one too (DESIGN CHOICE, log 56). -/
def entriesOf (i : WordInfo) : Nat :=
  i.dsts.foldl (fun n u => n + u.n) 0 + i.md.toList.length + i.xd.toList.length

/-- The words of a convoy up to one do not go together (R83, R118). A word whose scalar destination is x0 counts as one that
writes a scalar register: R118 does not say (DESIGN CHOICE, log 56). -/
def clashes (is : List WordInfo) : Bool :=
  (decide (1 < is.length) && is.any fun i => i.klass = .standalone) ||
    decide (1 < countClass is .load) || decide (1 < countClass is .store) || decide (1 < countClass is .reduction) ||
    decide (1 < countClass is .matrix) || decide (2 < countClass is .arith) || decide (1 < countIf is (·.iter)) ||
    decide (1 < countIf is (·.perm)) || decide (1 < countIf is (·.xd.isSome)) ||
    (is.zipIdx.any fun a => is.zipIdx.any fun b => decide (a.2 < b.2) && sharesDst a.1 b.1) ||
    decide (64 < is.foldl (fun n i => n + entriesOf i) 0)

/-- The first slot that satisfies a condition. -/
def firstSlot (n : Nat) (f : Nat → Bool) : Option Nat := (List.range n).find? f

/-- The first decode check after ARENA that a convoy fails, and the slot (Table 4-19). -/
def convoyFault (c : Strand) (ws : List CWord) (e : ConvoyEnd) : Option (Cause × Nat) :=
  let n := ws.length
  let at_ := fun (k : Nat) => (ws[k]?).map (·.info)
  let test := fun (f : WordInfo → Bool) (k : Nat) => (at_ k).any f
  let illegal := firstSlot n fun k =>
    (ws[k]?).any (fun w => w.i.isNone || c.illegalRegs w.info) || (decide (e = .scalar) && decide (k + 1 = n))
  let convoy := firstSlot n fun k =>
    clashes ((ws.take (k + 1)).map (·.info)) || (decide (e = .long) && decide (k + 1 = n))
  (illegal.map fun k => (Cause.illegal, k)).or <| (convoy.map fun k => (Cause.convoy, k)).or <|
    ((firstSlot n (test c.privFails)).map fun k => (Cause.priv, k)).or <|
    ((firstSlot n (test c.modeFails)).map fun k => (Cause.mode, k)).or <|
    (firstSlot n (test c.ownerFails)).map fun k => (Cause.vowner, k)

/-- The strand at slot k of the convoy that starts at an address, with the word there. -/
def State.atSlot (s : State) (first : Word) (k : Nat) (w : Word) : State :=
  s.withCur { s.cur with pc := first + BitVec.ofNat 64 (8 * k), slot := BitVec.ofNat 2 k, iword := w }

/-- ARENA of a convoy: trval is the first address outside the bound (R84). -/
def State.arenaTrap (s : State) (k : Nat) : State :=
  s.takeTrap { cause := .arena, rk := 0, slot := BitVec.ofNat 2 k, tpc := s.cur.pc, tval := s.cur.arenabound, pages := [] }

/-- ACCESS of a convoy that reaches a device that is gone: trval is the address (R17; DESIGN CHOICE, log 49). -/
def State.goneTrap (s : State) (k : Nat) : State :=
  s.takeTrap {
    cause := .access, rk := 0, slot := BitVec.ofNat 2 k, tpc := s.cur.pc, tval := s.cur.pc + BitVec.ofNat 64 (8 * k), pages := [] }

/-- The trap of a convoy's decode checks, if it has one (R85). -/
noncomputable def State.convoyTrap (s : State) : Option State :=
  match s.convoyAt s.cur.pc 4 with
  | (ws, e) =>
    if e = .outside then some (s.arenaTrap ws.length)
    else if e = .gone then some (s.goneTrap ws.length)
    else
      let cs := decodeConvoy s.cur ws
      (convoyFault s.cur cs e).map fun f => (s.atSlot s.cur.pc f.2 (ws.getD f.2 0)).decodeTrap f.1

/-! ### Retirement and undoing (R124, R125, R227, R344) -/

/-- A convoy undone by a trap of RK 0 (R125, R336), which is taken in the state before it. -/
def State.undo (before after : State) (t : Trap) : State := (before.unwind after).takeTrap t

/-- The convoy before its first word, and its first address. -/
structure Frame where
  before : State
  first : Word

/-- The scalar registers by which a strand differs from another, as they were. -/
def changedXs (old new : Strand) : List (XReg × Word) :=
  (((List.range 32).map (BitVec.ofNat 5)).filter fun r => decide (old.getX r ≠ new.getX r)).map fun r => (r, old.getX r)

/-- A bit is set in the leaves of the words that a VWAIT watches: it has read them (R222). -/
def State.touchWatched (s : State) : State :=
  ((s.cur.vwait.map (·.words)).getD []).foldl (fun t w => match w.leaf with
    | none => t
    | some l => t.touchLeaf t.cur.via l .load) s

/-- A convoy waits at a word: the history buffer keeps what the strand held before its first word (R123). `done` says that words
of it have been executed: they have not retired, so what they did outside the strand has not happened yet, and they are
executed again when the strand next looks (R124, R125, R327; DEDUCED, log 33). -/
def State.hide (f : Frame) (done : Bool) (u : State) : State :=
  let b := f.before
  let c := { u.cur with history := some { vec := b.cur.vec, conv := b.cur.conv, how := b.cur.reissue, xs := changedXs b.cur u.cur } }
  if done then State.touchWatched { b with cur := c, free := u.free } else u.withCur c

/-- A convoy retires: its pushes, its flags and saturation, the counts, then the watch match it holds (R124, R171, R192, R227,
R332). Where a push stalls, the convoy waits, or, of one of which only the retirement is `left`, that. -/
def State.retireConvoy (f : Frame) (left : Bool) (s : State) : State :=
  match s.pushAll s.cur.slot with
  | .error (.inl (t, s1)) => f.before.undo s1 t
  | .error (.inr s1) =>
    if left then State.stallHere s1 else State.hide f true (State.setPc s1 (s1.cur.pc - 8)).stallHere
  | .ok s1 =>
    let c := s1.cur
    let s2 := s1.withCur { c.older with
      fflags := c.fflags ||| c.conv.flags, convoys := c.convoys + 1, slot := 0, reissue := .none, history := none
      vec := { c.vec with vsat := c.vec.vsat || c.conv.sat }, conv := { ConvCtx.none with watch := c.conv.watch } }
    (s2.count 0x02 1).raiseWatch

/-! ### Execution in slot order (R117, R336) -/

/-- The issuing strand as a word finds it. -/
def State.present1 (s : State) (w : Word) : State := s.withCur { s.cur with iword := w, note := none, run := .running }

/-- Registers whose values a stopped word has not produced. -/
structure Taint where
  v : List RegUse
  m : List MReg
  x : List XReg

/-- A word reads one of some vector registers of which the values are not produced. -/
def Taint.holds (t : Taint) (us : List RegUse) : Bool := us.any fun u => t.v.any fun v => u.meets v

/-- The checks of a word depend on a register of which the value is not produced. -/
def Taint.reads (t : Taint) (i : WordInfo) : Bool :=
  t.holds i.idx || (i.ms.any fun m => t.m.contains m) || i.xs.any fun x => t.x.contains x

/-- A word's destinations added. -/
def Taint.add (t : Taint) (i : WordInfo) : Taint :=
  { v := t.v ++ i.dsts, m := t.m ++ i.md.toList, x := t.x ++ i.xd.toList }

/-- A trap that R336 makes before any word of the convoy has an effect: its step 2. -/
def precise (s : State) (i : WordInfo) (t : Trap) : Bool :=
  t.rk = 0 && match t.cause with
    | .align => true
    | .mode => true
    | .precision => true
    | .vimage => true
    | .access => (s.cur.readBoundDst i.dsts).isSome || i.klass = .matrix || decide (2 ^ 56 ≤ t.tval.toNat)
    | _ => false

/-- A word as it is tried for its checks: no register is popped but its index vectors. -/
def State.unpopped (s : State) : State :=
  s.withCur { s.cur with conv := { s.cur.conv with popped := (List.range 64).map (BitVec.ofNat 6) } }

/-- A source that is not produced, or that a stream has still to fill. -/
def Strand.stale (c : Strand) (t : Taint) (i : WordInfo) : Bool :=
  t.holds i.srcs || (regsOf i.srcs).any fun r => (c.boundTo r false).isSome && !c.conv.popped.contains (BitVec.ofNat 6 r)

/-- The first step-2 trap from a word that has stopped on: each word is tried on the registers as they stand, unless its
checks read one that is not produced (R336). -/
def State.lookAhead (s : State) (first : Word) (t : Taint) : Nat → List CWord → Option Trap
  | _, [] => none
  | k, c :: rest =>
    let next := fun (_ : Unit) => s.lookAhead first (t.add c.info) (k + 1) rest
    match c.i with
    | none => none
    | some i =>
      if t.reads c.info then next ()
      else match ((s.atSlot first k c.w).present1 c.w).popAll (regsOf c.info.idx) with
        | .error _ => next ()
        | .ok s1 =>
          match exec i s1.unpopped with
          | .next u => match u.cur.note with
            | some x => if precise s1 c.info x then some x else next ()
            | none =>
              if u.cur.run = .running && !s1.cur.stale t c.info then
                State.lookAhead (u.withCur { u.cur with conv := { u.cur.conv with popped := s1.cur.conv.popped } }) first t (k + 1) rest
              else next ()
          | .fault _ => none
          | .refused _ => none

/-- A word that trapped, stalled or sleeps: a step-2 trap of a later word comes first; a trap of RK 0 undoes the words done
and what the word itself has changed; else earlier words stand (R336, R339). -/
def State.stopWord (s u : State) (f : Frame) (k : Nat) (c : CWord) (rest : List CWord) : State :=
  match s.lookAhead f.first { v := [], m := [], x := [] } k (c :: rest), u.cur.note with
  | some y, _ => f.before.undo u y
  | none, some x => if x.rk = 0 then f.before.undo u x else u
  | none, none => u.hide f (decide (f.before.cur.slot.toNat < k))

/-- The words of a convoy from slot k executed one after another, then its retirement. -/
def State.runWords (s : State) (f : Frame) : Nat → List CWord → Out
  | _, [] => .next (s.retireConvoy f false)
  | k, c :: rest =>
    match c.i with
    | none => .next (s.trap .illegal c.w)
    | some i =>
      match exec i (s.present1 c.w) with
      | .fault r => .fault r
      | .refused r => .refused r
      | .next u =>
        if u.cur.note.isSome || decide (u.cur.run ≠ .running) then .next (s.stopWord u f k c rest)
        else if rest.isEmpty then .next ((u.withCur { u.cur with reissue := .none }).retireConvoy f false)
        else State.runWords (u.withCur { u.cur with slot := BitVec.ofNat 2 (k + 1), reissue := .none }) f (k + 1) rest

/-- The frame of the convoy whose words the strand is to execute. -/
def State.frame (s : State) : Frame := { before := s, first := s.cur.pc - 8 * s.cur.slot.setWidth 64 }

/-- The words from pc on as part of the convoy whose slot the strand is at. -/
noncomputable def State.convoyWords (s : State) : List CWord := decodeConvoy s.cur (s.convoyAt s.cur.pc (4 - s.cur.slot.toNat)).1

/-- What a word may have the counters count (Table 23-4, log 7): element groups where it has vector operands, walks and lines where it
reaches memory, panels that are read, and elements of bound streams. -/
def Strand.countedBy (c : Strand) (w : CWord) : List Nat :=
  let us := w.info.srcs ++ w.info.dsts
  (if us = [] then [] else [4]) ++ ((w.i.map Instr.reaches).getD []) ++
    (if w.info.klass = .matrix then [6] else []) ++
    (if (regsOf w.info.srcs).any fun r => (c.boundTo r false).isSome then [6, 7, 8, 9, 14] else []) ++
    if (regsOf w.info.dsts).any fun r => (c.boundTo r true).isSome then [7, 8, 9] else []

/-- A strand of a convoy that waits goes back to its first word; then its words are executed. -/
noncomputable def State.runConvoy (s : State) : Out :=
  let b := s.rewound
  let ws := b.convoyWords
  let t := b.stir b.cur.id.core (ws.flatMap b.cur.countedBy)
  t.runWords t.frame t.cur.slot.toNat ws

/-! ### Boundaries and pre-emption points (R346, R351, R356, R357, R363, R365) -/

/-- A pre-emption is requested and not raised. -/
def Strand.asked (c : Strand) : Bool :=
  match c.preempt with
  | .requested => true
  | .arriving _ => true
  | .none => false
  | .raised => false
  | .forced => false
  | .ending => false

/-- Words of a convoy executed up to the one at which its strand waits; `inl` where one of them stops now. -/
noncomputable def State.runEarlier (s : State) (f : Frame) : Nat → List CWord → State ⊕ State
  | _, [] => .inr s
  | k, c :: rest =>
    match c.i with
    | none => .inl s
    | some i => match exec i (s.present1 c.w) with
      | .fault _ => .inl s
      | .refused _ => .inl s
      | .next u =>
        if u.cur.note.isSome || decide (u.cur.run ≠ .running) then .inl (s.stopWord u f k c rest)
        else State.runEarlier (u.withCur { u.cur with slot := BitVec.ofNat 2 (k + 1), reissue := .none }) f (k + 1) rest

/-- A stop of the strand at a pre-emption point: where it sleeps in VWAIT, the words before that one retire first (R327). -/
noncomputable def State.atStop (s : State) (g : State → State) : State :=
  match s.cur.history with
  | none => g s
  | some _ =>
    let b := s.rewound
    match b.runEarlier b.frame b.cur.slot.toNat (b.convoyWords.take (s.cur.slot.toNat - b.cur.slot.toNat)) with
    | .inl u => u
    | .inr u => g (u.withCur { u.cur with
        run := s.cur.run, vwait := s.cur.vwait, iword := s.cur.iword, slot := s.cur.slot, pc := s.cur.pc, history := none
        conv := { u.cur.conv with watch := s.cur.conv.watch } })

/-- PREEMPT at a point (Table 18-3): RK 2 in VWAIT, else 0. -/
def State.preemptHere (s : State) : State :=
  let rk : BitVec 3 := if s.cur.run = .vwait then 2 else 0
  s.raisePreempt { s.trapHere .preempt 0 with rk := rk }

/-- The strand's task leaves at a pre-emption point: its launch has ended (R363). -/
def State.leaveEnded (s : State) : State :=
  let s1 := s.withCur s.cur.release
  match s.cur.task with
  | none => s1
  | some t => s1.finishEnd t.1

/-- The strand stops for a move of its core, which counts as a stop (R398, Table 23-4). -/
def State.stopForMove (s : State) : State :=
  (s.count 0x0C 1).withCur { s.cur.leavePoint with run := .moved }

/-- What the Landing does at a pre-emption point: the end of the launch, the stop for a move, a forced stop, and where `raise`
says so PREEMPT. -/
noncomputable def State.pointStop (s : State) (raise : Bool) : Option State :=
  if s.cur.preempt = .ending && s.cur.stoppable then some (s.atStop State.leaveEnded)
  else if s.cur.moving && s.cur.stoppable then some (s.atStop State.stopForMove)
  else if s.held then none
  else if s.cur.preempt = .forced && !s.cur.unsettled then some (s.atStop State.forceStop)
  else if raise && s.cur.asked && s.cur.stoppable then some (s.atStop State.preemptHere)
  else none

/-- What comes before the next instruction at a boundary: the Landing's stops, held late errors, held imprecise watch
matches (R346, R332); not while IN is 1 (R341). -/
noncomputable def State.boundaryStop (s : State) : Option State :=
  match s.pointStop false with
  | some t => some t
  | none =>
    if s.cur.trIn then none
    else if s.cur.lateHeld ≠ [] || s.cur.panelLate.isSome then some (s.raiseLate 0 0 s.cur.pc none)
    else if s.cur.watchHeld ≠ [] then some s.raiseHeldWatch
    else none

/-- PREEMPT may be raised at this boundary. -/
def State.mayPreempt (s : State) : Bool := s.cur.asked && s.cur.stoppable && !s.held

/-! ### Parcels -/

/-- A parcel waits at its place and has not retired. -/
def Run.waits : Run → Bool
  | .waitev => true
  | .fenceE => true
  | .atomicWait => true
  | .proxyWait => true
  | .routeStall => true
  | .haltWait => true
  | _ => false

/-- A parcel's outcome: it retires, counted by the events assigned before it (R393), unless it traps or waits. -/
def finishParcel (events : Vector (BitVec 8) 16) : Out → Out
  | .next u => .next (if u.cur.note.isSome || u.cur.run.waits then u else u.retireCounting events)
  | .fault r => .fault r
  | .refused r => .refused r

/-- A decode check of a parcel failed (Table 4-19). -/
def decodeCause : Cause → Bool
  | .illegal => true
  | .priv => true
  | .mode => true
  | .vowner => true
  | _ => false

/-- The meaning of a parcel that decodes to none is ILLEGAL_WORD's (R72). -/
noncomputable def execParcel (w : BitVec 32) (s : State) : Out :=
  match decodeParcel w with
  | none => execIllegalWord (w.setWidth 64) s
  | some i => exec i s

/-- A parcel fetched at pc: a decode trap comes before PREEMPT, and PREEMPT before its execution (R365); `fresh` says that
the strand stands at a boundary, where PREEMPT may be raised (R356, R373). -/
noncomputable def State.runParcel (s : State) (fresh : Bool) (w : BitVec 32) : Out :=
  let r := execParcel w (s.present1 (w.setWidth 64))
  if fresh && s.mayPreempt then
    match r with
    | .next u => if u.cur.note.any fun t => decodeCause t.cause then .next u else .next s.preemptHere
    | .fault x => .fault x
    | .refused x => .refused x
  else finishParcel s.coreOf.events r

/-! ### The issue of a strand -/

/-- A convoy that starts at pc: its decode checks, PREEMPT at a boundary unless it is to arrive within a matrix word, then its
words. -/
noncomputable def State.startConvoy (s : State) (fresh : Bool) : Out :=
  match s.convoyTrap with
  | some t => .next t
  | none =>
    let inMatrix := match s.cur.preempt with
      | .arriving _ => (decodeConvoy s.cur (s.convoyAt s.cur.pc 4).1).any fun c => c.info.klass = .matrix
      | _ => false
    if fresh && s.mayPreempt && !inMatrix then .next s.preemptHere else s.runConvoy

/-- A convoy that has not begun carries nothing; one that TRAPRET issues again carries what it did (R344, R348). -/
def State.freshConvoy (s : State) : State :=
  s.withCur { s.cur with slot := 0, history := none, conv := if s.cur.reissue = .none then .none else s.cur.conv }

/-- A parcel carries nothing, whatever TRAPRET has left. -/
def State.freshParcel (s : State) : State :=
  s.withCur { s.cur with slot := 0, history := none, conv := .none, reissue := .none }

/-- What a turn may have the counters count whatever is executed (Table 23-4, log 7): clocks, and the lines of a fetch. -/
def State.stirTurn (s : State) : State := s.stir s.cur.id.core [1, 7]

/-- What a parcel may have them count besides: lines and walks of its accesses. -/
def State.stirParcel (s : State) (w : BitVec 32) : State :=
  s.stir s.cur.id.core (((decodeParcel w).map Instr.reaches).getD [])

/-- What is fetched at pc, run. -/
noncomputable def State.issueHere (s : State) (fresh : Bool) : Out :=
  match s.fetch with
  | .trap c => .next (s.takeTrap { cause := c, rk := 0, slot := 0, tpc := s.cur.pc, tval := s.cur.pc, pages := [] })
  | .parcel w => (s.stirTurn.stirParcel w).freshParcel.runParcel fresh w
  | .wide _ => s.stirTurn.freshConvoy.startConvoy fresh

/-- The strand stands within a convoy, at a word that waits or has others done before it. -/
def Strand.paused (c : Strand) : Bool :=
  decide (c.slot ≠ 0) || decide (c.run = .vwait) || (decide (c.run = .routeStall) && isWide c.iword)

/-- The retirement that is left of a convoy or, after TRAPRET, of a parcel (R348). -/
def State.finishLeft (s : State) : State :=
  let t := s.withCur { s.cur with run := .running }
  if s.cur.reissue = .parcel then (t.withCur { t.cur with reissue := .none }).retireParcel
  else (t.stir t.cur.id.core [1, 7, 8, 9]).retireConvoy t.frame true

/-- A strand's turn: the retirement that is left, the rest of a paused convoy, a wait tried again, or the next parcel or
convoy after what comes first at a boundary. -/
noncomputable def State.issue (s : State) : Out :=
  if s.cur.reissue = .retire || s.cur.reissue = .parcel then .next s.finishLeft
  else if s.cur.atPoint && !s.cur.atBoundary then
    match s.pointStop true with
    | some t => .next t
    | none => if s.cur.paused then s.stirTurn.runConvoy else s.issueHere false
  else if s.cur.paused then s.stirTurn.runConvoy
  else if s.cur.atBoundary then
    match s.boundaryStop with
    | some t => .next t
    | none => s.issueHere true
  else s.issueHere false

/-- The strand has something to issue or to look at again. -/
def Strand.issuable (c : Strand) : Bool :=
  match c.run with
  | .running => true
  | .vwait => true
  | .waitev => true
  | .queueRoom => true
  | .qstatWait => true
  | .fenceE => true
  | .routeStall => true
  | .haltWait => true
  | _ => false

/-- A strand's turn, whichever one stands in front. -/
noncomputable def State.issueOf (s : State) (who : StrandId) : Out :=
  let s1 := s.focus who
  if s1.cur.id = who && s1.cur.issuable then
    match s1.issue with
    | .next t => .next (t.focus s.cur.id)
    | .fault r => .fault r
    | .refused r => .refused r
  else .next s

/-! ### What may happen next of itself (log 3) -/

/-- The event that performs the oldest command of an engine queue. -/
noncomputable def performOf (who : StrandId) (j : Nat) : QCmd → Instr
  | .copy _ _ _ _ _ => .qcopyPerform who (BitVec.ofNat 2 j)
  | .gather _ => .qgatherPerform who (BitVec.ofNat 2 j)
  | .scatter _ => .qscatterPerform who (BitVec.ofNat 2 j)
  | .pload _ => .qploadPerform who (BitVec.ofNat 2 j)
  | .pstore _ => .qpstorePerform who (BitVec.ofNat 2 j)
  | .spload _ => .qsploadPerform who (BitVec.ofNat 2 j)
  | .fence _ _ => .qfencePass who (BitVec.ofNat 2 j)
  | .signal _ _ _ _ => .qsignalPerform who (BitVec.ofNat 2 j)

/-- The engines' part of what may happen next. -/
noncomputable def engineActs (c : Strand) : List Act :=
  (List.range 4).filterMap fun j =>
    let q := c.queue (BitVec.ofNat 2 j)
    if q.halted || c.run = .stopped then none
    else match q.entries with
      | [] => none
      | e :: _ => match e.cmd with
        | .fence id js => if c.fenceReady id js then some (.event (performOf c.id j e.cmd)) else none
        | _ => some (.event (performOf c.id j e.cmd))

/-- The event that a holding packet waits for. -/
noncomputable def holdActs (h : HwQueue) : List Act :=
  match h.hold with
  | none => []
  | some (.wait _) => [.event (.waitRecheck h.id)]
  | some (.depend _ _) => [.event (.dependSatisfied h.id)]
  | some (.copy _) => [.event (.copyDone h.id)]

/-- The launches that may retire or resume. -/
noncomputable def launchActs (l : Launch) : List Act :=
  match l.state with
  | .running => if l.tasks ≤ l.halted then [.event (.launchRetire l.lid)] else []
  | .preempted => [.event (.gangResume l.lid)]
  | .waiting => []
  | .ended => []

/-- Selection on each die that has a ready queue or a signal held: it runs at least every 10 µs (R102). -/
def State.selectActs (s : State) : List Act :=
  ([0, 1] : List (BitVec 1)).filterMap fun die =>
    if s.hwq.any fun h => decide (s.dieOf h.id.part = die) && (s.queueReady h || decide (h.heldSignals ≠ [])) then some (.select die) else none

/-- The partitions and the moves whose tasks have stopped: a teardown, the end of a move (R386, R398). -/
def State.landingActs (s : State) : List Act :=
  ((s.parts.filter fun p => p.ending && !s.busy p.pid).map fun p => Act.tearDown p.pid) ++
    (s.module.moving.filter s.moveReady).map Act.moveDone

/-- Everything that may happen next with no agent from outside and no clock: strands issue, engines perform, packets go on,
launches retire and resume, queues are selected, teardowns and moves end. -/
noncomputable def State.enabled (s : State) : List Act :=
  ((s.strands.filter Strand.issuable).map fun c => Act.issue c.id) ++ s.strands.flatMap engineActs ++
    s.hwq.flatMap holdActs ++ s.launches.flatMap launchActs ++
    s.selectActs ++ s.landingActs

/-- An error that no check corrects, in a command, a step, a signal or a save (R97, R99, R250, R365, R401). -/
def State.dataError (s : State) : DataError → State
  | .engine who j detail => s.onStrand who fun t => t.commandDataError j detail
  | .step q idx step => s.stepDataError q idx step
  | .save ctx => s.saveDataError ctx

/-- The event that performs a request of a session, by its verb and, for MAP_WINDOW, its operation (Table 21-12). -/
noncomputable def requestEvent (m : Msg) : Instr :=
  match msgVerb m with
  | 2 => .attest m
  | 3 => .createPartition m
  | 4 => .loadCode m
  | 5 => if payload m 1 1 = 1 then .mapWindowChange m else if payload m 1 1 = 2 then .mapWindowRemove m else .mapWindowMap m
  | 6 => .submit m
  | 7 => .readCounters m
  | 8 => .switchPort m
  | 9 => .checkpoint m
  | _ => .close m

/-- One act. An outside agent writes no byte of an arena (R29). -/
noncomputable def State.act (s : State) : Act → Out
  | .event i => exec i s
  | .packet p => .next (s.runPacket p)
  | .doorbell q => execQueueDoorbell q s
  | .runStart q => .next ((s.runStart q).runStop q)
  | .runStop q => .next (s.runStop q)
  | .select die => .next (s.select die)
  | .issue who => s.issueOf who
  | .poke host addr byte =>
    .next (if host then { s with hostMem := s.hostMem.write addr byte }
      else if s.inArena addr then s else { s with mem := s.mem.write addr byte })
  | .dataError e => .next (s.dataError e)
  | .tearDown p => .next (s.tearDownDue p)
  | .moveDone p => .next (s.moveEnds p)
  | .request m => exec (requestEvent m) s

/-- Which of several acts comes next is a free value: the spec orders strands, engines and packets only as each instruction
says (R120, R121, log 3). -/
noncomputable def State.chosen (s : State) : List Act → Option (Act × State)
  | [] => none
  | [a] => some (a, s)
  | as =>
    let r := s.takeFree
    (as[r.1.toNat % as.length]?).map fun a => (a, r.2)

/-- The next thing that happens: the oldest act due, or one of those that may happen of themselves, or nothing. -/
noncomputable def State.advance (s : State) : Out :=
  match s.agenda with
  | a :: rest => State.act { s with agenda := rest } a
  | [] =>
    match s.chosen s.enabled with
    | none => .next s
    | some (a, t) => t.act a

/-! ### An instruction placed where the next step fetches it -/

/-- The strand ready to issue at pc: running, at a boundary, with nothing held that comes before the instruction. -/
def Strand.ready (c : Strand) : Strand :=
  { c with
    run := .running, slot := 0, reissue := .none, preempt := .none, lateHeld := [], panelLate := none, watchHeld := []
    moving := false, history := none, vwait := none }

/-- pc aligned for the instruction, and an arena around it where it lies in none (log 2). -/
def Strand.placed (c : Strand) (n : Nat) : Strand :=
  let pc : Word := BitVec.ofNat 64 (c.pc.toNat / n * n)
  if c.outside pc 8 then
    { c with
      pc := pc, arenabase := BitVec.ofNat 64 (pc.toNat / 65536 * 65536), arenabound := BitVec.ofNat 64 (pc.toNat / 65536 * 65536 + 65536) }
  else { c with pc := pc }

/-- The instruction stored at pc of the issuing strand, whose turn comes next. -/
def State.putWord (s : State) (w : Word) : State :=
  let n := if isWide w then 8 else 4
  let c := (s.cur.ready).placed n
  { s with
    cur := c, agenda := .issue c.id :: s.agenda
    mem := s.mem.writeLE c.pc.toNat (if c.pc.toNat % 8 = 0 then 8 else 4) w.toNat }

end Sys2Proof.Machine
end

