-- ==== Sys2Proof/Machine/Step.lean ====
section
/-! DEFINITION. Machine/Step.lean: one step of the module, and an instruction placed where the next step fetches it. -/

namespace Sys2Proof.Machine

/-- One step: the next thing that happens in the module. -/
noncomputable def step (s : State) : Host.Outcome State Fault Refusal := s.advance

/-- The state with an instruction of nbits bits stored where the next step fetches; bits above nbits are zero. -/
def State.withFetchWord (s : State) (nbits w : Nat) : State := s.putWord (BitVec.ofNat 64 (w % 2 ^ nbits))

end Sys2Proof.Machine
end

