-- ==== Sys2Proof/Laws/Encoding.lean ====
section
/-! SUPPORT. Laws/Encoding.lean: the codes, the raw formats and the operand forms of 04_encodings are read back as they
were written. -/

namespace Sys2Proof

set_option linter.unusedSimpArgs false
set_option Elab.async false

/-! ### Codes -/

theorem EW.ofCode_code (c : EW) : EW.ofCode c.code = some c := by
  cases c <;> rfl

theorem MemEW.ofCode_code (c : MemEW) : MemEW.ofCode c.code = some c := by
  rcases c with ⟨_ | _ | _ | _⟩ | _ <;> rfl

theorem Scope.ofCode_code (c : Scope) : Scope.ofCode c.code = some c := by
  cases c <;> rfl

theorem AmoOrder.ofCode_code (c : AmoOrder) : AmoOrder.ofCode c.code = some c := by
  cases c <;> rfl

theorem FFmt.ofCode_code (c : FFmt) : FFmt.ofCode c.code = some c := by
  cases c <;> rfl

theorem IntTy.ofCode_code (c : IntTy) : IntTy.ofCode c.code = some c := by
  cases c <;> rfl

theorem CvtRM.ofCode_code (c : CvtRM) : CvtRM.ofCode c.code = some c := by
  rcases c with ⟨_ | _ | _ | _ | _⟩ | _ <;> rfl

theorem Cond.ofCode_code (c : Cond) : Cond.ofCode c.code = some c := by
  cases c <;> rfl

theorem FCond.ofCode_code (c : FCond) : FCond.ofCode c.code = some c := by
  cases c <;> rfl

theorem Settle.ofCode_code (c : Settle) : Settle.ofCode c.code = some c := by
  cases c <;> rfl

theorem Fmt.ofCode_code (c : Fmt) : Fmt.ofCode c.code = some c := by
  cases c <;> rfl

theorem RMode.ofCode_code (c : RMode) : RMode.ofCode c.code = some c := by
  cases c <;> rfl

theorem lidx_code : ∀ n : BitVec 2, Csr.ofCode (Csr.lidx n).code = some (.lidx n) := by decide

theorem watch_code : ∀ n : BitVec 2, Csr.ofCode (Csr.watch n).code = some (.watch n) := by decide

theorem wctl_code : ∀ n : BitVec 2, Csr.ofCode (Csr.wctl n).code = some (.wctl n) := by decide

theorem pcnt_code : ∀ n : BitVec 4, Csr.ofCode (Csr.pcnt n).code = some (.pcnt n) := by decide

theorem Csr.ofCode_code (c : Csr) : Csr.ofCode c.code = some c := by
  cases c with
  | lidx n => exact lidx_code n
  | watch n => exact watch_code n
  | wctl n => exact wctl_code n
  | pcnt n => exact pcnt_code n
  | _ => rfl

theorem VFmt.ofCodes_code (c : VFmt) : VFmt.ofCodes c.ewCode c.bf = some c := by
  cases c <;> rfl

theorem ofXHigh_xHigh : ∀ x : XReg, ofXHigh (xHigh x) = some x := by decide

theorem ofXLow_setWidth : ∀ x : XReg, ofXLow (x.setWidth 6) = some x := by decide

theorem ofM6_setWidth : ∀ x : MReg, ofM6 (x.setWidth 6) = some x := by decide

theorem ofP6_setWidth : ∀ x : BitVec 4, ofP6 (x.setWidth 6) = some x := by decide

theorem StoreMode.ofBits_bits (c : StoreMode) :
    StoreMode.ofBits (BitVec.ofBool c.n) (BitVec.ofBool c.u) c.xb = some c := by
  cases c <;> rfl

theorem bit1_ofBool (b : Bool) : bit1 (BitVec.ofBool b) = b := by cases b <;> rfl

/-! ### Raw formats -/

theorem RawSR.unpack_pack (r : RawSR) : RawSR.unpack r.pack = r := by
  obtain ⟨major, d, a, b, fn⟩ := r
  have h_major := major.isLt
  have h_d := d.isLt
  have h_a := a.isLt
  have h_b := b.isLt
  have h_fn := fn.isLt
  simp only [RawSR.unpack, RawSR.pack, field, RawSR.mk.injEq]
  and_intros <;> (apply BitVec.eq_of_toNat_eq; simp only [BitVec.toNat_ofNat]; omega)

theorem RawSR.major_pack (r : RawSR) : field 25 7 r.pack = r.major := by
  obtain ⟨major, d, a, b, fn⟩ := r
  have h_major := major.isLt
  have h_d := d.isLt
  have h_a := a.isLt
  have h_b := b.isLt
  have h_fn := fn.isLt
  apply BitVec.eq_of_toNat_eq
  simp only [RawSR.pack, field, BitVec.toNat_ofNat]
  omega

theorem RawSI.unpack_pack (r : RawSI) : RawSI.unpack r.pack = r := by
  obtain ⟨major, d, a, imm⟩ := r
  have h_major := major.isLt
  have h_d := d.isLt
  have h_a := a.isLt
  have h_imm := imm.isLt
  simp only [RawSI.unpack, RawSI.pack, field, RawSI.mk.injEq]
  and_intros <;> (apply BitVec.eq_of_toNat_eq; simp only [BitVec.toNat_ofNat]; omega)

theorem RawSI.major_pack (r : RawSI) : field 25 7 r.pack = r.major := by
  obtain ⟨major, d, a, imm⟩ := r
  have h_major := major.isLt
  have h_d := d.isLt
  have h_a := a.isLt
  have h_imm := imm.isLt
  apply BitVec.eq_of_toNat_eq
  simp only [RawSI.pack, field, BitVec.toNat_ofNat]
  omega

theorem RawSU.unpack_pack (r : RawSU) : RawSU.unpack r.pack = r := by
  obtain ⟨major, d, imm⟩ := r
  have h_major := major.isLt
  have h_d := d.isLt
  have h_imm := imm.isLt
  simp only [RawSU.unpack, RawSU.pack, field, RawSU.mk.injEq]
  and_intros <;> (apply BitVec.eq_of_toNat_eq; simp only [BitVec.toNat_ofNat]; omega)

theorem RawSU.major_pack (r : RawSU) : field 25 7 r.pack = r.major := by
  obtain ⟨major, d, imm⟩ := r
  have h_major := major.isLt
  have h_d := d.isLt
  have h_imm := imm.isLt
  apply BitVec.eq_of_toNat_eq
  simp only [RawSU.pack, field, BitVec.toNat_ofNat]
  omega

theorem RawVV.unpack_pack (r : RawVV) : RawVV.unpack r.pack = r := by
  obtain ⟨major, last, m, d, a, b, c, ew, ew2, fl, fn⟩ := r
  have h_major := major.isLt
  have h_last := last.isLt
  have h_m := m.isLt
  have h_d := d.isLt
  have h_a := a.isLt
  have h_b := b.isLt
  have h_c := c.isLt
  have h_ew := ew.isLt
  have h_ew2 := ew2.isLt
  have h_fl := fl.isLt
  have h_fn := fn.isLt
  simp only [RawVV.unpack, RawVV.pack, field, RawVV.mk.injEq]
  and_intros <;> (apply BitVec.eq_of_toNat_eq; simp only [BitVec.toNat_ofNat]; omega)

theorem RawVV.major_pack (r : RawVV) : field 56 6 r.pack = r.major := by
  obtain ⟨major, last, m, d, a, b, c, ew, ew2, fl, fn⟩ := r
  have h_major := major.isLt
  have h_last := last.isLt
  have h_m := m.isLt
  have h_d := d.isLt
  have h_a := a.isLt
  have h_b := b.isLt
  have h_c := c.isLt
  have h_ew := ew.isLt
  have h_ew2 := ew2.isLt
  have h_fl := fl.isLt
  have h_fn := fn.isLt
  apply BitVec.eq_of_toNat_eq
  simp only [RawVV.pack, field, BitVec.toNat_ofNat]
  omega

theorem RawVV.last_pack (r : RawVV) : field 55 1 r.pack = r.last := by
  obtain ⟨major, last, m, d, a, b, c, ew, ew2, fl, fn⟩ := r
  have h_major := major.isLt
  have h_last := last.isLt
  have h_m := m.isLt
  have h_d := d.isLt
  have h_a := a.isLt
  have h_b := b.isLt
  have h_c := c.isLt
  have h_ew := ew.isLt
  have h_ew2 := ew2.isLt
  have h_fl := fl.isLt
  have h_fn := fn.isLt
  apply BitVec.eq_of_toNat_eq
  simp only [RawVV.pack, field, BitVec.toNat_ofNat]
  omega

theorem RawVV.top_pack (r : RawVV) : field 62 2 r.pack = 3#2 := by
  obtain ⟨major, last, m, d, a, b, c, ew, ew2, fl, fn⟩ := r
  have h_major := major.isLt
  have h_last := last.isLt
  have h_m := m.isLt
  have h_d := d.isLt
  have h_a := a.isLt
  have h_b := b.isLt
  have h_c := c.isLt
  have h_ew := ew.isLt
  have h_ew2 := ew2.isLt
  have h_fl := fl.isLt
  have h_fn := fn.isLt
  apply BitVec.eq_of_toNat_eq
  simp only [RawVV.pack, field, BitVec.toNat_ofNat]
  omega

theorem RawVV.form_pack (r : RawVV) : field 16 2 r.pack = field 0 2 r.fl := by
  obtain ⟨major, last, m, d, a, b, c, ew, ew2, fl, fn⟩ := r
  have h_major := major.isLt
  have h_last := last.isLt
  have h_m := m.isLt
  have h_d := d.isLt
  have h_a := a.isLt
  have h_b := b.isLt
  have h_c := c.isLt
  have h_ew := ew.isLt
  have h_ew2 := ew2.isLt
  have h_fl := fl.isLt
  have h_fn := fn.isLt
  apply BitVec.eq_of_toNat_eq
  simp only [RawVV.pack, field, BitVec.toNat_ofNat]
  omega

theorem RawVI.unpack_pack (r : RawVI) : RawVI.unpack r.pack = r := by
  obtain ⟨major, last, m, d, a, imm, ew, fl, fn⟩ := r
  have h_major := major.isLt
  have h_last := last.isLt
  have h_m := m.isLt
  have h_d := d.isLt
  have h_a := a.isLt
  have h_imm := imm.isLt
  have h_ew := ew.isLt
  have h_fl := fl.isLt
  have h_fn := fn.isLt
  simp only [RawVI.unpack, RawVI.pack, field, RawVI.mk.injEq]
  and_intros <;> (apply BitVec.eq_of_toNat_eq; simp only [BitVec.toNat_ofNat]; omega)

theorem RawVI.major_pack (r : RawVI) : field 56 6 r.pack = r.major := by
  obtain ⟨major, last, m, d, a, imm, ew, fl, fn⟩ := r
  have h_major := major.isLt
  have h_last := last.isLt
  have h_m := m.isLt
  have h_d := d.isLt
  have h_a := a.isLt
  have h_imm := imm.isLt
  have h_ew := ew.isLt
  have h_fl := fl.isLt
  have h_fn := fn.isLt
  apply BitVec.eq_of_toNat_eq
  simp only [RawVI.pack, field, BitVec.toNat_ofNat]
  omega

theorem RawVI.last_pack (r : RawVI) : field 55 1 r.pack = r.last := by
  obtain ⟨major, last, m, d, a, imm, ew, fl, fn⟩ := r
  have h_major := major.isLt
  have h_last := last.isLt
  have h_m := m.isLt
  have h_d := d.isLt
  have h_a := a.isLt
  have h_imm := imm.isLt
  have h_ew := ew.isLt
  have h_fl := fl.isLt
  have h_fn := fn.isLt
  apply BitVec.eq_of_toNat_eq
  simp only [RawVI.pack, field, BitVec.toNat_ofNat]
  omega

theorem RawVI.top_pack (r : RawVI) : field 62 2 r.pack = 3#2 := by
  obtain ⟨major, last, m, d, a, imm, ew, fl, fn⟩ := r
  have h_major := major.isLt
  have h_last := last.isLt
  have h_m := m.isLt
  have h_d := d.isLt
  have h_a := a.isLt
  have h_imm := imm.isLt
  have h_ew := ew.isLt
  have h_fl := fl.isLt
  have h_fn := fn.isLt
  apply BitVec.eq_of_toNat_eq
  simp only [RawVI.pack, field, BitVec.toNat_ofNat]
  omega

theorem RawVI.form_pack (r : RawVI) : field 16 2 r.pack = field 0 2 r.fl := by
  obtain ⟨major, last, m, d, a, imm, ew, fl, fn⟩ := r
  have h_major := major.isLt
  have h_last := last.isLt
  have h_m := m.isLt
  have h_d := d.isLt
  have h_a := a.isLt
  have h_imm := imm.isLt
  have h_ew := ew.isLt
  have h_fl := fl.isLt
  have h_fn := fn.isLt
  apply BitVec.eq_of_toNat_eq
  simp only [RawVI.pack, field, BitVec.toNat_ofNat]
  omega

theorem RawVM.unpack_pack (r : RawVM) : RawVM.unpack r.pack = r := by
  obtain ⟨major, last, m, d, a, b, vi, ew, nf, res, scope, x, n, u, off⟩ := r
  have h_major := major.isLt
  have h_last := last.isLt
  have h_m := m.isLt
  have h_d := d.isLt
  have h_a := a.isLt
  have h_b := b.isLt
  have h_vi := vi.isLt
  have h_ew := ew.isLt
  have h_nf := nf.isLt
  have h_res := res.isLt
  have h_scope := scope.isLt
  have h_x := x.isLt
  have h_n := n.isLt
  have h_u := u.isLt
  have h_off := off.isLt
  simp only [RawVM.unpack, RawVM.pack, field, RawVM.mk.injEq]
  and_intros <;> (apply BitVec.eq_of_toNat_eq; simp only [BitVec.toNat_ofNat]; omega)

theorem RawVM.major_pack (r : RawVM) : field 56 6 r.pack = r.major := by
  obtain ⟨major, last, m, d, a, b, vi, ew, nf, res, scope, x, n, u, off⟩ := r
  have h_major := major.isLt
  have h_last := last.isLt
  have h_m := m.isLt
  have h_d := d.isLt
  have h_a := a.isLt
  have h_b := b.isLt
  have h_vi := vi.isLt
  have h_ew := ew.isLt
  have h_nf := nf.isLt
  have h_res := res.isLt
  have h_scope := scope.isLt
  have h_x := x.isLt
  have h_n := n.isLt
  have h_u := u.isLt
  have h_off := off.isLt
  apply BitVec.eq_of_toNat_eq
  simp only [RawVM.pack, field, BitVec.toNat_ofNat]
  omega

theorem RawVM.last_pack (r : RawVM) : field 55 1 r.pack = r.last := by
  obtain ⟨major, last, m, d, a, b, vi, ew, nf, res, scope, x, n, u, off⟩ := r
  have h_major := major.isLt
  have h_last := last.isLt
  have h_m := m.isLt
  have h_d := d.isLt
  have h_a := a.isLt
  have h_b := b.isLt
  have h_vi := vi.isLt
  have h_ew := ew.isLt
  have h_nf := nf.isLt
  have h_res := res.isLt
  have h_scope := scope.isLt
  have h_x := x.isLt
  have h_n := n.isLt
  have h_u := u.isLt
  have h_off := off.isLt
  apply BitVec.eq_of_toNat_eq
  simp only [RawVM.pack, field, BitVec.toNat_ofNat]
  omega

theorem RawVM.top_pack (r : RawVM) : field 62 2 r.pack = 3#2 := by
  obtain ⟨major, last, m, d, a, b, vi, ew, nf, res, scope, x, n, u, off⟩ := r
  have h_major := major.isLt
  have h_last := last.isLt
  have h_m := m.isLt
  have h_d := d.isLt
  have h_a := a.isLt
  have h_b := b.isLt
  have h_vi := vi.isLt
  have h_ew := ew.isLt
  have h_nf := nf.isLt
  have h_res := res.isLt
  have h_scope := scope.isLt
  have h_x := x.isLt
  have h_n := n.isLt
  have h_u := u.isLt
  have h_off := off.isLt
  apply BitVec.eq_of_toNat_eq
  simp only [RawVM.pack, field, BitVec.toNat_ofNat]
  omega

theorem RawVC.unpack_pack (r : RawVC) : RawVC.unpack r.pack = r := by
  obtain ⟨major, last, m, d, a, b, fn, imm⟩ := r
  have h_major := major.isLt
  have h_last := last.isLt
  have h_m := m.isLt
  have h_d := d.isLt
  have h_a := a.isLt
  have h_b := b.isLt
  have h_fn := fn.isLt
  have h_imm := imm.isLt
  simp only [RawVC.unpack, RawVC.pack, field, RawVC.mk.injEq]
  and_intros <;> (apply BitVec.eq_of_toNat_eq; simp only [BitVec.toNat_ofNat]; omega)

theorem RawVC.major_pack (r : RawVC) : field 56 6 r.pack = r.major := by
  obtain ⟨major, last, m, d, a, b, fn, imm⟩ := r
  have h_major := major.isLt
  have h_last := last.isLt
  have h_m := m.isLt
  have h_d := d.isLt
  have h_a := a.isLt
  have h_b := b.isLt
  have h_fn := fn.isLt
  have h_imm := imm.isLt
  apply BitVec.eq_of_toNat_eq
  simp only [RawVC.pack, field, BitVec.toNat_ofNat]
  omega

theorem RawVC.last_pack (r : RawVC) : field 55 1 r.pack = r.last := by
  obtain ⟨major, last, m, d, a, b, fn, imm⟩ := r
  have h_major := major.isLt
  have h_last := last.isLt
  have h_m := m.isLt
  have h_d := d.isLt
  have h_a := a.isLt
  have h_b := b.isLt
  have h_fn := fn.isLt
  have h_imm := imm.isLt
  apply BitVec.eq_of_toNat_eq
  simp only [RawVC.pack, field, BitVec.toNat_ofNat]
  omega

theorem RawVC.top_pack (r : RawVC) : field 62 2 r.pack = 3#2 := by
  obtain ⟨major, last, m, d, a, b, fn, imm⟩ := r
  have h_major := major.isLt
  have h_last := last.isLt
  have h_m := m.isLt
  have h_d := d.isLt
  have h_a := a.isLt
  have h_b := b.isLt
  have h_fn := fn.isLt
  have h_imm := imm.isLt
  apply BitVec.eq_of_toNat_eq
  simp only [RawVC.pack, field, BitVec.toNat_ofNat]
  omega

theorem RawVB.unpack_pack (r : RawVB) : RawVB.unpack r.pack = r := by
  obtain ⟨major, last, m, d, a, b, off, fn⟩ := r
  have h_major := major.isLt
  have h_last := last.isLt
  have h_m := m.isLt
  have h_d := d.isLt
  have h_a := a.isLt
  have h_b := b.isLt
  have h_off := off.isLt
  have h_fn := fn.isLt
  simp only [RawVB.unpack, RawVB.pack, field, RawVB.mk.injEq]
  and_intros <;> (apply BitVec.eq_of_toNat_eq; simp only [BitVec.toNat_ofNat]; omega)

theorem RawVB.major_pack (r : RawVB) : field 56 6 r.pack = r.major := by
  obtain ⟨major, last, m, d, a, b, off, fn⟩ := r
  have h_major := major.isLt
  have h_last := last.isLt
  have h_m := m.isLt
  have h_d := d.isLt
  have h_a := a.isLt
  have h_b := b.isLt
  have h_off := off.isLt
  have h_fn := fn.isLt
  apply BitVec.eq_of_toNat_eq
  simp only [RawVB.pack, field, BitVec.toNat_ofNat]
  omega

theorem RawVB.last_pack (r : RawVB) : field 55 1 r.pack = r.last := by
  obtain ⟨major, last, m, d, a, b, off, fn⟩ := r
  have h_major := major.isLt
  have h_last := last.isLt
  have h_m := m.isLt
  have h_d := d.isLt
  have h_a := a.isLt
  have h_b := b.isLt
  have h_off := off.isLt
  have h_fn := fn.isLt
  apply BitVec.eq_of_toNat_eq
  simp only [RawVB.pack, field, BitVec.toNat_ofNat]
  omega

theorem RawVB.top_pack (r : RawVB) : field 62 2 r.pack = 3#2 := by
  obtain ⟨major, last, m, d, a, b, off, fn⟩ := r
  have h_major := major.isLt
  have h_last := last.isLt
  have h_m := m.isLt
  have h_d := d.isLt
  have h_a := a.isLt
  have h_b := b.isLt
  have h_off := off.isLt
  have h_fn := fn.isLt
  apply BitVec.eq_of_toNat_eq
  simp only [RawVB.pack, field, BitVec.toNat_ofNat]
  omega

theorem RawVQ.unpack_pack (r : RawVQ) : RawVQ.unpack r.pack = r := by
  obtain ⟨major, last, m, d, a, b, c, e, fl, fn⟩ := r
  have h_major := major.isLt
  have h_last := last.isLt
  have h_m := m.isLt
  have h_d := d.isLt
  have h_a := a.isLt
  have h_b := b.isLt
  have h_c := c.isLt
  have h_e := e.isLt
  have h_fl := fl.isLt
  have h_fn := fn.isLt
  simp only [RawVQ.unpack, RawVQ.pack, field, RawVQ.mk.injEq]
  and_intros <;> (apply BitVec.eq_of_toNat_eq; simp only [BitVec.toNat_ofNat]; omega)

theorem RawVQ.major_pack (r : RawVQ) : field 56 6 r.pack = r.major := by
  obtain ⟨major, last, m, d, a, b, c, e, fl, fn⟩ := r
  have h_major := major.isLt
  have h_last := last.isLt
  have h_m := m.isLt
  have h_d := d.isLt
  have h_a := a.isLt
  have h_b := b.isLt
  have h_c := c.isLt
  have h_e := e.isLt
  have h_fl := fl.isLt
  have h_fn := fn.isLt
  apply BitVec.eq_of_toNat_eq
  simp only [RawVQ.pack, field, BitVec.toNat_ofNat]
  omega

theorem RawVQ.last_pack (r : RawVQ) : field 55 1 r.pack = r.last := by
  obtain ⟨major, last, m, d, a, b, c, e, fl, fn⟩ := r
  have h_major := major.isLt
  have h_last := last.isLt
  have h_m := m.isLt
  have h_d := d.isLt
  have h_a := a.isLt
  have h_b := b.isLt
  have h_c := c.isLt
  have h_e := e.isLt
  have h_fl := fl.isLt
  have h_fn := fn.isLt
  apply BitVec.eq_of_toNat_eq
  simp only [RawVQ.pack, field, BitVec.toNat_ofNat]
  omega

theorem RawVQ.top_pack (r : RawVQ) : field 62 2 r.pack = 3#2 := by
  obtain ⟨major, last, m, d, a, b, c, e, fl, fn⟩ := r
  have h_major := major.isLt
  have h_last := last.isLt
  have h_m := m.isLt
  have h_d := d.isLt
  have h_a := a.isLt
  have h_b := b.isLt
  have h_c := c.isLt
  have h_e := e.isLt
  have h_fl := fl.isLt
  have h_fn := fn.isLt
  apply BitVec.eq_of_toNat_eq
  simp only [RawVQ.pack, field, BitVec.toNat_ofNat]
  omega

theorem RawMX.unpack_pack (r : RawMX) : RawMX.unpack r.pack = r := by
  obtain ⟨major, last, m, d, a, b, acc, fa, fb, grp, p, fn⟩ := r
  have h_major := major.isLt
  have h_last := last.isLt
  have h_m := m.isLt
  have h_d := d.isLt
  have h_a := a.isLt
  have h_b := b.isLt
  have h_acc := acc.isLt
  have h_fa := fa.isLt
  have h_fb := fb.isLt
  have h_grp := grp.isLt
  have h_p := p.isLt
  have h_fn := fn.isLt
  simp only [RawMX.unpack, RawMX.pack, field, RawMX.mk.injEq]
  and_intros <;> (apply BitVec.eq_of_toNat_eq; simp only [BitVec.toNat_ofNat]; omega)

theorem RawMX.major_pack (r : RawMX) : field 56 6 r.pack = r.major := by
  obtain ⟨major, last, m, d, a, b, acc, fa, fb, grp, p, fn⟩ := r
  have h_major := major.isLt
  have h_last := last.isLt
  have h_m := m.isLt
  have h_d := d.isLt
  have h_a := a.isLt
  have h_b := b.isLt
  have h_acc := acc.isLt
  have h_fa := fa.isLt
  have h_fb := fb.isLt
  have h_grp := grp.isLt
  have h_p := p.isLt
  have h_fn := fn.isLt
  apply BitVec.eq_of_toNat_eq
  simp only [RawMX.pack, field, BitVec.toNat_ofNat]
  omega

theorem RawMX.last_pack (r : RawMX) : field 55 1 r.pack = r.last := by
  obtain ⟨major, last, m, d, a, b, acc, fa, fb, grp, p, fn⟩ := r
  have h_major := major.isLt
  have h_last := last.isLt
  have h_m := m.isLt
  have h_d := d.isLt
  have h_a := a.isLt
  have h_b := b.isLt
  have h_acc := acc.isLt
  have h_fa := fa.isLt
  have h_fb := fb.isLt
  have h_grp := grp.isLt
  have h_p := p.isLt
  have h_fn := fn.isLt
  apply BitVec.eq_of_toNat_eq
  simp only [RawMX.pack, field, BitVec.toNat_ofNat]
  omega

theorem RawMX.top_pack (r : RawMX) : field 62 2 r.pack = 3#2 := by
  obtain ⟨major, last, m, d, a, b, acc, fa, fb, grp, p, fn⟩ := r
  have h_major := major.isLt
  have h_last := last.isLt
  have h_m := m.isLt
  have h_d := d.isLt
  have h_a := a.isLt
  have h_b := b.isLt
  have h_acc := acc.isLt
  have h_fa := fa.isLt
  have h_fb := fb.isLt
  have h_grp := grp.isLt
  have h_p := p.isLt
  have h_fn := fn.isLt
  apply BitVec.eq_of_toNat_eq
  simp only [RawMX.pack, field, BitVec.toNat_ofNat]
  omega

/-! ### Operand forms -/

theorem whenOk_pos {α : Type} {c : Bool} (h : c = true) (a : α) : whenOk c a = some a := by simp [whenOk, h]

theorem RRR.ofRaw_raw (o : RRR) (major : BitVec 7) (fn : BitVec 10) :
    RRR.ofRaw (o.raw major fn) = some o := by
  simp only [RRR.ofRaw, RRR.raw, Option.bind_some]
  refine (whenOk_pos ?_ _).trans ?_
  · first | rfl | (simp; done) | (simp; omega)
  · first | rfl | (simp; done) | (simp [field]; omega)

theorem RR.ofRaw_raw (o : RR) (major : BitVec 7) (fn : BitVec 10) :
    RR.ofRaw (o.raw major fn) = some o := by
  simp only [RR.ofRaw, RR.raw, Option.bind_some]
  refine (whenOk_pos ?_ _).trans ?_
  · first | rfl | (simp; done) | (simp; omega)
  · first | rfl | (simp; done) | (simp [field]; omega)

theorem RRI.ofRaw_raw (o : RRI) (major : BitVec 7) :
    RRI.ofRaw (o.raw major) = some o := by
  simp only [RRI.ofRaw, RRI.raw, Option.bind_some]
  refine (whenOk_pos ?_ _).trans ?_
  · first | rfl | (simp; done) | (simp; omega)
  · first | rfl | (simp; done) | (simp [field]; omega)

theorem RRSh.ofRaw_raw (o : RRSh) (major : BitVec 7) :
    RRSh.ofRaw (o.raw major) = some o := by
  have := o.sh.isLt
  simp only [RRSh.ofRaw, RRSh.raw, Option.bind_some]
  refine (whenOk_pos ?_ _).trans ?_
  · first | rfl | (simp; done) | (simp; omega)
  · first | rfl | (simp; done) | (simp [field]; omega)

theorem RI20.ofRaw_raw (o : RI20) (major : BitVec 7) :
    RI20.ofRaw (o.raw major) = some o := by
  simp only [RI20.ofRaw, RI20.raw, Option.bind_some]
  refine (whenOk_pos ?_ _).trans ?_
  · first | rfl | (simp; done) | (simp; omega)
  · first | rfl | (simp; done) | (simp [field]; omega)

theorem BranchOp.ofRaw_raw (o : BranchOp) (major : BitVec 7) :
    BranchOp.ofRaw (o.raw major) = some o := by
  simp only [BranchOp.ofRaw, BranchOp.raw, Option.bind_some]
  refine (whenOk_pos ?_ _).trans ?_
  · first | rfl | (simp; done) | (simp; omega)
  · first | rfl | (simp; done) | (simp [field]; omega)

theorem AmoOp.ofRaw_raw (o : AmoOp) (major : BitVec 7) (op : BitVec 4) :
    AmoOp.ofRaw (o.raw major op) = some o := by
  have := Bool.toNat_lt o.w32
  have := o.order.code.isLt
  have := o.scope.code.isLt
  have := op.isLt
  have e0 : field 7 3 (BitVec.ofNat 10 (o.scope.code.toNat * 128 + o.order.code.toNat * 32 + o.w32.toNat * 16 + op.toNat)) = o.scope.code := by
    apply BitVec.eq_of_toNat_eq; simp only [field, BitVec.toNat_ofNat, BitVec.toNat_setWidth, BitVec.toNat_ofBool]; omega
  have e1 : field 5 2 (BitVec.ofNat 10 (o.scope.code.toNat * 128 + o.order.code.toNat * 32 + o.w32.toNat * 16 + op.toNat)) = o.order.code := by
    apply BitVec.eq_of_toNat_eq; simp only [field, BitVec.toNat_ofNat, BitVec.toNat_setWidth, BitVec.toNat_ofBool]; omega
  have e2 : field 4 1 (BitVec.ofNat 10 (o.scope.code.toNat * 128 + o.order.code.toNat * 32 + o.w32.toNat * 16 + op.toNat)) = BitVec.ofBool o.w32 := by
    apply BitVec.eq_of_toNat_eq; simp only [field, BitVec.toNat_ofNat, BitVec.toNat_setWidth, BitVec.toNat_ofBool]; omega
  simp only [AmoOp.ofRaw, AmoOp.raw, e0, e1, e2, Scope.ofCode_code, AmoOrder.ofCode_code, bit1_ofBool, Option.bind_some]
  refine (whenOk_pos ?_ _).trans ?_
  · first | rfl | (simp; done) | (simp; omega)
  · first | rfl | (simp; done) | (simp [field]; omega)

theorem FOp2.ofRaw_raw (o : FOp2) (major : BitVec 7) (fc : BitVec 8) :
    FOp2.ofRaw (o.raw major fc) = some o := by
  have := fc.isLt
  have := o.fmt.code.isLt
  have e0 : field 8 2 (BitVec.ofNat 10 (o.fmt.code.toNat * 256 + fc.toNat)) = o.fmt.code := by
    apply BitVec.eq_of_toNat_eq; simp only [field, BitVec.toNat_ofNat, BitVec.toNat_setWidth, BitVec.toNat_ofBool]; omega
  simp only [FOp2.ofRaw, FOp2.raw, e0, FFmt.ofCode_code, Option.bind_some]
  refine (whenOk_pos ?_ _).trans ?_
  · first | rfl | (simp; done) | (simp; omega)
  · first | rfl | (simp; done) | (simp [field]; omega)

theorem FOp1.ofRaw_raw (o : FOp1) (major : BitVec 7) (fc : BitVec 8) :
    FOp1.ofRaw (o.raw major fc) = some o := by
  have := fc.isLt
  have := o.fmt.code.isLt
  have e0 : field 8 2 (BitVec.ofNat 10 (o.fmt.code.toNat * 256 + fc.toNat)) = o.fmt.code := by
    apply BitVec.eq_of_toNat_eq; simp only [field, BitVec.toNat_ofNat, BitVec.toNat_setWidth, BitVec.toNat_ofBool]; omega
  simp only [FOp1.ofRaw, FOp1.raw, e0, FFmt.ofCode_code, Option.bind_some]
  refine (whenOk_pos ?_ _).trans ?_
  · first | rfl | (simp; done) | (simp; omega)
  · first | rfl | (simp; done) | (simp [field]; omega)

theorem FCvtInt.ofRaw_raw (o : FCvtInt) (major : BitVec 7) (fc : BitVec 8) :
    FCvtInt.ofRaw (o.raw major fc) = some o := by
  have := fc.isLt
  have := o.fmt.code.isLt
  have e0 : field 8 2 (BitVec.ofNat 10 (o.fmt.code.toNat * 256 + fc.toNat)) = o.fmt.code := by
    apply BitVec.eq_of_toNat_eq; simp only [field, BitVec.toNat_ofNat, BitVec.toNat_setWidth, BitVec.toNat_ofBool]; omega
  simp only [FCvtInt.ofRaw, FCvtInt.raw, e0, FFmt.ofCode_code, IntTy.ofCode_code, Option.bind_some]
  refine (whenOk_pos ?_ _).trans ?_
  · first | rfl | (simp; done) | (simp; omega)
  · first | rfl | (simp; done) | (simp [field]; omega)

theorem FCvtFlt.ofRaw_raw (o : FCvtFlt) (major : BitVec 7) (fc : BitVec 8) :
    FCvtFlt.ofRaw (o.raw major fc) = some o := by
  have := fc.isLt
  have := o.dst.code.isLt
  have := o.src.code.isLt
  have e0 : field 8 2 (BitVec.ofNat 10 (o.dst.code.toNat * 256 + fc.toNat)) = o.dst.code := by
    apply BitVec.eq_of_toNat_eq; simp only [field, BitVec.toNat_ofNat]; omega
  have e1 : (o.src.code.setWidth 5).setWidth 2 = o.src.code := by cases o.src <;> rfl
  simp only [FCvtFlt.ofRaw, FCvtFlt.raw, e0, e1, FFmt.ofCode_code, Option.bind_some]
  refine (whenOk_pos ?_ _).trans rfl
  simp; omega

theorem FOp3.ofRaw_raw (o : FOp3) (major : BitVec 7) (op : BitVec 3) :
    FOp3.ofRaw (o.raw major op) = some o := by
  have := o.c.isLt
  have := o.fmt.code.isLt
  have := op.isLt
  have e0 : field 3 2 (BitVec.ofNat 10 (o.c.toNat * 32 + o.fmt.code.toNat * 8 + op.toNat)) = o.fmt.code := by
    apply BitVec.eq_of_toNat_eq; simp only [field, BitVec.toNat_ofNat, BitVec.toNat_setWidth, BitVec.toNat_ofBool]; omega
  have e1 : field 5 5 (BitVec.ofNat 10 (o.c.toNat * 32 + o.fmt.code.toNat * 8 + op.toNat)) = o.c := by
    apply BitVec.eq_of_toNat_eq; simp only [field, BitVec.toNat_ofNat, BitVec.toNat_setWidth, BitVec.toNat_ofBool]; omega
  simp only [FOp3.ofRaw, FOp3.raw, e0, e1, FFmt.ofCode_code, Option.bind_some]
  refine (whenOk_pos ?_ _).trans ?_
  · first | rfl | (simp; done) | (simp; omega)
  · first | rfl | (simp; done) | (simp [field]; omega)

theorem CsrGet.ofRaw_raw (o : CsrGet) (major : BitVec 7) (op : BitVec 3) :
    CsrGet.ofRaw (o.raw major op) = some o := by
  have := o.csr.code.isLt
  have := op.isLt
  have e0 : field 0 12 (BitVec.ofNat 15 (op.toNat * 4096 + o.csr.code.toNat)) = o.csr.code := by
    apply BitVec.eq_of_toNat_eq; simp only [field, BitVec.toNat_ofNat, BitVec.toNat_setWidth, BitVec.toNat_ofBool]; omega
  simp only [CsrGet.ofRaw, CsrGet.raw, e0, Csr.ofCode_code, Option.bind_some]
  refine (whenOk_pos ?_ _).trans ?_
  · first | rfl | (simp; done) | (simp; omega)
  · first | rfl | (simp; done) | (simp [field]; omega)

theorem CsrPut.ofRaw_raw (o : CsrPut) (major : BitVec 7) (op : BitVec 3) :
    CsrPut.ofRaw (o.raw major op) = some o := by
  have := o.csr.code.isLt
  have := op.isLt
  have e0 : field 0 12 (BitVec.ofNat 15 (op.toNat * 4096 + o.csr.code.toNat)) = o.csr.code := by
    apply BitVec.eq_of_toNat_eq; simp only [field, BitVec.toNat_ofNat, BitVec.toNat_setWidth, BitVec.toNat_ofBool]; omega
  simp only [CsrPut.ofRaw, CsrPut.raw, e0, Csr.ofCode_code, Option.bind_some]
  refine (whenOk_pos ?_ _).trans ?_
  · first | rfl | (simp; done) | (simp; omega)
  · first | rfl | (simp; done) | (simp [field]; omega)

theorem CsrRmw.ofRaw_raw (o : CsrRmw) (major : BitVec 7) (op : BitVec 3) :
    CsrRmw.ofRaw (o.raw major op) = some o := by
  have := o.csr.code.isLt
  have := op.isLt
  have e0 : field 0 12 (BitVec.ofNat 15 (op.toNat * 4096 + o.csr.code.toNat)) = o.csr.code := by
    apply BitVec.eq_of_toNat_eq; simp only [field, BitVec.toNat_ofNat, BitVec.toNat_setWidth, BitVec.toNat_ofBool]; omega
  simp only [CsrRmw.ofRaw, CsrRmw.raw, e0, Csr.ofCode_code, Option.bind_some]
  refine (whenOk_pos ?_ _).trans ?_
  · first | rfl | (simp; done) | (simp; omega)
  · first | rfl | (simp; done) | (simp [field]; omega)

theorem FenceOp.ofRaw_raw (o : FenceOp) (major : BitVec 7) :
    FenceOp.ofRaw (o.raw major) = some o := by
  have := Bool.toNat_lt o.e
  have := o.kinds.isLt
  have := o.scope.code.isLt
  have e0 : field 0 3 (BitVec.ofNat 15 (o.e.toNat * 128 + o.kinds.toNat * 8 + o.scope.code.toNat)) = o.scope.code := by
    apply BitVec.eq_of_toNat_eq; simp only [field, BitVec.toNat_ofNat, BitVec.toNat_setWidth, BitVec.toNat_ofBool]; omega
  have e1 : field 3 4 (BitVec.ofNat 15 (o.e.toNat * 128 + o.kinds.toNat * 8 + o.scope.code.toNat)) = o.kinds := by
    apply BitVec.eq_of_toNat_eq; simp only [field, BitVec.toNat_ofNat, BitVec.toNat_setWidth, BitVec.toNat_ofBool]; omega
  have e2 : field 7 1 (BitVec.ofNat 15 (o.e.toNat * 128 + o.kinds.toNat * 8 + o.scope.code.toNat)) = BitVec.ofBool o.e := by
    apply BitVec.eq_of_toNat_eq; simp only [field, BitVec.toNat_ofNat, BitVec.toNat_setWidth, BitVec.toNat_ofBool]; omega
  simp only [FenceOp.ofRaw, FenceOp.raw, e0, e1, e2, Scope.ofCode_code, bit1_ofBool, Option.bind_some]
  refine (whenOk_pos ?_ _).trans ?_
  · first | rfl | (simp; done) | (simp; omega)
  · first | rfl | (simp; done) | (simp [field]; omega)

theorem ResumeOp.ofRaw_raw (o : ResumeOp) (major : BitVec 7) (fn : BitVec 10) :
    ResumeOp.ofRaw (o.raw major fn) = some o := by
  simp only [ResumeOp.ofRaw, ResumeOp.raw, Settle.ofCode_code, Option.bind_some]
  refine (whenOk_pos ?_ _).trans ?_
  · first | rfl | (simp; done) | (simp; omega)
  · first | rfl | (simp; done) | (simp [field]; omega)

theorem InvtlbOp.ofRaw_raw (o : InvtlbOp) (major : BitVec 7) (fn : BitVec 10) :
    InvtlbOp.ofRaw (o.raw major fn) = some o := by
  obtain ⟨a, b⟩ := o
  cases b <;> simp [InvtlbOp.ofRaw, InvtlbOp.raw, whenOk]

theorem CacheOp.ofRaw_raw (o : CacheOp) (major : BitVec 7) (fn : BitVec 10) :
    CacheOp.ofRaw (o.raw major fn) = some o := by
  have := o.op.isLt
  simp only [CacheOp.ofRaw, CacheOp.raw, Option.bind_some]
  refine (whenOk_pos ?_ _).trans ?_
  · first | rfl | (simp; done) | (simp; omega)
  · first | rfl | (simp; done) | (simp [field]; omega)

theorem VV.ofRaw_raw (o : VV) (major : BitVec 6) (last : Bool) (fn : BitVec 16) :
    VV.ofRaw (o.raw major last fn) = some o := by
  simp only [VV.ofRaw, VV.raw, EW.ofCode_code, Option.bind_some]
  refine (whenOk_pos ?_ _).trans ?_
  · first | rfl | (simp; done) | (simp; omega)
  · first | rfl | (simp; done) | (simp [field]; omega)

theorem VS.ofRaw_raw (o : VS) (major : BitVec 6) (last : Bool) (fn : BitVec 16) :
    VS.ofRaw (o.raw major last fn) = some o := by
  simp only [VS.ofRaw, VS.raw, EW.ofCode_code, ofXHigh_xHigh, Option.bind_some]
  refine (whenOk_pos ?_ _).trans ?_
  · first | rfl | (simp; done) | (simp; omega)
  · first | rfl | (simp; done) | (simp [field]; omega)

theorem VI.ofRaw_raw (o : VI) (major : BitVec 6) (last : Bool) (fn : BitVec 16) :
    VI.ofRaw (o.raw major last fn) = some o := by
  simp only [VI.ofRaw, VI.raw, EW.ofCode_code, Option.bind_some]
  refine (whenOk_pos ?_ _).trans ?_
  · first | rfl | (simp; done) | (simp; omega)
  · first | rfl | (simp; done) | (simp [field]; omega)

theorem VV1.ofRawB_rawB (o : VV1) (major : BitVec 6) (last : Bool) (fn : BitVec 16) :
    VV1.ofRawB (o.rawB major last fn) = some o := by
  simp only [VV1.ofRawB, VV1.rawB, EW.ofCode_code, Option.bind_some]
  refine (whenOk_pos ?_ _).trans ?_
  · first | rfl | (simp; done) | (simp; omega)
  · first | rfl | (simp; done) | (simp [field]; omega)

theorem VV1.ofRawA_rawA (o : VV1) (major : BitVec 6) (last : Bool) (fn : BitVec 16) :
    VV1.ofRawA (o.rawA major last fn) = some o := by
  simp only [VV1.ofRawA, VV1.rawA, EW.ofCode_code, Option.bind_some]
  refine (whenOk_pos ?_ _).trans ?_
  · first | rfl | (simp; done) | (simp; omega)
  · first | rfl | (simp; done) | (simp [field]; omega)

theorem VS1.ofRaw_raw (o : VS1) (major : BitVec 6) (last : Bool) (fn : BitVec 16) :
    VS1.ofRaw (o.raw major last fn) = some o := by
  simp only [VS1.ofRaw, VS1.raw, EW.ofCode_code, ofXHigh_xHigh, Option.bind_some]
  refine (whenOk_pos ?_ _).trans ?_
  · first | rfl | (simp; done) | (simp; omega)
  · first | rfl | (simp; done) | (simp [field]; omega)

theorem VI1.ofRaw_raw (o : VI1) (major : BitVec 6) (last : Bool) (fn : BitVec 16) :
    VI1.ofRaw (o.raw major last fn) = some o := by
  simp only [VI1.ofRaw, VI1.raw, EW.ofCode_code, Option.bind_some]
  refine (whenOk_pos ?_ _).trans ?_
  · first | rfl | (simp; done) | (simp; omega)
  · first | rfl | (simp; done) | (simp [field]; omega)

theorem VVW.ofRaw_raw (o : VVW) (major : BitVec 6) (last : Bool) (fn : BitVec 16) :
    VVW.ofRaw (o.raw major last fn) = some o := by
  obtain ⟨m, d, a, b, ew, wide⟩ := o
  cases wide <;> cases ew <;> simp [VVW.ofRaw, VVW.raw, whenOk, EW.ofCode, EW.code]

theorem CmpVV.ofRaw_raw (o : CmpVV) (major : BitVec 6) (last : Bool) :
    CmpVV.ofRaw (o.raw major last) = some o := by
  have := o.d.isLt
  simp only [CmpVV.ofRaw, CmpVV.raw, EW.ofCode_code, Cond.ofCode_code, ofM6_setWidth, Option.bind_some]
  refine (whenOk_pos ?_ _).trans ?_
  · first | rfl | (simp; done) | (simp; omega)
  · first | rfl | (simp; done) | (simp [field]; omega)

theorem CmpVS.ofRaw_raw (o : CmpVS) (major : BitVec 6) (last : Bool) :
    CmpVS.ofRaw (o.raw major last) = some o := by
  have := o.d.isLt
  simp only [CmpVS.ofRaw, CmpVS.raw, EW.ofCode_code, Cond.ofCode_code, ofXHigh_xHigh, ofM6_setWidth, Option.bind_some]
  refine (whenOk_pos ?_ _).trans ?_
  · first | rfl | (simp; done) | (simp; omega)
  · first | rfl | (simp; done) | (simp [field]; omega)

theorem CmpVI.ofRaw_raw (o : CmpVI) (major : BitVec 6) (last : Bool) :
    CmpVI.ofRaw (o.raw major last) = some o := by
  have := o.d.isLt
  simp only [CmpVI.ofRaw, CmpVI.raw, EW.ofCode_code, Cond.ofCode_code, ofM6_setWidth, Option.bind_some]
  refine (whenOk_pos ?_ _).trans ?_
  · first | rfl | (simp; done) | (simp; omega)
  · first | rfl | (simp; done) | (simp [field]; omega)

theorem MaskOp2.ofRaw_raw (o : MaskOp2) (major : BitVec 6) (last : Bool) (fn : BitVec 16) :
    MaskOp2.ofRaw (o.raw major last fn) = some o := by
  have := o.a.isLt
  have := o.b.isLt
  have := o.d.isLt
  simp only [MaskOp2.ofRaw, MaskOp2.raw, ofM6_setWidth, Option.bind_some]
  refine (whenOk_pos ?_ _).trans ?_
  · first | rfl | (simp; done) | (simp; omega)
  · first | rfl | (simp; done) | (simp [field]; omega)

theorem MaskOp1.ofRaw_raw (o : MaskOp1) (major : BitVec 6) (last : Bool) (fn : BitVec 16) :
    MaskOp1.ofRaw (o.raw major last fn) = some o := by
  have := o.a.isLt
  have := o.d.isLt
  simp only [MaskOp1.ofRaw, MaskOp1.raw, ofM6_setWidth, Option.bind_some]
  refine (whenOk_pos ?_ _).trans ?_
  · first | rfl | (simp; done) | (simp; omega)
  · first | rfl | (simp; done) | (simp [field]; omega)

theorem MaskToX.ofRaw_raw (o : MaskToX) (major : BitVec 6) (last : Bool) (fn : BitVec 16) :
    MaskToX.ofRaw (o.raw major last fn) = some o := by
  have := o.a.isLt
  have := o.d.isLt
  simp only [MaskToX.ofRaw, MaskToX.raw, ofXLow_setWidth, ofM6_setWidth, Option.bind_some]
  refine (whenOk_pos ?_ _).trans ?_
  · first | rfl | (simp; done) | (simp; omega)
  · first | rfl | (simp; done) | (simp [field]; omega)

theorem MaskToV.ofRaw_raw (o : MaskToV) (major : BitVec 6) (last : Bool) (fn : BitVec 16) :
    MaskToV.ofRaw (o.raw major last fn) = some o := by
  have := o.a.isLt
  simp only [MaskToV.ofRaw, MaskToV.raw, EW.ofCode_code, ofM6_setWidth, Option.bind_some]
  refine (whenOk_pos ?_ _).trans ?_
  · first | rfl | (simp; done) | (simp; omega)
  · first | rfl | (simp; done) | (simp [field]; omega)

theorem SeqOp.ofRaw_raw (o : SeqOp) (major : BitVec 6) (last : Bool) (fn : BitVec 16) :
    SeqOp.ofRaw (o.raw major last fn) = some o := by
  simp only [SeqOp.ofRaw, SeqOp.raw, EW.ofCode_code, Option.bind_some]
  refine (whenOk_pos ?_ _).trans ?_
  · first | rfl | (simp; done) | (simp; omega)
  · first | rfl | (simp; done) | (simp [field]; omega)

theorem MmovfOp.ofRaw_raw (o : MmovfOp) (major : BitVec 6) (last : Bool) (fn : BitVec 16) :
    MmovfOp.ofRaw (o.raw major last fn) = some o := by
  obtain ⟨m, d, b⟩ := o
  cases b <;> simp [MmovfOp.ofRaw, MmovfOp.raw, whenOk, ofM6_setWidth]

theorem CompressOp.ofRaw_raw (o : CompressOp) (major : BitVec 6) (last : Bool) (fn : BitVec 16) :
    CompressOp.ofRaw (o.raw major last fn) = some o := by
  have := o.m.isLt
  simp only [CompressOp.ofRaw, CompressOp.raw, EW.ofCode_code, ofM6_setWidth, Option.bind_some]
  refine (whenOk_pos ?_ _).trans ?_
  · first | rfl | (simp; done) | (simp; omega)
  · first | rfl | (simp; done) | (simp [field]; omega)

theorem VToX.ofRaw_raw (o : VToX) (major : BitVec 6) (last : Bool) (fn : BitVec 16) :
    VToX.ofRaw (o.raw major last fn) = some o := by
  have := o.d.isLt
  simp only [VToX.ofRaw, VToX.raw, EW.ofCode_code, ofXLow_setWidth, Option.bind_some]
  refine (whenOk_pos ?_ _).trans ?_
  · first | rfl | (simp; done) | (simp; omega)
  · first | rfl | (simp; done) | (simp [field]; omega)

theorem XToV.ofRaw_raw (o : XToV) (major : BitVec 6) (last : Bool) (fn : BitVec 16) :
    XToV.ofRaw (o.raw major last fn) = some o := by
  simp only [XToV.ofRaw, XToV.raw, EW.ofCode_code, ofXHigh_xHigh, Option.bind_some]
  refine (whenOk_pos ?_ _).trans ?_
  · first | rfl | (simp; done) | (simp; omega)
  · first | rfl | (simp; done) | (simp [field]; omega)

theorem FVV.ofRaw_raw (o : FVV) (major : BitVec 6) (last : Bool) (fn : BitVec 16) :
    FVV.ofRaw (o.raw major last fn) = some o := by
  have h : (BitVec.ofNat 6 o.fmt.bf.toNat == 1) = o.fmt.bf := by cases o.fmt <;> rfl
  have hlt := Bool.toNat_lt o.fmt.bf
  simp only [FVV.ofRaw, FVV.raw, h, VFmt.ofCodes_code, ofXHigh_xHigh, Option.bind_some]
  refine (whenOk_pos ?_ _).trans rfl
  simp; omega

theorem FVS.ofRaw_raw (o : FVS) (major : BitVec 6) (last : Bool) (fn : BitVec 16) :
    FVS.ofRaw (o.raw major last fn) = some o := by
  have h : (BitVec.ofNat 6 o.fmt.bf.toNat == 1) = o.fmt.bf := by cases o.fmt <;> rfl
  have hlt := Bool.toNat_lt o.fmt.bf
  simp only [FVS.ofRaw, FVS.raw, h, VFmt.ofCodes_code, ofXHigh_xHigh, Option.bind_some]
  refine (whenOk_pos ?_ _).trans rfl
  simp; omega

theorem FVVV.ofRaw_raw (o : FVVV) (major : BitVec 6) (last : Bool) (fn : BitVec 16) :
    FVVV.ofRaw (o.raw major last fn) = some o := by
  have h : (BitVec.ofNat 6 o.fmt.bf.toNat == 1) = o.fmt.bf := by cases o.fmt <;> rfl
  have hlt := Bool.toNat_lt o.fmt.bf
  simp only [FVVV.ofRaw, FVVV.raw, h, VFmt.ofCodes_code, ofXHigh_xHigh, Option.bind_some]
  refine (whenOk_pos ?_ _).trans rfl
  simp; omega

theorem FVSS.ofRaw_raw (o : FVSS) (major : BitVec 6) (last : Bool) (fn : BitVec 16) :
    FVSS.ofRaw (o.raw major last fn) = some o := by
  have h : (BitVec.ofNat 6 o.fmt.bf.toNat == 1) = o.fmt.bf := by cases o.fmt <;> rfl
  have hlt := Bool.toNat_lt o.fmt.bf
  simp only [FVSS.ofRaw, FVSS.raw, h, VFmt.ofCodes_code, ofXHigh_xHigh, Option.bind_some]
  refine (whenOk_pos ?_ _).trans rfl
  simp; omega

theorem FV.ofRaw_raw (o : FV) (major : BitVec 6) (last : Bool) (fn : BitVec 16) :
    FV.ofRaw (o.raw major last fn) = some o := by
  have h : (BitVec.ofNat 6 o.fmt.bf.toNat == 1) = o.fmt.bf := by cases o.fmt <;> rfl
  have hlt := Bool.toNat_lt o.fmt.bf
  simp only [FV.ofRaw, FV.raw, h, VFmt.ofCodes_code, ofXHigh_xHigh, Option.bind_some]
  refine (whenOk_pos ?_ _).trans rfl
  simp; omega

theorem FCmpVV.ofRaw_raw (o : FCmpVV) (major : BitVec 6) (last : Bool) :
    FCmpVV.ofRaw (o.raw major last) = some o := by
  have h : bit1 (field 2 1 (BitVec.ofNat 6 (o.fmt.bf.toNat * 4))) = o.fmt.bf := by cases o.fmt <;> rfl
  have h2 : (BitVec.ofNat 6 (o.fmt.bf.toNat * 4) == 0 || BitVec.ofNat 6 (o.fmt.bf.toNat * 4) == 4) = true := by
    cases o.fmt <;> rfl
  simp only [FCmpVV.ofRaw, FCmpVV.raw, h, VFmt.ofCodes_code, ofM6_setWidth, FCond.ofCode_code, ofXHigh_xHigh, Option.bind_some]
  refine (whenOk_pos ?_ _).trans rfl
  rw [h2]; simp

theorem FCmpVS.ofRaw_raw (o : FCmpVS) (major : BitVec 6) (last : Bool) :
    FCmpVS.ofRaw (o.raw major last) = some o := by
  have h : bit1 (field 2 1 (BitVec.ofNat 6 (o.fmt.bf.toNat * 4 + 1))) = o.fmt.bf := by cases o.fmt <;> rfl
  have h2 : (BitVec.ofNat 6 (o.fmt.bf.toNat * 4 + 1) == 1 || BitVec.ofNat 6 (o.fmt.bf.toNat * 4 + 1) == 5) = true := by
    cases o.fmt <;> rfl
  simp only [FCmpVS.ofRaw, FCmpVS.raw, h, VFmt.ofCodes_code, ofM6_setWidth, FCond.ofCode_code, ofXHigh_xHigh, Option.bind_some]
  refine (whenOk_pos ?_ _).trans rfl
  rw [h2]; simp

theorem CvtOp.ofRaw_raw (o : CvtOp) (major : BitVec 6) (last : Bool) :
    CvtOp.ofRaw (o.raw major last) = some o := by
  have := Bool.toNat_lt o.sat
  have := o.dst.code.isLt
  have := o.rm.code.isLt
  have := o.src.code.isLt
  have e0 : field 0 4 (BitVec.ofNat 16 (o.sat.toNat * 2048 + o.rm.code.toNat * 256 + o.src.code.toNat * 16 + o.dst.code.toNat)) = o.dst.code := by
    apply BitVec.eq_of_toNat_eq; simp only [field, BitVec.toNat_ofNat, BitVec.toNat_setWidth, BitVec.toNat_ofBool]; omega
  have e1 : field 4 4 (BitVec.ofNat 16 (o.sat.toNat * 2048 + o.rm.code.toNat * 256 + o.src.code.toNat * 16 + o.dst.code.toNat)) = o.src.code := by
    apply BitVec.eq_of_toNat_eq; simp only [field, BitVec.toNat_ofNat, BitVec.toNat_setWidth, BitVec.toNat_ofBool]; omega
  have e2 : field 8 3 (BitVec.ofNat 16 (o.sat.toNat * 2048 + o.rm.code.toNat * 256 + o.src.code.toNat * 16 + o.dst.code.toNat)) = o.rm.code := by
    apply BitVec.eq_of_toNat_eq; simp only [field, BitVec.toNat_ofNat, BitVec.toNat_setWidth, BitVec.toNat_ofBool]; omega
  have e3 : field 11 1 (BitVec.ofNat 16 (o.sat.toNat * 2048 + o.rm.code.toNat * 256 + o.src.code.toNat * 16 + o.dst.code.toNat)) = BitVec.ofBool o.sat := by
    apply BitVec.eq_of_toNat_eq; simp only [field, BitVec.toNat_ofNat, BitVec.toNat_setWidth, BitVec.toNat_ofBool]; omega
  simp only [CvtOp.ofRaw, CvtOp.raw, e0, e1, e2, e3, CvtRM.ofCode_code, Fmt.ofCode_code, bit1_ofBool, Option.bind_some]
  refine (whenOk_pos ?_ _).trans ?_
  · first | rfl | (simp; done) | (simp; omega)
  · first | rfl | (simp; done) | (simp [field]; omega)

theorem LoopOp.ofRaw_raw (o : LoopOp) (major : BitVec 6) (last : Bool) (fn : BitVec 16) :
    LoopOp.ofRaw (o.raw major last fn) = some o := by
  have := o.m.isLt
  simp only [LoopOp.ofRaw, LoopOp.raw, ofM6_setWidth, Option.bind_some]
  refine (whenOk_pos ?_ _).trans ?_
  · first | rfl | (simp; done) | (simp; omega)
  · first | rfl | (simp; done) | (simp [field]; omega)

theorem VldOp.ofRaw_raw (o : VldOp) (major : BitVec 6) (last : Bool) :
    VldOp.ofRaw (o.raw major last) = some o := by
  simp only [VldOp.ofRaw, VldOp.raw, MemEW.ofCode_code, Scope.ofCode_code, Option.bind_some]
  refine (whenOk_pos ?_ _).trans ?_
  · first | rfl | (simp; done) | (simp; omega)
  · first | rfl | (simp; done) | (simp [field]; omega)

theorem VldffOp.ofRaw_raw (o : VldffOp) (major : BitVec 6) (last : Bool) :
    VldffOp.ofRaw (o.raw major last) = some o := by
  simp only [VldffOp.ofRaw, VldffOp.raw, EW.ofCode_code, Scope.ofCode_code, Option.bind_some]
  refine (whenOk_pos ?_ _).trans ?_
  · first | rfl | (simp; done) | (simp; omega)
  · first | rfl | (simp; done) | (simp [field]; omega)

theorem VldsOp.ofRaw_raw (o : VldsOp) (major : BitVec 6) (last : Bool) :
    VldsOp.ofRaw (o.raw major last) = some o := by
  simp only [VldsOp.ofRaw, VldsOp.raw, EW.ofCode_code, Scope.ofCode_code, Option.bind_some]
  refine (whenOk_pos ?_ _).trans ?_
  · first | rfl | (simp; done) | (simp; omega)
  · first | rfl | (simp; done) | (simp [field]; omega)

theorem VldxOp.ofRaw_raw (o : VldxOp) (major : BitVec 6) (last : Bool) :
    VldxOp.ofRaw (o.raw major last) = some o := by
  simp only [VldxOp.ofRaw, VldxOp.raw, EW.ofCode_code, Scope.ofCode_code, bit1_ofBool, Option.bind_some]
  refine (whenOk_pos ?_ _).trans ?_
  · first | rfl | (simp; done) | (simp; omega)
  · first | rfl | (simp; done) | (simp [field]; omega)

theorem VldsegOp.ofRaw_raw (o : VldsegOp) (major : BitVec 6) (last : Bool) :
    VldsegOp.ofRaw (o.raw major last) = some o := by
  simp only [VldsegOp.ofRaw, VldsegOp.raw, EW.ofCode_code, Scope.ofCode_code, Option.bind_some]
  refine (whenOk_pos ?_ _).trans ?_
  · first | rfl | (simp; done) | (simp; omega)
  · first | rfl | (simp; done) | (simp [field]; omega)

theorem VstOp.ofRaw_raw (o : VstOp) (major : BitVec 6) (last : Bool) :
    VstOp.ofRaw (o.raw major last) = some o := by
  simp only [VstOp.ofRaw, VstOp.raw, MemEW.ofCode_code, Scope.ofCode_code, StoreMode.ofBits_bits, Option.bind_some]
  refine (whenOk_pos ?_ _).trans ?_
  · first | rfl | (simp; done) | (simp; omega)
  · first | rfl | (simp; done) | (simp [field]; omega)

theorem VstsOp.ofRaw_raw (o : VstsOp) (major : BitVec 6) (last : Bool) :
    VstsOp.ofRaw (o.raw major last) = some o := by
  simp only [VstsOp.ofRaw, VstsOp.raw, EW.ofCode_code, Scope.ofCode_code, bit1_ofBool, Option.bind_some]
  refine (whenOk_pos ?_ _).trans ?_
  · first | rfl | (simp; done) | (simp; omega)
  · first | rfl | (simp; done) | (simp [field]; omega)

theorem VstxOp.ofRaw_raw (o : VstxOp) (major : BitVec 6) (last : Bool) :
    VstxOp.ofRaw (o.raw major last) = some o := by
  simp only [VstxOp.ofRaw, VstxOp.raw, EW.ofCode_code, Scope.ofCode_code, StoreMode.ofBits_bits, bit1_ofBool, Option.bind_some]
  refine (whenOk_pos ?_ _).trans ?_
  · first | rfl | (simp; done) | (simp; omega)
  · first | rfl | (simp; done) | (simp [field]; omega)

theorem VstsegOp.ofRaw_raw (o : VstsegOp) (major : BitVec 6) (last : Bool) :
    VstsegOp.ofRaw (o.raw major last) = some o := by
  simp only [VstsegOp.ofRaw, VstsegOp.raw, EW.ofCode_code, Scope.ofCode_code, StoreMode.ofBits_bits, Option.bind_some]
  refine (whenOk_pos ?_ _).trans ?_
  · first | rfl | (simp; done) | (simp; omega)
  · first | rfl | (simp; done) | (simp [field]; omega)

theorem VwaitOp.ofRaw_raw (o : VwaitOp) (major : BitVec 6) (last : Bool) :
    VwaitOp.ofRaw (o.raw major last) = some o := by
  have := o.d.isLt
  simp only [VwaitOp.ofRaw, VwaitOp.raw, EW.ofCode_code, Scope.ofCode_code, ofM6_setWidth, Option.bind_some]
  refine (whenOk_pos ?_ _).trans ?_
  · first | rfl | (simp; done) | (simp; omega)
  · first | rfl | (simp; done) | (simp [field]; omega)

theorem SetvlOp.ofRaw_raw (o : SetvlOp) (major : BitVec 6) (last : Bool) (fn : BitVec 8) :
    SetvlOp.ofRaw (o.raw major last fn) = some o := by
  have := o.d.isLt
  simp only [SetvlOp.ofRaw, SetvlOp.raw, ofXLow_setWidth, Option.bind_some]
  refine (whenOk_pos ?_ _).trans ?_
  · first | rfl | (simp; done) | (simp; omega)
  · first | rfl | (simp; done) | (simp [field]; omega)

theorem SetvlfOp.ofRaw_raw (o : SetvlfOp) (major : BitVec 6) (last : Bool) (fn : BitVec 8) :
    SetvlfOp.ofRaw (o.raw major last fn) = some o := by
  have := o.d.isLt
  simp only [SetvlfOp.ofRaw, SetvlfOp.raw, ofXLow_setWidth, Option.bind_some]
  refine (whenOk_pos ?_ _).trans ?_
  · first | rfl | (simp; done) | (simp; omega)
  · first | rfl | (simp; done) | (simp [field]; omega)

theorem SetvtOp.ofRaw_raw (o : SetvtOp) (major : BitVec 6) (last : Bool) (fn : BitVec 8) :
    SetvtOp.ofRaw (o.raw major last fn) = some o := by
  have := Bool.toNat_lt o.mz
  have := Bool.toNat_lt o.s
  have := Bool.toNat_lt o.tp
  have := o.ew.code.isLt
  have e0 : field 0 3 (BitVec.ofNat 28 (o.mz.toNat * 64 + o.s.toNat * 16 + o.tp.toNat * 8 + o.ew.code.toNat)) = o.ew.code := by
    apply BitVec.eq_of_toNat_eq; simp only [field, BitVec.toNat_ofNat, BitVec.toNat_setWidth, BitVec.toNat_ofBool]; omega
  have e1 : field 5 1 (BitVec.ofNat 28 (o.mz.toNat * 64 + o.s.toNat * 16 + o.tp.toNat * 8 + o.ew.code.toNat)) = 0#1 := by
    apply BitVec.eq_of_toNat_eq; simp only [field, BitVec.toNat_ofNat, BitVec.toNat_setWidth, BitVec.toNat_ofBool]; omega
  have e2 : field 6 1 (BitVec.ofNat 28 (o.mz.toNat * 64 + o.s.toNat * 16 + o.tp.toNat * 8 + o.ew.code.toNat)) = BitVec.ofBool o.mz := by
    apply BitVec.eq_of_toNat_eq; simp only [field, BitVec.toNat_ofNat, BitVec.toNat_setWidth, BitVec.toNat_ofBool]; omega
  have e3 : field 4 1 (BitVec.ofNat 28 (o.mz.toNat * 64 + o.s.toNat * 16 + o.tp.toNat * 8 + o.ew.code.toNat)) = BitVec.ofBool o.s := by
    apply BitVec.eq_of_toNat_eq; simp only [field, BitVec.toNat_ofNat, BitVec.toNat_setWidth, BitVec.toNat_ofBool]; omega
  have e4 : field 3 1 (BitVec.ofNat 28 (o.mz.toNat * 64 + o.s.toNat * 16 + o.tp.toNat * 8 + o.ew.code.toNat)) = BitVec.ofBool o.tp := by
    apply BitVec.eq_of_toNat_eq; simp only [field, BitVec.toNat_ofNat, BitVec.toNat_setWidth, BitVec.toNat_ofBool]; omega
  simp only [SetvtOp.ofRaw, SetvtOp.raw, e0, e1, e2, e3, e4, EW.ofCode_code, bit1_ofBool, Option.bind_some]
  refine (whenOk_pos ?_ _).trans ?_
  · first | rfl | (simp; done) | (simp; omega)
  · first | rfl | (simp; done) | (simp [field]; omega)

theorem VconfigOp.ofRaw_raw (o : VconfigOp) (major : BitVec 6) (last : Bool) (fn : BitVec 8) :
    VconfigOp.ofRaw (o.raw major last fn) = some o := by
  have := o.n.isLt
  simp only [VconfigOp.ofRaw, VconfigOp.raw, Option.bind_some]
  refine (whenOk_pos ?_ _).trans ?_
  · first | rfl | (simp; done) | (simp; omega)
  · first | rfl | (simp; done) | (simp [field]; omega)

theorem StcfgOp.ofRaw_raw (o : StcfgOp) (major : BitVec 6) (last : Bool) (fn : BitVec 8) :
    StcfgOp.ofRaw (o.raw major last fn) = some o := by
  have := o.s.isLt
  simp only [StcfgOp.ofRaw, StcfgOp.raw, Option.bind_some]
  refine (whenOk_pos ?_ _).trans ?_
  · first | rfl | (simp; done) | (simp; omega)
  · first | rfl | (simp; done) | (simp [field]; omega)

theorem StbindOp.ofRaw_raw (o : StbindOp) (major : BitVec 6) (last : Bool) (fn : BitVec 8) :
    StbindOp.ofRaw (o.raw major last fn) = some o := by
  have := Bool.toNat_lt o.write
  have := o.s.isLt
  have e0 : field 0 3 (BitVec.ofNat 28 (o.write.toNat * 8 + o.s.toNat)) = o.s := by
    apply BitVec.eq_of_toNat_eq; simp only [field, BitVec.toNat_ofNat, BitVec.toNat_setWidth, BitVec.toNat_ofBool]; omega
  have e1 : field 3 1 (BitVec.ofNat 28 (o.write.toNat * 8 + o.s.toNat)) = BitVec.ofBool o.write := by
    apply BitVec.eq_of_toNat_eq; simp only [field, BitVec.toNat_ofNat, BitVec.toNat_setWidth, BitVec.toNat_ofBool]; omega
  simp only [StbindOp.ofRaw, StbindOp.raw, e0, e1, bit1_ofBool, Option.bind_some]
  refine (whenOk_pos ?_ _).trans ?_
  · first | rfl | (simp; done) | (simp; omega)
  · first | rfl | (simp; done) | (simp [field]; omega)

theorem StunbindOp.ofRaw_raw (o : StunbindOp) (major : BitVec 6) (last : Bool) (fn : BitVec 8) :
    StunbindOp.ofRaw (o.raw major last fn) = some o := by
  have := o.s.isLt
  simp only [StunbindOp.ofRaw, StunbindOp.raw, Option.bind_some]
  refine (whenOk_pos ?_ _).trans ?_
  · first | rfl | (simp; done) | (simp; omega)
  · first | rfl | (simp; done) | (simp [field]; omega)

theorem StstatOp.ofRaw_raw (o : StstatOp) (major : BitVec 6) (last : Bool) (fn : BitVec 8) :
    StstatOp.ofRaw (o.raw major last fn) = some o := by
  have := o.d.isLt
  have := o.s.isLt
  simp only [StstatOp.ofRaw, StstatOp.raw, ofXLow_setWidth, Option.bind_some]
  refine (whenOk_pos ?_ _).trans ?_
  · first | rfl | (simp; done) | (simp; omega)
  · first | rfl | (simp; done) | (simp [field]; omega)

theorem QcopyOp.ofRaw_raw (o : QcopyOp) (major : BitVec 6) (last : Bool) (fn : BitVec 16) :
    QcopyOp.ofRaw (o.raw major last fn) = some o := by
  have := Bool.toNat_lt o.dl
  have := Bool.toNat_lt o.sl
  have := o.q.isLt
  have := o.scope.code.isLt
  have e0 : field 0 3 (BitVec.ofNat 10 (o.dl.toNat * 16 + o.sl.toNat * 8 + o.scope.code.toNat)) = o.scope.code := by
    apply BitVec.eq_of_toNat_eq; simp only [field, BitVec.toNat_ofNat, BitVec.toNat_setWidth, BitVec.toNat_ofBool]; omega
  have e1 : field 3 1 (BitVec.ofNat 10 (o.dl.toNat * 16 + o.sl.toNat * 8 + o.scope.code.toNat)) = BitVec.ofBool o.sl := by
    apply BitVec.eq_of_toNat_eq; simp only [field, BitVec.toNat_ofNat, BitVec.toNat_setWidth, BitVec.toNat_ofBool]; omega
  have e2 : field 4 1 (BitVec.ofNat 10 (o.dl.toNat * 16 + o.sl.toNat * 8 + o.scope.code.toNat)) = BitVec.ofBool o.dl := by
    apply BitVec.eq_of_toNat_eq; simp only [field, BitVec.toNat_ofNat, BitVec.toNat_setWidth, BitVec.toNat_ofBool]; omega
  simp only [QcopyOp.ofRaw, QcopyOp.raw, e0, e1, e2, Scope.ofCode_code, ofXLow_setWidth, bit1_ofBool, Option.bind_some]
  refine (whenOk_pos ?_ _).trans ?_
  · first | rfl | (simp; done) | (simp; omega)
  · first | rfl | (simp; done) | (simp [field]; omega)

theorem QblockOp.ofRaw_raw (o : QblockOp) (major : BitVec 6) (last : Bool) (fn : BitVec 16) :
    QblockOp.ofRaw (o.raw major last fn) = some o := by
  have := o.q.isLt
  have := o.scope.code.isLt
  have e0 : field 0 3 (o.scope.code.setWidth 10) = o.scope.code := by
    apply BitVec.eq_of_toNat_eq; simp only [field, BitVec.toNat_ofNat, BitVec.toNat_setWidth, BitVec.toNat_ofBool]; omega
  simp only [QblockOp.ofRaw, QblockOp.raw, e0, Scope.ofCode_code, ofXLow_setWidth, Option.bind_some]
  refine (whenOk_pos ?_ _).trans ?_
  · first | rfl | (simp; done) | (simp; omega)
  · first | rfl | (simp; done) | (simp [field]; omega)

theorem QfenceOp.ofRaw_raw (o : QfenceOp) (major : BitVec 6) (last : Bool) (fn : BitVec 16) :
    QfenceOp.ofRaw (o.raw major last fn) = some o := by
  have := o.join.isLt
  have := o.q.isLt
  have := o.scope.code.isLt
  have e0 : field 0 3 (BitVec.ofNat 10 (o.join.toNat * 8 + o.scope.code.toNat)) = o.scope.code := by
    apply BitVec.eq_of_toNat_eq; simp only [field, BitVec.toNat_ofNat, BitVec.toNat_setWidth, BitVec.toNat_ofBool]; omega
  have e1 : field 3 4 (BitVec.ofNat 10 (o.join.toNat * 8 + o.scope.code.toNat)) = o.join := by
    apply BitVec.eq_of_toNat_eq; simp only [field, BitVec.toNat_ofNat, BitVec.toNat_setWidth, BitVec.toNat_ofBool]; omega
  simp only [QfenceOp.ofRaw, QfenceOp.raw, e0, e1, Scope.ofCode_code, ofXLow_setWidth, Option.bind_some]
  refine (whenOk_pos ?_ _).trans ?_
  · first | rfl | (simp; done) | (simp; omega)
  · first | rfl | (simp; done) | (simp [field]; omega)

theorem QsignalOp.ofRaw_raw (o : QsignalOp) (major : BitVec 6) (last : Bool) (fn : BitVec 16) :
    QsignalOp.ofRaw (o.raw major last fn) = some o := by
  have := o.q.isLt
  have := o.scope.code.isLt
  have e0 : field 0 3 (o.scope.code.setWidth 10) = o.scope.code := by
    apply BitVec.eq_of_toNat_eq; simp only [field, BitVec.toNat_ofNat, BitVec.toNat_setWidth, BitVec.toNat_ofBool]; omega
  simp only [QsignalOp.ofRaw, QsignalOp.raw, e0, Scope.ofCode_code, ofXLow_setWidth, Option.bind_some]
  refine (whenOk_pos ?_ _).trans ?_
  · first | rfl | (simp; done) | (simp; omega)
  · first | rfl | (simp; done) | (simp [field]; omega)

theorem QstatOp.ofRaw_raw (o : QstatOp) (major : BitVec 6) (last : Bool) (fn : BitVec 16) :
    QstatOp.ofRaw (o.raw major last fn) = some o := by
  have := Bool.toNat_lt o.clr
  have := Bool.toNat_lt o.drop
  have := Bool.toNat_lt o.w
  have := o.q.isLt
  have e0 : field 0 3 (BitVec.ofNat 10 (o.drop.toNat * 32 + o.clr.toNat * 16 + o.w.toNat * 8)) = 0#3 := by
    apply BitVec.eq_of_toNat_eq; simp only [field, BitVec.toNat_ofNat, BitVec.toNat_setWidth, BitVec.toNat_ofBool]; omega
  have e1 : field 3 1 (BitVec.ofNat 10 (o.drop.toNat * 32 + o.clr.toNat * 16 + o.w.toNat * 8)) = BitVec.ofBool o.w := by
    apply BitVec.eq_of_toNat_eq; simp only [field, BitVec.toNat_ofNat, BitVec.toNat_setWidth, BitVec.toNat_ofBool]; omega
  have e2 : field 4 1 (BitVec.ofNat 10 (o.drop.toNat * 32 + o.clr.toNat * 16 + o.w.toNat * 8)) = BitVec.ofBool o.clr := by
    apply BitVec.eq_of_toNat_eq; simp only [field, BitVec.toNat_ofNat, BitVec.toNat_setWidth, BitVec.toNat_ofBool]; omega
  have e3 : field 5 1 (BitVec.ofNat 10 (o.drop.toNat * 32 + o.clr.toNat * 16 + o.w.toNat * 8)) = BitVec.ofBool o.drop := by
    apply BitVec.eq_of_toNat_eq; simp only [field, BitVec.toNat_ofNat, BitVec.toNat_setWidth, BitVec.toNat_ofBool]; omega
  simp only [QstatOp.ofRaw, QstatOp.raw, e0, e1, e2, e3, ofXLow_setWidth, bit1_ofBool, Option.bind_some]
  refine (whenOk_pos ?_ _).trans ?_
  · first | rfl | (simp; done) | (simp; omega)
  · first | rfl | (simp; done) | (simp [field]; omega)

theorem MzeroOp.ofRaw_raw (o : MzeroOp) (major : BitVec 6) (last : Bool) (fn : BitVec 16) :
    MzeroOp.ofRaw (o.raw major last fn) = some o := by
  have := o.acc.isLt
  simp only [MzeroOp.ofRaw, MzeroOp.raw, Fmt.ofCode_code, Option.bind_some]
  refine (whenOk_pos ?_ _).trans ?_
  · first | rfl | (simp; done) | (simp; omega)
  · first | rfl | (simp; done) | (simp [field]; omega)

theorem MupdOp.ofRaw_raw (o : MupdOp) (major : BitVec 6) (last : Bool) (fn : BitVec 16) :
    MupdOp.ofRaw (o.raw major last fn) = some o := by
  have := o.acc.isLt
  have := o.cmask.isLt
  simp only [MupdOp.ofRaw, MupdOp.raw, Fmt.ofCode_code, Option.bind_some]
  refine (whenOk_pos ?_ _).trans ?_
  · first | rfl | (simp; done) | (simp; omega)
  · first | rfl | (simp; done) | (simp [field]; omega)

theorem MmacOp.ofRaw_raw (o : MmacOp) (major : BitVec 6) (last : Bool) (fn : BitVec 16) :
    MmacOp.ofRaw (o.raw major last fn) = some o := by
  have := o.acc.isLt
  have := o.grp.isLt
  have := o.pa.isLt
  have := o.pb.isLt
  simp only [MmacOp.ofRaw, MmacOp.raw, Fmt.ofCode_code, ofP6_setWidth, Option.bind_some]
  refine (whenOk_pos ?_ _).trans ?_
  · first | rfl | (simp; done) | (simp; omega)
  · first | rfl | (simp; done) | (simp [field]; omega)

theorem MreadOp.ofRaw_raw (o : MreadOp) (major : BitVec 6) (last : Bool) (fn : BitVec 16) :
    MreadOp.ofRaw (o.raw major last fn) = some o := by
  have := o.acc.isLt
  have := o.row.isLt
  have := o.scale.isLt
  simp only [MreadOp.ofRaw, MreadOp.raw, Fmt.ofCode_code, ofXLow_setWidth, Option.bind_some]
  refine (whenOk_pos ?_ _).trans ?_
  · first | rfl | (simp; done) | (simp; omega)
  · first | rfl | (simp; done) | (simp [field]; omega)

theorem MwriteOp.ofRaw_raw (o : MwriteOp) (major : BitVec 6) (last : Bool) (fn : BitVec 16) :
    MwriteOp.ofRaw (o.raw major last fn) = some o := by
  have := o.acc.isLt
  have := o.row.isLt
  simp only [MwriteOp.ofRaw, MwriteOp.raw, ofXLow_setWidth, Option.bind_some]
  refine (whenOk_pos ?_ _).trans ?_
  · first | rfl | (simp; done) | (simp; omega)
  · first | rfl | (simp; done) | (simp [field]; omega)

theorem MsclOp.ofRaw_raw (o : MsclOp) (major : BitVec 6) (last : Bool) (fn : BitVec 16) :
    MsclOp.ofRaw (o.raw major last fn) = some o := by
  obtain ⟨a, b, e⟩ := o
  cases e <;> simp [MsclOp.ofRaw, MsclOp.raw, whenOk]

theorem MzptOp.ofRaw_raw (o : MzptOp) (major : BitVec 6) (last : Bool) (fn : BitVec 16) :
    MzptOp.ofRaw (o.raw major last fn) = some o := by
  obtain ⟨a, b, p, q⟩ := o
  cases p <;> cases q <;> simp [MzptOp.ofRaw, MzptOp.raw, whenOk]

theorem MstatOp.ofRaw_raw (o : MstatOp) (major : BitVec 6) (last : Bool) (fn : BitVec 16) :
    MstatOp.ofRaw (o.raw major last fn) = some o := by
  have := o.acc.isLt
  have := o.d.isLt
  simp only [MstatOp.ofRaw, MstatOp.raw, ofXLow_setWidth, Option.bind_some]
  refine (whenOk_pos ?_ _).trans ?_
  · first | rfl | (simp; done) | (simp; omega)
  · first | rfl | (simp; done) | (simp [field]; omega)

theorem SpmmacOp.ofRaw_raw (o : SpmmacOp) (major : BitVec 6) (last : Bool) :
    SpmmacOp.ofRaw (o.raw major last) = some o := by
  have := o.acc.isLt
  have := o.pb.isLt
  have := o.ts.isLt
  have := o.win.isLt
  have e0 : field 0 12 (BitVec.ofNat 16 (o.win.toNat * 4096 + 16)) = 16#12 := by
    apply BitVec.eq_of_toNat_eq; simp only [field, BitVec.toNat_ofNat, BitVec.toNat_setWidth, BitVec.toNat_ofBool]; omega
  have e1 : field 12 2 (BitVec.ofNat 16 (o.win.toNat * 4096 + 16)) = o.win := by
    apply BitVec.eq_of_toNat_eq; simp only [field, BitVec.toNat_ofNat, BitVec.toNat_setWidth, BitVec.toNat_ofBool]; omega
  simp only [SpmmacOp.ofRaw, SpmmacOp.raw, e0, e1, Fmt.ofCode_code, ofXLow_setWidth, ofP6_setWidth, Option.bind_some]
  refine (whenOk_pos ?_ _).trans ?_
  · first | rfl | (simp; done) | (simp; omega)
  · first | rfl | (simp; done) | (simp [field]; omega)

theorem SpresOp.ofRaw_raw (o : SpresOp) (major : BitVec 6) (last : Bool) (fn : BitVec 16) :
    SpresOp.ofRaw (o.raw major last fn) = some o := by
  have := o.acc.isLt
  have := o.pb.isLt
  have := o.ts.isLt
  simp only [SpresOp.ofRaw, SpresOp.raw, Fmt.ofCode_code, ofXLow_setWidth, ofP6_setWidth, Option.bind_some]
  refine (whenOk_pos ?_ _).trans ?_
  · first | rfl | (simp; done) | (simp; omega)
  · first | rfl | (simp; done) | (simp [field]; omega)

theorem SpstatOp.ofRaw_raw (o : SpstatOp) (major : BitVec 6) (last : Bool) (fn : BitVec 16) :
    SpstatOp.ofRaw (o.raw major last fn) = some o := by
  have := o.d.isLt
  have := o.ts.isLt
  simp only [SpstatOp.ofRaw, SpstatOp.raw, ofXLow_setWidth, Option.bind_some]
  refine (whenOk_pos ?_ _).trans ?_
  · first | rfl | (simp; done) | (simp; omega)
  · first | rfl | (simp; done) | (simp [field]; omega)

theorem PortqOp.ofRaw_raw (o : PortqOp) (major : BitVec 6) (last : Bool) (fn : BitVec 8) :
    PortqOp.ofRaw (o.raw major last fn) = some o := by
  have := o.d.isLt
  have := o.g.isLt
  simp only [PortqOp.ofRaw, PortqOp.raw, ofXLow_setWidth, Option.bind_some]
  refine (whenOk_pos ?_ _).trans ?_
  · first | rfl | (simp; done) | (simp; omega)
  · first | rfl | (simp; done) | (simp [field]; omega)

theorem PortswOp.ofRaw_raw (o : PortswOp) (major : BitVec 6) (last : Bool) (fn : BitVec 8) :
    PortswOp.ofRaw (o.raw major last fn) = some o := by
  have := o.d.isLt
  have := o.g.isLt
  simp only [PortswOp.ofRaw, PortswOp.raw, ofXLow_setWidth, Option.bind_some]
  refine (whenOk_pos ?_ _).trans ?_
  · first | rfl | (simp; done) | (simp; omega)
  · first | rfl | (simp; done) | (simp [field]; omega)

theorem ofAddrVC_addrVC (a : XReg) (major : BitVec 6) (last : Bool) (fn : BitVec 8) :
    ofAddrVC (addrVC a major last fn) = some a := by
  simp [ofAddrVC, addrVC, whenOk]

end Sys2Proof
end

