-- ==== Sys2Proof/Laws/PerInstr.lean ====
section
/-! SUPPORT. Laws/PerInstr.lean: the family RoundTrip: every instruction is read back from the words it is written as. -/

namespace Sys2Proof.Laws

set_option Elab.async false

/-- The words of a well-formed instruction decode to it: a parcel never looks like the upper half of a 64-bit word (R58),
and a 64-bit word keeps its C bit (R64). -/
def RoundTrip.Statement (i : Instr) : Prop :=
  ∀ last : Bool, i.WellFormed →
    match encode i last with
    | .parcel w => decodeParcel w = some i ∧ field 30 2 w ≠ 3#2
    | .word w => decodeWord w = some i ∧ lastBit w = last
    | .none => True

theorem parcel_of_RawSR (r : RawSR) (i : Instr) (m : BitVec 7) (hr : r.major = m) (hm : m.toNat < 96) (hw : i.wf = true)
    (h : decodeParcelRaw r.pack = some i) : decodeParcel r.pack = some i ∧ field 30 2 r.pack ≠ 3#2 := by
  refine ⟨by simp [decodeParcel, keepWf, h, whenOk, hw], fun e => ?_⟩
  have e2 := congrArg BitVec.toNat e
  have e3 := congrArg BitVec.toNat (r.major_pack)
  simp only [field, BitVec.toNat_ofNat] at e2 e3
  rw [hr] at e3
  omega

theorem parcel_of_RawSI (r : RawSI) (i : Instr) (m : BitVec 7) (hr : r.major = m) (hm : m.toNat < 96) (hw : i.wf = true)
    (h : decodeParcelRaw r.pack = some i) : decodeParcel r.pack = some i ∧ field 30 2 r.pack ≠ 3#2 := by
  refine ⟨by simp [decodeParcel, keepWf, h, whenOk, hw], fun e => ?_⟩
  have e2 := congrArg BitVec.toNat e
  have e3 := congrArg BitVec.toNat (r.major_pack)
  simp only [field, BitVec.toNat_ofNat] at e2 e3
  rw [hr] at e3
  omega

theorem parcel_of_RawSU (r : RawSU) (i : Instr) (m : BitVec 7) (hr : r.major = m) (hm : m.toNat < 96) (hw : i.wf = true)
    (h : decodeParcelRaw r.pack = some i) : decodeParcel r.pack = some i ∧ field 30 2 r.pack ≠ 3#2 := by
  refine ⟨by simp [decodeParcel, keepWf, h, whenOk, hw], fun e => ?_⟩
  have e2 := congrArg BitVec.toNat e
  have e3 := congrArg BitVec.toNat (r.major_pack)
  simp only [field, BitVec.toNat_ofNat] at e2 e3
  rw [hr] at e3
  omega

theorem word_of_RawVV (r : RawVV) (i : Instr) (last : Bool) (hl : r.last = BitVec.ofBool last) (hw : i.wf = true)
    (h : decodeWordRaw r.pack = some i) : decodeWord r.pack = some i ∧ lastBit r.pack = last := by
  refine ⟨by simp [decodeWord, r.top_pack, keepWf, h, whenOk, hw], ?_⟩
  rw [lastBit, r.last_pack, hl, bit1_ofBool]

theorem word_of_RawVI (r : RawVI) (i : Instr) (last : Bool) (hl : r.last = BitVec.ofBool last) (hw : i.wf = true)
    (h : decodeWordRaw r.pack = some i) : decodeWord r.pack = some i ∧ lastBit r.pack = last := by
  refine ⟨by simp [decodeWord, r.top_pack, keepWf, h, whenOk, hw], ?_⟩
  rw [lastBit, r.last_pack, hl, bit1_ofBool]

theorem word_of_RawVM (r : RawVM) (i : Instr) (last : Bool) (hl : r.last = BitVec.ofBool last) (hw : i.wf = true)
    (h : decodeWordRaw r.pack = some i) : decodeWord r.pack = some i ∧ lastBit r.pack = last := by
  refine ⟨by simp [decodeWord, r.top_pack, keepWf, h, whenOk, hw], ?_⟩
  rw [lastBit, r.last_pack, hl, bit1_ofBool]

theorem word_of_RawVC (r : RawVC) (i : Instr) (last : Bool) (hl : r.last = BitVec.ofBool last) (hw : i.wf = true)
    (h : decodeWordRaw r.pack = some i) : decodeWord r.pack = some i ∧ lastBit r.pack = last := by
  refine ⟨by simp [decodeWord, r.top_pack, keepWf, h, whenOk, hw], ?_⟩
  rw [lastBit, r.last_pack, hl, bit1_ofBool]

theorem word_of_RawVB (r : RawVB) (i : Instr) (last : Bool) (hl : r.last = BitVec.ofBool last) (hw : i.wf = true)
    (h : decodeWordRaw r.pack = some i) : decodeWord r.pack = some i ∧ lastBit r.pack = last := by
  refine ⟨by simp [decodeWord, r.top_pack, keepWf, h, whenOk, hw], ?_⟩
  rw [lastBit, r.last_pack, hl, bit1_ofBool]

theorem word_of_RawVQ (r : RawVQ) (i : Instr) (last : Bool) (hl : r.last = BitVec.ofBool last) (hw : i.wf = true)
    (h : decodeWordRaw r.pack = some i) : decodeWord r.pack = some i ∧ lastBit r.pack = last := by
  refine ⟨by simp [decodeWord, r.top_pack, keepWf, h, whenOk, hw], ?_⟩
  rw [lastBit, r.last_pack, hl, bit1_ofBool]

theorem word_of_RawMX (r : RawMX) (i : Instr) (last : Bool) (hl : r.last = BitVec.ofBool last) (hw : i.wf = true)
    (h : decodeWordRaw r.pack = some i) : decodeWord r.pack = some i ∧ lastBit r.pack = last := by
  refine ⟨by simp [decodeWord, r.top_pack, keepWf, h, whenOk, hw], ?_⟩
  rw [lastBit, r.last_pack, hl, bit1_ofBool]

theorem AmoOp.fn_raw (o : AmoOp) (major : BitVec 7) (op : BitVec 4) : field 0 4 (o.raw major op).fn = op := by
  have := o.scope.code.isLt
  have := o.order.code.isLt
  have := Bool.toNat_lt o.w32
  have := op.isLt
  apply BitVec.eq_of_toNat_eq; simp only [field, AmoOp.raw, BitVec.toNat_ofNat]; omega

theorem FOp2.fn_raw (o : FOp2) (major : BitVec 7) (op : BitVec 8) : field 0 8 (o.raw major op).fn = op := by
  have := o.fmt.code.isLt
  have := op.isLt
  apply BitVec.eq_of_toNat_eq; simp only [field, FOp2.raw, BitVec.toNat_ofNat]; omega

theorem FOp1.fn_raw (o : FOp1) (major : BitVec 7) (op : BitVec 8) : field 0 8 (o.raw major op).fn = op := by
  have := o.fmt.code.isLt
  have := op.isLt
  apply BitVec.eq_of_toNat_eq; simp only [field, FOp1.raw, BitVec.toNat_ofNat]; omega

theorem FCvtInt.fn_raw (o : FCvtInt) (major : BitVec 7) (op : BitVec 8) : field 0 8 (o.raw major op).fn = op := by
  have := o.fmt.code.isLt
  have := op.isLt
  apply BitVec.eq_of_toNat_eq; simp only [field, FCvtInt.raw, BitVec.toNat_ofNat]; omega

theorem FCvtFlt.fn_raw (o : FCvtFlt) (major : BitVec 7) (op : BitVec 8) : field 0 8 (o.raw major op).fn = op := by
  have := o.dst.code.isLt
  have := op.isLt
  apply BitVec.eq_of_toNat_eq; simp only [field, FCvtFlt.raw, BitVec.toNat_ofNat]; omega

theorem FOp3.fn_raw (o : FOp3) (major : BitVec 7) (op : BitVec 3) : field 0 3 (o.raw major op).fn = op := by
  have := o.fmt.code.isLt
  have := o.c.isLt
  have := op.isLt
  apply BitVec.eq_of_toNat_eq; simp only [field, FOp3.raw, BitVec.toNat_ofNat]; omega

theorem CsrGet.fn_raw (o : CsrGet) (major : BitVec 7) (op : BitVec 3) : field 12 3 (o.raw major op).imm = op := by
  have := o.csr.code.isLt
  have := op.isLt
  apply BitVec.eq_of_toNat_eq; simp only [field, CsrGet.raw, BitVec.toNat_ofNat]; omega

theorem CsrPut.fn_raw (o : CsrPut) (major : BitVec 7) (op : BitVec 3) : field 12 3 (o.raw major op).imm = op := by
  have := o.csr.code.isLt
  have := op.isLt
  apply BitVec.eq_of_toNat_eq; simp only [field, CsrPut.raw, BitVec.toNat_ofNat]; omega

theorem CsrRmw.fn_raw (o : CsrRmw) (major : BitVec 7) (op : BitVec 3) : field 12 3 (o.raw major op).imm = op := by
  have := o.csr.code.isLt
  have := op.isLt
  apply BitVec.eq_of_toNat_eq; simp only [field, CsrRmw.raw, BitVec.toNat_ofNat]; omega

theorem SpmmacOp.fn_raw (o : SpmmacOp) (major : BitVec 6) (last : Bool) : (o.raw major last).fn.toNat % 4096 = 16 := by
  have := o.win.isLt
  simp only [SpmmacOp.raw, BitVec.toNat_ofNat]; omega

theorem parcel_major_0x01 (r : RawSR) (h : r.major = 0x01#7) : decodeParcelRaw r.pack = decodeAlu r := by
  simp only [decodeParcelRaw, RawSR.major_pack, h, RawSR.unpack_pack, BitVec.reduceToNat]

theorem parcel_major_0x02 (r : RawSI) (h : r.major = 0x02#7) : decodeParcelRaw r.pack = (RRI.ofRaw r).map Instr.addi := by
  simp only [decodeParcelRaw, RawSI.major_pack, h, RawSI.unpack_pack, BitVec.reduceToNat]

theorem parcel_major_0x03 (r : RawSI) (h : r.major = 0x03#7) : decodeParcelRaw r.pack = (RRI.ofRaw r).map Instr.andi := by
  simp only [decodeParcelRaw, RawSI.major_pack, h, RawSI.unpack_pack, BitVec.reduceToNat]

theorem parcel_major_0x04 (r : RawSI) (h : r.major = 0x04#7) : decodeParcelRaw r.pack = (RRI.ofRaw r).map Instr.ori := by
  simp only [decodeParcelRaw, RawSI.major_pack, h, RawSI.unpack_pack, BitVec.reduceToNat]

theorem parcel_major_0x05 (r : RawSI) (h : r.major = 0x05#7) : decodeParcelRaw r.pack = (RRI.ofRaw r).map Instr.xori := by
  simp only [decodeParcelRaw, RawSI.major_pack, h, RawSI.unpack_pack, BitVec.reduceToNat]

theorem parcel_major_0x06 (r : RawSI) (h : r.major = 0x06#7) : decodeParcelRaw r.pack = (RRI.ofRaw r).map Instr.slti := by
  simp only [decodeParcelRaw, RawSI.major_pack, h, RawSI.unpack_pack, BitVec.reduceToNat]

theorem parcel_major_0x07 (r : RawSI) (h : r.major = 0x07#7) : decodeParcelRaw r.pack = (RRI.ofRaw r).map Instr.sltni := by
  simp only [decodeParcelRaw, RawSI.major_pack, h, RawSI.unpack_pack, BitVec.reduceToNat]

theorem parcel_major_0x08 (r : RawSI) (h : r.major = 0x08#7) : decodeParcelRaw r.pack = (RRSh.ofRaw r).map Instr.shli := by
  simp only [decodeParcelRaw, RawSI.major_pack, h, RawSI.unpack_pack, BitVec.reduceToNat]

theorem parcel_major_0x09 (r : RawSI) (h : r.major = 0x09#7) : decodeParcelRaw r.pack = (RRSh.ofRaw r).map Instr.shri := by
  simp only [decodeParcelRaw, RawSI.major_pack, h, RawSI.unpack_pack, BitVec.reduceToNat]

theorem parcel_major_0x0a (r : RawSI) (h : r.major = 0x0a#7) : decodeParcelRaw r.pack = (RRSh.ofRaw r).map Instr.shai := by
  simp only [decodeParcelRaw, RawSI.major_pack, h, RawSI.unpack_pack, BitVec.reduceToNat]

theorem parcel_major_0x0b (r : RawSU) (h : r.major = 0x0b#7) : decodeParcelRaw r.pack = (RI20.ofRaw r).map Instr.lui := by
  simp only [decodeParcelRaw, RawSU.major_pack, h, RawSU.unpack_pack, BitVec.reduceToNat]

theorem parcel_major_0x0c (r : RawSU) (h : r.major = 0x0c#7) : decodeParcelRaw r.pack = (RI20.ofRaw r).map Instr.adpc := by
  simp only [decodeParcelRaw, RawSU.major_pack, h, RawSU.unpack_pack, BitVec.reduceToNat]

theorem parcel_major_0x10 (r : RawSI) (h : r.major = 0x10#7) : decodeParcelRaw r.pack = (RRI.ofRaw r).map Instr.ld8 := by
  simp only [decodeParcelRaw, RawSI.major_pack, h, RawSI.unpack_pack, BitVec.reduceToNat]

theorem parcel_major_0x11 (r : RawSI) (h : r.major = 0x11#7) : decodeParcelRaw r.pack = (RRI.ofRaw r).map Instr.ld16 := by
  simp only [decodeParcelRaw, RawSI.major_pack, h, RawSI.unpack_pack, BitVec.reduceToNat]

theorem parcel_major_0x12 (r : RawSI) (h : r.major = 0x12#7) : decodeParcelRaw r.pack = (RRI.ofRaw r).map Instr.ld32 := by
  simp only [decodeParcelRaw, RawSI.major_pack, h, RawSI.unpack_pack, BitVec.reduceToNat]

theorem parcel_major_0x13 (r : RawSI) (h : r.major = 0x13#7) : decodeParcelRaw r.pack = (RRI.ofRaw r).map Instr.ld64 := by
  simp only [decodeParcelRaw, RawSI.major_pack, h, RawSI.unpack_pack, BitVec.reduceToNat]

theorem parcel_major_0x14 (r : RawSI) (h : r.major = 0x14#7) : decodeParcelRaw r.pack = (RRI.ofRaw r).map Instr.ldn8 := by
  simp only [decodeParcelRaw, RawSI.major_pack, h, RawSI.unpack_pack, BitVec.reduceToNat]

theorem parcel_major_0x15 (r : RawSI) (h : r.major = 0x15#7) : decodeParcelRaw r.pack = (RRI.ofRaw r).map Instr.ldn16 := by
  simp only [decodeParcelRaw, RawSI.major_pack, h, RawSI.unpack_pack, BitVec.reduceToNat]

theorem parcel_major_0x16 (r : RawSI) (h : r.major = 0x16#7) : decodeParcelRaw r.pack = (RRI.ofRaw r).map Instr.ldn32 := by
  simp only [decodeParcelRaw, RawSI.major_pack, h, RawSI.unpack_pack, BitVec.reduceToNat]

theorem parcel_major_0x18 (r : RawSI) (h : r.major = 0x18#7) : decodeParcelRaw r.pack = (RRI.ofRaw r).map Instr.st8 := by
  simp only [decodeParcelRaw, RawSI.major_pack, h, RawSI.unpack_pack, BitVec.reduceToNat]

theorem parcel_major_0x19 (r : RawSI) (h : r.major = 0x19#7) : decodeParcelRaw r.pack = (RRI.ofRaw r).map Instr.st16 := by
  simp only [decodeParcelRaw, RawSI.major_pack, h, RawSI.unpack_pack, BitVec.reduceToNat]

theorem parcel_major_0x1a (r : RawSI) (h : r.major = 0x1a#7) : decodeParcelRaw r.pack = (RRI.ofRaw r).map Instr.st32 := by
  simp only [decodeParcelRaw, RawSI.major_pack, h, RawSI.unpack_pack, BitVec.reduceToNat]

theorem parcel_major_0x1b (r : RawSI) (h : r.major = 0x1b#7) : decodeParcelRaw r.pack = (RRI.ofRaw r).map Instr.st64 := by
  simp only [decodeParcelRaw, RawSI.major_pack, h, RawSI.unpack_pack, BitVec.reduceToNat]

theorem parcel_major_0x1c (r : RawSR) (h : r.major = 0x1c#7) : decodeParcelRaw r.pack = decodeAmo r := by
  simp only [decodeParcelRaw, RawSR.major_pack, h, RawSR.unpack_pack, BitVec.reduceToNat]

theorem parcel_major_0x1d (r : RawSR) (h : r.major = 0x1d#7) : decodeParcelRaw r.pack = decodeClaim r := by
  simp only [decodeParcelRaw, RawSR.major_pack, h, RawSR.unpack_pack, BitVec.reduceToNat]

theorem parcel_major_0x20 (r : RawSI) (h : r.major = 0x20#7) : decodeParcelRaw r.pack = (BranchOp.ofRaw r).map Instr.beq := by
  simp only [decodeParcelRaw, RawSI.major_pack, h, RawSI.unpack_pack, BitVec.reduceToNat]

theorem parcel_major_0x21 (r : RawSI) (h : r.major = 0x21#7) : decodeParcelRaw r.pack = (BranchOp.ofRaw r).map Instr.bne := by
  simp only [decodeParcelRaw, RawSI.major_pack, h, RawSI.unpack_pack, BitVec.reduceToNat]

theorem parcel_major_0x22 (r : RawSI) (h : r.major = 0x22#7) : decodeParcelRaw r.pack = (BranchOp.ofRaw r).map Instr.blt := by
  simp only [decodeParcelRaw, RawSI.major_pack, h, RawSI.unpack_pack, BitVec.reduceToNat]

theorem parcel_major_0x23 (r : RawSI) (h : r.major = 0x23#7) : decodeParcelRaw r.pack = (BranchOp.ofRaw r).map Instr.bge := by
  simp only [decodeParcelRaw, RawSI.major_pack, h, RawSI.unpack_pack, BitVec.reduceToNat]

theorem parcel_major_0x24 (r : RawSI) (h : r.major = 0x24#7) : decodeParcelRaw r.pack = (BranchOp.ofRaw r).map Instr.bltn := by
  simp only [decodeParcelRaw, RawSI.major_pack, h, RawSI.unpack_pack, BitVec.reduceToNat]

theorem parcel_major_0x25 (r : RawSI) (h : r.major = 0x25#7) : decodeParcelRaw r.pack = (BranchOp.ofRaw r).map Instr.bgen := by
  simp only [decodeParcelRaw, RawSI.major_pack, h, RawSI.unpack_pack, BitVec.reduceToNat]

theorem parcel_major_0x26 (r : RawSU) (h : r.major = 0x26#7) : decodeParcelRaw r.pack = (RI20.ofRaw r).map Instr.jal := by
  simp only [decodeParcelRaw, RawSU.major_pack, h, RawSU.unpack_pack, BitVec.reduceToNat]

theorem parcel_major_0x27 (r : RawSI) (h : r.major = 0x27#7) : decodeParcelRaw r.pack = (RRI.ofRaw r).map Instr.jalr := by
  simp only [decodeParcelRaw, RawSI.major_pack, h, RawSI.unpack_pack, BitVec.reduceToNat]

theorem parcel_major_0x28 (r : RawSR) (h : r.major = 0x28#7) : decodeParcelRaw r.pack = decodeFp r := by
  simp only [decodeParcelRaw, RawSR.major_pack, h, RawSR.unpack_pack, BitVec.reduceToNat]

theorem parcel_major_0x29 (r : RawSR) (h : r.major = 0x29#7) : decodeParcelRaw r.pack = decodeFma r := by
  simp only [decodeParcelRaw, RawSR.major_pack, h, RawSR.unpack_pack, BitVec.reduceToNat]

theorem parcel_major_0x30 (r : RawSI) (h : r.major = 0x30#7) : decodeParcelRaw r.pack = decodeCsr r := by
  simp only [decodeParcelRaw, RawSI.major_pack, h, RawSI.unpack_pack, BitVec.reduceToNat]

theorem parcel_major_0x31 (r : RawSI) (h : r.major = 0x31#7) : decodeParcelRaw r.pack = (FenceOp.ofRaw r).map Instr.fence := by
  simp only [decodeParcelRaw, RawSI.major_pack, h, RawSI.unpack_pack, BitVec.reduceToNat]

theorem parcel_major_0x32 (r : RawSR) (h : r.major = 0x32#7) : decodeParcelRaw r.pack = decodeSys r := by
  simp only [decodeParcelRaw, RawSR.major_pack, h, RawSR.unpack_pack, BitVec.reduceToNat]

theorem word_major_0x01 (r : RawVC) (h : r.major = 0x01#6) : decodeWordRaw r.pack = decodeVcfg r := by
  simp only [decodeWordRaw, RawVC.major_pack, h, RawVC.unpack_pack, BitVec.reduceToNat]

theorem word_major_0x02 (r : RawVV) (h : r.major = 0x02#6) : decodeWordRaw r.pack = decodeVintVV r := by
  simp only [decodeWordRaw, RawVV.major_pack, h, RawVV.unpack_pack, BitVec.reduceToNat]

theorem word_major_0x03 (r : RawVV) (h : r.major = 0x03#6) : decodeWordRaw r.pack = decodeVintVS r := by
  simp only [decodeWordRaw, RawVV.major_pack, h, RawVV.unpack_pack, BitVec.reduceToNat]

theorem word_major_0x04 (r : RawVI) (h : r.major = 0x04#6) : decodeWordRaw r.pack = decodeVintVI r := by
  simp only [decodeWordRaw, RawVI.major_pack, h, RawVI.unpack_pack, BitVec.reduceToNat]

theorem word_major_0x05_RawVV (r : RawVV) (h : r.major = 0x05#6) : decodeWordRaw r.pack = decodeVcmp r.pack := by
  simp only [decodeWordRaw, RawVV.major_pack, h, BitVec.reduceToNat]

theorem word_major_0x05_RawVI (r : RawVI) (h : r.major = 0x05#6) : decodeWordRaw r.pack = decodeVcmp r.pack := by
  simp only [decodeWordRaw, RawVI.major_pack, h, BitVec.reduceToNat]

theorem word_major_0x06 (r : RawVV) (h : r.major = 0x06#6) : decodeWordRaw r.pack = decodeVmask r := by
  simp only [decodeWordRaw, RawVV.major_pack, h, RawVV.unpack_pack, BitVec.reduceToNat]

theorem word_major_0x07 (r : RawVV) (h : r.major = 0x07#6) : decodeWordRaw r.pack = decodeVperm r := by
  simp only [decodeWordRaw, RawVV.major_pack, h, RawVV.unpack_pack, BitVec.reduceToNat]

theorem word_major_0x08 (r : RawVV) (h : r.major = 0x08#6) : decodeWordRaw r.pack = decodeVred r := by
  simp only [decodeWordRaw, RawVV.major_pack, h, RawVV.unpack_pack, BitVec.reduceToNat]

theorem word_major_0x09 (r : RawVV) (h : r.major = 0x09#6) : decodeWordRaw r.pack = decodeVfpVV r := by
  simp only [decodeWordRaw, RawVV.major_pack, h, RawVV.unpack_pack, BitVec.reduceToNat]

theorem word_major_0x0a (r : RawVV) (h : r.major = 0x0a#6) : decodeWordRaw r.pack = decodeVfpVS r := by
  simp only [decodeWordRaw, RawVV.major_pack, h, RawVV.unpack_pack, BitVec.reduceToNat]

theorem word_major_0x0b_RawVV (r : RawVV) (h : r.major = 0x0b#6) : decodeWordRaw r.pack = decodeVfcmp r.pack := by
  simp only [decodeWordRaw, RawVV.major_pack, h, BitVec.reduceToNat]

theorem word_major_0x0b_RawVI (r : RawVI) (h : r.major = 0x0b#6) : decodeWordRaw r.pack = decodeVfcmp r.pack := by
  simp only [decodeWordRaw, RawVI.major_pack, h, BitVec.reduceToNat]

theorem word_major_0x0c (r : RawVV) (h : r.major = 0x0c#6) : decodeWordRaw r.pack = (CvtOp.ofRaw r).map Instr.vfcvt := by
  simp only [decodeWordRaw, RawVV.major_pack, h, RawVV.unpack_pack, BitVec.reduceToNat]

theorem word_major_0x0f (r : RawVB) (h : r.major = 0x0f#6) : decodeWordRaw r.pack = decodeVloop r := by
  simp only [decodeWordRaw, RawVB.major_pack, h, RawVB.unpack_pack, BitVec.reduceToNat]

theorem word_major_0x10 (r : RawVM) (h : r.major = 0x10#6) : decodeWordRaw r.pack = (VldOp.ofRaw r).map Instr.vld := by
  simp only [decodeWordRaw, RawVM.major_pack, h, RawVM.unpack_pack, BitVec.reduceToNat]

theorem word_major_0x11 (r : RawVM) (h : r.major = 0x11#6) : decodeWordRaw r.pack = (VldsOp.ofRaw r).map Instr.vlds := by
  simp only [decodeWordRaw, RawVM.major_pack, h, RawVM.unpack_pack, BitVec.reduceToNat]

theorem word_major_0x12 (r : RawVM) (h : r.major = 0x12#6) : decodeWordRaw r.pack = (VldxOp.ofRaw r).map Instr.vldx := by
  simp only [decodeWordRaw, RawVM.major_pack, h, RawVM.unpack_pack, BitVec.reduceToNat]

theorem word_major_0x13 (r : RawVM) (h : r.major = 0x13#6) : decodeWordRaw r.pack = (VldsegOp.ofRaw r).map Instr.vldseg := by
  simp only [decodeWordRaw, RawVM.major_pack, h, RawVM.unpack_pack, BitVec.reduceToNat]

theorem word_major_0x14 (r : RawVM) (h : r.major = 0x14#6) : decodeWordRaw r.pack = (VldffOp.ofRaw r).map Instr.vldff := by
  simp only [decodeWordRaw, RawVM.major_pack, h, RawVM.unpack_pack, BitVec.reduceToNat]

theorem word_major_0x18 (r : RawVM) (h : r.major = 0x18#6) : decodeWordRaw r.pack = (VstOp.ofRaw r).map Instr.vst := by
  simp only [decodeWordRaw, RawVM.major_pack, h, RawVM.unpack_pack, BitVec.reduceToNat]

theorem word_major_0x19 (r : RawVM) (h : r.major = 0x19#6) : decodeWordRaw r.pack = (VstsOp.ofRaw r).map Instr.vsts := by
  simp only [decodeWordRaw, RawVM.major_pack, h, RawVM.unpack_pack, BitVec.reduceToNat]

theorem word_major_0x1a (r : RawVM) (h : r.major = 0x1a#6) : decodeWordRaw r.pack = (VstxOp.ofRaw r).map Instr.vstx := by
  simp only [decodeWordRaw, RawVM.major_pack, h, RawVM.unpack_pack, BitVec.reduceToNat]

theorem word_major_0x1b (r : RawVM) (h : r.major = 0x1b#6) : decodeWordRaw r.pack = (VstsegOp.ofRaw r).map Instr.vstseg := by
  simp only [decodeWordRaw, RawVM.major_pack, h, RawVM.unpack_pack, BitVec.reduceToNat]

theorem word_major_0x1c (r : RawVM) (h : r.major = 0x1c#6) : decodeWordRaw r.pack = (VldxOp.ofRaw r).map Instr.vscadd := by
  simp only [decodeWordRaw, RawVM.major_pack, h, RawVM.unpack_pack, BitVec.reduceToNat]

theorem word_major_0x1e (r : RawVM) (h : r.major = 0x1e#6) : decodeWordRaw r.pack = (VwaitOp.ofRaw r).map Instr.vwait := by
  simp only [decodeWordRaw, RawVM.major_pack, h, RawVM.unpack_pack, BitVec.reduceToNat]

theorem word_major_0x20 (r : RawVC) (h : r.major = 0x20#6) : decodeWordRaw r.pack = decodeStream r := by
  simp only [decodeWordRaw, RawVC.major_pack, h, RawVC.unpack_pack, BitVec.reduceToNat]

theorem word_major_0x24 (r : RawVQ) (h : r.major = 0x24#6) : decodeWordRaw r.pack = decodeQueue r := by
  simp only [decodeWordRaw, RawVQ.major_pack, h, RawVQ.unpack_pack, BitVec.reduceToNat]

theorem word_major_0x30 (r : RawMX) (h : r.major = 0x30#6) : decodeWordRaw r.pack = decodeMatrix r := by
  simp only [decodeWordRaw, RawMX.major_pack, h, RawMX.unpack_pack, BitVec.reduceToNat]

theorem word_major_0x38 (r : RawVC) (h : r.major = 0x38#6) : decodeWordRaw r.pack = decodeSys64 r := by
  simp only [decodeWordRaw, RawVC.major_pack, h, RawVC.unpack_pack, BitVec.reduceToNat]

theorem RoundTrip.add (o : RRR) : RoundTrip.Statement (.add o) := fun _ hw =>
  parcel_of_RawSR _ _ 0x01#7 rfl (by decide) hw ((parcel_major_0x01 _ rfl).trans (congrArg (Option.map Instr.add) (RRR.ofRaw_raw o 0x01#7 0x0#10)))

theorem RoundTrip.sub (o : RRR) : RoundTrip.Statement (.sub o) := fun _ hw =>
  parcel_of_RawSR _ _ 0x01#7 rfl (by decide) hw ((parcel_major_0x01 _ rfl).trans (congrArg (Option.map Instr.sub) (RRR.ofRaw_raw o 0x01#7 0x1#10)))

theorem RoundTrip.and (o : RRR) : RoundTrip.Statement (.and o) := fun _ hw =>
  parcel_of_RawSR _ _ 0x01#7 rfl (by decide) hw ((parcel_major_0x01 _ rfl).trans (congrArg (Option.map Instr.and) (RRR.ofRaw_raw o 0x01#7 0x2#10)))

theorem RoundTrip.or (o : RRR) : RoundTrip.Statement (.or o) := fun _ hw =>
  parcel_of_RawSR _ _ 0x01#7 rfl (by decide) hw ((parcel_major_0x01 _ rfl).trans (congrArg (Option.map Instr.or) (RRR.ofRaw_raw o 0x01#7 0x3#10)))

theorem RoundTrip.xor (o : RRR) : RoundTrip.Statement (.xor o) := fun _ hw =>
  parcel_of_RawSR _ _ 0x01#7 rfl (by decide) hw ((parcel_major_0x01 _ rfl).trans (congrArg (Option.map Instr.xor) (RRR.ofRaw_raw o 0x01#7 0x4#10)))

theorem RoundTrip.andn (o : RRR) : RoundTrip.Statement (.andn o) := fun _ hw =>
  parcel_of_RawSR _ _ 0x01#7 rfl (by decide) hw ((parcel_major_0x01 _ rfl).trans (congrArg (Option.map Instr.andn) (RRR.ofRaw_raw o 0x01#7 0x5#10)))

theorem RoundTrip.shl (o : RRR) : RoundTrip.Statement (.shl o) := fun _ hw =>
  parcel_of_RawSR _ _ 0x01#7 rfl (by decide) hw ((parcel_major_0x01 _ rfl).trans (congrArg (Option.map Instr.shl) (RRR.ofRaw_raw o 0x01#7 0x8#10)))

theorem RoundTrip.shr (o : RRR) : RoundTrip.Statement (.shr o) := fun _ hw =>
  parcel_of_RawSR _ _ 0x01#7 rfl (by decide) hw ((parcel_major_0x01 _ rfl).trans (congrArg (Option.map Instr.shr) (RRR.ofRaw_raw o 0x01#7 0x9#10)))

theorem RoundTrip.sha (o : RRR) : RoundTrip.Statement (.sha o) := fun _ hw =>
  parcel_of_RawSR _ _ 0x01#7 rfl (by decide) hw ((parcel_major_0x01 _ rfl).trans (congrArg (Option.map Instr.sha) (RRR.ofRaw_raw o 0x01#7 0xa#10)))

theorem RoundTrip.min (o : RRR) : RoundTrip.Statement (.min o) := fun _ hw =>
  parcel_of_RawSR _ _ 0x01#7 rfl (by decide) hw ((parcel_major_0x01 _ rfl).trans (congrArg (Option.map Instr.min) (RRR.ofRaw_raw o 0x01#7 0x10#10)))

theorem RoundTrip.max (o : RRR) : RoundTrip.Statement (.max o) := fun _ hw =>
  parcel_of_RawSR _ _ 0x01#7 rfl (by decide) hw ((parcel_major_0x01 _ rfl).trans (congrArg (Option.map Instr.max) (RRR.ofRaw_raw o 0x01#7 0x11#10)))

theorem RoundTrip.minn (o : RRR) : RoundTrip.Statement (.minn o) := fun _ hw =>
  parcel_of_RawSR _ _ 0x01#7 rfl (by decide) hw ((parcel_major_0x01 _ rfl).trans (congrArg (Option.map Instr.minn) (RRR.ofRaw_raw o 0x01#7 0x12#10)))

theorem RoundTrip.maxn (o : RRR) : RoundTrip.Statement (.maxn o) := fun _ hw =>
  parcel_of_RawSR _ _ 0x01#7 rfl (by decide) hw ((parcel_major_0x01 _ rfl).trans (congrArg (Option.map Instr.maxn) (RRR.ofRaw_raw o 0x01#7 0x13#10)))

theorem RoundTrip.slt (o : RRR) : RoundTrip.Statement (.slt o) := fun _ hw =>
  parcel_of_RawSR _ _ 0x01#7 rfl (by decide) hw ((parcel_major_0x01 _ rfl).trans (congrArg (Option.map Instr.slt) (RRR.ofRaw_raw o 0x01#7 0x14#10)))

theorem RoundTrip.sltn (o : RRR) : RoundTrip.Statement (.sltn o) := fun _ hw =>
  parcel_of_RawSR _ _ 0x01#7 rfl (by decide) hw ((parcel_major_0x01 _ rfl).trans (congrArg (Option.map Instr.sltn) (RRR.ofRaw_raw o 0x01#7 0x15#10)))

theorem RoundTrip.mul (o : RRR) : RoundTrip.Statement (.mul o) := fun _ hw =>
  parcel_of_RawSR _ _ 0x01#7 rfl (by decide) hw ((parcel_major_0x01 _ rfl).trans (congrArg (Option.map Instr.mul) (RRR.ofRaw_raw o 0x01#7 0x20#10)))

theorem RoundTrip.mulh (o : RRR) : RoundTrip.Statement (.mulh o) := fun _ hw =>
  parcel_of_RawSR _ _ 0x01#7 rfl (by decide) hw ((parcel_major_0x01 _ rfl).trans (congrArg (Option.map Instr.mulh) (RRR.ofRaw_raw o 0x01#7 0x21#10)))

theorem RoundTrip.mulhn (o : RRR) : RoundTrip.Statement (.mulhn o) := fun _ hw =>
  parcel_of_RawSR _ _ 0x01#7 rfl (by decide) hw ((parcel_major_0x01 _ rfl).trans (congrArg (Option.map Instr.mulhn) (RRR.ofRaw_raw o 0x01#7 0x22#10)))

theorem RoundTrip.div (o : RRR) : RoundTrip.Statement (.div o) := fun _ hw =>
  parcel_of_RawSR _ _ 0x01#7 rfl (by decide) hw ((parcel_major_0x01 _ rfl).trans (congrArg (Option.map Instr.div) (RRR.ofRaw_raw o 0x01#7 0x24#10)))

theorem RoundTrip.divn (o : RRR) : RoundTrip.Statement (.divn o) := fun _ hw =>
  parcel_of_RawSR _ _ 0x01#7 rfl (by decide) hw ((parcel_major_0x01 _ rfl).trans (congrArg (Option.map Instr.divn) (RRR.ofRaw_raw o 0x01#7 0x25#10)))

theorem RoundTrip.rem (o : RRR) : RoundTrip.Statement (.rem o) := fun _ hw =>
  parcel_of_RawSR _ _ 0x01#7 rfl (by decide) hw ((parcel_major_0x01 _ rfl).trans (congrArg (Option.map Instr.rem) (RRR.ofRaw_raw o 0x01#7 0x26#10)))

theorem RoundTrip.remn (o : RRR) : RoundTrip.Statement (.remn o) := fun _ hw =>
  parcel_of_RawSR _ _ 0x01#7 rfl (by decide) hw ((parcel_major_0x01 _ rfl).trans (congrArg (Option.map Instr.remn) (RRR.ofRaw_raw o 0x01#7 0x27#10)))

theorem RoundTrip.clz (o : RR) : RoundTrip.Statement (.clz o) := fun _ hw =>
  parcel_of_RawSR _ _ 0x01#7 rfl (by decide) hw ((parcel_major_0x01 _ rfl).trans (congrArg (Option.map Instr.clz) (RR.ofRaw_raw o 0x01#7 0x30#10)))

theorem RoundTrip.ctz (o : RR) : RoundTrip.Statement (.ctz o) := fun _ hw =>
  parcel_of_RawSR _ _ 0x01#7 rfl (by decide) hw ((parcel_major_0x01 _ rfl).trans (congrArg (Option.map Instr.ctz) (RR.ofRaw_raw o 0x01#7 0x31#10)))

theorem RoundTrip.popc (o : RR) : RoundTrip.Statement (.popc o) := fun _ hw =>
  parcel_of_RawSR _ _ 0x01#7 rfl (by decide) hw ((parcel_major_0x01 _ rfl).trans (congrArg (Option.map Instr.popc) (RR.ofRaw_raw o 0x01#7 0x32#10)))

theorem RoundTrip.addi (o : RRI) : RoundTrip.Statement (.addi o) := fun _ hw =>
  parcel_of_RawSI _ _ 0x02#7 rfl (by decide) hw ((parcel_major_0x02 _ rfl).trans (congrArg (Option.map Instr.addi) (RRI.ofRaw_raw o 0x02#7)))

theorem RoundTrip.andi (o : RRI) : RoundTrip.Statement (.andi o) := fun _ hw =>
  parcel_of_RawSI _ _ 0x03#7 rfl (by decide) hw ((parcel_major_0x03 _ rfl).trans (congrArg (Option.map Instr.andi) (RRI.ofRaw_raw o 0x03#7)))

theorem RoundTrip.ori (o : RRI) : RoundTrip.Statement (.ori o) := fun _ hw =>
  parcel_of_RawSI _ _ 0x04#7 rfl (by decide) hw ((parcel_major_0x04 _ rfl).trans (congrArg (Option.map Instr.ori) (RRI.ofRaw_raw o 0x04#7)))

theorem RoundTrip.xori (o : RRI) : RoundTrip.Statement (.xori o) := fun _ hw =>
  parcel_of_RawSI _ _ 0x05#7 rfl (by decide) hw ((parcel_major_0x05 _ rfl).trans (congrArg (Option.map Instr.xori) (RRI.ofRaw_raw o 0x05#7)))

theorem RoundTrip.slti (o : RRI) : RoundTrip.Statement (.slti o) := fun _ hw =>
  parcel_of_RawSI _ _ 0x06#7 rfl (by decide) hw ((parcel_major_0x06 _ rfl).trans (congrArg (Option.map Instr.slti) (RRI.ofRaw_raw o 0x06#7)))

theorem RoundTrip.sltni (o : RRI) : RoundTrip.Statement (.sltni o) := fun _ hw =>
  parcel_of_RawSI _ _ 0x07#7 rfl (by decide) hw ((parcel_major_0x07 _ rfl).trans (congrArg (Option.map Instr.sltni) (RRI.ofRaw_raw o 0x07#7)))

theorem RoundTrip.shli (o : RRSh) : RoundTrip.Statement (.shli o) := fun _ hw =>
  parcel_of_RawSI _ _ 0x08#7 rfl (by decide) hw ((parcel_major_0x08 _ rfl).trans (congrArg (Option.map Instr.shli) (RRSh.ofRaw_raw o 0x08#7)))

theorem RoundTrip.shri (o : RRSh) : RoundTrip.Statement (.shri o) := fun _ hw =>
  parcel_of_RawSI _ _ 0x09#7 rfl (by decide) hw ((parcel_major_0x09 _ rfl).trans (congrArg (Option.map Instr.shri) (RRSh.ofRaw_raw o 0x09#7)))

theorem RoundTrip.shai (o : RRSh) : RoundTrip.Statement (.shai o) := fun _ hw =>
  parcel_of_RawSI _ _ 0x0a#7 rfl (by decide) hw ((parcel_major_0x0a _ rfl).trans (congrArg (Option.map Instr.shai) (RRSh.ofRaw_raw o 0x0a#7)))

theorem RoundTrip.lui (o : RI20) : RoundTrip.Statement (.lui o) := fun _ hw =>
  parcel_of_RawSU _ _ 0x0b#7 rfl (by decide) hw ((parcel_major_0x0b _ rfl).trans (congrArg (Option.map Instr.lui) (RI20.ofRaw_raw o 0x0b#7)))

theorem RoundTrip.adpc (o : RI20) : RoundTrip.Statement (.adpc o) := fun _ hw =>
  parcel_of_RawSU _ _ 0x0c#7 rfl (by decide) hw ((parcel_major_0x0c _ rfl).trans (congrArg (Option.map Instr.adpc) (RI20.ofRaw_raw o 0x0c#7)))

theorem RoundTrip.ld8 (o : RRI) : RoundTrip.Statement (.ld8 o) := fun _ hw =>
  parcel_of_RawSI _ _ 0x10#7 rfl (by decide) hw ((parcel_major_0x10 _ rfl).trans (congrArg (Option.map Instr.ld8) (RRI.ofRaw_raw o 0x10#7)))

theorem RoundTrip.ld16 (o : RRI) : RoundTrip.Statement (.ld16 o) := fun _ hw =>
  parcel_of_RawSI _ _ 0x11#7 rfl (by decide) hw ((parcel_major_0x11 _ rfl).trans (congrArg (Option.map Instr.ld16) (RRI.ofRaw_raw o 0x11#7)))

theorem RoundTrip.ld32 (o : RRI) : RoundTrip.Statement (.ld32 o) := fun _ hw =>
  parcel_of_RawSI _ _ 0x12#7 rfl (by decide) hw ((parcel_major_0x12 _ rfl).trans (congrArg (Option.map Instr.ld32) (RRI.ofRaw_raw o 0x12#7)))

theorem RoundTrip.ld64 (o : RRI) : RoundTrip.Statement (.ld64 o) := fun _ hw =>
  parcel_of_RawSI _ _ 0x13#7 rfl (by decide) hw ((parcel_major_0x13 _ rfl).trans (congrArg (Option.map Instr.ld64) (RRI.ofRaw_raw o 0x13#7)))

theorem RoundTrip.ldn8 (o : RRI) : RoundTrip.Statement (.ldn8 o) := fun _ hw =>
  parcel_of_RawSI _ _ 0x14#7 rfl (by decide) hw ((parcel_major_0x14 _ rfl).trans (congrArg (Option.map Instr.ldn8) (RRI.ofRaw_raw o 0x14#7)))

theorem RoundTrip.ldn16 (o : RRI) : RoundTrip.Statement (.ldn16 o) := fun _ hw =>
  parcel_of_RawSI _ _ 0x15#7 rfl (by decide) hw ((parcel_major_0x15 _ rfl).trans (congrArg (Option.map Instr.ldn16) (RRI.ofRaw_raw o 0x15#7)))

theorem RoundTrip.ldn32 (o : RRI) : RoundTrip.Statement (.ldn32 o) := fun _ hw =>
  parcel_of_RawSI _ _ 0x16#7 rfl (by decide) hw ((parcel_major_0x16 _ rfl).trans (congrArg (Option.map Instr.ldn32) (RRI.ofRaw_raw o 0x16#7)))

theorem RoundTrip.st8 (o : RRI) : RoundTrip.Statement (.st8 o) := fun _ hw =>
  parcel_of_RawSI _ _ 0x18#7 rfl (by decide) hw ((parcel_major_0x18 _ rfl).trans (congrArg (Option.map Instr.st8) (RRI.ofRaw_raw o 0x18#7)))

theorem RoundTrip.st16 (o : RRI) : RoundTrip.Statement (.st16 o) := fun _ hw =>
  parcel_of_RawSI _ _ 0x19#7 rfl (by decide) hw ((parcel_major_0x19 _ rfl).trans (congrArg (Option.map Instr.st16) (RRI.ofRaw_raw o 0x19#7)))

theorem RoundTrip.st32 (o : RRI) : RoundTrip.Statement (.st32 o) := fun _ hw =>
  parcel_of_RawSI _ _ 0x1a#7 rfl (by decide) hw ((parcel_major_0x1a _ rfl).trans (congrArg (Option.map Instr.st32) (RRI.ofRaw_raw o 0x1a#7)))

theorem RoundTrip.st64 (o : RRI) : RoundTrip.Statement (.st64 o) := fun _ hw =>
  parcel_of_RawSI _ _ 0x1b#7 rfl (by decide) hw ((parcel_major_0x1b _ rfl).trans (congrArg (Option.map Instr.st64) (RRI.ofRaw_raw o 0x1b#7)))

theorem RoundTrip.amoAdd (o : AmoOp) : RoundTrip.Statement (.amoAdd o) := fun _ hw =>
  parcel_of_RawSR _ _ 0x1c#7 rfl (by decide) hw ((parcel_major_0x1c _ rfl).trans (by unfold decodeAmo; rw [AmoOp.fn_raw]; exact congrArg (Option.map Instr.amoAdd) (AmoOp.ofRaw_raw o 0x1c#7 0x0#4)))

theorem RoundTrip.amoSwap (o : AmoOp) : RoundTrip.Statement (.amoSwap o) := fun _ hw =>
  parcel_of_RawSR _ _ 0x1c#7 rfl (by decide) hw ((parcel_major_0x1c _ rfl).trans (by unfold decodeAmo; rw [AmoOp.fn_raw]; exact congrArg (Option.map Instr.amoSwap) (AmoOp.ofRaw_raw o 0x1c#7 0x1#4)))

theorem RoundTrip.amoAnd (o : AmoOp) : RoundTrip.Statement (.amoAnd o) := fun _ hw =>
  parcel_of_RawSR _ _ 0x1c#7 rfl (by decide) hw ((parcel_major_0x1c _ rfl).trans (by unfold decodeAmo; rw [AmoOp.fn_raw]; exact congrArg (Option.map Instr.amoAnd) (AmoOp.ofRaw_raw o 0x1c#7 0x2#4)))

theorem RoundTrip.amoOr (o : AmoOp) : RoundTrip.Statement (.amoOr o) := fun _ hw =>
  parcel_of_RawSR _ _ 0x1c#7 rfl (by decide) hw ((parcel_major_0x1c _ rfl).trans (by unfold decodeAmo; rw [AmoOp.fn_raw]; exact congrArg (Option.map Instr.amoOr) (AmoOp.ofRaw_raw o 0x1c#7 0x3#4)))

theorem RoundTrip.amoXor (o : AmoOp) : RoundTrip.Statement (.amoXor o) := fun _ hw =>
  parcel_of_RawSR _ _ 0x1c#7 rfl (by decide) hw ((parcel_major_0x1c _ rfl).trans (by unfold decodeAmo; rw [AmoOp.fn_raw]; exact congrArg (Option.map Instr.amoXor) (AmoOp.ofRaw_raw o 0x1c#7 0x4#4)))

theorem RoundTrip.amoMin (o : AmoOp) : RoundTrip.Statement (.amoMin o) := fun _ hw =>
  parcel_of_RawSR _ _ 0x1c#7 rfl (by decide) hw ((parcel_major_0x1c _ rfl).trans (by unfold decodeAmo; rw [AmoOp.fn_raw]; exact congrArg (Option.map Instr.amoMin) (AmoOp.ofRaw_raw o 0x1c#7 0x5#4)))

theorem RoundTrip.amoMax (o : AmoOp) : RoundTrip.Statement (.amoMax o) := fun _ hw =>
  parcel_of_RawSR _ _ 0x1c#7 rfl (by decide) hw ((parcel_major_0x1c _ rfl).trans (by unfold decodeAmo; rw [AmoOp.fn_raw]; exact congrArg (Option.map Instr.amoMax) (AmoOp.ofRaw_raw o 0x1c#7 0x6#4)))

theorem RoundTrip.amoMinn (o : AmoOp) : RoundTrip.Statement (.amoMinn o) := fun _ hw =>
  parcel_of_RawSR _ _ 0x1c#7 rfl (by decide) hw ((parcel_major_0x1c _ rfl).trans (by unfold decodeAmo; rw [AmoOp.fn_raw]; exact congrArg (Option.map Instr.amoMinn) (AmoOp.ofRaw_raw o 0x1c#7 0x7#4)))

theorem RoundTrip.amoMaxn (o : AmoOp) : RoundTrip.Statement (.amoMaxn o) := fun _ hw =>
  parcel_of_RawSR _ _ 0x1c#7 rfl (by decide) hw ((parcel_major_0x1c _ rfl).trans (by unfold decodeAmo; rw [AmoOp.fn_raw]; exact congrArg (Option.map Instr.amoMaxn) (AmoOp.ofRaw_raw o 0x1c#7 0x8#4)))

theorem RoundTrip.amoCas (o : AmoOp) : RoundTrip.Statement (.amoCas o) := fun _ hw =>
  parcel_of_RawSR _ _ 0x1c#7 rfl (by decide) hw ((parcel_major_0x1c _ rfl).trans (by unfold decodeAmo; rw [AmoOp.fn_raw]; exact congrArg (Option.map Instr.amoCas) (AmoOp.ofRaw_raw o 0x1c#7 0x9#4)))

theorem RoundTrip.claim (o : RRR) : RoundTrip.Statement (.claim o) := fun _ hw =>
  parcel_of_RawSR _ _ 0x1d#7 rfl (by decide) hw ((parcel_major_0x1d _ rfl).trans (congrArg (Option.map Instr.claim) (RRR.ofRaw_raw o 0x1d#7 0x0#10)))

theorem RoundTrip.beq (o : BranchOp) : RoundTrip.Statement (.beq o) := fun _ hw =>
  parcel_of_RawSI _ _ 0x20#7 rfl (by decide) hw ((parcel_major_0x20 _ rfl).trans (congrArg (Option.map Instr.beq) (BranchOp.ofRaw_raw o 0x20#7)))

theorem RoundTrip.bne (o : BranchOp) : RoundTrip.Statement (.bne o) := fun _ hw =>
  parcel_of_RawSI _ _ 0x21#7 rfl (by decide) hw ((parcel_major_0x21 _ rfl).trans (congrArg (Option.map Instr.bne) (BranchOp.ofRaw_raw o 0x21#7)))

theorem RoundTrip.blt (o : BranchOp) : RoundTrip.Statement (.blt o) := fun _ hw =>
  parcel_of_RawSI _ _ 0x22#7 rfl (by decide) hw ((parcel_major_0x22 _ rfl).trans (congrArg (Option.map Instr.blt) (BranchOp.ofRaw_raw o 0x22#7)))

theorem RoundTrip.bge (o : BranchOp) : RoundTrip.Statement (.bge o) := fun _ hw =>
  parcel_of_RawSI _ _ 0x23#7 rfl (by decide) hw ((parcel_major_0x23 _ rfl).trans (congrArg (Option.map Instr.bge) (BranchOp.ofRaw_raw o 0x23#7)))

theorem RoundTrip.bltn (o : BranchOp) : RoundTrip.Statement (.bltn o) := fun _ hw =>
  parcel_of_RawSI _ _ 0x24#7 rfl (by decide) hw ((parcel_major_0x24 _ rfl).trans (congrArg (Option.map Instr.bltn) (BranchOp.ofRaw_raw o 0x24#7)))

theorem RoundTrip.bgen (o : BranchOp) : RoundTrip.Statement (.bgen o) := fun _ hw =>
  parcel_of_RawSI _ _ 0x25#7 rfl (by decide) hw ((parcel_major_0x25 _ rfl).trans (congrArg (Option.map Instr.bgen) (BranchOp.ofRaw_raw o 0x25#7)))

theorem RoundTrip.jal (o : RI20) : RoundTrip.Statement (.jal o) := fun _ hw =>
  parcel_of_RawSU _ _ 0x26#7 rfl (by decide) hw ((parcel_major_0x26 _ rfl).trans (congrArg (Option.map Instr.jal) (RI20.ofRaw_raw o 0x26#7)))

theorem RoundTrip.jalr (o : RRI) : RoundTrip.Statement (.jalr o) := fun _ hw =>
  parcel_of_RawSI _ _ 0x27#7 rfl (by decide) hw ((parcel_major_0x27 _ rfl).trans (congrArg (Option.map Instr.jalr) (RRI.ofRaw_raw o 0x27#7)))

theorem RoundTrip.fadd (o : FOp2) : RoundTrip.Statement (.fadd o) := fun _ hw =>
  parcel_of_RawSR _ _ 0x28#7 rfl (by decide) hw ((parcel_major_0x28 _ rfl).trans (by unfold decodeFp; rw [FOp2.fn_raw]; exact congrArg (Option.map Instr.fadd) (FOp2.ofRaw_raw o 0x28#7 0x0#8)))

theorem RoundTrip.fsub (o : FOp2) : RoundTrip.Statement (.fsub o) := fun _ hw =>
  parcel_of_RawSR _ _ 0x28#7 rfl (by decide) hw ((parcel_major_0x28 _ rfl).trans (by unfold decodeFp; rw [FOp2.fn_raw]; exact congrArg (Option.map Instr.fsub) (FOp2.ofRaw_raw o 0x28#7 0x1#8)))

theorem RoundTrip.fmul (o : FOp2) : RoundTrip.Statement (.fmul o) := fun _ hw =>
  parcel_of_RawSR _ _ 0x28#7 rfl (by decide) hw ((parcel_major_0x28 _ rfl).trans (by unfold decodeFp; rw [FOp2.fn_raw]; exact congrArg (Option.map Instr.fmul) (FOp2.ofRaw_raw o 0x28#7 0x2#8)))

theorem RoundTrip.fdiv (o : FOp2) : RoundTrip.Statement (.fdiv o) := fun _ hw =>
  parcel_of_RawSR _ _ 0x28#7 rfl (by decide) hw ((parcel_major_0x28 _ rfl).trans (by unfold decodeFp; rw [FOp2.fn_raw]; exact congrArg (Option.map Instr.fdiv) (FOp2.ofRaw_raw o 0x28#7 0x3#8)))

theorem RoundTrip.fsqrt (o : FOp1) : RoundTrip.Statement (.fsqrt o) := fun _ hw =>
  parcel_of_RawSR _ _ 0x28#7 rfl (by decide) hw ((parcel_major_0x28 _ rfl).trans (by unfold decodeFp; rw [FOp1.fn_raw]; exact congrArg (Option.map Instr.fsqrt) (FOp1.ofRaw_raw o 0x28#7 0x4#8)))

theorem RoundTrip.fmin (o : FOp2) : RoundTrip.Statement (.fmin o) := fun _ hw =>
  parcel_of_RawSR _ _ 0x28#7 rfl (by decide) hw ((parcel_major_0x28 _ rfl).trans (by unfold decodeFp; rw [FOp2.fn_raw]; exact congrArg (Option.map Instr.fmin) (FOp2.ofRaw_raw o 0x28#7 0x5#8)))

theorem RoundTrip.fmax (o : FOp2) : RoundTrip.Statement (.fmax o) := fun _ hw =>
  parcel_of_RawSR _ _ 0x28#7 rfl (by decide) hw ((parcel_major_0x28 _ rfl).trans (by unfold decodeFp; rw [FOp2.fn_raw]; exact congrArg (Option.map Instr.fmax) (FOp2.ofRaw_raw o 0x28#7 0x6#8)))

theorem RoundTrip.feq (o : FOp2) : RoundTrip.Statement (.feq o) := fun _ hw =>
  parcel_of_RawSR _ _ 0x28#7 rfl (by decide) hw ((parcel_major_0x28 _ rfl).trans (by unfold decodeFp; rw [FOp2.fn_raw]; exact congrArg (Option.map Instr.feq) (FOp2.ofRaw_raw o 0x28#7 0x8#8)))

theorem RoundTrip.flt (o : FOp2) : RoundTrip.Statement (.flt o) := fun _ hw =>
  parcel_of_RawSR _ _ 0x28#7 rfl (by decide) hw ((parcel_major_0x28 _ rfl).trans (by unfold decodeFp; rw [FOp2.fn_raw]; exact congrArg (Option.map Instr.flt) (FOp2.ofRaw_raw o 0x28#7 0x9#8)))

theorem RoundTrip.fle (o : FOp2) : RoundTrip.Statement (.fle o) := fun _ hw =>
  parcel_of_RawSR _ _ 0x28#7 rfl (by decide) hw ((parcel_major_0x28 _ rfl).trans (by unfold decodeFp; rw [FOp2.fn_raw]; exact congrArg (Option.map Instr.fle) (FOp2.ofRaw_raw o 0x28#7 0xa#8)))

theorem RoundTrip.fclass (o : FOp1) : RoundTrip.Statement (.fclass o) := fun _ hw =>
  parcel_of_RawSR _ _ 0x28#7 rfl (by decide) hw ((parcel_major_0x28 _ rfl).trans (by unfold decodeFp; rw [FOp1.fn_raw]; exact congrArg (Option.map Instr.fclass) (FOp1.ofRaw_raw o 0x28#7 0xb#8)))

theorem RoundTrip.fsgnj (o : FOp2) : RoundTrip.Statement (.fsgnj o) := fun _ hw =>
  parcel_of_RawSR _ _ 0x28#7 rfl (by decide) hw ((parcel_major_0x28 _ rfl).trans (by unfold decodeFp; rw [FOp2.fn_raw]; exact congrArg (Option.map Instr.fsgnj) (FOp2.ofRaw_raw o 0x28#7 0xc#8)))

theorem RoundTrip.fsgnjn (o : FOp2) : RoundTrip.Statement (.fsgnjn o) := fun _ hw =>
  parcel_of_RawSR _ _ 0x28#7 rfl (by decide) hw ((parcel_major_0x28 _ rfl).trans (by unfold decodeFp; rw [FOp2.fn_raw]; exact congrArg (Option.map Instr.fsgnjn) (FOp2.ofRaw_raw o 0x28#7 0xd#8)))

theorem RoundTrip.fcvtfi (o : FCvtInt) : RoundTrip.Statement (.fcvtfi o) := fun _ hw =>
  parcel_of_RawSR _ _ 0x28#7 rfl (by decide) hw ((parcel_major_0x28 _ rfl).trans (by unfold decodeFp; rw [FCvtInt.fn_raw]; exact congrArg (Option.map Instr.fcvtfi) (FCvtInt.ofRaw_raw o 0x28#7 0x10#8)))

theorem RoundTrip.fcvtif (o : FCvtInt) : RoundTrip.Statement (.fcvtif o) := fun _ hw =>
  parcel_of_RawSR _ _ 0x28#7 rfl (by decide) hw ((parcel_major_0x28 _ rfl).trans (by unfold decodeFp; rw [FCvtInt.fn_raw]; exact congrArg (Option.map Instr.fcvtif) (FCvtInt.ofRaw_raw o 0x28#7 0x11#8)))

theorem RoundTrip.fcvtff (o : FCvtFlt) : RoundTrip.Statement (.fcvtff o) := fun _ hw =>
  parcel_of_RawSR _ _ 0x28#7 rfl (by decide) hw ((parcel_major_0x28 _ rfl).trans (by unfold decodeFp; rw [FCvtFlt.fn_raw]; exact congrArg (Option.map Instr.fcvtff) (FCvtFlt.ofRaw_raw o 0x28#7 0x12#8)))

theorem RoundTrip.fma (o : FOp3) : RoundTrip.Statement (.fma o) := fun _ hw =>
  parcel_of_RawSR _ _ 0x29#7 rfl (by decide) hw ((parcel_major_0x29 _ rfl).trans (by unfold decodeFma; rw [FOp3.fn_raw]; exact congrArg (Option.map Instr.fma) (FOp3.ofRaw_raw o 0x29#7 0x0#3)))

theorem RoundTrip.fms (o : FOp3) : RoundTrip.Statement (.fms o) := fun _ hw =>
  parcel_of_RawSR _ _ 0x29#7 rfl (by decide) hw ((parcel_major_0x29 _ rfl).trans (by unfold decodeFma; rw [FOp3.fn_raw]; exact congrArg (Option.map Instr.fms) (FOp3.ofRaw_raw o 0x29#7 0x1#3)))

theorem RoundTrip.fnma (o : FOp3) : RoundTrip.Statement (.fnma o) := fun _ hw =>
  parcel_of_RawSR _ _ 0x29#7 rfl (by decide) hw ((parcel_major_0x29 _ rfl).trans (by unfold decodeFma; rw [FOp3.fn_raw]; exact congrArg (Option.map Instr.fnma) (FOp3.ofRaw_raw o 0x29#7 0x2#3)))

theorem RoundTrip.fnms (o : FOp3) : RoundTrip.Statement (.fnms o) := fun _ hw =>
  parcel_of_RawSR _ _ 0x29#7 rfl (by decide) hw ((parcel_major_0x29 _ rfl).trans (by unfold decodeFma; rw [FOp3.fn_raw]; exact congrArg (Option.map Instr.fnms) (FOp3.ofRaw_raw o 0x29#7 0x3#3)))

theorem RoundTrip.csrget (o : CsrGet) : RoundTrip.Statement (.csrget o) := fun _ hw =>
  parcel_of_RawSI _ _ 0x30#7 rfl (by decide) hw ((parcel_major_0x30 _ rfl).trans (by unfold decodeCsr; rw [CsrGet.fn_raw]; exact congrArg (Option.map Instr.csrget) (CsrGet.ofRaw_raw o 0x30#7 0x0#3)))

theorem RoundTrip.csrput (o : CsrPut) : RoundTrip.Statement (.csrput o) := fun _ hw =>
  parcel_of_RawSI _ _ 0x30#7 rfl (by decide) hw ((parcel_major_0x30 _ rfl).trans (by unfold decodeCsr; rw [CsrPut.fn_raw]; exact congrArg (Option.map Instr.csrput) (CsrPut.ofRaw_raw o 0x30#7 0x1#3)))

theorem RoundTrip.csrswap (o : CsrRmw) : RoundTrip.Statement (.csrswap o) := fun _ hw =>
  parcel_of_RawSI _ _ 0x30#7 rfl (by decide) hw ((parcel_major_0x30 _ rfl).trans (by unfold decodeCsr; rw [CsrRmw.fn_raw]; exact congrArg (Option.map Instr.csrswap) (CsrRmw.ofRaw_raw o 0x30#7 0x2#3)))

theorem RoundTrip.csrset (o : CsrRmw) : RoundTrip.Statement (.csrset o) := fun _ hw =>
  parcel_of_RawSI _ _ 0x30#7 rfl (by decide) hw ((parcel_major_0x30 _ rfl).trans (by unfold decodeCsr; rw [CsrRmw.fn_raw]; exact congrArg (Option.map Instr.csrset) (CsrRmw.ofRaw_raw o 0x30#7 0x3#3)))

theorem RoundTrip.csrclr (o : CsrRmw) : RoundTrip.Statement (.csrclr o) := fun _ hw =>
  parcel_of_RawSI _ _ 0x30#7 rfl (by decide) hw ((parcel_major_0x30 _ rfl).trans (by unfold decodeCsr; rw [CsrRmw.fn_raw]; exact congrArg (Option.map Instr.csrclr) (CsrRmw.ofRaw_raw o 0x30#7 0x4#3)))

theorem RoundTrip.lanegrantWrite (v : Word) : RoundTrip.Statement (.lanegrantWrite v) := fun _ _ => trivial

theorem RoundTrip.ctxidWrite (v : Word) : RoundTrip.Statement (.ctxidWrite v) := fun _ _ => trivial

theorem RoundTrip.vownerWrite (v : Word) : RoundTrip.Statement (.vownerWrite v) := fun _ _ => trivial

theorem RoundTrip.pcntselWrite (v : Word) : RoundTrip.Statement (.pcntselWrite v) := fun _ _ => trivial

theorem RoundTrip.fence (o : FenceOp) : RoundTrip.Statement (.fence o) := fun _ hw =>
  parcel_of_RawSI _ _ 0x31#7 rfl (by decide) hw ((parcel_major_0x31 _ rfl).trans (congrArg (Option.map Instr.fence) (FenceOp.ofRaw_raw o 0x31#7)))

theorem RoundTrip.fenceEWaitDone (who : StrandId) : RoundTrip.Statement (.fenceEWaitDone who) := fun _ _ => trivial

theorem RoundTrip.syscall : RoundTrip.Statement .syscall := fun _ hw =>
  parcel_of_RawSR _ _ 0x32#7 rfl (by decide) hw ((parcel_major_0x32 _ rfl).trans (rfl))

theorem RoundTrip.trapret : RoundTrip.Statement .trapret := fun _ hw =>
  parcel_of_RawSR _ _ 0x32#7 rfl (by decide) hw ((parcel_major_0x32 _ rfl).trans (rfl))

theorem RoundTrip.resume (o : ResumeOp) : RoundTrip.Statement (.resume o) := fun _ hw =>
  parcel_of_RawSR _ _ 0x32#7 rfl (by decide) hw ((parcel_major_0x32 _ rfl).trans (congrArg (Option.map Instr.resume) (ResumeOp.ofRaw_raw o 0x32#7 0x2#10)))

theorem RoundTrip.track : RoundTrip.Statement .track := fun _ hw =>
  parcel_of_RawSR _ _ 0x32#7 rfl (by decide) hw ((parcel_major_0x32 _ rfl).trans (rfl))

theorem RoundTrip.yield : RoundTrip.Statement .yield := fun _ hw =>
  parcel_of_RawSR _ _ 0x32#7 rfl (by decide) hw ((parcel_major_0x32 _ rfl).trans (rfl))

theorem RoundTrip.halt : RoundTrip.Statement .halt := fun _ hw =>
  parcel_of_RawSR _ _ 0x32#7 rfl (by decide) hw ((parcel_major_0x32 _ rfl).trans (rfl))

theorem RoundTrip.waitev (o : RRR) : RoundTrip.Statement (.waitev o) := fun _ hw =>
  parcel_of_RawSR _ _ 0x32#7 rfl (by decide) hw ((parcel_major_0x32 _ rfl).trans (congrArg (Option.map Instr.waitev) (RRR.ofRaw_raw o 0x32#7 0x6#10)))

theorem RoundTrip.waitevWake (who : StrandId) : RoundTrip.Statement (.waitevWake who) := fun _ _ => trivial

theorem RoundTrip.waitevTimeout (who : StrandId) : RoundTrip.Statement (.waitevTimeout who) := fun _ _ => trivial

theorem RoundTrip.invtlb (o : InvtlbOp) : RoundTrip.Statement (.invtlb o) := fun _ hw =>
  parcel_of_RawSR _ _ 0x32#7 rfl (by decide) hw ((parcel_major_0x32 _ rfl).trans (congrArg (Option.map Instr.invtlb) (InvtlbOp.ofRaw_raw o 0x32#7 0x7#10)))

theorem RoundTrip.ebreak : RoundTrip.Statement .ebreak := fun _ hw =>
  parcel_of_RawSR _ _ 0x32#7 rfl (by decide) hw ((parcel_major_0x32 _ rfl).trans (rfl))

theorem RoundTrip.cache (o : CacheOp) : RoundTrip.Statement (.cache o) := fun _ hw =>
  parcel_of_RawSR _ _ 0x32#7 rfl (by decide) hw ((parcel_major_0x32 _ rfl).trans (congrArg (Option.map Instr.cache) (CacheOp.ofRaw_raw o 0x32#7 0x9#10)))

theorem RoundTrip.setvl (o : SetvlOp) : RoundTrip.Statement (.setvl o) := fun last hw =>
  word_of_RawVC _ _ last rfl hw ((word_major_0x01 _ rfl).trans (congrArg (Option.map Instr.setvl) (SetvlOp.ofRaw_raw o 0x01#6 last 0x0#8)))

theorem RoundTrip.setvt (o : SetvtOp) : RoundTrip.Statement (.setvt o) := fun last hw =>
  word_of_RawVC _ _ last rfl hw ((word_major_0x01 _ rfl).trans (congrArg (Option.map Instr.setvt) (SetvtOp.ofRaw_raw o 0x01#6 last 0x1#8)))

theorem RoundTrip.vconfig (o : VconfigOp) : RoundTrip.Statement (.vconfig o) := fun last hw =>
  word_of_RawVC _ _ last rfl hw ((word_major_0x01 _ rfl).trans (congrArg (Option.map Instr.vconfig) (VconfigOp.ofRaw_raw o 0x01#6 last 0x2#8)))

theorem RoundTrip.setvlf (o : SetvlfOp) : RoundTrip.Statement (.setvlf o) := fun last hw =>
  word_of_RawVC _ _ last rfl hw ((word_major_0x01 _ rfl).trans (congrArg (Option.map Instr.setvlf) (SetvlfOp.ofRaw_raw o 0x01#6 last 0x3#8)))

theorem RoundTrip.menter : RoundTrip.Statement .menter := fun last hw =>
  word_of_RawVC _ _ last rfl hw ((word_major_0x01 _ rfl).trans (rfl))

theorem RoundTrip.mexit : RoundTrip.Statement .mexit := fun last hw =>
  word_of_RawVC _ _ last rfl hw ((word_major_0x01 _ rfl).trans (rfl))

theorem RoundTrip.vaddVV (o : VV) : RoundTrip.Statement (.vaddVV o) := fun last hw =>
  word_of_RawVV _ _ last rfl hw ((word_major_0x02 _ rfl).trans (congrArg (Option.map Instr.vaddVV) (VV.ofRaw_raw o 0x02#6 last 0x0#16)))

theorem RoundTrip.vaddVS (o : VS) : RoundTrip.Statement (.vaddVS o) := fun last hw =>
  word_of_RawVV _ _ last rfl hw ((word_major_0x03 _ rfl).trans (congrArg (Option.map Instr.vaddVS) (VS.ofRaw_raw o 0x03#6 last 0x0#16)))

theorem RoundTrip.vaddVI (o : VI) : RoundTrip.Statement (.vaddVI o) := fun last hw =>
  word_of_RawVI _ _ last rfl hw ((word_major_0x04 _ rfl).trans (congrArg (Option.map Instr.vaddVI) (VI.ofRaw_raw o 0x04#6 last 0x0#16)))

theorem RoundTrip.vsubVV (o : VV) : RoundTrip.Statement (.vsubVV o) := fun last hw =>
  word_of_RawVV _ _ last rfl hw ((word_major_0x02 _ rfl).trans (congrArg (Option.map Instr.vsubVV) (VV.ofRaw_raw o 0x02#6 last 0x1#16)))

theorem RoundTrip.vsubVS (o : VS) : RoundTrip.Statement (.vsubVS o) := fun last hw =>
  word_of_RawVV _ _ last rfl hw ((word_major_0x03 _ rfl).trans (congrArg (Option.map Instr.vsubVS) (VS.ofRaw_raw o 0x03#6 last 0x1#16)))

theorem RoundTrip.vsubVI (o : VI) : RoundTrip.Statement (.vsubVI o) := fun last hw =>
  word_of_RawVI _ _ last rfl hw ((word_major_0x04 _ rfl).trans (congrArg (Option.map Instr.vsubVI) (VI.ofRaw_raw o 0x04#6 last 0x1#16)))

theorem RoundTrip.vandVV (o : VV) : RoundTrip.Statement (.vandVV o) := fun last hw =>
  word_of_RawVV _ _ last rfl hw ((word_major_0x02 _ rfl).trans (congrArg (Option.map Instr.vandVV) (VV.ofRaw_raw o 0x02#6 last 0x4#16)))

theorem RoundTrip.vandVS (o : VS) : RoundTrip.Statement (.vandVS o) := fun last hw =>
  word_of_RawVV _ _ last rfl hw ((word_major_0x03 _ rfl).trans (congrArg (Option.map Instr.vandVS) (VS.ofRaw_raw o 0x03#6 last 0x4#16)))

theorem RoundTrip.vandVI (o : VI) : RoundTrip.Statement (.vandVI o) := fun last hw =>
  word_of_RawVI _ _ last rfl hw ((word_major_0x04 _ rfl).trans (congrArg (Option.map Instr.vandVI) (VI.ofRaw_raw o 0x04#6 last 0x4#16)))

theorem RoundTrip.vorVV (o : VV) : RoundTrip.Statement (.vorVV o) := fun last hw =>
  word_of_RawVV _ _ last rfl hw ((word_major_0x02 _ rfl).trans (congrArg (Option.map Instr.vorVV) (VV.ofRaw_raw o 0x02#6 last 0x5#16)))

theorem RoundTrip.vorVS (o : VS) : RoundTrip.Statement (.vorVS o) := fun last hw =>
  word_of_RawVV _ _ last rfl hw ((word_major_0x03 _ rfl).trans (congrArg (Option.map Instr.vorVS) (VS.ofRaw_raw o 0x03#6 last 0x5#16)))

theorem RoundTrip.vorVI (o : VI) : RoundTrip.Statement (.vorVI o) := fun last hw =>
  word_of_RawVI _ _ last rfl hw ((word_major_0x04 _ rfl).trans (congrArg (Option.map Instr.vorVI) (VI.ofRaw_raw o 0x04#6 last 0x5#16)))

theorem RoundTrip.vxorVV (o : VV) : RoundTrip.Statement (.vxorVV o) := fun last hw =>
  word_of_RawVV _ _ last rfl hw ((word_major_0x02 _ rfl).trans (congrArg (Option.map Instr.vxorVV) (VV.ofRaw_raw o 0x02#6 last 0x6#16)))

theorem RoundTrip.vxorVS (o : VS) : RoundTrip.Statement (.vxorVS o) := fun last hw =>
  word_of_RawVV _ _ last rfl hw ((word_major_0x03 _ rfl).trans (congrArg (Option.map Instr.vxorVS) (VS.ofRaw_raw o 0x03#6 last 0x6#16)))

theorem RoundTrip.vxorVI (o : VI) : RoundTrip.Statement (.vxorVI o) := fun last hw =>
  word_of_RawVI _ _ last rfl hw ((word_major_0x04 _ rfl).trans (congrArg (Option.map Instr.vxorVI) (VI.ofRaw_raw o 0x04#6 last 0x6#16)))

theorem RoundTrip.vshlVV (o : VV) : RoundTrip.Statement (.vshlVV o) := fun last hw =>
  word_of_RawVV _ _ last rfl hw ((word_major_0x02 _ rfl).trans (congrArg (Option.map Instr.vshlVV) (VV.ofRaw_raw o 0x02#6 last 0x8#16)))

theorem RoundTrip.vshlVS (o : VS) : RoundTrip.Statement (.vshlVS o) := fun last hw =>
  word_of_RawVV _ _ last rfl hw ((word_major_0x03 _ rfl).trans (congrArg (Option.map Instr.vshlVS) (VS.ofRaw_raw o 0x03#6 last 0x8#16)))

theorem RoundTrip.vshlVI (o : VI) : RoundTrip.Statement (.vshlVI o) := fun last hw =>
  word_of_RawVI _ _ last rfl hw ((word_major_0x04 _ rfl).trans (congrArg (Option.map Instr.vshlVI) (VI.ofRaw_raw o 0x04#6 last 0x8#16)))

theorem RoundTrip.vshrVV (o : VV) : RoundTrip.Statement (.vshrVV o) := fun last hw =>
  word_of_RawVV _ _ last rfl hw ((word_major_0x02 _ rfl).trans (congrArg (Option.map Instr.vshrVV) (VV.ofRaw_raw o 0x02#6 last 0x9#16)))

theorem RoundTrip.vshrVS (o : VS) : RoundTrip.Statement (.vshrVS o) := fun last hw =>
  word_of_RawVV _ _ last rfl hw ((word_major_0x03 _ rfl).trans (congrArg (Option.map Instr.vshrVS) (VS.ofRaw_raw o 0x03#6 last 0x9#16)))

theorem RoundTrip.vshrVI (o : VI) : RoundTrip.Statement (.vshrVI o) := fun last hw =>
  word_of_RawVI _ _ last rfl hw ((word_major_0x04 _ rfl).trans (congrArg (Option.map Instr.vshrVI) (VI.ofRaw_raw o 0x04#6 last 0x9#16)))

theorem RoundTrip.vshaVV (o : VV) : RoundTrip.Statement (.vshaVV o) := fun last hw =>
  word_of_RawVV _ _ last rfl hw ((word_major_0x02 _ rfl).trans (congrArg (Option.map Instr.vshaVV) (VV.ofRaw_raw o 0x02#6 last 0xa#16)))

theorem RoundTrip.vshaVS (o : VS) : RoundTrip.Statement (.vshaVS o) := fun last hw =>
  word_of_RawVV _ _ last rfl hw ((word_major_0x03 _ rfl).trans (congrArg (Option.map Instr.vshaVS) (VS.ofRaw_raw o 0x03#6 last 0xa#16)))

theorem RoundTrip.vshaVI (o : VI) : RoundTrip.Statement (.vshaVI o) := fun last hw =>
  word_of_RawVI _ _ last rfl hw ((word_major_0x04 _ rfl).trans (congrArg (Option.map Instr.vshaVI) (VI.ofRaw_raw o 0x04#6 last 0xa#16)))

theorem RoundTrip.vminVV (o : VV) : RoundTrip.Statement (.vminVV o) := fun last hw =>
  word_of_RawVV _ _ last rfl hw ((word_major_0x02 _ rfl).trans (congrArg (Option.map Instr.vminVV) (VV.ofRaw_raw o 0x02#6 last 0x10#16)))

theorem RoundTrip.vminVS (o : VS) : RoundTrip.Statement (.vminVS o) := fun last hw =>
  word_of_RawVV _ _ last rfl hw ((word_major_0x03 _ rfl).trans (congrArg (Option.map Instr.vminVS) (VS.ofRaw_raw o 0x03#6 last 0x10#16)))

theorem RoundTrip.vminVI (o : VI) : RoundTrip.Statement (.vminVI o) := fun last hw =>
  word_of_RawVI _ _ last rfl hw ((word_major_0x04 _ rfl).trans (congrArg (Option.map Instr.vminVI) (VI.ofRaw_raw o 0x04#6 last 0x10#16)))

theorem RoundTrip.vmaxVV (o : VV) : RoundTrip.Statement (.vmaxVV o) := fun last hw =>
  word_of_RawVV _ _ last rfl hw ((word_major_0x02 _ rfl).trans (congrArg (Option.map Instr.vmaxVV) (VV.ofRaw_raw o 0x02#6 last 0x11#16)))

theorem RoundTrip.vmaxVS (o : VS) : RoundTrip.Statement (.vmaxVS o) := fun last hw =>
  word_of_RawVV _ _ last rfl hw ((word_major_0x03 _ rfl).trans (congrArg (Option.map Instr.vmaxVS) (VS.ofRaw_raw o 0x03#6 last 0x11#16)))

theorem RoundTrip.vmaxVI (o : VI) : RoundTrip.Statement (.vmaxVI o) := fun last hw =>
  word_of_RawVI _ _ last rfl hw ((word_major_0x04 _ rfl).trans (congrArg (Option.map Instr.vmaxVI) (VI.ofRaw_raw o 0x04#6 last 0x11#16)))

theorem RoundTrip.vminnVV (o : VV) : RoundTrip.Statement (.vminnVV o) := fun last hw =>
  word_of_RawVV _ _ last rfl hw ((word_major_0x02 _ rfl).trans (congrArg (Option.map Instr.vminnVV) (VV.ofRaw_raw o 0x02#6 last 0x12#16)))

theorem RoundTrip.vminnVS (o : VS) : RoundTrip.Statement (.vminnVS o) := fun last hw =>
  word_of_RawVV _ _ last rfl hw ((word_major_0x03 _ rfl).trans (congrArg (Option.map Instr.vminnVS) (VS.ofRaw_raw o 0x03#6 last 0x12#16)))

theorem RoundTrip.vminnVI (o : VI) : RoundTrip.Statement (.vminnVI o) := fun last hw =>
  word_of_RawVI _ _ last rfl hw ((word_major_0x04 _ rfl).trans (congrArg (Option.map Instr.vminnVI) (VI.ofRaw_raw o 0x04#6 last 0x12#16)))

theorem RoundTrip.vmaxnVV (o : VV) : RoundTrip.Statement (.vmaxnVV o) := fun last hw =>
  word_of_RawVV _ _ last rfl hw ((word_major_0x02 _ rfl).trans (congrArg (Option.map Instr.vmaxnVV) (VV.ofRaw_raw o 0x02#6 last 0x13#16)))

theorem RoundTrip.vmaxnVS (o : VS) : RoundTrip.Statement (.vmaxnVS o) := fun last hw =>
  word_of_RawVV _ _ last rfl hw ((word_major_0x03 _ rfl).trans (congrArg (Option.map Instr.vmaxnVS) (VS.ofRaw_raw o 0x03#6 last 0x13#16)))

theorem RoundTrip.vmaxnVI (o : VI) : RoundTrip.Statement (.vmaxnVI o) := fun last hw =>
  word_of_RawVI _ _ last rfl hw ((word_major_0x04 _ rfl).trans (congrArg (Option.map Instr.vmaxnVI) (VI.ofRaw_raw o 0x04#6 last 0x13#16)))

theorem RoundTrip.vmulVV (o : VV) : RoundTrip.Statement (.vmulVV o) := fun last hw =>
  word_of_RawVV _ _ last rfl hw ((word_major_0x02 _ rfl).trans (congrArg (Option.map Instr.vmulVV) (VV.ofRaw_raw o 0x02#6 last 0x18#16)))

theorem RoundTrip.vmulVS (o : VS) : RoundTrip.Statement (.vmulVS o) := fun last hw =>
  word_of_RawVV _ _ last rfl hw ((word_major_0x03 _ rfl).trans (congrArg (Option.map Instr.vmulVS) (VS.ofRaw_raw o 0x03#6 last 0x18#16)))

theorem RoundTrip.vmulhVV (o : VV) : RoundTrip.Statement (.vmulhVV o) := fun last hw =>
  word_of_RawVV _ _ last rfl hw ((word_major_0x02 _ rfl).trans (congrArg (Option.map Instr.vmulhVV) (VV.ofRaw_raw o 0x02#6 last 0x19#16)))

theorem RoundTrip.vmulhVS (o : VS) : RoundTrip.Statement (.vmulhVS o) := fun last hw =>
  word_of_RawVV _ _ last rfl hw ((word_major_0x03 _ rfl).trans (congrArg (Option.map Instr.vmulhVS) (VS.ofRaw_raw o 0x03#6 last 0x19#16)))

theorem RoundTrip.vmulhnVV (o : VV) : RoundTrip.Statement (.vmulhnVV o) := fun last hw =>
  word_of_RawVV _ _ last rfl hw ((word_major_0x02 _ rfl).trans (congrArg (Option.map Instr.vmulhnVV) (VV.ofRaw_raw o 0x02#6 last 0x1a#16)))

theorem RoundTrip.vmulhnVS (o : VS) : RoundTrip.Statement (.vmulhnVS o) := fun last hw =>
  word_of_RawVV _ _ last rfl hw ((word_major_0x03 _ rfl).trans (congrArg (Option.map Instr.vmulhnVS) (VS.ofRaw_raw o 0x03#6 last 0x1a#16)))

theorem RoundTrip.vdivVV (o : VV) : RoundTrip.Statement (.vdivVV o) := fun last hw =>
  word_of_RawVV _ _ last rfl hw ((word_major_0x02 _ rfl).trans (congrArg (Option.map Instr.vdivVV) (VV.ofRaw_raw o 0x02#6 last 0x1c#16)))

theorem RoundTrip.vdivVS (o : VS) : RoundTrip.Statement (.vdivVS o) := fun last hw =>
  word_of_RawVV _ _ last rfl hw ((word_major_0x03 _ rfl).trans (congrArg (Option.map Instr.vdivVS) (VS.ofRaw_raw o 0x03#6 last 0x1c#16)))

theorem RoundTrip.vdivnVV (o : VV) : RoundTrip.Statement (.vdivnVV o) := fun last hw =>
  word_of_RawVV _ _ last rfl hw ((word_major_0x02 _ rfl).trans (congrArg (Option.map Instr.vdivnVV) (VV.ofRaw_raw o 0x02#6 last 0x1d#16)))

theorem RoundTrip.vdivnVS (o : VS) : RoundTrip.Statement (.vdivnVS o) := fun last hw =>
  word_of_RawVV _ _ last rfl hw ((word_major_0x03 _ rfl).trans (congrArg (Option.map Instr.vdivnVS) (VS.ofRaw_raw o 0x03#6 last 0x1d#16)))

theorem RoundTrip.vremVV (o : VV) : RoundTrip.Statement (.vremVV o) := fun last hw =>
  word_of_RawVV _ _ last rfl hw ((word_major_0x02 _ rfl).trans (congrArg (Option.map Instr.vremVV) (VV.ofRaw_raw o 0x02#6 last 0x1e#16)))

theorem RoundTrip.vremVS (o : VS) : RoundTrip.Statement (.vremVS o) := fun last hw =>
  word_of_RawVV _ _ last rfl hw ((word_major_0x03 _ rfl).trans (congrArg (Option.map Instr.vremVS) (VS.ofRaw_raw o 0x03#6 last 0x1e#16)))

theorem RoundTrip.vremnVV (o : VV) : RoundTrip.Statement (.vremnVV o) := fun last hw =>
  word_of_RawVV _ _ last rfl hw ((word_major_0x02 _ rfl).trans (congrArg (Option.map Instr.vremnVV) (VV.ofRaw_raw o 0x02#6 last 0x1f#16)))

theorem RoundTrip.vremnVS (o : VS) : RoundTrip.Statement (.vremnVS o) := fun last hw =>
  word_of_RawVV _ _ last rfl hw ((word_major_0x03 _ rfl).trans (congrArg (Option.map Instr.vremnVS) (VS.ofRaw_raw o 0x03#6 last 0x1f#16)))

theorem RoundTrip.vmaccVV (o : VV) : RoundTrip.Statement (.vmaccVV o) := fun last hw =>
  word_of_RawVV _ _ last rfl hw ((word_major_0x02 _ rfl).trans (congrArg (Option.map Instr.vmaccVV) (VV.ofRaw_raw o 0x02#6 last 0x20#16)))

theorem RoundTrip.vmaccVS (o : VS) : RoundTrip.Statement (.vmaccVS o) := fun last hw =>
  word_of_RawVV _ _ last rfl hw ((word_major_0x03 _ rfl).trans (congrArg (Option.map Instr.vmaccVS) (VS.ofRaw_raw o 0x03#6 last 0x20#16)))

theorem RoundTrip.vmergeVV (o : VV) : RoundTrip.Statement (.vmergeVV o) := fun last hw =>
  word_of_RawVV _ _ last rfl hw ((word_major_0x02 _ rfl).trans (congrArg (Option.map Instr.vmergeVV) (VV.ofRaw_raw o 0x02#6 last 0x28#16)))

theorem RoundTrip.vmergeVS (o : VS) : RoundTrip.Statement (.vmergeVS o) := fun last hw =>
  word_of_RawVV _ _ last rfl hw ((word_major_0x03 _ rfl).trans (congrArg (Option.map Instr.vmergeVS) (VS.ofRaw_raw o 0x03#6 last 0x28#16)))

theorem RoundTrip.vmergeVI (o : VI) : RoundTrip.Statement (.vmergeVI o) := fun last hw =>
  word_of_RawVI _ _ last rfl hw ((word_major_0x04 _ rfl).trans (congrArg (Option.map Instr.vmergeVI) (VI.ofRaw_raw o 0x04#6 last 0x28#16)))

theorem RoundTrip.vmvVV (o : VV1) : RoundTrip.Statement (.vmvVV o) := fun last hw =>
  word_of_RawVV _ _ last rfl hw ((word_major_0x02 _ rfl).trans (congrArg (Option.map Instr.vmvVV) (VV1.ofRawB_rawB o 0x02#6 last 0x29#16)))

theorem RoundTrip.vmvVS (o : VS1) : RoundTrip.Statement (.vmvVS o) := fun last hw =>
  word_of_RawVV _ _ last rfl hw ((word_major_0x03 _ rfl).trans (congrArg (Option.map Instr.vmvVS) (VS1.ofRaw_raw o 0x03#6 last 0x29#16)))

theorem RoundTrip.vmvVI (o : VI1) : RoundTrip.Statement (.vmvVI o) := fun last hw =>
  word_of_RawVI _ _ last rfl hw ((word_major_0x04 _ rfl).trans (congrArg (Option.map Instr.vmvVI) (VI1.ofRaw_raw o 0x04#6 last 0x29#16)))

theorem RoundTrip.vaddsVV (o : VV) : RoundTrip.Statement (.vaddsVV o) := fun last hw =>
  word_of_RawVV _ _ last rfl hw ((word_major_0x02 _ rfl).trans (congrArg (Option.map Instr.vaddsVV) (VV.ofRaw_raw o 0x02#6 last 0x30#16)))

theorem RoundTrip.vaddsVS (o : VS) : RoundTrip.Statement (.vaddsVS o) := fun last hw =>
  word_of_RawVV _ _ last rfl hw ((word_major_0x03 _ rfl).trans (congrArg (Option.map Instr.vaddsVS) (VS.ofRaw_raw o 0x03#6 last 0x30#16)))

theorem RoundTrip.vaddsVI (o : VI) : RoundTrip.Statement (.vaddsVI o) := fun last hw =>
  word_of_RawVI _ _ last rfl hw ((word_major_0x04 _ rfl).trans (congrArg (Option.map Instr.vaddsVI) (VI.ofRaw_raw o 0x04#6 last 0x30#16)))

theorem RoundTrip.vsubsVV (o : VV) : RoundTrip.Statement (.vsubsVV o) := fun last hw =>
  word_of_RawVV _ _ last rfl hw ((word_major_0x02 _ rfl).trans (congrArg (Option.map Instr.vsubsVV) (VV.ofRaw_raw o 0x02#6 last 0x31#16)))

theorem RoundTrip.vsubsVS (o : VS) : RoundTrip.Statement (.vsubsVS o) := fun last hw =>
  word_of_RawVV _ _ last rfl hw ((word_major_0x03 _ rfl).trans (congrArg (Option.map Instr.vsubsVS) (VS.ofRaw_raw o 0x03#6 last 0x31#16)))

theorem RoundTrip.vsubsVI (o : VI) : RoundTrip.Statement (.vsubsVI o) := fun last hw =>
  word_of_RawVI _ _ last rfl hw ((word_major_0x04 _ rfl).trans (congrArg (Option.map Instr.vsubsVI) (VI.ofRaw_raw o 0x04#6 last 0x31#16)))

theorem RoundTrip.vaddsnVV (o : VV) : RoundTrip.Statement (.vaddsnVV o) := fun last hw =>
  word_of_RawVV _ _ last rfl hw ((word_major_0x02 _ rfl).trans (congrArg (Option.map Instr.vaddsnVV) (VV.ofRaw_raw o 0x02#6 last 0x32#16)))

theorem RoundTrip.vaddsnVS (o : VS) : RoundTrip.Statement (.vaddsnVS o) := fun last hw =>
  word_of_RawVV _ _ last rfl hw ((word_major_0x03 _ rfl).trans (congrArg (Option.map Instr.vaddsnVS) (VS.ofRaw_raw o 0x03#6 last 0x32#16)))

theorem RoundTrip.vaddsnVI (o : VI) : RoundTrip.Statement (.vaddsnVI o) := fun last hw =>
  word_of_RawVI _ _ last rfl hw ((word_major_0x04 _ rfl).trans (congrArg (Option.map Instr.vaddsnVI) (VI.ofRaw_raw o 0x04#6 last 0x32#16)))

theorem RoundTrip.vsubsnVV (o : VV) : RoundTrip.Statement (.vsubsnVV o) := fun last hw =>
  word_of_RawVV _ _ last rfl hw ((word_major_0x02 _ rfl).trans (congrArg (Option.map Instr.vsubsnVV) (VV.ofRaw_raw o 0x02#6 last 0x33#16)))

theorem RoundTrip.vsubsnVS (o : VS) : RoundTrip.Statement (.vsubsnVS o) := fun last hw =>
  word_of_RawVV _ _ last rfl hw ((word_major_0x03 _ rfl).trans (congrArg (Option.map Instr.vsubsnVS) (VS.ofRaw_raw o 0x03#6 last 0x33#16)))

theorem RoundTrip.vsubsnVI (o : VI) : RoundTrip.Statement (.vsubsnVI o) := fun last hw =>
  word_of_RawVI _ _ last rfl hw ((word_major_0x04 _ rfl).trans (congrArg (Option.map Instr.vsubsnVI) (VI.ofRaw_raw o 0x04#6 last 0x33#16)))

theorem RoundTrip.vavgVV (o : VV) : RoundTrip.Statement (.vavgVV o) := fun last hw =>
  word_of_RawVV _ _ last rfl hw ((word_major_0x02 _ rfl).trans (congrArg (Option.map Instr.vavgVV) (VV.ofRaw_raw o 0x02#6 last 0x34#16)))

theorem RoundTrip.vavgVS (o : VS) : RoundTrip.Statement (.vavgVS o) := fun last hw =>
  word_of_RawVV _ _ last rfl hw ((word_major_0x03 _ rfl).trans (congrArg (Option.map Instr.vavgVS) (VS.ofRaw_raw o 0x03#6 last 0x34#16)))

theorem RoundTrip.vsmulVV (o : VV) : RoundTrip.Statement (.vsmulVV o) := fun last hw =>
  word_of_RawVV _ _ last rfl hw ((word_major_0x02 _ rfl).trans (congrArg (Option.map Instr.vsmulVV) (VV.ofRaw_raw o 0x02#6 last 0x36#16)))

theorem RoundTrip.vsmulVS (o : VS) : RoundTrip.Statement (.vsmulVS o) := fun last hw =>
  word_of_RawVV _ _ last rfl hw ((word_major_0x03 _ rfl).trans (congrArg (Option.map Instr.vsmulVS) (VS.ofRaw_raw o 0x03#6 last 0x36#16)))

theorem RoundTrip.vsshrVV (o : VV) : RoundTrip.Statement (.vsshrVV o) := fun last hw =>
  word_of_RawVV _ _ last rfl hw ((word_major_0x02 _ rfl).trans (congrArg (Option.map Instr.vsshrVV) (VV.ofRaw_raw o 0x02#6 last 0x37#16)))

theorem RoundTrip.vsshrVS (o : VS) : RoundTrip.Statement (.vsshrVS o) := fun last hw =>
  word_of_RawVV _ _ last rfl hw ((word_major_0x03 _ rfl).trans (congrArg (Option.map Instr.vsshrVS) (VS.ofRaw_raw o 0x03#6 last 0x37#16)))

theorem RoundTrip.vsshrVI (o : VI) : RoundTrip.Statement (.vsshrVI o) := fun last hw =>
  word_of_RawVI _ _ last rfl hw ((word_major_0x04 _ rfl).trans (congrArg (Option.map Instr.vsshrVI) (VI.ofRaw_raw o 0x04#6 last 0x37#16)))

theorem RoundTrip.vwaddVV (o : VVW) : RoundTrip.Statement (.vwaddVV o) := fun last hw =>
  word_of_RawVV _ _ last rfl hw ((word_major_0x02 _ rfl).trans (congrArg (Option.map Instr.vwaddVV) (VVW.ofRaw_raw o 0x02#6 last 0x40#16)))

theorem RoundTrip.vwaddVS (o : VS) : RoundTrip.Statement (.vwaddVS o) := fun last hw =>
  word_of_RawVV _ _ last rfl hw ((word_major_0x03 _ rfl).trans (congrArg (Option.map Instr.vwaddVS) (VS.ofRaw_raw o 0x03#6 last 0x40#16)))

theorem RoundTrip.vwaddnVV (o : VVW) : RoundTrip.Statement (.vwaddnVV o) := fun last hw =>
  word_of_RawVV _ _ last rfl hw ((word_major_0x02 _ rfl).trans (congrArg (Option.map Instr.vwaddnVV) (VVW.ofRaw_raw o 0x02#6 last 0x41#16)))

theorem RoundTrip.vwaddnVS (o : VS) : RoundTrip.Statement (.vwaddnVS o) := fun last hw =>
  word_of_RawVV _ _ last rfl hw ((word_major_0x03 _ rfl).trans (congrArg (Option.map Instr.vwaddnVS) (VS.ofRaw_raw o 0x03#6 last 0x41#16)))

theorem RoundTrip.vwmulVV (o : VV) : RoundTrip.Statement (.vwmulVV o) := fun last hw =>
  word_of_RawVV _ _ last rfl hw ((word_major_0x02 _ rfl).trans (congrArg (Option.map Instr.vwmulVV) (VV.ofRaw_raw o 0x02#6 last 0x44#16)))

theorem RoundTrip.vwmulVS (o : VS) : RoundTrip.Statement (.vwmulVS o) := fun last hw =>
  word_of_RawVV _ _ last rfl hw ((word_major_0x03 _ rfl).trans (congrArg (Option.map Instr.vwmulVS) (VS.ofRaw_raw o 0x03#6 last 0x44#16)))

theorem RoundTrip.vwmulnVV (o : VV) : RoundTrip.Statement (.vwmulnVV o) := fun last hw =>
  word_of_RawVV _ _ last rfl hw ((word_major_0x02 _ rfl).trans (congrArg (Option.map Instr.vwmulnVV) (VV.ofRaw_raw o 0x02#6 last 0x45#16)))

theorem RoundTrip.vwmulnVS (o : VS) : RoundTrip.Statement (.vwmulnVS o) := fun last hw =>
  word_of_RawVV _ _ last rfl hw ((word_major_0x03 _ rfl).trans (congrArg (Option.map Instr.vwmulnVS) (VS.ofRaw_raw o 0x03#6 last 0x45#16)))

theorem RoundTrip.vwmaccVV (o : VV) : RoundTrip.Statement (.vwmaccVV o) := fun last hw =>
  word_of_RawVV _ _ last rfl hw ((word_major_0x02 _ rfl).trans (congrArg (Option.map Instr.vwmaccVV) (VV.ofRaw_raw o 0x02#6 last 0x46#16)))

theorem RoundTrip.vwmaccVS (o : VS) : RoundTrip.Statement (.vwmaccVS o) := fun last hw =>
  word_of_RawVV _ _ last rfl hw ((word_major_0x03 _ rfl).trans (congrArg (Option.map Instr.vwmaccVS) (VS.ofRaw_raw o 0x03#6 last 0x46#16)))

theorem RoundTrip.vwmaccnVV (o : VV) : RoundTrip.Statement (.vwmaccnVV o) := fun last hw =>
  word_of_RawVV _ _ last rfl hw ((word_major_0x02 _ rfl).trans (congrArg (Option.map Instr.vwmaccnVV) (VV.ofRaw_raw o 0x02#6 last 0x47#16)))

theorem RoundTrip.vwmaccnVS (o : VS) : RoundTrip.Statement (.vwmaccnVS o) := fun last hw =>
  word_of_RawVV _ _ last rfl hw ((word_major_0x03 _ rfl).trans (congrArg (Option.map Instr.vwmaccnVS) (VS.ofRaw_raw o 0x03#6 last 0x47#16)))

theorem RoundTrip.vnshrVV (o : VVW) : RoundTrip.Statement (.vnshrVV o) := fun last hw =>
  word_of_RawVV _ _ last rfl hw ((word_major_0x02 _ rfl).trans (congrArg (Option.map Instr.vnshrVV) (VVW.ofRaw_raw o 0x02#6 last 0x50#16)))

theorem RoundTrip.vnshrVS (o : VS) : RoundTrip.Statement (.vnshrVS o) := fun last hw =>
  word_of_RawVV _ _ last rfl hw ((word_major_0x03 _ rfl).trans (congrArg (Option.map Instr.vnshrVS) (VS.ofRaw_raw o 0x03#6 last 0x50#16)))

theorem RoundTrip.vnshrVI (o : VI) : RoundTrip.Statement (.vnshrVI o) := fun last hw =>
  word_of_RawVI _ _ last rfl hw ((word_major_0x04 _ rfl).trans (congrArg (Option.map Instr.vnshrVI) (VI.ofRaw_raw o 0x04#6 last 0x50#16)))

theorem RoundTrip.vnclipVV (o : VVW) : RoundTrip.Statement (.vnclipVV o) := fun last hw =>
  word_of_RawVV _ _ last rfl hw ((word_major_0x02 _ rfl).trans (congrArg (Option.map Instr.vnclipVV) (VVW.ofRaw_raw o 0x02#6 last 0x52#16)))

theorem RoundTrip.vnclipVS (o : VS) : RoundTrip.Statement (.vnclipVS o) := fun last hw =>
  word_of_RawVV _ _ last rfl hw ((word_major_0x03 _ rfl).trans (congrArg (Option.map Instr.vnclipVS) (VS.ofRaw_raw o 0x03#6 last 0x52#16)))

theorem RoundTrip.vnclipVI (o : VI) : RoundTrip.Statement (.vnclipVI o) := fun last hw =>
  word_of_RawVI _ _ last rfl hw ((word_major_0x04 _ rfl).trans (congrArg (Option.map Instr.vnclipVI) (VI.ofRaw_raw o 0x04#6 last 0x52#16)))

theorem RoundTrip.vnclipnVV (o : VVW) : RoundTrip.Statement (.vnclipnVV o) := fun last hw =>
  word_of_RawVV _ _ last rfl hw ((word_major_0x02 _ rfl).trans (congrArg (Option.map Instr.vnclipnVV) (VVW.ofRaw_raw o 0x02#6 last 0x53#16)))

theorem RoundTrip.vnclipnVS (o : VS) : RoundTrip.Statement (.vnclipnVS o) := fun last hw =>
  word_of_RawVV _ _ last rfl hw ((word_major_0x03 _ rfl).trans (congrArg (Option.map Instr.vnclipnVS) (VS.ofRaw_raw o 0x03#6 last 0x53#16)))

theorem RoundTrip.vnclipnVI (o : VI) : RoundTrip.Statement (.vnclipnVI o) := fun last hw =>
  word_of_RawVI _ _ last rfl hw ((word_major_0x04 _ rfl).trans (congrArg (Option.map Instr.vnclipnVI) (VI.ofRaw_raw o 0x04#6 last 0x53#16)))

theorem RoundTrip.vcmpVV (o : CmpVV) : RoundTrip.Statement (.vcmpVV o) := fun last hw =>
  word_of_RawVV _ _ last rfl hw ((word_major_0x05_RawVV _ rfl).trans (by
    unfold decodeVcmp; rw [RawVV.form_pack, RawVV.unpack_pack]
    have e : (field 0 2 (o.raw 0x05#6 last).fl : BitVec 2) = 0#2 := by simp [CmpVV.raw, field]
    rw [e]; exact congrArg (Option.map Instr.vcmpVV) (CmpVV.ofRaw_raw o 0x05#6 last)))

theorem RoundTrip.vcmpVS (o : CmpVS) : RoundTrip.Statement (.vcmpVS o) := fun last hw =>
  word_of_RawVV _ _ last rfl hw ((word_major_0x05_RawVV _ rfl).trans (by
    unfold decodeVcmp; rw [RawVV.form_pack, RawVV.unpack_pack]
    have e : (field 0 2 (o.raw 0x05#6 last).fl : BitVec 2) = 1#2 := by simp [CmpVS.raw, field]
    rw [e]; exact congrArg (Option.map Instr.vcmpVS) (CmpVS.ofRaw_raw o 0x05#6 last)))

theorem RoundTrip.vcmpVI (o : CmpVI) : RoundTrip.Statement (.vcmpVI o) := fun last hw =>
  word_of_RawVI _ _ last rfl hw ((word_major_0x05_RawVI _ rfl).trans (by
    unfold decodeVcmp; rw [RawVI.form_pack, RawVI.unpack_pack]
    have e : (field 0 2 (o.raw 0x05#6 last).fl : BitVec 2) = 2#2 := by simp [CmpVI.raw, field]
    rw [e]; exact congrArg (Option.map Instr.vcmpVI) (CmpVI.ofRaw_raw o 0x05#6 last)))

theorem RoundTrip.mand (o : MaskOp2) : RoundTrip.Statement (.mand o) := fun last hw =>
  word_of_RawVV _ _ last rfl hw ((word_major_0x06 _ rfl).trans (congrArg (Option.map Instr.mand) (MaskOp2.ofRaw_raw o 0x06#6 last 0x0#16)))

theorem RoundTrip.mor (o : MaskOp2) : RoundTrip.Statement (.mor o) := fun last hw =>
  word_of_RawVV _ _ last rfl hw ((word_major_0x06 _ rfl).trans (congrArg (Option.map Instr.mor) (MaskOp2.ofRaw_raw o 0x06#6 last 0x1#16)))

theorem RoundTrip.mxor (o : MaskOp2) : RoundTrip.Statement (.mxor o) := fun last hw =>
  word_of_RawVV _ _ last rfl hw ((word_major_0x06 _ rfl).trans (congrArg (Option.map Instr.mxor) (MaskOp2.ofRaw_raw o 0x06#6 last 0x2#16)))

theorem RoundTrip.mandn (o : MaskOp2) : RoundTrip.Statement (.mandn o) := fun last hw =>
  word_of_RawVV _ _ last rfl hw ((word_major_0x06 _ rfl).trans (congrArg (Option.map Instr.mandn) (MaskOp2.ofRaw_raw o 0x06#6 last 0x3#16)))

theorem RoundTrip.mnot (o : MaskOp1) : RoundTrip.Statement (.mnot o) := fun last hw =>
  word_of_RawVV _ _ last rfl hw ((word_major_0x06 _ rfl).trans (congrArg (Option.map Instr.mnot) (MaskOp1.ofRaw_raw o 0x06#6 last 0x4#16)))

theorem RoundTrip.morx (o : MaskOp1) : RoundTrip.Statement (.morx o) := fun last hw =>
  word_of_RawVV _ _ last rfl hw ((word_major_0x06 _ rfl).trans (congrArg (Option.map Instr.morx) (MaskOp1.ofRaw_raw o 0x06#6 last 0x8#16)))

theorem RoundTrip.mori (o : MaskOp1) : RoundTrip.Statement (.mori o) := fun last hw =>
  word_of_RawVV _ _ last rfl hw ((word_major_0x06 _ rfl).trans (congrArg (Option.map Instr.mori) (MaskOp1.ofRaw_raw o 0x06#6 last 0x9#16)))

theorem RoundTrip.mcnt (o : MaskToX) : RoundTrip.Statement (.mcnt o) := fun last hw =>
  word_of_RawVV _ _ last rfl hw ((word_major_0x06 _ rfl).trans (congrArg (Option.map Instr.mcnt) (MaskToX.ofRaw_raw o 0x06#6 last 0xc#16)))

theorem RoundTrip.mlow (o : MaskToX) : RoundTrip.Statement (.mlow o) := fun last hw =>
  word_of_RawVV _ _ last rfl hw ((word_major_0x06 _ rfl).trans (congrArg (Option.map Instr.mlow) (MaskToX.ofRaw_raw o 0x06#6 last 0xd#16)))

theorem RoundTrip.mcum (o : MaskToV) : RoundTrip.Statement (.mcum o) := fun last hw =>
  word_of_RawVV _ _ last rfl hw ((word_major_0x06 _ rfl).trans (congrArg (Option.map Instr.mcum) (MaskToV.ofRaw_raw o 0x06#6 last 0xe#16)))

theorem RoundTrip.vseq (o : SeqOp) : RoundTrip.Statement (.vseq o) := fun last hw =>
  word_of_RawVV _ _ last rfl hw ((word_major_0x06 _ rfl).trans (congrArg (Option.map Instr.vseq) (SeqOp.ofRaw_raw o 0x06#6 last 0xf#16)))

theorem RoundTrip.vconfl (o : VV1) : RoundTrip.Statement (.vconfl o) := fun last hw =>
  word_of_RawVV _ _ last rfl hw ((word_major_0x06 _ rfl).trans (congrArg (Option.map Instr.vconfl) (VV1.ofRawA_rawA o 0x06#6 last 0x10#16)))

theorem RoundTrip.mmovf (o : MmovfOp) : RoundTrip.Statement (.mmovf o) := fun last hw =>
  word_of_RawVV _ _ last rfl hw ((word_major_0x06 _ rfl).trans (congrArg (Option.map Instr.mmovf) (MmovfOp.ofRaw_raw o 0x06#6 last 0x11#16)))

theorem RoundTrip.vslideup (o : VS) : RoundTrip.Statement (.vslideup o) := fun last hw =>
  word_of_RawVV _ _ last rfl hw ((word_major_0x07 _ rfl).trans (congrArg (Option.map Instr.vslideup) (VS.ofRaw_raw o 0x07#6 last 0x0#16)))

theorem RoundTrip.vslidedn (o : VS) : RoundTrip.Statement (.vslidedn o) := fun last hw =>
  word_of_RawVV _ _ last rfl hw ((word_major_0x07 _ rfl).trans (congrArg (Option.map Instr.vslidedn) (VS.ofRaw_raw o 0x07#6 last 0x1#16)))

theorem RoundTrip.vpermv (o : VV) : RoundTrip.Statement (.vpermv o) := fun last hw =>
  word_of_RawVV _ _ last rfl hw ((word_major_0x07 _ rfl).trans (congrArg (Option.map Instr.vpermv) (VV.ofRaw_raw o 0x07#6 last 0x2#16)))

theorem RoundTrip.vcompress (o : CompressOp) : RoundTrip.Statement (.vcompress o) := fun last hw =>
  word_of_RawVV _ _ last rfl hw ((word_major_0x07 _ rfl).trans (congrArg (Option.map Instr.vcompress) (CompressOp.ofRaw_raw o 0x07#6 last 0x3#16)))

theorem RoundTrip.vmvxs (o : VToX) : RoundTrip.Statement (.vmvxs o) := fun last hw =>
  word_of_RawVV _ _ last rfl hw ((word_major_0x07 _ rfl).trans (congrArg (Option.map Instr.vmvxs) (VToX.ofRaw_raw o 0x07#6 last 0x4#16)))

theorem RoundTrip.vmvsx (o : XToV) : RoundTrip.Statement (.vmvsx o) := fun last hw =>
  word_of_RawVV _ _ last rfl hw ((word_major_0x07 _ rfl).trans (congrArg (Option.map Instr.vmvsx) (XToV.ofRaw_raw o 0x07#6 last 0x5#16)))

theorem RoundTrip.vbcast (o : VS1) : RoundTrip.Statement (.vbcast o) := fun last hw =>
  word_of_RawVV _ _ last rfl hw ((word_major_0x07 _ rfl).trans (congrArg (Option.map Instr.vbcast) (VS1.ofRaw_raw o 0x07#6 last 0x6#16)))

theorem RoundTrip.vwhile (o : LoopOp) : RoundTrip.Statement (.vwhile o) := fun last hw =>
  word_of_RawVB _ _ last rfl hw ((word_major_0x0f _ rfl).trans (congrArg (Option.map Instr.vwhile) (LoopOp.ofRaw_raw o 0x0f#6 last 0x0#16)))

theorem RoundTrip.vwhilem (o : LoopOp) : RoundTrip.Statement (.vwhilem o) := fun last hw =>
  word_of_RawVB _ _ last rfl hw ((word_major_0x0f _ rfl).trans (congrArg (Option.map Instr.vwhilem) (LoopOp.ofRaw_raw o 0x0f#6 last 0x1#16)))

theorem RoundTrip.vfaddVV (o : FVV) : RoundTrip.Statement (.vfaddVV o) := fun last hw =>
  word_of_RawVV _ _ last rfl hw ((word_major_0x09 _ rfl).trans (congrArg (Option.map Instr.vfaddVV) (FVV.ofRaw_raw o 0x09#6 last 0x0#16)))

theorem RoundTrip.vfaddVS (o : FVS) : RoundTrip.Statement (.vfaddVS o) := fun last hw =>
  word_of_RawVV _ _ last rfl hw ((word_major_0x0a _ rfl).trans (congrArg (Option.map Instr.vfaddVS) (FVS.ofRaw_raw o 0x0a#6 last 0x0#16)))

theorem RoundTrip.vfsubVV (o : FVV) : RoundTrip.Statement (.vfsubVV o) := fun last hw =>
  word_of_RawVV _ _ last rfl hw ((word_major_0x09 _ rfl).trans (congrArg (Option.map Instr.vfsubVV) (FVV.ofRaw_raw o 0x09#6 last 0x1#16)))

theorem RoundTrip.vfsubVS (o : FVS) : RoundTrip.Statement (.vfsubVS o) := fun last hw =>
  word_of_RawVV _ _ last rfl hw ((word_major_0x0a _ rfl).trans (congrArg (Option.map Instr.vfsubVS) (FVS.ofRaw_raw o 0x0a#6 last 0x1#16)))

theorem RoundTrip.vfmulVV (o : FVV) : RoundTrip.Statement (.vfmulVV o) := fun last hw =>
  word_of_RawVV _ _ last rfl hw ((word_major_0x09 _ rfl).trans (congrArg (Option.map Instr.vfmulVV) (FVV.ofRaw_raw o 0x09#6 last 0x2#16)))

theorem RoundTrip.vfmulVS (o : FVS) : RoundTrip.Statement (.vfmulVS o) := fun last hw =>
  word_of_RawVV _ _ last rfl hw ((word_major_0x0a _ rfl).trans (congrArg (Option.map Instr.vfmulVS) (FVS.ofRaw_raw o 0x0a#6 last 0x2#16)))

theorem RoundTrip.vfdivVV (o : FVV) : RoundTrip.Statement (.vfdivVV o) := fun last hw =>
  word_of_RawVV _ _ last rfl hw ((word_major_0x09 _ rfl).trans (congrArg (Option.map Instr.vfdivVV) (FVV.ofRaw_raw o 0x09#6 last 0x3#16)))

theorem RoundTrip.vfdivVS (o : FVS) : RoundTrip.Statement (.vfdivVS o) := fun last hw =>
  word_of_RawVV _ _ last rfl hw ((word_major_0x0a _ rfl).trans (congrArg (Option.map Instr.vfdivVS) (FVS.ofRaw_raw o 0x0a#6 last 0x3#16)))

theorem RoundTrip.vfsqrt (o : FV) : RoundTrip.Statement (.vfsqrt o) := fun last hw =>
  word_of_RawVV _ _ last rfl hw ((word_major_0x09 _ rfl).trans (congrArg (Option.map Instr.vfsqrt) (FV.ofRaw_raw o 0x09#6 last 0x4#16)))

theorem RoundTrip.vfminVV (o : FVV) : RoundTrip.Statement (.vfminVV o) := fun last hw =>
  word_of_RawVV _ _ last rfl hw ((word_major_0x09 _ rfl).trans (congrArg (Option.map Instr.vfminVV) (FVV.ofRaw_raw o 0x09#6 last 0x5#16)))

theorem RoundTrip.vfminVS (o : FVS) : RoundTrip.Statement (.vfminVS o) := fun last hw =>
  word_of_RawVV _ _ last rfl hw ((word_major_0x0a _ rfl).trans (congrArg (Option.map Instr.vfminVS) (FVS.ofRaw_raw o 0x0a#6 last 0x5#16)))

theorem RoundTrip.vfmaxVV (o : FVV) : RoundTrip.Statement (.vfmaxVV o) := fun last hw =>
  word_of_RawVV _ _ last rfl hw ((word_major_0x09 _ rfl).trans (congrArg (Option.map Instr.vfmaxVV) (FVV.ofRaw_raw o 0x09#6 last 0x6#16)))

theorem RoundTrip.vfmaxVS (o : FVS) : RoundTrip.Statement (.vfmaxVS o) := fun last hw =>
  word_of_RawVV _ _ last rfl hw ((word_major_0x0a _ rfl).trans (congrArg (Option.map Instr.vfmaxVS) (FVS.ofRaw_raw o 0x0a#6 last 0x6#16)))

theorem RoundTrip.vfmaVV (o : FVVV) : RoundTrip.Statement (.vfmaVV o) := fun last hw =>
  word_of_RawVV _ _ last rfl hw ((word_major_0x09 _ rfl).trans (congrArg (Option.map Instr.vfmaVV) (FVVV.ofRaw_raw o 0x09#6 last 0x8#16)))

theorem RoundTrip.vfmaVS (o : FVSS) : RoundTrip.Statement (.vfmaVS o) := fun last hw =>
  word_of_RawVV _ _ last rfl hw ((word_major_0x0a _ rfl).trans (congrArg (Option.map Instr.vfmaVS) (FVSS.ofRaw_raw o 0x0a#6 last 0x8#16)))

theorem RoundTrip.vfmsVV (o : FVVV) : RoundTrip.Statement (.vfmsVV o) := fun last hw =>
  word_of_RawVV _ _ last rfl hw ((word_major_0x09 _ rfl).trans (congrArg (Option.map Instr.vfmsVV) (FVVV.ofRaw_raw o 0x09#6 last 0x9#16)))

theorem RoundTrip.vfmsVS (o : FVSS) : RoundTrip.Statement (.vfmsVS o) := fun last hw =>
  word_of_RawVV _ _ last rfl hw ((word_major_0x0a _ rfl).trans (congrArg (Option.map Instr.vfmsVS) (FVSS.ofRaw_raw o 0x0a#6 last 0x9#16)))

theorem RoundTrip.vfnmaVV (o : FVVV) : RoundTrip.Statement (.vfnmaVV o) := fun last hw =>
  word_of_RawVV _ _ last rfl hw ((word_major_0x09 _ rfl).trans (congrArg (Option.map Instr.vfnmaVV) (FVVV.ofRaw_raw o 0x09#6 last 0xa#16)))

theorem RoundTrip.vfnmaVS (o : FVSS) : RoundTrip.Statement (.vfnmaVS o) := fun last hw =>
  word_of_RawVV _ _ last rfl hw ((word_major_0x0a _ rfl).trans (congrArg (Option.map Instr.vfnmaVS) (FVSS.ofRaw_raw o 0x0a#6 last 0xa#16)))

theorem RoundTrip.vfwmaVV (o : FVV) : RoundTrip.Statement (.vfwmaVV o) := fun last hw =>
  word_of_RawVV _ _ last rfl hw ((word_major_0x09 _ rfl).trans (congrArg (Option.map Instr.vfwmaVV) (FVV.ofRaw_raw o 0x09#6 last 0xc#16)))

theorem RoundTrip.vfwmaVS (o : FVS) : RoundTrip.Statement (.vfwmaVS o) := fun last hw =>
  word_of_RawVV _ _ last rfl hw ((word_major_0x0a _ rfl).trans (congrArg (Option.map Instr.vfwmaVS) (FVS.ofRaw_raw o 0x0a#6 last 0xc#16)))

theorem RoundTrip.vfsgnVV (o : FVV) : RoundTrip.Statement (.vfsgnVV o) := fun last hw =>
  word_of_RawVV _ _ last rfl hw ((word_major_0x09 _ rfl).trans (congrArg (Option.map Instr.vfsgnVV) (FVV.ofRaw_raw o 0x09#6 last 0x10#16)))

theorem RoundTrip.vfsgnVS (o : FVS) : RoundTrip.Statement (.vfsgnVS o) := fun last hw =>
  word_of_RawVV _ _ last rfl hw ((word_major_0x0a _ rfl).trans (congrArg (Option.map Instr.vfsgnVS) (FVS.ofRaw_raw o 0x0a#6 last 0x10#16)))

theorem RoundTrip.vfsgnnVV (o : FVV) : RoundTrip.Statement (.vfsgnnVV o) := fun last hw =>
  word_of_RawVV _ _ last rfl hw ((word_major_0x09 _ rfl).trans (congrArg (Option.map Instr.vfsgnnVV) (FVV.ofRaw_raw o 0x09#6 last 0x11#16)))

theorem RoundTrip.vfsgnnVS (o : FVS) : RoundTrip.Statement (.vfsgnnVS o) := fun last hw =>
  word_of_RawVV _ _ last rfl hw ((word_major_0x0a _ rfl).trans (congrArg (Option.map Instr.vfsgnnVS) (FVS.ofRaw_raw o 0x0a#6 last 0x11#16)))

theorem RoundTrip.vfclass (o : FV) : RoundTrip.Statement (.vfclass o) := fun last hw =>
  word_of_RawVV _ _ last rfl hw ((word_major_0x09 _ rfl).trans (congrArg (Option.map Instr.vfclass) (FV.ofRaw_raw o 0x09#6 last 0x14#16)))

theorem RoundTrip.vfexp2 (o : FV) : RoundTrip.Statement (.vfexp2 o) := fun last hw =>
  word_of_RawVV _ _ last rfl hw ((word_major_0x09 _ rfl).trans (congrArg (Option.map Instr.vfexp2) (FV.ofRaw_raw o 0x09#6 last 0x18#16)))

theorem RoundTrip.vfrcp (o : FV) : RoundTrip.Statement (.vfrcp o) := fun last hw =>
  word_of_RawVV _ _ last rfl hw ((word_major_0x09 _ rfl).trans (congrArg (Option.map Instr.vfrcp) (FV.ofRaw_raw o 0x09#6 last 0x19#16)))

theorem RoundTrip.vfrsqrt (o : FV) : RoundTrip.Statement (.vfrsqrt o) := fun last hw =>
  word_of_RawVV _ _ last rfl hw ((word_major_0x09 _ rfl).trans (congrArg (Option.map Instr.vfrsqrt) (FV.ofRaw_raw o 0x09#6 last 0x1a#16)))

theorem RoundTrip.vfcmpVV (o : FCmpVV) : RoundTrip.Statement (.vfcmpVV o) := fun last hw =>
  word_of_RawVV _ _ last rfl hw ((word_major_0x0b_RawVV _ rfl).trans (by
    unfold decodeVfcmp; rw [RawVV.form_pack, RawVV.unpack_pack]
    have e : (field 0 2 (o.raw 0x0b#6 last).fl : BitVec 2) = 0#2 := by
      have := Bool.toNat_lt o.fmt.bf
      apply BitVec.eq_of_toNat_eq; simp only [FCmpVV.raw, field, BitVec.toNat_ofNat]; omega
    rw [e]; exact congrArg (Option.map Instr.vfcmpVV) (FCmpVV.ofRaw_raw o 0x0b#6 last)))

theorem RoundTrip.vfcmpVS (o : FCmpVS) : RoundTrip.Statement (.vfcmpVS o) := fun last hw =>
  word_of_RawVV _ _ last rfl hw ((word_major_0x0b_RawVV _ rfl).trans (by
    unfold decodeVfcmp; rw [RawVV.form_pack, RawVV.unpack_pack]
    have e : (field 0 2 (o.raw 0x0b#6 last).fl : BitVec 2) = 1#2 := by
      have := Bool.toNat_lt o.fmt.bf
      apply BitVec.eq_of_toNat_eq; simp only [FCmpVS.raw, field, BitVec.toNat_ofNat]; omega
    rw [e]; exact congrArg (Option.map Instr.vfcmpVS) (FCmpVS.ofRaw_raw o 0x0b#6 last)))

theorem RoundTrip.vfcvt (o : CvtOp) : RoundTrip.Statement (.vfcvt o) := fun last hw =>
  word_of_RawVV _ _ last rfl hw ((word_major_0x0c _ rfl).trans (congrArg (Option.map Instr.vfcvt) (CvtOp.ofRaw_raw o 0x0c#6 last)))

theorem RoundTrip.vredsum (o : VV) : RoundTrip.Statement (.vredsum o) := fun last hw =>
  word_of_RawVV _ _ last rfl hw ((word_major_0x08 _ rfl).trans (congrArg (Option.map Instr.vredsum) (VV.ofRaw_raw o 0x08#6 last 0x0#16)))

theorem RoundTrip.vredmin (o : VV) : RoundTrip.Statement (.vredmin o) := fun last hw =>
  word_of_RawVV _ _ last rfl hw ((word_major_0x08 _ rfl).trans (congrArg (Option.map Instr.vredmin) (VV.ofRaw_raw o 0x08#6 last 0x1#16)))

theorem RoundTrip.vredmax (o : VV) : RoundTrip.Statement (.vredmax o) := fun last hw =>
  word_of_RawVV _ _ last rfl hw ((word_major_0x08 _ rfl).trans (congrArg (Option.map Instr.vredmax) (VV.ofRaw_raw o 0x08#6 last 0x2#16)))

theorem RoundTrip.vredand (o : VV) : RoundTrip.Statement (.vredand o) := fun last hw =>
  word_of_RawVV _ _ last rfl hw ((word_major_0x08 _ rfl).trans (congrArg (Option.map Instr.vredand) (VV.ofRaw_raw o 0x08#6 last 0x5#16)))

theorem RoundTrip.vredor (o : VV) : RoundTrip.Statement (.vredor o) := fun last hw =>
  word_of_RawVV _ _ last rfl hw ((word_major_0x08 _ rfl).trans (congrArg (Option.map Instr.vredor) (VV.ofRaw_raw o 0x08#6 last 0x6#16)))

theorem RoundTrip.vredxor (o : VV) : RoundTrip.Statement (.vredxor o) := fun last hw =>
  word_of_RawVV _ _ last rfl hw ((word_major_0x08 _ rfl).trans (congrArg (Option.map Instr.vredxor) (VV.ofRaw_raw o 0x08#6 last 0x7#16)))

theorem RoundTrip.vwredsum (o : VV) : RoundTrip.Statement (.vwredsum o) := fun last hw =>
  word_of_RawVV _ _ last rfl hw ((word_major_0x08 _ rfl).trans (congrArg (Option.map Instr.vwredsum) (VV.ofRaw_raw o 0x08#6 last 0x8#16)))

theorem RoundTrip.vfredsum (o : FVV) : RoundTrip.Statement (.vfredsum o) := fun last hw =>
  word_of_RawVV _ _ last rfl hw ((word_major_0x08 _ rfl).trans (congrArg (Option.map Instr.vfredsum) (FVV.ofRaw_raw o 0x08#6 last 0x10#16)))

theorem RoundTrip.vfredosum (o : FVV) : RoundTrip.Statement (.vfredosum o) := fun last hw =>
  word_of_RawVV _ _ last rfl hw ((word_major_0x08 _ rfl).trans (congrArg (Option.map Instr.vfredosum) (FVV.ofRaw_raw o 0x08#6 last 0x11#16)))

theorem RoundTrip.vfredmin (o : FVV) : RoundTrip.Statement (.vfredmin o) := fun last hw =>
  word_of_RawVV _ _ last rfl hw ((word_major_0x08 _ rfl).trans (congrArg (Option.map Instr.vfredmin) (FVV.ofRaw_raw o 0x08#6 last 0x12#16)))

theorem RoundTrip.vfredmax (o : FVV) : RoundTrip.Statement (.vfredmax o) := fun last hw =>
  word_of_RawVV _ _ last rfl hw ((word_major_0x08 _ rfl).trans (congrArg (Option.map Instr.vfredmax) (FVV.ofRaw_raw o 0x08#6 last 0x13#16)))

theorem RoundTrip.vscan (o : VV) : RoundTrip.Statement (.vscan o) := fun last hw =>
  word_of_RawVV _ _ last rfl hw ((word_major_0x08 _ rfl).trans (congrArg (Option.map Instr.vscan) (VV.ofRaw_raw o 0x08#6 last 0x18#16)))

theorem RoundTrip.vfscan (o : FVV) : RoundTrip.Statement (.vfscan o) := fun last hw =>
  word_of_RawVV _ _ last rfl hw ((word_major_0x08 _ rfl).trans (congrArg (Option.map Instr.vfscan) (FVV.ofRaw_raw o 0x08#6 last 0x19#16)))

theorem RoundTrip.vld (o : VldOp) : RoundTrip.Statement (.vld o) := fun last hw =>
  word_of_RawVM _ _ last rfl hw ((word_major_0x10 _ rfl).trans (congrArg (Option.map Instr.vld) (VldOp.ofRaw_raw o 0x10#6 last)))

theorem RoundTrip.vlds (o : VldsOp) : RoundTrip.Statement (.vlds o) := fun last hw =>
  word_of_RawVM _ _ last rfl hw ((word_major_0x11 _ rfl).trans (congrArg (Option.map Instr.vlds) (VldsOp.ofRaw_raw o 0x11#6 last)))

theorem RoundTrip.vldx (o : VldxOp) : RoundTrip.Statement (.vldx o) := fun last hw =>
  word_of_RawVM _ _ last rfl hw ((word_major_0x12 _ rfl).trans (congrArg (Option.map Instr.vldx) (VldxOp.ofRaw_raw o 0x12#6 last)))

theorem RoundTrip.vldseg (o : VldsegOp) : RoundTrip.Statement (.vldseg o) := fun last hw =>
  word_of_RawVM _ _ last rfl hw ((word_major_0x13 _ rfl).trans (congrArg (Option.map Instr.vldseg) (VldsegOp.ofRaw_raw o 0x13#6 last)))

theorem RoundTrip.vldff (o : VldffOp) : RoundTrip.Statement (.vldff o) := fun last hw =>
  word_of_RawVM _ _ last rfl hw ((word_major_0x14 _ rfl).trans (congrArg (Option.map Instr.vldff) (VldffOp.ofRaw_raw o 0x14#6 last)))

theorem RoundTrip.vst (o : VstOp) : RoundTrip.Statement (.vst o) := fun last hw =>
  word_of_RawVM _ _ last rfl hw ((word_major_0x18 _ rfl).trans (congrArg (Option.map Instr.vst) (VstOp.ofRaw_raw o 0x18#6 last)))

theorem RoundTrip.vsts (o : VstsOp) : RoundTrip.Statement (.vsts o) := fun last hw =>
  word_of_RawVM _ _ last rfl hw ((word_major_0x19 _ rfl).trans (congrArg (Option.map Instr.vsts) (VstsOp.ofRaw_raw o 0x19#6 last)))

theorem RoundTrip.vstx (o : VstxOp) : RoundTrip.Statement (.vstx o) := fun last hw =>
  word_of_RawVM _ _ last rfl hw ((word_major_0x1a _ rfl).trans (congrArg (Option.map Instr.vstx) (VstxOp.ofRaw_raw o 0x1a#6 last)))

theorem RoundTrip.vstseg (o : VstsegOp) : RoundTrip.Statement (.vstseg o) := fun last hw =>
  word_of_RawVM _ _ last rfl hw ((word_major_0x1b _ rfl).trans (congrArg (Option.map Instr.vstseg) (VstsegOp.ofRaw_raw o 0x1b#6 last)))

theorem RoundTrip.vscadd (o : VldxOp) : RoundTrip.Statement (.vscadd o) := fun last hw =>
  word_of_RawVM _ _ last rfl hw ((word_major_0x1c _ rfl).trans (congrArg (Option.map Instr.vscadd) (VldxOp.ofRaw_raw o 0x1c#6 last)))

theorem RoundTrip.vwait (o : VwaitOp) : RoundTrip.Statement (.vwait o) := fun last hw =>
  word_of_RawVM _ _ last rfl hw ((word_major_0x1e _ rfl).trans (congrArg (Option.map Instr.vwait) (VwaitOp.ofRaw_raw o 0x1e#6 last)))

theorem RoundTrip.vwaitWake (who : StrandId) : RoundTrip.Statement (.vwaitWake who) := fun _ _ => trivial

theorem RoundTrip.vwaitTimeout (who : StrandId) : RoundTrip.Statement (.vwaitTimeout who) := fun _ _ => trivial

theorem RoundTrip.stcfg (o : StcfgOp) : RoundTrip.Statement (.stcfg o) := fun last hw =>
  word_of_RawVC _ _ last rfl hw ((word_major_0x20 _ rfl).trans (congrArg (Option.map Instr.stcfg) (StcfgOp.ofRaw_raw o 0x20#6 last 0x0#8)))

theorem RoundTrip.stbind (o : StbindOp) : RoundTrip.Statement (.stbind o) := fun last hw =>
  word_of_RawVC _ _ last rfl hw ((word_major_0x20 _ rfl).trans (congrArg (Option.map Instr.stbind) (StbindOp.ofRaw_raw o 0x20#6 last 0x1#8)))

theorem RoundTrip.stunbind (o : StunbindOp) : RoundTrip.Statement (.stunbind o) := fun last hw =>
  word_of_RawVC _ _ last rfl hw ((word_major_0x20 _ rfl).trans (congrArg (Option.map Instr.stunbind) (StunbindOp.ofRaw_raw o 0x20#6 last 0x2#8)))

theorem RoundTrip.ststat (o : StstatOp) : RoundTrip.Statement (.ststat o) := fun last hw =>
  word_of_RawVC _ _ last rfl hw ((word_major_0x20 _ rfl).trans (congrArg (Option.map Instr.ststat) (StstatOp.ofRaw_raw o 0x20#6 last 0x3#8)))

theorem RoundTrip.streamFetch (who : StrandId) (s : BitVec 3) (n : Nat) : RoundTrip.Statement (.streamFetch who s n) := fun _ _ => trivial

theorem RoundTrip.qcopy (o : QcopyOp) : RoundTrip.Statement (.qcopy o) := fun last hw =>
  word_of_RawVQ _ _ last rfl hw ((word_major_0x24 _ rfl).trans (congrArg (Option.map Instr.qcopy) (QcopyOp.ofRaw_raw o 0x24#6 last 0x0#16)))

theorem RoundTrip.qgather (o : QblockOp) : RoundTrip.Statement (.qgather o) := fun last hw =>
  word_of_RawVQ _ _ last rfl hw ((word_major_0x24 _ rfl).trans (congrArg (Option.map Instr.qgather) (QblockOp.ofRaw_raw o 0x24#6 last 0x1#16)))

theorem RoundTrip.qscatter (o : QblockOp) : RoundTrip.Statement (.qscatter o) := fun last hw =>
  word_of_RawVQ _ _ last rfl hw ((word_major_0x24 _ rfl).trans (congrArg (Option.map Instr.qscatter) (QblockOp.ofRaw_raw o 0x24#6 last 0x2#16)))

theorem RoundTrip.qpload (o : QblockOp) : RoundTrip.Statement (.qpload o) := fun last hw =>
  word_of_RawVQ _ _ last rfl hw ((word_major_0x24 _ rfl).trans (congrArg (Option.map Instr.qpload) (QblockOp.ofRaw_raw o 0x24#6 last 0x3#16)))

theorem RoundTrip.qpstore (o : QblockOp) : RoundTrip.Statement (.qpstore o) := fun last hw =>
  word_of_RawVQ _ _ last rfl hw ((word_major_0x24 _ rfl).trans (congrArg (Option.map Instr.qpstore) (QblockOp.ofRaw_raw o 0x24#6 last 0x4#16)))

theorem RoundTrip.qspload (o : QblockOp) : RoundTrip.Statement (.qspload o) := fun last hw =>
  word_of_RawVQ _ _ last rfl hw ((word_major_0x24 _ rfl).trans (congrArg (Option.map Instr.qspload) (QblockOp.ofRaw_raw o 0x24#6 last 0x5#16)))

theorem RoundTrip.qfence (o : QfenceOp) : RoundTrip.Statement (.qfence o) := fun last hw =>
  word_of_RawVQ _ _ last rfl hw ((word_major_0x24 _ rfl).trans (congrArg (Option.map Instr.qfence) (QfenceOp.ofRaw_raw o 0x24#6 last 0x6#16)))

theorem RoundTrip.qsignal (o : QsignalOp) : RoundTrip.Statement (.qsignal o) := fun last hw =>
  word_of_RawVQ _ _ last rfl hw ((word_major_0x24 _ rfl).trans (congrArg (Option.map Instr.qsignal) (QsignalOp.ofRaw_raw o 0x24#6 last 0x7#16)))

theorem RoundTrip.qstat (o : QstatOp) : RoundTrip.Statement (.qstat o) := fun last hw =>
  word_of_RawVQ _ _ last rfl hw ((word_major_0x24 _ rfl).trans (congrArg (Option.map Instr.qstat) (QstatOp.ofRaw_raw o 0x24#6 last 0x8#16)))

theorem RoundTrip.qstatWaitDone (who : StrandId) : RoundTrip.Statement (.qstatWaitDone who) := fun _ _ => trivial

theorem RoundTrip.queueEntryRoom (who : StrandId) : RoundTrip.Statement (.queueEntryRoom who) := fun _ _ => trivial

theorem RoundTrip.qcopyPerform (who : StrandId) (j : BitVec 2) : RoundTrip.Statement (.qcopyPerform who j) := fun _ _ => trivial

theorem RoundTrip.qgatherPerform (who : StrandId) (j : BitVec 2) : RoundTrip.Statement (.qgatherPerform who j) := fun _ _ => trivial

theorem RoundTrip.qscatterPerform (who : StrandId) (j : BitVec 2) : RoundTrip.Statement (.qscatterPerform who j) := fun _ _ => trivial

theorem RoundTrip.qploadPerform (who : StrandId) (j : BitVec 2) : RoundTrip.Statement (.qploadPerform who j) := fun _ _ => trivial

theorem RoundTrip.qpstorePerform (who : StrandId) (j : BitVec 2) : RoundTrip.Statement (.qpstorePerform who j) := fun _ _ => trivial

theorem RoundTrip.qsploadPerform (who : StrandId) (j : BitVec 2) : RoundTrip.Statement (.qsploadPerform who j) := fun _ _ => trivial

theorem RoundTrip.qfencePass (who : StrandId) (j : BitVec 2) : RoundTrip.Statement (.qfencePass who j) := fun _ _ => trivial

theorem RoundTrip.qsignalPerform (who : StrandId) (j : BitVec 2) : RoundTrip.Statement (.qsignalPerform who j) := fun _ _ => trivial

theorem RoundTrip.watchImprecise (who : StrandId) (j : BitVec 2) : RoundTrip.Statement (.watchImprecise who j) := fun _ _ => trivial

theorem RoundTrip.mzero (o : MzeroOp) : RoundTrip.Statement (.mzero o) := fun last hw =>
  word_of_RawMX _ _ last rfl hw ((word_major_0x30 _ rfl).trans (congrArg (Option.map Instr.mzero) (MzeroOp.ofRaw_raw o 0x30#6 last 0x0#16)))

theorem RoundTrip.mupd (o : MupdOp) : RoundTrip.Statement (.mupd o) := fun last hw =>
  word_of_RawMX _ _ last rfl hw ((word_major_0x30 _ rfl).trans (congrArg (Option.map Instr.mupd) (MupdOp.ofRaw_raw o 0x30#6 last 0x1#16)))

theorem RoundTrip.mupdn (o : MupdOp) : RoundTrip.Statement (.mupdn o) := fun last hw =>
  word_of_RawMX _ _ last rfl hw ((word_major_0x30 _ rfl).trans (congrArg (Option.map Instr.mupdn) (MupdOp.ofRaw_raw o 0x30#6 last 0x2#16)))

theorem RoundTrip.mmac (o : MmacOp) : RoundTrip.Statement (.mmac o) := fun last hw =>
  word_of_RawMX _ _ last rfl hw ((word_major_0x30 _ rfl).trans (congrArg (Option.map Instr.mmac) (MmacOp.ofRaw_raw o 0x30#6 last 0x3#16)))

theorem RoundTrip.mread (o : MreadOp) : RoundTrip.Statement (.mread o) := fun last hw =>
  word_of_RawMX _ _ last rfl hw ((word_major_0x30 _ rfl).trans (congrArg (Option.map Instr.mread) (MreadOp.ofRaw_raw o 0x30#6 last 0x4#16)))

theorem RoundTrip.mwrite (o : MwriteOp) : RoundTrip.Statement (.mwrite o) := fun last hw =>
  word_of_RawMX _ _ last rfl hw ((word_major_0x30 _ rfl).trans (congrArg (Option.map Instr.mwrite) (MwriteOp.ofRaw_raw o 0x30#6 last 0x5#16)))

theorem RoundTrip.mscl (o : MsclOp) : RoundTrip.Statement (.mscl o) := fun last hw =>
  word_of_RawMX _ _ last rfl hw ((word_major_0x30 _ rfl).trans (congrArg (Option.map Instr.mscl) (MsclOp.ofRaw_raw o 0x30#6 last 0x6#16)))

theorem RoundTrip.mzpt (o : MzptOp) : RoundTrip.Statement (.mzpt o) := fun last hw =>
  word_of_RawMX _ _ last rfl hw ((word_major_0x30 _ rfl).trans (congrArg (Option.map Instr.mzpt) (MzptOp.ofRaw_raw o 0x30#6 last 0x7#16)))

theorem RoundTrip.mstat (o : MstatOp) : RoundTrip.Statement (.mstat o) := fun last hw =>
  word_of_RawMX _ _ last rfl hw ((word_major_0x30 _ rfl).trans (congrArg (Option.map Instr.mstat) (MstatOp.ofRaw_raw o 0x30#6 last 0x8#16)))

theorem RoundTrip.spmmac (o : SpmmacOp) : RoundTrip.Statement (.spmmac o) := fun last hw =>
  word_of_RawMX _ _ last rfl hw ((word_major_0x30 _ rfl).trans (by unfold decodeMatrix; rw [SpmmacOp.fn_raw]; exact congrArg (Option.map Instr.spmmac) (SpmmacOp.ofRaw_raw o 0x30#6 last)))

theorem RoundTrip.spres (o : SpresOp) : RoundTrip.Statement (.spres o) := fun last hw =>
  word_of_RawMX _ _ last rfl hw ((word_major_0x30 _ rfl).trans (congrArg (Option.map Instr.spres) (SpresOp.ofRaw_raw o 0x30#6 last 0x11#16)))

theorem RoundTrip.spstat (o : SpstatOp) : RoundTrip.Statement (.spstat o) := fun last hw =>
  word_of_RawMX _ _ last rfl hw ((word_major_0x30 _ rfl).trans (congrArg (Option.map Instr.spstat) (SpstatOp.ofRaw_raw o 0x30#6 last 0x12#16)))

theorem RoundTrip.vsave (a : XReg) : RoundTrip.Statement (.vsave a) := fun last hw =>
  word_of_RawVC _ _ last rfl hw ((word_major_0x38 _ rfl).trans (congrArg (Option.map Instr.vsave) (ofAddrVC_addrVC a 0x38#6 last 0x0#8)))

theorem RoundTrip.vrestore (a : XReg) : RoundTrip.Statement (.vrestore a) := fun last hw =>
  word_of_RawVC _ _ last rfl hw ((word_major_0x38 _ rfl).trans (congrArg (Option.map Instr.vrestore) (ofAddrVC_addrVC a 0x38#6 last 0x1#8)))

theorem RoundTrip.portq (o : PortqOp) : RoundTrip.Statement (.portq o) := fun last hw =>
  word_of_RawVC _ _ last rfl hw ((word_major_0x38 _ rfl).trans (congrArg (Option.map Instr.portq) (PortqOp.ofRaw_raw o 0x38#6 last 0x2#8)))

theorem RoundTrip.portsw (o : PortswOp) : RoundTrip.Statement (.portsw o) := fun last hw =>
  word_of_RawVC _ _ last rfl hw ((word_major_0x38 _ rfl).trans (congrArg (Option.map Instr.portsw) (PortswOp.ofRaw_raw o 0x38#6 last 0x3#8)))

theorem RoundTrip.lateError (who : StrandId) (stop : LatePoint) (errs : List Nat) : RoundTrip.Statement (.lateError who stop errs) := fun _ _ => trivial

theorem RoundTrip.scoreboardSettleTimeout (who : StrandId) : RoundTrip.Statement (.scoreboardSettleTimeout who) := fun _ _ => trivial

theorem RoundTrip.queueDoorbell (q : QueueId) : RoundTrip.Statement (.queueDoorbell q) := fun _ _ => trivial

theorem RoundTrip.queueRunStart (q : QueueId) : RoundTrip.Statement (.queueRunStart q) := fun _ _ => trivial

theorem RoundTrip.queueRunStop (q : QueueId) : RoundTrip.Statement (.queueRunStop q) := fun _ _ => trivial

theorem RoundTrip.landingSelect (die : BitVec 1) : RoundTrip.Statement (.landingSelect die) := fun _ _ => trivial

theorem RoundTrip.priorityAging (q : QueueId) : RoundTrip.Statement (.priorityAging q) := fun _ _ => trivial

theorem RoundTrip.sliceEnd (l : Nat) : RoundTrip.Statement (.sliceEnd l) := fun _ _ => trivial

theorem RoundTrip.nop (p : Packet) : RoundTrip.Statement (.nop p) := fun _ _ => trivial

theorem RoundTrip.launch (p : Packet) : RoundTrip.Statement (.launch p) := fun _ _ => trivial

theorem RoundTrip.write (p : Packet) : RoundTrip.Statement (.write p) := fun _ _ => trivial

theorem RoundTrip.signal (p : Packet) : RoundTrip.Statement (.signal p) := fun _ _ => trivial

theorem RoundTrip.wait (p : Packet) : RoundTrip.Statement (.wait p) := fun _ _ => trivial

theorem RoundTrip.waitRecheck (q : QueueId) : RoundTrip.Statement (.waitRecheck q) := fun _ _ => trivial

theorem RoundTrip.waitTimeout (q : QueueId) : RoundTrip.Statement (.waitTimeout q) := fun _ _ => trivial

theorem RoundTrip.writeSignal (p : Packet) : RoundTrip.Statement (.writeSignal p) := fun _ _ => trivial

theorem RoundTrip.copy (p : Packet) : RoundTrip.Statement (.copy p) := fun _ _ => trivial

theorem RoundTrip.copyDone (q : QueueId) : RoundTrip.Statement (.copyDone q) := fun _ _ => trivial

theorem RoundTrip.depend (p : Packet) : RoundTrip.Statement (.depend p) := fun _ _ => trivial

theorem RoundTrip.dependSatisfied (q : QueueId) : RoundTrip.Statement (.dependSatisfied q) := fun _ _ => trivial

theorem RoundTrip.fencePacket (p : Packet) : RoundTrip.Statement (.fencePacket p) := fun _ _ => trivial

theorem RoundTrip.launchRetire (l : Nat) : RoundTrip.Statement (.launchRetire l) := fun _ _ => trivial

theorem RoundTrip.gangPreempt (l : Nat) : RoundTrip.Statement (.gangPreempt l) := fun _ _ => trivial

theorem RoundTrip.preemptDeadline (who : StrandId) : RoundTrip.Statement (.preemptDeadline who) := fun _ _ => trivial

theorem RoundTrip.gangResume (l : Nat) : RoundTrip.Statement (.gangResume l) := fun _ _ => trivial

theorem RoundTrip.engineQuiesceTimeout (part : Nat) : RoundTrip.Statement (.engineQuiesceTimeout part) := fun _ _ => trivial

theorem RoundTrip.staleCompletion (part : Nat) : RoundTrip.Statement (.staleCompletion part) := fun _ _ => trivial

theorem RoundTrip.switchDrainComplete (g : Nat) : RoundTrip.Statement (.switchDrainComplete g) := fun _ _ => trivial

theorem RoundTrip.switchDrainLimit (g : Nat) : RoundTrip.Statement (.switchDrainLimit g) := fun _ _ => trivial

theorem RoundTrip.quiesceEnd (g : Nat) : RoundTrip.Statement (.quiesceEnd g) := fun _ _ => trivial

theorem RoundTrip.retrainDone (g : Nat) : RoundTrip.Statement (.retrainDone g) := fun _ _ => trivial

theorem RoundTrip.trainingFail (g : Nat) : RoundTrip.Statement (.trainingFail g) := fun _ _ => trivial

theorem RoundTrip.verifyPass (g : Nat) : RoundTrip.Statement (.verifyPass g) := fun _ _ => trivial

theorem RoundTrip.verifyFail (g : Nat) : RoundTrip.Statement (.verifyFail g) := fun _ _ => trivial

theorem RoundTrip.verifyTimeout (g : Nat) : RoundTrip.Statement (.verifyTimeout g) := fun _ _ => trivial

theorem RoundTrip.fallbackActive (g : Nat) : RoundTrip.Statement (.fallbackActive g) := fun _ _ => trivial

theorem RoundTrip.fallbackDown (g : Nat) : RoundTrip.Statement (.fallbackDown g) := fun _ _ => trivial

theorem RoundTrip.linkLost (g : Nat) : RoundTrip.Statement (.linkLost g) := fun _ _ => trivial

theorem RoundTrip.laneFailure (g : Nat) (lane : Nat) : RoundTrip.Statement (.laneFailure g lane) := fun _ _ => trivial

theorem RoundTrip.openSession (m : Msg) : RoundTrip.Statement (.openSession m) := fun _ _ => trivial

theorem RoundTrip.attest (m : Msg) : RoundTrip.Statement (.attest m) := fun _ _ => trivial

theorem RoundTrip.createPartition (m : Msg) : RoundTrip.Statement (.createPartition m) := fun _ _ => trivial

theorem RoundTrip.loadCode (m : Msg) : RoundTrip.Statement (.loadCode m) := fun _ _ => trivial

theorem RoundTrip.mapWindowMap (m : Msg) : RoundTrip.Statement (.mapWindowMap m) := fun _ _ => trivial

theorem RoundTrip.mapWindowChange (m : Msg) : RoundTrip.Statement (.mapWindowChange m) := fun _ _ => trivial

theorem RoundTrip.mapWindowRemove (m : Msg) : RoundTrip.Statement (.mapWindowRemove m) := fun _ _ => trivial

theorem RoundTrip.submit (m : Msg) : RoundTrip.Statement (.submit m) := fun _ _ => trivial

theorem RoundTrip.readCounters (m : Msg) : RoundTrip.Statement (.readCounters m) := fun _ _ => trivial

theorem RoundTrip.switchPort (m : Msg) : RoundTrip.Statement (.switchPort m) := fun _ _ => trivial

theorem RoundTrip.checkpoint (m : Msg) : RoundTrip.Statement (.checkpoint m) := fun _ _ => trivial

theorem RoundTrip.close (m : Msg) : RoundTrip.Statement (.close m) := fun _ _ => trivial

theorem RoundTrip.keepalive (m : Msg) : RoundTrip.Statement (.keepalive m) := fun _ _ => trivial

theorem RoundTrip.keepaliveSend (session : Nat) : RoundTrip.Statement (.keepaliveSend session) := fun _ _ => trivial

theorem RoundTrip.sessionLost (session : Nat) : RoundTrip.Statement (.sessionLost session) := fun _ _ => trivial

theorem RoundTrip.atomicopCompletion (who : StrandId) (ok : Bool) (old : Word) : RoundTrip.Statement (.atomicopCompletion who ok old) := fun _ _ => trivial

theorem RoundTrip.proxyResponse (who : StrandId) (ok : Bool) (old : Word) : RoundTrip.Statement (.proxyResponse who ok old) := fun _ _ => trivial

theorem RoundTrip.atomicTimeout (who : StrandId) : RoundTrip.Statement (.atomicTimeout who) := fun _ _ => trivial

theorem RoundTrip.firmware (m : Msg) : RoundTrip.Statement (.firmware m) := fun _ _ => trivial

theorem RoundTrip.powerGood : RoundTrip.Statement .powerGood := fun _ _ => trivial

theorem RoundTrip.powerSample (watts : Nat) (tempC : Nat) (flow : Nat) : RoundTrip.Statement (.powerSample watts tempC flow) := fun _ _ => trivial

theorem RoundTrip.correctedError (p : PartRef) : RoundTrip.Statement (.correctedError p) := fun _ _ => trivial

theorem RoundTrip.gddrCopyDone (dev : Nat) : RoundTrip.Statement (.gddrCopyDone dev) := fun _ _ => trivial

theorem RoundTrip.patrolScrub : RoundTrip.Statement .patrolScrub := fun _ _ => trivial

theorem RoundTrip.illegalWord (w : Word) : RoundTrip.Statement (.illegalWord w) := fun _ _ => trivial

theorem RoundTrip.uncorrectableError (p : PartRef) : RoundTrip.Statement (.uncorrectableError p) := fun _ _ => trivial

theorem RoundTrip.checkpointDone (part : Nat) : RoundTrip.Statement (.checkpointDone part) := fun _ _ => trivial

theorem RoundTrip.powerLoss : RoundTrip.Statement .powerLoss := fun _ _ => trivial

end Sys2Proof.Laws
end

