-- ==== Sys2Proof/Safety.lean ====
section
/-! DEFINITION. Safety.lean: the terms in which claims speak of a step: the result of a parcel, a vector word that may
execute, what a vector write leaves, the canonical form of the memories, the bytes that a command's operands reach, and a request message that
passes its checks. -/

namespace Sys2Proof.Machine

/-- Device memory, host memory and the Larders are in their canonical form. -/
def State.Canonical (s : State) : Prop := Memory.wf s.mem ∧ Memory.wf s.hostMem ∧ Memory.wf s.larder ∧ SMap.wf 0 s.keys

/-- The state that differs from s only in this: register d (unless it is x0) of the issuing strand holds v, and its pc is
n bytes on. -/
def State.withResult (s : State) (d : XReg) (v : Word) (n : Word) : State :=
  { s with cur := { s.cur with x := if d = 0 then s.cur.x else s.cur.x.set d.toNat v, pc := s.cur.pc + n } }

/-- The state that differs from s only in this: register d (unless it is x0) holds the bits of r, fflags has the flags of
r raised besides its own, and the pc is at the next parcel. -/
def State.withFloat (s : State) (d : XReg) (r : FRes) : State :=
  { s with cur := { s.cur with
      x := if d = 0 then s.cur.x else s.cur.x.set d.toNat (BitVec.ofNat 64 r.bits)
      fflags := s.cur.fflags ||| r.flags, pc := s.cur.pc + 4 } }

/-- The state in which a trap of the strand has been entered by R337 from s, with the given trpc, trslot, cause, resume kind
and trval: the mode, the saved registers and the pc. The counts of the core (Table 23-4) and what a stopped convoy carries
are left open. -/
def State.Entered (s t : State) (tpc : Word) (slot : BitVec 2) (cause : Cause) (rk : BitVec 3) (tval : Word) : Prop :=
  t.cur.trpc = tpc ∧ t.cur.trslot = slot ∧ t.cur.trCode = cause.code ∧ t.cur.trRk = rk ∧ t.cur.trval = tval ∧
    t.cur.trIn = true ∧ t.cur.trLvl = s.cur.level ∧ t.cur.level = .s ∧
    t.cur.pc = s.cur.arenabase + s.cur.trvec.setWidth 64 ∧
    t.cur.x = s.cur.x ∧ t.cur.vec = s.cur.vec ∧ t.cur.fflags = s.cur.fflags ∧ t.cur.frm = s.cur.frm ∧
    t.cur.trvec = s.cur.trvec ∧ t.cur.trscratch = s.cur.trscratch ∧ t.cur.queues = s.cur.queues ∧
    t.cur.vowner = s.cur.vowner ∧ t.cur.ctxid = s.cur.ctxid ∧ t.others = s.others ∧ t.hostMem = s.hostMem ∧
    t.larder = s.larder

/-- The n bytes from address a lie outside the page-table entry whose A and D bits an access sets (R222). -/
def Xlat.spares (x : Xlat) (a n : Nat) : Prop := ∀ l, x.leaf = some l → a + n ≤ l.entry ∨ l.entry + 8 ≤ a

/-- A 64-bit word passes every check that precedes its effect (Table 4-19, R227): the decode checks of the strand, no
destination that a read stream is bound to, and the pops of its read-bound sources, which leave the state t. -/
def State.Ready (s : State) (i : Instr) (t : State) : Prop :=
  s.cur.wordCheck (wordInfo i s.cur) = none ∧ s.cur.readBoundDst (wordInfo i s.cur).dsts = none ∧
    s.popAll (regsOf (wordInfo i s.cur).srcs) = .ok t

/-- The tail of a destination of width w (R167): the elements from vl to the end of its register group; in matrix mode those
of a granted slice whose index is vl or more (R264). -/
def Strand.InTail (c : Strand) (w e : Nat) : Prop :=
  if c.vec.mmode then e < 128 * c.lanes ∧ c.vec.vl ≤ e % 128
  else c.vec.vl ≤ e ∧ (e + 1) * w ≤ c.groupSize w * c.regBytes * 8

/-- What a write of destination d, of width w, leaves in vector registers v (R116, R167, R168): the results f of the active
elements; zero in the masked-off elements under MZ and not under mf; the other elements of the body as they were; the tail
zero under TP, else as it was; every byte outside the register group and the elements below vl as it was. In matrix mode
vnreg is 64 (R260). -/
def Strand.VecWritten (c : Strand) (v : SMap Byte) (d : VReg) (w : Nat) (act off : List Nat) (f : Nat → Nat) : Prop :=
  let new := fun e => ({ c with vec := { c.vec with v := v } } : Strand).elem d w e
  let lo := d.toNat * c.regBytes
  let hi := lo + c.groupSize w * c.regBytes
  (c.vec.mmode = true → c.vec.vnreg = 64) →
  (∀ e ∈ act, new e = f e % 2 ^ w) ∧
  (∀ e ∈ off, e ∉ act → new e = if c.vec.mz && !c.underMf then 0 else c.elem d w e) ∧
  (∀ e ∈ c.body, e ∉ act → e ∉ off → new e = c.elem d w e) ∧
  (∀ e, c.InTail w e → new e = if c.vec.tp then 0 else c.elem d w e) ∧
  (∀ a, a < lo ∨ (if c.vec.mmode then hi else max hi (lo + (c.vec.vl * w + 7) / 8)) ≤ a →
    Memory.read v a = Memory.read c.vec.v a)

/-- From t, in which its pops stand, a word has written vector destination d as VecWritten says, raised the flags and the
saturation given, set vstart to 0 and gone on to the next word, and changed nothing else; its convoy has new pushes only
where a register of the destination is bound to a write stream (R227). -/
def State.WritesVector (t : State) (out : Out) (d : VReg) (w : Nat) (act off : List Nat) (f : Nat → Nat)
    (flags : BitVec 5) (sat : Bool) : Prop :=
  ∃ (v : SMap Byte) (p : List Push),
    out = .next { t with cur := { t.cur with
      pc := t.cur.pc + 8
      vec := { t.cur.vec with v := v, vstart := 0 }
      conv := { t.cur.conv with pushes := p, flags := t.cur.conv.flags ||| flags, sat := t.cur.conv.sat || sat } } } ∧
    t.cur.VecWritten v d w act off f ∧
    ((∀ r ∈ regsOf [t.cur.use d w], t.cur.boundTo r true = none) → p = t.cur.conv.pushes)

/-- A word that only sets vstart to 0 and goes on (R168). -/
def State.OnlyVstart (t : State) (out : Out) : Prop :=
  out = .next { t with cur := { t.cur with pc := t.cur.pc + 8, vec := { t.cur.vec with vstart := 0 } } }

/-- ElementWise of R168: nothing but vstart where vstart is vl or more, else the active elements from vstart. -/
def State.ElementWise (t : State) (out : Out) (d : VReg) (w : Nat) (m : MReg) (f : Nat → Nat) (flags : Nat → BitVec 5)
    (sat : Nat → Bool) : Prop :=
  (t.cur.vec.vl ≤ t.cur.vec.vstart → t.OnlyVstart out) ∧
  (t.cur.vec.vstart < t.cur.vec.vl →
    t.WritesVector out d w (t.cur.actives m) (t.cur.maskedOff m) f (((t.cur.actives m).map flags).foldl (· ||| ·) 0)
      ((t.cur.actives m).any sat))

/-- The frame of R168 for a function that reads across elements: vstart is ignored, and at vl = 0 only vstart changes. -/
def State.AcrossElements (t : State) (out : Out) (d : VReg) (w : Nat) (m : MReg) (f : Nat → Nat) : Prop :=
  (t.cur.vec.vl = 0 → t.OnlyVstart out) ∧
  (0 < t.cur.vec.vl → t.WritesVector out d w (t.cur.activesFrom0 m) (t.cur.maskedOff0 m) f 0 false)

/-- From t a word has written mask register d and gone on to the next word: the results of the active elements, zero in the
masked-off ones under MZ, the rest of the body as it was, zero beyond it under TP, else as it was (R167, R183); every other
register as it was. -/
def State.WritesMask (t : State) (out : Out) (d : MReg) (act off : List Nat) (f : Nat → Bool) (flags : BitVec 5) : Prop :=
  ∃ m : Vector Mask 7,
    out = .next { t with cur := { t.cur with
      pc := t.cur.pc + 8, vec := { t.cur.vec with m := m, vstart := 0 }
      conv := { t.cur.conv with flags := t.cur.conv.flags ||| flags } } } ∧
    let bit := fun e => ({ t.cur with vec := { t.cur.vec with m := m } } : Strand).maskBit d e
    (∀ i : Fin 7, i.val + 1 ≠ d.toNat → m[i] = t.cur.vec.m[i]) ∧
    (∀ e ∈ act, e < 16384 → bit e = f e) ∧
    (∀ e ∈ off, e ∉ act → bit e = (if t.cur.vec.mz && !t.cur.underMf then false else t.cur.maskBit d e)) ∧
    (∀ e ∈ t.cur.body, e ∉ act → e ∉ off → bit e = t.cur.maskBit d e) ∧
    (∀ e, e ∉ t.cur.body → bit e = (if t.cur.vec.tp then false else t.cur.maskBit d e))

/-- ElementWise of R168 for a mask destination. -/
def State.ElementWiseMask (t : State) (out : Out) (d m : MReg) (f : Nat → Bool) (flags : Nat → BitVec 5) : Prop :=
  (t.cur.vec.vl ≤ t.cur.vec.vstart → t.OnlyVstart out) ∧
  (t.cur.vec.vstart < t.cur.vec.vl →
    t.WritesMask out d (t.cur.actives m) (t.cur.maskedOff m) f (((t.cur.actives m).map flags).foldl (· ||| ·) 0))

/-- The frame of R168 for a mask function that reads across elements. -/
def State.AcrossMask (t : State) (out : Out) (d m : MReg) (f : Nat → Bool) : Prop :=
  (t.cur.vec.vl = 0 → t.OnlyVstart out) ∧
  (0 < t.cur.vec.vl → t.WritesMask out d (t.cur.activesFrom0 m) (t.cur.maskedOff0 m) f 0)

/-- A destination vector of which only elements 0 to k − 1 are written, with the results f, the tail beginning at k (R188,
R208); the flags are raised, vstart is 0, and the next word follows. -/
def State.WritesFront (t : State) (out : Out) (d : VReg) (w k : Nat) (f : Nat → Nat) (flags : BitVec 5) : Prop :=
  ∃ (v : SMap Byte) (p : List Push),
    out = .next { t with cur := { t.cur with
      pc := t.cur.pc + 8
      vec := { t.cur.vec with v := v, vstart := 0 }
      conv := { t.cur.conv with pushes := p, flags := t.cur.conv.flags ||| flags } } } ∧
    ({ t.cur with vec := { t.cur.vec with vl := k } } : Strand).VecWritten v d w (List.range k) [] f ∧
    ((∀ r ∈ regsOf [t.cur.use d w], t.cur.boundTo r true = none) → p = t.cur.conv.pushes)

/-- Two subtrees of R209 joined by an addition g that raises flags; an EMPTY one passes the other unchanged. -/
def pairSum (g : Nat → Nat → FRes) : Option FRes → Option FRes → Option FRes
  | none, q => q
  | some p, none => some p
  | some p, some q => some { bits := (g p.bits q.bits).bits, flags := p.flags ||| q.flags ||| (g p.bits q.bits).flags }

/-- The tree of R209 over 2ⁿ leaves, from its root down: the leaves beyond the list are EMPTY. -/
def treeSum (g : Nat → Nat → FRes) : Nat → List (Option FRes) → Option FRes
  | 0, leaves => leaves.head?.join
  | n + 1, leaves => pairSum g (treeSum g n (leaves.take (2 ^ n))) (treeSum g n (leaves.drop (2 ^ n)))

/-- Every access of a plan passes (R237): no precise check fails, and the table of the page-sorting unit, which leaves the
state u, translates every address. -/
def State.Passes (t : State) (p : VmPlan) (tbl : List (Nat × Except Cause (Option Leaf))) (u : State) : Prop :=
  p.precise = none ∧ t.sortPages (distinct (p.addresses.map fun a => granule a.1)) = (tbl, u) ∧
    ∀ a ∈ p.addresses, ∃ x, u.byGranule tbl a.2 a.1 = .ok x ∧ (p.noHost = true → x.place.host = false)

/-- What a load of nf fields of width w leaves in vector registers v: field k of element e is f k e for the elements of act,
in the group k places after d; the other elements and the bytes outside as VecWritten says. -/
def Strand.FieldsWritten (c : Strand) (v : SMap Byte) (d : VReg) (w nf : Nat) (act off : List Nat)
    (f : Nat → Nat → Nat) : Prop :=
  let g := c.groupSize w
  let reg := fun k => (BitVec.ofNat 6 (d.toNat + k * g) : VReg)
  let new := fun k e => ({ c with vec := { c.vec with v := v } } : Strand).elem (reg k) w e
  let lo := d.toNat * c.regBytes
  let hi := lo + nf * g * c.regBytes
  (c.vec.mmode = true → c.vec.vnreg = 64) →
  (∀ k < nf, (∀ e ∈ act, new k e = f k e % 2 ^ w) ∧
    (∀ e ∈ off, e ∉ act → new k e = if c.vec.mz && !c.underMf then 0 else c.elem (reg k) w e) ∧
    (∀ e ∈ c.body, e ∉ act → e ∉ off → new k e = c.elem (reg k) w e) ∧
    (∀ e, c.InTail w e → new k e = if c.vec.tp then 0 else c.elem (reg k) w e)) ∧
  ∀ a, a < lo ∨ (if c.vec.mmode then hi else max hi (lo + (c.vec.vl * w + 7) / 8)) ≤ a →
    Memory.read v a = Memory.read c.vec.v a

/-- The fields of a plan in the order of the accesses: the element, the field and the address. -/
def VmPlan.fields (p : VmPlan) : List (Nat × Nat × Nat) :=
  p.acts.flatMap fun e => e.2.zipIdx.map fun f => (e.1, f.2, f.1)

/-- Two places of n and k bytes share no byte. -/
def Place.apart (p : Place) (n : Nat) (q : Place) (k : Nat) : Prop :=
  p.host ≠ q.host ∨ p.addr + n ≤ q.addr ∨ q.addr + k ≤ p.addr

/-- Two bytes of a command's operands are different bytes. -/
def Spot.apart : Spot → Spot → Prop
  | .mem x _, .mem y _ => x.place.apart 1 y.place 1
  | .larder a, .larder b => a ≠ b
  | .mem _ _, .larder _ => True
  | .larder _, .mem _ _ => True

/-- The byte p is none of the page-table entry whose A and D bits an access at the byte x sets (R222). -/
def Spot.unmoved : Spot → Spot → Prop
  | .mem p _, .mem x _ => p.place.host = true ∨ x.spares p.place.addr 1
  | .mem _ _, .larder _ => True
  | .larder _, _ => True

/-- Byte a of a command's operand, a Larder offset or a virtual address modulo 2⁶⁴, is reached at sp by the leaves of tbl
(R224, R230). -/
def State.Reaches (u : State) (tbl : PageTable) (n : Need) (larder : Bool) (a : Nat) (sp : Spot) : Prop :=
  if larder then sp = .larder (larderBase u.cur.id.core + a)
  else (∃ x, sp = .mem x (a % 2 ^ 64)) ∧ u.spotAt tbl n false (a % 2 ^ 64) = .ok sp

/-- A request message is well formed (R380, R382, Table 21-11): TYPE 1, a known verb, LEN the length of its payload and at
most 224, every reserved field of the header zero, and zero in every payload byte outside those its verb uses and in every
bit above those that a byte of flags has. -/
def requestFormed (m : Msg) (used bits : List (Nat × Nat)) : Prop :=
  msgType m = 1 ∧ knownVerb (msgVerb m) = true ∧ m.w0.toNat / 65536 % 65536 = 0 ∧ m.w1.toNat / 2 ^ 48 = 0 ∧
    msgLen m ≤ 224 ∧ msgLen m = m.payload.length ∧ m.w2 = 0 ∧ m.w3 = 0 ∧
    (∀ (i : Nat) (b : Byte), m.payload[i]? = some b → (∀ u ∈ used, ¬(u.1 ≤ i ∧ i < u.1 + u.2)) → b = 0) ∧
    ∀ b ∈ bits, payload m b.1 1 < 2 ^ b.2

/-- A request message of a verb passes the checks of R380 to R382 and R406: its group carries RPC messages, its header and
its reserved payload bytes are as they must be, the module is in service, its session is open, and no earlier request of the
session on its path waits for its answer. -/
def State.Accepts (s : State) (m : Msg) (verb : Nat) (used bits : List (Nat × Nat)) (x : Session) : Prop :=
  (s.groupD m.path).carriesRpc = true ∧ msgVerb m = verb ∧ requestFormed m used bits ∧ s.module.phase = .service ∧
    s.session? (msgSession m) = some x ∧ s.mustWait x m.path = false

/-- From t, in which its pops stand, a 64-bit word has executed normally: the strand goes on at the next word, at its level,
with no trap taken: the saved pc and IN of Table 6-3 are as they were. -/
def State.Completes (t : State) (out : Out) : Prop :=
  ∃ u, out = .next u ∧ u.cur.pc = t.cur.pc + 8 ∧ u.cur.run = t.cur.run ∧ u.cur.note = t.cur.note ∧ u.cur.level = t.cur.level ∧
    u.cur.trIn = t.cur.trIn ∧ u.cur.trpc = t.cur.trpc ∧ u.cur.trRk = t.cur.trRk

/-- The signed value of the low n bits. -/
def sval (n x : Nat) : Int := (BitVec.ofNat n x).toInt

/-- An integer modulo 2ⁿ. -/
def nval (n : Nat) (v : Int) : Nat := (BitVec.ofInt n v).toNat

/-- Clip of R162 to n bits: the value held and whether it saturated. -/
def clipTo (n : Nat) (isSigned : Bool) (v : Int) : Nat × Bool :=
  let lo : Int := if isSigned then -(2 ^ (n - 1) : Nat) else 0
  let hi : Int := (if isSigned then 2 ^ (n - 1) else 2 ^ n : Nat) - 1
  (nval n (max lo (min hi v)), decide (v < lo ∨ hi < v))

/-- A function of Table 9-6: its words in the forms the table gives it, how many times n its sources a and its result are
wide, and its result and saturation from n, the width of y, vrm, x, y and the old result element. -/
structure IntRow where
  vv : Option (VV → Instr) := none
  vvw : Option (VVW → Instr) := none
  vs : Option (VS → Instr) := none
  vi : Option (VI → Instr) := none
  aw : Nat := 1
  dw : Nat := 1
  f : Nat → Nat → Vrm → Nat → Nat → Nat → Nat × Bool

/-- Table 9-6 but for VMERGE and VMV: integer, fixed-point, widening and narrowing functions (R171, R179, R180). -/
def intRows : List IntRow :=
  [{ vv := some .vaddVV, vs := some .vaddVS, vi := some .vaddVI, f := fun n _ _ x y _ => (nval n (x + y), false) },
   { vv := some .vsubVV, vs := some .vsubVS, vi := some .vsubVI, f := fun n _ _ x y _ => (nval n ((x : Int) - y), false) },
   { vv := some .vandVV, vs := some .vandVS, vi := some .vandVI, f := fun _ _ _ x y _ => (x &&& y, false) },
   { vv := some .vorVV, vs := some .vorVS, vi := some .vorVI, f := fun _ _ _ x y _ => (x ||| y, false) },
   { vv := some .vxorVV, vs := some .vxorVS, vi := some .vxorVI, f := fun _ _ _ x y _ => (x ^^^ y, false) },
   { vv := some .vshlVV, vs := some .vshlVS, vi := some .vshlVI
     f := fun n _ _ x y _ => (nval n (x * 2 ^ (y % n) : Nat), false) },
   { vv := some .vshrVV, vs := some .vshrVS, vi := some .vshrVI, f := fun n _ _ x y _ => (x / 2 ^ (y % n), false) },
   { vv := some .vshaVV, vs := some .vshaVS, vi := some .vshaVI
     f := fun n _ _ x y _ => (nval n (sval n x / (2 ^ (y % n) : Nat)), false) },
   { vv := some .vminVV, vs := some .vminVS, vi := some .vminVI
     f := fun n _ _ x y _ => (nval n (min (sval n x) (sval n y)), false) },
   { vv := some .vmaxVV, vs := some .vmaxVS, vi := some .vmaxVI
     f := fun n _ _ x y _ => (nval n (max (sval n x) (sval n y)), false) },
   { vv := some .vminnVV, vs := some .vminnVS, vi := some .vminnVI, f := fun _ _ _ x y _ => (min x y, false) },
   { vv := some .vmaxnVV, vs := some .vmaxnVS, vi := some .vmaxnVI, f := fun _ _ _ x y _ => (max x y, false) },
   { vv := some .vmulVV, vs := some .vmulVS, f := fun n _ _ x y _ => (nval n (x * y), false) },
   { vv := some .vmulhVV, vs := some .vmulhVS, f := fun n _ _ x y _ => (nval n (sval n x * sval n y / (2 ^ n : Nat)), false) },
   { vv := some .vmulhnVV, vs := some .vmulhnVS, f := fun n _ _ x y _ => (x * y / 2 ^ n, false) }] ++
  [{ vv := some .vdivVV, vs := some .vdivVS
     f := fun n _ _ x y _ => (if y = 0 then 2 ^ n - 1 else nval n ((sval n x).tdiv (sval n y)), false) },
   { vv := some .vdivnVV, vs := some .vdivnVS, f := fun n _ _ x y _ => (if y = 0 then 2 ^ n - 1 else x / y, false) },
   { vv := some .vremVV, vs := some .vremVS
     f := fun n _ _ x y _ => (if y = 0 then x else nval n ((sval n x).tmod (sval n y)), false) },
   { vv := some .vremnVV, vs := some .vremnVS, f := fun _ _ _ x y _ => (if y = 0 then x else x % y, false) },
   { vv := some .vmaccVV, vs := some .vmaccVS, f := fun n _ _ x y d => (nval n (d + x * y), false) },
   { vv := some .vaddsVV, vs := some .vaddsVS, vi := some .vaddsVI, f := fun n _ _ x y _ => clipTo n true (sval n x + sval n y) },
   { vv := some .vsubsVV, vs := some .vsubsVS, vi := some .vsubsVI, f := fun n _ _ x y _ => clipTo n true (sval n x - sval n y) },
   { vv := some .vaddsnVV, vs := some .vaddsnVS, vi := some .vaddsnVI, f := fun n _ _ x y _ => clipTo n false (x + y) },
   { vv := some .vsubsnVV, vs := some .vsubsnVS, vi := some .vsubsnVI, f := fun n _ _ x y _ => clipTo n false ((x : Int) - y) },
   { vv := some .vavgVV, vs := some .vavgVS, f := fun n _ r x y _ => (nval n (roundFixed r (sval n x + sval n y) 1), false) },
   { vv := some .vsmulVV, vs := some .vsmulVS
     f := fun n _ r x y _ => clipTo n true (roundFixed r (sval n x * sval n y) (n - 1)) },
   { vv := some .vsshrVV, vs := some .vsshrVS, vi := some .vsshrVI
     f := fun n _ r x y _ => (nval n (roundFixed r (sval n x) (y % n)), false) }] ++
  [{ vvw := some .vwaddVV, vs := some .vwaddVS, dw := 2, f := fun n k _ x y _ => (nval (2 * n) (sval n x + sval k y), false) },
   { vvw := some .vwaddnVV, vs := some .vwaddnVS, dw := 2, f := fun n _ _ x y _ => (nval (2 * n) (x + y), false) },
   { vv := some .vwmulVV, vs := some .vwmulVS, dw := 2, f := fun n _ _ x y _ => (nval (2 * n) (sval n x * sval n y), false) },
   { vv := some .vwmulnVV, vs := some .vwmulnVS, dw := 2, f := fun n _ _ x y _ => (nval (2 * n) (x * y), false) },
   { vv := some .vwmaccVV, vs := some .vwmaccVS, dw := 2
     f := fun n _ _ x y d => (nval (2 * n) (d + sval n x * sval n y), false) },
   { vv := some .vwmaccnVV, vs := some .vwmaccnVS, dw := 2, f := fun n _ _ x y d => (nval (2 * n) (d + x * y), false) },
   { vvw := some .vnshrVV, vs := some .vnshrVS, vi := some .vnshrVI, aw := 2
     f := fun n _ r x y _ => (nval n (roundFixed r x (y % (2 * n))), false) },
   { vvw := some .vnclipVV, vs := some .vnclipVS, vi := some .vnclipVI, aw := 2
     f := fun n _ r x y _ => clipTo n true (roundFixed r (sval (2 * n) x) (y % (2 * n))) },
   { vvw := some .vnclipnVV, vs := some .vnclipnVS, vi := some .vnclipnVI, aw := 2
     f := fun n _ r x y _ => clipTo n false (roundFixed r x (y % (2 * n))) }]

end Sys2Proof.Machine
end

