-- ==== Sys2Proof/Certificates/Slice0/Obligations.lean ====
section
/-! DEFINITION. Certificates/Slice0/Obligations.lean: the statements for the provers. -/

open Sys2Proof Sys2Proof.Machine

/-! ### The words and the step -/

/-- Words that the spec writes out with their instructions decode to them, in every format: parcels (Tables 7-9, R72) and
64-bit words (Tables 4-21, 14-7, 15-8 and the examples of 09 to 17). -/
def Obligations.SpecWordsDecode : Prop :=
  decodeParcel 0x19F00012#32 = some (.adpc { d := 31, imm := 18 }) ∧
  decodeParcel 0x05FF9928#32 = some (.addi { d := 31, a := 31, imm := 6440 }) ∧
  decodeParcel 0x4E1F9928#32 = some (.jalr { d := 1, a := 31, imm := 6440 }) ∧
  decodeParcel 0x04000000#32 = some (.addi { d := 0, a := 0, imm := 0 }) ∧
  decodeParcel 0x84000000#32 = none ∧ decodeParcel 0x00000000#32 = none ∧
  decodeWord 0xD0920A0010180040#64 =
    some (.vld { m := 1, d := 8, base := 5, ew := .of .e32, scope := .device, off := 64 }) ∧
  decodeWord 0xC482040008000053#64 = some (.vnclipnVI { m := 0, d := 8, a := 4, imm := 8, ew := .e8 }) ∧
  decodeWord 0xC981010834800008#64 = some (.vfmaVV { m := 0, d := 4, a := 1, b := 2, c := 3, fmt := .fp32 }) ∧
  decodeWord 0xCC82040000800F14#64 =
    some (.vfcvt { m := 0, d := 8, a := 4, dst := .e4m3, src := .fp32, rm := .frm, sat := true }) ∧
  decodeWord 0xD8808C70101A0000#64 =
    some (.vst { m := 0, d := 2, base := 6, ew := .of .e32, mode := .notify 7, scope := .device, off := 0 }) ∧
  decodeWord 0xDE8090F198180000#64 =
    some (.vwait { m := 0, d := 2, base := 8, timeout := 15, vi := 6, ew := .e64, scope := .device, off := 0 }) ∧
  decodeWord 0xC183080000000000#64 = some (.setvl { d := 12, a := 4 }) ∧
  decodeWord 0xE082000010000002#64 = some (.stbind { s := 2, v := 8, write := false }) ∧
  decodeWord 0xE481085300030000#64 =
    some (.qcopy { q := 4, src := 4, dst := 5, cnt := 6, ntf := 0, scope := .device, sl := false, dl := false }) ∧
  decodeWord 0xF090000822020001#64 =
    some (.mupd { rmask := 1, cmask := 2, a := 0, b := 2, acc := 0, fa := .e4m3, fb := .e4m3 }) ∧
  decodeWord 0xF080051044011010#64 =
    some (.spmmac { ts := 5, pb := 4, acc := 0, fa := .int8, fb := .int8, planes := 1, win := 1 })

/-- Every instruction that has a word is read back from it, with every operand at every value the encoding admits; a 64-bit
word keeps its C bit, and no parcel looks like the upper half of a 64-bit word (R58, R64, R70). -/
def Obligations.EveryWordDecodesToItsInstruction : Prop :=
  ∀ i : Instr, Laws.RoundTrip.Statement i

/-! ### Scalar integer parcels (07_scalar_instructions) -/

/-- The three-register ALU functions of Table 7-3 but for division: the result in xd (x0 discards it, R126), the next
parcel, and nothing else changes. x0 reads zero. DIV, REM, DIVN and REMN by Divide of R131: the two fixed corners, else a
quotient rounded toward zero and the remainder that completes it; neither corner traps. CLZ, CTZ and POPC count what Table
7-3 says: the zeros above the highest set bit, the zeros below the lowest, the set bits; 64 for the first two at zero. -/
def Obligations.AluFunctionResults : Prop :=
  (∀ (o : RRR) (s : State), s.getX 0 = 0 ∧
     let a := s.getX o.a
     let b := s.getX o.b
     let n := (s.getX o.b).toNat % 64
     exec (.add o) s = .next (s.withResult o.d (a + b) 4) ∧
     exec (.sub o) s = .next (s.withResult o.d (a - b) 4) ∧
     exec (.and o) s = .next (s.withResult o.d (a &&& b) 4) ∧
     exec (.or o) s = .next (s.withResult o.d (a ||| b) 4) ∧
     exec (.xor o) s = .next (s.withResult o.d (a ^^^ b) 4) ∧
     exec (.andn o) s = .next (s.withResult o.d (a &&& ~~~b) 4) ∧
     exec (.shl o) s = .next (s.withResult o.d (a <<< n) 4) ∧
     exec (.shr o) s = .next (s.withResult o.d (a >>> n) 4) ∧
     exec (.sha o) s = .next (s.withResult o.d (BitVec.ofInt 64 (a.toInt / (2 ^ n : Nat))) 4) ∧
     exec (.min o) s = .next (s.withResult o.d (BitVec.ofInt 64 (min a.toInt b.toInt)) 4) ∧
     exec (.max o) s = .next (s.withResult o.d (BitVec.ofInt 64 (max a.toInt b.toInt)) 4) ∧
     exec (.minn o) s = .next (s.withResult o.d (BitVec.ofNat 64 (min a.toNat b.toNat)) 4) ∧
     exec (.maxn o) s = .next (s.withResult o.d (BitVec.ofNat 64 (max a.toNat b.toNat)) 4) ∧
     exec (.slt o) s = .next (s.withResult o.d (if a.toInt < b.toInt then 1 else 0) 4) ∧
     exec (.sltn o) s = .next (s.withResult o.d (if a.toNat < b.toNat then 1 else 0) 4) ∧
     exec (.mul o) s = .next (s.withResult o.d (a * b) 4) ∧
     exec (.mulh o) s = .next (s.withResult o.d (BitVec.ofInt 64 (a.toInt * b.toInt / 2 ^ 64)) 4) ∧
     exec (.mulhn o) s = .next (s.withResult o.d (BitVec.ofNat 64 (a.toNat * b.toNat / 2 ^ 64)) 4)) ∧
  (∀ (o : RRR) (s : State),
     let a := s.getX o.a
     let b := s.getX o.b
     (b = 0 →
       exec (.div o) s = .next (s.withResult o.d 0xFFFFFFFFFFFFFFFF#64 4) ∧ exec (.rem o) s = .next (s.withResult o.d a 4) ∧
       exec (.divn o) s = .next (s.withResult o.d 0xFFFFFFFFFFFFFFFF#64 4) ∧
       exec (.remn o) s = .next (s.withResult o.d a 4)) ∧
     (a = 0x8000000000000000#64 → b = 0xFFFFFFFFFFFFFFFF#64 →
       exec (.div o) s = .next (s.withResult o.d a 4) ∧ exec (.rem o) s = .next (s.withResult o.d 0 4)) ∧
     (b ≠ 0 → ¬(a = 0x8000000000000000#64 ∧ b = 0xFFFFFFFFFFFFFFFF#64) →
       ∃ q r : Word, exec (.div o) s = .next (s.withResult o.d q 4) ∧ exec (.rem o) s = .next (s.withResult o.d r 4) ∧
         a.toInt = q.toInt * b.toInt + r.toInt ∧ r.toInt.natAbs < b.toInt.natAbs ∧ 0 ≤ r.toInt * a.toInt) ∧
     (b ≠ 0 →
       ∃ q r : Word, exec (.divn o) s = .next (s.withResult o.d q 4) ∧ exec (.remn o) s = .next (s.withResult o.d r 4) ∧
         a.toNat = q.toNat * b.toNat + r.toNat ∧ r.toNat < b.toNat)) ∧
  (∀ (o : RR) (s : State),
     let a := s.getX o.a
     (∃ n ≤ 64, exec (.clz o) s = .next (s.withResult o.d (BitVec.ofNat 64 n) 4) ∧
       (∀ i, 64 - n ≤ i → a.getLsbD i = false) ∧ (n < 64 → a.getLsbD (63 - n) = true)) ∧
     (∃ n ≤ 64, exec (.ctz o) s = .next (s.withResult o.d (BitVec.ofNat 64 n) 4) ∧
       (∀ i < n, a.getLsbD i = false) ∧ (n < 64 → a.getLsbD n = true)) ∧
     exec (.popc o) s = .next (s.withResult o.d
       (BitVec.ofNat 64 (((List.range 64).map fun i => (a.getLsbD i).toNat).sum)) 4))

/-- The immediate forms take the sign-extended imm15 in place of xb; SLTNI reads it as unsigned; the shifts take their
six-bit amount; LUI and ADPC scale the sign-extended imm20 by 2¹⁶ (R130, R132). -/
def Obligations.AluImmediateResults : Prop :=
  (∀ (o : RRI) (s : State),
    let a := s.getX o.a
    let b := o.imm.signExtend 64
    exec (.addi o) s = .next (s.withResult o.d (a + b) 4) ∧
    exec (.andi o) s = .next (s.withResult o.d (a &&& b) 4) ∧
    exec (.ori o) s = .next (s.withResult o.d (a ||| b) 4) ∧
    exec (.xori o) s = .next (s.withResult o.d (a ^^^ b) 4) ∧
    exec (.slti o) s = .next (s.withResult o.d (if a.toInt < o.imm.toInt then 1 else 0) 4) ∧
    exec (.sltni o) s = .next (s.withResult o.d (if a.toNat < b.toNat then 1 else 0) 4)) ∧
  (∀ (o : RRSh) (s : State),
    let a := s.getX o.a
    exec (.shli o) s = .next (s.withResult o.d (a <<< o.sh.toNat) 4) ∧
    exec (.shri o) s = .next (s.withResult o.d (a >>> o.sh.toNat) 4) ∧
    exec (.shai o) s = .next (s.withResult o.d (BitVec.ofInt 64 (a.toInt / (2 ^ o.sh.toNat : Nat))) 4)) ∧
  (∀ (o : RI20) (s : State),
    exec (.lui o) s = .next (s.withResult o.d (BitVec.ofInt 64 (o.imm.toInt * 65536)) 4) ∧
    exec (.adpc o) s = .next (s.withResult o.d (s.cur.pc + 8 + BitVec.ofInt 64 (o.imm.toInt * 65536)) 4))

/-- The branches of Table 7-8 and the jumps: the pc, the link and nothing else; a JALR target that is no multiple of 4
raises ALIGN with the target, and JALR has no other effect (R137, R138). -/
def Obligations.BranchAndJumpResults : Prop :=
  (∀ (o : BranchOp) (s : State),
    let a := s.getX o.a
    let b := s.getX o.b
    let goes := fun (taken : Bool) => s.setPc (if taken then s.cur.pc + 4 * o.off.signExtend 64 else s.cur.pc + 4)
    exec (.beq o) s = .next (goes (a = b)) ∧
    exec (.bne o) s = .next (goes (a ≠ b)) ∧
    exec (.blt o) s = .next (goes (a.toInt < b.toInt)) ∧
    exec (.bge o) s = .next (goes (b.toInt ≤ a.toInt)) ∧
    exec (.bltn o) s = .next (goes (a.toNat < b.toNat)) ∧
    exec (.bgen o) s = .next (goes (b.toNat ≤ a.toNat))) ∧
  (∀ (o : RI20) (s : State),
    exec (.jal o) s = .next ((s.withResult o.d (s.cur.pc + 4) 0).setPc (s.cur.pc + 4 * o.imm.signExtend 64))) ∧
  (∀ (o : RRI) (s : State),
    let t := s.getX o.a + o.imm.signExtend 64
    (t.toNat % 4 = 0 → exec (.jalr o) s = .next ((s.withResult o.d (s.cur.pc + 4) 0).setPc t)) ∧
    (t.toNat % 4 ≠ 0 → exec (.jalr o) s = .next (s.trap .align t)))

/-- The scalar loads (R133): an access that passes the checks of R134, on a strand with no late error pending, reads n bytes
at xa + imm15, little-endian, and writes them sign- or zero-extended; besides xd and the pc it changes only what the
translation, the A bit and a watch match change. The scalar stores (R133): an access that passes the checks of R134 writes
the low n bytes of xs at xa + imm15; the bytes stand little-endian where the access was translated to; every other byte is
as before, but for the page-table entry whose A and D bits are set; no register of the strand changes but the pc. The first
two checks of Table 7-7 on every scalar load and store: a misaligned address raises ALIGN, and an aligned one beyond 56 bits
raises ACCESS, with the address in trval; the access is not performed (R134). The other checks, where the supervisor has no
Landing region at the address: a walk that ends at an entry with V = 0 raises PAGE with a batch of that one granule and the
need of the access; with the leaf found, ACCESS where the leaf does not permit the access at the level of the strand, where A
level writes the queue area, or where the physical address lies in a reserved range, on no device memory that loads and stores
reach (in an arena, by the model's log 20, or in a range removed from service, by its log 49: R29 and R17 do not name the trap),
or in no window that may be used; through an enabled window PORTGONE where no group serves it and it may not wait; HOSTGONE
where one serves it or it would wait and its session is lost, else a stall at the routing stage where it would wait (R134,
R222, R372, R373, R386). Nothing else of the access has happened. -/
def Obligations.ScalarAccessResults : Prop :=
  (∀ r ∈ ([(.ld8, 1, true), (.ld16, 2, true), (.ld32, 4, true), (.ld64, 8, true), (.ldn8, 1, false), (.ldn16, 2, false),
       (.ldn32, 4, false)] : List ((RRI → Instr) × Nat × Bool)),
     ∀ (o : RRI) (s t : State) (x : Xlat), s.cur.lateStop = none →
       let ea := s.getX o.a + o.imm.signExtend 64
       let n := r.2.1
       s.access ea n .load = (.ok x, t) →
       let v := s.readPlace x.place n
       exec (r.1 o) s = .next (((t.touch t.cur.via x .load).noteWatch ea.toNat n true false).withResult o.d
         (if r.2.2 ∧ 2 ^ (8 * n - 1) ≤ v then BitVec.ofInt 64 ((v : Int) - 2 ^ (8 * n)) else BitVec.ofNat 64 v) 4)) ∧
  (∀ r ∈ ([(.st8, 1), (.st16, 2), (.st32, 4), (.st64, 8)] : List ((RRI → Instr) × Nat)),
     ∀ (o : RRI) (s t : State) (x : Xlat), s.cur.lateStop = none →
       let ea := s.getX o.a + o.imm.signExtend 64
       let n := r.2
       s.access ea n .store = (.ok x, t) →
       ∃ u, exec (r.1 o) s = .next u ∧
         u.readPlace x.place n = (s.getX o.d).toNat % 2 ^ (8 * n) ∧
         (∀ q : Place, (q.host ≠ x.place.host ∨ q.addr < x.place.addr ∨ x.place.addr + n ≤ q.addr) →
           (q.host = true ∨ x.spares q.addr 1) → u.readPlace q 1 = s.readPlace q 1) ∧
         u.cur.x = s.cur.x ∧ u.cur.pc = s.cur.pc + 4 ∧ u.cur.vec = s.cur.vec ∧ u.others = s.others ∧ u.larder = s.larder) ∧
  (∀ r ∈ ([(.ld8, 1), (.ld16, 2), (.ld32, 4), (.ld64, 8), (.ldn8, 1), (.ldn16, 2), (.ldn32, 4), (.st8, 1), (.st16, 2),
       (.st32, 4), (.st64, 8)] : List ((RRI → Instr) × Nat)),
     ∀ (o : RRI) (s : State),
       let ea := s.getX o.a + o.imm.signExtend 64
       (ea.toNat % r.2 ≠ 0 → exec (r.1 o) s = .next (s.trap .align ea)) ∧
       (ea.toNat % r.2 = 0 → 2 ^ 56 ≤ ea.toNat → exec (r.1 o) s = .next (s.trap .access ea))) ∧
  (∀ r ∈ ([(.ld8, 1, .load), (.ld16, 2, .load), (.ld32, 4, .load), (.ld64, 8, .load), (.ldn8, 1, .load), (.ldn16, 2, .load),
       (.ldn32, 4, .load), (.st8, 1, .store), (.st16, 2, .store), (.st32, 4, .store), (.st64, 8, .store)] :
       List ((RRI → Instr) × Nat × Need)),
     ∀ (o : RRI) (s : State) (p : Partition),
       let xa := s.getX o.a + o.imm.signExtend 64
       let ea := xa.toNat
       let need := r.2.2
       let traps := fun (c : Cause) (t : State) => exec (r.1 o) s = .next (t.takeTrap {
         cause := c, rk := 0, slot := s.cur.slot, tpc := s.cur.pc - 8 * s.cur.slot.setWidth 64, tval := xa
         pages := if c = .page then [(ea / 65536 * 65536, need)] else [] })
       ea % r.2.1 = 0 → ea < 2 ^ 56 → s.partition? s.cur.part = some p → s.landingAt s.cur.part ea = none →
         (s.cached s.cur.via ea = none → walk s.mem s.tableOk p.root ea = .error .page → traps .page s) ∧
         ∀ (l : Leaf) (t : State), s.findLeaf s.cur.via ea = (.ok l, t) →
           let pa := pteFrame l.word + (ea - l.base)
           (leafPermits l.word s.cur.level need = false ∨ queueAreaDenied (some p) s.cur.level need ea = true →
             traps .access t) ∧
           (leafPermits l.word s.cur.level need = true → queueAreaDenied (some p) s.cur.level need ea = false →
             (rangeOf pa = .reserved ∨ (rangeOf pa = .gddr ∧ s.memoryOk pa = false) → traps .access t) ∧
             (rangeOf pa ∈ [Range.cxl, .peer, .host] →
               ((∀ w, p.windowAt ea pa = some w → w.bounce = true ∨ w.en = false) → traps .access t) ∧
               ∀ w, p.windowAt ea pa = some w → w.bounce = false → w.en = true →
                 let gs := (routeGroups w (pa - w.pa)).filterMap s.group?
                 let served := gs.any fun g => groupServes g w.kind
                 let waits := !w.rm && gs.any groupSwitching
                 (served = false → waits = false → traps .portgone t) ∧
                 (served = false → waits = true → w.revoked = false →
                   exec (r.1 o) s = .next { t with cur := { t.cur with run := .routeStall } }) ∧
                 ((served = true ∨ waits = true) → w.revoked = true → traps .hostgone t))))

/-- A four-level walk (R219 to R221): three table entries lead to a 64 KiB leaf of the fourth level; the walk finds it
wherever the four tables stand in memory that may hold tables. -/
def Obligations.FourLevelWalkFindsLeaf : Prop :=
  ∀ (m : Memory) (ok : Nat → Bool) (root va : Nat) (e1 e2 e3 e4 : Word),
    let at_ := fun (table level : Nat) => table + 8 * (va / 2 ^ (16 + 10 * (4 - level)) % 1024)
    let link := fun (e : Word) => pteV e && pteT e && pteReservedOk e && decide (pteSz e = 0)
    m.readLE (at_ root 1) 8 = e1.toNat → m.readLE (at_ (pteNext e1) 2) 8 = e2.toNat →
    m.readLE (at_ (pteNext e2) 3) 8 = e3.toNat → m.readLE (at_ (pteNext e3) 4) 8 = e4.toNat →
    ok root = true → ok (pteNext e1) = true → ok (pteNext e2) = true → ok (pteNext e3) = true →
    link e1 = true → link e2 = true → link e3 = true →
    pteV e4 = true → pteT e4 = false → pteReservedOk e4 = true → pteSz e4 = 0 → pteTlo e4 = 0 →
      walk m ok root va = .ok { entry := at_ (pteNext e3) 4, word := e4, base := va / 65536 * 65536, size := 16 }

/-! ### Scalar floating point -/

/-- The scalar floating-point parcels (R139, R141 to R145): the operands are the low bits of the registers, the result is
written zero-extended (x0 discards it, R126), its flags are added to fflags, the next parcel follows, nothing else changes;
the arithmetic is rounded once in the mode of frm. The NaN rule of R142 for the scalar formats: an arithmetic function with
a NaN operand produces the canonical quiet NaN of its format, and sets NV alone and only for a signalling operand; zero by
infinity and zero by zero are invalid. -/
def Obligations.ScalarFloatResults : Prop :=
  ((∀ (o : FOp2) (s : State),
     let f := scalarFmt o.fmt
     let a := (s.getX o.a).toNat % 2 ^ f.width
     let b := (s.getX o.b).toNat % 2 ^ f.width
     let m := s.cur.frm
     let cmp := fun (c : FCond) => ({ bits := (fCmp f c a b).1.toNat, flags := (fCmp f c a b).2 } : FRes)
     let sign := fun (n : Bool) => ({ bits := f.signed n (f.mag a), flags := 0 } : FRes)
     exec (.fadd o) s = .next (s.withFloat o.d (f.deliver m ((f.value a).add m (f.value b)))) ∧
     exec (.fsub o) s = .next (s.withFloat o.d (f.deliver m ((f.value a).add m (f.value b).negate))) ∧
     exec (.fmul o) s = .next (s.withFloat o.d (f.deliver m ((f.value a).mul (f.value b)))) ∧
     exec (.fdiv o) s = .next (s.withFloat o.d (fDiv f m a b)) ∧
     exec (.fmin o) s = .next (s.withFloat o.d (fMin f a b)) ∧
     exec (.fmax o) s = .next (s.withFloat o.d (fMax f a b)) ∧
     exec (.feq o) s = .next (s.withFloat o.d (cmp .eq)) ∧
     exec (.flt o) s = .next (s.withFloat o.d (cmp .lt)) ∧
     exec (.fle o) s = .next (s.withFloat o.d (cmp .le)) ∧
     exec (.fsgnj o) s = .next (s.withFloat o.d (sign (f.neg b))) ∧
     exec (.fsgnjn o) s = .next (s.withFloat o.d (sign (!f.neg b)))) ∧
   (∀ (o : FOp1) (s : State),
     let f := scalarFmt o.fmt
     let a := (s.getX o.a).toNat % 2 ^ f.width
     exec (.fsqrt o) s = .next (s.withFloat o.d (fSqrt f s.cur.frm a)) ∧
     exec (.fclass o) s = .next (s.withFloat o.d { bits := fClass f a, flags := 0 })) ∧
   (∀ (o : FCvtInt) (s : State),
     let f := scalarFmt o.fmt
     exec (.fcvtfi o) s = .next (s.withFloat o.d (fCvtToInt f o.ty s.cur.frm ((s.getX o.a).toNat % 2 ^ f.width))) ∧
     exec (.fcvtif o) s = .next (s.withFloat o.d (fCvtFromInt f o.ty s.cur.frm (s.getX o.a).toNat))) ∧
   (∀ (o : FCvtFlt) (s : State),
     let g := scalarFmt o.src
     exec (.fcvtff o) s = .next (s.withFloat o.d
       (toFloat (scalarFmt o.dst) s.cur.frm false (g.value ((s.getX o.a).toNat % 2 ^ g.width))))) ∧
   (∀ (o : FOp3) (s : State),
     let f := scalarFmt o.fmt
     let v := fun (r : XReg) => f.value ((s.getX r).toNat % 2 ^ f.width)
     let m := s.cur.frm
     let fused := fun (p z : FVal) => s.withFloat o.d (f.deliver m (p.add m z))
     exec (.fma o) s = .next (fused ((v o.a).mul (v o.b)) (v o.c)) ∧
     exec (.fms o) s = .next (fused ((v o.a).mul (v o.b)) (v o.c).negate) ∧
     exec (.fnma o) s = .next (fused ((v o.a).mul (v o.b)).negate (v o.c)) ∧
     exec (.fnms o) s = .next (fused ((v o.a).mul (v o.b)).negate (v o.c).negate))) ∧
  (∀ (k : FFmt) (m : RMode) (a b : Nat),
     let f := scalarFmt k
     let sig := (f.isNaN a && !f.quiet a) || (f.isNaN b && !f.quiet b)
     let nan := fun (nv : Bool) => ({ bits := f.canon, flags := if nv then 0b10000#5 else 0 } : FRes)
     ((f.isNaN a || f.isNaN b) = true →
       fAdd f m a b = nan sig ∧ fSub f m a b = nan sig ∧ fMul f m a b = nan sig ∧ fDiv f m a b = nan sig) ∧
     (f.isNaN a = true → fSqrt f m a = nan !f.quiet a) ∧
     (f.mag a = 0 → f.mag b = f.infEnc → fMul f m a b = nan true ∧ fMul f m b a = nan true) ∧
     (f.mag a = 0 → f.mag b = 0 → fDiv f m a b = nan true) ∧
     (f.mag a = f.infEnc → f.mag b = f.infEnc → fDiv f m a b = nan true) ∧
     (f.mag a ≠ 0 → f.mag a < f.infEnc → f.mag b = 0 →
       fDiv f m a b = { bits := f.signed (f.neg a != f.neg b) f.infEnc, flags := 0b01000#5 }))

/-- Rounding leaves every value of a scalar format as it is and raises no flag, whatever the mode (R141, R142): subnormal
and signed zero values included. -/
def Obligations.RoundingKeepsFormatValues : Prop :=
  ∀ (k : FFmt) (m : RMode) (a : Nat),
    let f := scalarFmt k
    a < 2 ^ f.width → f.isNaN a = false → f.deliver m (f.value a) = { bits := a, flags := 0 }

/-! ### CSRs -/

/-- The CSR instructions of R148 where the checks of R149 pass: xd receives the old value, the new value is formed from xa,
CSRPUT reads nothing, and the next parcel follows. An access, allowed by PRIV, of a CSR of the vector part by a strand whose
ctxid is not vowner: VOWNER with vowner in trval on a software context, and the Landing's switch to the vector part of the
context, after which the parcel is to issue again, on a task context (R149, R359). -/
def Obligations.CsrInstructionResults : Prop :=
  (∀ (o : CsrGet) (s : State), (csrVector o.csr = true → s.cur.vowner = s.cur.ctxid) →
    let r := s.csrRead o.csr
    exec (.csrget o) s = .next (r.2.withResult o.d r.1 4)) ∧
  (∀ (o : CsrPut) (s : State), mayWrite s.cur.level o.csr = true → (csrVector o.csr = true → s.cur.vowner = s.cur.ctxid) →
    exec (.csrput o) s = .next (s.csrWrite o.csr (s.getX o.a)).next4) ∧
  (∀ (o : CsrRmw) (s : State), mayWrite s.cur.level o.csr = true → (csrVector o.csr = true → s.cur.vowner = s.cur.ctxid) →
    let r := s.csrRead o.csr
    let a := s.getX o.a
    let put := fun (v : Word) => (r.2.csrWrite o.csr v).withResult o.d r.1 4
    exec (.csrswap o) s = .next (put a) ∧
    exec (.csrset o) s = .next (put (r.1 ||| a)) ∧
    exec (.csrclr o) s = .next (put (r.1 &&& ~~~a))) ∧
  (∀ (d a : XReg) (c : Csr) (s : State), csrVector c = true → s.cur.vowner ≠ s.cur.ctxid →
    ∀ i, (i = Instr.csrget { d := d, csr := c } ∨
        (mayWrite s.cur.level c = true ∧ i ∈ [Instr.csrput { csr := c, a := a }, .csrswap { d := d, a := a, csr := c },
          .csrset { d := d, a := a, csr := c }, .csrclr { d := d, a := a, csr := c }])) →
      (s.cur.ctxid.toNat < 0x8000 → exec i s = .next (s.trap .vowner (s.cur.vowner.setWidth 64))) ∧
      (0x8000 ≤ s.cur.ctxid.toNat → ∃ u, exec i s = .next u ∧ u.cur.vowner = s.cur.ctxid ∧
        u.cur.pc = s.cur.pc - 8 * s.cur.slot.setWidth 64 ∧ u.cur.x = s.cur.x ∧ u.cur.trIn = s.cur.trIn ∧ u.mem = s.mem))

/-- What a CSRPUT writes to each CSR that every level may write and that Table 6-3 gives to all of them: the value read back
afterwards, with reserved bits 0; every other CSR reads as before, and nothing else changes but the pc and, for planebase,
that the task counts as a user of the Larder (R215); a value that the CSR does not accept leaves it as it was (R113, R148).
Table 6-3, column of write rights, below F level: A level writes exactly the CSRs listed, S level those and lanegrant,
vowner and ctxid; any other write raises PRIV with the word in trval and changes nothing of the CSR (R113, R149). The writes
inside a CSR write: an accepted lanegrant resets the vector state and gives each granted group a reset slice, an ignored one
changes nothing (R109, R110, R262); ctxid and vowner take any value at F level and else only a software context or the
task's own (R113, R359); pcntsel selects a counter and its event (R393). -/
def Obligations.CsrWriteResults : Prop :=
  ((∀ c : Csr, mayWrite .a c = true ↔
     (c ∈ [Csr.vstart, .vrm, .vsat, .frm, .fflags, .planebase, .trpc, .trvec, .trscratch, .pcntsel] ∨
       (∃ n, c = .watch n ∨ c = .wctl n) ∨ ∃ n, c = .pcnt n)) ∧
   (∀ c : Csr, mayWrite .s c = true ↔ (mayWrite .a c = true ∨ c = .lanegrant ∨ c = .vowner ∨ c = .ctxid)) ∧
   (∀ (o : CsrRmw) (s : State), mayWrite s.cur.level o.csr = false →
     exec (.csrswap o) s = .next (s.trap .priv s.cur.iword) ∧ exec (.csrset o) s = .next (s.trap .priv s.cur.iword) ∧
     exec (.csrclr o) s = .next (s.trap .priv s.cur.iword) ∧
     exec (.csrput { csr := o.csr, a := o.a }) s = .next (s.trap .priv s.cur.iword))) ∧
  (∀ (o : CsrPut) (s : State), (csrVector o.csr = true → s.cur.vowner = s.cur.ctxid) →
     let n := (s.getX o.a).toNat
     let puts := fun (accepted : Bool) (v : Nat) =>
       (accepted = true → ∃ u, exec (.csrput o) s = .next u ∧ (u.csrRead o.csr).1 = BitVec.ofNat 64 v ∧
         (∀ c, c ≠ o.csr → (u.csrRead c).1 = (s.csrRead c).1) ∧ u.cur.pc = s.cur.pc + 4 ∧ u.cur.x = s.cur.x ∧
         u.cur.vec.v = s.cur.vec.v ∧ u.cur.vec.m = s.cur.vec.m ∧ u.cur.queues = s.cur.queues ∧
         u.cur.usedLarder = (s.cur.usedLarder || decide (o.csr = .planebase)) ∧
         u.mem = s.mem ∧ u.hostMem = s.hostMem ∧ u.larder = s.larder ∧ u.others = s.others) ∧
       (accepted = false → exec (.csrput o) s = .next (s.setPc (s.cur.pc + 4)))
     match o.csr with
     | .vstart => puts (n < s.cur.vlmax) n
     | .vrm => puts (n % 8 ≤ 4) (n % 8)
     | .frm => puts (n % 8 ≤ 4) (n % 8)
     | .vsat => puts true (n % 2)
     | .fflags => puts true (n % 32)
     | .planebase => puts (n / 65536 % 4096 ≤ 0xBF0) (n / 65536 % 4096 * 65536)
     | .trpc => puts true n
     | .trscratch => puts true n
     | .trvec => puts (n % 8 = 0) (n % 2 ^ 32)
     | .watch _ => puts true (n % 2 ^ 56)
     | .wctl _ => puts (n / 256 % 16 ≤ 12) (n / 256 % 16 * 256 + (n % 16 - n % 2))
     | .pcnt _ => puts true n
     | _ => True) ∧
  (∀ (v : Word) (s : State),
     let g := v.setWidth 8
     let c := v.setWidth 16
     let own := s.cur.level = .f ∨ c.toNat < 0x8000 ∨ c = s.cur.taskCtx
     (s.cur.vec.mmode = false → grantShape g = true → s.lanesHeld g = false → g ≠ s.cur.lanegrant →
       ∃ t, exec (.lanegrantWrite v) s = .next t ∧ t.cur.lanegrant = g ∧ t.cur.vec.vl = 0 ∧ t.cur.vec.vstart = 0 ∧
         t.cur.vec.v = [] ∧ t.cur.vec.slices = List.replicate (laneCount g) .reset ∧
         (∀ i : Fin 8, t.cur.vec.streams[i].bound = none) ∧ t.cur.x = s.cur.x ∧ t.mem = s.mem ∧ t.others = s.others) ∧
     (s.cur.vec.mmode = true ∨ grantShape g = false ∨ s.lanesHeld g = true → exec (.lanegrantWrite v) s = .next s) ∧
     (own → exec (.ctxidWrite v) s = .next { s with cur := { s.cur with ctxid := c } }) ∧
     (¬own → exec (.ctxidWrite v) s = .next s) ∧
     (own → ∃ k, exec (.vownerWrite v) s = .next { s with saved := k, cur := { s.cur with vowner := c } }) ∧
     (¬own → exec (.vownerWrite v) s = .next s) ∧
     (v.toNat / 256 % 256 ≤ 0x0F → ∃ t, exec (.pcntselWrite v) s = .next t ∧ t.coreOf.idx = v.setWidth 4 ∧
       t.coreOf.events[(v.setWidth 4 : BitVec 4).toNat] = (v >>> 8).setWidth 8 ∧ t.cur = s.cur ∧ t.mem = s.mem) ∧
     (0x0F < v.toNat / 256 % 256 → exec (.pcntselWrite v) s = .next s))

/-! ### Atomics, CLAIM and fences -/

/-- The AMOs on device, CXL and peer memory (R318), with no late error pending: the old value is read and the new one written at one place, and xd
receives the old value, sign-extended at 32 bits; CAS writes only where the old value equals xd; every other byte of that
memory is as before, but for the page-table entry whose A and D bits are set. AMOs toward a host window (R384): FetchAdd,
Swap and CAS go as AtomicOps and the strand waits; the others go by the proxy where the window allows it, and else raise
HOSTATOM; what was sent is kept for the completion, and no xd is written yet. -/
def Obligations.AmoResults : Prop :=
  (∀ r ∈ ([(.amoAdd, fun w a b _ => (a + b) % 2 ^ w), (.amoSwap, fun _ _ b _ => b), (.amoAnd, fun _ a b _ => a &&& b),
       (.amoOr, fun _ a b _ => a ||| b), (.amoXor, fun _ a b _ => a ^^^ b),
       (.amoMin, fun w a b _ => if (BitVec.ofNat w a).toInt ≤ (BitVec.ofNat w b).toInt then a else b),
       (.amoMax, fun w a b _ => if (BitVec.ofNat w b).toInt ≤ (BitVec.ofNat w a).toInt then a else b),
       (.amoMinn, fun _ a b _ => min a b), (.amoMaxn, fun _ a b _ => max a b),
       (.amoCas, fun _ a b c => if a = c then b else a)] : List ((AmoOp → Instr) × (Nat → Nat → Nat → Nat → Nat))),
     ∀ (o : AmoOp) (s t : State) (x : Xlat), s.cur.lateStop = none →
       let n := if o.w32 then 4 else 8
       let low := fun (v : Word) => v.toNat % 2 ^ (8 * n)
       s.access (s.getX o.a) n .amo = (.ok x, t) → x.place.host = false → x.spares x.place.addr n →
       let old := s.readPlace x.place n
       ∃ u, exec (r.1 o) s = .next u ∧
         u.readPlace x.place n = r.2 (8 * n) old (low (s.getX o.b)) (low (s.getX o.d)) ∧
         (∀ a, a < x.place.addr ∨ x.place.addr + n ≤ a → x.spares a 1 → Memory.read u.mem a = Memory.read s.mem a) ∧
         u.cur.x = (if o.d = 0 then s.cur.x else s.cur.x.set o.d.toNat
           (if o.w32 ∧ 2 ^ 31 ≤ old then BitVec.ofInt 64 ((old : Int) - 2 ^ 32) else BitVec.ofNat 64 old)) ∧
         u.cur.pc = s.cur.pc + 4 ∧ u.others = s.others ∧ u.hostMem = s.hostMem ∧ u.cur.vec = s.cur.vec) ∧
  (∀ (o : AmoOp) (s t : State) (x : Xlat) (w : Window),
     s.access (s.getX o.a) (if o.w32 then 4 else 8) .amo = (.ok x, t) → x.place.host = true → x.win = some w →
     let n := if o.w32 then 4 else 8
     let sent := fun (f : AmoFlight) => f.n = n ∧ f.va = s.getX o.a ∧ f.b = (s.getX o.b).toNat % 2 ^ (8 * n) ∧
       f.c = (s.getX o.d).toNat % 2 ^ (8 * n) ∧ f.d = o.d ∧ f.addr = x.place.addr ∧ f.session = w.session ∧ f.fb = w.fb ∧
       f.groups = w.groups ∧ f.gen = s.cur.gen
     (∀ i ∈ [(Instr.amoAdd o, 0), (.amoSwap o, 1), (.amoCas o, 9)], ∃ f, sent f ∧ f.op = i.2 ∧
       exec i.1 s = .next { t with free := t.free + 1, cur := { t.cur with run := .atomicWait, amo := some f } }) ∧
     (∀ i ∈ [(Instr.amoAnd o, 2), (.amoOr o, 3), (.amoXor o, 4), (.amoMin o, 5), (.amoMax o, 6), (.amoMinn o, 7), (.amoMaxn o, 8)],
       (w.fb = true → ∃ f m, sent f ∧ f.op = i.2 ∧ m.session = w.session ∧ m.type = 5 ∧ m.verb = 0x20 ∧
         m.payload.take 2 = [BitVec.ofNat 8 i.2, BitVec.ofNat 8 n] ∧
         m.payload.drop 8 = leBytes 8 x.place.addr ++ leBytes 8 f.b ++ leBytes 8 0 ∧
         exec i.1 s = .next { t with free := t.free + 1, outbox := t.outbox ++ [m]
                                     cur := { t.cur with run := .proxyWait, amo := some f } }) ∧
       (w.fb = false → exec i.1 s = .next (({ t with
         free := t.free + 1, cur := { t.cur with run := .running, amo := none } } : State).trap .hostatom (s.getX o.a)))))

/-- CLAIM (R321, R322) on GDDR in vector mode by the owner, with no late error pending: xd receives the counter, vl the count of elements claimed, which
is the least of xb, vlmax and what is left below the limit word, and the counter moves on by it; in matrix mode CLAIM raises
MODE, and by a strand that is not the owner, on a software context, VOWNER with trval 0. FENCE and CACHE (R324, R355): without E a fence only advances the pc, in this model's one order of accesses (log 4),
and so does one with E where every queue command is performed; else the strand waits until they are, and then the fence
retires. CACHE advances the pc. -/
def Obligations.ClaimFenceCacheResults : Prop :=
  (∀ (o : RRR) (s t : State) (x : Xlat),
     (s.cur.vec.mmode = true → exec (.claim o) s = .next (s.trap .mode 0)) ∧
     (s.cur.vec.mmode = false → s.cur.vowner ≠ s.cur.ctxid → s.cur.ctxid.toNat < 0x8000 →
       exec (.claim o) s = .next (s.trap .vowner 0)) ∧
     (s.cur.vec.mmode = false → s.cur.vowner = s.cur.ctxid → s.cur.lateStop = none →
       s.access (s.getX o.a) 16 .amo = (.ok x, t) → x.place.host = false → rangeOf x.place.addr = .gddr →
       let next := s.readPlace x.place 8
       let limit := s.readPlace { x.place with addr := x.place.addr + 8 } 8
       let g := min (s.getX o.b).toNat (min s.cur.vlmax (limit - next))
       ∃ u, exec (.claim o) s = .next u ∧ u.cur.vec = { s.cur.vec with vl := g, vstart := 0 } ∧
         u.readPlace x.place 8 = (next + g) % 2 ^ 64 ∧
         u.cur.x = (if o.d = 0 then s.cur.x else s.cur.x.set o.d.toNat (BitVec.ofNat 64 next)) ∧
         u.cur.pc = s.cur.pc + 4 ∧ u.others = s.others)) ∧
  ((∀ (o : FenceOp) (s : State),
     ((o.e = false ∨ s.cur.commandsDone = true) → exec (.fence o) s = .next (s.setPc (s.cur.pc + 4))) ∧
     (o.e = true → s.cur.commandsDone = false → exec (.fence o) s = .next { s with cur := { s.cur with run := .fenceE } })) ∧
   (∀ s : State, s.cur.run = .fenceE →
     (s.cur.commandsDone = false → exec (.fenceEWaitDone s.cur.id) s = .next s) ∧
     (s.cur.commandsDone = true → s.cur.conv.watch = none →
       ∃ k, exec (.fenceEWaitDone s.cur.id) s =
         .next { s with cores := k, cur := { s.cur with run := .running, pc := s.cur.pc + 4, age := s.cur.age + 1 } })) ∧
   (∀ (o : CacheOp) (s : State), exec (.cache o) s = .next (s.setPc (s.cur.pc + 4))))

/-! ### Traps and system parcels -/

/-- Taking a trap (R337): for SYSCALL, EBREAK and a word that decodes to nothing, below F level with trstat.IN 0, what is
saved, the new level, and the handler's address; no register of the task changes. A trap while trstat.IN is 1 (R341, R342),
of a task that has not restarted: the handler starts again on the escalation stack, the saved registers keep the first trap,
and the supervisor's queue receives an event of kind 2 with both. The stack's address, 0x3000 above the strand's Landing
region, is the model's (log 5): R342 leaves it to the Landing. -/
def Obligations.TrapEntryResults : Prop :=
  (∀ s : State, s.cur.level ≠ .f → s.cur.trIn = false →
     let first := s.cur.pc - 8 * s.cur.slot.setWidth 64
     (∃ t, exec .syscall s = .next t ∧ s.Entered t first s.cur.slot .syscall 0 0) ∧
     (∃ t, exec .ebreak s = .next t ∧ s.Entered t first s.cur.slot .ebreak 0 0) ∧
     (∀ w, ∃ t, exec (.illegalWord w) s = .next t ∧ s.Entered t first s.cur.slot .illegal 0 w)) ∧
  (∀ (s : State) (p : Partition), s.cur.level ≠ .f → s.cur.trIn = true → s.cur.restarted = false →
     s.partition? s.cur.part = some p → p.events.length < 64 →
     ∃ t e, exec .ebreak s = .next t ∧ t.cur.pc = s.cur.arenabase + s.cur.trvec.setWidth 64 ∧
       t.cur.x = s.cur.x.set 2 (BitVec.ofNat 64 (landingVA s.cur.id + 0x3000)) ∧ t.cur.trpc = s.cur.trpc ∧
       t.cur.trval = s.cur.trval ∧ t.cur.trCode = s.cur.trCode ∧ t.cur.trIn = true ∧
       (t.partition? s.cur.part).map (·.events) = some (p.events ++ [e]) ∧ e.kind = 2 ∧ e.b = s.cur.trpc ∧
       e.c.toNat / 2 ^ 56 = 0x11 ∧ e.c.toNat % 2 ^ 56 = s.cur.trval.toNat % 2 ^ 56)

/-- The privileged parcels (R348, R347, R353, R354): at A level each raises PRIV with the parcel in trval, and does nothing
else. TRACK clears trstat.IN and nothing else (R348). RESUME of an entry that does not exist or is settled answers 1; zero and
propagate settle an unsettled entry and answer 0: a scalar load's register or an AMO's xd becomes zero, each failed element
of a vector load becomes zero, a store is discarded, and propagate besides sends an event of kind 4 that carries the entry;
replay of an AMO that was performed answers 3 and does nothing, and replay of a scalar load or store of one access answers 0
with the access done and the entry settled, or 2 with the entry unsettled (R347); replay of one update of a VSCADD adds its
value to what the place holds (R242, R347); of memory only the image of the scoreboard changes besides. That a replay is made
at the level of the trap is the model's reading (log 42), and the image's address, 0x1000 above the strand's Landing region,
its choice (log 5). INVTLB drops the partition's cached translations of one address or all, and with them the leaves there that
its strands' streams hold (R354). -/
def Obligations.SupervisorParcelResults : Prop :=
  (∀ s : State, s.cur.level = .a →
     exec .trapret s = .next (s.trap .priv s.cur.iword) ∧
     (∀ o, exec (.resume o) s = .next (s.trap .priv s.cur.iword)) ∧
     (∀ o, exec (.waitev o) s = .next (s.trap .priv s.cur.iword)) ∧
     (∀ o, exec (.invtlb o) s = .next (s.trap .priv s.cur.iword))) ∧
  ((∀ s : State, exec .track s = .next { s with cur := { s.cur with trIn := false, pc := s.cur.pc + 4 } }) ∧
   (∀ (o : ResumeOp) (s : State), s.cur.level ≠ .a →
     (s.cur.board[(s.getX o.a).toNat]?.map (·.settled)).getD true = true →
     exec (.resume o) s = .next (s.withResult o.d 1 4)) ∧
   (∀ (o : ResumeOp) (s : State) (e : SbEntry), s.cur.level ≠ .a → s.cur.board[(s.getX o.a).toNat]? = some e →
     e.settled = false →
     let settles := fun (t : State) (done : Bool) => t.cur.board.map (·.settled) =
         (s.cur.board.map (·.settled)).set (s.getX o.a).toNat done ∧ t.cur.pc = s.cur.pc + 4 ∧ t.cur.level = s.cur.level
     let image := landingPA s.cur.id + 0x1000
     let inImage := fun a => image ≤ a ∧ a < image + 32 * (s.cur.board.length + 1)
     (o.how ≠ .replay → ∃ t, exec (.resume o) s = .next t ∧ settles t true ∧
       (e.kind = 1 ∨ (e.kind = 0 ∧ e.vector = true) → t.cur.x = (s.cur.setX o.d 0).x) ∧
       (e.kind = 1 → t.cur.vec = s.cur.vec) ∧
       (e.kind = 2 ∨ (e.kind = 0 ∧ e.vector = false ∧ e.elems ≠ []) →
         t.cur.x = ((s.cur.setX (e.reg.setWidth 5) 0).setX o.d 0).x ∧ t.cur.vec = s.cur.vec) ∧
       (e.kind = 0 → e.vector = true →
         ∀ y ∈ e.elems, t.cur.elem (sbReg e s.cur y) (sbBits e) (y.index % 16384) = 0) ∧
       (∀ a, ¬inImage a → Memory.read t.mem a = Memory.read s.mem a) ∧ t.hostMem = s.hostMem ∧
       (o.how = .zero → t.parts = s.parts) ∧
       (o.how = .propagate → ∀ p, s.partition? s.cur.part = some p → p.events.length < 64 →
         ∃ v : EventRec, (t.partition? s.cur.part).map (·.events) = some (p.events ++ [v]) ∧ v.kind = 4 ∧
           v.subj = BitVec.ofNat 16 s.cur.taskNo ∧ v.ctx = s.cur.taskCtx ∧ v.b = e.addr ∧
           v.c = BitVec.ofNat 64 (e.first % 2 ^ 32 + e.nfail % 2 ^ 32 * 2 ^ 32))) ∧
     (o.how = .replay → e.kind = 2 → e.perf = true → exec (.resume o) s = .next (s.withResult o.d 3 4)) ∧
     (o.how = .replay → e.kind = 1 → e.amo = 14 → e.ew.toNat < 4 → ∀ y, e.elems = [y] →
       let n := 2 ^ e.ew.toNat
       let at_ : State := { s with cur := { s.cur with level := s.cur.trLvl } }
       ∀ p u, at_.access y.addr n .store = (.ok p, u) →
         (p.place.host = true ∨ ∀ a, p.place.addr ≤ a → a < p.place.addr + n → ¬inImage a) →
         ∃ t, exec (.resume o) s = .next t ∧ settles t true ∧ t.cur.x = (s.cur.setX o.d 0).x ∧
           t.readPlace p.place n = (s.readPlace p.place n + y.value.toNat) % 2 ^ (8 * n)) ∧
     (o.how = .replay → e.kind = 0 ∨ (e.kind = 1 ∧ e.amo ≠ 14) → e.vector = false → e.ew.toNat < 4 → ∀ y, e.elems = [y] →
       let n := 2 ^ e.ew.toNat
       let at_ : State := { s with cur := { s.cur with level := s.cur.trLvl } }
       (∀ p u, e.kind = 0 → at_.access y.addr n .load = (.ok p, u) →
         let b := u.readPlace p.place n
         let v := if e.sx ∧ 2 ^ (8 * n - 1) ≤ b then BitVec.ofInt 64 ((b : Int) - 2 ^ (8 * n)) else BitVec.ofNat 64 b
         ∃ t, exec (.resume o) s = .next t ∧ settles t true ∧
           t.cur.x = ((s.cur.setX (e.reg.setWidth 5) v).setX o.d 0).x) ∧
       (∀ p u, e.kind = 1 → at_.access y.addr n .store = (.ok p, u) →
         (p.place.host = true ∨ ∀ a, p.place.addr ≤ a → a < p.place.addr + n → ¬inImage a) →
         ∃ t, exec (.resume o) s = .next t ∧ settles t true ∧ t.cur.x = (s.cur.setX o.d 0).x ∧
           t.readPlace p.place n = y.value.toNat % 2 ^ (8 * n)) ∧
       (∀ c u, at_.access y.addr n (if e.kind = 0 then .load else .store) = (.error (.trap c), u) →
         ∃ t, exec (.resume o) s = .next t ∧ settles t false ∧ t.cur.x = (s.cur.setX o.d 2).x))) ∧
   (∀ (o : InvtlbOp) (s : State), s.cur.level ≠ .a →
     let names := fun (base size : Nat) => o.all = true ∨ (base ≤ (s.getX o.a).toNat ∧ (s.getX o.a).toNat < base + 2 ^ size)
     ∃ u, exec (.invtlb o) s = .next u ∧
       (∀ e, e ∈ u.tlb ↔ e ∈ s.tlb ∧ ¬(e.part = s.cur.part ∧ names e.base e.size)) ∧
       u.cur.x = s.cur.x ∧ u.cur.pc = s.cur.pc + 4 ∧ u.cur.vec.v = s.cur.vec.v ∧ u.cur.queues = s.cur.queues ∧
       (∀ i : Fin 8, ∃ ls, u.cur.vec.streams[i] = { s.cur.vec.streams[i] with leaves := ls } ∧
         ∀ y, y ∈ ls ↔ y ∈ s.cur.vec.streams[i].leaves ∧ ¬names y.2.base y.2.size) ∧
       (∀ c ∈ u.strands ++ u.parked, c.part = s.cur.part → ∀ i : Fin 8, ∀ y ∈ c.vec.streams[i].leaves,
         ¬names y.2.base y.2.size) ∧
       u.mem = s.mem ∧ u.hostMem = s.hostMem ∧ u.larder = s.larder ∧ u.parts = s.parts))

/-- TRAPRET (R348) above A level, with no late error to settle: a resume word with a reserved field set raises ILLEGAL with
it; RK 0 returns to trpc; RK 1 and 2 return to the word of SLOT, to be issued under mf or from vstart; RK 3 returns past the
parcel at trpc, or past the word of SLOT to the rest of its convoy, where only the retirement is left if that word was the
last; the level is LVL's and IN is 0. A convoy that had stopped there goes on with what it carried (R227, R344). That it is
known again by trpc and SLOT, and that one issued again before a trap of RK 0 begins again as it did, is the model's choice
(log 22): R348 says only that RK 0 restarts at trpc. -/
def Obligations.TrapretReturns : Prop :=
  ∀ s : State, s.cur.level ≠ .a → s.cur.board = [] → s.cur.lateHeld = [] →
    (resumeWord s.cur.trscratch = none → exec .trapret s = .next (s.trap .illegal s.cur.trscratch)) ∧
    (∀ lvl slot rk, resumeWord s.cur.trscratch = some (lvl, slot, rk) →
      ∃ t, exec .trapret s = .next t ∧ t.cur.trIn = false ∧ t.cur.level = lvl ∧ t.cur.x = s.cur.x ∧
        t.cur.vec = s.cur.vec ∧ t.mem = s.mem ∧ t.others = s.others ∧
        let word := s.cur.trpc + 8 * slot.setWidth 64
        let stopped := s.cur.suspended.find? fun y => y.pc = s.cur.trpc && y.slot = slot
        (rk = 0 → (∀ y, stopped = some y → y.how = .none) →
          t.cur.pc = s.cur.trpc ∧ t.cur.reissue = .none ∧ t.cur.conv = .none) ∧
        (rk = 0 → ∀ y, stopped = some y → y.how ≠ .none →
          t.cur.pc = (if y.how = .retire then s.cur.trpc + 8 else s.cur.trpc) ∧ t.cur.reissue = y.how ∧ t.cur.conv = y.ctx) ∧
        (rk = 1 → t.cur.pc = word ∧ t.cur.reissue = .underMf) ∧
        (rk = 2 → t.cur.pc = word ∧ t.cur.reissue = .fromVstart) ∧
        (rk = 3 → isWide (s.codeWord s.cur.trpc) = false → t.cur.pc = s.cur.trpc + 4 ∧ t.cur.reissue = .parcel) ∧
        (rk = 3 → isWide (s.codeWord s.cur.trpc) = true → t.cur.pc = word + 8 ∧
          t.cur.reissue = if lastBit (s.codeWord word) then .retire else .rest) ∧
        (rk ≠ 0 → t.cur.conv = (stopped.map (·.ctx)).getD .none))

/-- YIELD (R358): the supervisor context and a strand with no task go on, and so does one with an unsettled scoreboard entry
(R356); another task's gang is pre-empted where a PREEMPT of it is outstanding or another gang of the partition waits for
strands at the same or a higher effective level: the strand stops behind the YIELD and every other strand of the gang has
stopped or is asked to; where neither holds, YIELD goes on. HALT (R352): what halted queues hold is cancelled; while a queue
that has not halted holds a command that is no fence the strand waits; else the strand halts with its generation moved on
(R364), its commands gone and its registers as they were, and its task is counted as ended in its launch; where that was the
last strand that a pre-emption of its gang waited for, its strand is free at once (R99, R103), and so it is where its launch has
ended already (R363). That a halted strand keeps its task until its launch retires or its gang leaves its strands is the model's
reading (log 46). -/
def Obligations.YieldAndHaltResults : Prop :=
  (∀ s : State, (∀ l, (s.cur.task.bind fun x => s.launch? x.1) = some l → l.sup = true) →
    exec .yield s = .next (s.setPc (s.cur.pc + 4))) ∧
  (∀ (s : State) (l : Launch) (k : Nat), s.cur.task = some (l.lid, k) → s.launch? l.lid = some l → l.sup = false →
    let asked := s.gangAsked l.lid
    let waits := s.launches.any fun y => decide (y.lid ≠ l.lid) && decide (y.queue.part = l.queue.part) &&
      (decide (y.state = .waiting) || decide (y.state = .preempted)) && decide (s.levelOf y.queue ≤ s.levelOf l.queue)
    (s.cur.unsettled = true ∨ (asked = false ∧ waits = false) → exec .yield s = .next (s.setPc (s.cur.pc + 4))) ∧
    (s.cur.unsettled = false → asked = true ∨ waits = true →
      ∃ u, exec .yield s = .next u ∧ u.mem = s.mem ∧ u.hostMem = s.hostMem ∧
        (∃ c ∈ u.cur :: u.parked, c.run = .preempted ∧ c.task = some (l.lid, k) ∧ c.pc = s.cur.pc + 4 ∧ c.x = s.cur.x ∧
          c.vec = s.cur.vec) ∧
        ∀ c ∈ u.strands, c.ofLaunch l.lid = true → c.run = .halted ∨ c.run = .preempted ∨ c.preempt ≠ .none)) ∧
  (∀ s : State, (∃ i : Fin 4, s.cur.queues[i].halted = false ∧ ∃ e ∈ s.cur.queues[i].entries, ∀ n js, e.cmd ≠ .fence n js) →
    ∃ q : Vector EngineQueue 4, exec .halt s = .next { s with cur := { s.cur with run := .haltWait, queues := q } } ∧
      ∀ i : Fin 4, (s.cur.queues[i].halted = true → q[i] = { s.cur.queues[i] with entries := [] }) ∧
        ∀ e ∈ s.cur.queues[i].entries, s.cur.queues[i].halted = false → (∀ n js, e.cmd ≠ .fence n js) → e ∈ q[i].entries) ∧
  (∀ (s : State) (k : Nat × Nat), s.cur.commandsDone = true → s.cur.task = some k → s.cur.board = [] → s.cur.lateHeld = [] →
    s.cur.preempt = .ending →
    ∃ u, exec .halt s = .next u ∧ u.cur.run = .idle ∧ u.cur.task = none ∧ u.cur.gen = s.cur.gen + 1 ∧ u.cur.x = s.cur.x ∧
      u.cur.vec = s.cur.vec ∧ ∀ i : Fin 4, u.cur.queues[i].entries = []) ∧
  (∀ (s : State) (l : Launch) (k : Nat), s.cur.commandsDone = true → s.cur.task = some (l.lid, k) →
    s.launch? l.lid = some l → s.cur.board = [] → s.cur.lateHeld = [] → s.cur.preempt ≠ .ending →
    let others := s.others.filter fun c => c.ofLaunch l.lid
    ∃ u, exec .halt s = .next u ∧ (u.launch? l.lid).map (·.halted) = some (l.halted + 1) ∧ u.cur.gen = s.cur.gen + 1 ∧
      (∀ i : Fin 4, u.cur.queues[i].entries = []) ∧ u.cur.x = s.cur.x ∧ u.cur.vec = s.cur.vec ∧ u.mem = s.mem ∧
      u.hostMem = s.hostMem ∧
      ((∀ c ∈ others, c.run ≠ .preempted) → u.cur.run = .halted ∧ u.cur.task = some (l.lid, k) ∧ u.others = s.others) ∧
      ((∀ c ∈ others, c.run = .preempted ∨ c.run = .halted) → (∃ c ∈ others, c.run = .preempted) →
        u.cur.run = .idle ∧ u.cur.task = none)) ∧
  (∀ s : State, s.cur.commandsDone = true → s.cur.task = none → s.cur.board = [] → s.cur.lateHeld = [] →
    ∃ t, exec .halt s = .next t ∧ t.cur.run = .halted ∧ t.cur.gen = s.cur.gen + 1 ∧
      (∀ i : Fin 4, t.cur.queues[i].entries = []) ∧ t.cur.x = s.cur.x ∧ t.mem = s.mem ∧ t.others = s.others)

/-- WAITEV above A level (R353): with no event queued, a zero timeout answers 0 at once and another one makes the strand
wait; the timeout of a waiting strand answers 0, unless it is all ones; while no event is queued a wake changes nothing.
WAITEV and its wake with an event queued, where the four stores of a record at xb pass their checks (R353): the oldest
record leaves the queue, LOST is 0 again, xd receives its kind, and the strand goes on; the record stands at xb with the
count of the events lost so far, at most 255, in bits 15 to 8 (Table 18-9), where the four words and the page-table entries
touched for them do not overlap. -/
def Obligations.WaitevResults : Prop :=
  (∀ (s : State) (p : Partition), s.partition? s.cur.part = some p → p.events = [] →
     (∀ o : RRR, s.cur.level ≠ .a → s.getX o.a = 0 → exec (.waitev o) s = .next (s.withResult o.d 0 4)) ∧
     (∀ o : RRR, s.cur.level ≠ .a → s.getX o.a ≠ 0 →
       exec (.waitev o) s = .next { s with cur := { s.cur with run := .waitev } }) ∧
     (s.cur.run = .waitev → exec (.waitevWake s.cur.id) s = .next s) ∧
     (s.cur.run = .waitev → s.getX s.cur.parcelA ≠ BitVec.allOnes 64 → s.cur.conv.watch = none →
       ∃ t, exec (.waitevTimeout s.cur.id) s = .next t ∧ t.cur.run = .running ∧ t.cur.pc = s.cur.pc + 4 ∧
         t.cur.x = (if s.cur.parcelD = 0 then s.cur.x else s.cur.x.set s.cur.parcelD.toNat 0))) ∧
  (∀ (s t : State) (p : Partition) (e : EventRec) (es : List EventRec), s.partition? s.cur.part = some p →
     p.events = e :: es →
     let stored := fun (u : State) (ps : List (Word × Xlat)) =>
       (u.partition? s.cur.part).map (fun q => (q.events, q.lost)) = some (es, 0) ∧
       ∀ y ∈ ps.zip [e.kind.toNat + 256 * min p.lost 255 + 65536 * e.subj.toNat + 2 ^ 32 * e.ctx.toNat, e.a.toNat, e.b.toNat,
           e.c.toNat],
         (∀ z ∈ ps, z ≠ y.1 → y.1.2.place.apart 8 z.2.place 8) →
         (y.1.2.place.host = true ∨ ∀ z ∈ ps, z.2.spares y.1.2.place.addr 8) → u.readPlace y.1.2.place 8 = y.2
     (∀ (o : RRR) (ps : List (Word × Xlat)), s.cur.level ≠ .a → s.recordPlaces (s.getX o.b) [0, 1, 2, 3] = (.ok ps, t) →
       ∃ u, exec (.waitev o) s = .next u ∧ stored u ps ∧
         u.cur.x = (if o.d = 0 then s.cur.x else s.cur.x.set o.d.toNat (e.kind.setWidth 64)) ∧
         u.cur.pc = s.cur.pc + 4 ∧ u.cur.run = .running) ∧
     (∀ ps : List (Word × Xlat), s.cur.run = .waitev → s.cur.conv.watch = none → s.cur.wctl = Vector.replicate 4 0 →
       ({ s with cur := { s.cur with run := .running, note := none } } : State).recordPlaces (s.getX s.cur.parcelB) [0, 1, 2, 3]
         = (.ok ps, t) →
       ∃ u, exec (.waitevWake s.cur.id) s = .next u ∧ stored u ps ∧
         u.cur.x = (if s.cur.parcelD = 0 then s.cur.x else s.cur.x.set s.cur.parcelD.toNat (e.kind.setWidth 64)) ∧
         u.cur.pc = s.cur.pc + 4 ∧ u.cur.run = .running))

/-! ### Vector words: what every word checks first -/

/-- A 64-bit word, of any major, that fails a decode check of the strand traps with the cause of the first check it fails in
the order of Table 4-19: ILLEGAL for registers past vnreg, misplaced groups and forbidden overlaps; PRIV at A level; MODE
without lane groups or for a word of the other mode, in matrix mode for registers past v31 too; VOWNER, with vowner in trval,
on a software context. A word that passes them all and meets no bound register is ready (R71, R111, R112, R115, R149, R172).
Only PORTSW needs S level; SETVT, VCONFIG, the QUEUE words and the port words run without lane groups, and all of them but
SETVT and VCONFIG belong to any strand (R111, R112). For every form of Table 9-6 in either mode the ILLEGAL check is spelled
out: the groups of every operand, and no overlap of the destination with a source of another width. -/
def Obligations.WordChecksTrap : Prop :=
  (∀ (i : Instr) (s : State), (wordInfo i s.cur).klass ≠ .noWord →
    let w := wordInfo i s.cur
    let illegal := w.clash = true ∨ ∃ u ∈ w.srcs ++ w.dsts, s.cur.vec.vnreg < u.r.toNat + u.n ∨ u.r.toNat % u.n ≠ 0
    let priv := w.priv = true ∧ s.cur.level = .a
    let high := ∃ u ∈ w.srcs ++ w.dsts, 32 < u.r.toNat + u.n
    let mode := (w.lanes = true ∧ s.cur.lanegrant = 0) ∨ match w.mode with
      | .vector => s.cur.vec.mmode = true
      | .either => s.cur.vec.mmode = true ∧ high
      | .matrix => s.cur.vec.mmode = false ∨ high
      | .never => True
    let owner := w.owner = true ∧ s.cur.vowner ≠ s.cur.ctxid
    (illegal → exec i s = .next (s.trap .illegal s.cur.iword)) ∧
    (¬illegal → priv → exec i s = .next (s.trap .priv s.cur.iword)) ∧
    (¬illegal → ¬priv → mode → exec i s = .next (s.trap .mode s.cur.iword)) ∧
    (¬illegal → ¬priv → ¬mode → owner → s.cur.ctxid.toNat < 0x8000 →
      exec i s = .next (s.trap .vowner (s.cur.vowner.setWidth 64))) ∧
    (¬illegal → ¬priv → ¬mode → ¬owner → (∀ k : Fin 8, s.cur.vec.streams[k].bound = none) → s.Ready i s)) ∧
  (∀ (i : Instr) (c : Strand),
    let w := wordInfo i c
    match i with
    | .setvt _ | .vconfig _ => w.lanes = false ∧ w.owner = true ∧ w.priv = false
    | .qcopy _ | .qgather _ | .qscatter _ | .qpload _ | .qpstore _ | .qspload _ | .qfence _ | .qsignal _ | .qstat _
    | .portq _ => w.lanes = false ∧ w.owner = false ∧ w.priv = false
    | .portsw _ => w.lanes = false ∧ w.owner = false ∧ w.priv = true
    | _ => w.klass ≠ .noWord → w.lanes = true ∧ w.owner = true ∧ w.priv = false) ∧
  ∀ r ∈ intRows, ∀ s : State,
    let size := fun w => max 1 (w / if s.cur.vec.mmode then 32 else s.cur.vec.ew.bits)
    let bad := fun (v : VReg) (w : Nat) => s.cur.vec.vnreg < v.toNat + size w ∨ v.toNat % size w ≠ 0
    let checked := fun (i : Instr) (n : Nat) (d : VReg) (srcs : List (VReg × Nat)) =>
      let dw := r.dw * n
      let meets := fun (v : VReg) (w : Nat) => v.toNat < d.toNat + size dw ∧ d.toNat < v.toNat + size w
      (s.cur.wordCheck (wordInfo i s.cur) = some .illegal ↔
        bad d dw ∨ ∃ u ∈ srcs, bad u.1 u.2 ∨ (u.2 ≠ dw ∧ meets u.1 u.2)) ∧
      (wordInfo i s.cur).klass = .arith ∧ (wordInfo i s.cur).mode = .vector
    (∀ c, r.vv = some c → ∀ o : VV,
      checked (c o) o.ew.bits o.d [(o.a, r.aw * o.ew.bits), (o.b, o.ew.bits)]) ∧
    (∀ c, r.vvw = some c → ∀ o : VVW,
      checked (c o) o.ew.bits o.d [(o.a, r.aw * o.ew.bits), (o.b, if o.wide then 2 * o.ew.bits else o.ew.bits)]) ∧
    (∀ c, r.vs = some c → ∀ o : VS, checked (c o) o.ew.bits o.d [(o.a, r.aw * o.ew.bits)]) ∧
    (∀ c, r.vi = some c → ∀ o : VI, checked (c o) o.ew.bits o.d [(o.a, r.aw * o.ew.bits)])

/-! ### VINT and VCMP (09_vector_integer) -/

/-- Every function of Table 9-6 but VMERGE and VMV, in each of its forms (R167 to R171, R179, R180): the destination
elements hold the function of the sources, the second one a vector, a scalar truncated to n bits or the sign-extended
immediate; vsat collects saturation; the tail and the masked-off elements follow their policies; nothing else changes.
RoundFixed of R161, for every integer v and count k of discarded bits: floor and trunc divide by 2ᵏ; near and even take a
nearest integer, a tie going away from zero and to the even one; jam forces bit 0 where a discarded bit was 1. -/
def Obligations.VectorIntegerResults : Prop :=
  (∀ r ∈ intRows, ∀ s t : State,
     let z := fun (n yw : Nat) (d a : VReg) (y : Nat → Nat) (e : Nat) =>
       r.f n yw t.cur.vec.vrm (t.cur.elem a (r.aw * n) e) (y e) (t.cur.elem d (r.dw * n) e)
     let holds := fun (i : Instr) (n yw : Nat) (m : MReg) (d a : VReg) (y : Nat → Nat) =>
       i.WellFormed → s.Ready i t →
         t.ElementWise (exec i s) d (r.dw * n) m (fun e => (z n yw d a y e).1) (fun _ => 0) (fun e => (z n yw d a y e).2)
     (∀ c, r.vv = some c → ∀ o : VV,
       holds (c o) o.ew.bits o.ew.bits o.m o.d o.a fun e => t.cur.elem o.b o.ew.bits e) ∧
     (∀ c, r.vvw = some c → ∀ o : VVW,
       let yw := if o.wide then 2 * o.ew.bits else o.ew.bits
       holds (c o) o.ew.bits yw o.m o.d o.a fun e => t.cur.elem o.b yw e) ∧
     (∀ c, r.vs = some c → ∀ o : VS,
       holds (c o) o.ew.bits o.ew.bits o.m o.d o.a fun _ => (t.getX o.x).toNat % 2 ^ o.ew.bits) ∧
     (∀ c, r.vi = some c → ∀ o : VI,
       holds (c o) o.ew.bits o.ew.bits o.m o.d o.a fun _ => nval o.ew.bits o.imm.toInt)) ∧
  (∀ (v : Int) (k : Nat),
     let p : Int := 2 ^ k
     roundFixed .floor v k = v / p ∧ roundFixed .trunc v k = v.tdiv p ∧
     (let q : Int := roundFixed .near v k;
       2 * (q * p - v).natAbs ≤ p ∧ (2 * (q * p - v).natAbs = p → v.natAbs < (q * p).natAbs)) ∧
     (let q : Int := roundFixed .even v k;
       2 * (q * p - v).natAbs ≤ p ∧ (2 * (q * p - v).natAbs = p → q % 2 = 0)) ∧
     (let q : Int := roundFixed .jam v k;
       (v % p = 0 → q = v / p) ∧ (v % p ≠ 0 → q % 2 = 1 ∧ (q = v / p ∨ q = v / p + 1))))

/-- VMERGE and VMV (R179, R181): VMERGE writes every element from vstart to vl − 1, the second source where the mask bit is
1, else the first; VMV copies its source to the active elements. VCMP and VFCMP (R182, R201): the mask bit of an active
element is the comparison's truth by the conditions of Table 9-7; a floating-point comparison raises its flags when the
convoy retires. -/
def Obligations.MoveAndCompareResults : Prop :=
  (∀ s t : State,
     let merges := fun (i : Instr) (n : Nat) (m : MReg) (d a : VReg) (y : Nat → Nat) =>
       s.Ready i t →
         (t.cur.vec.vl ≤ t.cur.vec.vstart → t.OnlyVstart (exec i s)) ∧
         (t.cur.vec.vstart < t.cur.vec.vl → t.WritesVector (exec i s) d n
           (t.cur.body.filter fun e => decide (t.cur.vec.vstart ≤ t.cur.index e)) []
           (fun e => if t.cur.maskBit m e then y e else t.cur.elem a n e) 0 false)
     let moves := fun (i : Instr) (n : Nat) (m : MReg) (d : VReg) (y : Nat → Nat) =>
       s.Ready i t → t.ElementWise (exec i s) d n m y (fun _ => 0) (fun _ => false)
     (∀ o : VV, merges (.vmergeVV o) o.ew.bits o.m o.d o.a fun e => t.cur.elem o.b o.ew.bits e) ∧
     (∀ o : VS, merges (.vmergeVS o) o.ew.bits o.m o.d o.a fun _ => (t.getX o.x).toNat % 2 ^ o.ew.bits) ∧
     (∀ o : VI, merges (.vmergeVI o) o.ew.bits o.m o.d o.a fun _ => nval o.ew.bits o.imm.toInt) ∧
     (∀ o : VV1, moves (.vmvVV o) o.ew.bits o.m o.d fun e => t.cur.elem o.a o.ew.bits e) ∧
     (∀ o : VS1, moves (.vmvVS o) o.ew.bits o.m o.d fun _ => (t.getX o.x).toNat % 2 ^ o.ew.bits) ∧
     (∀ o : VI1, moves (.vmvVI o) o.ew.bits o.m o.d fun _ => nval o.ew.bits o.imm.toInt)) ∧
  (∀ s t : State,
     let holdsAt := fun (c : Cond) (n x y : Nat) =>
       match c with
       | .eq => decide (x = y) | .ne => decide (x ≠ y)
       | .lt => decide (sval n x < sval n y) | .le => decide (sval n x ≤ sval n y)
       | .gt => decide (sval n y < sval n x) | .ge => decide (sval n y ≤ sval n x)
       | .ltn => decide (x < y) | .len => decide (x ≤ y) | .gtn => decide (y < x) | .gen => decide (y ≤ x)
     let ints := fun (i : Instr) (c : Cond) (n : Nat) (m d : MReg) (a : VReg) (y : Nat → Nat) =>
       i.WellFormed → s.Ready i t →
         t.ElementWiseMask (exec i s) d m (fun e => holdsAt c n (t.cur.elem a n e) (y e)) (fun _ => 0)
     let floats := fun (i : Instr) (k : VFmt) (c : FCond) (m d : MReg) (a : VReg) (y : Nat → Nat) =>
       let f := vectorFmt k
       i.WellFormed → s.Ready i t →
         t.ElementWiseMask (exec i s) d m (fun e => (fCmp f c (t.cur.elem a f.width e) (y e)).1)
           (fun e => (fCmp f c (t.cur.elem a f.width e) (y e)).2)
     (∀ o : CmpVV, ints (.vcmpVV o) o.cond o.ew.bits o.m o.d o.a fun e => t.cur.elem o.b o.ew.bits e) ∧
     (∀ o : CmpVS, ints (.vcmpVS o) o.cond o.ew.bits o.m o.d o.a fun _ => (t.getX o.x).toNat % 2 ^ o.ew.bits) ∧
     (∀ o : CmpVI, ints (.vcmpVI o) o.cond o.ew.bits o.m o.d o.a fun _ => nval o.ew.bits o.imm.toInt) ∧
     (∀ o : FCmpVV, floats (.vfcmpVV o) o.fmt o.cond o.m o.d o.a fun e => t.cur.elem o.b (vectorFmt o.fmt).width e) ∧
     (∀ o : FCmpVS, floats (.vfcmpVS o) o.fmt o.cond o.m o.d o.a fun _ => (t.getX o.x).toNat % 2 ^ (vectorFmt o.fmt).width))

/-! ### Masks and permutes -/

/-- The words of Table 9-8 with a mask destination (R183, R184, R186): bitwise on the active elements; MORX and MORI set the
bits after, and from, the first active set bit; MMOVF copies mf or ms. MCNT, MLOW, MCUM, VSEQ and VCONFL (R184, R185): the
count and the lowest index of the active set bits (all ones where there is none), the running count modulo 2ⁿ, the element
numbers modulo 2ⁿ, and the count of lower active elements that hold the same value, held at 2ⁿ − 1. -/
def Obligations.MaskWordResults : Prop :=
  (∀ s t : State,
     let bit := t.cur.maskBit
     let on := fun (m a : MReg) => (t.cur.activesFrom0 m).filter fun e => bit a e
     (∀ o : MaskOp2, ∀ r ∈ ([(.mand o, fun a b => a && b), (.mor o, fun a b => a || b), (.mxor o, fun a b => a ^^ b),
         (.mandn o, fun a b => a && !b)] : List (Instr × (Bool → Bool → Bool))),
       r.1.WellFormed → s.Ready r.1 t →
         t.ElementWiseMask (exec r.1 s) o.d o.m (fun e => r.2 (bit o.a e) (bit o.b e)) (fun _ => 0)) ∧
     (∀ o : MaskOp1, (Instr.mnot o).WellFormed →
       (s.Ready (.mnot o) t → t.ElementWiseMask (exec (.mnot o) s) o.d o.m (fun e => !bit o.a e) (fun _ => 0)) ∧
       (s.Ready (.morx o) t →
         t.AcrossMask (exec (.morx o) s) o.d o.m fun e => decide (∃ j ∈ on o.m o.a, j < e)) ∧
       (s.Ready (.mori o) t →
         t.AcrossMask (exec (.mori o) s) o.d o.m fun e => decide (∃ j ∈ on o.m o.a, j ≤ e))) ∧
     (∀ o : MmovfOp, (Instr.mmovf o).WellFormed → s.Ready (.mmovf o) t →
       t.AcrossMask (exec (.mmovf o) s) o.d o.m fun e => (if o.seg then t.cur.vec.ms else t.cur.vec.mf).getLsbD e)) ∧
  (∀ s t : State,
     let on := fun (m a : MReg) => (t.cur.activesFrom0 m).filter fun e => t.cur.maskBit a e
     let toX := fun (out : Out) (d : XReg) (v : Word) =>
       out = .next (({ t with cur := { t.cur with vec := { t.cur.vec with vstart := 0 } } } : State).withResult d v 8)
     (∀ o : MaskToX,
       (s.Ready (.mcnt o) t → toX (exec (.mcnt o) s) o.d (BitVec.ofNat 64 (on o.m o.a).length)) ∧
       (s.Ready (.mlow o) t → toX (exec (.mlow o) s) o.d
         (match on o.m o.a with
           | [] => BitVec.allOnes 64
           | e :: _ => BitVec.ofNat 64 e))) ∧
     (∀ o : MaskToV, s.Ready (.mcum o) t →
       t.AcrossElements (exec (.mcum o) s) o.d o.ew.bits o.m fun e => ((on o.m o.a).filter fun j => decide (j ≤ e)).length) ∧
     (∀ o : SeqOp, s.Ready (.vseq o) t → t.AcrossElements (exec (.vseq o) s) o.d o.ew.bits o.m fun e => e) ∧
     (∀ o : VV1, s.Ready (.vconfl o) t →
       t.AcrossElements (exec (.vconfl o) s) o.d o.ew.bits o.m fun e =>
         min (2 ^ o.ew.bits - 1) ((t.cur.activesFrom0 o.m).filter fun j =>
           decide (j < e ∧ t.cur.elem o.a o.ew.bits j = t.cur.elem o.a o.ew.bits e)).length))

/-- The permutes of Table 9-9 (R187, R188): the slides by a scalar, VPERMV by an index vector, with zero for an index from
vlmax on; VCOMPRESS packs the selected elements; VMVXS and VMVSX move element 0; VBCAST fills. -/
def Obligations.PermuteResults : Prop :=
  ∀ s t : State,
    (∀ o : VS,
      let n := o.ew.bits
      let k := (t.getX o.x).toNat
      (s.Ready (.vslideup o) t →
        (t.cur.vec.vl = 0 → t.OnlyVstart (exec (.vslideup o) s)) ∧
        (0 < t.cur.vec.vl → t.WritesVector (exec (.vslideup o) s) o.d n ((t.cur.activesFrom0 o.m).filter fun e => decide (k ≤ e))
          (t.cur.maskedOff0 o.m) (fun e => t.cur.elem o.a n (e - k)) 0 false)) ∧
      (s.Ready (.vslidedn o) t →
        t.AcrossElements (exec (.vslidedn o) s) o.d n o.m fun e =>
          if e + k < t.cur.vlmax then t.cur.elem o.a n (e + k) else 0)) ∧
    (∀ o : VV, s.Ready (.vpermv o) t →
      let n := o.ew.bits
      t.AcrossElements (exec (.vpermv o) s) o.d n o.m fun e =>
        if t.cur.elem o.b n e < t.cur.vlmax then t.cur.elem o.a n (t.cur.elem o.b n e) else 0) ∧
    (∀ o : CompressOp, s.Ready (.vcompress o) t →
      let chosen := t.cur.body.filter fun e => t.cur.maskBit o.m e
      (t.cur.vec.vl = 0 → t.OnlyVstart (exec (.vcompress o) s)) ∧
      (0 < t.cur.vec.vl → t.WritesFront (exec (.vcompress o) s) o.d o.ew.bits chosen.length
        (fun j => t.cur.elem o.a o.ew.bits (chosen.getD j 0)) 0)) ∧
    (∀ o : VToX, s.Ready (.vmvxs o) t →
      let u : State := { t with cur := { t.cur with vec := { t.cur.vec with vstart := 0 } } }
      (t.cur.vec.vl = 0 → t.OnlyVstart (exec (.vmvxs o) s)) ∧
      (0 < t.cur.vec.vl → exec (.vmvxs o) s =
        .next (u.withResult o.d (BitVec.ofInt 64 (sval o.ew.bits (t.cur.elem o.a o.ew.bits 0))) 8))) ∧
    (∀ o : XToV, s.Ready (.vmvsx o) t →
      (t.cur.vec.vl = 0 → t.OnlyVstart (exec (.vmvsx o) s)) ∧
      (0 < t.cur.vec.vl → ∃ (v : SMap Byte) (p : List Push),
        exec (.vmvsx o) s = .next { t with cur := { t.cur with
          pc := t.cur.pc + 8, vec := { t.cur.vec with v := v, vstart := 0 }, conv := { t.cur.conv with pushes := p } } } ∧
        ({ t.cur with vec := { t.cur.vec with v := v } } : Strand).elem o.d o.ew.bits 0 = (t.getX o.x).toNat % 2 ^ o.ew.bits ∧
        (∀ a, a < o.d.toNat * t.cur.regBytes ∨ o.d.toNat * t.cur.regBytes + o.ew.bits / 8 ≤ a →
          Memory.read v a = Memory.read t.cur.vec.v a) ∧
        ((∀ r ∈ regsOf [t.cur.use o.d o.ew.bits], t.cur.boundTo r true = none) → p = t.cur.conv.pushes))) ∧
    (∀ o : VS1, s.Ready (.vbcast o) t →
      t.AcrossElements (exec (.vbcast o) s) o.d o.ew.bits o.m fun _ => (t.getX o.x).toNat)

/-! ### Vector floating point (10_vector_float) -/

/-- The words of Table 10-3 and VFWMA (R192 to R200): each active element is the scalar operation of its format, rounded in
frm's mode; a scalar operand is the low bits of its register; the flags of the active elements are gathered. VFSGN and
VFCLASS raise none. VFWMA adds to the destination, at twice the width, with one rounding. VFCVT (R163 to R165, R202, R203):
each active element is converted between the named formats, each in its container width, in the mode of the word; into an
integer it saturates at the range and NaN gives the largest value, and an integer source out of range wraps or clamps by the
saturate bit; into a floating-point format the NaNs, the infinities and E8M0's 0xFF give what Table 8-7 says and a finite
source is rounded once; into E8M0 by R165; the conversions of Table 8-8 are exact and raise no flag (R166); vsat collects
nothing but the clamping of an integer source to an integer range. -/
def Obligations.VectorFloatResults : Prop :=
  (∀ s t : State,
     let md := t.cur.frm
     let elems := fun (i : Instr) (w : Nat) (m : MReg) (d : VReg) (g : Nat → FRes) =>
       i.WellFormed → s.Ready i t → t.ElementWise (exec i s) d w m (fun e => (g e).bits) (fun e => (g e).flags) (fun _ => false)
     let low := fun (k : VFmt) (x : XReg) => (t.getX x).toNat % 2 ^ (vectorFmt k).width
     let at_ := fun (k : VFmt) (v : VReg) (e : Nat) => t.cur.elem v (vectorFmt k).width e
     let plain := fun (b : Nat) => ({ bits := b, flags := 0 } : FRes)
     let sign := fun (f : FloatFmt) (n : Bool) (x : Nat) => plain (f.signed n (f.mag x))
     let two : List ((FVV → Instr) × (FVS → Instr) × (FloatFmt → Nat → Nat → FRes)) :=
       [(.vfaddVV, .vfaddVS, fun f x y => fAdd f md x y), (.vfsubVV, .vfsubVS, fun f x y => fSub f md x y),
        (.vfmulVV, .vfmulVS, fun f x y => fMul f md x y), (.vfdivVV, .vfdivVS, fun f x y => fDiv f md x y),
        (.vfminVV, .vfminVS, fun f x y => fMin f x y), (.vfmaxVV, .vfmaxVS, fun f x y => fMax f x y),
        (.vfsgnVV, .vfsgnVS, fun f x y => sign f (f.neg y) x), (.vfsgnnVV, .vfsgnnVS, fun f x y => sign f (!f.neg y) x)]
     let three : List ((FVVV → Instr) × (FVSS → Instr) × Bool × Bool) :=
       [(.vfmaVV, .vfmaVS, false, false), (.vfmsVV, .vfmsVS, false, true), (.vfnmaVV, .vfnmaVS, true, false)]
     let one : List ((FV → Instr) × (FloatFmt → Nat → FRes)) :=
       [(.vfsqrt, fun f x => fSqrt f md x), (.vfclass, fun f x => plain (fClass f x)), (.vfexp2, fun f x => fExp2 f md x),
        (.vfrcp, fun f x => fRcp f md x), (.vfrsqrt, fun f x => fRsqrt f md x)]
     let wide := fun (k : VFmt) => if k = .fp32 then fp64 else fp32
     let wma := fun (k : VFmt) (x y d : Nat) =>
       let f := vectorFmt k
       (wide k).deliver md (((f.value x).mul (f.value y)).add md ((wide k).value d))
     (∀ r ∈ two,
       (∀ o : FVV, elems (r.1 o) (vectorFmt o.fmt).width o.m o.d
         fun e => r.2.2 (vectorFmt o.fmt) (at_ o.fmt o.a e) (at_ o.fmt o.b e)) ∧
       (∀ o : FVS, elems (r.2.1 o) (vectorFmt o.fmt).width o.m o.d
         fun e => r.2.2 (vectorFmt o.fmt) (at_ o.fmt o.a e) (low o.fmt o.x))) ∧
     (∀ r ∈ three,
       (∀ o : FVVV, elems (r.1 o) (vectorFmt o.fmt).width o.m o.d
         fun e => fFma (vectorFmt o.fmt) md r.2.2.1 r.2.2.2 (at_ o.fmt o.a e) (at_ o.fmt o.b e) (at_ o.fmt o.c e)) ∧
       (∀ o : FVSS, elems (r.2.1 o) (vectorFmt o.fmt).width o.m o.d
         fun e => fFma (vectorFmt o.fmt) md r.2.2.1 r.2.2.2 (at_ o.fmt o.a e) (low o.fmt o.x) (low o.fmt o.z))) ∧
     (∀ r ∈ one, ∀ o : FV, elems (r.1 o) (vectorFmt o.fmt).width o.m o.d
       fun e => r.2 (vectorFmt o.fmt) (at_ o.fmt o.a e)) ∧
     (∀ o : FVV, elems (.vfwmaVV o) (2 * (vectorFmt o.fmt).width) o.m o.d
       fun e => wma o.fmt (at_ o.fmt o.a e) (at_ o.fmt o.b e) (t.cur.elem o.d (2 * (vectorFmt o.fmt).width) e)) ∧
     (∀ o : FVS, elems (.vfwmaVS o) (2 * (vectorFmt o.fmt).width) o.m o.d
       fun e => wma o.fmt (at_ o.fmt o.a e) (low o.fmt o.x) (t.cur.elem o.d (2 * (vectorFmt o.fmt).width) e))) ∧
  ((∀ (o : CvtOp) (s t : State), (Instr.vfcvt o).WellFormed → s.Ready (.vfcvt o) t →
     let mode := match o.rm with
       | .fixed m => m
       | .frm => t.cur.frm
     let g := fun e => convertFmt (fmtKind o.dst) (fmtKind o.src) mode o.sat (t.cur.elem o.a (container o.src) e)
     t.ElementWise (exec (.vfcvt o) s) o.d (container o.dst) o.m (fun e => (g e).1.bits) (fun e => (g e).1.flags)
       (fun e => (g e).2)) ∧
   (∀ (f : FloatFmt) (n : Nat) (sg sat : Bool) (mode : RMode) (x : Nat), f ∈ [fp64, fp32, fp16, bf16, e4m3, e5m2] →
     n ∈ [8, 16, 32, 64] →
     let lo : Int := if sg then -(2 ^ (n - 1) : Nat) else 0
     let hi : Int := (if sg then 2 ^ (n - 1) else 2 ^ n : Nat) - 1
     let r := (convertFmt (.int n sg) (.float f) mode sat x).1
     match f.value x with
     | .nan _ => r = { bits := nval n hi, flags := flagNV }
     | .inf k => r = { bits := nval n (if k then lo else hi), flags := flagNV }
     | .num k m e =>
       let v := (toInteger mode k m e).1
       (v < lo → r = { bits := nval n lo, flags := flagNV }) ∧ (hi < v → r = { bits := nval n hi, flags := flagNV }) ∧
       (lo ≤ v → v ≤ hi → r.bits = nval n v ∧ (r.flags = 0 ∨ r.flags = flagNX))) ∧
   (∀ (d s : Fmt) (sat : Bool) (mode : RMode) (x : Nat),
     let r := convertFmt (fmtKind d) (fmtKind s) mode sat x
     let src := (fmtKind s).value x
     (r.2 = true → sat = true ∧ ∃ n sg k u, fmtKind d = .int n sg ∧ fmtKind s = .int k u) ∧
     (∀ n sg k u, fmtKind d = .int n sg → fmtKind s = .int k u →
       let lo : Int := if sg then -(2 ^ (n - 1) : Nat) else 0
       let hi : Int := (if sg then 2 ^ (n - 1) else 2 ^ n : Nat) - 1
       let v : Int := if u then sval k x else (x % 2 ^ k : Nat)
       ((lo ≤ v ∧ v ≤ hi) ∨ sat = false → r = ({ bits := nval n v, flags := 0 }, false)) ∧
       (v < lo → sat = true → r = ({ bits := nval n lo, flags := 0 }, true)) ∧
       (hi < v → sat = true → r = ({ bits := nval n hi, flags := 0 }, true))) ∧
     (∀ f, fmtKind d = .float f →
       let signed := fun (neg : Bool) (b : Nat) => (if neg then 2 ^ (f.width - 1) else 0) + b
       match src with
       | .nan q => r.1 = if f = e2m1 then { bits := 0, flags := flagNV }
           else { bits := f.canon, flags := if q then 0 else flagNV }
       | .inf neg =>
         (f = e2m1 → r.1 = { bits := signed neg 7, flags := flagNV }) ∧
         (f = e4m3 → r.1 = if sat then { bits := signed neg 0x7E, flags := flagNV } else { bits := 0x7F, flags := flagNV }) ∧
         (f ≠ e2m1 → f ≠ e4m3 → (d, s) ∉ [(.fp16, .e5m2), (.bf16, .e5m2), (.fp32, .e5m2), (.fp64, .e5m2), (.fp32, .fp16),
             (.fp64, .fp16), (.fp32, .bf16), (.fp64, .bf16), (.fp64, Fmt.fp32)] → sat = true →
           r.1 = { bits := signed neg f.maxEnc, flags := flagNV }) ∧
         (f ≠ e2m1 → f ≠ e4m3 → sat = false → r.1 = { bits := signed neg f.infEnc, flags := 0 })
       | .num neg m e => r.1 = f.round mode sat neg m e) ∧
     ((s = .e2m1 ∧ d ∈ [Fmt.e4m3, .e5m2]) ∨
         (s ∈ [Fmt.e2m1, .e4m3, .e5m2, .int4, .nat4, .int8, .nat8] ∧ d ∈ [Fmt.fp16, .bf16, .fp32, .fp64]) ∨
         (s ∈ [Fmt.fp16, .bf16, .e8m0, .int16] ∧ d ∈ [Fmt.fp32, .fp64]) ∨ (s ∈ [Fmt.fp32, .int32] ∧ d = .fp64) →
       src.isNaN = false → ((fmtKind d).value r.1.bits).eq src = true ∧ r.1.flags = 0) ∧
     (fmtKind d = .e8m0 →
       match src with
       | .nan _ => r.1 = { bits := 0xFF, flags := flagNV }
       | .inf neg => r.1 = { bits := if !neg && sat then 0xFE else 0xFF, flags := flagNV }
       | .num neg m e =>
         (neg = true ∨ m = 0 → r.1 = { bits := 0xFF, flags := flagNV }) ∧
         ∀ l : Nat, neg = false → 2 ^ l ≤ m → m < 2 ^ (l + 1) →
           let j := e + l
           let k := match mode with
             | .rtz => j
             | .rdn => j
             | .rup => if m = 2 ^ l then j else j + 1
             | .rne => if 3 * 2 ^ l ≤ 2 * m then j + 1 else j
             | .rmm => if 3 * 2 ^ l ≤ 2 * m then j + 1 else j
           (127 < k → r.1 = { bits := if sat then 0xFE else 0xFF, flags := flagOF ||| flagNX }) ∧
           (k < -127 → r.1 = { bits := 0, flags := flagUF ||| flagNX }) ∧
           (-127 ≤ k → k ≤ 127 → r.1 = { bits := (k + 127).toNat, flags := if m = 2 ^ l then 0 else flagNX }))))

/-! ### Reductions and scans -/

/-- The reductions of Table 10-7 (R205 to R210): element k of the destination is segment k's seed combined with its active
elements, or the seed where none is active; the integer ones and the ordered sum in ascending order, VFREDSUM by the tree of
R209 for every length of the segment and every mask, whose result the seed then joins; the tail begins after the last segment's result. VSCAN and VFSCAN (R212): each
active element receives the sum, in its segment, of the seed and the active elements up to it, added in ascending order;
vstart is ignored and at vl = 0 nothing but vstart changes. -/
def Obligations.ReductionAndScanResults : Prop :=
  (∀ s t : State,
     let md := t.cur.frm
     let segs := t.cur.segments
     let acts := fun (m : MReg) (g : List Nat) => g.filter fun e => t.cur.maskBit m e
     let ints : List ((VV → Instr) × Nat × (Nat → Nat → Nat → Nat)) :=
       [(.vredsum, 1, fun n x y => nval n (x + y)), (.vredmin, 1, fun n x y => nval n (min (sval n x) (sval n y))),
        (.vredmax, 1, fun n x y => nval n (max (sval n x) (sval n y))), (.vredand, 1, fun _ x y => x &&& y),
        (.vredor, 1, fun _ x y => x ||| y), (.vredxor, 1, fun _ x y => x ^^^ y),
        (.vwredsum, 2, fun n x y => nval (2 * n) (x + sval n y))]
     let ordered : List ((FVV → Instr) × (FloatFmt → Nat → Nat → FRes)) :=
       [(.vfredosum, fun f x y => fAdd f md x y), (.vfredmin, fun f x y => fMin f x y), (.vfredmax, fun f x y => fMax f x y)]
     let floats := fun (i : Instr) (o : FVV) (val : Nat → List Nat → FRes) =>
       let f := vectorFmt o.fmt
       let res := fun k => val (t.cur.elem o.b f.width k)
         ((acts o.m (segs.getD k [])).map fun e => t.cur.elem o.a f.width e)
       i.WellFormed → s.Ready i t →
         t.WritesFront (exec i s) o.d f.width segs.length (fun k => (res k).bits)
           (((List.range segs.length).map fun k => (res k).flags).foldl (· ||| ·) 0)
     (∀ r ∈ ints, ∀ o : VV, (r.1 o).WellFormed → s.Ready (r.1 o) t →
       let n := o.ew.bits
       t.WritesFront (exec (r.1 o) s) o.d (r.2.1 * n) segs.length
         (fun k => ((acts o.m (segs.getD k [])).map fun e => t.cur.elem o.a n e).foldl (r.2.2 n) (t.cur.elem o.b (r.2.1 * n) k)) 0) ∧
     (∀ r ∈ ordered, ∀ o : FVV, floats (r.1 o) o fun seed xs =>
       xs.foldl (fun a x => { bits := (r.2 (vectorFmt o.fmt) a.bits x).bits
                              flags := a.flags ||| (r.2 (vectorFmt o.fmt) a.bits x).flags }) { bits := seed, flags := 0 }) ∧
     (∀ o : FVV,
       let f := vectorFmt o.fmt
       (Instr.vfredsum o).WellFormed → s.Ready (.vfredsum o) t →
         ∃ res : Nat → FRes,
           t.WritesFront (exec (.vfredsum o) s) o.d f.width segs.length (fun k => (res k).bits)
             (((List.range segs.length).map fun k => (res k).flags).foldl (· ||| ·) 0) ∧
           ∀ k < segs.length,
             let seed := t.cur.elem o.b f.width k
             let xs := (segs.getD k []).map fun e => if t.cur.maskBit o.m e then some (t.cur.elem o.a f.width e) else none
             ((∀ x ∈ xs, x = none) → res k = { bits := seed, flags := 0 }) ∧
             (∀ x, xs = [some x] → res k = fAdd f md seed x) ∧
             ∀ n u, xs.length ≤ 2 ^ n →
               treeSum (fAdd f md) n (xs.map fun x => x.map fun b => { bits := b, flags := 0 }) = some u →
               res k = { bits := (fAdd f md seed u.bits).bits, flags := u.flags ||| (fAdd f md seed u.bits).flags })) ∧
  (∀ s t : State,
     let md := t.cur.frm
     let segOf := fun (e : Nat) => ((List.range t.cur.segments.length).find? fun k => (t.cur.segments.getD k []).contains e).getD 0
     let upTo := fun (m : MReg) (e : Nat) =>
       (t.cur.segments.getD (segOf e) []).filter fun j => t.cur.maskBit m j && decide (j ≤ e)
     (∀ o : VV, s.Ready (.vscan o) t →
       let n := o.ew.bits
       t.AcrossElements (exec (.vscan o) s) o.d n o.m fun e =>
         t.cur.elem o.b n (segOf e) + ((upTo o.m e).map fun j => t.cur.elem o.a n j).sum) ∧
     (∀ o : FVV, s.Ready (.vfscan o) t →
       let f := vectorFmt o.fmt
       let res := fun e => ((upTo o.m e).map fun j => t.cur.elem o.a f.width j).foldl
         (fun a x => fAdd f md a.bits x) ({ bits := t.cur.elem o.b f.width (segOf e), flags := 0 } : FRes)
       (t.cur.vec.vl = 0 → t.OnlyVstart (exec (.vfscan o) s)) ∧
       (0 < t.cur.vec.vl → t.WritesVector (exec (.vfscan o) s) o.d f.width (t.cur.activesFrom0 o.m) (t.cur.maskedOff0 o.m)
         (fun e => (res e).bits) (((t.cur.activesFrom0 o.m).map fun e => (res e).flags).foldl (· ||| ·) 0) false)))

/-! ### Vector configuration and loops -/

/-- SETVL, SETVT, VCONFIG, MENTER and MEXIT (R174 to R176, Table 14-1): what each sets, and that nothing else changes.
VWHILE and VWHILEM (R189, R190): the step and the remaining count, the mask of the next pass, the jump while elements
remain; VWHILEM stops at the first set bit of its mask; at vl = 0 both only go on. -/
def Obligations.ConfigAndLoopResults : Prop :=
  (∀ s t : State,
     let v := t.cur.vec
     let zeroHigh := fun (w : SMap Byte) => (∀ a, a < 32 * t.cur.regBytes → Memory.read w a = Memory.read v.v a) ∧
       (∀ a, 32 * t.cur.regBytes ≤ a → a < 64 * t.cur.regBytes → Memory.read w a = 0)
     (∀ o : SetvlOp, s.Ready (.setvl o) t →
       let n := min (t.getX o.a).toNat t.cur.vlmax
       exec (.setvl o) s = .next (({ t with cur := { t.cur with vec := { v with vl := n, vstart := 0 } } } : State).withResult o.d
         (BitVec.ofNat 64 n) 8)) ∧
     (∀ o : SetvtOp, s.Ready (.setvt o) t →
       ∃ n, exec (.setvt o) s = .next { t with cur := { t.cur with
           pc := t.cur.pc + 8, vec := { v with mz := o.mz, seg := o.s, tp := o.tp, ew := o.ew, vstart := 0, vl := n } } } ∧
         (t.cur.lanegrant ≠ 0 → v.virt = false →
           n = min v.vl (min 65536 (laneCount t.cur.lanegrant * (262144 / v.vnreg)) / o.ew.bits))) ∧
     (∀ o : VconfigOp, s.Ready (.vconfig o) t →
       let n := [8, 16, 32, 64].getD o.n.toNat 0
       (n = v.vnreg → exec (.vconfig o) s = .next (t.setPc (t.cur.pc + 8))) ∧
       (n ≠ v.vnreg → ∃ st, (∀ i : Fin 8, st[i].bound = none) ∧
         exec (.vconfig o) s = .next { t with cur := { t.cur with
           pc := t.cur.pc + 8, vec := { v with vnreg := n, vl := 0, vstart := 0, v := [], streams := st } } })) ∧
     (s.Ready .menter t → ∃ st w, zeroHigh w ∧
       (∀ i : Fin 8, st[i].bound = none ∨ (st[i] = v.streams[i] ∧ ∀ r, st[i].bound = some r → r.toNat < 32)) ∧
       exec .menter s = .next { t with cur := { t.cur with
         pc := t.cur.pc + 8, usedLarder := true
         vec := { v with
           mmode := true, vl := 128, vstart := 0, ew := .e64, tp := false, seg := false, mz := false, v := w, streams := st,
           entered := true } } }) ∧
     (s.Ready .mexit t → ∃ w, zeroHigh w ∧
       exec .mexit s = .next { t with cur := { t.cur with
         pc := t.cur.pc + 8, vec := { v with mmode := false, vl := 0, vstart := 0, v := w } } }) ∧
     ((s.cur.vec.vnreg ≠ 64 ∨ s.cur.vec.mmode = true ∨ s.cur.lanegrant = 0) → exec .menter s = .next (s.trap .mode s.cur.iword)) ∧
     ((s.cur.vec.mmode = false ∨ s.cur.lanegrant = 0) → exec .mexit s = .next (s.trap .mode s.cur.iword))) ∧
  (∀ (o : LoopOp) (s t : State), (Instr.vwhile o).WellFormed →
     let vl := t.cur.vec.vl
     let a := (t.getX o.rem).toNat
     let b := t.getX o.idx
     let regs := fun (i r : Word) => (t.cur.x.set o.idx.toNat i).set o.rem.toNat r
     let loops := fun (out : Out) =>
       let step := min vl a
       ∃ v, out = .next { t with cur := { t.cur with
           x := regs (b + BitVec.ofNat 64 step) (BitVec.ofNat 64 (a - step)), vec := v
           pc := if a = step then t.cur.pc + 8 else t.cur.pc + 8 * o.off.signExtend 64 } } ∧
         (a = step ∨ o.m = 0 → v = t.cur.vec) ∧
         (a ≠ step → o.m ≠ 0 → ∃ m, v = { t.cur.vec with m := m } ∧
           (∀ i : Fin 7, i.val + 1 ≠ o.m.toNat → m[i] = t.cur.vec.m[i]) ∧
           ∀ (i : Fin 7) (e : Nat), i.val + 1 = o.m.toNat → e < 16384 →
             m[i].getLsbD e = decide (e < min (a - step) vl))
     let first := (List.range vl).find? fun e => t.cur.maskBit o.m e
     (s.Ready (.vwhile o) t →
       (vl = 0 → exec (.vwhile o) s = .next (t.setPc (t.cur.pc + 8))) ∧ (0 < vl → loops (exec (.vwhile o) s))) ∧
     (s.Ready (.vwhilem o) t →
       (vl = 0 → exec (.vwhilem o) s = .next (t.setPc (t.cur.pc + 8))) ∧
       (0 < vl → first = none → loops (exec (.vwhilem o) s)) ∧
       (∀ f, first = some f → exec (.vwhilem o) s = .next { t with cur := { t.cur with
         x := regs (b + BitVec.ofNat 64 f) (BitVec.ofNat 64 (a - min f a)), pc := t.cur.pc + 8 } })))

/-- SETVLF (R177): with xb 0 or no element, ms is zero; else ms is the bit string at xb, where every byte of it is
translated; bits from vl on are zero. The segments of a strip (R207): they are the elements 0 to vl − 1 in order; without
segments there is one; with them a segment begins at element 0 and at every element whose bit of ms is set. -/
def Obligations.SegmentResults : Prop :=
  (∀ (o : SetvlfOp) (s t : State), s.Ready (.setvlf o) t →
     let n := min (t.getX o.a).toNat t.cur.vlmax
     let set := fun (u : State) (ms : Mask) =>
       ({ u with cur := { u.cur with vec := { t.cur.vec with vl := n, vstart := 0, ms := ms } } } : State).withResult o.d
         (BitVec.ofNat 64 n) 8
     (o.b = 0 ∨ n = 0 → exec (.setvlf o) s = .next (set t 0)) ∧
     (o.b ≠ 0 → 0 < n → ∀ tbl u, t.Passes (setvlfPlan (t.getX o.b) n) tbl u →
       ∃ w ms, exec (.setvlf o) s = .next (set w ms) ∧ w.cur.x = t.cur.x ∧ w.cur.pc = t.cur.pc ∧ w.others = t.others ∧
         (∀ i < 16384, n ≤ i → ms.getLsbD i = false) ∧
         ∀ i < n, ∀ x, u.byGranule tbl .load ((t.getX o.b).toNat + i / 8) = .ok x →
           ms.getLsbD i = decide (t.readPlace x.place 1 / 2 ^ (i % 8) % 2 = 1))) ∧
  (∀ c : Strand,
     c.segments.flatten = List.range c.vec.vl ∧
     (c.vec.seg = false → c.segments = [List.range c.vec.vl]) ∧
     (0 < c.vec.vl → ∀ g ∈ c.segments, g ≠ []) ∧
     (c.vec.seg = true → (∀ g ∈ c.segments, ∀ e ∈ g.tail, c.vec.ms.getLsbD e = false) ∧
       (∀ g ∈ c.segments.tail, ∀ e, g.head? = some e → c.vec.ms.getLsbD e = true)))

/-! ### Vector loads and stores (12_memory_instructions) -/

/-- VLD, VLDS, VLDX and VLDSEG (R235, R238), where every access passes (R237) and no loaded data is late: each active
element holds the bytes of its address, in field k those of field k; then vstart is 0 and the next word follows. Before any
access, the first active element with a field off its alignment raises ALIGN, or with one beyond 56 bits ACCESS, at the first
such field, and the word has no effect (R237 step 1). Where elements of one field fail later (the page, its permission, the
window, the host: Table 7-7), the others are loaded, mf holds those that failed, and the word traps with RK 1: with the cause
and address of the first that failed otherwise than by a page fault, else PAGE and those of the first; the batch lists the
faulting granules in ascending order (R237 step 3, R343, R344). VLDFF (R239): where every access passes, it loads as VLD and mf
is empty; where an element but the first active one fails in any of these ways, the elements below it are loaded, mf holds it
and those above, and there is no trap; where the first active one fails, the word traps with RK 0 and loads nothing. -/
def Obligations.VectorLoadResults : Prop :=
  (∀ (s t u : State) (tbl : List (Nat × Except Cause (Option Leaf))),
     let B := fun (base : XReg) (off : BitVec 16) => ((t.getX base + off.signExtend 64).toNat : Int)
     let addr := fun (v : Int) => (BitVec.ofInt 64 v).toNat
     let loads := fun (i : Instr) (m : MReg) (d : VReg) (w nf : Nat) (f : Nat → Nat → Int) =>
       let n := max 1 (w / 8)
       let p : VmPlan := { acts := (t.cur.actives m).map fun e => (e, (List.range nf).map fun k => addr (f k e))
                           size := n, align := n, need := .load, prog := none, noHost := false }
       s.Ready i t →
         (t.cur.vec.vl = 0 ∨ (t.cur.vec.vl ≤ t.cur.vec.vstart ∧ t.cur.reissue ≠ .underMf) → t.OnlyVstart (exec i s)) ∧
         (0 < t.cur.vec.vl → (t.cur.vec.vstart < t.cur.vec.vl ∨ t.cur.reissue = .underMf) → t.Passes p tbl u →
           u.cur.lateLoad = none → (nf = 1 ∨ (t.cur.vec.vnreg ≤ 64 ∧ t.cur.vec.vl * w ≤ t.cur.groupSize w * t.cur.regBytes * 8)) →
           ∃ (v : SMap Byte) (g : Nat → Nat → Nat) (z : State),
             exec i s = .next z ∧ z.cur.pc = t.cur.pc + 8 ∧ z.cur.x = t.cur.x ∧ z.others = t.others ∧
             z.hostMem = t.hostMem ∧ z.larder = t.larder ∧ z.cur.vec.vl = t.cur.vec.vl ∧ z.cur.vec.m = t.cur.vec.m ∧
             z.cur.vec.vstart = 0 ∧ z.cur.vec.v = v ∧
             t.cur.FieldsWritten v d w nf (t.cur.actives m) (t.cur.maskedOff m) g ∧
             ∀ e ∈ t.cur.actives m, ∀ k < nf, ∀ x, u.byGranule tbl .load (addr (f k e)) = .ok x →
               (∀ a ∈ p.addresses, ∀ y, u.byGranule tbl .load a.1 = .ok y → y.spares x.place.addr n ∨ x.place.host = true) →
               g k e = if w = 4 then t.readPlace x.place 1 / 16 ^ (e % 2) % 16 else t.readPlace x.place n) ∧
         (0 < t.cur.vec.vl → (t.cur.vec.vstart < t.cur.vec.vl ∨ t.cur.reissue = .underMf) →
           (∀ l e r, t.cur.actives m = l ++ e :: r → (∀ j ∈ l, ∀ k < nf, addr (f k j) % n = 0 ∧ addr (f k j) < 2 ^ 56) →
             (∀ k < nf, addr (f k e) % n ≠ 0 → (∀ j < k, addr (f j e) % n = 0) →
               exec i s = .next (t.trap .align (BitVec.ofNat 64 (addr (f k e))))) ∧
             (∀ k < nf, 2 ^ 56 ≤ addr (f k e) → (∀ j < nf, addr (f j e) % n = 0) → (∀ j < k, addr (f j e) < 2 ^ 56) →
               exec i s = .next (t.trap .access (BitVec.ofNat 64 (addr (f k e)))))) ∧
           (nf = 1 → (∀ e ∈ t.cur.actives m, addr (f 0 e) % n = 0 ∧ addr (f 0 e) < 2 ^ 56) →
             t.sortPages (distinct ((t.cur.actives m).map fun e => granule (addr (f 0 e)))) = (tbl, u) →
             let fails := fun (e : Nat) (c : Cause) => u.byGranule tbl .load (addr (f 0 e)) = .error (.trap c)
             let passes := fun (e : Nat) => match u.byGranule tbl .load (addr (f 0 e)) with
               | .ok _ => true
               | .error _ => false
             (∀ e ∈ t.cur.actives m, u.byGranule tbl .load (addr (f 0 e)) ≠ .error .stall) →
             ∀ l e r c, t.cur.actives m = l ++ e :: r → fails e c →
               (if c = .page then (∀ j ∈ l, ∀ k, ¬fails j k) ∧ ∀ j ∈ r, ∀ k, fails j k → k = .page
                else ∀ j ∈ l, ∀ k, fails j k → k = .page) →
               ∃ (z : State) (ps : List (Nat × Need)) (g : Nat → Nat → Nat), exec i s = .next (z.takeTrap {
                   cause := c, rk := 1, slot := t.cur.slot, tpc := t.cur.pc - 8 * t.cur.slot.setWidth 64
                   tval := BitVec.ofNat 64 (addr (f 0 e)), pages := ps }) ∧
                 ps.Pairwise (fun x y => x.1 < y.1) ∧ (∀ y, y ∈ ps ↔ y.2 = .load ∧ (y.1, .error .page) ∈ tbl) ∧
                 (∀ j < 16384, z.cur.vec.mf.getLsbD j = true ↔ j ∈ t.cur.actives m ∧ ∃ k, fails j k) ∧
                 z.cur.x = t.cur.x ∧ z.cur.vec.vl = t.cur.vec.vl ∧ z.cur.vec.m = t.cur.vec.m ∧ z.others = t.others ∧
                 z.hostMem = t.hostMem ∧ z.larder = t.larder ∧
                 t.cur.FieldsWritten z.cur.vec.v d w 1
                   ((t.cur.actives m).filter passes) (t.cur.maskedOff m) g ∧
                 ∀ j ∈ t.cur.actives m, ∀ x, u.byGranule tbl .load (addr (f 0 j)) = .ok x →
                   (∀ q ∈ t.cur.actives m, ∀ y, u.byGranule tbl .load (addr (f 0 q)) = .ok y →
                     y.spares x.place.addr n ∨ x.place.host = true) →
                   g 0 j = if w = 4 then t.readPlace x.place 1 / 16 ^ (j % 2) % 16 else t.readPlace x.place n))
     (∀ o : VldOp,
       let w := match o.ew with
         | .of k => k.bits
         | .nibble => 4
       loads (.vld o) o.m o.d w 1 fun _ e => B o.base o.off + (if w = 4 then e / 2 else e * (w / 8) : Nat)) ∧
     (∀ o : VldsOp, loads (.vlds o) o.m o.d o.ew.bits 1 fun _ e => B o.base o.off + e * (t.getX o.stride).toInt) ∧
     (∀ o : VldxOp, loads (.vldx o) o.m o.d o.ew.bits 1 fun _ e =>
       B o.base o.off + t.cur.elem o.vi (if o.x64 then 64 else 32) e) ∧
     (∀ o : VldsegOp,
       let nf := o.nf.toNat + 1
       loads (.vldseg o) o.m o.d o.ew.bits nf fun k e => B o.base o.off + ((e * nf + k) * (o.ew.bits / 8) : Nat))) ∧
  (∀ (o : VldffOp) (s t u : State) (tbl : List (Nat × Except Cause (Option Leaf))), s.Ready (.vldff o) t →
     t.cur.lateLoad = none →
     let w := o.ew.bits
     let at_ := fun (e : Nat) => (t.getX o.base + o.off.signExtend 64 + BitVec.ofNat 64 (e * (w / 8))).toNat
     let acts := t.cur.actives o.m
     let early := fun (e : Nat) =>
       if at_ e % (w / 8) ≠ 0 then some Cause.align else if 2 ^ 56 ≤ at_ e then some Cause.access else none
     let tried := acts.filter fun e => (early e).isNone
     let fails := fun (e : Nat) (c : Cause) =>
       early e = some c ∨ (early e = none ∧ u.byGranule tbl .load (at_ e) = .error (.trap c))
     let loaded := fun (l : List Nat) (mf : Mask) =>
       ∃ (v : SMap Byte) (g : Nat → Nat → Nat) (z : State),
         exec (.vldff o) s = .next z ∧ z.cur.pc = t.cur.pc + 8 ∧ z.cur.x = t.cur.x ∧ z.cur.vec.v = v ∧ z.cur.vec.vstart = 0 ∧
         z.cur.vec.mf = mf ∧ z.cur.vec.vl = t.cur.vec.vl ∧ z.others = t.others ∧
         t.cur.FieldsWritten v o.d w 1 l (t.cur.maskedOff o.m) g ∧
         ∀ e ∈ l, ∀ x, u.byGranule tbl .load (at_ e) = .ok x →
           (∀ j ∈ l, ∀ y, u.byGranule tbl .load (at_ j) = .ok y → y.spares x.place.addr (w / 8) ∨ x.place.host = true) →
           g 0 e = t.readPlace x.place (w / 8)
     (t.cur.vec.vl ≤ t.cur.vec.vstart → t.OnlyVstart (exec (.vldff o) s)) ∧
     (t.cur.vec.vstart < t.cur.vec.vl → t.sortPages (distinct (tried.map fun e => granule (at_ e))) = (tbl, u) →
       (∀ e ∈ tried, u.byGranule tbl .load (at_ e) ≠ .error .stall) →
       ((∀ e ∈ acts, ∀ c, ¬fails e c) → loaded acts 0) ∧
       ∀ l f r c, acts = l ++ f :: r → (∀ e ∈ l, ∀ k, ¬fails e k) → fails f c →
         (l ≠ [] → ∃ mf : Mask, loaded l mf ∧ ∀ e < 16384, mf.getLsbD e = decide (e ∈ f :: r)) ∧
         (l = [] → exec (.vldff o) s = .next (u.takeTrap {
           cause := c, rk := 0, slot := t.cur.slot, tpc := t.cur.pc - 8 * t.cur.slot.setWidth 64
           tval := BitVec.ofNat 64 (at_ f), pages := if c = .page then [(at_ f / 65536 * 65536, .load)] else [] }))))

/-- VST, VSTS, VSTX and VSTSEG (R240, R241), where every access passes (R237) and no late error is pending: each active field stands in memory where no
later access of the word (with U = 1: no other one) writes its bytes; the progress word holds vl; every other byte is as
before but for the page-table entries whose A and D bits are set; no register changes. VSCADD (R231, R242) where every
access passes, none goes to host memory and no late error is pending: each of the places it updates holds its old value plus the elements of the
active indices that name it, modulo 2ⁿ, each applied once; every other byte is as before but for the page-table entries
whose A and D bits are set. -/
def Obligations.VectorStoreResults : Prop :=
  (∀ (s t u : State) (tbl : List (Nat × Except Cause (Option Leaf))),
     let B := fun (base : XReg) (off : BitVec 16) => ((t.getX base + off.signExtend 64).toNat : Int)
     let addr := fun (v : Int) => (BitVec.ofInt 64 v).toNat
     let stores := fun (i : Instr) (m : MReg) (d : VReg) (w nf : Nat) (mode : StoreMode) (f : Nat → Nat → Int) =>
       let n := max 1 (w / 8)
       let prog := match mode with
         | .notify x => some (t.getX x).toNat
         | .ordered => none
         | .unordered => none
       let p : VmPlan := { acts := (t.cur.actives m).map fun e => (e, (List.range nf).map fun k => addr (f k e))
                           size := n, align := n, need := .store, prog := prog, noHost := false }
       let l := p.fields
       let at_ := fun (j : Nat) => l[j]?.bind fun q => (u.byGranule tbl .store q.2.2).toOption.map fun x => (q.1, q.2.1, x.place)
       s.Ready i t →
         (t.cur.vec.vl = 0 ∨ (t.cur.vec.vl ≤ t.cur.vec.vstart ∧ t.cur.reissue ≠ .underMf) → t.OnlyVstart (exec i s)) ∧
         (0 < t.cur.vec.vl → (t.cur.vec.vstart < t.cur.vec.vl ∨ t.cur.reissue = .underMf) → t.Passes p tbl u →
           t.cur.lateStop = none → ∃ z, exec i s = .next z ∧ z.cur.pc = t.cur.pc + 8 ∧ z.cur.x = t.cur.x ∧ z.others = t.others ∧
             z.larder = t.larder ∧ z.cur.vec = { t.cur.vec with vstart := 0 } ∧
             (∀ j e k q, at_ j = some (e, k, q) →
               (∀ j' e' k' q', at_ j' = some (e', k', q') → j' ≠ j → (mode ≠ .unordered → j < j') →
                 q.apart n q' n ∨ (w = 4 ∧ e % 2 ≠ e' % 2)) →
               (∀ a y, prog = some a → u.byGranule tbl .store a = .ok y → q.apart n y.place 8) →
               (if w = 4 then z.readPlace q 1 / 16 ^ (e % 2) % 16 else z.readPlace q n) =
                 t.cur.elem (BitVec.ofNat 6 (d.toNat + k * t.cur.groupSize w)) w e) ∧
             (∀ a y, prog = some a → u.byGranule tbl .store a = .ok y → z.readPlace y.place 8 = t.cur.vec.vl % 2 ^ 64) ∧
             (∀ q : Place, (∀ a ∈ p.addresses, ∀ y, u.byGranule tbl .store a.1 = .ok y →
                 q.apart 1 y.place (if prog = some a.1 then max 8 n else n) ∧ (q.host = true ∨ y.spares q.addr 1)) →
               z.readPlace q 1 = t.readPlace q 1))
     (∀ o : VstOp,
       let w := match o.ew with
         | .of k => k.bits
         | .nibble => 4
       stores (.vst o) o.m o.d w 1 o.mode fun _ e => B o.base o.off + (if w = 4 then e / 2 else e * (w / 8) : Nat)) ∧
     (∀ o : VstsOp, stores (.vsts o) o.m o.d o.ew.bits 1 (if o.u then .unordered else .ordered)
       fun _ e => B o.base o.off + e * (t.getX o.stride).toInt) ∧
     (∀ o : VstxOp, stores (.vstx o) o.m o.d o.ew.bits 1 o.mode fun _ e =>
       B o.base o.off + t.cur.elem o.vi (if o.x64 then 64 else 32) e) ∧
     (∀ o : VstsegOp,
       let nf := o.nf.toNat + 1
       stores (.vstseg o) o.m o.d o.ew.bits nf o.mode fun k e => B o.base o.off + ((e * nf + k) * (o.ew.bits / 8) : Nat))) ∧
  (∀ (o : VldxOp) (s t u : State) (tbl : List (Nat × Except Cause (Option Leaf))), s.Ready (.vscadd o) t →
     t.cur.lateStop = none → 0 < t.cur.vec.vl → (t.cur.vec.vstart < t.cur.vec.vl ∨ t.cur.reissue = .underMf) →
     let w := o.ew.bits
     let acts := t.cur.actives o.m
     let at_ := fun (e : Nat) =>
       (t.getX o.base + o.off.signExtend 64 + BitVec.ofNat 64 (t.cur.elem o.vi (if o.x64 then 64 else 32) e)).toNat
     let place := fun (e : Nat) => (u.byGranule tbl .store (at_ e)).toOption.map (·.place)
     let p : VmPlan := { acts := acts.map fun e => (e, [at_ e]), size := w / 8, align := w / 8, need := .store
                         prog := none, noHost := true }
     t.Passes p tbl u → (∀ a ∈ p.addresses, ∀ b ∈ p.addresses, ∀ x y, u.byGranule tbl .store a.1 = .ok x →
       u.byGranule tbl .store b.1 = .ok y → (x.place = y.place ∨ x.place.apart (w / 8) y.place (w / 8)) ∧
         y.spares x.place.addr (w / 8)) →
       ∃ z, exec (.vscadd o) s = .next z ∧ z.cur.pc = t.cur.pc + 8 ∧ z.cur.x = t.cur.x ∧ z.others = t.others ∧
         z.hostMem = t.hostMem ∧ z.larder = t.larder ∧ z.cur.vec = { t.cur.vec with vstart := 0 } ∧
         (∀ e ∈ acts, ∀ q, place e = some q → z.readPlace q (w / 8) =
           (t.readPlace q (w / 8) + ((acts.filter fun j => place j = some q).map fun j => t.cur.elem o.d w j).sum) % 2 ^ w) ∧
         (∀ a, (∀ b ∈ p.addresses, ∀ y, u.byGranule tbl .store b.1 = .ok y →
             (a < y.place.addr ∨ y.place.addr + w / 8 ≤ a) ∧ y.spares a 1) → Memory.read z.mem a = Memory.read t.mem a))

/-- VWAIT (R325 to R327): at vl = 0 it is done at once; a watched word off its alignment or beyond 56 bits, or one whose
translation fails, traps with RK 0 before any read, the vector part unchanged. Else, while the windows keep their numbers apart
and the page-table entries lie outside the watched words, it is done when no active word is below its expected value, or where
its timeout is 0; then the mask holds the active elements that are not met; else the strand sleeps with the words it watches.
A wake or the deadline of a sleeping one makes its next look due, which the strand takes as the issue of its word: it looks
again at those words, each routed anew (R327). An unmet wait sleeps on, and one whose deadline has passed ends; a word whose route
stalls puts that off; one that no longer has its route traps with RK 0 (R333, R373). A timeout of all ones has no deadline. -/
def Obligations.VwaitResults : Prop :=
  ∀ (o : VwaitOp) (s t u : State) (tbl : List (Nat × Except Cause (Option Leaf))), (Instr.vwait o).WellFormed →
    let n := o.ew.bits / 8
    let acts := t.cur.activesFrom0 o.m
    let addr := fun (e : Nat) => (t.getX o.base + o.off.signExtend 64 + BitVec.ofNat 64 (e * n)).toNat
    let reads := fun (e : Nat) => u.byGranule tbl .load (addr e)
    let done := fun (c : State) (unmet : Nat → Prop) (out : Out) =>
      ∃ z, out = .next z ∧ z.cur.run = .running ∧ z.cur.pc = c.cur.pc + 8 ∧ z.cur.x = c.cur.x ∧ z.others = c.others ∧
        z.cur.vec.v = c.cur.vec.v ∧ z.cur.vec.vstart = 0 ∧
        (∀ i : Fin 7, i.val + 1 ≠ o.d.toNat → z.cur.vec.m[i] = c.cur.vec.m[i]) ∧
        ∀ e < 16384, z.cur.maskBit o.d e = true ↔ unmet e
    let traps := fun (out : Out) (c : State) (k : Cause) (va : Nat) => ∃ (z : State) (ps : List (Nat × Need)), out = .next (z.takeTrap {
      cause := k, rk := 0, slot := c.cur.slot, tpc := c.cur.pc - 8 * c.cur.slot.setWidth 64, tval := BitVec.ofNat 64 va, pages := ps })
    (s.Ready (.vwait o) t → t.cur.vwait = none →
      (t.cur.vec.vl = 0 → done t (fun _ => False) (exec (.vwait o) s)) ∧
      (0 < t.cur.vec.vl →
        (∀ l e r, acts = l ++ e :: r → (∀ j ∈ l, addr j % n = 0 ∧ addr j < 2 ^ 56) →
          (addr e % n ≠ 0 → traps (exec (.vwait o) s) t .align (addr e)) ∧
          (addr e % n = 0 → 2 ^ 56 ≤ addr e → traps (exec (.vwait o) s) t .access (addr e))) ∧
        ((∀ e ∈ acts, addr e % n = 0 ∧ addr e < 2 ^ 56) →
          t.sortPages (distinct (acts.map fun e => granule (addr e))) = (tbl, u) → (∀ e ∈ acts, reads e ≠ .error .stall) →
          (∀ l e r c, acts = l ++ e :: r → reads e = .error (.trap c) →
            (if c = .page then (∀ j ∈ l, ∀ k, reads j ≠ .error (.trap k)) ∧ ∀ j ∈ r, ∀ k, reads j = .error (.trap k) → k = .page
             else ∀ j ∈ l, ∀ k, reads j = .error (.trap k) → k = .page) →
            traps (exec (.vwait o) s) t c (addr e)) ∧
          ((∀ e ∈ acts, ∃ x, reads e = .ok x) →
            (∀ p, t.partition? t.cur.part = some p → (p.windows.map (·.num)).Nodup) →
            (∀ e ∈ acts, ∀ j ∈ acts, ∀ x y, reads e = .ok x → reads j = .ok y →
              x.place.host = true ∨ y.spares x.place.addr n) →
            let unmet := fun (e : Nat) => e ∈ acts ∧ ∃ x, reads e = .ok x ∧ t.readPlace x.place n < t.cur.elem o.vi o.ew.bits e
            ((∀ e, ¬unmet e) ∨ t.getX o.timeout = 0 → done t unmet (exec (.vwait o) s)) ∧
            (t.getX o.timeout ≠ 0 → (∃ e, unmet e) →
              ∃ z ws, exec (.vwait o) s = .next z ∧ z.cur.run = .vwait ∧ z.cur.vwait = some ⟨ws, false⟩ ∧ z.cur.pc = t.cur.pc ∧
                z.cur.x = t.cur.x ∧ z.cur.vec = t.cur.vec ∧ z.others = t.others ∧ z.hostMem = t.hostMem ∧ z.larder = t.larder ∧
                ∀ w, w ∈ ws ↔ ∃ e ∈ acts, ∃ x, reads e = .ok x ∧
                  w = { elem := e, place := x.place, va := addr e, win := x.win.map (·.num), leaf := x.leaf }))))) ∧
    (∀ ws late, s.Ready (.vwait o) t → t.cur.vwait = some ⟨ws, late⟩ →
      let unmet := fun (e : Nat) => ∃ w ∈ ws, w.elem = e ∧ t.readPlace w.place n < t.cur.elem o.vi o.ew.bits e
      let asleep := exec (.vwait o) s = .next { t with cur := { t.cur with run := .vwait } }
      ((∀ w ∈ ws, t.rerouteWatched w = .ok ()) →
        ((∃ e, unmet e) → late = false → asleep) ∧
        ((∀ e, ¬unmet e) ∨ late = true → done t unmet (exec (.vwait o) s))) ∧
      ((∀ w ∈ ws, ∀ c, t.rerouteWatched w ≠ .error (.trap c)) → (∃ w ∈ ws, t.rerouteWatched w = .error .stall) → asleep) ∧
      (∀ l w r c, ws = l ++ w :: r → (∀ v ∈ l, ∀ k, t.rerouteWatched v ≠ .error (.trap k)) →
        t.rerouteWatched w = .error (.trap c) → traps (exec (.vwait o) s) t c w.va)) ∧
    (∀ ws late, s.cur.run = .vwait → s.cur.vwait = some ⟨ws, late⟩ →
      let looks := fun (l : Bool) => ({ s with
        cur := { s.cur with vwait := some ⟨ws, l⟩ }, agenda := .issue s.cur.id :: s.agenda } : State)
      exec (.vwaitWake s.cur.id) s = .next (looks late) ∧
      (s.cur.vwaitOp? = some o →
        (s.getX o.timeout ≠ BitVec.allOnes 64 → exec (.vwaitTimeout s.cur.id) s = .next (looks true)) ∧
        (s.getX o.timeout = BitVec.allOnes 64 → exec (.vwaitTimeout s.cur.id) s = .next s)))

/-! ### Streams (R243 to R247) and the image of the vector part (R360 to R362) -/

/-- STCFG, STBIND, STUNBIND and STSTAT (R244 to R247): the block is read into an unbound stream at position 0; a malformed
block, or a stream without one, raises ACCESS; binding replaces what was bound to the register; the status word. A fetch of
a stream ahead of its pops (R227, R228): on a bound read stream that reads the Larder it appends the next elements of the
pattern, up to n and the stream's length, and neither the position nor any other state changes; an unbound or a write stream
fetches nothing. -/
def Obligations.StreamResults : Prop :=
  (∀ s t : State,
     let st := t.cur.vec.streams
     (∀ (o : StcfgOp) (x : Xlat) (u : State), s.Ready (.stcfg o) t → t.access (t.getX o.a) 64 .load = (.ok x, u) →
       let block := (List.range 8).map fun i => BitVec.ofNat 64 (t.readPlace { x.place with addr := x.place.addr + 8 * i } 8)
       ∃ z, exec (.stcfg o) s = .next z ∧
         (malformed block = false → z.cur.pc = t.cur.pc + 8 ∧ z.cur.x = t.cur.x ∧
           z.cur.vec = { t.cur.vec with streams := st.set o.s.toNat { Stream.reset with cfg := true, pattern := block } }) ∧
         (malformed block = true → ∃ k : State, z = k.trap .access (t.getX o.a) ∧ k.cur.vec = t.cur.vec)) ∧
     (∀ o : StbindOp, s.Ready (.stbind o) t →
       (st[o.s.toNat].cfg = false → exec (.stbind o) s = .next (t.trap .access (o.s.setWidth 64))) ∧
       (st[o.s.toNat].cfg = true → ∃ (w : Vector Stream 8) (l : Bool),
         exec (.stbind o) s = .next { t with cur := { t.cur with
           pc := t.cur.pc + 8, usedLarder := l, vec := { t.cur.vec with streams := w } } } ∧
         w[o.s.toNat].bound = some o.v ∧ w[o.s.toNat].write = o.write ∧ w[o.s.toNat].pos = st[o.s.toNat].pos ∧
         w[o.s.toNat].pattern = st[o.s.toNat].pattern ∧ w[o.s.toNat].cfg = true ∧
         ∀ i : Fin 8, i.val ≠ o.s.toNat → (w[i].bound = if st[i].bound = some o.v then none else st[i].bound) ∧
           w[i].pos = st[i].pos ∧ w[i].pattern = st[i].pattern)) ∧
     (∀ o : StunbindOp, s.Ready (.stunbind o) t → ∃ w : Vector Stream 8,
       exec (.stunbind o) s = .next { t with cur := { t.cur with
         pc := t.cur.pc + 8, vec := { t.cur.vec with streams := w } } } ∧
       w[o.s.toNat].bound = none ∧ w[o.s.toNat].pos = st[o.s.toNat].pos ∧ w[o.s.toNat].cfg = st[o.s.toNat].cfg ∧
       ∀ i : Fin 8, i.val ≠ o.s.toNat → w[i] = st[i]) ∧
     (∀ o : StstatOp, s.Ready (.ststat o) t →
       let q := st[o.s.toNat]
       exec (.ststat o) s = .next (t.withResult o.d (BitVec.ofNat 64 (q.pos % 2 ^ 48 * 65536 + q.fcode.toNat * 256 +
         (if q.ovr then 64 else 0) + (if q.exh then 32 else 0) + (if q.write then 16 else 0) +
         (if q.bound.isSome then 8 else 0) + (if q.cfg then 4 else 0))) 8))) ∧
  (∀ (s : State) (i : BitVec 3) (n : Nat),
     let t := s.cur.vec.streams[i.toNat]
     ((t.bound = none ∨ t.write = true) → exec (.streamFetch s.cur.id i n) s = .next s) ∧
     (t.bound.isSome = true → t.write = false → t.larder = true → t.stop = none → t.fcode = 0 →
       (∀ k, t.pos + t.fetched.length ≤ k → k < t.length → k < t.pos + t.fetched.length + n →
         t.addr k % (t.bits / 8) = 0 ∧ t.addr k + t.bits / 8 ≤ larderSize) →
       ∃ c : List CoreState, exec (.streamFetch s.cur.id i n) s = .next { s with cores := c, cur := { s.cur with vec := { s.cur.vec with
         streams := s.cur.vec.streams.set i.toNat { t with
           fetched := t.fetched ++ (List.range (min n (t.length - (t.pos + t.fetched.length)))).map fun j =>
             BitVec.ofNat 64 (s.larder.readLE (larderBase s.cur.id.core + t.addr (t.pos + t.fetched.length + j)) (t.bits / 8)) } } } }))

/-- VSAVE and VRESTORE (R360 to R362): a misaligned image raises ALIGN. VSAVE, where the translation succeeds, changes no
register, ends with the next word, and leaves the image of Table 18-10 at xa, each word of it where its address leads: the
header, the configuration, the streams, the masks, the registers, and with T = 1 the raw parts of the tiles and the block
scales; this where no two of its words share a byte and the page-table entries lie outside them. VRESTORE reads an image:
one with another version, length or count of registers, or with slices for another count of lane groups, raises VIMAGE with
xa; one that fits sets vtype, mmode, vrm, vsat, planebase, vl, vstart, the streams, the masks, every vector register and the
slices as the image holds them, the slices to their values at task start where T = 0; it leaves vowner and the scalar
registers. What VRESTORE makes of values that a register cannot hold (vl, vstart, EW, vrm, planebase), and where an image ends
with T = 0, are the model's choice (log 43). -/
def Obligations.VectorImageResults : Prop :=
  ∀ (a : XReg) (s t : State),
    let xa := t.getX a
    let plan := fun (len : Nat) (n : Need) => imagePlan xa.toNat len n
    let vnreg := t.cur.vec.vnreg
    let bits := min 65536 (t.cur.lanes * (262144 / vnreg))
    let slicesAt := (0x6000 + vnreg * (bits / 8) + 4095) / 4096 * 4096
    let vrmOrder := [Vrm.near, .even, .floor, .trunc, .jam]
    (s.Ready (.vsave a) t → xa.toNat % 4096 ≠ 0 → exec (.vsave a) s = .next (t.trap .align xa)) ∧
    (s.Ready (.vrestore a) t → xa.toNat % 4096 ≠ 0 → exec (.vrestore a) s = .next (t.trap .align xa)) ∧
    (s.Ready (.vsave a) t → xa.toNat % 4096 = 0 → ∀ tbl u,
      let len := t.cur.imageSize t.cur.vec.entered
      t.Passes (plan len .store) tbl u → xa.toNat + len ≤ 2 ^ 56 →
      ∃ z, exec (.vsave a) s = .next z ∧ z.cur.pc = t.cur.pc + 8 ∧ z.cur.x = t.cur.x ∧ z.cur.vec = t.cur.vec ∧
        z.others = t.others ∧ z.larder = t.larder ∧
        (vnreg ∈ [8, 16, 32, 64] → t.cur.vec.slices.length = t.cur.lanes →
          let word := fun (off : Nat) => u.byGranule tbl .store (xa.toNat + off)
          (∀ p q x y, p < len → q < len → p % 8 = 0 → q % 8 = 0 → word p = .ok x → word q = .ok y →
            (p ≠ q → x.place.apart 8 y.place 8) ∧ (x.place.host = true ∨ y.spares x.place.addr 8)) →
          let v := t.cur.vec
          let holds := fun (off n : Nat) => ∀ x, word off = .ok x → z.readPlace x.place 8 = n % 2 ^ 64
          let masks := v.m.toList ++ [v.mf, v.ms]
          let kind := fun (f : Slice → Tile) => ((v.slices.head?.map fun l => (f l).bf16).getD false).toNat
          holds 0 (1 + 256 * v.entered.toNat + 512 * t.cur.lanegrant.toNat + 2 ^ 32 * bits) ∧
          holds 8 (vnreg + 128 * kind (·.acc0) + 256 * kind (·.acc1)) ∧ holds 0x10 t.cur.vowner.toNat ∧
          holds 0x18 (slicesAt + if v.entered then 1311744 * t.cur.lanes else 0) ∧
          holds 0x40 v.vl ∧ holds 0x48 v.vstart ∧
          holds 0x50 (64 * v.mz.toNat + 32 * v.virt.toNat + 16 * v.seg.toNat + 8 * v.tp.toNat + Nat.log2 (v.ew.bits / 8)) ∧
          holds 0x58 (vrmOrder.idxOf v.vrm) ∧ holds 0x60 v.vsat.toNat ∧ holds 0x68 (v.planebase.toNat * 65536) ∧
          holds 0x70 v.mmode.toNat ∧
          (∀ i : Fin 8,
            let q := v.streams[i]
            (∀ j < 8, holds (0x100 + 128 * i.val + 8 * j) (q.pattern.getD j 0).toNat) ∧
            holds (0x140 + 128 * i.val) (q.pos % 2 ^ 48 * 65536 + q.fcode.toNat * 256 + 64 * q.ovr.toNat + 32 * q.exh.toNat +
              16 * q.write.toNat + 8 * q.bound.isSome.toNat + 4 * q.cfg.toNat) ∧
            holds (0x148 + 128 * i.val) ((q.bound.map (·.toNat)).getD 0)) ∧
          (∀ q < 9, ∀ j < 256, holds (0x1000 + 2048 * q + 8 * j) ((masks.getD q 0).toNat / 2 ^ (64 * j) % 2 ^ 64)) ∧
          (∀ n < vnreg, ∀ i < bits / 64,
            holds (0x6000 + n * (bits / 8) + 8 * i) (Memory.readLE v.v (n * t.cur.regBytes + 8 * i) 8)) ∧
          (v.entered = true → ∀ j l, v.slices[j]? = some l →
            let at_ := slicesAt + 1311744 * j
            (∀ k < 16384, ∀ p < 5, holds (at_ + 40 * k + 8 * p) (l.raw 0 p (k / 128) (k % 128)) ∧
              holds (at_ + 655360 + 40 * k + 8 * p) (l.raw 1 p (k / 128) (k % 128))) ∧
            ∀ c < 128, holds (at_ + 1310720 + 8 * c) (l.raw 0 5 0 c)))) ∧
    (s.Ready (.vrestore a) t → xa.toNat % 4096 = 0 → xa.toNat < 2 ^ 56 → ∀ tbl u,
      t.sortPages (distinct ((plan (t.cur.imageSize true) .load).addresses.map fun p => granule p.1)) = (tbl, u) →
      let rd := fun off => u.imageWord tbl (xa.toNat + off)
      let bit := fun (off k : Nat) => decide (rd off / 2 ^ k % 2 = 1)
      let len := t.cur.imageSize (bit 0 8)
      (∀ p ∈ (plan len .load).addresses, ∃ x, u.byGranule tbl .load p.1 = .ok x) → xa.toNat + len ≤ 2 ^ 56 →
      let fits := rd 0 % 256 = 1 ∧ rd 0 / 2 ^ 32 = bits ∧ rd 8 % 128 = vnreg ∧
        (bit 0 8 = true → laneCount (BitVec.ofNat 8 (rd 0 / 512)) = t.cur.lanes)
      (¬fits → exec (.vrestore a) s = .next (u.trap .vimage xa)) ∧
      (fits → ∃ z, exec (.vrestore a) s = .next z ∧ z.cur.pc = t.cur.pc + 8 ∧
        z.cur.x = t.cur.x ∧ z.cur.vowner = t.cur.vowner ∧ z.others = t.others ∧ z.larder = t.larder ∧ z.hostMem = t.hostMem ∧
        let v := z.cur.vec
        v.vl = (if rd 0x40 ≤ z.cur.vlmax then rd 0x40 else min t.cur.vec.vl z.cur.vlmax) ∧
        v.vstart = (if rd 0x48 < max 1 z.cur.vlmax then rd 0x48 else min t.cur.vec.vstart (z.cur.vlmax - 1)) ∧
        v.mz = bit 0x50 6 ∧ v.virt = bit 0x50 5 ∧ v.seg = bit 0x50 4 ∧ v.tp = bit 0x50 3 ∧
        (rd 0x50 % 8 < 4 → v.ew.bits = 8 * 2 ^ (rd 0x50 % 8)) ∧ (4 ≤ rd 0x50 % 8 → v.ew = t.cur.vec.ew) ∧
        (rd 0x58 % 8 < 5 → vrmOrder[rd 0x58 % 8]? = some v.vrm) ∧ (5 ≤ rd 0x58 % 8 → v.vrm = t.cur.vec.vrm) ∧
        v.vsat = bit 0x60 0 ∧ z.cur.usedLarder = true ∧ v.planebase = (if rd 0x68 / 65536 % 4096 ≤ 0xBF0
          then BitVec.ofNat 12 (rd 0x68 / 65536) else t.cur.vec.planebase) ∧ v.vnreg = vnreg ∧
        v.mmode = (if vnreg = 64 then bit 0x70 0 else t.cur.vec.mmode) ∧
        (∀ q : Fin 7, ∀ e < 16384, v.m[q].getLsbD e = bit (0x1000 + 2048 * q.val + 8 * (e / 64)) (e % 64)) ∧
        (∀ e < 16384, v.mf.getLsbD e = bit (0x4800 + 8 * (e / 64)) (e % 64) ∧
          v.ms.getLsbD e = bit (0x5000 + 8 * (e / 64)) (e % 64)) ∧
        (vnreg ∈ [8, 16, 32, 64] → ∀ n < vnreg, ∀ i < bits / 64,
          Memory.readLE v.v (n * z.cur.regBytes + 8 * i) 8 = rd (0x6000 + n * (bits / 8) + 8 * i)) ∧
        (∀ i : Fin 8,
          let q := v.streams[i]
          let at_ := 0x140 + 128 * i.val
          q.cfg = bit at_ 2 ∧ q.bound = (if bit at_ 3 then some (BitVec.ofNat 6 (rd (at_ + 8))) else none) ∧
          q.write = bit at_ 4 ∧ q.exh = bit at_ 5 ∧ q.ovr = bit at_ 6 ∧ q.fcode = BitVec.ofNat 8 (rd at_ / 256) ∧
          q.pos = rd at_ / 65536 ∧ q.pattern = (List.range 8).map fun j => BitVec.ofNat 64 (rd (0x100 + 128 * i.val + 8 * j))) ∧
        v.slices.length = t.cur.lanes ∧ v.entered = (t.cur.vec.entered || bit 0 8) ∧
        (bit 0 8 = false → v.slices = List.replicate t.cur.lanes .reset) ∧
        (bit 0 8 = true → ∀ l ∈ v.slices, l.acc0.bf16 = bit 8 7 ∧ l.acc1.bf16 = bit 8 8)))

/-! ### Engine queues (R229, R248 to R258) -/

/-- The QUEUE words that enter a command (R229, R249, R255): a queue of another strand raises ACCESS with its number; a full
queue makes the strand wait; else the command, with its operand values and the level of issue, is the newest of its queue,
and a fence is entered in every queue of its set. A command's block is read when it is entered. -/
def Obligations.QueueWordsEnter : Prop :=
  ∀ s t : State,
    let own := fun (q : BitVec 5) => q.toNat / 4 = t.cur.id.sid.toNat
    let len := fun (j : Nat) => (t.cur.queues[j % 4]).entries.length
    let opt := fun (r : XReg) => if r = 0 then none else some (t.getX r)
    let adds := fun (u : State) (l : Bool) (q : BitVec 5) (e : QEntry) =>
      ∃ k : Vector EngineQueue 4,
        u.cur = { t.cur with pc := t.cur.pc + 8, conv := u.cur.conv, usedLarder := l, queues := k } ∧ u.others = t.others ∧
          u.larder = t.larder ∧ ∀ j : Fin 4, k[j] = if j.val = q.toNat % 4
            then { t.cur.queues[j] with entries := t.cur.queues[j].entries ++ [e] } else t.cur.queues[j]
    let common := fun (i : Instr) (q : BitVec 5) => s.Ready i t →
      (¬own q → exec i s = .next (t.trap .access (q.setWidth 64))) ∧
      (own q → 16 ≤ len q.toNat → exec i s = .next { t with cur := { t.cur with run := .queueRoom } })
    (∀ o : QcopyOp, common (.qcopy o) o.q ∧
      (s.Ready (.qcopy o) t → own o.q → len o.q.toNat < 16 → ∃ u l, exec (.qcopy o) s = .next u ∧ adds u l o.q
        { cmd := .copy (t.getX o.src) (t.getX o.dst) (t.getX o.cnt) o.sl o.dl, ntf := opt o.ntf, scope := o.scope
          level := t.cur.level } ∧ u.mem = t.mem)) ∧
    (∀ o : QsignalOp, common (.qsignal o) o.q ∧
      (s.Ready (.qsignal o) t → own o.q → len o.q.toNat < 16 → ∃ u l, exec (.qsignal o) s = .next u ∧ adds u l o.q
        { cmd := .signal (opt o.wr) (t.getX o.val) (t.getX o.add) (t.getX o.sig), ntf := none, scope := o.scope
          level := t.cur.level } ∧ u.mem = t.mem)) ∧
    (∀ o : QblockOp, ∀ r ∈ ([(.qgather o, .gather), (.qscatter o, .scatter), (.qpload o, .pload), (.qpstore o, .pstore),
        (.qspload o, .spload)] : List (Instr × (List Word → QCmd))),
      common r.1 o.q ∧
      (s.Ready r.1 t → own o.q → len o.q.toNat < 16 → ∀ x k, t.access (t.getX o.blk) 64 .load = (.ok x, k) →
        ∃ u l, exec r.1 s = .next u ∧ adds u l o.q
          { cmd := r.2 ((List.range 8).map fun i =>
              BitVec.ofNat 64 (t.readPlace { x.place with addr := x.place.addr + 8 * i } 8))
            ntf := opt o.ntf, scope := o.scope, level := t.cur.level })) ∧
    (∀ o : QfenceOp, s.Ready (.qfence o) t →
      let js := (List.range 4).filter fun j => decide (j = o.q.toNat % 4) || o.join.getLsbD j
      (¬own o.q → exec (.qfence o) s = .next (t.trap .access (o.q.setWidth 64))) ∧
      (own o.q → (∃ j ∈ js, 16 ≤ len j) → exec (.qfence o) s = .next { t with cur := { t.cur with run := .queueRoom } }) ∧
      (own o.q → (∀ j ∈ js, len j < 16) → ∃ (n : Nat) (k : Vector EngineQueue 4),
        exec (.qfence o) s = .next { t with cur := { t.cur with pc := t.cur.pc + 8, queues := k } } ∧
        ∀ j : Fin 4, k[j] = if j.val ∈ js then { t.cur.queues[j] with entries := t.cur.queues[j].entries ++
            [{ cmd := .fence n js, ntf := if j.val = o.q.toNat % 4 then opt o.ntf else none, scope := o.scope
               level := t.cur.level }] } else t.cur.queues[j]))

/-- QSTAT (R257, R258) and the ends of the queue waits (R229, R257): the status and the fault record are written; CLR lets a
halted queue go on, with DROP without its oldest command; WAIT sleeps while the queue has commands and is not halted; WAIT
on a queue halted with code RESIDUAL raises RESIDUAL. A sleeping word is done once its queue is empty or has room. -/
def Obligations.QstatResults : Prop :=
  ∀ (o : QstatOp) (s t : State), t.cur.id.sid.toNat = o.q.toNat / 4 →
    let q := t.cur.queues[o.q.toNat % 4]
    let atFence := match q.entries with
      | { cmd := .fence _ _, .. } :: _ => !q.halted
      | _ => false
    let status := q.done.toNat * 65536 + (if atFence then 512 else 0) + (if q.halted then 256 else 0) + min 31 q.entries.length
    let x1 := if o.st = 0 then t.cur.x else t.cur.x.set o.st.toNat (BitVec.ofNat 64 status)
    let x2 := if o.recd = 0 then x1 else x1.set o.recd.toNat q.fault
    let sleeps := o.w = true ∧ q.halted = false ∧ q.entries ≠ []
    let residual := o.w = true ∧ q.halted = true ∧ q.fault.toNat % 65536 = 0x10B
    let queues := if o.clr ∧ q.halted then t.cur.queues.set (o.q.toNat % 4)
      { q with halted := false, fault := 0, entries := if o.drop then q.entries.tail else q.entries } else t.cur.queues
    (s.Ready (.qstat o) t →
      (sleeps → exec (.qstat o) s = .next { t with cur := { t.cur with run := .qstatWait } }) ∧
      (residual → exec (.qstat o) s = .next (t.trap .residual q.fault)) ∧
      (¬sleeps → ¬residual →
        exec (.qstat o) s = .next { t with cur := { t.cur with pc := t.cur.pc + 8, x := x2, queues := queues } })) ∧
    (t.cur.run = .qstatWait → QstatOp.ofRaw (RawVQ.unpack t.cur.iword) = some o → (RawVQ.unpack t.cur.iword).fn = 8 →
      (sleeps → exec (.qstatWaitDone t.cur.id) t = .next { t with cur := { t.cur with note := none } }) ∧
      (¬sleeps → ¬residual → exec (.qstatWaitDone t.cur.id) t = .next { t with cur := { t.cur with
        pc := t.cur.pc + 8, x := x2, queues := queues, run := .running, note := none, slot := 0, reissue := .retire } })) ∧
    (∀ p : QcopyOp, p.q = o.q → t.cur.run = .queueRoom → (RawVQ.unpack t.cur.iword).fn = 0 →
      QcopyOp.ofRaw (RawVQ.unpack t.cur.iword) = some p →
      (16 ≤ q.entries.length →
        exec (.queueEntryRoom t.cur.id) t = .next { t with cur := { t.cur with note := none } }) ∧
      (q.entries.length < 16 → ∃ u e, exec (.queueEntryRoom t.cur.id) t = .next u ∧ u.cur.run = .running ∧
        u.cur.pc = t.cur.pc + 8 ∧ u.cur.reissue = .retire ∧
        u.cur.queues = t.cur.queues.set (o.q.toNat % 4) { q with entries := q.entries ++ [e] } ∧
        e.cmd = .copy (t.getX p.src) (t.getX p.dst) (t.getX p.cnt) p.sl p.dl))

/-- What an engine leaves when it performs the oldest command of queue j of a strand (R230, R248, R250), for every command
but a fence or a signal: one that stalls leaves the queue as it was; one that faults before it wrote halts the queue with
its fault record, without its notify; one that is done has written its bytes, left the queue and counted in DONE; its
notify, if it has one, is added. No register of the strand changes. `run` gives what the command does, as its own rule says.
(What the commands with a block do, in the terms of their own rules, is stated in BlockCommandResults.)
QCOPY within the Larder (R251): performed, each destination byte holds what its source byte held; every other byte of the
Larders and all of memory are as before; a count above 2³² halts with ECOUNT, a range past the Larder with ELARDER and
overlap with EOVERLAP. That they are found in this order, the source's range before the destination's, and DETAIL 0 of ECOUNT
and EOVERLAP are the model's reading (log 39). -/
def Obligations.EnginePerformResults : Prop :=
  (∀ (s : State) (j : BitVec 2) (e : QEntry) (es : List QEntry) (i : Instr) (run : State → ERun),
     let q := s.cur.queues[j.toNat]
     let w := s.cur.id
     let pick : Option (Instr × (State → ERun)) := match e.cmd with
       | .copy a b n sl dl => some (.qcopyPerform w j, State.runCopy a b n sl dl)
       | .gather b => some (.qgatherPerform w j, State.runGather b false)
       | .scatter b => some (.qscatterPerform w j, State.runGather b true)
       | .pload b => some (.qploadPerform w j, State.runPload b)
       | .pstore b => some (.qpstorePerform w j, State.runPstore b)
       | .spload b => some (.qsploadPerform w j, State.runSpload b)
       | .fence _ _ => none
       | .signal _ _ _ _ => none
     pick = some (i, run) →
     q.entries = e :: es → q.halted = false → s.cur.run ≠ .stopped →
     let s0 : State := { s.stir s.cur.id.core [6, 7, 8, 9] with cur := { s.cur with level := e.level } }
     let set := fun (n : EngineQueue) => s.cur.queues.set j.toNat n
     (∀ u, run s0 = (.error .stall, u) → ∃ t, exec i s = .next t ∧ t.cur.queues = s.cur.queues ∧ t.cur.x = s.cur.x) ∧
     (∀ u c d, run s0 = (.error (.fault c d []), u) → ∃ t, exec i s = .next t ∧ t.cur.x = s.cur.x ∧
       t.cur.queues = set { q with halted := true, fault := faultRecord e.cmd.fn c d }) ∧
     (∀ u r, run s0 = (.ok r, u) → e.ntf = none → ∃ t, exec i s = .next t ∧ t.cur.x = s.cur.x ∧ t.cur.pc = s.cur.pc ∧
       t.cur.level = s.cur.level ∧ t.cur.vec = s.cur.vec ∧
       t.cur.queues = set { q with entries := es, done := q.done + 1 } ∧
       (∀ (l1 l2 : List EWrite) (w : EWrite), r.all = l1 ++ w :: l2 → w.src = none →
         (∀ x ∈ l2, match w.dst, x.dst with
           | .mem a _, .mem b _ => a.place.apart 1 b.place 1
           | .larder a, .larder b => a ≠ b
           | _, _ => True) → t.readSpot w.dst = w.val) ∧
       (r.all = [] → t.mem = u.mem ∧ t.larder = u.larder)) ∧
     (∀ u r a x k, run s0 = (.ok r, u) → e.ntf = some a → r.all = [] → r.records = [] → a.toNat % 8 = 0 →
       a.toNat < 2 ^ 56 → u.translate u.cur.via u.cur.level a.toNat .amo false = (.ok x, k) →
       ∃ t, exec i s = .next t ∧ t.cur.queues = set { q with entries := es, done := q.done + 1 } ∧
         t.readPlace x.place 8 = (u.readPlace x.place 8 + 1) % 2 ^ 64)) ∧
  (∀ (s : State) (j : BitVec 2) (e : QEntry) (es : List QEntry) (a b n : Word),
     let q := s.cur.queues[j.toNat]
     q.entries = e :: es → q.halted = false → s.cur.run ≠ .stopped → e.cmd = .copy a b n true true → e.ntf = none →
     let base := larderBase s.cur.id.core
     let halts := fun (c : Nat) (d : Nat) => ∃ t, exec (.qcopyPerform s.cur.id j) s = .next t ∧
       t.mem = s.mem ∧ t.larder = s.larder ∧ t.cur.queues = s.cur.queues.set j.toNat
         { q with halted := true, fault := BitVec.ofNat 64 (d * 2 ^ 32 + c) }
     (2 ^ 32 < n.toNat → halts 0x105 0) ∧
     (0 < n.toNat → n.toNat ≤ 2 ^ 32 →
       (larderSize < a.toNat + n.toNat → halts 0x103 (larderSize - a.toNat)) ∧
       (a.toNat + n.toNat ≤ larderSize → larderSize < b.toNat + n.toNat → halts 0x103 (larderSize - b.toNat)) ∧
       (a.toNat + n.toNat ≤ larderSize → b.toNat + n.toNat ≤ larderSize →
         (a.toNat < b.toNat + n.toNat ∧ b.toNat < a.toNat + n.toNat → halts 0x106 0) ∧
         (b.toNat + n.toNat ≤ a.toNat ∨ a.toNat + n.toNat ≤ b.toNat →
           ∃ t, exec (.qcopyPerform s.cur.id j) s = .next t ∧ t.mem = s.mem ∧ t.hostMem = s.hostMem ∧ t.others = s.others ∧
             t.cur.queues = s.cur.queues.set j.toNat { q with entries := es, done := q.done + 1 } ∧ t.cur.x = s.cur.x ∧
             (∀ k < n.toNat, Memory.read t.larder (base + b.toNat + k) = Memory.read s.larder (base + a.toNat + k)) ∧
             (∀ p, p < base + b.toNat ∨ base + b.toNat + n.toNat ≤ p → Memory.read t.larder p = Memory.read s.larder p)))))

/-- QFENCE_PASS, QSIGNAL_PERFORM and WATCH_IMPRECISE (R255, R256, R332): a fence leaves every queue of its set once it is the
oldest command of each and none is halted, and its notify, if it has one, is added; and not before: QFENCE_PASS changes nothing
while some queue of the set is halted or holds an older command in front of the fence. A signal without a store
adds to its word; one with a store stores its eight bytes, then adds; a misaligned address of either halts the queue with
EALIGN, and with nothing done and DETAIL 0 by the model's reading (log 39). A kind-E match is raised at a boundary, and not while
IN is 1; that the one held longest comes first, and the others stay held, is the model's choice (log 54). That a fence leaves
all the queues of its set in one step, with its notify, is the model's reading (log 40). -/
def Obligations.EngineFenceAndSignal : Prop :=
  (∀ (s : State) (j : BitVec 2) (e : QEntry) (es : List QEntry) (id : Nat) (js : List Nat),
    s.cur.queues[j.toNat].entries = e :: es → e.cmd = .fence id js → s.cur.run ≠ .stopped → (∀ k ∈ js, k < 4) →
    let popped := fun (v : Vector EngineQueue 4) => ∀ k : Fin 4, v[k] = if k.val ∈ js
      then { s.cur.queues[k] with entries := s.cur.queues[k].entries.tail, done := s.cur.queues[k].done + 1 }
      else s.cur.queues[k]
    let heads := fun (ntf : Fin 4 → Option Word) =>
      ∀ k : Fin 4, k.val ∈ js → ∃ f l, s.cur.queues[k].entries = f :: l ∧ f.cmd = .fence id js ∧ f.ntf = ntf k
    (heads (fun _ => none) →
      ((∀ k : Fin 4, k.val ∈ js → s.cur.queues[k].halted = false) → js.Nodup →
        ∃ (v : Vector EngineQueue 4) (c : List CoreState),
          exec (.qfencePass s.cur.id j) s = .next { s with cores := c, cur := { s.cur with queues := v } } ∧ popped v) ∧
      ((∃ k : Fin 4, k.val ∈ js ∧ s.cur.queues[k].halted = true) → exec (.qfencePass s.cur.id j) s = .next s)) ∧
    (∀ (k : Fin 4) (f : QEntry) (l : List QEntry), k.val ∈ js → s.cur.queues[k].entries = f :: l →
      (∀ ks, f.cmd ≠ .fence id ks) → (∃ g ∈ l, ∃ ks, g.cmd = .fence id ks) → exec (.qfencePass s.cur.id j) s = .next s) ∧
    (∀ (n : Fin 4) (f : QEntry) (l : List QEntry) (a : Word) (x : Xlat) (u : State), n.val ∈ js → js.Nodup →
      (∀ k : Fin 4, k.val ∈ js → s.cur.queues[k].halted = false) → heads (fun k => if k = n then some a else none) →
      s.cur.queues[n].entries = f :: l → a.toNat % 8 = 0 → a.toNat < 2 ^ 56 →
      ({ s with cur := { s.cur with level := f.level } } : State).translate s.cur.via f.level a.toNat .amo false = (.ok x, u) →
      ∃ t, exec (.qfencePass s.cur.id j) s = .next t ∧ popped t.cur.queues ∧ t.cur.x = s.cur.x ∧
        t.readPlace x.place 8 = (s.readPlace x.place 8 + 1) % 2 ^ 64)) ∧
  (∀ (s k : State) (j : BitVec 2) (e : QEntry) (es : List QEntry) (v add sig : Word) (x : Xlat),
    let q := s.cur.queues[j.toNat]
    q.entries = e :: es → q.halted = false → s.cur.run ≠ .stopped →
    let s0 : State := { s.stir s.cur.id.core [6, 7, 8, 9] with cur := { s.cur with level := e.level } }
    let popped := s.cur.queues.set j.toNat { q with entries := es, done := q.done + 1 }
    (e.cmd = .signal none v add sig → sig.toNat % 8 = 0 → sig.toNat < 2 ^ 56 →
      s0.translate s.cur.via e.level sig.toNat .amo false = (.ok x, k) →
      ∃ t, exec (.qsignalPerform s.cur.id j) s = .next t ∧ t.cur.x = s.cur.x ∧ t.cur.queues = popped ∧
        t.readPlace x.place 8 = (s.readPlace x.place 8 + add.toNat) % 2 ^ 64) ∧
    (∀ (a : Word) (tbl : PageTable) (u : State) (y : Nat → Xlat), e.cmd = .signal (some a) v add sig → a.toNat % 8 = 0 →
      a.toNat < 2 ^ 56 → sig.toNat % 8 = 0 → sig.toNat < 2 ^ 56 → s0.sortPages [a.toNat / 65536 * 65536] = (tbl, u) →
      (∀ i < 8, u.spotAt tbl .store false (a.toNat + i) = .ok (.mem (y i) (a.toNat + i))) →
      let byte := fun (i : Nat) => BitVec.ofNat 8 (v.toNat / 256 ^ i)
      let w := u.doWrites ((List.range 8).map fun i => { dst := .mem (y i) (a.toNat + i), src := none, val := byte i })
      w.translate w.cur.via e.level sig.toNat .amo false = (.ok x, k) →
      ∃ t, exec (.qsignalPerform s.cur.id j) s = .next t ∧ t.cur.x = s.cur.x ∧ t.cur.queues = popped ∧
        t.readPlace x.place 8 = (w.readPlace x.place 8 + add.toNat) % 2 ^ 64 ∧
        ∀ i < 8, (∀ m < 8, m ≠ i → (y i).place.apart 1 (y m).place 1) → (y i).place.apart 1 x.place 8 →
          ((y i).place.host = true ∨ x.spares (y i).place.addr 1) → t.readPlace (y i).place 1 = (byte i).toNat) ∧
    (∀ st : Option Word, e.cmd = .signal st v add sig →
      (sig.toNat % 8 ≠ 0 ∨ ∃ a, st = some a ∧ a.toNat % 8 ≠ 0) →
      ∃ t, exec (.qsignalPerform s.cur.id j) s = .next t ∧ t.cur.x = s.cur.x ∧ t.mem = s.mem ∧ t.hostMem = s.hostMem ∧
        t.cur.queues = s.cur.queues.set j.toNat { q with halted := true, fault := BitVec.ofNat 64 (7 * 65536 + 0x104) })) ∧
  (∀ (s : State) (j : BitVec 2) (h : BitVec 6 × Word) (rest : List (BitVec 6 × Word)), s.cur.watchHeld = h :: rest →
    h.1.toNat % 4 = j.toNat → s.cur.run = .running → s.cur.slot = 0 → s.cur.reissue = .none → s.cur.level ≠ .f →
    (s.cur.trIn = false → ∃ t, exec (.watchImprecise s.cur.id j) s = .next t ∧ t.cur.watchHeld = rest ∧
      s.Entered t s.cur.pc 0 .watch 0 (BitVec.ofNat 64 (2 ^ 63 + h.1.toNat * 2 ^ 56 + h.2.toNat % 2 ^ 56))) ∧
    (s.cur.trIn = true → exec (.watchImprecise s.cur.id j) s = .next s))

/-- QGATHER, QSCATTER, QPLOAD, QPSTORE and QSPLOAD, without a notify, by their blocks (Tables 12-10, 12-11, 15-1). A block with a
reserved field set or a value that its table does not allow halts the queue with EBLOCK, and after it in the model's order
(log 39) a range past the Larder with ELARDER, more than 1,024 entries with ECOUNT, and a misaligned address with EALIGN; no
byte is written then. The first index, element or byte of a row that is not reached halts it with the code of its cause and its
byte offset; of QSPLOAD this is said of the first byte of its source alone.
QGATHER and QSCATTER (R252): element k of the list, of EW bytes at BASE + Index(k), and the packed element k, both in either
memory: the destination holds what the source held where no later element of the list is written over it; no other byte
changes but in the page-table entries whose A and D bits are set; COUNT 0 moves nothing. QPLOAD (R253, R265, R266): bit b of the
encoding of element (r, k) is bit k of row r of plane b; elements past ROWS and KCOUNT are 0, and so are planes past the width;
the plane record is the largest need. QPSTORE: the elements of those rows alone, in memory, and the Larder as it was. QSPLOAD
(R292 to R299), of a dense tile or a list: the whole source is read first; FMT and VER = 1 in the header, L and the FP32 total,
and the fate of what the terms leave by R295: dropped under the bound, a list of at most 64 entries, a dense term, or
RESIDUAL with their count where FALLBACK is 0 and no byte written. Every non-zero element of the tile that is not dropped stands
in a slot of a term with its column, or in the list; what stands in either is an element of the tile; a tile of at most 64
non-zeros has no structured term. -/
def Obligations.BlockCommandResults : Prop :=
  ∀ (s : State) (j : BitVec 2) (e : QEntry) (es : List QEntry) (b : List Word),
    let q := s.cur.queues[j.toNat]
    let who := s.cur.id
    q.entries = e :: es → q.halted = false → s.cur.run ≠ .stopped → e.ntf = none →
    let s0 : State := { s.stir who.core [6, 7, 8, 9] with cur := { s.cur with level := e.level } }
    let w := fun (i : Nat) => (b.getD i 0).toNat
    let field := fun (i lo n : Nat) => w i / 2 ^ lo % 2 ^ n
    let spare := w 4 = 0 ∧ w 5 = 0 ∧ w 6 = 0 ∧ w 7 = 0
    let lar := fun (t : State) (a : Nat) => (Memory.read t.larder (larderBase who.core + a)).toNat
    let halts := fun (i : Instr) (fn c : Nat) (d : Int) (read : Prop) => ∃ t, exec i s = .next t ∧ t.cur.x = s.cur.x ∧
      t.hostMem = s.hostMem ∧ t.larder = s.larder ∧ (¬read → t.mem = s.mem) ∧
      t.cur.queues = s.cur.queues.set j.toNat { q with
        halted := true
        fault := BitVec.ofNat 64 (min d.natAbs (2 ^ 32 - 1) * 2 ^ 32 + (if d < 0 then 2 ^ 20 else 0) + fn * 65536 + c) }
    let done := fun (i : Instr) (post : State → Prop) => ∃ t, exec i s = .next t ∧ t.cur.x = s.cur.x ∧ t.cur.pc = s.cur.pc ∧
      t.others = s.others ∧ t.cur.queues = s.cur.queues.set j.toNat { q with entries := es, done := q.done + 1 } ∧ post t
    let code := fun (c : Cause) => match c with
      | .page => 0x101
      | .align => 0x104
      | .portgone => 0x109
      | .hostgone => 0x10A
      | _ => 0x102
    (∀ g ∈ [(Instr.qgatherPerform who j, QCmd.gather b, false), (.qscatterPerform who j, .scatter b, true)], e.cmd = g.2.1 →
      let scatter := g.2.2
      let fn := if scatter then 2 else 1
      let count := field 3 0 32
      let size := 2 ^ field 3 32 3
      let isize := if field 3 35 1 = 1 then 8 else 4
      let ilar := decide (field 3 36 1 = 1)
      let dlar := decide (field 3 37 1 = 1)
      let good := w 3 / 2 ^ 38 = 0 ∧ field 3 32 3 ≤ 3 ∧ spare
      (¬good → halts g.1 fn 0x107 0 False) ∧
      (good → count = 0 → done g.1 fun t => t.mem = s.mem ∧ t.hostMem = s.hostMem ∧ t.larder = s.larder) ∧
      (good → 0 < count →
        let fitsI := ilar = true → w 1 + count * isize ≤ larderSize
        let fitsD := dlar = true → w 2 + count * size ≤ larderSize
        (¬fitsI → halts g.1 fn 0x103 ((larderSize - w 1 : Nat) : Int) False) ∧
        (fitsI → ¬fitsD → halts g.1 fn 0x103 ((larderSize - w 2 : Nat) : Int) False) ∧
        (fitsI → fitsD → w 1 % isize ≠ 0 → halts g.1 fn 0x104 0 False) ∧
        (fitsI → fitsD → w 1 % isize = 0 → ∀ (ti : PageTable) (v : State),
          s0.sortPages (if ilar then [] else rangeGranules (w 1) (count * isize)) = (ti, v) →
          (∀ k < count, ∀ c, ilar = false → v.spotAt ti .load false ((w 1 + k * isize) % 2 ^ 64) = .error (.trap c) →
            (∀ m < k * isize, ∃ sp, v.Reaches ti .load false (w 1 + m) sp) → halts g.1 fn (code c) (k * isize : Nat) True) ∧
          ∀ ix : Nat → Nat → Spot, (∀ k < count, ∀ m < isize, v.Reaches ti .load ilar (w 1 + k * isize + m) (ix k m)) →
            let v1 := v.touchReads ((List.range count).flatMap fun k => (List.range isize).map (ix k))
            let idx := fun (k : Nat) => ((List.range isize).map fun m => (v1.readSpot (ix k m)).toNat * 256 ^ m).sum
            let at_ := fun (k : Nat) => (w 0 + idx k) % 2 ^ 64
            (∀ k < count, at_ k % size ≠ 0 → (∀ m < k, at_ m % size = 0) → halts g.1 fn 0x104 (idx k : Nat) (ilar = false)) ∧
            ((∀ k < count, at_ k % size = 0) → ∀ (te td : PageTable) (u1 u : State),
              v1.sortPages (elemGranules ((List.range count).map at_)) = (te, u1) →
              u1.sortPages (if dlar then [] else rangeGranules (w 2) (count * size)) = (td, u) →
              let need : Need := if scatter then .store else .load
              let back : Need := if scatter then .load else .store
              (∀ k < count, ∀ c, u.spotAt te need false (at_ k) = .error (.trap c) →
                (∀ n < k, ∀ m < size, ∃ sp, u.Reaches te need false (at_ n + m) sp) →
                ∃ t, exec g.1 s = .next t ∧ t.cur.x = s.cur.x ∧ t.cur.queues = s.cur.queues.set j.toNat { q with
                  halted := true, fault := BitVec.ofNat 64 (min (idx k) (2 ^ 32 - 1) * 2 ^ 32 + fn * 65536 + code c) }) ∧
              ∀ el da : Nat → Nat → Spot,
                (∀ k < count, ∀ m < size, u.Reaches te need false (at_ k + m) (el k m) ∧
                  u.Reaches td back dlar (w 2 + k * size + m) (da k m)) →
                let src := if scatter then da else el
                let dst := if scatter then el else da
                let z := u.touchReads ((List.range count).flatMap fun k => (List.range size).map (src k))
                done g.1 fun t =>
                  (∀ k < count, ∀ m < size,
                    (∀ k' < count, ∀ m' < size, k < k' ∨ (k = k' ∧ m < m') → (dst k m).apart (dst k' m')) →
                    t.readSpot (dst k m) = z.readSpot (src k m)) ∧
                  ∀ p : Spot, (∀ k < count, (∀ m < size, p.apart (dst k m) ∧ p.unmoved (el k m) ∧ p.unmoved (da k m)) ∧
                    ∀ m < isize, p.unmoved (ix k m)) → t.readSpot p = s.readSpot p)))) ∧
    (∀ g ∈ [(Instr.qploadPerform who j, QCmd.pload b, false), (.qpstorePerform who j, .pstore b, true)], e.cmd = g.2.1 →
      let store := g.2.2
      let fn := if store then 4 else 3
      let panel := field 2 0 28
      let rows := field 3 4 8
      let kc := field 3 12 6
      let stride := (b.getD 1 0).toInt
      let width := ([0, 0, 16, 16, 8, 8, 4, 0, 8, 0, 0, 0, 8, 4, 4, 0] : List Nat).getD (field 3 0 4) 0
      let size := max 1 (width / 8)
      let good := width ≠ 0 ∧ w 2 / 2 ^ 28 = 0 ∧ w 3 / 2 ^ 18 = 0 ∧ panel % 8192 = 0 ∧ 0 < rows ∧ rows ≤ 128 ∧ 0 < kc ∧ kc ≤ 32 ∧
        spare ∧ ¬(store = true ∧ width = 4 ∧ kc % 2 = 1)
      (¬good → halts g.1 fn 0x107 0 False) ∧
      (good → larderSize < panel + 8192 → halts g.1 fn 0x103 ((larderSize - panel : Nat) : Int) False) ∧
      (good → panel + 8192 ≤ larderSize → w 0 % size ≠ 0 ∨ stride % size ≠ 0 → halts g.1 fn 0x104 0 False) ∧
      (good → panel + 8192 ≤ larderSize → w 0 % size = 0 → stride % size = 0 → ∀ f, Fmt.ofCode (BitVec.ofNat 4 (w 3)) = some f →
        let row := if width = 4 then (kc + 1) / 2 else kc * size
        let at_ := fun (r i : Nat) => (BitVec.ofInt 64 ((w 0 : Int) + r * stride + i)).toNat
        let bit := fun (t : State) (p r k : Nat) => decide (lar t (panel + 512 * p + 4 * r + k / 8) / 2 ^ (k % 8) % 2 = 1)
        ∀ (tbl : PageTable) (u : State),
          s0.sortPages (elemGranules ((List.range rows).flatMap fun r => (List.range row).map (at_ r))) = (tbl, u) →
          let need : Need := if store then .store else .load
          (∀ r < rows, ∀ i < row, ∀ c, u.spotAt tbl need false (at_ r i) = .error (.trap c) →
            (∀ n < rows, ∀ m < row, n < r ∨ (n = r ∧ m < i) → ∃ sp, u.Reaches tbl need false (at_ n m) sp) →
            let d : Int := r * stride + i
            ∃ t, exec g.1 s = .next t ∧ t.cur.x = s.cur.x ∧ t.cur.queues = s.cur.queues.set j.toNat { q with
              halted := true
              fault := BitVec.ofNat 64 (min d.natAbs (2 ^ 32 - 1) * 2 ^ 32 + (if d < 0 then 2 ^ 20 else 0) + fn * 65536 + code c) }) ∧
          ∀ el : Nat → Nat → Spot, (∀ r < rows, ∀ i < row, u.Reaches tbl need false (at_ r i) (el r i)) →
            (store = false → done g.1 fun t =>
              let v := u.touchReads ((List.range rows).flatMap fun r => (List.range row).map (el r))
              let enc := fun (r k : Nat) => if r < rows ∧ k < kc then
                  if width = 4 then (v.readSpot (el r (k / 2))).toNat / 16 ^ (k % 2) % 16
                  else ((List.range size).map fun i => (v.readSpot (el r (k * size + i))).toNat * 256 ^ i).sum
                else 0
              (∀ p < 16, ∀ r < 128, ∀ k < 32, bit t p r k = decide (p < width ∧ enc r k / 2 ^ p % 2 = 1)) ∧
              (∀ r < 128, ∀ k < 32, planeNeed f (enc r k) ≤ t.planeRecord who.core panel) ∧
              (∃ r < 128, ∃ k < 32, planeNeed f (enc r k) = t.planeRecord who.core panel) ∧
              (∀ a, a < larderBase who.core + panel ∨ larderBase who.core + panel + 8192 ≤ a →
                Memory.read t.larder a = Memory.read s.larder a) ∧
              t.hostMem = s.hostMem ∧ ∀ (x : Xlat) (va : Nat), (∀ r < rows, ∀ i < row, (Spot.mem x va).unmoved (el r i)) →
                t.readSpot (.mem x va) = s.readSpot (.mem x va)) ∧
            (store = true → done g.1 fun t =>
              let enc := fun (r k : Nat) => ((List.range width).map fun p => if bit s p r k then 2 ^ p else 0).sum
              t.larder = s.larder ∧
              (∀ r < rows, ∀ i < row, (∀ r' < rows, ∀ i' < row, r' ≠ r ∨ i' ≠ i → (el r i).apart (el r' i')) →
                (t.readSpot (el r i)).toNat = if width = 4 then enc r (2 * i) + 16 * enc r (2 * i + 1)
                  else enc r (i / size) / 256 ^ (i % size) % 256) ∧
              ∀ p : Spot, (∀ r < rows, ∀ i < row, p.apart (el r i) ∧ p.unmoved (el r i)) → t.readSpot p = s.readSpot p))) ∧
    (e.cmd = .spload b →
      let i := Instr.qsploadPerform who j
      let tset := field 2 0 28
      let list := decide (field 3 4 1 = 1)
      let npat := field 3 8 2
      let loss := field 3 32 16
      let count := field 3 48 11
      let stride := (b.getD 1 0).toInt
      let width := ([0, 0, 16, 0, 8, 8, 4, 0, 8, 0, 0, 0, 0, 0, 4, 0] : List Nat).getD (field 3 0 4) 0
      let size := max 1 (width / 8)
      let good := width ≠ 0 ∧ w 2 / 2 ^ 28 = 0 ∧ field 3 6 2 = 0 ∧ field 3 10 6 = 0 ∧ field 3 28 4 = 0 ∧ w 3 / 2 ^ 59 = 0 ∧ spare ∧
        (∀ p < 4, if p ≤ npat then field 3 (16 + 3 * p) 3 ≤ 4 else field 3 (16 + 3 * p) 3 = 0) ∧
        (loss ≤ 0x3C00 ∨ loss = 0x8000) ∧ tset % 4096 = 0 ∧ (list = true → w 1 = 0) ∧ (list = false → count = 0)
      let aligned := if list then w 0 % 4 = 0 else w 0 % size = 0 ∧ stride % size = 0
      (¬good → halts i 5 0x107 0 False) ∧
      (good → larderSize < tset + 0x6000 → halts i 5 0x103 0 False) ∧
      (good → tset + 0x6000 ≤ larderSize → 1024 < count → halts i 5 0x105 0 False) ∧
      (good → tset + 0x6000 ≤ larderSize → count ≤ 1024 → ¬aligned → halts i 5 0x104 0 False) ∧
      (good → tset + 0x6000 ≤ larderSize → count ≤ 1024 → aligned → ∀ f, Fmt.ofCode (BitVec.ofNat 4 (w 3)) = some f →
        -- the magnitude of a value in units of 2⁻²⁴, of which the values of these formats are multiples
        let mag := fun (n : Nat) => match (fmtKind f).value n with
          | .num _ m x => m * 2 ^ (x + 24).toNat
          | .inf _ => 0
          | .nan _ => 0
        let finite := fun (n : Nat) => match (fmtKind f).value n with
          | .num _ _ _ => True
          | .inf _ => False
          | .nan _ => False
        let word := fun (t : State) (a n : Nat) => ((List.range n).map fun m => lar t (tset + a + m) * 256 ^ m).sum
        -- what the command leaves of a tile with the encoding enc r c at row r and column c
        let settles := fun (enc : Nat → Nat → Nat) =>
          let live := (List.range 1024).filter fun n => decide (mag (enc (n / 32) (n % 32)) ≠ 0)
          let mass := fun (l : List Nat) => l.foldl (fun a n =>
            (fp32.deliver .rne ((fp32.value a).add .rne (.num false (mag (enc (n / 32) (n % 32))) (-24)))).bits) 0
          let bound := fun (total : Nat) => (fp32.deliver .rne ((fp16.value (if loss = 0x8000 then 0 else loss)).mul (fp32.value total))).bits
          let made := done i fun t =>
            let status := word t 8 8
            let terms := status / 2 ^ 45 % 8
            let dense := decide (status / 2 ^ 44 % 2 = 1)
            let dropped := decide (status / 2 ^ 43 % 2 = 1)
            let rcount := status / 2 ^ 32 % 2048
            let slot := fun (n r k : Nat) =>
              ((List.range width).map fun p => lar t (tset + 4096 * (n + 1) + 128 * p + 4 * r + k / 8) / 2 ^ (k % 8) % 2 * 2 ^ p).sum
            let col := fun (n r k : Nat) => lar t (tset + 4096 * (n + 1) + 0x800 + 32 * r + k)
            let entry := fun (n : Nat) => word t (0x40 + 4 * n) 4
            let inTerm := fun (r c : Nat) => ∃ n < terms, ∃ k < 32, col n r k = c ∧ slot n r k = enc r c
            let inList := fun (r c : Nat) => ∃ n < 64, entry n = enc r c + c * 65536 + r * 2 ^ 21
            word t 0 2 % 4096 = 1 + 256 * field 3 0 4 ∧ terms ≤ 5 ∧ word t 0x10 8 = mass live + (if loss = 0x8000 then 0 else loss) * 2 ^ 32 ∧
            (live.length ≤ 64 → terms = 0 ∧ rcount = live.length ∧ status % 2 ^ 32 = mass live) ∧
            (dropped = true ↔ 0 < rcount ∧ status % 2 ^ 32 ≤ bound (mass live)) ∧
            (dense = true ↔ dropped = false ∧ 64 < rcount) ∧ (dense = true → field 3 5 1 = 1) ∧
            (dropped = false → ∀ r < 32, ∀ c < 32, mag (enc r c) ≠ 0 → inTerm r c ∨ inList r c) ∧
            (∀ n < terms, ∀ r < 32, ∀ k < 32, col n r k ≠ 0xFF →
              col n r k < 32 ∧ slot n r k = enc r (col n r k) ∧ mag (enc r (col n r k)) ≠ 0) ∧
            (∀ n < 64, entry n ≠ 0 → n < rcount ∧ dropped = false ∧ dense = false ∧ ∃ r < 32, ∃ c < 32, mag (enc r c) ≠ 0 ∧
              entry n = enc r c + c * 65536 + r * 2 ^ 21) ∧
            (∀ a, a < larderBase who.core + tset ∨ larderBase who.core + tset + 0x6000 ≤ a →
              Memory.read t.larder a = Memory.read s.larder a) ∧ t.hostMem = s.hostMem
          let full := ∃ n : Nat, 64 < n ∧ n ≤ live.length ∧ halts i 5 0x10B n True
          (live.length ≤ 64 ∨ field 3 5 1 = 1 → made) ∧ (made ∨ full)
        ∀ (tbl : PageTable) (u : State) (el : Nat → Nat → Spot),
          (∀ c, s0.sortPages (if list then rangeGranules (w 0) (4 * count) else elemGranules ((List.range 1024).map fun n =>
              (BitVec.ofInt 64 ((w 0 : Int) + (n / 32 : Nat) * stride +
                (if width = 4 then n % 32 / 2 else n % 32 * size : Nat))).toNat)) = (tbl, u) → list = false ∨ 0 < count →
            u.spotAt tbl .load false (w 0) = .error (.trap c) → halts i 5 (code c) 0 True) ∧
          (list = true → s0.sortPages (rangeGranules (w 0) (4 * count)) = (tbl, u) →
            (∀ n < count, ∀ m < 4, u.Reaches tbl .load false (w 0 + 4 * n + m) (el n m)) →
            let v := u.touchReads ((List.range count).flatMap fun n => (List.range 4).map (el n))
            let entry := fun (n : Nat) => ((List.range 4).map fun m => (v.readSpot (el n m)).toNat * 256 ^ m).sum
            let place := fun (n : Nat) => entry n / 65536
            let bad := fun (n : Nat) => 2 ^ 26 ≤ entry n ∨ 2 ^ width ≤ entry n % 65536 ∨ (∃ m < n, place m = place n) ∨
              ¬finite (entry n % 65536)
            (∀ n < count, bad n → (∀ m < n, ¬bad m) → halts i 5 0x107 (4 * n : Nat) True) ∧
            ((∀ n < count, ¬bad n) → settles fun r c =>
              (((List.range count).find? fun n => place n = 32 * r + c).map fun n => entry n % 65536).getD 0)) ∧
          (list = false →
            let off := fun (r c : Nat) => (r : Int) * stride + (if width = 4 then c / 2 else c * size : Nat)
            let at_ := fun (n : Nat) => (BitVec.ofInt 64 ((w 0 : Int) + off (n / 32) (n % 32))).toNat
            s0.sortPages (elemGranules ((List.range 1024).map at_)) = (tbl, u) →
            (∀ n < 1024, ∀ m < size, u.Reaches tbl .load false (at_ n + m) (el n m)) →
            let v := u.touchReads ((List.range 1024).flatMap fun n => (List.range size).map (el n))
            let raw := fun (n : Nat) => ((List.range size).map fun m => (v.readSpot (el n m)).toNat * 256 ^ m).sum
            let enc := fun (r c : Nat) => if width = 4 then raw (32 * r + c) / 16 ^ (c % 2) % 16 else raw (32 * r + c)
            (∀ n < 1024, ¬finite (enc (n / 32) (n % 32)) → (∀ m < n, finite (enc (m / 32) (m % 32))) →
              halts i 5 0x107 (off (n / 32) (n % 32)) True) ∧
            ((∀ n < 1024, finite (enc (n / 32) (n % 32))) → settles enc))))

/-! ### Matrix mode (14_matrix) and the Onion words (15_onion_loader) -/

/-- MZERO, MUPD and MUPDN (R278 to R280): MZERO leaves an empty tile of the named kind in every granted slice. The updates
raise MODE where a tile is of another kind; else each cell whose row and column are active receives its product, on an exact
tile as a group of its own under the block scales, on a BF16 tile as a rounded multiply-add; the other cells and the other
tile stay. -/
def Obligations.MatrixUpdateResults : Prop :=
  ∀ s t : State,
    let sl := t.cur.vec.slices
    (∀ o : MzeroOp, s.Ready (.mzero o) t → ∃ w : List Slice,
      exec (.mzero o) s = .next { t with cur := { t.cur with pc := t.cur.pc + 8, vec := { t.cur.vec with slices := w } } } ∧
      w.length = sl.length ∧ ∀ (j : Nat) (a b : Slice), sl[j]? = some a → w[j]? = some b →
        b.tile o.acc = { Tile.reset with bf16 := decide (o.fa = .bf16) } ∧ b.tile (1 - o.acc) = a.tile (1 - o.acc) ∧
        b.sa = a.sa ∧ b.sb = a.sb ∧ b.za = a.za ∧ b.zb = a.zb ∧ b.sk = a.sk ∧ b.zr = a.zr) ∧
    (∀ (o : MupdOp) (neg : Bool),
      let i : Instr := if neg then .mupdn o else .mupd o
      let bf := decide (o.fa = .bf16)
      s.Ready i t →
        ((∃ a ∈ sl, (a.tile o.acc).bf16 ≠ bf) → exec i s = .next (t.trap .mode t.cur.iword)) ∧
        ((∀ a ∈ sl, (a.tile o.acc).bf16 = bf) → ∃ (w : List Slice) (fl : BitVec 5),
          exec i s = .next { t with cur := { t.cur with
            pc := t.cur.pc + 8, vec := { t.cur.vec with slices := w }, conv := { t.cur.conv with flags := fl } } } ∧
          w.length = sl.length ∧ ∀ (j : Nat) (a b : Slice), sl[j]? = some a → w[j]? = some b →
            b.tile (1 - o.acc) = a.tile (1 - o.acc) ∧
            ∀ r < 128, ∀ c < 128,
              let k := 128 * r + c
              let live := r < t.cur.vec.vl ∧ c < t.cur.vec.vl ∧ t.cur.maskBit o.rmask (128 * j + r) = true ∧
                t.cur.maskBit o.cmask (128 * j + c) = true
              let x := t.cur.elem o.a (container o.fa) (128 * j + r) % 2 ^ fmtWidth o.fa
              let y := t.cur.elem o.b (container o.fb) (128 * j + c) % 2 ^ fmtWidth o.fb
              let p := (operandValue o.fa (a.zeroA r) x)
              (¬live → (b.tile o.acc).cell k = (a.tile o.acc).cell k ∧
                SMap.get 0#32 (b.tile o.acc).flt k = SMap.get 0#32 (a.tile o.acc).flt k) ∧
              (live → bf = false → (b.tile o.acc).cell k = ((a.tile o.acc).cell k).endGroup
                (GSum.reset.addProduct (if neg then p.negate else p) (operandValue o.fb (a.zeroB c) y)) (a.scale r c)) ∧
              (live → bf = true →
                let m := (bf16.value x).mul (bf16.value y)
                SMap.get 0#32 (b.tile o.acc).flt k = BitVec.ofNat 32 (fp32.deliver .rne ((if neg then m.negate else m).add .rne
                  (fp32.value (SMap.get 0#32 (a.tile o.acc).flt k).toNat))).bits)))

/-- MMAC, SPMMAC and SPRES (R281 to R283, R300 to R305) with no stop within them: MODE for a tile of another kind; PRECISION
where a slice-panel of B has a record above the declared planes; else every exact cell takes the sum of its products as one
group under its scales (the sparse words: the active groups of one window, from the term set's slots or its residual list),
the group sums are cleared, and vstart is 0; only the core's counts change besides. The sparse words raise, in this order,
MODE on a BF16 tile, ACCESS for a term set that leaves the Larder, ACCESS for a header of another version or format or with a
value that QSPLOAD never writes, and PRECISION. SPRES of an empty list changes only vstart. EndGroup of R271 with a scale of
one (the scales' value at task start): a cell with no special state adds its group's sum, in units of 2⁻⁴⁸, to V, in units
of 2⁻⁶⁴, exactly; it is no longer empty. -/
def Obligations.MatrixMultiplyResults : Prop :=
  (∀ s t : State, t.cur.preempt = .none → t.cur.lateStop = none → t.cur.vec.vstart = 0 →
     let sl := t.cur.vec.slices
     let kind := fun (acc : BitVec 1) (bf : Bool) => ∀ a ∈ sl, (a.tile acc).bf16 = bf
     let after := fun (i : Instr) (acc : BitVec 1) (win : Nat → Bool) (g : Nat → Slice → Nat → Nat → GSum)
         (ends : GSum → Bool) =>
       ∃ (w : List Slice) (fl : BitVec 5) (cores : List CoreState),
         exec i s = .next { t with cores := cores, cur := { t.cur with
           pc := t.cur.pc + 8, vec := { t.cur.vec with slices := w, vstart := 0 }, conv := { t.cur.conv with flags := fl } } } ∧
         w.length = sl.length ∧ ∀ (j : Nat) (a b : Slice), sl[j]? = some a → w[j]? = some b →
           b.tile (1 - acc) = a.tile (1 - acc) ∧ b.sa = a.sa ∧ b.sb = a.sb ∧
           ∀ r < 128, ∀ c < 128,
             let k := 128 * r + c
             let sum := g j a r c
             (win k = true → ends sum = true → (b.tile acc).cell k = ((a.tile acc).cell k).endGroup sum (a.scale r c) ∧
               (b.tile acc).sum k = GSum.reset) ∧
             ((win k = false ∨ ends sum = false) → (b.tile acc).cell k = (a.tile acc).cell k)
     let stops := fun (i : Instr) (x : Word) (acc : BitVec 1) (fa : Fmt) (pb planes : Nat) =>
       let ts := x.toNat / 4096 % 65536 * 4096
       let hdr := t.larder.readLE (larderBase t.cur.id.core + ts) 8
       let st := t.larder.readLE (larderBase t.cur.id.core + ts + 8) 8
       let terms := st / 2 ^ 45 % 8
       let dropped := st / 2 ^ 43 % 2 = 1
       let dense := st / 2 ^ 44 % 2 = 1
       let pat := fun (n : Nat) => hdr / 2 ^ (16 + 3 * n) % 8
       let never := hdr / 2 ^ 12 % 16 ≠ 0 ∨ hdr / 2 ^ 31 ≠ 0 ∨ st / 2 ^ 48 ≠ 0 ∨ 5 < terms ∨
         (∃ n < min 5 terms, pat n = 5 ∨ pat n = 6 ∨ (pat n = 7 ∧ (n + 1 ≠ terms ∨ ¬dense))) ∨
         (∃ n < 5, terms ≤ n ∧ pat n ≠ 0) ∨ (dropped ∧ dense) ∨ (64 < st / 2 ^ 32 % 2048 ∧ ¬dropped ∧ ¬dense)
       let ok := ts + 0x6000 ≤ 0xC000000 ∧ hdr % 256 = 1 ∧ hdr / 256 % 16 = fa.code.toNat ∧ ¬never
       let rec_ := fun (j : Nat) => t.planeRecord t.cur.id.core (t.cur.panelAt pb j)
       s.Ready i t →
         (¬kind acc false → exec i s = .next (t.trap .mode t.cur.iword)) ∧
         (kind acc false → ¬ok → exec i s = .next (t.trap .access (BitVec.ofNat 64 ts))) ∧
         (kind acc false → ok → ∀ j < t.cur.lanes, planes < rec_ j → (∀ m < j, rec_ m ≤ planes) →
           exec i s = .next (t.trap .precision (BitVec.ofNat 64 (rec_ j + pb * 256 + j * 65536)))) ∧
         (kind acc false → ok → (∀ j < t.cur.lanes, rec_ j ≤ planes) →
           t.spCheck (termSetAt x) acc fa pb planes = .ok { hdr := hdr, status := st })
     (∀ o : MmacOp, s.Ready (.mmac o) t →
       let n := 2 ^ o.grp.toNat
       let planes := o.planes.toNat + 1
       let fails := fun (m j : Nat) => m < n ∧ j < t.cur.lanes ∧
         planes < t.planeRecord t.cur.id.core (t.cur.panelAt (o.pb.toNat + m) j)
       (¬kind o.acc (decide (o.fa = .bf16)) → exec (.mmac o) s = .next (t.trap .mode t.cur.iword)) ∧
       (kind o.acc (decide (o.fa = .bf16)) → ∀ m j, fails m j →
         (∀ m' j', fails m' j' → m < m' ∨ (m = m' ∧ j ≤ j')) →
         exec (.mmac o) s = .next (t.trap .precision (BitVec.ofNat 64 (t.planeRecord t.cur.id.core
           (t.cur.panelAt (o.pb.toNat + m) j) + (o.pb.toNat + m) * 256 + j * 65536)))) ∧
       (kind o.acc false → o.fa ≠ .bf16 → (∀ m j, ¬fails m j) →
         after (.mmac o) o.acc (fun _ => true) (fun j a r c => dotSum GSum.reset
           ((t.panelsRow o.pa.toNat n j r o.fa).map (operandValue o.fa (a.zeroA r)))
           ((t.panelsRow o.pb.toNat n j c o.fb).map fun e => operandValue o.fb (a.zeroB c) (declared o.fb planes e)))
           (fun _ => true)) ∧
       (kind o.acc true → o.fa = .bf16 → (∀ m j, ¬fails m j) → ∃ u, exec (.mmac o) s = .next u ∧ u.cur.pc = t.cur.pc + 8 ∧
         u.cur.x = t.cur.x ∧ u.cur.vec.vstart = 0 ∧ ∀ (j : Nat) (a b : Slice), sl[j]? = some a →
           u.cur.vec.slices[j]? = some b → ∀ r < 128, ∀ c < 128,
             let k := 128 * r + c
             SMap.get 0#32 (b.tile o.acc).flt k = BitVec.ofNat 32
               (((t.panelsRow o.pa.toNat n j r o.fa).zip ((t.panelsRow o.pb.toNat n j c o.fb).map (declared o.fb planes))).foldl
                 (fun x p => (fp32.deliver .rne (((bf16.value p.1).mul (bf16.value p.2)).add .rne (fp32.value x))).bits)
                 (SMap.get 0#32 (a.tile o.acc).flt k).toNat))) ∧
     (∀ o : SpmmacOp, stops (.spmmac o) (t.getX o.ts) o.acc o.fa o.pb.toNat (o.planes.toNat + 1)) ∧
     (∀ o : SpresOp, stops (.spres o) (t.getX o.ts) o.acc o.fa o.pb.toNat (o.planes.toNat + 1)) ∧
     (∀ (o : SpmmacOp) (h : SpHead), s.Ready (.spmmac o) t →
       let ts := termSetAt (t.getX o.ts)
       t.spCheck ts o.acc o.fa o.pb.toNat (o.planes.toNat + 1) = .ok h →
         after (.spmmac o) o.acc (fun k => decide (k / 4096 = o.win.toNat)) (fun j a r c =>
           (((t.termSteps ts h o.fa).flatten.filter fun u => u.i = r % 32).foldl (fun g u => g.addProduct
             ((fmtKind o.fa).value u.enc) (operandValue o.fb (a.zeroB c)
               (declared o.fb (o.planes.toNat + 1) ((t.panelsRow o.pb.toNat 1 j c o.fb).getD u.k 0)))) GSum.reset))
           (fun g => g.act)) ∧
     (∀ (o : SpresOp) (h : SpHead), s.Ready (.spres o) t →
       let x := t.getX o.ts
       let ts := termSetAt x
       t.spCheck ts o.acc o.fa o.pb.toNat (o.planes.toNat + 1) = .ok h →
         (t.listSteps ts h o.fa = [] → exec (.spres o) s = .next (t.setPc (t.cur.pc + 8))) ∧
         (t.listSteps ts h o.fa ≠ [] →
           after (.spres o) o.acc (fun k => decide (k / 4096 = x.toNat % 4)) (fun j a r c =>
             (((t.listSteps ts h o.fa).flatten.filter fun u => u.i = r % 32).foldl (fun g u => g.addProduct
               ((fmtKind o.fa).value u.enc) (operandValue o.fb (a.zeroB c)
                 (declared o.fb (o.planes.toNat + 1) ((t.panelsRow o.pb.toNat 1 j c o.fb).getD u.k 0)))) GSum.reset))
             (fun g => g.act)))) ∧
  (∀ (c : Cell) (g : GSum), g.sp = .none →
     let d := c.endGroup g ((fp16.value 0x3C00).mul (fp16.value 0x3C00))
     d.v = c.v + (g.v.signExtend 136 <<< 16) ∧ d.empty = false ∧ d.sp = c.sp ∧ d.inex = c.inex)

/-- MREAD, MWRITE, MSCL, MZPT, MSTAT and SPSTAT (R284 to R288, R304): MREAD reads the elements below vl of row xa of every
granted slice as ReadCell gives them, with its flags, or raw; the tail is zero under TP. MWRITE writes the fields of one raw
part (Table 14-5) of the elements below vl and nothing else: part 2 is the state word, part 4 the rest of the group sum, part 5
the scales and zero points of the slice, whose SK and ZR the last element gives (the model's choice, log 57); parts 1 to 4 of a
BF16 tile, 6 and 7 write nothing. MSCL and MZPT load the scales and zero points, MZPT setting ZR instead where a 4-bit operand
is out of range; MSTAT gives Table 14-10 over the granted slices and SPSTAT the term set's status, in xd. -/
def Obligations.MatrixStateResults : Prop :=
  ∀ s t : State, t.cur.vec.vnreg = 64 → t.cur.vec.vl ≤ 128 → t.cur.vec.slices.length = t.cur.lanes →
    let sl := t.cur.vec.slices
    let vl := t.cur.vec.vl
    let changes := fun (i : Instr) (f : Nat → Slice → Slice → Prop) => s.Ready i t → ∃ w : List Slice,
      exec i s = .next { t with cur := { t.cur with pc := t.cur.pc + 8, vec := { t.cur.vec with slices := w } } } ∧
      w.length = sl.length ∧ ∀ (j : Nat) (a b : Slice), sl[j]? = some a → w[j]? = some b → f j a b
    (∀ o : MreadOp, s.Ready (.mread o) t →
      let xa := (t.getX o.row).toNat
      let read := fun (a : Slice) (c : Nat) => match fmtKind o.fa with
        | .float f => readCell (a.tile o.acc) (128 * (xa % 128) + c) (fp32.value ((t.getX o.scale).toNat % 2 ^ 32)) f
            t.cur.frm (decide (xa / 2 ^ 11 % 2 = 1))
        | _ => flagless (a.raw o.acc (xa / 256 % 8) (xa % 128) c)
      ∃ (v : SMap Byte) (p : List Push) (fl : BitVec 5),
        let u : State := { t with cur := { t.cur with
          pc := t.cur.pc + 8, vec := { t.cur.vec with v := v }, conv := { t.cur.conv with pushes := p, flags := fl } } }
        exec (.mread o) s = .next u ∧
        (∀ (j c : Nat) (a : Slice), sl[j]? = some a → c < 128 → u.cur.elem o.d (container o.fa) (128 * j + c) =
          if c < vl then (read a c).bits % 2 ^ container o.fa
          else if t.cur.vec.tp then 0 else t.cur.elem o.d (container o.fa) (128 * j + c)) ∧
        ∀ i < 5, fl.getLsbD i = true ↔ t.cur.conv.flags.getLsbD i = true ∨
          ∃ a ∈ sl, ∃ c < vl, (read a c).flags.getLsbD i = true) ∧
    (∀ o : MwriteOp,
      let xa := (t.getX o.row).toNat
      let part := xa / 256 % 8
      changes (.mwrite o) fun j a b =>
        let e := fun (c : Nat) => t.cur.elem o.s 64 (128 * j + c)
        b.tile (1 - o.acc) = a.tile (1 - o.acc) ∧ (b.tile o.acc).bf16 = (a.tile o.acc).bf16 ∧
        (∀ r < 128, ∀ c < 128, ∀ p < 5, b.raw o.acc p r c =
          if r = xa % 128 ∧ c < vl ∧ p = part then
            if (a.tile o.acc).bf16 then if p = 0 then e c % 2 ^ 32 else 0
            else if p = 2 then e c % 2 ^ 14 else if p = 4 then e c % 2 ^ 36 else e c
          else a.raw o.acc p r c) ∧
        (part ≠ 5 → b.sa = a.sa ∧ b.sb = a.sb ∧ b.za = a.za ∧ b.zb = a.zb ∧ b.sk = a.sk ∧ b.zr = a.zr) ∧
        (part = 5 → b.tile o.acc = a.tile o.acc ∧ (∀ c < 128,
          (SMap.get scaleOne b.sa c).toNat = (if c < vl then e c % 2 ^ 16 else (SMap.get scaleOne a.sa c).toNat) ∧
          b.zeroA c = (if c < vl then e c / 2 ^ 16 % 2 ^ 8 else a.zeroA c) ∧
          (SMap.get scaleOne b.sb c).toNat = (if c < vl then e c / 2 ^ 24 % 2 ^ 16 else (SMap.get scaleOne a.sb c).toNat) ∧
          b.zeroB c = if c < vl then e c / 2 ^ 40 % 2 ^ 8 else a.zeroB c) ∧
          b.sk = (if vl = 0 then a.sk else decide (e (vl - 1) / 2 ^ 48 % 2 = 1)) ∧
          b.zr = if vl = 0 then a.zr else decide (e (vl - 1) / 2 ^ 49 % 2 = 1))) ∧
    (∀ o : MsclOp,
      let w := if o.e8m0 then 8 else 16
      changes (.mscl o) fun j a b => b.acc0 = a.acc0 ∧ b.acc1 = a.acc1 ∧ b.za = a.za ∧ b.zb = a.zb ∧ b.sk = o.e8m0 ∧
        ∀ i < 128, (SMap.get scaleOne b.sa i).toNat = t.cur.elem o.a w (128 * j + i) ∧
          (SMap.get scaleOne b.sb i).toNat = t.cur.elem o.b w (128 * j + i)) ∧
    (∀ o : MzptOp,
      let ok := ∀ e < 128 * t.cur.lanes, (o.a4 = true → t.cur.elem o.a 8 e < 16) ∧ (o.b4 = true → t.cur.elem o.b 8 e < 16)
      (ok → changes (.mzpt o) fun j a b => b.acc0 = a.acc0 ∧ b.acc1 = a.acc1 ∧ b.sa = a.sa ∧ b.zr = false ∧
        ∀ i < 128, b.zeroA i = t.cur.elem o.a 8 (128 * j + i) ∧ b.zeroB i = t.cur.elem o.b 8 (128 * j + i)) ∧
      (¬ok → changes (.mzpt o) fun _ a b => b = { a with zr := true })) ∧
    (∀ o : MstatOp, s.Ready (.mstat o) t → ∃ v : Word, exec (.mstat o) s = .next (t.withResult o.d v 8) ∧
      let cell := fun (p : Cell → Prop) => ∃ a ∈ sl, (a.tile o.acc).bf16 = false ∧ ∃ x ∈ (a.tile o.acc).cells, p x.2
      let flt := fun (p : Nat → Prop) => ∃ a ∈ sl, (a.tile o.acc).bf16 = true ∧ ∃ x ∈ (a.tile o.acc).flt, p x.2.toNat
      let is := fun (i : Nat) (p : Prop) => v.getLsbD i = true ↔ p
      is 11 (∃ a ∈ sl, ∃ x ∈ (a.tile o.acc).sums, x.2.act = true) ∧ is 10 (∃ a ∈ sl, (a.tile o.acc).bf16 = true) ∧
      is 9 (∃ a ∈ sl, a.zr = true) ∧
      is 8 ((∀ a ∈ sl, (a.tile o.acc).bf16 = false) ∧ ¬cell fun c => c.empty = false) ∧
      is 4 ((cell fun c => c.sp = .nan) ∨ flt fun x => 0x7F800000 < x % 2 ^ 31) ∧
      is 3 ((cell fun c => c.sp = .ninf) ∨ flt fun x => x = 0xFF800000) ∧
      is 2 ((cell fun c => c.sp = .pinf) ∨ flt fun x => x = 0x7F800000) ∧
      is 1 (cell fun c => c.overflowed = true) ∧ is 0 (cell fun c => c.inex = true) ∧
      ∀ i, 12 ≤ i ∨ (5 ≤ i ∧ i < 8) → v.getLsbD i = false) ∧
    (∀ o : SpstatOp, s.Ready (.spstat o) t →
      let ts := (t.getX o.ts).toNat / 4096 % 65536 * 4096
      let a := larderBase t.cur.id.core + ts
      (larderSize < ts + 0x6000 ∨ t.larder.readLE a 8 % 256 ≠ 1 →
        exec (.spstat o) s = .next (t.trap .access (BitVec.ofNat 64 ts))) ∧
      (ts + 0x6000 ≤ larderSize → t.larder.readLE a 8 % 256 = 1 →
        exec (.spstat o) s = .next (t.withResult o.d (BitVec.ofNat 64 (t.larder.readLE (a + 8) 8)) 8)))

/-! ### Port groups (21_ports) -/

/-- PORTQ and PORTSW (R378, R379): the state word of the group, field by field; PORTSW's refusals in the order R379 gives
them leave only their code in xd, else the switch starts: from ACTIVE the group drains, its drain awaits every AMO to its windows
that is outstanding (R333), and the strand waits; from DOWN it retrains and xd is 0. -/
def Obligations.PortWordResults : Prop :=
  ∀ s t : State,
    (∀ (o : PortqOp) (g : Group), s.Ready (.portq o) t → t.groups[o.g.toNat]? = some g →
      ∃ v : Word, exec (.portq o) s = .next (t.withResult o.d v 8) ∧
        v.extractLsb' 0 4 = (match g.state with
          | .active => 0 | .draining => 1 | .quiesced => 2 | .retraining => 3 | .verifying => 4 | .fallback => 5 | .down => 6) ∧
        v.extractLsb' 4 4 = g.pers ∧ v.extractLsb' 8 4 = g.target ∧ v.extractLsb' 12 4 = g.prev ∧ v.getLsbD 16 = g.warm ∧
        v.getLsbD 17 = g.spare ∧ v.extractLsb' 32 6 = BitVec.ofNat 6 (g.owner.getD 0) ∧ v.getLsbD 38 = g.owner.isSome ∧
        v.extractLsb' 40 4 = g.result ∧ v.extractLsb' 48 8 = g.switches ∧ v.extractLsb' 18 14 = 0 ∧ v.getLsbD 39 = false ∧
        v.extractLsb' 44 4 = 0 ∧ v.extractLsb' 56 8 = 0) ∧
    (∀ (o : PortswOp) (h : o.g.toNat < 24), s.Ready (.portsw o) t →
      let g := t.groups[o.g.toNat]
      let r := (t.getX o.a).toNat
      let target : BitVec 4 := BitVec.ofNat 4 r
      let bad := r / 64 ≠ 0 ∨ 4 < r % 16
      let inProgress := g.state ≠ .active ∧ g.state ≠ .down
      let twoHosts := target = 1 ∧ 2 ≤ ((List.range 24).filter fun k => decide (k ≠ o.g.toNat) && (t.groupD k).counts).length
      let busy := g.pers = 0 ∧ target ≠ 0 ∧ ∃ p ∈ t.parts, ∃ w ∈ p.windows, w.en = true ∧ w.kind = 0 ∧ 2 ≤ w.ways ∧
        w.groups.getLsbD o.g.toNat = true
      let inUse := g.carriesRpc = true ∧ ∃ x ∈ t.sessions, o.g.toNat ∈ x.paths ∧
        ∀ k ∈ x.paths, k ≠ o.g.toNat → (t.groupD k).carriesRpc = false
      let code := fun (n : Nat) => exec (.portsw o) s = .next (t.withResult o.d (BitVec.ofNat 64 n) 8)
      let owned := g.owner = some t.cur.part
      (bad → code 7) ∧
      (¬bad → ¬owned → code 2) ∧
      (¬bad → owned → inProgress → code 6) ∧
      (¬bad → owned → ¬inProgress → g.state = .active → g.pers = target → code 3) ∧
      (¬bad → owned → ¬inProgress → ¬(g.state = .active ∧ g.pers = target) →
        (twoHosts → code 4) ∧ (¬twoHosts → busy → code 1) ∧ (¬twoHosts → ¬busy → inUse → code 5) ∧
        (¬twoHosts → ¬busy → ¬inUse →
          let started : Group := { g with
            state := if g.state = .down then .retraining else .draining, prev := if g.state = .down then 15 else g.pers
            target := target, warm := decide (r / 16 % 2 = 0) && g.presets.contains target }
          let marked := fun (f : AmoFlight) =>
            if f.groups.getLsbD o.g.toNat then { f with drains := f.drains ||| (1#24 <<< o.g.toNat) } else f
          ∃ u, exec (.portsw o) s = .next u ∧ u.mem = t.mem ∧
            (g.state = .down → u.groups = t.groups.set o.g.toNat started ∧ u.cur = (t.withResult o.d 0 8).cur) ∧
            (g.state = .active → u.groups = t.groups.set o.g.toNat { started with waiter := some t.cur.id } ∧
              u.cur = { t.cur with run := .portsw, amo := t.cur.amo.map marked } ∧
              u.others = t.others.map fun c => { c with amo := c.amo.map marked }) ∧
            u.parts.map (·.windows) = t.parts.map fun p => p.windows.map fun w =>
              if r / 32 % 2 = 1 ∧ w.groups = 1#24 <<< o.g.toNat then { w with rm := true } else w)))

/-- The steps of a switch (R374, Table 21-3), and the losses of a link and of a lane (R11, R17, R374, R375, R399): each event of
a group in the state it leaves; in any other state it does nothing. A group drains until every AMO that its drain awaits, whatever
group carries it (R333), is done; one left at the limit raises PORTGONE. A lane lost with no spare left is gone from service, and
its group trains no more and becomes ACTIVE no more. -/
def Obligations.PortEventResults : Prop :=
  ∀ (s : State) (g : Nat) (h : g < 24),
    let y := s.groups[g]
    let moves := fun (i : Instr) (z : Group) => exec i s = .next { s with groups := s.groups.set g z }
    let goes := fun (i : Instr) (z : Group) => ∃ u, exec i s = .next u ∧ u.groups = s.groups.set g z
    let done := fun (pers result : BitVec 4) => { y with
      state := .active, pers := pers, result := result, switches := y.switches + 1
      presets := if pers ∈ y.presets then y.presets else y.presets ++ [pers] }
    let down : Group := { y with state := .down, pers := 15, result := 3, switches := y.switches + 1 }
    let drained : Group := { y with state := .quiesced, pers := 15, waiter := none, asker := none }
    let told := fun (i : Instr) (z : Group) => ∃ (u : State) (e : EventRec), exec i s = .next u ∧ u.groups = s.groups.set g z ∧
      u.cur = s.cur ∧ u.mem = s.mem ∧ e.kind = 5 ∧ e.subj = BitVec.ofNat 16 g ∧ e.a = z.word ∧
      (y.owner = none → ∀ n, s.module.owning = some n → u.outbox = s.outbox ++
        [{ session := n, type := 3, verb := 0x31, seq := 0, status := 0, payload := e.bytes 0 ++ [0] }]) ∧
      (∀ p, y.owner = some p → u.parts = (s.partEvent p e).parts)
    let carries := fun (c : Strand) => ∃ f, c.amo = some f ∧ (f.group = g ∨ f.drains.getLsbD g = true)
    let idle := ∀ c ∈ s.strands, ¬carries c
    let whole := ∀ lane, PartRef.lane g lane ∉ s.module.removed
    (y.state = .draining →
      (idle → y.waiter = none → y.asker = none → moves (.switchDrainComplete g) drained) ∧
      (y.pers ≠ 3 → y.pers ≠ 4 → (∃ c ∈ s.strands, ∃ f, c.amo = some f ∧ f.drains.getLsbD g = true ∧ f.gen = c.gen) →
        exec (.switchDrainComplete g) s = .next s) ∧
      (∀ f, s.cur.amo = some f → f.drains.getLsbD g = true → f.gen = s.cur.gen → y.pers ≠ 3 → y.pers ≠ 4 → s.others = [] → y.waiter = none →
        y.asker = none → exec (.switchDrainLimit g) s = .next
          { ({ s with cur := { s.cur with run := .running, amo := none } } : State).trap .portgone f.va with
            groups := s.groups.set g drained }) ∧
      (idle → ∀ n q, y.waiter = none → y.asker = some (n, q) → exec (.switchDrainComplete g) s = .next { s with
        groups := s.groups.set g drained
        outbox := s.outbox ++ [{ session := n, type := 2, verb := 8, seq := q, status := 0, payload := [0] }] }) ∧
      (idle → y.waiter = some s.cur.id → y.asker = none → s.cur.run = .portsw → lastBit s.cur.iword = true →
        exec (.switchDrainComplete g) s = .next { s with
          groups := s.groups.set g drained
          cur := { s.cur with
            x := if s.cur.portswD = 0 then s.cur.x else s.cur.x.set s.cur.portswD.toNat 0
            pc := s.cur.pc + 8, reissue := .retire, run := .running } }) ∧
      goes (.switchDrainLimit g) drained) ∧
    (y.state = .quiesced → moves (.quiesceEnd g) { y with state := .retraining }) ∧
    (y.state = .retraining → (whole → moves (.retrainDone g) { y with state := .verifying }) ∧
      (¬whole → exec (.retrainDone g) s = .next s) ∧
      moves (.trainingFail g) { y with state := .fallback }) ∧
    (y.state = .verifying → (whole → told (.verifyPass g) (done y.target 1)) ∧ (¬whole → exec (.verifyPass g) s = .next s) ∧ moves (.verifyFail g) { y with state := .fallback } ∧
      moves (.verifyTimeout g) { y with state := .fallback }) ∧
    (y.state = .fallback → (y.prev.toNat ≤ 4 → whole → told (.fallbackActive g) (done y.prev 2)) ∧
      (4 < y.prev.toNat ∨ ¬whole → exec (.fallbackActive g) s = .next s) ∧ told (.fallbackDown g) down) ∧
    (y.state = .active → moves (.linkLost g) { y with
      state := .retraining, target := y.pers, prev := y.pers, pers := 15, warm := y.presets.contains y.pers }) ∧
    (∀ lane, .lane g lane ∈ s.module.removed → exec (.laneFailure g lane) s = .next s) ∧
    (∀ lane, .lane g lane ∉ s.module.removed → y.owner = none → s.module.owning = none →
      (y.spare = false → moves (.laneFailure g lane) { y with spare := true }) ∧
      (y.spare = true → exec (.laneFailure g lane) s = exec (.linkLost g)
        { s with module := { s.module with removed := s.module.removed ++ [.lane g lane] } })) ∧
    (∀ lane n, .lane g lane ∉ s.module.removed → y.spare = false → y.owner = none → s.module.owning = some n → exec (.laneFailure g lane) s = .next { s with
      groups := s.groups.set g { y with spare := true }
      outbox := s.outbox ++ [OutMsg.mk n 3 0x30 0 0 [1, 6, BitVec.ofNat 8 lane, BitVec.ofNat 8 g, 0, 0, 0, 0]] }) ∧
    (∀ x ∈ ([(.switchDrainComplete g, .draining), (.switchDrainLimit g, .draining), (.quiesceEnd g, .quiesced),
        (.retrainDone g, .retraining), (.trainingFail g, .retraining), (.verifyPass g, .verifying), (.verifyFail g, .verifying),
        (.verifyTimeout g, .verifying), (.fallbackActive g, .fallback), (.fallbackDown g, .fallback),
        (.linkLost g, .active)] : List (Instr × GState)), y.state ≠ x.2 → exec x.1 s = .next s)

/-! ### Packets and the Landing (05_queues) -/

/-- The packets of a hardware queue (R94, R97, R98, R101): one of another type changes nothing; one that fails a check of
Table 5-9 halts its queue, with its index at head; else it starts and has its effect: the stores and the signal in step
order, a WAIT that retires or holds, a COPY that holds until its engine is done, a DEPEND that holds at the first queue
below its threshold. What retires leaves the queue as the first clause says. The events of a holding queue (R98) and of the
Landing's service of it: WAIT_RECHECK reads the word again, WAIT_TIMEOUT halts a queue whose WAIT has a timeout,
DEPEND_SATISFIED tries its step again, COPY_DONE moves the bytes or halts its queue. A queue that does not hold so is left
alone. A step that meets a data error which no check corrects halts its queue with QSTEP and the step's index, the steps before it
done and no later one (R97, R98). A module that has stopped at 115 °C starts no packet and ends no copy (R405). -/
def Obligations.PacketResults : Prop :=
  ((∀ (s : State) (p : Packet) (h : HwQueue), s.hwq? p.queue = some h → ∃ k, (s.packetDone p).hwq? p.queue = some k ∧
       k.hold = none ∧ (∀ a ∈ k.active, a.1 ≠ p.index) ∧ k.state = h.state ∧ k.head = h.head ∧
       (h.qdone = p.index → h.retired = [] → h.unsignalled = [] → k.qdone = p.index + 1 ∧ k.retired = []) ∧
       (h.qdone < p.index → h.retired = [] → k.qdone = h.qdone ∧ k.retired = [p.index])) ∧
   (∀ (s : State) (p : Packet),
     (∀ x ∈ ([(0, .nop p), (1, .launch p), (2, .write p), (3, .signal p), (4, .wait p), (5, .writeSignal p), (6, .copy p),
         (7, .depend p), (8, .fencePacket p)] : List (Nat × Instr)),
       (pktType p ≠ x.1 → exec x.2 s = .next s) ∧
       (s.module.phase = .tripped → exec x.2 s = .next s) ∧
       (∀ h c, pktType p = x.1 → s.module.phase ≠ .tripped → s.hwq? p.queue = some h → h.packetFault p = some c → ∃ u k, exec x.2 s = .next u ∧
         u.hwq? p.queue = some k ∧ k.state = .halted ∧ k.head = p.index ∧ k.hold = none ∧
         (∀ y ∈ k.fetched, y.index ≠ p.index) ∧ u.cur = s.cur ∧ u.larder = s.larder)) ∧
     (∀ h, s.hwq? p.queue = some h → h.packetFault p = none → s.module.phase ≠ .tripped →
       let a := s.packetStarts p false
       let put := fun (u : State) (i : Nat) => u.landingStore p.queue.part (pw p i) (BitVec.ofNat 64 (pw p (i + 1)))
       let sig := fun (i : Nat) => Signal.mk (BitVec.ofNat 64 (pw p i)) (BitVec.ofNat 64 (pw p (i + 1)))
         (BitVec.ofNat 2 (pw p (i + 2)))
       let met := fun (i : Nat) => ∃ k, s.hwq? { p.queue with q := dependQueue p i } = some k ∧ dependThreshold p i ≤ k.qdone
       let fails := fun (i : Nat) => s.stepFails p.queue p.index i = true
       let first := fun (i : Nat) => fails i ∧ ∀ j < i, ¬fails j
       let stops := fun (i : Instr) (u : State) (n : Nat) => exec i s = .next (u.packetHalt p n 0x217)
       (pktType p = 2 → ∀ n v, n < pktSteps p → first n →
         (List.range n).foldlM (fun u i => put u (1 + 2 * i)) a = Except.ok v → stops (.write p) v n) ∧
       (pktType p = 3 → fails 0 → stops (.signal p) a 0) ∧
       (pktType p = 4 → fails 0 → stops (.wait p) a 0) ∧
       (pktType p = 5 → (fails 0 → stops (.writeSignal p) a 0) ∧ (∀ v, first 1 → put a 1 = .ok v → stops (.writeSignal p) v 1)) ∧
       (pktType p = 7 → ∀ n < pktSteps p, first n → (∀ j < n, met j) → stops (.depend p) a n) ∧
       ((∀ i, ¬fails i) →
       (pktType p = 0 → exec (.nop p) s = .next (a.packetDone p)) ∧
       (pktType p = 8 → exec (.fencePacket p) s = .next (a.packetDone p)) ∧
       (pktType p = 2 → ∀ v, (List.range (pktSteps p)).foldlM (fun u i => put u (1 + 2 * i)) a = Except.ok v →
         exec (.write p) s = .next (v.packetDone p)) ∧
       (pktType p = 3 → (∀ v, a.doSignal p.queue.part (sig 1) = .ok v → exec (.signal p) s = .next (v.packetDone p)) ∧
         (∀ c, a.doSignal p.queue.part (sig 1) = .error (.trap c) → exec (.signal p) s = .next (a.packetHalt p 0 0x217))) ∧
       (pktType p = 5 → ∀ v w, put a 1 = .ok v → v.doSignal p.queue.part (sig 3) = .ok w →
         exec (.writeSignal p) s = .next (w.packetDone p)) ∧
       (pktType p = 4 → ∀ x v, a.landingRead p.queue.part (pw p 1) 8 = (.ok x, v) →
         let holds := (pw p 3 % 8 = 0 ∧ x.toNat = pw p 2) ∨ (pw p 3 % 8 = 1 ∧ x.toNat ≠ pw p 2) ∨
           (pw p 3 % 8 = 2 ∧ pw p 2 ≤ x.toNat) ∨ (pw p 3 % 8 = 3 ∧ x.toNat < pw p 2)
         (holds → exec (.wait p) s = .next (v.packetDone p)) ∧
         (¬holds → exec (.wait p) s = .next (v.mapHwq p.queue fun k => { k with hold := some (.wait p) }))) ∧
       (pktType p = 6 → exec (.copy p) s = .next (a.mapHwq p.queue fun k => { k with hold := some (.copy p) })) ∧
       (pktType p = 7 →
         ((∀ i < pktSteps p, met i) → exec (.depend p) s = .next (a.packetDone p)) ∧
         (∀ i < pktSteps p, (∀ j < i, met j) → ¬met i →
           exec (.depend p) s = .next (a.mapHwq p.queue fun k => { k with hold := some (.depend p i) }))))))) ∧
  (∀ (s : State) (q : QueueId) (h : HwQueue), s.hwq? q = some h →
     (∀ p, h.hold = some (.wait p) →
       (s.stepFails p.queue p.index 0 = true → exec (.waitRecheck q) s = .next (s.packetHalt p 0 0x217)) ∧
       (s.stepFails p.queue p.index 0 = false → ∀ x v, s.landingRead p.queue.part (pw p 1) 8 = (.ok x, v) →
         let holds := (pw p 3 % 8 = 0 ∧ x.toNat = pw p 2) ∨ (pw p 3 % 8 = 1 ∧ x.toNat ≠ pw p 2) ∨
           (pw p 3 % 8 = 2 ∧ pw p 2 ≤ x.toNat) ∨ (pw p 3 % 8 = 3 ∧ x.toNat < pw p 2)
         pw p 3 % 8 ≤ 3 → (holds → exec (.waitRecheck q) s = .next (v.packetDone p)) ∧
         (¬holds → exec (.waitRecheck q) s = .next (v.mapHwq p.queue fun k => { k with hold := some (.wait p) }))) ∧
       (pw p 3 / 2 ^ 32 = 0 → exec (.waitTimeout q) s = .next s) ∧
       (pw p 3 / 2 ^ 32 ≠ 0 → p.queue = q → ∃ u k, exec (.waitTimeout q) s = .next u ∧ u.hwq? q = some k ∧ k.state = .halted ∧
         k.head = p.index ∧ k.hold = none)) ∧
     (∀ p i, h.hold = some (.depend p i) → pktType p = 7 → p.queue = q →
       let met := fun (j : Nat) => ∃ k, s.hwq? { q with q := dependQueue p j } = some k ∧ dependThreshold p j ≤ k.qdone
       (s.stepFails q p.index i = true → i < pktSteps p → exec (.dependSatisfied q) s = .next (s.packetHalt p i 0x217)) ∧
       ((∀ j < pktSteps p, i ≤ j → met j ∧ s.stepFails q p.index j = false) → exec (.dependSatisfied q) s = .next (s.packetDone p)) ∧
       (i < pktSteps p → s.stepFails q p.index i = false → ¬met i → exec (.dependSatisfied q) s = .next (s.mapHwq q fun k => { k with hold := some (.depend p i) }))) ∧
     (∀ p, h.hold = some (.copy p) → s.module.phase = .tripped → exec (.copyDone q) s = .next s) ∧
     (∀ p, h.hold = some (.copy p) → p.queue = q → s.module.phase ≠ .tripped →
       let halts := ∃ v k, exec (.copyDone q) s = .next v ∧ v.hwq? q = some k ∧ k.state = .halted ∧ k.head = p.index ∧ k.hold = none
       let start := s.withCur { s.cur with part := q.part, level := .s }
       let back := fun (t : State) => t.withCur { t.cur with part := s.cur.part, level := s.cur.level }
       match State.runCopyBytes (pw p 1) (pw p 2) (pw p 3) start with
       | (.error .stall, u) => exec (.copyDone q) s = .next (back u)
       | (.error (.fault _ _ _), _) => halts
       | (.ok r, u) => (s.stepFails q p.index 0 = true → halts) ∧
           (s.stepFails q p.index 0 = false → exec (.copyDone q) s = .next ((back (u.doWrites r.all)).packetDone p))) ∧
     (h.hold = none → exec (.waitRecheck q) s = .next s ∧ exec (.waitTimeout q) s = .next s ∧
       exec (.dependSatisfied q) s = .next s ∧ exec (.copyDone q) s = .next s))

/-- LAUNCH (R24, R95, R97, R103, R106): a refused one halts its queue with the code of its check; one whose seats are free
starts, each task on its seat with the registers R95 gives it; its queue waits for its signal. -/
def Obligations.LaunchStartsTasks : Prop :=
  ∀ (s t : State) (p : Packet) (h : HwQueue) (q : Partition), pktType p = 1 → s.module.phase ≠ .tripped → s.hwq? p.queue = some h →
    h.packetFault p = none → s.partition? p.queue.part = some q →
    (∀ c, s.checkLaunch p h q = .fault c t → exec (.launch p) s = .next (t.packetHalt p 0 c)) ∧
    (∀ (l : Launch) (seats : List Seat), s.checkLaunch p h q = .ok l t → l.tasks ≠ 0 →
      t.reservedBefore l (t.levelOf l.queue) = false → t.seatsFor q l (seatsOf t.strands) = some seats →
      ∃ u, exec (.launch p) s = .next u ∧ u.mem = t.mem ∧ u.larder = t.larder ∧
        (∃ x ∈ u.launches, x.lid = l.lid ∧ x.state = .running ∧ x.queue = p.queue ∧ x.index = p.index) ∧
        (∃ k, u.hwq? p.queue = some k ∧ (p.index, true) ∈ k.active ∧ p.index ∈ k.unsignalled ∧ ∀ y ∈ k.fetched, y.index ≠ p.index) ∧
        ∀ (n : Nat) (seat : Seat), seats[n]? = some seat → ∀ c ∈ u.strands, c.id = seat.id →
          c.run = .running ∧ c.task = some (l.lid, n) ∧ c.pc = BitVec.ofNat 64 q.arenaBase + BitVec.ofNat 64 l.entry ∧
          c.getX 3 = l.param ∧ c.getX 2 = (if l.ssize = 0 then 0 else l.stack + BitVec.ofNat 64 ((n + 1) * l.ssize)) ∧
          (∀ r : XReg, r ≠ 2 → r ≠ 3 → c.getX r = 0) ∧ c.level = (if l.sup then .s else .a) ∧ c.lanegrant = seat.lanes ∧
          c.trvec = l.trvec ∧ c.trIn = false ∧ c.fflags = 0 ∧ c.vec.vl = 0 ∧ c.vowner = c.ctxid)

/-- Doorbells, RUN, selection, aging and slices (R87, R88, R90, R92, R102, R104): a doorbell sets the pending bit and
selects; RUN set latches the descriptor's words and runs a valid queue, or halts it; RUN set on a running one, and RUN cleared,
which stops a running one, show the queue's state in the control word, whose reserved bits read 0, and ring its doorbell.
Selection on a die clears the pending bits and the deficits of empty queues; where no queue of the die is ready it does nothing
more. Where one queue is the only ready one, with a positive deficit at its effective level, it is served: its waiting launch is
tried, or the packet that it fetched runs, or its next packet is fetched and runs once Table 5-10 lets it start, a LAUNCH with CONC
beside launches alone; a launch that started moves the round robin of its level, a reservation ends the selection, and
that no queue at a lower level is ready then is a premise. A ready queue ages by one level; at the end of a slice the deficit is 0 or
less, the supervisor context's too, whose gang is not asked to stop. That a stop ends the selection and which amount a slice
takes are the model's choices (log 11). -/
def Obligations.LandingServiceResults : Prop :=
  ∀ (s : State) (q : QueueId) (h : HwQueue), s.hwq? q = some h →
    let ctl := s.qword q 0x08
    let mark := fun (t : State) => ({ t with pending := if q ∈ t.pending then t.pending else t.pending ++ [q] } : State)
    let tail := (s.qword q 0x18).toNat
    ((∀ x ∈ s.submits, x.queue ≠ q) → ¬(h.state = .running ∧ 2 ^ h.size < tail - h.qdone) →
      exec (.queueDoorbell q) s = .next ((mark s).select (s.dieOf q.part))) ∧
    let shows := fun (t : State) (bits : Nat) => t.setQword q 0x08 ((ctl &&& 0xFFFFFFFF0F000300#64) ||| BitVec.ofNat 64 bits)
    (ctl.getLsbD 1 = false → exec (.queueRunStart q) s = .next s) ∧
    ((∀ x ∈ s.submits, x.queue ≠ q) → h.state = .running → ctl.getLsbD 1 = true →
      exec (.queueRunStart q) s = exec (.queueDoorbell q) (shows s 6)) ∧
    (h.state ≠ .running → ctl.getLsbD 1 = true →
      let size := ctl.toNat / 2 ^ 24 % 16
      let quantum := ctl.toNat / 2 ^ 32 % 65536
      let ok := 4 ≤ size ∧ quantum ≠ 0 ∧ (s.qword q 0x00).toNat % 64 = 0
      (¬ok ∨ 2 ^ size < tail - h.qdone → ∃ u k, exec (.queueRunStart q) s = .next u ∧ u.hwq? q = some k ∧ k.state = .halted) ∧
      (ok → tail - h.qdone ≤ 2 ^ size → ∃ (v : State) (k : HwQueue), exec (.queueRunStart q) s = .next (v.select (v.dieOf q.part)) ∧ q ∈ v.pending ∧
        v.hwq? q = some k ∧ k.state = .running ∧ k.ring = s.qword q 0x00 ∧ k.size = size ∧ k.quantum = quantum ∧
        k.prio = ctl.toNat / 2 ^ 8 % 4 ∧ k.opmask = BitVec.ofNat 16 (ctl.toNat / 2 ^ 48) ∧ k.qdone = h.qdone ∧
        k.windows = (List.range 8).map fun i => (s.qword q (0x40 + 16 * i), s.qword q (0x48 + 16 * i)))) ∧
    (ctl.getLsbD 1 = true → exec (.queueRunStop q) s = .next s) ∧
    (ctl.getLsbD 1 = false →
      let u := if h.state = .halted then shows s 8 else shows (s.mapHwq q fun k => { k with state := .stopped }) 0
      exec (.queueRunStop q) s = .next ((mark u).select (s.dieOf q.part))) ∧
    (s.queueReady h = true → exec (.priorityAging q) s = .next (s.mapHwq q fun k => { k with aged := k.aged + 1 })) ∧
    (s.queueReady h = false → exec (.priorityAging q) s = .next s) ∧
    (∀ die, s.module.phase = .tripped → exec (.landingSelect die) s = .next s) ∧
    let cleared := fun (die : BitVec 1) => ({ s with
      pending := s.pending.filter fun x => s.dieOf x.part ≠ die
      hwq := s.hwq.map fun k => if k.qdone = (s.qword k.id 0x18).toNat then { k with deficit := 0 } else k } : State)
    let silent := fun (die : BitVec 1) => ∀ k ∈ s.hwq, s.dieOf k.id.part = die → k.heldSignals = []
    (∀ die, s.module.phase ≠ .tripped → silent die → (∀ k ∈ s.hwq, s.dieOf k.id.part = die → s.queueReady k = false) →
      exec (.landingSelect die) s = .next (cleared die)) ∧
    (let die := s.dieOf q.part
     let lvl := h.prio - h.aged
     let a := cleared die
     s.module.phase ≠ .tripped → silent die → h.id = q →
     (s.hwq.filter fun k => decide (s.dieOf k.id.part = die) && s.queueReady k) = [h] →
     lvl ≤ 3 → 0 < h.deficit → h.qdone ≠ tail →
     let comes := fun (r : State) =>
       (∀ w, r.waitingLaunch q = some w → (∃ y ∈ r.reservations, y.2 = w.lid) → exec (.landingSelect die) s = .next r) ∧
       ((∀ w, r.waitingLaunch q = some w → ∀ y ∈ r.reservations, y.2 ≠ w.lid) →
         let u := if a.module.startSeq < r.module.startSeq then r.setRr die lvl q else r
         (∀ k ∈ u.hwq, u.dieOf k.id.part = die → lvl < k.level → u.queueReady k = false) →
           exec (.landingSelect die) s = .next u)
     (∀ l p, s.waitingLaunch q = some l → s.partition? q.part = some p → comes (a.tryLaunch l p).2) ∧
     (∀ p ps, s.waitingLaunch q = none → h.fetched = p :: ps → comes (a.runPacket p)) ∧
     (∀ (p : Packet) (v : State), s.waitingLaunch q = none → h.fetched = [] → a.readSlot h = (.ok p, v) →
       let conc := pktType p = 1 ∧ pw p 0 / 2 ^ 8 % 2 = 1
       let may := (conc → ∀ x ∈ h.active, x.2 = true) ∧ (¬conc → h.active = [])
       (may → comes
         (((v.mapHwq q fun k => { k with head := k.head + 1 }).setQword q 0x20 (BitVec.ofNat 64 (h.head + 1))).runPacket p)) ∧
       (¬may → comes v))) ∧
    (∀ (l : Nat) (x : Launch), s.launch? l = some x → x.queue = q →
      (x.state ≠ .running → exec (.sliceEnd l) s = .next s) ∧
      (x.state = .running → ∃ u k, exec (.sliceEnd l) s = .next u ∧ u.hwq? q = some k ∧ k.deficit ≤ 0 ∧ u.mem = s.mem ∧
        (x.sup = true → u.strands = s.strands) ∧
        (x.sup = false → s.gangWaits q.part l (fun n => decide (n = h.level)) = true → ∀ c ∈ u.strands, c.ofLaunch l = true →
          c.preempt ≠ .none ∨ c.run = .halted ∨ c.run = .preempted)))

/-- The end of a launch and the stops of gangs (R103, R215, R357, R363, R364, R392, Table 23-1): a running launch whose
tasks have all halted leaves its strands and, its signal done, moves qdone; GANG_PREEMPT asks every strand of a running
gang; PREEMPT_DEADLINE stops a strand at a pre-emption point with its scoreboard settled, within no convoy that has begun and while no
move to a spare holds its gang (R398; which gangs a move holds is log 47), a sleeping VWAIT to begin again, else
marks it; GANG_RESUME puts every task back as it stopped, and does nothing once the module has stopped at 115 °C (R405); engines that do not quiesce halt with EDATA; a stale completion is counted and writes nothing. -/
def Obligations.GangResults : Prop :=
  ∀ s : State,
    (∀ (l : Nat) (x : Launch), s.launch? l = some x →
      (x.state ≠ .running ∨ x.halted < x.tasks → exec (.launchRetire l) s = .next s) ∧
      (x.state = .running → x.tasks ≤ x.halted → ∃ u, exec (.launchRetire l) s = .next u ∧
        (∀ c ∈ u.strands, c.ofLaunch l = false) ∧ (∀ y ∈ u.launches, y.lid ≠ l) ∧ (∀ c ∈ u.parked, c.ofLaunch l = false) ∧
        ∀ h, s.hwq? x.queue = some h → x.ordered = false → x.signal.a = 0 → h.qdone = x.index → h.retired = [] →
          h.unsignalled = [x.index] → h.heldSignals = [] → ∃ k, u.hwq? x.queue = some k ∧ k.qdone = x.index + 1 ∧
            k.unsignalled = [] ∧ k.heldSignals = []) ∧
      (x.state ≠ .running ∨ x.sup = true → exec (.gangPreempt l) s = .next s) ∧
      (x.state = .running → x.sup = false → ∃ u, exec (.gangPreempt l) s = .next u ∧ u.mem = s.mem ∧ u.launches = s.launches ∧
        (∀ c ∈ u.strands, c.ofLaunch l = true → c.preempt ≠ .none ∨ c.run = .halted ∨ c.run = .preempted) ∧
        (u.strands.map fun c => { c with preempt := .none }) = s.strands.map fun c => { c with preempt := .none }) ∧
      (x.state ≠ .preempted ∨ s.module.phase = .tripped → exec (.gangResume l) s = .next s) ∧
      (∀ p, x.state = .preempted → s.module.phase ≠ .tripped → s.partition? x.queue.part = some p →
        (s.resumeSeats p x.sup (seatsOf s.strands) (s.parkedOf l) = none → exec (.gangResume l) s = .next s) ∧
        (∀ seats, s.resumeSeats p x.sup (seatsOf s.strands) (s.parkedOf l) = some seats → ∃ u,
          exec (.gangResume l) s = .next u ∧ (∀ c ∈ u.parked, c.ofLaunch l = false) ∧
          (∀ y ∈ u.launches, y.lid = l → y.state = .running) ∧
          ∀ y ∈ (s.parkedOf l).zip seats, ∀ d ∈ u.strands, d.id = y.2.id → d.run = .running ∧ d.preempt = .none ∧
            d.task = y.1.task ∧ d.pc = y.1.pc ∧ d.x = y.1.x ∧ d.vec = y.1.vec ∧ d.level = y.1.level ∧
            d.lanegrant = y.2.lanes ∧ d.queues = y.1.queues))) ∧
    (s.cur.preempt = .none ∨ s.cur.preempt = .ending → exec (.preemptDeadline s.cur.id) s = .next s) ∧
    (s.cur.preempt ≠ .none → s.cur.preempt ≠ .ending →
      let now := s.cur.atPoint = true ∧ (∀ e ∈ s.cur.board, e.settled = true) ∧ s.cur.lateHeld = [] ∧
        s.cur.history = none ∧ s.held = false
      let at_ : Strand := if s.cur.run = .vwait then { s.cur with reissue := .fromVstart, vwait := none } else s.cur
      let stopped : Strand := { at_ with run := .preempted, preempt := .none, moving := false }
      (¬now → exec (.preemptDeadline s.cur.id) s = .next { s with cur := { s.cur with preempt := .forced } }) ∧
      (now → s.cur.task ≠ none → ∃ u, exec (.preemptDeadline s.cur.id) s = .next u ∧ u.mem = s.mem ∧
        (u.cur = stopped ∨ (u.cur.task = none ∧ stopped ∈ u.parked)))) ∧
    (∀ part : Nat, ∃ f : Strand → Strand,
      exec (.engineQuiesceTimeout part) s = .next { s with cur := f s.cur, others := s.others.map f } ∧
      ∀ c : Strand, (c.part ≠ part ∨ c.task = none → f c = c) ∧
        (c.part = part → c.task ≠ none → f c = { c with queues := (f c).queues } ∧ ∀ j : Fin 4,
          let q := c.queues[j]
          let r := (f c).queues[j]
          (q.inFlight = false → r = q) ∧
          (q.inFlight = true → r.halted = true ∧ r.entries = q.entries ∧ r.done = q.done ∧ r.fault.toNat % 65536 = 0x108 ∧
            r.fault.toNat / 2 ^ 32 = 2 ^ 32 - 1))) ∧
    (∀ part : Nat, exec (.staleCompletion part) s = .next { s with
      parts := s.parts.map fun p => if p.pid = part then { p with stale := p.stale + 1 } else p })

/-! ### Late errors (18_traps) -/

/-- LATE_ERROR and the timeout of settling (R345, R346, R356) for the issuing strand. The event says which access still to come
fails late, and where its strand stops for it (the model's choice of how an error arrives, log 41); nothing else changes. A
scalar load, store, AMO or CLAIM that fails so has not happened: no register but the pc changes, and no memory, unless PERF says that
an AMO's update was performed; its entry, with KIND, PERF, ERR, the address and the data register of Table 18-5, is held. At a boundary with IN 0
and no stop outstanding LATE is raised for it with RK 0 before the next instruction; a load whose error is known at the load raises
LATE there with RK 3, its register as it was. A timeout settles by propagate an entry of the image and one still held alike, with its
event, and before any request for pre-emption does nothing. -/
def Obligations.LateErrorResults : Prop :=
  ∀ s : State,
    (∀ (stop : LatePoint) errs, exec (.lateError s.cur.id stop errs) s = .next { s with cur := { s.cur with lateStop := some (match stop with
      | .boundary err perf => .boundary errs err perf
      | .load err => .load errs err
      | .matrix k addr => .matrix k addr) } }) ∧
    (∀ (err : BitVec 3) (perf : Bool), s.cur.lateStop = some (.boundary [0] err perf) →
      let fails := fun (i : Instr) (kind : BitVec 3) (did : Bool) (va : Word) (d : XReg) (n : Nat) (mem : Memory) => ∃ u e,
        exec i s = .next u ∧ u.cur.lateHeld = s.cur.lateHeld ++ [e] ∧ e.pc = s.cur.pc ∧ e.kind = kind ∧ e.perf = did ∧ e.err = err ∧
        e.settled = false ∧ e.addr = va ∧ e.nfail = 1 ∧ e.reg = d.setWidth 6 ∧ 2 ^ e.ew.toNat = n ∧ u.cur.lateStop = none ∧
        u.cur.x = s.cur.x ∧ u.cur.vec = s.cur.vec ∧ u.cur.pc = s.cur.pc + 4 ∧ u.others = s.others ∧ u.larder = s.larder ∧
        u.hostMem = s.hostMem ∧ u.mem = mem
      (∀ r ∈ ([(.ld8, 1), (.ld16, 2), (.ld32, 4), (.ld64, 8), (.ldn8, 1), (.ldn16, 2), (.ldn32, 4)] : List ((RRI → Instr) × Nat)),
        ∀ (o : RRI) (t : State) (x : Xlat), s.access (s.getX o.a + o.imm.signExtend 64) r.2 .load = (.ok x, t) →
          fails (r.1 o) 0 false (s.getX o.a + o.imm.signExtend 64) o.d r.2 (t.touch t.cur.via x .load).mem) ∧
      (∀ r ∈ ([(.st8, 1), (.st16, 2), (.st32, 4), (.st64, 8)] : List ((RRI → Instr) × Nat)),
        ∀ (o : RRI) (t : State) (x : Xlat), s.access (s.getX o.a + o.imm.signExtend 64) r.2 .store = (.ok x, t) →
          fails (r.1 o) 1 false (s.getX o.a + o.imm.signExtend 64) o.d r.2 s.mem) ∧
      (∀ f ∈ ([.amoAdd, .amoSwap, .amoAnd, .amoOr, .amoXor, .amoMin, .amoMax, .amoMinn, .amoMaxn, .amoCas] : List (AmoOp → Instr)),
        ∀ (o : AmoOp) (t v : State) (x : Xlat),
          let n := if o.w32 then 4 else 8
          s.access (s.getX o.a) n .amo = (.ok x, t) → x.place.host = false →
          exec (f o) { s with cur := { s.cur with lateStop := none } } = .next v →
          fails (f o) 2 perf (s.getX o.a) o.d n (if perf then v.mem else s.mem)) ∧
      (∀ (o : RRR) (t v : State) (x : Xlat), s.cur.vec.mmode = false → s.cur.vowner = s.cur.ctxid →
        s.access (s.getX o.a) 16 .amo = (.ok x, t) → x.place.host = false → rangeOf x.place.addr = .gddr →
        exec (.claim o) { s with cur := { s.cur with lateStop := none } } = .next v →
        fails (.claim o) 2 perf (s.getX o.a) o.d 8 (if perf then v.mem else s.mem))) ∧
    (∀ err, s.cur.lateStop = some (.load [0] err) → s.cur.trIn = false → s.cur.level ≠ .f → (∀ d ∈ s.cur.board, d.settled = true) →
      s.cur.lateHeld = [] → ∀ r ∈ ([(.ld8, 1), (.ld16, 2), (.ld32, 4), (.ld64, 8), (.ldn8, 1), (.ldn16, 2), (.ldn32, 4)] :
        List ((RRI → Instr) × Nat)), ∀ (o : RRI) (t : State) (x : Xlat),
        s.access (s.getX o.a + o.imm.signExtend 64) r.2 .load = (.ok x, t) → ∃ u e, exec (r.1 o) s = .next u ∧
          s.Entered u (s.cur.pc - 8 * s.cur.slot.setWidth 64) s.cur.slot .late 3 (s.getX o.a + o.imm.signExtend 64) ∧
          u.cur.board = [e] ∧ e.kind = 0 ∧ e.err = err ∧ e.settled = false ∧ u.cur.lateHeld = [] ∧ u.cur.lateStop = none) ∧
    (∀ (e : SbEntry) (rest : List Act), s.agenda = .issue s.cur.id :: rest → s.cur.atBoundary = true → s.cur.preempt = .none →
      s.cur.moving = false → s.cur.trIn = false → s.cur.level ≠ .f → (∀ d ∈ s.cur.board, d.settled = true) → s.cur.lateHeld = [e] →
      ∃ u, step s = .next u ∧ s.Entered u s.cur.pc 0 .late 0 e.addr ∧ u.cur.board = [e] ∧ u.cur.lateHeld = []) ∧
    (s.cur.preempt = .none → exec (.scoreboardSettleTimeout s.cur.id) s = .next s) ∧
    (s.cur.preempt ≠ .none → (∀ e ∈ s.cur.board, e.settled = true) → s.cur.lateHeld = [] → exec (.scoreboardSettleTimeout s.cur.id) s = .next s) ∧
    (∀ e : SbEntry, s.cur.preempt ≠ .none → s.cur.board ++ s.cur.lateHeld = [e] → e.settled = false → e.kind = 2 → ∃ u,
      exec (.scoreboardSettleTimeout s.cur.id) s = .next u ∧ u.cur.board.length = 1 ∧ (∀ d ∈ u.cur.board, d.settled = true) ∧
      u.cur.x = (if (e.reg.setWidth 5 : XReg) = 0 then s.cur.x else s.cur.x.set (e.reg.setWidth 5 : XReg).toNat 0) ∧
      u.cur.pc = s.cur.pc ∧ u.cur.vec = s.cur.vec ∧ u.larder = s.larder ∧
      u.parts = (s.partEvent s.cur.part {
        kind := 4, subj := BitVec.ofNat 16 s.cur.taskNo, ctx := s.cur.taskCtx, a := BitVec.ofNat 64 ((SbEntry.words e).getD 0 0)
        b := e.addr, c := BitVec.ofNat 64 ((SbEntry.words e).getD 2 0) }).parts)

/-! ### Messages of the host (21_ports) -/

/-- The checks of a request (R370, R380, R381, R382, R406), for every verb that needs a session, with the payload bytes and the
bits of flags that each verb uses: a message of another verb, or of another operation of MAP_WINDOW, or on a group that carries
none, is not its business; one that is malformed, or of no known verb, is answered BADMSG, one of a session that is not open
DENIED, and one of an open session where the module is out of service REFUSED (the model's choice, log 28); none of these has
another effect. HBASE is among the bytes of a window of KIND 2 alone, and is reserved otherwise (Table 21-14). One behind an earlier
request of its session and path that is not answered yet waits for it (R380). -/
def Obligations.RpcRequestsChecked : Prop :=
  ∀ (m : Msg) (s : State),
    let carries := (s.groupD m.path).carriesRpc = true
    let answers := fun (i : Instr) (n : Nat) => exec i s = .next { s with
      outbox := s.outbox ++ [OutMsg.mk (msgSession m) 2 (msgVerb m) (msgSeq m) n []] }
    let checks := fun (i : Instr) (verb : Nat) (mine : Prop) (used bits : List (Nat × Nat)) =>
      (¬carries → exec i s = .next s) ∧
      (knownVerb (msgVerb m) = true → msgVerb m ≠ verb → exec i s = .next s) ∧
      (carries → knownVerb (msgVerb m) = false → answers i 1) ∧
      (carries → msgVerb m = verb → mine →
        (¬requestFormed m used bits → answers i 1) ∧
        (requestFormed m used bits → s.session? (msgSession m) = none → answers i 2) ∧
        (∀ x, requestFormed m used bits → s.session? (msgSession m) = some x → s.module.phase ≠ .service → answers i 4) ∧
        (∀ x, requestFormed m used bits → s.session? (msgSession m) = some x → s.module.phase = .service →
          ((∃ y ∈ s.submits, y.session = x.num ∧ y.path = m.path) ∨ (∃ y ∈ x.waiting, y.path = m.path) ∨
            ∃ p ∈ s.parts, ∃ j, p.job = some j ∧ j.session = x.num ∧ j.path = m.path) →
          let t := s.heard x.num m.path
          exec i s = .next { t with
            sessions := t.sessions.map fun y => if y.num = x.num then { y with waiting := y.waiting ++ [m] } else y }))
    let op := payload m 1 1
    checks (.attest m) 2 True [(0, 224)] [] ∧ checks (.createPartition m) 3 True [(0, 7), (8, 24)] [(3, 1)] ∧
    checks (.loadCode m) 4 True [(0, 1), (4, 20)] [] ∧
    checks (.mapWindowMap m) 5 (op = 0 ∨ 2 < op) [(0, 9), (16, if payload m 2 1 = 2 then 32 else 24)] [(3, 5)] ∧
    checks (.mapWindowChange m) 5 (op = 1 ∨ 2 < op) [(0, 2), (3, 1), (12, 4)] [(3, 2)] ∧
    checks (.mapWindowRemove m) 5 (op = 2 ∨ 2 < op) [(0, 2), (12, 4)] [] ∧
    (∀ y ∈ [(0, Instr.mapWindowMap m), (1, .mapWindowChange m), (2, .mapWindowRemove m)], msgVerb m = 5 → op ≤ 2 → op ≠ y.1 →
      exec y.2 s = .next s) ∧
    checks (.submit m) 6 True [(0, 3), (8, 64 * payload m 2 1)] [] ∧ checks (.readCounters m) 7 True [(0, 2)] [] ∧
    checks (.switchPort m) 8 True [(0, 1), (8, 8)] [] ∧ checks (.checkpoint m) 9 True [(0, 1), (4, 12)] [] ∧
    checks (.close m) 10 True [] []

/-- Sessions (R381, R383, R386, R403, R406): OPEN adds a session with the next number, which owns the unassigned groups
where no other is open, and with ADOPT the detached partition of its handle where a session of the path is attested (the model's
reading of R386, log 28); a malformed one is answered BADMSG and one that names no detached partition DENIED. ATTEST answers one of the nine requests of
R403 with its response, in which the firmware image is measured, and another one as unsupported; the session is attested once
its responder has accepted the FINISH of a key exchange, and by nothing else (the codes of the requests and this reading are
the model's, log 24). KEEPALIVE records its path; one with a payload is answered BADMSG; of the messages with a verb that the device
begins, one that is malformed is answered BADMSG, a request of no open session DENIED, and another request BADMSG (these answers are
the model's choices, log 28). KEEPALIVE_SEND sends one; CLOSE stops the queues of the session's partitions, whose control words then
show STOPPED (Table 5-4), and tears down the partitions and their tasks. SESSION_LOST (R386, Table 21-13), where no AMO is under way: the session is gone and its host windows are revoked; each
of its partitions has no owner and the event of kind 6; policy 0 leaves it running, policy 1 stops its running queues, policy 2
ends its launches: it is gone at once where each of its tasks stands where it can be stopped, else once those left, asked to
end, have stopped. -/
def Obligations.SessionResults : Prop :=
  ((∀ (m : Msg) (s : State), (s.groupD m.path).carriesRpc = true → msgVerb m = 1 → requestFormed m [(0, 1), (8, 16)] [] →
     msgSession m = 0 → s.module.phase = .service →
     let n := s.module.nextSession
     let answers := fun (k : Nat) => exec (.openSession m) s = .next { s with outbox := s.outbox ++ [OutMsg.mk 0 2 1 (msgSeq m) k []] }
     let opened := fun (t : State) => t.sessions = s.sessions ++
         [{ num := n, order := s.module.sessionOrder, attested := false, paths := [m.path], transcript := [], exchange := false
            secret := none, waiting := [] }] ∧
       t.module = { s.module with
         nextSession := n + 1, sessionOrder := s.module.sessionOrder + 1
         owning := if s.sessions = [] then some n else s.module.owning } ∧ t.cur = s.cur ∧ t.mem = s.mem
     (1 < payload m 0 1 ∨ (payload m 0 1 = 0 ∧ payload m 8 16 ≠ 0) → answers 1) ∧
     (payload m 0 1 = 1 → s.detached (BitVec.ofNat 64 (payload m 8 8), BitVec.ofNat 64 (payload m 16 8)) = none → answers 2) ∧
     (payload m 0 1 = 0 → payload m 8 16 = 0 → ∃ u, exec (.openSession m) s = .next u ∧ opened u ∧ u.parts = s.parts ∧
       u.outbox = s.outbox ++ [OutMsg.mk 0 2 1 (msgSeq m) 0 (leBytes 4 n)]) ∧
     (payload m 0 1 = 1 → ∀ p, s.detached (BitVec.ofNat 64 (payload m 8 8), BitVec.ofNat 64 (payload m 16 8)) = some p →
       ((∀ x ∈ s.sessions, m.path ∈ x.paths → x.attested = false) → answers 2) ∧
       ((∃ x ∈ s.sessions, m.path ∈ x.paths ∧ x.attested = true) → ∃ u, exec (.openSession m) s = .next u ∧ opened u ∧
         u.parts = (s.parts.map fun q => if q.pid = p.pid then { q with owner := some n } else q) ∧
         u.outbox = s.outbox ++ [OutMsg.mk 0 2 1 (msgSeq m) 0 (leBytes 4 n ++ [BitVec.ofNat 8 p.pid])]))) ∧
   (∀ (m : Msg) (s : State) (x : Session),
     let t := s.heard x.num m.path
     (s.Accepts m 2 [(0, 224)] [] x →
       let code := payload m 1 1
       let sends := fun (r : List Byte) => t.outbox ++ [OutMsg.mk (msgSession m) 2 2 (msgSeq m) 0 (r.take 224)]
       let requests := [0x81, 0x82, 0x83, 0x84, 0xE0, 0xE1, 0xE3, 0xE4, 0xE5]
       (code ∉ requests → exec (.attest m) s = .next { t with outbox := sends (Config.spdmUnsupported m.payload) }) ∧
       (code ∈ requests → ∃ ys : List Session, exec (.attest m) s = .next { t with
           free := t.free + 1, sessions := ys
           outbox := sends (Config.spdmReply t.free s.module.firmware x.transcript m.payload) } ∧
         ys.length = t.sessions.length ∧ ∀ (i : Nat) (y z : Session), t.sessions[i]? = some y → ys[i]? = some z →
           (y.num ≠ x.num ∨ Config.spdmAccepts x.transcript m.payload = false → z = y) ∧
           (y.num = x.num → Config.spdmAccepts x.transcript m.payload = true → z.num = y.num ∧ z.order = y.order ∧
             z.paths = y.paths ∧ z.waiting = y.waiting ∧ z.transcript = y.transcript ++ m.payload ∧
             (z.attested = true ↔ y.attested = true ∨ (y.exchange = true ∧ code = 0xE5)) ∧
             (z.exchange = true ↔ code = 0xE4 ∨ (y.exchange = true ∧ code ≠ 0xE5)) ∧
             (¬(y.exchange = true ∧ code = 0xE5) → z.secret = y.secret)))) ∧
     (s.Accepts m 10 [] [] x → ∃ u, exec (.close m) s = .next u ∧ (∀ y ∈ u.sessions, y.num ≠ x.num) ∧
       (∀ y ∈ t.sessions, y.num ≠ x.num → y ∈ u.sessions) ∧ (∀ p ∈ u.parts, p.owner ≠ some x.num) ∧
       (∀ p ∈ s.parts, p.owner = some x.num → ∀ c ∈ u.strands, c.part = p.pid → c.task = none) ∧
       u.outbox = s.outbox ++ [OutMsg.mk (msgSession m) 2 10 (msgSeq m) 0 []] ∧
       ((∀ p ∈ s.parts, p.owner = some x.num → ∀ h ∈ s.hwq, h.id.part = p.pid → h.state ≠ .running) → u.mem = s.mem) ∧
       (∀ p h, (s.parts.filter fun p => decide (p.owner = some x.num)) = [p] →
         (s.hwq.filter fun h => decide (h.id.part = p.pid) && decide (h.state = .running)) = [h] →
         u.mem = (t.setQword h.id 0x08 (t.qword h.id 0x08 &&& 0xFFFFFFFF0F000300#64)).mem))) ∧
   (∀ (m : Msg) (s : State), (s.groupD m.path).carriesRpc = true →
     let formed := m.w0.toNat / 65536 % 65536 = 0 ∧ m.w1.toNat / 2 ^ 48 = 0 ∧ m.w2 = 0 ∧ m.w3 = 0 ∧ m.payload = [] ∧ msgLen m = 0
     (msgType m = 4 → formed → exec (.keepalive m) s = .next { s with
       sessions := s.sessions.map fun x =>
         if x.num = msgSession m ∧ m.path ∉ x.paths then { x with paths := x.paths ++ [m.path] } else x }) ∧
     (msgType m = 4 → ¬formed → exec (.keepalive m) s = .next { s with
       outbox := s.outbox ++ [OutMsg.mk (msgSession m) 2 (msgVerb m) (msgSeq m) 1 []] }) ∧
     (msgType m ≠ 4 → msgVerb m ∉ [0x20, 0x30, 0x31] → exec (.keepalive m) s = .next s) ∧
     (msgType m ≠ 4 → msgVerb m ∈ [0x20, 0x30, 0x31] →
       let answers := fun (n : Nat) => exec (.keepalive m) s = .next { s with
         outbox := s.outbox ++ [OutMsg.mk (msgSession m) 2 (msgVerb m) (msgSeq m) n []] }
       let whole := m.w0.toNat / 65536 % 65536 = 0 ∧ 1 ≤ msgType m ∧ msgType m ≤ 6 ∧ m.w1.toNat / 2 ^ 48 = 0 ∧ msgLen m ≤ 224 ∧
         msgLen m = m.payload.length ∧ m.w2 = 0 ∧ m.w3 = 0 ∧
         (msgType m = 6 → ∀ (i : Nat) (b : Byte), m.payload[i]? = some b → 8 ≤ i → b = 0)
       (¬whole → answers 1) ∧ (whole → msgType m ≠ 1 → exec (.keepalive m) s = .next s) ∧
       (whole → msgType m = 1 → (s.session? (msgSession m) = none → answers 2) ∧ (s.session? (msgSession m) ≠ none → answers 1)))) ∧
   (∀ (n : Nat) (s : State),
     (∀ x, s.session? n = some x → exec (.keepaliveSend n) s = .next { s with outbox := s.outbox ++ [OutMsg.mk n 4 0 0 0 []] }) ∧
     (s.session? n = none → exec (.keepaliveSend n) s = .next s))) ∧
  (∀ (n : Nat) (s : State) (x : Session), s.session? n = some x → (s.parts.map (·.pid)).Nodup →
     (∀ c ∈ s.strands, c.amo = none) →
     ∃ u, exec (.sessionLost n) s = .next u ∧ (∀ y ∈ u.sessions, y.num ≠ n) ∧
       (∀ q ∈ u.parts, ∀ w ∈ q.windows, w.kind = 2 → w.session = n → w.revoked = true) ∧
       (∀ p ∈ s.parts, p.owner = some n → p.policy ≠ 0 → p.policy ≠ 1 →
         (∀ c ∈ s.strands, c.part = p.pid → ∀ k, c.task = some k → ∃ l ∈ s.launches, l.lid = k.1 ∧ l.queue.part = p.pid) →
         let stops := ∀ c ∈ s.strands, c.part = p.pid → c.task ≠ none → c.endsNow none = true
         (stops → (∀ q ∈ u.parts, q.pid ≠ p.pid) ∧ (∀ h ∈ u.hwq, h.id.part ≠ p.pid) ∧
           ∀ c ∈ u.strands, c.part = p.pid → c.task = none) ∧
         (¬stops → (∃ q ∈ u.parts, q.pid = p.pid ∧ q.owner = none ∧ q.ending = true) ∧
           ∀ c ∈ u.strands, c.part = p.pid → c.task ≠ none → c.preempt = .ending)) ∧
       (∀ p ∈ s.parts, p.owner = some n → p.policy = 0 ∨ p.policy = 1 → p.events.length < 64 → ∃ q ∈ u.parts, ∃ e : EventRec,
         q.pid = p.pid ∧ q.owner = none ∧ e.kind = 6 ∧ q.events = p.events ++ [e]) ∧
       (∀ p ∈ s.parts, p.owner = some n → p.policy = 1 → ∀ h ∈ u.hwq, h.id.part = p.pid → h.state ≠ .running) ∧
       (∀ p ∈ s.parts, p.owner ≠ some n → ∃ q ∈ u.parts, q.pid = p.pid ∧ q.owner = p.owner ∧ q.events = p.events))

/-- CREATE_PARTITION and LOAD_CODE (R29, R214, R381, R406, Tables 5-2 and 21-12). CREATE_PARTITION is answered REFUSED,
DENIED or NOSPACE where it cannot be granted; else the partition is there with 64 stopped queues, its strands hold no task,
its Larders are zero, its groups are its own, a confidential one has a memory key of its own (log 48), and the answer gives its
number, its handle and its arena (which number and which arena are the model's choices, log 10). LOAD_CODE copies
the bytes into the arena and records the image, or refuses, an offset or a length that is no multiple of 8 too (log 28) and a
range that reaches a device gone from service (log 49); where an image of the arena then holds a V = 1 kernel with an F level, every
image of it has a variant in the translation area for 32,768 and for 65,536 bits (R34; which code makes an image such a one,
and where the variants stand, are the model's choices, log 23), or, where they do not fit, it refuses. -/
def Obligations.PartitionResults : Prop :=
  (∀ (m : Msg) (s : State) (x : Session), s.Accepts m 3 [(0, 7), (8, 24)] [(3, 1)] x →
    let t := s.heard x.num m.path
    let first := payload m 0 1
    let count := 2 ^ payload m 1 1
    let mask : BitVec 24 := BitVec.ofNat 24 (payload m 4 3)
    let answers := fun (n : Nat) => exec (.createPartition m) s = .next { t with
      outbox := t.outbox ++ [OutMsg.mk (msgSession m) 2 3 (msgSeq m) n []] }
    (t.createRefused m = true → answers 4) ∧
    (t.createRefused m = false → t.groupsHeld mask = true → answers 2) ∧
    (t.createRefused m = false → t.groupsHeld mask = false → t.freePid = none → answers 3) ∧
    (∀ pid, t.createRefused m = false → t.groupsHeld mask = false → t.freePid = some pid → ∃ u p,
      exec (.createPartition m) s = .next u ∧ u.parts = t.parts ++ [p] ∧ p.pid = pid ∧ p.first = first ∧ p.count = count ∧
      p.policy = payload m 2 1 ∧ p.root = payload m 8 8 ∧ p.queueArea = payload m 16 8 ∧ p.arenaSize = payload m 24 4 * 65536 ∧
      p.transSize = payload m 28 4 * 65536 ∧ p.owner = some x.num ∧ p.windows = [] ∧ p.images = [] ∧
      p.conf = decide (payload m 3 1 = 1) ∧ u.module = { t.module with memKeys := t.module.memKeys + 1 } ∧
      p.memKey = (if payload m 3 1 = 1 then t.module.memKeys + 1 else 0) ∧
      u.outbox = t.outbox ++ [OutMsg.mk (msgSession m) 2 3 (msgSeq m) 0
        (leBytes 8 pid ++ leBytes 8 p.handle.1.toNat ++ leBytes 8 p.handle.2.toNat ++ leBytes 8 p.arenaBase)] ∧
      (∀ i < 64, ∃ h ∈ u.hwq, h.id = { part := pid, q := i } ∧ h.state = .stopped ∧ h.qdone = 0 ∧ h.head = 0) ∧
      (∀ (core : BitVec 6) (sid : BitVec 3), first ≤ core.toNat → core.toNat < first + count →
        ∃ c ∈ u.strands, c.id = { core := core, sid := sid } ∧ c.part = pid ∧ c.task = none) ∧
      (∀ (core : BitVec 6) (a : Nat), first ≤ core.toNat → core.toNat < first + count → a < 0x10000000 →
        Memory.read u.larder (larderBase core + a) = 0) ∧
      (∀ i : Fin 24, u.groups[i] = if mask.getLsbD i.val then { t.groups[i] with owner := some pid } else t.groups[i]))) ∧
  (∀ (m : Msg) (s : State) (x : Session) (p : Partition), s.Accepts m 4 [(0, 1), (4, 20)] [] x →
    let t := s.heard x.num m.path
    t.ownPart x (payload m 0 1) = some p →
    let off := payload m 4 4
    let len := payload m 16 8
    let host := payload m 8 8
    let refused := off % 8 ≠ 0 ∨ len % 8 ≠ 0 ∨ p.arenaSize - p.transSize < off + len ∨ t.codeInUse p.pid (off, len) = true ∨
      ∃ i < len, t.memoryGone (p.arenaBase + off + i) = true
    let refuses := exec (.loadCode m) s = .next { t with outbox := t.outbox ++ [OutMsg.mk (msgSession m) 2 4 (msgSeq m) 4 []] }
    let kept := p.images.filter fun i => !rangesMeet i (off, len)
    let old := p.variants.filter fun v => kept.any fun i => i.1 = v.off
    let images := if len = 0 then kept else kept ++ [(off, len)]
    let fresh := images.filter fun i => !old.any fun v => v.off = i.1
    let free := old.foldl (fun a v => max a (v.base + v.len)) (p.arenaSize - p.transSize)
    let needs := free + 2 * (fresh.map (·.2)).sum
    let fused := ∃ i ∈ images, (t.copyCode p.memKey (p.arenaBase + off) host len).hasVirtual p i.1 i.2 = true
    let sound := (p.images.map (·.1)).Nodup ∧ (∀ i ∈ p.images, 0 < i.2) ∧ ∀ v ∈ p.variants, v.base + v.len ≤ p.arenaSize
    (refused → refuses) ∧
    (¬refused → fused → sound → p.arenaSize < needs → refuses) ∧
    (¬refused → fused → sound → needs ≤ p.arenaSize → ∃ u, exec (.loadCode m) s = .next u ∧
      u.outbox = t.outbox ++ [OutMsg.mk (msgSession m) 2 4 (msgSeq m) 0 []] ∧ u.cur = s.cur ∧ u.larder = s.larder ∧
      (∀ i < len, Memory.read u.mem (p.arenaBase + off + i) = Memory.read s.hostMem (host + i)) ∧
      (∀ a, (a < p.arenaBase + off ∨ p.arenaBase + off + len ≤ a) → (a < p.arenaBase + free ∨ p.arenaBase + p.arenaSize ≤ a) →
        Memory.read u.mem a = Memory.read s.mem a) ∧
      ∀ q ∈ u.parts, q.pid = p.pid → q.images = images ∧ ∀ i ∈ q.images, ∀ ph ∈ [32768, 65536], ∃ v ∈ q.variants,
        v.off = i.1 ∧ (i ∈ fresh → v.phys = ph ∧ v.len = i.2 ∧ free ≤ v.base ∧ v.base + v.len ≤ p.arenaSize)) ∧
    (¬refused → sound → ¬fused → ∃ u,
      exec (.loadCode m) s = .next u ∧ u.outbox = t.outbox ++ [OutMsg.mk (msgSession m) 2 4 (msgSeq m) 0 []] ∧
      (∀ i < len, Memory.read u.mem (p.arenaBase + off + i) = Memory.read s.hostMem (host + i)) ∧
      (∀ a, a < p.arenaBase + off ∨ p.arenaBase + off + len ≤ a → Memory.read u.mem a = Memory.read s.mem a) ∧
      (∀ q ∈ u.parts, q.pid = p.pid → q.images = images ∧ q.variants = old) ∧ u.cur = s.cur ∧ u.larder = s.larder))

/-- MAP_WINDOW (R372): a window that is well formed and meets no other is appended with the next number, and its leaves are
written (shown for the last level of the tables on the way to a window of one page, where a table may stand there; the leaf word,
for a page that A level may read and write, is the model's choice, log 28); EN and RM change alone; a removed window is gone with
its leaves, its cached translations and what the partition's streams have looked up there. Each answers the window's number; a
refusal, an operation above 2, which is answered BADMSG (log 28), or a window that the partition does not have answers its status,
with no other effect. -/
def Obligations.WindowResults : Prop :=
  ∀ (m : Msg) (s : State) (x : Session) (p : Partition),
    let t := s.heard x.num m.path
    let sends := fun (n : Nat) (b : List Byte) => t.outbox ++ [OutMsg.mk (msgSession m) 2 5 (msgSeq m) n b]
    let only := fun (i : Instr) (n : Nat) => exec i s = .next { t with outbox := sends n [] }
    let num := payload m 12 4
    let used := [(0, 9), (16, if payload m 2 1 = 2 then 32 else 24)]
    let leaf := fun (mm : Memory) (va : Nat) (e : Nat) => ∀ t4, tableFor t.mem va 3 1 p.root = some t4 → t.tableOk t4 = true →
      mm.readLE (t4 + 8 * (va / 65536 % 1024)) 8 = e
    (∀ y ∈ [(Instr.mapWindowMap m, used, [(3, 5)]), (.mapWindowChange m, [(0, 2), (3, 1), (12, 4)], [(3, 2)]),
        (.mapWindowRemove m, [(0, 2), (12, 4)], [])], s.Accepts m 5 y.2.1 y.2.2 x → 2 < payload m 1 1 → only y.1 1) ∧
    (t.ownPart x (payload m 0 1) = some p →
    (s.Accepts m 5 used [(3, 5)] x → payload m 1 1 = 0 →
      let w := newWindow m p p.nextWin x.num
      let ok := windowOk m w = true ∧ ∀ v ∈ p.windows, rangesMeet (v.va, v.len) (w.va, w.len) = false
      (¬ok → only (.mapWindowMap m) 4) ∧
      (ok → ∃ u, exec (.mapWindowMap m) s = .next u ∧ u.outbox = sends 0 (leBytes 4 p.nextWin) ∧ u.cur = s.cur ∧
        (w.len = 65536 → leaf u.mem w.va (w.pa + 0x1D)) ∧
        u.parts = t.parts.map fun q =>
          if q.pid = p.pid then { q with windows := q.windows ++ [w], nextWin := q.nextWin + 1 } else q)) ∧
    (s.Accepts m 5 [(0, 2), (3, 1), (12, 4)] [(3, 2)] x → payload m 1 1 = 1 →
      (p.window? num = none → only (.mapWindowChange m) 2) ∧
      (p.window? num ≠ none → exec (.mapWindowChange m) s = .next { t with
        outbox := sends 0 (leBytes 4 num)
        parts := t.parts.map fun q => if q.pid = p.pid then { q with windows := q.windows.map fun v => if v.num = num then
          { v with en := decide (payload m 3 1 % 2 = 1), rm := decide (2 ≤ payload m 3 1) } else v } else q })) ∧
    (s.Accepts m 5 [(0, 2), (12, 4)] [] x → payload m 1 1 = 2 →
      (p.window? num = none → only (.mapWindowRemove m) 2) ∧
      (∀ w, p.window? num = some w → ∃ u, exec (.mapWindowRemove m) s = .next u ∧ u.outbox = sends 0 (leBytes 4 num) ∧
        (u.parts = t.parts.map fun q =>
          if q.pid = p.pid then { q with windows := q.windows.filter fun v => v.num ≠ num } else q) ∧
        (w.len = 65536 → leaf u.mem w.va 0) ∧
        (∀ e ∈ u.tlb, e.part = p.pid → e.base + 2 ^ e.size ≤ w.va ∨ w.va + w.len ≤ e.base ∨ w.len = 0) ∧
        (∀ c ∈ u.strands ++ u.parked, c.part = p.pid → ∀ i : Fin 8, ∀ y ∈ c.vec.streams[i].leaves,
          y.2.base + 2 ^ y.2.size ≤ w.va ∨ w.va + w.len ≤ y.2.base ∨ w.len = 0) ∧
        u.cur.x = s.cur.x ∧ u.cur.pc = s.cur.pc ∧ u.cur.vec.v = s.cur.vec.v)))

/-- SUBMIT, READ_COUNTERS, SWITCH_PORT and CHECKPOINT (R379, R381, R395, R406, R407). A submission whose ring has room is
written into its slots and its index reserved; where its turn has come the tail is written and its index answered (shown with
session numbers distinct and no submission waiting).
READ_COUNTERS answers the core's counters and the partition's two: every counter as it stands, but for one whose event's amount
is open and may have moved on (log 7). SWITCH_PORT answers the refusals of PORTSW in their order (R379, Table 21-8), and a
drain it starts is answered later; from DOWN the switch starts at once. A checkpoint copies the partition's arena, its cores'
Larders and the pages its tables map into the window, in an order that is open (log 26), each byte as it reads under the
partition's key (R389, log 48), and answers the copy's length; one that does not fit, or that the window's routes fail, is REFUSED
(the model's choice, log 26), and one that they stall is not done. What waited behind it comes next (R380). -/
def Obligations.RequestResults : Prop :=
  ∀ (m : Msg) (s : State) (x : Session),
    let t := s.heard x.num m.path
    let sends := fun (v n : Nat) (b : List Byte) => t.outbox ++ [OutMsg.mk (msgSession m) 2 v (msgSeq m) n b]
    let only := fun (i : Instr) (v n : Nat) (b : List Byte) => exec i s = .next { t with outbox := sends v n b }
    (∀ p : Partition, s.Accepts m 6 [(0, 3), (8, 64 * payload m 2 1)] [] x → t.ownPart x (payload m 0 1) = some p →
      t.hwq? { part := p.pid, q := payload m 1 1 } = none → only (.submit m) 6 4 []) ∧
    (∀ (p : Partition) (h : HwQueue), s.Accepts m 6 [(0, 3), (8, 64 * payload m 2 1)] [] x →
      t.ownPart x (payload m 0 1) = some p → t.hwq? { part := p.pid, q := payload m 1 1 } = some h →
      let q : QueueId := { part := p.pid, q := payload m 1 1 }
      let count := payload m 2 1
      let ring := (t.ringOf h).1.toNat
      let size := (t.ringOf h).2
      let n := (t.qword q 0x10).toNat
      (count = 0 ∨ 3 < count → only (.submit m) 6 1 []) ∧
      (1 ≤ count → count ≤ 3 → size < 4 ∨ ring % 64 ≠ 0 → only (.submit m) 6 4 []) ∧
      (1 ≤ count → count ≤ 3 → 4 ≤ size → ring % 64 = 0 → 2 ^ size < n + count - h.qdone → only (.submit m) 6 3 []) ∧
      (∀ v, 1 ≤ count → count ≤ 3 → 4 ≤ size → ring % 64 = 0 → n + count - h.qdone ≤ 2 ^ size →
        t.writeSlots p.pid ring size m n count = some v → v.submits = [] → (s.sessions.map (·.num)).Nodup →
        let w := v.setQword q 0x10 (BitVec.ofNat 64 (n + count))
        (n = (w.qword q 0x18).toNat → ∃ u, exec (.submit m) s = .next u ∧ u.submits = [] ∧
          u.mem = (w.setQword q 0x18 (BitVec.ofNat 64 (n + count))).mem ∧ u.agenda = .doorbell q :: w.agenda ∧
          u.outbox = w.outbox ++ [OutMsg.mk x.num 2 6 (msgSeq m) 0 (leBytes 8 n)]) ∧
        (n ≠ (w.qword q 0x18).toNat → exec (.submit m) s = .next { w with
          submits := [{ session := x.num, path := m.path, seq := msgSeq m, queue := q, index := n, count := count }] }))) ∧
    (∀ p : Partition, s.Accepts m 7 [(0, 2)] [] x → t.ownPart x (payload m 0 1) = some p →
      let c := payload m 1 1
      let core : BitVec 6 := BitVec.ofNat 6 c
      let k := (t.core? core).getD (.reset core)
      (64 ≤ c ∨ c < p.first ∨ p.first + p.count ≤ c → only (.readCounters m) 7 4 []) ∧
      (c < 64 → p.first ≤ c → c < p.first + p.count → ∃ (u : State) (v : Vector Word 16), exec (.readCounters m) s = .next u ∧
        (∀ i : Fin 16, (∀ y ∈ t.cores, y.core = core → y.stirred[i] = false ∧ y.events[i] ≠ 1) → v[i] = k.pcnt[i]) ∧ u.cur = s.cur ∧
        u.outbox = sends 7 0 ((v.toList.flatMap fun w => leBytes 8 w.toNat) ++ leBytes 8 p.stale.toNat ++
          leBytes 8 p.proxies.toNat))) ∧
    (s.Accepts m 8 [(0, 1), (8, 8)] [] x →
      let g := payload m 0 1
      let r := payload m 8 8
      let mine := g < 24 ∧ t.sessionOwns x.num g = true
      (¬mine → only (.switchPort m) 8 2 []) ∧
      (∀ (h : g < 24), t.sessionOwns x.num g = true →
        let y := t.groups[g]
        let code := fun (n : Nat) => only (.switchPort m) 8 0 [BitVec.ofNat 8 n]
        let target : BitVec 4 := BitVec.ofNat 4 r
        let bad := r / 64 ≠ 0 ∨ 4 < r % 16
        let inProgress := y.state ≠ .active ∧ y.state ≠ .down
        let same := y.state = .active ∧ y.pers = target
        let twoHosts := target = 1 ∧ 2 ≤ ((List.range 24).filter fun k => decide (k ≠ g) && (t.groupD k).counts).length
        let busy := y.pers = 0 ∧ target ≠ 0 ∧ ∃ p ∈ t.parts, ∃ w ∈ p.windows, w.en = true ∧ w.kind = 0 ∧ 2 ≤ w.ways ∧
          w.groups.getLsbD g = true
        let inUse := y.carriesRpc = true ∧ ∃ z ∈ t.sessions, g ∈ z.paths ∧ ∀ k ∈ z.paths, k ≠ g → (t.groupD k).carriesRpc = false
        (bad → code 7) ∧ (¬bad → y.owner ≠ none → code 2) ∧
        (¬bad → y.owner = none → (inProgress → code 6) ∧ (¬inProgress → same → code 3) ∧
          (¬inProgress → ¬same → (twoHosts → code 4) ∧ (¬twoHosts → busy → code 1) ∧ (¬twoHosts → ¬busy → inUse → code 5) ∧
            (¬twoHosts → ¬busy → ¬inUse →
              let started : Group := { y with
                state := if y.state = .down then .retraining else .draining, prev := if y.state = .down then 15 else y.pers
                target := target, warm := decide (r / 16 % 2 = 0) && y.presets.contains target }
              let windows := t.parts.map fun p => { p with windows := p.windows.map fun w =>
                if r / 32 % 2 = 1 ∧ w.groups = 1#24 <<< g then { w with rm := true } else w }
              (y.state = .active → exec (.switchPort m) s = .next { t with
                parts := windows, groups := t.groups.set g { started with asker := some (x.num, msgSeq m) } }) ∧
              (y.state = .down → exec (.switchPort m) s = .next { t with
                parts := windows, groups := t.groups.set g started, outbox := sends 8 0 [0] })))))) ∧
    (∀ p : Partition, s.Accepts m 9 [(0, 1), (4, 12)] [] x → t.ownPart x (payload m 0 1) = some p →
      (p.window? (payload m 4 4) = none → only (.checkpoint m) 9 2 []) ∧
      (∀ w, p.window? (payload m 4 4) = some w →
        let off := payload m 8 8
        let ok := w.kind = 0 ∧ off % 4096 = 0 ∧ off ≤ w.len ∧ p.job = none
        (¬ok → only (.checkpoint m) 9 4 []) ∧
        (ok → exec (.checkpoint m) s = .next (t.mapPart p.pid fun q => { q with
          job := some { session := x.num, path := m.path, seq := msgSeq m, win := w.num, off := off } })))) ∧
    (∀ (n : Nat) (p : Partition), s.partition? n = some p →
      (p.job = none → exec (.checkpointDone n) s = .next s) ∧
      (∀ j, p.job = some j →
        let ended := s.parts.map fun q => if q.pid = n then { q with job := none } else q
        let k := ((s.checkpointPieces p).map (·.2.2)).sum
        let behind := (s.sessions.filter fun y => decide (y.num = j.session)).flatMap fun y =>
          y.waiting.filter fun r => decide (r.path = j.path)
        let refused := ∃ u, exec (.checkpointDone n) s = .next u ∧ u.agenda = behind.map Act.request ++ s.agenda ∧ u.mem = s.mem ∧
          (behind = [] → u = { s with parts := ended, outbox := s.outbox ++ [OutMsg.mk j.session 2 9 j.seq 4 []] })
        (p.window? j.win = none → refused) ∧
        (∀ w, p.window? j.win = some w → (w.len < j.off + k → refused) ∧
          (∀ c, j.off + k ≤ w.len → s.routeRange w j.off k = .error (.trap c) → refused) ∧
          (j.off + k ≤ w.len → s.routeRange w j.off k = .error .stall → exec (.checkpointDone n) s = .next s) ∧
          (j.off + k ≤ w.len → s.routeRange w j.off k = .ok () → ∃ u, exec (.checkpointDone n) s = .next u ∧ u.parts = ended ∧
            u.outbox = s.outbox ++ [OutMsg.mk j.session 2 9 j.seq 0 (leBytes 8 k)] ∧ u.cur = s.cur ∧ u.larder = s.larder ∧
            u.agenda = behind.map Act.request ++ s.agenda ∧
            (∀ y ∈ s.checkpointPieces p, ∃ o, o + y.2.2 ≤ k ∧ ∀ i < y.2.2, Memory.read u.mem (w.pa + j.off + o + i) =
              if y.1 then Memory.read s.larder (y.2.1 + i) else s.byteUnder p.memKey (y.2.1 + i)) ∧
            ((false, p.arenaBase, p.arenaSize) ∈ s.checkpointPieces p ∧
              ∀ c < p.count, (true, larderBase (BitVec.ofNat 6 (p.first + c)), larderSize) ∈ s.checkpointPieces p) ∧
            ∀ a, a < w.pa + j.off ∨ w.pa + j.off + k ≤ a → Memory.read u.mem a = Memory.read s.mem a))))

/-! ### The service processor (23_service) -/

/-- Power, firmware and the retirement of parts (R9, R12, R17, R396 to R402, R405): POWER_GOOD starts the boot ROM with
group 0 as HOSTLINK; an image comes into service where its checks accept it, each group trained that lacks no lane; a sample at the
power limit steps the clock down (the model's choice among what R9 allows, log 30), and 115 °C stops every strand, what it awaits
included; an error on a part with a spare takes the spare and reports it, and the tasks of a core or
strand core are to move with it (R398; a spare core brings strand cores of its own, and its tasks stop and resume in place, the
model's choice, log 47); a core without one is absent and its partition ends; a device-memory range or a Landing
core without one is gone from service. POWER_LOSS forgets spares and removed parts with the rest (the model's choice, log 29). -/
def Obligations.ServiceResults : Prop :=
  ∀ s : State,
    (s.module.phase ≠ .off → exec .powerGood s = .next s) ∧
    (s.module.phase = .off → exec .powerGood s = .next { s with
      module := { s.module with phase := .bootRom }
      groups := s.groups.set 0 { s.groups[0] with state := .active, pers := 1, target := 1, presets := [1] } }) ∧
    (∃ u, exec .powerLoss s = .next u ∧ u.cur = .reset { core := 0, sid := 0 } ∧ u.others = [] ∧ u.sessions = [] ∧
      u.parts = [] ∧ u.larder = [] ∧ u.module = .reset ∧ u.hostMem = s.hostMem ∧
      (∀ a < 0x100000000000, Memory.read u.mem a = Memory.read State.reset.mem a)) ∧
    (∀ (m : Msg), (s.groupD m.path).carriesRpc = true → msgVerb m = 0x40 → requestFormed m [(0, 224)] [] → msgSession m = 0 →
      let off := payload m 0 4
      let chunk := m.payload.drop 8
      let img := s.module.firmware.take off ++ List.replicate (off - s.module.firmware.length) 0 ++ chunk ++
        s.module.firmware.drop (off + chunk.length)
      let sends := fun (n : Nat) (b : List Byte) => s.outbox ++ [OutMsg.mk 0 2 0x40 (msgSeq m) n b]
      (s.module.phase ≠ .bootRom → exec (.firmware m) s = .next { s with outbox := sends 4 [] }) ∧
      (s.module.phase = .bootRom → off + chunk.length < payload m 4 4 → exec (.firmware m) s = .next { s with
        module := { s.module with firmware := img }, outbox := sends 0 [0] }) ∧
      (s.module.phase = .bootRom → payload m 4 4 ≤ off + chunk.length →
        let v := Config.firmwareVerdict img
        ∃ u, exec (.firmware m) s = .next u ∧ u.outbox = sends 0 [v.setWidth 8] ∧ u.cur = s.cur ∧ u.mem = s.mem ∧
          (v = 0 → u.module = { s.module with phase := .service, firmware := img } ∧ u.larder = [] ∧ u.planes = [] ∧
            ((List.finRange 24).filter fun i => (u.groups[i]).pers = 1).length ≤ 2 ∧ ∀ i : Fin 24,
              ((∀ lane, PartRef.lane i.val lane ∉ s.module.removed) → (u.groups[i]).state = .active ∧ (u.groups[i]).pers.toNat ≤ 4 ∧
                (u.groups[i]).owner = none ∧ (u.groups[i]).spare = (s.groups[i]).spare ∧
                ∀ c, c ∈ (u.groups[i]).presets ↔ c ∈ (s.groups[i]).presets ∨ c = (u.groups[i]).pers) ∧
              ((∃ lane, PartRef.lane i.val lane ∈ s.module.removed) → (u.groups[i]).state = .down)) ∧
          (v ≠ 0 → u.module = { s.module with firmware := [] } ∧ u.groups = s.groups))) ∧
    (∀ watts tempC flow : Nat,
      let stopped := s.module.phase = .off ∨ s.module.phase = .tripped
      let limit := 3200 * min flow 4 / 4
      (stopped → exec (.powerSample watts tempC flow) s = .next s) ∧
      (¬stopped → 115 ≤ tempC → ∃ u, exec (.powerSample watts tempC flow) s = .next u ∧ u.module.phase = .tripped ∧
        (∀ c ∈ u.strands, c.run = .stopped ∧ c.amo = none) ∧ u.cur.x = s.cur.x ∧ u.mem = s.mem) ∧
      (¬stopped → tempC < 115 → ∃ mhz, exec (.powerSample watts tempC flow) s = .next { s with
          free := s.free + 1, module := { s.module with clockMHz := mhz } } ∧
        (limit ≤ watts → mhz = max 1200 (s.module.clockMHz - 25)) ∧
        (105 ≤ tempC → s.module.clockMHz = 1200 → mhz = 1200) ∧
        (1200 ≤ s.module.clockMHz → s.module.clockMHz ≤ 2100 → 1200 ≤ mhz ∧ mhz ≤ 2100 ∧ mhz ≤ s.module.clockMHz + 25))) ∧
    (∀ dev : Nat, exec (.gddrCopyDone dev) s = .next { s with
      module := { s.module with copying := s.module.copying.filter fun d => d ≠ dev } }) ∧
    exec .patrolScrub s = .next s ∧
    (∀ p : PartRef, partExists p = false ∨ s.partGone p = true →
      exec (.correctedError p) s = .next s ∧ exec (.uncorrectableError p) s = .next s) ∧
    (∀ (k : BitVec 6) (i : Nat), exec (.uncorrectableError (.bank k i)) s = .next s) ∧
    (∀ p ∈ ([(.core 0, 64), (.gddr 0, 256), (.strandCore { core := 1, sid := 2 }, 64), (.bank 1 3, 16)] : List (PartRef × Nat)),
      s.partGone p.1 = false → s.module.errorsOf p.1 < p.2 → ∃ u, exec (.correctedError p.1) s = .next u ∧
        u.module = s.module.setErrors p.1 (s.module.errorsOf p.1 + 1) ∧ u.cur = s.cur ∧ u.mem = s.mem) ∧
    (∀ (p : PartRef) (cls scope spares index : Nat), partExists p = true → s.partGone p = false →
      partClass p = (cls, scope, spares, index) → cls ≠ 5 → cls ≠ 6 → s.module.takenOf cls scope < spares →
      s.partHolder p = none → ∀ n, s.module.owning = some n → ∃ u, exec (.uncorrectableError p) s = .next u ∧
        u.module.takenOf cls scope = s.module.takenOf cls scope + 1 ∧ u.mem = s.mem ∧
        u.strands = (s.strands.map fun c =>
          if c.movesWith p = true ∧ c.run ∉ [Run.halted, .preempted, .stopped] then { c with moving := true } else c) ∧
        (cls = 1 ∨ cls = 2 → p ∈ u.module.moving) ∧
        (cls = 1 → ∀ k ∈ u.cores, k.core.toNat = index → k.lostStrands = []) ∧
        u.outbox = s.outbox ++ [OutMsg.mk n 3 0x30 0 0 ([1, BitVec.ofNat 8 cls, BitVec.ofNat 8 index,
          BitVec.ofNat 8 (index / 256), BitVec.ofNat 8 (spares - s.module.takenOf cls scope - 1), 0, 0, 0])]) ∧
    (∀ n : BitVec 6, s.partGone (.core n) = false → 2 ≤ s.module.takenOf 1 (n.toNat / 32) → ∃ u,
      exec (.uncorrectableError (.core n)) s = .next u ∧ (∃ k ∈ u.cores, k.core = n ∧ k.absent = true) ∧
      ∀ p, s.partOn n = some p → (∀ q ∈ u.parts, q.pid ≠ p.pid) ∨ ∃ q ∈ u.parts, q.pid = p.pid ∧ q.ending = true) ∧
    (∀ (p : PartRef) (cls scope spares index : Nat), partExists p = true → s.partGone p = false →
      partClass p = (cls, scope, spares, index) → cls = 3 ∨ cls = 4 → spares ≤ s.module.takenOf cls scope →
      ∀ n, s.module.owning = some n → ∃ u, exec (.uncorrectableError p) s = .next u ∧ u.partGone p = true ∧
        u.strands = s.strands ∧ u.mem = s.mem ∧
        u.outbox = s.outbox ++ [OutMsg.mk n 3 0x30 0 0 ([2, BitVec.ofNat 8 cls, BitVec.ofNat 8 index,
          BitVec.ofNat 8 (index / 256), 0, 0, 0, 0])])

/-! ### Completions toward a host (17_atomics, 21_ports) -/

/-- The ends of an AMO that waits on a host window (R320, R364, R384, R385), on the issuing strand without a watchpoint: a
completion or a proxy's response writes the new value at the host location to which the AMO was routed and the old value to xd;
a refused AtomicOp goes by the proxy, with the message of R382, or raises HOSTATOM, as a refused proxy does; a timeout leaves
an entry for LATE and the pc past the AMO. A completion for a task that has ended, where the strand waits for none, is
discarded and counted. -/
def Obligations.AtomicCompletionResults : Prop :=
  ∀ (s : State) (old : Word),
    let none_ := ∀ x ∈ s.strays, x.1 ≠ s.cur.id
    (none_ → s.cur.run ≠ .atomicWait → ∀ ok, exec (.atomicopCompletion s.cur.id ok old) s = .next s) ∧
    (none_ → s.cur.run ≠ .proxyWait → ∀ ok, exec (.proxyResponse s.cur.id ok old) s = .next s) ∧
    (s.cur.amo = none → exec (.atomicTimeout s.cur.id) s = .next s) ∧
    (∀ (part : Nat) (rest : List (StrandId × Nat)), s.strays = (s.cur.id, part) :: rest →
      (∀ c ∈ s.strands, c.id = s.cur.id → c.amo = none) → ∀ ok,
      ∀ i ∈ [Instr.atomicopCompletion s.cur.id ok old, .proxyResponse s.cur.id ok old], exec i s = .next { s with
        free := s.free + 1, strays := rest
        parts := s.parts.map fun q => if q.pid = part then { q with stale := q.stale + 1 } else q }) ∧
    (∀ f : AmoFlight, s.cur.amo = some f → f.gen = s.cur.gen → f.n = 4 ∨ f.n = 8 →
      let quiet := s.cur.conv.watch = none ∧ ∀ i : Fin 4, s.cur.wctl[i] = 0
      let o := old.toNat % 2 ^ (8 * f.n)
      let done := fun (u : State) =>
        (match amoNew f.op f.n o f.b f.c with
          | some z => u.readPlace { host := true, addr := f.addr } f.n = z % 2 ^ (8 * f.n)
          | none => u.hostMem = s.hostMem) ∧
        u.cur.x = (if f.d = 0 then s.cur.x else s.cur.x.set f.d.toNat
          (if f.n = 4 ∧ 2 ^ 31 ≤ o then BitVec.ofInt 64 ((o : Int) - 2 ^ 32) else BitVec.ofNat 64 o)) ∧
        u.cur.pc = s.cur.pc + 4 ∧ u.cur.run = .running ∧ u.cur.amo = none ∧ u.cur.vec = s.cur.vec ∧ u.others = s.others ∧
        u.larder = s.larder ∧ u.outbox = s.outbox
      let traps := ({ s with cur := { s.cur with run := .running, amo := none } } : State).trap .hostatom f.va
      (none_ → s.cur.run = .atomicWait →
        (quiet → ∃ u, exec (.atomicopCompletion s.cur.id true old) s = .next u ∧ done u ∧ u.parts = s.parts) ∧
        (f.fb = true → exec (.atomicopCompletion s.cur.id false old) s = .next { s with
          outbox := s.outbox ++ [{
            session := f.session, type := 5, verb := 0x20, seq := 0, status := 0
            payload := [BitVec.ofNat 8 f.op, BitVec.ofNat 8 f.n, BitVec.ofNat 8 f.order, 0, 0, 0, 0, 0] ++ leBytes 8 f.addr ++
              leBytes 8 f.b ++ leBytes 8 (if f.op = 9 then f.c else 0) }]
          cur := { s.cur with run := .proxyWait } }) ∧
        (f.fb = false → exec (.atomicopCompletion s.cur.id false old) s = .next traps)) ∧
      (none_ → s.cur.run = .proxyWait →
        (quiet → ∃ u, exec (.proxyResponse s.cur.id true old) s = .next u ∧ done u ∧
          u.parts = s.parts.map fun q => if q.pid = s.cur.part then { q with proxies := q.proxies + 1 } else q) ∧
        exec (.proxyResponse s.cur.id false old) s = .next traps) ∧
      ∃ e : SbEntry, e.kind = 2 ∧ e.err = 2 ∧ e.perf = true ∧ e.addr = f.va ∧
        exec (.atomicTimeout s.cur.id) s = .next { s with cur := { s.cur with
          run := .running, amo := none, lateHeld := s.cur.lateHeld ++ [e], pc := s.cur.pc + 4, age := s.cur.age + 1 } })

/-! ### The step -/

/-- A step whose turn is the issuing strand's, at a boundary with nothing due before the parcel at its pc: exec of the
parcel's instruction on the state with the strand at slot 0 and the parcel at hand; then the parcel retires, counted by the
events assigned before it, unless it trapped or waits (R61, R117, R393, Table 23-4). With IN 1 held errors and matches wait, and
the parcel comes first (R341). The same for a convoy of one 64-bit word
that passes its decode checks and whose instruction neither traps nor waits: exec of the word, then the convoy's retirement
with what it carries (R83, R117, R124, R192, R227). The code is on a device that is in service. What the model adds around exec:
counters whose amounts are open may have moved on, those alone that what is fetched can reach (log 7). -/
def Obligations.StepRunsDecoded : Prop :=
  ∀ (s u : State) (rest : List Act) (i : Instr), s.agenda = .issue s.cur.id :: rest →
    s.cur.run = .running → s.cur.slot = 0 → s.cur.reissue = .none → s.cur.preempt = .none → s.cur.moving = false →
    (s.cur.trIn = true ∨ s.cur.lateHeld = [] ∧ s.cur.panelLate = none ∧ s.cur.watchHeld = []) →
    s.memoryGone s.cur.pc.toNat = false →
    let after := fun (t : State) => t.focus s.cur.id
    let begun := fun (evs : List Nat) => ({ (s.stir s.cur.id.core [1, 7]).stir s.cur.id.core evs with
      agenda := rest, cur := { s.cur with slot := 0, history := none, conv := .none } } : State)
    (∀ w : BitVec 32, s.cur.outside s.cur.pc 1 = false → s.cur.pc.toNat % 4 = 0 → isWide (s.codeWord s.cur.pc) = false →
      w = BitVec.ofNat 32 (s.mem.readLE s.cur.pc.toNat 4) → decodeParcel w = some i →
      let b := begun (Instr.reaches i)
      exec i { b with cur := { b.cur with iword := w.setWidth 64, note := none, run := .running } } = .next u →
        (u.cur.note.isSome = true ∨ u.cur.run.waits = true → step s = .next (after u)) ∧
        (u.cur.note = none → u.cur.run.waits = false → step s = .next (after (u.retireCounting s.coreOf.events)))) ∧
    (s.cur.outside s.cur.pc 8 = false → s.cur.pc.toNat % 8 = 0 →
      let w := s.codeWord s.cur.pc
      let c : Strand := { s.cur with slot := 0, history := none, conv := .none }
      let b := begun (c.countedBy { w := w, i := some i, info := wordInfo i c })
      isWide w = true → lastBit w = true → decodeWord w = some i →
      b.cur.wordCheck (wordInfo i b.cur) = none → entriesOf (wordInfo i b.cur) ≤ 64 →
      exec i { b with cur := { b.cur with iword := w, note := none, run := .running } } = .next u → u.cur.note = none →
      u.cur.run = .running →
        step s = .next (after (({ u with cur := { u.cur with reissue := .none } } : State).retireConvoy
          { before := b, first := s.cur.pc } false)))

/-- Where an instruction executes normally, it completes without a trap: the strand goes on at the next word, at its level, with
the saved pc and IN as they were. What it leaves is in the statements of its family. YIELD of a supervisor launch's task or
with an unsettled entry, and HALT of a strand with no command left to wait for (R352, R358). Every word of Tables 10-3, 10-6 and
10-7 that passes the checks of Table 4-19, whatever its elements hold (R168, R192 to R212). The loads and stores of Table 12-2
whose accesses pass (R237) and meet no late error; VLDFF where all its accesses pass (R239). VWAIT with vl 0 or
with a timeout of 0 whose words pass, and its look where all the words it watches are met or its deadline has passed (R326, R327).
VSAVE, and VRESTORE of an image that fits (R360 to R362). MMAC and the sparse words with tiles of their kind, records within the
declared planes and no stop within them, MREAD, MWRITE and MSTAT (R281 to R285, R288, R300 to R303). -/
def Obligations.InstructionsExecuteNormally : Prop :=
  (∀ s : State, (s.cur.unsettled = true ∨ ∀ l, (s.cur.task.bind fun x => s.launch? x.1) = some l → l.sup = true) →
    exec .yield s = .next (s.setPc (s.cur.pc + 4))) ∧
  (∀ s : State, s.cur.commandsDone = true → s.cur.board = [] → s.cur.lateHeld = [] →
    ∃ u, exec .halt s = .next u ∧ u.cur.gen = s.cur.gen + 1 ∧ (u.cur.run = .halted ∨ u.cur.run = .idle) ∧ u.mem = s.mem) ∧
  (∀ s t : State,
     let done := fun (i : Instr) => i.WellFormed → s.Ready i t → t.Completes (exec i s)
     let ran := fun (i : Instr) => s.Ready i t → t.Completes (exec i s)
     let passes := fun (p : VmPlan) => ∃ tbl u, t.Passes p tbl u
     let loads := fun (p : VmPlan) => passes p ∧ t.cur.lateLoad = none
     let stores := fun (p : VmPlan) => passes p ∧ t.cur.lateStop = none
     (∀ f ∈ ([.vfaddVV, .vfsubVV, .vfmulVV, .vfdivVV, .vfminVV, .vfmaxVV, .vfsgnVV, .vfsgnnVV, .vfwmaVV, .vfredsum, .vfredosum,
         .vfredmin, .vfredmax, .vfscan] : List (FVV → Instr)), ∀ o, done (f o)) ∧
     (∀ f ∈ ([.vfaddVS, .vfsubVS, .vfmulVS, .vfdivVS, .vfminVS, .vfmaxVS, .vfsgnVS, .vfsgnnVS, .vfwmaVS] : List (FVS → Instr)),
       ∀ o, done (f o)) ∧
     (∀ f ∈ ([.vfmaVV, .vfmsVV, .vfnmaVV] : List (FVVV → Instr)), ∀ o, done (f o)) ∧
     (∀ f ∈ ([.vfmaVS, .vfmsVS, .vfnmaVS] : List (FVSS → Instr)), ∀ o, done (f o)) ∧
     (∀ f ∈ ([.vfsqrt, .vfclass, .vfexp2, .vfrcp, .vfrsqrt] : List (FV → Instr)), ∀ o, done (f o)) ∧
     (∀ o, done (.vfcvt o)) ∧
     (∀ f ∈ ([.vredsum, .vredmin, .vredmax, .vredand, .vredor, .vredxor, .vwredsum, .vscan] : List (VV → Instr)), ∀ o, done (f o)) ∧
     (∀ o : VldOp, loads (loadPlan t o.m (memEwBits o.ew) (unitAddrs t o.base o.off (memEwBits o.ew))) → ran (.vld o)) ∧
     (∀ o : VldsOp, loads (loadPlan t o.m o.ew.bits (stridedAddrs t o.base o.stride o.off)) → ran (.vlds o)) ∧
     (∀ o : VldxOp, loads (loadPlan t o.m o.ew.bits (indexedAddrs t o.base o.off o.vi o.x64)) → ran (.vldx o)) ∧
     (∀ o : VldsegOp, loads (loadPlan t o.m o.ew.bits (segmentAddrs t o.base o.off o.ew.bits (o.nf.toNat + 1))) →
       ran (.vldseg o)) ∧
     (∀ o : VldffOp, loads (loadPlan t o.m o.ew.bits (unitAddrs t o.base o.off o.ew.bits)) → ran (.vldff o)) ∧
     (∀ o : VstOp, stores (storePlan t o.m (memEwBits o.ew) o.mode (unitAddrs t o.base o.off (memEwBits o.ew))) → ran (.vst o)) ∧
     (∀ o : VstsOp, stores (storePlan t o.m o.ew.bits (if o.u then .unordered else .ordered)
       (stridedAddrs t o.base o.stride o.off)) → ran (.vsts o)) ∧
     (∀ o : VstxOp, stores (storePlan t o.m o.ew.bits o.mode (indexedAddrs t o.base o.off o.vi o.x64)) → ran (.vstx o)) ∧
     (∀ o : VstsegOp, stores (storePlan t o.m o.ew.bits o.mode (segmentAddrs t o.base o.off o.ew.bits (o.nf.toNat + 1))) →
       ran (.vstseg o)) ∧
     (∀ o : VldxOp, stores { storePlan t o.m o.ew.bits .ordered (indexedAddrs t o.base o.off o.vi o.x64) with noHost := true } →
       ran (.vscadd o)) ∧
     (∀ o : VwaitOp, t.cur.vwait = none → t.cur.run = .running →
       (t.cur.vec.vl = 0 ∨ t.getX o.timeout = 0 ∧ (∀ p, t.partition? t.cur.part = some p → (p.windows.map (·.num)).Nodup) ∧
         passes { loadPlan t o.m o.ew.bits (unitAddrs t o.base o.off o.ew.bits) with
           acts := withAddrs (t.cur.activesFrom0 o.m) (unitAddrs t o.base o.off o.ew.bits) }) → ran (.vwait o)) ∧
     (∀ a : XReg, (t.getX a).toNat % 4096 = 0 →
       let len := t.cur.imageSize t.cur.vec.entered
       (t.getX a).toNat + len ≤ 2 ^ 56 → passes (imagePlan (t.getX a).toNat len .store) → ran (.vsave a)) ∧
     (∀ (a : XReg) (tbl : ImageTable) (u : State),
       let xa := (t.getX a).toNat
       let full := imagePlan xa (t.cur.imageSize true) .load
       xa % 4096 = 0 → t.Passes full tbl u → xa + t.cur.imageSize true ≤ 2 ^ 56 →
       t.cur.imageFits (u.imageWord tbl xa) (u.imageWord tbl (xa + 8)) = true → ran (.vrestore a)) ∧
     (∀ o, ran (.mread o)) ∧ (∀ o, ran (.mwrite o)) ∧ (∀ o, ran (.mstat o)) ∧
     (t.cur.preempt = .none → t.cur.lateStop = none →
       (∀ o : MmacOp, t.cur.kindDiffers o.acc (decide (o.fa = .bf16)) = false →
         t.precisionFault o.pb.toNat (2 ^ o.grp.toNat) (o.planes.toNat + 1) = none → ran (.mmac o)) ∧
       (∀ (o : SpmmacOp) (h : SpHead), t.spCheck (termSetAt (t.getX o.ts)) o.acc o.fa o.pb.toNat (o.planes.toNat + 1) = .ok h →
         ran (.spmmac o)) ∧
       (∀ (o : SpresOp) (h : SpHead), t.spCheck (termSetAt (t.getX o.ts)) o.acc o.fa o.pb.toNat (o.planes.toNat + 1) = .ok h →
         ran (.spres o)))) ∧
  ∀ (s t : State) (o : VwaitOp) (ws : List Watched) (late : Bool), s.Ready (.vwait o) t → t.cur.run = .running →
    t.cur.vwait = some { words := ws, late := late } → (∀ w ∈ ws, t.rerouteWatched w = .ok ()) →
    (late = true ∨ ∀ w ∈ ws, t.cur.elem o.vi o.ew.bits w.elem ≤ t.readPlace w.place (o.ew.bits / 8)) →
      t.Completes (exec (.vwait o) s)

/-- A property of the model, of which no rule of the spec says anything: no instruction, no event and no step ends in a fault or a
refusal, whatever the state; and an event of a strand that the module does not have, and for which no stale completion is still to
come, changes nothing, whatever queue, stream, count, answer, old value or late stop it names. A trap, a wait or an event
that changes nothing counts as an answer here. -/
def Obligations.NoFaultsAndEventsNeedTheirStrand : Prop :=
  (∀ (i : Instr) (s : State), ∃ t, exec i s = .next t) ∧ (∀ s : State, ∃ t, step s = .next t) ∧
  ∀ (who : StrandId) (s : State), (∀ c ∈ s.strands, c.id ≠ who) → (∀ x ∈ s.strays, x.1 ≠ who) →
    (∀ i ∈ ([.fenceEWaitDone who, .waitevWake who, .waitevTimeout who, .vwaitWake who, .vwaitTimeout who, .qstatWaitDone who,
        .queueEntryRoom who, .scoreboardSettleTimeout who, .preemptDeadline who, .atomicTimeout who] : List Instr),
      exec i s = .next s) ∧
    (∀ f ∈ ([.qcopyPerform, .qgatherPerform, .qscatterPerform, .qploadPerform, .qpstorePerform, .qsploadPerform, .qfencePass,
        .qsignalPerform] : List (StrandId → BitVec 2 → Instr)), ∀ q, exec (f who q) s = .next s) ∧
    (∀ f ∈ ([.atomicopCompletion, .proxyResponse] : List (StrandId → Bool → Word → Instr)), ∀ ok old, exec (f who ok old) s = .next s) ∧
    (∀ stream n, exec (.streamFetch who stream n) s = .next s) ∧ (∀ a, exec (.watchImprecise who a) s = .next s) ∧
    ∀ stop errs, exec (.lateError who stop errs) s = .next s

/-- Every step keeps device memory, host memory, the Larders and the keys of device memory in their canonical form, so that equal
memories are equal data. That memory is a list in this form is the model's choice of data (log 1); no rule of the spec says it. -/
def Obligations.StepKeepsMemoriesCanonical : Prop :=
  ∀ s t : State, s.Canonical → step s = .next t → t.Canonical

/-- The memories are canonical after reset, where nothing is listed and every byte reads as one that nothing has written: the form and
what such a byte reads as are the model's choices (logs 1 and 2). -/
def Obligations.ResetIsCanonical : Prop :=
  State.reset.Canonical ∧ ∀ a, Memory.read State.reset.mem a = Memory.fresh

/-- The reset column of Table 6-3 on a strand without lane groups, and of Tables 12-12 and 14-3: levels, flags, rounding,
the vector configuration, the saved trap registers, the watch registers and the engine queues. A task starts with the tiles of
Table 14-3 in each granted lane group (R261): exact tiles of empty cells, whose raw parts (Table 14-5) show EMPTY, the group
sum's EMPTY state and scales of one, and 0 elsewhere. That the module begins with no session and no partition, and that a strand's
reset column is read on one that holds no task, are the model's choices (log 2). -/
def Obligations.ResetValues : Prop :=
  (∀ (s : Slice) (acc : BitVec 1), s = Slice.reset → (s.tile acc).bf16 = false ∧ ∀ r < 128, ∀ c < 128, ∀ p < 8,
    s.raw acc p r c = if p = 2 then 0xC00 else if p = 4 then 2 ^ 34 else if p = 5 then 0x3C00 + 0x3C00 * 2 ^ 24 else 0) ∧
  (∀ (l : Launch) (p : Partition) (k : Nat) (seat : Seat) (ctx : BitVec 16) (gen : Nat),
    (l.strandFor p k seat ctx gen).vec.slices = List.replicate (laneCount seat.lanes) .reset) ∧
  ∀ id : StrandId,
    let c := Strand.reset id
    c.trpc = 0 ∧ c.trval = 0 ∧ c.trslot = 0 ∧ c.trCode = 0 ∧ c.trRk = 0 ∧ c.trpcount = 0 ∧
    c.frm = .rne ∧ c.fflags = 0 ∧ c.trIn = false ∧ c.trscratch = 0 ∧ c.vec.vl = 0 ∧ c.vec.vstart = 0 ∧ c.vec.ew = .e8 ∧
      c.vec.mz = false ∧ c.vec.tp = false ∧ c.vec.seg = false ∧ c.vec.vrm = .near ∧ c.vec.vsat = false ∧ c.vec.planebase = 0 ∧
      c.vec.mmode = false ∧ (∀ i : Fin 4, c.watch[i] = 0 ∧ c.wctl[i] = 0) ∧
      (∀ i : Fin 4, (c.queues[i]).entries = [] ∧ (c.queues[i]).halted = false ∧ (c.queues[i]).done = 0) ∧
      (∀ i : Fin 8, (c.vec.streams[i]).cfg = false ∧ (c.vec.streams[i]).bound = none) ∧
      State.reset.module.clockMHz = 2100 ∧ State.reset.sessions = [] ∧ State.reset.parts = []
end

