-- ==== Sys2Proof/Laws/Maps.lean ====
section
/-! SUPPORT. Laws/Maps.lean: read after write, and the canonical form, for sparse maps and memory. -/

namespace Sys2Proof.Machine

variable {α : Type}

/-! ### Reading -/

theorem SMap.get_erase_self (d : α) (m : SMap α) (k : Nat) : (SMap.erase m k).get d k = d := by
  induction m with
  | nil => rfl
  | cons p t ih =>
    obtain ⟨a, v⟩ := p
    by_cases h : a = k
    · simp [SMap.erase, h, ih]
    · simp [SMap.erase, SMap.get, h, ih]

theorem SMap.get_erase_ne (d : α) (m : SMap α) {k j : Nat} (h : j ≠ k) : (SMap.erase m k).get d j = m.get d j := by
  induction m with
  | nil => rfl
  | cons p t ih =>
    obtain ⟨a, v⟩ := p
    by_cases ha : a = k
    · subst ha
      simp [SMap.erase, SMap.get, ih, Ne.symm h]
    · simp [SMap.erase, SMap.get, ha, ih]

/-- A key is not listed. -/
def SMap.Absent (m : SMap α) (k : Nat) : Prop := ∀ p ∈ m, p.1 ≠ k

theorem SMap.absent_erase (m : SMap α) (k : Nat) : SMap.Absent (SMap.erase m k) k := by
  induction m with
  | nil => intro p hp; simp [SMap.erase] at hp
  | cons p t ih =>
    obtain ⟨a, v⟩ := p
    by_cases h : a = k
    · simpa [SMap.erase, h] using ih
    · intro q hq
      simp only [SMap.erase, h, if_false, List.mem_cons] at hq
      rcases hq with rfl | hq
      · exact h
      · exact ih q hq

theorem SMap.get_insert_self (d : α) (m : SMap α) (k : Nat) (v : α) (h : SMap.Absent m k) : (SMap.insert m k v).get d k = v := by
  induction m with
  | nil => simp [SMap.insert, SMap.get]
  | cons p t ih =>
    obtain ⟨a, w⟩ := p
    have ha : a ≠ k := h (a, w) List.mem_cons_self
    by_cases hk : k < a
    · simp [SMap.insert, hk, SMap.get]
    · simp [SMap.insert, hk, SMap.get, ha, ih fun q hq => h q (List.mem_cons_of_mem _ hq)]

theorem SMap.get_insert_ne (d : α) (m : SMap α) {k j : Nat} (v : α) (h : j ≠ k) : (SMap.insert m k v).get d j = m.get d j := by
  induction m with
  | nil => simp [SMap.insert, SMap.get, Ne.symm h]
  | cons p t ih =>
    obtain ⟨a, w⟩ := p
    by_cases hk : k < a
    · simp [SMap.insert, hk, SMap.get, Ne.symm h]
    · simp [SMap.insert, hk, SMap.get, ih]

@[simp] theorem SMap.get_set_self [DecidableEq α] (d : α) (m : SMap α) (k : Nat) (v : α) : (SMap.set d m k v).get d k = v := by
  unfold SMap.set
  split
  · next h => rw [h, SMap.get_erase_self]
  · exact SMap.get_insert_self d _ k v (SMap.absent_erase m k)

theorem SMap.get_set_ne [DecidableEq α] (d : α) (m : SMap α) {k j : Nat} (v : α) (h : j ≠ k) :
    (SMap.set d m k v).get d j = m.get d j := by
  unfold SMap.set
  split
  · exact SMap.get_erase_ne d m h
  · rw [SMap.get_insert_ne d _ v h, SMap.get_erase_ne d m h]

theorem SMap.get_set [DecidableEq α] (d : α) (m : SMap α) (k j : Nat) (v : α) :
    (SMap.set d m k v).get d j = if j = k then v else m.get d j := by
  split
  · next h => subst h; exact SMap.get_set_self d m _ v
  · next h => exact SMap.get_set_ne d m v h

/-- A filter on keys leaves what it keeps and reads the default elsewhere. -/
theorem SMap.get_filter (d : α) (m : SMap α) (f : Nat → Bool) (k : Nat) :
    SMap.get d (m.filter fun p => f p.1) k = if f k then m.get d k else d := by
  induction m with
  | nil => simp [SMap.get]
  | cons p t ih =>
    obtain ⟨a, v⟩ := p
    by_cases hf : f a
    · by_cases ha : a = k
      · subst ha; simp [hf, SMap.get]
      · simp [hf, SMap.get, ha, ih]
    · by_cases ha : a = k
      · subst ha
        have hf' : f a = false := by simpa using hf
        simp [hf', ih]
      · simp [hf, SMap.get, ha, ih]

/-! ### The canonical form -/

/-- The canonical form as a proposition: keys strictly rising, no entry equal to the default. -/
theorem SMap.rising_iff (m : SMap α) (lo : Option Nat) :
    SMap.rising lo m = true ↔ (∀ l, lo = some l → ∀ p ∈ m, l < p.1) ∧ m.Pairwise (fun p q => p.1 < q.1) := by
  induction m generalizing lo with
  | nil => simp [SMap.rising]
  | cons p t ih =>
    obtain ⟨a, v⟩ := p
    simp only [SMap.rising, Bool.and_eq_true, ih, List.pairwise_cons]
    constructor
    · rintro ⟨h1, h2, h3⟩
      refine ⟨?_, fun q hq => h2 a rfl q hq, h3⟩
      rintro l rfl q hq
      have hl : l < a := by simpa using h1
      rcases List.mem_cons.1 hq with rfl | hq
      · exact hl
      · exact lt_trans hl (h2 a rfl q hq)
    · rintro ⟨h1, h2, h3⟩
      refine ⟨?_, fun l hl q hq => ?_, h3⟩
      · cases lo with
        | none => rfl
        | some l => simpa using h1 l rfl (a, v) List.mem_cons_self
      · cases hl; exact h2 q hq

theorem SMap.noDefault_iff [DecidableEq α] (d : α) (m : SMap α) : SMap.noDefault d m = true ↔ ∀ p ∈ m, p.2 ≠ d := by
  induction m with
  | nil => simp [SMap.noDefault]
  | cons p t ih =>
    obtain ⟨a, v⟩ := p
    simp [SMap.noDefault, ih]

theorem SMap.wf_iff [DecidableEq α] (d : α) (m : SMap α) :
    SMap.wf d m = true ↔ m.Pairwise (fun p q => p.1 < q.1) ∧ ∀ p ∈ m, p.2 ≠ d := by
  simp [SMap.wf, SMap.rising_iff, SMap.noDefault_iff]

@[simp] theorem SMap.wf_nil [DecidableEq α] (d : α) : SMap.wf d ([] : SMap α) = true := rfl

/-- What a sublist of a canonical map is. -/
theorem SMap.wf_sublist [DecidableEq α] {d : α} {m n : SMap α} (h : SMap.wf d m = true) (hs : n.Sublist m) : SMap.wf d n = true := by
  rw [SMap.wf_iff] at h ⊢
  exact ⟨h.1.sublist hs, fun p hp => h.2 p (hs.subset hp)⟩

theorem SMap.wf_filter [DecidableEq α] {d : α} {m : SMap α} (f : Nat × α → Bool) (h : SMap.wf d m = true) :
    SMap.wf d (m.filter f) = true := SMap.wf_sublist h List.filter_sublist

theorem SMap.erase_eq_filter (m : SMap α) (k : Nat) : SMap.erase m k = m.filter fun p => decide (p.1 ≠ k) := by
  induction m with
  | nil => rfl
  | cons p t ih =>
    obtain ⟨a, v⟩ := p
    by_cases h : a = k
    · simp [SMap.erase, h, ih]
    · simp [SMap.erase, h, ih]

theorem SMap.wf_erase [DecidableEq α] {d : α} {m : SMap α} (k : Nat) (h : SMap.wf d m = true) : SMap.wf d (SMap.erase m k) = true := by
  rw [SMap.erase_eq_filter]
  exact SMap.wf_filter _ h

theorem SMap.mem_insert (m : SMap α) (k : Nat) (v : α) (p : Nat × α) : p ∈ SMap.insert m k v ↔ p = (k, v) ∨ p ∈ m := by
  induction m with
  | nil => simp [SMap.insert]
  | cons q t ih =>
    obtain ⟨a, w⟩ := q
    by_cases h : k < a
    · simp [SMap.insert, h]
    · simp only [SMap.insert, h, if_false, List.mem_cons, ih]
      tauto

theorem SMap.wf_insert [DecidableEq α] {d : α} {m : SMap α} {k : Nat} {v : α} (h : SMap.wf d m = true) (hk : SMap.Absent m k) (hv : v ≠ d) :
    SMap.wf d (SMap.insert m k v) = true := by
  induction m with
  | nil => rw [SMap.wf_iff]; simp [SMap.insert, hv]
  | cons p t ih =>
    obtain ⟨a, w⟩ := p
    rw [SMap.wf_iff, List.pairwise_cons] at h
    obtain ⟨⟨h1, h2⟩, h3⟩ := h
    have ht : SMap.wf d t = true := (SMap.wf_iff d t).2 ⟨h2, fun q hq => h3 q (List.mem_cons_of_mem _ hq)⟩
    have hka : a ≠ k := hk (a, w) List.mem_cons_self
    by_cases hlt : k < a
    · rw [SMap.wf_iff]
      simp only [SMap.insert, hlt, if_true]
      refine ⟨List.pairwise_cons.2 ⟨?_, List.pairwise_cons.2 ⟨h1, h2⟩⟩, ?_⟩
      · intro q hq
        rcases List.mem_cons.1 hq with rfl | hq
        · exact hlt
        · exact lt_trans hlt (h1 q hq)
      · intro q hq
        rcases List.mem_cons.1 hq with rfl | hq
        · exact hv
        · exact h3 q hq
    · have hi := ih ht (fun q hq => hk q (List.mem_cons_of_mem _ hq))
      rw [SMap.wf_iff] at hi ⊢
      simp only [SMap.insert, hlt, if_false]
      refine ⟨List.pairwise_cons.2 ⟨?_, hi.1⟩, ?_⟩
      · intro q hq
        rcases (SMap.mem_insert t k v q).1 hq with rfl | hq
        · show a < k
          omega
        · exact h1 q hq
      · intro q hq
        rcases List.mem_cons.1 hq with rfl | hq
        · exact h3 _ List.mem_cons_self
        · exact hi.2 q hq

theorem SMap.wf_set [DecidableEq α] {d : α} {m : SMap α} (k : Nat) (v : α) (h : SMap.wf d m = true) : SMap.wf d (SMap.set d m k v) = true := by
  unfold SMap.set
  split
  · exact SMap.wf_erase k h
  · next hv => exact SMap.wf_insert (SMap.wf_erase k h) (SMap.absent_erase m k) hv

/-- What a map holds after a range is set: the range's own values, and elsewhere what it held. -/
theorem SMap.get_setRange [DecidableEq α] (d : α) (vs : List α) (m : SMap α) (k j : Nat) :
    SMap.get d (SMap.setRange d m k vs) j = if k ≤ j ∧ j < k + vs.length then vs.getD (j - k) d else m.get d j := by
  induction vs generalizing m k with
  | nil => rw [if_neg (by simp)]; rfl
  | cons v t ih =>
    unfold SMap.setRange
    rw [ih, SMap.get_set]
    simp only [List.length_cons]
    by_cases h1 : k + 1 ≤ j ∧ j < k + 1 + t.length
    · rw [if_pos h1, if_pos (by omega), show j - k = (j - (k + 1)) + 1 by omega]
      rfl
    · rw [if_neg h1]
      by_cases h2 : j = k
      · subst h2; simp
      · rw [if_neg h2, if_neg (by omega)]

theorem SMap.wf_setRange [DecidableEq α] {d : α} (vs : List α) {m : SMap α} (k : Nat) (h : SMap.wf d m = true) :
    SMap.wf d (SMap.setRange d m k vs) = true := by
  induction vs generalizing m k with
  | nil => exact h
  | cons v t ih => exact ih (k + 1) (SMap.wf_set k v h)

/-! ### Memory -/

@[simp] theorem Memory.read_write_self (m : Memory) (a : Nat) (b : Byte) : (m.write a b).read a = b :=
  SMap.get_set_self Memory.fresh m a b

theorem Memory.read_write_ne (m : Memory) {a x : Nat} (b : Byte) (h : x ≠ a) : (m.write a b).read x = m.read x :=
  SMap.get_set_ne Memory.fresh m b h

/-- Memory.write keeps the canonical form. -/
theorem Memory.wf_write {m : Memory} (a : Nat) (b : Byte) (h : m.wf = true) : (m.write a b).wf = true := SMap.wf_set a b h

/-- Memory.writeLE keeps the canonical form. -/
theorem Memory.wf_writeLE {m : Memory} (a n v : Nat) (h : m.wf = true) : (m.writeLE a n v).wf = true := by
  induction n generalizing m a v with
  | zero => exact h
  | succ n ih => exact ih (a + 1) (v / 256) (Memory.wf_write a _ h)

/-- A byte outside the bytes written reads as before. -/
theorem Memory.read_writeLE_of_out (m : Memory) (a n v x : Nat) (h : x < a ∨ a + n ≤ x) : (m.writeLE a n v).read x = m.read x := by
  induction n generalizing m a v with
  | zero => rfl
  | succ n ih =>
    rw [Memory.writeLE, ih (m.write a _) (a + 1) (v / 256) (by omega), Memory.read_write_ne]
    omega

/-- Byte i of the bytes written. -/
theorem Memory.read_writeLE_of_in (m : Memory) (a n v i : Nat) (h : i < n) :
    (m.writeLE a n v).read (a + i) = BitVec.ofNat 8 (v / 256 ^ i) := by
  induction n generalizing m a v i with
  | zero => omega
  | succ n ih =>
    cases i with
    | zero =>
      show (Memory.writeLE (m.write a (BitVec.ofNat 8 v)) (a + 1) n (v / 256)).read a = _
      rw [Memory.read_writeLE_of_out _ _ _ _ _ (Or.inl (Nat.lt_succ_self a))]
      simp
    | succ i =>
      rw [Memory.writeLE, show a + (i + 1) = a + 1 + i by omega, ih (m.write a _) (a + 1) (v / 256) i (by omega)]
      congr 1
      rw [Nat.div_div_eq_div_mul, pow_succ']

/-- Reads agree where the bytes do. -/
theorem Memory.readLE_congr (m m' : Memory) (a n : Nat) (h : ∀ i < n, m.read (a + i) = m'.read (a + i)) :
    m.readLE a n = m'.readLE a n := by
  induction n generalizing a with
  | zero => rfl
  | succ n ih =>
    have h0 := h 0 (Nat.succ_pos n)
    have hi : m.readLE (a + 1) n = m'.readLE (a + 1) n := ih (a + 1) fun i hi => by
      have := h (i + 1) (by omega)
      rwa [show a + (i + 1) = a + 1 + i by omega] at this
    simp only [Memory.readLE]
    rw [hi]
    simp only [Nat.add_zero] at h0
    rw [h0]

/-- What was written reads back, modulo its width. -/
theorem Memory.readLE_writeLE_self (m : Memory) (a n v : Nat) : (m.writeLE a n v).readLE a n = v % 256 ^ n := by
  induction n generalizing m a v with
  | zero => simp [Memory.readLE, Nat.mod_one]
  | succ n ih =>
    have h0 : (Memory.writeLE (m.write a (BitVec.ofNat 8 v)) (a + 1) n (v / 256)).read a = BitVec.ofNat 8 v := by
      rw [Memory.read_writeLE_of_out _ _ _ _ _ (Or.inl (Nat.lt_succ_self a))]; simp
    rw [Memory.readLE, Memory.writeLE, h0, ih, BitVec.toNat_ofNat, pow_succ' 256 n]
    exact (Nat.mod_mul (a := 256)).symm

/-- A read that meets none of the bytes written. -/
theorem Memory.readLE_writeLE_of_out (m : Memory) (a n v b k : Nat) (h : b + k ≤ a ∨ a + n ≤ b) :
    (m.writeLE a n v).readLE b k = m.readLE b k :=
  Memory.readLE_congr _ _ _ _ fun i hi => Memory.read_writeLE_of_out _ _ _ _ _ (by omega)

/-- A value read lies below the width. -/
theorem Memory.readLE_lt (m : Memory) (a n : Nat) : m.readLE a n < 256 ^ n := by
  induction n generalizing a with
  | zero => simp [Memory.readLE]
  | succ n ih =>
    have h1 := ih (a + 1)
    have h2 : (m.read a).toNat < 256 := (m.read a).isLt
    rw [Memory.readLE, pow_succ']
    omega

end Sys2Proof.Machine
end

