-- ==== Sys2Proof/Laws/State.lean ====
section
/-! SUPPORT. Laws/State.lean: what each named update of the state leaves in every field, one lemma per field. -/

namespace Sys2Proof.Machine

/-! ### State.withCur -/

@[simp] theorem State.withCur_cur (s : State) (c : Strand) : (s.withCur c).cur = c := rfl
@[simp] theorem State.withCur_others (s : State) (c : Strand) : (s.withCur c).others = s.others := rfl
@[simp] theorem State.withCur_parked (s : State) (c : Strand) : (s.withCur c).parked = s.parked := rfl
@[simp] theorem State.withCur_saved (s : State) (c : Strand) : (s.withCur c).saved = s.saved := rfl
@[simp] theorem State.withCur_agenda (s : State) (c : Strand) : (s.withCur c).agenda = s.agenda := rfl
@[simp] theorem State.withCur_free (s : State) (c : Strand) : (s.withCur c).free = s.free := rfl
@[simp] theorem State.withCur_mem (s : State) (c : Strand) : (s.withCur c).mem = s.mem := rfl
@[simp] theorem State.withCur_keys (s : State) (c : Strand) : (s.withCur c).keys = s.keys := rfl
@[simp] theorem State.withCur_hostMem (s : State) (c : Strand) : (s.withCur c).hostMem = s.hostMem := rfl
@[simp] theorem State.withCur_larder (s : State) (c : Strand) : (s.withCur c).larder = s.larder := rfl
@[simp] theorem State.withCur_planes (s : State) (c : Strand) : (s.withCur c).planes = s.planes := rfl
@[simp] theorem State.withCur_tlb (s : State) (c : Strand) : (s.withCur c).tlb = s.tlb := rfl
@[simp] theorem State.withCur_cores (s : State) (c : Strand) : (s.withCur c).cores = s.cores := rfl
@[simp] theorem State.withCur_parts (s : State) (c : Strand) : (s.withCur c).parts = s.parts := rfl
@[simp] theorem State.withCur_hwq (s : State) (c : Strand) : (s.withCur c).hwq = s.hwq := rfl
@[simp] theorem State.withCur_launches (s : State) (c : Strand) : (s.withCur c).launches = s.launches := rfl
@[simp] theorem State.withCur_nextLaunch (s : State) (c : Strand) : (s.withCur c).nextLaunch = s.nextLaunch := rfl
@[simp] theorem State.withCur_pending (s : State) (c : Strand) : (s.withCur c).pending = s.pending := rfl
@[simp] theorem State.withCur_reservations (s : State) (c : Strand) : (s.withCur c).reservations = s.reservations := rfl
@[simp] theorem State.withCur_rr (s : State) (c : Strand) : (s.withCur c).rr = s.rr := rfl
@[simp] theorem State.withCur_groups (s : State) (c : Strand) : (s.withCur c).groups = s.groups := rfl
@[simp] theorem State.withCur_sessions (s : State) (c : Strand) : (s.withCur c).sessions = s.sessions := rfl
@[simp] theorem State.withCur_outbox (s : State) (c : Strand) : (s.withCur c).outbox = s.outbox := rfl
@[simp] theorem State.withCur_submits (s : State) (c : Strand) : (s.withCur c).submits = s.submits := rfl
@[simp] theorem State.withCur_strays (s : State) (c : Strand) : (s.withCur c).strays = s.strays := rfl
@[simp] theorem State.withCur_tables (s : State) (c : Strand) : (s.withCur c).tables = s.tables := rfl
@[simp] theorem State.withCur_module (s : State) (c : Strand) : (s.withCur c).module = s.module := rfl

/-! ### State.setX -/

@[simp] theorem State.setX_cur (s : State) (r : XReg) (v : Word) : (s.setX r v).cur = s.cur.setX r v := rfl
@[simp] theorem State.setX_others (s : State) (r : XReg) (v : Word) : (s.setX r v).others = s.others := rfl
@[simp] theorem State.setX_parked (s : State) (r : XReg) (v : Word) : (s.setX r v).parked = s.parked := rfl
@[simp] theorem State.setX_saved (s : State) (r : XReg) (v : Word) : (s.setX r v).saved = s.saved := rfl
@[simp] theorem State.setX_agenda (s : State) (r : XReg) (v : Word) : (s.setX r v).agenda = s.agenda := rfl
@[simp] theorem State.setX_free (s : State) (r : XReg) (v : Word) : (s.setX r v).free = s.free := rfl
@[simp] theorem State.setX_mem (s : State) (r : XReg) (v : Word) : (s.setX r v).mem = s.mem := rfl
@[simp] theorem State.setX_keys (s : State) (r : XReg) (v : Word) : (s.setX r v).keys = s.keys := rfl
@[simp] theorem State.setX_hostMem (s : State) (r : XReg) (v : Word) : (s.setX r v).hostMem = s.hostMem := rfl
@[simp] theorem State.setX_larder (s : State) (r : XReg) (v : Word) : (s.setX r v).larder = s.larder := rfl
@[simp] theorem State.setX_planes (s : State) (r : XReg) (v : Word) : (s.setX r v).planes = s.planes := rfl
@[simp] theorem State.setX_tlb (s : State) (r : XReg) (v : Word) : (s.setX r v).tlb = s.tlb := rfl
@[simp] theorem State.setX_cores (s : State) (r : XReg) (v : Word) : (s.setX r v).cores = s.cores := rfl
@[simp] theorem State.setX_parts (s : State) (r : XReg) (v : Word) : (s.setX r v).parts = s.parts := rfl
@[simp] theorem State.setX_hwq (s : State) (r : XReg) (v : Word) : (s.setX r v).hwq = s.hwq := rfl
@[simp] theorem State.setX_launches (s : State) (r : XReg) (v : Word) : (s.setX r v).launches = s.launches := rfl
@[simp] theorem State.setX_nextLaunch (s : State) (r : XReg) (v : Word) : (s.setX r v).nextLaunch = s.nextLaunch := rfl
@[simp] theorem State.setX_pending (s : State) (r : XReg) (v : Word) : (s.setX r v).pending = s.pending := rfl
@[simp] theorem State.setX_reservations (s : State) (r : XReg) (v : Word) : (s.setX r v).reservations = s.reservations := rfl
@[simp] theorem State.setX_rr (s : State) (r : XReg) (v : Word) : (s.setX r v).rr = s.rr := rfl
@[simp] theorem State.setX_groups (s : State) (r : XReg) (v : Word) : (s.setX r v).groups = s.groups := rfl
@[simp] theorem State.setX_sessions (s : State) (r : XReg) (v : Word) : (s.setX r v).sessions = s.sessions := rfl
@[simp] theorem State.setX_outbox (s : State) (r : XReg) (v : Word) : (s.setX r v).outbox = s.outbox := rfl
@[simp] theorem State.setX_submits (s : State) (r : XReg) (v : Word) : (s.setX r v).submits = s.submits := rfl
@[simp] theorem State.setX_strays (s : State) (r : XReg) (v : Word) : (s.setX r v).strays = s.strays := rfl
@[simp] theorem State.setX_tables (s : State) (r : XReg) (v : Word) : (s.setX r v).tables = s.tables := rfl
@[simp] theorem State.setX_module (s : State) (r : XReg) (v : Word) : (s.setX r v).module = s.module := rfl

/-! ### State.setPc -/

@[simp] theorem State.setPc_others (s : State) (v : Word) : (s.setPc v).others = s.others := rfl
@[simp] theorem State.setPc_parked (s : State) (v : Word) : (s.setPc v).parked = s.parked := rfl
@[simp] theorem State.setPc_saved (s : State) (v : Word) : (s.setPc v).saved = s.saved := rfl
@[simp] theorem State.setPc_agenda (s : State) (v : Word) : (s.setPc v).agenda = s.agenda := rfl
@[simp] theorem State.setPc_free (s : State) (v : Word) : (s.setPc v).free = s.free := rfl
@[simp] theorem State.setPc_mem (s : State) (v : Word) : (s.setPc v).mem = s.mem := rfl
@[simp] theorem State.setPc_keys (s : State) (v : Word) : (s.setPc v).keys = s.keys := rfl
@[simp] theorem State.setPc_hostMem (s : State) (v : Word) : (s.setPc v).hostMem = s.hostMem := rfl
@[simp] theorem State.setPc_larder (s : State) (v : Word) : (s.setPc v).larder = s.larder := rfl
@[simp] theorem State.setPc_planes (s : State) (v : Word) : (s.setPc v).planes = s.planes := rfl
@[simp] theorem State.setPc_tlb (s : State) (v : Word) : (s.setPc v).tlb = s.tlb := rfl
@[simp] theorem State.setPc_cores (s : State) (v : Word) : (s.setPc v).cores = s.cores := rfl
@[simp] theorem State.setPc_parts (s : State) (v : Word) : (s.setPc v).parts = s.parts := rfl
@[simp] theorem State.setPc_hwq (s : State) (v : Word) : (s.setPc v).hwq = s.hwq := rfl
@[simp] theorem State.setPc_launches (s : State) (v : Word) : (s.setPc v).launches = s.launches := rfl
@[simp] theorem State.setPc_nextLaunch (s : State) (v : Word) : (s.setPc v).nextLaunch = s.nextLaunch := rfl
@[simp] theorem State.setPc_pending (s : State) (v : Word) : (s.setPc v).pending = s.pending := rfl
@[simp] theorem State.setPc_reservations (s : State) (v : Word) : (s.setPc v).reservations = s.reservations := rfl
@[simp] theorem State.setPc_rr (s : State) (v : Word) : (s.setPc v).rr = s.rr := rfl
@[simp] theorem State.setPc_groups (s : State) (v : Word) : (s.setPc v).groups = s.groups := rfl
@[simp] theorem State.setPc_sessions (s : State) (v : Word) : (s.setPc v).sessions = s.sessions := rfl
@[simp] theorem State.setPc_outbox (s : State) (v : Word) : (s.setPc v).outbox = s.outbox := rfl
@[simp] theorem State.setPc_submits (s : State) (v : Word) : (s.setPc v).submits = s.submits := rfl
@[simp] theorem State.setPc_strays (s : State) (v : Word) : (s.setPc v).strays = s.strays := rfl
@[simp] theorem State.setPc_tables (s : State) (v : Word) : (s.setPc v).tables = s.tables := rfl
@[simp] theorem State.setPc_module (s : State) (v : Word) : (s.setPc v).module = s.module := rfl

/-! ### State.next4 -/

@[simp] theorem State.next4_others (s : State) : (s.next4).others = s.others := rfl
@[simp] theorem State.next4_parked (s : State) : (s.next4).parked = s.parked := rfl
@[simp] theorem State.next4_saved (s : State) : (s.next4).saved = s.saved := rfl
@[simp] theorem State.next4_agenda (s : State) : (s.next4).agenda = s.agenda := rfl
@[simp] theorem State.next4_free (s : State) : (s.next4).free = s.free := rfl
@[simp] theorem State.next4_mem (s : State) : (s.next4).mem = s.mem := rfl
@[simp] theorem State.next4_keys (s : State) : (s.next4).keys = s.keys := rfl
@[simp] theorem State.next4_hostMem (s : State) : (s.next4).hostMem = s.hostMem := rfl
@[simp] theorem State.next4_larder (s : State) : (s.next4).larder = s.larder := rfl
@[simp] theorem State.next4_planes (s : State) : (s.next4).planes = s.planes := rfl
@[simp] theorem State.next4_tlb (s : State) : (s.next4).tlb = s.tlb := rfl
@[simp] theorem State.next4_cores (s : State) : (s.next4).cores = s.cores := rfl
@[simp] theorem State.next4_parts (s : State) : (s.next4).parts = s.parts := rfl
@[simp] theorem State.next4_hwq (s : State) : (s.next4).hwq = s.hwq := rfl
@[simp] theorem State.next4_launches (s : State) : (s.next4).launches = s.launches := rfl
@[simp] theorem State.next4_nextLaunch (s : State) : (s.next4).nextLaunch = s.nextLaunch := rfl
@[simp] theorem State.next4_pending (s : State) : (s.next4).pending = s.pending := rfl
@[simp] theorem State.next4_reservations (s : State) : (s.next4).reservations = s.reservations := rfl
@[simp] theorem State.next4_rr (s : State) : (s.next4).rr = s.rr := rfl
@[simp] theorem State.next4_groups (s : State) : (s.next4).groups = s.groups := rfl
@[simp] theorem State.next4_sessions (s : State) : (s.next4).sessions = s.sessions := rfl
@[simp] theorem State.next4_outbox (s : State) : (s.next4).outbox = s.outbox := rfl
@[simp] theorem State.next4_submits (s : State) : (s.next4).submits = s.submits := rfl
@[simp] theorem State.next4_strays (s : State) : (s.next4).strays = s.strays := rfl
@[simp] theorem State.next4_tables (s : State) : (s.next4).tables = s.tables := rfl
@[simp] theorem State.next4_module (s : State) : (s.next4).module = s.module := rfl

/-! ### State.next8 -/

@[simp] theorem State.next8_others (s : State) : (s.next8).others = s.others := rfl
@[simp] theorem State.next8_parked (s : State) : (s.next8).parked = s.parked := rfl
@[simp] theorem State.next8_saved (s : State) : (s.next8).saved = s.saved := rfl
@[simp] theorem State.next8_agenda (s : State) : (s.next8).agenda = s.agenda := rfl
@[simp] theorem State.next8_free (s : State) : (s.next8).free = s.free := rfl
@[simp] theorem State.next8_mem (s : State) : (s.next8).mem = s.mem := rfl
@[simp] theorem State.next8_keys (s : State) : (s.next8).keys = s.keys := rfl
@[simp] theorem State.next8_hostMem (s : State) : (s.next8).hostMem = s.hostMem := rfl
@[simp] theorem State.next8_larder (s : State) : (s.next8).larder = s.larder := rfl
@[simp] theorem State.next8_planes (s : State) : (s.next8).planes = s.planes := rfl
@[simp] theorem State.next8_tlb (s : State) : (s.next8).tlb = s.tlb := rfl
@[simp] theorem State.next8_cores (s : State) : (s.next8).cores = s.cores := rfl
@[simp] theorem State.next8_parts (s : State) : (s.next8).parts = s.parts := rfl
@[simp] theorem State.next8_hwq (s : State) : (s.next8).hwq = s.hwq := rfl
@[simp] theorem State.next8_launches (s : State) : (s.next8).launches = s.launches := rfl
@[simp] theorem State.next8_nextLaunch (s : State) : (s.next8).nextLaunch = s.nextLaunch := rfl
@[simp] theorem State.next8_pending (s : State) : (s.next8).pending = s.pending := rfl
@[simp] theorem State.next8_reservations (s : State) : (s.next8).reservations = s.reservations := rfl
@[simp] theorem State.next8_rr (s : State) : (s.next8).rr = s.rr := rfl
@[simp] theorem State.next8_groups (s : State) : (s.next8).groups = s.groups := rfl
@[simp] theorem State.next8_sessions (s : State) : (s.next8).sessions = s.sessions := rfl
@[simp] theorem State.next8_outbox (s : State) : (s.next8).outbox = s.outbox := rfl
@[simp] theorem State.next8_submits (s : State) : (s.next8).submits = s.submits := rfl
@[simp] theorem State.next8_strays (s : State) : (s.next8).strays = s.strays := rfl
@[simp] theorem State.next8_tables (s : State) : (s.next8).tables = s.tables := rfl
@[simp] theorem State.next8_module (s : State) : (s.next8).module = s.module := rfl

/-! ### State.withVec -/

@[simp] theorem State.withVec_others (s : State) (v : VecPart) : (s.withVec v).others = s.others := rfl
@[simp] theorem State.withVec_parked (s : State) (v : VecPart) : (s.withVec v).parked = s.parked := rfl
@[simp] theorem State.withVec_saved (s : State) (v : VecPart) : (s.withVec v).saved = s.saved := rfl
@[simp] theorem State.withVec_agenda (s : State) (v : VecPart) : (s.withVec v).agenda = s.agenda := rfl
@[simp] theorem State.withVec_free (s : State) (v : VecPart) : (s.withVec v).free = s.free := rfl
@[simp] theorem State.withVec_mem (s : State) (v : VecPart) : (s.withVec v).mem = s.mem := rfl
@[simp] theorem State.withVec_keys (s : State) (v : VecPart) : (s.withVec v).keys = s.keys := rfl
@[simp] theorem State.withVec_hostMem (s : State) (v : VecPart) : (s.withVec v).hostMem = s.hostMem := rfl
@[simp] theorem State.withVec_larder (s : State) (v : VecPart) : (s.withVec v).larder = s.larder := rfl
@[simp] theorem State.withVec_planes (s : State) (v : VecPart) : (s.withVec v).planes = s.planes := rfl
@[simp] theorem State.withVec_tlb (s : State) (v : VecPart) : (s.withVec v).tlb = s.tlb := rfl
@[simp] theorem State.withVec_cores (s : State) (v : VecPart) : (s.withVec v).cores = s.cores := rfl
@[simp] theorem State.withVec_parts (s : State) (v : VecPart) : (s.withVec v).parts = s.parts := rfl
@[simp] theorem State.withVec_hwq (s : State) (v : VecPart) : (s.withVec v).hwq = s.hwq := rfl
@[simp] theorem State.withVec_launches (s : State) (v : VecPart) : (s.withVec v).launches = s.launches := rfl
@[simp] theorem State.withVec_nextLaunch (s : State) (v : VecPart) : (s.withVec v).nextLaunch = s.nextLaunch := rfl
@[simp] theorem State.withVec_pending (s : State) (v : VecPart) : (s.withVec v).pending = s.pending := rfl
@[simp] theorem State.withVec_reservations (s : State) (v : VecPart) : (s.withVec v).reservations = s.reservations := rfl
@[simp] theorem State.withVec_rr (s : State) (v : VecPart) : (s.withVec v).rr = s.rr := rfl
@[simp] theorem State.withVec_groups (s : State) (v : VecPart) : (s.withVec v).groups = s.groups := rfl
@[simp] theorem State.withVec_sessions (s : State) (v : VecPart) : (s.withVec v).sessions = s.sessions := rfl
@[simp] theorem State.withVec_outbox (s : State) (v : VecPart) : (s.withVec v).outbox = s.outbox := rfl
@[simp] theorem State.withVec_submits (s : State) (v : VecPart) : (s.withVec v).submits = s.submits := rfl
@[simp] theorem State.withVec_strays (s : State) (v : VecPart) : (s.withVec v).strays = s.strays := rfl
@[simp] theorem State.withVec_tables (s : State) (v : VecPart) : (s.withVec v).tables = s.tables := rfl
@[simp] theorem State.withVec_module (s : State) (v : VecPart) : (s.withVec v).module = s.module := rfl

/-! ### State.raise -/

@[simp] theorem State.raise_others (s : State) (f : BitVec 5) : (s.raise f).others = s.others := rfl
@[simp] theorem State.raise_parked (s : State) (f : BitVec 5) : (s.raise f).parked = s.parked := rfl
@[simp] theorem State.raise_saved (s : State) (f : BitVec 5) : (s.raise f).saved = s.saved := rfl
@[simp] theorem State.raise_agenda (s : State) (f : BitVec 5) : (s.raise f).agenda = s.agenda := rfl
@[simp] theorem State.raise_free (s : State) (f : BitVec 5) : (s.raise f).free = s.free := rfl
@[simp] theorem State.raise_mem (s : State) (f : BitVec 5) : (s.raise f).mem = s.mem := rfl
@[simp] theorem State.raise_keys (s : State) (f : BitVec 5) : (s.raise f).keys = s.keys := rfl
@[simp] theorem State.raise_hostMem (s : State) (f : BitVec 5) : (s.raise f).hostMem = s.hostMem := rfl
@[simp] theorem State.raise_larder (s : State) (f : BitVec 5) : (s.raise f).larder = s.larder := rfl
@[simp] theorem State.raise_planes (s : State) (f : BitVec 5) : (s.raise f).planes = s.planes := rfl
@[simp] theorem State.raise_tlb (s : State) (f : BitVec 5) : (s.raise f).tlb = s.tlb := rfl
@[simp] theorem State.raise_cores (s : State) (f : BitVec 5) : (s.raise f).cores = s.cores := rfl
@[simp] theorem State.raise_parts (s : State) (f : BitVec 5) : (s.raise f).parts = s.parts := rfl
@[simp] theorem State.raise_hwq (s : State) (f : BitVec 5) : (s.raise f).hwq = s.hwq := rfl
@[simp] theorem State.raise_launches (s : State) (f : BitVec 5) : (s.raise f).launches = s.launches := rfl
@[simp] theorem State.raise_nextLaunch (s : State) (f : BitVec 5) : (s.raise f).nextLaunch = s.nextLaunch := rfl
@[simp] theorem State.raise_pending (s : State) (f : BitVec 5) : (s.raise f).pending = s.pending := rfl
@[simp] theorem State.raise_reservations (s : State) (f : BitVec 5) : (s.raise f).reservations = s.reservations := rfl
@[simp] theorem State.raise_rr (s : State) (f : BitVec 5) : (s.raise f).rr = s.rr := rfl
@[simp] theorem State.raise_groups (s : State) (f : BitVec 5) : (s.raise f).groups = s.groups := rfl
@[simp] theorem State.raise_sessions (s : State) (f : BitVec 5) : (s.raise f).sessions = s.sessions := rfl
@[simp] theorem State.raise_outbox (s : State) (f : BitVec 5) : (s.raise f).outbox = s.outbox := rfl
@[simp] theorem State.raise_submits (s : State) (f : BitVec 5) : (s.raise f).submits = s.submits := rfl
@[simp] theorem State.raise_strays (s : State) (f : BitVec 5) : (s.raise f).strays = s.strays := rfl
@[simp] theorem State.raise_tables (s : State) (f : BitVec 5) : (s.raise f).tables = s.tables := rfl
@[simp] theorem State.raise_module (s : State) (f : BitVec 5) : (s.raise f).module = s.module := rfl

/-! ### State.send -/

@[simp] theorem State.send_cur (s : State) (m : OutMsg) : (s.send m).cur = s.cur := rfl
@[simp] theorem State.send_others (s : State) (m : OutMsg) : (s.send m).others = s.others := rfl
@[simp] theorem State.send_parked (s : State) (m : OutMsg) : (s.send m).parked = s.parked := rfl
@[simp] theorem State.send_saved (s : State) (m : OutMsg) : (s.send m).saved = s.saved := rfl
@[simp] theorem State.send_agenda (s : State) (m : OutMsg) : (s.send m).agenda = s.agenda := rfl
@[simp] theorem State.send_free (s : State) (m : OutMsg) : (s.send m).free = s.free := rfl
@[simp] theorem State.send_mem (s : State) (m : OutMsg) : (s.send m).mem = s.mem := rfl
@[simp] theorem State.send_keys (s : State) (m : OutMsg) : (s.send m).keys = s.keys := rfl
@[simp] theorem State.send_hostMem (s : State) (m : OutMsg) : (s.send m).hostMem = s.hostMem := rfl
@[simp] theorem State.send_larder (s : State) (m : OutMsg) : (s.send m).larder = s.larder := rfl
@[simp] theorem State.send_planes (s : State) (m : OutMsg) : (s.send m).planes = s.planes := rfl
@[simp] theorem State.send_tlb (s : State) (m : OutMsg) : (s.send m).tlb = s.tlb := rfl
@[simp] theorem State.send_cores (s : State) (m : OutMsg) : (s.send m).cores = s.cores := rfl
@[simp] theorem State.send_parts (s : State) (m : OutMsg) : (s.send m).parts = s.parts := rfl
@[simp] theorem State.send_hwq (s : State) (m : OutMsg) : (s.send m).hwq = s.hwq := rfl
@[simp] theorem State.send_launches (s : State) (m : OutMsg) : (s.send m).launches = s.launches := rfl
@[simp] theorem State.send_nextLaunch (s : State) (m : OutMsg) : (s.send m).nextLaunch = s.nextLaunch := rfl
@[simp] theorem State.send_pending (s : State) (m : OutMsg) : (s.send m).pending = s.pending := rfl
@[simp] theorem State.send_reservations (s : State) (m : OutMsg) : (s.send m).reservations = s.reservations := rfl
@[simp] theorem State.send_rr (s : State) (m : OutMsg) : (s.send m).rr = s.rr := rfl
@[simp] theorem State.send_groups (s : State) (m : OutMsg) : (s.send m).groups = s.groups := rfl
@[simp] theorem State.send_sessions (s : State) (m : OutMsg) : (s.send m).sessions = s.sessions := rfl
@[simp] theorem State.send_outbox (s : State) (m : OutMsg) : (s.send m).outbox = s.outbox ++ [m] := rfl
@[simp] theorem State.send_submits (s : State) (m : OutMsg) : (s.send m).submits = s.submits := rfl
@[simp] theorem State.send_strays (s : State) (m : OutMsg) : (s.send m).strays = s.strays := rfl
@[simp] theorem State.send_tables (s : State) (m : OutMsg) : (s.send m).tables = s.tables := rfl
@[simp] theorem State.send_module (s : State) (m : OutMsg) : (s.send m).module = s.module := rfl

/-! ### State.mapPart -/

@[simp] theorem State.mapPart_cur (s : State) (p : Nat) (f : Partition → Partition) : (s.mapPart p f).cur = s.cur := rfl
@[simp] theorem State.mapPart_others (s : State) (p : Nat) (f : Partition → Partition) : (s.mapPart p f).others = s.others := rfl
@[simp] theorem State.mapPart_parked (s : State) (p : Nat) (f : Partition → Partition) : (s.mapPart p f).parked = s.parked := rfl
@[simp] theorem State.mapPart_saved (s : State) (p : Nat) (f : Partition → Partition) : (s.mapPart p f).saved = s.saved := rfl
@[simp] theorem State.mapPart_agenda (s : State) (p : Nat) (f : Partition → Partition) : (s.mapPart p f).agenda = s.agenda := rfl
@[simp] theorem State.mapPart_free (s : State) (p : Nat) (f : Partition → Partition) : (s.mapPart p f).free = s.free := rfl
@[simp] theorem State.mapPart_mem (s : State) (p : Nat) (f : Partition → Partition) : (s.mapPart p f).mem = s.mem := rfl
@[simp] theorem State.mapPart_keys (s : State) (p : Nat) (f : Partition → Partition) : (s.mapPart p f).keys = s.keys := rfl
@[simp] theorem State.mapPart_hostMem (s : State) (p : Nat) (f : Partition → Partition) : (s.mapPart p f).hostMem = s.hostMem := rfl
@[simp] theorem State.mapPart_larder (s : State) (p : Nat) (f : Partition → Partition) : (s.mapPart p f).larder = s.larder := rfl
@[simp] theorem State.mapPart_planes (s : State) (p : Nat) (f : Partition → Partition) : (s.mapPart p f).planes = s.planes := rfl
@[simp] theorem State.mapPart_tlb (s : State) (p : Nat) (f : Partition → Partition) : (s.mapPart p f).tlb = s.tlb := rfl
@[simp] theorem State.mapPart_cores (s : State) (p : Nat) (f : Partition → Partition) : (s.mapPart p f).cores = s.cores := rfl
@[simp] theorem State.mapPart_hwq (s : State) (p : Nat) (f : Partition → Partition) : (s.mapPart p f).hwq = s.hwq := rfl
@[simp] theorem State.mapPart_launches (s : State) (p : Nat) (f : Partition → Partition) : (s.mapPart p f).launches = s.launches := rfl
@[simp] theorem State.mapPart_nextLaunch (s : State) (p : Nat) (f : Partition → Partition) : (s.mapPart p f).nextLaunch = s.nextLaunch := rfl
@[simp] theorem State.mapPart_pending (s : State) (p : Nat) (f : Partition → Partition) : (s.mapPart p f).pending = s.pending := rfl
@[simp] theorem State.mapPart_reservations (s : State) (p : Nat) (f : Partition → Partition) : (s.mapPart p f).reservations = s.reservations := rfl
@[simp] theorem State.mapPart_rr (s : State) (p : Nat) (f : Partition → Partition) : (s.mapPart p f).rr = s.rr := rfl
@[simp] theorem State.mapPart_groups (s : State) (p : Nat) (f : Partition → Partition) : (s.mapPart p f).groups = s.groups := rfl
@[simp] theorem State.mapPart_sessions (s : State) (p : Nat) (f : Partition → Partition) : (s.mapPart p f).sessions = s.sessions := rfl
@[simp] theorem State.mapPart_outbox (s : State) (p : Nat) (f : Partition → Partition) : (s.mapPart p f).outbox = s.outbox := rfl
@[simp] theorem State.mapPart_submits (s : State) (p : Nat) (f : Partition → Partition) : (s.mapPart p f).submits = s.submits := rfl
@[simp] theorem State.mapPart_strays (s : State) (p : Nat) (f : Partition → Partition) : (s.mapPart p f).strays = s.strays := rfl
@[simp] theorem State.mapPart_tables (s : State) (p : Nat) (f : Partition → Partition) : (s.mapPart p f).tables = s.tables := rfl
@[simp] theorem State.mapPart_module (s : State) (p : Nat) (f : Partition → Partition) : (s.mapPart p f).module = s.module := rfl

/-! ### State.mapHwq -/

@[simp] theorem State.mapHwq_cur (s : State) (q : QueueId) (f : HwQueue → HwQueue) : (s.mapHwq q f).cur = s.cur := rfl
@[simp] theorem State.mapHwq_others (s : State) (q : QueueId) (f : HwQueue → HwQueue) : (s.mapHwq q f).others = s.others := rfl
@[simp] theorem State.mapHwq_parked (s : State) (q : QueueId) (f : HwQueue → HwQueue) : (s.mapHwq q f).parked = s.parked := rfl
@[simp] theorem State.mapHwq_saved (s : State) (q : QueueId) (f : HwQueue → HwQueue) : (s.mapHwq q f).saved = s.saved := rfl
@[simp] theorem State.mapHwq_agenda (s : State) (q : QueueId) (f : HwQueue → HwQueue) : (s.mapHwq q f).agenda = s.agenda := rfl
@[simp] theorem State.mapHwq_free (s : State) (q : QueueId) (f : HwQueue → HwQueue) : (s.mapHwq q f).free = s.free := rfl
@[simp] theorem State.mapHwq_mem (s : State) (q : QueueId) (f : HwQueue → HwQueue) : (s.mapHwq q f).mem = s.mem := rfl
@[simp] theorem State.mapHwq_keys (s : State) (q : QueueId) (f : HwQueue → HwQueue) : (s.mapHwq q f).keys = s.keys := rfl
@[simp] theorem State.mapHwq_hostMem (s : State) (q : QueueId) (f : HwQueue → HwQueue) : (s.mapHwq q f).hostMem = s.hostMem := rfl
@[simp] theorem State.mapHwq_larder (s : State) (q : QueueId) (f : HwQueue → HwQueue) : (s.mapHwq q f).larder = s.larder := rfl
@[simp] theorem State.mapHwq_planes (s : State) (q : QueueId) (f : HwQueue → HwQueue) : (s.mapHwq q f).planes = s.planes := rfl
@[simp] theorem State.mapHwq_tlb (s : State) (q : QueueId) (f : HwQueue → HwQueue) : (s.mapHwq q f).tlb = s.tlb := rfl
@[simp] theorem State.mapHwq_cores (s : State) (q : QueueId) (f : HwQueue → HwQueue) : (s.mapHwq q f).cores = s.cores := rfl
@[simp] theorem State.mapHwq_parts (s : State) (q : QueueId) (f : HwQueue → HwQueue) : (s.mapHwq q f).parts = s.parts := rfl
@[simp] theorem State.mapHwq_launches (s : State) (q : QueueId) (f : HwQueue → HwQueue) : (s.mapHwq q f).launches = s.launches := rfl
@[simp] theorem State.mapHwq_nextLaunch (s : State) (q : QueueId) (f : HwQueue → HwQueue) : (s.mapHwq q f).nextLaunch = s.nextLaunch := rfl
@[simp] theorem State.mapHwq_pending (s : State) (q : QueueId) (f : HwQueue → HwQueue) : (s.mapHwq q f).pending = s.pending := rfl
@[simp] theorem State.mapHwq_reservations (s : State) (q : QueueId) (f : HwQueue → HwQueue) : (s.mapHwq q f).reservations = s.reservations := rfl
@[simp] theorem State.mapHwq_rr (s : State) (q : QueueId) (f : HwQueue → HwQueue) : (s.mapHwq q f).rr = s.rr := rfl
@[simp] theorem State.mapHwq_groups (s : State) (q : QueueId) (f : HwQueue → HwQueue) : (s.mapHwq q f).groups = s.groups := rfl
@[simp] theorem State.mapHwq_sessions (s : State) (q : QueueId) (f : HwQueue → HwQueue) : (s.mapHwq q f).sessions = s.sessions := rfl
@[simp] theorem State.mapHwq_outbox (s : State) (q : QueueId) (f : HwQueue → HwQueue) : (s.mapHwq q f).outbox = s.outbox := rfl
@[simp] theorem State.mapHwq_submits (s : State) (q : QueueId) (f : HwQueue → HwQueue) : (s.mapHwq q f).submits = s.submits := rfl
@[simp] theorem State.mapHwq_strays (s : State) (q : QueueId) (f : HwQueue → HwQueue) : (s.mapHwq q f).strays = s.strays := rfl
@[simp] theorem State.mapHwq_tables (s : State) (q : QueueId) (f : HwQueue → HwQueue) : (s.mapHwq q f).tables = s.tables := rfl
@[simp] theorem State.mapHwq_module (s : State) (q : QueueId) (f : HwQueue → HwQueue) : (s.mapHwq q f).module = s.module := rfl

/-! ### State.countOn -/

@[simp] theorem State.countOn_cur (s : State) (k : BitVec 6) (ev : BitVec 8) (n : Nat) : (s.countOn k ev n).cur = s.cur := rfl
@[simp] theorem State.countOn_others (s : State) (k : BitVec 6) (ev : BitVec 8) (n : Nat) : (s.countOn k ev n).others = s.others := rfl
@[simp] theorem State.countOn_parked (s : State) (k : BitVec 6) (ev : BitVec 8) (n : Nat) : (s.countOn k ev n).parked = s.parked := rfl
@[simp] theorem State.countOn_saved (s : State) (k : BitVec 6) (ev : BitVec 8) (n : Nat) : (s.countOn k ev n).saved = s.saved := rfl
@[simp] theorem State.countOn_agenda (s : State) (k : BitVec 6) (ev : BitVec 8) (n : Nat) : (s.countOn k ev n).agenda = s.agenda := rfl
@[simp] theorem State.countOn_free (s : State) (k : BitVec 6) (ev : BitVec 8) (n : Nat) : (s.countOn k ev n).free = s.free := rfl
@[simp] theorem State.countOn_mem (s : State) (k : BitVec 6) (ev : BitVec 8) (n : Nat) : (s.countOn k ev n).mem = s.mem := rfl
@[simp] theorem State.countOn_keys (s : State) (k : BitVec 6) (ev : BitVec 8) (n : Nat) : (s.countOn k ev n).keys = s.keys := rfl
@[simp] theorem State.countOn_hostMem (s : State) (k : BitVec 6) (ev : BitVec 8) (n : Nat) : (s.countOn k ev n).hostMem = s.hostMem := rfl
@[simp] theorem State.countOn_larder (s : State) (k : BitVec 6) (ev : BitVec 8) (n : Nat) : (s.countOn k ev n).larder = s.larder := rfl
@[simp] theorem State.countOn_planes (s : State) (k : BitVec 6) (ev : BitVec 8) (n : Nat) : (s.countOn k ev n).planes = s.planes := rfl
@[simp] theorem State.countOn_tlb (s : State) (k : BitVec 6) (ev : BitVec 8) (n : Nat) : (s.countOn k ev n).tlb = s.tlb := rfl
@[simp] theorem State.countOn_parts (s : State) (k : BitVec 6) (ev : BitVec 8) (n : Nat) : (s.countOn k ev n).parts = s.parts := rfl
@[simp] theorem State.countOn_hwq (s : State) (k : BitVec 6) (ev : BitVec 8) (n : Nat) : (s.countOn k ev n).hwq = s.hwq := rfl
@[simp] theorem State.countOn_launches (s : State) (k : BitVec 6) (ev : BitVec 8) (n : Nat) : (s.countOn k ev n).launches = s.launches := rfl
@[simp] theorem State.countOn_nextLaunch (s : State) (k : BitVec 6) (ev : BitVec 8) (n : Nat) : (s.countOn k ev n).nextLaunch = s.nextLaunch := rfl
@[simp] theorem State.countOn_pending (s : State) (k : BitVec 6) (ev : BitVec 8) (n : Nat) : (s.countOn k ev n).pending = s.pending := rfl
@[simp] theorem State.countOn_reservations (s : State) (k : BitVec 6) (ev : BitVec 8) (n : Nat) : (s.countOn k ev n).reservations = s.reservations := rfl
@[simp] theorem State.countOn_rr (s : State) (k : BitVec 6) (ev : BitVec 8) (n : Nat) : (s.countOn k ev n).rr = s.rr := rfl
@[simp] theorem State.countOn_groups (s : State) (k : BitVec 6) (ev : BitVec 8) (n : Nat) : (s.countOn k ev n).groups = s.groups := rfl
@[simp] theorem State.countOn_sessions (s : State) (k : BitVec 6) (ev : BitVec 8) (n : Nat) : (s.countOn k ev n).sessions = s.sessions := rfl
@[simp] theorem State.countOn_outbox (s : State) (k : BitVec 6) (ev : BitVec 8) (n : Nat) : (s.countOn k ev n).outbox = s.outbox := rfl
@[simp] theorem State.countOn_submits (s : State) (k : BitVec 6) (ev : BitVec 8) (n : Nat) : (s.countOn k ev n).submits = s.submits := rfl
@[simp] theorem State.countOn_strays (s : State) (k : BitVec 6) (ev : BitVec 8) (n : Nat) : (s.countOn k ev n).strays = s.strays := rfl
@[simp] theorem State.countOn_tables (s : State) (k : BitVec 6) (ev : BitVec 8) (n : Nat) : (s.countOn k ev n).tables = s.tables := rfl
@[simp] theorem State.countOn_module (s : State) (k : BitVec 6) (ev : BitVec 8) (n : Nat) : (s.countOn k ev n).module = s.module := rfl

/-! ### State.count -/

@[simp] theorem State.count_cur (s : State) (ev : BitVec 8) (n : Nat) : (s.count ev n).cur = s.cur := rfl
@[simp] theorem State.count_others (s : State) (ev : BitVec 8) (n : Nat) : (s.count ev n).others = s.others := rfl
@[simp] theorem State.count_parked (s : State) (ev : BitVec 8) (n : Nat) : (s.count ev n).parked = s.parked := rfl
@[simp] theorem State.count_saved (s : State) (ev : BitVec 8) (n : Nat) : (s.count ev n).saved = s.saved := rfl
@[simp] theorem State.count_agenda (s : State) (ev : BitVec 8) (n : Nat) : (s.count ev n).agenda = s.agenda := rfl
@[simp] theorem State.count_free (s : State) (ev : BitVec 8) (n : Nat) : (s.count ev n).free = s.free := rfl
@[simp] theorem State.count_mem (s : State) (ev : BitVec 8) (n : Nat) : (s.count ev n).mem = s.mem := rfl
@[simp] theorem State.count_keys (s : State) (ev : BitVec 8) (n : Nat) : (s.count ev n).keys = s.keys := rfl
@[simp] theorem State.count_hostMem (s : State) (ev : BitVec 8) (n : Nat) : (s.count ev n).hostMem = s.hostMem := rfl
@[simp] theorem State.count_larder (s : State) (ev : BitVec 8) (n : Nat) : (s.count ev n).larder = s.larder := rfl
@[simp] theorem State.count_planes (s : State) (ev : BitVec 8) (n : Nat) : (s.count ev n).planes = s.planes := rfl
@[simp] theorem State.count_tlb (s : State) (ev : BitVec 8) (n : Nat) : (s.count ev n).tlb = s.tlb := rfl
@[simp] theorem State.count_parts (s : State) (ev : BitVec 8) (n : Nat) : (s.count ev n).parts = s.parts := rfl
@[simp] theorem State.count_hwq (s : State) (ev : BitVec 8) (n : Nat) : (s.count ev n).hwq = s.hwq := rfl
@[simp] theorem State.count_launches (s : State) (ev : BitVec 8) (n : Nat) : (s.count ev n).launches = s.launches := rfl
@[simp] theorem State.count_nextLaunch (s : State) (ev : BitVec 8) (n : Nat) : (s.count ev n).nextLaunch = s.nextLaunch := rfl
@[simp] theorem State.count_pending (s : State) (ev : BitVec 8) (n : Nat) : (s.count ev n).pending = s.pending := rfl
@[simp] theorem State.count_reservations (s : State) (ev : BitVec 8) (n : Nat) : (s.count ev n).reservations = s.reservations := rfl
@[simp] theorem State.count_rr (s : State) (ev : BitVec 8) (n : Nat) : (s.count ev n).rr = s.rr := rfl
@[simp] theorem State.count_groups (s : State) (ev : BitVec 8) (n : Nat) : (s.count ev n).groups = s.groups := rfl
@[simp] theorem State.count_sessions (s : State) (ev : BitVec 8) (n : Nat) : (s.count ev n).sessions = s.sessions := rfl
@[simp] theorem State.count_outbox (s : State) (ev : BitVec 8) (n : Nat) : (s.count ev n).outbox = s.outbox := rfl
@[simp] theorem State.count_submits (s : State) (ev : BitVec 8) (n : Nat) : (s.count ev n).submits = s.submits := rfl
@[simp] theorem State.count_strays (s : State) (ev : BitVec 8) (n : Nat) : (s.count ev n).strays = s.strays := rfl
@[simp] theorem State.count_tables (s : State) (ev : BitVec 8) (n : Nat) : (s.count ev n).tables = s.tables := rfl
@[simp] theorem State.count_module (s : State) (ev : BitVec 8) (n : Nat) : (s.count ev n).module = s.module := rfl

/-! ### State.mapStrands -/

@[simp] theorem State.mapStrands_cur (s : State) (f : Strand → Strand) : (s.mapStrands f).cur = f s.cur := rfl
@[simp] theorem State.mapStrands_others (s : State) (f : Strand → Strand) : (s.mapStrands f).others = s.others.map f := rfl
@[simp] theorem State.mapStrands_parked (s : State) (f : Strand → Strand) : (s.mapStrands f).parked = s.parked := rfl
@[simp] theorem State.mapStrands_saved (s : State) (f : Strand → Strand) : (s.mapStrands f).saved = s.saved := rfl
@[simp] theorem State.mapStrands_agenda (s : State) (f : Strand → Strand) : (s.mapStrands f).agenda = s.agenda := rfl
@[simp] theorem State.mapStrands_free (s : State) (f : Strand → Strand) : (s.mapStrands f).free = s.free := rfl
@[simp] theorem State.mapStrands_mem (s : State) (f : Strand → Strand) : (s.mapStrands f).mem = s.mem := rfl
@[simp] theorem State.mapStrands_keys (s : State) (f : Strand → Strand) : (s.mapStrands f).keys = s.keys := rfl
@[simp] theorem State.mapStrands_hostMem (s : State) (f : Strand → Strand) : (s.mapStrands f).hostMem = s.hostMem := rfl
@[simp] theorem State.mapStrands_larder (s : State) (f : Strand → Strand) : (s.mapStrands f).larder = s.larder := rfl
@[simp] theorem State.mapStrands_planes (s : State) (f : Strand → Strand) : (s.mapStrands f).planes = s.planes := rfl
@[simp] theorem State.mapStrands_tlb (s : State) (f : Strand → Strand) : (s.mapStrands f).tlb = s.tlb := rfl
@[simp] theorem State.mapStrands_cores (s : State) (f : Strand → Strand) : (s.mapStrands f).cores = s.cores := rfl
@[simp] theorem State.mapStrands_parts (s : State) (f : Strand → Strand) : (s.mapStrands f).parts = s.parts := rfl
@[simp] theorem State.mapStrands_hwq (s : State) (f : Strand → Strand) : (s.mapStrands f).hwq = s.hwq := rfl
@[simp] theorem State.mapStrands_launches (s : State) (f : Strand → Strand) : (s.mapStrands f).launches = s.launches := rfl
@[simp] theorem State.mapStrands_nextLaunch (s : State) (f : Strand → Strand) : (s.mapStrands f).nextLaunch = s.nextLaunch := rfl
@[simp] theorem State.mapStrands_pending (s : State) (f : Strand → Strand) : (s.mapStrands f).pending = s.pending := rfl
@[simp] theorem State.mapStrands_reservations (s : State) (f : Strand → Strand) : (s.mapStrands f).reservations = s.reservations := rfl
@[simp] theorem State.mapStrands_rr (s : State) (f : Strand → Strand) : (s.mapStrands f).rr = s.rr := rfl
@[simp] theorem State.mapStrands_groups (s : State) (f : Strand → Strand) : (s.mapStrands f).groups = s.groups := rfl
@[simp] theorem State.mapStrands_sessions (s : State) (f : Strand → Strand) : (s.mapStrands f).sessions = s.sessions := rfl
@[simp] theorem State.mapStrands_outbox (s : State) (f : Strand → Strand) : (s.mapStrands f).outbox = s.outbox := rfl
@[simp] theorem State.mapStrands_submits (s : State) (f : Strand → Strand) : (s.mapStrands f).submits = s.submits := rfl
@[simp] theorem State.mapStrands_strays (s : State) (f : Strand → Strand) : (s.mapStrands f).strays = s.strays := rfl
@[simp] theorem State.mapStrands_tables (s : State) (f : Strand → Strand) : (s.mapStrands f).tables = s.tables := rfl
@[simp] theorem State.mapStrands_module (s : State) (f : Strand → Strand) : (s.mapStrands f).module = s.module := rfl

/-! ### Strand.setX -/

@[simp] theorem Strand.setX_id (c : Strand) (r : XReg) (v : Word) : (c.setX r v).id = c.id := by
  unfold Strand.setX; split <;> rfl
@[simp] theorem Strand.setX_part (c : Strand) (r : XReg) (v : Word) : (c.setX r v).part = c.part := by
  unfold Strand.setX; split <;> rfl
@[simp] theorem Strand.setX_run (c : Strand) (r : XReg) (v : Word) : (c.setX r v).run = c.run := by
  unfold Strand.setX; split <;> rfl
@[simp] theorem Strand.setX_task (c : Strand) (r : XReg) (v : Word) : (c.setX r v).task = c.task := by
  unfold Strand.setX; split <;> rfl
@[simp] theorem Strand.setX_pc (c : Strand) (r : XReg) (v : Word) : (c.setX r v).pc = c.pc := by
  unfold Strand.setX; split <;> rfl
@[simp] theorem Strand.setX_level (c : Strand) (r : XReg) (v : Word) : (c.setX r v).level = c.level := by
  unfold Strand.setX; split <;> rfl
@[simp] theorem Strand.setX_frm (c : Strand) (r : XReg) (v : Word) : (c.setX r v).frm = c.frm := by
  unfold Strand.setX; split <;> rfl
@[simp] theorem Strand.setX_fflags (c : Strand) (r : XReg) (v : Word) : (c.setX r v).fflags = c.fflags := by
  unfold Strand.setX; split <;> rfl
@[simp] theorem Strand.setX_lanegrant (c : Strand) (r : XReg) (v : Word) : (c.setX r v).lanegrant = c.lanegrant := by
  unfold Strand.setX; split <;> rfl
@[simp] theorem Strand.setX_lidx (c : Strand) (r : XReg) (v : Word) : (c.setX r v).lidx = c.lidx := by
  unfold Strand.setX; split <;> rfl
@[simp] theorem Strand.setX_trpc (c : Strand) (r : XReg) (v : Word) : (c.setX r v).trpc = c.trpc := by
  unfold Strand.setX; split <;> rfl
@[simp] theorem Strand.setX_trRk (c : Strand) (r : XReg) (v : Word) : (c.setX r v).trRk = c.trRk := by
  unfold Strand.setX; split <;> rfl
@[simp] theorem Strand.setX_trCode (c : Strand) (r : XReg) (v : Word) : (c.setX r v).trCode = c.trCode := by
  unfold Strand.setX; split <;> rfl
@[simp] theorem Strand.setX_trval (c : Strand) (r : XReg) (v : Word) : (c.setX r v).trval = c.trval := by
  unfold Strand.setX; split <;> rfl
@[simp] theorem Strand.setX_trIn (c : Strand) (r : XReg) (v : Word) : (c.setX r v).trIn = c.trIn := by
  unfold Strand.setX; split <;> rfl
@[simp] theorem Strand.setX_trLvl (c : Strand) (r : XReg) (v : Word) : (c.setX r v).trLvl = c.trLvl := by
  unfold Strand.setX; split <;> rfl
@[simp] theorem Strand.setX_trvec (c : Strand) (r : XReg) (v : Word) : (c.setX r v).trvec = c.trvec := by
  unfold Strand.setX; split <;> rfl
@[simp] theorem Strand.setX_trscratch (c : Strand) (r : XReg) (v : Word) : (c.setX r v).trscratch = c.trscratch := by
  unfold Strand.setX; split <;> rfl
@[simp] theorem Strand.setX_trpend (c : Strand) (r : XReg) (v : Word) : (c.setX r v).trpend = c.trpend := by
  unfold Strand.setX; split <;> rfl
@[simp] theorem Strand.setX_trslot (c : Strand) (r : XReg) (v : Word) : (c.setX r v).trslot = c.trslot := by
  unfold Strand.setX; split <;> rfl
@[simp] theorem Strand.setX_trpages (c : Strand) (r : XReg) (v : Word) : (c.setX r v).trpages = c.trpages := by
  unfold Strand.setX; split <;> rfl
@[simp] theorem Strand.setX_trpcount (c : Strand) (r : XReg) (v : Word) : (c.setX r v).trpcount = c.trpcount := by
  unfold Strand.setX; split <;> rfl
@[simp] theorem Strand.setX_vowner (c : Strand) (r : XReg) (v : Word) : (c.setX r v).vowner = c.vowner := by
  unfold Strand.setX; split <;> rfl
@[simp] theorem Strand.setX_ctxid (c : Strand) (r : XReg) (v : Word) : (c.setX r v).ctxid = c.ctxid := by
  unfold Strand.setX; split <;> rfl
@[simp] theorem Strand.setX_arenabase (c : Strand) (r : XReg) (v : Word) : (c.setX r v).arenabase = c.arenabase := by
  unfold Strand.setX; split <;> rfl
@[simp] theorem Strand.setX_arenabound (c : Strand) (r : XReg) (v : Word) : (c.setX r v).arenabound = c.arenabound := by
  unfold Strand.setX; split <;> rfl
@[simp] theorem Strand.setX_watch (c : Strand) (r : XReg) (v : Word) : (c.setX r v).watch = c.watch := by
  unfold Strand.setX; split <;> rfl
@[simp] theorem Strand.setX_wctl (c : Strand) (r : XReg) (v : Word) : (c.setX r v).wctl = c.wctl := by
  unfold Strand.setX; split <;> rfl
@[simp] theorem Strand.setX_strandid (c : Strand) (r : XReg) (v : Word) : (c.setX r v).strandid = c.strandid := by
  unfold Strand.setX; split <;> rfl
@[simp] theorem Strand.setX_coreid (c : Strand) (r : XReg) (v : Word) : (c.setX r v).coreid = c.coreid := by
  unfold Strand.setX; split <;> rfl
@[simp] theorem Strand.setX_cycle (c : Strand) (r : XReg) (v : Word) : (c.setX r v).cycle = c.cycle := by
  unfold Strand.setX; split <;> rfl
@[simp] theorem Strand.setX_convoys (c : Strand) (r : XReg) (v : Word) : (c.setX r v).convoys = c.convoys := by
  unfold Strand.setX; split <;> rfl
@[simp] theorem Strand.setX_vec (c : Strand) (r : XReg) (v : Word) : (c.setX r v).vec = c.vec := by
  unfold Strand.setX; split <;> rfl
@[simp] theorem Strand.setX_queues (c : Strand) (r : XReg) (v : Word) : (c.setX r v).queues = c.queues := by
  unfold Strand.setX; split <;> rfl
@[simp] theorem Strand.setX_board (c : Strand) (r : XReg) (v : Word) : (c.setX r v).board = c.board := by
  unfold Strand.setX; split <;> rfl
@[simp] theorem Strand.setX_lateHeld (c : Strand) (r : XReg) (v : Word) : (c.setX r v).lateHeld = c.lateHeld := by
  unfold Strand.setX; split <;> rfl
@[simp] theorem Strand.setX_lateStop (c : Strand) (r : XReg) (v : Word) : (c.setX r v).lateStop = c.lateStop := by
  unfold Strand.setX; split <;> rfl
@[simp] theorem Strand.setX_panelLate (c : Strand) (r : XReg) (v : Word) : (c.setX r v).panelLate = c.panelLate := by
  unfold Strand.setX; split <;> rfl
@[simp] theorem Strand.setX_watchHeld (c : Strand) (r : XReg) (v : Word) : (c.setX r v).watchHeld = c.watchHeld := by
  unfold Strand.setX; split <;> rfl
@[simp] theorem Strand.setX_preempt (c : Strand) (r : XReg) (v : Word) : (c.setX r v).preempt = c.preempt := by
  unfold Strand.setX; split <;> rfl
@[simp] theorem Strand.setX_moving (c : Strand) (r : XReg) (v : Word) : (c.setX r v).moving = c.moving := by
  unfold Strand.setX; split <;> rfl
@[simp] theorem Strand.setX_iword (c : Strand) (r : XReg) (v : Word) : (c.setX r v).iword = c.iword := by
  unfold Strand.setX; split <;> rfl
@[simp] theorem Strand.setX_slot (c : Strand) (r : XReg) (v : Word) : (c.setX r v).slot = c.slot := by
  unfold Strand.setX; split <;> rfl
@[simp] theorem Strand.setX_reissue (c : Strand) (r : XReg) (v : Word) : (c.setX r v).reissue = c.reissue := by
  unfold Strand.setX; split <;> rfl
@[simp] theorem Strand.setX_conv (c : Strand) (r : XReg) (v : Word) : (c.setX r v).conv = c.conv := by
  unfold Strand.setX; split <;> rfl
@[simp] theorem Strand.setX_history (c : Strand) (r : XReg) (v : Word) : (c.setX r v).history = c.history := by
  unfold Strand.setX; split <;> rfl
@[simp] theorem Strand.setX_suspended (c : Strand) (r : XReg) (v : Word) : (c.setX r v).suspended = c.suspended := by
  unfold Strand.setX; split <;> rfl
@[simp] theorem Strand.setX_vwait (c : Strand) (r : XReg) (v : Word) : (c.setX r v).vwait = c.vwait := by
  unfold Strand.setX; split <;> rfl
@[simp] theorem Strand.setX_amo (c : Strand) (r : XReg) (v : Word) : (c.setX r v).amo = c.amo := by
  unfold Strand.setX; split <;> rfl
@[simp] theorem Strand.setX_note (c : Strand) (r : XReg) (v : Word) : (c.setX r v).note = c.note := by
  unfold Strand.setX; split <;> rfl
@[simp] theorem Strand.setX_usedLarder (c : Strand) (r : XReg) (v : Word) : (c.setX r v).usedLarder = c.usedLarder := by
  unfold Strand.setX; split <;> rfl
@[simp] theorem Strand.setX_restarted (c : Strand) (r : XReg) (v : Word) : (c.setX r v).restarted = c.restarted := by
  unfold Strand.setX; split <;> rfl
@[simp] theorem Strand.setX_taskCtx (c : Strand) (r : XReg) (v : Word) : (c.setX r v).taskCtx = c.taskCtx := by
  unfold Strand.setX; split <;> rfl
@[simp] theorem Strand.setX_age (c : Strand) (r : XReg) (v : Word) : (c.setX r v).age = c.age := by
  unfold Strand.setX; split <;> rfl
@[simp] theorem Strand.setX_gen (c : Strand) (r : XReg) (v : Word) : (c.setX r v).gen = c.gen := by
  unfold Strand.setX; split <;> rfl

/-! ### The strand after State.setPc -/

@[simp] theorem State.setPc_cur_id (s : State) (v : Word) : (s.setPc v).cur.id = s.cur.id := rfl
@[simp] theorem State.setPc_cur_part (s : State) (v : Word) : (s.setPc v).cur.part = s.cur.part := rfl
@[simp] theorem State.setPc_cur_run (s : State) (v : Word) : (s.setPc v).cur.run = s.cur.run := rfl
@[simp] theorem State.setPc_cur_task (s : State) (v : Word) : (s.setPc v).cur.task = s.cur.task := rfl
@[simp] theorem State.setPc_cur_pc (s : State) (v : Word) : (s.setPc v).cur.pc = v := rfl
@[simp] theorem State.setPc_cur_x (s : State) (v : Word) : (s.setPc v).cur.x = s.cur.x := rfl
@[simp] theorem State.setPc_cur_level (s : State) (v : Word) : (s.setPc v).cur.level = s.cur.level := rfl
@[simp] theorem State.setPc_cur_frm (s : State) (v : Word) : (s.setPc v).cur.frm = s.cur.frm := rfl
@[simp] theorem State.setPc_cur_fflags (s : State) (v : Word) : (s.setPc v).cur.fflags = s.cur.fflags := rfl
@[simp] theorem State.setPc_cur_lanegrant (s : State) (v : Word) : (s.setPc v).cur.lanegrant = s.cur.lanegrant := rfl
@[simp] theorem State.setPc_cur_lidx (s : State) (v : Word) : (s.setPc v).cur.lidx = s.cur.lidx := rfl
@[simp] theorem State.setPc_cur_trpc (s : State) (v : Word) : (s.setPc v).cur.trpc = s.cur.trpc := rfl
@[simp] theorem State.setPc_cur_trRk (s : State) (v : Word) : (s.setPc v).cur.trRk = s.cur.trRk := rfl
@[simp] theorem State.setPc_cur_trCode (s : State) (v : Word) : (s.setPc v).cur.trCode = s.cur.trCode := rfl
@[simp] theorem State.setPc_cur_trval (s : State) (v : Word) : (s.setPc v).cur.trval = s.cur.trval := rfl
@[simp] theorem State.setPc_cur_trIn (s : State) (v : Word) : (s.setPc v).cur.trIn = s.cur.trIn := rfl
@[simp] theorem State.setPc_cur_trLvl (s : State) (v : Word) : (s.setPc v).cur.trLvl = s.cur.trLvl := rfl
@[simp] theorem State.setPc_cur_trvec (s : State) (v : Word) : (s.setPc v).cur.trvec = s.cur.trvec := rfl
@[simp] theorem State.setPc_cur_trscratch (s : State) (v : Word) : (s.setPc v).cur.trscratch = s.cur.trscratch := rfl
@[simp] theorem State.setPc_cur_trpend (s : State) (v : Word) : (s.setPc v).cur.trpend = s.cur.trpend := rfl
@[simp] theorem State.setPc_cur_trslot (s : State) (v : Word) : (s.setPc v).cur.trslot = s.cur.trslot := rfl
@[simp] theorem State.setPc_cur_trpages (s : State) (v : Word) : (s.setPc v).cur.trpages = s.cur.trpages := rfl
@[simp] theorem State.setPc_cur_trpcount (s : State) (v : Word) : (s.setPc v).cur.trpcount = s.cur.trpcount := rfl
@[simp] theorem State.setPc_cur_vowner (s : State) (v : Word) : (s.setPc v).cur.vowner = s.cur.vowner := rfl
@[simp] theorem State.setPc_cur_ctxid (s : State) (v : Word) : (s.setPc v).cur.ctxid = s.cur.ctxid := rfl
@[simp] theorem State.setPc_cur_arenabase (s : State) (v : Word) : (s.setPc v).cur.arenabase = s.cur.arenabase := rfl
@[simp] theorem State.setPc_cur_arenabound (s : State) (v : Word) : (s.setPc v).cur.arenabound = s.cur.arenabound := rfl
@[simp] theorem State.setPc_cur_watch (s : State) (v : Word) : (s.setPc v).cur.watch = s.cur.watch := rfl
@[simp] theorem State.setPc_cur_wctl (s : State) (v : Word) : (s.setPc v).cur.wctl = s.cur.wctl := rfl
@[simp] theorem State.setPc_cur_strandid (s : State) (v : Word) : (s.setPc v).cur.strandid = s.cur.strandid := rfl
@[simp] theorem State.setPc_cur_coreid (s : State) (v : Word) : (s.setPc v).cur.coreid = s.cur.coreid := rfl
@[simp] theorem State.setPc_cur_cycle (s : State) (v : Word) : (s.setPc v).cur.cycle = s.cur.cycle := rfl
@[simp] theorem State.setPc_cur_convoys (s : State) (v : Word) : (s.setPc v).cur.convoys = s.cur.convoys := rfl
@[simp] theorem State.setPc_cur_vec (s : State) (v : Word) : (s.setPc v).cur.vec = s.cur.vec := rfl
@[simp] theorem State.setPc_cur_queues (s : State) (v : Word) : (s.setPc v).cur.queues = s.cur.queues := rfl
@[simp] theorem State.setPc_cur_board (s : State) (v : Word) : (s.setPc v).cur.board = s.cur.board := rfl
@[simp] theorem State.setPc_cur_lateHeld (s : State) (v : Word) : (s.setPc v).cur.lateHeld = s.cur.lateHeld := rfl
@[simp] theorem State.setPc_cur_lateStop (s : State) (v : Word) : (s.setPc v).cur.lateStop = s.cur.lateStop := rfl
@[simp] theorem State.setPc_cur_panelLate (s : State) (v : Word) : (s.setPc v).cur.panelLate = s.cur.panelLate := rfl
@[simp] theorem State.setPc_cur_watchHeld (s : State) (v : Word) : (s.setPc v).cur.watchHeld = s.cur.watchHeld := rfl
@[simp] theorem State.setPc_cur_preempt (s : State) (v : Word) : (s.setPc v).cur.preempt = s.cur.preempt := rfl
@[simp] theorem State.setPc_cur_moving (s : State) (v : Word) : (s.setPc v).cur.moving = s.cur.moving := rfl
@[simp] theorem State.setPc_cur_iword (s : State) (v : Word) : (s.setPc v).cur.iword = s.cur.iword := rfl
@[simp] theorem State.setPc_cur_slot (s : State) (v : Word) : (s.setPc v).cur.slot = s.cur.slot := rfl
@[simp] theorem State.setPc_cur_reissue (s : State) (v : Word) : (s.setPc v).cur.reissue = s.cur.reissue := rfl
@[simp] theorem State.setPc_cur_conv (s : State) (v : Word) : (s.setPc v).cur.conv = s.cur.conv := rfl
@[simp] theorem State.setPc_cur_history (s : State) (v : Word) : (s.setPc v).cur.history = s.cur.history := rfl
@[simp] theorem State.setPc_cur_suspended (s : State) (v : Word) : (s.setPc v).cur.suspended = s.cur.suspended := rfl
@[simp] theorem State.setPc_cur_vwait (s : State) (v : Word) : (s.setPc v).cur.vwait = s.cur.vwait := rfl
@[simp] theorem State.setPc_cur_amo (s : State) (v : Word) : (s.setPc v).cur.amo = s.cur.amo := rfl
@[simp] theorem State.setPc_cur_note (s : State) (v : Word) : (s.setPc v).cur.note = s.cur.note := rfl
@[simp] theorem State.setPc_cur_usedLarder (s : State) (v : Word) : (s.setPc v).cur.usedLarder = s.cur.usedLarder := rfl
@[simp] theorem State.setPc_cur_restarted (s : State) (v : Word) : (s.setPc v).cur.restarted = s.cur.restarted := rfl
@[simp] theorem State.setPc_cur_taskCtx (s : State) (v : Word) : (s.setPc v).cur.taskCtx = s.cur.taskCtx := rfl
@[simp] theorem State.setPc_cur_age (s : State) (v : Word) : (s.setPc v).cur.age = s.cur.age := rfl
@[simp] theorem State.setPc_cur_gen (s : State) (v : Word) : (s.setPc v).cur.gen = s.cur.gen := rfl

/-! ### The strand after State.next4 -/

@[simp] theorem State.next4_cur_id (s : State) : (s.next4).cur.id = s.cur.id := rfl
@[simp] theorem State.next4_cur_part (s : State) : (s.next4).cur.part = s.cur.part := rfl
@[simp] theorem State.next4_cur_run (s : State) : (s.next4).cur.run = s.cur.run := rfl
@[simp] theorem State.next4_cur_task (s : State) : (s.next4).cur.task = s.cur.task := rfl
@[simp] theorem State.next4_cur_pc (s : State) : (s.next4).cur.pc = s.cur.pc + 4 := rfl
@[simp] theorem State.next4_cur_x (s : State) : (s.next4).cur.x = s.cur.x := rfl
@[simp] theorem State.next4_cur_level (s : State) : (s.next4).cur.level = s.cur.level := rfl
@[simp] theorem State.next4_cur_frm (s : State) : (s.next4).cur.frm = s.cur.frm := rfl
@[simp] theorem State.next4_cur_fflags (s : State) : (s.next4).cur.fflags = s.cur.fflags := rfl
@[simp] theorem State.next4_cur_lanegrant (s : State) : (s.next4).cur.lanegrant = s.cur.lanegrant := rfl
@[simp] theorem State.next4_cur_lidx (s : State) : (s.next4).cur.lidx = s.cur.lidx := rfl
@[simp] theorem State.next4_cur_trpc (s : State) : (s.next4).cur.trpc = s.cur.trpc := rfl
@[simp] theorem State.next4_cur_trRk (s : State) : (s.next4).cur.trRk = s.cur.trRk := rfl
@[simp] theorem State.next4_cur_trCode (s : State) : (s.next4).cur.trCode = s.cur.trCode := rfl
@[simp] theorem State.next4_cur_trval (s : State) : (s.next4).cur.trval = s.cur.trval := rfl
@[simp] theorem State.next4_cur_trIn (s : State) : (s.next4).cur.trIn = s.cur.trIn := rfl
@[simp] theorem State.next4_cur_trLvl (s : State) : (s.next4).cur.trLvl = s.cur.trLvl := rfl
@[simp] theorem State.next4_cur_trvec (s : State) : (s.next4).cur.trvec = s.cur.trvec := rfl
@[simp] theorem State.next4_cur_trscratch (s : State) : (s.next4).cur.trscratch = s.cur.trscratch := rfl
@[simp] theorem State.next4_cur_trpend (s : State) : (s.next4).cur.trpend = s.cur.trpend := rfl
@[simp] theorem State.next4_cur_trslot (s : State) : (s.next4).cur.trslot = s.cur.trslot := rfl
@[simp] theorem State.next4_cur_trpages (s : State) : (s.next4).cur.trpages = s.cur.trpages := rfl
@[simp] theorem State.next4_cur_trpcount (s : State) : (s.next4).cur.trpcount = s.cur.trpcount := rfl
@[simp] theorem State.next4_cur_vowner (s : State) : (s.next4).cur.vowner = s.cur.vowner := rfl
@[simp] theorem State.next4_cur_ctxid (s : State) : (s.next4).cur.ctxid = s.cur.ctxid := rfl
@[simp] theorem State.next4_cur_arenabase (s : State) : (s.next4).cur.arenabase = s.cur.arenabase := rfl
@[simp] theorem State.next4_cur_arenabound (s : State) : (s.next4).cur.arenabound = s.cur.arenabound := rfl
@[simp] theorem State.next4_cur_watch (s : State) : (s.next4).cur.watch = s.cur.watch := rfl
@[simp] theorem State.next4_cur_wctl (s : State) : (s.next4).cur.wctl = s.cur.wctl := rfl
@[simp] theorem State.next4_cur_strandid (s : State) : (s.next4).cur.strandid = s.cur.strandid := rfl
@[simp] theorem State.next4_cur_coreid (s : State) : (s.next4).cur.coreid = s.cur.coreid := rfl
@[simp] theorem State.next4_cur_cycle (s : State) : (s.next4).cur.cycle = s.cur.cycle := rfl
@[simp] theorem State.next4_cur_convoys (s : State) : (s.next4).cur.convoys = s.cur.convoys := rfl
@[simp] theorem State.next4_cur_vec (s : State) : (s.next4).cur.vec = s.cur.vec := rfl
@[simp] theorem State.next4_cur_queues (s : State) : (s.next4).cur.queues = s.cur.queues := rfl
@[simp] theorem State.next4_cur_board (s : State) : (s.next4).cur.board = s.cur.board := rfl
@[simp] theorem State.next4_cur_lateHeld (s : State) : (s.next4).cur.lateHeld = s.cur.lateHeld := rfl
@[simp] theorem State.next4_cur_lateStop (s : State) : (s.next4).cur.lateStop = s.cur.lateStop := rfl
@[simp] theorem State.next4_cur_panelLate (s : State) : (s.next4).cur.panelLate = s.cur.panelLate := rfl
@[simp] theorem State.next4_cur_watchHeld (s : State) : (s.next4).cur.watchHeld = s.cur.watchHeld := rfl
@[simp] theorem State.next4_cur_preempt (s : State) : (s.next4).cur.preempt = s.cur.preempt := rfl
@[simp] theorem State.next4_cur_moving (s : State) : (s.next4).cur.moving = s.cur.moving := rfl
@[simp] theorem State.next4_cur_iword (s : State) : (s.next4).cur.iword = s.cur.iword := rfl
@[simp] theorem State.next4_cur_slot (s : State) : (s.next4).cur.slot = s.cur.slot := rfl
@[simp] theorem State.next4_cur_reissue (s : State) : (s.next4).cur.reissue = s.cur.reissue := rfl
@[simp] theorem State.next4_cur_conv (s : State) : (s.next4).cur.conv = s.cur.conv := rfl
@[simp] theorem State.next4_cur_history (s : State) : (s.next4).cur.history = s.cur.history := rfl
@[simp] theorem State.next4_cur_suspended (s : State) : (s.next4).cur.suspended = s.cur.suspended := rfl
@[simp] theorem State.next4_cur_vwait (s : State) : (s.next4).cur.vwait = s.cur.vwait := rfl
@[simp] theorem State.next4_cur_amo (s : State) : (s.next4).cur.amo = s.cur.amo := rfl
@[simp] theorem State.next4_cur_note (s : State) : (s.next4).cur.note = s.cur.note := rfl
@[simp] theorem State.next4_cur_usedLarder (s : State) : (s.next4).cur.usedLarder = s.cur.usedLarder := rfl
@[simp] theorem State.next4_cur_restarted (s : State) : (s.next4).cur.restarted = s.cur.restarted := rfl
@[simp] theorem State.next4_cur_taskCtx (s : State) : (s.next4).cur.taskCtx = s.cur.taskCtx := rfl
@[simp] theorem State.next4_cur_age (s : State) : (s.next4).cur.age = s.cur.age := rfl
@[simp] theorem State.next4_cur_gen (s : State) : (s.next4).cur.gen = s.cur.gen := rfl

/-! ### The strand after State.next8 -/

@[simp] theorem State.next8_cur_id (s : State) : (s.next8).cur.id = s.cur.id := rfl
@[simp] theorem State.next8_cur_part (s : State) : (s.next8).cur.part = s.cur.part := rfl
@[simp] theorem State.next8_cur_run (s : State) : (s.next8).cur.run = s.cur.run := rfl
@[simp] theorem State.next8_cur_task (s : State) : (s.next8).cur.task = s.cur.task := rfl
@[simp] theorem State.next8_cur_pc (s : State) : (s.next8).cur.pc = s.cur.pc + 8 := rfl
@[simp] theorem State.next8_cur_x (s : State) : (s.next8).cur.x = s.cur.x := rfl
@[simp] theorem State.next8_cur_level (s : State) : (s.next8).cur.level = s.cur.level := rfl
@[simp] theorem State.next8_cur_frm (s : State) : (s.next8).cur.frm = s.cur.frm := rfl
@[simp] theorem State.next8_cur_fflags (s : State) : (s.next8).cur.fflags = s.cur.fflags := rfl
@[simp] theorem State.next8_cur_lanegrant (s : State) : (s.next8).cur.lanegrant = s.cur.lanegrant := rfl
@[simp] theorem State.next8_cur_lidx (s : State) : (s.next8).cur.lidx = s.cur.lidx := rfl
@[simp] theorem State.next8_cur_trpc (s : State) : (s.next8).cur.trpc = s.cur.trpc := rfl
@[simp] theorem State.next8_cur_trRk (s : State) : (s.next8).cur.trRk = s.cur.trRk := rfl
@[simp] theorem State.next8_cur_trCode (s : State) : (s.next8).cur.trCode = s.cur.trCode := rfl
@[simp] theorem State.next8_cur_trval (s : State) : (s.next8).cur.trval = s.cur.trval := rfl
@[simp] theorem State.next8_cur_trIn (s : State) : (s.next8).cur.trIn = s.cur.trIn := rfl
@[simp] theorem State.next8_cur_trLvl (s : State) : (s.next8).cur.trLvl = s.cur.trLvl := rfl
@[simp] theorem State.next8_cur_trvec (s : State) : (s.next8).cur.trvec = s.cur.trvec := rfl
@[simp] theorem State.next8_cur_trscratch (s : State) : (s.next8).cur.trscratch = s.cur.trscratch := rfl
@[simp] theorem State.next8_cur_trpend (s : State) : (s.next8).cur.trpend = s.cur.trpend := rfl
@[simp] theorem State.next8_cur_trslot (s : State) : (s.next8).cur.trslot = s.cur.trslot := rfl
@[simp] theorem State.next8_cur_trpages (s : State) : (s.next8).cur.trpages = s.cur.trpages := rfl
@[simp] theorem State.next8_cur_trpcount (s : State) : (s.next8).cur.trpcount = s.cur.trpcount := rfl
@[simp] theorem State.next8_cur_vowner (s : State) : (s.next8).cur.vowner = s.cur.vowner := rfl
@[simp] theorem State.next8_cur_ctxid (s : State) : (s.next8).cur.ctxid = s.cur.ctxid := rfl
@[simp] theorem State.next8_cur_arenabase (s : State) : (s.next8).cur.arenabase = s.cur.arenabase := rfl
@[simp] theorem State.next8_cur_arenabound (s : State) : (s.next8).cur.arenabound = s.cur.arenabound := rfl
@[simp] theorem State.next8_cur_watch (s : State) : (s.next8).cur.watch = s.cur.watch := rfl
@[simp] theorem State.next8_cur_wctl (s : State) : (s.next8).cur.wctl = s.cur.wctl := rfl
@[simp] theorem State.next8_cur_strandid (s : State) : (s.next8).cur.strandid = s.cur.strandid := rfl
@[simp] theorem State.next8_cur_coreid (s : State) : (s.next8).cur.coreid = s.cur.coreid := rfl
@[simp] theorem State.next8_cur_cycle (s : State) : (s.next8).cur.cycle = s.cur.cycle := rfl
@[simp] theorem State.next8_cur_convoys (s : State) : (s.next8).cur.convoys = s.cur.convoys := rfl
@[simp] theorem State.next8_cur_vec (s : State) : (s.next8).cur.vec = s.cur.vec := rfl
@[simp] theorem State.next8_cur_queues (s : State) : (s.next8).cur.queues = s.cur.queues := rfl
@[simp] theorem State.next8_cur_board (s : State) : (s.next8).cur.board = s.cur.board := rfl
@[simp] theorem State.next8_cur_lateHeld (s : State) : (s.next8).cur.lateHeld = s.cur.lateHeld := rfl
@[simp] theorem State.next8_cur_lateStop (s : State) : (s.next8).cur.lateStop = s.cur.lateStop := rfl
@[simp] theorem State.next8_cur_panelLate (s : State) : (s.next8).cur.panelLate = s.cur.panelLate := rfl
@[simp] theorem State.next8_cur_watchHeld (s : State) : (s.next8).cur.watchHeld = s.cur.watchHeld := rfl
@[simp] theorem State.next8_cur_preempt (s : State) : (s.next8).cur.preempt = s.cur.preempt := rfl
@[simp] theorem State.next8_cur_moving (s : State) : (s.next8).cur.moving = s.cur.moving := rfl
@[simp] theorem State.next8_cur_iword (s : State) : (s.next8).cur.iword = s.cur.iword := rfl
@[simp] theorem State.next8_cur_slot (s : State) : (s.next8).cur.slot = s.cur.slot := rfl
@[simp] theorem State.next8_cur_reissue (s : State) : (s.next8).cur.reissue = s.cur.reissue := rfl
@[simp] theorem State.next8_cur_conv (s : State) : (s.next8).cur.conv = s.cur.conv := rfl
@[simp] theorem State.next8_cur_history (s : State) : (s.next8).cur.history = s.cur.history := rfl
@[simp] theorem State.next8_cur_suspended (s : State) : (s.next8).cur.suspended = s.cur.suspended := rfl
@[simp] theorem State.next8_cur_vwait (s : State) : (s.next8).cur.vwait = s.cur.vwait := rfl
@[simp] theorem State.next8_cur_amo (s : State) : (s.next8).cur.amo = s.cur.amo := rfl
@[simp] theorem State.next8_cur_note (s : State) : (s.next8).cur.note = s.cur.note := rfl
@[simp] theorem State.next8_cur_usedLarder (s : State) : (s.next8).cur.usedLarder = s.cur.usedLarder := rfl
@[simp] theorem State.next8_cur_restarted (s : State) : (s.next8).cur.restarted = s.cur.restarted := rfl
@[simp] theorem State.next8_cur_taskCtx (s : State) : (s.next8).cur.taskCtx = s.cur.taskCtx := rfl
@[simp] theorem State.next8_cur_age (s : State) : (s.next8).cur.age = s.cur.age := rfl
@[simp] theorem State.next8_cur_gen (s : State) : (s.next8).cur.gen = s.cur.gen := rfl

/-! ### The strand after State.withVec -/

@[simp] theorem State.withVec_cur_id (s : State) (v : VecPart) : (s.withVec v).cur.id = s.cur.id := rfl
@[simp] theorem State.withVec_cur_part (s : State) (v : VecPart) : (s.withVec v).cur.part = s.cur.part := rfl
@[simp] theorem State.withVec_cur_run (s : State) (v : VecPart) : (s.withVec v).cur.run = s.cur.run := rfl
@[simp] theorem State.withVec_cur_task (s : State) (v : VecPart) : (s.withVec v).cur.task = s.cur.task := rfl
@[simp] theorem State.withVec_cur_pc (s : State) (v : VecPart) : (s.withVec v).cur.pc = s.cur.pc := rfl
@[simp] theorem State.withVec_cur_x (s : State) (v : VecPart) : (s.withVec v).cur.x = s.cur.x := rfl
@[simp] theorem State.withVec_cur_level (s : State) (v : VecPart) : (s.withVec v).cur.level = s.cur.level := rfl
@[simp] theorem State.withVec_cur_frm (s : State) (v : VecPart) : (s.withVec v).cur.frm = s.cur.frm := rfl
@[simp] theorem State.withVec_cur_fflags (s : State) (v : VecPart) : (s.withVec v).cur.fflags = s.cur.fflags := rfl
@[simp] theorem State.withVec_cur_lanegrant (s : State) (v : VecPart) : (s.withVec v).cur.lanegrant = s.cur.lanegrant := rfl
@[simp] theorem State.withVec_cur_lidx (s : State) (v : VecPart) : (s.withVec v).cur.lidx = s.cur.lidx := rfl
@[simp] theorem State.withVec_cur_trpc (s : State) (v : VecPart) : (s.withVec v).cur.trpc = s.cur.trpc := rfl
@[simp] theorem State.withVec_cur_trRk (s : State) (v : VecPart) : (s.withVec v).cur.trRk = s.cur.trRk := rfl
@[simp] theorem State.withVec_cur_trCode (s : State) (v : VecPart) : (s.withVec v).cur.trCode = s.cur.trCode := rfl
@[simp] theorem State.withVec_cur_trval (s : State) (v : VecPart) : (s.withVec v).cur.trval = s.cur.trval := rfl
@[simp] theorem State.withVec_cur_trIn (s : State) (v : VecPart) : (s.withVec v).cur.trIn = s.cur.trIn := rfl
@[simp] theorem State.withVec_cur_trLvl (s : State) (v : VecPart) : (s.withVec v).cur.trLvl = s.cur.trLvl := rfl
@[simp] theorem State.withVec_cur_trvec (s : State) (v : VecPart) : (s.withVec v).cur.trvec = s.cur.trvec := rfl
@[simp] theorem State.withVec_cur_trscratch (s : State) (v : VecPart) : (s.withVec v).cur.trscratch = s.cur.trscratch := rfl
@[simp] theorem State.withVec_cur_trpend (s : State) (v : VecPart) : (s.withVec v).cur.trpend = s.cur.trpend := rfl
@[simp] theorem State.withVec_cur_trslot (s : State) (v : VecPart) : (s.withVec v).cur.trslot = s.cur.trslot := rfl
@[simp] theorem State.withVec_cur_trpages (s : State) (v : VecPart) : (s.withVec v).cur.trpages = s.cur.trpages := rfl
@[simp] theorem State.withVec_cur_trpcount (s : State) (v : VecPart) : (s.withVec v).cur.trpcount = s.cur.trpcount := rfl
@[simp] theorem State.withVec_cur_vowner (s : State) (v : VecPart) : (s.withVec v).cur.vowner = s.cur.vowner := rfl
@[simp] theorem State.withVec_cur_ctxid (s : State) (v : VecPart) : (s.withVec v).cur.ctxid = s.cur.ctxid := rfl
@[simp] theorem State.withVec_cur_arenabase (s : State) (v : VecPart) : (s.withVec v).cur.arenabase = s.cur.arenabase := rfl
@[simp] theorem State.withVec_cur_arenabound (s : State) (v : VecPart) : (s.withVec v).cur.arenabound = s.cur.arenabound := rfl
@[simp] theorem State.withVec_cur_watch (s : State) (v : VecPart) : (s.withVec v).cur.watch = s.cur.watch := rfl
@[simp] theorem State.withVec_cur_wctl (s : State) (v : VecPart) : (s.withVec v).cur.wctl = s.cur.wctl := rfl
@[simp] theorem State.withVec_cur_strandid (s : State) (v : VecPart) : (s.withVec v).cur.strandid = s.cur.strandid := rfl
@[simp] theorem State.withVec_cur_coreid (s : State) (v : VecPart) : (s.withVec v).cur.coreid = s.cur.coreid := rfl
@[simp] theorem State.withVec_cur_cycle (s : State) (v : VecPart) : (s.withVec v).cur.cycle = s.cur.cycle := rfl
@[simp] theorem State.withVec_cur_convoys (s : State) (v : VecPart) : (s.withVec v).cur.convoys = s.cur.convoys := rfl
@[simp] theorem State.withVec_cur_vec (s : State) (v : VecPart) : (s.withVec v).cur.vec = v := rfl
@[simp] theorem State.withVec_cur_queues (s : State) (v : VecPart) : (s.withVec v).cur.queues = s.cur.queues := rfl
@[simp] theorem State.withVec_cur_board (s : State) (v : VecPart) : (s.withVec v).cur.board = s.cur.board := rfl
@[simp] theorem State.withVec_cur_lateHeld (s : State) (v : VecPart) : (s.withVec v).cur.lateHeld = s.cur.lateHeld := rfl
@[simp] theorem State.withVec_cur_lateStop (s : State) (v : VecPart) : (s.withVec v).cur.lateStop = s.cur.lateStop := rfl
@[simp] theorem State.withVec_cur_panelLate (s : State) (v : VecPart) : (s.withVec v).cur.panelLate = s.cur.panelLate := rfl
@[simp] theorem State.withVec_cur_watchHeld (s : State) (v : VecPart) : (s.withVec v).cur.watchHeld = s.cur.watchHeld := rfl
@[simp] theorem State.withVec_cur_preempt (s : State) (v : VecPart) : (s.withVec v).cur.preempt = s.cur.preempt := rfl
@[simp] theorem State.withVec_cur_moving (s : State) (v : VecPart) : (s.withVec v).cur.moving = s.cur.moving := rfl
@[simp] theorem State.withVec_cur_iword (s : State) (v : VecPart) : (s.withVec v).cur.iword = s.cur.iword := rfl
@[simp] theorem State.withVec_cur_slot (s : State) (v : VecPart) : (s.withVec v).cur.slot = s.cur.slot := rfl
@[simp] theorem State.withVec_cur_reissue (s : State) (v : VecPart) : (s.withVec v).cur.reissue = s.cur.reissue := rfl
@[simp] theorem State.withVec_cur_conv (s : State) (v : VecPart) : (s.withVec v).cur.conv = s.cur.conv := rfl
@[simp] theorem State.withVec_cur_history (s : State) (v : VecPart) : (s.withVec v).cur.history = s.cur.history := rfl
@[simp] theorem State.withVec_cur_suspended (s : State) (v : VecPart) : (s.withVec v).cur.suspended = s.cur.suspended := rfl
@[simp] theorem State.withVec_cur_vwait (s : State) (v : VecPart) : (s.withVec v).cur.vwait = s.cur.vwait := rfl
@[simp] theorem State.withVec_cur_amo (s : State) (v : VecPart) : (s.withVec v).cur.amo = s.cur.amo := rfl
@[simp] theorem State.withVec_cur_note (s : State) (v : VecPart) : (s.withVec v).cur.note = s.cur.note := rfl
@[simp] theorem State.withVec_cur_usedLarder (s : State) (v : VecPart) : (s.withVec v).cur.usedLarder = s.cur.usedLarder := rfl
@[simp] theorem State.withVec_cur_restarted (s : State) (v : VecPart) : (s.withVec v).cur.restarted = s.cur.restarted := rfl
@[simp] theorem State.withVec_cur_taskCtx (s : State) (v : VecPart) : (s.withVec v).cur.taskCtx = s.cur.taskCtx := rfl
@[simp] theorem State.withVec_cur_age (s : State) (v : VecPart) : (s.withVec v).cur.age = s.cur.age := rfl
@[simp] theorem State.withVec_cur_gen (s : State) (v : VecPart) : (s.withVec v).cur.gen = s.cur.gen := rfl

/-! ### The strand after State.raise -/

@[simp] theorem State.raise_cur_id (s : State) (f : BitVec 5) : (s.raise f).cur.id = s.cur.id := rfl
@[simp] theorem State.raise_cur_part (s : State) (f : BitVec 5) : (s.raise f).cur.part = s.cur.part := rfl
@[simp] theorem State.raise_cur_run (s : State) (f : BitVec 5) : (s.raise f).cur.run = s.cur.run := rfl
@[simp] theorem State.raise_cur_task (s : State) (f : BitVec 5) : (s.raise f).cur.task = s.cur.task := rfl
@[simp] theorem State.raise_cur_pc (s : State) (f : BitVec 5) : (s.raise f).cur.pc = s.cur.pc := rfl
@[simp] theorem State.raise_cur_x (s : State) (f : BitVec 5) : (s.raise f).cur.x = s.cur.x := rfl
@[simp] theorem State.raise_cur_level (s : State) (f : BitVec 5) : (s.raise f).cur.level = s.cur.level := rfl
@[simp] theorem State.raise_cur_frm (s : State) (f : BitVec 5) : (s.raise f).cur.frm = s.cur.frm := rfl
@[simp] theorem State.raise_cur_fflags (s : State) (f : BitVec 5) : (s.raise f).cur.fflags = s.cur.fflags ||| f := rfl
@[simp] theorem State.raise_cur_lanegrant (s : State) (f : BitVec 5) : (s.raise f).cur.lanegrant = s.cur.lanegrant := rfl
@[simp] theorem State.raise_cur_lidx (s : State) (f : BitVec 5) : (s.raise f).cur.lidx = s.cur.lidx := rfl
@[simp] theorem State.raise_cur_trpc (s : State) (f : BitVec 5) : (s.raise f).cur.trpc = s.cur.trpc := rfl
@[simp] theorem State.raise_cur_trRk (s : State) (f : BitVec 5) : (s.raise f).cur.trRk = s.cur.trRk := rfl
@[simp] theorem State.raise_cur_trCode (s : State) (f : BitVec 5) : (s.raise f).cur.trCode = s.cur.trCode := rfl
@[simp] theorem State.raise_cur_trval (s : State) (f : BitVec 5) : (s.raise f).cur.trval = s.cur.trval := rfl
@[simp] theorem State.raise_cur_trIn (s : State) (f : BitVec 5) : (s.raise f).cur.trIn = s.cur.trIn := rfl
@[simp] theorem State.raise_cur_trLvl (s : State) (f : BitVec 5) : (s.raise f).cur.trLvl = s.cur.trLvl := rfl
@[simp] theorem State.raise_cur_trvec (s : State) (f : BitVec 5) : (s.raise f).cur.trvec = s.cur.trvec := rfl
@[simp] theorem State.raise_cur_trscratch (s : State) (f : BitVec 5) : (s.raise f).cur.trscratch = s.cur.trscratch := rfl
@[simp] theorem State.raise_cur_trpend (s : State) (f : BitVec 5) : (s.raise f).cur.trpend = s.cur.trpend := rfl
@[simp] theorem State.raise_cur_trslot (s : State) (f : BitVec 5) : (s.raise f).cur.trslot = s.cur.trslot := rfl
@[simp] theorem State.raise_cur_trpages (s : State) (f : BitVec 5) : (s.raise f).cur.trpages = s.cur.trpages := rfl
@[simp] theorem State.raise_cur_trpcount (s : State) (f : BitVec 5) : (s.raise f).cur.trpcount = s.cur.trpcount := rfl
@[simp] theorem State.raise_cur_vowner (s : State) (f : BitVec 5) : (s.raise f).cur.vowner = s.cur.vowner := rfl
@[simp] theorem State.raise_cur_ctxid (s : State) (f : BitVec 5) : (s.raise f).cur.ctxid = s.cur.ctxid := rfl
@[simp] theorem State.raise_cur_arenabase (s : State) (f : BitVec 5) : (s.raise f).cur.arenabase = s.cur.arenabase := rfl
@[simp] theorem State.raise_cur_arenabound (s : State) (f : BitVec 5) : (s.raise f).cur.arenabound = s.cur.arenabound := rfl
@[simp] theorem State.raise_cur_watch (s : State) (f : BitVec 5) : (s.raise f).cur.watch = s.cur.watch := rfl
@[simp] theorem State.raise_cur_wctl (s : State) (f : BitVec 5) : (s.raise f).cur.wctl = s.cur.wctl := rfl
@[simp] theorem State.raise_cur_strandid (s : State) (f : BitVec 5) : (s.raise f).cur.strandid = s.cur.strandid := rfl
@[simp] theorem State.raise_cur_coreid (s : State) (f : BitVec 5) : (s.raise f).cur.coreid = s.cur.coreid := rfl
@[simp] theorem State.raise_cur_cycle (s : State) (f : BitVec 5) : (s.raise f).cur.cycle = s.cur.cycle := rfl
@[simp] theorem State.raise_cur_convoys (s : State) (f : BitVec 5) : (s.raise f).cur.convoys = s.cur.convoys := rfl
@[simp] theorem State.raise_cur_vec (s : State) (f : BitVec 5) : (s.raise f).cur.vec = s.cur.vec := rfl
@[simp] theorem State.raise_cur_queues (s : State) (f : BitVec 5) : (s.raise f).cur.queues = s.cur.queues := rfl
@[simp] theorem State.raise_cur_board (s : State) (f : BitVec 5) : (s.raise f).cur.board = s.cur.board := rfl
@[simp] theorem State.raise_cur_lateHeld (s : State) (f : BitVec 5) : (s.raise f).cur.lateHeld = s.cur.lateHeld := rfl
@[simp] theorem State.raise_cur_lateStop (s : State) (f : BitVec 5) : (s.raise f).cur.lateStop = s.cur.lateStop := rfl
@[simp] theorem State.raise_cur_panelLate (s : State) (f : BitVec 5) : (s.raise f).cur.panelLate = s.cur.panelLate := rfl
@[simp] theorem State.raise_cur_watchHeld (s : State) (f : BitVec 5) : (s.raise f).cur.watchHeld = s.cur.watchHeld := rfl
@[simp] theorem State.raise_cur_preempt (s : State) (f : BitVec 5) : (s.raise f).cur.preempt = s.cur.preempt := rfl
@[simp] theorem State.raise_cur_moving (s : State) (f : BitVec 5) : (s.raise f).cur.moving = s.cur.moving := rfl
@[simp] theorem State.raise_cur_iword (s : State) (f : BitVec 5) : (s.raise f).cur.iword = s.cur.iword := rfl
@[simp] theorem State.raise_cur_slot (s : State) (f : BitVec 5) : (s.raise f).cur.slot = s.cur.slot := rfl
@[simp] theorem State.raise_cur_reissue (s : State) (f : BitVec 5) : (s.raise f).cur.reissue = s.cur.reissue := rfl
@[simp] theorem State.raise_cur_conv (s : State) (f : BitVec 5) : (s.raise f).cur.conv = s.cur.conv := rfl
@[simp] theorem State.raise_cur_history (s : State) (f : BitVec 5) : (s.raise f).cur.history = s.cur.history := rfl
@[simp] theorem State.raise_cur_suspended (s : State) (f : BitVec 5) : (s.raise f).cur.suspended = s.cur.suspended := rfl
@[simp] theorem State.raise_cur_vwait (s : State) (f : BitVec 5) : (s.raise f).cur.vwait = s.cur.vwait := rfl
@[simp] theorem State.raise_cur_amo (s : State) (f : BitVec 5) : (s.raise f).cur.amo = s.cur.amo := rfl
@[simp] theorem State.raise_cur_note (s : State) (f : BitVec 5) : (s.raise f).cur.note = s.cur.note := rfl
@[simp] theorem State.raise_cur_usedLarder (s : State) (f : BitVec 5) : (s.raise f).cur.usedLarder = s.cur.usedLarder := rfl
@[simp] theorem State.raise_cur_restarted (s : State) (f : BitVec 5) : (s.raise f).cur.restarted = s.cur.restarted := rfl
@[simp] theorem State.raise_cur_taskCtx (s : State) (f : BitVec 5) : (s.raise f).cur.taskCtx = s.cur.taskCtx := rfl
@[simp] theorem State.raise_cur_age (s : State) (f : BitVec 5) : (s.raise f).cur.age = s.cur.age := rfl
@[simp] theorem State.raise_cur_gen (s : State) (f : BitVec 5) : (s.raise f).cur.gen = s.cur.gen := rfl

end Sys2Proof.Machine
end

