-- ==== Sys2Proof/Laws/Ops.lean ====
section
/-! SUPPORT. Laws/Ops.lean: what each shared operation over registers, memory, traps, messages and port groups can do, said
once. -/

namespace Sys2Proof.Machine

/-! ### Numbers -/

/-- The signed value of a field. -/
theorem signed_eq_sval {n : Nat} (h : 0 < n) (v : Nat) : signed n v = sval n v := by
  unfold signed sval
  rw [BitVec.toInt_eq_toNat_cond, BitVec.toNat_ofNat]
  have h2 : 2 ^ n = 2 * 2 ^ (n - 1) := by rw [← pow_succ']; congr 1; omega
  by_cases hc : v % 2 ^ n < 2 ^ (n - 1)
  · rw [if_pos hc, if_pos (by omega)]
  · rw [if_neg hc, if_neg (by omega)]

/-- An integer modulo a power of two. -/
theorem wrapTo_eq_nval (n : Nat) (v : Int) : wrapTo n v = nval n v := by
  unfold wrapTo nval
  rw [BitVec.toNat_ofInt]

/-! ### Results of parcels -/

/-- A scalar register written: x0 keeps nothing (R126). -/
theorem Strand.setX_eq (c : Strand) (d : XReg) (v : Word) :
    c.setX d v = { c with x := if d = 0 then c.x else c.x.set d.toNat v } := by
  unfold Strand.setX
  by_cases h : d = 0
  · rw [if_pos h, if_pos h]
  · rw [if_neg h, if_neg h]

/-- A parcel that writes one scalar register. -/
theorem State.result_eq (s : State) (d : XReg) (v : Word) : s.result d v = .next (s.withResult d v 4) := by
  unfold State.result State.setX
  rw [Strand.setX_eq]
  rfl

/-- A 64-bit word that writes one scalar register. -/
theorem State.setX_next8 (s : State) (d : XReg) (v : Word) : (s.setX d v).next8 = s.withResult d v 8 := by
  unfold State.setX
  rw [Strand.setX_eq]
  rfl

/-! ### Translation and access: only the TLB and the free values move -/

/-- What filling the TLB changes. -/
theorem State.fillTlb_state (s : State) (e : TlbEntry) : ∃ tlb free, s.fillTlb e = { s with tlb := tlb, free := free } := by
  unfold State.fillTlb State.takeFree
  simp only
  repeat' split
  all_goals exact ⟨_, _, rfl⟩

/-- What finding a leaf changes. -/
theorem State.findLeaf_state (s : State) (v : Via) (va : Nat) :
    ∃ tlb free, (s.findLeaf v va).2 = { s with tlb := tlb, free := free } := by
  unfold State.findLeaf State.takeFree
  simp only
  repeat' split
  all_goals first
    | exact ⟨s.tlb, s.free, rfl⟩
    | exact ⟨s.tlb, s.free + 1, rfl⟩
    | exact s.fillTlb_state _

/-- What choosing a leaf or a Landing region changes. -/
theorem State.leafOf_state (s : State) (v : Via) (lvl : Level) (va : Nat) :
    ∃ tlb free, (s.leafOf v lvl va).2 = { s with tlb := tlb, free := free } := by
  unfold State.leafOf
  split
  · exact ⟨s.tlb, s.free, rfl⟩
  · have h := s.findLeaf_state v va
    generalize s.findLeaf v va = r at h
    obtain ⟨x | x, t⟩ := r
    · exact h
    · exact h

/-- What a translation changes. -/
theorem State.translate_state (s : State) (v : Via) (lvl : Level) (va : Nat) (n : Need) (b : Bool) :
    ∃ tlb free, (s.translate v lvl va n b).2 = { s with tlb := tlb, free := free } := by
  unfold State.translate
  have h := s.leafOf_state v lvl va
  generalize s.leafOf v lvl va = r at h
  obtain ⟨x | x, t⟩ := r
  · exact h
  · exact h

/-- What the checks of an access change (R134). -/
theorem State.access_state (s : State) (ea : Word) (n : Nat) (need : Need) :
    ∃ tlb free, (s.access ea n need).2 = { s with tlb := tlb, free := free } := by
  unfold State.access
  split
  · exact ⟨s.tlb, s.free, rfl⟩
  · split
    · exact ⟨s.tlb, s.free, rfl⟩
    · exact s.translate_state _ _ _ _ _

/-! ### Any order (log 9) -/

/-- A shuffle orders the same elements anew, and takes one free value for each. -/
theorem State.shuffle_spec {α : Type} (s : State) (l : List α) :
    (s.shuffle l).1.Perm l ∧ (s.shuffle l).2 = { s with free := s.free + l.length } := by
  induction l with
  | nil => exact ⟨.refl _, rfl⟩
  | cons x t ih =>
    obtain ⟨hp, hs⟩ := ih
    unfold State.shuffle
    generalize hr : s.shuffle t = r at hp hs ⊢
    obtain ⟨ys, s1⟩ := r
    simp only at hp hs
    subst hs
    refine ⟨?_, rfl⟩
    refine List.perm_middle.trans (.cons x ?_)
    rw [List.take_append_drop]
    exact hp

/-! ### Bytes -/

/-- Setting A and D changes memory and the TLB alone. -/
theorem State.touch_state (s : State) (v : Via) (x : Xlat) (n : Need) :
    ∃ mem tlb, s.touch v x n = { s with mem := mem, tlb := tlb } := by
  unfold State.touch State.touchLeaf
  repeat' split
  all_goals exact ⟨_, _, rfl⟩

/-- A byte outside the leaf's entry reads as before (R222). -/
theorem State.touch_read (s : State) (v : Via) (x : Xlat) (n : Need) (a : Nat) (h : x.spares a 1) :
    Memory.read (s.touch v x n).mem a = Memory.read s.mem a := by
  unfold State.touch State.touchLeaf
  cases hx : x.leaf with
  | none => rfl
  | some l =>
    simp only
    repeat' split
    · rfl
    · rfl
    · exact Memory.read_writeLE_of_out _ _ _ _ _ (by have := h l hx; omega)

/-- A byte of a range whose key is set stands under that key. -/
theorem get_setKeys_in (keys : SMap Nat) (a n key i : Nat) (h : i < n) : SMap.get 0 (setKeys keys a n key) (a + i) = key := by
  unfold setKeys
  rw [SMap.get_setRange, if_pos (by simp; omega)]
  simp [List.getD_eq_getElem?_getD, h]

/-- A byte outside a range whose key is set keeps its own. -/
theorem get_setKeys_out (keys : SMap Nat) (a n key b : Nat) (h : b < a ∨ a + n ≤ b) :
    SMap.get 0 (setKeys keys a n key) b = SMap.get 0 keys b := by
  unfold setKeys
  rw [SMap.get_setRange, if_neg (by simp; omega)]

/-- The bytes written at a place are read there. -/
theorem State.readPlace_writePlace (s : State) (p : Place) (n v : Nat) : (s.writePlace p n v).readPlace p n = v % 256 ^ n := by
  unfold State.writePlace State.readPlace
  cases p.host
  · have hk : ∀ i < n, SMap.get 0 (setKeys s.keys p.addr n p.key) (p.addr + i) = p.key := fun i hi => get_setKeys_in _ _ _ _ _ hi
    simp +contextual [Memory.readLE_writeLE_self, State.keyAt, hk]
  · simp [Memory.readLE_writeLE_self]

/-- A write at a place changes the memory it names alone. -/
theorem State.writePlace_state (s : State) (p : Place) (n v : Nat) :
    ∃ mem keys hostMem, s.writePlace p n v = { s with mem := mem, keys := keys, hostMem := hostMem } := by
  unfold State.writePlace
  split
  · exact ⟨s.mem, s.keys, _, rfl⟩
  · exact ⟨_, _, s.hostMem, rfl⟩

/-- A byte that the write does not meet reads as before. -/
theorem State.readPlace_writePlace_ne (s : State) (p : Place) (n v : Nat) (q : Place) (h : p.apart n q 1) :
    (s.writePlace p n v).readPlace q 1 = s.readPlace q 1 := by
  unfold State.writePlace State.readPlace
  unfold Place.apart at h
  cases hp : p.host <;> cases hq : q.host <;> simp [hp, hq] at h ⊢
  · have hm : (s.mem.writeLE p.addr n v).read q.addr = s.mem.read q.addr := Memory.read_writeLE_of_out _ _ _ _ _ (by omega)
    have hk : SMap.get 0 (setKeys s.keys p.addr n p.key) q.addr = SMap.get 0 s.keys q.addr := get_setKeys_out _ _ _ _ _ (by omega)
    simp [State.byteUnder, State.keyAt, State.memoryKey, Memory.readLE, hm, hk]
  · rfl
  · exact Memory.readLE_writeLE_of_out _ _ _ _ _ _ (by omega)

/-- A doorbell changes the agenda alone (R90). -/
theorem State.bell_state (s : State) (part va n : Nat) : ∃ agenda, s.bell part va n = { s with agenda := agenda } := by
  unfold State.bell
  split
  · exact ⟨s.agenda, rfl⟩
  · split
    · simp only
      split <;> split <;> exact ⟨_, rfl⟩
    · exact ⟨s.agenda, rfl⟩

/-- What a store changes: memory, host memory, the TLB and the agenda. -/
theorem State.storeAt_state (s : State) (u : Via) (va : Nat) (x : Xlat) (n v : Nat) :
    ∃ mem keys hostMem tlb agenda, s.storeAt u va x n v =
      { s with mem := mem, keys := keys, hostMem := hostMem, tlb := tlb, agenda := agenda } := by
  unfold State.storeAt
  obtain ⟨m, t, h1⟩ := s.touch_state u x .store
  rw [h1]
  obtain ⟨m2, k, hm, h2⟩ := ({ s with mem := m, tlb := t } : State).writePlace_state x.place n v
  rw [h2]
  obtain ⟨g, h3⟩ := State.bell_state { s with mem := m2, keys := k, hostMem := hm, tlb := t } u.part va n
  exact ⟨m2, k, hm, t, g, h3⟩

/-! ### Taking a trap (R337, R341) -/

/-- Counting an event changes the counters of cores alone. -/
theorem State.count_state (s : State) (ev : BitVec 8) (n : Nat) : ∃ cores, s.count ev n = { s with cores := cores } := ⟨_, rfl⟩

/-- Counting a trap changes the counters of cores alone. -/
theorem State.countTrap_state (s : State) (c : Cause) : ∃ cores, s.countTrap c = { s with cores := cores } := by
  unfold State.countTrap
  split
  · exact ⟨_, rfl⟩
  · exact ⟨_, rfl⟩

/-- A trap with IN 0 is entered as R337 says. -/
theorem State.takeTrap_entered (s : State) (t : Trap) (hf : s.cur.level ≠ .f) (hi : s.cur.trIn = false) :
    s.Entered (s.takeTrap t) t.tpc t.slot t.cause t.rk t.tval := by
  obtain ⟨k, hk⟩ := s.countTrap_state t.cause
  unfold State.takeTrap
  rw [hk]
  simp only [if_neg hf, hi, Bool.false_eq_true, if_false]
  unfold State.listPages
  unfold State.Entered
  split <;> repeat' constructor

/-- A trap that reports no page writes no memory. -/
theorem State.takeTrap_mem (s : State) (t : Trap) (hf : s.cur.level ≠ .f) (hi : s.cur.trIn = false) (hp : t.pages = []) :
    (s.takeTrap t).mem = s.mem := by
  obtain ⟨k, hk⟩ := s.countTrap_state t.cause
  unfold State.takeTrap
  rw [hk]
  simp only [if_neg hf, hi, Bool.false_eq_true, if_false]
  unfold State.listPages
  rw [if_pos hp]
  rfl

/-- A trap of the word or parcel at pc. -/
theorem State.trap_entered (s : State) (c : Cause) (v : Word) (hf : s.cur.level ≠ .f) (hi : s.cur.trIn = false) :
    s.Entered (s.trap c v) (s.cur.pc - 8 * s.cur.slot.setWidth 64) s.cur.slot c 0 v := s.takeTrap_entered _ hf hi

/-- A trap at F level stops the strand (log 12). -/
theorem State.takeTrap_atF (s : State) (t : Trap) (hf : s.cur.level = .f) :
    ∃ cores, s.takeTrap t = { s with cores := cores, cur := { s.cur with run := .fTrap, note := some t } } := by
  obtain ⟨k, hk⟩ := s.countTrap_state t.cause
  refine ⟨k, ?_⟩
  unfold State.takeTrap
  rw [hk]
  exact if_pos (c := s.cur.level = .f) hf

/-! ### Port groups -/

/-- One group changed. -/
theorem State.mapGroup_eq (s : State) (g : Nat) (h : g < 24) (f : Group → Group) :
    s.mapGroup g f = { s with groups := s.groups.set g (f s.groups[g]) } := by
  have hv : (Vector.ofFn fun i : Fin 24 => if i.val = g then f s.groups[i] else s.groups[i]) = s.groups.set g (f s.groups[g]) := by
    ext i hi : 1
    rw [Vector.getElem_ofFn, Vector.getElem_set]
    by_cases hg : i = g
    · subst hg; rw [if_pos rfl, if_pos rfl]; rfl
    · rw [if_neg hg, if_neg (Ne.symm hg)]; rfl
  unfold State.mapGroup
  rw [hv]

/-- A group by number. -/
theorem State.groupD_eq (s : State) (g : Nat) (h : g < 24) : s.groupD g = s.groups[g] := by
  unfold State.groupD
  rw [Vector.getElem?_eq_getElem h]
  rfl

/-! ### Messages (R380 to R382, R406) -/

/-- The form of a request as the model checks it. -/
theorem requestFormed_iff (m : Msg) (used bits : List (Nat × Nat)) :
    requestFormed m used bits ↔ msgType m = 1 ∧ headerOk m = true ∧ reservedZero m used = true ∧ flagsOk m bits = true := by
  unfold requestFormed headerOk reservedZero flagsOk
  simp only [Bool.and_eq_true, decide_eq_true_eq, List.all_eq_true, Bool.or_eq_true, List.any_eq_true]
  constructor
  · rintro ⟨h1, h2, h3, h4, h5, h6, h7, h8, hb, hf⟩
    refine ⟨h1, ⟨⟨⟨⟨⟨⟨⟨⟨h3, by omega⟩, by omega⟩, h2⟩, h4⟩, h5⟩, h6⟩, h7⟩, h8⟩, fun p hp => ?_, hf⟩
    obtain ⟨b, i⟩ := p
    by_cases hu : ∃ u ∈ used, u.1 ≤ i ∧ i < u.1 + u.2
    · exact .inr hu
    · exact .inl (hb i b (List.mem_zipIdx_iff_getElem?.1 hp) fun u hm hc => hu ⟨u, hm, hc⟩)
  · rintro ⟨h1, ⟨⟨⟨⟨⟨⟨⟨⟨h3, _⟩, _⟩, h2⟩, h4⟩, h5⟩, h6⟩, h7⟩, h8⟩, hb, hf⟩
    refine ⟨h1, h2, h3, h4, h5, h6, h7, h8, fun i b hi hu => ?_, hf⟩
    obtain h | ⟨u, hm, hc⟩ := hb (b, i) (List.mem_zipIdx_iff_getElem?.2 hi)
    · exact h
    · exact absurd hc (hu u hm)

/-- An accepted request does what its verb does, in its session. -/
theorem request_accepts {s : State} {m : Msg} {verb : Nat} {used bits : List (Nat × Nat)} {x : Session}
    (h : s.Accepts m verb used bits x) (f : Session → State → State) :
    request verb used bits m s f = .next (f x (s.heard x.num m.path)) := by
  obtain ⟨hc, hv, hf, hp, hx, hw⟩ := h
  obtain ⟨h1, h2, h3, h4⟩ := (requestFormed_iff m used bits).1 hf
  unfold request
  simp [hc, hv, h1, h2, h3, h4, hp, hx, hw]

end Sys2Proof.Machine
end

