-- ==== Sys2Proof/Laws/Vector.lean ====
section
/-! SUPPORT. Laws/Vector.lean: what the write of a vector element, of the elements of a list and of a whole vector or mask
destination does, said once: the terms of Safety.lean hold of the operations of Operands.lean. -/

namespace Sys2Proof.Machine

/-! ### Where elements stand -/

/-- The element widths of the words. -/
def IsWidth (w : Nat) : Prop := w = 4 ∨ w = 8 ∨ w = 16 ∨ w = 32 ∨ w = 64

/-- An element that lies in the strand's registers: in matrix mode, in a granted slice (R264). -/
def Strand.Fits (c : Strand) (e : Nat) : Prop := c.vec.mmode = true → c.vec.vnreg = 64 ∧ e / 128 < c.lanes

/-- A register holds 4,096 bits for each lane group at 64 registers. -/
theorem Strand.lanes_le_regBytes (c : Strand) (h : c.vec.vnreg = 64) : c.lanes * 512 ≤ c.regBytes := by
  unfold Strand.regBytes
  rw [h]
  by_cases hv : c.vec.virt = true
  · simp only [hv, if_true]; exact le_max_right _ _
  · simp [hv]

/-- Two elements of an operand share no bit. -/
theorem Strand.elemBit_apart (c : Strand) (r : Nat) {w e k : Nat} (hw : IsWidth w) (he : c.Fits e) (hk : c.Fits k) (h : e ≠ k) :
    c.elemBit r w e + w ≤ c.elemBit r w k ∨ c.elemBit r w k + w ≤ c.elemBit r w e := by
  unfold Strand.elemBit
  by_cases hm : c.vec.mmode = true
  · simp only [hm, if_true]
    have hR := c.lanes_le_regBytes (he hm).1
    have hq := (he hm).2
    have hq' := (hk hm).2
    generalize c.regBytes = R at *
    generalize c.lanes = L at *
    rcases Nat.lt_trichotomy (e % 128 * w / 4096) (k % 128 * w / 4096) with ha | ha | ha
    · left
      have h1 : (r + e % 128 * w / 4096 + 1) * R ≤ (r + k % 128 * w / 4096) * R := Nat.mul_le_mul_right R (by omega)
      rw [Nat.add_mul, Nat.one_mul] at h1
      obtain rfl | rfl | rfl | rfl | rfl := hw <;> omega
    · rw [ha]
      generalize (r + k % 128 * w / 4096) * R * 8 = B
      obtain rfl | rfl | rfl | rfl | rfl := hw <;> omega
    · right
      have h1 : (r + k % 128 * w / 4096 + 1) * R ≤ (r + e % 128 * w / 4096) * R := Nat.mul_le_mul_right R (by omega)
      rw [Nat.add_mul, Nat.one_mul] at h1
      obtain rfl | rfl | rfl | rfl | rfl := hw <;> omega
  · simp only [hm, Bool.false_eq_true, if_false]
    obtain rfl | rfl | rfl | rfl | rfl := hw <;> omega

/-- An element starts at a multiple of 4 bits, and of 8 where it is a byte or wider. -/
theorem Strand.elemBit_aligned (c : Strand) (r : Nat) {w : Nat} (e : Nat) (hw : IsWidth w) :
    c.elemBit r w e % 4 = 0 ∧ (w ≠ 4 → c.elemBit r w e % 8 = 0) := by
  unfold Strand.elemBit
  by_cases hm : c.vec.mmode = true
  · simp only [hm, if_true]
    generalize (r + e % 128 * w / 4096) * c.regBytes = B
    obtain rfl | rfl | rfl | rfl | rfl := hw <;> omega
  · simp only [hm, Bool.false_eq_true, if_false]
    generalize r * c.regBytes = B
    obtain rfl | rfl | rfl | rfl | rfl := hw <;> omega

/-- Where an element of an operand ends: within the registers of its group in matrix mode, elsewhere with its bits. -/
theorem Strand.elemBit_lt (c : Strand) (r : Nat) {w e : Nat} (hw : IsWidth w) (he : c.Fits e) :
    r * c.regBytes * 8 ≤ c.elemBit r w e ∧
      c.elemBit r w e + w ≤ if c.vec.mmode then (r + c.groupSize w) * c.regBytes * 8 else r * c.regBytes * 8 + (e + 1) * w := by
  unfold Strand.elemBit Strand.groupSize
  by_cases hm : c.vec.mmode = true
  · simp only [hm, if_true]
    have hR := c.lanes_le_regBytes (he hm).1
    have hq := (he hm).2
    generalize c.regBytes = R at *
    generalize c.lanes = L at *
    have h1 : (r + e % 128 * w / 4096 + 1) * R ≤ (r + max 1 (w / 32)) * R :=
      Nat.mul_le_mul_right R (by obtain rfl | rfl | rfl | rfl | rfl := hw <;> omega)
    have h2 : r * R ≤ (r + e % 128 * w / 4096) * R := Nat.mul_le_mul_right R (by omega)
    rw [Nat.add_mul _ 1, Nat.one_mul] at h1
    obtain rfl | rfl | rfl | rfl | rfl := hw <;> omega
  · simp only [hm, Bool.false_eq_true, if_false]
    rw [Nat.add_mul, Nat.one_mul]
    omega

/-! ### One element written -/

/-- The strand whose vector registers are others. -/
def Strand.onV (c : Strand) (v : SMap Byte) : Strand := { c with vec := { c.vec with v := v } }

/-- Element e of an operand in other vector registers. -/
theorem Strand.elem_onV (c : Strand) (v : SMap Byte) (r : VReg) (w e : Nat) :
    ({ c with vec := { c.vec with v := v } } : Strand).elem r w e =
      if w = 4 then ((Memory.read v (c.elemBit r.toNat w e / 8)).toNat / 2 ^ (c.elemBit r.toNat w e % 8)) % 16
      else Memory.readLE v (c.elemBit r.toNat w e / 8) (w / 8) := rfl

theorem IsWidth.pow {w : Nat} (h : IsWidth w) (h4 : w ≠ 4) : 256 ^ (w / 8) = 2 ^ w := by
  obtain rfl | rfl | rfl | rfl | rfl := h <;> simp_all

/-- The element written reads back at its width. -/
theorem Strand.elem_putElem_self (c : Strand) (v : SMap Byte) (r : VReg) {w : Nat} (e x : Nat) (hw : IsWidth w) :
    ({ c with vec := { c.vec with v := c.putElem v r w e x } } : Strand).elem r w e = x % 2 ^ w := by
  rw [Strand.elem_onV]
  unfold Strand.putElem
  by_cases h4 : w = 4
  · subst h4
    have ha := (c.elemBit_aligned r.toNat e hw).1
    generalize c.elemBit r.toNat 4 e = b at *
    simp only [if_true, Memory.read_write_self, BitVec.toNat_ofNat]
    have ho := (Memory.read v (b / 8)).isLt
    obtain h | h : b % 8 = 0 ∨ b % 8 = 4 := by omega
    · simp only [h, if_true]; omega
    · simp only [h]; rw [if_neg (by decide)]; omega
  · simp only [if_neg h4, Memory.readLE_writeLE_self]
    rw [hw.pow h4]

/-- Another element reads as before. -/
theorem Strand.elem_putElem_ne (c : Strand) (v : SMap Byte) (r : VReg) {w e k : Nat} (x : Nat) (hw : IsWidth w)
    (he : c.Fits e) (hk : c.Fits k) (h : k ≠ e) :
    ({ c with vec := { c.vec with v := c.putElem v r w e x } } : Strand).elem r w k =
      ({ c with vec := { c.vec with v := v } } : Strand).elem r w k := by
  have hd := c.elemBit_apart r.toNat hw hk he h
  have h1 := c.elemBit_aligned r.toNat e hw
  have h2 := c.elemBit_aligned r.toNat k hw
  rw [Strand.elem_onV, Strand.elem_onV]
  unfold Strand.putElem
  generalize c.elemBit r.toNat w e = b at *
  generalize c.elemBit r.toNat w k = b' at *
  by_cases h4 : w = 4
  · subst h4
    simp only [if_true]
    by_cases hb : b' / 8 = b / 8
    · rw [hb, Memory.read_write_self, BitVec.toNat_ofNat]
      have ho := (Memory.read v (b / 8)).isLt
      obtain ⟨h, h'⟩ | ⟨h, h'⟩ : (b % 8 = 0 ∧ b' % 8 = 4) ∨ (b % 8 = 4 ∧ b' % 8 = 0) := by omega
      · simp only [h, h', if_true]; omega
      · simp only [h, h']; rw [if_neg (by decide)]; omega
    · rw [Memory.read_write_ne _ _ hb]
  · simp only [if_neg h4]
    have e1 := h1.2 h4
    have e2 := h2.2 h4
    refine Memory.readLE_writeLE_of_out _ _ _ _ _ _ ?_
    obtain rfl | rfl | rfl | rfl | rfl := hw <;> omega

/-- A byte outside the element reads as before. -/
theorem Strand.read_putElem (c : Strand) (v : SMap Byte) (r : VReg) {w : Nat} (e x : Nat) (hw : IsWidth w) {a : Nat}
    (h : a < c.elemBit r.toNat w e / 8 ∨ (c.elemBit r.toNat w e + w + 7) / 8 ≤ a) :
    Memory.read (c.putElem v r w e x) a = Memory.read v a := by
  have h1 := c.elemBit_aligned r.toNat e hw
  unfold Strand.putElem
  generalize c.elemBit r.toNat w e = b at *
  by_cases h4 : w = 4
  · subst h4
    simp only [if_true]
    exact Memory.read_write_ne _ _ (by omega)
  · simp only [if_neg h4]
    have e1 := h1.2 h4
    refine Memory.read_writeLE_of_out _ _ _ _ _ ?_
    obtain rfl | rfl | rfl | rfl | rfl := hw <;> omega

/-! ### The elements of a list written -/

/-- An element of no entry of the list reads as before. -/
theorem Strand.elem_putAll_of_not_mem (c : Strand) (r : VReg) {w : Nat} (hw : IsWidth w) {k : Nat} (hk : c.Fits k)
    (l : List (Nat × Nat)) (v : SMap Byte) (hl : ∀ p ∈ l, c.Fits p.1) (h : ∀ p ∈ l, p.1 ≠ k) :
    ({ c with vec := { c.vec with v := c.putAll v r w l } } : Strand).elem r w k =
      ({ c with vec := { c.vec with v := v } } : Strand).elem r w k := by
  induction l generalizing v with
  | nil => rfl
  | cons p t ih =>
    obtain ⟨e, x⟩ := p
    show ({ c with vec := { c.vec with v := c.putAll (c.putElem v r w e x) r w t } } : Strand).elem r w k = _
    rw [ih _ (fun p hp => hl p (.tail _ hp)) (fun p hp => h p (.tail _ hp))]
    exact c.elem_putElem_ne v r x hw (hl _ (.head _)) hk (Ne.symm (h _ (.head _)))

/-- Where the entries agree with a function, its value stands in each of their elements. -/
theorem Strand.elem_putAll_of_mem (c : Strand) (r : VReg) {w : Nat} (hw : IsWidth w) {k : Nat} (hk : c.Fits k)
    (f : Nat → Nat) (l : List (Nat × Nat)) (v : SMap Byte) (hl : ∀ p ∈ l, c.Fits p.1) (hf : ∀ p ∈ l, p.2 = f p.1)
    (h : ∃ p ∈ l, p.1 = k) :
    ({ c with vec := { c.vec with v := c.putAll v r w l } } : Strand).elem r w k = f k % 2 ^ w := by
  induction l generalizing v with
  | nil => obtain ⟨p, hp, _⟩ := h; cases hp
  | cons p t ih =>
    obtain ⟨e, x⟩ := p
    show ({ c with vec := { c.vec with v := c.putAll (c.putElem v r w e x) r w t } } : Strand).elem r w k = _
    by_cases ht : ∃ p ∈ t, p.1 = k
    · exact ih _ (fun p hp => hl p (.tail _ hp)) (fun p hp => hf p (.tail _ hp)) ht
    · rw [c.elem_putAll_of_not_mem r hw hk t _ (fun p hp => hl p (.tail _ hp)) fun p hp hpk => ht ⟨p, hp, hpk⟩]
      obtain ⟨p, hp, hpk⟩ := h
      obtain h0 | h0 := List.mem_cons.1 hp
      · have hek : e = k := by rw [← hpk, h0]
        have hx : x = f e := hf _ (.head _)
        subst hek
        rw [c.elem_putElem_self v r e x hw, hx]
      · exact absurd ⟨p, h0, hpk⟩ ht

/-- A byte outside the elements of the list reads as before. -/
theorem Strand.read_putAll (c : Strand) (r : VReg) {w : Nat} (hw : IsWidth w) {a : Nat} (l : List (Nat × Nat)) (v : SMap Byte)
    (h : ∀ p ∈ l, a < c.elemBit r.toNat w p.1 / 8 ∨ (c.elemBit r.toNat w p.1 + w + 7) / 8 ≤ a) :
    Memory.read (c.putAll v r w l) a = Memory.read v a := by
  induction l generalizing v with
  | nil => rfl
  | cons p t ih =>
    show Memory.read (c.putAll (c.putElem v r w p.1 p.2) r w t) a = _
    rw [ih _ fun q hq => h q (.tail _ hq), c.read_putElem v r p.1 p.2 hw (h p (.head _))]

/-! ### The tail (R167, R264) -/

/-- A byte of a cleared range reads zero, another as before. -/
theorem read_clearBytes (v : SMap Byte) (lo hi a : Nat) :
    Memory.read (clearBytes v lo hi) a = if lo ≤ a ∧ a < hi then 0 else Memory.read v a := by
  have h := SMap.get_filter Memory.fresh v (fun k => !(decide (lo ≤ k) && decide (k < hi))) a
  refine h.trans ?_
  by_cases hc : lo ≤ a ∧ a < hi
  · rw [if_pos hc]; simp [hc.1, hc.2]; rfl
  · rw [if_neg hc, if_pos]
    · rfl
    · simp only [Bool.not_eq_true', Bool.and_eq_false_iff, decide_eq_false_iff_not]
      omega

/-- Bytes that all read zero make the number zero. -/
theorem readLE_eq_zero (v : SMap Byte) (a n : Nat) (h : ∀ i < n, Memory.read v (a + i) = 0) : Memory.readLE v a n = 0 := by
  induction n generalizing a with
  | zero => rfl
  | succ n ih =>
    rw [Memory.readLE, ih (a + 1) fun i hi => by have := h (i + 1) (by omega); rwa [show a + (i + 1) = a + 1 + i by omega] at this]
    have h0 := h 0 (by omega)
    rw [Nat.add_zero] at h0
    rw [h0]
    rfl

/-- The tail of matrix mode is a list of elements written zero. -/
theorem Strand.foldl_putElem (c : Strand) (r : VReg) (w : Nat) (l : List Nat) (v : SMap Byte) :
    l.foldl (fun v e => c.putElem v r w e 0) v = c.putAll v r w (l.map fun e => (e, 0)) := by
  induction l generalizing v with
  | nil => rfl
  | cons e t ih => exact ih _

/-- The tail that is zeroed, in matrix mode. -/
theorem Strand.zeroTail_mmode (c : Strand) (v : SMap Byte) (r : VReg) (w n : Nat) (hm : c.vec.mmode = true) :
    c.zeroTail v r w n =
      c.putAll v r w (((List.range (128 * c.lanes)).filter fun e => c.vec.vl ≤ e % 128).map fun e => (e, 0)) := by
  unfold Strand.zeroTail
  rw [if_pos hm, Strand.foldl_putElem]

/-- Elsewhere. -/
theorem Strand.zeroTail_vector (c : Strand) (v : SMap Byte) (r : VReg) (w n : Nat) (hm : ¬c.vec.mmode = true) :
    c.zeroTail v r w n =
      clearBytes (if (r.toNat * c.regBytes * 8 + c.vec.vl * w) % 8 = 0 then v else c.putElem v r w c.vec.vl 0)
        ((r.toNat * c.regBytes * 8 + c.vec.vl * w + 7) / 8) ((r.toNat + n) * c.regBytes) := by
  unfold Strand.zeroTail
  rw [if_neg hm]

/-- The elements below vl fit. -/
theorem Strand.fits_of_body (c : Strand) (h64 : c.vec.mmode = true → c.vec.vnreg = 64) {e : Nat} (h : e ∈ c.body) : c.Fits e := by
  intro hm
  refine ⟨h64 hm, ?_⟩
  simp only [Strand.body, hm, if_true, List.mem_filter, List.mem_range] at h
  omega

/-- The elements of the tail fit. -/
theorem Strand.fits_of_tail (c : Strand) (h64 : c.vec.mmode = true → c.vec.vnreg = 64) {w e : Nat} (h : c.InTail w e) : c.Fits e := by
  intro hm
  refine ⟨h64 hm, ?_⟩
  simp only [Strand.InTail, hm, if_true] at h
  omega

/-- The tail reads zero once it is written. -/
theorem Strand.elem_zeroTail_tail (c : Strand) (v : SMap Byte) (r : VReg) {w e : Nat} (hw : IsWidth w)
    (h64 : c.vec.mmode = true → c.vec.vnreg = 64) (h : c.InTail w e) :
    ({ c with vec := { c.vec with v := c.zeroTail v r w (c.groupSize w) } } : Strand).elem r w e = 0 := by
  by_cases hm : c.vec.mmode = true
  · rw [c.zeroTail_mmode _ _ _ _ hm]
    have hin := h
    simp only [Strand.InTail, hm, if_true] at hin
    rw [c.elem_putAll_of_mem r hw (c.fits_of_tail h64 h) (fun _ => 0)]
    · simp
    · intro p hp hm'
      simp only [List.mem_map, List.mem_filter, List.mem_range] at hp
      obtain ⟨x, ⟨hx, _⟩, rfl⟩ := hp
      exact ⟨h64 hm', by show x / 128 < _; omega⟩
    · intro p hp
      simp only [List.mem_map] at hp
      obtain ⟨x, _, rfl⟩ := hp
      rfl
    · exact ⟨(e, 0), List.mem_map.2 ⟨e, List.mem_filter.2 ⟨List.mem_range.2 hin.1, by simpa using hin.2⟩, rfl⟩, rfl⟩
  · rw [c.zeroTail_vector _ _ _ _ hm]
    have hin := h
    simp only [Strand.InTail, hm, Bool.false_eq_true, if_false] at hin
    have hb : ∀ k, c.elemBit r.toNat w k = r.toNat * c.regBytes * 8 + k * w := fun k => by
      simp [Strand.elemBit, hm]
    have hB : (r.toNat + c.groupSize w) * c.regBytes = r.toNat * c.regBytes + c.groupSize w * c.regBytes := Nat.add_mul _ _ _
    rw [Strand.elem_onV, hb, hB]
    generalize r.toNat * c.regBytes = B at *
    generalize c.groupSize w * c.regBytes = G at *
    have hself := c.elem_putElem_self v r c.vec.vl 0 hw
    rw [Strand.elem_onV, hb] at hself
    generalize c.vec.vl = vl at *
    by_cases h4 : w = 4
    · subst h4
      simp only [if_true] at hself ⊢
      rw [read_clearBytes]
      by_cases hc : (B * 8 + vl * 4 + 7) / 8 ≤ (B * 8 + e * 4) / 8
      · rw [if_pos ⟨hc, by omega⟩]; simp
      · rw [if_neg fun h => hc h.1]
        have he : e = vl := by omega
        subst he
        rw [if_neg (by omega)]
        simpa using hself
    · simp only [if_neg h4] at hself ⊢
      refine readLE_eq_zero _ _ _ fun i hi => ?_
      rw [read_clearBytes, if_pos]
      obtain rfl | rfl | rfl | rfl | rfl := hw <;> omega

/-- The elements below vl read as before. -/
theorem Strand.elem_zeroTail_body (c : Strand) (v : SMap Byte) (r : VReg) {w e : Nat} (hw : IsWidth w)
    (h64 : c.vec.mmode = true → c.vec.vnreg = 64) (h : e ∈ c.body) :
    ({ c with vec := { c.vec with v := c.zeroTail v r w (c.groupSize w) } } : Strand).elem r w e =
      ({ c with vec := { c.vec with v := v } } : Strand).elem r w e := by
  by_cases hm : c.vec.mmode = true
  · rw [c.zeroTail_mmode _ _ _ _ hm]
    have hin := h
    simp only [Strand.body, hm, if_true, List.mem_filter, List.mem_range, decide_eq_true_eq] at hin
    rw [c.elem_putAll_of_not_mem r hw (c.fits_of_body h64 h)]
    · intro p hp hm'
      simp only [List.mem_map, List.mem_filter, List.mem_range] at hp
      obtain ⟨x, ⟨hx, _⟩, rfl⟩ := hp
      exact ⟨h64 hm', by show x / 128 < _; omega⟩
    · intro p hp
      simp only [List.mem_map, List.mem_filter, decide_eq_true_eq] at hp
      obtain ⟨x, ⟨_, hx⟩, rfl⟩ := hp
      rintro rfl
      exact absurd hx (by show ¬_; omega)
  · rw [c.zeroTail_vector _ _ _ _ hm]
    have hin := h
    simp only [Strand.body, hm, Bool.false_eq_true, if_false, List.mem_range] at hin
    have hb : ∀ k, c.elemBit r.toNat w k = r.toNat * c.regBytes * 8 + k * w := fun k => by
      simp [Strand.elemBit, hm]
    have hne := c.elem_putElem_ne v r 0 hw (e := c.vec.vl) (k := e) (fun h => absurd h hm) (fun h => absurd h hm) (by omega)
    rw [Strand.elem_onV, Strand.elem_onV, hb] at hne ⊢
    generalize (r.toNat + c.groupSize w) * c.regBytes = G at *
    generalize hBB : r.toNat * c.regBytes = B at *
    generalize c.vec.vl = vl at *
    by_cases h4 : w = 4
    · subst h4
      simp only [if_true] at hne ⊢
      rw [read_clearBytes, if_neg (by omega)]
      by_cases hl : (B * 8 + vl * 4) % 8 = 0
      · rw [if_pos hl]
      · rw [if_neg hl]; exact hne
    · simp only [if_neg h4] at hne ⊢
      have hl : (B * 8 + vl * w) % 8 = 0 := by obtain rfl | rfl | rfl | rfl | rfl := hw <;> omega
      rw [if_pos hl]
      refine Memory.readLE_congr _ _ _ _ fun i hi => ?_
      rw [read_clearBytes, if_neg]
      have : (e + 1) * w ≤ vl * w := Nat.mul_le_mul_right w hin
      rw [Nat.add_mul, Nat.one_mul] at this
      obtain rfl | rfl | rfl | rfl | rfl := hw <;> omega

/-- A byte outside the group and the bytes below vl reads as before. -/
theorem Strand.read_zeroTail (c : Strand) (v : SMap Byte) (r : VReg) {w a : Nat} (hw : IsWidth w)
    (h64 : c.vec.mmode = true → c.vec.vnreg = 64)
    (h : a < r.toNat * c.regBytes ∨ (if c.vec.mmode then r.toNat * c.regBytes + c.groupSize w * c.regBytes
      else max (r.toNat * c.regBytes + c.groupSize w * c.regBytes) (r.toNat * c.regBytes + (c.vec.vl * w + 7) / 8)) ≤ a) :
    Memory.read (c.zeroTail v r w (c.groupSize w)) a = Memory.read v a := by
  have hB : (r.toNat + c.groupSize w) * c.regBytes = r.toNat * c.regBytes + c.groupSize w * c.regBytes := Nat.add_mul _ _ _
  by_cases hm : c.vec.mmode = true
  · rw [c.zeroTail_mmode _ _ _ _ hm]
    simp only [hm, if_true] at h
    refine c.read_putAll r hw _ _ fun p hp => ?_
    simp only [List.mem_map, List.mem_filter, List.mem_range] at hp
    obtain ⟨x, ⟨hx, _⟩, rfl⟩ := hp
    have hlt := c.elemBit_lt r.toNat (w := w) (e := x) hw fun hm' => ⟨h64 hm', by omega⟩
    simp only [hm, if_true, hB] at hlt
    show a < c.elemBit r.toNat w x / 8 ∨ (c.elemBit r.toNat w x + w + 7) / 8 ≤ a
    omega
  · rw [c.zeroTail_vector _ _ _ _ hm]
    simp only [hm, Bool.false_eq_true, if_false] at h
    have hb : ∀ k, c.elemBit r.toNat w k = r.toNat * c.regBytes * 8 + k * w := fun k => by
      simp [Strand.elemBit, hm]
    rw [read_clearBytes, hB]
    have hp := c.read_putElem v r (a := a) c.vec.vl 0 hw
    rw [hb] at hp
    generalize r.toNat * c.regBytes = B at *
    generalize c.groupSize w * c.regBytes = G at *
    generalize c.vec.vl = vl at *
    rw [if_neg (by omega)]
    by_cases hl : (B * 8 + vl * w) % 8 = 0
    · rw [if_pos hl]
    · rw [if_neg hl]
      refine hp ?_
      obtain rfl | rfl | rfl | rfl | rfl := hw <;> omega

/-! ### A whole vector destination (R167, R168) -/

/-- The registers that State.writeVec leaves. -/
def Strand.written (c : Strand) (d : VReg) (w : Nat) (res : List (Nat × Nat)) (off : List Nat) : SMap Byte :=
  let v1 := c.putAll c.vec.v d w res
  let v2 := if c.vec.mz && !c.underMf then c.putAll v1 d w (off.map fun e => (e, 0)) else v1
  if c.vec.tp then c.zeroTail v2 d w (c.groupSize w) else v2

/-- They are as VecWritten says: the results of the active elements, then the masked-off ones, the body and the tail, and
every byte outside. -/
theorem Strand.written_vecWritten (c : Strand) (d : VReg) {w : Nat} (hw : IsWidth w) (act off : List Nat) (f : Nat → Nat)
    (ha : ∀ e ∈ act, e ∈ c.body) (ho : ∀ e ∈ off, e ∈ c.body)
    (hd : (c.vec.mz && !c.underMf) = true → ∀ e ∈ act, e ∉ off) :
    c.VecWritten (c.written d w (act.map fun e => (e, f e)) off) d w act off f := by
  intro h64
  have hfit : ∀ e ∈ c.body, c.Fits e := fun e he => c.fits_of_body h64 he
  have hactf : ∀ p ∈ act.map fun e => (e, f e), c.Fits p.1 := by
    intro p hp
    obtain ⟨x, hx, rfl⟩ := List.mem_map.1 hp
    exact hfit _ (ha x hx)
  have hofff : ∀ p ∈ off.map fun e => (e, 0), c.Fits p.1 := by
    intro p hp
    obtain ⟨x, hx, rfl⟩ := List.mem_map.1 hp
    exact hfit _ (ho x hx)
  have hold : ∀ e, ({ c with vec := { c.vec with v := c.vec.v } } : Strand).elem d w e = c.elem d w e := fun _ => rfl
  -- the elements after the results, and after the masked-off elements
  have h1 : ∀ e, c.Fits e → ({ c with vec := { c.vec with v := c.putAll c.vec.v d w (act.map fun e => (e, f e)) } } : Strand).elem d w e =
      if e ∈ act then f e % 2 ^ w else c.elem d w e := by
    intro e he
    by_cases hm : e ∈ act
    · rw [if_pos hm, c.elem_putAll_of_mem d hw he f _ _ hactf _ ⟨(e, f e), List.mem_map.2 ⟨e, hm, rfl⟩, rfl⟩]
      intro p hp
      obtain ⟨x, _, rfl⟩ := List.mem_map.1 hp
      rfl
    · rw [if_neg hm, c.elem_putAll_of_not_mem d hw he _ _ hactf, hold]
      rintro p hp rfl
      obtain ⟨x, hx, rfl⟩ := List.mem_map.1 hp
      exact hm hx
  generalize hv1 : c.putAll c.vec.v d w (act.map fun e => (e, f e)) = v1 at h1
  have h2 : ∀ e, c.Fits e → ({ c with vec := { c.vec with v := (if c.vec.mz && !c.underMf then c.putAll v1 d w (off.map fun e => (e, 0)) else v1) } } : Strand).elem d w e =
      if e ∈ act then f e % 2 ^ w else if (c.vec.mz && !c.underMf) = true ∧ e ∈ off then 0 else c.elem d w e := by
    intro e he
    by_cases hz : (c.vec.mz && !c.underMf) = true
    · rw [if_pos hz]
      simp only [hz, true_and]
      by_cases hm : e ∈ off
      · rw [c.elem_putAll_of_mem d hw he (fun _ => 0) _ _ hofff _ ⟨(e, 0), List.mem_map.2 ⟨e, hm, rfl⟩, rfl⟩,
          if_neg fun hx => hd hz e hx hm, if_pos hm, Nat.zero_mod]
        intro p hp
        obtain ⟨x, _, rfl⟩ := List.mem_map.1 hp
        rfl
      · rw [c.elem_putAll_of_not_mem d hw he _ _ hofff, h1 e he, if_neg hm]
        rintro p hp rfl
        obtain ⟨x, hx, rfl⟩ := List.mem_map.1 hp
        exact hm hx
    · rw [if_neg hz, h1 e he]
      rw [if_neg (c := _ ∧ e ∈ off) fun h => hz h.1]
  generalize hv2 : (if c.vec.mz && !c.underMf then c.putAll v1 d w (off.map fun e => (e, 0)) else v1) = v2 at h2
  have hW : c.written d w (act.map fun e => (e, f e)) off = if c.vec.tp then c.zeroTail v2 d w (c.groupSize w) else v2 := by
    unfold Strand.written
    simp only [hv1, hv2]
  have hbody : ∀ e ∈ c.body, ({ c with vec := { c.vec with v := c.written d w (act.map fun e => (e, f e)) off } } : Strand).elem d w e =
      ({ c with vec := { c.vec with v := v2 } } : Strand).elem d w e := by
    intro e he
    rw [hW]
    by_cases ht : c.vec.tp = true
    · rw [if_pos ht]; exact c.elem_zeroTail_body v2 d hw h64 he
    · rw [if_neg ht]
  have htail : ∀ e, c.InTail w e → e ∉ act ∧ e ∉ off := by
    have hnb : ∀ e, c.InTail w e → e ∉ c.body := by
      intro e he hb
      by_cases hm : c.vec.mmode = true
      · simp only [Strand.InTail, Strand.body, hm, if_true, List.mem_filter, List.mem_range, decide_eq_true_eq] at he hb
        omega
      · simp only [Strand.InTail, Strand.body, hm, Bool.false_eq_true, if_false, List.mem_range] at he hb
        omega
    exact fun e he => ⟨fun h => hnb e he (ha e h), fun h => hnb e he (ho e h)⟩
  refine ⟨fun e he => ?_, fun e he hna => ?_, fun e he hna hno => ?_, fun e he => ?_, fun a hout => ?_⟩
  · exact (hbody e (ha e he)).trans ((h2 e (hfit e (ha e he))).trans (if_pos he))
  · refine (hbody e (ho e he)).trans ((h2 e (hfit e (ho e he))).trans ((if_neg hna).trans ?_))
    simp only [he, and_true]
  · exact (hbody e he).trans ((h2 e (hfit e he)).trans ((if_neg hna).trans (if_neg fun h => hno h.2)))
  · show ({ c with vec := { c.vec with v := c.written d w (act.map fun e => (e, f e)) off } } : Strand).elem d w e = _
    rw [hW]
    by_cases ht : c.vec.tp = true
    · rw [if_pos ht, if_pos ht]; exact c.elem_zeroTail_tail v2 d hw h64 he
    · rw [if_neg ht]
      rw [if_neg ht, h2 e (c.fits_of_tail h64 he), if_neg (htail e he).1, if_neg fun h => (htail e he).2 h.2]
  · have hlist : ∀ l : List (Nat × Nat), (∀ p ∈ l, p.1 ∈ c.body) →
        ∀ p ∈ l, a < c.elemBit d.toNat w p.1 / 8 ∨ (c.elemBit d.toNat w p.1 + w + 7) / 8 ≤ a := by
      intro l hl p hp
      have hlt := c.elemBit_lt d.toNat hw (hfit _ (hl p hp))
      have hin := hl p hp
      by_cases hm : c.vec.mmode = true
      · simp only [hm, if_true, Nat.add_mul] at hlt hout
        omega
      · simp only [hm, Bool.false_eq_true, if_false] at hlt hout
        simp only [Strand.body, hm, Bool.false_eq_true, if_false, List.mem_range] at hin
        have : (p.1 + 1) * w ≤ c.vec.vl * w := Nat.mul_le_mul_right w hin
        omega
    have hv1' : Memory.read v1 a = Memory.read c.vec.v a := by
      rw [← hv1]
      refine c.read_putAll d hw _ _ (hlist _ fun p hp => ?_)
      obtain ⟨x, hx, rfl⟩ := List.mem_map.1 hp
      exact ha x hx
    have hv2' : Memory.read v2 a = Memory.read c.vec.v a := by
      rw [← hv2]
      by_cases hz : (c.vec.mz && !c.underMf) = true
      · rw [if_pos hz, c.read_putAll d hw _ _ (hlist _ fun p hp => ?_), hv1']
        obtain ⟨x, hx, rfl⟩ := List.mem_map.1 hp
        exact ho x hx
      · rw [if_neg hz]; exact hv1'
    rw [hW]
    by_cases ht : c.vec.tp = true
    · rw [if_pos ht]
      rw [c.read_zeroTail v2 d hw h64 hout, hv2']
    · rw [if_neg ht]; exact hv2'

/-! ### The words that write a vector destination -/

/-- A write noted for the push at retirement changes the pushes alone, and those only where a register of the destination is
bound to a write stream (R227). -/
theorem State.notePush_spec (s : State) (u : RegUse) (act : List Nat) :
    ∃ p, s.notePush u act = s.withCur { s.cur with conv := { s.cur.conv with pushes := p } } ∧
      ((∀ r ∈ regsOf [u], s.cur.boundTo r true = none) → p = s.cur.conv.pushes) := by
  unfold State.notePush
  generalize regsOf [u] = l
  induction l generalizing s with
  | nil => exact ⟨s.cur.conv.pushes, rfl, fun _ => rfl⟩
  | cons r l ih =>
    rw [List.foldl_cons]
    cases hb : s.cur.boundTo r true with
    | none =>
      obtain ⟨p, hp, hq⟩ := ih s
      exact ⟨p, hp, fun h => hq fun r hr => h r (.tail _ hr)⟩
    | some i =>
      obtain ⟨p, hp, _⟩ := ih (s.withCur { s.cur with conv := { s.cur.conv with
        pushes := (s.cur.conv.pushes.filter fun p => p.s ≠ i) ++ [{ s := i, active := setBits (s.cur.pushedBefore i) act true }] } })
      exact ⟨p, hp, fun h => by rw [h r (.head _)] at hb; cases hb⟩

@[simp] theorem State.convFlags_zero (s : State) : s.convFlags 0 = s := by simp [State.convFlags, State.withCur]

@[simp] theorem State.convSat_false (s : State) : s.convSat false = s := by simp [State.convSat, State.withCur]

/-- A vector destination written: its registers, vstart 0, and the pushes noted. -/
theorem State.writeVec_eq (t : State) (d : VReg) (w : Nat) (res : List (Nat × Nat)) (off : List Nat) :
    t.writeVec d w res off =
      (t.withVec { t.cur.vec with v := t.cur.written d w res off, vstart := 0 }).notePush { r := d, n := t.cur.groupSize w }
        (res.map (·.1)) := rfl

/-- The streams alone decide what is bound. -/
theorem Strand.boundTo_congr {c k : Strand} (h : c.vec.streams = k.vec.streams) (r : Nat) (b : Bool) :
    c.boundTo r b = k.boundTo r b := by
  unfold Strand.boundTo
  rw [h]

/-- A word whose results, flags and saturation are written, its active elements and masked-off ones lying below vl. -/
theorem State.writeVec_writesVector (t : State) (d : VReg) {w : Nat} (hw : IsWidth w) (act off : List Nat) (f : Nat → Nat)
    (flags : BitVec 5) (sat : Bool) (ha : ∀ e ∈ act, e ∈ t.cur.body) (ho : ∀ e ∈ off, e ∈ t.cur.body)
    (hd : (t.cur.vec.mz && !t.cur.underMf) = true → ∀ e ∈ act, e ∉ off) :
    t.WritesVector (.next (((t.writeVec d w (act.map fun e => (e, f e)) off).convFlags flags).convSat sat).next8) d w act off f
      flags sat := by
  have hv := t.cur.written_vecWritten d hw act off f ha ho hd
  rw [t.writeVec_eq]
  generalize t.cur.written d w (act.map fun e => (e, f e)) off = v at hv
  obtain ⟨p, hp, hq⟩ := (t.withVec { t.cur.vec with v := v, vstart := 0 }).notePush_spec
    { r := d, n := t.cur.groupSize w } ((act.map fun e => (e, f e)).map (·.1))
  rw [hp]
  unfold State.WritesVector
  refine ⟨v, p, ?_, hv, fun h => hq fun r hr => ?_⟩
  · simp only [State.withVec, State.withCur, State.convFlags, State.convSat, State.next8, State.setPc]
  · exact (Strand.boundTo_congr (k := t.cur) rfl r true).trans (h r hr)

/-- No flag of an element. -/
theorem foldl_no_flags (l : List Nat) : ((l.map fun _ => (0 : BitVec 5)).foldl (· ||| ·) 0) = 0 := by
  induction l with
  | nil => rfl
  | cons _ _ ih => simp only [List.map_cons, List.foldl_cons]; exact ih

/-- No saturation of an element. -/
theorem any_no_sat (l : List Nat) : (l.any fun _ => false) = false := by
  induction l with
  | nil => rfl
  | cons _ _ _ => simp

/-- The active elements lie below vl. -/
theorem Strand.actives_body (c : Strand) (m : MReg) : ∀ e ∈ c.actives m, e ∈ c.body := fun _ h => (List.mem_filter.1 h).1

/-- So do the masked-off ones. -/
theorem Strand.maskedOff_body (c : Strand) (m : MReg) : ∀ e ∈ c.maskedOff m, e ∈ c.body := fun _ h => (List.mem_filter.1 h).1

/-- Without mf no element is both. -/
theorem Strand.actives_maskedOff (c : Strand) (m : MReg) (h : (c.vec.mz && !c.underMf) = true) :
    ∀ e ∈ c.actives m, e ∉ c.maskedOff m := by
  intro e ha hm
  have h0 : c.underMf = false := by simpa using (Bool.and_eq_true_iff.1 h).2
  have h1 := (List.mem_filter.1 ha).2
  have h2 := (List.mem_filter.1 hm).2
  simp only [Strand.activeAt, h0, Bool.false_eq_true, if_false] at h1
  simp [(Bool.and_eq_true_iff.1 h1).2] at h2

/-- An element-wise word with flags and saturation (R168). -/
theorem State.elementWise_flags (t : State) (d : VReg) {w : Nat} (hw : IsWidth w) (m : MReg) (f : Nat → Nat) (flags : Nat → BitVec 5)
    (sat : Nat → Bool) :
    t.ElementWise (.next (if t.cur.vec.vl ≤ t.cur.vec.vstart then t.vstart0.next8 else
      (((t.writeVec d w ((t.cur.actives m).map fun e => (e, f e)) (t.cur.maskedOff m)).convFlags
        (((t.cur.actives m).map flags).foldl (· ||| ·) 0)).convSat ((t.cur.actives m).any sat)).next8)) d w m f flags sat := by
  refine ⟨fun h => ?_, fun h => ?_⟩
  · rw [if_pos h]; rfl
  · rw [if_neg (Nat.not_le.2 h)]
    exact t.writeVec_writesVector d hw _ _ f _ _ (t.cur.actives_body m) (t.cur.maskedOff_body m) (t.cur.actives_maskedOff m)

/-- An element-wise word without flags. -/
theorem State.elementWise_spec (t : State) (d : VReg) {w : Nat} (hw : IsWidth w) (m : MReg) (f : Nat → Nat) :
    t.ElementWise (.next (t.elementWise d w m f).next8) d w m f (fun _ => 0) (fun _ => false) := by
  have h := t.elementWise_flags d hw m f (fun _ => 0) (fun _ => false)
  rw [foldl_no_flags, State.convFlags_zero, any_no_sat, State.convSat_false] at h
  unfold State.elementWise
  rwa [← apply_ite State.next8] at h

/-- An integer or fixed-point word: its results and their saturation (R168, R171). -/
theorem State.intWise_spec (t : State) (d : VReg) {w : Nat} (hw : IsWidth w) (m : MReg) (f : Nat → Nat × Bool) :
    t.ElementWise (.next (t.intWise d w m f).next8) d w m (fun e => (f e).1) (fun _ => 0) (fun e => (f e).2) := by
  have h := t.elementWise_flags d hw m (fun e => (f e).1) (fun _ => 0) (fun e => (f e).2)
  rw [foldl_no_flags, State.convFlags_zero, ← apply_ite State.next8] at h
  unfold State.intWise
  simp only [List.map_map, List.any_map]
  exact h

/-- A floating-point word: its results and their flags (R168, R192). -/
theorem State.floatWise_spec (t : State) (d : VReg) {w : Nat} (hw : IsWidth w) (m : MReg) (f : Nat → FRes) :
    t.ElementWise (.next (t.floatWise d w m f).next8) d w m (fun e => (f e).bits) (fun e => (f e).flags) (fun _ => false) := by
  have h := t.elementWise_flags d hw m (fun e => (f e).bits) (fun e => (f e).flags) (fun _ => false)
  rw [any_no_sat, State.convSat_false, ← apply_ite State.next8, List.foldl_map] at h
  unfold State.floatWise
  simp only [List.map_map, List.foldl_map]
  exact h

/-- A word that reads across elements. -/
theorem State.acrossElements_spec (t : State) (d : VReg) {w : Nat} (hw : IsWidth w) (m : MReg) (f : Nat → Nat) :
    t.AcrossElements (.next (t.acrossElements d w m f).next8) d w m f := by
  refine ⟨fun h => ?_, fun h => ?_⟩
  · unfold State.acrossElements
    rw [if_pos h]; rfl
  · unfold State.acrossElements
    rw [if_neg (by omega)]
    have := t.writeVec_writesVector d hw (t.cur.activesFrom0 m) (t.cur.maskedOff0 m) f 0 false
      (fun e he => (List.mem_filter.1 he).1) (fun e he => (List.mem_filter.1 he).1) fun _ e he hm => by
        have h1 := (List.mem_filter.1 he).2
        have h2 := (List.mem_filter.1 hm).2
        simp [h1] at h2
    rwa [State.convFlags_zero, State.convSat_false] at this

/-! ### Mask destinations -/

/-- One bit set or cleared. -/
theorem getLsbD_setBit (m : Mask) (i k : Nat) (b : Bool) :
    (setBit m i b).getLsbD k = if k = i ∧ k < 16384 then b else m.getLsbD k := by
  have h1 : (1#16384 <<< i).getLsbD k = decide (k = i ∧ k < 16384) := by
    rw [BitVec.getLsbD_shiftLeft, BitVec.getLsbD_one]
    by_cases hk : k < 16384
    · by_cases hi : k = i
      · subst hi; simp [hk]
      · by_cases hlt : k < i
        · simp [hk, hi, hlt]
        · simp only [hk, hi, hlt, decide_true, decide_false, Bool.not_false, Bool.true_and, false_and]
          simp; omega
    · simp [hk]
  have hge : ¬k < 16384 → m.getLsbD k = false := fun h => BitVec.getLsbD_of_ge m k (by omega)
  unfold setBit
  cases b
  · rw [if_neg Bool.false_ne_true, BitVec.getLsbD_and, BitVec.getLsbD_not, h1]
    by_cases hk : k < 16384
    · by_cases hi : k = i
      · simp [hi, hi ▸ hk]
      · simp [hi, hk]
    · simp [hk, hge hk]
  · rw [if_pos rfl, BitVec.getLsbD_or, h1]
    by_cases hk : k < 16384
    · by_cases hi : k = i
      · simp [hi, hi ▸ hk]
      · simp [hi]
    · simp [hk, hge hk]

/-- The bits of a list set by a function. -/
theorem getLsbD_foldl_setBit (l : List Nat) (f : Nat → Bool) (m : Mask) (k : Nat) :
    (l.foldl (fun a e => setBit a e (f e)) m).getLsbD k = if k ∈ l ∧ k < 16384 then f k else m.getLsbD k := by
  induction l generalizing m with
  | nil => simp
  | cons e t ih =>
    rw [List.foldl_cons, ih, getLsbD_setBit]
    by_cases hk : k < 16384
    · by_cases ht : k ∈ t
      · simp [ht, hk]
      · by_cases he : k = e
        · subst he; simp [hk, ht]
        · simp [hk, ht, he]
    · simp [hk]

/-- A word that writes a mask, its active elements and masked-off ones lying below vl. -/
theorem State.writeMask_writesMask (t : State) (d : MReg) (h0 : d ≠ 0) (act off : List Nat) (f : Nat → Bool) (flags : BitVec 5)
    (ha : ∀ e ∈ act, e ∈ t.cur.body) (ho : ∀ e ∈ off, e ∈ t.cur.body)
    (hd : (t.cur.vec.mz && !t.cur.underMf) = true → ∀ e ∈ act, e ∉ off) :
    t.WritesMask (.next ((t.writeMask d act off f).convFlags flags).next8) d act off f flags := by
  have hlt : d.toNat - 1 < 7 := by
    have := d.isLt
    have : d.toNat ≠ 0 := fun h' => h0 (BitVec.eq_of_toNat_eq h')
    omega
  have hpos : d.toNat ≠ 0 := fun h' => h0 (BitVec.eq_of_toNat_eq h')
  let m0 := t.cur.vec.m[d.toNat - 1]'hlt
  let m1 := act.foldl (fun a e => setBit a e (f e)) m0
  let m2 := if t.cur.vec.mz && !t.cur.underMf then setBits m1 off false else m1
  let m3 := if t.cur.vec.tp then m2 &&& setBits 0 t.cur.body true else m2
  have hm0 : ∀ e, m0.getLsbD e = t.cur.maskBit d e := fun e => by simp only [Strand.maskBit, dif_neg h0]; rfl
  have hm1 : ∀ e, m1.getLsbD e = if e ∈ act ∧ e < 16384 then f e else t.cur.maskBit d e := fun e => by
    rw [← hm0]; exact getLsbD_foldl_setBit act f m0 e
  have hm2 : ∀ e, m2.getLsbD e = if (t.cur.vec.mz && !t.cur.underMf) = true ∧ e ∈ off ∧ e < 16384 then false else m1.getLsbD e := fun e => by
    by_cases hz : (t.cur.vec.mz && !t.cur.underMf) = true
    · have : m2 = setBits m1 off false := if_pos hz
      rw [this]
      simp only [hz, true_and]
      exact getLsbD_foldl_setBit off (fun _ => false) m1 e
    · have : m2 = m1 := if_neg hz
      rw [this, if_neg fun h => hz h.1]
  have hm3 : ∀ e, m3.getLsbD e = if t.cur.vec.tp = true ∧ ¬(e ∈ t.cur.body) then false else m2.getLsbD e := fun e => by
    by_cases ht : t.cur.vec.tp = true
    · have : m3 = m2 &&& setBits 0 t.cur.body true := if_pos ht
      rw [this, BitVec.getLsbD_and]
      have hb := getLsbD_foldl_setBit t.cur.body (fun _ => true) 0 e
      rw [show setBits 0 t.cur.body true = t.cur.body.foldl (fun a i => setBit a i true) 0 from rfl, hb]
      by_cases hin : e ∈ t.cur.body
      · by_cases hk : e < 16384
        · simp [hin, hk]
        · simp [hin, hk, BitVec.getLsbD_of_ge m2 e (by omega)]
      · simp [hin, ht]
    · have : m3 = m2 := if_neg ht
      rw [this, if_neg fun h => ht h.1]
  have hbit : ∀ e, ({ t.cur with vec := { t.cur.vec with m := t.cur.vec.m.set (d.toNat - 1) m3 hlt } } : Strand).maskBit d e = m3.getLsbD e := by
    intro e
    simp only [Strand.maskBit, dif_neg h0, Vector.getElem_set_self]
  have hge : ∀ e, ¬e < 16384 → t.cur.maskBit d e = false := fun e h => by
    rw [← hm0]; exact BitVec.getLsbD_of_ge m0 e (by omega)
  refine ⟨t.cur.vec.m.set (d.toNat - 1) m3 hlt, ?_, fun i hi => ?_, fun e he hk => ?_, fun e he hna => ?_, fun e he hna hno => ?_, fun e he => ?_⟩
  · have hW : t.writeMask d act off f = t.withVec ({ t.cur.vec with vstart := 0 }.setMask d m3) := by
      unfold State.writeMask
      simp only [dif_neg h0]
      rfl
    have hS : ({ t.cur.vec with vstart := 0 } : VecPart).setMask d m3 =
        { t.cur.vec with vstart := 0, m := t.cur.vec.m.set (d.toNat - 1) m3 hlt } := dif_neg h0
    rw [hW, hS]
    rfl
  · exact Vector.getElem_set_ne hlt i.isLt (by omega)
  · have hb := ha e he
    refine (hbit e).trans ?_
    rw [hm3, if_neg fun h => h.2 hb, hm2, if_neg fun h => hd h.1 e he h.2.1, hm1, if_pos ⟨he, hk⟩]
  · have hb := ho e he
    have h1 : m1.getLsbD e = t.cur.maskBit d e := (hm1 e).trans (if_neg fun h => hna h.1)
    refine (hbit e).trans ((hm3 e).trans ((if_neg fun h => h.2 hb).trans ((hm2 e).trans ?_)))
    by_cases hz : (t.cur.vec.mz && !t.cur.underMf) = true
    · rw [if_pos hz]
      by_cases hk : e < 16384
      · exact if_pos ⟨hz, he, hk⟩
      · rw [if_neg fun h => hk h.2.2, h1, hge e hk]
    · rw [if_neg fun h => hz h.1, if_neg hz, h1]
  · refine (hbit e).trans ?_
    rw [hm3, if_neg fun h => h.2 he, hm2, if_neg fun h => hno h.2.1, hm1, if_neg fun h => hna h.1]
  · refine (hbit e).trans ?_
    rw [hm3]
    by_cases ht : t.cur.vec.tp = true
    · rw [if_pos ⟨ht, he⟩, if_pos ht]
    · rw [if_neg fun h => ht h.1, if_neg ht, hm2, if_neg fun h => he (ho e h.2.1), hm1, if_neg fun h => he (ha e h.1)]

/-- An element-wise word that writes a mask (R168, R182). -/
theorem State.elementWiseMask_spec (t : State) (d m : MReg) (h0 : d ≠ 0) (f : Nat → Bool) :
    t.ElementWiseMask (.next (t.elementWiseMask d m f).next8) d m f (fun _ => 0) := by
  refine ⟨fun h => ?_, fun h => ?_⟩
  · unfold State.elementWiseMask
    rw [if_pos h]; rfl
  · unfold State.elementWiseMask
    rw [if_neg (Nat.not_le.2 h), foldl_no_flags]
    have := t.writeMask_writesMask d h0 _ _ f 0 (t.cur.actives_body m) (t.cur.maskedOff_body m) (t.cur.actives_maskedOff m)
    rwa [State.convFlags_zero] at this

/-- A mask word that reads across elements. -/
theorem State.acrossMask_spec (t : State) (d m : MReg) (h0 : d ≠ 0) (f : Nat → Bool) :
    t.AcrossMask (.next (t.acrossMask d m f).next8) d m f := by
  refine ⟨fun h => ?_, fun h => ?_⟩
  · unfold State.acrossMask
    rw [if_pos h]; rfl
  · unfold State.acrossMask
    rw [if_neg (by omega)]
    have := t.writeMask_writesMask d h0 (t.cur.activesFrom0 m) (t.cur.maskedOff0 m) f 0
      (fun e he => (List.mem_filter.1 he).1) (fun e he => (List.mem_filter.1 he).1) fun _ e he hm => by
        have h1 := (List.mem_filter.1 he).2
        have h2 := (List.mem_filter.1 hm).2
        simp [h1] at h2
    rwa [State.convFlags_zero] at this

/-! ### The frame of a vector word -/

/-- A word that passes its checks is its effect on the state of its pops (Table 4-19, R227). -/
theorem vecWord_ready {i : Instr} {s t : State} (h : s.Ready i t) (eff : State → State) :
    vecWord (wordInfo i s.cur) s eff = .next (eff t) := by
  unfold vecWord
  rw [h.1]
  simp only [h.2.1, h.2.2]

end Sys2Proof.Machine
end

