-- ==== Sys2Proof/Tests/Slice0.lean ====
section
/-! SUPPORT. Slice0.lean: the model's own tests. Every constructor that has a word is read from one put together from the
spec's tables, every check of WellFormed refuses an ill-formed term, and every statement with hypotheses has a state that
meets them. Expected values are the spec's or worked out by hand from its tables. -/

set_option Elab.async false
set_option maxRecDepth 20000

namespace Sys2Proof.Tests

open Sys2Proof Sys2Proof.Machine

/-! ### Decoding -/

/-- Parcels put together from the fields of Table 4-9. -/
theorem test_decode_alu1 : ∀ p ∈ ([
    (0x03557C00#32, .add ⟨21, 10, 31⟩),
    (0x03557C01#32, .sub ⟨21, 10, 31⟩),
    (0x03557C02#32, .and ⟨21, 10, 31⟩),
    (0x03557C03#32, .or ⟨21, 10, 31⟩),
    (0x03557C04#32, .xor ⟨21, 10, 31⟩),
    (0x03557C05#32, .andn ⟨21, 10, 31⟩),
    (0x03557C08#32, .shl ⟨21, 10, 31⟩),
    (0x03557C09#32, .shr ⟨21, 10, 31⟩),
    (0x03557C0A#32, .sha ⟨21, 10, 31⟩),
    (0x03557C10#32, .min ⟨21, 10, 31⟩),
    (0x03557C11#32, .max ⟨21, 10, 31⟩),
    (0x03557C12#32, .minn ⟨21, 10, 31⟩),
    (0x03557C13#32, .maxn ⟨21, 10, 31⟩),
    (0x03557C14#32, .slt ⟨21, 10, 31⟩),
    (0x03557C15#32, .sltn ⟨21, 10, 31⟩),
    (0x03557C20#32, .mul ⟨21, 10, 31⟩),
    (0x03557C21#32, .mulh ⟨21, 10, 31⟩),
    (0x03557C22#32, .mulhn ⟨21, 10, 31⟩),
    (0x03557C24#32, .div ⟨21, 10, 31⟩),
    (0x03557C25#32, .divn ⟨21, 10, 31⟩),
    (0x03557C26#32, .rem ⟨21, 10, 31⟩),
    (0x03557C27#32, .remn ⟨21, 10, 31⟩),
    (0x03550030#32, .clz ⟨21, 10⟩),
    (0x03550031#32, .ctz ⟨21, 10⟩)] : List (BitVec 32 × Instr)),
    decodeParcel p.1 = some p.2 := by
  decide +kernel

/-- Parcels put together from the fields of Table 4-9. -/
theorem test_decode_alu2 : ∀ p ∈ ([
    (0x03550032#32, .popc ⟨21, 10⟩)] : List (BitVec 32 × Instr)),
    decodeParcel p.1 = some p.2 := by
  decide +kernel

/-- Parcels put together from the fields of Tables 4-1 and 4-8. -/
theorem test_decode_imm : ∀ p ∈ ([
    (0x05557FFD#32, .addi ⟨21, 10, -3⟩),
    (0x07557FFD#32, .andi ⟨21, 10, -3⟩),
    (0x09557FFD#32, .ori ⟨21, 10, -3⟩),
    (0x0B557FFD#32, .xori ⟨21, 10, -3⟩),
    (0x0D557FFD#32, .slti ⟨21, 10, -3⟩),
    (0x0F557FFD#32, .sltni ⟨21, 10, -3⟩),
    (0x1155002D#32, .shli ⟨21, 10, 45⟩),
    (0x1355002D#32, .shri ⟨21, 10, 45⟩),
    (0x1555002D#32, .shai ⟨21, 10, 45⟩),
    (0x175FFFFE#32, .lui ⟨21, -2⟩),
    (0x1957FFFE#32, .adpc ⟨21, 0x7FFFE⟩)] : List (BitVec 32 × Instr)),
    decodeParcel p.1 = some p.2 := by
  decide +kernel

/-- Parcels put together from the fields of Table 4-8. -/
theorem test_decode_mem : ∀ p ∈ ([
    (0x21557FF8#32, .ld8 ⟨21, 10, -8⟩),
    (0x23557FF8#32, .ld16 ⟨21, 10, -8⟩),
    (0x25557FF8#32, .ld32 ⟨21, 10, -8⟩),
    (0x27557FF8#32, .ld64 ⟨21, 10, -8⟩),
    (0x29557FF8#32, .ldn8 ⟨21, 10, -8⟩),
    (0x2B557FF8#32, .ldn16 ⟨21, 10, -8⟩),
    (0x2D557FF8#32, .ldn32 ⟨21, 10, -8⟩),
    (0x31553FFF#32, .st8 ⟨21, 10, 0x3FFF⟩),
    (0x33553FFF#32, .st16 ⟨21, 10, 0x3FFF⟩),
    (0x35553FFF#32, .st32 ⟨21, 10, 0x3FFF⟩),
    (0x37553FFF#32, .st64 ⟨21, 10, 0x3FFF⟩)] : List (BitVec 32 × Instr)),
    decodeParcel p.1 = some p.2 := by
  decide +kernel

/-- Parcels put together from the fields of Table 4-10. -/
theorem test_decode_amo : ∀ p ∈ ([
    (0x39552C00#32, .amoAdd ⟨21, 10, 11, .strand, .relaxed, false⟩),
    (0x39552CB1#32, .amoSwap ⟨21, 10, 11, .core, .acquire, true⟩),
    (0x39552D42#32, .amoAnd ⟨21, 10, 11, .die, .release, false⟩),
    (0x39552DF3#32, .amoOr ⟨21, 10, 11, .device, .acqRel, true⟩),
    (0x39552E04#32, .amoXor ⟨21, 10, 11, .system, .relaxed, false⟩),
    (0x39552C35#32, .amoMin ⟨21, 10, 11, .strand, .acquire, true⟩),
    (0x39552CC6#32, .amoMax ⟨21, 10, 11, .core, .release, false⟩),
    (0x39552D77#32, .amoMinn ⟨21, 10, 11, .die, .acqRel, true⟩),
    (0x39552D88#32, .amoMaxn ⟨21, 10, 11, .device, .relaxed, false⟩),
    (0x39552E39#32, .amoCas ⟨21, 10, 11, .system, .acquire, true⟩),
    (0x3B552C00#32, .claim ⟨21, 10, 11⟩)] : List (BitVec 32 × Instr)),
    decodeParcel p.1 = some p.2 := by
  decide +kernel

/-- Parcels put together from the fields of Table 4-8. -/
theorem test_decode_branch : ∀ p ∈ ([
    (0x41557FFB#32, .beq ⟨21, 10, -5⟩),
    (0x43557FFB#32, .bne ⟨21, 10, -5⟩),
    (0x45557FFB#32, .blt ⟨21, 10, -5⟩),
    (0x47557FFB#32, .bge ⟨21, 10, -5⟩),
    (0x49557FFB#32, .bltn ⟨21, 10, -5⟩),
    (0x4B557FFB#32, .bgen ⟨21, 10, -5⟩),
    (0x4D5FFFFB#32, .jal ⟨21, -5⟩),
    (0x4F557FFC#32, .jalr ⟨21, 10, -4⟩)] : List (BitVec 32 × Instr)),
    decodeParcel p.1 = some p.2 := by
  decide +kernel

/-- Parcels put together from the fields of Table 4-11. -/
theorem test_decode_fp : ∀ p ∈ ([
    (0x51552C00#32, .fadd ⟨.fp64, 21, 10, 11⟩),
    (0x51552D01#32, .fsub ⟨.fp32, 21, 10, 11⟩),
    (0x51552E02#32, .fmul ⟨.fp16, 21, 10, 11⟩),
    (0x51552F03#32, .fdiv ⟨.bf16, 21, 10, 11⟩),
    (0x51552C05#32, .fmin ⟨.fp64, 21, 10, 11⟩),
    (0x51552D06#32, .fmax ⟨.fp32, 21, 10, 11⟩),
    (0x51552E08#32, .feq ⟨.fp16, 21, 10, 11⟩),
    (0x51552F09#32, .flt ⟨.bf16, 21, 10, 11⟩),
    (0x51552C0A#32, .fle ⟨.fp64, 21, 10, 11⟩),
    (0x51552D0C#32, .fsgnj ⟨.fp32, 21, 10, 11⟩),
    (0x51552E0D#32, .fsgnjn ⟨.fp16, 21, 10, 11⟩),
    (0x51550304#32, .fsqrt ⟨.bf16, 21, 10⟩),
    (0x5155020B#32, .fclass ⟨.fp16, 21, 10⟩),
    (0x51550510#32, .fcvtfi ⟨.fp32, .nat64, 21, 10⟩),
    (0x51550A11#32, .fcvtif ⟨.fp16, .int32, 21, 10⟩),
    (0x51550D12#32, .fcvtff ⟨.fp32, .bf16, 21, 10⟩),
    (0x53552D80#32, .fma ⟨.fp64, 21, 10, 11, 12⟩),
    (0x53552D89#32, .fms ⟨.fp32, 21, 10, 11, 12⟩),
    (0x53552D92#32, .fnma ⟨.fp16, 21, 10, 11, 12⟩),
    (0x53552D9B#32, .fnms ⟨.bf16, 21, 10, 11, 12⟩)] : List (BitVec 32 × Instr)),
    decodeParcel p.1 = some p.2 := by
  decide +kernel

/-- Parcels put together from the fields of Table 6-3. -/
theorem test_decode_csr1 : ∀ p ∈ ([
    (0x61500000#32, .csrget ⟨21, .vl⟩),
    (0x61500001#32, .csrget ⟨21, .vlmax⟩),
    (0x61500002#32, .csrget ⟨21, .vstart⟩),
    (0x61500003#32, .csrget ⟨21, .vtype⟩),
    (0x61500004#32, .csrget ⟨21, .vnreg⟩),
    (0x61500005#32, .csrget ⟨21, .vrm⟩),
    (0x61500006#32, .csrget ⟨21, .vsat⟩),
    (0x61500007#32, .csrget ⟨21, .frm⟩),
    (0x61500008#32, .csrget ⟨21, .fflags⟩),
    (0x61500009#32, .csrget ⟨21, .lanegrant⟩),
    (0x6150000A#32, .csrget ⟨21, .planebase⟩),
    (0x6150000B#32, .csrget ⟨21, .mmode⟩),
    (0x61500010#32, .csrget ⟨21, .lidx 0⟩),
    (0x61500013#32, .csrget ⟨21, .lidx 3⟩),
    (0x61500015#32, .csrget ⟨21, .partid⟩),
    (0x61500016#32, .csrget ⟨21, .strandid⟩),
    (0x61500017#32, .csrget ⟨21, .coreid⟩),
    (0x61500020#32, .csrget ⟨21, .trpc⟩),
    (0x61500021#32, .csrget ⟨21, .trcause⟩),
    (0x61500022#32, .csrget ⟨21, .trval⟩),
    (0x61500023#32, .csrget ⟨21, .trstat⟩),
    (0x61500024#32, .csrget ⟨21, .trvec⟩),
    (0x61500025#32, .csrget ⟨21, .trscratch⟩),
    (0x61500026#32, .csrget ⟨21, .trpend⟩)] : List (BitVec 32 × Instr)),
    decodeParcel p.1 = some p.2 := by
  decide +kernel

/-- Parcels put together from the fields of Table 6-3. -/
theorem test_decode_csr2 : ∀ p ∈ ([
    (0x61500027#32, .csrget ⟨21, .trslot⟩),
    (0x61500028#32, .csrget ⟨21, .trpages⟩),
    (0x61500029#32, .csrget ⟨21, .trpcount⟩),
    (0x61500030#32, .csrget ⟨21, .vowner⟩),
    (0x61500031#32, .csrget ⟨21, .ctxid⟩),
    (0x61500040#32, .csrget ⟨21, .arenabase⟩),
    (0x61500041#32, .csrget ⟨21, .arenabound⟩),
    (0x61500050#32, .csrget ⟨21, .watch 0⟩),
    (0x61500051#32, .csrget ⟨21, .wctl 0⟩),
    (0x61500056#32, .csrget ⟨21, .watch 3⟩),
    (0x61500057#32, .csrget ⟨21, .wctl 3⟩),
    (0x61500060#32, .csrget ⟨21, .cycle⟩),
    (0x61500061#32, .csrget ⟨21, .convoys⟩),
    (0x61500070#32, .csrget ⟨21, .pcnt 0⟩),
    (0x6150007F#32, .csrget ⟨21, .pcnt 15⟩),
    (0x61500080#32, .csrget ⟨21, .pcntsel⟩)] : List (BitVec 32 × Instr)),
    decodeParcel p.1 = some p.2 := by
  decide +kernel

/-- Parcels put together from the fields of Table 4-12 and R72. -/
theorem test_decode_sys : ∀ p ∈ ([
    (0x60051007#32, .csrput ⟨.frm, 10⟩),
    (0x61552025#32, .csrswap ⟨21, .trscratch, 10⟩),
    (0x61553025#32, .csrset ⟨21, .trscratch, 10⟩),
    (0x61554025#32, .csrclr ⟨21, .trscratch, 10⟩),
    (0x620000D4#32, .fence ⟨.system, 0b1010, true⟩),
    (0x64000000#32, .syscall),
    (0x64000001#32, .trapret),
    (0x64000003#32, .track),
    (0x64000004#32, .yield),
    (0x64000005#32, .halt),
    (0x64000008#32, .ebreak),
    (0x65550002#32, .resume ⟨21, 10, .replay⟩),
    (0x65550402#32, .resume ⟨21, 10, .zero⟩),
    (0x65550802#32, .resume ⟨21, 10, .propagate⟩),
    (0x65552C06#32, .waitev ⟨21, 10, 11⟩),
    (0x64050407#32, .invtlb ⟨10, true⟩),
    (0x64050C09#32, .cache ⟨10, 3⟩)] : List (BitVec 32 × Instr)),
    decodeParcel p.1 = some p.2 := by
  decide +kernel

/-- 64-bit words put together from the fields of Table 4-13. -/
theorem test_decode_cfg : ∀ p ∈ ([
    (0xC185540000000000#64, .setvl ⟨21, 10⟩),
    (0xC18000001000004A#64, .setvt ⟨true, false, true, .e32⟩),
    (0xC180000010000013#64, .setvt ⟨false, true, false, .e64⟩),
    (0xC180000020000003#64, .vconfig ⟨3⟩),
    (0xC18554B030000000#64, .setvlf ⟨21, 10, 11⟩),
    (0xC180000080000000#64, .menter),
    (0xC180000090000000#64, .mexit)] : List (BitVec 64 × Instr)),
    decodeWord p.1 = some p.2 := by
  decide +kernel

/-- 64-bit words put together from the fields of Table 4-14. -/
theorem test_decode_vint1 : ∀ p ∈ ([
    (0xC25A95F800000000#64, .vaddVV ⟨5, 42, 21, 62, .e8⟩),
    (0xC35A95F000000000#64, .vaddVS ⟨5, 42, 21, 30, .e8⟩),
    (0xC45A95FFF9000000#64, .vaddVI ⟨5, 42, 21, -7, .e8⟩),
    (0xC2DA95F802400001#64, .vsubVV ⟨5, 42, 21, 62, .e16⟩),
    (0xC3DA95F002400001#64, .vsubVS ⟨5, 42, 21, 30, .e16⟩),
    (0xC4DA95FFF9200001#64, .vsubVI ⟨5, 42, 21, -7, .e16⟩),
    (0xC25A95F804800004#64, .vandVV ⟨5, 42, 21, 62, .e32⟩),
    (0xC35A95F004800004#64, .vandVS ⟨5, 42, 21, 30, .e32⟩),
    (0xC45A95FFF9400004#64, .vandVI ⟨5, 42, 21, -7, .e32⟩),
    (0xC2DA95F806C00005#64, .vorVV ⟨5, 42, 21, 62, .e64⟩),
    (0xC3DA95F006C00005#64, .vorVS ⟨5, 42, 21, 30, .e64⟩),
    (0xC4DA95FFF9600005#64, .vorVI ⟨5, 42, 21, -7, .e64⟩),
    (0xC25A95F800000006#64, .vxorVV ⟨5, 42, 21, 62, .e8⟩),
    (0xC35A95F000000006#64, .vxorVS ⟨5, 42, 21, 30, .e8⟩),
    (0xC45A95FFF9000006#64, .vxorVI ⟨5, 42, 21, -7, .e8⟩),
    (0xC2DA95F802400008#64, .vshlVV ⟨5, 42, 21, 62, .e16⟩),
    (0xC3DA95F002400008#64, .vshlVS ⟨5, 42, 21, 30, .e16⟩),
    (0xC4DA950007200008#64, .vshlVI ⟨5, 42, 21, 7, .e16⟩),
    (0xC25A95F804800009#64, .vshrVV ⟨5, 42, 21, 62, .e32⟩),
    (0xC35A95F004800009#64, .vshrVS ⟨5, 42, 21, 30, .e32⟩),
    (0xC45A950007400009#64, .vshrVI ⟨5, 42, 21, 7, .e32⟩),
    (0xC2DA95F806C0000A#64, .vshaVV ⟨5, 42, 21, 62, .e64⟩),
    (0xC3DA95F006C0000A#64, .vshaVS ⟨5, 42, 21, 30, .e64⟩),
    (0xC4DA95000760000A#64, .vshaVI ⟨5, 42, 21, 7, .e64⟩)] : List (BitVec 64 × Instr)),
    decodeWord p.1 = some p.2 := by
  decide +kernel

/-- 64-bit words put together from the fields of Table 4-14. -/
theorem test_decode_vint2 : ∀ p ∈ ([
    (0xC25A95F800000010#64, .vminVV ⟨5, 42, 21, 62, .e8⟩),
    (0xC35A95F000000010#64, .vminVS ⟨5, 42, 21, 30, .e8⟩),
    (0xC45A95FFF9000010#64, .vminVI ⟨5, 42, 21, -7, .e8⟩),
    (0xC2DA95F802400011#64, .vmaxVV ⟨5, 42, 21, 62, .e16⟩),
    (0xC3DA95F002400011#64, .vmaxVS ⟨5, 42, 21, 30, .e16⟩),
    (0xC4DA95FFF9200011#64, .vmaxVI ⟨5, 42, 21, -7, .e16⟩),
    (0xC25A95F804800012#64, .vminnVV ⟨5, 42, 21, 62, .e32⟩),
    (0xC35A95F004800012#64, .vminnVS ⟨5, 42, 21, 30, .e32⟩),
    (0xC45A95FFF9400012#64, .vminnVI ⟨5, 42, 21, -7, .e32⟩),
    (0xC2DA95F806C00013#64, .vmaxnVV ⟨5, 42, 21, 62, .e64⟩),
    (0xC3DA95F006C00013#64, .vmaxnVS ⟨5, 42, 21, 30, .e64⟩),
    (0xC4DA95FFF9600013#64, .vmaxnVI ⟨5, 42, 21, -7, .e64⟩),
    (0xC25A95F800000018#64, .vmulVV ⟨5, 42, 21, 62, .e8⟩),
    (0xC35A95F000000018#64, .vmulVS ⟨5, 42, 21, 30, .e8⟩),
    (0xC2DA95F802400019#64, .vmulhVV ⟨5, 42, 21, 62, .e16⟩),
    (0xC3DA95F002400019#64, .vmulhVS ⟨5, 42, 21, 30, .e16⟩),
    (0xC25A95F80480001A#64, .vmulhnVV ⟨5, 42, 21, 62, .e32⟩),
    (0xC35A95F00480001A#64, .vmulhnVS ⟨5, 42, 21, 30, .e32⟩),
    (0xC2DA95F806C0001C#64, .vdivVV ⟨5, 42, 21, 62, .e64⟩),
    (0xC3DA95F006C0001C#64, .vdivVS ⟨5, 42, 21, 30, .e64⟩),
    (0xC25A95F80000001D#64, .vdivnVV ⟨5, 42, 21, 62, .e8⟩),
    (0xC35A95F00000001D#64, .vdivnVS ⟨5, 42, 21, 30, .e8⟩),
    (0xC2DA95F80240001E#64, .vremVV ⟨5, 42, 21, 62, .e16⟩),
    (0xC3DA95F00240001E#64, .vremVS ⟨5, 42, 21, 30, .e16⟩)] : List (BitVec 64 × Instr)),
    decodeWord p.1 = some p.2 := by
  decide +kernel

/-- 64-bit words put together from the fields of Table 4-14. -/
theorem test_decode_vint3 : ∀ p ∈ ([
    (0xC25A95F80480001F#64, .vremnVV ⟨5, 42, 21, 62, .e32⟩),
    (0xC35A95F00480001F#64, .vremnVS ⟨5, 42, 21, 30, .e32⟩),
    (0xC2DA95F806C00020#64, .vmaccVV ⟨5, 42, 21, 62, .e64⟩),
    (0xC3DA95F006C00020#64, .vmaccVS ⟨5, 42, 21, 30, .e64⟩),
    (0xC25A95F800000028#64, .vmergeVV ⟨5, 42, 21, 62, .e8⟩),
    (0xC35A95F000000028#64, .vmergeVS ⟨5, 42, 21, 30, .e8⟩),
    (0xC45A95FFF9000028#64, .vmergeVI ⟨5, 42, 21, -7, .e8⟩),
    (0xC2DA95F802400030#64, .vaddsVV ⟨5, 42, 21, 62, .e16⟩),
    (0xC3DA95F002400030#64, .vaddsVS ⟨5, 42, 21, 30, .e16⟩),
    (0xC4DA95FFF9200030#64, .vaddsVI ⟨5, 42, 21, -7, .e16⟩),
    (0xC25A95F804800031#64, .vsubsVV ⟨5, 42, 21, 62, .e32⟩),
    (0xC35A95F004800031#64, .vsubsVS ⟨5, 42, 21, 30, .e32⟩),
    (0xC45A95FFF9400031#64, .vsubsVI ⟨5, 42, 21, -7, .e32⟩),
    (0xC2DA95F806C00032#64, .vaddsnVV ⟨5, 42, 21, 62, .e64⟩),
    (0xC3DA95F006C00032#64, .vaddsnVS ⟨5, 42, 21, 30, .e64⟩),
    (0xC4DA95FFF9600032#64, .vaddsnVI ⟨5, 42, 21, -7, .e64⟩),
    (0xC25A95F800000033#64, .vsubsnVV ⟨5, 42, 21, 62, .e8⟩),
    (0xC35A95F000000033#64, .vsubsnVS ⟨5, 42, 21, 30, .e8⟩),
    (0xC45A95FFF9000033#64, .vsubsnVI ⟨5, 42, 21, -7, .e8⟩),
    (0xC2DA95F802400034#64, .vavgVV ⟨5, 42, 21, 62, .e16⟩),
    (0xC3DA95F002400034#64, .vavgVS ⟨5, 42, 21, 30, .e16⟩),
    (0xC25A95F804800036#64, .vsmulVV ⟨5, 42, 21, 62, .e32⟩),
    (0xC35A95F004800036#64, .vsmulVS ⟨5, 42, 21, 30, .e32⟩),
    (0xC2DA95F806C00037#64, .vsshrVV ⟨5, 42, 21, 62, .e64⟩)] : List (BitVec 64 × Instr)),
    decodeWord p.1 = some p.2 := by
  decide +kernel

/-- 64-bit words put together from the fields of Table 4-14. -/
theorem test_decode_vint4 : ∀ p ∈ ([
    (0xC3DA95F006C00037#64, .vsshrVS ⟨5, 42, 21, 30, .e64⟩),
    (0xC4DA950007600037#64, .vsshrVI ⟨5, 42, 21, 7, .e64⟩),
    (0xC25A95F802800040#64, .vwaddVV ⟨5, 42, 21, 62, .e16, true⟩),
    (0xC25A95F802400040#64, .vwaddVV ⟨5, 42, 21, 62, .e16, false⟩),
    (0xC35A95F002400040#64, .vwaddVS ⟨5, 42, 21, 30, .e16⟩),
    (0xC2DA95F804C00041#64, .vwaddnVV ⟨5, 42, 21, 62, .e32, true⟩),
    (0xC2DA95F804800041#64, .vwaddnVV ⟨5, 42, 21, 62, .e32, false⟩),
    (0xC3DA95F004800041#64, .vwaddnVS ⟨5, 42, 21, 30, .e32⟩),
    (0xC25A95F800000044#64, .vwmulVV ⟨5, 42, 21, 62, .e8⟩),
    (0xC35A95F000000044#64, .vwmulVS ⟨5, 42, 21, 30, .e8⟩),
    (0xC2DA95F802400045#64, .vwmulnVV ⟨5, 42, 21, 62, .e16⟩),
    (0xC3DA95F002400045#64, .vwmulnVS ⟨5, 42, 21, 30, .e16⟩),
    (0xC25A95F804800046#64, .vwmaccVV ⟨5, 42, 21, 62, .e32⟩),
    (0xC35A95F004800046#64, .vwmaccVS ⟨5, 42, 21, 30, .e32⟩),
    (0xC2DA95F800000047#64, .vwmaccnVV ⟨5, 42, 21, 62, .e8⟩),
    (0xC3DA95F000000047#64, .vwmaccnVS ⟨5, 42, 21, 30, .e8⟩),
    (0xC25A95F802800050#64, .vnshrVV ⟨5, 42, 21, 62, .e16, true⟩),
    (0xC25A95F802400050#64, .vnshrVV ⟨5, 42, 21, 62, .e16, false⟩),
    (0xC35A95F002400050#64, .vnshrVS ⟨5, 42, 21, 30, .e16⟩),
    (0xC45A950007200050#64, .vnshrVI ⟨5, 42, 21, 7, .e16⟩),
    (0xC2DA95F804C00052#64, .vnclipVV ⟨5, 42, 21, 62, .e32, true⟩),
    (0xC2DA95F804800052#64, .vnclipVV ⟨5, 42, 21, 62, .e32, false⟩),
    (0xC3DA95F004800052#64, .vnclipVS ⟨5, 42, 21, 30, .e32⟩),
    (0xC4DA950007400052#64, .vnclipVI ⟨5, 42, 21, 7, .e32⟩)] : List (BitVec 64 × Instr)),
    decodeWord p.1 = some p.2 := by
  decide +kernel

/-- 64-bit words put together from the fields of Table 4-14. -/
theorem test_decode_vint5 : ∀ p ∈ ([
    (0xC25A95F800400053#64, .vnclipnVV ⟨5, 42, 21, 62, .e8, true⟩),
    (0xC25A95F800000053#64, .vnclipnVV ⟨5, 42, 21, 62, .e8, false⟩),
    (0xC35A95F000000053#64, .vnclipnVS ⟨5, 42, 21, 30, .e8⟩),
    (0xC45A950007000053#64, .vnclipnVI ⟨5, 42, 21, 7, .e8⟩),
    (0xC2DA80F804800029#64, .vmvVV ⟨5, 42, 62, .e32⟩),
    (0xC3DA80F004800029#64, .vmvVS ⟨5, 42, 30, .e32⟩),
    (0xC4DA80FFF9400029#64, .vmvVI ⟨5, 42, -7, .e32⟩)] : List (BitVec 64 × Instr)),
    decodeWord p.1 = some p.2 := by
  decide +kernel

/-- 64-bit words put together from the fields of R182 and Table 4-6. -/
theorem test_decode_cmp : ∀ p ∈ ([
    (0xC550D5F800000000#64, .vcmpVV ⟨.eq, 5, 3, 21, 62, .e8⟩),
    (0xC550D5F802400001#64, .vcmpVV ⟨.ne, 5, 3, 21, 62, .e16⟩),
    (0xC550D5F804800002#64, .vcmpVV ⟨.lt, 5, 3, 21, 62, .e32⟩),
    (0xC550D5F806C00003#64, .vcmpVV ⟨.le, 5, 3, 21, 62, .e64⟩),
    (0xC550D5F800000004#64, .vcmpVV ⟨.ltn, 5, 3, 21, 62, .e8⟩),
    (0xC550D5F802400005#64, .vcmpVV ⟨.len, 5, 3, 21, 62, .e16⟩),
    (0xC550D5F804800006#64, .vcmpVV ⟨.gt, 5, 3, 21, 62, .e32⟩),
    (0xC550D5F806C00007#64, .vcmpVV ⟨.ge, 5, 3, 21, 62, .e64⟩),
    (0xC550D5F800000008#64, .vcmpVV ⟨.gtn, 5, 3, 21, 62, .e8⟩),
    (0xC550D5F802400009#64, .vcmpVV ⟨.gen, 5, 3, 21, 62, .e16⟩),
    (0xC550D5F004810002#64, .vcmpVS ⟨.lt, 5, 3, 21, 30, .e32⟩),
    (0xC550D5FFF9420003#64, .vcmpVI ⟨.le, 5, 3, 21, -7, .e32⟩)] : List (BitVec 64 × Instr)),
    decodeWord p.1 = some p.2 := by
  decide +kernel

/-- 64-bit words put together from the fields of Tables 4-15, 4-16 and R189. -/
theorem test_decode_mask : ∀ p ∈ ([
    (0xC650C60400000000#64, .mand ⟨5, 3, 6, 1⟩),
    (0xC650C60400000001#64, .mor ⟨5, 3, 6, 1⟩),
    (0xC650C60400000002#64, .mxor ⟨5, 3, 6, 1⟩),
    (0xC650C60400000003#64, .mandn ⟨5, 3, 6, 1⟩),
    (0xC650C60000000004#64, .mnot ⟨5, 3, 6⟩),
    (0xC650C60000000008#64, .morx ⟨5, 3, 6⟩),
    (0xC650C60000000009#64, .mori ⟨5, 3, 6⟩),
    (0xC65546000000000C#64, .mcnt ⟨5, 21, 6⟩),
    (0xC65546000000000D#64, .mlow ⟨5, 21, 6⟩),
    (0xC65A86000240000E#64, .mcum ⟨5, 42, 6, .e16⟩),
    (0xC65A80000240000F#64, .vseq ⟨5, 42, .e16⟩),
    (0xC65A950002400010#64, .vconfl ⟨5, 42, 21, .e16⟩),
    (0xC650C00000000011#64, .mmovf ⟨5, 3, false⟩),
    (0xC650C10000000011#64, .mmovf ⟨5, 3, true⟩),
    (0xC75A95F002400000#64, .vslideup ⟨5, 42, 21, 30, .e16⟩),
    (0xC75A95F002400001#64, .vslidedn ⟨5, 42, 21, 30, .e16⟩),
    (0xC75A95F802400002#64, .vpermv ⟨5, 42, 21, 62, .e16⟩),
    (0xC70A951802400003#64, .vcompress ⟨42, 21, 6, .e16⟩),
    (0xC707950002400004#64, .vmvxs ⟨30, 21, .e16⟩),
    (0xC70A80F002400005#64, .vmvsx ⟨42, 30, .e16⟩),
    (0xC75A80F002400006#64, .vbcast ⟨5, 42, 30, .e16⟩),
    (0xCF816AAFFFF70000#64, .vwhile ⟨5, 21, 10, -9⟩),
    (0xCF816AAFFFF70001#64, .vwhilem ⟨5, 21, 10, -9⟩)] : List (BitVec 64 × Instr)),
    decodeWord p.1 = some p.2 := by
  decide +kernel

/-- 64-bit words put together from the fields of Table 4-17, R80 and R202. -/
theorem test_decode_vfp1 : ∀ p ∈ ([
    (0xC95A95F802400000#64, .vfaddVV ⟨5, 42, 21, 62, .fp16⟩),
    (0xCA5A95F002400000#64, .vfaddVS ⟨5, 42, 21, 30, .fp16⟩),
    (0xC9DA95F802410001#64, .vfsubVV ⟨5, 42, 21, 62, .bf16⟩),
    (0xCADA95F002410001#64, .vfsubVS ⟨5, 42, 21, 30, .bf16⟩),
    (0xC95A95F804800002#64, .vfmulVV ⟨5, 42, 21, 62, .fp32⟩),
    (0xCA5A95F004800002#64, .vfmulVS ⟨5, 42, 21, 30, .fp32⟩),
    (0xC9DA95F806C00003#64, .vfdivVV ⟨5, 42, 21, 62, .fp64⟩),
    (0xCADA95F006C00003#64, .vfdivVS ⟨5, 42, 21, 30, .fp64⟩),
    (0xC95A95F802400005#64, .vfminVV ⟨5, 42, 21, 62, .fp16⟩),
    (0xCA5A95F002400005#64, .vfminVS ⟨5, 42, 21, 30, .fp16⟩),
    (0xC9DA95F802410006#64, .vfmaxVV ⟨5, 42, 21, 62, .bf16⟩),
    (0xCADA95F002410006#64, .vfmaxVS ⟨5, 42, 21, 30, .bf16⟩),
    (0xC95A95F80240000C#64, .vfwmaVV ⟨5, 42, 21, 62, .fp16⟩),
    (0xCA5A95F00240000C#64, .vfwmaVS ⟨5, 42, 21, 30, .fp16⟩),
    (0xC9DA95F806C00010#64, .vfsgnVV ⟨5, 42, 21, 62, .fp64⟩),
    (0xCADA95F006C00010#64, .vfsgnVS ⟨5, 42, 21, 30, .fp64⟩),
    (0xC95A95F802400011#64, .vfsgnnVV ⟨5, 42, 21, 62, .fp16⟩),
    (0xCA5A95F002400011#64, .vfsgnnVS ⟨5, 42, 21, 30, .fp16⟩),
    (0xC95A95FA12400008#64, .vfmaVV ⟨5, 42, 21, 62, 33, .fp16⟩),
    (0xCA5A95F222400008#64, .vfmaVS ⟨5, 42, 21, 30, 17, .fp16⟩),
    (0xC9DA95FA12410009#64, .vfmsVV ⟨5, 42, 21, 62, 33, .bf16⟩),
    (0xCADA95F222410009#64, .vfmsVS ⟨5, 42, 21, 30, 17, .bf16⟩),
    (0xC95A95FA1480000A#64, .vfnmaVV ⟨5, 42, 21, 62, 33, .fp32⟩),
    (0xCA5A95F22480000A#64, .vfnmaVS ⟨5, 42, 21, 30, 17, .fp32⟩)] : List (BitVec 64 × Instr)),
    decodeWord p.1 = some p.2 := by
  decide +kernel

/-- 64-bit words put together from the fields of Table 4-17, R80 and R202. -/
theorem test_decode_vfp2 : ∀ p ∈ ([
    (0xC95A950002400004#64, .vfsqrt ⟨5, 42, 21, .fp16⟩),
    (0xC9DA950002410014#64, .vfclass ⟨5, 42, 21, .bf16⟩),
    (0xC95A950004800018#64, .vfexp2 ⟨5, 42, 21, .fp32⟩),
    (0xC9DA950002400019#64, .vfrcp ⟨5, 42, 21, .fp16⟩),
    (0xC95A95000241001A#64, .vfrsqrt ⟨5, 42, 21, .bf16⟩),
    (0xCB50D5F802400000#64, .vfcmpVV ⟨.eq, 5, 3, 21, 62, .fp16⟩),
    (0xCB50D5F002410000#64, .vfcmpVS ⟨.eq, 5, 3, 21, 30, .fp16⟩),
    (0xCB50D5F802440001#64, .vfcmpVV ⟨.lt, 5, 3, 21, 62, .bf16⟩),
    (0xCB50D5F002450001#64, .vfcmpVS ⟨.lt, 5, 3, 21, 30, .bf16⟩),
    (0xCB50D5F804800002#64, .vfcmpVV ⟨.le, 5, 3, 21, 62, .fp32⟩),
    (0xCB50D5F004810002#64, .vfcmpVS ⟨.le, 5, 3, 21, 30, .fp32⟩),
    (0xCB50D5F806C00003#64, .vfcmpVV ⟨.un, 5, 3, 21, 62, .fp64⟩),
    (0xCB50D5F006C10003#64, .vfcmpVS ⟨.un, 5, 3, 21, 30, .fp64⟩),
    (0xCB50D5F802400004#64, .vfcmpVV ⟨.ne, 5, 3, 21, 62, .fp16⟩),
    (0xCB50D5F002410004#64, .vfcmpVS ⟨.ne, 5, 3, 21, 30, .fp16⟩),
    (0xCC5A950000800F14#64, .vfcvt ⟨5, 42, 21, .e4m3, .fp32, .frm, true⟩),
    (0xCC5A950006C0010B#64, .vfcvt ⟨5, 42, 21, .int64, .fp64, .fixed .rtz, false⟩),
    (0xCC5A9500020002C2#64, .vfcvt ⟨5, 42, 21, .fp16, .nat8, .fixed .rdn, false⟩),
    (0xCC5A950000400B3F#64, .vfcvt ⟨5, 42, 21, .e8m0, .bf16, .fixed .rup, true⟩),
    (0xCC5A950000000456#64, .vfcvt ⟨5, 42, 21, .e2m1, .e5m2, .fixed .rmm, false⟩),
    (0xCC5A950000400898#64, .vfcvt ⟨5, 42, 21, .int8, .int16, .fixed .rne, true⟩),
    (0xCC5A9500000007ED#64, .vfcvt ⟨5, 42, 21, .nat4, .int4, .frm, false⟩),
    (0xCC5A95000480001A#64, .vfcvt ⟨5, 42, 21, .int32, .fp32, .fixed .rne, false⟩)] : List (BitVec 64 × Instr)),
    decodeWord p.1 = some p.2 := by
  decide +kernel

/-- 64-bit words put together from the fields of Table 4-6 and R208 to R212. -/
theorem test_decode_red : ∀ p ∈ ([
    (0xC85A95F800000000#64, .vredsum ⟨5, 42, 21, 62, .e8⟩),
    (0xC85A95F802400001#64, .vredmin ⟨5, 42, 21, 62, .e16⟩),
    (0xC85A95F804800002#64, .vredmax ⟨5, 42, 21, 62, .e32⟩),
    (0xC85A95F800000005#64, .vredand ⟨5, 42, 21, 62, .e8⟩),
    (0xC85A95F802400006#64, .vredor ⟨5, 42, 21, 62, .e16⟩),
    (0xC85A95F804800007#64, .vredxor ⟨5, 42, 21, 62, .e32⟩),
    (0xC85A95F800000008#64, .vwredsum ⟨5, 42, 21, 62, .e8⟩),
    (0xC85A95F802400018#64, .vscan ⟨5, 42, 21, 62, .e16⟩),
    (0xC85A95F802400010#64, .vfredsum ⟨5, 42, 21, 62, .fp16⟩),
    (0xC85A95F802410011#64, .vfredosum ⟨5, 42, 21, 62, .bf16⟩),
    (0xC85A95F804800012#64, .vfredmin ⟨5, 42, 21, 62, .fp32⟩),
    (0xC85A95F806C00013#64, .vfredmax ⟨5, 42, 21, 62, .fp64⟩),
    (0xC85A95F802400019#64, .vfscan ⟨5, 42, 21, 62, .fp16⟩)] : List (BitVec 64 × Instr)),
    decodeWord p.1 = some p.2 := by
  decide +kernel

/-- 64-bit words put together from the fields of Table 4-18. -/
theorem test_decode_vmem : ∀ p ∈ ([
    (0xD0DAAA002018FFF8#64, .vld ⟨5, 42, 21, .nibble, .device, -8⟩),
    (0xD1DAAAA00810FFF8#64, .vlds ⟨5, 42, 21, 10, .e16, .die, -8⟩),
    (0xD2DAAA0F9824FFF8#64, .vldx ⟨5, 42, 21, 62, .e64, true, .system, -8⟩),
    (0xD3DAAA000700FFF8#64, .vldseg ⟨5, 42, 21, .e8, 7, .strand, -8⟩),
    (0xD4DAAA001008FFF8#64, .vldff ⟨5, 42, 21, .e32, .core, -8⟩),
    (0xD8DAAA001019FFF8#64, .vst ⟨5, 42, 21, .of .e32, .unordered, .device, -8⟩),
    (0xD8DAAAA0201AFFF8#64, .vst ⟨5, 42, 21, .nibble, .notify 10, .device, -8⟩),
    (0xD9DAAAA01019FFF8#64, .vsts ⟨5, 42, 21, 10, .e32, true, .device, -8⟩),
    (0xDADAAAAF901EFFF8#64, .vstx ⟨5, 42, 21, 62, .e32, true, .notify 10, .device, -8⟩),
    (0xDBDAAA001318FFF8#64, .vstseg ⟨5, 42, 21, .e32, 3, .ordered, .device, -8⟩),
    (0xDCDAAA0F9018FFF8#64, .vscadd ⟨5, 42, 21, 62, .e32, false, .device, -8⟩),
    (0xDED0EAAF9018FFF8#64, .vwait ⟨5, 3, 21, 10, 62, .e32, .device, -8⟩)] : List (BitVec 64 × Instr)),
    decodeWord p.1 = some p.2 := by
  decide +kernel

/-- 64-bit words put together from the fields of Tables 12-5 and 12-8. -/
theorem test_decode_eng : ∀ p ∈ ([
    (0xE0802A0000000005#64, .stcfg ⟨5, 21⟩),
    (0xE08A80001000000D#64, .stbind ⟨5, 42, true⟩),
    (0xE080000020000005#64, .stunbind ⟨5⟩),
    (0xE085400030000005#64, .ststat ⟨5, 21⟩),
    (0xE4876AA5B0140000#64, .qcopy ⟨29, 21, 10, 11, 12, .system, false, true⟩),
    (0xE4876A0030000001#64, .qgather ⟨29, 21, 12, .strand⟩),
    (0xE4876A0030010002#64, .qscatter ⟨29, 21, 12, .core⟩),
    (0xE4876A0030020003#64, .qpload ⟨29, 21, 12, .die⟩),
    (0xE4876A0030030004#64, .qpstore ⟨29, 21, 12, .device⟩),
    (0xE4876A0030040005#64, .qspload ⟨29, 21, 12, .system⟩),
    (0xE487400030530006#64, .qfence ⟨29, 12, 0b1010, .device⟩),
    (0xE4876AA5B0030007#64, .qsignal ⟨29, 21, 10, 11, 12, .device⟩),
    (0xE4876AA000300008#64, .qstat ⟨29, 21, 10, false, true, true⟩)] : List (BitVec 64 × Instr)),
    decodeWord p.1 = some p.2 := by
  decide +kernel

/-- 64-bit words put together from the fields of Tables 14-7 and 15-8. -/
theorem test_decode_mat : ∀ p ∈ ([
    (0xF0800000F0000000#64, .mzero ⟨1, .int4⟩),
    (0xF0D015F8A3030001#64, .mupd ⟨5, 3, 21, 62, 1, .e4m3, .e2m1⟩),
    (0xF0D015F8A3030002#64, .mupdn ⟨5, 3, 21, 62, 1, .e4m3, .e2m1⟩),
    (0xF0800930C6A70003#64, .mmac ⟨9, 12, 1, .int8, .nat4, 2, 7⟩),
    (0xF08A9528A8000004#64, .mread ⟨42, 21, 10, 1, .e5m2⟩),
    (0xF08A9500D8000005#64, .mwrite ⟨42, 21, 1⟩),
    (0xF08015F878000006#64, .mscl ⟨21, 62, true⟩),
    (0xF08015F866800007#64, .mzpt ⟨21, 62, false, true⟩),
    (0xF085400080000008#64, .mstat ⟨21, 1⟩),
    (0xF080153092073010#64, .spmmac ⟨21, 12, 1, .fp16, .e4m3, 7, 3⟩),
    (0xF0801530F4070011#64, .spres ⟨21, 12, 1, .int4, .int8, 7⟩),
    (0xF0854A0000000012#64, .spstat ⟨21, 10⟩)] : List (BitVec 64 × Instr)),
    decodeWord p.1 = some p.2 := by
  decide +kernel

/-- 64-bit words put together from the fields of R360 and Table 21-6. -/
theorem test_decode_sys64 : ∀ p ∈ ([
    (0xF8802A0000000000#64, .vsave 21),
    (0xF8802A0010000000#64, .vrestore 21),
    (0xF885400020000017#64, .portq ⟨21, 23⟩),
    (0xF885540030000017#64, .portsw ⟨21, 10, 23⟩)] : List (BitVec 64 × Instr)),
    decodeWord p.1 = some p.2 := by
  decide +kernel

/-! ### Ill-formed instructions and words that are none -/

/-- One ill-formed term for each check of WellFormed: each is refused. -/
theorem test_ill_formed_refused : ∀ i ∈ ([
    .fcvtff ⟨.fp32, .fp32, 1, 2⟩, .vaddVI ⟨0, 0, 0, 256, .e8⟩, .vsubVI ⟨0, 0, 0, -129, .e8⟩, .vandVI ⟨0, 0, 0, 256, .e8⟩,
    .vorVI ⟨0, 0, 0, 256, .e8⟩, .vxorVI ⟨0, 0, 0, 256, .e8⟩, .vshlVI ⟨0, 0, 0, 8, .e8⟩, .vshrVI ⟨0, 0, 0, 16, .e16⟩,
    .vshaVI ⟨0, 0, 0, -1, .e64⟩, .vminVI ⟨0, 0, 0, 256, .e8⟩, .vmaxVI ⟨0, 0, 0, 256, .e8⟩, .vminnVI ⟨0, 0, 0, 256, .e8⟩,
    .vmaxnVI ⟨0, 0, 0, 256, .e8⟩, .vmergeVI ⟨0, 0, 0, 256, .e8⟩, .vmvVI ⟨0, 0, 256, .e8⟩, .vaddsVI ⟨0, 0, 0, 256, .e8⟩,
    .vsubsVI ⟨0, 0, 0, 256, .e8⟩, .vaddsnVI ⟨0, 0, 0, 256, .e8⟩, .vsubsnVI ⟨0, 0, 0, 256, .e8⟩, .vsshrVI ⟨0, 0, 0, 64, .e64⟩,
    .vwaddVV ⟨0, 0, 0, 0, .e64, false⟩, .vwaddVS ⟨0, 0, 0, 0, .e64⟩, .vwaddnVV ⟨0, 0, 0, 0, .e64, false⟩,
    .vwaddnVS ⟨0, 0, 0, 0, .e64⟩, .vwmulVV ⟨0, 0, 0, 0, .e64⟩, .vwmulVS ⟨0, 0, 0, 0, .e64⟩, .vwmulnVV ⟨0, 0, 0, 0, .e64⟩,
    .vwmulnVS ⟨0, 0, 0, 0, .e64⟩, .vwmaccVV ⟨0, 0, 0, 0, .e64⟩, .vwmaccVS ⟨0, 0, 0, 0, .e64⟩, .vwmaccnVV ⟨0, 0, 0, 0, .e64⟩,
    .vwmaccnVS ⟨0, 0, 0, 0, .e64⟩, .vnshrVV ⟨0, 0, 0, 0, .e64, true⟩, .vnshrVS ⟨0, 0, 0, 0, .e64⟩,
    .vnshrVI ⟨0, 0, 0, 1, .e64⟩, .vnshrVI ⟨0, 0, 0, 16, .e8⟩, .vnclipVV ⟨0, 0, 0, 0, .e64, false⟩,
    .vnclipVS ⟨0, 0, 0, 0, .e64⟩, .vnclipVI ⟨0, 0, 0, 64, .e32⟩, .vnclipnVV ⟨0, 0, 0, 0, .e64, false⟩,
    .vnclipnVS ⟨0, 0, 0, 0, .e64⟩, .vnclipnVI ⟨0, 0, 0, 32, .e16⟩] : List Instr), ¬i.WellFormed := by
  decide +kernel

/-- The same for masks, loops, floating point, memory, queues, tiles and port groups. -/
theorem test_ill_formed_refused_too : ∀ i ∈ ([
    .vcmpVV ⟨.eq, 1, 0, 0, 0, .e8⟩, .vcmpVS ⟨.eq, 1, 0, 0, 0, .e8⟩, .vcmpVI ⟨.eq, 1, 0, 0, 0, .e8⟩,
    .vcmpVI ⟨.eq, 1, 1, 0, 256, .e8⟩, .mand ⟨0, 0, 1, 1⟩, .mor ⟨0, 0, 1, 1⟩, .mxor ⟨0, 0, 1, 1⟩, .mandn ⟨0, 0, 1, 1⟩,
    .mnot ⟨0, 0, 1⟩, .morx ⟨0, 0, 1⟩, .mori ⟨0, 0, 1⟩, .mmovf ⟨0, 0, true⟩, .vcompress ⟨1, 2, 0, .e8⟩,
    .vwhile ⟨0, 0, 1, -1⟩, .vwhile ⟨0, 1, 0, -1⟩, .vwhile ⟨0, 1, 1, -1⟩, .vwhilem ⟨0, 1, 2, -1⟩,
    .vfwmaVV ⟨0, 0, 0, 0, .fp64⟩, .vfwmaVS ⟨0, 0, 0, 0, .fp64⟩, .vfexp2 ⟨0, 0, 0, .fp64⟩, .vfrcp ⟨0, 0, 0, .fp64⟩,
    .vfrsqrt ⟨0, 0, 0, .fp64⟩, .vfcmpVV ⟨.eq, 0, 0, 0, 0, .fp32⟩, .vfcmpVS ⟨.eq, 0, 0, 0, 0, .fp32⟩,
    .vfcvt ⟨0, 0, 0, .e4m3, .e4m3, .frm, false⟩, .vwredsum ⟨0, 0, 0, 0, .e64⟩, .vldseg ⟨0, 0, 0, .e8, 0, .core, 0⟩,
    .vstseg ⟨0, 0, 0, .e8, 0, .ordered, .core, 0⟩, .vwait ⟨0, 0, 1, 2, 3, .e32, .core, 0⟩,
    .vwait ⟨0, 1, 1, 2, 3, .e16, .core, 0⟩, .qsignal ⟨0, 1, 2, 3, 0, .core⟩, .qstat ⟨0, 1, 2, false, false, true⟩,
    .mzero ⟨0, .fp32⟩, .mupd ⟨0, 0, 0, 0, 0, .fp16, .int8⟩, .mupdn ⟨0, 0, 0, 0, 0, .bf16, .fp16⟩,
    .mmac ⟨0, 0, 0, .int8, .fp16, 0, 0⟩, .mmac ⟨15, 0, 0, .int8, .int8, 1, 0⟩, .mmac ⟨0, 13, 0, .int8, .int8, 2, 0⟩,
    .mmac ⟨0, 0, 0, .int8, .int8, 3, 0⟩, .mread ⟨0, 1, 2, 0, .int8⟩, .mread ⟨0, 1, 2, 0, .int64⟩,
    .spmmac ⟨1, 0, 0, .nat8, .int8, 0, 0⟩, .spres ⟨1, 0, 0, .int8, .fp16, 0⟩, .portq ⟨1, 24⟩, .portsw ⟨1, 2, 31⟩] :
    List Instr), ¬i.WellFormed := by
  decide +kernel

/-- Parcels that match no instruction: reserved majors and functions, unused fields that are set, operands past their limits
(R60, R62, R70 to R76). -/
theorem test_reserved_parcels : ([
    0x00000000#32, 0x1A000000#32, 0x84000000#32, 0xC0000000#32, 0x02000006#32, 0x02000033#32, 0x02000430#32, 0x10000040#32,
    0x3800000A#32, 0x38000280#32, 0x3A000001#32, 0x50000007#32, 0x50001010#32, 0x50000512#32, 0x52000004#32, 0x60005000#32,
    0x60000014#32, 0x60101007#32, 0x60008007#32, 0x62000100#32, 0x62000005#32, 0x62100000#32, 0x6400000A#32, 0x64000C02#32, 0x64000807#32,
    0x64001009#32, 0x64008000#32] : List (BitVec 32)).all (fun w => (decodeParcel w).isNone) = true := by
  decide +kernel

/-- 64-bit words that match none: reserved majors, functions and widths, unused fields that are set, fields past their limits
(R67 to R71, R77 to R81, R188, R202, R248, R278, R377). -/
theorem test_reserved_words : ([
    0xC080000000000000#64, 0xC280000000000002#64, 0xC280000008000000#64, 0xC280000000400000#64, 0xC280000000010000#64,
    0xC280000010000000#64, 0xC380000400000000#64, 0xC380000000000035#64, 0xC480000100000000#64, 0xC480000010000008#64,
    0xC580000000000000#64, 0xC580400000030000#64, 0xC582000000000000#64, 0xC680000000000000#64, 0xC680400400000004#64,
    0xC681C80000000000#64, 0xC780000002400003#64, 0xC790004402400003#64, 0xC980000000000000#64, 0xC980000004810000#64,
    0xCA80000004800004#64, 0xCB80400004820000#64, 0xCC80000002400731#64, 0xCC80000000000500#64, 0xCC80000002400022#64,
    0xD080000028000000#64, 0xD080000000010000#64, 0xD080000000280000#64, 0xD180000020000000#64, 0xD380000000000000#64,
    0xD880000000030000#64, 0xD880001000000000#64, 0xDE80000018000000#64, 0xDE80400008000000#64, 0xE090000000000000#64,
    0xE080000000000008#64, 0xE480000000050000#64, 0xE480000000000009#64, 0xE4C0000000000000#64, 0xE4A0000000000000#64,
    0xF080000138000000#64, 0xF080000020001000#64, 0xF080000044404010#64, 0xF880000020000018#64, 0xC180000010000004#64,
    0xC180000010000020#64] : List (BitVec 64)).all (fun w => (decodeWord w).isNone) = true := by
  decide +kernel


/-! ### States that meet the hypotheses of the statements -/

/-- A result that is ok, with a state beside it, and satisfies a test. -/
def okThat {ε α σ : Type} (r : Except ε α × σ) (p : α → σ → Bool) : Bool :=
  match r with
  | (.ok x, t) => p x t
  | (.error _, _) => false

theorem ok_that {ε α σ : Type} {r : Except ε α × σ} {p : α → σ → Bool} (h : okThat r p = true) :
    ∃ x t, r = (.ok x, t) ∧ p x t = true := by
  obtain ⟨x | x, t⟩ := r
  · exact absurd h Bool.false_ne_true
  · exact ⟨x, t, rfl, h⟩

/-- The same without a state beside it. -/
def okAlone {ε α : Type} (r : Except ε α) (p : α → Bool) : Bool :=
  match r with
  | .ok x => p x
  | .error _ => false

theorem ok_alone {ε α : Type} {r : Except ε α} {p : α → Bool} (h : okAlone r p = true) : ∃ x, r = .ok x ∧ p x = true := by
  obtain x | x := r
  · exact absurd h Bool.false_ne_true
  · exact ⟨x, rfl, h⟩

/-- A result that is an error and satisfies a test. -/
def errAlone {ε α : Type} (r : Except ε α) (p : ε → Bool) : Bool :=
  match r with
  | .ok _ => false
  | .error e => p e

theorem err_alone {ε α : Type} {r : Except ε α} {p : ε → Bool} (h : errAlone r p = true) : ∃ e, r = .error e ∧ p e = true := by
  obtain e | x := r
  · exact ⟨e, rfl, h⟩
  · exact absurd h Bool.false_ne_true

/-- The same with a state beside it. -/
def errThat {ε α σ : Type} (r : Except ε α × σ) (p : ε → Bool) : Bool :=
  match r with
  | (.ok _, _) => false
  | (.error e, _) => p e

theorem err_that {ε α σ : Type} {r : Except ε α × σ} {p : ε → Bool} (h : errThat r p = true) :
    ∃ e t, r = (.error e, t) ∧ p e = true := by
  obtain ⟨x | x, t⟩ := r
  · exact ⟨x, t, rfl, h⟩
  · exact absurd h Bool.false_ne_true

/-- A word is ready and the state of its pops satisfies a test. -/
def readyThat (s : State) (i : Instr) (p : State → Bool) : Bool :=
  decide (s.cur.wordCheck (wordInfo i s.cur) = none) && decide (s.cur.readBoundDst (wordInfo i s.cur).dsts = none) &&
    okAlone (s.popAll (regsOf (wordInfo i s.cur).srcs)) p

theorem ready_that {s : State} {i : Instr} {p : State → Bool} (h : readyThat s i p = true) :
    ∃ t, s.Ready i t ∧ p t = true := by
  simp only [readyThat, Bool.and_eq_true, decide_eq_true_eq] at h
  obtain ⟨t, ht, hp⟩ := ok_alone h.2
  exact ⟨t, ⟨h.1.1, h.1.2, ht⟩, hp⟩

/-- Page tables by hand: three entries (R219 to R221) that map the first 64 MiB to physical 0x4000000 on, with RD, W, U, A
and D. -/
def table : Memory := [(0x2000, 0x03), (0x2001, 0x40), (0x4000, 0x03), (0x4001, 0x60), (0x6000, 0x7D), (0x6003, 0x04)]

/-- A partition of one core whose table is `table`. -/
def part1 : Partition :=
  { pid := 1, first := 0, count := 1, policy := 0, conf := false, root := 0x2000, queueArea := 0x100000,
    arenaBase := 0x1000000, arenaSize := 0x100000, transSize := 0x10000, images := [], variants := [], handle := (5, 6),
    owner := some 1, creator := 1, events := [], lost := 0, stale := 0, proxies := 0, windows := [], nextWin := 1, job := none
    secret := [], memKey := 0, ending := false }

/-- A strand of it at S level with one lane group, 32 registers, vl 4 at 32 bits. -/
def strand1 : Strand :=
  { Strand.reset { core := 0, sid := 0 } with
    part := 1, run := .running, level := .s, pc := 0x1000000, lanegrant := 1, arenabase := 0x1000000, arenabound := 0x1100000
    vec := { VecPart.reset with vl := 4, ew := .e32, vnreg := 32, slices := [.reset] } }

/-- The module in service with that partition, one session on group 0 and the strand issuing. -/
def live : State :=
  { State.reset with
    cur := strand1, mem := table, parts := [part1], cores := [.reset 0]
    sessions := [{ num := 1, order := 0, attested := true, paths := [0], transcript := [], exchange := false, secret := none, waiting := [] }]
    groups := State.reset.groups.set 0 { Group.reset with pers := 1, target := 1 }
    module := { Module.reset with phase := .service, owning := some 1, nextSession := 2 } }

/-- It with another issuing strand. -/
def withStrand (f : Strand → Strand) : State := { live with cur := f live.cur }

/-- It with another vector part. -/
def withVector (f : VecPart → VecPart) : State := withStrand fun c => { c with vec := f c.vec }

/-- It in matrix mode: 64 registers of 64-bit elements, vl 128. -/
def inTiles : State := withVector fun v => { v with vnreg := 64, ew := .e64, vl := 128, mmode := true, entered := true }

/-- A window of that partition at the host range, and the state that has it. -/
def hostWin (fb : Bool) : Window :=
  { num := 1, kind := 2, va := 0x8000000, len := 0x10000, pa := 0x800000000000, groups := 1, ways := 1, gran4k := false, en := true, rm := false,
    fb := fb, bounce := false, session := 1, peer := 0, hbase := 0x5000, revoked := false }

/-- The state with that window, which a leaf of 64 MiB at 0x8000000 maps to the host range. -/
def withHost (fb : Bool) : State :=
  { live with
    mem := table ++ [(0x6010, 0x7D), (0x6015, 0x80)]
    parts := [{ part1 with windows := [hostWin fb] }]
    cur := { strand1 with x := strand1.x.set 5 0x8000000 } }

theorem meets_EveryWordDecodesToItsInstruction : (Instr.vaddVV ⟨0, 1, 2, 3, .e32⟩).WellFormed := by decide

theorem meets_AluFunctionResults :
    (∃ (o : RRR) (s : State), s.getX o.b = 0) ∧
    (∃ (o : RRR) (s : State), s.getX o.a = 0x8000000000000000#64 ∧ s.getX o.b = 0xFFFFFFFFFFFFFFFF#64 ∧ s.getX o.b ≠ 0) ∧
    (∃ (o : RRR) (s : State), s.getX o.b ≠ 0 ∧ ¬(s.getX o.a = 0x8000000000000000#64 ∧ s.getX o.b = 0xFFFFFFFFFFFFFFFF#64)) :=
  ⟨⟨⟨1, 2, 3⟩, live, by decide +kernel⟩,
   ⟨⟨1, 2, 3⟩, withStrand fun c => { c with x := (c.x.set 2 0x8000000000000000#64).set 3 0xFFFFFFFFFFFFFFFF#64 }, by decide +kernel⟩,
   ⟨⟨1, 2, 3⟩, withStrand fun c => { c with x := c.x.set 3 0xFFFFFFFFFFFFFFFF#64 }, by decide +kernel⟩⟩

theorem meets_BranchAndJumpResults :
    (∃ (o : RRI) (s : State), (s.getX o.a + o.imm.signExtend 64).toNat % 4 = 0) ∧
    (∃ (o : RRI) (s : State), (s.getX o.a + o.imm.signExtend 64).toNat % 4 ≠ 0) :=
  ⟨⟨⟨1, 2, 8⟩, live, by decide +kernel⟩, ⟨⟨1, 2, 3⟩, live, by decide +kernel⟩⟩

theorem meets_ScalarAccessResults :
    (∃ (o : RRI) (s t : State) (x : Xlat), s.cur.lateStop = none ∧
      s.access (s.getX o.a + o.imm.signExtend 64) 8 .load = (.ok x, t)) ∧
    (∃ (o : RRI) (s t : State) (x : Xlat) (q : Place), s.access (s.getX o.a + o.imm.signExtend 64) 8 .store = (.ok x, t) ∧
      (q.host ≠ x.place.host ∨ q.addr < x.place.addr ∨ x.place.addr + 8 ≤ q.addr) ∧ x.spares q.addr 1) ∧
    (∃ (o : RRI) (s : State), (s.getX o.a + o.imm.signExtend 64).toNat % 2 ≠ 0) ∧
    (∃ (o : RRI) (s : State), (s.getX o.a + o.imm.signExtend 64).toNat % 8 = 0 ∧
      2 ^ 56 ≤ (s.getX o.a + o.imm.signExtend 64).toNat) := by
  refine ⟨?_, ?_, ⟨⟨1, 2, 3⟩, live, by decide +kernel⟩, ⟨⟨1, 2, -8⟩, live, by decide +kernel⟩⟩
  · obtain ⟨x, t, h, _⟩ := ok_that (r := live.access (live.getX 2 + (8#15).signExtend 64) 8 .load) (p := fun _ _ => true) (by decide +kernel)
    exact ⟨⟨1, 2, 8⟩, live, t, x, rfl, h⟩
  · obtain ⟨x, t, h, hp⟩ := ok_that (r := live.access (live.getX 2 + (8#15).signExtend 64) 8 .store) (p := fun x _ => decide (x.place.addr + 8 ≤ 0x5000000) && x.leaf.all fun (l : Leaf) => decide (l.entry + 8 ≤ 0x5000000)) (by decide +kernel)
    simp only [Bool.and_eq_true, decide_eq_true_eq] at hp
    refine ⟨⟨1, 2, 8⟩, live, t, x, ⟨false, 0x5000000, 0⟩, h, .inr (.inr hp.1), fun l hl => .inr ?_⟩
    simpa [hl] using hp.2

/-- A leaf of 64 MiB at 0x8000000 with some low and high bytes. -/
def leafAt (lo hi5 : Byte) : Memory := table ++ [(0x6010, lo), (0x6015, hi5)].filter fun c => c.2 ≠ 0

/-- The state with the host window, whose group is another one. -/
def hostGroup (g : Group) (w : Window → Window) : State :=
  { withHost true with groups := (withHost true).groups.set 0 g, parts := [{ part1 with windows := [w (hostWin true)] }] }

/-- States, addresses and needs of accesses that fail after their translation, each with the clause that it falls under. -/
def failRows : List (State × Nat × Need × (State → Partition → Nat → Bool)) :=
  [({ live with mem := leafAt 0x75 0 }, 0x8000000, .store, fun _ _ _ => true),
    (withStrand fun c => { c with level := .a }, 0x100000, .store, fun s p _ => queueAreaDenied (some p) s.cur.level .store 0x100000),
    ({ live with mem := leafAt 0x7D 1 }, 0x8000000, .load, fun _ _ pa => decide (rangeOf pa = .reserved)),
    ({ live with parts := [{ part1 with arenaBase := 0x4000000 }] }, 0, .load, fun s _ pa =>
      decide (rangeOf pa = .gddr) && !s.memoryOk pa),
    ({ withHost true with parts := [part1] }, 0x8000000, .load, fun _ p pa => decide (rangeOf pa = .host) &&
      (p.windowAt 0x8000000 pa).isNone),
    (hostGroup { Group.reset with state := .down } id, 0x8000000, .load, fun _ p pa => decide (rangeOf pa = .host) &&
      (p.windowAt 0x8000000 pa).any fun w => w.en && !w.bounce),
    (hostGroup { Group.reset with state := .draining, pers := 1 } id, 0x8000000, .load, fun s p pa =>
      (p.windowAt 0x8000000 pa).any fun w => !w.rm && ((routeGroups w (pa - w.pa)).filterMap s.group?).any groupSwitching),
    (hostGroup { Group.reset with pers := 1 } fun w => { w with revoked := true }, 0x8000000, .load, fun s p pa =>
      (p.windowAt 0x8000000 pa).any fun w => w.revoked && ((routeGroups w (pa - w.pa)).filterMap s.group?).any fun g => groupServes g w.kind)]

theorem meets_ScalarAccessResults_fails :
    (live.landingAt live.cur.part 0x8000000 = none ∧ live.cached live.cur.via 0x8000000 = none ∧
      errAlone (walk live.mem live.tableOk part1.root 0x8000000) (fun c => decide (c = .page)) = true) ∧
    ∀ r ∈ failRows, ∃ p, r.1.partition? r.1.cur.part = some p ∧ r.1.landingAt r.1.cur.part r.2.1 = none ∧
      ∃ l t, r.1.findLeaf r.1.cur.via r.2.1 = (.ok l, t) ∧ r.2.2.2 r.1 p (pteFrame l.word + (r.2.1 - l.base)) = true := by
  refine ⟨by decide +kernel, fun r hr => ?_⟩
  have h := List.all_eq_true.1 (by decide +kernel : failRows.all (fun r => (r.1.partition? r.1.cur.part).any fun p =>
    decide (r.1.landingAt r.1.cur.part r.2.1 = none) && okThat (r.1.findLeaf r.1.cur.via r.2.1) fun l _ =>
      r.2.2.2 r.1 p (pteFrame l.word + (r.2.1 - l.base))) = true) r hr
  obtain ⟨p, hp, h⟩ := Option.any_eq_true _ _ |>.1 h
  simp only [Bool.and_eq_true, decide_eq_true_eq] at h
  exact ⟨p, hp, h.1, ok_that h.2⟩

theorem meets_FourLevelWalkFindsLeaf : ∃ (m : Memory) (e1 e2 e3 e4 : Word),
    let link := fun (e : Word) => pteV e && pteT e && pteReservedOk e && decide (pteSz e = 0)
    m.readLE 0x2000 8 = e1.toNat ∧ m.readLE (pteNext e1) 8 = e2.toNat ∧ m.readLE (pteNext e2) 8 = e3.toNat ∧
      m.readLE (pteNext e3) 8 = e4.toNat ∧ pteNext e1 < 0x2000000000 ∧ pteNext e2 < 0x2000000000 ∧
      pteNext e3 < 0x2000000000 ∧ link e1 = true ∧ link e2 = true ∧ link e3 = true ∧ pteV e4 = true ∧ pteT e4 = false ∧
      pteReservedOk e4 = true ∧ pteSz e4 = 0 ∧ pteTlo e4 = 0 :=
  ⟨[(0x2000, 0x03), (0x2001, 0x40), (0x4000, 0x03), (0x4001, 0x60), (0x6000, 0x03), (0x6001, 0x80), (0x8000, 0x7D),
    (0x8003, 0x04)], 0x4003, 0x6003, 0x8003, 0x400007D, by decide +kernel⟩

theorem meets_ScalarFloatResults :
    (scalarFmt .fp32).isNaN 0xFF800001 = true ∧ (scalarFmt .fp32).mag 0x80000000 = 0 ∧
      (scalarFmt .fp32).mag 0xFF800000 = (scalarFmt .fp32).infEnc ∧
      (scalarFmt .fp32).mag 1 ≠ 0 ∧ (scalarFmt .fp32).mag 1 < (scalarFmt .fp32).infEnc := by decide +kernel

theorem meets_RoundingKeepsFormatValues : 1 < 2 ^ (scalarFmt .bf16).width ∧ (scalarFmt .bf16).isNaN 1 = false ∧
    0xFF80 < 2 ^ (scalarFmt .bf16).width ∧ (scalarFmt .bf16).isNaN 0xFF80 = false := by decide +kernel

theorem meets_CsrInstructionResults : (∃ s : State, csrVector .vrm = true ∧ s.cur.vowner = s.cur.ctxid ∧
    mayWrite s.cur.level .vrm = true) ∧
    ∀ x ∈ ([0x7FFF, 0x8000] : List (BitVec 16)), ∃ s : State, csrVector .vrm = true ∧ s.cur.vowner ≠ s.cur.ctxid ∧
      mayWrite s.cur.level .vrm = true ∧ s.cur.ctxid = x :=
  ⟨⟨live, by decide +kernel⟩, fun x hx => ⟨withStrand fun c => { c with ctxid := x }, by
    simp only [List.mem_cons, List.not_mem_nil, or_false] at hx
    obtain rfl | rfl := hx <;> decide +kernel⟩⟩

/-- Values of x2 that the ordinary CSRs take, and that they refuse. -/
theorem meets_CsrWriteResults_values :
    (∀ r ∈ ([(.vstart, 3), (.vrm, 4), (.frm, 12), (.planebase, 0xBF00000), (.trvec, 0x1FFFFFFF8), (.wctl 3, 0xC05)] : List (Csr × Word)),
      let s := withStrand fun c => { c with x := c.x.set 2 r.2 }
      (csrVector r.1 = true → s.cur.vowner = s.cur.ctxid) ∧ 3 < s.cur.vlmax ∧ (s.getX 2).toNat = r.2.toNat) ∧
    ∀ r ∈ ([(.vstart, 128), (.vrm, 5), (.frm, 7), (.planebase, 0xBF10000), (.trvec, 4), (.wctl 0, 0xD00)] : List (Csr × Word)),
      let s := withStrand fun c => { c with x := c.x.set 2 r.2 }
      (csrVector r.1 = true → s.cur.vowner = s.cur.ctxid) ∧ s.cur.vlmax ≤ 256 ∧ (s.getX 2).toNat = r.2.toNat := by
  decide +kernel

theorem meets_CsrWriteResults :
    (∃ (o : CsrRmw) (s : State), mayWrite s.cur.level o.csr = false) ∧
    (∃ (v : Word) (s : State), s.cur.vec.mmode = false ∧ grantShape (v.setWidth 8) = true ∧ s.lanesHeld (v.setWidth 8) = false ∧
      v.setWidth 8 ≠ s.cur.lanegrant) ∧
    (∃ s : State, s.cur.vec.mmode = true) ∧ (∃ (v : Word), grantShape (v.setWidth 8) = false) ∧
    (∃ (v : Word) (s : State), s.lanesHeld (v.setWidth 8) = true) ∧
    (∃ (v : Word), (v.setWidth 16).toNat < 0x8000) ∧
    (∃ (v : Word) (s : State), ¬((v.setWidth 16).toNat < 0x8000) ∧ v.setWidth 16 = s.cur.taskCtx) ∧
    (∃ (v : Word) (s : State), ¬((v.setWidth 16).toNat < 0x8000 ∨ v.setWidth 16 = s.cur.taskCtx)) ∧
    (∃ v : Word, v.toNat / 256 % 256 ≤ 0x0F) ∧ ∃ v : Word, 0x0F < v.toNat / 256 % 256 :=
  ⟨⟨⟨1, .vl, 2⟩, live, by decide +kernel⟩, ⟨3, live, by decide +kernel⟩, ⟨inTiles, rfl⟩, ⟨5, by decide +kernel⟩,
    ⟨2, { live with others := [{ strand1 with id := { core := 0, sid := 1 }, lanegrant := 2, task := some (1, 0) }] }, by decide +kernel⟩,
    ⟨0x7FFF, by decide +kernel⟩, ⟨0x8000, withStrand fun c => { c with taskCtx := 0x8000 }, by decide +kernel⟩,
    ⟨0x8000, live, by decide +kernel⟩, ⟨0x0F00, by decide +kernel⟩, ⟨0x1000, by decide +kernel⟩⟩

/-- A 64-bit and a 32-bit AMO on x5. -/
def amoOf (w32 : Bool) : AmoOp := { d := 1, a := 5, b := 3, scope := .core, order := .relaxed, w32 := w32 }

theorem meets_AmoResults_memory : ∃ (o : AmoOp) (s t : State) (x : Xlat),
    s.access (s.getX o.a) (if o.w32 then 4 else 8) .amo = (.ok x, t) ∧
      x.place.host = false ∧ x.spares x.place.addr 8 ∧ x.spares 0x5000000 1 ∧ x.place.addr + 8 ≤ 0x5000000 := by
  obtain ⟨x, t, h, hp⟩ := ok_that (r := live.access (live.getX (amoOf false).a) (if (amoOf false).w32 then 4 else 8) .amo) (p := fun x _ => decide (x.place.host = false ∧ x.place.addr + 8 ≤ 0x5000000) &&
      x.leaf.all fun (l : Leaf) => decide (l.entry + 8 ≤ x.place.addr ∧ l.entry + 8 ≤ 0x5000000)) (by decide +kernel)
  simp only [Bool.and_eq_true, decide_eq_true_eq] at hp
  refine ⟨amoOf false, live, t, x, h, hp.1.1, fun l hl => .inr ?_, fun l hl => .inr ?_, hp.1.2⟩
  · have := hp.2
    simp only [hl, Option.all_some, decide_eq_true_eq] at this
    exact this.1
  · have := hp.2
    simp only [hl, Option.all_some, decide_eq_true_eq] at this
    exact this.2

theorem amo_host_ok (fb : Bool) :
    okThat ((withHost fb).access ((withHost fb).getX (amoOf true).a) (if (amoOf true).w32 then 4 else 8) .amo)
      (fun x _ => decide (x.place.host = true) && x.win.any fun (w : Window) => decide (w.fb = fb)) = true := by
  cases fb
  · decide +kernel
  · decide +kernel

theorem meets_AmoResults_host : ∀ fb, ∃ (o : AmoOp) (s t : State) (x : Xlat) (w : Window),
    s.access (s.getX o.a) (if o.w32 then 4 else 8) .amo = (.ok x, t) ∧
      x.place.host = true ∧ x.win = some w ∧ w.fb = fb := by
  intro fb
  obtain ⟨x, t, h, hp⟩ := ok_that (amo_host_ok fb)
  simp only [Bool.and_eq_true, decide_eq_true_eq, Option.any_eq_true] at hp
  obtain ⟨hh, w, hw, hf⟩ := hp
  exact ⟨amoOf true, withHost fb, t, x, w, h, hh, hw, hf⟩

theorem meets_ClaimFenceCacheResults :
    (∃ s : State, s.cur.vec.mmode = true) ∧
    (∃ s : State, s.cur.vec.mmode = false ∧ s.cur.vowner ≠ s.cur.ctxid ∧ s.cur.ctxid.toNat < 0x8000) ∧
    (∃ (o : RRR) (s t : State) (x : Xlat), s.cur.vec.mmode = false ∧ s.cur.vowner = s.cur.ctxid ∧
      s.access (s.getX o.a) 16 .amo = (.ok x, t) ∧ x.place.host = false ∧ rangeOf x.place.addr = .gddr) ∧
    (∃ s : State, s.cur.commandsDone = true ∧ s.cur.run = .fenceE ∧ s.cur.conv.watch = none) ∧
    (∃ s : State, s.cur.commandsDone = false ∧ s.cur.run = .fenceE) := by
  refine ⟨⟨inTiles, rfl⟩, ⟨withStrand fun c => { c with vowner := 1 }, by decide +kernel⟩, ?_,
    ⟨withStrand fun c => { c with run := .fenceE }, by decide +kernel⟩,
    ⟨withStrand fun c => { c with run := .fenceE, queues := c.queues.set 0 { EngineQueue.reset with
      entries := [⟨.signal none 0 1 8, none, .core, .s⟩] } }, by decide +kernel⟩⟩
  obtain ⟨x, t, h, hp⟩ := ok_that (r := live.access (live.getX 2) 16 .amo) (p := fun x _ => decide (x.place.host = false ∧ rangeOf x.place.addr = .gddr)) (by decide +kernel)
  simp only [decide_eq_true_eq] at hp
  exact ⟨⟨1, 2, 3⟩, live, t, x, rfl, rfl, h, hp⟩


/-- Every word of a list is well formed and ready on a state, and the state of its pops satisfies a test. -/
theorem meet_all {l : List Instr} {s : State} {p : State → Bool} (h : (l.all fun i => i.wf && readyThat s i p) = true) :
    ∀ i ∈ l, i.WellFormed ∧ ∃ t, s.Ready i t ∧ p t = true := by
  intro i hi
  have := List.all_eq_true.1 h i hi
  simp only [Bool.and_eq_true] at this
  exact ⟨this.1, ready_that this.2⟩

/-- A word whose pops leave the state as it is. -/
theorem ready_self {s : State} {i : Instr} (h : readyThat s i (fun t => decide (t = s)) = true) : s.Ready i s := by
  obtain ⟨t, ht, hp⟩ := ready_that h
  have he : t = s := of_decide_eq_true hp
  rwa [he] at ht

/-- The table of the page-sorting unit for a plan, and the state it leaves. -/
def sorted (t : State) (p : VmPlan) : List (Nat × Except Cause (Option Leaf)) × State :=
  t.sortPages (distinct (p.addresses.map fun a => granule a.1))

/-- Every access of a plan passes, and the table and state of the page-sorting unit satisfy a test. -/
def passes (t : State) (p : VmPlan) (q : List (Nat × Except Cause (Option Leaf)) → State → Bool) : Bool :=
  decide (p.precise = none) && q (sorted t p).1 (sorted t p).2 &&
    p.addresses.all fun a => okAlone ((sorted t p).2.byGranule (sorted t p).1 a.2 a.1) fun x =>
      !p.noHost || decide (x.place.host = false)

theorem passes_sound {t : State} {p : VmPlan} {q : List (Nat × Except Cause (Option Leaf)) → State → Bool}
    (h : passes t p q = true) : ∃ tbl u, t.Passes p tbl u ∧ q tbl u = true := by
  unfold passes at h
  unfold State.Passes
  change ∃ tbl u, (_ ∧ sorted t p = (tbl, u) ∧ _) ∧ _
  generalize sorted t p = r at h ⊢
  simp only [Bool.and_eq_true, decide_eq_true_eq, List.all_eq_true] at h
  obtain ⟨⟨h1, hq⟩, h2⟩ := h
  refine ⟨r.1, r.2, ⟨h1, rfl, fun a ha => ?_⟩, hq⟩
  obtain ⟨x, hx, hp⟩ := ok_alone (h2 a ha)
  refine ⟨x, hx, fun hn => ?_⟩
  simpa [hn] using hp

theorem meets_TrapEntryResults :
    (∃ s : State, s.cur.level ≠ .f ∧ s.cur.trIn = false) ∧
    ∃ (s : State) (p : Partition), s.cur.level ≠ .f ∧ s.cur.trIn = true ∧ s.cur.restarted = false ∧
      s.partition? s.cur.part = some p ∧ p.events.length < 64 :=
  ⟨⟨live, by decide +kernel⟩, ⟨withStrand fun c => { c with trIn := true }, part1, by decide +kernel⟩⟩

/-- An unsettled entry of an AMO. -/
def entry1 : SbEntry :=
  { pc := 0x1000000, slot := 0, kind := 2, perf := true, settled := false, err := 2, addr := 0x8000, first := 0, nfail := 1, reg := 5,
    ew := 3, vector := false, sx := false, amo := 0, elems := [⟨0, 0x8000, 1, 0⟩] }

theorem meets_SupervisorParcelResults :
    (∃ s : State, s.cur.level = .a) ∧
    (∃ (o : ResumeOp) (s : State), s.cur.level ≠ .a ∧ (s.cur.board[(s.getX o.a).toNat]?.map (·.settled)).getD true = true) ∧
    (∃ (o : ResumeOp) (s : State) (e : SbEntry), s.cur.level ≠ .a ∧ s.cur.board[(s.getX o.a).toNat]? = some e ∧
      e.settled = false ∧ o.how ≠ .replay) :=
  ⟨⟨withStrand fun c => { c with level := .a }, rfl⟩, ⟨⟨1, 2, .zero⟩, live, by decide +kernel⟩,
    ⟨⟨1, 2, .zero⟩, withStrand fun c => { c with board := [entry1] }, entry1, by decide +kernel⟩⟩

/-- An entry of a scalar load or store of eight bytes at 0x8000, or beyond 56 bits. -/
def replayed (kind : BitVec 3) (addr : Word) : SbEntry :=
  { entry1 with kind := kind, perf := false, elems := [⟨0, addr, 7, 0⟩] }

/-- Replays that succeed and that fail, and of an AMO that was performed (R347). -/
theorem meets_SupervisorParcelResults_replay :
    (∀ r ∈ ([(0, .load), (1, .store)] : List (BitVec 3 × Need)), ∃ s : State, s.cur.level ≠ .a ∧
      s.cur.board[(s.getX 2).toNat]? = some (replayed r.1 0x8000) ∧ (replayed r.1 0x8000).ew.toNat < 4 ∧
      ∃ p u, ({ s with cur := { s.cur with level := s.cur.trLvl } } : State).access 0x8000 8 r.2 = (.ok p, u) ∧
        decide (p.place.host = true ∨ p.place.addr + 8 ≤ landingPA s.cur.id + 0x1000) = true) ∧
    (∃ s : State, s.cur.board[(s.getX 2).toNat]? = some (replayed 0 0x8000000) ∧
      errThat (({ s with cur := { s.cur with level := s.cur.trLvl } } : State).access 0x8000000 8 .load) (fun f => match f with
        | .trap _ => true
        | .stall => false) = true) ∧
    (∃ s : State, s.cur.level ≠ .a ∧ s.cur.board[(s.getX 2).toNat]? = some entry1 ∧ entry1.kind = 2 ∧ entry1.perf = true) ∧
    ∃ (s : State) (p : Partition), s.partition? s.cur.part = some p ∧ p.events.length < 64 ∧
      s.cur.board[(s.getX 2).toNat]? = some { entry1 with kind := 0, vector := true, elems := [⟨3, 0x800C, 0, 0⟩] } := by
  refine ⟨fun r hr => ⟨withStrand fun c => { c with board := [replayed r.1 0x8000] }, (by decide : Level.s ≠ .a), by revert r; decide +kernel,
    by revert r; decide +kernel, ok_that (p := fun (p : Xlat) _ => decide (p.place.host = true ∨
      p.place.addr + 8 ≤ landingPA { core := 0, sid := 0 } + 0x1000)) (by revert r; decide +kernel)⟩,
    ⟨withStrand fun c => { c with board := [replayed 0 0x8000000] }, by decide +kernel, by decide +kernel⟩,
    ⟨withStrand fun c => { c with board := [entry1] }, by decide +kernel⟩,
    ⟨withStrand fun c => { c with board := [{ entry1 with kind := 0, vector := true, elems := [⟨3, 0x800C, 0, 0⟩] }] }, part1, by decide +kernel⟩⟩

/-- The replay of an update of VSCADD (R347). -/
theorem meets_SupervisorParcelResults_update : ∃ (s : State) (e : SbEntry), s.cur.level ≠ .a ∧ s.cur.board[(s.getX 2).toNat]? = some e ∧
    e.settled = false ∧ e.kind = 1 ∧ e.amo = 14 ∧ e.ew.toNat < 4 ∧ e.elems = [⟨0, 0x8000, 7, 0⟩] ∧
    ∃ p u, ({ s with cur := { s.cur with level := s.cur.trLvl } } : State).access 0x8000 8 .store = (.ok p, u) ∧
      decide (p.place.host = true ∨ p.place.addr + 8 ≤ landingPA s.cur.id + 0x1000) = true :=
  ⟨withStrand fun c => { c with board := [{ replayed 1 0x8000 with amo := 14 }] }, { replayed 1 0x8000 with amo := 14 },
    (by decide : Level.s ≠ .a), by decide +kernel, rfl, rfl, rfl, by decide, rfl, ok_that (p := fun (p : Xlat) _ =>
      decide (p.place.host = true ∨ p.place.addr + 8 ≤ landingPA { core := 0, sid := 0 } + 0x1000)) (by decide +kernel)⟩

/-- A trap of RK 0 in a word that had been issued under mf, after which TRAPRET goes back to it (R227). -/
theorem meets_TrapretReturns_reissued : ∃ (s : State) (y : Suspended), s.cur.level ≠ .a ∧ s.cur.board = [] ∧ s.cur.lateHeld = [] ∧
    (resumeWord s.cur.trscratch).isSome = true ∧
    (s.cur.suspended.find? fun y => y.pc = s.cur.trpc && y.slot = 0) = some y ∧ y.how ≠ .none :=
  ⟨withStrand fun c => { c with trpc := 0x1000, suspended := [⟨0x1000, 0, .none, .underMf⟩] }, ⟨0x1000, 0, .none, .underMf⟩, by decide +kernel⟩

theorem meets_TrapretReturns :
    ∀ r ∈ ([(0x400000, none), (0x40000, none), (0x800, none), (0x300, some 3), (0, some 0), (0x10105, some 1), (0x100200, some 2)] :
        List (Nat × Option Nat)),
      live.cur.level ≠ .a ∧ live.cur.board = [] ∧ live.cur.lateHeld = [] ∧
        (resumeWord (BitVec.ofNat 64 r.1)).map (fun x => x.2.2) = r.2 := by
  decide +kernel

theorem meets_YieldAndHaltResults :
    (∃ s : State, s.cur.task = none ∧ s.cur.commandsDone = true ∧ s.cur.board = [] ∧ s.cur.lateHeld = []) ∧
    (∃ s : State, s.cur.commandsDone = false) :=
  ⟨⟨live, by decide +kernel⟩, ⟨withStrand fun c => { c with queues := c.queues.set 0 { EngineQueue.reset with
      entries := [⟨.signal none 0 1 8, none, .core, .s⟩] } }, by decide +kernel⟩⟩

/-- The places of a list share no byte, and the leaves used for them lie outside them. -/
def apartTest (ps : List (Word × Xlat)) (n : Nat) : Bool :=
  ps.all fun y => ps.all fun z => decide (z = y ∨ y.2.place.host ≠ z.2.place.host ∨ y.2.place.addr + n ≤ z.2.place.addr ∨
    z.2.place.addr + n ≤ y.2.place.addr) && z.2.leaf.all fun (l : Leaf) => decide (l.entry + 8 ≤ y.2.place.addr)

/-- The state with a queued event. -/
def withEvent : State := { live with
  parts := [{ part1 with events := [⟨6, 0, 0, 1, 2, 3⟩] }], cur := { strand1 with run := .waitev, x := strand1.x.set 2 0x8000 } }

theorem meets_WaitevResults :
    (∃ (s : State) (p : Partition), s.partition? s.cur.part = some p ∧ p.events = [] ∧ s.cur.level ≠ .a ∧ s.cur.run = .waitev ∧
      s.getX 2 = 0 ∧ s.getX 3 ≠ 0 ∧ s.getX s.cur.parcelA ≠ BitVec.allOnes 64 ∧ s.cur.conv.watch = none) :=
  ⟨withStrand fun c => { c with run := .waitev, x := c.x.set 3 1 }, part1, by decide +kernel⟩

theorem meets_WaitevResults_queued :
    ∃ (s t u : State) (p : Partition) (e : EventRec) (es : List EventRec), s.partition? s.cur.part = some p ∧ p.events = e :: es ∧
      s.cur.level ≠ .a ∧ s.cur.run = .waitev ∧ s.cur.conv.watch = none ∧ s.cur.wctl = Vector.replicate 4 0 ∧
      (∃ ps, s.recordPlaces (s.getX 2) [0, 1, 2, 3] = (.ok ps, t) ∧ ps.length = 4 ∧ apartTest ps 8 = true) ∧
      ∃ ps, ({ s with cur := { s.cur with run := .running, note := none } } : State).recordPlaces (s.getX s.cur.parcelB) [0, 1, 2, 3] =
        (.ok ps, u) ∧ ps.length = 4 ∧ apartTest ps 8 = true := by
  obtain ⟨ps, t, h, hp⟩ := ok_that (r := withEvent.recordPlaces (withEvent.getX 2) [0, 1, 2, 3])
    (p := fun ps _ => decide (ps.length = 4) && apartTest ps 8) (by decide +kernel)
  obtain ⟨qs, u, k, kp⟩ := ok_that
    (r := ({ withEvent with cur := { withEvent.cur with run := .running, note := none } } : State).recordPlaces
      (withEvent.getX withEvent.cur.parcelB) [0, 1, 2, 3])
    (p := fun ps _ => decide (ps.length = 4) && apartTest ps 8) (by decide +kernel)
  simp only [Bool.and_eq_true, decide_eq_true_eq] at hp kp
  exact ⟨withEvent, t, u, { part1 with events := [⟨6, 0, 0, 1, 2, 3⟩] }, ⟨6, 0, 0, 1, 2, 3⟩, [], by decide +kernel, rfl, by decide +kernel,
    rfl, rfl, by decide +kernel, ⟨ps, h, hp⟩, ⟨qs, k, kp⟩⟩

/-! ### Vector words -/

/-- The state with vl, vstart and, at 128 lanes elements, masks and segment bits. -/
def strip (vl vstart : Nat) : State := withVector fun v => { v with vl := vl, vstart := vstart }

/-- A word of every other major that each check stops (R111, R112): the QUEUE, MATRIX and port words, and words that only the
supervisor may run. -/
theorem meets_WordChecksTrap_majors :
    (∀ i ∈ ([.mzero ⟨0, .fp16⟩, .vld ⟨0, 1, 5, .of .e64, .device, 0⟩, .vfaddVV ⟨0, 1, 0, 2, .fp64⟩] : List Instr), ∃ s : State,
      (wordInfo i s.cur).klass ≠ .noWord ∧ (s.cur.wordCheck (wordInfo i s.cur)).isSome = true) ∧
    (∃ s : State, (wordInfo (.portsw ⟨7, 5, 0⟩) s.cur).priv = true ∧ s.cur.level = .a ∧
      s.cur.wordCheck (wordInfo (.portsw ⟨7, 5, 0⟩) s.cur) = some .priv) ∧
    (∃ s : State, s.cur.vec.mmode = true ∧ (wordInfo (.vaddVV ⟨0, 0, 1, 2, .e32⟩) s.cur).mode = .vector) ∧
    (∃ s : State, s.cur.vec.mmode = true ∧ (wordInfo (.vld ⟨0, 32, 5, .of .e32, .device, 0⟩) s.cur).mode = .either ∧
      ∃ u ∈ (wordInfo (.vld ⟨0, 32, 5, .of .e32, .device, 0⟩) s.cur).dsts, 32 < u.r.toNat + u.n) ∧
    (∃ s : State, s.cur.vec.mmode = false ∧ (wordInfo (.mzero ⟨0, .fp16⟩) s.cur).mode = .matrix) :=
  ⟨fun i _ => ⟨live, by revert i; decide +kernel⟩, ⟨withStrand fun c => { c with level := .a }, by decide +kernel⟩,
    ⟨inTiles, by decide +kernel⟩, ⟨inTiles, by decide +kernel⟩, ⟨live, by decide +kernel⟩⟩

theorem meets_WordChecksTrap :
    (∃ (o : VV) (s : State), s.cur.vec.mmode = false ∧ s.cur.wordCheck (wordInfo (.vaddVV o) s.cur) = some .illegal) ∧
    (∃ (o : VV) (s : State), s.cur.vec.mmode = false ∧ s.cur.wordCheck (wordInfo (.vwmulVV o) s.cur) = some .illegal ∧
      o.d.toNat < 32 ∧ o.a.toNat < 32 ∧ o.b.toNat < 32) ∧
    (∃ (o : VV) (s : State), s.cur.vec.mmode = false ∧ s.cur.wordCheck (wordInfo (.vaddVV o) s.cur) ≠ some .illegal ∧
      s.cur.lanegrant = 0) ∧
    (∃ (o : VV) (s : State), s.cur.vec.mmode = false ∧ s.cur.wordCheck (wordInfo (.vaddVV o) s.cur) ≠ some .illegal ∧
      s.cur.lanegrant ≠ 0 ∧ s.cur.vowner ≠ s.cur.ctxid ∧ s.cur.ctxid.toNat < 0x8000) ∧
    ∃ (o : VV) (s : State), s.cur.vec.mmode = false ∧ s.cur.wordCheck (wordInfo (.vaddVV o) s.cur) ≠ some .illegal ∧
      s.cur.lanegrant ≠ 0 ∧ s.cur.vowner = s.cur.ctxid ∧ ∀ i : Fin 8, s.cur.vec.streams[i].bound = none :=
  ⟨⟨⟨0, 32, 1, 2, .e32⟩, live, by decide +kernel⟩, ⟨⟨0, 2, 2, 4, .e16⟩, live, by decide +kernel⟩,
    ⟨⟨0, 0, 1, 2, .e32⟩, withStrand fun c => { c with lanegrant := 0 }, by decide +kernel⟩,
    ⟨⟨0, 0, 1, 2, .e32⟩, withStrand fun c => { c with vowner := 1 }, by decide +kernel⟩,
    ⟨⟨0, 0, 1, 2, .e32⟩, live, by decide +kernel⟩⟩

/-- One word of each form of VINT. -/
noncomputable def intWords : List Instr :=
  [.vaddVV ⟨1, 0, 1, 2, .e32⟩, .vwaddVV ⟨0, 0, 4, 6, .e32, true⟩, .vwaddVV ⟨0, 0, 4, 6, .e16, false⟩, .vaddVS ⟨0, 0, 1, 5, .e8⟩,
    .vaddVI ⟨0, 0, 1, -128, .e8⟩, .vnclipVI ⟨0, 0, 2, 63, .e32⟩]

theorem meets_VectorIntegerResults :
    (∀ i ∈ intWords, i.WellFormed ∧ ∃ t, (strip 4 3).Ready i t ∧ decide (t.cur.vec.vstart < t.cur.vec.vl) = true) ∧
    (∀ i ∈ intWords, i.WellFormed ∧ ∃ t, (strip 4 4).Ready i t ∧ decide (t.cur.vec.vl ≤ t.cur.vec.vstart) = true) ∧
    (∀ i ∈ intWords, i.WellFormed ∧ ∃ t, (strip 0 0).Ready i t ∧ decide (t.cur.vec.vl ≤ t.cur.vec.vstart) = true) :=
  ⟨meet_all (by decide +kernel), meet_all (by decide +kernel), meet_all (by decide +kernel)⟩

/-- The words of VMERGE, VMV, VCMP and VFCMP. -/
noncomputable def moveWords : List Instr :=
  [.vmergeVV ⟨1, 0, 1, 2, .e32⟩, .vmergeVS ⟨1, 0, 1, 5, .e32⟩, .vmergeVI ⟨1, 0, 1, -3, .e32⟩, .vmvVV ⟨1, 0, 2, .e32⟩,
    .vmvVS ⟨0, 0, 5, .e32⟩, .vmvVI ⟨0, 0, -3, .e32⟩, .vcmpVV ⟨.lt, 1, 1, 1, 2, .e32⟩, .vcmpVS ⟨.gen, 0, 7, 1, 5, .e32⟩,
    .vcmpVI ⟨.eq, 0, 2, 1, 255, .e8⟩, .vfcmpVV ⟨.un, 1, 3, 1, 2, .fp32⟩, .vfcmpVS ⟨.le, 0, 3, 1, 5, .bf16⟩]

theorem meets_MoveAndCompareResults :
    (∀ i ∈ moveWords, i.WellFormed ∧ ∃ t, (strip 4 3).Ready i t ∧ decide (t.cur.vec.vstart < t.cur.vec.vl) = true) ∧
    (∀ i ∈ moveWords, i.WellFormed ∧ ∃ t, (strip 4 4).Ready i t ∧ decide (t.cur.vec.vl ≤ t.cur.vec.vstart) = true) :=
  ⟨meet_all (by decide +kernel), meet_all (by decide +kernel)⟩

/-- The words of VMASK. -/
noncomputable def maskWords : List Instr :=
  [.mand ⟨1, 2, 3, 4⟩, .mor ⟨0, 2, 0, 4⟩, .mxor ⟨0, 7, 3, 4⟩, .mandn ⟨0, 1, 0, 4⟩, .mnot ⟨0, 1, 0⟩, .morx ⟨0, 1, 1⟩, .mori ⟨0, 1, 1⟩,
    .mmovf ⟨0, 1, true⟩, .mmovf ⟨0, 1, false⟩, .mcnt ⟨0, 5, 1⟩, .mlow ⟨0, 0, 1⟩, .mcum ⟨0, 3, 1, .e8⟩, .vseq ⟨0, 4, .e64⟩,
    .vconfl ⟨0, 3, 4, .e32⟩]

theorem meets_MaskWordResults :
    (∀ i ∈ maskWords, i.WellFormed ∧ ∃ t, (strip 4 3).Ready i t ∧ decide (t.cur.vec.vstart < t.cur.vec.vl) = true) ∧
    (∀ i ∈ maskWords, i.WellFormed ∧ ∃ t, (strip 0 0).Ready i t ∧ decide (t.cur.vec.vl = 0) = true) :=
  ⟨meet_all (by decide +kernel), meet_all (by decide +kernel)⟩

/-- The words of VPERM. -/
noncomputable def permWords : List Instr :=
  [.vslideup ⟨0, 0, 1, 5, .e32⟩, .vslidedn ⟨0, 0, 1, 5, .e32⟩, .vpermv ⟨0, 0, 1, 2, .e32⟩, .vcompress ⟨0, 1, 1, .e32⟩,
    .vmvxs ⟨5, 1, .e32⟩, .vmvsx ⟨0, 5, .e32⟩, .vbcast ⟨1, 0, 5, .e32⟩]

theorem meets_PermuteResults :
    (∀ i ∈ permWords, i.WellFormed ∧ ∃ t, (strip 4 0).Ready i t ∧ decide (0 < t.cur.vec.vl) = true) ∧
    (∀ i ∈ permWords, i.WellFormed ∧ ∃ t, (strip 0 0).Ready i t ∧ decide (t.cur.vec.vl = 0) = true) :=
  ⟨meet_all (by decide +kernel), meet_all (by decide +kernel)⟩

/-- Words of VFP and VFCVT in each form and format. -/
noncomputable def floatWords : List Instr :=
  [.vfaddVV ⟨1, 0, 1, 2, .fp16⟩, .vfaddVS ⟨0, 0, 1, 5, .bf16⟩, .vfmaVV ⟨0, 0, 2, 4, 6, .fp64⟩, .vfnmaVS ⟨0, 0, 1, 5, 6, .fp32⟩,
    .vfsqrt ⟨0, 0, 1, .fp32⟩, .vfexp2 ⟨0, 0, 1, .bf16⟩, .vfwmaVV ⟨0, 0, 2, 3, .fp32⟩, .vfwmaVS ⟨0, 0, 1, 5, .fp16⟩,
    .vfcvt ⟨0, 8, 4, .e4m3, .fp32, .frm, true⟩, .vfcvt ⟨0, 8, 4, .int64, .fp64, .fixed .rtz, false⟩]

theorem meets_VectorFloatResults :
    (∀ i ∈ floatWords, i.WellFormed ∧ ∃ t, (strip 4 3).Ready i t ∧ decide (t.cur.vec.vstart < t.cur.vec.vl) = true) ∧
    (∀ i ∈ floatWords, i.WellFormed ∧ ∃ t, (strip 4 4).Ready i t ∧ decide (t.cur.vec.vl ≤ t.cur.vec.vstart) = true) :=
  ⟨meet_all (by decide +kernel), meet_all (by decide +kernel)⟩

/-- The words of VRED. -/
noncomputable def reduceWords : List Instr :=
  [.vredsum ⟨1, 0, 1, 2, .e32⟩, .vredmin ⟨0, 0, 1, 2, .e8⟩, .vredmax ⟨0, 0, 1, 2, .e16⟩, .vredand ⟨0, 0, 1, 2, .e32⟩,
    .vredor ⟨0, 0, 1, 2, .e32⟩, .vredxor ⟨0, 0, 1, 2, .e32⟩, .vwredsum ⟨0, 0, 2, 4, .e32⟩, .vfredosum ⟨0, 0, 1, 2, .fp32⟩,
    .vfredmin ⟨0, 0, 1, 2, .bf16⟩, .vfredmax ⟨0, 0, 1, 2, .fp16⟩, .vfredsum ⟨0, 0, 1, 2, .fp32⟩, .vscan ⟨0, 0, 1, 2, .e32⟩,
    .vfscan ⟨1, 0, 1, 2, .fp32⟩]

theorem meets_ReductionAndScanResults :
    ((∀ i ∈ reduceWords, i.WellFormed ∧ ∃ t, (strip 4 0).Ready i t ∧
      decide (t.cur.segments = [[0, 1, 2, 3]]) = true) ∧
    (∀ i ∈ reduceWords, i.WellFormed ∧ ∃ t, (strip 0 0).Ready i t ∧ decide (t.cur.vec.vl = 0) = true)) ∧
    ∀ i ∈ reduceWords, i.WellFormed ∧
      ∃ t, (withVector fun v => { v with vl := 7, seg := true, ms := 0b1011000#16384 }).Ready i t ∧
        decide (t.cur.segments = [[0, 1, 2], [3], [4, 5], [6]]) = true :=
  ⟨⟨meet_all (by decide +kernel), meet_all (by decide +kernel)⟩, meet_all (by decide +kernel)⟩

theorem meets_ConfigAndLoopResults :
    (∀ i ∈ ([.setvl ⟨5, 6⟩, .setvt ⟨true, false, true, .e8⟩, .vconfig ⟨2⟩, .vconfig ⟨3⟩, .vwhile ⟨1, 5, 6, -3⟩,
        .vwhilem ⟨1, 5, 6, -3⟩] : List Instr), i.WellFormed ∧ ∃ t, live.Ready i t ∧
      decide (t.cur.lanegrant ≠ 0 ∧ t.cur.vec.virt = false ∧ 0 < t.cur.vec.vl ∧ t.cur.vec.vnreg = 32) = true) ∧
    (∀ i ∈ ([.vwhile ⟨1, 5, 6, -3⟩, .vwhilem ⟨1, 5, 6, -3⟩] : List Instr), i.WellFormed ∧ ∃ t, (strip 0 0).Ready i t ∧
      decide (t.cur.vec.vl = 0) = true) ∧
    (∀ i ∈ ([.vwhilem ⟨1, 5, 6, -3⟩] : List Instr), i.WellFormed ∧ ∃ t,
      (withVector fun v => { v with m := v.m.set 0 0b100#16384 }).Ready i t ∧
        decide (((List.range t.cur.vec.vl).find? fun e => t.cur.maskBit 1 e) = some 2) = true) ∧
    (∀ i ∈ [Instr.menter], i.WellFormed ∧ ∃ t, (withVector fun v => { v with vnreg := 64 }).Ready i t ∧ true = true) ∧
    (∀ i ∈ [Instr.mexit], i.WellFormed ∧ ∃ t, inTiles.Ready i t ∧ true = true) ∧
    (live.cur.vec.vnreg ≠ 64 ∧ live.cur.vec.mmode = false) :=
  ⟨meet_all (by decide +kernel), meet_all (by decide +kernel), meet_all (by decide +kernel),
    meet_all (p := fun _ => true) (by decide +kernel), meet_all (p := fun _ => true) (by decide +kernel), by decide +kernel⟩

theorem meets_SegmentResults :
    (∃ (o : SetvlfOp) (s t : State), s.Ready (.setvlf o) t ∧ o.b = 0) ∧
    (∃ (o : SetvlfOp) (s t : State), s.Ready (.setvlf o) t ∧ o.b ≠ 0 ∧ 0 < min (t.getX o.a).toNat t.cur.vlmax ∧
      ∃ tbl u, t.Passes (setvlfPlan (t.getX o.b) (min (t.getX o.a).toNat t.cur.vlmax)) tbl u ∧ true = true) ∧
    (∃ c : Strand, c.vec.seg = false) ∧ (∃ c : Strand, c.vec.seg = true ∧ 0 < c.vec.vl) :=
  ⟨⟨⟨5, 6, 0⟩, live, live, ready_self (by decide +kernel), rfl⟩,
    ⟨⟨5, 6, 7⟩, withStrand fun c => { c with x := c.x.set 6 9 }, withStrand fun c => { c with x := c.x.set 6 9 },
      ready_self (by decide +kernel), by decide +kernel, by decide +kernel, passes_sound (q := fun _ _ => true) (by decide +kernel)⟩,
    ⟨live.cur, rfl⟩, ⟨(withVector fun v => { v with seg := true }).cur, by decide +kernel⟩⟩


/-- A state whose issuing strand has other registers. -/
def withRegs (l : List (Nat × Word)) : State :=
  withStrand fun c => { c with x := l.foldl (fun v r => if h : r.1 < 32 then v.set r.1 r.2 else v) c.x }

/-- x5 a base, x6 a stride, x7 a second address. -/
def based : State := withRegs [(5, 0x8000), (6, 4), (7, 0x9000)]

/-- The plan of a word with nf fields of n bytes at the addresses f. -/
def planOf (t : State) (m : MReg) (n nf : Nat) (need : Need) (prog : Option Nat) (noHost : Bool) (f : Nat → Nat → Int) : VmPlan :=
  { acts := (t.cur.actives m).map fun e => (e, (List.range nf).map fun k => (BitVec.ofInt 64 (f k e)).toNat)
    size := n, align := n, need := need, prog := prog, noHost := noHost }

/-- The words of the loads and the addresses of their fields on `based`. -/
noncomputable def loadRows : List (Instr × Nat × Nat × (Nat → Nat → Int)) :=
  [(.vld ⟨1, 0, 5, .of .e32, .device, 0⟩, 4, 1, fun _ e => 0x8000 + (e * 4 : Nat)),
    (.vld ⟨0, 0, 5, .nibble, .device, 0⟩, 1, 1, fun _ e => 0x8000 + (e / 2 : Nat)),
    (.vlds ⟨0, 0, 5, 6, .e32, .device, 0⟩, 4, 1, fun _ e => 0x8000 + e * (4 : Int)),
    (.vldx ⟨0, 0, 5, 3, .e8, false, .device, 0⟩, 1, 1, fun _ _ => 0x8000 + (0 : Int)),
    (.vldseg ⟨0, 0, 5, .e16, 2, .device, 0⟩, 2, 3, fun k e => 0x8000 + ((e * 3 + k) * 2 : Nat))]

theorem meets_VectorLoadResults :
    (∀ i ∈ loadRows.map (·.1), i.WellFormed ∧ ∃ t, based.Ready i t ∧ decide (t = based) = true) ∧
    (∀ i ∈ loadRows.map (·.1), i.WellFormed ∧ ∃ t, (strip 0 0).Ready i t ∧ decide (t.cur.vec.vl = 0) = true) ∧
    (∀ i ∈ loadRows.map (·.1), i.WellFormed ∧ ∃ t, (strip 4 4).Ready i t ∧
      decide (t.cur.vec.vl ≤ t.cur.vec.vstart ∧ t.cur.reissue ≠ .underMf) = true) ∧
    (∀ r ∈ loadRows, ∃ tbl u, based.Passes (planOf based 0 r.2.1 r.2.2.1 .load none false r.2.2.2) tbl u ∧
      decide (0 < based.cur.vec.vl ∧ based.cur.vec.vstart < based.cur.vec.vl ∧ u.cur.lateLoad = none ∧
        based.cur.vec.vnreg ≤ 64 ∧ based.cur.vec.vl * (8 * r.2.1) ≤ based.cur.groupSize (8 * r.2.1) * based.cur.regBytes * 8) = true) := by
  refine ⟨meet_all (by decide +kernel), meet_all (by decide +kernel), meet_all (by decide +kernel), fun r hr => ?_⟩
  exact passes_sound (List.all_eq_true.1 (by decide +kernel : loadRows.all (fun r =>
    passes based (planOf based 0 r.2.1 r.2.2.1 .load none false r.2.2.2) fun _ u =>
      decide (0 < based.cur.vec.vl ∧ based.cur.vec.vstart < based.cur.vec.vl ∧ u.cur.lateLoad = none ∧
        based.cur.vec.vnreg ≤ 64 ∧ based.cur.vec.vl * (8 * r.2.1) ≤ based.cur.groupSize (8 * r.2.1) * based.cur.regBytes * 8)) = true) r hr)

/-- The last 64 MiB of the address space mapped, and a base eight bytes below its end. -/
def atTop : State :=
  { withRegs [(5, 0xFFFFFFFFFFFFF8)] with
    mem := [(0x3FF8, 0x03), (0x3FF9, 0x40), (0x5FF8, 0x03), (0x5FF9, 0x60), (0x7FF8, 0x7D), (0x7FFB, 0x04)] }

theorem meets_VectorLoadResults_faultFirst :
    (∃ (o : VldffOp), based.Ready (.vldff o) based ∧ based.cur.vec.vstart < based.cur.vec.vl ∧
      ∃ tbl u, based.Passes (planOf based 0 4 1 .load none false fun _ e => 0x8000 + (e * 4 : Nat)) tbl u ∧ true = true) ∧
    (∃ (o : VldffOp) (l : List Nat) (f : Nat) (r : List Nat), atTop.Ready (.vldff o) atTop ∧
      atTop.cur.vec.vstart < atTop.cur.vec.vl ∧ atTop.cur.actives o.m = l ++ f :: r ∧ l ≠ [] ∧
      (∃ tbl u, atTop.Passes { acts := l.map fun e => (e, [(atTop.getX o.base + o.off.signExtend 64 + BitVec.ofNat 64 (e * 4)).toNat])
                               size := 4, align := 4, need := .load, prog := none, noHost := false } tbl u ∧ true = true) ∧
      ∀ e ∈ f :: r, 2 ^ 56 ≤ (atTop.getX o.base + o.off.signExtend 64 + BitVec.ofNat 64 (e * 4)).toNat) :=
  ⟨⟨⟨0, 0, 5, .e32, .device, 0⟩, ready_self (by decide +kernel), by decide +kernel,
      passes_sound (q := fun _ _ => true) (by decide +kernel)⟩,
    ⟨⟨0, 0, 5, .e32, .device, 0⟩, [0, 1], 2, [3], ready_self (by decide +kernel), by decide +kernel, by decide +kernel,
      by decide +kernel, passes_sound (q := fun _ _ => true) (by decide +kernel), by decide +kernel⟩⟩

/-- The last elements of a strip at x5 lie beyond the 64 MiB that are mapped, or all of them do. -/
def edge (first : Word) : State := withRegs [(5, first)]

theorem edge_awake (a : Word) : (edge a).cur.vwait = none := by simp only [edge, withRegs, withStrand]; rfl

/-- A page fault, and a stall. -/
def failsPage : Fail → Bool
  | .trap c => decide (c = .page)
  | .stall => false

/-- The elements of a strip at x5 on `edge` by the table of the page-sorting unit: those below k pass, the others fault. -/
def edgeTest (first : Word) (k : Nat) : Bool :=
  let s := edge first
  let p := planOf s 0 4 1 .load none false fun _ e => (first.toNat : Int) + (e * 4 : Nat)
  decide (s.cur.actives 0 = [0, 1, 2, 3]) && (List.range 4).all fun e =>
    let r := (sorted s p).2.byGranule (sorted s p).1 .load (first.toNat + 4 * e)
    if e < k then okAlone r fun _ => true else errAlone r failsPage

theorem meets_VectorLoadResults_faults :
    (∃ s : State, s.Ready (.vld ⟨0, 0, 5, .of .e32, .device, 0⟩) s ∧ s.cur.actives 0 = [] ++ 0 :: [1, 2, 3] ∧ (s.getX 5).toNat % 4 ≠ 0) ∧
    (atTop.Ready (.vld ⟨0, 0, 5, .of .e32, .device, 0⟩) atTop ∧ atTop.cur.actives 0 = [0, 1] ++ 2 :: [3] ∧
      (∀ j ∈ [0, 1], ((atTop.getX 5).toNat + j * 4) % 4 = 0 ∧ (atTop.getX 5).toNat + j * 4 < 2 ^ 56) ∧ 2 ^ 56 ≤ (atTop.getX 5).toNat + 2 * 4) ∧
    (∀ r ∈ ([(0x3FFFFF8, 2), (0x4000000, 0)] : List (Word × Nat)),
      (∀ i ∈ ([.vld ⟨0, 0, 5, .of .e32, .device, 0⟩, .vldff ⟨0, 0, 5, .e32, .device, 0⟩] : List Instr), i.WellFormed ∧
        ∃ t, (edge r.1).Ready i t ∧ decide (t = edge r.1 ∧ t.cur.vec.vstart < t.cur.vec.vl ∧ t.cur.lateLoad = none) = true) ∧
      edgeTest r.1 r.2 = true) := by
  refine ⟨⟨edge 0x8002, ready_self (by decide +kernel), by decide +kernel, by decide +kernel⟩,
    ⟨ready_self (by decide +kernel), by decide +kernel, by decide +kernel, by decide +kernel⟩, fun r hr => ⟨meet_all ?_, ?_⟩⟩
  · simp only [List.mem_cons, List.not_mem_nil, or_false] at hr
    obtain rfl | rfl := hr <;> decide +kernel
  · simp only [List.mem_cons, List.not_mem_nil, or_false] at hr
    obtain rfl | rfl := hr <;> decide +kernel

/-- The words of the stores, with their progress word, and the addresses of their fields on `based`. -/
noncomputable def storeRows : List (Instr × Nat × Nat × Option Nat × (Nat → Nat → Int)) :=
  [(.vst ⟨1, 0, 5, .of .e32, .notify 7, .device, 0⟩, 4, 1, some 0x9000, fun _ e => 0x8000 + (e * 4 : Nat)),
    (.vst ⟨0, 0, 5, .nibble, .ordered, .device, 0⟩, 1, 1, none, fun _ e => 0x8000 + (e / 2 : Nat)),
    (.vsts ⟨0, 0, 5, 6, .e32, true, .device, 0⟩, 4, 1, none, fun _ e => 0x8000 + e * (4 : Int)),
    (.vstx ⟨0, 0, 5, 3, .e8, false, .ordered, .device, 0⟩, 1, 1, none, fun _ _ => 0x8000 + (0 : Int)),
    (.vstseg ⟨0, 0, 5, .e16, 2, .unordered, .device, 0⟩, 2, 3, none, fun k e => 0x8000 + ((e * 3 + k) * 2 : Nat))]

theorem meets_VectorStoreResults :
    (∀ i ∈ storeRows.map (·.1), i.WellFormed ∧ ∃ t, based.Ready i t ∧ decide (t = based ∧ 0 < t.cur.vec.vl ∧
      t.cur.vec.vstart < t.cur.vec.vl) = true) ∧
    (∀ i ∈ storeRows.map (·.1), i.WellFormed ∧ ∃ t, (strip 0 0).Ready i t ∧ decide (t.cur.vec.vl = 0) = true) ∧
    (∀ r ∈ storeRows, ∃ tbl u, based.Passes (planOf based 0 r.2.1 r.2.2.1 .store r.2.2.2.1 false r.2.2.2.2) tbl u ∧ true = true) := by
  refine ⟨meet_all (by decide +kernel), meet_all (by decide +kernel), fun r hr => ?_⟩
  exact passes_sound (List.all_eq_true.1 (by decide +kernel : storeRows.all (fun r =>
    passes based (planOf based 0 r.2.1 r.2.2.1 .store r.2.2.2.1 false r.2.2.2.2) fun _ _ => true) = true) r hr)

theorem meets_VectorStoreResults_scatterAdd :
    ∃ o : VldxOp, based.Ready (.vscadd o) based ∧ 0 < based.cur.vec.vl ∧ based.cur.vec.vstart < based.cur.vec.vl ∧
      ∃ tbl u, based.Passes (planOf based 0 4 1 .store none true fun _ _ => 0x8000) tbl u ∧
        okAlone (u.byGranule tbl .store 0x8000) (fun x => x.leaf.all fun (l : Leaf) => decide (l.entry + 8 ≤ x.place.addr)) = true := by
  exact ⟨⟨0, 0, 5, 3, .e32, false, .device, 0⟩, ready_self (by decide +kernel), by decide +kernel, by decide +kernel,
    passes_sound (q := fun tbl u => okAlone (u.byGranule tbl .store 0x8000) fun x =>
      x.leaf.all fun (l : Leaf) => decide (l.entry + 8 ≤ x.place.addr)) (by decide +kernel)⟩


/-! ### Waits, streams and images -/

/-- A VWAIT of 32-bit words at x5, deadline in x6, expected values in v6. -/
def vwait1 : VwaitOp := { m := 0, d := 2, base := 5, timeout := 6, vi := 6, ew := .e32, scope := .device, off := 0 }

/-- The plan of its looks. -/
def vwaitPlan (c : State) : VmPlan :=
  { acts := (c.cur.activesFrom0 vwait1.m).map fun e =>
      (e, [(c.getX vwait1.base + vwait1.off.signExtend 64 + BitVec.ofNat 64 (e * 4)).toNat])
    size := 4, align := 4, need := .load, prog := none, noHost := false }

/-- A strand at it with element 0 of v6 holding 1, awake or asleep. -/
def vwaiting (r : Run) (expected : Byte) : State :=
  withStrand fun c => { c with
    run := r, x := (c.x.set 5 0x8000).set 6 4, iword := 0xDE808A6190180000#64
    vec := { c.vec with v := if expected = 0 then [] else [(6144, expected)] } }

/-- Element 0 is not met. -/
def unmet0 (c : State) (tbl : List (Nat × Except Cause (Option Leaf))) (u : State) : Bool :=
  okAlone (u.byGranule tbl .load 0x8000) fun x => decide (c.readPlace x.place 4 < c.cur.elem 6 32 0)

/-- The word that a strand asleep in it watches. -/
def watched0 (win : Option Nat) : Watched :=
  { elem := 0, place := { host := win.isSome, addr := 0x4008000 }, va := 0x8000, win := win, leaf := none }

/-- A strand that has begun it and watches element 0 of the word at 0x8000. -/
def asleep (r : Run) (expected : Byte) (win : Option Nat) (late : Bool) : State :=
  { vwaiting r expected with cur := { (vwaiting r expected).cur with vwait := some { words := [watched0 win], late := late } } }

/-- The strand asleep in a window whose group is in a state. -/
def cutOff (g : GState) : State := { asleep .running 1 (some 1) false with
  groups := live.groups.set 0 { Group.reset with state := g }, parts := [{ part1 with windows := [hostWin true] }] }

/-- A look at the words of a sleeping VWAIT: met, unmet, past its deadline, without a route, and stalled (R326, R333). -/
theorem meets_VwaitResults_asleep :
    (∀ e ∈ ([0, 1] : List Byte), ∀ late ∈ [false, true], ∃ (s : State) (ws : List Watched), s.Ready (.vwait vwait1) s ∧
      s.cur.vwait = some ⟨ws, late⟩ ∧ (∀ w ∈ ws, s.rerouteWatched w = .ok ()) ∧
      (e = 0 ↔ ∀ w ∈ ws, ¬s.readPlace w.place 4 < s.cur.elem 6 32 w.elem)) ∧
    (∀ g ∈ [GState.down, .draining], ∃ (w : Watched) (f : Fail), (cutOff g).Ready (.vwait vwait1) (cutOff g) ∧
      (cutOff g).cur.vwait = some ⟨[] ++ w :: [], false⟩ ∧ (cutOff g).rerouteWatched w = .error f ∧ (g = .draining ↔ f = .stall)) ∧
    (∃ (s : State) (ws : List Watched), s.cur.run = .vwait ∧ s.cur.vwaitOp? = some vwait1 ∧ s.cur.vwait = some ⟨ws, false⟩ ∧
      s.getX vwait1.timeout ≠ BitVec.allOnes 64) ∧
    (∃ (s : State) (ws : List Watched), s.cur.run = .vwait ∧ s.cur.vwaitOp? = some vwait1 ∧ s.cur.vwait = some ⟨ws, false⟩ ∧
      s.getX vwait1.timeout = BitVec.allOnes 64) := by
  refine ⟨fun e he l hl => ⟨asleep .running e none l, [watched0 none], ready_self ?_, rfl, ?_, ?_⟩, fun g hg => ?_,
    ⟨asleep .vwait 1 none false, _, rfl, by decide +kernel, rfl, by decide +kernel⟩,
    ⟨withStrand fun c => { (asleep .vwait 1 none false).cur with x := c.x.set 6 (BitVec.allOnes 64) }, _, rfl, by decide +kernel, rfl, by decide +kernel⟩⟩
  · revert e l; decide +kernel
  · rintro w hw
    obtain rfl := List.mem_singleton.1 hw
    rfl
  · revert e l; decide +kernel
  · simp only [List.mem_cons, List.not_mem_nil, or_false] at hg
    obtain rfl | rfl := hg
    · exact ⟨watched0 (some 1), .trap .portgone, ready_self (by decide +kernel), rfl, by rfl, by decide +kernel⟩
    · exact ⟨watched0 (some 1), .stall, ready_self (by decide +kernel), rfl, by rfl, by decide +kernel⟩

/-- A VWAIT whose words are misplaced or not mapped traps before it reads (R327). -/
theorem meets_VwaitResults_fails :
    (∀ a ∈ ([0x8002, 0x100000000000000] : List Word), ∃ s : State, s.Ready (.vwait vwait1) s ∧ s.cur.vwait = none ∧ 0 < s.cur.vec.vl ∧
      s.cur.activesFrom0 vwait1.m = [] ++ 0 :: [1, 2, 3] ∧ s.getX vwait1.base = a) ∧
    ∃ s : State, s.Ready (.vwait vwait1) s ∧ s.cur.activesFrom0 vwait1.m = [] ++ 0 :: [1, 2, 3] ∧
      errAlone ((sorted s (vwaitPlan s)).2.byGranule (sorted s (vwaitPlan s)).1 .load 0x4000000) failsPage = true :=
  ⟨fun a ha => by
      simp only [List.mem_cons, List.not_mem_nil, or_false] at ha
      obtain rfl | rfl := ha
      · exact ⟨edge 0x8002, ready_self (by decide +kernel), edge_awake _, by decide +kernel, by decide +kernel, by decide +kernel⟩
      · exact ⟨edge 0x100000000000000, ready_self (by decide +kernel), edge_awake _, by decide +kernel, by decide +kernel, by decide +kernel⟩,
    ⟨edge 0x4000000, ready_self (by decide +kernel), by decide +kernel, by decide +kernel⟩⟩

theorem meets_VwaitResults :
    (Instr.vwait vwait1).WellFormed ∧
    (∃ s : State, s.Ready (.vwait vwait1) s ∧ s.cur.vec.vl = 0 ∧ s.cur.vwait = none) ∧
    (∃ s : State, s.Ready (.vwait vwait1) s ∧ 0 < s.cur.vec.vl ∧ s.cur.vwait = none ∧ s.getX vwait1.timeout ≠ 0 ∧
      ∃ tbl u, s.Passes (vwaitPlan s) tbl u ∧ unmet0 s tbl u = true) ∧
    (∃ s : State, s.Ready (.vwait vwait1) s ∧ 0 < s.cur.vec.vl ∧ s.cur.vwait = none ∧
      (∀ e ∈ s.cur.activesFrom0 vwait1.m, s.cur.elem 6 32 e = 0) ∧ ∃ tbl u, s.Passes (vwaitPlan s) tbl u ∧ true = true) ∧
    (∃ s : State, s.cur.run = .vwait ∧ s.cur.vwaitOp? = some vwait1 ∧ 0 < s.cur.vec.vl ∧
      ∃ tbl u, ({ s with cur := { s.cur with note := none } } : State).Passes (vwaitPlan s) tbl u ∧ unmet0 s tbl u = true) := by
  exact ⟨by decide, ⟨strip 0 0, ready_self (by decide +kernel), rfl, rfl⟩,
    ⟨vwaiting .running 1, ready_self (by decide +kernel), by decide +kernel, rfl, by decide +kernel,
      passes_sound (q := unmet0 (vwaiting .running 1)) (by decide +kernel)⟩,
    ⟨vwaiting .running 0, ready_self (by decide +kernel), by decide +kernel, rfl, by decide +kernel,
      passes_sound (q := fun _ _ => true) (by decide +kernel)⟩,
    ⟨vwaiting .vwait 1, rfl, by decide +kernel, by decide +kernel,
      passes_sound (q := unmet0 (vwaiting .vwait 1)) (by decide +kernel)⟩⟩

/-- A Larder stream of eight words of 32 bits at offset 0, bound to v3. -/
def stream1 (write : Bool) : Stream :=
  { Stream.reset with cfg := true, pattern := [0, 0x42, 0x400000008, 0, 0, 0, 0, 0], bound := some 3, write := write }

/-- The state in which stream 2 is that. -/
def withStream (write : Bool) : State := withVector fun v => { v with streams := v.streams.set 2 (stream1 write) }

theorem meets_StreamResults :
    (∃ (o : StcfgOp) (s u : State) (x : Xlat), s.Ready (.stcfg o) s ∧ s.access (s.getX o.a) 64 .load = (.ok x, u) ∧
      malformed ((List.range 8).map fun i => BitVec.ofNat 64 (s.readPlace { x.place with addr := x.place.addr + 8 * i } 8)) = false) ∧
    (∃ (o : StcfgOp) (s u : State) (x : Xlat), s.Ready (.stcfg o) s ∧ s.access (s.getX o.a) 64 .load = (.ok x, u) ∧
      malformed ((List.range 8).map fun i => BitVec.ofNat 64 (s.readPlace { x.place with addr := x.place.addr + 8 * i } 8)) = true) ∧
    (∀ c, ∃ (o : StbindOp) (s : State), s.Ready (.stbind o) s ∧ (s.cur.vec.streams[o.s.toNat]).cfg = c) ∧
    (∀ i ∈ ([.stunbind ⟨2⟩, .ststat ⟨2, 5⟩] : List Instr), i.WellFormed ∧ ∃ t, (withStream false).Ready i t ∧
      decide (t = withStream false) = true) ∧
    (∃ s : State, (s.cur.vec.streams[2]).bound = none) ∧ (∃ s : State, (s.cur.vec.streams[2]).write = true) ∧
    (let t := stream1 false
     t.bound.isSome = true ∧ t.write = false ∧ t.larder = true ∧ t.fcode = 0 ∧ t.length = 8 ∧
       ∀ k < 8, t.addr k % (t.bits / 8) = 0 ∧ t.addr k + t.bits / 8 ≤ larderSize) := by
  refine ⟨?_, ?_, ?_, meet_all (by decide +kernel), ⟨live, rfl⟩, ⟨withStream true, by decide +kernel⟩, by decide +kernel⟩
  · obtain ⟨x, u, h, hp⟩ := ok_that (r := based.access (based.getX 5) 64 .load) (p := fun x _ =>
      decide (malformed ((List.range 8).map fun i => BitVec.ofNat 64 (based.readPlace { x.place with addr := x.place.addr + 8 * i } 8)) =
        false)) (by decide +kernel)
    exact ⟨⟨2, 5⟩, based, u, x, ready_self (by decide +kernel), h, of_decide_eq_true hp⟩
  · obtain ⟨x, u, h, hp⟩ := ok_that (r := ({ based with mem := based.mem ++ [(0x4008008, 0x80)] } : State).access
      (({ based with mem := based.mem ++ [(0x4008008, 0x80)] } : State).getX 5) 64 .load) (p := fun x _ =>
      malformed ((List.range 8).map fun i => BitVec.ofNat 64
        (({ based with mem := based.mem ++ [(0x4008008, 0x80)] } : State).readPlace { x.place with addr := x.place.addr + 8 * i } 8)))
      (by decide +kernel)
    exact ⟨⟨2, 5⟩, { based with mem := based.mem ++ [(0x4008008, 0x80)] }, u, x, ready_self (by decide +kernel), h, hp⟩
  · intro c
    cases c
    · exact ⟨⟨2, 3, false⟩, live, ready_self (by decide +kernel), by decide +kernel⟩
    · exact ⟨⟨2, 3, false⟩, withStream true, ready_self (by decide +kernel), by decide +kernel⟩

/-- Word 0 and word 1 of the image of `based`. -/
def imaged : State := { based with mem := based.mem ++ [(0x4008000, 1), (0x4008005, 32), (0x4008008, 32)] }

theorem meets_VectorImageResults :
    (∀ i ∈ ([.vsave 6, .vrestore 6] : List Instr), i.WellFormed ∧ ∃ t, based.Ready i t ∧ decide ((t.getX 6).toNat % 4096 ≠ 0) = true) ∧
    (based.Ready (.vsave 5) based ∧ (based.getX 5).toNat % 4096 = 0 ∧ based.cur.vec.vnreg ∈ [8, 16, 32, 64] ∧
      based.cur.vec.slices.length = based.cur.lanes ∧
      (∃ tbl u, based.Passes (imagePlan (based.getX 5).toNat (based.cur.imageSize based.cur.vec.entered) .store) tbl u ∧ true = true) ∧
      (based.getX 5).toNat + based.cur.imageSize based.cur.vec.entered ≤ 2 ^ 56) ∧
    (∀ s ∈ [based, imaged], s.Ready (.vrestore 5) s ∧ (s.getX 5).toNat % 4096 = 0 ∧
      (s.getX 5).toNat + s.cur.imageSize true ≤ 2 ^ 56 ∧ ∃ tbl u, s.Passes (imagePlan (s.getX 5).toNat (s.cur.imageSize true) .load) tbl u ∧
        decide (u.cur.imageFits (u.imageWord tbl (s.getX 5).toNat) (u.imageWord tbl ((s.getX 5).toNat + 8)) =
          decide (s = imaged)) = true) := by
  refine ⟨meet_all (by decide +kernel), ⟨ready_self (by decide +kernel), by decide +kernel, by decide +kernel, by decide +kernel,
    passes_sound (q := fun _ _ => true) (by decide +kernel), by decide +kernel⟩, ?_⟩
  intro s hs
  simp only [List.mem_cons, List.not_mem_nil, or_false] at hs
  obtain rfl | rfl := hs
  · exact ⟨ready_self (by decide +kernel), by decide +kernel, by decide +kernel,
      passes_sound (q := fun tbl u => decide (u.cur.imageFits (u.imageWord tbl 0x8000) (u.imageWord tbl 0x8008) = decide (based = imaged)))
        (by decide +kernel)⟩
  · exact ⟨ready_self (by decide +kernel), by decide +kernel, by decide +kernel,
      passes_sound (q := fun tbl u => decide (u.cur.imageFits (u.imageWord tbl 0x8000) (u.imageWord tbl 0x8008) = decide (imaged = imaged)))
        (by decide +kernel)⟩

/-- The first words of an image at address 0 lie apart, each outside the page-table entries that lead to it. -/
theorem meets_VectorImageResults_apart :
    ∃ tbl u, (withRegs [(5, 0)]).Passes (imagePlan 0 ((withRegs [(5, 0)]).cur.imageSize false) .store) tbl u ∧
      ((List.range 64).all fun i => okAlone (u.byGranule tbl .store (8 * i)) fun x =>
        decide (x.place = { host := false, addr := 0x4000000 + 8 * i }) && x.leaf.all fun (l : Leaf) => decide (l.entry + 8 ≤ x.place.addr)) =
        true :=
  passes_sound (q := fun tbl u => (List.range 64).all fun i => okAlone (u.byGranule tbl .store (8 * i)) fun x =>
    decide (x.place = { host := false, addr := 0x4000000 + 8 * i }) && x.leaf.all fun (l : Leaf) => decide (l.entry + 8 ≤ x.place.addr))
    (by decide +kernel)

/-! ### Engine queues -/

/-- A state whose queue 0 holds entries, and whose other queues are empty. -/
def queued (es : List QEntry) (f : Strand → Strand) : State :=
  withStrand fun c => f { c with queues := c.queues.set 0 { EngineQueue.reset with entries := es }, x := (c.x.set 5 0x8000).set 7 0 }

/-- A command without a notify. -/
def plain (c : QCmd) : QEntry := { cmd := c, ntf := none, scope := .core, level := .s }

/-- The words that enter a command in queue q. -/
noncomputable def enterWords (q : BitVec 5) : List Instr :=
  [.qcopy ⟨q, 5, 6, 7, 0, .core, true, true⟩, .qsignal ⟨q, 0, 6, 7, 5, .core⟩, .qgather ⟨q, 5, 0, .core⟩, .qscatter ⟨q, 5, 0, .core⟩,
    .qpload ⟨q, 5, 0, .core⟩, .qpstore ⟨q, 5, 0, .core⟩, .qspload ⟨q, 5, 0, .core⟩, .qfence ⟨q, 0, 0b10, .core⟩]

theorem meets_QueueWordsEnter :
    (∀ i ∈ enterWords 4, i.WellFormed ∧ ∃ t, based.Ready i t ∧ decide (4 / 4 ≠ t.cur.id.sid.toNat) = true) ∧
    (∀ i ∈ enterWords 3, i.WellFormed ∧ ∃ t, based.Ready i t ∧ decide (3 / 4 = t.cur.id.sid.toNat ∧
      ∀ j : Fin 4, t.cur.queues[j].entries.length < 16) = true) ∧
    (∀ i ∈ enterWords 0, i.WellFormed ∧ ∃ t, (queued (List.replicate 16 (plain (.signal none 0 1 8))) id).Ready i t ∧
      decide (0 / 4 = t.cur.id.sid.toNat ∧ 16 ≤ (t.cur.queues[0]).entries.length) = true) ∧
    (∃ (x : Xlat) (k : State), based.access (based.getX 5) 64 .load = (.ok x, k) ∧ true = true) :=
  ⟨meet_all (by decide +kernel), meet_all (by decide +kernel), meet_all (by decide +kernel),
    ok_that (p := fun _ _ => true) (by decide +kernel)⟩

/-- A queue 0 halted with a fault code, with one command. -/
def haltedQ (code : Word) (es : List QEntry) (f : Strand → Strand) : State :=
  withStrand fun c => f { c with queues := c.queues.set 0 { entries := es, halted := true, fault := code, done := 3 } }

theorem meets_QstatResults :
    (∀ i ∈ ([.qstat ⟨0, 5, 6, true, false, false⟩] : List Instr), i.WellFormed ∧
      ∃ t, (queued [plain (.fence 1 [0])] id).Ready i t ∧ decide (t.cur.id.sid.toNat = 0 / 4 ∧ (t.cur.queues[0]).halted = false ∧
        (t.cur.queues[0]).entries ≠ []) = true) ∧
    (∀ i ∈ ([.qstat ⟨0, 5, 6, true, true, true⟩] : List Instr), i.WellFormed ∧
      ∃ t, (haltedQ 0x10B [plain (.signal none 0 1 8)] id).Ready i t ∧ decide ((t.cur.queues[0]).halted = true ∧
        (t.cur.queues[0]).fault.toNat % 65536 = 0x10B) = true) ∧
    (∀ i ∈ ([.qstat ⟨0, 5, 6, true, true, true⟩] : List Instr), i.WellFormed ∧
      ∃ t, (haltedQ 0x101 [plain (.signal none 0 1 8)] id).Ready i t ∧ decide ((t.cur.queues[0]).halted = true ∧
        (t.cur.queues[0]).fault.toNat % 65536 ≠ 0x10B) = true) ∧
    (∀ es ∈ [[plain (.signal none 0 1 8)], []], ∃ t : State, t.cur.run = .qstatWait ∧
      QstatOp.ofRaw (RawVQ.unpack t.cur.iword) = some ⟨0, 5, 6, true, false, false⟩ ∧ (RawVQ.unpack t.cur.iword).fn = 8 ∧
      (t.cur.queues[0]).entries = es) ∧
    (∀ n ∈ [15, 16], ∃ t : State, t.cur.run = .queueRoom ∧ (RawVQ.unpack t.cur.iword).fn = 0 ∧
      QcopyOp.ofRaw (RawVQ.unpack t.cur.iword) = some ⟨0, 5, 6, 7, 0, .strand, false, false⟩ ∧ (t.cur.queues[0]).entries.length = n) := by
  refine ⟨meet_all (by decide +kernel), meet_all (by decide +kernel), meet_all (by decide +kernel), fun es hes => ?_, fun n hn => ?_⟩
  · refine ⟨queued es fun c => { c with run := .qstatWait, iword := 0xE4800A6000080008#64 }, rfl, ?_, ?_, rfl⟩
    · show QstatOp.ofRaw (RawVQ.unpack 0xE4800A6000080008#64) = _; decide +kernel
    · show (RawVQ.unpack 0xE4800A6000080008#64).fn = _; decide +kernel
  · refine ⟨queued (List.replicate n (plain (.signal none 0 1 8))) fun c =>
      { c with run := .queueRoom, iword := 0xE4800A6380000000#64 }, rfl, ?_, ?_, ?_⟩
    · show (RawVQ.unpack 0xE4800A6380000000#64).fn = _; decide +kernel
    · show QcopyOp.ofRaw (RawVQ.unpack 0xE4800A6380000000#64) = _; decide +kernel
    · exact List.length_replicate

/-- A copy of n bytes between places of the Larder or of memory. -/
def copyCmd (a b n : Word) (sl dl : Bool) (ntf : Option Word) : QEntry :=
  { cmd := .copy a b n sl dl, ntf := ntf, scope := .core, level := .s }

/-- The state in which a host window's only group drains, so that accesses to it stall (R373). -/
def draining : State :=
  { withHost true with groups := (withHost true).groups.set 0 { Group.reset with state := .draining, pers := 1, target := 1 } }

theorem meets_EnginePerformResults :
    (∃ (e : QEntry) (s : State), (s.cur.queues[0]).entries = [e] ∧ (s.cur.queues[0]).halted = false ∧ s.cur.run ≠ .stopped ∧
      e.cmd = .copy 0 0 4 true true ∧ ∃ c u, State.runCopy 0 0 4 true true s = (.error c, u) ∧
        (match c with | .fault _ _ [] => true | .fault _ _ (_ :: _) => false | .stall => false) = true) ∧
    (∃ c u, State.runCopy 0x8000000 0 4 false true draining = (.error c, u) ∧
      (match c with | .fault _ _ _ => false | .stall => true) = true) ∧
    (∃ (r : EDone) (u : State), State.runCopy 0 0x1000 4 true true live = (.ok r, u) ∧ decide (r.writes.length = 4) = true) ∧
    (∃ (r : EDone) (u : State), State.runCopy 0 0x1000 0 true true live = (.ok r, u) ∧ decide (r.all = [] ∧ r.records = []) = true) ∧
    (∃ x k, live.translate live.cur.via live.cur.level 0x8000 .amo false = (.ok x, k) ∧ true = true) :=
  ⟨⟨copyCmd 0 0 4 true true none, queued [copyCmd 0 0 4 true true none] id, rfl, rfl, by decide, rfl,
      err_that (by decide +kernel)⟩,
    err_that (by decide +kernel), ok_that (p := fun (r : EDone) _ => decide (r.writes.length = 4)) (by decide +kernel),
    ok_that (p := fun (r : EDone) _ => decide (r.all = [] ∧ r.records = [])) (by decide +kernel),
    ok_that (p := fun _ _ => true) (by decide +kernel)⟩

theorem meets_EnginePerformResults_copies :
    (∃ n : Word, 2 ^ 32 < n.toNat) ∧
    (∃ a n : Word, 0 < n.toNat ∧ n.toNat ≤ 2 ^ 32 ∧ larderSize < a.toNat + n.toNat) ∧
    (∃ a b n : Word, 0 < n.toNat ∧ a.toNat + n.toNat ≤ larderSize ∧ larderSize < b.toNat + n.toNat) ∧
    (∃ a b n : Word, 0 < n.toNat ∧ a.toNat + n.toNat ≤ larderSize ∧ b.toNat + n.toNat ≤ larderSize ∧
      a.toNat < b.toNat + n.toNat ∧ b.toNat < a.toNat + n.toNat) ∧
    (∃ a b n : Word, 0 < n.toNat ∧ a.toNat + n.toNat ≤ larderSize ∧ b.toNat + n.toNat ≤ larderSize ∧ a.toNat + n.toNat ≤ b.toNat) :=
  ⟨⟨0x100000001, by decide⟩, ⟨0xBFFFFFD, 4, by decide⟩, ⟨0xBFFFFFC, 0xBFFFFFD, 4, by decide⟩, ⟨0, 3, 4, by decide⟩, ⟨0, 4, 4, by decide⟩⟩

/-- A fence over queues 0 and 1 that both have as their oldest command. -/
def fenced (halt : Bool) : State :=
  withStrand fun c => { c with
    queues := (c.queues.set 0 { EngineQueue.reset with entries := [plain (.fence 7 [0, 1])] }).set 1
      { EngineQueue.reset with entries := [plain (.fence 7 [0, 1])], halted := halt } }

/-- A signal with a store, both in memory; misaligned ones of each kind; and a fence whose first queue has a notify. -/
def storing (a sig : Word) : State := queued [plain (.signal (some a) 7 1 sig)] id

/-- A fence over queues 0 and 1 with a notify at 0x8000. -/
def notified : State :=
  withStrand fun c => { c with
    queues := (c.queues.set 0 { EngineQueue.reset with entries := [{ plain (.fence 7 [0, 1]) with ntf := some 0x8000 }] }).set 1
      { EngineQueue.reset with entries := [plain (.fence 7 [0, 1])] } }

theorem meets_EngineFenceAndSignal_stores :
    ((storing 0x8008 0x8000).cur.queues[0].entries = [plain (.signal (some 0x8008) 7 1 0x8000)] ∧
      (let r := ({ (storing 0x8008 0x8000).stir 0 [6, 7, 8, 9] with cur := { (storing 0x8008 0x8000).cur with level := .s } } : State).sortPages [0]
       (List.range 8).all fun i => match r.2.spotAt r.1 .store false (0x8008 + i) with
         | .ok (.mem _ a) => decide (a = 0x8008 + i)
         | .ok (.larder _) => false
         | .error _ => false) = true) ∧
    (∀ x ∈ ([(none, 0x8004), (some 0x8004, 0x8000)] : List (Option Word × Word)), ∃ (s : State) (e : QEntry), s.cur.queues[0].entries = [e] ∧
      s.cur.queues[0].halted = false ∧ s.cur.run ≠ .stopped ∧ e.cmd = .signal x.1 7 1 x.2 ∧
      (x.2.toNat % 8 ≠ 0 ∨ (x.1.any fun a => decide (a.toNat % 8 ≠ 0)) = true)) ∧
    (∃ x u, notified.translate notified.cur.via .s 0x8000 .amo false = (.ok x, u) ∧ decide (∀ k : Fin 4, k.val ∈ [0, 1] →
      (notified.cur.queues[k].entries.map (·.ntf)) = [if k = 0 then some 0x8000 else none] ∧ notified.cur.queues[k].halted = false) = true) :=
  ⟨⟨rfl, by decide +kernel⟩, fun x hx => ⟨queued [plain (.signal x.1 7 1 x.2)] id, plain (.signal x.1 7 1 x.2), rfl, rfl,
      (by decide : Run.running ≠ .stopped), rfl, by
        simp only [List.mem_cons, List.not_mem_nil, or_false] at hx
        obtain rfl | rfl := hx <;> decide⟩,
    ok_that (p := fun _ _ => decide (∀ k : Fin 4, k.val ∈ [0, 1] →
      (notified.cur.queues[k].entries.map (·.ntf)) = [if k = 0 then some 0x8000 else none] ∧ notified.cur.queues[k].halted = false))
      (by decide +kernel)⟩

/-- A fence behind an older command in queue 0, at the head of queue 1 (R255). -/
theorem meets_EngineFenceAndSignal_older : ∃ s : State, s.cur.queues[1].entries = [plain (.fence 7 [0, 1])] ∧ s.cur.run ≠ .stopped ∧
    (∀ k ∈ [0, 1], k < 4) ∧ s.cur.queues[0].entries = [plain (.signal none 0 1 8), plain (.fence 7 [0, 1])] ∧
    ∀ ks, (plain (.signal none 0 1 8)).cmd ≠ .fence 7 ks :=
  ⟨withStrand fun c => { c with
      queues := (c.queues.set 0 { EngineQueue.reset with entries := [plain (.signal none 0 1 8), plain (.fence 7 [0, 1])] }).set 1
        { EngineQueue.reset with entries := [plain (.fence 7 [0, 1])] } },
    rfl, (by decide : Run.running ≠ .stopped), by decide, rfl, nofun⟩

theorem meets_EngineFenceAndSignal :
    (∀ halt, ∃ e, (((fenced halt).cur.queues[0]).entries = [e] ∧ e.cmd = .fence 7 [0, 1] ∧ (fenced halt).cur.run ≠ .stopped ∧
      [0, 1].Nodup ∧ ∀ k : Fin 4, k.val ∈ [0, 1] → ∃ f l, ((fenced halt).cur.queues[k]).entries = f :: l ∧ f.cmd = .fence 7 [0, 1] ∧
        f.ntf = none ∧ ((fenced halt).cur.queues[k]).halted = (halt && decide (k.val = 1)))) ∧
    (∃ (s k : State) (x : Xlat), (s.cur.queues[0]).entries = [plain (.signal none 0 1 0x8000)] ∧ (s.cur.queues[0]).halted = false ∧
      s.cur.run ≠ .stopped ∧ s.translate s.cur.via .s 0x8000 .amo false = (.ok x, k)) ∧
    (∀ b, ∃ s : State, s.cur.watchHeld = (5, 0x8000) :: [(6, 0x8008)] ∧ (5#6).toNat % 4 = 1 ∧ s.cur.run = .running ∧ s.cur.slot = 0 ∧
      s.cur.reissue = .none ∧ s.cur.level ≠ .f ∧ s.cur.trIn = b) := by
  refine ⟨fun halt => ⟨plain (.fence 7 [0, 1]), rfl, rfl, (by decide : Run.running ≠ .stopped), by decide, fun k hk => ?_⟩, ?_, fun b =>
    ⟨withStrand fun c => { c with watchHeld := [(5, 0x8000), (6, 0x8008)], trIn := b }, rfl, rfl, rfl, rfl, rfl, (by decide : Level.s ≠ .f), rfl⟩⟩
  · have : k = 0 ∨ k = 1 := by revert k; decide
    obtain rfl | rfl := this
    · exact ⟨_, [], rfl, rfl, rfl, by cases halt <;> rfl⟩
    · exact ⟨_, [], rfl, rfl, rfl, by cases halt <;> rfl⟩
  · obtain ⟨x, k, h, _⟩ := ok_that (r := (queued [plain (.signal none 0 1 0x8000)] id).translate
      (queued [plain (.signal none 0 1 0x8000)] id).cur.via .s 0x8000 .amo false) (p := fun _ _ => true) (by decide +kernel)
    exact ⟨queued [plain (.signal none 0 1 0x8000)] id, k, x, rfl, rfl, by decide, h⟩

/-- The accesses of a range of bytes of a command's operand are reached, as a test. -/
def reachTest (u : State) (tbl : PageTable) (n : Need) (larder : Bool) (as : List Nat) : Bool :=
  larder || as.all fun a => match u.spotAt tbl n false (a % 2 ^ 64) with
    | .ok (.mem _ b) => decide (b = a % 2 ^ 64)
    | .ok (.larder _) => false
    | .error _ => false

theorem reaches_of {u : State} {tbl : PageTable} {n : Need} {larder : Bool} {as : List Nat} (h : reachTest u tbl n larder as = true) :
    ∀ a ∈ as, ∃ sp, u.Reaches tbl n larder a sp := by
  intro a ha
  cases larder
  · have := List.all_eq_true.1 ((Bool.false_or _).symm.trans h) a ha
    split at this
    · next x b hx => exact ⟨.mem x b, ⟨x, by rw [of_decide_eq_true this]⟩, hx⟩
    · cases this
    · cases this
  · exact ⟨_, rfl⟩

/-- A block and the words that its last four may not set. -/
def block (a b c d : Word) : List Word := [a, b, c, d, 0, 0, 0, 0]

/-- The granules of a range reached in the state of `live` with memory of ones and zeros. -/
def ranged (m : Memory) (as : List Nat) (n : Need) : Bool :=
  let r := ({ queued [] id with mem := table ++ m } : State).sortPages (elemGranules as)
  reachTest r.2 r.1 n false as

/-- QGATHER and QSCATTER: blocks that are refused, of no element, past the Larder on either side, and misaligned (R252); operands
in memory that are reached, and addresses that are not. -/
theorem meets_BlockCommandResults_gather :
    (∀ e ∈ ([.gather (block 0 0 0 0), .scatter (block 0 0 0 0)] : List QCmd), (queued [plain e] id).cur.queues[0].entries = [plain e] ∧
      (queued [plain e] id).cur.queues[0].halted = false ∧ (queued [plain e] id).cur.run ≠ .stopped ∧ (plain e).ntf = none) ∧
    (∀ r ∈ ([(2 ^ 38, 0, 0, 0), (2 ^ 34, 0, 0, 0), (2 ^ 33 + 2, 0x8000, 0, 1), (2 ^ 36 + 2, 0xBFFFFFC, 0, 2), (2 ^ 37 + 2, 0x8000, 0xBFFFFFF, 3),
        (2, 0x8002, 0x9000, 4), (2, 0x8000, 0x9000, 5)] : List (Nat × Nat × Nat × Nat)),
      let field := fun (lo n : Nat) => r.1 / 2 ^ lo % 2 ^ n
      let good := r.1 / 2 ^ 38 = 0 ∧ field 32 3 ≤ 3
      let isize := if field 35 1 = 1 then 8 else 4
      let fitsI := field 36 1 = 1 → r.2.1 + field 0 32 * isize ≤ larderSize
      let fitsD := field 37 1 = 1 → r.2.2.1 + field 0 32 * 2 ^ field 32 3 ≤ larderSize
      (good ↔ r.2.2.2 ≠ 0) ∧ (r.2.2.2 ≠ 0 → (fitsI ↔ r.2.2.2 ≠ 2) ∧ (fitsD ↔ r.2.2.2 ≠ 3) ∧ (r.2.1 % isize = 0 ↔ r.2.2.2 ∉ [2, 4] ∨ r.2.2.2 = 2))) ∧
    (∀ n ∈ ([.load, .store] : List Need), ranged [] ((List.range 8).map (0x8000 + ·)) n = true ∧
      errAlone (live.spotAt [] n false (2 ^ 57)) (fun f => match f with
        | .trap c => decide (c = .access)
        | .stall => false) = true) := by
  refine ⟨fun e he => ⟨rfl, rfl, (by decide : Run.running ≠ .stopped), rfl⟩, by decide +kernel, fun n hn => ?_⟩
  simp only [List.mem_cons, List.not_mem_nil, or_false] at hn
  obtain rfl | rfl := hn <;> decide +kernel

/-- QPLOAD and QPSTORE: the last two words of blocks that are refused, past the Larder, misaligned and as they must be (R253);
rows in memory that are reached. -/
theorem meets_BlockCommandResults_plane :
    (∀ r ∈ ([(0, 0x1011, 1, 0), (0x2001, 0x1018, 1, 0), (0x2000, 0x1008, 1, 0), (0xC000000, 0x1018, 1, 1), (0x2000, 0x1012, 1, 2), (0x2000, 0x1012, 2, 3),
        (0x4000, 0x2018, 1, 3)] : List (Nat × Nat × Nat × Nat)),
      let width := ([0, 0, 16, 16, 8, 8, 4, 0, 8, 0, 0, 0, 8, 4, 4, 0] : List Nat).getD (r.2.1 % 16) 0
      let rows := r.2.1 / 16 % 256
      let kc := r.2.1 / 4096 % 64
      let good := width ≠ 0 ∧ r.2.1 / 2 ^ 18 = 0 ∧ r.1 % 8192 = 0 ∧ 0 < rows ∧ rows ≤ 128 ∧ 0 < kc ∧ kc ≤ 32
      (good ↔ r.2.2.2 ≠ 0) ∧ (r.2.2.2 ≠ 0 → (r.1 + 8192 ≤ larderSize ↔ r.2.2.2 ≠ 1) ∧
        (r.2.2.2 ≠ 1 → (r.2.2.1 % max 1 (width / 8) = 0 ↔ r.2.2.2 ≠ 2)) ∧ (Fmt.ofCode (BitVec.ofNat 4 r.2.1)).isSome = true)) ∧
    (∀ n ∈ ([.load, .store] : List Need), ranged [] [0x8000, 0x8001, 0x8010, 0x8011] n = true) := by
  refine ⟨by decide +kernel, fun n hn => ?_⟩
  simp only [List.mem_cons, List.not_mem_nil, or_false] at hn
  obtain rfl | rfl := hn <;> decide +kernel

/-- QSPLOAD: blocks that are refused, past the Larder, of too many entries, misaligned, and as they must be (R293); a list that is
good, one with a reserved bit, one with a NaN, and a dense tile that is reached, with 65 non-zeros and with none. -/
theorem meets_BlockCommandResults_onion :
    (∀ r ∈ ([(1, 0x4000, 0, 0), (0x18, 0xBFFB000, 0, 1), (0x401000000000018, 0x4000, 0, 2), (0x18, 0x4000, 2, 3),
        (0x2, 0x4000, 1, 3), (0x1000000000018, 0x4000, 4, 4), (0x28, 0x4001, 0, 0), (0x8, 0x4000, 3, 4)] : List (Nat × Nat × Nat × Nat)),
      let field := fun (lo n : Nat) => r.1 / 2 ^ lo % 2 ^ n
      let width := ([0, 0, 16, 0, 8, 8, 4, 0, 8, 0, 0, 0, 0, 0, 4, 0] : List Nat).getD (field 0 4) 0
      let good := width ≠ 0 ∧ r.1 / 2 ^ 59 = 0 ∧ r.2.1 % 4096 = 0
      let aligned := if field 4 1 = 1 then r.2.2.1 % 4 = 0 else r.2.2.1 % max 1 (width / 8) = 0
      (good ↔ r.2.2.2 ≠ 0) ∧ (r.2.2.2 ≠ 0 → (r.2.1 + 0x6000 ≤ larderSize ↔ r.2.2.2 ≠ 1) ∧ (1024 < field 48 11 ↔ r.2.2.2 = 2) ∧
        (aligned ↔ r.2.2.2 ≠ 3))) ∧
    (∀ r ∈ ([([(0x4008000, 5)], 5, 0), ([(0x4008003, 4)], 0x4000000, 1)] : List (Memory × Nat × Nat)),
      ranged r.1 [0x8000, 0x8001, 0x8002, 0x8003] .load = true ∧ Memory.readLE (table ++ r.1) 0x4008000 4 = r.2.1 ∧
        (2 ^ 26 ≤ r.2.1 ↔ r.2.2 = 1)) ∧
    ranged [] ((List.range 1024).map (0x8000 + ·)) .load = true ∧
    (∀ n ∈ [0x3C, 0x7F], (match (fmtKind .e4m3).value n with
      | .num _ m _ => decide (m ≠ 0 ∧ n = 0x3C)
      | .inf _ => false
      | .nan _ => decide (n = 0x7F)) = true) ∧
    (64 < ((List.range 1024).filter fun n => decide (n < 65)).length ∧ ((List.range 1024).filter fun _ => false).length ≤ 64) := by
  and_intros <;> decide +kernel

/-! ### Matrix and Onion words -/

/-- The state in matrix mode whose tiles are of a kind. -/
def tiles (bf : Bool) : State :=
  { inTiles with cur := { inTiles.cur with vec := { inTiles.cur.vec with
      slices := [{ Slice.reset with acc0 := { Tile.reset with bf16 := bf }, acc1 := { Tile.reset with bf16 := bf } }] } } }

/-- A term set at Larder offset 0: VER 1, int8, and a residual list of n entries. -/
def termSet (n : Byte) : State := { tiles false with larder := [(0, 1), (1, 8)] ++ (if n = 0 then [] else [(12, n)]) }

theorem meets_MatrixUpdateResults :
    (∀ i ∈ ([.mzero ⟨0, .fp16⟩, .mzero ⟨1, .bf16⟩, .mupd ⟨1, 2, 0, 2, 0, .e4m3, .fp16⟩, .mupdn ⟨0, 0, 0, 2, 1, .int8, .nat4⟩,
        .mupd ⟨0, 0, 0, 2, 0, .bf16, .bf16⟩] : List Instr), i.WellFormed ∧ ∃ t, (tiles false).Ready i t ∧
      decide (∀ a ∈ t.cur.vec.slices, (a.tile 0).bf16 = false ∧ (a.tile 1).bf16 = false) = true) ∧
    (∀ i ∈ ([.mupd ⟨1, 2, 0, 2, 0, .bf16, .bf16⟩, .mupdn ⟨1, 2, 0, 2, 0, .int8, .int8⟩] : List Instr), i.WellFormed ∧
      ∃ t, (tiles true).Ready i t ∧ decide (∃ a ∈ t.cur.vec.slices, (a.tile 0).bf16 = true) = true) :=
  ⟨meet_all (by decide +kernel), meet_all (by decide +kernel)⟩

/-- No stop within a matrix word. -/
def unstopped (t : State) : Bool :=
  decide (t.cur.preempt = .none ∧ t.cur.lateStop = none ∧ t.cur.vec.vstart = 0)

theorem meets_MatrixMultiplyResults :
    (∀ i ∈ ([.mmac ⟨0, 4, 0, .int8, .int8, 2, 15⟩, .mmac ⟨15, 0, 1, .bf16, .bf16, 0, 15⟩] : List Instr), i.WellFormed ∧
      ∃ t, (tiles false).Ready i t ∧ (unstopped t && (List.range 4).all fun m => (List.range t.cur.lanes).all fun j =>
        decide (t.planeRecord t.cur.id.core (t.cur.panelAt (4 + m) j) ≤ 16)) = true) ∧
    (∀ i ∈ ([.mmac ⟨0, 4, 0, .bf16, .bf16, 0, 15⟩] : List Instr), i.WellFormed ∧ ∃ t, (tiles true).Ready i t ∧ unstopped t = true) ∧
    (∀ i ∈ ([.mmac ⟨0, 4, 0, .int8, .int8, 0, 3⟩] : List Instr), i.WellFormed ∧ ∃ t, (tiles false).Ready i t ∧
      (unstopped t && decide (3 + 1 < t.planeRecord t.cur.id.core (t.cur.panelAt 4 0))) = true) ∧
    (∀ n ∈ ([0, 2] : List Nat), ∀ i ∈ ([.spmmac ⟨5, 4, 0, .int8, .int8, 15, 3⟩, .spres ⟨5, 4, 0, .int8, .int8, 15⟩] : List Instr),
      i.WellFormed ∧ ∃ t, (termSet (BitVec.ofNat 8 n)).Ready i t ∧
        (unstopped t && okAlone (t.spCheck (termSetAt (t.getX 5)) 0 .int8 4 16) fun h =>
          decide ((t.listSteps (termSetAt (t.getX 5)) h .int8).length = n)) = true) ∧
    GSum.reset.sp = .none := by
  refine ⟨meet_all (by decide +kernel), meet_all (by decide +kernel), meet_all (by decide +kernel), fun n hn => ?_, rfl⟩
  simp only [List.mem_cons, List.not_mem_nil, or_false] at hn
  obtain rfl | rfl := hn
  · exact meet_all (by decide +kernel)
  · exact meet_all (by decide +kernel)

/-- A term set that the Larder does not hold whole, or with a header that QSPLOAD never writes (R300, R301). -/
theorem meets_MatrixMultiplyResults_stops :
    (∀ i ∈ ([.spmmac ⟨5, 4, 0, .int8, .int8, 15, 3⟩, .spres ⟨5, 4, 0, .int8, .int8, 15⟩] : List Instr),
      i.WellFormed ∧ ∃ t, (tiles true).Ready i t ∧ unstopped t = true) ∧
    (∀ i ∈ ([.spmmac ⟨5, 4, 0, .int8, .int8, 15, 3⟩, .spres ⟨5, 4, 0, .int8, .int8, 15⟩] : List Instr),
      i.WellFormed ∧ ∃ t, (tiles false).Ready i t ∧
        (unstopped t && decide (t.larder.readLE (larderBase t.cur.id.core + (t.getX 5).toNat / 4096 % 65536 * 4096) 8 % 256 ≠ 1)) = true) ∧
    (∀ i ∈ ([.spmmac ⟨5, 4, 0, .int8, .int8, 3, 3⟩, .spres ⟨5, 4, 0, .int8, .int8, 3⟩] : List Instr),
      i.WellFormed ∧ ∃ t, (termSet 2).Ready i t ∧
        (unstopped t && decide (3 + 1 < t.planeRecord t.cur.id.core (t.cur.panelAt 4 0))) = true) :=
  ⟨meet_all (by decide +kernel), meet_all (by decide +kernel), meet_all (by decide +kernel)⟩

/-- The states of `tiles` are as MatrixStateResults asks. -/
def tiled (t : State) : Bool :=
  decide (t.cur.vec.vnreg = 64 ∧ t.cur.vec.vl = 128 ∧ t.cur.vec.slices.length = t.cur.lanes)

theorem meets_MatrixStateResults :
    (∀ bf, ∀ i ∈ ([.mread ⟨8, 5, 6, 1, .fp32⟩, .mread ⟨8, 5, 0, 0, .int64⟩, .mwrite ⟨8, 5, 1⟩, .mscl ⟨4, 6, false⟩, .mscl ⟨4, 6, true⟩,
        .mzpt ⟨4, 6, true, false⟩, .mstat ⟨7, 1⟩, .spstat ⟨7, 5⟩] : List Instr), i.WellFormed ∧ ∃ t, (tiles bf).Ready i t ∧
      (tiled t && decide ((tiles bf).larder = [])) = true) ∧
    (∀ i ∈ ([.mzpt ⟨4, 6, true, false⟩] : List Instr), i.WellFormed ∧ ∃ t,
      ({ tiles false with cur := { (tiles false).cur with vec := { (tiles false).cur.vec with v := [(4 * 512, 16)] } } } : State).Ready i t ∧
        (tiled t && decide (16 ≤ t.cur.elem 4 8 0)) = true) ∧
    (∀ i ∈ ([.spstat ⟨7, 5⟩] : List Instr), i.WellFormed ∧ ∃ t, (termSet 0).Ready i t ∧
      (tiled t && decide ((t.getX 5).toNat / 4096 % 65536 * 4096 + 0x6000 ≤ larderSize ∧
        t.larder.readLE (larderBase t.cur.id.core) 8 % 256 = 1)) = true) := by
  refine ⟨fun bf => ?_, meet_all (by decide +kernel), meet_all (by decide +kernel)⟩
  cases bf
  · exact meet_all (by decide +kernel)
  · exact meet_all (by decide +kernel)


/-- Raw parts 2, 4 and 5 and one past them, on a short strip (R285, R287). -/
theorem meets_MatrixStateResults_parts :
    ∀ part ∈ ([2, 4, 5, 6] : List Nat), ∀ bf, ∀ i ∈ ([.mwrite ⟨8, 5, 1⟩, .mread ⟨8, 5, 0, 1, .int64⟩] : List Instr), ∃ s : State, s.Ready i s ∧
      (s.getX 5).toNat / 256 % 8 = part ∧ s.cur.vec.vl = 3 ∧ s.cur.vec.vnreg = 64 ∧ s.cur.vec.slices.length = s.cur.lanes ∧
      ∃ a ∈ s.cur.vec.slices, (a.tile 1).bf16 = bf := by
  intro part hp bf i hi
  refine ⟨{ tiles bf with cur := { (tiles bf).cur with x := (tiles bf).cur.x.set 5 (BitVec.ofNat 64 (256 * part)), vec := { (tiles bf).cur.vec with vl := 3 } } },
    ready_self ?_, ?_, rfl, rfl, ?_, ?_⟩
  all_goals
    simp only [List.mem_cons, List.not_mem_nil, or_false] at hp hi
    obtain rfl | rfl | rfl | rfl := hp <;> obtain rfl | rfl := hi <;> cases bf <;> decide +kernel

/-! ### Ports -/

/-- The state whose group 0 is another one, and x5 a request. -/
def ported (r : Word) (g : Group) : State := { withRegs [(5, r)] with groups := live.groups.set 0 g }

/-- A group of the issuing strand's partition in a personality. -/
def mine (pers : BitVec 4) : Group := { Group.reset with pers := pers, target := pers, owner := some 1 }

/-- The request for personality r of a group ready to switch. -/
def freeToGo (t : State) (r : Word) (f : GState → Bool) : Bool :=
  decide (t.getX 5 = r ∧ r.toNat = 2 ∧ (t.groups[0]).owner = some t.cur.part ∧ (t.groups[0]).pers ≠ 2 ∧
    ∀ p ∈ t.parts, p.windows = []) && f (t.groups[0]).state

/-- Requests of PORTSW, each with the answer's condition. -/
def switchRows : List (State × (State → Bool)) :=
  [(ported 5 (mine 2), fun t => decide (4 < (t.getX 5).toNat % 16)),
    (ported 64 (mine 2), fun t => decide ((t.getX 5).toNat / 64 ≠ 0)),
    (ported 2 { mine 3 with owner := none }, fun t => decide ((t.groups[0]).owner ≠ some t.cur.part ∧ (t.getX 5).toNat = 2)),
    (ported 2 { mine 3 with state := .draining }, fun t =>
      decide ((t.groups[0]).state ≠ .active ∧ (t.groups[0]).state ≠ .down ∧ (t.groups[0]).owner = some t.cur.part)),
    (ported 2 (mine 2), fun t => decide ((t.groups[0]).state = .active ∧ (t.groups[0]).pers = BitVec.ofNat 4 (t.getX 5).toNat)),
    ({ ported 1 (mine 2) with groups := ((live.groups.set 0 (mine 2)).set 1 (mine 1)).set 2 (mine 1) }, fun t =>
      decide (2 ≤ ((List.range 24).filter fun k => decide (k ≠ 0) && (t.groupD k).counts).length)),
    ({ ported 2 (mine 0) with parts := [{ part1 with windows := [{ hostWin false with kind := 0, ways := 2, groups := 3 }] }] }, fun t =>
      decide ((t.groups[0]).pers = 0 ∧ ∃ p ∈ t.parts, ∃ w ∈ p.windows, w.en = true ∧ w.kind = 0 ∧ 2 ≤ w.ways ∧ w.groups.getLsbD 0 = true)),
    (ported 2 (mine 3), fun t => decide ((t.groups[0]).carriesRpc = true ∧ ∃ x ∈ t.sessions, 0 ∈ x.paths ∧
      ∀ k ∈ x.paths, k ≠ 0 → (t.groupD k).carriesRpc = false)),
    (ported 2 { mine 15 with state := .down }, fun t => freeToGo t 2 fun (g : GState) => decide (g = .down)),
    (ported 2 (mine 0), fun t => freeToGo t 2 fun (g : GState) => decide (g = .active))]

theorem meets_PortWordResults :
    (∀ i ∈ ([.portq ⟨7, 0⟩, .portq ⟨7, 23⟩] : List Instr), i.WellFormed ∧ ∃ t, (ported 0 (mine 2)).Ready i t ∧
      decide (t.groups[0]? = some (mine 2) ∧ (t.groups[23]?).isSome = true) = true) ∧
    (∀ r ∈ switchRows, (Instr.portsw ⟨7, 5, 0⟩).WellFormed ∧ ∃ t, r.1.Ready (.portsw ⟨7, 5, 0⟩) t ∧ r.2 t = true) := by
  refine ⟨meet_all (by decide +kernel), fun r hr => ⟨by decide, ready_that ?_⟩⟩
  exact List.all_eq_true.1 (by decide +kernel : (switchRows.all fun r => readyThat r.1 (.portsw ⟨7, 5, 0⟩) r.2) = true) r hr

theorem meets_PortEventResults :
    (∃ y : Group, y.state = .draining ∧ y.waiter = none ∧ y.asker = none) ∧
    (∃ y : Group, y.state = .draining ∧ y.waiter = none ∧ y.asker = some (1, 9)) ∧
    (∃ s : State, (s.groups[0]).state = .draining ∧ (s.groups[0]).waiter = some s.cur.id ∧ (s.groups[0]).asker = none ∧
      s.cur.run = .portsw ∧ lastBit s.cur.iword = true) ∧
    (∀ x ∈ ([.quiesced, .retraining, .verifying, .fallback, .active, .down] : List GState), ∃ s : State, (s.groups[0]).state = x) ∧
    (∃ y : Group, y.state = .fallback ∧ y.prev.toNat ≤ 4) ∧
    (∃ s : State, (s.groups[0]).owner = none ∧ s.module.owning = some 1 ∧ (s.groups[0]).spare = false) ∧
    (∃ s : State, (s.groups[0]).owner = some 1 ∧ (s.groups[0]).state = .verifying) ∧
    (∀ b, ∃ s : State, (s.groups[0]).owner = none ∧ s.module.owning = none ∧ (s.groups[0]).spare = b) := by
  refine ⟨⟨{ mine 2 with state := .draining }, by decide⟩, ⟨{ mine 2 with state := .draining, asker := some (1, 9) }, by decide⟩,
    ⟨{ ported 0 { mine 2 with state := .draining, waiter := some ⟨0, 0⟩ } with
      cur := { strand1 with run := .portsw, iword := 0xFFFFFFFFFFFFFFFF#64 } }, by decide +kernel⟩, fun x _ => ⟨ported 0 { mine 2 with state := x }, rfl⟩,
    ⟨{ mine 2 with state := .fallback, prev := 4 }, by decide⟩, ⟨live, by decide +kernel⟩,
    ⟨ported 0 { mine 2 with state := .verifying }, by decide +kernel⟩, fun b =>
    ⟨{ live with module := { live.module with owning := none }, groups := live.groups.set 0 { mine 2 with owner := none, spare := b } }, rfl, rfl, rfl⟩⟩

/-! ### Packets -/

/-- A running hardware queue of 16 slots at 0x8000 whose only window is the first 256 MiB. -/
def hw0 : HwQueue :=
  { id := { part := 1, q := 0 }, state := .running, ring := 0x8000, size := 4, opmask := 0xFFFF, prio := 1, quantum := 1
    windows := [(0, 0x300000010000000)], ran := true, head := 0, qdone := 0, faultIdx := 0, fetched := [], active := [], retired := []
    unsignalled := [], heldSignals := [], deficit := 1, aged := 0, hold := none, errors := [] }

/-- The state with that queue. -/
def landed (f : HwQueue → HwQueue) (m : Memory) : State := { live with hwq := [f hw0], mem := table ++ m }

/-- A packet of a type and steps. -/
def pkt (t n : Nat) (ws : List Word) : Packet := { queue := { part := 1, q := 0 }, index := 0, words := BitVec.ofNat 64 (t + 4096 * n) :: ws }

/-- A packet of each type that passes the checks of Table 5-9, but for a LAUNCH's descriptor. -/
def packets : List Packet :=
  [pkt 0 0 [], pkt 1 1 [0x40, 0x8000, 0, 0, 0, 0, 0], pkt 2 2 [0x9000, 1, 0x9008, 2], pkt 3 1 [0x9000, 1, 1], pkt 4 1 [0x9000, 0, 2],
    pkt 5 2 [0x9000, 1, 0x9008, 1, 2], pkt 6 1 [0x9000, 0xA000, 64], pkt 7 1 [0x101], pkt 8 1 [3]]

theorem meets_PacketResults_checks :
    (∃ (s : State) (p : Packet) (h : HwQueue), s.hwq? p.queue = some h ∧ h.qdone = p.index ∧ h.retired = [] ∧ h.unsignalled = []) ∧
    (∃ (s : State) (p : Packet) (h : HwQueue), s.hwq? p.queue = some h ∧ h.qdone < p.index ∧ h.retired = []) ∧
    (∃ p : Packet, ∀ t < 9, pktType p ≠ t) ∧
    (∀ p ∈ packets, ∃ (s : State) (h : HwQueue) (c : Nat), pktType p < 9 ∧ s.hwq? p.queue = some h ∧ h.packetFault p = some c) ∧
    (∀ t < 9, ∃ p ∈ packets, pktType p = t) ∧
    ∀ p ∈ packets, ∃ (s : State) (h : HwQueue), s.hwq? p.queue = some h ∧ h.packetFault p = none ∧ s.module.phase ≠ .tripped ∧
      ∀ i, s.stepFails p.queue p.index i = false := by
  refine ⟨⟨landed id [], pkt 0 0 [], hw0, by decide +kernel⟩,
    ⟨landed id [], { pkt 0 0 [] with index := 1 }, hw0, by decide +kernel⟩, ⟨pkt 9 0 [], by decide +kernel⟩,
    fun p hp => ⟨landed (fun h => { h with opmask := 0 }) [], { hw0 with opmask := 0 }, 0x214, ?_⟩, by decide +kernel,
    fun p hp => ⟨landed id [], hw0, ?_, ?_, nofun, fun i => ?_⟩⟩
  · revert p; decide +kernel
  · exact (by decide +kernel : ∀ p ∈ packets, (landed id []).hwq? p.queue = some hw0) p hp
  · exact (by decide +kernel : ∀ p ∈ packets, hw0.packetFault p = none) p hp
  · rw [State.stepFails, (by decide +kernel : ∀ p ∈ packets, (landed id []).hwq? p.queue = some hw0) p hp]
    rfl

/-- A step of each stepped packet is to meet an error, the steps before it are not, and they are performed (R97, R98). -/
theorem meets_PacketResults_errors :
    (∀ n ∈ ([0, 1] : List Nat), ∃ s : State, s.stepFails { part := 1, q := 0 } 0 n = true ∧ (∀ j < n, s.stepFails { part := 1, q := 0 } 0 j = false) ∧
      ∃ h, s.hwq? { part := 1, q := 0 } = some h ∧ (∀ p ∈ packets, h.packetFault p = none) ∧ (n < pktSteps (pkt 2 2 [0x9000, 1, 0x9008, 2])) ∧
      ∃ v, ((s.packetStarts (pkt 5 2 []) false).landingStore 1 0x9000 1) = Except.ok v ∧ true = true) ∧
    (∀ o ∈ ([.wait (pkt 4 1 [0x9000, 0, 0]), .depend (pkt 7 1 [0x101]) 0, .copy (pkt 6 1 [0x9000, 0xA000, 64])] : List Hold),
      ∃ (s : State) (h : HwQueue), s.hwq? { part := 1, q := 0 } = some h ∧ h.hold = some o ∧ s.stepFails { part := 1, q := 0 } 0 0 = true ∧
        ∃ r u, State.runCopyBytes 0x9000 0xA000 64 s = (.ok r, u) ∧ true = true) := by
  refine ⟨fun n hn => ⟨landed (fun h => { h with errors := [(0, n)] }) [], ?_⟩, fun o ho =>
    ⟨landed (fun h => { h with hold := some o, errors := [(0, 0)] }) [], _, rfl, rfl, by rfl, ok_that (p := fun _ _ => true) ?_⟩⟩
  · simp only [List.mem_cons, List.not_mem_nil, or_false] at hn
    obtain rfl | rfl := hn <;>
      exact ⟨by decide +kernel, by decide +kernel, _, rfl, by decide +kernel, by decide +kernel, ok_alone (p := fun _ => true) (by decide +kernel)⟩
  · simp only [List.mem_cons, List.not_mem_nil, or_false] at ho
    obtain rfl | rfl | rfl := ho <;> decide +kernel

/-- What `exec` applies the packet's steps to. -/
def begun (p : Packet) : State := (landed id []).packetStarts p false

/-- The result of a store or of a signal that is the error of a trap. -/
def errTrap {α : Type} (r : Except Fail α) : Bool :=
  match r with
  | .error (.trap _) => true
  | .error .stall => false
  | .ok _ => false

theorem err_trap {α : Type} {r : Except Fail α} (h : errTrap r = true) : ∃ c, r = .error (.trap c) := by
  obtain (c | _) | x := r
  · exact ⟨c, rfl⟩
  · exact absurd h Bool.false_ne_true
  · exact absurd h Bool.false_ne_true

theorem meets_PacketResults_steps :
    (∃ v, (List.range 2).foldlM (fun (u : State) (i : Nat) => u.landingStore 1 (0x9000 + 8 * i) 7)
      (begun (pkt 2 2 [0x9000, 7, 0x9008, 7])) = Except.ok v ∧ true = true) ∧
    (∃ v, (begun (pkt 3 1 [0x9000, 1, 1])).doSignal 1 ⟨0x9000, 1, 1⟩ = Except.ok v ∧ true = true) ∧
    (∃ c, (begun (pkt 3 1 [0x9000000, 1, 1])).doSignal 1 ⟨0x9000000, 1, 1⟩ = .error (.trap c)) ∧
    (∃ v, (begun (pkt 5 2 [0x9000, 1, 0x9008, 1, 2])).landingStore 1 0x9000 1 = Except.ok v ∧
      okAlone (v.doSignal 1 ⟨0x9008, 1, 2⟩) (fun _ => true) = true) ∧
    (∃ x v, (begun (pkt 4 1 [0x9000, 0, 2])).landingRead 1 0x9000 8 = (.ok x, v) ∧ decide (x = 0) = true) ∧
    (∀ i < pktSteps (pkt 7 1 [0x101]), ¬∃ k, (landed id []).hwq? { part := 1, q := dependQueue (pkt 7 1 [0x101]) i } = some k ∧
      dependThreshold (pkt 7 1 [0x101]) i ≤ k.qdone) ∧
    (∀ i < pktSteps (pkt 7 1 [0x101]), ∃ s : State, ∃ k, s.hwq? { part := 1, q := dependQueue (pkt 7 1 [0x101]) i } = some k ∧
      dependThreshold (pkt 7 1 [0x101]) i ≤ k.qdone) := by
  refine ⟨ok_alone (p := fun _ => true) (by decide +kernel), ok_alone (p := fun _ => true) (by decide +kernel), err_trap (by decide +kernel),
    ok_alone (p := fun (v : State) => okAlone (v.doSignal 1 ⟨0x9008, 1, 2⟩) fun _ => true) (by decide +kernel),
    ok_that (p := fun (x : Word) _ => decide (x = 0)) (by decide +kernel), fun i hi => ?_, fun i hi => ?_⟩
  · have h : pktSteps (pkt 7 1 [0x101]) = 1 := by decide +kernel
    obtain rfl : i = 0 := by omega
    rintro ⟨k, hk, _⟩
    exact absurd hk (by rw [show (landed id []).hwq? { part := 1, q := dependQueue (pkt 7 1 [0x101]) 0 } = none by decide +kernel]; exact nofun)
  · have h : pktSteps (pkt 7 1 [0x101]) = 1 := by decide +kernel
    obtain rfl : i = 0 := by omega
    exact ⟨landed (fun h => { h with id := { part := 1, q := 1 }, qdone := 1 }) [], { hw0 with id := { part := 1, q := 1 }, qdone := 1 }, by decide +kernel⟩

theorem meets_PacketResults_holds :
    (∀ o ∈ [some (Hold.wait (pkt 4 1 [0x9000, 0, 0])), some (.wait (pkt 4 1 [0x9000, 1, 0x100000000])), some (.depend (pkt 7 1 [0x101]) 0),
        some (.copy (pkt 6 1 [0x9000, 0xA000, 64])), none], ∃ (s : State) (h : HwQueue), s.hwq? { part := 1, q := 0 } = some h ∧ h.hold = o) ∧
    (∀ c ∈ [0, 1], ∃ x v, (landed id []).landingRead 1 (pw (pkt 4 1 [0x9000, c, 0]) 1) 8 = (.ok x, v) ∧
      decide (pw (pkt 4 1 [0x9000, c, 0]) 3 % 8 ≤ 3 ∧ pw (pkt 4 1 [0x9000, c, 0]) 3 / 2 ^ 32 = 0 ∧ (x = c ↔ c = 0)) = true) ∧
    pw (pkt 4 1 [0x9000, 1, 0x100000000]) 3 / 2 ^ 32 ≠ 0 ∧
    (∃ r u, State.runCopyBytes 0x9000 0xA000 64 (landed id []) = (.ok r, u) ∧ true = true) ∧
    (∃ e u, State.runCopyBytes 0x9000000 0xA000 64 (landed id []) = (.error e, u) ∧
      (match e with | .fault _ _ _ => true | .stall => false) = true) ∧
    (∃ e u, State.runCopyBytes 0x8000000 0xA000 64 draining = (.error e, u) ∧
      (match e with | .fault _ _ _ => false | .stall => true) = true) := by
  refine ⟨fun o _ => ⟨landed (fun h => { h with hold := o }) [], { hw0 with hold := o }, rfl, rfl⟩, fun c hc => ?_, by decide +kernel,
    ok_that (p := fun _ _ => true) (by decide +kernel), err_that (by decide +kernel), err_that (by decide +kernel)⟩
  refine ok_that (p := fun (x : Word) _ => decide (pw (pkt 4 1 [0x9000, c, 0]) 3 % 8 ≤ 3 ∧ pw (pkt 4 1 [0x9000, c, 0]) 3 / 2 ^ 32 = 0 ∧ (x = c ↔ c = 0))) ?_
  simp only [List.mem_cons, List.not_mem_nil, or_false] at hc
  obtain rfl | rfl := hc
  · decide +kernel
  · decide +kernel

/-- A LAUNCH of the descriptor at arena offset 0x40. -/
def launchPkt : Packet := pkt 1 1 [0x40, 0x8000, 0, 0, 0, 0, 0]

/-- The state with its descriptor: entry 0x100, one level that distributes two trips over the cores, or with ACC = 3. -/
def launching (acc : Byte) : State := landed id [(0x1000041, 1), (0x1000048, 1 + 16 * acc), (0x1000050, 2), (0x1000057, 0x40)]

/-- What the validation of a LAUNCH answers, as a test. -/
def launchFaults (r : LaunchCheck) (p : Nat → Bool) : Bool :=
  match r with
  | .fault c _ => p c
  | .stall _ => false
  | .ok _ _ => false

/-- The launch it answers satisfies a test. -/
def launchOk (r : LaunchCheck) (p : Launch → State → Bool) : Bool :=
  match r with
  | .fault _ _ => false
  | .stall _ => false
  | .ok l t => p l t

theorem meets_LaunchStartsTasks :
    pktType launchPkt = 1 ∧ hw0.packetFault launchPkt = none ∧ (∀ acc, (launching acc).hwq? launchPkt.queue = some hw0 ∧
      (launching acc).partition? launchPkt.queue.part = some part1) ∧
    (∃ c t, (launching 3).checkLaunch launchPkt hw0 part1 = .fault c t ∧ decide (c = 0x205) = true) ∧
    ∃ l t, (launching 0).checkLaunch launchPkt hw0 part1 = .ok l t ∧ (decide (l.tasks = 2 ∧
      t.reservedBefore l (t.levelOf l.queue) = false) && (t.seatsFor part1 l (seatsOf t.strands)).isSome) = true := by
  refine ⟨by decide +kernel, by decide +kernel, fun acc => ⟨rfl, rfl⟩, ?_, ?_⟩
  · have h : launchFaults ((launching 3).checkLaunch launchPkt hw0 part1) (fun c => decide (c = 0x205)) = true := by decide +kernel
    generalize (launching 3).checkLaunch launchPkt hw0 part1 = r at h ⊢
    obtain ⟨c, t⟩ | t | ⟨l, t⟩ := r
    · exact ⟨c, t, rfl, h⟩
    · exact absurd h Bool.false_ne_true
    · exact absurd h Bool.false_ne_true
  · have h : launchOk ((launching 0).checkLaunch launchPkt hw0 part1) (fun l t => decide (l.tasks = 2 ∧
      t.reservedBefore l (t.levelOf l.queue) = false) && (t.seatsFor part1 l (seatsOf t.strands)).isSome) = true := by decide +kernel
    generalize (launching 0).checkLaunch launchPkt hw0 part1 = r at h ⊢
    obtain ⟨c, t⟩ | t | ⟨l, t⟩ := r
    · exact absurd h Bool.false_ne_true
    · exact absurd h Bool.false_ne_true
    · exact ⟨l, t, rfl, h⟩

/-! ### The Landing's service of its queues -/

/-- A launch of queue 0, with one task. -/
def launch1 : Launch :=
  { lid := 1, queue := { part := 1, q := 0 }, index := 0, tag := 0, sup := false, evt := false, ordered := false, conc := false, grant := 1
    vnreg := 32, param := 0, stack := 0, ssize := 0, trvec := 0, entry := 0x100, signal := ⟨0, 0, 0⟩, virt := false, tasks := 1, tripC := 1
    fuse := 1, levelC := none, levelD := none, code := [], state := .running, seq := 0, halted := 0, endRec := none }

/-- The state with some launches. -/
def launched (l : List Launch) : State := { landed id [] with launches := l }

/-- The queue's descriptor with RUN set: ring 0x8000, size 4, quantum 1. -/
def runSet : Memory := [(0x4100001, 0x80), (0x4100008, 2), (0x410000B, 4), (0x410000C, 1)]

/-- A queue that is stopped. -/
def halting (h : HwQueue) : HwQueue := { h with state := .stopped }

/-- The state with that queue and a second one that is stopped, and some launches. -/
def paired (f : HwQueue → HwQueue) (m : Memory) (l : List Launch) : State :=
  { landed f m with hwq := [f hw0, { halting hw0 with id := { part := 1, q := 1 } }], launches := l }

/-- States in which queue 0 is the only ready one of two: with a launch that waits, with a packet fetched before, and with a NOP or a
LAUNCH at its head. -/
def oneReady : List State :=
  [paired id [(0x4100018, 1)] [{ launch1 with state := .waiting }], paired (fun h => { h with fetched := [pkt 0 0 []] }) [(0x4100018, 1)] [],
    paired id [(0x4100018, 1)] [], paired id [(0x4100018, 1), (0x4008000, 1), (0x4008001, 0x10)] []]

theorem meets_LandingServiceResults :
    (∃ (s : State) (q : QueueId) (h : HwQueue), s.hwq? q = some h ∧ s.submits = [] ∧ h.state = .running ∧
      (s.qword q 0x18).toNat - h.qdone ≤ 2 ^ h.size ∧ (s.qword q 0x08).getLsbD 1 = false ∧ s.queueReady h = false ∧
      ∀ k ∈ s.hwq, s.queueReady k = false) ∧
    (∃ (s : State) (q : QueueId) (h : HwQueue), s.hwq? q = some h ∧ h.state ≠ .running ∧ (s.qword q 0x08).getLsbD 1 = true ∧
      4 ≤ (s.qword q 0x08).toNat / 2 ^ 24 % 16 ∧ (s.qword q 0x08).toNat / 2 ^ 32 % 65536 ≠ 0 ∧ (s.qword q 0x00).toNat % 64 = 0 ∧
      (s.qword q 0x18).toNat - h.qdone ≤ 2 ^ ((s.qword q 0x08).toNat / 2 ^ 24 % 16)) ∧
    (∃ (s : State) (q : QueueId) (h : HwQueue), s.hwq? q = some h ∧ h.state ≠ .running ∧ (s.qword q 0x08).getLsbD 1 = true ∧
      (s.qword q 0x08).toNat / 2 ^ 24 % 16 < 4) ∧
    (∃ (s : State) (q : QueueId) (h : HwQueue), s.hwq? q = some h ∧ s.queueReady h = true) ∧
    (∀ s ∈ oneReady, ∃ h, s.hwq? { part := 1, q := 0 } = some h ∧ h.id = { part := 1, q := 0 } ∧ s.module.phase ≠ .tripped ∧
      (∀ k ∈ s.hwq, k.heldSignals = []) ∧ (s.hwq.filter fun k => decide (s.dieOf k.id.part = s.dieOf 1) && s.queueReady k) = [h] ∧
      h.prio - h.aged ≤ 3 ∧ 0 < h.deficit ∧ h.qdone ≠ (s.qword h.id 0x18).toNat ∧ s.hwq.length = 2) ∧
    (∃ (s : State) (l : Launch) (p : Partition), s ∈ oneReady ∧ s.waitingLaunch { part := 1, q := 0 } = some l ∧ s.partition? 1 = some p ∧
      ((s.tryLaunch l p).2.waitingLaunch { part := 1, q := 0 } = none)) ∧
    (∃ (s : State) (h : HwQueue), s ∈ oneReady ∧ s.hwq? { part := 1, q := 0 } = some h ∧ h.fetched = [pkt 0 0 []] ∧
      s.waitingLaunch { part := 1, q := 0 } = none) ∧
    (∀ n ∈ ([0, 1] : List Nat), ∃ (s : State) (h : HwQueue), s ∈ oneReady ∧ s.hwq? { part := 1, q := 0 } = some h ∧ h.fetched = [] ∧ h.active = [] ∧
      s.waitingLaunch { part := 1, q := 0 } = none ∧ ∃ p v, s.readSlot h = (.ok p, v) ∧ (decide (pktType p = n) && decide (
        ∀ k ∈ (v.runPacket p).hwq, k.id = { part := 1, q := 0 } ∨ (v.runPacket p).queueReady k = false)) = true) ∧
    (∃ (s : State) (x : Launch), s.launch? 1 = some x ∧ x.state = .preempted) ∧
    (∃ (s : State) (x : Launch) (h : HwQueue), s.launch? 1 = some x ∧ s.hwq? x.queue = some h ∧ x.state = .running ∧ x.sup = false ∧
      s.gangWaits 1 1 (fun n => decide (n = h.level)) = true) ∧
    (∃ (s : State) (x : Launch), s.launch? 1 = some x ∧ x.state = .running ∧ x.sup = true) := by
  refine ⟨⟨landed id [], { part := 1, q := 0 }, hw0, by decide +kernel⟩,
    ⟨landed halting runSet, { part := 1, q := 0 }, halting hw0, by decide +kernel⟩,
    ⟨landed halting [(0x4100008, 2)], { part := 1, q := 0 }, halting hw0, by decide +kernel⟩,
    ⟨landed id [(0x4100018, 1)], { part := 1, q := 0 }, hw0, by decide +kernel⟩, by decide +kernel,
    ⟨paired id [(0x4100018, 1)] [{ launch1 with state := .waiting }], { launch1 with state := .waiting }, part1, by decide +kernel⟩,
    ⟨paired (fun h => { h with fetched := [pkt 0 0 []] }) [(0x4100018, 1)] [], _, by decide +kernel, rfl, rfl, by decide +kernel⟩, fun n hn => ?_,
    ⟨launched [{ launch1 with state := .preempted }], { launch1 with state := .preempted }, by decide +kernel⟩,
    ⟨launched [launch1, { launch1 with lid := 2, state := .waiting }], launch1, hw0, by decide +kernel⟩,
    ⟨launched [{ launch1 with sup := true }], { launch1 with sup := true }, by decide +kernel⟩⟩
  refine ⟨paired id ((0x4100018, 1) :: if n = 0 then [] else [(0x4008000, 1), (0x4008001, 0x10)]) [], hw0, ?_, ?_, rfl, rfl, ?_,
    ok_that (p := fun (p : Packet) (v : State) => decide (pktType p = n) && decide (
      ∀ k ∈ (v.runPacket p).hwq, k.id = { part := 1, q := 0 } ∨ (v.runPacket p).queueReady k = false)) ?_⟩ <;>
  · simp only [List.mem_cons, List.not_mem_nil, or_false] at hn
    obtain rfl | rfl := hn <;> decide +kernel

/-- A task of launch 1 that was pre-empted on strand 3. -/
def parked1 : Strand := { strand1 with id := { core := 0, sid := 3 }, task := some (1, 0), run := .preempted }

/-- The state with launch 1 pre-empted, its only task parked, over some cores. -/
def parkedState (k : List CoreState) : State :=
  { launched [{ launch1 with state := .preempted }] with parked := [parked1], cores := k }

theorem meets_GangResults :
    (∃ (s : State) (x : Launch) (h : HwQueue), s.launch? 1 = some x ∧ x.state = .running ∧ x.tasks ≤ x.halted ∧ s.hwq? x.queue = some h ∧
      x.ordered = false ∧ x.signal.a = 0 ∧ h.qdone = x.index ∧ h.retired = [] ∧ h.unsignalled = [x.index] ∧ h.heldSignals = []) ∧
    (∃ (s : State) (x : Launch), s.launch? 1 = some x ∧ x.halted < x.tasks ∧ x.state = .running ∧ x.sup = false) ∧
    (∃ (s : State) (x : Launch), s.launch? 1 = some x ∧ x.sup = true) ∧
    (∀ b, ∃ (s : State) (x : Launch) (p : Partition), s.launch? 1 = some x ∧ x.state = .preempted ∧ s.partition? x.queue.part = some p ∧
      (s.resumeSeats p x.sup (seatsOf s.strands) (s.parkedOf 1)).isSome = b) ∧
    (∀ x ∈ [Preempt.none, .requested], ∃ s : State, s.cur.preempt = x ∧ s.cur.atPoint = true ∧ s.cur.board = [] ∧ s.cur.task ≠ none ∧
      s.cur.history = none ∧ s.held = false) ∧
    (∃ s : State, s.cur.preempt = .requested ∧ s.cur.atPoint = false) ∧
    (∃ c : Strand, c.part = 1 ∧ c.task ≠ none ∧ (c.queues[(0 : Fin 4)]).inFlight = true ∧ (c.queues[(1 : Fin 4)]).inFlight = false) := by
  refine ⟨⟨{ launched [{ launch1 with halted := 1 }] with hwq := [{ hw0 with unsignalled := [0] }] }, { launch1 with halted := 1 },
      { hw0 with unsignalled := [0] }, by decide +kernel⟩, ⟨launched [launch1], launch1, by decide +kernel⟩,
    ⟨launched [{ launch1 with sup := true }], { launch1 with sup := true }, by decide +kernel⟩, fun b => ?_, fun x hx => ?_,
    ⟨withStrand fun c => { c with preempt := .requested, slot := 1 }, by decide +kernel⟩,
    ⟨{ strand1 with task := some (1, 0), queues := strand1.queues.set 0 { EngineQueue.reset with entries := [plain (.signal none 0 1 8)] } },
      by decide +kernel⟩⟩
  · cases b
    · exact ⟨parkedState [], { launch1 with state := .preempted }, part1, by decide +kernel⟩
    · exact ⟨parkedState [.reset 0], { launch1 with state := .preempted }, part1, by decide +kernel⟩
  · refine ⟨withStrand fun c => { c with preempt := x, task := some (1, 0) }, rfl, ?_, rfl, ?_, rfl, rfl⟩
    · exact (by decide +kernel : strand1.atPoint = true)
    · exact nofun

/-- A state in which launch 1, or its task, stands as YIELD and HALT ask it (R352, R358). -/
def tasked (sup : Bool) (f : Strand → Strand) (more : List Launch) (others : List Strand) : State :=
  { launched ({ launch1 with sup := sup } :: more) with cur := f { strand1 with task := some (1, 0) }, others := others }

/-- Another task of launch 1, on strand 1. -/
def fellow (r : Run) : Strand := { strand1 with id := { core := 0, sid := 1 }, task := some (1, 1), run := r }

theorem meets_YieldAndHaltResults_tasks :
    (∃ (s : State) (l : Launch), (s.cur.task.bind fun x => s.launch? x.1) = some l ∧ l.sup = true) ∧
    (∃ (s : State) (l : Launch), s.cur.task = some (l.lid, 0) ∧ s.launch? l.lid = some l ∧ l.sup = false ∧ s.cur.unsettled = true) ∧
    (∀ r ∈ ([(.none, [], false, false), (.requested, [], true, false),
        (.none, [{ launch1 with lid := 2, state := .waiting }], false, true)] : List (Preempt × List Launch × Bool × Bool)),
      ∃ (s : State) (l : Launch), s.cur.task = some (l.lid, 0) ∧ s.launch? l.lid = some l ∧ l.sup = false ∧ s.cur.unsettled = false ∧
        s.gangAsked l.lid = r.2.2.1 ∧ (s.launches.any fun y => decide (y.lid ≠ l.lid) && decide (y.queue.part = l.queue.part) &&
          (decide (y.state = .waiting) || decide (y.state = .preempted)) && decide (s.levelOf y.queue ≤ s.levelOf l.queue)) = r.2.2.2) ∧
    (∃ s : State, s.cur.queues[0].halted = false ∧ s.cur.queues[0].entries = [plain (.signal none 0 1 8)]) ∧
    (∀ r ∈ ([[], [.running], [.preempted], [.halted, .preempted]] : List (List Run)), ∃ s : State, s.cur.commandsDone = true ∧
      s.cur.task = some (1, 0) ∧ (s.launch? 1).isSome = true ∧ s.cur.board = [] ∧ s.cur.lateHeld = [] ∧
      ((s.others.filter fun c => c.ofLaunch 1).map (·.run)) = r) := by
  refine ⟨⟨tasked true id [] [], { launch1 with sup := true }, by decide +kernel⟩,
    ⟨tasked false (fun c => { c with board := [entry1] }) [] [], launch1, by decide +kernel⟩, fun r hr =>
      ⟨tasked false (fun c => { c with preempt := r.1 }) r.2.1 [], launch1, rfl, rfl, rfl, rfl, ?_, ?_⟩,
    ⟨queued [plain (.signal none 0 1 8)] id, rfl, rfl⟩,
    fun r hr => ⟨tasked false id [] (r.map fellow), rfl, rfl, rfl, rfl, rfl, ?_⟩⟩
  · simp only [List.mem_cons, List.not_mem_nil, or_false] at hr
    obtain rfl | rfl | rfl := hr <;> decide +kernel
  · simp only [List.mem_cons, List.not_mem_nil, or_false] at hr
    obtain rfl | rfl | rfl := hr <;> decide +kernel
  · simp only [List.mem_cons, List.not_mem_nil, or_false] at hr
    obtain rfl | rfl | rfl | rfl := hr <;> decide +kernel

/-- HALT of a task whose launch has ended (R363). -/
theorem meets_YieldAndHaltResults_ending : ∃ (s : State) (k : Nat × Nat), s.cur.commandsDone = true ∧ s.cur.task = some k ∧ s.cur.board = [] ∧
    s.cur.lateHeld = [] ∧ s.cur.preempt = .ending :=
  ⟨tasked false (fun c => { c with preempt := .ending }) [] [], (1, 0), by decide +kernel⟩

/-- A plan of loads or stores whose accesses pass on `based`, which meets no late error. -/
def passesThere (p : VmPlan) : Bool := passes based p fun _ _ => decide (based.cur.lateLoad = none)

theorem passes_there {p : VmPlan} (h : passesThere p = true) : ∃ tbl u, based.Passes p tbl u ∧ based.cur.lateLoad = none :=
  let ⟨tbl, u, h1, h2⟩ := passes_sound h
  ⟨tbl, u, h1, of_decide_eq_true h2⟩

theorem meets_InstructionsExecuteNormally :
    (∃ s : State, s.cur.unsettled = true) ∧ (∃ s : State, (s.cur.task.bind fun x => s.launch? x.1) = none) ∧
    (∃ s : State, s.cur.commandsDone = true ∧ s.cur.board = [] ∧ s.cur.lateHeld = []) ∧
    (∀ i ∈ floatWords, i.WellFormed ∧ ∃ t, (strip 4 0).Ready i t ∧ decide (t.cur.vec.vl = 4) = true) ∧
    (∀ i ∈ reduceWords, i.WellFormed ∧ ∃ t, (strip 4 0).Ready i t ∧ decide (t.cur.vec.vl = 4) = true) ∧
    (∀ i ∈ loadRows.map (·.1) ++ storeRows.map (·.1) ++ [.vldff ⟨0, 0, 5, .e32, .device, 0⟩, .vscadd ⟨0, 0, 5, 3, .e32, false, .device, 0⟩],
      i.WellFormed ∧ ∃ t, based.Ready i t ∧ decide (t = based) = true) ∧
    (∀ p ∈ [loadPlan based 0 32 (unitAddrs based 5 0 32), loadPlan based 0 4 (unitAddrs based 5 0 4),
        loadPlan based 0 32 (stridedAddrs based 5 6 0), loadPlan based 0 8 (indexedAddrs based 5 0 3 false),
        loadPlan based 0 16 (segmentAddrs based 5 0 16 3), storePlan based 0 32 (.notify 7) (unitAddrs based 5 0 32),
        storePlan based 0 32 .unordered (stridedAddrs based 5 6 0), storePlan based 0 8 .ordered (indexedAddrs based 5 0 3 false),
        storePlan based 0 16 .unordered (segmentAddrs based 5 0 16 3),
        { storePlan based 0 32 .ordered (indexedAddrs based 5 0 3 false) with noHost := true }],
      ∃ tbl u, based.Passes p tbl u ∧ based.cur.lateLoad = none) ∧
    (∃ s : State, s.Ready (.vwait vwait1) s ∧ s.cur.vwait = none ∧ s.cur.run = .running ∧ s.getX vwait1.timeout = 0 ∧
      (∀ p, s.partition? s.cur.part = some p → (p.windows.map (·.num)).Nodup) ∧
      ∃ tbl u, s.Passes { loadPlan s 0 32 (unitAddrs s 5 0 32) with acts := withAddrs (s.cur.activesFrom0 0) (unitAddrs s 5 0 32) } tbl u ∧
        true = true) ∧
    (∀ i ∈ ([.mread ⟨8, 5, 6, 1, .fp32⟩, .mwrite ⟨8, 5, 1⟩, .mstat ⟨7, 1⟩, .mmac ⟨0, 4, 0, .int8, .int8, 2, 15⟩] : List Instr),
      i.WellFormed ∧ ∃ t, (tiles false).Ready i t ∧ decide (t.cur.preempt = .none ∧ t.cur.lateStop = none ∧
        t.cur.kindDiffers 0 false = false ∧ t.precisionFault 4 4 16 = none) = true) ∧
    (∀ i ∈ ([.spmmac ⟨5, 4, 0, .int8, .int8, 15, 3⟩, .spres ⟨5, 4, 0, .int8, .int8, 15⟩] : List Instr), i.WellFormed ∧
      ∃ t, (termSet 2).Ready i t ∧ (unstopped t && okAlone (t.spCheck (termSetAt (t.getX 5)) 0 .int8 4 16) fun _ => true) = true) := by
  refine ⟨⟨tasked false (fun c => { c with board := [entry1] }) [] [], by decide +kernel⟩, ⟨live, by decide +kernel⟩,
    ⟨live, by decide +kernel⟩, meet_all (by decide +kernel), meet_all (by decide +kernel), meet_all (by decide +kernel),
    fun p hp => passes_there (List.all_eq_true.1 ?_ p hp), ⟨edge 0x8000,
      ready_self (by decide +kernel), edge_awake _, by decide +kernel, by decide +kernel, ?_, passes_sound (q := fun _ _ => true) (by decide +kernel)⟩,
    meet_all (by decide +kernel), meet_all (by decide +kernel)⟩
  · decide +kernel
  · intro p hp
    obtain rfl := Option.some.inj ((by decide +kernel : (edge 0x8000).partition? (edge 0x8000).cur.part = some part1).symm.trans hp)
    decide +kernel

/-- After 115 °C: a packet, a launch, selection and a gang to resume find the module tripped (R405). -/
def trippedState : State := { parkedState [.reset 0] with module := { live.module with phase := .tripped } }

theorem meets_tripped : trippedState.module.phase = .tripped ∧ (trippedState.hwq? { part := 1, q := 0 }).isSome = true ∧
    (∃ x, trippedState.launch? 1 = some x ∧ x.state = .preempted) := ⟨rfl, rfl, _, rfl, rfl⟩

/-- The control word with RUN clear and with RUN set on queues of each state (R87, R90, R92). -/
theorem meets_LandingServiceResults_control :
    ∀ st ∈ ([.stopped, .running, .halted] : List QState), ∀ m ∈ ([[], [(0x4100008, 2), (0x4100009, 0xFF), (0x410000B, 0xF0)]] : List Memory),
      ∃ (s : State) (h : HwQueue), s.hwq? { part := 1, q := 0 } = some h ∧ h.state = st ∧ s.submits = [] ∧
        ((s.qword { part := 1, q := 0 } 0x08).getLsbD 1 = true ↔ m ≠ []) := by
  intro st hs m hm
  refine ⟨landed (fun h => { h with state := st }) m, { hw0 with state := st }, rfl, rfl, rfl, ?_⟩
  revert st m; decide +kernel

/-- A deadline met, in a VWAIT and elsewhere, and one not met because an error is still held (R356, R357). -/
theorem meets_GangResults_deadline :
    (∀ r ∈ ([.running, .vwait] : List Run), ∃ s : State, s.cur.preempt ≠ .none ∧ s.cur.preempt ≠ .ending ∧ s.cur.run = r ∧
      s.cur.atPoint = true ∧ s.cur.board = [] ∧ s.cur.lateHeld = [] ∧ s.cur.task ≠ none) ∧
    (∃ s : State, s.cur.preempt ≠ .none ∧ s.cur.preempt ≠ .ending ∧ s.cur.lateHeld ≠ []) ∧ ∃ s : State, s.cur.preempt = .ending :=
  ⟨fun r hr => ⟨withStrand fun c => { c with preempt := .requested, run := r, task := some (1, 0) }, nofun, nofun, rfl, by
      simp only [List.mem_cons, List.not_mem_nil, or_false] at hr
      obtain rfl | rfl := hr <;> decide +kernel, rfl, rfl, nofun⟩,
    ⟨withStrand fun c => { c with preempt := .requested, lateHeld := [entry1] }, nofun, nofun, nofun⟩,
    ⟨withStrand fun c => { c with preempt := .ending }, rfl⟩⟩

/-! ### Late errors -/

/-- A scoreboard entry of a scalar load to x6 with one element. -/
def lateEntry (k : BitVec 3) : SbEntry :=
  { pc := 0, slot := 0, kind := k, perf := true, settled := false, err := 1, addr := 0x8000, first := 0, nfail := 1, reg := 6, ew := 3
    vector := false, sx := false, amo := 0, elems := [{ index := 0, addr := 0x8000, value := 1, was := 0 }] }

/-- A strand whose next access is to fail late, with x5 at mapped memory. -/
def armed (stop : LateStop) : State := withStrand fun c => { c with lateStop := some stop, x := c.x.set 5 0x8000 }

theorem meets_LateErrorResults :
    (∀ n ∈ [1, 2, 4, 8], ∀ k ∈ [Need.load, .store, .amo], ∀ l ∈ [LateStop.boundary [0] 1 false, .boundary [0] 1 true, .load [0] 1], ∃ x t,
      (armed l).access ((armed l).getX 5 + (0#15).signExtend 64) n k = (.ok x, t) ∧ (!x.place.host) = true) ∧
    (∀ l ∈ [LateStop.boundary [0] 1 false, .boundary [0] 1 true], (armed l).cur.vec.mmode = false ∧ (armed l).cur.vowner = (armed l).cur.ctxid ∧
      ∃ x t, (armed l).access ((armed l).getX 5) 16 .amo = (.ok x, t) ∧ (!x.place.host && decide (rangeOf x.place.addr = .gddr)) = true) ∧
    ((armed (.load [0] 1)).cur.trIn = false ∧ (armed (.load [0] 1)).cur.level ≠ .f ∧ (armed (.load [0] 1)).cur.board = [] ∧
      (armed (.load [0] 1)).cur.lateHeld = []) ∧
    (∃ s : State, s.agenda = .issue s.cur.id :: [] ∧ s.cur.atBoundary = true ∧ s.cur.preempt = .none ∧ s.cur.moving = false ∧
      s.cur.trIn = false ∧ s.cur.level ≠ .f ∧ s.cur.board = [] ∧ s.cur.lateHeld = [lateEntry 0]) ∧
    (∃ s : State, s.cur.preempt = .none) ∧
    (∃ s : State, s.cur.preempt ≠ .none ∧ (∀ e ∈ s.cur.board, e.settled = true) ∧ s.cur.lateHeld = []) ∧
    (∀ held : Bool, ∃ (s : State) (e : SbEntry), s.cur.preempt ≠ .none ∧ s.cur.board ++ s.cur.lateHeld = [e] ∧ s.cur.lateHeld = (if held then [e] else []) ∧
      e.settled = false ∧ e.kind = 2) := by
  refine ⟨fun n hn k hk l hl => ok_that (p := fun (x : Xlat) (_ : State) => !x.place.host) ?_, fun l hl => ⟨rfl, rfl, ok_that (p := fun (x : Xlat) (_ : State) =>
      !x.place.host && decide (rangeOf x.place.addr = .gddr)) ?_⟩, ⟨rfl, nofun, rfl, rfl⟩,
    ⟨{ withStrand fun c => { c with lateHeld := [lateEntry 0] } with agenda := [.issue { core := 0, sid := 0 }] }, rfl, by decide +kernel, rfl, rfl, rfl,
      nofun, rfl, rfl⟩, ⟨live, rfl⟩,
    ⟨withStrand fun c => { c with preempt := .requested }, by decide +kernel⟩, fun held => ?_⟩
  · revert n k l; decide +kernel
  · revert l; decide +kernel
  · cases held
    · exact ⟨withStrand fun c => { c with preempt := .requested, board := [lateEntry 2] }, lateEntry 2, by decide +kernel⟩
    · exact ⟨withStrand fun c => { c with preempt := .requested, lateHeld := [lateEntry 2] }, lateEntry 2, by decide +kernel⟩

/-! ### Messages -/

/-- A payload of n bytes, zero but for some. -/
def bytesAt (n : Nat) (l : List (Nat × Byte)) : List Byte := (List.range n).map fun i => ((l.find? fun b => b.1 = i).map (·.2)).getD 0

/-- A request of a verb on group 0 in a session. -/
def msg (verb session : Nat) (pay : List Byte) : Msg :=
  { path := 0, w0 := BitVec.ofNat 64 (1 + 256 * verb + 2 ^ 32 * 9), w1 := BitVec.ofNat 64 (session + 2 ^ 32 * pay.length), w2 := 0, w3 := 0
    payload := pay }

/-- The checks of a request's form, as a test. -/
def formTest (m : Msg) (used bits : List (Nat × Nat)) : Bool :=
  decide (msgType m = 1 ∧ knownVerb (msgVerb m) = true ∧ m.w0.toNat / 65536 % 65536 = 0 ∧ m.w1.toNat / 2 ^ 48 = 0 ∧ msgLen m ≤ 224 ∧
    msgLen m = m.payload.length ∧ m.w2 = 0 ∧ m.w3 = 0) &&
  (m.payload.zipIdx.all fun b => decide (b.1 = 0) || used.any fun u => decide (u.1 ≤ b.2 ∧ b.2 < u.1 + u.2)) &&
  bits.all fun b => decide (payload m b.1 1 < 2 ^ b.2)

theorem formed_of {m : Msg} {used bits : List (Nat × Nat)} (h : formTest m used bits = true) : requestFormed m used bits := by
  simp only [formTest, Bool.and_eq_true, decide_eq_true_eq, List.all_eq_true] at h
  obtain ⟨⟨⟨h1, h2, h3, h4, h5, h6, h7, h8⟩, hb⟩, hf⟩ := h
  refine ⟨h1, h2, h3, h4, h5, h6, h7, h8, fun i b hi hu => ?_, hf⟩
  have := hb (b, i) (List.mem_zipIdx_iff_getElem?.2 hi)
  simp only [Bool.or_eq_true, decide_eq_true_eq, List.any_eq_true] at this
  obtain h | ⟨u, hu', h⟩ := this
  · exact h
  · exact absurd h (hu u hu')

/-- A request is accepted in a session, as a test. -/
def acceptTest (s : State) (m : Msg) (verb : Nat) (used bits : List (Nat × Nat)) (x : Session) : Bool :=
  decide ((s.groupD m.path).carriesRpc = true ∧ msgVerb m = verb ∧ s.module.phase = .service ∧ s.session? (msgSession m) = some x ∧
    s.mustWait x m.path = false) &&
    formTest m used bits

theorem accepts_of {s : State} {m : Msg} {verb : Nat} {used bits : List (Nat × Nat)} {x : Session}
    (h : acceptTest s m verb used bits x = true) : s.Accepts m verb used bits x := by
  simp only [acceptTest, Bool.and_eq_true, decide_eq_true_eq] at h
  exact ⟨h.1.1, h.1.2.1, formed_of h.2, h.1.2.2.1, h.1.2.2.2⟩

/-- The session of `live`. -/
def sess (att : Bool) : Session := { num := 1, order := 0, attested := att, paths := [0], transcript := [], exchange := false, secret := none, waiting := [] }

theorem live_carries : (live.groupD 0).carriesRpc = true := by decide +kernel

theorem one_ne : (1 : Word) ≠ 0 := by decide

/-- The verbs of a request with a payload, and the bytes and bits that it uses (R380 to R382): MAP_WINDOW in each operation, a
fourth one taken as a removal, and a map of each form of HBASE. -/
def checkRows : List (Nat × List Byte × List (Nat × Nat) × List (Nat × Nat)) :=
  [(2, [], [(0, 224)], []), (3, [], [(0, 7), (8, 24)], [(3, 1)]), (4, [], [(0, 1), (4, 20)], []), (5, [], [(0, 9), (16, 24)], [(3, 5)]),
    (5, bytesAt 3 [(2, 2)], [(0, 9), (16, 32)], [(3, 5)]),
    (5, bytesAt 2 [(1, 1)], [(0, 2), (3, 1), (12, 4)], [(3, 2)]), (5, bytesAt 2 [(1, 2)], [(0, 2), (12, 4)], []),
    (5, bytesAt 2 [(1, 3)], [(0, 2), (12, 4)], []), (6, [], [(0, 3), (8, 0)], []), (7, [], [(0, 2)], []),
    (8, [], [(0, 1), (8, 8)], []), (9, [], [(0, 1), (4, 12)], []), (10, [], [], [])]

/-- The state in another phase. -/
def phased (p : Phase) : State := { live with module := { live.module with phase := p } }

theorem meets_RpcRequestsChecked :
    (∃ (m : Msg) (s : State), (s.groupD m.path).carriesRpc = false) ∧
    (∃ m : Msg, ∀ v ∈ [2, 3, 4, 5, 6, 7, 8, 9, 10], knownVerb (msgVerb m) = true ∧ msgVerb m ≠ v) ∧
    ((live.groupD 0).carriesRpc = true ∧ knownVerb (msgVerb (msg 0x99 1 [])) = false) ∧
    (∀ x ∈ checkRows, ∃ m : Msg, (live.groupD m.path).carriesRpc = true ∧ msgVerb m = x.1 ∧ ¬requestFormed m x.2.2.1 x.2.2.2) ∧
    ∀ x ∈ checkRows, ∀ n ∈ [1, 7], ∃ m : Msg, (live.groupD m.path).carriesRpc = true ∧ msgVerb m = x.1 ∧
      requestFormed m x.2.2.1 x.2.2.2 ∧ live.session? (msgSession m) = (if n = 1 then live.sessions.head? else none) ∧
      (phased .bootRom).session? (msgSession m) = live.session? (msgSession m) := by
  refine ⟨⟨{ msg 1 1 [] with path := 5 }, live, by decide +kernel⟩, ⟨msg 1 1 [], by decide +kernel⟩, by decide +kernel, fun x hx => ?_,
    fun x hx n hn => ⟨msg x.1 n x.2.1, live_carries, ?_, formed_of ?_, ?_, ?_⟩⟩
  · refine ⟨{ msg x.1 1 x.2.1 with w2 := 1 }, live_carries, ?_, fun h => one_ne h.2.2.2.2.2.2.1⟩
    exact of_decide_eq_true (List.all_eq_true.1 (by decide +kernel : (checkRows.all fun x =>
      decide (msgVerb { msg x.1 1 x.2.1 with w2 := 1 } = x.1)) = true) x hx)
  · exact of_decide_eq_true (List.all_eq_true.1 (List.all_eq_true.1 (by decide +kernel : ([1, 7].all fun n => checkRows.all fun x =>
      decide (msgVerb (msg x.1 n x.2.1) = x.1)) = true) n hn) x hx)
  · exact List.all_eq_true.1 (List.all_eq_true.1 (by decide +kernel : ([1, 7].all fun n => checkRows.all fun x =>
      formTest (msg x.1 n x.2.1) x.2.2.1 x.2.2.2) = true) n hn) x hx
  · exact of_decide_eq_true (List.all_eq_true.1 (List.all_eq_true.1 (by decide +kernel : ([1, 7].all fun n => checkRows.all fun x =>
      decide (live.session? (msgSession (msg x.1 n x.2.1)) = if n = 1 then live.sessions.head? else none)) = true) n hn) x hx)
  · rfl

/-- An earlier request of the path waits: a SUBMIT, a CHECKPOINT, or a request behind one (R380). -/
theorem meets_RpcRequestsChecked_waits :
    ∀ s ∈ ([{ live with submits := [{ session := 1, path := 0, seq := 3, queue := { part := 1, q := 0 }, index := 0, count := 1 }] },
        { live with parts := [{ part1 with job := some ⟨1, 0, 9, 1, 0⟩ }] },
        { live with sessions := live.sessions.map fun x => { x with waiting := [msg 7 1 []] } }] : List State),
      (s.groupD 0).carriesRpc = true ∧ msgVerb (msg 10 1 []) = 10 ∧ requestFormed (msg 10 1 []) [] [] ∧ s.module.phase = .service ∧
        ∃ x, s.session? (msgSession (msg 10 1 [])) = some x ∧ ((∃ y ∈ s.submits, y.session = x.num ∧ y.path = 0) ∨
          (∃ y ∈ x.waiting, y.path = 0) ∨ ∃ p ∈ s.parts, ∃ j, p.job = some j ∧ j.session = x.num ∧ j.path = 0) := by
  intro s hs
  simp only [List.mem_cons, List.not_mem_nil, or_false] at hs
  obtain rfl | rfl | rfl := hs
  · exact ⟨by decide +kernel, by decide +kernel, formed_of (by decide +kernel), rfl, _, rfl, .inl ⟨_, .head _, rfl, rfl⟩⟩
  · exact ⟨by decide +kernel, by decide +kernel, formed_of (by decide +kernel), rfl, _, rfl, .inr (.inr ⟨_, .head _, _, rfl, rfl, rfl⟩)⟩
  · exact ⟨by decide +kernel, by decide +kernel, formed_of (by decide +kernel), rfl, _, rfl, .inr (.inl ⟨_, .head _, rfl⟩)⟩

/-- The state with other partitions and session. -/
def parted (ps : List Partition) (att : Bool) : State := { live with parts := ps, sessions := [sess att] }

/-- An OPEN of group 0 with a payload. -/
def openMsg (l : List (Nat × Byte)) : Msg := msg 1 0 (bytesAt 24 l)

theorem meets_SessionResults_open :
    (∀ l ∈ ([[(0, 2)], [(0, 0), (8, 1)], [(0, 1), (8, 7)], [], [(0, 1), (8, 5), (16, 6)]] : List (List (Nat × Byte))),
      (live.groupD (openMsg l).path).carriesRpc = true ∧ msgVerb (openMsg l) = 1 ∧ requestFormed (openMsg l) [(0, 1), (8, 16)] [] ∧
        msgSession (openMsg l) = 0) ∧
    1 < payload (openMsg [(0, 2)]) 0 1 ∧ (payload (openMsg [(0, 0), (8, 1)]) 0 1 = 0 ∧ payload (openMsg [(0, 0), (8, 1)]) 8 16 ≠ 0) ∧
    (payload (openMsg [(0, 1), (8, 7)]) 0 1 = 1 ∧ live.detached (7, 0) = none) ∧
    (payload (openMsg []) 0 1 = 0 ∧ payload (openMsg []) 8 16 = 0) ∧
    ∀ att, ∃ p, (parted [{ part1 with owner := none }] att).detached (5, 6) = some p ∧
      (parted [{ part1 with owner := none }] att).sessions = [sess att] ∧ payload (openMsg [(0, 1), (8, 5), (16, 6)]) 0 1 = 1 ∧
      payload (openMsg [(0, 1), (8, 5), (16, 6)]) 8 8 = 5 ∧ payload (openMsg [(0, 1), (8, 5), (16, 6)]) 16 8 = 6 := by
  refine ⟨fun l hl => ⟨live_carries, ?_, formed_of ?_, ?_⟩, by decide +kernel, by decide +kernel, by decide +kernel, by decide +kernel,
    fun att => ⟨{ part1 with owner := none }, ?_, rfl, by decide +kernel⟩⟩
  · revert l; decide +kernel
  · revert l; decide +kernel
  · revert l; decide +kernel
  · cases att <;> decide +kernel

/-- The state whose partition 1 has another policy and whose strand, in a task of launch 1 (R386), stands at a slot of a convoy. -/
def lost (pol : Nat) (slot : BitVec 2) : State :=
  { parted [{ part1 with policy := pol, windows := [hostWin true] }, { part1 with pid := 2, owner := some 2 }] true with
    cur := { strand1 with task := some (1, 0), slot := slot }, launches := [launch1] }

theorem meets_SessionResults :
    (∀ c ∈ ([0, 0xE5] : List Byte), live.Accepts (msg 2 1 (bytesAt 224 [(1, c)])) 2 [(0, 224)] [] (sess true) ∧
      (payload (msg 2 1 (bytesAt 224 [(1, c)])) 1 1 = 0xE5 ↔ c = 0xE5)) ∧
    live.Accepts (msg 10 1 []) 10 [] [] (sess true) ∧
    (∀ n ∈ [0, 1], (live.groupD 0).carriesRpc = true ∧ msgType { msg 0 1 (bytesAt n []) with w0 := 4 } = 4 ∧
      (msgLen { msg 0 1 (bytesAt n []) with w0 := 4 } = 0 ↔ n = 0)) ∧
    (live.session? 1).isSome = true ∧ live.session? 2 = none ∧
    (∀ r ∈ ([(0, 0), (1, 0), (2, 0), (2, 1)] : List (Nat × BitVec 2)), (lost r.1 r.2).session? 1 = some (sess true) ∧
      ((lost r.1 r.2).parts.map (·.pid)).Nodup ∧ (∀ c ∈ (lost r.1 r.2).strands, c.amo = none) ∧
      (∃ p ∈ (lost r.1 r.2).parts, p.owner = some 1 ∧ p.policy = r.1 ∧ p.events.length < 64) ∧
      (∃ p ∈ (lost r.1 r.2).parts, p.owner ≠ some 1) ∧
      (∀ c ∈ (lost r.1 r.2).strands, ∀ k, c.task = some k → ∃ l ∈ (lost r.1 r.2).launches, l.lid = k.1 ∧ l.queue.part = 1) ∧
      ((∀ c ∈ (lost r.1 r.2).strands, c.endsNow none = true) ↔ r.2 = 0)) := by
  refine ⟨fun c hc => ⟨accepts_of ?_, ?_⟩, accepts_of (by decide +kernel), fun n hn => ?_, by decide +kernel, by decide +kernel, fun r hr => ?_⟩
  · revert c; decide +kernel
  · revert c; decide +kernel
  · revert n; decide +kernel
  · refine ⟨rfl, (by decide : [1, 2].Nodup), ?_, ⟨_, .head _, rfl, rfl, (by decide : (0 : Nat) < 64)⟩, ⟨_, .tail _ (.head _), (by decide : some 2 ≠ some 1)⟩, ?_, ?_⟩
    · intro c hc
      obtain rfl := List.mem_singleton.1 hc
      rfl
    · intro c hc k hk
      obtain rfl := List.mem_singleton.1 hc
      obtain rfl : (1, 0) = k := Option.some.inj hk
      exact ⟨launch1, .head _, rfl, rfl⟩
    · exact of_decide_eq_true (List.all_eq_true.1 (by decide +kernel : ([(0, 0), (1, 0), (2, 0), (2, 1)].all fun (r : Nat × BitVec 2) =>
        decide ((∀ c ∈ (lost r.1 r.2).strands, c.endsNow none = true) ↔ r.2 = 0)) = true) r hr)

/-- CLOSE where one queue of the session's only partition runs, and the forms of a message with a verb that the device begins. -/
theorem meets_SessionResults_others :
    (∃ s : State, s.Accepts (msg 10 1 []) 10 [] [] (sess true) ∧ (s.parts.filter fun p => decide (p.owner = some 1)) = [part1] ∧
      (s.hwq.filter fun h => decide (h.id.part = 1) && decide (h.state = .running)) = [hw0]) ∧
    (∀ r ∈ ([(7, 1, false), (5, 1, true), (1, 7, true), (1, 1, true)] : List (Nat × Nat × Bool)), let m : Msg :=
        { msg 0x30 r.2.1 [] with w0 := BitVec.ofNat 64 (r.1 + 256 * 0x30) }
      msgType m ≠ 4 ∧ msgVerb m ∈ [0x20, 0x30, 0x31] ∧
        ((m.w0.toNat / 65536 % 65536 = 0 ∧ 1 ≤ msgType m ∧ msgType m ≤ 6 ∧ m.w1.toNat / 2 ^ 48 = 0 ∧ msgLen m ≤ 224 ∧
          msgLen m = m.payload.length ∧ m.w2 = 0 ∧ m.w3 = 0) ↔ r.2.2 = true) ∧ (msgType m = 1 ↔ r.1 = 1) ∧
        (live.session? (msgSession m) = none ↔ r.2.1 = 7)) ∧
    (msgType (msg 2 1 []) ≠ 4 ∧ msgVerb (msg 2 1 []) ∉ [0x20, 0x30, 0x31]) := by
  refine ⟨⟨landed id [], accepts_of (by decide +kernel), by decide +kernel, by decide +kernel⟩, fun r hr => ?_, by decide +kernel⟩
  simp only [List.mem_cons, List.not_mem_nil, or_false] at hr
  obtain rfl | rfl | rfl | rfl := hr <;> decide +kernel

/-! ### Partitions, windows and requests -/

/-- The state with no partition, or with another owner of its groups. -/
def vacant (ps : List Partition) (f : Vector Group 24 → Vector Group 24) : State := { live with parts := ps, groups := f live.groups }

/-- The state once a message of session 1 on group 0 has been heard. -/
def told (s : State) : State := s.heard 1 0

/-- CREATE_PARTITION of cores from `first`, 2^lg of them, groups 1 and 2, table and descriptors at 0x2000 and 0x100000. -/
def createMsg (first lg conf : Byte) : Msg :=
  msg 3 1 (bytesAt 32 [(0, first), (1, lg), (3, conf), (4, 6), (9, 0x20), (18, 0x10), (24, 16), (28, 1)])

/-- Partitions of every number from 0 to 63, none over a core of the block 60 to 63. -/
def allPids : List Partition := (List.range 64).map fun i => { part1 with pid := i, first := i / 2, count := 1 }

theorem meets_PartitionResults_create :
    (∀ c ∈ ([0, 1] : List Byte), live.Accepts (createMsg 2 1 c) 3 [(0, 7), (8, 24)] [(3, 1)] (sess true)) ∧
    (live.Accepts (createMsg 0 0 0) 3 [(0, 7), (8, 24)] [(3, 1)] (sess true) ∧ (told live).createRefused (createMsg 0 0 0) = true) ∧
    (∃ s : State, s.Accepts (createMsg 2 1 0) 3 [(0, 7), (8, 24)] [(3, 1)] (sess true) ∧ (told s).createRefused (createMsg 2 1 0) = false ∧
      (told s).groupsHeld (BitVec.ofNat 24 (payload (createMsg 2 1 0) 4 3)) = true) ∧
    (∃ s : State, s.Accepts (createMsg 60 2 0) 3 [(0, 7), (8, 24)] [(3, 1)] (sess true) ∧ (told s).createRefused (createMsg 60 2 0) = false ∧
      (told s).groupsHeld (BitVec.ofNat 24 (payload (createMsg 60 2 0) 4 3)) = false ∧ (told s).freePid = none) ∧
    ((told live).createRefused (createMsg 2 1 0) = false ∧ (told live).groupsHeld (BitVec.ofNat 24 (payload (createMsg 2 1 0) 4 3)) = false ∧
      (told live).freePid = some 0) := by
  refine ⟨fun c hc => accepts_of ?_, ⟨accepts_of (by decide +kernel), by decide +kernel⟩,
    ⟨vacant [part1] fun g => g.set 1 { Group.reset with owner := some 1 }, accepts_of (by decide +kernel), by decide +kernel, by decide +kernel⟩,
    ⟨vacant allPids id, accepts_of (by decide +kernel), by decide +kernel, by decide +kernel, by decide +kernel⟩, by decide +kernel⟩
  revert c; decide +kernel

/-- LOAD_CODE of len bytes to offset off of partition 1. -/
def loadMsg (off len : Byte) : Msg := msg 4 1 (bytesAt 24 [(0, 1), (4, off), (9, 0x50), (16, len)])

/-- The state with a translation area of a size, and host memory at 0x5000 that holds a descriptor of a kernel of one level, of
V = 1 with F where asked. -/
def loading (trans : Nat) (virt : Bool) : State :=
  { live with
    parts := [{ part1 with transSize := trans }]
    hostMem := [(0x5001, 1), (0x5008, 1)] ++ (if virt then [(0x5009, 1)] else []) ++ [(0x5010, 2), (0x5017, 0x10)] }

/-- LOAD_CODE on partition 1 satisfies a test of what the statement asks. -/
def loadTest (trans : Nat) (virt : Bool) (m : Msg) (ok : Bool) (room : Nat → Nat → Bool) : Bool :=
  let s := loading trans virt
  let p := { part1 with transSize := trans }
  let off := payload m 4 4
  let len := payload m 16 8
  acceptTest s m 4 [(0, 1), (4, 20)] [] (sess true) && decide ((told s).ownPart (sess true) (payload m 0 1) = some p) &&
    decide (((decide (off % 8 ≠ 0 ∨ len % 8 ≠ 0 ∨ p.arenaSize - p.transSize < off + len) || (told s).codeInUse p.pid (off, len) ||
      decide (∃ i < len, (told s).memoryGone (p.arenaBase + off + i) = true)) = false) ↔ ok = true) &&
    (!ok || decide (((told s).copyCode p.memKey (p.arenaBase + off) (payload m 8 8) len).hasVirtual p off len = virt)) &&
    room (p.arenaSize - p.transSize + 2 * len) p.arenaSize

theorem meets_PartitionResults_load :
    loadTest 0x10000 false (loadMsg 4 64) false (fun _ _ => true) = true ∧ loadTest 0x10000 false (loadMsg 64 60) false (fun _ _ => true) = true ∧
    loadTest 0x10000 false (loadMsg 64 64) true (fun _ _ => true) = true ∧
    loadTest 0x10000 true (loadMsg 64 64) true (fun n k => decide (n ≤ k)) = true ∧
    loadTest 0 true (loadMsg 64 64) true (fun n k => decide (k < n)) = true ∧
    ((part1.images.map (·.1)).Nodup ∧ part1.variants = []) := by
  and_intros <;> decide +kernel

/-- MAP_WINDOW of a system window at a virtual address, operation 0. -/
def mapMsg (page : Byte) : Msg := msg 5 1 (bytesAt 48 [(0, 1), (2, 2), (3, 1), (4, 1), (7, 1), (18, page), (19, 8), (26, 1), (37, 0x80), (42, 1)])

/-- An operation on window n with flags f. -/
def changeMsg (op n f : Byte) : Msg := msg 5 1 (bytesAt 16 [(0, 1), (1, op), (3, f), (12, n)])

/-- The partition with a window at 0x8000000. -/
def windowed : Partition := { part1 with windows := [hostWin false] }

/-- What MAP_WINDOW of operations 0 to 2 asks of partition 1 with a window at 0x8000000. -/
def windowState : State := parted [windowed] true

theorem meets_WindowResults :
    (∀ v ∈ ([0, 1] : List Byte), windowState.Accepts (mapMsg v) 5 [(0, 9), (16, 32)] [(3, 5)] (sess true) ∧ payload (mapMsg v) 1 1 = 0 ∧
      (told windowState).ownPart (sess true) (payload (mapMsg v) 0 1) = some windowed ∧
      (windowOk (mapMsg v) (newWindow (mapMsg v) windowed 1 1) = true) ∧ (newWindow (mapMsg v) windowed 1 1).len = 65536 ∧
      (v = 0 ↔ ¬∀ w ∈ windowed.windows, rangesMeet (w.va, w.len) ((newWindow (mapMsg v) windowed 1 1).va, (newWindow (mapMsg v) windowed 1 1).len) = false)) ∧
    (∀ f ∈ ([0, 1, 2, 3] : List Byte), windowState.Accepts (changeMsg 1 1 f) 5 [(0, 2), (3, 1), (12, 4)] [(3, 2)] (sess true) ∧
      payload (changeMsg 1 1 f) 1 1 = 1 ∧ (windowed.window? (payload (changeMsg 1 1 f) 12 4)).isSome = true) ∧
    (windowState.Accepts (changeMsg 1 2 1) 5 [(0, 2), (3, 1), (12, 4)] [(3, 2)] (sess true) ∧
      windowed.window? (payload (changeMsg 1 2 1) 12 4) = none) ∧
    (∀ n ∈ ([1, 2] : List Byte), windowState.Accepts (changeMsg 2 n 0) 5 [(0, 2), (12, 4)] [] (sess true) ∧
      payload (changeMsg 2 n 0) 1 1 = 2 ∧ ((windowed.window? (payload (changeMsg 2 n 0) 12 4)).isSome = true ↔ n = 1)) ∧
    (∀ y ∈ ([([(0, 9), (16, 32)], [(3, 5)]), ([(0, 2), (3, 1), (12, 4)], [(3, 2)]), ([(0, 2), (12, 4)], [])] :
        List (List (Nat × Nat) × List (Nat × Nat))),
      windowState.Accepts (msg 5 1 (bytesAt 2 [(1, 3)])) 5 y.1 y.2 (sess true) ∧ 2 < payload (msg 5 1 (bytesAt 2 [(1, 3)])) 1 1) := by
  refine ⟨fun v hv => ⟨accepts_of ?_, ?_⟩, fun f hf => ⟨accepts_of ?_, ?_⟩, ⟨accepts_of (by decide +kernel), by decide +kernel⟩,
    fun n hn => ⟨accepts_of ?_, ?_⟩, fun y hy => ⟨accepts_of ?_, by decide +kernel⟩⟩
  · revert v; decide +kernel
  · revert v; decide +kernel
  · revert f; decide +kernel
  · revert f; decide +kernel
  · revert n; decide +kernel
  · revert n; decide +kernel
  · revert y; decide +kernel

/-- SUBMIT of packets to queue 0 of partition 1. -/
def submitMsg (count : Byte) : Msg := msg 6 1 (bytesAt (8 + 64 * count.toNat) [(0, 1), (2, count)])

/-- The session's state with a queue. -/
def sub (f : HwQueue → HwQueue) (mm : Memory) : State := { landed f mm with sessions := [sess true] }

/-- SUBMIT as the statement asks it of a state and queue. -/
def submitTest (s : State) (h : HwQueue) (c : Byte) (p : Nat → Nat → Bool) : Bool :=
  acceptTest s (submitMsg c) 6 [(0, 3), (8, 64 * payload (submitMsg c) 2 1)] [] (sess true) &&
    decide (s.ownPart (sess true) (payload (submitMsg c) 0 1) = some part1 ∧
      s.hwq? { part := 1, q := payload (submitMsg c) 1 1 } = some h ∧ payload (submitMsg c) 2 1 = c.toNat) &&
    p (s.ringOf h).2 (s.qword { part := 1, q := 0 } 0x10).toNat

/-- The slots can be written, and the state satisfies a test. -/
def slotsOk (r : Option State) (p : State → Bool) : Bool :=
  match r with
  | some v => p v
  | none => false

theorem meets_RequestResults_submit :
    submitTest (sub id []) hw0 0 (fun _ _ => true) = true ∧
    submitTest (sub (fun h => { h with size := 3 }) []) { hw0 with size := 3 } 1 (fun z _ => decide (z < 4)) = true ∧
    submitTest (sub id [(0x4100010, 16)]) hw0 1 (fun z n => decide (4 ≤ z ∧ 2 ^ z < n + 1)) = true ∧
    submitTest (sub id []) hw0 2 (fun z n => decide (4 ≤ z ∧ n + 2 ≤ 2 ^ z) &&
      slotsOk ((sub id []).writeSlots 1 0x8000 4 (submitMsg 2) 0 2) fun v => decide (v.submits = []) &&
        decide (n = ((v.setQword { part := 1, q := 0 } 0x10 (BitVec.ofNat 64 (n + 2))).qword { part := 1, q := 0 } 0x18).toNat)) = true ∧
    submitTest (sub id [(0x4100010, 3), (0x4100018, 1)]) hw0 1 (fun z n => decide (4 ≤ z ∧ n + 1 ≤ 2 ^ z) &&
      slotsOk ((sub id [(0x4100010, 3), (0x4100018, 1)]).writeSlots 1 0x8000 4 (submitMsg 1) 3 1) fun v => decide (v.submits = []) &&
        decide (n ≠ ((v.setQword { part := 1, q := 0 } 0x10 (BitVec.ofNat 64 (n + 1))).qword { part := 1, q := 0 } 0x18).toNat)) = true := by
  and_intros <;> decide +kernel

/-- SWITCH_PORT of group g with a request. -/
def switchMsg (g r : Byte) : Msg := msg 8 1 (bytesAt 16 [(0, g), (8, r)])

/-- The state whose group 1 is another one. -/
def grouped (g : Group) : State := { live with groups := live.groups.set 1 g }

/-- Requests of SWITCH_PORT on group 1, each with the answer's condition (R379, Table 21-8). -/
def portRows : List (State × Byte × (State → Group → Bool)) :=
  [(live, 5, fun _ _ => true), (live, 64, fun _ _ => true), (grouped (mine 2), 2, fun _ y => decide (y.owner ≠ none)),
    (grouped { mine 3 with owner := none, state := .draining }, 2, fun _ y => decide (y.owner = none ∧ y.state ≠ .active ∧ y.state ≠ .down)),
    (grouped { mine 2 with owner := none }, 2, fun _ y => decide (y.state = .active ∧ y.pers = 2)),
    ({ live with groups := ((live.groups.set 1 { mine 2 with owner := none }).set 2 (mine 1)).set 3 (mine 1) }, 1, fun s y =>
      decide (y.pers ≠ 1 ∧ 2 ≤ ((List.range 24).filter fun k => decide (k ≠ 1) && (s.groupD k).counts).length)),
    ({ grouped { mine 0 with owner := none } with parts := [{ part1 with windows := [{ hostWin false with kind := 0, ways := 2, groups := 6 }] }] }, 2,
      fun s y => decide (y.pers = 0 ∧ ∃ p ∈ s.parts, ∃ w ∈ p.windows, w.en = true ∧ w.kind = 0 ∧ 2 ≤ w.ways ∧ w.groups.getLsbD 1 = true)),
    ({ grouped { mine 3 with owner := none } with sessions := [{ sess true with paths := [1] }] }, 2, fun s y =>
      decide (y.carriesRpc = true ∧ ∃ z ∈ s.sessions, 1 ∈ z.paths)),
    (grouped { mine 3 with owner := none }, 2, fun s y => decide (y.state = .active ∧ y.pers = 3 ∧ s.onlyPath 1 = false)),
    (grouped { mine 15 with owner := none, state := .down }, 2, fun s y => decide (y.state = .down ∧ s.onlyPath 1 = false))]

theorem meets_RequestResults_ports :
    (live.Accepts (switchMsg 24 2) 8 [(0, 1), (8, 8)] [] (sess true) ∧ ¬payload (switchMsg 24 2) 0 1 < 24) ∧
    ∀ r ∈ portRows, (r.1.sessionOwns 1 1 = true ∧ msgVerb (switchMsg 1 r.2.1) = 8 ∧ (r.1.session? 1).isSome = true ∧
      (r.1.groupD 0).carriesRpc = true) ∧ requestFormed (switchMsg 1 r.2.1) [(0, 1), (8, 8)] [] ∧ r.2.2 r.1 (r.1.groupD 1) = true := by
  refine ⟨⟨accepts_of (by decide +kernel), by decide +kernel⟩, fun r hr => ⟨?_, formed_of ?_, ?_⟩⟩
  · exact of_decide_eq_true (List.all_eq_true.1 (by decide +kernel : (portRows.all fun r => decide (r.1.sessionOwns 1 1 = true ∧
      msgVerb (switchMsg 1 r.2.1) = 8 ∧ (r.1.session? 1).isSome = true ∧ (r.1.groupD 0).carriesRpc = true)) = true) r hr)
  · exact List.all_eq_true.1 (by decide +kernel : (portRows.all fun r => formTest (switchMsg 1 r.2.1) [(0, 1), (8, 8)] []) = true) r hr
  · exact List.all_eq_true.1 (by decide +kernel : (portRows.all fun r => r.2.2 r.1 (r.1.groupD 1)) = true) r hr

/-- The state with a checkpoint under way into a window of some bytes, of a partition whose tables map nothing. -/
def jobbed (len : Nat) : State :=
  parted [{ windowed with count := 0, root := 0x100000000000, arenaSize := 64, windows := [{ hostWin false with kind := 0, len := len, pa := 0x100000000000 }]
                          job := some ⟨1, 0, 9, 1, 0⟩ }] true

theorem meets_RequestResults_others :
    (∀ c ∈ ([0, 1] : List Byte), live.Accepts (msg 7 1 (bytesAt 2 [(0, 1), (1, c)])) 7 [(0, 2)] [] (sess true) ∧
      (payload (msg 7 1 (bytesAt 2 [(0, 1), (1, c)])) 1 1 < part1.first + part1.count ↔ c = 0)) ∧
    (∀ n ∈ ([1, 2] : List Byte), ∀ k ∈ ([0, 2] : List (BitVec 2)),
      (parted [{ part1 with windows := [{ hostWin false with kind := k }] }] true).Accepts (msg 9 1 (bytesAt 16 [(0, 1), (4, n)])) 9
        [(0, 1), (4, 12)] [] (sess true)) ∧
    (live.Accepts (msg 6 1 (bytesAt 8 [(0, 1), (1, 5)])) 6 [(0, 3), (8, 0)] [] (sess true) ∧ live.hwq? { part := 1, q := 5 } = none) ∧
    (∃ (s : State) (p : Partition), s.partition? 1 = some p ∧ p.job = none) ∧
    (∀ r ∈ [(0x20, false), (0x100, true)], ∃ (p : Partition) (j : CheckpointJob), (jobbed r.1).partition? 1 = some p ∧ p.job = some j ∧
      (p.window? j.win).any (fun w => decide (j.off + (((jobbed r.1).checkpointPieces p).map (·.2.2)).sum ≤ w.len) == r.2) = true) ∧
    ∃ (s : State) (p : Partition) (j : CheckpointJob), s.partition? 1 = some p ∧ p.job = some j ∧ p.window? j.win = none := by
  refine ⟨fun c hc => ⟨accepts_of ?_, ?_⟩, fun n hn k hk => accepts_of ?_, ⟨accepts_of (by decide +kernel), by decide +kernel⟩,
    ⟨live, part1, by decide +kernel⟩, fun r hr => ⟨_, _, rfl, rfl, ?_⟩, ⟨parted [{ part1 with job := some ⟨1, 0, 9, 1, 0⟩ }] true, _, _, rfl, rfl, rfl⟩⟩
  · simp only [List.mem_cons, List.not_mem_nil, or_false] at hc
    obtain rfl | rfl := hc <;> decide +kernel
  · simp only [List.mem_cons, List.not_mem_nil, or_false] at hc
    obtain rfl | rfl := hc <;> decide +kernel
  · simp only [List.mem_cons, List.not_mem_nil, or_false] at hn hk
    obtain rfl | rfl := hn <;> obtain rfl | rfl := hk <;> decide +kernel
  · revert r; decide +kernel

/-- A checkpoint into a window whose group serves it, is switching, or does not serve it (R373), with a request behind it. -/
theorem meets_RequestResults_routes :
    ∀ g ∈ ([mine 0, { mine 0 with state := .draining }, mine 1] : List Group), ∃ (s : State) (p : Partition) (j : CheckpointJob) (w : Window),
      s.partition? 1 = some p ∧ p.job = some j ∧ p.window? j.win = some w ∧
      decide (j.off + ((s.checkpointPieces p).map (·.2.2)).sum ≤ w.len) = true ∧
      (match s.routeRange w j.off ((s.checkpointPieces p).map (·.2.2)).sum with
        | .ok () => decide (g = mine 0)
        | .error .stall => decide (g.state = .draining)
        | .error (.trap _) => decide (g = mine 1)) = true ∧
      ((s.sessions.filter fun y => decide (y.num = j.session)).flatMap fun y => y.waiting.filter fun r => decide (r.path = j.path)) ≠ [] := by
  intro g hg
  refine ⟨{ jobbed 0x100 with groups := live.groups.set 0 g, sessions := [{ sess true with waiting := [msg 7 1 []] }] }, _, _, _, rfl, rfl, rfl,
    ?_, ?_, ?_⟩ <;> simp only [List.mem_cons, List.not_mem_nil, or_false] at hg <;> obtain rfl | rfl | rfl := hg <;> decide +kernel

/-! ### Service and completions -/

/-- A part of an image of firmware. -/
def firmMsg (total : Byte) : Msg := msg 0x40 0 (bytesAt 16 [(4, total), (9, 7)])

theorem meets_ServiceResults :
    (∃ s : State, s.module.phase = .off) ∧ (∃ s : State, s.module.phase ≠ .off) ∧
    (∀ n ∈ ([4, 64] : List Byte), (live.groupD (firmMsg n).path).carriesRpc = true ∧ msgVerb (firmMsg n) = 0x40 ∧
      requestFormed (firmMsg n) [(0, 224)] [] ∧ msgSession (firmMsg n) = 0 ∧
      (payload (firmMsg n) 4 4 ≤ payload (firmMsg n) 0 4 + ((firmMsg n).payload.drop 8).length ↔ n = 4)) ∧
    (phased .bootRom).module.phase = .bootRom ∧
    (∃ s : State, s.module.phase ≠ .off ∧ s.module.phase ≠ .tripped ∧ 1200 ≤ s.module.clockMHz ∧ s.module.clockMHz ≤ 2100) ∧
    (partExists (.gddr 32) = false) ∧ (∃ (s : State) (p : PartRef), s.partGone p = true) ∧
    (∀ p ∈ ([.core 0, .gddr 0, .strandCore { core := 1, sid := 2 }, .bank 1 3] : List PartRef),
      live.partGone p = false ∧ live.module.errorsOf p = 0) ∧
    (∃ p : PartRef, partExists p = true ∧ live.partGone p = false ∧ partClass p = (4, 0, 1, 0) ∧ live.module.takenOf 4 0 < 1 ∧
      live.partHolder p = none ∧ live.module.owning = some 1) ∧
    (∃ s : State, s.partGone (.core 0) = false ∧ 2 ≤ s.module.takenOf 1 0) ∧
    (∀ p ∈ ([.gddr 0, .landingCore 0 1] : List PartRef), partExists p = true ∧ ∃ s : State, s.partGone p = false ∧
      s.module.owning = some 1 ∧ ((partClass p).1 = 3 ∨ (partClass p).1 = 4) ∧
      (partClass p).2.2.1 ≤ s.module.takenOf (partClass p).1 (partClass p).2.1) := by
  refine ⟨⟨State.reset, rfl⟩, ⟨live, nofun⟩, fun n hn => ⟨live_carries, ?_, formed_of ?_, ?_⟩, rfl, ⟨live, nofun, nofun, by decide, by decide⟩,
    rfl, ⟨{ live with cores := [{ CoreState.reset 0 with absent := true }] }, .core 0, by decide +kernel⟩, by decide +kernel,
    ⟨.gddr 0, by decide +kernel⟩, ⟨{ live with module := { live.module with taken := [(1, 0, 2)] } }, by decide +kernel⟩,
    fun p hp => ⟨?_, { live with module := { live.module with taken := [(4, 0, 1), (3, 0, 1)] } }, ?_, rfl, ?_, ?_⟩⟩
  · revert n; decide +kernel
  · revert n; decide +kernel
  · revert n; decide +kernel
  · revert p; decide +kernel
  · revert p; decide +kernel
  · revert p; decide +kernel
  · revert p; decide +kernel

/-- What an AMO_SWAP x6, x7, (x5) has sent to a host window. -/
def flight (fb : Bool) : AmoFlight :=
  { op := 1, n := 8, order := 0, va := 0x8000000, b := 7, c := 0, d := 6, addr := 0x5000, session := 1, fb := fb, groups := 1, group := 0
    leaf := none, gen := 0, drains := 0 }

/-- The state whose strand waits for it. -/
def awaiting (r : Run) (fb : Bool) : State := withStrand fun c => { c with run := r, amo := some (flight fb) }

/-- The state to which a completion of a task that has ended is still to come. -/
def strayed : State := { live with strays := [({ core := 0, sid := 0 }, 1)] }

theorem meets_AtomicCompletionResults :
    (∀ fb, ∀ r ∈ ([.atomicWait, .proxyWait] : List Run), (∀ x ∈ (awaiting r fb).strays, x.1 ≠ (awaiting r fb).cur.id) ∧
      (awaiting r fb).cur.run = r ∧ (awaiting r fb).cur.amo = some (flight fb) ∧ (flight fb).gen = (awaiting r fb).cur.gen ∧
      (flight fb).n = 8 ∧ (flight fb).fb = fb ∧ (awaiting r fb).cur.conv.watch = none ∧ ∀ i : Fin 4, (awaiting r fb).cur.wctl[i] = 0) ∧
    (live.cur.run ≠ .atomicWait ∧ live.cur.run ≠ .proxyWait ∧ live.cur.amo = none ∧ live.strays = []) ∧
    (strayed.strays = [(strayed.cur.id, 1)] ∧ ∀ c ∈ strayed.strands, c.id = strayed.cur.id → c.amo = none) := by
  refine ⟨fun fb r _ => ⟨fun x hx => absurd hx List.not_mem_nil, rfl, rfl, rfl, rfl, rfl, rfl, (by decide +kernel : ∀ i : Fin 4, strand1.wctl[i] = 0)⟩,
    ⟨nofun, nofun, rfl, rfl⟩, rfl, ?_⟩
  intro c hc _
  obtain rfl := List.mem_singleton.1 hc
  rfl

/-! ### The step -/

/-- The state whose strand issues next a word at its pc. -/
def issuing (w : Word) : State :=
  { live with agenda := [.issue { core := 0, sid := 0 }], mem := table ++ (((leBytes 8 w.toNat).zipIdx.map fun b => (0x1000000 + b.2, b.1)).filter fun c => c.2 ≠ 0) }

/-- What exec sees of it: the word at hand, once counters whose amounts are open may have moved on. -/
def atHand (w v : Word) (evs : List Nat) : State :=
  { ((issuing w).stir 0 [1, 7]).stir 0 evs with
    agenda := [], cur := { (issuing w).cur with slot := 0, history := none, conv := .none, iword := v, note := none, run := .running } }

/-- An outcome is a next state that satisfies a test. -/
def nextThat (r : Host.Outcome State Fault Refusal) (p : State → Bool) : Bool :=
  match r with
  | .next u => p u
  | .fault _ => false
  | .refused _ => false

/-- The turn of a strand that finds a parcel at its pc, and what exec of it gives. -/
noncomputable def parcelTurn (w : Word) (v : BitVec 32) (i : Instr) (p : State → Bool) : Bool :=
  let s := issuing w
  !s.cur.outside s.cur.pc 1 && !s.memoryGone s.cur.pc.toNat && !isWide (s.codeWord s.cur.pc) && decide (v = BitVec.ofNat 32 (s.mem.readLE 0x1000000 4)) &&
    decide (decodeParcel v = some i) && nextThat (exec i (atHand w (v.setWidth 64) (Instr.reaches i))) p

/-- The turn of a strand that finds a convoy of one word at its pc, and what exec of it gives. -/
noncomputable def convoyTurn (w : Word) (i : Instr) (p : State → Bool) : Bool :=
  let s := issuing w
  let found := s.codeWord 0x1000000
  isWide found && lastBit found && decide (decodeWord found = some i) && !s.cur.outside 0x1000000 8 &&
    decide (s.cur.wordCheck (wordInfo i s.cur) = none ∧ entriesOf (wordInfo i s.cur) ≤ 64) && nextThat (exec i (atHand w w (s.cur.countedBy { w := w, i := some i, info := wordInfo i s.cur }))) p

theorem meets_StepRunsDecoded :
    (∀ w : Word, (issuing w).agenda = [.issue (issuing w).cur.id] ∧ (issuing w).cur.run = .running ∧ (issuing w).cur.slot = 0 ∧
      (issuing w).cur.reissue = .none ∧ (issuing w).cur.preempt = .none ∧ (issuing w).cur.moving = false ∧ (issuing w).cur.lateHeld = [] ∧
      (issuing w).cur.panelLate = none ∧ (issuing w).cur.watchHeld = [] ∧ (issuing w).cur.pc.toNat % 8 = 0) ∧
    parcelTurn 0x03557C00#64 0x03557C00#32 (.add ⟨21, 10, 31⟩) (fun u => decide (u.cur.note = none ∧ u.cur.run.waits = false)) = true ∧
    parcelTurn 0x64000000#64 0x64000000#32 .syscall (fun u => u.cur.note.isSome) = true ∧
    convoyTurn 0xC18000001000004A#64 (.setvt ⟨true, false, true, .e32⟩) (fun u => decide (u.cur.note = none ∧ u.cur.run = .running)) = true := by
  refine ⟨fun _ => ?_, ?_⟩
  · exact ⟨rfl, rfl, rfl, rfl, rfl, rfl, rfl, rfl, rfl, (by decide : strand1.pc.toNat % 8 = 0)⟩
  · and_intros <;> decide +kernel

theorem meets_NoFaultsAndEventsNeedTheirStrand : ∃ (who : StrandId) (s : State), (∀ c ∈ s.strands, c.id ≠ who) ∧ ∀ x ∈ s.strays, x.1 ≠ who :=
  ⟨{ core := 63, sid := 7 }, live, by decide +kernel⟩

/-- The memories after reset are canonical, and a step from there answers a next state. -/
theorem meets_StepKeepsMemoriesCanonical : State.reset.Canonical ∧ ∃ t, step State.reset = .next t :=
  ⟨⟨rfl, rfl, rfl, rfl⟩, ⟨_, rfl⟩⟩

/-! ### Results that the spec writes out -/

/-- The examples of FCLASS (07_scalar_instructions): the class of each FP32 value. -/
theorem test_fclass_examples : ([(0x00000000#64, 0x10#64), (0x80000000#64, 0x18#64), (0x3FC00000#64, 0x02#64), (0xC0400000#64, 0x1A#64),
    (0x7F800000#64, 0x03#64), (0x7FC00000#64, 0x04#64), (0xFF800001#64, 0x0D#64)].all fun r =>
      nextThat (exec (.fclass ⟨.fp32, 6, 5⟩) (withRegs [(5, r.1)])) fun t => decide (t.getX 6 = r.2)) = true := by
  decide +kernel

/-- A state with 32-bit elements in v4. -/
def v4 (es : List Nat) : State :=
  withVector fun v => { v with v := ((es.flatMap fun e => leBytes 4 e).zipIdx.map fun b => (4 * 1024 + b.2, b.1)).filter fun c => c.2 ≠ 0 }

/-- What VFCVT leaves in v8 of v4, at a width, and the flags that its convoy carries. -/
noncomputable def cvt (es : List Nat) (o : CvtOp) (w : Nat) (out : List Nat) (flags : BitVec 5) : Bool :=
  nextThat (exec (.vfcvt o) (v4 es)) fun t => decide ((List.range es.length).map (t.cur.elem 8 w) = out) && decide (t.cur.conv.flags = flags)

/-- The example of VFCVT (10_vector_float): NX and OF are set (Table 8-9). -/
theorem test_vfcvt_example : ∀ r ∈ [(true, 0x7E), (false, 0x7F)],
    cvt [0x3F800000, 0xC0200000, 0x3DCCCCCD, 0x43FA0000] ⟨0, 8, 4, .e4m3, .fp32, .frm, r.1⟩ 8 [0x38, 0xC2, 0x1D, r.2] 0b00101 = true := by
  decide +kernel

/-- Table 8-9: the columns FP16, BF16, E5M2 and E2M1 of 1.0, 500, 65,520 and 2⁻¹⁰. -/
theorem test_vfcvt_table_8_9 :
    cvt [0x3F800000, 0x43FA0000, 0x477FF000, 0x3A800000] ⟨0, 8, 4, .fp16, .fp32, .fixed .rne, false⟩ 16 [0x3C00, 0x5FD0, 0x7C00, 0x1400] 0b00101 = true ∧
    cvt [0x3F800000, 0x43FA0000, 0x477FF000, 0x3A800000] ⟨0, 8, 4, .bf16, .fp32, .fixed .rne, false⟩ 16 [0x3F80, 0x43FA, 0x4780, 0x3A80] 0b00001 = true ∧
    cvt [0x3F800000, 0x43FA0000, 0x477FF000, 0x3A800000] ⟨0, 8, 4, .e5m2, .fp32, .fixed .rne, false⟩ 8 [0x3C, 0x60, 0x7C, 0x14] 0b00101 = true := by
  decide +kernel

/-- Table 8-10: 1.0, 8.0, 12.0 and 11.0 as E8M0, and 12.0 toward zero. -/
theorem test_vfcvt_table_8_10 :
    cvt [0x3F800000, 0x41000000, 0x41400000, 0x41300000] ⟨0, 8, 4, .e8m0, .fp32, .fixed .rne, false⟩ 8 [0x7F, 0x82, 0x83, 0x82] 0b00001 = true ∧
    cvt [0x41400000, 0x3F800000, 0xBF800000] ⟨0, 8, 4, .e8m0, .fp32, .fixed .rtz, false⟩ 8 [0x82, 0x7F, 0xFF] 0b10001 = true := by
  decide +kernel

/-- Division by zero and the overflowing quotient complete (R131). -/
theorem test_division_corners :
    nextThat (exec (.div ⟨6, 5, 7⟩) (withRegs [(5, 9), (7, 0)])) (fun t => decide (t.getX 6 = 0xFFFFFFFFFFFFFFFF#64)) = true ∧
    nextThat (exec (.div ⟨6, 5, 7⟩) (withRegs [(5, 0x8000000000000000#64), (7, 0xFFFFFFFFFFFFFFFF#64)]))
      (fun t => decide (t.getX 6 = 0x8000000000000000#64)) = true := by
  decide +kernel

/-- A store is read back by a load of the same address, least significant byte first (R133). -/
theorem test_store_byte_order :
    nextThat (exec (.st64 ⟨7, 5, 0⟩) (withRegs [(5, 0x8000), (7, 0x0807060504030201)])) (fun t => decide
      (Memory.readLE t.mem 0x4008000 8 = 0x0807060504030201 ∧ Memory.read t.mem 0x4008000 = 1 ∧ Memory.read t.mem 0x4008007 = 8)) = true := by
  decide +kernel

/-- The register of a syscall's trap: trpc is the parcel, IN is set, the level is S (R338). -/
theorem test_syscall_enters :
    nextThat (exec .syscall (atHand 0x64000000#64 0x64000000#64 [])) (fun t => decide
      (t.cur.trpc = 0x1000000 ∧ t.cur.trIn = true ∧ t.cur.level = .s ∧ t.cur.trCode = Cause.syscall.code)) = true := by
  decide +kernel

end Sys2Proof.Tests
end

section
/-! The reset values of a tile, a slice and a strand, one lemma each, and O59, assembled from them. -/

namespace Sys2Proof.Machine

/-! ### Tiles and slices at task start (R261) -/

/-- Every cell of an exact tile at task start is the one MZERO leaves. -/
@[simp] theorem Tile.reset_cell (k : Nat) : Tile.reset.cell k = Cell.reset := rfl

/-- Every group sum at task start is the one MZERO leaves. -/
@[simp] theorem Tile.reset_sum (k : Nat) : Tile.reset.sum k = GSum.reset := rfl

@[simp] theorem Tile.reset_bf16 : Tile.reset.bf16 = false := rfl

@[simp] theorem Slice.reset_tile (acc : BitVec 1) : Slice.reset.tile acc = Tile.reset := ite_self Tile.reset

/-- The state word of an empty cell: EMPTY and NZ, bits 11 and 10 (Table 14-3). -/
theorem Cell.reset_word : Cell.reset.word = 0xC00 := by decide

/-- Both block scales are FP16 1.0 and both zero points 0, of every index (Table 14-5, part 5). -/
theorem Slice.reset_regs (i : Nat) : Slice.reset.regs i = 0x3C00 + 0x3C00 * 2 ^ 24 := by
  simp [Slice.regs, Slice.zeroA, Slice.zeroB, Slice.reset, SMap.get, scaleOne]

/-- A raw part of a slice at task start (Table 14-5), whatever the tile and the cell. -/
theorem Slice.reset_raw (acc : BitVec 1) (part r c : Nat) :
    Slice.reset.raw acc part r c =
      if part = 2 then 0xC00 else if part = 4 then 2 ^ 34 else if part = 5 then 0x3C00 + 0x3C00 * 2 ^ 24 else 0 := by
  unfold Slice.raw
  simp only [Slice.reset_tile, Slice.reset_regs, Tile.reset_cell, Tile.reset_sum, Tile.reset_bf16, Cell.reset_word,
    Bool.false_eq_true, if_false]
  match part with
  | 0 | 1 | 2 | 3 | 4 | 5 => rfl
  | _ + 6 => simp

/-- A task finds every granted slice as R261 gives it. -/
theorem Launch.strandFor_slices (l : Launch) (p : Partition) (k : Nat) (seat : Seat) (ctx : BitVec 16) (gen : Nat) :
    (l.strandFor p k seat ctx gen).vec.slices = List.replicate (laneCount seat.lanes) .reset := rfl

/-! ### The arrays of a strand at reset -/

theorem Strand.reset_watch (id : StrandId) (i : Fin 4) : (Strand.reset id).watch[i] = 0 :=
  Vector.getElem_replicate i.isLt

theorem Strand.reset_wctl (id : StrandId) (i : Fin 4) : (Strand.reset id).wctl[i] = 0 :=
  Vector.getElem_replicate i.isLt

theorem Strand.reset_queues (id : StrandId) (i : Fin 4) : (Strand.reset id).queues[i] = EngineQueue.reset :=
  Vector.getElem_replicate i.isLt

theorem Strand.reset_streams (id : StrandId) (i : Fin 8) : (Strand.reset id).vec.streams[i] = Stream.reset :=
  Vector.getElem_replicate i.isLt

/-! ### The obligation -/

/-- Settles O59: the raw parts of a slice at reset, the slices a task starts with, and the registers of a strand one by one. -/
theorem resetValues : Obligations.ResetValues := by
  unfold Obligations.ResetValues
  refine ⟨?tiles, Launch.strandFor_slices, fun id => ?strand⟩
  case tiles =>
    rintro s acc rfl
    exact ⟨by simp, fun r _ c _ p _ => Slice.reset_raw acc p r c⟩
  case strand =>
    have hwatch (i : Fin 4) : (Strand.reset id).watch[i] = 0 ∧ (Strand.reset id).wctl[i] = 0 :=
      ⟨Strand.reset_watch id i, Strand.reset_wctl id i⟩
    have hqueues (i : Fin 4) : ((Strand.reset id).queues[i]).entries = [] ∧ ((Strand.reset id).queues[i]).halted = false ∧
        ((Strand.reset id).queues[i]).done = 0 := by
      rw [Strand.reset_queues]; exact ⟨rfl, rfl, rfl⟩
    have hstreams (i : Fin 8) : ((Strand.reset id).vec.streams[i]).cfg = false ∧
        ((Strand.reset id).vec.streams[i]).bound = none := by
      rw [Strand.reset_streams]; exact ⟨rfl, rfl⟩
    exact ⟨rfl, rfl, rfl, rfl, rfl, rfl, rfl, rfl, rfl, rfl, rfl, rfl, rfl, rfl, rfl, rfl, rfl, rfl, rfl, rfl,
      hwatch, hqueues, hstreams, rfl, rfl, rfl⟩

end Sys2Proof.Machine
end

section
/-! Reports of the service processor, and O41, refuted by the report on a lane of a number that no group has. -/

namespace Sys2Proof.Machine

/-! ### Reports of the service processor (R399) -/

/-- A report on a part that no session's partition holds goes to the owning session alone. -/
theorem State.serviceReport_owning {s : State} {n : Nat} (h : s.module.owning = some n) (kind cls index left : Nat) :
    s.serviceReport kind cls index left none = s.send { session := n, type := 3, verb := 0x30, seq := 0, status := 0, payload :=
      [BitVec.ofNat 8 kind, BitVec.ofNat 8 cls, BitVec.ofNat 8 index, BitVec.ofNat 8 (index / 256), BitVec.ofNat 8 left, 0, 0, 0] } := by
  unfold State.serviceReport
  rw [h]
  rfl

/-! ### A lane lost (R11, R17) -/

/-- What a lost lane of an unassigned group with its spare left leaves. INDEX of the report is 256 g + lane in two bytes
(Table 23-7): the second one is g for the lanes of R11, and g + lane / 256 for whatever number the event names. -/
theorem exec_laneFailure_spare {s : State} {g lane n : Nat} (h : g < 24) (hin : .lane g lane ∉ s.module.removed)
    (hspare : s.groups[g].spare = false) (howner : s.groups[g].owner = none) (hn : s.module.owning = some n) :
    exec (.laneFailure g lane) s = .next { s with
      groups := s.groups.set g { s.groups[g] with spare := true }
      outbox := s.outbox ++ [{ session := n, type := 3, verb := 0x30, seq := 0, status := 0, payload :=
        [1, 6, BitVec.ofNat 8 lane, BitVec.ofNat 8 (g + lane / 256), 0, 0, 0, 0] }] } := by
  have hg : s.group? g = some s.groups[g] := Vector.getElem?_eq_getElem h
  have hholder : s.groupHolder g = none := by unfold State.groupHolder; rw [s.groupD_eq g h, howner]; rfl
  have hbyte : BitVec.ofNat 8 (g * 256 + lane) = BitVec.ofNat 8 lane := BitVec.eq_of_toNat_eq (by simp)
  have hnext : (g * 256 + lane) / 256 = g + lane / 256 := by omega
  show Host.Outcome.next (s.retireLane g lane) = _
  unfold State.retireLane
  simp only [hg, hspare, hholder, List.contains_eq_mem, hin, decide_false, Bool.false_eq_true, if_false]
  rw [s.mapGroup_eq g h, State.serviceReport_owning (by exact hn), hbyte, hnext]
  rfl

/-- The module after reset, with a session that owns the unassigned groups. -/
def laneWitness : State := { State.reset with module := { Module.reset with owning := some 1 } }

/-- Refutes O41: its clause on the report of a lost lane speaks of every number as a lane and says that the fourth byte of the
payload is the group; for the event LANE_FAILURE of group 0 that names lane 256, which no group has (R11), that byte is 1. -/
theorem not_portEventResults : ¬ Obligations.PortEventResults := by
  unfold Obligations.PortEventResults
  intro h
  obtain ⟨-, -, -, -, -, -, -, -, hreport, -⟩ := h laneWitness 0 (by decide)
  have hclaim := hreport 256 1 (by decide) rfl rfl rfl
  rw [exec_laneFailure_spare (by decide) (by decide) rfl rfl rfl] at hclaim
  have hout := congrArg State.outbox (Host.Outcome.next.inj hclaim)
  exact absurd hout (by decide)

end Sys2Proof.Machine
end

section
/-! What the end of launches and of a partition (R363, Table 21-13) leaves of the core records and of the list of partitions: each
operation on the way keeps both, and Terminate marks one partition or tears it down. -/

namespace Sys2Proof.Machine

/-! ### What the end of a partition's launches keeps -/

/-- From s to t no core record has changed, and the partitions are the same ones by number, each ending or not as it was. -/
structure State.KeepsParts (s t : State) : Prop where
  cores : t.cores = s.cores
  parts : t.parts.map (fun p => (p.pid, p.ending)) = s.parts.map fun p => (p.pid, p.ending)

namespace State.KeepsParts

theorem refl (s : State) : s.KeepsParts s := ⟨rfl, rfl⟩

theorem trans {s t u : State} (h : s.KeepsParts t) (k : t.KeepsParts u) : s.KeepsParts u :=
  ⟨k.cores.trans h.cores, k.parts.trans h.parts⟩

/-- What touches neither list keeps both. -/
theorem of_eq {s t : State} (hc : t.cores = s.cores) (hp : t.parts = s.parts) : s.KeepsParts t := ⟨hc, by rw [hp]⟩

/-- A partition is still there, and ends if it did. -/
theorem exists_mem {s t : State} (h : s.KeepsParts t) {p : Partition} (hp : p ∈ s.parts) :
    ∃ q ∈ t.parts, q.pid = p.pid ∧ q.ending = p.ending := by
  have hm : (p.pid, p.ending) ∈ t.parts.map fun q => (q.pid, q.ending) := h.parts ▸ List.mem_map_of_mem hp
  obtain ⟨q, hq, he⟩ := List.mem_map.1 hm
  exact ⟨q, hq, congrArg Prod.fst he, congrArg Prod.snd he⟩

/-- A fold of steps that keep the parts keeps them. -/
theorem foldl {α : Type} {f : State → α → State} (h : ∀ (s : State) (x : α), s.KeepsParts (f s x)) (l : List α) (s : State) :
    s.KeepsParts (l.foldl f s) := by
  induction l generalizing s with
  | nil => exact refl s
  | cons x l ih => exact (h s x).trans (ih (f s x))

end State.KeepsParts

open State.KeepsParts (of_eq)

theorem State.mapPart_keepsParts (s : State) (n : Nat) {f : Partition → Partition}
    (h : ∀ p, (f p).pid = p.pid ∧ (f p).ending = p.ending) : s.KeepsParts (s.mapPart n f) := by
  refine ⟨rfl, ?_⟩
  unfold State.mapPart
  rw [List.map_map]
  refine List.map_congr_left fun p _ => ?_
  simp only [Function.comp_apply]
  split
  · rw [(h p).1, (h p).2]
  · rfl

theorem State.partEvent_keepsParts (s : State) (n : Nat) (e : EventRec) : s.KeepsParts (s.partEvent n e) :=
  s.mapPart_keepsParts n fun p => by split <;> exact ⟨rfl, rfl⟩

/-- A record sent to a session changes the outbox alone. -/
theorem State.hostEvent_state (s : State) (x : Option Nat) (e : EventRec) (n : Nat) :
    ∃ outbox, s.hostEvent x e n = { s with outbox := outbox } := by
  cases x with
  | none => exact ⟨s.outbox, rfl⟩
  | some k => exact ⟨_, rfl⟩

theorem State.hostEvent_keepsParts (s : State) (x : Option Nat) (e : EventRec) (n : Nat) : s.KeepsParts (s.hostEvent x e n) := by
  obtain ⟨o, h⟩ := s.hostEvent_state x e n
  rw [h]
  exact of_eq rfl rfl

theorem State.mapHwq_keepsParts (s : State) (q : QueueId) (f : HwQueue → HwQueue) : s.KeepsParts (s.mapHwq q f) := of_eq rfl rfl

theorem State.translate_keepsParts (s : State) (v : Via) (lvl : Level) (va : Nat) (n : Need) (b : Bool) :
    s.KeepsParts (s.translate v lvl va n b).2 := by
  obtain ⟨_, _, h⟩ := s.translate_state v lvl va n b
  rw [h]
  exact of_eq rfl rfl

theorem State.touch_keepsParts (s : State) (v : Via) (x : Xlat) (n : Need) : s.KeepsParts (s.touch v x n) := by
  obtain ⟨_, _, h⟩ := s.touch_state v x n
  rw [h]
  exact of_eq rfl rfl

theorem State.writePlace_keepsParts (s : State) (p : Place) (n v : Nat) : s.KeepsParts (s.writePlace p n v) := by
  obtain ⟨_, _, _, h⟩ := s.writePlace_state p n v
  rw [h]
  exact of_eq rfl rfl

theorem State.bell_keepsParts (s : State) (part va n : Nat) : s.KeepsParts (s.bell part va n) := by
  obtain ⟨_, h⟩ := s.bell_state part va n
  rw [h]
  exact of_eq rfl rfl

theorem State.setQword_keepsParts (s : State) (q : QueueId) (off : Nat) (v : Word) : s.KeepsParts (s.setQword q off v) := by
  unfold State.setQword
  have ht := s.translate_keepsParts (s.landingVia q.part) .s (s.qwordVA q off) .store false
  generalize s.translate (s.landingVia q.part) .s (s.qwordVA q off) .store false = r at ht
  obtain ⟨e | x, t⟩ := r
  · exact ht
  · exact (ht.trans (t.touch_keepsParts _ x _)).trans (State.writePlace_keepsParts _ _ _ _)

theorem State.haltQueue_keepsParts (s : State) (q : QueueId) (tag : BitVec 16) (step code idx : Nat) :
    s.KeepsParts (s.haltQueue q tag step code idx) :=
  ((((s.mapHwq_keepsParts q _).trans (State.setQword_keepsParts _ q _ _)).trans (State.setQword_keepsParts _ q _ _)).trans
    (State.setQword_keepsParts _ q _ _)).trans (State.partEvent_keepsParts _ _ _)

theorem State.retirePacket_keepsParts (s : State) (q : QueueId) (idx : Nat) : s.KeepsParts (s.retirePacket q idx) := by
  unfold State.retirePacket
  simp only
  split
  · exact s.mapHwq_keepsParts q _
  · exact (s.mapHwq_keepsParts q _).trans (State.setQword_keepsParts _ _ _ _)

/-! ### Completion signals -/

theorem State.landingStore_keepsParts {s t : State} {part va : Nat} {v : Word} (h : s.landingStore part va v = .ok t) :
    s.KeepsParts t := by
  unfold State.landingStore at h
  split at h
  · nomatch h
  · have ht := s.translate_keepsParts (s.landingVia part) .s va .store false
    generalize s.translate (s.landingVia part) .s va .store false = r at ht h
    obtain ⟨e | x, u⟩ := r
    · nomatch h
    · cases h
      obtain ⟨_, _, _, _, _, hs⟩ := u.storeAt_state (u.landingVia part) va x 8 v.toNat
      rw [hs]
      exact ht.trans (of_eq rfl rfl)

theorem State.landingAdd_keepsParts {s t : State} {part va : Nat} {v : Word} (h : s.landingAdd part va v = .ok t) :
    s.KeepsParts t := by
  unfold State.landingAdd at h
  split at h
  · nomatch h
  · have ht := s.translate_keepsParts (s.landingVia part) .s va .amo false
    generalize s.translate (s.landingVia part) .s va .amo false = r at ht h
    obtain ⟨e | x, u⟩ := r
    · nomatch h
    · cases h
      exact ((ht.trans (u.touch_keepsParts _ x _)).trans (State.writePlace_keepsParts _ _ _ _)).trans (State.bell_keepsParts _ _ _ _)

theorem State.doSignal_keepsParts {s t : State} {part : Nat} {g : Signal} (h : s.doSignal part g = .ok t) : s.KeepsParts t := by
  unfold State.doSignal at h
  split at h
  · cases h; exact .refl s
  · split at h
    · exact State.landingStore_keepsParts h
    · exact State.landingAdd_keepsParts h

theorem State.trySignal_keepsParts {s t : State} {q : QueueId} {g : HeldSignal} (h : s.trySignal q g = .ok t) :
    s.KeepsParts t := by
  unfold State.trySignal at h
  split at h
  · nomatch h
  · exact State.doSignal_keepsParts h

theorem State.signalLaunch_keepsParts (s : State) (q : QueueId) (g : HeldSignal) : s.KeepsParts (s.signalLaunch q g) := by
  have retired (t : State) (f : HwQueue → HwQueue) : t.KeepsParts
      (if g.evt then ((t.mapHwq q f).retirePacket q g.index).retireEvent q g.tag g.index
        else (t.mapHwq q f).retirePacket q g.index) := by
    have h := (t.mapHwq_keepsParts q f).trans (State.retirePacket_keepsParts _ q g.index)
    split
    · exact h.trans (State.partEvent_keepsParts _ _ _)
    · exact h
  unfold State.signalLaunch
  cases ht : s.trySignal q g with
  | ok t => exact (State.trySignal_keepsParts ht).trans (retired t _)
  | error e =>
    cases e with
    | stall => exact .refl s
    | trap c => exact (retired s _).trans (State.haltQueue_keepsParts _ _ _ _ _ _)

theorem State.releaseSignals_keepsParts (s : State) (q : QueueId) (l : List HeldSignal) : s.KeepsParts (s.releaseSignals q l) := by
  induction l generalizing s with
  | nil => exact .refl s
  | cons g l ih =>
    unfold State.releaseSignals
    split
    · exact (s.signalLaunch_keepsParts q g).trans (ih _)
    · exact ih s

theorem State.releaseHeld_keepsParts (s : State) (q : QueueId) : s.KeepsParts (s.releaseHeld q) := by
  unfold State.releaseHeld
  split
  · exact .refl s
  · exact s.releaseSignals_keepsParts q _

/-! ### The end of a launch and of a partition -/

theorem State.finishEnd_keepsParts (s : State) (l : Nat) : s.KeepsParts (s.finishEnd l) := by
  unfold State.finishEnd
  split
  · exact .refl s
  next la _ =>
  split
  · exact .refl s
  split
  · exact .refl s
  simp only
  refine .trans ?_ (State.releaseHeld_keepsParts _ _)
  refine .trans (.trans ?_ (State.partEvent_keepsParts _ _ _)) (State.hostEvent_keepsParts _ _ _ _)
  have hr (f : HwQueue → HwQueue) : s.KeepsParts
      ((State.mapHwq { s with launches := s.launches.filter fun x => x.lid ≠ l } la.queue f).retirePacket la.queue la.index) := by
    refine .trans ?_ (State.retirePacket_keepsParts _ _ _)
    exact of_eq rfl rfl
  split
  · split
    · exact hr _
    · exact (hr _).trans (State.haltQueue_keepsParts _ _ _ _ _ _)
  · exact hr _

theorem State.endLaunch_keepsParts (s : State) (l : Nat) (who : Option StrandId) (e : EventRec) :
    s.KeepsParts (s.endLaunch l who e) := by
  unfold State.endLaunch
  refine .trans ?_ (State.finishEnd_keepsParts _ l)
  exact of_eq rfl rfl

theorem State.quiesceQueues_keepsParts (s : State) (n : Nat) : s.KeepsParts (s.quiesceQueues n) :=
  .foldl (fun (t : State) (h : HwQueue) => (t.mapHwq_keepsParts h.id _).trans (State.setQword_keepsParts _ h.id _ _)) _ s

/-- Terminate marks its partition as ending, ends its launches, and tears it down unless tasks of it still run. -/
theorem State.terminate_cases (s : State) (n : Nat) : ∃ t : State,
    ((s.quiesceQueues n).mapPart n fun q => { q with ending := true }).KeepsParts t ∧
      (s.terminate n = t ∨ s.terminate n = t.tearDown n) := by
  have ended (s1 : State) (ls : List Nat) : s1.KeepsParts (ls.foldl (fun t l => t.endLaunch l none (s1.endEventOf l)) s1) :=
    .foldl (fun t l => t.endLaunch_keepsParts l none _) ls s1
  unfold State.terminate
  simp only
  split
  · exact ⟨_, ended _ _, .inl rfl⟩
  · exact ⟨_, ended _ _, .inr rfl⟩

theorem State.terminate_cores (s : State) (n : Nat) : (s.terminate n).cores = s.cores := by
  obtain ⟨t, ht, hn⟩ := s.terminate_cases n
  have hc : t.cores = s.cores := ht.cores.trans (s.quiesceQueues_keepsParts n).cores
  obtain h | h := hn <;> rw [h] <;> exact hc

/-- After Terminate the partition is torn down, or there and ending (Table 21-13). -/
theorem State.terminate_parts (s : State) {p : Partition} (hp : p ∈ s.parts) :
    (∀ q ∈ (s.terminate p.pid).parts, q.pid ≠ p.pid) ∨ ∃ q ∈ (s.terminate p.pid).parts, q.pid = p.pid ∧ q.ending = true := by
  obtain ⟨t, ht, hn⟩ := s.terminate_cases p.pid
  obtain h | h := hn
  · right
    obtain ⟨q, hq, hpid, -⟩ := (s.quiesceQueues_keepsParts p.pid).exists_mem hp
    have hm : { q with ending := true } ∈ ((s.quiesceQueues p.pid).mapPart p.pid fun q => { q with ending := true }).parts :=
      List.mem_map.2 ⟨q, hq, if_pos hpid⟩
    obtain ⟨r, hr, hrp, hre⟩ := ht.exists_mem hm
    exact ⟨r, h ▸ hr, hrp.trans hpid, hre⟩
  · left
    rw [h]
    intro q hq
    simpa using (List.mem_filter.1 hq).2

end Sys2Proof.Machine
end

section
/-! The service processor: power, firmware, and the retirement of parts, one lemma per operation; and O52, assembled from them. -/

namespace Sys2Proof.Machine

/-! ### Power (R402, R405) -/

theorem exec_powerGood_on {s : State} (h : s.module.phase ≠ .off) : exec .powerGood s = .next s := by
  show Host.Outcome.next _ = _
  rw [if_pos h]

theorem exec_powerGood_off {s : State} (h : s.module.phase = .off) : exec .powerGood s = .next { s with
    module := { s.module with phase := .bootRom }
    groups := s.groups.set 0 { s.groups[0] with state := .active, pers := 1, target := 1, presets := [1] } } := by
  show Host.Outcome.next _ = _
  rw [if_neg (not_not.2 h), State.mapGroup_eq _ 0 (by decide)]

/-- Device memory below the CXL range is as after reset. -/
theorem powerLoss_read (m : Memory) {a : Nat} (h : a < 0x100000000000) :
    Memory.read (m.filter fun c => decide (0x100000000000 ≤ c.1)) a = Memory.read State.reset.mem a := by
  unfold Memory.read
  rw [SMap.get_filter _ m fun k => decide (0x100000000000 ≤ k), if_neg (by simpa using h)]
  rfl

/-! ### The power manager (R9, R405) -/

/-- The events of the tasks that a trip stops change the partitions and the outbox alone. -/
theorem State.endEvents_state (l : List Strand) (s : State) : ∃ parts outbox,
    l.foldl (fun (t : State) c => (t.partEvent c.part c.endEvent).hostEvent ((t.partition? c.part).bind (·.owner)) c.endEvent c.part) s =
      { s with parts := parts, outbox := outbox } := by
  induction l generalizing s with
  | nil => exact ⟨s.parts, s.outbox, rfl⟩
  | cons c l ih =>
    obtain ⟨o, h⟩ := (s.partEvent c.part c.endEvent).hostEvent_state ((s.partition? c.part).bind (·.owner)) c.endEvent c.part
    obtain ⟨p, o', h'⟩ := ih ((s.partEvent c.part c.endEvent).hostEvent ((s.partition? c.part).bind (·.owner)) c.endEvent c.part)
    exact ⟨p, o', by rw [List.foldl_cons, h', h]; rfl⟩

/-- At 115 °C every strand stops, and waits for no AMO. -/
theorem State.trip_eq (s : State) : ∃ parts outbox, s.trip = { s with
    cur := { s.cur with run := .stopped, amo := none }
    others := s.others.map fun c => { c with run := .stopped, amo := none }
    parts := parts, outbox := outbox, module := { s.module with phase := .tripped } } := by
  obtain ⟨p, o, h⟩ := State.endEvents_state (s.strands.filter fun c => c.task.isSome && decide (c.run ≠ .halted)) s
  refine ⟨p, o, ?_⟩
  unfold State.trip
  rw [h]
  rfl

theorem State.trip_strands (s : State) : ∀ c ∈ s.trip.strands, c.run = .stopped ∧ c.amo = none := by
  obtain ⟨p, o, h⟩ := s.trip_eq
  rw [h]
  intro c hc
  obtain rfl | hc := List.mem_cons.1 hc
  · exact ⟨rfl, rfl⟩
  · obtain ⟨d, -, rfl⟩ := List.mem_map.1 hc
    exact ⟨rfl, rfl⟩

/-- At the power limit the clock steps down. -/
theorem nextClock_limit {mhz watts tempC flow : Nat} (f : Word) (h : powerLimit flow ≤ watts) :
    nextClock mhz watts tempC flow f = max 1200 (mhz - 25) := if_pos h

/-- At 105 °C the slowest clock is held. -/
theorem nextClock_hot {watts tempC flow : Nat} (f : Word) (h : 105 ≤ tempC) : nextClock 1200 watts tempC flow f = 1200 := by
  unfold nextClock
  split
  · rfl
  · rw [if_pos ⟨le_refl _, h⟩]

/-- The clock keeps its range, and rises by 25 MHz at most. -/
theorem nextClock_range {mhz : Nat} (watts tempC flow : Nat) (f : Word) (hl : 1200 ≤ mhz) (hu : mhz ≤ 2100) :
    1200 ≤ nextClock mhz watts tempC flow f ∧ nextClock mhz watts tempC flow f ≤ 2100 ∧
      nextClock mhz watts tempC flow f ≤ mhz + 25 := by
  unfold nextClock
  split
  · omega
  split
  · omega
  split <;> omega

theorem exec_powerSample_stopped {s : State} (watts tempC flow : Nat) (h : s.module.phase = .off ∨ s.module.phase = .tripped) :
    exec (.powerSample watts tempC flow) s = .next s := by
  show Host.Outcome.next _ = _
  rw [if_pos h]

theorem exec_powerSample_trip {s : State} (watts flow : Nat) {tempC : Nat}
    (h : ¬(s.module.phase = .off ∨ s.module.phase = .tripped)) (ht : 115 ≤ tempC) :
    exec (.powerSample watts tempC flow) s = .next s.trip := by
  show Host.Outcome.next _ = _
  rw [if_neg h, if_pos ht]

theorem exec_powerSample_clock {s : State} (watts flow : Nat) {tempC : Nat}
    (h : ¬(s.module.phase = .off ∨ s.module.phase = .tripped)) (ht : tempC < 115) :
    exec (.powerSample watts tempC flow) s = .next { s with
      free := s.free + 1
      module := { s.module with clockMHz := nextClock s.module.clockMHz watts tempC flow (Config.freeWord s.free) } } := by
  show Host.Outcome.next _ = _
  rw [if_neg h, if_neg (by omega)]
  rfl

/-! ### Firmware (R370, R402) -/

/-- What FIRMWARE does once its message is well formed and came on a group that carries RPC messages. -/
theorem exec_firmware_formed {s : State} {m : Msg} (hc : (s.groupD m.path).carriesRpc = true) (hv : msgVerb m = 0x40)
    (hf : requestFormed m [(0, 224)] []) (hs : msgSession m = 0) :
    let img := withChunk s.module.firmware (payload m 0 4) (m.payload.drop 8)
    let v := Config.firmwareVerdict img
    exec (.firmware m) s = .next (
      if s.module.phase ≠ .bootRom then s.respond 0 0x40 (msgSeq m) 4 []
      else if payload m 0 4 + (m.payload.drop 8).length < payload m 4 4 then
        ({ s with module := { s.module with firmware := img } }).respond 0 0x40 (msgSeq m) 0 [0]
      else (if v = 0 then s.bringUp img else { s with module := { s.module with firmware := [] } }).respond 0 0x40 (msgSeq m) 0
        [v.setWidth 8]) := by
  obtain ⟨ht, hh, -, -⟩ := (requestFormed_iff m _ _).1 hf
  have hpass : (decide (msgVerb m ≠ 0x40) && knownVerb (msgVerb m) || !(s.groupD m.path).carriesRpc) = false := by simp [hv, hc]
  have hgood : (!headerOk m || decide (msgType m ≠ 1) || decide (msgSession m ≠ 0)) = false := by simp [hh, ht, hs]
  show execFirmware m s = _
  unfold execFirmware State.answer
  rw [hpass, hgood, hv, hs]
  rfl

/-- The personality code that an image's configuration gives a group. -/
def personalityCode (img : List Byte) (g : Nat) : Nat := (Config.firmwarePersonality img g).toNat % 5

/-- A group is HOSTLINK where its code says so and fewer than two groups below it have that code. -/
theorem personality_eq_one {img : List Byte} {g : Nat} (h : personality img g = 1) :
    personalityCode img g = 1 ∧ ((List.range g).filter fun k => decide (personalityCode img k = 1)).length < 2 := by
  change (if personalityCode img g = 1 ∧ 2 ≤ ((List.range g).filter fun k => decide (personalityCode img k = 1)).length then 0
    else BitVec.ofNat 4 (personalityCode img g)) = 1 at h
  have hlt : personalityCode img g < 5 := Nat.mod_lt _ (by decide)
  split at h
  · exact absurd h (by decide)
  · next hn =>
    have hone : personalityCode img g = 1 := by
      have := congrArg BitVec.toNat h
      rw [BitVec.toNat_ofNat, Nat.mod_eq_of_lt (by omega)] at this
      exact this
    exact ⟨hone, by have := not_and.1 hn hone; omega⟩

theorem personality_le (img : List Byte) (g : Nat) : (personality img g).toNat ≤ 4 := by
  unfold personality
  simp only
  split
  · decide
  · rw [BitVec.toNat_ofNat, Nat.mod_eq_of_lt] <;> omega

/-- Of the numbers below n with a property, those with fewer than k such numbers below them are k at most. -/
theorem length_filter_first_le (p : Nat → Bool) (k n : Nat) :
    ((List.range n).filter fun i => p i && decide (((List.range i).filter p).length < k)).length ≤ k := by
  induction n with
  | zero => exact Nat.zero_le k
  | succ n ih =>
    rw [List.range_succ, List.filter_append, List.length_append]
    by_cases hn : (p n && decide (((List.range n).filter p).length < k)) = true
    · have hsub : ((List.range n).filter fun i => p i && decide (((List.range i).filter p).length < k)).length ≤
          ((List.range n).filter p).length :=
        (List.monotone_filter_right _ fun i hi => (Bool.and_eq_true _ _ ▸ hi).1).length_le
      have hlt : ((List.range n).filter p).length < k := of_decide_eq_true (Bool.and_eq_true _ _ ▸ hn).2
      rw [List.filter_singleton, hn]
      simp only [cond_true, List.length_singleton]
      omega
    · rw [List.filter_singleton, Bool.eq_false_iff.2 hn]
      exact ih

theorem laneGone_iff (s : State) (g : Nat) : s.laneGone g = true ↔ ∃ lane, PartRef.lane g lane ∈ s.module.removed := by
  unfold State.laneGone
  rw [List.any_eq_true]
  constructor
  · rintro ⟨p, hp, h⟩
    cases p with
    | lane k lane => exact ⟨lane, of_decide_eq_true h ▸ hp⟩
    | _ => exact absurd h Bool.false_ne_true
  · rintro ⟨lane, hp⟩
    exact ⟨_, hp, decide_eq_true rfl⟩

theorem State.bringUp_group (s : State) (img : List Byte) (i : Fin 24) :
    (s.bringUp img).groups[i] = if s.laneGone i.val then untrained s.groups[i] else configured img s.groups[i] i.val := by
  unfold State.bringUp
  exact Vector.getElem_ofFn i.isLt

/-- At most two groups come up as HOSTLINK. -/
theorem State.bringUp_hostlinks (s : State) (img : List Byte) :
    ((List.finRange 24).filter fun i => ((s.bringUp img).groups[i]).pers = 1).length ≤ 2 := by
  refine le_trans ?_ (length_filter_first_le (fun k => decide (personalityCode img k = 1)) 2 24)
  rw [← List.map_coe_finRange_eq_range, List.filter_map, List.length_map]
  refine (List.monotone_filter_right _ fun i hi => ?_).length_le
  have hp : ((s.bringUp img).groups[i]).pers = 1 := of_decide_eq_true hi
  rw [s.bringUp_group img i] at hp
  split at hp
  · exact absurd hp (by decide : (15 : BitVec 4) ≠ 1)
  · obtain ⟨hc, hl⟩ := personality_eq_one hp
    simpa [hc] using Nat.le_of_lt_succ hl

/-- A group with all its lanes trains in its personality, and its presets are stored. -/
theorem State.bringUp_whole {s : State} (img : List Byte) {i : Fin 24} (h : ∀ lane, PartRef.lane i.val lane ∉ s.module.removed) :
    ((s.bringUp img).groups[i]).state = .active ∧ (((s.bringUp img).groups[i]).pers).toNat ≤ 4 ∧
      ((s.bringUp img).groups[i]).owner = none ∧ ((s.bringUp img).groups[i]).spare = (s.groups[i]).spare ∧
      ∀ c, c ∈ ((s.bringUp img).groups[i]).presets ↔ c ∈ (s.groups[i]).presets ∨ c = ((s.bringUp img).groups[i]).pers := by
  have hg : ¬s.laneGone i.val = true := by rw [laneGone_iff]; exact fun ⟨lane, hl⟩ => h lane hl
  rw [s.bringUp_group img i, if_neg hg]
  refine ⟨rfl, personality_le img i.val, rfl, rfl, fun c => ?_⟩
  unfold configured
  simp only
  split
  · next hc =>
    rw [List.contains_iff_mem] at hc
    exact ⟨.inl, fun h => h.elim id fun h => h ▸ hc⟩
  · rw [List.mem_append, List.mem_singleton]

/-- A group that lacks a lane is DOWN. -/
theorem State.bringUp_lacking {s : State} (img : List Byte) {i : Fin 24} (h : ∃ lane, PartRef.lane i.val lane ∈ s.module.removed) :
    ((s.bringUp img).groups[i]).state = .down := by
  rw [s.bringUp_group img i, if_pos ((laneGone_iff s i.val).2 h)]
  rfl

end Sys2Proof.Machine
end

section
/-! The retirement of parts, one lemma per operation, and O52, assembled from them and from those on power and firmware. -/

namespace Sys2Proof.Machine

/-! ### Errors on parts (R396, R401) -/

/-- A part of Table 1-1 that is gone, and what is no part of it, meets no error. -/
theorem exec_error_absent {s : State} {p : PartRef} (h : partExists p = false ∨ s.partGone p = true) :
    exec (.correctedError p) s = .next s ∧ exec (.uncorrectableError p) s = .next s := by
  have hc : (partExists p && !s.partGone p) = false := by obtain h | h := h <;> simp [h]
  have hu : (!partExists p || s.partGone p) = true := by obtain h | h := h <;> simp [h]
  constructor
  · show Host.Outcome.next _ = _
    rw [hc]
    rfl
  · show Host.Outcome.next _ = _
    rw [if_pos hu]

/-- A Larder bank has no trigger of this kind (Table 23-6). -/
theorem exec_uncorrectableError_bank (s : State) (k : BitVec 6) (i : Nat) : exec (.uncorrectableError (.bank k i)) s = .next s := by
  show Host.Outcome.next _ = _
  exact congrArg _ (ite_self s)

theorem exec_uncorrectableError_retires {s : State} {p : PartRef} (he : partExists p = true) (hg : s.partGone p = false)
    (hb : (partClass p).1 ≠ 5) : exec (.uncorrectableError p) s = .next (s.retirePart p) := by
  show Host.Outcome.next _ = _
  rw [if_neg (by simp [he, hg])]
  cases p with
  | bank k i => exact absurd rfl hb
  | _ => rfl

/-- A corrected error that leaves a part within its limit is only counted, for the part and, where it has one, on its core. -/
theorem State.correct_eq_of_within {s : State} {p : PartRef} {k : Nat} (hk : partLimit p = some k) (h : s.module.errorsOf p < k) :
    let t : State := { s with module := s.module.setErrors p (s.module.errorsOf p + 1) }
    s.correct p = match partCore p with
      | none => t
      | some c => t.countOn c 0x0F 1 := by
  have hmay : ¬decide (k < s.module.errorsOf p + 1) = true := by simpa using h
  cases p with
  | core _ | strandCore _ | gddr _ | bank _ _ => cases hk; exact if_neg hmay
  | landingCore _ _ | lane _ _ => nomatch hk

theorem State.correct_within {s : State} {p : PartRef} {k : Nat} (hk : partLimit p = some k) (h : s.module.errorsOf p < k) :
    (s.correct p).module = s.module.setErrors p (s.module.errorsOf p + 1) ∧ (s.correct p).cur = s.cur ∧
      (s.correct p).mem = s.mem := by
  rw [State.correct_eq_of_within hk h]
  split <;> exact ⟨rfl, rfl, rfl⟩

theorem exec_correctedError_within {s : State} {p : PartRef} {k : Nat} (he : partExists p = true) (hg : s.partGone p = false)
    (hk : partLimit p = some k) (h : s.module.errorsOf p < k) : ∃ u, exec (.correctedError p) s = .next u ∧
      u.module = s.module.setErrors p (s.module.errorsOf p + 1) ∧ u.cur = s.cur ∧ u.mem = s.mem := by
  refine ⟨s.correct p, ?_, State.correct_within hk h⟩
  show Host.Outcome.next _ = _
  rw [he, hg]
  rfl

/-! ### Spares (R396 to R398, Table 1-1) -/

/-- The spares that are taken count one more. -/
theorem Module.takenOf_take (m : Module) (cls scope : Nat) : (m.take cls scope).takenOf cls scope = m.takenOf cls scope + 1 := by
  have hnone : (m.taken.filter fun t => !(decide (t.1 = cls) && decide (t.2.1 = scope))).find?
      (fun t => decide (t.1 = cls) && decide (t.2.1 = scope)) = none :=
    List.find?_eq_none.2 fun t ht => by simpa [imp_iff_not_or] using (List.mem_filter.1 ht).2
  unfold Module.take Module.takenOf
  simp only [List.find?_append, hnone]
  simp

/-- What the records of a class and scope say is not changed by dropping others. -/
theorem Module.takenOf_filter (m m' : Module) (g : Nat × Nat × Nat → Bool) (cls scope : Nat) (hm : m'.taken = m.taken.filter g)
    (h : ∀ n, g (cls, scope, n) = true) : m'.takenOf cls scope = m.takenOf cls scope := by
  unfold Module.takenOf
  rw [hm, List.find?_filter]
  congr 3
  funext ⟨c, sc, n⟩
  by_cases hk : c = cls ∧ sc = scope
  · obtain ⟨rfl, rfl⟩ := hk
    simp [h n]
  · simpa using fun hc hs => absurd ⟨hc, hs⟩ hk

/-- The record of a core's number is that core's. -/
theorem State.core?_getD_core (s : State) (n : BitVec 6) : ((s.core? n).getD (.reset n)).core = n := by
  unfold State.core?
  cases h : s.cores.find? fun k => decide (k.core = n) with
  | none => rfl
  | some k => simpa using List.find?_some h

/-- The records after one is changed: the changed one, and those of the other cores. -/
theorem State.mem_withCore (s : State) (n : BitVec 6) (f : CoreState → CoreState) (k : CoreState) :
    k ∈ (s.withCore n f).cores ↔ k ∈ s.cores ∧ k.core ≠ n ∨ k = f ((s.core? n).getD (.reset n)) := by
  unfold State.withCore
  simp

/-- A strand whose task has nothing to stop. -/
theorem Strand.still_iff (c : Strand) : c.still = true ↔ c.run ∈ [Run.halted, .preempted, .stopped] := by
  unfold Strand.still
  cases c.run <;> simp

/-- The tasks that move with a part are marked; another part has none. -/
theorem State.spareFor_strands (s : State) (p : PartRef) : (s.spareFor p).strands = s.strands.map fun c =>
    if c.movesWith p = true ∧ c.run ∉ [Run.halted, .preempted, .stopped] then { c with moving := true } else c := by
  have hmark (c : Strand) : (if c.movesWith p && !c.still then { c with moving := true } else c) =
      if c.movesWith p = true ∧ c.run ∉ [Run.halted, .preempted, .stopped] then { c with moving := true } else c := by
    simp only [← Strand.still_iff, Bool.and_eq_true, Bool.not_eq_true', Bool.not_eq_true]
  have hnone (hp : ∀ c : Strand, c.movesWith p = false) : s.strands = s.strands.map fun c =>
      if c.movesWith p = true ∧ c.run ∉ [Run.halted, .preempted, .stopped] then { c with moving := true } else c := by
    simp [hp]
  cases p with
  | core n | strandCore w => simp only [← hmark]; rfl
  | landingCore _ _ | gddr _ | bank _ _ | lane _ _ => exact hnone fun c => Bool.and_false _

theorem State.spareFor_mem (s : State) (p : PartRef) : (s.spareFor p).mem = s.mem := by cases p <;> rfl

theorem State.spareFor_outbox (s : State) (p : PartRef) : (s.spareFor p).outbox = s.outbox := by cases p <;> rfl

theorem State.spareFor_owning (s : State) (p : PartRef) : (s.spareFor p).module.owning = s.module.owning := by cases p <;> rfl

/-- A core or strand core is on its way to its spare. -/
theorem State.spareFor_moving (s : State) {p : PartRef} (h : (partClass p).1 = 1 ∨ (partClass p).1 = 2) :
    p ∈ (s.spareFor p).module.moving := by
  cases p with
  | core _ | strandCore _ => exact List.mem_append_right _ (List.mem_singleton.2 rfl)
  | landingCore _ _ | gddr _ | bank _ _ | lane _ _ => simp [partClass] at h

/-- A spare core brings strand cores and banks of its own; no other count of spares changes. -/
theorem State.spareFor_takenOf (s : State) (p : PartRef) {cls scope spares index : Nat} (h : partClass p = (cls, scope, spares, index)) :
    (s.spareFor p).module.takenOf cls scope = s.module.takenOf cls scope := by
  cases p with
  | core n =>
    obtain ⟨rfl, -⟩ := Prod.mk.inj h
    exact s.module.takenOf_filter _ _ 1 scope rfl fun _ => rfl
  | _ => rfl

/-- Every strand core of a spare core is present. -/
theorem State.spareFor_lostStrands (s : State) {p : PartRef} {scope spares index : Nat} (h : partClass p = (1, scope, spares, index)) :
    ∀ k ∈ (s.spareFor p).cores, k.core.toNat = index → k.lostStrands = [] := by
  cases p with
  | core n =>
    intro k hk hi
    obtain ⟨-, hne⟩ | rfl := (s.mem_withCore n (fun k => { k with lostStrands := [] }) k).1 hk
    · simp only [partClass, Prod.mk.injEq] at h
      exact absurd (BitVec.eq_of_toNat_eq (hi.trans h.2.2.2.symm)) hne
    · rfl
  | _ => simp [partClass] at h

/-! ### Retirement (R17, R18, R396, R399) -/

/-- A part other than a lane retires to a spare, which is reported. -/
theorem State.retirePart_spare {s : State} {p : PartRef} {cls scope spares index : Nat} (h : partClass p = (cls, scope, spares, index))
    (hl : cls ≠ 6) (hu : s.module.takenOf cls scope < spares) : s.retirePart p =
      (({ s with module := (s.module.setErrors p 0).take cls scope } : State).spareFor p).serviceReport 1 cls index
        (spares - s.module.takenOf cls scope - 1) (s.partHolder p) := by
  cases p with
  | lane g i => cases h; exact absurd rfl hl
  | _ => cases h; exact if_pos hu

/-- A part other than a lane without a spare leaves service, which is reported. -/
theorem State.retirePart_gone {s : State} {p : PartRef} {cls scope spares index : Nat} (h : partClass p = (cls, scope, spares, index))
    (hl : cls ≠ 6) (hu : spares ≤ s.module.takenOf cls scope) : s.retirePart p =
      (({ s with module := s.module.setErrors p 0 } : State).removePart p).serviceReport 2 cls index 0 (s.partHolder p) := by
  cases p with
  | lane g i => cases h; exact absurd rfl hl
  | _ => cases h; exact if_neg (not_lt.2 hu)

/-- A report changes the outbox alone. -/
theorem State.serviceReport_state (s : State) (kind cls index left : Nat) (holder : Option Nat) :
    ∃ outbox, s.serviceReport kind cls index left holder = { s with outbox := outbox } := by
  have hfold (m : Nat → OutMsg) (l : List Nat) (t : State) :
      ∃ outbox, l.foldl (fun (t : State) n => t.send (m n)) t = { t with outbox := outbox } := by
    induction l generalizing t with
    | nil => exact ⟨t.outbox, rfl⟩
    | cons n l ih =>
      obtain ⟨o, h⟩ := ih (t.send (m n))
      exact ⟨o, h⟩
  exact hfold _ _ s

/-- A core without a spare is absent, and its partition is torn down or ends (R17, R18, log 29). -/
theorem State.removePart_core (s : State) (n : BitVec 6) : (∃ k ∈ (s.removePart (.core n)).cores, k.core = n ∧ k.absent = true) ∧
    ∀ p, s.partOn n = some p → (∀ q ∈ (s.removePart (.core n)).parts, q.pid ≠ p.pid) ∨
      ∃ q ∈ (s.removePart (.core n)).parts, q.pid = p.pid ∧ q.ending = true := by
  have hk : ∃ k ∈ (s.withCore n fun k => { k with absent := true }).cores, k.core = n ∧ k.absent = true :=
    ⟨_, (s.mem_withCore n _ _).2 (.inr rfl), s.core?_getD_core n, rfl⟩
  unfold State.removePart
  simp only
  cases hp : ((s.withCore n fun k => { k with absent := true }).stopCore n).partOn n with
  | none => exact ⟨hk, fun p h => nomatch hp.symm.trans h⟩
  | some q =>
    refine ⟨by rw [State.terminate_cores]; exact hk, fun p h => ?_⟩
    obtain rfl : q = p := Option.some.inj (hp.symm.trans h)
    exact State.terminate_parts _ (List.mem_of_find?_eq_some hp)

/-- A device or a Landing core without a spare is gone from service, and nothing else changes. -/
theorem State.removePart_marked (s : State) {p : PartRef} (h : (partClass p).1 = 3 ∨ (partClass p).1 = 4) :
    s.removePart p = s.markRemoved p := by
  cases p with
  | landingCore _ _ | gddr _ => rfl
  | core _ | strandCore _ | bank _ _ | lane _ _ => simp [partClass] at h

/-- A part marked is among those removed, and only that list has changed. -/
theorem State.markRemoved_eq (s : State) (p : PartRef) : ∃ removed, p ∈ removed ∧
    s.markRemoved p = { s with module := { s.module with removed := removed } } := by
  unfold State.markRemoved
  split
  · next h => exact ⟨s.module.removed, List.contains_iff_mem.1 h, rfl⟩
  · exact ⟨_, List.mem_append_right _ (List.mem_singleton.2 rfl), rfl⟩

theorem State.partGone_of_removed {s : State} {p : PartRef} (h : p ∈ s.module.removed) : s.partGone p = true := by
  unfold State.partGone
  rw [List.contains_iff_mem.2 h]
  rfl

theorem partHolder_eq_none (s : State) {p : PartRef} (h : (partClass p).1 = 3 ∨ (partClass p).1 = 4) : s.partHolder p = none := by
  cases p with
  | landingCore _ _ | gddr _ => rfl
  | core _ | strandCore _ | bank _ _ | lane _ _ => simp [partClass] at h

/-- An uncorrected error on a part with a spare (R396, R398, R399). -/
theorem exec_uncorrectableError_spare {s : State} {p : PartRef} {cls scope spares index n : Nat} (he : partExists p = true)
    (hg : s.partGone p = false) (hp : partClass p = (cls, scope, spares, index)) (h5 : cls ≠ 5) (h6 : cls ≠ 6)
    (hu : s.module.takenOf cls scope < spares) (hh : s.partHolder p = none) (hn : s.module.owning = some n) :
    let taken : State := { s with module := (s.module.setErrors p 0).take cls scope }
    exec (.uncorrectableError p) s = .next ((taken.spareFor p).send (OutMsg.mk n 3 0x30 0 0
      [1, BitVec.ofNat 8 cls, BitVec.ofNat 8 index, BitVec.ofNat 8 (index / 256),
        BitVec.ofNat 8 (spares - s.module.takenOf cls scope - 1), 0, 0, 0])) := by
  rw [exec_uncorrectableError_retires he hg (by rw [hp]; exact h5), State.retirePart_spare hp h6 hu, hh,
    State.serviceReport_owning (by rw [State.spareFor_owning]; exact hn)]
  rfl

/-- An uncorrected error on a device or a Landing core without a spare (R17, R399). -/
theorem exec_uncorrectableError_marked {s : State} {p : PartRef} {cls scope spares index n : Nat} (he : partExists p = true)
    (hg : s.partGone p = false) (hp : partClass p = (cls, scope, spares, index)) (hc : cls = 3 ∨ cls = 4)
    (hu : spares ≤ s.module.takenOf cls scope) (hn : s.module.owning = some n) :
    ∃ u, exec (.uncorrectableError p) s = .next u ∧ u.partGone p = true ∧ u.strands = s.strands ∧ u.mem = s.mem ∧
      u.outbox = s.outbox ++ [OutMsg.mk n 3 0x30 0 0 [2, BitVec.ofNat 8 cls, BitVec.ofNat 8 index,
        BitVec.ofNat 8 (index / 256), 0, 0, 0, 0]] := by
  have hc' : (partClass p).1 = 3 ∨ (partClass p).1 = 4 := by rw [hp]; exact hc
  obtain ⟨removed, hin, hm⟩ := State.markRemoved_eq { s with module := s.module.setErrors p 0 } p
  rw [exec_uncorrectableError_retires he hg (by omega), State.retirePart_gone hp (by omega) hu, State.removePart_marked _ hc', hm,
    partHolder_eq_none s hc', State.serviceReport_owning (by exact hn)]
  exact ⟨_, rfl, State.partGone_of_removed hin, rfl, rfl, rfl⟩

/-- An uncorrected error on a core when both spares of its die are taken (R17, R18). -/
theorem exec_uncorrectableError_core {s : State} {n : BitVec 6} (hg : s.partGone (.core n) = false)
    (hu : 2 ≤ s.module.takenOf 1 (n.toNat / 32)) : ∃ u, exec (.uncorrectableError (.core n)) s = .next u ∧
      (∃ k ∈ u.cores, k.core = n ∧ k.absent = true) ∧
      ∀ p, s.partOn n = some p → (∀ q ∈ u.parts, q.pid ≠ p.pid) ∨ ∃ q ∈ u.parts, q.pid = p.pid ∧ q.ending = true := by
  refine ⟨_, exec_uncorrectableError_retires rfl hg nofun, ?_⟩
  rw [State.retirePart_gone (p := .core n) rfl (by decide) hu]
  obtain ⟨o, ho⟩ := State.serviceReport_state (({ s with module := s.module.setErrors (.core n) 0 } : State).removePart (.core n))
    2 1 n.toNat 0 (s.partHolder (.core n))
  rw [ho]
  exact State.removePart_core { s with module := s.module.setErrors (.core n) 0 } n

/-! ### The obligation -/

/-- Settles O52: each clause is the lemma above on its event. -/
theorem serviceResults : Obligations.ServiceResults := by
  unfold Obligations.ServiceResults
  intro s
  refine ⟨exec_powerGood_on, exec_powerGood_off, ⟨_, rfl, rfl, rfl, rfl, rfl, rfl, rfl, rfl, fun a => powerLoss_read s.mem⟩,
    ?firmware, ?sample, fun _ => rfl, rfl, fun _ => exec_error_absent, exec_uncorrectableError_bank s, ?corrected, ?spare,
    fun _ => exec_uncorrectableError_core, fun p cls scope spares index he hg hp hc hu n => exec_uncorrectableError_marked he hg hp hc hu⟩
  case firmware =>
    intro m hc hv hf hs
    have hexec := exec_firmware_formed hc hv hf hs
    refine ⟨fun hb => ?refused, fun hb hmore => ?kept, fun hb hlast => ?verdict⟩
    case refused => rw [hexec, if_pos hb]; rfl
    case kept => rw [hexec, if_neg (not_not.2 hb), if_pos hmore]; rfl
    case verdict =>
      rw [hexec, if_neg (not_not.2 hb), if_neg (not_lt.2 hlast)]
      by_cases h0 : Config.firmwareVerdict (withChunk s.module.firmware (payload m 0 4) (m.payload.drop 8)) = 0
      · rw [if_pos h0]
        refine ⟨_, rfl, rfl, rfl, rfl, fun _ => ⟨rfl, rfl, rfl, s.bringUp_hostlinks _, fun i => ⟨?_, ?_⟩⟩, fun h => absurd h0 h⟩
        · exact State.bringUp_whole _
        · exact State.bringUp_lacking _
      · rw [if_neg h0]
        exact ⟨_, rfl, rfl, rfl, rfl, fun h => absurd h h0, fun _ => ⟨rfl, rfl⟩⟩
  case sample =>
    intro watts tempC flow
    refine ⟨exec_powerSample_stopped watts tempC flow, fun hr ht => ?trip, fun hr ht => ?clock⟩
    case trip =>
      obtain ⟨parts, outbox, htrip⟩ := s.trip_eq
      refine ⟨_, exec_powerSample_trip watts flow hr ht, ?_, s.trip_strands, ?_, ?_⟩ <;> rw [htrip]
    case clock =>
      refine ⟨_, exec_powerSample_clock watts flow hr ht, nextClock_limit _, fun hh hm => ?_, nextClock_range _ _ _ _⟩
      rw [hm]
      exact nextClock_hot _ hh
  case corrected =>
    intro p hp hg hlt
    have hpart : partExists p.1 = true ∧ partLimit p.1 = some p.2 := by
      clear hg hlt
      revert p
      decide
    exact exec_correctedError_within hpart.1 hg hpart.2 hlt
  case spare =>
    intro p cls scope spares index he hg hp h5 h6 hu hh n hn
    refine ⟨_, exec_uncorrectableError_spare he hg hp h5 h6 hu hh hn, ?_, State.spareFor_mem _ p, State.spareFor_strands _ p,
      fun hc => State.spareFor_moving _ (by rw [hp]; exact hc), fun hc => State.spareFor_lostStrands _ (hc ▸ hp), ?_⟩
    · exact (State.spareFor_takenOf _ p hp).trans ((s.module.setErrors p 0).takenOf_take cls scope)
    · rw [State.send_outbox, State.spareFor_outbox]

end Sys2Proof.Machine
end

section
/-! The start of a LAUNCH: what its validation reads, seats of no two tasks on one strand, the strands as its tasks find them; and
O43, assembled from them. -/

namespace Sys2Proof.Machine

/-! ### The validation of a LAUNCH (R24, R26) -/

/-- A read by the Landing sets A bits and moves the TLB and the free values. -/
theorem State.landingRead_state (s : State) (part va n : Nat) :
    ∃ mem tlb free, (s.landingRead part va n).2 = { s with mem := mem, tlb := tlb, free := free } := by
  unfold State.landingRead
  split
  · exact ⟨s.mem, s.tlb, s.free, rfl⟩
  · obtain ⟨tlb, free, ht⟩ := s.translate_state (s.landingVia part) .s va .load false
    generalize s.translate (s.landingVia part) .s va .load false = r at ht ⊢
    obtain ⟨e | x, t⟩ := r
    · exact ⟨s.mem, tlb, free, ht⟩
    · obtain ⟨mem, tlb', h⟩ := t.touch_state (t.landingVia part) x .load
      refine ⟨mem, tlb', free, ?_⟩
      show t.touch (t.landingVia part) x .load = _
      rw [h, show t = _ from ht]

/-- Reading the trip counts does what its reads do. -/
theorem State.readTrips_state (part param : Nat) (ws : List Nat) (s : State) :
    ∃ mem tlb free, (s.readTrips part param ws).2 = { s with mem := mem, tlb := tlb, free := free } := by
  induction ws generalizing s with
  | nil => exact ⟨s.mem, s.tlb, s.free, rfl⟩
  | cons w ws ih =>
    unfold State.readTrips
    split
    · obtain ⟨mem, tlb, free, h⟩ := s.landingRead_state part (param + lvTrip w % 65536) 8
      generalize s.landingRead part (param + lvTrip w % 65536) 8 = r at h ⊢
      obtain ⟨e | v, t⟩ := r
      · exact ⟨mem, tlb, free, h⟩
      · obtain ⟨mem', tlb', free', h'⟩ := ih t
        dsimp only
        generalize t.readTrips part param ws = r' at h' ⊢
        have hs : r'.2 = { s with mem := mem', tlb := tlb', free := free' } := by rw [h', show t = _ from h]
        obtain ⟨e | vs, u⟩ := r' <;> exact ⟨mem', tlb', free', hs⟩
    · obtain ⟨mem, tlb, free, h⟩ := ih s
      generalize s.readTrips part param ws = r at h ⊢
      obtain ⟨e | vs, t⟩ := r <;> exact ⟨mem, tlb, free, h⟩

/-- A LAUNCH that passes its checks is the launch of its packet, in the state that its reads leave. -/
theorem State.checkLaunch_ok {s t : State} {p : Packet} {h : HwQueue} {q : Partition} {l : Launch}
    (hc : s.checkLaunch p h q = .ok l t) :
    (∃ mem tlb free, t = { s with mem := mem, tlb := tlb, free := free }) ∧ ∃ k trips, l = mkLaunch t p q k trips := by
  unfold State.checkLaunch at hc
  dsimp only at hc
  split at hc
  · nomatch hc
  split at hc
  · nomatch hc
  split at hc
  · nomatch hc
  have hs := s.readTrips_state q.pid (pw p 2) (s.descriptor q (pw p 1 % 2 ^ 32)).used
  generalize s.readTrips q.pid (pw p 2) (s.descriptor q (pw p 1 % 2 ^ 32)).used = r at hs hc
  obtain ⟨(c | _) | trips, s1⟩ := r
  · nomatch hc
  · nomatch hc
  dsimp only at hc
  split at hc
  · nomatch hc
  split at hc
  · nomatch hc
  cases hc
  exact ⟨hs, _, trips, rfl⟩

/-! ### Seats (R106, R108) -/

/-- A seat is on the strand asked for, which nothing holds. -/
theorem State.seatAt_some {s : State} {p : Partition} {occ : List Seat} {g : Nat} {id : StrandId} {x : Seat}
    (h : s.seatAt p occ g id = some x) : x.id = id ∧ ∀ y ∈ occ, y.id ≠ id := by
  unfold State.seatAt at h
  split at h
  · next hf =>
    obtain ⟨r, -, rfl⟩ := Option.map_eq_some_iff.1 h
    unfold State.strandFree at hf
    simp only [Bool.and_eq_true, Bool.not_eq_true', List.any_eq_false, decide_eq_true_eq] at hf
    exact ⟨rfl, hf.2⟩
  · nomatch h

/-- The first free seat is on a strand that nothing holds. -/
theorem State.firstFree_free {s : State} {p : Partition} {occ : List Seat} {die : Option Nat} {g : Nat} {x : Seat}
    (h : s.firstFree p occ die g = some x) : ∀ y ∈ occ, y.id ≠ x.id := by
  unfold State.firstFree at h
  obtain ⟨c, -, hc⟩ := List.exists_of_findSome?_eq_some h
  obtain ⟨i, -, hi⟩ := List.exists_of_findSome?_eq_some hc
  obtain ⟨hid, hocc⟩ := State.seatAt_some hi
  rw [hid]
  exact hocc

/-- Place gives each task a strand of its own, apart from those held. -/
theorem State.placeTasks_ids {s : State} {p : Partition} {g : Nat} (prefs : List (Option Nat)) {occ seats : List Seat}
    (h : s.placeTasks p g occ prefs = some seats) :
    (seats.map (·.id)).Nodup ∧ ∀ x ∈ seats, ∀ y ∈ occ, y.id ≠ x.id := by
  induction prefs generalizing occ seats with
  | nil => cases h; exact ⟨.nil, nofun⟩
  | cons pref rest ih =>
    unfold State.placeTasks at h
    dsimp only at h
    split at h
    · nomatch h
    next x hx =>
    obtain ⟨xs, hxs, rfl⟩ := Option.map_eq_some_iff.1 h
    obtain ⟨hnd, hocc⟩ := ih hxs
    have hfree : ∀ y ∈ occ, y.id ≠ x.id := by
      obtain hx | ⟨-, hx⟩ := Option.or_eq_some_iff.1 hx
      · exact State.firstFree_free hx
      · obtain ⟨d, -, hd⟩ := Option.bind_eq_some_iff.1 hx
        exact State.firstFree_free hd
    refine ⟨List.nodup_cons.2 ⟨fun hm => ?_, hnd⟩, fun z hz y hy => ?_⟩
    · obtain ⟨z, hz, he⟩ := List.mem_map.1 hm
      exact hocc z hz x (by simp) he.symm
    · obtain rfl | hz := List.mem_cons.1 hz
      · exact hfree y hy
      · exact hocc z hz y (List.mem_append_left _ hy)

/-- No two tasks of a launch have seats on one strand. -/
theorem State.seatsFor_nodup {s : State} {p : Partition} {l : Launch} {occ seats : List Seat}
    (h : s.seatsFor p l occ = some seats) : (seats.map (·.id)).Nodup := by
  unfold State.seatsFor at h
  dsimp only at h
  split at h
  · split at h
    · obtain ⟨r, -, rfl⟩ := Option.map_eq_some_iff.1 h
      exact List.nodup_singleton _
    · nomatch h
  · exact (State.placeTasks_ids _ h).1

theorem State.present_congr {s t : State} (h : t.cores = s.cores) (id : StrandId) : t.present id = s.present id := by
  unfold State.present State.core?
  rw [h]

theorem State.seatAt_congr {s t : State} (h : t.cores = s.cores) (p : Partition) (occ : List Seat) (g : Nat) (id : StrandId) :
    t.seatAt p occ g id = s.seatAt p occ g id := by
  unfold State.seatAt State.strandFree
  rw [State.present_congr h]

theorem State.firstFree_congr {s t : State} (h : t.cores = s.cores) (p : Partition) (occ : List Seat) (die : Option Nat) (g : Nat) :
    t.firstFree p occ die g = s.firstFree p occ die g := by
  simp only [State.firstFree, State.seatAt_congr h]

theorem State.placeTasks_congr {s t : State} (h : t.cores = s.cores) (p : Partition) (g : Nat) (prefs : List (Option Nat))
    (occ : List Seat) : t.placeTasks p g occ prefs = s.placeTasks p g occ prefs := by
  induction prefs generalizing occ with
  | nil => rfl
  | cons pref rest ih => simp only [State.placeTasks, State.firstFree_congr h, ih]

/-- The seats of a launch depend on the cores alone. -/
theorem State.seatsFor_congr {s t : State} (h : t.cores = s.cores) (p : Partition) (l : Launch) (occ : List Seat) :
    t.seatsFor p l occ = s.seatsFor p l occ := by
  unfold State.seatsFor
  dsimp only
  rw [State.placeTasks_congr h, State.present_congr h]

/-! ### The strands of a launch as its tasks find them (R95) -/

theorem State.mem_mapStrands {s : State} {f : Strand → Strand} {c : Strand} :
    c ∈ (s.mapStrands f).strands ↔ ∃ d ∈ s.strands, f d = c := List.mem_map (l := s.strands)

/-- The tasks of a launch put on their seats. -/
def State.seatTasks (s : State) (l : Launch) (p : Partition) (xs : List (Seat × Nat)) : State :=
  xs.foldl (fun t x => t.seatTask l p x.2 x.1) s

theorem State.seatTasks_state (l : Launch) (p : Partition) (xs : List (Seat × Nat)) (s : State) :
    ∃ cur others, s.seatTasks l p xs = { s with cur := cur, others := others } := by
  induction xs generalizing s with
  | nil => exact ⟨s.cur, s.others, rfl⟩
  | cons x xs ih =>
    obtain ⟨cur, others, h⟩ := ih (s.seatTask l p x.2 x.1)
    exact ⟨cur, others, h⟩

/-- A strand on a seat holds the task put there. -/
theorem State.mem_seatTask {s : State} {l : Launch} {p : Partition} {k : Nat} {seat : Seat} {c : Strand}
    (hc : c ∈ (s.seatTask l p k seat).strands) :
    (c.id = seat.id ∧ ∃ ctx gen, c = l.strandFor p k seat ctx gen) ∨ (c.id ≠ seat.id ∧ c ∈ s.strands) := by
  obtain ⟨d, hd, rfl⟩ := State.mem_mapStrands.1 hc
  split
  · exact .inl ⟨rfl, _, _, rfl⟩
  · next h => exact .inr ⟨h, hd⟩

/-- A strand that is no task's seat is as it was. -/
theorem State.mem_seatTasks_of_ne {l : Launch} {p : Partition} (xs : List (Seat × Nat)) {s : State} {c : Strand}
    (hc : c ∈ (s.seatTasks l p xs).strands) (hne : ∀ x ∈ xs, c.id ≠ x.1.id) : c ∈ s.strands := by
  induction xs generalizing s with
  | nil => exact hc
  | cons x xs ih =>
    obtain ⟨h, -⟩ | ⟨-, h⟩ := State.mem_seatTask (ih hc fun y hy => hne y (List.mem_cons_of_mem _ hy))
    · exact absurd h (hne x List.mem_cons_self)
    · exact h

/-- On seats of different strands, each strand holds its own task. -/
theorem State.mem_seatTasks {l : Launch} {p : Partition} {xs : List (Seat × Nat)} (hnd : (xs.map (·.1.id)).Nodup) {s : State}
    {x : Seat × Nat} (hx : x ∈ xs) {c : Strand} (hc : c ∈ (s.seatTasks l p xs).strands) (hid : c.id = x.1.id) :
    ∃ ctx gen, c = l.strandFor p x.2 x.1 ctx gen := by
  induction xs generalizing s with
  | nil => nomatch hx
  | cons y ys ih =>
    obtain ⟨hy, hnd⟩ := List.nodup_cons.1 hnd
    obtain rfl | hx := List.mem_cons.1 hx
    · have hold : c ∈ (s.seatTask l p x.2 x.1).strands :=
        State.mem_seatTasks_of_ne ys hc fun z hz he => hy (List.mem_map.2 ⟨z, hz, (he.symm.trans hid)⟩)
      obtain ⟨-, h⟩ | ⟨h, -⟩ := State.mem_seatTask hold
      · exact h
      · exact absurd hid h
    · exact ih hnd hx hc

/-- The scalar registers of a task at its first issue: x3 the parameter block, x2 the end of its stack, the others 0. -/
theorem Launch.strandFor_getX (l : Launch) (p : Partition) (k : Nat) (seat : Seat) (ctx : BitVec 16) (gen : Nat) (r : XReg) :
    (l.strandFor p k seat ctx gen).getX r =
      if r = 3 then l.param
      else if r = 2 then (if l.ssize = 0 then 0 else l.stack + BitVec.ofNat 64 ((k + 1) * l.ssize)) else 0 := by
  have hx : (l.strandFor p k seat ctx gen).x = ((Vector.replicate 32 (0 : Word)).set 3 l.param).set 2
      (if l.ssize = 0 then 0 else l.stack + BitVec.ofNat 64 ((k + 1) * l.ssize)) := rfl
  have h2 : (2 = r.toNat) ↔ r = 2 := by rw [eq_comm]; exact BitVec.toNat_inj (y := 2#5)
  have h3 : (3 = r.toNat) ↔ r = 3 := by rw [eq_comm]; exact BitVec.toNat_inj (y := 3#5)
  unfold Strand.getX
  rw [hx]
  by_cases h0 : r = 0
  · subst h0; rfl
  · rw [if_neg h0, Vector.getElem_set, Vector.getElem_set, Vector.getElem_replicate]
    simp only [h2, h3]
    by_cases hr : r = 3
    · subst hr; rfl
    · simp only [if_neg hr]

/-! ### The start of a launch -/

/-- One queue changed, which keeps its number. -/
theorem State.hwq?_mapHwq {s : State} {q : QueueId} {h : HwQueue} {f : HwQueue → HwQueue} (hf : ∀ k, (f k).id = k.id)
    (hq : s.hwq? q = some h) : (s.mapHwq q f).hwq? q = some (f h) := by
  unfold State.hwq? State.mapHwq at *
  have hpred : ((fun k : HwQueue => decide (k.id = q)) ∘ fun k => if k.id = q then f k else k) = fun k => decide (k.id = q) := by
    funext k
    by_cases hk : k.id = q
    · simp [hk, hf]
    · simp [hk]
  have hid : h.id = q := by simpa using List.find?_some hq
  rw [List.find?_map, hpred, hq, Option.map_some, if_pos hid]

/-- A LAUNCH that is the packet's own and passes the checks without its descriptor is taken. -/
theorem exec_launch_taken {s : State} {p : Packet} {h : HwQueue} (ht : pktType p = 1) (hp : s.module.phase ≠ .tripped)
    (hq : s.hwq? p.queue = some h) (hf : h.packetFault p = none) : exec (.launch p) s = .next (s.takeLaunch p) := by
  have htrip : s.tripped = false := decide_eq_false hp
  show Host.Outcome.next _ = _
  rw [if_pos ht]
  unfold State.runPacket State.performPacket
  simp only [hq, htrip, hf, ht, Bool.false_eq_true, if_false]

/-- A refused LAUNCH halts its queue with the code of its check. -/
theorem State.takeLaunch_fault {s t : State} {p : Packet} {h : HwQueue} {q : Partition} {c : Nat} (hq : s.hwq? p.queue = some h)
    (hp : s.partition? p.queue.part = some q) (hc : s.checkLaunch p h q = .fault c t) : s.takeLaunch p = t.packetHalt p 0 c := by
  unfold State.takeLaunch
  simp only [hq, hp, hc]

/-- The state with a validated launch among the others. -/
def State.withLaunch (s : State) (l : Launch) : State := { s with nextLaunch := s.nextLaunch + 1, launches := s.launches ++ [l] }

/-- The new launch reserves nothing before itself. -/
theorem State.withLaunch_reservedBefore (s : State) (l : Launch) (lvl : Nat) :
    (s.withLaunch l).reservedBefore l lvl = s.reservedBefore l lvl := by
  unfold State.reservedBefore
  refine congrArg (fun f => s.reservations.any f) (funext fun r => ?_)
  by_cases hr : r.2 = l.lid
  · simp [hr]
  · have hl : (s.withLaunch l).launch? r.2 = s.launch? r.2 := by
      simp [State.launch?, State.withLaunch, List.find?_append, Ne.symm hr]
    rw [hl]
    rfl

/-- A launch whose seats are free starts on them. -/
theorem State.takeLaunch_starts {s t : State} {p : Packet} {h : HwQueue} {q : Partition} {l : Launch} {seats : List Seat}
    (hq : s.hwq? p.queue = some h) (hp : s.partition? p.queue.part = some q) (hc : s.checkLaunch p h q = .ok l t)
    (hn : l.tasks ≠ 0) (hr : t.reservedBefore l (t.levelOf l.queue) = false)
    (hs : t.seatsFor q l (seatsOf t.strands) = some seats) : s.takeLaunch p = (t.withLaunch l).beginLaunch l q seats := by
  have hr' : (t.withLaunch l).reservedBefore l ((t.withLaunch l).levelOf l.queue) = false :=
    (t.withLaunch_reservedBefore l _).trans hr
  have hs' : (t.withLaunch l).seatsFor q l (seatsOf (t.withLaunch l).strands) = some seats :=
    (State.seatsFor_congr (s := t) (t := t.withLaunch l) rfl q l _).trans hs
  unfold State.takeLaunch
  simp only [hq, hp, hc, if_neg hn]
  show (State.tryLaunch (t.withLaunch l) l q).2 = _
  unfold State.tryLaunch
  simp only [hr', hs', Bool.false_eq_true, if_false]

/-- What the start of a launch leaves: its tasks on their seats, the launch running, its queue waiting for it. -/
theorem State.beginLaunch_state (s : State) (l : Launch) (q : Partition) (seats : List Seat) : ∃ cur others,
    s.seatTasks l q seats.zipIdx = { s with cur := cur, others := others } ∧
    s.beginLaunch l q seats = (((({ s with
        cur := cur, others := others, module := { s.module with startSeq := s.module.startSeq + 1 }
        reservations := s.reservations.filter fun r => r.2 ≠ l.lid } : State).mapLaunch l.lid fun x =>
          { x with state := .running, seq := s.module.startSeq }).mapHwq l.queue fun h => { h with aged := 0 }).mapHwq l.queue fun h =>
            { h with
              fetched := h.fetched.filter fun x => x.index ≠ l.index
              active := h.active ++ [(l.index, true)], unsignalled := h.unsignalled ++ [l.index] }) := by
  obtain ⟨cur, others, h⟩ := State.seatTasks_state l q seats.zipIdx s
  refine ⟨cur, others, h, ?_⟩
  unfold State.beginLaunch State.startLaunch
  rw [show seats.zipIdx.foldl (fun t x => t.seatTask l q x.2 x.1) s = _ from h]
  rfl

/-! ### The obligation -/

/-- Settles O43: a refused LAUNCH halts its queue; one whose seats are free starts, and the strand of each seat is the one that
R95 gives its task, for no two seats are on one strand. -/
theorem launchStartsTasks : Obligations.LaunchStartsTasks := by
  unfold Obligations.LaunchStartsTasks
  intro s t p h q ht htrip hq hf hp
  have hexec : exec (.launch p) s = .next (s.takeLaunch p) := exec_launch_taken ht htrip hq hf
  refine ⟨fun c hc => ?refused, fun l seats hc hn hr hs => ?starts⟩
  case refused => rw [hexec, State.takeLaunch_fault hq hp hc]
  case starts =>
    obtain ⟨⟨mem, tlb, free, hstate⟩, k, trips, hl⟩ := State.checkLaunch_ok hc
    have hlq : l.queue = p.queue := by rw [hl]; rfl
    have hli : l.index = p.index := by rw [hl]; rfl
    have hhwq : (t.withLaunch l).hwq? l.queue = some h := by rw [hlq, hstate]; exact hq
    obtain ⟨cur, others, hseat, hbegin⟩ := (t.withLaunch l).beginLaunch_state l q seats
    have hstrands : ((t.withLaunch l).beginLaunch l q seats).strands = ((t.withLaunch l).seatTasks l q seats.zipIdx).strands := by
      rw [hseat, hbegin]; rfl
    refine ⟨_, by rw [hexec, State.takeLaunch_starts hq hp hc hn hr hs], ?_, ?_, ?_, ?_, fun n seat hn c hcs hid => ?_⟩
    · rw [hbegin]; rfl
    · rw [hbegin]; rfl
    · rw [hbegin]
      exact ⟨_, List.mem_map.2 ⟨l, List.mem_append_right _ (List.mem_singleton.2 rfl), if_pos rfl⟩, rfl, rfl, hlq, hli⟩
    · rw [hbegin, ← hlq, ← hli]
      refine ⟨_, State.hwq?_mapHwq (fun _ => rfl) (State.hwq?_mapHwq (fun _ => rfl) hhwq), ?_, ?_, fun y hy => ?_⟩
      · exact List.mem_append_right _ (List.mem_singleton.2 rfl)
      · exact List.mem_append_right _ (List.mem_singleton.2 rfl)
      · simpa using (List.mem_filter.1 hy).2
    · have hnd : (seats.zipIdx.map (·.1.id)).Nodup := by
        have := State.seatsFor_nodup hs
        rwa [← List.zipIdx_map_fst 0 seats, List.map_map] at this
      obtain ⟨ctx, gen, rfl⟩ := State.mem_seatTasks hnd (x := (seat, n)) (List.mem_zipIdx_iff_getElem?.2 hn) (hstrands ▸ hcs) hid
      have hx := l.strandFor_getX q n seat ctx gen
      refine ⟨rfl, rfl, rfl, hx 3, hx 2, fun r h2 h3 => ?_, rfl, rfl, rfl, rfl, rfl, rfl, rfl⟩
      rw [hx r, if_neg h3, if_neg h2]

end Sys2Proof.Machine
end

section
/-! CREATE_PARTITION (R381): what the Landing's words of its queues leave alone, and the parts of the new partition, one lemma each. -/

namespace Sys2Proof.Machine

/-! ### Descriptor words -/

/-- From s to t memory and what its translation uses have changed, and nothing else. -/
def State.MemoryOnly (s t : State) : Prop :=
  ∃ mem keys hostMem tlb free, t = { s with mem := mem, keys := keys, hostMem := hostMem, tlb := tlb, free := free }

theorem State.MemoryOnly.refl (s : State) : s.MemoryOnly s := ⟨s.mem, s.keys, s.hostMem, s.tlb, s.free, rfl⟩

theorem State.MemoryOnly.trans {s t u : State} (h : s.MemoryOnly t) (k : t.MemoryOnly u) : s.MemoryOnly u := by
  obtain ⟨_, _, _, _, _, rfl⟩ := h
  obtain ⟨mem, keys, hostMem, tlb, free, rfl⟩ := k
  exact ⟨mem, keys, hostMem, tlb, free, rfl⟩

theorem State.MemoryOnly.foldl {α : Type} {f : State → α → State} (h : ∀ (s : State) (x : α), s.MemoryOnly (f s x)) (l : List α)
    (s : State) : s.MemoryOnly (l.foldl f s) := by
  induction l generalizing s with
  | nil => exact .refl s
  | cons x l ih => exact (h s x).trans (ih (f s x))

theorem State.setQword_memoryOnly (s : State) (q : QueueId) (off : Nat) (v : Word) : s.MemoryOnly (s.setQword q off v) := by
  unfold State.setQword
  obtain ⟨tlb, free, ht⟩ := s.translate_state (s.landingVia q.part) .s (s.qwordVA q off) .store false
  generalize s.translate (s.landingVia q.part) .s (s.qwordVA q off) .store false = r at ht
  obtain ⟨e | x, t⟩ := r
  · exact ⟨s.mem, s.keys, s.hostMem, tlb, free, ht⟩
  · obtain ⟨mem, tlb', htouch⟩ := t.touch_state (t.landingVia q.part) x .store
    obtain ⟨mem', keys, hostMem, hwrite⟩ := (t.touch (t.landingVia q.part) x .store).writePlace_state x.place 8 v.toNat
    refine ⟨mem', keys, hostMem, tlb', free, ?_⟩
    dsimp only
    rw [hwrite, htouch, show t = _ from ht]

/-- The words of every descriptor of a partition as CREATE_PARTITION writes them. -/
def State.clearDescriptors (s : State) (pid : Nat) : State :=
  (List.range 64).foldl (fun u i => u.clearDescriptor { part := pid, q := i }) s

theorem State.clearDescriptors_memoryOnly (s : State) (pid : Nat) : s.MemoryOnly (s.clearDescriptors pid) :=
  .foldl (fun t i => .foldl (fun (u : State) off => u.setQword_memoryOnly { part := pid, q := i } off 0) _ t) _ s

/-! ### What the new partition has -/

/-- Its queues are there, stopped. -/
theorem State.mem_withQueues (s : State) (pid : Nat) {i : Nat} (hi : i < 64) :
    HwQueue.fresh { part := pid, q := i } ∈ s.withQueues pid := by
  unfold State.withQueues
  exact List.mem_append_left _ (List.mem_append_right _ (List.mem_map.2 ⟨i, List.mem_range.2 hi, rfl⟩))

/-- Each strand of its cores is there, and holds no task. -/
theorem State.mem_freshStrands (s : State) (pid : Nat) {first count : Nat} {core : BitVec 6} (sid : BitVec 3) (hl : first ≤ core.toNat)
    (hu : core.toNat < first + count) : ∃ c ∈ (s.freshStrands pid first count).strands,
      c.id = { core := core, sid := sid } ∧ c.part = pid ∧ c.task = none := by
  have hin : inBlock first count core = true := by simp [inBlock, hl, hu]
  unfold State.freshStrands
  dsimp only
  generalize hs1 : s.mapStrands (fun c => if inBlock first count c.id.core = true then { c.vacate with part := pid } else c) = s1
  by_cases h : ∃ c ∈ s1.strands, c.id = { core := core, sid := sid }
  · obtain ⟨c, hc, hid⟩ := h
    refine ⟨c, ?_, hid, ?_⟩
    · obtain rfl | hc := List.mem_cons.1 hc
      · exact List.mem_cons_self
      · exact List.mem_cons_of_mem _ (List.mem_append_left _ hc)
    · rw [← hs1] at hc
      obtain ⟨d, -, rfl⟩ := State.mem_mapStrands.1 hc
      split
      · exact ⟨rfl, rfl⟩
      · next hd =>
        rw [if_neg hd] at hid
        exact absurd (hid ▸ hin) hd
  · refine ⟨{ Strand.reset { core := core, sid := sid } with part := pid }, ?_, rfl, rfl, rfl⟩
    refine List.mem_cons_of_mem _ (List.mem_append_right _ (List.mem_map.2 ⟨_, List.mem_filter.2 ⟨List.mem_map.2
      ⟨8 * (core.toNat - first) + sid.toNat, List.mem_range.2 (by omega), ?_⟩, ?_⟩, rfl⟩))
    · have hc : first + (8 * (core.toNat - first) + sid.toNat) / 8 = core.toNat := by omega
      have hs : BitVec.ofNat 3 (8 * (core.toNat - first) + sid.toNat) = sid := BitVec.eq_of_toNat_eq (by simp; omega)
      rw [hc, hs, BitVec.ofNat_toNat, BitVec.setWidth_eq]
    · simpa using h

/-- Its Larders are zero. -/
theorem State.zeroLarders_read (s : State) {first count : Nat} {core : BitVec 6} {a : Nat} (hl : first ≤ core.toNat)
    (hu : core.toNat < first + count) (ha : a < 0x10000000) :
    Memory.read (s.zeroLarders first count).larder (larderBase core + a) = 0 := by
  unfold State.zeroLarders larderBase
  rw [read_clearBytes, if_pos]
  simp
  omega

/-! ### The answers -/

/-- The response to an accepted request names its verb. -/
theorem State.Accepts.answer_eq {s : State} {m : Msg} {verb : Nat} {used bits : List (Nat × Nat)} {x : Session}
    (h : s.Accepts m verb used bits x) (u : State) (n : Nat) (b : List Byte) : u.answer m n b =
      { u with outbox := u.outbox ++ [OutMsg.mk (msgSession m) 2 verb (msgSeq m) n b] } := by
  obtain ⟨-, rfl, -⟩ := h
  rfl

/-- The partition that an accepted CREATE_PARTITION makes. -/
def State.createdPartition (t : State) (m : Msg) (x : Session) (pid : Nat) : Partition :=
  newPartition m pid x.num (t.takeFree.1, t.takeFree.2.takeFree.1) (x.secret.getD []) (t.module.memKeys + 1)

/-- A partition there with its queues, strands, Larders and groups, its descriptors not written yet. -/
def State.withPartition (t : State) (p : Partition) (mask : BitVec 24) : State :=
  { (t.zeroLarders p.first p.count).freshStrands p.pid p.first p.count with
    cores := t.freshCores p.first p.count, parts := t.parts ++ [p], module := { t.module with memKeys := t.module.memKeys + 1 }
    hwq := t.withQueues p.pid
    groups := Vector.ofFn fun i : Fin 24 => if mask.getLsbD i.val then { t.groups[i] with owner := some p.pid } else t.groups[i] }

section
variable {s : State} {m : Msg} {x : Session} (h : s.Accepts m 3 [(0, 7), (8, 24)] [(3, 1)] x)
include h

theorem exec_createPartition_refused (hr : (s.heard x.num m.path).createRefused m = true) :
    exec (.createPartition m) s = .next ((s.heard x.num m.path).answer m 4 []) := by
  show execCreatePartition m s = _
  unfold execCreatePartition
  rw [request_accepts h, if_pos hr]

theorem exec_createPartition_denied (hr : (s.heard x.num m.path).createRefused m = false)
    (hg : (s.heard x.num m.path).groupsHeld (BitVec.ofNat 24 (payload m 4 3)) = true) :
    exec (.createPartition m) s = .next ((s.heard x.num m.path).answer m 2 []) := by
  show execCreatePartition m s = _
  unfold execCreatePartition
  rw [request_accepts h]
  simp only [hr, hg, Bool.false_eq_true, if_false, if_true]

theorem exec_createPartition_noSpace (hr : (s.heard x.num m.path).createRefused m = false)
    (hg : (s.heard x.num m.path).groupsHeld (BitVec.ofNat 24 (payload m 4 3)) = false)
    (hf : (s.heard x.num m.path).freePid = none) :
    exec (.createPartition m) s = .next ((s.heard x.num m.path).answer m 3 []) := by
  show execCreatePartition m s = _
  unfold execCreatePartition
  rw [request_accepts h]
  simp only [hr, hg, hf, Bool.false_eq_true, if_false]

/-- A CREATE_PARTITION that is granted leaves the partition, and what the writes of its descriptors change of memory. -/
theorem exec_createPartition_granted {pid : Nat} (hr : (s.heard x.num m.path).createRefused m = false)
    (hg : (s.heard x.num m.path).groupsHeld (BitVec.ofNat 24 (payload m 4 3)) = false)
    (hf : (s.heard x.num m.path).freePid = some pid) :
    let t := s.heard x.num m.path
    let p := t.createdPartition m x pid
    ∃ mem keys hostMem tlb free, exec (.createPartition m) s = .next {
      t.takeFree.2.takeFree.2.withPartition p (BitVec.ofNat 24 (payload m 4 3)) with
      mem := mem, keys := keys, hostMem := hostMem, tlb := tlb, free := free
      outbox := t.outbox ++ [OutMsg.mk (msgSession m) 2 3 (msgSeq m) 0
        (leBytes 8 pid ++ leBytes 8 p.handle.1.toNat ++ leBytes 8 p.handle.2.toNat ++ leBytes 8 p.arenaBase)] } := by
  intro t p
  generalize hw : t.takeFree.2.takeFree.2.withPartition p (BitVec.ofNat 24 (payload m 4 3)) = w
  have hexec : exec (.createPartition m) s = .next ((w.clearDescriptors pid).answer m 0
      (leBytes 8 pid ++ leBytes 8 p.handle.1.toNat ++ leBytes 8 p.handle.2.toNat ++ leBytes 8 p.arenaBase)) := by
    rw [← hw]
    show execCreatePartition m s = _
    unfold execCreatePartition
    rw [request_accepts h]
    simp only [hr, hg, hf, Bool.false_eq_true, if_false]
    rfl
  obtain ⟨mem, keys, hostMem, tlb, free, hclear⟩ := w.clearDescriptors_memoryOnly pid
  have hout : w.outbox = t.outbox := by rw [← hw]; rfl
  refine ⟨mem, keys, hostMem, tlb, free, ?_⟩
  rw [hexec, hclear, h.answer_eq, hout]

end

end Sys2Proof.Machine
end

section
/-! LOAD_CODE (R29, R34): the bytes copied, the variants of the arena's images and where they stand; and O49, assembled from these
and from the lemmas on CREATE_PARTITION. -/

namespace Sys2Proof.Machine

/-! ### Words of memory -/

/-- A byte of a number read. -/
theorem Memory.ofNat_readLE_div (m : Memory) (a n : Nat) {i : Nat} (h : i < n) :
    BitVec.ofNat 8 (m.readLE a n / 256 ^ i) = m.read (a + i) := by
  induction n generalizing a i with
  | zero => omega
  | succ n ih =>
    have hlt := (m.read a).isLt
    unfold Memory.readLE
    cases i with
    | zero => exact BitVec.eq_of_toNat_eq (by rw [BitVec.toNat_ofNat]; simp; omega)
    | succ i =>
      rw [pow_succ', ← Nat.div_div_eq_div_mul, show ((m.read a).toNat + 256 * m.readLE (a + 1) n) / 256 = m.readLE (a + 1) n by omega,
        ih (a + 1) (by omega), show a + 1 + i = a + (i + 1) by omega]

/-- Words of 8 bytes written one after another. -/
def Memory.writeWords (m : Memory) (a n : Nat) (f : Nat → Nat) : Memory :=
  (List.range n).foldl (fun (mm : Memory) i => mm.writeLE (a + 8 * i) 8 (f i)) m

theorem Memory.writeWords_succ (m : Memory) (a n : Nat) (f : Nat → Nat) :
    m.writeWords a (n + 1) f = (m.writeWords a n f).writeLE (a + 8 * n) 8 (f n) := by
  unfold Memory.writeWords
  rw [List.range_succ, List.foldl_append]
  rfl

theorem Memory.read_writeWords_of_out (m : Memory) (a n : Nat) (f : Nat → Nat) {x : Nat} (h : x < a ∨ a + 8 * n ≤ x) :
    (m.writeWords a n f).read x = m.read x := by
  induction n with
  | zero => rfl
  | succ n ih => rw [Memory.writeWords_succ, Memory.read_writeLE_of_out _ _ _ _ _ (by omega), ih (by omega)]

theorem Memory.read_writeWords_of_in (m : Memory) (a n : Nat) (f : Nat → Nat) {i : Nat} (h : i < 8 * n) :
    (m.writeWords a n f).read (a + i) = BitVec.ofNat 8 (f (i / 8) / 256 ^ (i % 8)) := by
  induction n with
  | zero => omega
  | succ n ih =>
    rw [Memory.writeWords_succ]
    by_cases hi : i < 8 * n
    · rw [Memory.read_writeLE_of_out _ _ _ _ _ (by omega), ih hi]
    · rw [show a + i = a + 8 * n + i % 8 by omega, show i / 8 = n by omega]
      exact Memory.read_writeLE_of_in _ _ _ _ _ (by omega)

/-! ### The code copied (R29) -/

/-- Each byte of the range is that of host memory. -/
theorem State.copyCode_read_of_in (s : State) (key dst host : Nat) {len i : Nat} (h8 : len % 8 = 0) (h : i < len) :
    Memory.read (s.copyCode key dst host len).mem (dst + i) = Memory.read s.hostMem (host + i) := by
  have hw : (s.copyCode key dst host len).mem = s.mem.writeWords dst (len / 8) fun i => s.hostMem.readLE (host + 8 * i) 8 := rfl
  rw [hw, Memory.read_writeWords_of_in _ _ _ _ (by omega), Memory.ofNat_readLE_div _ _ _ (by omega)]
  congr 1
  omega

theorem State.copyCode_read_of_out (s : State) (key dst host len : Nat) {a : Nat} (h : a < dst ∨ dst + len ≤ a) :
    Memory.read (s.copyCode key dst host len).mem a = Memory.read s.mem a :=
  Memory.read_writeWords_of_out _ dst (len / 8) _ (by omega)

/-- A range meets a device that is gone at one of the places looked at, one in every 2 KiB, or nowhere (R218). -/
theorem State.rangeGone_iff (s : State) (a len : Nat) :
    s.rangeGone a len = true ↔ ∃ i < len, s.memoryGone (a + i) = true := by
  have hdev {b c : Nat} (h : b / 2048 = c / 2048) : s.memoryGone b = s.memoryGone c := by
    have hg : gddrDevice b = gddrDevice c := by
      unfold gddrDevice
      rw [h, show b / 65536 = c / 65536 by omega]
    unfold State.memoryGone
    rw [hg]
  unfold State.rangeGone
  simp only [Bool.and_eq_true, decide_eq_true_eq, List.any_eq_true, List.mem_range]
  constructor
  · rintro ⟨hlen, k, -, hk⟩
    refine ⟨min (a + 2048 * k) (a + len - 1) - a, by omega, ?_⟩
    rwa [show a + (min (a + 2048 * k) (a + len - 1) - a) = min (a + 2048 * k) (a + len - 1) by omega]
  · rintro ⟨i, hi, hg⟩
    refine ⟨by omega, (a + i) / 2048 - a / 2048, by omega, ?_⟩
    rwa [hdev (c := a + i) (by omega)]

/-! ### Variants (R34) -/

/-- The variants of images that have none, from a first free byte on. -/
def variantsFrom : Nat → List (Nat × Nat) → List Variant
  | _, [] => []
  | b, i :: is =>
    { off := i.1, len := i.2, phys := 32768, base := b } :: { off := i.1, len := i.2, phys := 65536, base := b + i.2 } ::
      variantsFrom (b + 2 * i.2) is

/-- They stand one after another, each as long as its image. -/
theorem mem_variantsFrom {b : Nat} {is : List (Nat × Nat)} {v : Variant} (h : v ∈ variantsFrom b is) :
    b ≤ v.base ∧ v.base + v.len ≤ b + 2 * (is.map (·.2)).sum := by
  induction is generalizing b with
  | nil => nomatch h
  | cons i is ih =>
    rw [List.map_cons, List.sum_cons]
    obtain rfl | h := List.mem_cons.1 h
    · dsimp only; omega
    obtain rfl | h := List.mem_cons.1 h
    · dsimp only; omega
    · have := ih h
      omega

/-- Each image has one for either length. -/
theorem exists_variantsFrom (b : Nat) {is : List (Nat × Nat)} {i : Nat × Nat} (hi : i ∈ is) {ph : Nat} (hp : ph ∈ [32768, 65536]) :
    ∃ v ∈ variantsFrom b is, v.off = i.1 ∧ v.phys = ph ∧ v.len = i.2 := by
  induction is generalizing b with
  | nil => nomatch hi
  | cons j is ih =>
    obtain rfl | hi := List.mem_cons.1 hi
    · obtain rfl | hp := List.mem_cons.1 hp
      · exact ⟨_, .head _, rfl, rfl, rfl⟩
      · obtain rfl := List.mem_singleton.1 hp
        exact ⟨_, .tail _ (.head _), rfl, rfl, rfl⟩
    · obtain ⟨v, hv, h⟩ := ih (b + 2 * j.2) hi
      exact ⟨v, .tail _ (.tail _ hv), h⟩

/-- The first free byte after them. -/
theorem foldl_variantsFrom (b : Nat) (is : List (Nat × Nat)) :
    (variantsFrom b is).foldl (fun a v => max a (v.base + v.len)) b = b + 2 * (is.map (·.2)).sum := by
  induction is generalizing b with
  | nil => rfl
  | cons i is ih =>
    rw [variantsFrom, List.foldl_cons, List.foldl_cons, show max (max b (b + i.2)) (b + i.2 + i.2) = b + 2 * i.2 by omega, ih,
      List.map_cons, List.sum_cons]
    omega

/-- The images of a list that have no variant yet. -/
def Partition.unfused (p : Partition) (is : List (Nat × Nat)) : List (Nat × Nat) :=
  is.filter fun i => !p.variants.any fun v => v.off = i.1

/-- Every image of a list has its variants, those made anew after the others. -/
theorem Partition.foldl_addVariants {is : List (Nat × Nat)} (hnd : (is.map (·.1)).Nodup) (p : Partition) :
    is.foldl Partition.addVariants p = { p with variants := p.variants ++ variantsFrom p.transFree (p.unfused is) } := by
  induction is generalizing p with
  | nil => simp [Partition.unfused, variantsFrom]
  | cons i is ih =>
    obtain ⟨hi, hnd⟩ := List.nodup_cons.1 hnd
    rw [List.foldl_cons, ih hnd]
    unfold Partition.addVariants
    by_cases h : (p.variants.any fun v => v.off = i.1) = true
    · rw [if_pos h]
      unfold Partition.unfused
      rw [List.filter_cons_of_neg (by simp [h])]
    · have hfree : ({ p with variants := p.variants ++ p.newVariants i.1 i.2 } : Partition).transFree = p.transFree + 2 * i.2 := by
        unfold Partition.transFree Partition.newVariants
        rw [List.foldl_append, List.foldl_cons, List.foldl_cons, List.foldl_nil]
        unfold Partition.transFree
        dsimp only
        omega
      have hunf : ({ p with variants := p.variants ++ p.newVariants i.1 i.2 } : Partition).unfused is = p.unfused is := by
        refine List.filter_congr fun j hj => ?_
        have hne : i.1 ≠ j.1 := fun he => hi (List.mem_map.2 ⟨j, hj, he.symm⟩)
        simp [Partition.newVariants, hne]
      rw [if_neg h, hfree, hunf]
      unfold Partition.unfused
      rw [List.filter_cons_of_pos (by simpa using h), List.append_assoc]
      rfl

/-- Once they stand there, each image has a variant for either length: an old one, or one after all the old ones. -/
theorem Partition.exists_variant (p : Partition) {is : List (Nat × Nat)} {i : Nat × Nat} (hi : i ∈ is) {ph : Nat}
    (hp : ph ∈ [32768, 65536]) : ∃ v ∈ p.variants ++ variantsFrom p.transFree (p.unfused is), v.off = i.1 ∧
      (i ∈ p.unfused is → v.phys = ph ∧ v.len = i.2 ∧ v ∈ variantsFrom p.transFree (p.unfused is)) := by
  by_cases hf : i ∈ p.unfused is
  · obtain ⟨v, hv, hoff, hphys, hlen⟩ := exists_variantsFrom p.transFree hf hp
    exact ⟨v, List.mem_append_right _ hv, hoff, fun _ => ⟨hphys, hlen, hv⟩⟩
  · have hany : (p.variants.any fun v => v.off = i.1) = true := by
      by_contra hn
      exact hf (List.mem_filter.2 ⟨hi, by simpa using hn⟩)
    obtain ⟨v, hv, hoff⟩ := List.any_eq_true.1 hany
    exact ⟨v, List.mem_append_left _ hv, of_decide_eq_true hoff, fun h => absurd h hf⟩

/-- The first free byte lies in the arena or at its end, where every variant does, and after the code. -/
theorem Partition.transFree_le {p : Partition} (h : ∀ v ∈ p.variants, v.base + v.len ≤ p.arenaSize) : p.transFree ≤ p.arenaSize := by
  unfold Partition.transFree
  refine List.foldlRecOn (motive := fun n => n ≤ p.arenaSize) p.variants _ (Nat.sub_le _ _) fun n hn v hv => ?_
  have := h v hv
  omega

theorem Partition.le_transFree (p : Partition) : p.arenaSize - p.transSize ≤ p.transFree := by
  unfold Partition.transFree
  refine List.foldlRecOn (motive := fun n => p.arenaSize - p.transSize ≤ n) p.variants _ le_rfl fun n hn v _ => ?_
  omega

/-- The first free byte once the variants of some images stand after the others. -/
theorem Partition.transFree_variantsFrom (p : Partition) (is : List (Nat × Nat)) :
    ({ p with variants := p.variants ++ variantsFrom p.transFree is } : Partition).transFree = p.transFree + 2 * (is.map (·.2)).sum := by
  conv_lhs => unfold Partition.transFree
  rw [List.foldl_append]
  exact foldl_variantsFrom p.transFree is

/-- The variants written change device memory alone. -/
theorem State.foldl_writeVariant_state (p : Partition) (imgs : List (Nat × List Word)) (vs : List Variant) (s : State) :
    ∃ mem keys, vs.foldl (fun (u : State) v => u.writeVariant p imgs v) s = { s with mem := mem, keys := keys } := by
  induction vs generalizing s with
  | nil => exact ⟨s.mem, s.keys, rfl⟩
  | cons v vs ih => exact ih (s.writeVariant p imgs v)

/-- A byte outside every variant written reads as before. -/
theorem State.foldl_writeVariant_read {p : Partition} (imgs : List (Nat × List Word)) {vs : List Variant} (s : State) {a : Nat}
    (h : ∀ v ∈ vs, a < p.arenaBase + v.base ∨ p.arenaBase + (v.base + v.len) ≤ a) :
    Memory.read (vs.foldl (fun (u : State) v => u.writeVariant p imgs v) s).mem a = Memory.read s.mem a := by
  induction vs generalizing s with
  | nil => rfl
  | cons v vs ih =>
    rw [List.foldl_cons, ih _ fun w hw => h w (.tail _ hw)]
    have := h v (.head _)
    exact Memory.read_writeWords_of_out _ (p.arenaBase + v.base) (v.len / 8) _ (by omega)

/-! ### The partition after LOAD_CODE -/

/-- The images and variants of a partition once code has been loaded over a range: those that the range meets are gone. -/
def Partition.reloaded (p : Partition) (off len : Nat) : Partition :=
  let kept := p.images.filter fun i => !rangesMeet i (off, len)
  { p with
    images := if len = 0 then kept else kept ++ [(off, len)]
    variants := p.variants.filter fun v => kept.any fun i => i.1 = v.off }

theorem Partition.reloaded_images (p : Partition) (off len : Nat) : (p.reloaded off len).images =
    if len = 0 then p.images.filter fun i => !rangesMeet i (off, len)
    else (p.images.filter fun i => !rangesMeet i (off, len)) ++ [(off, len)] := rfl

theorem Partition.reloaded_variants (p : Partition) (off len : Nat) : (p.reloaded off len).variants =
    p.variants.filter fun v => (p.images.filter fun i => !rangesMeet i (off, len)).any fun i => i.1 = v.off := rfl

theorem Partition.reloaded_transFree (p : Partition) (off len : Nat) : (p.reloaded off len).transFree =
    (p.reloaded off len).variants.foldl (fun a v => max a (v.base + v.len)) (p.arenaSize - p.transSize) := rfl

/-- No two images begin at one place. -/
theorem Partition.reloaded_images_nodup {p : Partition} (hnd : (p.images.map (·.1)).Nodup) (hpos : ∀ i ∈ p.images, 0 < i.2)
    (off len : Nat) : ((p.reloaded off len).images.map (·.1)).Nodup := by
  have hkept : ((p.images.filter fun i => !rangesMeet i (off, len)).map (·.1)).Nodup := hnd.sublist (List.filter_sublist.map _)
  unfold Partition.reloaded
  dsimp only
  split
  · exact hkept
  · next hlen =>
    rw [List.map_append]
    refine List.nodup_append.2 ⟨hkept, List.nodup_singleton _, ?_⟩
    rintro a ha b hb rfl
    obtain ⟨i, hi, rfl⟩ := List.mem_map.1 ha
    obtain ⟨him, hmeet⟩ := List.mem_filter.1 hi
    have hoff : i.1 = off := List.mem_singleton.1 hb
    have := hpos i him
    simp only [rangesMeet, Bool.not_eq_true', Bool.and_eq_false_iff, decide_eq_false_iff_not] at hmeet
    omega

theorem Partition.le_reloaded_transFree (p : Partition) (off len : Nat) :
    p.arenaSize - p.transSize ≤ (p.reloaded off len).transFree := (p.reloaded off len).le_transFree

theorem Partition.reloaded_transFree_le {p : Partition} (h : ∀ v ∈ p.variants, v.base + v.len ≤ p.arenaSize) (off len : Nat) :
    (p.reloaded off len).transFree ≤ p.arenaSize :=
  Partition.transFree_le (p := p.reloaded off len) fun v hv => h v (List.mem_of_mem_filter hv)

/-- The partition with a variant of every image for both lengths where the arena holds a V = 1 kernel with an F level (R34). -/
def State.loadedPart (t : State) (p : Partition) (off host len : Nat) : Partition :=
  let p1 := p.reloaded off len
  if p1.images.any fun i => (t.copyCode p.memKey (p.arenaBase + off) host len).hasVirtual p i.1 i.2 then
    p1.images.foldl Partition.addVariants p1
  else p1

/-- The code copied and the new variants of a partition written. -/
def State.loaded (t : State) (p : Partition) (off host len : Nat) : State :=
  let t1 := t.copyCode p.memKey (p.arenaBase + off) host len
  let p1 := p.reloaded off len
  let p2 := t.loadedPart p off host len
  ((p2.variants.drop p1.variants.length).foldl (fun (u : State) v => u.writeVariant p (t1.imageWords p1) v) t1).mapPart p.pid fun _ => p2

/-- The arena holds a V = 1 kernel with an F level once the code is copied (R34). -/
def State.loadFuses (t : State) (p : Partition) (off host len : Nat) : Prop :=
  ∃ i ∈ (p.reloaded off len).images, (t.copyCode p.memKey (p.arenaBase + off) host len).hasVirtual p i.1 i.2 = true

/-- LOAD_CODE is refused (R17, R29; logs 28, 49). -/
def State.loadRefused (t : State) (p : Partition) (off len : Nat) : Prop :=
  off % 8 ≠ 0 ∨ len % 8 ≠ 0 ∨ p.arenaSize - p.transSize < off + len ∨ t.codeInUse p.pid (off, len) = true ∨
    t.rangeGone (p.arenaBase + off) len = true

section
variable {s : State} {m : Msg} {x : Session} {p : Partition} (h : s.Accepts m 4 [(0, 1), (4, 20)] [] x)
  (hp : (s.heard x.num m.path).ownPart x (payload m 0 1) = some p)
include h hp

theorem exec_loadCode_refused (hr : (s.heard x.num m.path).loadRefused p (payload m 4 4) (payload m 16 8)) :
    exec (.loadCode m) s = .next ((s.heard x.num m.path).answer m 4 []) := by
  show execLoadCode m s = _
  unfold execLoadCode State.onPart
  rw [request_accepts h, hp]
  exact congrArg Host.Outcome.next (if_pos hr)

theorem exec_loadCode_full (hr : ¬(s.heard x.num m.path).loadRefused p (payload m 4 4) (payload m 16 8))
    (hn : p.arenaSize < ((s.heard x.num m.path).loadedPart p (payload m 4 4) (payload m 8 8) (payload m 16 8)).transFree) :
    exec (.loadCode m) s = .next ((s.heard x.num m.path).answer m 4 []) := by
  show execLoadCode m s = _
  unfold execLoadCode State.onPart
  rw [request_accepts h, hp]
  exact congrArg Host.Outcome.next ((if_neg hr).trans (if_pos hn))

theorem exec_loadCode_loads (hr : ¬(s.heard x.num m.path).loadRefused p (payload m 4 4) (payload m 16 8))
    (hn : ((s.heard x.num m.path).loadedPart p (payload m 4 4) (payload m 8 8) (payload m 16 8)).transFree ≤ p.arenaSize) :
    exec (.loadCode m) s =
      .next (((s.heard x.num m.path).loaded p (payload m 4 4) (payload m 8 8) (payload m 16 8)).answer m 0 []) := by
  show execLoadCode m s = _
  unfold execLoadCode State.onPart
  rw [request_accepts h, hp]
  exact congrArg Host.Outcome.next ((if_neg hr).trans (if_neg (not_lt.2 hn)))

end

/-- Where the arena holds such a kernel, the variants made are those of the images that have none. -/
theorem State.loadedPart_of_fused {t : State} {p : Partition} {off host len : Nat}
    (hf : t.loadFuses p off host len)
    (hnd : (p.images.map (·.1)).Nodup) (hpos : ∀ i ∈ p.images, 0 < i.2) :
    t.loadedPart p off host len = { p.reloaded off len with
      variants := (p.reloaded off len).variants ++
        variantsFrom (p.reloaded off len).transFree ((p.reloaded off len).unfused (p.reloaded off len).images) } := by
  unfold State.loadedPart
  rw [if_pos (List.any_eq_true.2 hf), Partition.foldl_addVariants (Partition.reloaded_images_nodup hnd hpos off len)]

/-- Elsewhere none is made. -/
theorem State.loadedPart_of_not_fused {t : State} {p : Partition} {off host len : Nat}
    (hf : ¬t.loadFuses p off host len) :
    t.loadedPart p off host len = p.reloaded off len := if_neg fun h => hf (List.any_eq_true.1 h)

/-- What loading code with new variants after it leaves: the bytes of host memory in the range, every other byte outside those
variants, and the partition. -/
theorem State.loaded_spec {t : State} {p : Partition} {off host len : Nat} {new : List Variant}
    (h2 : t.loadedPart p off host len = { p.reloaded off len with variants := (p.reloaded off len).variants ++ new })
    (h8 : len % 8 = 0) (hafter : ∀ v ∈ new, off + len ≤ v.base) :
    let u := t.loaded p off host len
    (∃ mem keys parts, u = { t with mem := mem, keys := keys, parts := parts }) ∧
    (∀ i < len, Memory.read u.mem (p.arenaBase + off + i) = Memory.read t.hostMem (host + i)) ∧
    (∀ a, (a < p.arenaBase + off ∨ p.arenaBase + off + len ≤ a) →
      (∀ v ∈ new, a < p.arenaBase + v.base ∨ p.arenaBase + (v.base + v.len) ≤ a) → Memory.read u.mem a = Memory.read t.mem a) ∧
    ∀ q ∈ u.parts, q.pid = p.pid → q = { p.reloaded off len with variants := (p.reloaded off len).variants ++ new } := by
  intro u
  have hu : u = ((new.foldl (fun (v : State) w =>
      v.writeVariant p ((t.copyCode p.memKey (p.arenaBase + off) host len).imageWords (p.reloaded off len)) w)
      (t.copyCode p.memKey (p.arenaBase + off) host len)).mapPart p.pid fun _ =>
        { p.reloaded off len with variants := (p.reloaded off len).variants ++ new }) := by
    show State.loaded _ _ _ _ _ = _
    unfold State.loaded
    dsimp only
    rw [h2, List.drop_left]
  rw [hu]
  refine ⟨?state, fun i hi => ?inside, fun a ha hv => ?outside, fun q hq hpid => ?part⟩
  case state =>
    obtain ⟨mem, keys, h⟩ := State.foldl_writeVariant_state p
      ((t.copyCode p.memKey (p.arenaBase + off) host len).imageWords (p.reloaded off len)) new
      (t.copyCode p.memKey (p.arenaBase + off) host len)
    rw [h]
    exact ⟨mem, keys, _, rfl⟩
  case inside =>
    rw [State.mapPart_mem, State.foldl_writeVariant_read _ _ fun v hv => .inl (by have := hafter v hv; omega)]
    exact t.copyCode_read_of_in _ _ _ h8 hi
  case outside =>
    rw [State.mapPart_mem, State.foldl_writeVariant_read _ _ hv]
    exact t.copyCode_read_of_out _ _ _ _ ha
  case part =>
    obtain ⟨r, -, rfl⟩ := List.mem_map.1 hq
    split
    · rfl
    · next hr => rw [if_neg hr] at hpid; exact absurd hpid hr

/-- Code loaded with the variants of every image: those made anew stand one after another in the translation area, and a byte
outside the code and what was free there is as before. -/
theorem State.loaded_fused {t : State} {p : Partition} {off host len : Nat} (h8 : len % 8 = 0)
    (hfit : off + len ≤ p.arenaSize - p.transSize) (hf : t.loadFuses p off host len) (hnd : (p.images.map (·.1)).Nodup)
    (hpos : ∀ i ∈ p.images, 0 < i.2) {is : List (Nat × Nat)} (his : (p.reloaded off len).images = is)
    (hroom : (p.reloaded off len).transFree + 2 * (((p.reloaded off len).unfused is).map (·.2)).sum ≤ p.arenaSize) :
    let u := t.loaded p off host len
    (∃ mem keys parts, u = { t with mem := mem, keys := keys, parts := parts }) ∧
    (∀ i < len, Memory.read u.mem (p.arenaBase + off + i) = Memory.read t.hostMem (host + i)) ∧
    (∀ a, (a < p.arenaBase + off ∨ p.arenaBase + off + len ≤ a) →
      (a < p.arenaBase + (p.reloaded off len).transFree ∨ p.arenaBase + p.arenaSize ≤ a) → Memory.read u.mem a = Memory.read t.mem a) ∧
    ∀ q ∈ u.parts, q.pid = p.pid → q.images = is ∧ ∀ i ∈ q.images, ∀ ph ∈ [32768, 65536], ∃ v ∈ q.variants, v.off = i.1 ∧
      (i ∈ (p.reloaded off len).unfused is → v.phys = ph ∧ v.len = i.2 ∧ (p.reloaded off len).transFree ≤ v.base ∧
        v.base + v.len ≤ p.arenaSize) := by
  have h2 := State.loadedPart_of_fused hf hnd hpos
  rw [his] at h2
  have hbound : ∀ v ∈ variantsFrom (p.reloaded off len).transFree ((p.reloaded off len).unfused is),
      (p.reloaded off len).transFree ≤ v.base ∧ v.base + v.len ≤ p.arenaSize :=
    fun v hv => ⟨(mem_variantsFrom hv).1, (mem_variantsFrom hv).2.trans hroom⟩
  have hstart := p.le_reloaded_transFree off len
  obtain ⟨hstate, hin, hout, hpart⟩ := State.loaded_spec h2 h8 fun v hv => (hfit.trans hstart).trans (hbound v hv).1
  refine ⟨hstate, hin, fun a ha hfree => hout a ha fun v hv => ?_, fun q hq hpid => ?_⟩
  · have := hbound v hv
    omega
  · rw [hpart q hq hpid]
    refine ⟨his, fun i hi ph hph => ?_⟩
    have hmem : i ∈ is := by rw [← his]; exact hi
    obtain ⟨v, hv, hoff, hnew⟩ := (p.reloaded off len).exists_variant hmem hph
    refine ⟨v, hv, hoff, fun hfresh => ?_⟩
    obtain ⟨hphys, hlen, hvm⟩ := hnew hfresh
    exact ⟨hphys, hlen, hbound v hvm⟩

/-- Code loaded into an arena without such a kernel: every other byte is as before, and the partition keeps the variants it has. -/
theorem State.loaded_plain {t : State} {p : Partition} {off host len : Nat} (h8 : len % 8 = 0) (hf : ¬t.loadFuses p off host len) :
    let u := t.loaded p off host len
    (∃ mem keys parts, u = { t with mem := mem, keys := keys, parts := parts }) ∧
    (∀ i < len, Memory.read u.mem (p.arenaBase + off + i) = Memory.read t.hostMem (host + i)) ∧
    (∀ a, a < p.arenaBase + off ∨ p.arenaBase + off + len ≤ a → Memory.read u.mem a = Memory.read t.mem a) ∧
    ∀ q ∈ u.parts, q.pid = p.pid → q = p.reloaded off len := by
  have h2 : t.loadedPart p off host len = { p.reloaded off len with variants := (p.reloaded off len).variants ++ [] } := by
    rw [State.loadedPart_of_not_fused hf, List.append_nil]
  obtain ⟨hstate, hin, hout, hpart⟩ := State.loaded_spec h2 h8 nofun
  refine ⟨hstate, hin, fun a ha => hout a ha nofun, fun q hq hpid => ?_⟩
  rw [hpart q hq hpid, List.append_nil]

/-! ### The obligation -/

/-- Settles O49: CREATE_PARTITION and LOAD_CODE, each in its cases. -/
theorem partitionResults : Obligations.PartitionResults := by
  unfold Obligations.PartitionResults
  refine ⟨fun m s x h => ?create, fun m s x p h => ?load⟩
  case create =>
    intro t first count mask answers
    have hanswer (n : Nat) := congrArg (Host.Outcome.next : State → Out) (h.answer_eq t n [])
    refine ⟨fun hr => (exec_createPartition_refused h hr).trans (hanswer 4),
      fun hr hg => (exec_createPartition_denied h hr hg).trans (hanswer 2),
      fun hr hg hf => (exec_createPartition_noSpace h hr hg hf).trans (hanswer 3), fun pid hr hg hf => ?_⟩
    obtain ⟨mem, keys, hostMem, tlb, free, hexec⟩ := exec_createPartition_granted h hr hg hf
    refine ⟨_, t.createdPartition m x pid, hexec, rfl, rfl, rfl, rfl, rfl, rfl, rfl, rfl, rfl, rfl, rfl, rfl, rfl,
      rfl, rfl, rfl, fun i hi => ?_, fun core sid hl hu => ?_, fun core a hl hu ha => ?_, fun i => ?_⟩
    · exact ⟨_, State.mem_withQueues _ pid hi, rfl, rfl, rfl, rfl⟩
    · exact State.mem_freshStrands _ pid sid hl hu
    · exact State.zeroLarders_read _ hl hu ha
    · exact Vector.getElem_ofFn i.isLt
  case load =>
    intro t hp off len host refused refuses kept old images fresh free needs fused sound
    have hanswer (u : State) (n : Nat) := congrArg (Host.Outcome.next : State → Out) (h.answer_eq u n [])
    have hrefused (hr : t.loadRefused p off len) : refuses := (exec_loadCode_refused h hp hr).trans (hanswer t 4)
    have hfull (hr : ¬t.loadRefused p off len) (hn : p.arenaSize < (t.loadedPart p off host len).transFree) : refuses :=
      (exec_loadCode_full h hp hr hn).trans (hanswer t 4)
    have hloads (hr : ¬t.loadRefused p off len) (hn : (t.loadedPart p off host len).transFree ≤ p.arenaSize) :=
      (exec_loadCode_loads h hp hr hn).trans (hanswer (t.loaded p off host len) 0)
    clear_value off len host
    have href : refused ↔ t.loadRefused p off len := by
      unfold State.loadRefused
      rw [State.rangeGone_iff]
    have himages : (p.reloaded off len).images = images := p.reloaded_images off len
    have hold : (p.reloaded off len).variants = old := p.reloaded_variants off len
    have hfree : (p.reloaded off len).transFree = free := by rw [p.reloaded_transFree, hold]
    have hfresh : (p.reloaded off len).unfused images = fresh := by unfold Partition.unfused; rw [hold]
    have hfused : t.loadFuses p off host len ↔ fused := by unfold State.loadFuses; rw [himages]
    have hlen8 (hr : ¬refused) : len % 8 = 0 := by_contra fun hn => hr (Or.inr (Or.inl hn))
    have hfit (hr : ¬refused) : off + len ≤ p.arenaSize - p.transSize := not_lt.1 fun hn => hr (Or.inr (Or.inr (Or.inl hn)))
    have hneeds (hf : fused) (hs : sound) : (t.loadedPart p off host len).transFree = needs := by
      obtain ⟨hnd, hpos, -⟩ := hs
      rw [State.loadedPart_of_fused (hfused.2 hf) hnd hpos, Partition.transFree_variantsFrom, hfree, himages, hfresh]
    refine ⟨fun hr => hrefused (href.1 hr), fun hr hf hs hover => hfull (mt href.2 hr) (by rw [hneeds hf hs]; exact hover),
      fun hr hf hs hroom => ?fits, fun hr hs hf => ?plain⟩
    case fits =>
      obtain ⟨hnd, hpos, -⟩ := id hs
      obtain ⟨⟨mem, keys, parts, hu⟩, hin, hout, hpart⟩ := State.loaded_fused (hlen8 hr) (hfit hr) (hfused.2 hf) hnd hpos himages
        (by rw [hfree, hfresh]; exact hroom)
      rw [hfree] at hout
      rw [hfree, hfresh] at hpart
      exact ⟨_, hloads (mt href.2 hr) (by rw [hneeds hf hs]; exact hroom), by rw [hu], by rw [hu]; rfl, by rw [hu]; rfl, hin, hout, hpart⟩
    case plain =>
      obtain ⟨-, -, hvars⟩ := hs
      have hplain := mt hfused.1 hf
      obtain ⟨⟨mem, keys, parts, hu⟩, hin, hout, hpart⟩ := State.loaded_plain (hlen8 hr) hplain
      refine ⟨_, hloads (mt href.2 hr) ?_, by rw [hu], hin, hout, fun q hq hpid => ?_, by rw [hu]; rfl, by rw [hu]; rfl⟩
      · rw [State.loadedPart_of_not_fused hplain]
        exact Partition.reloaded_transFree_le hvars off len
      · rw [hpart q hq hpid]
        exact ⟨himages, hold⟩

end Sys2Proof.Machine
end

section
/-! O1 and O2: words decoded, and every word read back as the instruction it was written from (R58, R64, R70). -/

namespace Sys2Proof.Machine

open Sys2Proof.Laws

/-- Settles O1: each word is decoded. -/
theorem specWordsDecode : Obligations.SpecWordsDecode := by
  unfold Obligations.SpecWordsDecode
  and_intros <;> rfl

/-- Settles O2: an instruction that has a word by the round trip of its own word; a packet or an event has none to read back. -/
theorem everyWordDecodesToItsInstruction : Obligations.EveryWordDecodesToItsInstruction := by
  unfold Obligations.EveryWordDecodesToItsInstruction
  intro i
  cases i with
  | add o => exact RoundTrip.add o | sub o => exact RoundTrip.sub o | and o => exact RoundTrip.and o
  | or o => exact RoundTrip.or o | xor o => exact RoundTrip.xor o | andn o => exact RoundTrip.andn o
  | shl o => exact RoundTrip.shl o | shr o => exact RoundTrip.shr o | sha o => exact RoundTrip.sha o
  | min o => exact RoundTrip.min o | max o => exact RoundTrip.max o | minn o => exact RoundTrip.minn o
  | maxn o => exact RoundTrip.maxn o | slt o => exact RoundTrip.slt o | sltn o => exact RoundTrip.sltn o
  | mul o => exact RoundTrip.mul o | mulh o => exact RoundTrip.mulh o | mulhn o => exact RoundTrip.mulhn o
  | div o => exact RoundTrip.div o | divn o => exact RoundTrip.divn o | rem o => exact RoundTrip.rem o
  | remn o => exact RoundTrip.remn o | clz o => exact RoundTrip.clz o | ctz o => exact RoundTrip.ctz o
  | popc o => exact RoundTrip.popc o | addi o => exact RoundTrip.addi o | andi o => exact RoundTrip.andi o
  | ori o => exact RoundTrip.ori o | xori o => exact RoundTrip.xori o | slti o => exact RoundTrip.slti o
  | sltni o => exact RoundTrip.sltni o | shli o => exact RoundTrip.shli o | shri o => exact RoundTrip.shri o
  | shai o => exact RoundTrip.shai o | lui o => exact RoundTrip.lui o | adpc o => exact RoundTrip.adpc o
  | ld8 o => exact RoundTrip.ld8 o | ld16 o => exact RoundTrip.ld16 o | ld32 o => exact RoundTrip.ld32 o
  | ld64 o => exact RoundTrip.ld64 o | ldn8 o => exact RoundTrip.ldn8 o | ldn16 o => exact RoundTrip.ldn16 o
  | ldn32 o => exact RoundTrip.ldn32 o | st8 o => exact RoundTrip.st8 o | st16 o => exact RoundTrip.st16 o
  | st32 o => exact RoundTrip.st32 o | st64 o => exact RoundTrip.st64 o | amoAdd o => exact RoundTrip.amoAdd o
  | amoSwap o => exact RoundTrip.amoSwap o | amoAnd o => exact RoundTrip.amoAnd o | amoOr o => exact RoundTrip.amoOr o
  | amoXor o => exact RoundTrip.amoXor o | amoMin o => exact RoundTrip.amoMin o | amoMax o => exact RoundTrip.amoMax o
  | amoMinn o => exact RoundTrip.amoMinn o | amoMaxn o => exact RoundTrip.amoMaxn o
  | amoCas o => exact RoundTrip.amoCas o | claim o => exact RoundTrip.claim o | beq o => exact RoundTrip.beq o
  | bne o => exact RoundTrip.bne o | blt o => exact RoundTrip.blt o | bge o => exact RoundTrip.bge o
  | bltn o => exact RoundTrip.bltn o | bgen o => exact RoundTrip.bgen o | jal o => exact RoundTrip.jal o
  | jalr o => exact RoundTrip.jalr o | fadd o => exact RoundTrip.fadd o | fsub o => exact RoundTrip.fsub o
  | fmul o => exact RoundTrip.fmul o | fdiv o => exact RoundTrip.fdiv o | fsqrt o => exact RoundTrip.fsqrt o
  | fmin o => exact RoundTrip.fmin o | fmax o => exact RoundTrip.fmax o | feq o => exact RoundTrip.feq o
  | flt o => exact RoundTrip.flt o | fle o => exact RoundTrip.fle o | fclass o => exact RoundTrip.fclass o
  | fsgnj o => exact RoundTrip.fsgnj o | fsgnjn o => exact RoundTrip.fsgnjn o | fcvtfi o => exact RoundTrip.fcvtfi o
  | fcvtif o => exact RoundTrip.fcvtif o | fcvtff o => exact RoundTrip.fcvtff o | fma o => exact RoundTrip.fma o
  | fms o => exact RoundTrip.fms o | fnma o => exact RoundTrip.fnma o | fnms o => exact RoundTrip.fnms o
  | csrget o => exact RoundTrip.csrget o | csrput o => exact RoundTrip.csrput o
  | csrswap o => exact RoundTrip.csrswap o | csrset o => exact RoundTrip.csrset o
  | csrclr o => exact RoundTrip.csrclr o | fence o => exact RoundTrip.fence o | syscall => exact RoundTrip.syscall
  | trapret => exact RoundTrip.trapret | resume o => exact RoundTrip.resume o | track => exact RoundTrip.track
  | yield => exact RoundTrip.yield | halt => exact RoundTrip.halt | waitev o => exact RoundTrip.waitev o
  | invtlb o => exact RoundTrip.invtlb o | ebreak => exact RoundTrip.ebreak | cache o => exact RoundTrip.cache o
  | setvl o => exact RoundTrip.setvl o | setvt o => exact RoundTrip.setvt o | vconfig o => exact RoundTrip.vconfig o
  | setvlf o => exact RoundTrip.setvlf o | menter => exact RoundTrip.menter | mexit => exact RoundTrip.mexit
  | vaddVV o => exact RoundTrip.vaddVV o | vaddVS o => exact RoundTrip.vaddVS o | vaddVI o => exact RoundTrip.vaddVI o
  | vsubVV o => exact RoundTrip.vsubVV o | vsubVS o => exact RoundTrip.vsubVS o | vsubVI o => exact RoundTrip.vsubVI o
  | vandVV o => exact RoundTrip.vandVV o | vandVS o => exact RoundTrip.vandVS o | vandVI o => exact RoundTrip.vandVI o
  | vorVV o => exact RoundTrip.vorVV o | vorVS o => exact RoundTrip.vorVS o | vorVI o => exact RoundTrip.vorVI o
  | vxorVV o => exact RoundTrip.vxorVV o | vxorVS o => exact RoundTrip.vxorVS o | vxorVI o => exact RoundTrip.vxorVI o
  | vshlVV o => exact RoundTrip.vshlVV o | vshlVS o => exact RoundTrip.vshlVS o | vshlVI o => exact RoundTrip.vshlVI o
  | vshrVV o => exact RoundTrip.vshrVV o | vshrVS o => exact RoundTrip.vshrVS o | vshrVI o => exact RoundTrip.vshrVI o
  | vshaVV o => exact RoundTrip.vshaVV o | vshaVS o => exact RoundTrip.vshaVS o | vshaVI o => exact RoundTrip.vshaVI o
  | vminVV o => exact RoundTrip.vminVV o | vminVS o => exact RoundTrip.vminVS o | vminVI o => exact RoundTrip.vminVI o
  | vmaxVV o => exact RoundTrip.vmaxVV o | vmaxVS o => exact RoundTrip.vmaxVS o | vmaxVI o => exact RoundTrip.vmaxVI o
  | vminnVV o => exact RoundTrip.vminnVV o | vminnVS o => exact RoundTrip.vminnVS o
  | vminnVI o => exact RoundTrip.vminnVI o | vmaxnVV o => exact RoundTrip.vmaxnVV o
  | vmaxnVS o => exact RoundTrip.vmaxnVS o | vmaxnVI o => exact RoundTrip.vmaxnVI o
  | vmulVV o => exact RoundTrip.vmulVV o | vmulVS o => exact RoundTrip.vmulVS o
  | vmulhVV o => exact RoundTrip.vmulhVV o | vmulhVS o => exact RoundTrip.vmulhVS o
  | vmulhnVV o => exact RoundTrip.vmulhnVV o | vmulhnVS o => exact RoundTrip.vmulhnVS o
  | vdivVV o => exact RoundTrip.vdivVV o | vdivVS o => exact RoundTrip.vdivVS o
  | vdivnVV o => exact RoundTrip.vdivnVV o | vdivnVS o => exact RoundTrip.vdivnVS o
  | vremVV o => exact RoundTrip.vremVV o | vremVS o => exact RoundTrip.vremVS o
  | vremnVV o => exact RoundTrip.vremnVV o | vremnVS o => exact RoundTrip.vremnVS o
  | vmaccVV o => exact RoundTrip.vmaccVV o | vmaccVS o => exact RoundTrip.vmaccVS o
  | vmergeVV o => exact RoundTrip.vmergeVV o | vmergeVS o => exact RoundTrip.vmergeVS o
  | vmergeVI o => exact RoundTrip.vmergeVI o | vmvVV o => exact RoundTrip.vmvVV o | vmvVS o => exact RoundTrip.vmvVS o
  | vmvVI o => exact RoundTrip.vmvVI o | vaddsVV o => exact RoundTrip.vaddsVV o
  | vaddsVS o => exact RoundTrip.vaddsVS o | vaddsVI o => exact RoundTrip.vaddsVI o
  | vsubsVV o => exact RoundTrip.vsubsVV o | vsubsVS o => exact RoundTrip.vsubsVS o
  | vsubsVI o => exact RoundTrip.vsubsVI o | vaddsnVV o => exact RoundTrip.vaddsnVV o
  | vaddsnVS o => exact RoundTrip.vaddsnVS o | vaddsnVI o => exact RoundTrip.vaddsnVI o
  | vsubsnVV o => exact RoundTrip.vsubsnVV o | vsubsnVS o => exact RoundTrip.vsubsnVS o
  | vsubsnVI o => exact RoundTrip.vsubsnVI o | vavgVV o => exact RoundTrip.vavgVV o
  | vavgVS o => exact RoundTrip.vavgVS o | vsmulVV o => exact RoundTrip.vsmulVV o
  | vsmulVS o => exact RoundTrip.vsmulVS o | vsshrVV o => exact RoundTrip.vsshrVV o
  | vsshrVS o => exact RoundTrip.vsshrVS o | vsshrVI o => exact RoundTrip.vsshrVI o
  | vwaddVV o => exact RoundTrip.vwaddVV o | vwaddVS o => exact RoundTrip.vwaddVS o
  | vwaddnVV o => exact RoundTrip.vwaddnVV o | vwaddnVS o => exact RoundTrip.vwaddnVS o
  | vwmulVV o => exact RoundTrip.vwmulVV o | vwmulVS o => exact RoundTrip.vwmulVS o
  | vwmulnVV o => exact RoundTrip.vwmulnVV o | vwmulnVS o => exact RoundTrip.vwmulnVS o
  | vwmaccVV o => exact RoundTrip.vwmaccVV o | vwmaccVS o => exact RoundTrip.vwmaccVS o
  | vwmaccnVV o => exact RoundTrip.vwmaccnVV o | vwmaccnVS o => exact RoundTrip.vwmaccnVS o
  | vnshrVV o => exact RoundTrip.vnshrVV o | vnshrVS o => exact RoundTrip.vnshrVS o
  | vnshrVI o => exact RoundTrip.vnshrVI o | vnclipVV o => exact RoundTrip.vnclipVV o
  | vnclipVS o => exact RoundTrip.vnclipVS o | vnclipVI o => exact RoundTrip.vnclipVI o
  | vnclipnVV o => exact RoundTrip.vnclipnVV o | vnclipnVS o => exact RoundTrip.vnclipnVS o
  | vnclipnVI o => exact RoundTrip.vnclipnVI o | vcmpVV o => exact RoundTrip.vcmpVV o
  | vcmpVS o => exact RoundTrip.vcmpVS o | vcmpVI o => exact RoundTrip.vcmpVI o | mand o => exact RoundTrip.mand o
  | mor o => exact RoundTrip.mor o | mxor o => exact RoundTrip.mxor o | mandn o => exact RoundTrip.mandn o
  | mnot o => exact RoundTrip.mnot o | morx o => exact RoundTrip.morx o | mori o => exact RoundTrip.mori o
  | mcnt o => exact RoundTrip.mcnt o | mlow o => exact RoundTrip.mlow o | mcum o => exact RoundTrip.mcum o
  | vseq o => exact RoundTrip.vseq o | vconfl o => exact RoundTrip.vconfl o | mmovf o => exact RoundTrip.mmovf o
  | vslideup o => exact RoundTrip.vslideup o | vslidedn o => exact RoundTrip.vslidedn o
  | vpermv o => exact RoundTrip.vpermv o | vcompress o => exact RoundTrip.vcompress o
  | vmvxs o => exact RoundTrip.vmvxs o | vmvsx o => exact RoundTrip.vmvsx o | vbcast o => exact RoundTrip.vbcast o
  | vwhile o => exact RoundTrip.vwhile o | vwhilem o => exact RoundTrip.vwhilem o
  | vfaddVV o => exact RoundTrip.vfaddVV o | vfaddVS o => exact RoundTrip.vfaddVS o
  | vfsubVV o => exact RoundTrip.vfsubVV o | vfsubVS o => exact RoundTrip.vfsubVS o
  | vfmulVV o => exact RoundTrip.vfmulVV o | vfmulVS o => exact RoundTrip.vfmulVS o
  | vfdivVV o => exact RoundTrip.vfdivVV o | vfdivVS o => exact RoundTrip.vfdivVS o
  | vfsqrt o => exact RoundTrip.vfsqrt o | vfminVV o => exact RoundTrip.vfminVV o
  | vfminVS o => exact RoundTrip.vfminVS o | vfmaxVV o => exact RoundTrip.vfmaxVV o
  | vfmaxVS o => exact RoundTrip.vfmaxVS o | vfmaVV o => exact RoundTrip.vfmaVV o
  | vfmaVS o => exact RoundTrip.vfmaVS o | vfmsVV o => exact RoundTrip.vfmsVV o | vfmsVS o => exact RoundTrip.vfmsVS o
  | vfnmaVV o => exact RoundTrip.vfnmaVV o | vfnmaVS o => exact RoundTrip.vfnmaVS o
  | vfwmaVV o => exact RoundTrip.vfwmaVV o | vfwmaVS o => exact RoundTrip.vfwmaVS o
  | vfsgnVV o => exact RoundTrip.vfsgnVV o | vfsgnVS o => exact RoundTrip.vfsgnVS o
  | vfsgnnVV o => exact RoundTrip.vfsgnnVV o | vfsgnnVS o => exact RoundTrip.vfsgnnVS o
  | vfclass o => exact RoundTrip.vfclass o | vfexp2 o => exact RoundTrip.vfexp2 o | vfrcp o => exact RoundTrip.vfrcp o
  | vfrsqrt o => exact RoundTrip.vfrsqrt o | vfcmpVV o => exact RoundTrip.vfcmpVV o
  | vfcmpVS o => exact RoundTrip.vfcmpVS o | vfcvt o => exact RoundTrip.vfcvt o
  | vredsum o => exact RoundTrip.vredsum o | vredmin o => exact RoundTrip.vredmin o
  | vredmax o => exact RoundTrip.vredmax o | vredand o => exact RoundTrip.vredand o
  | vredor o => exact RoundTrip.vredor o | vredxor o => exact RoundTrip.vredxor o
  | vwredsum o => exact RoundTrip.vwredsum o | vfredsum o => exact RoundTrip.vfredsum o
  | vfredosum o => exact RoundTrip.vfredosum o | vfredmin o => exact RoundTrip.vfredmin o
  | vfredmax o => exact RoundTrip.vfredmax o | vscan o => exact RoundTrip.vscan o
  | vfscan o => exact RoundTrip.vfscan o | vld o => exact RoundTrip.vld o | vlds o => exact RoundTrip.vlds o
  | vldx o => exact RoundTrip.vldx o | vldseg o => exact RoundTrip.vldseg o | vldff o => exact RoundTrip.vldff o
  | vst o => exact RoundTrip.vst o | vsts o => exact RoundTrip.vsts o | vstx o => exact RoundTrip.vstx o
  | vstseg o => exact RoundTrip.vstseg o | vscadd o => exact RoundTrip.vscadd o | vwait o => exact RoundTrip.vwait o
  | stcfg o => exact RoundTrip.stcfg o | stbind o => exact RoundTrip.stbind o
  | stunbind o => exact RoundTrip.stunbind o | ststat o => exact RoundTrip.ststat o
  | qcopy o => exact RoundTrip.qcopy o | qgather o => exact RoundTrip.qgather o
  | qscatter o => exact RoundTrip.qscatter o | qpload o => exact RoundTrip.qpload o
  | qpstore o => exact RoundTrip.qpstore o | qspload o => exact RoundTrip.qspload o
  | qfence o => exact RoundTrip.qfence o | qsignal o => exact RoundTrip.qsignal o | qstat o => exact RoundTrip.qstat o
  | mzero o => exact RoundTrip.mzero o | mupd o => exact RoundTrip.mupd o | mupdn o => exact RoundTrip.mupdn o
  | mmac o => exact RoundTrip.mmac o | mread o => exact RoundTrip.mread o | mwrite o => exact RoundTrip.mwrite o
  | mscl o => exact RoundTrip.mscl o | mzpt o => exact RoundTrip.mzpt o | mstat o => exact RoundTrip.mstat o
  | spmmac o => exact RoundTrip.spmmac o | spres o => exact RoundTrip.spres o | spstat o => exact RoundTrip.spstat o
  | vsave o => exact RoundTrip.vsave o | vrestore o => exact RoundTrip.vrestore o | portq o => exact RoundTrip.portq o
  | portsw o => exact RoundTrip.portsw o
  | _ => exact fun _ _ => trivial

end Sys2Proof.Machine
end


section
/-! The decode checks of a 64-bit word in the order of Table 4-19, the frame in which every word executes, the registers of the
words of Table 9-6; and O19, assembled from them. -/

namespace Sys2Proof.Machine

/-! ### The decode checks of a word (Table 4-19) -/

/-- A group of registers reaches past vnreg or starts at no multiple of its size (R71, R115). -/
def RegUse.Misplaced (u : RegUse) (vnreg : Nat) : Prop := vnreg < u.r.toNat + u.n ∨ u.r.toNat % u.n ≠ 0

theorem RegUse.not_ok_iff (u : RegUse) (vnreg : Nat) : (!u.ok vnreg) = true ↔ u.Misplaced vnreg := by
  simp only [RegUse.ok, RegUse.Misplaced, Bool.not_and, Bool.or_eq_true, Bool.not_eq_true', decide_eq_false_iff_not]
  omega

theorem Strand.illegalRegs_iff (c : Strand) (w : WordInfo) : c.illegalRegs w = true ↔
    w.clash = true ∨ ∃ u ∈ w.srcs ++ w.dsts, u.Misplaced c.vec.vnreg := by
  simp only [Strand.illegalRegs, WordInfo.uses, Bool.or_eq_true, List.any_eq_true, RegUse.not_ok_iff]

theorem Strand.privFails_iff (c : Strand) (w : WordInfo) : c.privFails w = true ↔ w.priv = true ∧ c.level = .a := by
  simp [Strand.privFails]

theorem Strand.lanes_eq_zero_iff (c : Strand) : c.lanes = 0 ↔ c.lanegrant = 0 :=
  (by decide : ∀ g : BitVec 8, laneCount g = 0 ↔ g = 0) c.lanegrant

/-- A word reaches past v31. -/
def WordInfo.High (w : WordInfo) : Prop := ∃ u ∈ w.srcs ++ w.dsts, 32 < u.r.toNat + u.n

/-- A word does not belong to the strand's mode (R172, R193, R236, R277). -/
def Strand.OtherMode (c : Strand) (w : WordInfo) : Prop :=
  match w.mode with
  | .vector => c.vec.mmode = true
  | .either => c.vec.mmode = true ∧ w.High
  | .matrix => c.vec.mmode = false ∨ w.High
  | .never => True

theorem Strand.modeFails_iff (c : Strand) (w : WordInfo) : c.modeFails w = true ↔
    (w.lanes = true ∧ c.lanegrant = 0) ∨ c.OtherMode w := by
  have hhigh : (w.uses.any fun u => decide (32 < u.r.toNat + u.n)) = true ↔ w.High := by
    simp only [WordInfo.High, WordInfo.uses, List.any_eq_true, decide_eq_true_eq]
  unfold Strand.modeFails Strand.OtherMode
  rw [Bool.or_eq_true, Bool.and_eq_true, decide_eq_true_eq, c.lanes_eq_zero_iff]
  cases w.mode <;> simp [hhigh]

theorem Strand.ownerFails_iff (c : Strand) (w : WordInfo) : c.ownerFails w = true ↔
    w.owner = true ∧ c.vowner ≠ c.ctxid := by
  simp [Strand.ownerFails]

/-! ### The frame of every word -/

theorem vecWord_fails {w : WordInfo} {s : State} {c : Cause} (h : s.cur.wordCheck w = some c) (eff : State → State) :
    vecWord w s eff = .next (s.decodeTrap c) := by
  unfold vecWord
  rw [h]

/-- Every 64-bit word executes in the frame `vecWord`, on what the checks need to know of it. -/
theorem exec_eq_vecWord (i : Instr) (s : State) (h : (wordInfo i s.cur).klass ≠ .noWord) :
    ∃ eff, exec i s = vecWord (wordInfo i s.cur) s eff := by
  cases i with
  | add _ | sub _ | and _ | or _ | xor _ | andn _ | shl _ | shr _ | sha _ | min _ | max _ | minn _ | maxn _ | slt _
  | sltn _ | mul _ | mulh _ | mulhn _ | div _ | divn _ | rem _ | remn _ | clz _ | ctz _ | popc _ | addi _ | andi _
  | ori _ | xori _ | slti _ | sltni _ | shli _ | shri _ | shai _ | lui _ | adpc _ | ld8 _ | ld16 _ | ld32 _ | ld64 _
  | ldn8 _ | ldn16 _ | ldn32 _ | st8 _ | st16 _ | st32 _ | st64 _ | amoAdd _ | amoSwap _ | amoAnd _ | amoOr _
  | amoXor _ | amoMin _ | amoMax _ | amoMinn _ | amoMaxn _ | amoCas _ | claim _ | beq _ | bne _ | blt _ | bge _
  | bltn _ | bgen _ | jal _ | jalr _ | fadd _ | fsub _ | fmul _ | fdiv _ | fsqrt _ | fmin _ | fmax _ | feq _ | flt _
  | fle _ | fclass _ | fsgnj _ | fsgnjn _ | fcvtfi _ | fcvtif _ | fcvtff _ | fma _ | fms _ | fnma _ | fnms _
  | csrget _ | csrput _ | csrswap _ | csrset _ | csrclr _ | lanegrantWrite _ | ctxidWrite _ | vownerWrite _
  | pcntselWrite _ | fence _ | fenceEWaitDone _ | syscall | trapret | resume _ | track | yield | halt | waitev _
  | waitevWake _ | waitevTimeout _ | invtlb _ | ebreak | cache _ | vwaitWake _ | vwaitTimeout _ | streamFetch _ _ _
  | qstatWaitDone _ | queueEntryRoom _ | qcopyPerform _ _ | qgatherPerform _ _ | qscatterPerform _ _
  | qploadPerform _ _ | qpstorePerform _ _ | qsploadPerform _ _ | qfencePass _ _ | qsignalPerform _ _
  | watchImprecise _ _ | lateError _ _ _ | scoreboardSettleTimeout _ | queueDoorbell _ | queueRunStart _
  | queueRunStop _ | landingSelect _ | priorityAging _ | sliceEnd _ | nop _ | launch _ | write _ | signal _ | wait _
  | waitRecheck _ | waitTimeout _ | writeSignal _ | copy _ | copyDone _ | depend _ | dependSatisfied _
  | fencePacket _ | launchRetire _ | gangPreempt _ | preemptDeadline _ | gangResume _ | engineQuiesceTimeout _
  | staleCompletion _ | switchDrainComplete _ | switchDrainLimit _ | quiesceEnd _ | retrainDone _ | trainingFail _
  | verifyPass _ | verifyFail _ | verifyTimeout _ | fallbackActive _ | fallbackDown _ | linkLost _ | laneFailure _ _
  | openSession _ | attest _ | createPartition _ | loadCode _ | mapWindowMap _ | mapWindowChange _
  | mapWindowRemove _ | submit _ | readCounters _ | switchPort _ | checkpoint _ | close _ | keepalive _
  | keepaliveSend _ | sessionLost _ | atomicopCompletion _ _ _ | proxyResponse _ _ _ | atomicTimeout _ | firmware _
  | powerGood | powerSample _ _ _ | correctedError _ | gddrCopyDone _ | patrolScrub | illegalWord _
  | uncorrectableError _ | checkpointDone _ | powerLoss =>
    exact absurd rfl h
  | _ =>
    dsimp only [exec]
    exact ⟨_, by rfl⟩

theorem exec_of_wordCheck {i : Instr} {s : State} (hw : (wordInfo i s.cur).klass ≠ .noWord) {c : Cause}
    (hc : s.cur.wordCheck (wordInfo i s.cur) = some c) : exec i s = .next (s.decodeTrap c) := by
  obtain ⟨eff, h⟩ := exec_eq_vecWord i s hw
  rw [h, vecWord_fails hc]

theorem exec_traps_word {i : Instr} {s : State} (hw : (wordInfo i s.cur).klass ≠ .noWord) {c : Cause} (hne : c ≠ .vowner)
    (hc : s.cur.wordCheck (wordInfo i s.cur) = some c) : exec i s = .next (s.trap c s.cur.iword) := by
  rw [exec_of_wordCheck hw hc, State.decodeTrap, if_neg hne]

/-- VOWNER on a software context (R359). -/
theorem exec_traps_vowner {i : Instr} {s : State} (hw : (wordInfo i s.cur).klass ≠ .noWord)
    (hc : s.cur.wordCheck (wordInfo i s.cur) = some .vowner) (hctx : s.cur.ctxid.toNat < 0x8000) :
    exec i s = .next (s.trap .vowner (s.cur.vowner.setWidth 64)) := by
  rw [exec_of_wordCheck hw hc, State.decodeTrap, if_pos rfl, State.vownerTrap, if_neg (by omega)]

/-! ### Words that meet no bound register (R227) -/

theorem Strand.boundTo_eq_none {c : Strand} (h : ∀ k : Fin 8, c.vec.streams[k].bound = none) (r : Nat) (write : Bool) :
    c.boundTo r write = none := by
  unfold Strand.boundTo
  rw [Option.map_eq_none_iff, List.find?_eq_none]
  intro k hk
  have hk8 : k < 8 := List.mem_range.1 hk
  have hnone := h ⟨k, hk8⟩
  simp only [Fin.getElem_fin] at hnone
  simp [Vector.getElem?_eq_getElem hk8, hnone]

theorem Strand.readBoundDst_eq_none {c : Strand} (h : ∀ k : Fin 8, c.vec.streams[k].bound = none) (ds : List RegUse) :
    c.readBoundDst ds = none :=
  List.find?_eq_none.2 fun r _ => by simp [c.boundTo_eq_none h]

theorem State.popAll_eq_ok {s : State} (h : ∀ k : Fin 8, s.cur.vec.streams[k].bound = none) (rs : List Nat) :
    s.popAll rs = .ok s := by
  induction rs with
  | nil => rfl
  | cons r rs ih => rw [State.popAll, s.cur.boundTo_eq_none h]; exact ih

/-- A word that passes its checks and meets no bound register is ready as it stands. -/
theorem State.ready_self {i : Instr} {s : State} (hc : s.cur.wordCheck (wordInfo i s.cur) = none)
    (h : ∀ k : Fin 8, s.cur.vec.streams[k].bound = none) : s.Ready i s :=
  ⟨hc, s.cur.readBoundDst_eq_none h _, State.popAll_eq_ok h _⟩

/-! ### Lane groups, ownership and level (R111, R112, R149) -/

/-- A word needs lane groups and ownership, and no level. -/
def WordInfo.common (w : WordInfo) : Bool := w.lanes && w.owner && !w.priv

theorem WordInfo.common_spec {w : WordInfo} (h : (decide (w.klass = .noWord) || w.common) = true) (hw : w.klass ≠ .noWord) :
    w.lanes = true ∧ w.owner = true ∧ w.priv = false := by
  simpa [WordInfo.common, hw, and_assoc] using h

/-! ### The registers of the words of Table 9-6 (R115, R180) -/

theorem Strand.groupSize_eq (c : Strand) (w : Nat) :
    c.groupSize w = max 1 (w / if c.vec.mmode then 32 else c.vec.ew.bits) := by
  unfold Strand.groupSize
  split <;> rfl

theorem Strand.wordCheck_illegal_iff (c : Strand) (w : WordInfo) :
    c.wordCheck w = some .illegal ↔ c.illegalRegs w = true := by
  unfold Strand.wordCheck
  split
  · simp [*]
  · split_ifs <;> simp [*]

/-- A group of registers shares one with the destination's. -/
def RegUse.Overlaps (u d : RegUse) : Prop := u.r.toNat < d.r.toNat + d.n ∧ d.r.toNat < u.r.toNat + u.n

theorem RegUse.meets_iff (d u : RegUse) : d.meets u = true ↔ u.Overlaps d := by
  simp only [RegUse.meets, RegUse.Overlaps, Bool.and_eq_true, decide_eq_true_eq, and_comm]

theorem vintInfo_clash_iff (k : VKind) (n : Nat) (m : MReg) (d a : VReg) (bs : List (VReg × Nat)) (xs : List XReg)
    (c : Strand) : (vintInfo k n m d a bs xs c).clash = true ↔
      ∃ u ∈ (a, k.aw n) :: bs, u.2 ≠ k.dw n ∧ (c.use u.1 u.2).Overlaps (c.use d (k.dw n)) := by
  simp [vintInfo, RegUse.meets_iff]

theorem vintInfo_uses_iff (k : VKind) (n : Nat) (m : MReg) (d a : VReg) (bs : List (VReg × Nat)) (xs : List XReg)
    (c : Strand) (P : RegUse → Prop) :
    (∃ u ∈ (vintInfo k n m d a bs xs c).srcs ++ (vintInfo k n m d a bs xs c).dsts, P u) ↔
      P (c.use d (k.dw n)) ∨ ∃ u ∈ (a, k.aw n) :: bs, P (c.use u.1 u.2) := by
  unfold vintInfo
  cases k.readsD <;> simp [or_left_comm, or_comm]

/-- ILLEGAL of a VINT word: a misplaced group, or an overlap of the destination with a source of another width. -/
theorem vintInfo_illegal_iff (k : VKind) (n : Nat) (m : MReg) (d a : VReg) (bs : List (VReg × Nat)) (xs : List XReg)
    (c : Strand) : c.wordCheck (vintInfo k n m d a bs xs c) = some .illegal ↔
      (c.use d (k.dw n)).Misplaced c.vec.vnreg ∨ ∃ u ∈ (a, k.aw n) :: bs, (c.use u.1 u.2).Misplaced c.vec.vnreg ∨
        (u.2 ≠ k.dw n ∧ (c.use u.1 u.2).Overlaps (c.use d (k.dw n))) := by
  rw [c.wordCheck_illegal_iff, c.illegalRegs_iff, vintInfo_clash_iff, vintInfo_uses_iff]
  simp only [and_or_left, exists_or]
  rw [or_left_comm, or_comm (a := ∃ u ∈ (a, k.aw n) :: bs, u.2 ≠ k.dw n ∧ _)]

/-- The words of a row of Table 9-6 have the operands of a kind. -/
structure IntRow.OfKind (r : IntRow) (k : VKind) : Prop where
  aw : ∀ n, k.aw n = r.aw * n
  dw : ∀ n, k.dw n = r.dw * n
  vv : ∀ f, r.vv = some f → ∀ o c, wordInfo (f o) c = vvInfo k o c
  vvw : ∀ f, r.vvw = some f → ∀ o c, wordInfo (f o) c = vvwInfo k o c
  vs : ∀ f, r.vs = some f → ∀ o c, wordInfo (f o) c = vsInfo k o c
  vi : ∀ f, r.vi = some f → ∀ o c, wordInfo (f o) c = viInfo k o c

/-- In the order of the table: the plain functions, Divide, VMACC, the saturating ones, the widening and the narrowing ones. -/
theorem intRows_ofKind : ∀ r ∈ intRows, ∃ k, r.OfKind k := by
  unfold intRows
  simp only [List.cons_append, List.nil_append, List.forall_mem_cons]
  refine ⟨⟨.plain, ?_⟩, ⟨.plain, ?_⟩, ⟨.plain, ?_⟩, ⟨.plain, ?_⟩, ⟨.plain, ?_⟩, ⟨.plain, ?_⟩, ⟨.plain, ?_⟩,
    ⟨.plain, ?_⟩, ⟨.plain, ?_⟩, ⟨.plain, ?_⟩, ⟨.plain, ?_⟩, ⟨.plain, ?_⟩, ⟨.plain, ?_⟩, ⟨.plain, ?_⟩, ⟨.plain, ?_⟩,
    ⟨.iter, ?_⟩, ⟨.iter, ?_⟩, ⟨.iter, ?_⟩, ⟨.iter, ?_⟩, ⟨.acc, ?_⟩, ⟨.plain, ?_⟩, ⟨.plain, ?_⟩, ⟨.plain, ?_⟩,
    ⟨.plain, ?_⟩, ⟨.plain, ?_⟩, ⟨.plain, ?_⟩, ⟨.plain, ?_⟩, ⟨.wide, ?_⟩, ⟨.wide, ?_⟩, ⟨.wide, ?_⟩, ⟨.wide, ?_⟩,
    ⟨.wideAcc, ?_⟩, ⟨.wideAcc, ?_⟩, ⟨.narrow, ?_⟩, ⟨.narrow, ?_⟩, ⟨.narrow, ?_⟩, nofun⟩
  all_goals
    constructor
    case aw => intro n; simp [VKind.aw]
    case dw => intro n; simp [VKind.dw]
    all_goals
      intro f h o c
      cases h <;> rfl

/-- Settles O19: every word executes in one frame, whose checks come in the order of Table 4-19; what words need of lane groups,
ownership and level; and the operands of the words of Table 9-6. -/
theorem wordChecksTrap : Obligations.WordChecksTrap := by
  unfold Obligations.WordChecksTrap
  refine ⟨fun i s hw => ?order, fun i c => ?needs, fun r hr s => ?registers⟩
  case order =>
    intro w illegal priv high mode owner
    have hillegal : illegal ↔ s.cur.illegalRegs w = true := (s.cur.illegalRegs_iff w).symm
    have hpriv : priv ↔ s.cur.privFails w = true := (s.cur.privFails_iff w).symm
    have hmode : mode ↔ s.cur.modeFails w = true := (s.cur.modeFails_iff w).symm
    have howner : owner ↔ s.cur.ownerFails w = true := (s.cur.ownerFails_iff w).symm
    -- The checks after the first: each finds `wordCheck` past those before it.
    have past_illegal (hi : ¬illegal) : s.cur.wordCheck w = _ := if_neg (mt hillegal.2 hi)
    have past_priv (hi : ¬illegal) (hp : ¬priv) : s.cur.wordCheck w = _ := (past_illegal hi).trans (if_neg (mt hpriv.2 hp))
    have past_mode (hi : ¬illegal) (hp : ¬priv) (hm : ¬mode) : s.cur.wordCheck w = _ :=
      (past_priv hi hp).trans (if_neg (mt hmode.2 hm))
    exact ⟨fun hi => exec_traps_word hw nofun (if_pos (hillegal.1 hi)),
      fun hi hp => exec_traps_word hw nofun ((past_illegal hi).trans (if_pos (hpriv.1 hp))),
      fun hi hp hm => exec_traps_word hw nofun ((past_priv hi hp).trans (if_pos (hmode.1 hm))),
      fun hi hp hm ho => exec_traps_vowner hw ((past_mode hi hp hm).trans (if_pos (howner.1 ho))),
      fun hi hp hm ho => State.ready_self ((past_mode hi hp hm).trans (if_neg (mt howner.2 ho)))⟩
  case needs =>
    cases i with
    | setvt _ | vconfig _ => exact ⟨rfl, rfl, rfl⟩
    | qcopy _ | qgather _ | qscatter _ | qpload _ | qpstore _ | qspload _ | qfence _ | qsignal _ | qstat _ | portq _ =>
      exact ⟨rfl, rfl, rfl⟩
    | portsw _ => exact ⟨rfl, rfl, rfl⟩
    | _ => exact WordInfo.common_spec rfl
  case registers =>
    obtain ⟨k, hk⟩ := intRows_ofKind r hr
    intro size bad checked
    have hsize : s.cur.groupSize = size := funext s.cur.groupSize_eq
    have hchecked (m d a bs xs n i) (hi : wordInfo i s.cur = vintInfo k n m d a bs xs s.cur) :
        checked i n d ((a, r.aw * n) :: bs) := by
      have h := vintInfo_illegal_iff k n m d a bs xs s.cur
      rw [hk.aw, hk.dw] at h
      simp only [RegUse.Misplaced, RegUse.Overlaps, Strand.use, hsize] at h
      unfold checked
      rw [hi]
      exact ⟨h, rfl, rfl⟩
    exact ⟨fun f hf o => hchecked _ _ _ _ _ _ _ (hk.vv f hf o _), fun f hf o => hchecked _ _ _ _ _ _ _ (hk.vvw f hf o _),
      fun f hf o => hchecked _ _ _ _ _ _ _ (hk.vs f hf o _), fun f hf o => hchecked _ _ _ _ _ _ _ (hk.vi f hf o _)⟩

end Sys2Proof.Machine
end


section
/-! A strand's turn at a boundary with nothing due before what stands at its pc: a parcel, or a convoy of one word; and O54,
assembled from the two. -/

namespace Sys2Proof.Machine

/-! ### Counters that may have moved on (log 7) -/

@[simp] theorem State.stir_cur (s : State) (core : BitVec 6) (evs : List Nat) : (s.stir core evs).cur = s.cur := rfl

/-- What may have moved on is counted by the events assigned as before. -/
theorem State.coreOf_stir_events (s : State) (core : BitVec 6) (evs : List Nat) :
    (s.stir core evs).coreOf.events = s.coreOf.events := by
  have hcore : ((fun k : CoreState => decide (k.core = s.cur.id.core)) ∘ fun k : CoreState =>
      if k.core = core then
        { k with stirred := Vector.ofFn fun i : Fin 16 =>
            k.stirred[i] || (freeCounted k.events[i] && evs.contains k.events[i].toNat) }
      else k) = fun k => decide (k.core = s.cur.id.core) := by
    funext k
    dsimp only [Function.comp]
    split <;> rfl
  unfold State.coreOf State.stir
  rw [List.find?_map, hcore]
  cases s.cores.find? fun k => decide (k.core = s.cur.id.core) with
  | none => rfl
  | some k =>
    dsimp only [Option.map_some, Option.getD_some]
    split <;> rfl

/-! ### A strand's turn at a boundary (R341, R346, R356) -/

/-- The strand stands at a boundary where nothing comes before what stands at its pc. -/
structure Strand.AtTurn (c : Strand) : Prop where
  run : c.run = .running
  slot : c.slot = 0
  reissue : c.reissue = .none
  preempt : c.preempt = .none
  moving : c.moving = false
  held : c.trIn = true ∨ c.lateHeld = [] ∧ c.panelLate = none ∧ c.watchHeld = []

variable {s : State}

theorem State.boundaryStop_eq_none (h : s.cur.AtTurn) : s.boundaryStop = none := by
  have hpoint : s.pointStop false = none := by simp [State.pointStop, h.preempt, h.moving]
  unfold State.boundaryStop
  rw [hpoint]
  rcases h.held with hin | ⟨hlate, hpanel, hwatch⟩
  · simp [hin]
  · simp [hlate, hpanel, hwatch]

theorem State.mayPreempt_eq_false (h : s.cur.preempt = .none) : s.mayPreempt = false := by
  simp [State.mayPreempt, Strand.asked, h]

theorem State.issue_eq_issueHere (h : s.cur.AtTurn) : s.issue = s.issueHere true := by
  have hboundary : s.cur.atBoundary = true := by simp [Strand.atBoundary, h.run, h.slot, h.reissue]
  have hpaused : s.cur.paused = false := by simp [Strand.paused, h.run, h.slot]
  simp [State.issue, h.reissue, hboundary, hpaused, s.boundaryStop_eq_none h]

theorem State.focus_self (s : State) : s.focus s.cur.id = s := if_pos rfl

/-- The oldest act is the turn of the strand in front. -/
theorem step_of_issueHere {rest : List Act} {t : State} (ha : s.agenda = .issue s.cur.id :: rest) (h : s.cur.AtTurn)
    (ht : ({ s with agenda := rest } : State).issueHere true = .next t) : step s = .next (t.focus s.cur.id) := by
  have hissue := (State.issue_eq_issueHere (s := { s with agenda := rest }) h).trans ht
  have hfocus := State.focus_self { s with agenda := rest }
  unfold step State.advance
  rw [ha]
  dsimp only [State.act, State.issueOf]
  rw [hfocus, hissue]
  simp [Strand.issuable, h.run]

/-- The strand as it begins what is fetched at its pc: it carries nothing. -/
def Strand.begun (c : Strand) : Strand := { c with slot := 0, history := none, conv := .none }

/-- The state as its strand begins what is fetched: counters of clocks, fetched lines and the events given may have moved on. -/
def State.begun (s : State) (evs : List Nat) : State :=
  ((s.stir s.cur.id.core [1, 7]).stir s.cur.id.core evs).withCur s.cur.begun

/-! ### A parcel -/

theorem State.fetch_eq_parcel (hin : s.cur.outside s.cur.pc 1 = false) (hpc : s.cur.pc.toNat % 4 = 0)
    (hgone : s.memoryGone s.cur.pc.toNat = false) (hwide : isWide (s.codeWord s.cur.pc) = false) :
    s.fetch = .parcel (s.parcelAt s.cur.pc) := by
  simp [State.fetch, hin, hpc, hgone, hwide]

theorem State.runParcel_eq_finish {i : Instr} {w : BitVec 32} (h : s.cur.preempt = .none) (hw : decodeParcel w = some i) :
    s.runParcel true w = finishParcel s.coreOf.events (exec i (s.present1 (w.setWidth 64))) := by
  simp [State.runParcel, s.mayPreempt_eq_false h, execParcel, hw]

/-- A parcel begins with what its instruction reaches. -/
theorem State.stirTurn_parcel {i : Instr} {w : BitVec 32} (h : s.cur.reissue = .none) (hw : decodeParcel w = some i) :
    (s.stirTurn.stirParcel w).freshParcel = s.begun (Instr.reaches i) := by
  have hreissue : s.cur = { s.cur with reissue := .none } := by rw [← h]
  unfold State.freshParcel State.stirParcel State.stirTurn State.begun Strand.begun
  simp only [hw, Option.map_some, Option.getD_some, State.stir_cur]
  rw [hreissue]

/-- The turn of a strand with a parcel at its pc. -/
theorem State.issueHere_parcel {i : Instr} (h : s.cur.AtTurn) (hfetch : s.fetch = .parcel (s.parcelAt s.cur.pc))
    (hw : decodeParcel (s.parcelAt s.cur.pc) = some i) : s.issueHere true = finishParcel s.coreOf.events
      (exec i ((s.begun (Instr.reaches i)).present1 ((s.parcelAt s.cur.pc).setWidth 64))) := by
  have hevents : (s.begun (Instr.reaches i)).coreOf.events = s.coreOf.events :=
    (State.coreOf_stir_events _ _ _).trans (State.coreOf_stir_events _ _ _)
  have hpreempt : (s.begun (Instr.reaches i)).cur.preempt = .none := h.preempt
  unfold State.issueHere
  rw [hfetch]
  dsimp only
  rw [State.stirTurn_parcel h.reissue hw, State.runParcel_eq_finish hpreempt hw, hevents]

/-! ### A convoy of one word -/

theorem Strand.outside_one {c : Strand} {a : Word} (h : c.outside a 8 = false) : c.outside a 1 = false := by
  simp only [Strand.outside, Bool.or_eq_false_iff, decide_eq_false_iff_not] at h ⊢
  omega

theorem State.fetch_eq_wide (hin : s.cur.outside s.cur.pc 8 = false) (hpc : s.cur.pc.toNat % 8 = 0)
    (hgone : s.memoryGone s.cur.pc.toNat = false) (hwide : isWide (s.codeWord s.cur.pc) = true) :
    s.fetch = .wide (s.codeWord s.cur.pc) := by
  have hpc4 : s.cur.pc.toNat % 4 = 0 := by omega
  simp [State.fetch, Strand.outside_one hin, hpc, hpc4, hgone, hwide]

theorem State.convoyAt_last {a : Word} (hin : s.cur.outside a 8 = false) (hgone : s.memoryGone a.toNat = false)
    (hwide : isWide (s.codeWord a) = true) (hlast : lastBit (s.codeWord a) = true) (n : Nat) :
    s.convoyAt a (n + 1) = ([s.codeWord a], .last) := by
  simp [State.convoyAt, hin, hgone, hwide, hlast]

theorem decodeConvoy_single {c : Strand} {w : Word} {i : Instr} (hw : decodeWord w = some i) :
    decodeConvoy c [w] = [{ w := w, i := some i, info := wordInfo i c }] := by
  simp [decodeConvoy, hw]

theorem Strand.wordCheck_eq_none_iff (c : Strand) (w : WordInfo) : c.wordCheck w = none ↔
    c.illegalRegs w = false ∧ c.privFails w = false ∧ c.modeFails w = false ∧ c.ownerFails w = false := by
  unfold Strand.wordCheck
  split_ifs <;> simp_all

theorem countIf_single_le (w : WordInfo) (f : WordInfo → Bool) : countIf [w] f ≤ 1 := List.length_filter_le f [w]

/-- A word goes together with no other (R83, R118). -/
theorem clashes_single {w : WordInfo} (h : entriesOf w ≤ 64) : clashes [w] = false := by
  have hone (f : WordInfo → Bool) : ¬1 < countIf [w] f := not_lt.2 (countIf_single_le w f)
  have htwo (f : WordInfo → Bool) : ¬2 < countIf [w] f := fun hlt => hone f (by omega)
  simp [clashes, countClass, hone, htwo, not_lt.2 h]

theorem convoyFault_single {c : Strand} {w : Word} {i : Instr} {k : WordInfo} (hcheck : c.wordCheck k = none)
    (hentries : entriesOf k ≤ 64) : convoyFault c [{ w := w, i := some i, info := k }] .last = none := by
  obtain ⟨hillegal, hpriv, hmode, howner⟩ := (c.wordCheck_eq_none_iff k).1 hcheck
  simp [convoyFault, firstSlot, List.range_succ, hillegal, hpriv, hmode, howner, clashes_single hentries]

theorem State.convoyTrap_eq_none {i : Instr} (hat : s.convoyAt s.cur.pc 4 = ([s.codeWord s.cur.pc], .last))
    (hw : decodeWord (s.codeWord s.cur.pc) = some i) (hcheck : s.cur.wordCheck (wordInfo i s.cur) = none)
    (hentries : entriesOf (wordInfo i s.cur) ≤ 64) : s.convoyTrap = none := by
  unfold State.convoyTrap
  simp [hat, decodeConvoy_single hw, convoyFault_single hcheck hentries]

theorem State.startConvoy_eq_runConvoy (h : s.cur.preempt = .none) (htrap : s.convoyTrap = none) :
    s.startConvoy true = s.runConvoy := by
  simp [State.startConvoy, htrap, s.mayPreempt_eq_false h]

theorem State.runWords_single {t u : State} {f : Frame} {k : Nat} {w : CWord} {i : Instr} (hi : w.i = some i)
    (hexec : exec i (t.present1 w.w) = .next u) (hnote : u.cur.note = none) (hrun : u.cur.run = .running) :
    t.runWords f k [w] = .next ((u.withCur { u.cur with reissue := .none }).retireConvoy f false) := by
  simp [State.runWords, hi, hexec, hnote, hrun]

theorem State.runConvoy_single {w : CWord} (hhistory : s.cur.history = none) (hslot : s.cur.slot = 0)
    (hwords : s.convoyWords = [w]) :
    s.runConvoy = (s.stir s.cur.id.core (s.cur.countedBy w)).runWords
      { before := s.stir s.cur.id.core (s.cur.countedBy w), first := s.cur.pc } 0 [w] := by
  have hrewound : s.rewound = s := by unfold State.rewound; rw [hhistory]
  unfold State.runConvoy
  simp [hrewound, hwords, hslot, State.frame]

theorem State.stirTurn_freshConvoy (h : s.cur.reissue = .none) :
    s.stirTurn.freshConvoy = (s.stir s.cur.id.core [1, 7]).withCur s.cur.begun := by
  unfold State.freshConvoy State.stirTurn
  rw [State.stir_cur, if_pos h]
  rfl

/-- A convoy of one word that passes its checks is the word, then the convoy's retirement. -/
theorem State.startConvoy_single {i : Instr} {u : State} (hpreempt : s.cur.preempt = .none) (hhistory : s.cur.history = none)
    (hslot : s.cur.slot = 0) (hat : s.convoyAt s.cur.pc 4 = ([s.codeWord s.cur.pc], .last))
    (hw : decodeWord (s.codeWord s.cur.pc) = some i) (hcheck : s.cur.wordCheck (wordInfo i s.cur) = none)
    (hentries : entriesOf (wordInfo i s.cur) ≤ 64)
    (hexec : exec i ((s.stir s.cur.id.core (s.cur.countedBy ⟨s.codeWord s.cur.pc, some i, wordInfo i s.cur⟩)).present1
      (s.codeWord s.cur.pc)) = .next u) (hnote : u.cur.note = none) (hrun : u.cur.run = .running) :
    s.startConvoy true = .next ((u.withCur { u.cur with reissue := .none }).retireConvoy
      { before := s.stir s.cur.id.core (s.cur.countedBy ⟨s.codeWord s.cur.pc, some i, wordInfo i s.cur⟩)
        first := s.cur.pc } false) := by
  have hwords : s.convoyWords = [⟨s.codeWord s.cur.pc, some i, wordInfo i s.cur⟩] := by
    rw [State.convoyWords, hslot]
    exact (congrArg (fun ws => decodeConvoy s.cur ws.1) hat).trans (decodeConvoy_single hw)
  rw [State.startConvoy_eq_runConvoy hpreempt (State.convoyTrap_eq_none hat hw hcheck hentries),
    State.runConvoy_single hhistory hslot hwords]
  exact State.runWords_single rfl hexec hnote hrun

/-- The turn of a strand with a convoy of one word at its pc. -/
theorem State.issueHere_word {i : Instr} {u : State} (h : s.cur.AtTurn) (hin : s.cur.outside s.cur.pc 8 = false)
    (hpc : s.cur.pc.toNat % 8 = 0) (hgone : s.memoryGone s.cur.pc.toNat = false) (hwide : isWide (s.codeWord s.cur.pc) = true)
    (hlast : lastBit (s.codeWord s.cur.pc) = true) (hw : decodeWord (s.codeWord s.cur.pc) = some i)
    (hcheck : s.cur.begun.wordCheck (wordInfo i s.cur.begun) = none) (hentries : entriesOf (wordInfo i s.cur.begun) ≤ 64)
    (hexec : exec i ((s.begun (s.cur.begun.countedBy ⟨s.codeWord s.cur.pc, some i, wordInfo i s.cur.begun⟩)).present1
      (s.codeWord s.cur.pc)) = .next u) (hnote : u.cur.note = none) (hrun : u.cur.run = .running) :
    s.issueHere true = .next ((u.withCur { u.cur with reissue := .none }).retireConvoy
      { before := s.begun (s.cur.begun.countedBy ⟨s.codeWord s.cur.pc, some i, wordInfo i s.cur.begun⟩), first := s.cur.pc }
      false) := by
  unfold State.issueHere
  rw [State.fetch_eq_wide hin hpc hgone hwide]
  dsimp only
  rw [State.stirTurn_freshConvoy h.reissue]
  exact State.startConvoy_single (s := (s.stir s.cur.id.core [1, 7]).withCur s.cur.begun) h.preempt rfl rfl
    (State.convoyAt_last hin hgone hwide hlast 3) hw hcheck hentries hexec hnote hrun

/-- Settles O54: at a boundary the turn is the issue of what is fetched at the pc, a parcel or a convoy of one word. -/
theorem stepRunsDecoded : Obligations.StepRunsDecoded := by
  unfold Obligations.StepRunsDecoded
  intro s u rest i ha hrun hslot hreissue hpreempt hmoving hheld hgone after begun
  have hturn : s.cur.AtTurn := ⟨hrun, hslot, hreissue, hpreempt, hmoving, hheld⟩
  let r : State := { s with agenda := rest }
  refine ⟨fun w hin hpc hwide hw hdecode => ?parcel, fun hin hpc => ?convoy⟩
  case parcel =>
    subst hw
    intro b hexec
    have hissue : r.issueHere true = finishParcel s.coreOf.events (.next u) :=
      (State.issueHere_parcel (s := r) hturn (State.fetch_eq_parcel hin hpc hgone hwide) hdecode).trans (congrArg _ hexec)
    refine ⟨fun hstop => ?stops, fun hnote hwaits => ?retires⟩
    case stops => exact step_of_issueHere ha hturn (hissue.trans (by simp [finishParcel, hstop]))
    case retires => exact step_of_issueHere ha hturn (hissue.trans (by simp [finishParcel, hnote, hwaits]))
  case convoy =>
    intro w c b hwide hlast hdecode hcheck hentries hexec hnote hrun
    exact step_of_issueHere ha hturn
      (State.issueHere_word (s := r) hturn hin hpc hgone hwide hlast hdecode hcheck hentries hexec hnote hrun)

end Sys2Proof.Machine
end


section
/-! What the Landing's accesses leave alone, and what its service of a queue leaves alone; and the record of a queue whose packet
has retired or that has halted. -/

namespace Sys2Proof.Machine

/-! ### What an access leaves alone -/

/-- A state without what an access of the Landing may change: memory, what its translation uses, and the acts due (R90). -/
def State.exceptMemory (s : State) : State :=
  { s with mem := [], keys := [], hostMem := [], tlb := [], free := 0, agenda := [] }

/-- From s to t memory, what its translation uses, and the acts due have changed, and nothing else. -/
def State.AccessOnly (s t : State) : Prop := t.exceptMemory = s.exceptMemory

namespace State.AccessOnly

theorem refl (s : State) : s.AccessOnly s := rfl

theorem trans {s t u : State} (h : s.AccessOnly t) (k : t.AccessOnly u) : s.AccessOnly u := Eq.trans k h

theorem of_memoryOnly {s t : State} (h : s.MemoryOnly t) : s.AccessOnly t := by
  obtain ⟨mem, keys, hostMem, tlb, free, rfl⟩ := h
  rfl

theorem hwq {s t : State} (h : s.AccessOnly t) : t.hwq = s.hwq :=
  congrArg (a₁ := t.exceptMemory) (a₂ := s.exceptMemory) State.hwq h

theorem larder {s t : State} (h : s.AccessOnly t) : t.larder = s.larder :=
  congrArg (a₁ := t.exceptMemory) (a₂ := s.exceptMemory) State.larder h

end State.AccessOnly

theorem State.translate_accessOnly (s : State) (v : Via) (lvl : Level) (va : Nat) (n : Need) (b : Bool) :
    s.AccessOnly (s.translate v lvl va n b).2 := by
  obtain ⟨_, _, h⟩ := s.translate_state v lvl va n b
  rw [h]
  rfl

theorem State.touch_accessOnly (s : State) (v : Via) (x : Xlat) (n : Need) : s.AccessOnly (s.touch v x n) := by
  obtain ⟨_, _, h⟩ := s.touch_state v x n
  rw [h]
  rfl

theorem State.writePlace_accessOnly (s : State) (p : Place) (n v : Nat) : s.AccessOnly (s.writePlace p n v) := by
  obtain ⟨_, _, _, h⟩ := s.writePlace_state p n v
  rw [h]
  rfl

theorem State.bell_accessOnly (s : State) (part va n : Nat) : s.AccessOnly (s.bell part va n) := by
  obtain ⟨_, h⟩ := s.bell_state part va n
  rw [h]
  rfl

theorem State.storeAt_accessOnly (s : State) (u : Via) (va : Nat) (x : Xlat) (n v : Nat) : s.AccessOnly (s.storeAt u va x n v) :=
  ((s.touch_accessOnly u x .store).trans (State.writePlace_accessOnly _ _ _ _)).trans (State.bell_accessOnly _ _ _ _)

theorem State.setQword_accessOnly (s : State) (q : QueueId) (off : Nat) (v : Word) : s.AccessOnly (s.setQword q off v) :=
  .of_memoryOnly (s.setQword_memoryOnly q off v)

theorem State.selectDue_accessOnly (s : State) (part : Nat) : s.AccessOnly (s.selectDue part) := by
  unfold State.selectDue
  dsimp only
  split <;> rfl

theorem State.landingStore_accessOnly {s t : State} {part va : Nat} {v : Word} (h : s.landingStore part va v = .ok t) :
    s.AccessOnly t := by
  unfold State.landingStore at h
  split at h
  · nomatch h
  · have ht := s.translate_accessOnly (s.landingVia part) .s va .store false
    generalize s.translate (s.landingVia part) .s va .store false = r at ht h
    obtain ⟨e | x, u⟩ := r
    · nomatch h
    · cases h
      exact ht.trans (u.storeAt_accessOnly _ _ x _ _)

theorem State.landingAdd_accessOnly {s t : State} {part va : Nat} {v : Word} (h : s.landingAdd part va v = .ok t) :
    s.AccessOnly t := by
  unfold State.landingAdd at h
  split at h
  · nomatch h
  · have ht := s.translate_accessOnly (s.landingVia part) .s va .amo false
    generalize s.translate (s.landingVia part) .s va .amo false = r at ht h
    obtain ⟨e | x, u⟩ := r
    · nomatch h
    · cases h
      exact ((ht.trans (u.touch_accessOnly _ x _)).trans (State.writePlace_accessOnly _ _ _ _)).trans (State.bell_accessOnly _ _ _ _)

theorem State.doSignal_accessOnly {s t : State} {part : Nat} {g : Signal} (h : s.doSignal part g = .ok t) : s.AccessOnly t := by
  unfold State.doSignal at h
  split at h
  · cases h; exact .refl s
  split at h
  · exact State.landingStore_accessOnly h
  · exact State.landingAdd_accessOnly h

/-! ### What the service of a queue leaves alone -/

/-- A state without what the service of a queue may change: what an access may, the records of queues, and the events and messages
sent. -/
def State.exceptQueues (s : State) : State := { s.exceptMemory with hwq := [], parts := [], outbox := [] }

/-- From s to t memory, the acts due, the records of queues, and the events and messages sent have changed, and nothing else. -/
def State.QueueOnly (s t : State) : Prop := t.exceptQueues = s.exceptQueues

namespace State.QueueOnly

theorem refl (s : State) : s.QueueOnly s := rfl

theorem trans {s t u : State} (h : s.QueueOnly t) (k : t.QueueOnly u) : s.QueueOnly u := Eq.trans k h

theorem of_accessOnly {s t : State} (h : s.AccessOnly t) : s.QueueOnly t :=
  congrArg (fun u : State => ({ u with hwq := [], parts := [], outbox := [] } : State)) h

theorem cur {s t : State} (h : s.QueueOnly t) : t.cur = s.cur :=
  congrArg (a₁ := t.exceptQueues) (a₂ := s.exceptQueues) State.cur h

theorem strands {s t : State} (h : s.QueueOnly t) : t.strands = s.strands :=
  congrArg (a₁ := t.exceptQueues) (a₂ := s.exceptQueues) State.strands h

theorem parked {s t : State} (h : s.QueueOnly t) : t.parked = s.parked :=
  congrArg (a₁ := t.exceptQueues) (a₂ := s.exceptQueues) State.parked h

theorem launches {s t : State} (h : s.QueueOnly t) : t.launches = s.launches :=
  congrArg (a₁ := t.exceptQueues) (a₂ := s.exceptQueues) State.launches h

theorem larder {s t : State} (h : s.QueueOnly t) : t.larder = s.larder :=
  congrArg (a₁ := t.exceptQueues) (a₂ := s.exceptQueues) State.larder h

end State.QueueOnly

theorem State.mapHwq_queueOnly (s : State) (q : QueueId) (f : HwQueue → HwQueue) : s.QueueOnly (s.mapHwq q f) := rfl

theorem State.partEvent_queueOnly (s : State) (part : Nat) (e : EventRec) : s.QueueOnly (s.partEvent part e) := rfl

theorem State.hostEvent_queueOnly (s : State) (x : Option Nat) (e : EventRec) (part : Nat) : s.QueueOnly (s.hostEvent x e part) := by
  obtain ⟨_, h⟩ := s.hostEvent_state x e part
  rw [h]
  rfl

theorem State.setQword_queueOnly (s : State) (q : QueueId) (off : Nat) (v : Word) : s.QueueOnly (s.setQword q off v) :=
  .of_accessOnly (s.setQword_accessOnly q off v)

theorem State.haltQueue_queueOnly (s : State) (q : QueueId) (tag : BitVec 16) (step code idx : Nat) :
    s.QueueOnly (s.haltQueue q tag step code idx) :=
  ((((s.mapHwq_queueOnly q _).trans (State.setQword_queueOnly _ q _ _)).trans (State.setQword_queueOnly _ q _ _)).trans
    (State.setQword_queueOnly _ q _ _)).trans (State.partEvent_queueOnly _ _ _)

theorem State.retirePacket_queueOnly (s : State) (q : QueueId) (idx : Nat) : s.QueueOnly (s.retirePacket q idx) := by
  unfold State.retirePacket
  dsimp only
  split
  · exact s.mapHwq_queueOnly q _
  · exact (s.mapHwq_queueOnly q _).trans (State.setQword_queueOnly _ _ _ _)

theorem State.trySignal_queueOnly {s t : State} {q : QueueId} {g : HeldSignal} (h : s.trySignal q g = .ok t) : s.QueueOnly t := by
  unfold State.trySignal at h
  split at h
  · nomatch h
  · exact .of_accessOnly (State.doSignal_accessOnly h)

theorem State.signalLaunch_queueOnly (s : State) (q : QueueId) (g : HeldSignal) : s.QueueOnly (s.signalLaunch q g) := by
  have retired (t : State) (f : HwQueue → HwQueue) : t.QueueOnly
      (if g.evt then ((t.mapHwq q f).retirePacket q g.index).retireEvent q g.tag g.index
        else (t.mapHwq q f).retirePacket q g.index) := by
    have h := (t.mapHwq_queueOnly q f).trans (State.retirePacket_queueOnly _ q g.index)
    split
    · exact h.trans (State.partEvent_queueOnly _ _ _)
    · exact h
  unfold State.signalLaunch
  cases ht : s.trySignal q g with
  | ok t => exact (State.trySignal_queueOnly ht).trans (retired t _)
  | error e =>
    cases e with
    | stall => exact .refl s
    | trap c => exact (retired s _).trans (State.haltQueue_queueOnly _ _ _ _ _ _)

theorem State.releaseSignals_queueOnly (s : State) (q : QueueId) (l : List HeldSignal) : s.QueueOnly (s.releaseSignals q l) := by
  induction l generalizing s with
  | nil => exact .refl s
  | cons g l ih =>
    unfold State.releaseSignals
    split
    · exact (s.signalLaunch_queueOnly q g).trans (ih _)
    · exact ih s

theorem State.releaseHeld_queueOnly (s : State) (q : QueueId) : s.QueueOnly (s.releaseHeld q) := by
  unfold State.releaseHeld
  split
  · exact .refl s
  · exact s.releaseSignals_queueOnly q _

/-- A launch gone from the list of launches. -/
def State.withoutLaunch (s : State) (l : Nat) : State := { s with launches := s.launches.filter fun x => x.lid ≠ l }

/-- The end of a launch, where it comes to that, is the service of its queue once it is gone. -/
theorem State.finishEnd_queueOnly (s : State) (l : Nat) : s.finishEnd l = s ∨ (s.withoutLaunch l).QueueOnly (s.finishEnd l) := by
  unfold State.finishEnd
  split
  · exact .inl rfl
  next x _ =>
  split
  · exact .inl rfl
  split
  · exact .inl rfl
  dsimp only
  right
  have hretired (f : HwQueue → HwQueue) : (s.withoutLaunch l).QueueOnly
      (((s.withoutLaunch l).mapHwq x.queue f).retirePacket x.queue x.index) :=
    ((s.withoutLaunch l).mapHwq_queueOnly x.queue f).trans (State.retirePacket_queueOnly _ _ _)
  refine .trans ?_ (State.releaseHeld_queueOnly _ _)
  refine .trans (.trans ?_ (State.partEvent_queueOnly _ _ _)) (State.hostEvent_queueOnly _ _ _ _)
  split
  · split
    · exact hretired _
    · exact (hretired _).trans (State.haltQueue_queueOnly _ _ _ _ _ _)
  · exact hretired _

theorem State.finishEnd_cur (s : State) (l : Nat) : (s.finishEnd l).cur = s.cur := by
  obtain h | h := s.finishEnd_queueOnly l
  · rw [h]
  · exact h.cur

/-! ### The record of a queue -/

theorem State.hwq?_congr {s t : State} (h : t.hwq = s.hwq) (q : QueueId) : t.hwq? q = s.hwq? q := by
  unfold State.hwq?
  rw [h]

theorem State.AccessOnly.hwq? {s t : State} (h : s.AccessOnly t) (q : QueueId) : t.hwq? q = s.hwq? q := State.hwq?_congr h.hwq q

theorem State.AccessOnly.stepFails {s t : State} (h : s.AccessOnly t) (q : QueueId) (idx step : Nat) :
    t.stepFails q idx step = s.stepFails q idx step := by
  unfold State.stepFails
  rw [h.hwq?]

@[simp] theorem State.setQword_hwq (s : State) (q : QueueId) (off : Nat) (v : Word) : (s.setQword q off v).hwq = s.hwq :=
  (s.setQword_accessOnly q off v).hwq

theorem State.haltQueue_hwq (s : State) (q : QueueId) (tag : BitVec 16) (step code idx : Nat) :
    (s.haltQueue q tag step code idx).hwq = (s.mapHwq q fun h => { h with state := .halted, faultIdx := idx }).hwq := by
  unfold State.haltQueue State.partEvent
  simp only [State.mapPart_hwq, State.setQword_hwq]

/-- A queue that halts is HALTED, and names the packet at fault. -/
theorem State.haltQueue_hwq? {s : State} {q : QueueId} {h : HwQueue} (hq : s.hwq? q = some h) (tag : BitVec 16) (step code idx : Nat) :
    (s.haltQueue q tag step code idx).hwq? q = some { h with state := .halted, faultIdx := idx } :=
  (State.hwq?_congr (s.haltQueue_hwq q tag step code idx) q).trans (State.hwq?_mapHwq (fun _ => rfl) hq)

/-- The record of a queue one of whose packets counts as retired (R101). -/
def HwQueue.retire (h : HwQueue) (idx : Nat) : HwQueue :=
  let r := if h.retired.contains idx then h.retired else h.retired ++ [idx]
  let d := advanceDone r h.unsignalled r.length h.qdone
  { h with
    active := h.active.filter fun a => a.1 ≠ idx, retired := r.filter fun i => d ≤ i, qdone := d
    errors := h.errors.filter fun e => e.1 ≠ idx }

theorem State.retirePacket_hwq? {s : State} {q : QueueId} {h : HwQueue} (hq : s.hwq? q = some h) (idx : Nat) :
    (s.retirePacket q idx).hwq? q = some (h.retire idx) := by
  have hmap : (s.mapHwq q fun k => k.retire idx).hwq? q = some (h.retire idx) := State.hwq?_mapHwq (fun _ => rfl) hq
  have hretire : s.retirePacket q idx =
      (s.mapHwq q fun k => k.retire idx).setQword q 0x28 (BitVec.ofNat 64 (h.retire idx).qdone) := by
    unfold State.retirePacket
    dsimp only
    split
    next hnone => exact absurd (hnone.symm.trans hmap) nofun
    next k hk => rw [Option.some.inj (hk.symm.trans hmap)]; rfl
  rw [hretire, (State.setQword_accessOnly _ _ _ _).hwq?, hmap]

/-- A packet that is next to retire moves qdone past it. -/
theorem HwQueue.retire_next {h : HwQueue} {idx : Nat} (hd : h.qdone = idx) (hr : h.retired = []) (hu : h.unsignalled = []) :
    (h.retire idx).qdone = idx + 1 ∧ (h.retire idx).retired = [] := by
  simp [HwQueue.retire, hd, hr, hu, advanceDone]

/-- A packet behind others is kept until they have retired. -/
theorem HwQueue.retire_later {h : HwQueue} {idx : Nat} (hd : h.qdone < idx) (hr : h.retired = []) :
    (h.retire idx).qdone = h.qdone ∧ (h.retire idx).retired = [idx] := by
  have hne : h.qdone ≠ idx := Nat.ne_of_lt hd
  simp [HwQueue.retire, hr, advanceDone, hne, le_of_lt hd]

end Sys2Proof.Machine
end


section
/-! O44, refuted by a state that holds two records of one hardware queue. -/

namespace Sys2Proof.Machine

/-- A hardware queue as a partition begins with it, in a state of Table 5-2. -/
def queueIn (st : QState) : HwQueue := { HwQueue.fresh { part := 0, q := 0 } with state := st }

/-- A module that has stopped at 115 °C, where selection does nothing, with a halted and a running record of queue 0. -/
def twiceQueued : State := { State.reset with
  hwq := [queueIn .halted, queueIn .running], module := { Module.reset with phase := .tripped } }

/-- Refutes O44: a control word with RUN = 0 leaves a HALTED queue HALTED (Table 5-4). The model writes that state into every record of
the queue, the statement into none, and they differ where a second record of the queue is RUNNING. -/
theorem not_landingServiceResults : ¬ Obligations.LandingServiceResults := by
  unfold Obligations.LandingServiceResults
  intro h
  obtain ⟨-, -, -, -, -, hstop, -⟩ := h twiceQueued { part := 0, q := 0 } (queueIn .halted) (by decide)
  have hhwq := congrArg State.hwq (Host.Outcome.next.inj (hstop (by decide)))
  exact absurd hhwq (by decide)

end Sys2Proof.Machine
end


section
/-! The gang of a launch (R103, R357): what a request for its pre-emption and its leaving of its strands do, one lemma each. -/

namespace Sys2Proof.Machine

/-! ### Selection due -/

/-- Selection falling due changes the agenda alone. -/
theorem State.selectDue_state (s : State) (part : Nat) : ∃ agenda, s.selectDue part = { s with agenda := agenda } := by
  unfold State.selectDue
  dsimp only
  split
  · exact ⟨s.agenda, rfl⟩
  · exact ⟨_, rfl⟩

/-! ### A request for pre-emption (R357) -/

/-- A strand stops for the pre-emption of its gang, or has no task left to stop. -/
def Strand.Asked (c : Strand) : Prop := c.preempt ≠ .none ∨ c.run = .halted ∨ c.run = .preempted

/-- A request changes what is outstanding of the strand alone. -/
theorem Strand.ask_state (f : Word) (c : Strand) : ∃ p, c.ask f = { c with preempt := p } := by
  unfold Strand.ask
  split
  · exact ⟨_, rfl⟩
  · exact ⟨c.preempt, rfl⟩

theorem Strand.ask_asked (f : Word) (c : Strand) : (c.ask f).Asked := by
  unfold Strand.ask
  split
  · left
    dsimp only
    split <;> nofun
  · next h =>
    simp only [Bool.and_eq_true, decide_eq_true_eq, not_and, not_not] at h
    by_cases hp : c.preempt = .none
    · by_cases hr : c.run = .halted
      · exact .inr (.inl hr)
      · exact .inr (.inr (h ⟨hp, hr⟩))
    · exact .inl hp

/-- A strand that has stopped is asked nothing. -/
theorem Strand.ask_preempted (f : Word) {c : Strand} (h : c.run = .preempted) : c.ask f = c := by
  unfold Strand.ask
  rw [if_neg (by simp [h])]

/-- The strand in front as a request to its gang leaves it. -/
theorem State.askGang_cur {s : State} {l : Nat} (h : s.cur.run = .preempted) : (s.askGang l).cur = s.cur := by
  show (if s.cur.ofLaunch l then s.cur.ask _ else s.cur) = _
  rw [Strand.ask_preempted _ h, ite_self]

/-- A strand after a request to a gang was one before it, asked where it is the gang's. -/
theorem State.mem_askGang {s : State} {l : Nat} {c : Strand} (hc : c ∈ (s.askGang l).strands) :
    ∃ d ∈ s.strands, ∃ f, c = if d.ofLaunch l then d.ask f else d := by
  obtain rfl | hc := List.mem_cons.1 hc
  · exact ⟨s.cur, List.mem_cons_self, _, rfl⟩
  · obtain ⟨⟨d, i⟩, hd, rfl⟩ := List.mem_map.1 hc
    exact ⟨d, List.mem_cons_of_mem _ (List.fst_mem_of_mem_zipIdx hd), _, rfl⟩

/-- Every strand of a gang that is requested to stop is asked. -/
theorem State.askGang_asked {s : State} {l : Nat} {c : Strand} (hc : c ∈ (s.askGang l).strands) (hl : c.ofLaunch l = true) :
    c.Asked := by
  obtain ⟨d, -, f, rfl⟩ := State.mem_askGang hc
  split
  · exact d.ask_asked f
  · next hd => rw [if_neg hd] at hl; exact absurd hl hd

/-- A strand of which nothing is outstanding. -/
def Strand.unasked (c : Strand) : Strand := { c with preempt := .none }

/-- A request to a gang changes what is outstanding of strands alone. -/
theorem State.askGang_unasked (s : State) (l : Nat) : (s.askGang l).strands.map Strand.unasked = s.strands.map Strand.unasked := by
  have hone (c : Strand) (i : Nat) : (if c.ofLaunch l then c.ask (Config.freeWord (s.free + i)) else c).unasked = c.unasked := by
    split
    · obtain ⟨p, h⟩ := c.ask_state (Config.freeWord (s.free + i))
      rw [h]
      rfl
    · rfl
  have hothers : (s.others.zipIdx.map fun x => x.1.unasked) = s.others.map Strand.unasked := by
    conv_rhs => rw [← List.zipIdx_map_fst 0 s.others, List.map_map]
    rfl
  unfold State.askGang State.strands
  rw [List.map_cons, List.map_cons, hone, List.map_map, ← hothers]
  exact congrArg _ (List.map_congr_left fun x _ => hone x.1 (x.2 + 1))

/-! ### A gang leaves its strands (R103) -/

/-- A strand that the gang of a launch has left. -/
def Strand.leaveGang (l : Nat) (c : Strand) : Strand :=
  if !c.ofLaunch l then c else if c.run = .halted then c.release else c.vacate

theorem Strand.leaveGang_ofLaunch (l : Nat) (c : Strand) : (c.leaveGang l).ofLaunch l = false := by
  unfold Strand.leaveGang
  split
  · next h => simpa using h
  · split <;> rfl

/-- Another's strand stays as it is. -/
theorem Strand.leaveGang_of_not {l : Nat} {c : Strand} (h : c.ofLaunch l = false) : c.leaveGang l = c := by
  unfold Strand.leaveGang
  rw [if_pos (by simp [h])]

/-- A halted strand is free. -/
theorem Strand.leaveGang_of_halted {l : Nat} {c : Strand} (h : c.ofLaunch l = true) (hr : c.run = .halted) :
    c.leaveGang l = c.release := by
  unfold Strand.leaveGang
  rw [if_neg (by simp [h]), if_pos hr]

/-- A stopped strand is free, its task gone elsewhere. -/
theorem Strand.leaveGang_of_preempted {l : Nat} {c : Strand} (h : c.ofLaunch l = true) (hr : c.run = .preempted) :
    c.leaveGang l = c.vacate := by
  unfold Strand.leaveGang
  rw [if_neg (by simp [h]), if_neg (by simp [hr])]

theorem State.gangStopped_iff (s : State) (l : Nat) : s.gangStopped l = true ↔
    (∀ c ∈ s.strands, c.ofLaunch l = true → c.run = .preempted ∨ c.run = .halted) ∧
      ∃ c ∈ s.strands, c.ofLaunch l = true ∧ c.run = .preempted := by
  simp only [State.gangStopped, Bool.and_eq_true, List.all_eq_true, List.any_eq_true, List.mem_filter, Bool.or_eq_true,
    decide_eq_true_eq, and_imp, and_assoc]

theorem State.parkGang_of_not_stopped {s : State} {l : Nat} (h : s.gangStopped l = false) : s.parkGang l = s := by
  unfold State.parkGang
  rw [h]
  rfl

/-- A gang has left its strands: its stopped tasks wait, and its launch is pre-empted. -/
def State.leftGang (s : State) (l : Nat) : State :=
  { s with
    cur := s.cur.leaveGang l, others := s.others.map (Strand.leaveGang l)
    parked := s.parked ++ s.strands.filter fun c => c.ofLaunch l && decide (c.run = .preempted)
    launches := s.launches.map fun x => if x.lid = l then { x with state := .preempted } else x }

/-- A gang that has stopped leaves its strands, and selection may be due. -/
theorem State.parkGang_of_stopped {s : State} {l : Nat} (h : s.gangStopped l = true) :
    ∃ agenda, s.parkGang l = { s.leftGang l with agenda := agenda } := by
  unfold State.parkGang
  rw [if_neg (by simp [h])]
  dsimp only
  split
  · exact ⟨s.agenda, rfl⟩
  · next x _ => exact (s.leftGang l).selectDue_state x.queue.part

/-- After a gang has left its strands, or has not yet, each of its strands is asked if each was. -/
theorem State.parkGang_asked {s : State} {l : Nat} (h : ∀ c ∈ s.strands, c.ofLaunch l = true → c.Asked) :
    ∀ c ∈ (s.parkGang l).strands, c.ofLaunch l = true → c.Asked := by
  intro c hc hl
  by_cases hs : s.gangStopped l = true
  · obtain ⟨agenda, hp⟩ := State.parkGang_of_stopped hs
    rw [hp] at hc
    obtain ⟨d, -, rfl⟩ := List.mem_map.1 (show c ∈ s.strands.map (Strand.leaveGang l) from hc)
    rw [d.leaveGang_ofLaunch l] at hl
    nomatch hl
  · rw [State.parkGang_of_not_stopped (by simpa using hs)] at hc
    exact h c hc hl

/-- A gang that leaves its strands changes no memory. -/
theorem State.parkGang_mem (s : State) (l : Nat) : (s.parkGang l).mem = s.mem ∧ (s.parkGang l).hostMem = s.hostMem := by
  by_cases hs : s.gangStopped l = true
  · obtain ⟨agenda, hp⟩ := State.parkGang_of_stopped hs
    rw [hp]
    exact ⟨rfl, rfl⟩
  · rw [State.parkGang_of_not_stopped (by simpa using hs)]
    exact ⟨rfl, rfl⟩

/-- A strand in front that has stopped with its gang is still there, or is free and its task waits. -/
theorem State.parkGang_preempted {s : State} {l : Nat} (hl : s.cur.ofLaunch l = true) (hr : s.cur.run = .preempted) :
    (s.parkGang l).cur = s.cur ∨ ((s.parkGang l).cur = s.cur.vacate ∧ s.cur ∈ (s.parkGang l).parked) := by
  by_cases hs : s.gangStopped l = true
  · obtain ⟨agenda, hp⟩ := State.parkGang_of_stopped hs
    rw [hp]
    refine .inr ⟨Strand.leaveGang_of_preempted hl hr, List.mem_append_right _ (List.mem_filter.2 ⟨List.mem_cons_self, ?_⟩)⟩
    simp [hl, hr]
  · rw [State.parkGang_of_not_stopped (by simpa using hs)]
    exact .inl rfl

end Sys2Proof.Machine
end


section
/-! YIELD and HALT (R352, R358), one lemma per outcome; and O17, assembled from them. -/

namespace Sys2Proof.Machine

/-! ### YIELD (R358) -/

/-- YIELD passes the supervisor context and a strand with no task. -/
theorem exec_yield_noGang {s : State} (h : ∀ l, (s.cur.task.bind fun x => s.launch? x.1) = some l → l.sup = true) :
    exec .yield s = .next s.next4 := by
  show execYield s = _
  unfold execYield
  dsimp only
  split
  · rfl
  · next l hl => rw [h l hl]; rfl

/-- The gang of a launch is to stop at a YIELD: a pre-emption of it is outstanding, or another gang waits at its level or above. -/
def State.yieldStops (s : State) (l : Launch) : Bool :=
  s.gangAsked l.lid || s.gangWaits l.queue.part l.lid fun n => decide (n ≤ s.levelOf l.queue)

section
variable {s : State} {l : Launch} {k : Nat} (ht : s.cur.task = some (l.lid, k)) (hl : s.launch? l.lid = some l) (hs : l.sup = false)
include ht hl hs

theorem exec_yield_gang : exec .yield s = .next (
    if s.cur.unsettled then s.next4
    else if s.yieldStops l then (s.next4.stopStrand.askGang l.lid).parkGang l.lid else s.next4) := by
  have hgang : (s.next4.cur.task.bind fun x => s.next4.launch? x.1) = some l := by
    rw [State.next4_cur_task, ht]
    exact hl
  show execYield s = _
  unfold execYield
  dsimp only
  rw [hgang]
  dsimp only
  rw [hs, Bool.false_or]
  show (if s.cur.unsettled = true then _ else if s.yieldStops l = true then _ else _) = _
  split
  · rfl
  · split <;> rfl

/-- A gang that stops at a YIELD: the strand behind it, the others as they are asked. -/
theorem exec_yield_stops (hu : s.cur.unsettled = false) (hy : s.yieldStops l = true) :
    ∃ u, exec .yield s = .next u ∧ u.mem = s.mem ∧ u.hostMem = s.hostMem ∧
      (∃ c ∈ u.cur :: u.parked, c.run = .preempted ∧ c.task = some (l.lid, k) ∧ c.pc = s.cur.pc + 4 ∧ c.x = s.cur.x ∧
        c.vec = s.cur.vec) ∧
      ∀ c ∈ u.strands, c.ofLaunch l.lid = true → c.Asked := by
  let v : State := s.next4.stopStrand
  have hv : v.cur = s.next4.cur.stopped ∧ v.mem = s.mem ∧ v.hostMem = s.hostMem := by
    show s.next4.stopStrand.cur = _ ∧ s.next4.stopStrand.mem = _ ∧ s.next4.stopStrand.hostMem = _
    unfold State.stopStrand
    split <;> exact ⟨rfl, rfl, rfl⟩
  obtain ⟨hcur, hmem, hhost⟩ := hv
  have hstop : s.next4.cur.stopped.run = .preempted ∧ s.next4.cur.stopped.task = some (l.lid, k) ∧
      s.next4.cur.stopped.pc = s.cur.pc + 4 ∧ s.next4.cur.stopped.x = s.cur.x ∧ s.next4.cur.stopped.vec = s.cur.vec := by
    unfold Strand.stopped Strand.leavePoint
    split <;> exact ⟨rfl, ht, rfl, rfl, rfl⟩
  have hask : (v.askGang l.lid).cur = s.next4.cur.stopped := (State.askGang_cur (by rw [hcur]; exact hstop.1)).trans hcur
  have hmine : (v.askGang l.lid).cur.ofLaunch l.lid = true := by
    rw [hask, Strand.ofLaunch, hstop.2.1]
    exact decide_eq_true rfl
  obtain ⟨hpm, hph⟩ := (v.askGang l.lid).parkGang_mem l.lid
  refine ⟨(v.askGang l.lid).parkGang l.lid, ?_, hpm.trans hmem, hph.trans hhost, ⟨s.next4.cur.stopped, ?_, hstop⟩,
    State.parkGang_asked fun c => State.askGang_asked⟩
  · rw [exec_yield_gang ht hl hs, hu, hy]
    rfl
  · obtain h | ⟨-, h⟩ := State.parkGang_preempted hmine (by rw [hask]; exact hstop.1)
    · rw [h, hask]; exact List.mem_cons_self
    · rw [hask] at h; exact List.mem_cons_of_mem _ h

end

/-! ### The commands of a strand at HALT (R352) -/

theorem Strand.cancelHalted_queue (c : Strand) (i : Fin 4) : ∃ ids, c.cancelHalted.queues[i] = { c.queues[i] with
    entries := if c.queues[i].halted then [] else c.queues[i].entries.filter fun e => !e.fenceOf ids } :=
  ⟨_, Vector.getElem_map _ i.isLt⟩

/-- What is no fence stays in a queue that has not halted. -/
theorem Strand.mem_cancelHalted {c : Strand} {i : Fin 4} {e : QEntry} (hh : c.queues[i].halted = false)
    (he : e ∈ c.queues[i].entries) (hf : ∀ n js, e.cmd ≠ .fence n js) : e ∈ c.cancelHalted.queues[i].entries := by
  obtain ⟨ids, hq⟩ := c.cancelHalted_queue i
  have hkept : e.fenceOf ids = false := by
    unfold QEntry.fenceOf
    split
    · next n js h => exact absurd h (hf n js)
    all_goals rfl
  rw [hq, hh]
  exact List.mem_filter.2 ⟨he, by rw [hkept]; rfl⟩

theorem Strand.commandsDone_iff (c : Strand) :
    c.commandsDone = true ↔ ∀ i : Fin 4, c.queues[i].halted = true ∨ c.queues[i].entries = [] := by
  simp only [Strand.commandsDone, EngineQueue.quiet, List.all_eq_true, Vector.mem_toList_iff, Vector.mem_iff_getElem, Bool.or_eq_true,
    List.isEmpty_iff]
  exact ⟨fun h i => h _ ⟨i.val, i.isLt, rfl⟩, by rintro h _ ⟨i, hi, rfl⟩; exact h ⟨i, hi⟩⟩

theorem Strand.cancelHalted_commandsDone {c : Strand} (h : c.commandsDone = true) : c.cancelHalted.commandsDone = true := by
  rw [Strand.commandsDone_iff] at h ⊢
  intro i
  obtain ⟨ids, hq⟩ := c.cancelHalted_queue i
  rw [hq]
  refine (h i).imp (fun hh => hh) fun he => ?_
  dsimp only
  rw [he]
  exact ite_self []

/-- While a queue that has not halted holds a command that is no fence, commands are left. -/
theorem Strand.cancelHalted_not_commandsDone {c : Strand} {i : Fin 4} {e : QEntry} (hh : c.queues[i].halted = false)
    (he : e ∈ c.queues[i].entries) (hf : ∀ n js, e.cmd ≠ .fence n js) : c.cancelHalted.commandsDone = false := by
  rw [Bool.eq_false_iff, ne_eq, Strand.commandsDone_iff]
  intro hdone
  obtain ⟨ids, hq⟩ := c.cancelHalted_queue i
  obtain h | h := hdone i
  · rw [hq] at h
    exact absurd (hh.symm.trans h) nofun
  · exact List.not_mem_nil (h ▸ Strand.mem_cancelHalted hh he hf)

/-! ### HALT (R352, R363, R364) -/

/-- A strand halted: its generation has moved on, and its commands are gone. -/
def Strand.halt (c : Strand) : Strand :=
  { c with
    run := .halted, gen := c.gen + 1, preempt := .none, moving := false, queues := c.queues.map fun q => { q with entries := [] } }

theorem Strand.halt_entries (c : Strand) (i : Fin 4) : c.halt.queues[i].entries = [] :=
  congrArg EngineQueue.entries (Vector.getElem_map _ i.isLt)

theorem Strand.release_entries (c : Strand) (i : Fin 4) : c.release.queues[i].entries = [] :=
  congrArg EngineQueue.entries (Vector.getElem_map _ i.isLt)

/-- What halted queues held is gone at HALT in any case. -/
theorem Strand.cancelHalted_halt (c : Strand) : c.cancelHalted.halt = c.halt := by
  have hq : (c.cancelHalted.queues.map fun q => { q with entries := [] }) = c.queues.map fun q => { q with entries := [] } :=
    Vector.map_map
  exact congrArg (fun qs : Vector EngineQueue 4 =>
    ({ c with run := .halted, gen := c.gen + 1, preempt := .none, moving := false, queues := qs } : Strand)) hq

/-- With no entry of the scoreboard there is nothing to settle. -/
theorem State.propagateAll_settled {s : State} (hb : s.cur.board = []) (hl : s.cur.lateHeld = []) : s.propagateAll = s := by
  have hboard : s.cur.board ++ byAge s.cur.lateHeld = s.cur.board := by rw [hl]; simp [byAge]
  have hheld : s.holdInBoard = s := by
    unfold State.holdInBoard
    rw [hboard, ← hl]
    rfl
  unfold State.propagateAll State.settleWith
  rw [hheld, hb]
  rfl

/-- HALT waits for the commands of queues that have not halted. -/
theorem exec_halt_waits {s : State} (h : s.cur.cancelHalted.commandsDone = false) :
    exec .halt s = .next { s with cur := { s.cur with run := .haltWait, queues := s.cur.cancelHalted.queues } } := by
  show execHalt s = _
  unfold execHalt
  exact if_pos (by rw [State.withCur_cur, h]; rfl)

/-- HALT with no command and no scoreboard entry left ends the task, and its gang may have stopped with it. -/
theorem exec_halt_ends {s : State} (hd : s.cur.commandsDone = true) (hb : s.cur.board = []) (hl : s.cur.lateHeld = []) :
    exec .halt s = .next (match s.cur.task with
      | none => s.withCur s.cur.halt
      | some t => (if s.cur.preempt = .ending then ((s.withCur s.cur.halt.release).finishEnd t.1).selectDue s.cur.part
        else ((s.withCur s.cur.halt).mapLaunch t.1 fun l => { l with halted := l.halted + 1 }).selectDue s.cur.part).parkGang t.1) := by
  have hsettled : (s.withCur s.cur.cancelHalted).propagateAll = s.withCur s.cur.cancelHalted := State.propagateAll_settled hb hl
  show execHalt s = _
  unfold execHalt
  dsimp only
  rw [if_neg (by rw [State.withCur_cur, Strand.cancelHalted_commandsDone hd]; nofun), hsettled]
  unfold State.haltTask
  dsimp only [State.withCur_cur]
  rw [show ({ s.cur.cancelHalted with
    run := .halted, gen := s.cur.cancelHalted.gen + 1, preempt := .none, moving := false
    queues := s.cur.cancelHalted.queues.map fun q => { q with entries := [] } } : Strand) = s.cur.halt from s.cur.cancelHalted_halt,
    show s.cur.cancelHalted.task = s.cur.task from rfl, show s.cur.cancelHalted.preempt = s.cur.preempt from rfl]
  cases s.cur.task with
  | none => rfl
  | some t =>
    dsimp only
    split <;> rfl

/-! ### The end of a task by HALT -/

/-- Launches changed in place, each under its number. -/
theorem State.launch?_map {s u : State} {f : Launch → Launch} (hu : u.launches = s.launches.map f) (hf : ∀ x, (f x).lid = x.lid)
    (l : Nat) : u.launch? l = (s.launch? l).map f := by
  have hpred : ((fun x : Launch => decide (x.lid = l)) ∘ f) = fun x => decide (x.lid = l) := by
    funext x
    simp only [Function.comp_apply, hf]
  unfold State.launch?
  rw [hu, List.find?_map, hpred]

theorem State.launch?_lid {s : State} {l : Nat} {x : Launch} (h : s.launch? l = some x) : x.lid = l := by
  simpa using List.find?_some h

/-- A gang that leaves its strands leaves another's as it is. -/
theorem State.parkGang_cur_of_not {s : State} {l : Nat} (h : s.cur.ofLaunch l = false) : (s.parkGang l).cur = s.cur := by
  by_cases hs : s.gangStopped l = true
  · obtain ⟨agenda, hp⟩ := State.parkGang_of_stopped hs
    rw [hp]
    exact Strand.leaveGang_of_not h
  · rw [State.parkGang_of_not_stopped (by simpa using hs)]

section
variable {s : State} (hd : s.cur.commandsDone = true) (hb : s.cur.board = []) (hl : s.cur.lateHeld = [])
include hd hb hl

/-- The task of a launch that has ended already leaves its strand free at once (R363). -/
theorem exec_halt_ending {k : Nat × Nat} (ht : s.cur.task = some k) (hp : s.cur.preempt = .ending) :
    ∃ u, exec .halt s = .next u ∧ u.cur = s.cur.halt.release := by
  refine ⟨_, exec_halt_ends hd hb hl, ?_⟩
  rw [ht]
  dsimp only
  rw [if_pos hp]
  obtain ⟨agenda, hdue⟩ := ((s.withCur s.cur.halt.release).finishEnd k.1).selectDue_state s.cur.part
  have hcur : (((s.withCur s.cur.halt.release).finishEnd k.1).selectDue s.cur.part).cur = s.cur.halt.release := by
    rw [hdue]
    exact State.finishEnd_cur _ k.1
  exact (State.parkGang_cur_of_not (by rw [hcur]; rfl)).trans hcur

/-- Another task's end is counted in its launch, and its gang leaves its strands where it was the last to stop. -/
theorem exec_halt_counted {l k : Nat} (ht : s.cur.task = some (l, k)) (hp : s.cur.preempt ≠ .ending) : ∃ agenda,
    exec .halt s = .next (({ s with
      cur := s.cur.halt
      launches := s.launches.map fun x => if x.lid = l then { x with halted := x.halted + 1 } else x
      agenda := agenda } : State).parkGang l) := by
  obtain ⟨agenda, hdue⟩ := ((s.withCur s.cur.halt).mapLaunch l fun x => { x with halted := x.halted + 1 }).selectDue_state s.cur.part
  refine ⟨agenda, (exec_halt_ends hd hb hl).trans ?_⟩
  rw [ht]
  dsimp only
  rw [if_neg hp, hdue]
  rfl

theorem exec_halt_noTask (ht : s.cur.task = none) : exec .halt s = .next (s.withCur s.cur.halt) := by
  rw [exec_halt_ends hd hb hl, ht]

end

/-- A gang that stands with one of its strands halted has stopped where the others have, and one of them waits to be resumed. -/
theorem State.gangStopped_halted_iff {s : State} {l : Nat} (h : s.cur.run = .halted) : s.gangStopped l = true ↔
    (∀ c ∈ s.others.filter (·.ofLaunch l), c.run = .preempted ∨ c.run = .halted) ∧
      ∃ c ∈ s.others.filter (·.ofLaunch l), c.run = .preempted := by
  rw [State.gangStopped_iff]
  simp [State.strands, h, and_assoc]

/-- What HALT leaves of a gang's last strand: it stays halted, or is free with the others. -/
theorem State.parkGang_halted {s : State} {l : Nat} (hr : s.cur.run = .halted) (hl : s.cur.ofLaunch l = true) :
    let u := s.parkGang l
    (u.launch? l).map (·.halted) = (s.launch? l).map (·.halted) ∧ u.cur.gen = s.cur.gen ∧ u.cur.x = s.cur.x ∧ u.cur.vec = s.cur.vec ∧
      ((∀ i : Fin 4, s.cur.queues[i].entries = []) → ∀ i : Fin 4, u.cur.queues[i].entries = []) ∧
      (s.gangStopped l = false → u = s) ∧ (s.gangStopped l = true → u.cur.run = .idle ∧ u.cur.task = none) := by
  intro u
  by_cases hs : s.gangStopped l = true
  · obtain ⟨agenda, hp⟩ := State.parkGang_of_stopped hs
    have hcur : u.cur = s.cur.release := (congrArg State.cur hp).trans (Strand.leaveGang_of_halted hl hr)
    have hgen : s.cur.release.gen = s.cur.gen := if_pos hr
    have hlaunch : u.launch? l = (s.launch? l).map fun x => if x.lid = l then { x with state := .preempted } else x :=
      State.launch?_map (congrArg State.launches hp) (fun x => by split <;> rfl) l
    rw [hcur, hlaunch, Option.map_map]
    refine ⟨?_, hgen, rfl, rfl, fun _ => s.cur.release_entries, fun h => absurd (h.symm.trans hs) nofun, fun _ => ⟨rfl, rfl⟩⟩
    congr 1
    funext x
    dsimp only [Function.comp_apply]
    split <;> rfl
  · have hs' : s.gangStopped l = false := by simpa using hs
    have hu : u = s := State.parkGang_of_not_stopped hs'
    rw [hu]
    exact ⟨rfl, rfl, rfl, rfl, id, fun _ => rfl, fun h => absurd h hs⟩

/-! ### The obligation -/

/-- Settles O17: YIELD where it goes on and where it stops the gang, and HALT where it waits and where it ends the task. -/
theorem yieldAndHaltResults : Obligations.YieldAndHaltResults := by
  unfold Obligations.YieldAndHaltResults
  refine ⟨fun s h => exec_yield_noGang h, fun s l k ht hl hs => ?yield, fun s ⟨i, hh, e, he, hf⟩ => ?waits,
    fun s k hd ht hb hl hp => ?ending, fun s l k hd ht hlaunch hb hl hp => ?counted, fun s hd ht hb hl => ?noTask⟩
  case yield =>
    intro asked waits
    have hstops : s.yieldStops l = (asked || waits) := rfl
    refine ⟨fun h => ?goesOn, fun hu h => ?stops⟩
    case goesOn =>
      rw [exec_yield_gang ht hl hs]
      obtain hu | ⟨ha, hw⟩ := h
      · rw [if_pos hu]; rfl
      · rw [hstops, ha, hw]
        exact congrArg Host.Outcome.next (ite_self _)
    case stops =>
      obtain ⟨u, hexec, hmem, hhost, hmine, hasked⟩ := exec_yield_stops ht hl hs hu (by simpa [hstops] using h)
      exact ⟨u, hexec, hmem, hhost, hmine, fun c hc hcl => (hasked c hc hcl).rotate⟩
  case waits =>
    refine ⟨_, exec_halt_waits (Strand.cancelHalted_not_commandsDone hh he hf), fun j => ⟨fun hj => ?_, fun d hd hn hfd =>
      Strand.mem_cancelHalted hn hd hfd⟩⟩
    obtain ⟨ids, hq⟩ := s.cur.cancelHalted_queue j
    rw [hq, if_pos hj]
  case ending =>
    obtain ⟨u, hu, hcur⟩ := exec_halt_ending hd hb hl ht hp
    refine ⟨u, hu, ?_⟩
    rw [hcur]
    exact ⟨rfl, rfl, rfl, rfl, rfl, s.cur.halt.release_entries⟩
  case counted =>
    intro others
    obtain ⟨agenda, hu⟩ := exec_halt_counted hd hb hl ht hp
    refine ⟨_, hu, ?_⟩
    clear hu
    generalize ht' : ({ s with
      cur := s.cur.halt
      launches := s.launches.map fun x => if x.lid = l.lid then { x with halted := x.halted + 1 } else x
      agenda := agenda } : State) = t
    have hrun : t.cur.run = .halted := by rw [← ht']; rfl
    have hcur : t.cur = s.cur.halt := by rw [← ht']
    have hothers : t.others = s.others := by rw [← ht']
    have hmine : t.cur.ofLaunch l.lid = true := by
      rw [hcur]
      show Strand.ofLaunch s.cur l.lid = true
      rw [Strand.ofLaunch, ht]
      exact decide_eq_true rfl
    have hcount : (t.launch? l.lid).map (·.halted) = some (l.halted + 1) := by
      rw [State.launch?_map (s := s) (congrArg State.launches ht'.symm) (fun x => by split <;> rfl), hlaunch]
      simp
    obtain ⟨hhalted, hgen, hx, hvec, hentries, hstays, hleaves⟩ := State.parkGang_halted hrun hmine
    have hstopped := State.gangStopped_halted_iff (l := l.lid) hrun
    rw [hothers] at hstopped
    rw [hcur] at hgen hx hvec hentries
    obtain ⟨hmem, hhost⟩ := t.parkGang_mem l.lid
    refine ⟨hhalted.trans hcount, hgen, hentries s.cur.halt_entries, hx, hvec, by rw [hmem, ← ht'], by rw [hhost, ← ht'], fun hno => ?_,
      fun hall hsome => hleaves (hstopped.2 ⟨hall, hsome⟩)⟩
    rw [hstays (Bool.eq_false_iff.2 fun h => by
      obtain ⟨-, c, hc, hcr⟩ := hstopped.1 h
      exact hno c hc hcr), hcur, hothers]
    exact ⟨rfl, ht, rfl⟩
  case noTask => exact ⟨_, exec_halt_noTask hd hb hl ht, rfl, rfl, s.cur.halt_entries, rfl, rfl, rfl⟩

end Sys2Proof.Machine
end


section
/-! The retirement of a launch, the requests, stops and resumption of gangs, and the reset of engines (R103, R215, R356, R357, R363,
R364, R392), one lemma each; and O45, assembled from them. -/

namespace Sys2Proof.Machine

/-! ### The retirement of a launch (R392) -/

theorem Launch.finished_iff (x : Launch) : x.finished = true ↔ x.state = .running ∧ x.tasks ≤ x.halted := by
  simp [Launch.finished]

theorem exec_launchRetire {s : State} {l : Nat} {x : Launch} (h : s.launch? l = some x) :
    exec (.launchRetire l) s = .next (if x.finished then s.retireLaunch x else s) := by
  show execLaunchRetire l s = _
  unfold execLaunchRetire
  rw [h]

/-- Once its strands are free and it is gone, what retires a launch is the service of its queue. -/
theorem State.retireLaunch_queueOnly (s : State) (x : Launch) :
    ((s.freeGang x.lid).withoutLaunch x.lid).QueueOnly (s.retireLaunch x) :=
  ((State.mapHwq_queueOnly _ x.queue _).trans (State.releaseHeld_queueOnly _ _)).trans
    (.of_accessOnly (State.selectDue_accessOnly _ _))

theorem State.freeGang_strands {s : State} {l : Nat} {c : Strand} (hc : c ∈ (s.freeGang l).strands) : c.ofLaunch l = false := by
  obtain ⟨d, -, rfl⟩ := State.mem_mapStrands.1 (show c ∈ (s.mapStrands fun c => if c.ofLaunch l then c.release else c).strands from hc)
  split
  · rfl
  · next h => simpa using h

theorem State.freeGang_parked {s : State} {l : Nat} {c : Strand} (hc : c ∈ (s.freeGang l).parked) : c.ofLaunch l = false := by
  simpa using (List.mem_filter.1 hc).2

/-- The record of a queue once the signal of a launch is done: the launch retires. -/
def HwQueue.signalled (h : HwQueue) (idx : Nat) : HwQueue :=
  { h with
    unsignalled := h.unsignalled.filter (· ≠ idx), heldSignals := h.heldSignals.filter fun x => x.index ≠ idx }.retire idx

/-- Where the launch is the next to retire, qdone moves past it, and nothing of it is left. -/
theorem HwQueue.signalled_next {h : HwQueue} {g : HeldSignal} (hd : h.qdone = g.index) (hr : h.retired = [])
    (hu : h.unsignalled = [g.index]) (hh : h.heldSignals = [g]) : (h.signalled g.index).qdone = g.index + 1 ∧
      (h.signalled g.index).unsignalled = [] ∧ (h.signalled g.index).heldSignals = [] := by
  have hunsignalled : h.unsignalled.filter (· ≠ g.index) = [] := by simp [hu]
  have hheld : h.heldSignals.filter (fun x => x.index ≠ g.index) = [] := by simp [hh]
  exact ⟨(HwQueue.retire_next (h := { h with
    unsignalled := h.unsignalled.filter (· ≠ g.index), heldSignals := h.heldSignals.filter fun x => x.index ≠ g.index })
    hd hr hunsignalled).1, hunsignalled, hheld⟩

/-- A launch without a signal is done with it. -/
theorem State.signalLaunch_hwq? {s : State} {q : QueueId} {h : HwQueue} {g : HeldSignal} (hq : s.hwq? q = some h) (ha : g.signal.a = 0) :
    (s.signalLaunch q g).hwq? q = some (h.signalled g.index) := by
  have htry : s.trySignal q g = .ok s := by
    unfold State.trySignal State.doSignal
    simp [ha]
  have hretired := State.retirePacket_hwq? (State.hwq?_mapHwq (f := fun h => { h with
    unsignalled := h.unsignalled.filter (· ≠ g.index), heldSignals := h.heldSignals.filter fun x => x.index ≠ g.index })
    (fun _ => rfl) hq) g.index
  unfold State.signalLaunch
  rw [htry]
  dsimp only
  split
  · exact (State.hwq?_congr rfl q).trans hretired
  · exact hretired

/-- One signal held by a queue, which need not wait for others. -/
theorem State.releaseHeld_single {s : State} {q : QueueId} {h : HwQueue} {g : HeldSignal} (hq : s.hwq? q = some h)
    (hg : h.heldSignals = [g]) (ho : g.ordered = false) : s.releaseHeld q = s.signalLaunch q g := by
  have hmay : s.mayRelease q g = true := by
    unfold State.mayRelease
    rw [ho]
    rfl
  unfold State.releaseHeld
  rw [hq]
  dsimp only
  rw [hg]
  show (if s.mayRelease q g then s.signalLaunch q g else s) = _
  rw [hmay]
  rfl

/-- The record of a queue once a launch of it has retired and holds its signal. -/
def HwQueue.holds (h : HwQueue) (x : Launch) : HwQueue :=
  { h.hold1 x.held with active := h.active.filter fun a => a.1 ≠ x.index }

/-- A launch without a signal that is next to retire moves qdone past it. -/
theorem State.retireLaunch_qdone {s : State} {x : Launch} {h : HwQueue} (hq : s.hwq? x.queue = some h) (ho : x.ordered = false)
    (ha : x.signal.a = 0) (hd : h.qdone = x.index) (hr : h.retired = []) (hu : h.unsignalled = [x.index]) (hh : h.heldSignals = []) :
    ∃ k, (s.retireLaunch x).hwq? x.queue = some k ∧ k.qdone = x.index + 1 ∧ k.unsignalled = [] ∧ k.heldSignals = [] := by
  have hholds : (((s.freeGang x.lid).withoutLaunch x.lid).mapHwq x.queue (HwQueue.holds · x)).hwq? x.queue = some (h.holds x) :=
    State.hwq?_mapHwq (fun _ => rfl) ((State.hwq?_congr rfl x.queue).trans hq)
  have hone : (h.holds x).heldSignals = [x.held] := by simp [HwQueue.holds, HwQueue.hold1, hh]
  have hretire : s.retireLaunch x = ((((s.freeGang x.lid).withoutLaunch x.lid).mapHwq x.queue (HwQueue.holds · x)).signalLaunch x.queue
      x.held).selectDue x.queue.part := by
    rw [← State.releaseHeld_single hholds hone ho]
    rfl
  refine ⟨(h.holds x).signalled x.index, ?_, HwQueue.signalled_next (g := x.held) hd hr hu hone⟩
  rw [hretire, (State.selectDue_accessOnly _ _).hwq?, State.signalLaunch_hwq? hholds ha]
  rfl

/-! ### GANG_PREEMPT (R108, R357) -/

theorem exec_gangPreempt {s : State} {l : Nat} {x : Launch} (h : s.launch? l = some x) :
    exec (.gangPreempt l) s = .next (if x.state = .running && !x.sup then s.askGang l else s) := by
  show execGangPreempt l s = _
  unfold execGangPreempt
  rw [h]

/-! ### GANG_RESUME (R215) -/

/-- The seat of a task to resume is on a strand that nothing holds. -/
theorem State.resumeSeat_free {s : State} {p : Partition} {occ : List Seat} {c : Strand} {sup : Bool} {x : Seat}
    (h : s.resumeSeat p occ c sup = some x) : ∀ y ∈ occ, y.id ≠ x.id := by
  unfold State.resumeSeat at h
  obtain ⟨k, -, hk⟩ := List.exists_of_findSome?_eq_some h
  dsimp only at hk
  split at hk
  · split at hk
    · next hf =>
      obtain ⟨r, -, rfl⟩ := Option.map_eq_some_iff.1 hk
      simpa using ((Bool.and_eq_true _ _).mp hf).2
    · nomatch hk
  · obtain ⟨hid, hocc⟩ := State.seatAt_some hk
    rw [hid]
    exact hocc

/-- No two tasks that resume have seats on one strand. -/
theorem State.resumeSeats_ids {s : State} {p : Partition} {sup : Bool} (cs : List Strand) {occ seats : List Seat}
    (h : s.resumeSeats p sup occ cs = some seats) : (seats.map (·.id)).Nodup ∧ ∀ x ∈ seats, ∀ y ∈ occ, y.id ≠ x.id := by
  induction cs generalizing occ seats with
  | nil => cases h; exact ⟨.nil, nofun⟩
  | cons c cs ih =>
    unfold State.resumeSeats at h
    split at h
    · nomatch h
    next x hx =>
    obtain ⟨xs, hxs, rfl⟩ := Option.map_eq_some_iff.1 h
    obtain ⟨hnd, hocc⟩ := ih hxs
    refine ⟨List.nodup_cons.2 ⟨fun hm => ?_, hnd⟩, fun z hz y hy => ?_⟩
    · obtain ⟨z, hz, he⟩ := List.mem_map.1 hm
      exact hocc z hz x (by simp) he.symm
    · obtain rfl | hz := List.mem_cons.1 hz
      · exact State.resumeSeat_free hx y hy
      · exact hocc z hz y (List.mem_append_left _ hy)

/-- Each task that resumes has one. -/
theorem State.resumeSeats_length {s : State} {p : Partition} {sup : Bool} (cs : List Strand) {occ seats : List Seat}
    (h : s.resumeSeats p sup occ cs = some seats) : seats.length = cs.length := by
  induction cs generalizing occ seats with
  | nil => cases h; rfl
  | cons c cs ih =>
    unfold State.resumeSeats at h
    split at h
    · nomatch h
    · obtain ⟨xs, hxs, rfl⟩ := Option.map_eq_some_iff.1 h
      exact congrArg (· + 1) (ih hxs)

/-- A pre-empted task as it runs again on a seat. -/
def Strand.resumed (c : Strand) (seat : Seat) (gen : Nat) : Strand :=
  { c with
    id := seat.id, strandid := seat.id.sid, coreid := seat.id.core, lanegrant := seat.lanes, run := .running, preempt := .none, gen := gen
    trpend := BitVec.ofNat 64 (landingVA seat.id + 0x1000), trpages := BitVec.ofNat 64 (landingVA seat.id) }

/-- Pre-empted tasks put on their seats. -/
def State.reseatAll (s : State) (ys : List (Strand × Seat)) : State := ys.foldl (fun t y => t.reseat y.1 y.2) s

theorem State.mem_reseat {s : State} {c d : Strand} {seat : Seat} (hd : d ∈ (s.reseat c seat).strands) :
    (d.id = seat.id ∧ ∃ gen, d = c.resumed seat gen) ∨ (d.id ≠ seat.id ∧ d ∈ s.strands) := by
  obtain ⟨e, he, rfl⟩ := State.mem_mapStrands.1 hd
  split
  · exact .inl ⟨rfl, _, rfl⟩
  · next h => exact .inr ⟨h, he⟩

/-- A strand that is no task's seat is as it was. -/
theorem State.mem_reseatAll_of_ne {ys : List (Strand × Seat)} {s : State} {d : Strand} (hd : d ∈ (s.reseatAll ys).strands)
    (hne : ∀ y ∈ ys, d.id ≠ y.2.id) : d ∈ s.strands := by
  induction ys generalizing s with
  | nil => exact hd
  | cons y ys ih =>
    obtain ⟨h, -⟩ | ⟨-, h⟩ := State.mem_reseat (ih hd fun z hz => hne z (List.mem_cons_of_mem _ hz))
    · exact absurd h (hne y List.mem_cons_self)
    · exact h

/-- On seats of different strands, each strand runs its own task. -/
theorem State.mem_reseatAll {ys : List (Strand × Seat)} (hnd : (ys.map (·.2.id)).Nodup) {s : State} {y : Strand × Seat} (hy : y ∈ ys)
    {d : Strand} (hd : d ∈ (s.reseatAll ys).strands) (hid : d.id = y.2.id) : ∃ gen, d = y.1.resumed y.2 gen := by
  induction ys generalizing s with
  | nil => nomatch hy
  | cons z zs ih =>
    obtain ⟨hz, hnd⟩ := List.nodup_cons.1 hnd
    obtain rfl | hy := List.mem_cons.1 hy
    · have hold : d ∈ (s.reseat y.1 y.2).strands := State.mem_reseatAll_of_ne hd fun w hw he =>
        hz (List.mem_map.2 ⟨w, hw, he.symm.trans hid⟩)
      obtain ⟨-, h⟩ | ⟨h, -⟩ := State.mem_reseat hold
      · exact h
      · exact absurd hid h
    · exact ih hnd hy hd

theorem State.reseatAll_state (ys : List (Strand × Seat)) (s : State) :
    ∃ cur others, s.reseatAll ys = { s with cur := cur, others := others } := by
  induction ys generalizing s with
  | nil => exact ⟨s.cur, s.others, rfl⟩
  | cons y ys ih =>
    obtain ⟨cur, others, h⟩ := ih (s.reseat y.1 y.2)
    exact ⟨cur, others, h⟩

theorem exec_gangResume_not {s : State} {l : Nat} {x : Launch} (h : s.launch? l = some x)
    (hx : x.state ≠ .preempted ∨ s.module.phase = .tripped) : exec (.gangResume l) s = .next s := by
  show Host.Outcome.next (s.resumeGang l) = _
  unfold State.resumeGang State.tripped
  rw [h]
  dsimp only
  rw [if_pos (by simpa using hx)]

section
variable {s : State} {l : Nat} {x : Launch} {p : Partition} (h : s.launch? l = some x) (hx : x.state = .preempted)
  (ht : s.module.phase ≠ .tripped) (hp : s.partition? x.queue.part = some p)
include h hx ht hp

/-- The gang of a pre-empted launch stays where not all its seats are free. -/
theorem exec_gangResume_stays (hn : s.resumeSeats p x.sup (seatsOf s.strands) (s.parkedOf l) = none) :
    exec (.gangResume l) s = .next s := by
  show Host.Outcome.next (s.resumeGang l) = _
  unfold State.resumeGang State.tripped
  rw [h]
  dsimp only
  rw [if_neg (by simp [hx, ht]), hp]
  dsimp only
  rw [hn]

/-- Where they are, its tasks are put on them and its launch runs. -/
theorem exec_gangResume_resumes {seats : List Seat}
    (hn : s.resumeSeats p x.sup (seatsOf s.strands) (s.parkedOf l) = some seats) : ∃ mem,
    exec (.gangResume l) s = .next (({ s.reseatAll ((s.parkedOf l).zip seats) with
      mem := mem, parked := s.parked.filter fun c => !c.ofLaunch l } : State).mapLaunch l fun y => { y with state := .running }) := by
  obtain ⟨cur, others, hseat⟩ := State.reseatAll_state ((s.parkedOf l).zip seats) s
  have hparked : (s.reseatAll ((s.parkedOf l).zip seats)).parked = s.parked := by rw [hseat]
  refine ⟨((s.parkedOf l).zip seats).foldl (fun m y => moveRegion s.mem m y.1.id y.2.id) s.mem, ?_⟩
  show Host.Outcome.next (s.resumeGang l) = _
  unfold State.resumeGang State.tripped
  rw [h]
  dsimp only
  rw [if_neg (by simp [hx, ht]), hp]
  dsimp only
  rw [hn, ← hparked]
  rfl

end

/-! ### PREEMPT_DEADLINE (R356, R357, R398) -/

theorem Strand.unsettled_eq_false_iff (c : Strand) :
    c.unsettled = false ↔ (∀ e ∈ c.board, e.settled = true) ∧ c.lateHeld = [] := by
  simp [Strand.unsettled, Strand.boardOpen]

/-- The strand in front is where a stop by the Landing takes effect. -/
def State.StopsHere (s : State) : Prop :=
  s.cur.atPoint = true ∧ (∀ e ∈ s.cur.board, e.settled = true) ∧ s.cur.lateHeld = [] ∧ s.cur.history = none ∧ s.held = false

theorem State.stopsHere_iff (s : State) : s.StopsHere ↔
    (s.cur.atPoint && !s.cur.unsettled && s.cur.history.isNone && !s.held) = true := by
  simp only [State.StopsHere, Bool.and_eq_true, Bool.not_eq_true', Strand.unsettled_eq_false_iff, Option.isNone_iff_eq_none, and_assoc]

theorem exec_preemptDeadline_none {s : State} (h : s.cur.preempt = .none ∨ s.cur.preempt = .ending) :
    exec (.preemptDeadline s.cur.id) s = .next s := by
  show Host.Outcome.next (s.onStrand s.cur.id _) = _
  unfold State.onStrand
  rw [s.focus_self, if_pos rfl]
  obtain h | h := h <;> simp only [h] <;> rw [s.focus_self]

/-- With a stop outstanding, the strand stops where it may, and is marked elsewhere. -/
theorem exec_preemptDeadline {s : State} (hn : s.cur.preempt ≠ .none) (he : s.cur.preempt ≠ .ending) :
    (¬s.StopsHere → exec (.preemptDeadline s.cur.id) s = .next { s with cur := { s.cur with preempt := .forced } }) ∧
      (s.StopsHere → exec (.preemptDeadline s.cur.id) s = .next (s.forceStop.focus s.cur.id)) := by
  have hexec : exec (.preemptDeadline s.cur.id) s = .next (
      (if s.cur.atPoint && !s.cur.unsettled && s.cur.history.isNone && !s.held then s.forceStop
        else s.withCur { s.cur with preempt := .forced }).focus s.cur.id) := by
    show Host.Outcome.next (s.onStrand s.cur.id _) = _
    unfold State.onStrand
    rw [s.focus_self, if_pos rfl]
    dsimp only
    cases hp : s.cur.preempt with
    | none => exact absurd hp hn
    | ending => exact absurd hp he
    | requested | arriving _ | raised | forced => rfl
  rw [hexec, s.stopsHere_iff]
  refine ⟨fun h => ?_, fun h => by rw [if_pos h]⟩
  rw [if_neg h]
  exact congrArg Host.Outcome.next (s.withCur { s.cur with preempt := .forced }).focus_self

/-- A strand that stops with its task stands stopped, or is free and its task waits. -/
theorem State.forceStop_stopped {s : State} (ht : s.cur.task ≠ none) :
    (s.forceStop.focus s.cur.id).mem = s.mem ∧ ((s.forceStop.focus s.cur.id).cur = s.cur.stopped ∨
      ((s.forceStop.focus s.cur.id).cur.task = none ∧ s.cur.stopped ∈ (s.forceStop.focus s.cur.id).parked)) := by
  obtain ⟨t, ht⟩ := Option.ne_none_iff_exists'.1 ht
  have hforce : s.forceStop = s.stopStrand.parkGang t.1 := by
    unfold State.forceStop
    rw [ht]
  have hstop : s.stopStrand.cur = s.cur.stopped ∧ s.stopStrand.mem = s.mem := by
    unfold State.stopStrand
    dsimp only
    split <;> exact ⟨rfl, rfl⟩
  obtain ⟨hcur, hmem⟩ := hstop
  have hstopped : s.cur.stopped.run = .preempted ∧ s.cur.stopped.task = some t ∧ s.cur.stopped.id = s.cur.id := by
    unfold Strand.stopped Strand.leavePoint
    split <;> exact ⟨rfl, ht, rfl⟩
  obtain ⟨hrun, htask, hid⟩ := hstopped
  have hmine : s.stopStrand.cur.ofLaunch t.1 = true := by
    rw [hcur, Strand.ofLaunch, htask]
    exact decide_eq_true rfl
  have hpark := State.parkGang_preempted hmine (by rw [hcur]; exact hrun)
  rw [hcur] at hpark
  have hfront : (s.stopStrand.parkGang t.1).cur.id = s.cur.id := by
    obtain h | ⟨h, -⟩ := hpark <;> rw [h] <;> exact hid
  have hfocus : s.forceStop.focus s.cur.id = s.stopStrand.parkGang t.1 := by
    rw [hforce, ← hfront]
    exact State.focus_self _
  rw [hfocus]
  exact ⟨(State.parkGang_mem _ _).1.trans hmem, hpark.imp id fun ⟨h, hp⟩ => ⟨by rw [h]; rfl, hp⟩⟩

/-! ### ENGINE_QUIESCE_TIMEOUT (R363) -/

/-- An engine queue whose command in flight is given up: it halts with EDATA, DETAIL all ones (Table 12-13). -/
def EngineQueue.reset1 (q : EngineQueue) : EngineQueue :=
  if q.inFlight then
    { q with halted := true, fault := faultRecord ((q.entries.head?.map fun e => e.cmd.fn).getD 0) 0x108 (2 ^ 32 - 1) }
  else q

theorem QCmd.fn_le (c : QCmd) : c.fn ≤ 7 := by cases c <;> simp [QCmd.fn]

/-- The fields CODE and DETAIL of a record of EDATA with DETAIL all ones. -/
theorem faultRecord_edata {fn : Nat} (h : fn ≤ 7) :
    (faultRecord fn 0x108 (2 ^ 32 - 1)).toNat % 65536 = 0x108 ∧ (faultRecord fn 0x108 (2 ^ 32 - 1)).toNat / 2 ^ 32 = 2 ^ 32 - 1 := by
  have hword : (faultRecord fn 0x108 (2 ^ 32 - 1)).toNat = (2 ^ 32 - 1) * 2 ^ 32 + fn * 65536 + 0x108 := by
    unfold faultRecord
    rw [BitVec.toNat_ofNat, Nat.mod_eq_of_lt (by simp; omega)]
    simp
  omega

theorem EngineQueue.reset1_idle {q : EngineQueue} (h : q.inFlight = false) : q.reset1 = q := by
  unfold EngineQueue.reset1
  rw [h]
  rfl

theorem EngineQueue.reset1_inFlight {q : EngineQueue} (h : q.inFlight = true) : q.reset1.halted = true ∧
    q.reset1.entries = q.entries ∧ q.reset1.done = q.done ∧ q.reset1.fault.toNat % 65536 = 0x108 ∧
    q.reset1.fault.toNat / 2 ^ 32 = 2 ^ 32 - 1 := by
  have hfn : ((q.entries.head?.map fun e => e.cmd.fn).getD 0) ≤ 7 := by
    cases q.entries.head? with
    | none => exact Nat.zero_le 7
    | some e => exact e.cmd.fn_le
  unfold EngineQueue.reset1
  rw [if_pos h]
  exact ⟨rfl, rfl, rfl, faultRecord_edata hfn⟩

/-- A strand with its engines reset where it holds a task of the partition. -/
def Strand.quiesced (part : Nat) (c : Strand) : Strand := if c.part = part && c.task.isSome then c.resetEngines else c

/-! ### The obligation -/

/-- Settles O45: each clause is the lemma above on its event. -/
theorem gangResults : Obligations.GangResults := by
  unfold Obligations.GangResults
  refine fun s => ⟨fun l x h => ⟨fun hx => ?running, fun hr ht => ?retires, fun hx => ?asksNot, fun hr hs => ?asks, exec_gangResume_not h,
    fun p hx ht hp => ⟨exec_gangResume_stays h hx ht hp, fun seats hn => ?resumes⟩⟩, exec_preemptDeadline_none, fun hn he => ?deadline,
    fun part => ⟨Strand.quiesced part, rfl, fun c => ⟨fun hc => ?others, fun hp ht => ?reset⟩⟩, fun part => rfl⟩
  case running =>
    rw [exec_launchRetire h, if_neg]
    rw [x.finished_iff]
    rintro ⟨hr, ht⟩
    exact hx.elim (fun hn => hn hr) fun hlt => absurd ht (not_le.2 hlt)
  case retires =>
    obtain rfl := State.launch?_lid h
    have hframe := s.retireLaunch_queueOnly x
    refine ⟨s.retireLaunch x, by rw [exec_launchRetire h, if_pos (x.finished_iff.2 ⟨hr, ht⟩)], fun c hc => ?_, fun y hy => ?_, fun c hc => ?_,
      fun k hq ho ha hd hret hu hh => State.retireLaunch_qdone hq ho ha hd hret hu hh⟩
    · rw [hframe.strands] at hc
      exact State.freeGang_strands hc
    · rw [hframe.launches] at hy
      simpa using (List.mem_filter.1 hy).2
    · rw [hframe.parked] at hc
      exact State.freeGang_parked hc
  case asksNot =>
    rw [exec_gangPreempt h, if_neg]
    obtain hx | hx := hx <;> simp [hx]
  case asks =>
    refine ⟨s.askGang l, by rw [exec_gangPreempt h, if_pos (by simp [hr, hs])], rfl, rfl, fun c => State.askGang_asked, s.askGang_unasked l⟩
  case resumes =>
    obtain ⟨mem, hexec⟩ := exec_gangResume_resumes h hx ht hp hn
    have hnd : (((s.parkedOf l).zip seats).map (·.2.id)).Nodup := by
      have hids := (State.resumeSeats_ids _ hn).1
      rwa [← List.map_snd_zip (State.resumeSeats_length _ hn).le, List.map_map] at hids
    refine ⟨_, hexec, fun c hc => by simpa using (List.mem_filter.1 hc).2, fun y hy hl => ?_, fun y hy d hd hid => ?_⟩
    · obtain ⟨z, -, rfl⟩ := List.mem_map.1 hy
      split
      · rfl
      · next hz => rw [if_neg hz] at hl; exact absurd hl hz
    · obtain ⟨gen, rfl⟩ := State.mem_reseatAll hnd hy hd hid
      exact ⟨rfl, rfl, rfl, rfl, rfl, rfl, rfl, rfl, rfl⟩
  case deadline =>
    intro now at_ stopped
    obtain ⟨hmark, hstop⟩ := exec_preemptDeadline hn he
    exact ⟨hmark, fun hnow htask => ⟨_, hstop hnow, State.forceStop_stopped htask⟩⟩
  case others =>
    refine if_neg ?_
    obtain hc | hc := hc <;> simp [hc]
  case reset =>
    have hreset : Strand.quiesced part c = c.resetEngines := if_pos (by simpa [hp, Option.isSome_iff_ne_none] using ht)
    rw [hreset]
    refine ⟨rfl, fun j => ?_⟩
    have hj : c.resetEngines.queues[j] = c.queues[j].reset1 := Vector.getElem_map _ j.isLt
    rw [hj]
    exact ⟨EngineQueue.reset1_idle, EngineQueue.reset1_inFlight⟩

end Sys2Proof.Machine
end


section
/-! A packet of a hardware queue: the record of its queue when it starts, retires or halts it, and what each of its steps answers
(R94, R97, R98). -/

namespace Sys2Proof.Machine

/-! ### The record of a queue while one changes -/

/-- Any queue's record where one queue changes and keeps its number. -/
theorem State.hwq?_mapHwq_any (s : State) {q : QueueId} {f : HwQueue → HwQueue} (hf : ∀ k, (f k).id = k.id) (r : QueueId) :
    (s.mapHwq q f).hwq? r = (s.hwq? r).map fun k => if k.id = q then f k else k := by
  unfold State.hwq? State.mapHwq
  have hpred : ((fun k : HwQueue => decide (k.id = r)) ∘ fun k => if k.id = q then f k else k) = fun k => decide (k.id = r) := by
    funext k
    by_cases hk : k.id = q
    · simp [hk, hf]
    · simp [hk]
  rw [List.find?_map, hpred]

/-- The errors that await a packet's steps, while a queue's other fields change. -/
theorem State.stepFails_mapHwq (s : State) {q : QueueId} {f : HwQueue → HwQueue} (hf : ∀ k, (f k).id = k.id)
    (he : ∀ k, (f k).errors = k.errors) (r : QueueId) (idx step : Nat) :
    (s.mapHwq q f).stepFails r idx step = s.stepFails r idx step := by
  unfold State.stepFails
  rw [s.hwq?_mapHwq_any hf, Option.any_map]
  refine congrArg (fun g => (s.hwq? r).any g) (funext fun k => ?_)
  by_cases hk : k.id = q
  · simp only [if_pos hk, he]
  · simp only [if_neg hk]

/-! ### The halt of a queue by a packet -/

/-- The record of a queue that a packet is about to halt (R93). -/
def HwQueue.atFault (h : HwQueue) (p : Packet) : HwQueue :=
  { h with
    head := p.index, hold := none, active := h.active.filter fun a => a.1 ≠ p.index
    fetched := h.fetched.filter fun x => x.index ≠ p.index, errors := h.errors.filter fun e => e.1 ≠ p.index }

theorem State.packetHalt_eq (s : State) (p : Packet) (step code : Nat) : s.packetHalt p step code =
    ((s.mapHwq p.queue fun h => h.atFault p).setQword p.queue 0x20 (BitVec.ofNat 64 p.index)).haltQueue p.queue (pktTag p) step code
      p.index := rfl

theorem State.packetHalt_queueOnly (s : State) (p : Packet) (step code : Nat) : s.QueueOnly (s.packetHalt p step code) :=
  ((s.mapHwq_queueOnly p.queue _).trans (State.setQword_queueOnly _ _ _ _)).trans (State.haltQueue_queueOnly _ _ _ _ _ _)

/-- A packet at fault halts its queue, with its index at head, and is no longer fetched (R93). -/
theorem State.packetHalt_hwq? {s : State} {p : Packet} {h : HwQueue} (hq : s.hwq? p.queue = some h) (step code : Nat) :
    ∃ k, (s.packetHalt p step code).hwq? p.queue = some k ∧ k.state = .halted ∧ k.head = p.index ∧ k.hold = none ∧
      ∀ y ∈ k.fetched, y.index ≠ p.index := by
  have hfault : (s.mapHwq p.queue fun h => h.atFault p).hwq? p.queue = some (h.atFault p) := State.hwq?_mapHwq (fun _ => rfl) hq
  rw [s.packetHalt_eq]
  refine ⟨_, State.haltQueue_hwq? (((State.setQword_accessOnly _ _ _ _).hwq? _).trans hfault) _ _ _ _, rfl, rfl, rfl, ?_⟩
  intro y hy
  simpa using (List.mem_filter.mp hy).2

/-! ### The retirement of a packet -/

/-- A packet that retires leaves its queue's record, which then holds no more (R98, R101). -/
theorem State.packetDone_hwq? {s : State} {p : Packet} {h : HwQueue} (hq : s.hwq? p.queue = some h) :
    (s.packetDone p).hwq? p.queue = some (HwQueue.retire { h with hold := none } p.index) := by
  have hretired := State.retirePacket_hwq? (State.hwq?_mapHwq (f := fun k => { k with hold := none }) (fun _ => rfl) hq) p.index
  unfold State.packetDone
  dsimp only
  rw [(State.selectDue_accessOnly _ _).hwq?]
  split
  · exact hretired
  · exact hretired

/-! ### The start of a packet -/

/-- The record of a queue whose packet has started (R102). -/
def HwQueue.start (h : HwQueue) (p : Packet) (launch : Bool) : HwQueue :=
  { h with
    fetched := h.fetched.filter fun x => x.index ≠ p.index
    active := if h.active.any fun a => a.1 = p.index then h.active else h.active ++ [(p.index, launch)]
    aged := 0 }

theorem State.packetStarts_eq (s : State) (p : Packet) (launch : Bool) :
    s.packetStarts p launch = s.mapHwq p.queue fun h => h.start p launch := rfl

/-- What a step of the packet, and the threshold of a DEPEND, ask of a queue's record stays as it was when a packet starts. -/
theorem State.packetStarts_stepFails (s : State) (p : Packet) (b : Bool) (q : QueueId) (idx step : Nat) :
    (s.packetStarts p b).stepFails q idx step = s.stepFails q idx step :=
  s.stepFails_mapHwq (f := fun h => h.start p b) (fun _ => rfl) (fun _ => rfl) q idx step

/-- The queue that a step of a DEPEND names has retired as far as its threshold (R94). -/
def State.DependMet (s : State) (p : Packet) (i : Nat) : Prop :=
  ∃ k, s.hwq? { p.queue with q := dependQueue p i } = some k ∧ dependThreshold p i ≤ k.qdone

theorem State.packetStarts_dependMet (s : State) (p : Packet) (b : Bool) (i : Nat) :
    (s.packetStarts p b).DependMet p i ↔ s.DependMet p i := by
  unfold State.DependMet
  rw [s.packetStarts_eq, s.hwq?_mapHwq_any (f := fun h => h.start p b) fun _ => rfl]
  cases s.hwq? { p.queue with q := dependQueue p i } with
  | none => simp
  | some k =>
    simp only [Option.map_some, Option.some.injEq, exists_eq_left']
    split
    · rfl
    · rfl

/-! ### One step of a packet -/

theorem State.packetStep_fails {s : State} {p : Packet} {i : Nat} (h : s.stepFails p.queue p.index i = true) :
    s.packetStep p i = .fault := if_pos h

section Ok
variable {s : State} {p : Packet} {i : Nat} (h : s.stepFails p.queue p.index i = false)
include h

theorem State.packetStep_write (ht : pktType p = 2) :
    s.packetStep p i = stepOf (s.landingStore p.queue.part (pw p (1 + 2 * i)) (BitVec.ofNat 64 (pw p (2 + 2 * i)))) := by
  unfold State.packetStep
  rw [h, ht]
  rfl

theorem State.packetStep_signal (ht : pktType p = 3) : s.packetStep p i = stepOf (s.doSignal p.queue.part (pktSignal p 1)) := by
  unfold State.packetStep
  rw [h, ht]
  rfl

theorem State.packetStep_writeSignal (ht : pktType p = 5) :
    s.packetStep p i = if i = 0 then stepOf (s.landingStore p.queue.part (pw p 1) (BitVec.ofNat 64 (pw p 2)))
      else stepOf (s.doSignal p.queue.part (pktSignal p 3)) := by
  unfold State.packetStep
  rw [h, ht]
  rfl

theorem State.packetStep_dependMet (ht : pktType p = 7) (hm : s.DependMet p i) : s.packetStep p i = .done s := by
  obtain ⟨k, hk, hd⟩ := hm
  unfold State.packetStep
  rw [h, ht]
  simp only [Bool.false_eq_true, if_false, hk, if_pos hd]

theorem State.packetStep_dependUnmet (ht : pktType p = 7) (hm : ¬s.DependMet p i) : s.packetStep p i = .holds := by
  unfold State.packetStep
  rw [h, ht]
  simp only [Bool.false_eq_true, if_false]
  split
  · rfl
  next k hk => exact if_neg fun hd => hm ⟨k, hk, hd⟩

end Ok

/-! ### The steps of a packet in order -/

section Steps
variable {s t : State} {p : Packet} {i : Nat}

theorem State.packetSteps_done (n : Nat) (h : s.packetStep p i = .done t) : s.packetSteps p (n + 1) i = t.packetSteps p n (i + 1) := by
  rw [State.packetSteps, h]

theorem State.packetSteps_holds (n : Nat) (h : s.packetStep p i = .holds) : s.packetSteps p (n + 1) i = s.holdAt p (.depend p i) := by
  rw [State.packetSteps, h]

theorem State.packetSteps_fault (n : Nat) (h : s.packetStep p i = .fault) : s.packetSteps p (n + 1) i = s.packetHalt p i 0x217 := by
  rw [State.packetSteps, h]

/-- The steps left at a step that is to meet a data error. -/
theorem State.stepsFrom_fails (hi : i < pktSteps p) (h : s.stepFails p.queue p.index i = true) :
    s.stepsFrom p i = s.packetHalt p i 0x217 := by
  unfold State.stepsFrom
  obtain ⟨n, hn⟩ : ∃ n, pktSteps p - i = n + 1 := ⟨pktSteps p - i - 1, by omega⟩
  rw [hn, State.packetSteps_fault n (State.packetStep_fails h)]

/-- The steps left after one that is performed. -/
theorem State.stepsFrom_done (hi : i < pktSteps p) (h : s.packetStep p i = .done t) : s.stepsFrom p i = t.stepsFrom p (i + 1) := by
  unfold State.stepsFrom
  obtain ⟨n, hn⟩ : ∃ n, pktSteps p - i = n + 1 := ⟨pktSteps p - i - 1, by omega⟩
  rw [hn, State.packetSteps_done n h, show pktSteps p - (i + 1) = n by omega]

/-- The steps left at one that holds the queue. -/
theorem State.stepsFrom_holds (hi : i < pktSteps p) (h : s.packetStep p i = .holds) :
    s.stepsFrom p i = s.holdAt p (.depend p i) := by
  unfold State.stepsFrom
  obtain ⟨n, hn⟩ : ∃ n, pktSteps p - i = n + 1 := ⟨pktSteps p - i - 1, by omega⟩
  rw [hn, State.packetSteps_holds n h]

/-- No step is left. -/
theorem State.stepsFrom_end (hi : pktSteps p ≤ i) : s.stepsFrom p i = s.packetDone p := by
  unfold State.stepsFrom
  rw [Nat.sub_eq_zero_of_le hi]
  rfl

/-- The steps of a DEPEND up to one, each of which is met. -/
theorem State.stepsFrom_dependMet (ht : pktType p = 7) (n : Nat) (hn : i + n ≤ pktSteps p)
    (h : ∀ j, i ≤ j → j < i + n → s.stepFails p.queue p.index j = false ∧ s.DependMet p j) : s.stepsFrom p i = s.stepsFrom p (i + n) := by
  induction n with
  | zero => rfl
  | succ n ih =>
    obtain ⟨hok, hmet⟩ := h (i + n) (Nat.le_add_right i n) (by omega)
    rw [ih (by omega) fun j hj hlt => h j hj (by omega),
      State.stepsFrom_done (by omega) (State.packetStep_dependMet hok ht hmet)]
    rfl

end Steps

/-- A store of a WRITE packet: its address is the word given, its value the next (Table 5-7). -/
def State.packetPut (p : Packet) (s : State) (i : Nat) : Except Fail State :=
  s.landingStore p.queue.part (pw p i) (BitVec.ofNat 64 (pw p (i + 1)))

/-- The stores of the first n steps of a WRITE. -/
def State.packetPuts (p : Packet) (s : State) (n : Nat) : Except Fail State :=
  (List.range n).foldlM (fun u i => State.packetPut p u (1 + 2 * i)) s

/-- The stores of one step more are those before it, then its own. -/
theorem State.packetPuts_succ (p : Packet) (s : State) (n : Nat) :
    State.packetPuts p s (n + 1) = State.packetPuts p s n >>= fun u => State.packetPut p u (1 + 2 * n) := by
  unfold State.packetPuts
  rw [List.range_succ, List.foldlM_append]
  refine congrArg _ (funext fun u => ?_)
  exact bind_pure _

/-- The steps of a WRITE up to one: their stores in order. -/
theorem State.stepsFrom_puts {s v : State} {p : Packet} (ht : pktType p = 2) {n : Nat} (hn : n ≤ pktSteps p)
    (hok : ∀ j < n, s.stepFails p.queue p.index j = false) (hv : State.packetPuts p s n = .ok v) :
    s.AccessOnly v ∧ s.stepsFrom p 0 = v.stepsFrom p n := by
  induction n generalizing v with
  | zero =>
    cases hv
    exact ⟨.refl s, rfl⟩
  | succ n ih =>
    rw [State.packetPuts_succ] at hv
    cases hu : State.packetPuts p s n with
    | error e => rw [hu] at hv; nomatch hv
    | ok u =>
      rw [hu] at hv
      obtain ⟨haccess, hsteps⟩ := ih (by omega) (fun j hj => hok j (by omega)) hu
      have hstep : u.packetStep p n = .done v := by
        rw [State.packetStep_write ((haccess.stepFails _ _ _).trans (hok n (Nat.lt_succ_self n))) ht,
          show 2 + 2 * n = 1 + 2 * n + 1 by omega]
        exact congrArg stepOf hv
      exact ⟨haccess.trans (State.landingStore_accessOnly hv), hsteps.trans (State.stepsFrom_done (by omega) hstep)⟩

/-! ### The condition of a WAIT -/

/-- The condition of a WAIT holds of a word read (Table 5-7). -/
theorem waitHolds_iff {c x v : Nat} (hc : c ≤ 3) :
    waitHolds c x v = true ↔ (c = 0 ∧ x = v) ∨ (c = 1 ∧ x ≠ v) ∨ (c = 2 ∧ v ≤ x) ∨ (c = 3 ∧ x < v) := by
  match c, hc with
  | 0, _ => simp [waitHolds]
  | 1, _ => simp [waitHolds]
  | 2, _ => simp [waitHolds]
  | 3, _ => simp [waitHolds]

/-- A WAIT whose step is to meet a data error halts its queue. -/
theorem State.waitLook_fails {s : State} {p : Packet} (h : s.stepFails p.queue p.index 0 = true) :
    s.waitLook p = s.packetHalt p 0 0x217 := if_pos h

/-- A WAIT that has read its word retires where the condition holds, else it holds its queue. -/
theorem State.waitLook_ok {s v : State} {p : Packet} {x : Word} (h : s.stepFails p.queue p.index 0 = false)
    (hx : s.landingRead p.queue.part (pw p 1) 8 = (.ok x, v)) :
    s.waitLook p = if waitHolds (pw p 3 % 8) x.toNat (pw p 2) then v.packetDone p else v.holdAt p (.wait p) := by
  unfold State.waitLook
  rw [h, hx]
  rfl

end Sys2Proof.Machine
end


section
/-! The copy of a COPY packet (R98): its translations and its writes leave the records of the queues alone, so that one at fault
halts its own. -/

namespace Sys2Proof.Machine

/-! ### What a copy's translations leave alone -/

theorem State.leafOf_accessOnly (s : State) (v : Via) (lvl : Level) (va : Nat) : s.AccessOnly (s.leafOf v lvl va).2 := by
  obtain ⟨_, _, h⟩ := s.leafOf_state v lvl va
  rw [h]
  rfl

theorem State.touchLeaf_accessOnly (s : State) (v : Via) (l : Leaf) (n : Need) : s.AccessOnly (s.touchLeaf v l n) := by
  unfold State.touchLeaf
  split
  · exact .refl s
  · rfl

theorem State.sortPages_accessOnly (s : State) (gs : List Nat) : s.AccessOnly (s.sortPages gs).2 := by
  induction gs generalizing s with
  | nil => exact .refl s
  | cons g gs ih => exact (s.leafOf_accessOnly _ _ g).trans (ih _)

/-- What every step of a fold leaves alone, the fold leaves alone. -/
theorem State.AccessOnly.foldl {α β : Type} (state : β → State) (f : β → α → β) (hf : ∀ b a, (state b).AccessOnly (state (f b a)))
    (l : List α) (b : β) : (state b).AccessOnly (state (l.foldl f b)) := by
  induction l generalizing b with
  | nil => exact .refl _
  | cons a l ih => exact (hf b a).trans (ih _)

theorem State.touchEach_accessOnly (s : State) (n : Need) (l : List Spot) : s.AccessOnly (s.touchEach n l) := by
  refine State.AccessOnly.foldl Prod.fst _ (fun r x => ?_) _ (s, none)
  split
  · exact .refl _
  · exact r.1.touchLeaf_accessOnly _ x n

theorem State.runCopyBytes_accessOnly (a b n : Nat) (u : State) : u.AccessOnly (State.runCopyBytes a b n u).2 := by
  unfold State.runCopyBytes
  have hpages := u.sortPages_accessOnly (rangeGranules a n ++ rangeGranules b n)
  generalize u.sortPages (rangeGranules a n ++ rangeGranules b n) = r at hpages
  obtain ⟨tbl, u1⟩ := r
  dsimp only
  split
  · exact hpages.trans (u1.touchEach_accessOnly _ _)
  · exact hpages.trans (u1.touchEach_accessOnly _ _)

/-! ### What a copy's writes leave alone -/

theorem State.someOf_accessOnly (s : State) (ws : List EWrite) : s.AccessOnly (s.someOf ws).2 := by
  induction ws generalizing s with
  | nil => exact .refl s
  | cons w ws ih => exact .trans (t := s.takeFree.2) rfl (ih _)

theorem State.partOf_accessOnly (s : State) (r : EDone) (whole : Bool) : s.AccessOnly (s.partOf r whole).2 := by
  unfold State.partOf
  dsimp only
  split
  · rfl
  · exact .trans (t := s.takeFree.2) rfl (State.someOf_accessOnly _ _)

@[simp] theorem State.writeSpot_hwq (s : State) (p : Spot) (b : Byte) : (s.writeSpot p b).hwq = s.hwq := by
  cases p with
  | mem x va => exact (s.writePlace_accessOnly _ _ _).hwq
  | larder a => rfl

@[simp] theorem State.doWrite_hwq (s : State) (w : EWrite) : (s.doWrite w).hwq = s.hwq := by
  unfold State.doWrite
  split
  · exact s.writeSpot_hwq _ _
  · dsimp only
    split
    · exact s.writeSpot_hwq _ _
    · exact State.writeSpot_hwq _ _ _

theorem State.foldl_doWrite_hwq (s : State) (ws : List EWrite) : (ws.foldl State.doWrite s).hwq = s.hwq := by
  induction ws generalizing s with
  | nil => rfl
  | cons w ws ih => exact (ih _).trans (s.doWrite_hwq w)

theorem State.bellWrites_accessOnly (s : State) (ws : List EWrite) : s.AccessOnly (s.bellWrites ws) := by
  unfold State.bellWrites
  split
  · exact .refl s
  · exact State.AccessOnly.foldl id _ (fun t a => t.bell_accessOnly _ _ _) _ s

@[simp] theorem State.doWrites_hwq (s : State) (ws : List EWrite) : (s.doWrites ws).hwq = s.hwq := by
  unfold State.doWrites
  rw [(State.bellWrites_accessOnly _ ws).hwq, State.foldl_doWrite_hwq]
  exact (s.touchEach_accessOnly .store _).hwq

/-! ### The copy of a packet -/

/-- The state in which a packet's copy runs: at S level of its partition (R91). -/
def State.atCopy (s : State) (p : Packet) : State := s.withCur { s.cur with part := p.queue.part, level := .s }

/-- The issuing strand back in its own partition and level. -/
def State.backFrom (s t : State) : State := t.withCur { t.cur with part := s.cur.part, level := s.cur.level }

/-- The state that a copy which is cut short leaves has its queue's record as it was. -/
theorem State.copyCut_hwq? {s u v : State} (hu : s.hwq = u.hwq) (huv : u.AccessOnly v) (ws : List EWrite) (q : QueueId) :
    (s.backFrom (v.doWrites ws)).hwq? q = s.hwq? q :=
  State.hwq?_congr (((v.doWrites_hwq ws).trans huv.hwq).trans hu.symm) q

section Copy
variable {s u : State} {p : Packet} {h : HwQueue}

/-- A copy that stalls has done no more than its translations. -/
theorem State.copyPacket_stalls (hrun : State.runCopyBytes (pw p 1) (pw p 2) (pw p 3) (s.atCopy p) = (.error .stall, u)) :
    s.copyPacket p = s.backFrom u := by
  unfold State.atCopy at hrun
  unfold State.copyPacket
  simp only [hrun]
  rfl

/-- A copy that is done moves its bytes, and its packet retires. -/
theorem State.copyPacket_done {r : EDone} (hrun : State.runCopyBytes (pw p 1) (pw p 2) (pw p 3) (s.atCopy p) = (.ok r, u))
    (hok : s.stepFails p.queue p.index 0 = false) : s.copyPacket p = (s.backFrom (u.doWrites r.all)).packetDone p := by
  unfold State.atCopy at hrun
  unfold State.copyPacket
  simp only [hrun, hok, Bool.false_eq_true, if_false]
  rfl

/-- A copy that faults, or that meets a data error, halts its queue with some of its bytes moved. -/
theorem State.copyPacket_halts {e : Except EStop EDone}
    (hrun : State.runCopyBytes (pw p 1) (pw p 2) (pw p 3) (s.atCopy p) = (e, u))
    (he : (∃ c d ws, e = .error (.fault c d ws)) ∨ ((∃ r, e = .ok r) ∧ s.stepFails p.queue p.index 0 = true)) :
    ∃ v : State, s.copyPacket p = v.packetHalt p 0 0x217 ∧ v.hwq? p.queue = s.hwq? p.queue := by
  have hu : s.hwq = u.hwq := by
    have haccess := State.runCopyBytes_accessOnly (pw p 1) (pw p 2) (pw p 3) (s.atCopy p)
    rw [hrun] at haccess
    exact haccess.hwq.symm
  unfold State.atCopy at hrun
  obtain ⟨c, d, ws, rfl⟩ | ⟨⟨r, rfl⟩, hfail⟩ := he
  · refine ⟨s.backFrom ((u.someOf ws).2.doWrites (u.someOf ws).1), ?_, State.copyCut_hwq? hu (u.someOf_accessOnly ws) _ _⟩
    unfold State.copyPacket
    simp only [hrun]
    rfl
  · refine ⟨s.backFrom ((u.partOf r false).2.doWrites (u.partOf r false).1), ?_,
      State.copyCut_hwq? hu (u.partOf_accessOnly r false) _ _⟩
    unfold State.copyPacket
    simp only [hrun, hfail, if_true]
    rfl

end Copy

end Sys2Proof.Machine
end


section
/-! The packets of a hardware queue: how each is run, what an event of a queue that holds does, and the obligation about both
(R94, R97, R98, R101, R405). -/

namespace Sys2Proof.Machine

/-! ### How a packet is run -/

/-- A TYPE of Table 5-5 with the step that takes a packet of it. -/
def PacketInstr (p : Packet) (x : Nat × Instr) : Prop :=
  x ∈ [(0, .nop p), (1, .launch p), (2, .write p), (3, .signal p), (4, .wait p), (5, .writeSignal p), (6, .copy p),
    (7, .depend p), (8, .fencePacket p)]

/-- A packet of its own type is run, one of another type is not. -/
theorem exec_packet {p : Packet} {x : Nat × Instr} (hx : PacketInstr p x) (s : State) :
    exec x.2 s = .next (if pktType p = x.1 then s.runPacket p else s) := by
  simp only [PacketInstr, List.mem_cons, List.not_mem_nil, or_false] at hx
  obtain rfl | rfl | rfl | rfl | rfl | rfl | rfl | rfl | rfl := hx <;> rfl

theorem State.runPacket_tripped {s : State} (p : Packet) (hp : s.module.phase = .tripped) : s.runPacket p = s := by
  have htrip : s.tripped = true := decide_eq_true hp
  unfold State.runPacket
  split
  · rfl
  · exact if_pos htrip

section Run
variable {s : State} {p : Packet} {h : HwQueue} (hq : s.hwq? p.queue = some h) (hp : s.module.phase ≠ .tripped)
include hq hp

theorem State.runPacket_fault {c : Nat} (hf : h.packetFault p = some c) : s.runPacket p = s.packetHalt p 0 c := by
  have htrip : s.tripped = false := decide_eq_false hp
  unfold State.runPacket
  simp only [hq, htrip, hf, Bool.false_eq_true, if_false]

theorem State.runPacket_ok (hf : h.packetFault p = none) : s.runPacket p = s.performPacket p := by
  have htrip : s.tripped = false := decide_eq_false hp
  unfold State.runPacket
  simp only [hq, htrip, hf, Bool.false_eq_true, if_false]

/-- A packet that passes Table 5-9 is performed. -/
theorem exec_packet_ok (hf : h.packetFault p = none) {x : Nat × Instr} (hx : PacketInstr p x) (ht : pktType p = x.1) :
    exec x.2 s = .next (s.performPacket p) := by
  rw [exec_packet hx, if_pos ht, State.runPacket_ok hq hp hf]

end Run

/-- A packet of steps is performed step by step. -/
theorem State.performPacket_steps (s : State) {p : Packet} (ht : pktType p ∈ [2, 3, 5, 7]) :
    s.performPacket p = (s.packetStarts p false).stepsFrom p 0 := by
  simp only [List.mem_cons, List.not_mem_nil, or_false] at ht
  unfold State.performPacket
  obtain ht | ht | ht | ht := ht <;> rw [ht] <;> rfl

/-- A NOP or a FENCE retires at once (log 4). -/
theorem State.performPacket_retires (s : State) {p : Packet} (ht : pktType p ∈ [0, 8]) :
    s.performPacket p = (s.packetStarts p false).packetDone p := by
  simp only [List.mem_cons, List.not_mem_nil, or_false] at ht
  unfold State.performPacket
  obtain ht | ht := ht <;> rw [ht] <;> rfl

theorem State.performPacket_wait (s : State) {p : Packet} (ht : pktType p = 4) :
    s.performPacket p = (s.packetStarts p false).waitLook p := by
  unfold State.performPacket
  rw [ht]
  rfl

theorem State.performPacket_copy (s : State) {p : Packet} (ht : pktType p = 6) :
    s.performPacket p = (s.packetStarts p false).holdAt p (.copy p) := by
  unfold State.performPacket
  rw [ht]
  rfl

/-! ### What the form of a packet says -/

/-- A packet that passes Table 5-9 has the form of its type. -/
theorem formatOk_of_packetFault {h : HwQueue} {p : Packet} (hf : h.packetFault p = none) :
    stepsOk (pktType p) (pktSteps p) = true ∧ bodyOk p = true := by
  unfold HwQueue.packetFault at hf
  split at hf
  · nomatch hf
  split at hf
  · nomatch hf
  split at hf
  · nomatch hf
  next hform =>
  simp only [formatOk, Bool.not_eq_true, Bool.not_eq_false', Bool.and_eq_true] at hform
  exact ⟨hform.1.1.2, hform.2⟩

/-- A SIGNAL has one step (Table 5-7). -/
theorem pktSteps_signal {h : HwQueue} {p : Packet} (hf : h.packetFault p = none) (ht : pktType p = 3) : pktSteps p = 1 := by
  obtain ⟨hs, -⟩ := formatOk_of_packetFault hf
  rw [ht] at hs
  exact of_decide_eq_true hs

/-- A WRITE_SIGNAL has two steps (Table 5-7). -/
theorem pktSteps_writeSignal {h : HwQueue} {p : Packet} (hf : h.packetFault p = none) (ht : pktType p = 5) : pktSteps p = 2 := by
  obtain ⟨hs, -⟩ := formatOk_of_packetFault hf
  rw [ht] at hs
  exact of_decide_eq_true hs

/-- The condition of a WAIT is one of four (Table 5-7). -/
theorem waitCondition_le {h : HwQueue} {p : Packet} (hf : h.packetFault p = none) (ht : pktType p = 4) : pw p 3 % 8 ≤ 3 := by
  obtain ⟨-, hb⟩ := formatOk_of_packetFault hf
  unfold bodyOk at hb
  rw [ht] at hb
  have hcond : pw p 3 % 2 ^ 32 ≤ 3 := of_decide_eq_true (Bool.and_eq_true_iff.mp (Bool.and_eq_true_iff.mp hb).1).2
  omega

/-! ### The effect of a packet -/

section Steps
variable {a v w : State} {p : Packet}

/-- A WRITE one of whose steps meets a data error halts its queue there, the stores before it done. -/
theorem State.stepsFrom_write_fails (ht : pktType p = 2) {n : Nat} (hn : n < pktSteps p)
    (hok : ∀ j < n, a.stepFails p.queue p.index j = false) (hfail : a.stepFails p.queue p.index n = true)
    (hv : State.packetPuts p a n = .ok v) : a.stepsFrom p 0 = v.packetHalt p n 0x217 := by
  obtain ⟨haccess, hsteps⟩ := State.stepsFrom_puts ht hn.le hok hv
  rw [hsteps, State.stepsFrom_fails hn ((haccess.stepFails _ _ _).trans hfail)]

/-- A WRITE whose stores are performed retires. -/
theorem State.stepsFrom_write (ht : pktType p = 2) (hok : ∀ j, a.stepFails p.queue p.index j = false)
    (hv : State.packetPuts p a (pktSteps p) = .ok v) : a.stepsFrom p 0 = v.packetDone p := by
  obtain ⟨-, hsteps⟩ := State.stepsFrom_puts ht le_rfl (fun j _ => hok j) hv
  rw [hsteps, State.stepsFrom_end le_rfl]

/-- A SIGNAL that is performed retires. -/
theorem State.stepsFrom_signal (ht : pktType p = 3) (hn : pktSteps p = 1) (hok : a.stepFails p.queue p.index 0 = false)
    (hv : a.doSignal p.queue.part (pktSignal p 1) = .ok v) : a.stepsFrom p 0 = v.packetDone p := by
  have hstep : a.packetStep p 0 = .done v := by rw [State.packetStep_signal hok ht, hv]; rfl
  rw [State.stepsFrom_done (by omega) hstep, State.stepsFrom_end (by omega)]

/-- A SIGNAL whose access faults halts its queue. -/
theorem State.stepsFrom_signal_traps (ht : pktType p = 3) (hn : pktSteps p = 1) (hok : a.stepFails p.queue p.index 0 = false)
    {c : Cause} (hv : a.doSignal p.queue.part (pktSignal p 1) = .error (.trap c)) : a.stepsFrom p 0 = a.packetHalt p 0 0x217 := by
  have hstep : a.packetStep p 0 = .fault := by rw [State.packetStep_signal hok ht, hv]; rfl
  unfold State.stepsFrom
  rw [hn, State.packetSteps_fault 0 hstep]

/-- The store of a WRITE_SIGNAL is its first step. -/
theorem State.stepsFrom_writeSignal_put (ht : pktType p = 5) (hn : pktSteps p = 2) (hok : a.stepFails p.queue p.index 0 = false)
    (hv : State.packetPut p a 1 = .ok v) : a.AccessOnly v ∧ a.stepsFrom p 0 = v.stepsFrom p 1 := by
  have hstep : a.packetStep p 0 = .done v := by
    rw [State.packetStep_writeSignal hok ht, if_pos rfl]
    exact congrArg stepOf hv
  exact ⟨State.landingStore_accessOnly hv, State.stepsFrom_done (by omega) hstep⟩

/-- A WRITE_SIGNAL whose signal meets a data error halts its queue at step 1. -/
theorem State.stepsFrom_writeSignal_fails (ht : pktType p = 5) (hn : pktSteps p = 2)
    (hok : a.stepFails p.queue p.index 0 = false) (hfail : a.stepFails p.queue p.index 1 = true)
    (hv : State.packetPut p a 1 = .ok v) : a.stepsFrom p 0 = v.packetHalt p 1 0x217 := by
  obtain ⟨haccess, hsteps⟩ := State.stepsFrom_writeSignal_put ht hn hok hv
  rw [hsteps, State.stepsFrom_fails (by omega) ((haccess.stepFails _ _ _).trans hfail)]

/-- A WRITE_SIGNAL stores, then signals, then retires. -/
theorem State.stepsFrom_writeSignal (ht : pktType p = 5) (hn : pktSteps p = 2) (hok : ∀ j, a.stepFails p.queue p.index j = false)
    (hv : State.packetPut p a 1 = .ok v) (hw : v.doSignal p.queue.part (pktSignal p 3) = .ok w) :
    a.stepsFrom p 0 = w.packetDone p := by
  obtain ⟨haccess, hsteps⟩ := State.stepsFrom_writeSignal_put ht hn (hok 0) hv
  have hstep : v.packetStep p 1 = .done w := by
    rw [State.packetStep_writeSignal ((haccess.stepFails _ _ _).trans (hok 1)) ht, if_neg Nat.one_ne_zero, hw]
    rfl
  rw [hsteps, State.stepsFrom_done (by omega) hstep, State.stepsFrom_end (by omega)]

/-- A DEPEND all of whose steps from one on are met retires. -/
theorem State.stepsFrom_depend {i : Nat} (ht : pktType p = 7)
    (h : ∀ j, i ≤ j → j < pktSteps p → a.stepFails p.queue p.index j = false ∧ a.DependMet p j) :
    a.stepsFrom p i = a.packetDone p := by
  obtain hi | hi := Nat.le_total i (pktSteps p)
  · rw [State.stepsFrom_dependMet ht (pktSteps p - i) (by omega) fun j hj hlt => h j hj (by omega),
      State.stepsFrom_end (by omega)]
  · exact State.stepsFrom_end hi

/-- A DEPEND holds its queue at its first step that is not met. -/
theorem State.stepsFrom_depend_holds {i : Nat} (ht : pktType p = 7) (hi : i < pktSteps p)
    (hok : ∀ j ≤ i, a.stepFails p.queue p.index j = false) (hmet : ∀ j < i, a.DependMet p j) (hun : ¬a.DependMet p i) :
    a.stepsFrom p 0 = a.holdAt p (.depend p i) := by
  rw [State.stepsFrom_dependMet ht i (by omega) fun j _ hlt => ⟨hok j (by omega), hmet j (by omega)⟩, Nat.zero_add,
    State.stepsFrom_holds hi (State.packetStep_dependUnmet (hok i le_rfl) ht hun)]

/-- A DEPEND one of whose steps meets a data error halts its queue there, the steps before it met. -/
theorem State.stepsFrom_depend_fails {i : Nat} (ht : pktType p = 7) (hi : i < pktSteps p)
    (hok : ∀ j < i, a.stepFails p.queue p.index j = false) (hfail : a.stepFails p.queue p.index i = true)
    (hmet : ∀ j < i, a.DependMet p j) : a.stepsFrom p 0 = a.packetHalt p i 0x217 := by
  rw [State.stepsFrom_dependMet ht i (by omega) fun j _ hlt => ⟨hok j (by omega), hmet j (by omega)⟩, Nat.zero_add,
    State.stepsFrom_fails hi hfail]

end Steps

/-! ### The events of a queue that holds -/

theorem State.holdOf_eq {s : State} {q : QueueId} {h : HwQueue} (hq : s.hwq? q = some h) : s.holdOf q = h.hold := by
  unfold State.holdOf
  rw [hq]
  rfl

section Holds
variable {s : State} {q : QueueId}

/-- WAIT_RECHECK reads the word again. -/
theorem exec_waitRecheck {p : Packet} (hh : s.holdOf q = some (.wait p)) : exec (.waitRecheck q) s = .next (s.waitLook p) := by
  show Host.Outcome.next _ = _
  rw [hh]

/-- WAIT_TIMEOUT halts a queue whose WAIT has a timeout. -/
theorem exec_waitTimeout {p : Packet} (hh : s.holdOf q = some (.wait p)) :
    exec (.waitTimeout q) s = .next (if pw p 3 / 2 ^ 32 = 0 then s else s.packetHalt p 0 0x218) := by
  show Host.Outcome.next _ = _
  rw [hh]

/-- DEPEND_SATISFIED tries its step again. -/
theorem exec_dependSatisfied {p : Packet} {i : Nat} (hh : s.holdOf q = some (.depend p i)) :
    exec (.dependSatisfied q) s = .next (s.stepsFrom p i) := by
  show Host.Outcome.next _ = _
  rw [hh]

/-- COPY_DONE is the copy of the packet, unless the module has tripped. -/
theorem exec_copyDone {p : Packet} (hh : s.holdOf q = some (.copy p)) :
    exec (.copyDone q) s = .next (if s.tripped then s else s.copyPacket p) := by
  show Host.Outcome.next _ = _
  rw [hh]

/-- The events of a queue leave one that does not hold alone. -/
theorem exec_holdEvent_none {i : Instr} (hi : i ∈ [Instr.waitRecheck q, .waitTimeout q, .dependSatisfied q, .copyDone q])
    (hh : s.holdOf q = none) : exec i s = .next s := by
  simp only [List.mem_cons, List.not_mem_nil, or_false] at hi
  obtain rfl | rfl | rfl | rfl := hi <;> (show Host.Outcome.next _ = _; rw [hh])

end Holds

/-! ### The obligation, part by part -/

/-- What the retirement of a packet leaves in its queue's record. -/
theorem State.packetDone_leaves {s : State} {p : Packet} {h : HwQueue} (hq : s.hwq? p.queue = some h) :
    ∃ k, (s.packetDone p).hwq? p.queue = some k ∧ k.hold = none ∧ (∀ a ∈ k.active, a.1 ≠ p.index) ∧ k.state = h.state ∧
      k.head = h.head ∧
      (h.qdone = p.index → h.retired = [] → h.unsignalled = [] → k.qdone = p.index + 1 ∧ k.retired = []) ∧
      (h.qdone < p.index → h.retired = [] → k.qdone = h.qdone ∧ k.retired = [p.index]) := by
  refine ⟨_, State.packetDone_hwq? hq, rfl, ?_, rfl, rfl, fun hd hr hu => HwQueue.retire_next hd hr hu,
    fun hd hr => HwQueue.retire_later hd hr⟩
  intro a ha
  simpa using (List.mem_filter.mp ha).2

/-- A packet that fails a check of Table 5-9 halts its queue, and the strands and the Larder stay as they are. -/
theorem exec_packet_fault {s : State} {p : Packet} {x : Nat × Instr} (hx : PacketInstr p x) {h : HwQueue} {c : Nat}
    (ht : pktType p = x.1) (hp : s.module.phase ≠ .tripped) (hq : s.hwq? p.queue = some h) (hf : h.packetFault p = some c) :
    ∃ u k, exec x.2 s = .next u ∧ u.hwq? p.queue = some k ∧ k.state = .halted ∧ k.head = p.index ∧ k.hold = none ∧
      (∀ y ∈ k.fetched, y.index ≠ p.index) ∧ u.cur = s.cur ∧ u.larder = s.larder := by
  obtain ⟨k, hk, hstate, hhead, hhold, hfetched⟩ := State.packetHalt_hwq? hq 0 c
  have hkept := s.packetHalt_queueOnly p 0 c
  refine ⟨_, k, ?_, hk, hstate, hhead, hhold, hfetched, hkept.cur, hkept.larder⟩
  rw [exec_packet hx, if_pos ht, State.runPacket_fault hq hp hf]

/-- WAIT_TIMEOUT of a WAIT with a timeout halts its queue. -/
theorem exec_waitTimeout_halts {s : State} {p : Packet} {h : HwQueue} (hq : s.hwq? p.queue = some h) (hh : h.hold = some (.wait p))
    (ht : pw p 3 / 2 ^ 32 ≠ 0) : ∃ u k, exec (.waitTimeout p.queue) s = .next u ∧ u.hwq? p.queue = some k ∧ k.state = .halted ∧
      k.head = p.index ∧ k.hold = none := by
  obtain ⟨k, hk, hstate, hhead, hhold, -⟩ := State.packetHalt_hwq? hq 0 0x218
  refine ⟨_, k, ?_, hk, hstate, hhead, hhold⟩
  rw [exec_waitTimeout ((State.holdOf_eq hq).trans hh), if_neg ht]

section CopyDone
variable {s u : State} {p : Packet} {h : HwQueue} (hq : s.hwq? p.queue = some h) (hh : h.hold = some (.copy p))
  (hp : s.module.phase ≠ .tripped)
include hq hh hp

theorem exec_copyDone_ok : exec (.copyDone p.queue) s = .next (s.copyPacket p) := by
  have htrip : s.tripped = false := decide_eq_false hp
  rw [exec_copyDone ((State.holdOf_eq hq).trans hh), htrip]
  rfl

/-- COPY_DONE of a copy that faults or meets a data error halts its queue. -/
theorem exec_copyDone_halts {e : Except EStop EDone} (hrun : State.runCopyBytes (pw p 1) (pw p 2) (pw p 3) (s.atCopy p) = (e, u))
    (he : (∃ c d ws, e = .error (.fault c d ws)) ∨ ((∃ r, e = .ok r) ∧ s.stepFails p.queue p.index 0 = true)) :
    ∃ v k, exec (.copyDone p.queue) s = .next v ∧ v.hwq? p.queue = some k ∧ k.state = .halted ∧ k.head = p.index ∧
      k.hold = none := by
  obtain ⟨v, hcopy, hv⟩ := State.copyPacket_halts hrun he
  obtain ⟨k, hk, hstate, hhead, hhold, -⟩ := State.packetHalt_hwq? (hv.trans hq) 0 0x217
  refine ⟨_, k, ?_, hk, hstate, hhead, hhold⟩
  rw [exec_copyDone_ok hq hh hp, hcopy]

end CopyDone

/-- Settles O42. What retires, what halts and what a packet's type does are said of the queue's record (`packetDone_leaves`,
`exec_packet_fault`) and of the steps left from one on (`stepsFrom_…`); an event of a holding queue is the packet tried again. -/
theorem packetResults : Obligations.PacketResults := by
  unfold Obligations.PacketResults
  refine ⟨⟨fun s p h hq => State.packetDone_leaves hq, fun s p => ⟨fun x hx => ⟨?_, ?_, ?_⟩, ?_⟩⟩, fun s q h hq => ⟨?_, ?_, ?_, ?_, ?_⟩⟩
  · intro ht
    rw [exec_packet hx, if_neg ht]
  · intro hp
    rw [exec_packet hx, s.runPacket_tripped p hp, ite_self]
  · exact fun h c ht hp hq hf => exec_packet_fault hx ht hp hq hf
  · intro h hq hf hp a put sig met fails first stops
    have hfails : ∀ i, a.stepFails p.queue p.index i = s.stepFails p.queue p.index i := s.packetStarts_stepFails p false p.queue p.index
    have hmet : ∀ i, a.DependMet p i ↔ met i := s.packetStarts_dependMet p false
    have hbefore : ∀ {n}, first n → (∀ j < n, a.stepFails p.queue p.index j = false) ∧ a.stepFails p.queue p.index n = true :=
      fun hn => ⟨fun j hj => (hfails j).trans (Bool.not_eq_true _ ▸ hn.2 j hj), (hfails _).trans hn.1⟩
    have hrun : ∀ x, PacketInstr p x → pktType p = x.1 → exec x.2 s = .next (s.performPacket p) :=
      fun x hx ht => exec_packet_ok hq hp hf hx ht
    have hsteps : ∀ x, PacketInstr p x → x.1 ∈ [2, 3, 5, 7] → pktType p = x.1 → ∀ {u}, a.stepsFrom p 0 = u → exec x.2 s = .next u :=
      fun x hx hmem ht u hu => (hrun x hx ht).trans (congrArg _ ((s.performPacket_steps (ht ▸ hmem)).trans hu))
    have hwrite := hsteps (2, .write p) (by simp [PacketInstr]) (by simp)
    have hsignal := hsteps (3, .signal p) (by simp [PacketInstr]) (by simp)
    have hwriteSignal := hsteps (5, .writeSignal p) (by simp [PacketInstr]) (by simp)
    have hdepend := hsteps (7, .depend p) (by simp [PacketInstr]) (by simp)
    have hwait : pktType p = 4 → ∀ {u}, a.waitLook p = u → exec (.wait p) s = .next u := fun ht u hu =>
      (hrun (4, .wait p) (by simp [PacketInstr]) ht).trans (congrArg _ ((s.performPacket_wait ht).trans hu))
    refine ⟨?_, ?_, ?_, ?_, ?_, fun hnone => ?_⟩
    · exact fun ht n v hn hfirst hv =>
        hwrite ht (State.stepsFrom_write_fails ht hn (hbefore hfirst).1 (hbefore hfirst).2 hv)
    · exact fun ht hfail => hsignal ht
        (State.stepsFrom_fails (by rw [pktSteps_signal hf ht]; decide) ((hfails 0).trans hfail))
    · exact fun ht hfail => hwait ht (State.waitLook_fails ((hfails 0).trans hfail))
    · refine fun ht => ⟨fun hfail => ?_, fun v hfirst hv => ?_⟩
      · exact hwriteSignal ht (State.stepsFrom_fails (by rw [pktSteps_writeSignal hf ht]; decide) ((hfails 0).trans hfail))
      · exact hwriteSignal ht (State.stepsFrom_writeSignal_fails ht (pktSteps_writeSignal hf ht)
          ((hbefore hfirst).1 0 Nat.one_pos) (hbefore hfirst).2 hv)
    · exact fun ht n hn hfirst hbelow => hdepend ht (State.stepsFrom_depend_fails ht hn (hbefore hfirst).1 (hbefore hfirst).2
        fun j hj => (hmet j).mpr (hbelow j hj))
    have hok : ∀ i, a.stepFails p.queue p.index i = false := fun i => (hfails i).trans (Bool.not_eq_true _ ▸ hnone i)
    refine ⟨?_, ?_, ?_, ?_, ?_, ?_, ?_, ?_⟩
    · exact fun ht => (hrun (0, .nop p) (by simp [PacketInstr]) ht).trans (congrArg _ (s.performPacket_retires (by simp [ht])))
    · exact fun ht => (hrun (8, .fencePacket p) (by simp [PacketInstr]) ht).trans
        (congrArg _ (s.performPacket_retires (by simp [ht])))
    · exact fun ht v hv => hwrite ht (State.stepsFrom_write ht hok hv)
    · exact fun ht => ⟨fun v hv => hsignal ht (State.stepsFrom_signal ht (pktSteps_signal hf ht) (hok 0) hv),
        fun c hc => hsignal ht (State.stepsFrom_signal_traps ht (pktSteps_signal hf ht) (hok 0) hc)⟩
    · exact fun ht v w hv hw => hwriteSignal ht (State.stepsFrom_writeSignal ht (pktSteps_writeSignal hf ht) hok hv hw)
    · intro ht x v hx holds
      have hlook := State.waitLook_ok (hok 0) hx
      have hiff : waitHolds (pw p 3 % 8) x.toNat (pw p 2) = true ↔ holds := waitHolds_iff (waitCondition_le hf ht)
      exact ⟨fun h => hwait ht (hlook.trans (if_pos (hiff.mpr h))), fun h => hwait ht (hlook.trans (if_neg (mt hiff.mp h)))⟩
    · exact fun ht => (hrun (6, .copy p) (by simp [PacketInstr]) ht).trans (congrArg _ (s.performPacket_copy ht))
    · refine fun ht => ⟨fun hall => ?_, fun i hi hbelow hun => ?_⟩
      · exact hdepend ht (State.stepsFrom_depend ht fun j _ hj => ⟨hok j, (hmet j).mpr (hall j hj)⟩)
      · exact hdepend ht (State.stepsFrom_depend_holds ht hi (fun j _ => hok j) (fun j hj => (hmet j).mpr (hbelow j hj))
          (mt (hmet i).mp hun))
  · intro p hh
    have hhold := (State.holdOf_eq hq).trans hh
    refine ⟨fun hfail => ?_, ?_, fun ht => ?_, fun ht hpq => ?_⟩
    · rw [exec_waitRecheck hhold, State.waitLook_fails hfail]
    · intro hok x v hx holds hcond
      have hlook := State.waitLook_ok hok hx
      have hiff : waitHolds (pw p 3 % 8) x.toNat (pw p 2) = true ↔ holds := waitHolds_iff hcond
      rw [exec_waitRecheck hhold, hlook]
      exact ⟨fun h => congrArg _ (if_pos (hiff.mpr h)), fun h => congrArg _ (if_neg (mt hiff.mp h))⟩
    · rw [exec_waitTimeout hhold, if_pos ht]
    · subst hpq
      exact exec_waitTimeout_halts hq hh ht
  · intro p i hh ht hpq met
    subst hpq
    rw [exec_dependSatisfied ((State.holdOf_eq hq).trans hh)]
    refine ⟨fun hfail hi => ?_, fun hall => ?_, fun hi hok hun => ?_⟩
    · rw [State.stepsFrom_fails hi hfail]
    · rw [State.stepsFrom_depend ht fun j hj hlt => ⟨(hall j hlt hj).2, (hall j hlt hj).1⟩]
    · rw [State.stepsFrom_holds hi (State.packetStep_dependUnmet hok ht hun)]
      rfl
  · intro p hh hp
    have htrip : s.tripped = true := decide_eq_true hp
    rw [exec_copyDone ((State.holdOf_eq hq).trans hh), if_pos htrip]
  · intro p hh hpq hp halts start back
    subst hpq
    split
    next u hrun => rw [exec_copyDone_ok hq hh hp, State.copyPacket_stalls hrun]; rfl
    next c d ws u hrun => exact exec_copyDone_halts hq hh hp hrun (.inl ⟨c, d, ws, rfl⟩)
    next r u hrun =>
      refine ⟨fun hfail => exec_copyDone_halts hq hh hp hrun (.inr ⟨⟨r, rfl⟩, hfail⟩), fun hok => ?_⟩
      rw [exec_copyDone_ok hq hh hp, State.copyPacket_done hrun hok]
      rfl
  · intro hnone
    have hhold := (State.holdOf_eq hq).trans hnone
    exact ⟨exec_holdEvent_none (by simp) hhold, exec_holdEvent_none (by simp) hhold, exec_holdEvent_none (by simp) hhold,
      exec_holdEvent_none (by simp) hhold⟩

end Sys2Proof.Machine
end

section
/-! Every instruction, every event and every step answers a next state; an event of a strand that the module does not have
changes nothing; and O55, assembled from the two. -/

namespace Sys2Proof.Machine

/-! ### Meanings that answer a next state -/

/-- A meaning answers a next state: it ends in no fault and no refusal. -/
def Answers (o : Out) : Prop := ∃ t, o = .next t

theorem Answers.next (t : State) : Answers (.next t) := ⟨t, rfl⟩

theorem Answers.ite {p : Prop} [Decidable p] {a b : Out} (ha : Answers a) (hb : Answers b) : Answers (if p then a else b) := by
  split
  · exact ha
  · exact hb

/-! ### The shared operations of the parcels -/

theorem scalarLoad_answers (o : RRI) (s : State) (n : Nat) (ext : Nat → Word) : Answers (scalarLoad o s n ext) := by
  unfold scalarLoad
  dsimp only
  split
  · exact .next _
  · split
    · exact .next _
    · exact .ite (.next _) (.next _)

theorem scalarStore_answers (o : RRI) (s : State) (n : Nat) : Answers (scalarStore o s n) := by
  unfold scalarStore
  dsimp only
  split
  · exact .next _
  · exact .ite (.next _) (.next _)

theorem amo_answers (op : Nat) (o : AmoOp) (s : State) : Answers (amo op o s) := by
  unfold amo
  dsimp only
  split
  · exact .next _
  · split
    · exact .next _
    · exact .ite (.next _) (.next _)

theorem execClaim_answers (o : RRR) (s : State) : Answers (execClaim o s) := by
  unfold execClaim
  refine .ite (.next _) (.ite (.next _) ?_)
  split
  · exact .next _
  · exact .ite (.next _) (.ite (.next _) (.next _))

theorem csrModify_answers (o : CsrRmw) (s : State) (f : Word → Word → Word) : Answers (csrModify o s f) := by
  unfold csrModify
  split <;> exact .next _

theorem execCsrget_answers (o : CsrGet) (s : State) : Answers (execCsrget o s) := by
  unfold execCsrget
  split <;> exact .next _

theorem execCsrput_answers (o : CsrPut) (s : State) : Answers (execCsrput o s) := by
  unfold execCsrput
  split <;> exact .next _

theorem branchOn_answers (o : BranchOp) (s : State) (f : Word → Word → Bool) : Answers (branchOn o s f) := .ite (.next _) (.next _)

theorem execJalr_answers (o : RRI) (s : State) : Answers (execJalr o s) := .ite (.next _) (.next _)

theorem execFence_answers (o : FenceOp) (s : State) : Answers (execFence o s) := .ite (.next _) (.next _)

theorem execInvtlb_answers (o : InvtlbOp) (s : State) : Answers (execInvtlb o s) := .ite (.next _) (.next _)

theorem execTrapret_answers (s : State) : Answers (execTrapret s) := by
  unfold execTrapret
  refine .ite (.next _) ?_
  split
  · exact .next _
  · exact .ite (.next _) (.next _)

theorem execResume_answers (o : ResumeOp) (s : State) : Answers (execResume o s) := by
  unfold execResume
  refine .ite (.next _) ?_
  dsimp only
  split
  · exact .next _
  · refine .ite (.next _) ?_
    split
    · exact .next _
    · exact .next _
    · split <;> exact .next _

theorem execYield_answers (s : State) : Answers (execYield s) := by
  unfold execYield
  dsimp only
  split
  · exact .next _
  · exact .ite (.next _) (.ite (.next _) (.next _))

theorem execHalt_answers (s : State) : Answers (execHalt s) := by
  unfold execHalt
  refine .ite (.next _) ?_
  dsimp only
  split <;> exact .next _

theorem execWaitev_answers (o : RRR) (s : State) : Answers (execWaitev o s) := by
  unfold execWaitev
  refine .ite (.next _) ?_
  split
  · exact .next _
  · exact .ite (.next _) (.next _)

/-! ### Words and requests -/

/-- The frame of a word: a failed check and a failed pop trap, a stalled pop waits, else the word has its effect (R227). -/
theorem vecWord_answers (w : WordInfo) (s : State) (eff : State → State) : Answers (vecWord w s eff) := by
  unfold vecWord
  split
  · exact .next _
  · split
    · exact .next _
    · split <;> exact .next _

theorem mapRequest_answers (op : Nat) (used bits : List (Nat × Nat)) (m : Msg) (s : State)
    (f : Session → Partition → State → State) : Answers (mapRequest op used bits m s f) :=
  .ite (.next _) (.next _)

/-! ### Every instruction and event -/

/-- The parcels and the events: whatever is no word. -/
theorem exec_answers_of_noWord {i : Instr} {s : State} (h : (wordInfo i s.cur).klass = .noWord) : Answers (exec i s) := by
  cases i with
  | ld8 _ | ld16 _ | ld32 _ | ld64 _ | ldn8 _ | ldn16 _ | ldn32 _ => exact scalarLoad_answers _ _ _ _
  | st8 _ | st16 _ | st32 _ | st64 _ => exact scalarStore_answers _ _ _
  | amoAdd _ | amoSwap _ | amoAnd _ | amoOr _ | amoXor _ | amoMin _ | amoMax _ | amoMinn _ | amoMaxn _ | amoCas _ =>
    exact amo_answers _ _ _
  | claim o => exact execClaim_answers o s
  | beq o => exact branchOn_answers o s fun a b => decide (a = b)
  | bne o => exact branchOn_answers o s fun a b => decide (a ≠ b)
  | blt o => exact branchOn_answers o s sltW
  | bge o => exact branchOn_answers o s fun a b => !sltW a b
  | bltn o => exact branchOn_answers o s sltnW
  | bgen o => exact branchOn_answers o s fun a b => !sltnW a b
  | jalr o => exact execJalr_answers o s
  | fence o => exact execFence_answers o s
  | invtlb o => exact execInvtlb_answers o s
  | csrget o => exact execCsrget_answers o s
  | csrput o => exact execCsrput_answers o s
  | csrswap o => exact csrModify_answers o s fun _ a => a
  | csrset o => exact csrModify_answers o s fun old a => old ||| a
  | csrclr o => exact csrModify_answers o s fun old a => old &&& ~~~a
  | trapret => exact execTrapret_answers s
  | resume o => exact execResume_answers o s
  | yield => exact execYield_answers s
  | halt => exact execHalt_answers s
  | waitev o => exact execWaitev_answers o s
  | mapWindowMap _ | mapWindowChange _ | mapWindowRemove _ => exact mapRequest_answers _ _ _ _ _ _
  | add _ | sub _ | and _ | or _ | xor _ | andn _ | shl _ | shr _ | sha _ | min _ | max _ | minn _ | maxn _ | slt _
  | sltn _ | mul _ | mulh _ | mulhn _ | div _ | divn _ | rem _ | remn _ | clz _ | ctz _ | popc _ | addi _ | andi _
  | ori _ | xori _ | slti _ | sltni _ | shli _ | shri _ | shai _ | lui _ | adpc _ | jal _ | fadd _ | fsub _ | fmul _
  | fdiv _ | fsqrt _ | fmin _ | fmax _ | feq _ | flt _ | fle _ | fclass _ | fsgnj _ | fsgnjn _ | fcvtfi _ | fcvtif _
  | fcvtff _ | fma _ | fms _ | fnma _ | fnms _ | lanegrantWrite _ | ctxidWrite _ | vownerWrite _ | pcntselWrite _
  | fenceEWaitDone _ | syscall | track | waitevWake _ | waitevTimeout _ | ebreak | cache _ | vwaitWake _
  | vwaitTimeout _ | streamFetch _ _ _ | qstatWaitDone _ | queueEntryRoom _ | qcopyPerform _ _ | qgatherPerform _ _
  | qscatterPerform _ _ | qploadPerform _ _ | qpstorePerform _ _ | qsploadPerform _ _ | qfencePass _ _
  | qsignalPerform _ _ | watchImprecise _ _ | lateError _ _ _ | scoreboardSettleTimeout _ | queueDoorbell _
  | queueRunStart _ | queueRunStop _ | landingSelect _ | priorityAging _ | sliceEnd _ | nop _ | launch _ | write _
  | signal _ | wait _ | waitRecheck _ | waitTimeout _ | writeSignal _ | copy _ | copyDone _ | depend _
  | dependSatisfied _ | fencePacket _ | launchRetire _ | gangPreempt _ | preemptDeadline _ | gangResume _
  | engineQuiesceTimeout _ | staleCompletion _ | switchDrainComplete _ | switchDrainLimit _ | quiesceEnd _
  | retrainDone _ | trainingFail _ | verifyPass _ | verifyFail _ | verifyTimeout _ | fallbackActive _
  | fallbackDown _ | linkLost _ | laneFailure _ _ | openSession _ | attest _ | createPartition _ | loadCode _
  | submit _ | readCounters _ | switchPort _ | checkpoint _ | close _ | keepalive _ | keepaliveSend _
  | sessionLost _ | atomicopCompletion _ _ _ | proxyResponse _ _ _ | atomicTimeout _ | firmware _ | powerGood
  | powerSample _ _ _ | correctedError _ | gddrCopyDone _ | patrolScrub | illegalWord _ | uncorrectableError _
  | checkpointDone _ | powerLoss => exact .next _
  | _ => nomatch h

theorem exec_answers (i : Instr) (s : State) : Answers (exec i s) := by
  by_cases h : (wordInfo i s.cur).klass = .noWord
  · exact exec_answers_of_noWord h
  · obtain ⟨eff, hexec⟩ := exec_eq_vecWord i s h
    rw [hexec]
    exact vecWord_answers _ s eff

/-! ### Every step -/

/-- The words of a convoy in slot order: each is executed, or is no instruction and traps, and then the convoy retires. -/
theorem State.runWords_answers (f : Frame) (ws : List CWord) (s : State) (k : Nat) : Answers (s.runWords f k ws) := by
  induction ws generalizing s k with
  | nil => exact .next _
  | cons c rest ih =>
    unfold State.runWords
    split
    · exact .next _
    · next i hi =>
      obtain ⟨u, hu⟩ := exec_answers i (s.present1 c.w)
      rw [hu]
      exact .ite (.next _) (.ite (.next _) (ih _ _))

theorem State.runConvoy_answers (s : State) : Answers s.runConvoy := State.runWords_answers _ _ _ _

theorem execParcel_answers (w : BitVec 32) (s : State) : Answers (execParcel w s) := by
  unfold execParcel
  split
  · exact .next _
  · exact exec_answers _ s

theorem State.runParcel_answers (s : State) (fresh : Bool) (w : BitVec 32) : Answers (s.runParcel fresh w) := by
  obtain ⟨u, hu⟩ := execParcel_answers w (s.present1 (w.setWidth 64))
  unfold State.runParcel
  rw [hu]
  exact .ite (.ite (.next _) (.next _)) (.next _)

theorem State.startConvoy_answers (s : State) (fresh : Bool) : Answers (s.startConvoy fresh) := by
  unfold State.startConvoy
  split
  · exact .next _
  · exact .ite (.next _) s.runConvoy_answers

theorem State.issueHere_answers (s : State) (fresh : Bool) : Answers (s.issueHere fresh) := by
  unfold State.issueHere
  split
  · exact .next _
  · exact State.runParcel_answers _ _ _
  · exact State.startConvoy_answers _ _

theorem State.issue_answers (s : State) : Answers s.issue := by
  unfold State.issue
  refine .ite (.next _) (.ite ?_ (.ite (State.runConvoy_answers _) (.ite ?_ (s.issueHere_answers false))))
  · split
    · exact .next _
    · exact .ite (State.runConvoy_answers _) (s.issueHere_answers false)
  · split
    · exact .next _
    · exact s.issueHere_answers true

theorem State.issueOf_answers (s : State) (who : StrandId) : Answers (s.issueOf who) := by
  obtain ⟨u, hu⟩ := (s.focus who).issue_answers
  unfold State.issueOf
  dsimp only
  rw [hu]
  exact .ite (.next _) (.next _)

theorem State.act_answers (s : State) (a : Act) : Answers (s.act a) := by
  cases a with
  | event i => exact exec_answers i s
  | issue who => exact s.issueOf_answers who
  | request m => exact exec_answers _ s
  | packet _ | doorbell _ | runStart _ | runStop _ | select _ | poke _ _ _ | dataError _ | tearDown _ | moveDone _ => exact .next _

theorem step_answers (s : State) : Answers (step s) := by
  unfold step State.advance
  split
  · exact State.act_answers _ _
  · split
    · exact .next _
    · exact State.act_answers _ _

/-! ### Events of a strand that is not there -/

theorem State.onStrand_of_absent {s : State} {who : StrandId} (h : ∀ c ∈ s.strands, c.id ≠ who) (f : State → State) :
    s.onStrand who f = s := by
  have hcur : s.cur.id ≠ who := h s.cur List.mem_cons_self
  have hothers : s.others.find? (fun c => c.id = who) = none :=
    List.find?_eq_none.mpr fun c hc => by simpa using h c (List.mem_cons_of_mem _ hc)
  have hfocus : s.focus who = s := by rw [State.focus, if_neg hcur, hothers]
  rw [State.onStrand, hfocus, if_neg hcur]

/-- With no stale completion to come for it, a completion for a strand that is not there is discarded uncounted (R364). -/
theorem State.onAmo_of_absent {s : State} {who : StrandId} (h : ∀ c ∈ s.strands, c.id ≠ who) (hstray : ∀ x ∈ s.strays, x.1 ≠ who)
    (run : Run) (f : State → AmoFlight → State) : s.onAmo who run f = s := by
  have hnone : s.strays.find? (fun x => x.1 = who) = none :=
    List.find?_eq_none.mpr fun x hx => by simpa using hstray x hx
  have hstale : s.staleFor who = (false, s) := by rw [State.staleFor, hnone]
  rw [State.onAmo, hstale]
  exact State.onStrand_of_absent h _

/-! ### The obligation -/

/-- Settles O55: the meanings one shared operation at a time, the step from them, and every event of an absent strand from `onStrand`. -/
theorem noFaultsAndEventsNeedTheirStrand : Obligations.NoFaultsAndEventsNeedTheirStrand := by
  unfold Obligations.NoFaultsAndEventsNeedTheirStrand
  refine ⟨exec_answers, step_answers, fun who s habsent hstray => ?_⟩
  have onStrand (f : State → State) : Host.Outcome.next (s.onStrand who f) = (.next s : Out) :=
    congrArg _ (State.onStrand_of_absent habsent f)
  have onAmo (run : Run) (f : State → AmoFlight → State) : Host.Outcome.next (s.onAmo who run f) = (.next s : Out) :=
    congrArg _ (State.onAmo_of_absent habsent hstray run f)
  refine ⟨?waits, ?engines, ?completions, fun _ _ => onStrand _, fun _ => onStrand _, fun _ _ => onStrand _⟩
  case waits =>
    simp only [List.forall_mem_cons, List.not_mem_nil, false_imp_iff, implies_true, and_true]
    and_intros <;> exact onStrand _
  case engines =>
    simp only [List.forall_mem_cons, List.not_mem_nil, false_imp_iff, implies_true, and_true]
    and_intros <;> exact fun _ => onStrand _
  case completions =>
    simp only [List.forall_mem_cons, List.not_mem_nil, false_imp_iff, implies_true, and_true]
    and_intros <;> exact fun _ _ => onAmo _ _

end Sys2Proof.Machine
end


section
/-! The rights and the writes of the CSRs: what a CSRPUT leaves, one lemma per CSR, and the writes with side effects; and O11,
assembled from them. -/

namespace Sys2Proof.Machine

/-! ### Rights (Table 6-3, R113, R149) -/

theorem mayWrite_of_all {c : Csr} (h : csrRight c = .all) (l : Level) : mayWrite l c = true := by
  cases l <;> simp [mayWrite, h]

theorem mayWrite_a_iff (c : Csr) : mayWrite .a c = true ↔
    (c ∈ [Csr.vstart, .vrm, .vsat, .frm, .fflags, .planebase, .trpc, .trvec, .trscratch, .pcntsel] ∨
      (∃ n, c = .watch n ∨ c = .wctl n) ∨ ∃ n, c = .pcnt n) := by
  cases c <;> simp [mayWrite, csrRight]

theorem mayWrite_s_iff (c : Csr) :
    mayWrite .s c = true ↔ (mayWrite .a c = true ∨ c = .lanegrant ∨ c = .vowner ∨ c = .ctxid) := by
  cases c <;> simp [mayWrite, csrRight]

theorem csrCheck_priv {k : Strand} {c : Csr} (h : mayWrite k.level c = false) : csrCheck k c true = some .priv := by
  simp [csrCheck, h]

theorem csrCheck_ok {k : Strand} {c : Csr} (h : csrRight c = .all) (hown : csrVector c = true → k.vowner = k.ctxid) :
    csrCheck k c true = none := by
  simpa [csrCheck, mayWrite_of_all h] using hown

theorem csrModify_priv {o : CsrRmw} {s : State} (h : mayWrite s.cur.level o.csr = false) (f : Word → Word → Word) :
    csrModify o s f = .next (s.trap .priv s.cur.iword) := by
  rw [csrModify, csrCheck_priv h]
  rfl

theorem execCsrput_priv {o : CsrPut} {s : State} (h : mayWrite s.cur.level o.csr = false) :
    execCsrput o s = .next (s.trap .priv s.cur.iword) := by
  rw [execCsrput, csrCheck_priv h]
  rfl

theorem execCsrput_writes {o : CsrPut} {s : State} (h : csrRight o.csr = .all)
    (hown : csrVector o.csr = true → s.cur.vowner = s.cur.ctxid) :
    execCsrput o s = .next (s.csrWrite o.csr (s.getX o.a)).next4 := by
  rw [execCsrput, csrCheck_ok h hown]

/-! ### The record of the issuing strand's core -/

/-- A change that is made to every record of a core is made to the one that a reader of that core finds. -/
theorem getD_find?_map (l : List CoreState) (n : BitVec 6) {f : CoreState → CoreState} (hf : ∀ k, (f k).core = k.core)
    (hl : l.any (fun k => decide (k.core = n)) = true) :
    ((l.map fun k => if k.core = n then f k else k).find? fun k => k.core = n).getD (.reset n) =
      f ((l.find? fun k => k.core = n).getD (.reset n)) := by
  have hcore : ((fun k : CoreState => decide (k.core = n)) ∘ fun k : CoreState => if k.core = n then f k else k) =
      fun k => decide (k.core = n) := by
    funext k
    dsimp only [Function.comp]
    split <;> simp [hf]
  rw [List.find?_map, hcore]
  obtain ⟨k, hk⟩ : ∃ k, l.find? (fun k => decide (k.core = n)) = some k :=
    Option.isSome_iff_exists.mp (by rwa [List.find?_isSome, ← List.any_eq_true])
  have hn : k.core = n := by simpa using List.find?_some hk
  rw [hk, Option.map_some, Option.getD_some, Option.getD_some, if_pos hn]

theorem State.coreOf_mapCore (s : State) {f : CoreState → CoreState} (hf : ∀ k, (f k).core = k.core) :
    (s.mapCore f).coreOf = f s.coreOf := by
  unfold State.mapCore
  split
  · next h => exact getD_find?_map s.cores s.cur.id.core hf h
  · next h =>
    have hnone : s.cores.find? (fun k => decide (k.core = s.cur.id.core)) = none := by
      rw [List.find?_eq_none]
      exact fun k hk hn => h (List.any_eq_true.mpr ⟨k, hk, hn⟩)
    have hreset : (f (.reset s.cur.id.core)).core = s.cur.id.core := hf _
    simp [State.coreOf, hnone, hreset]

/-- The record of a core with a counter at a value and nothing more to come to it (R393). -/
def CoreState.putCounter (i : BitVec 4) (w : Word) (k : CoreState) : CoreState :=
  { k with pcnt := k.pcnt.set i.toNat w, stirred := k.stirred.set i.toNat false }

/-- What pcntsel reads of a core: EVENT and IDX (Table 6-3). -/
def CoreState.selected (k : CoreState) : Nat := k.events[k.idx.toNat].toNat * 256 + k.idx.toNat

theorem CoreState.putCounter_pcnt (i : BitVec 4) (w : Word) (k : CoreState) : (k.putCounter i w).pcnt[i.toNat] = w :=
  Vector.getElem_set_self i.isLt

theorem CoreState.putCounter_pcnt_ne {i j : BitVec 4} (h : i.toNat ≠ j.toNat) (w : Word) (k : CoreState) :
    (k.putCounter i w).pcnt[j.toNat] = k.pcnt[j.toNat] :=
  Vector.getElem_set_ne i.isLt j.isLt h

theorem State.coreOf_putCounter (s : State) (i : BitVec 4) (w : Word) :
    (s.mapCore (CoreState.putCounter i w)).coreOf = s.coreOf.putCounter i w :=
  s.coreOf_mapCore fun _ => rfl

/-- A counter of the issuing strand's core may have moved on since it was last read (log 7). -/
def State.counterMoved (s : State) (i : BitVec 4) : Bool := s.cores.any fun k => k.core = s.cur.id.core && k.stirred[i.toNat]

/-- A counter is read as its count so far, and by a free value more where it may have moved on (R394, log 7). -/
theorem State.csrRead_pcnt (s : State) (i : BitVec 4) :
    (s.csrRead (.pcnt i)).1 = s.coreOf.pcnt[i.toNat] + if s.counterMoved i then Config.freeWord s.free else 0 := by
  have hread : (s.csrRead (.pcnt i)).1 = (s.settleCounter s.cur.id.core i).coreOf.pcnt[i.toNat] := rfl
  rw [hread]
  unfold State.settleCounter State.counterMoved
  split
  · next hmoved =>
    have hany : s.cores.any (fun k => decide (k.core = s.cur.id.core)) = true := by
      obtain ⟨k, hk, h⟩ := List.any_eq_true.mp hmoved
      rw [Bool.and_eq_true] at h
      exact List.any_eq_true.mpr ⟨k, hk, h.1⟩
    have hcore := getD_find?_map s.cores s.cur.id.core
      (f := fun k => k.putCounter i (k.pcnt[i.toNat] + Config.freeWord s.free)) (fun _ => rfl) hany
    exact (congrArg (fun k : CoreState => k.pcnt[i.toNat]) hcore).trans (CoreState.putCounter_pcnt i _ _)
  · exact (BitVec.add_zero _).symm

theorem State.csrRead_pcnt_congr {s u : State} (i : BitVec 4) (hid : u.cur.id = s.cur.id := by rfl)
    (hcores : u.cores = s.cores := by rfl) (hfree : u.free = s.free := by rfl) :
    (u.csrRead (.pcnt i)).1 = (s.csrRead (.pcnt i)).1 := by
  have hcore : u.coreOf = s.coreOf := by simp only [State.coreOf, hid, hcores]
  have hmoved : u.counterMoved i = s.counterMoved i := by simp only [State.counterMoved, hid, hcores]
  rw [State.csrRead_pcnt, State.csrRead_pcnt, hcore, hmoved, hfree]

/-- A change of the core's record leaves whether a counter may have moved on; at a new record it has not. -/
theorem State.counterMoved_mapCore (s : State) {f : CoreState → CoreState} (hf : ∀ k, (f k).core = k.core) (i : BitVec 4)
    (hkeep : ∀ k, (f k).stirred[i.toNat] = k.stirred[i.toNat]) : (s.mapCore f).counterMoved i = s.counterMoved i := by
  unfold State.counterMoved State.mapCore
  split
  · dsimp only
    rw [List.any_map]
    congr 1
    funext k
    dsimp only [Function.comp]
    split <;> simp [hf, hkeep]
  · have hreset : (f (.reset s.cur.id.core)).stirred[i.toNat] = false := (hkeep _).trans (Vector.getElem_replicate _)
    simp [hreset]

theorem State.counterMoved_mapCore_settled (s : State) {f : CoreState → CoreState} (i : BitVec 4)
    (hsettles : ∀ k, (f k).stirred[i.toNat] = false) : (s.mapCore f).counterMoved i = false := by
  unfold State.counterMoved State.mapCore
  split
  · dsimp only
    rw [List.any_map, List.any_eq_false]
    intro k _
    dsimp only [Function.comp]
    split
    · rw [hsettles, Bool.and_false]
      exact Bool.false_ne_true
    · next h => simp [h]
  · next h =>
    have hnone : ∀ k ∈ s.cores, k.core ≠ s.cur.id.core := fun k hk hn => h (List.any_eq_true.mpr ⟨k, hk, decide_eq_true hn⟩)
    simp only [List.any_cons, hsettles, Bool.and_false, Bool.false_or, List.any_eq_false]
    intro k hk
    simp [hnone k hk]

theorem State.settleCounter_cur (s : State) (n : BitVec 6) (i : BitVec 4) : (s.settleCounter n i).cur = s.cur := by
  unfold State.settleCounter
  split <;> rfl

theorem State.settleCounter_mem (s : State) (n : BitVec 6) (i : BitVec 4) : (s.settleCounter n i).mem = s.mem := by
  unfold State.settleCounter
  split <;> rfl

/-! ### What a write leaves -/

/-- What a write of an ordinary CSR changes nothing of (R148). -/
structure State.CsrFrame (s u : State) : Prop where
  pc : u.cur.pc = s.cur.pc
  x : u.cur.x = s.cur.x
  regs : u.cur.vec.v = s.cur.vec.v
  masks : u.cur.vec.m = s.cur.vec.m
  queues : u.cur.queues = s.cur.queues
  mem : u.mem = s.mem
  hostMem : u.hostMem = s.hostMem
  larder : u.larder = s.larder
  others : u.others = s.others

/-- From s, a write has given CSR c the value v and changed nothing else but, for planebase, that the task counts as a user of the
Larder (R215). -/
structure State.PutsCsr (s : State) (c : Csr) (v : Nat) (u : State) : Prop where
  value : (u.csrRead c).1 = BitVec.ofNat 64 v
  rest : ∀ k, k ≠ c → (u.csrRead k).1 = (s.csrRead k).1
  usedLarder : u.cur.usedLarder = (s.cur.usedLarder || decide (c = .planebase))
  frame : s.CsrFrame u

/-- What a CSRPUT leaves of a value v, accepted or not (R113, R148). -/
def State.CsrputLeaves (s : State) (o : CsrPut) (accepted : Bool) (v : Nat) : Prop :=
  (accepted = true → ∃ u, exec (.csrput o) s = .next u ∧ (u.csrRead o.csr).1 = BitVec.ofNat 64 v ∧
    (∀ c, c ≠ o.csr → (u.csrRead c).1 = (s.csrRead c).1) ∧ u.cur.pc = s.cur.pc + 4 ∧ u.cur.x = s.cur.x ∧
    u.cur.vec.v = s.cur.vec.v ∧ u.cur.vec.m = s.cur.vec.m ∧ u.cur.queues = s.cur.queues ∧
    u.cur.usedLarder = (s.cur.usedLarder || decide (o.csr = .planebase)) ∧
    u.mem = s.mem ∧ u.hostMem = s.hostMem ∧ u.larder = s.larder ∧ u.others = s.others) ∧
  (accepted = false → exec (.csrput o) s = .next (s.setPc (s.cur.pc + 4)))

theorem State.csrRead_next4 (s : State) (c : Csr) : (s.next4.csrRead c).1 = (s.csrRead c).1 := by
  cases c with
  | pcnt i => exact State.csrRead_pcnt_congr i
  | _ => rfl

theorem State.csrputLeaves {s : State} {o : CsrPut} (hall : csrRight o.csr = .all)
    (hown : csrVector o.csr = true → s.cur.vowner = s.cur.ctxid) {accepted : Bool} {v : Nat}
    (haccepts : accepted = true → s.PutsCsr o.csr v (s.csrWrite o.csr (s.getX o.a)))
    (hignores : accepted = false → s.csrWrite o.csr (s.getX o.a) = s) : s.CsrputLeaves o accepted v := by
  have hexec : exec (.csrput o) s = .next (s.csrWrite o.csr (s.getX o.a)).next4 := execCsrput_writes hall hown
  refine ⟨fun h => ⟨_, hexec, ?_⟩, fun h => ?_⟩
  · obtain ⟨hvalue, hrest, hlarder, hframe⟩ := haccepts h
    refine ⟨(State.csrRead_next4 _ _).trans hvalue, fun c hc => (State.csrRead_next4 _ _).trans (hrest c hc), ?_, hframe.x,
      hframe.regs, hframe.masks, hframe.queues, hlarder, hframe.mem, hframe.hostMem, hframe.larder, hframe.others⟩
    rw [State.next4_cur_pc, hframe.pc]
  · rw [hexec, hignores h]
    rfl

/-! ### The values of the fields -/

theorem vrmOf_of_le {k : Nat} (h : k ≤ 4) : ∃ r, vrmOf k = some r ∧ vrmCode r = k := by
  interval_cases k <;> exact ⟨_, rfl, rfl⟩

theorem vrmOf_of_gt : ∀ {k : Nat}, 4 < k → vrmOf k = none
  | _ + 5, _ => rfl

theorem frmOf_of_le {k : Nat} (h : k ≤ 4) : ∃ r, frmOf k = some r ∧ frmCode r = k := by
  interval_cases k <;> exact ⟨_, rfl, rfl⟩

theorem frmOf_of_gt : ∀ {k : Nat}, 4 < k → frmOf k = none
  | _ + 5, _ => rfl

/-- Bit 0 of a word as vsat reads it. -/
theorem vsat_read (w : Word) : (if w.getLsbD 0 then 1 else 0) = w.toNat % 2 := by
  rw [BitVec.getLsbD, Nat.testBit_zero]
  obtain h | h := Nat.mod_two_eq_zero_or_one w.toNat <;> simp [h]

/-- The fields of wctl (Table 6-3): bits 1 to 3 and 8 to 11 are kept. -/
theorem and_wctl (n : Nat) : n &&& 0xF0E = n / 256 % 16 * 256 + (n % 16 - n % 2) := by
  have hhigh : (n &&& 0xF0E) / 256 = n / 256 % 16 :=
    (Nat.and_div_two_pow (n := 8)).trans (Nat.and_two_pow_sub_one_eq_mod (n / 256) 4)
  have hmid : (n &&& 0xF0E) / 2 % 128 = n / 2 % 8 := by
    have h : (n &&& 0xF0E) / 2 = n / 2 &&& 0x787 := Nat.and_div_two_pow (n := 1)
    have h7 : (n / 2 &&& 0x787) % 2 ^ 7 = n / 2 % 2 ^ 7 &&& 7 := Nat.and_mod_two_pow
    have h3 : n / 2 % 2 ^ 7 &&& 7 = n / 2 % 2 ^ 7 % 2 ^ 3 := Nat.and_two_pow_sub_one_eq_mod _ 3
    omega
  have hlow : (n &&& 0xF0E) % 2 ^ 1 = n % 2 ^ 1 &&& 0 := Nat.and_mod_two_pow
  rw [Nat.and_zero] at hlow
  omega

theorem wctl_written (w : Word) :
    w &&& 0xF0E#64 = BitVec.ofNat 64 (w.toNat / 256 % 16 * 256 + (w.toNat % 16 - w.toNat % 2)) := by
  rw [← and_wctl]
  exact BitVec.eq_of_toNat_eq (by simp)

/-! ### The writes of the CSRs of every level -/

/-- A write within the strand: the counters are none of its registers, so that they read as before. -/
theorem State.putsCsr_withCur {s : State} {c : Csr} {v : Nat} {k : Strand}
    (value : ((s.withCur k).csrRead c).1 = BitVec.ofNat 64 v)
    (rest : ∀ d, d ≠ c → (∀ i, d ≠ .pcnt i) → ((s.withCur k).csrRead d).1 = (s.csrRead d).1)
    (usedLarder : k.usedLarder = (s.cur.usedLarder || decide (c = .planebase))) (hid : k.id = s.cur.id := by rfl)
    (hpc : k.pc = s.cur.pc := by rfl) (hx : k.x = s.cur.x := by rfl) (hregs : k.vec.v = s.cur.vec.v := by rfl)
    (hmasks : k.vec.m = s.cur.vec.m := by rfl) (hqueues : k.queues = s.cur.queues := by rfl) : s.PutsCsr c v (s.withCur k) where
  value := value
  rest d hd := by
    by_cases hcount : ∃ i, d = .pcnt i
    · obtain ⟨i, rfl⟩ := hcount
      exact State.csrRead_pcnt_congr i hid
    · exact rest d hd (not_exists.mp hcount)
  usedLarder := usedLarder
  frame := ⟨hpc, hx, hregs, hmasks, hqueues, rfl, rfl, rfl, rfl⟩

theorem State.putsCsr_vstart (s : State) (n : Nat) :
    s.PutsCsr .vstart n (s.withVec { s.cur.vec with vstart := n }) := by
  refine State.putsCsr_withCur rfl (fun d hd hcount => ?_) (Bool.or_false _).symm
  cases d with
  | vstart => exact absurd rfl hd
  | pcnt i => exact absurd rfl (hcount i)
  | _ => rfl

theorem State.putsCsr_vrm (s : State) (r : Vrm) :
    s.PutsCsr .vrm (vrmCode r) (s.withVec { s.cur.vec with vrm := r }) := by
  refine State.putsCsr_withCur rfl (fun d hd hcount => ?_) (Bool.or_false _).symm
  cases d with
  | vrm => exact absurd rfl hd
  | pcnt i => exact absurd rfl (hcount i)
  | _ => rfl

theorem State.putsCsr_vsat (s : State) (w : Word) :
    s.PutsCsr .vsat (w.toNat % 2) (s.withVec { s.cur.vec with vsat := w.getLsbD 0 }) := by
  refine State.putsCsr_withCur (congrArg (BitVec.ofNat 64) (vsat_read w)) (fun d hd hcount => ?_) (Bool.or_false _).symm
  cases d with
  | vsat => exact absurd rfl hd
  | pcnt i => exact absurd rfl (hcount i)
  | _ => rfl

theorem State.putsCsr_frm (s : State) (r : RMode) :
    s.PutsCsr .frm (frmCode r) (s.withCur { s.cur with frm := r }) := by
  refine State.putsCsr_withCur rfl (fun d hd hcount => ?_) (Bool.or_false _).symm
  cases d with
  | frm => exact absurd rfl hd
  | pcnt i => exact absurd rfl (hcount i)
  | _ => rfl

theorem State.putsCsr_fflags (s : State) (w : Word) :
    s.PutsCsr .fflags (w.toNat % 32) (s.withCur { s.cur with fflags := w.setWidth 5 }) := by
  refine State.putsCsr_withCur (congrArg (BitVec.ofNat 64) (BitVec.toNat_setWidth 5 w)) (fun d hd hcount => ?_) (Bool.or_false _).symm
  cases d with
  | fflags => exact absurd rfl hd
  | pcnt i => exact absurd rfl (hcount i)
  | _ => rfl

theorem State.putsCsr_planebase (s : State) {b : Nat} (h : b < 4096) :
    s.PutsCsr .planebase (b * 65536) (s.withCur
      { s.cur with usedLarder := true, vec := { s.cur.vec with planebase := BitVec.ofNat 12 b } }) := by
  refine State.putsCsr_withCur (congrArg (fun n => BitVec.ofNat 64 (n * 65536)) (Nat.mod_eq_of_lt h)) (fun d hd hcount => ?_) (Bool.or_true _).symm
  cases d with
  | planebase => exact absurd rfl hd
  | pcnt i => exact absurd rfl (hcount i)
  | _ => rfl

theorem State.putsCsr_trpc (s : State) (w : Word) :
    s.PutsCsr .trpc w.toNat (s.withCur { s.cur with trpc := w }) := by
  refine State.putsCsr_withCur (by simp [State.csrRead]) (fun d hd hcount => ?_) (Bool.or_false _).symm
  cases d with
  | trpc => exact absurd rfl hd
  | pcnt i => exact absurd rfl (hcount i)
  | _ => rfl

theorem State.putsCsr_trscratch (s : State) (w : Word) :
    s.PutsCsr .trscratch w.toNat (s.withCur { s.cur with trscratch := w }) := by
  refine State.putsCsr_withCur (by simp [State.csrRead]) (fun d hd hcount => ?_) (Bool.or_false _).symm
  cases d with
  | trscratch => exact absurd rfl hd
  | pcnt i => exact absurd rfl (hcount i)
  | _ => rfl

theorem State.putsCsr_trvec (s : State) (w : Word) :
    s.PutsCsr .trvec (w.toNat % 2 ^ 32) (s.withCur { s.cur with trvec := w.setWidth 32 }) := by
  refine State.putsCsr_withCur (congrArg (BitVec.ofNat 64) (BitVec.toNat_setWidth 32 w)) (fun d hd hcount => ?_) (Bool.or_false _).symm
  cases d with
  | trvec => exact absurd rfl hd
  | pcnt i => exact absurd rfl (hcount i)
  | _ => rfl

theorem State.putsCsr_watch (s : State) (i : BitVec 2) (n : Nat) :
    s.PutsCsr (.watch i) n (s.withCur { s.cur with watch := s.cur.watch.set i.toNat (BitVec.ofNat 64 n) }) := by
  refine State.putsCsr_withCur (Vector.getElem_set_self i.isLt) (fun d hd hcount => ?_) (Bool.or_false _).symm
  cases d with
  | watch j => exact Vector.getElem_set_ne i.isLt j.isLt fun h => hd (congrArg Csr.watch (BitVec.eq_of_toNat_eq h.symm))
  | pcnt i => exact absurd rfl (hcount i)
  | _ => rfl

theorem State.putsCsr_wctl (s : State) (i : BitVec 2) (w : Word) :
    s.PutsCsr (.wctl i) (w.toNat / 256 % 16 * 256 + (w.toNat % 16 - w.toNat % 2)) (s.withCur
      { s.cur with wctl := s.cur.wctl.set i.toNat (w &&& 0xF0E#64) }) := by
  refine State.putsCsr_withCur ((Vector.getElem_set_self i.isLt).trans (wctl_written w)) (fun d hd hcount => ?_) (Bool.or_false _).symm
  cases d with
  | wctl j => exact Vector.getElem_set_ne i.isLt j.isLt fun h => hd (congrArg Csr.wctl (BitVec.eq_of_toNat_eq h.symm))
  | pcnt i => exact absurd rfl (hcount i)
  | _ => rfl

theorem State.putsCsr_pcnt (s : State) (i : BitVec 4) (w : Word) :
    s.PutsCsr (.pcnt i) w.toNat (s.mapCore (CoreState.putCounter i w)) where
  value := by
    have hsettled : (s.mapCore (CoreState.putCounter i w)).counterMoved i = false :=
      s.counterMoved_mapCore_settled i fun _ => Vector.getElem_set_self i.isLt
    rw [State.csrRead_pcnt, hsettled, s.coreOf_putCounter, CoreState.putCounter_pcnt]
    simp
  rest k hk := by
    cases k with
    | pcnt j =>
      have hne : i.toNat ≠ j.toNat := fun h => hk (congrArg Csr.pcnt (BitVec.eq_of_toNat_eq h.symm))
      have hmoved : (s.mapCore (CoreState.putCounter i w)).counterMoved j = s.counterMoved j :=
        s.counterMoved_mapCore (f := CoreState.putCounter i w) (fun _ => rfl) j fun _ => Vector.getElem_set_ne i.isLt j.isLt hne
      rw [State.csrRead_pcnt, State.csrRead_pcnt, hmoved, s.coreOf_putCounter, CoreState.putCounter_pcnt_ne hne]
      rfl
    | pcntsel =>
      have hread := congrArg CoreState.selected (s.coreOf_putCounter i w)
      exact congrArg (BitVec.ofNat 64) hread
    | _ => rfl
  usedLarder := (Bool.or_false _).symm
  frame := ⟨rfl, rfl, rfl, rfl, rfl, rfl, rfl, rfl, rfl⟩

/-! ### The values that are accepted (R113) -/

theorem State.csrWrite_vstart {s : State} {w : Word} (h : w.toNat < s.cur.vlmax) :
    s.PutsCsr .vstart w.toNat (s.csrWrite .vstart w) := by
  simp only [State.csrWrite, if_pos h]
  exact s.putsCsr_vstart _

theorem State.csrWrite_vrm {s : State} {w : Word} (h : w.toNat % 8 ≤ 4) : s.PutsCsr .vrm (w.toNat % 8) (s.csrWrite .vrm w) := by
  obtain ⟨r, hr, hcode⟩ := vrmOf_of_le h
  simp only [State.csrWrite, hr]
  exact hcode ▸ s.putsCsr_vrm r

theorem State.csrWrite_vrm_ignored {s : State} {w : Word} (h : 4 < w.toNat % 8) : s.csrWrite .vrm w = s := by
  simp only [State.csrWrite, vrmOf_of_gt h]

theorem State.csrWrite_frm {s : State} {w : Word} (h : w.toNat % 8 ≤ 4) : s.PutsCsr .frm (w.toNat % 8) (s.csrWrite .frm w) := by
  obtain ⟨r, hr, hcode⟩ := frmOf_of_le h
  simp only [State.csrWrite, hr]
  exact hcode ▸ s.putsCsr_frm r

theorem State.csrWrite_frm_ignored {s : State} {w : Word} (h : 4 < w.toNat % 8) : s.csrWrite .frm w = s := by
  simp only [State.csrWrite, frmOf_of_gt h]

theorem State.csrWrite_planebase {s : State} {w : Word} (h : w.toNat / 65536 % 4096 ≤ 0xBF0) :
    s.PutsCsr .planebase (w.toNat / 65536 % 4096 * 65536) (s.csrWrite .planebase w) := by
  simp only [State.csrWrite, if_pos h]
  exact s.putsCsr_planebase (Nat.mod_lt _ (by decide))

theorem State.csrWrite_trvec {s : State} {w : Word} (h : w.toNat % 8 = 0) :
    s.PutsCsr .trvec (w.toNat % 2 ^ 32) (s.csrWrite .trvec w) := by
  simp only [State.csrWrite, if_pos h]
  exact s.putsCsr_trvec w

theorem State.csrWrite_wctl {s : State} (i : BitVec 2) {w : Word} (h : w.toNat / 256 % 16 ≤ 12) :
    s.PutsCsr (.wctl i) (w.toNat / 256 % 16 * 256 + (w.toNat % 16 - w.toNat % 2)) (s.csrWrite (.wctl i) w) := by
  simp only [State.csrWrite, if_pos h]
  exact s.putsCsr_wctl i w

/-! ### The writes with side effects -/

theorem contextAccepted_iff (c : Strand) (x : BitVec 16) :
    contextAccepted c x = true ↔ (c.level = .f ∨ x.toNat < 0x8000 ∨ x = c.taskCtx) := by
  simp [contextAccepted, or_assoc]

theorem State.writeLanegrant_accepted {s : State} {v : Word} (hm : s.cur.vec.mmode = false) (hg : grantShape (v.setWidth 8) = true)
    (hh : s.lanesHeld (v.setWidth 8) = false) (hne : v.setWidth 8 ≠ s.cur.lanegrant) :
    s.writeLanegrant v = s.withCur (s.cur.regrant (v.setWidth 8)) := by
  simp [State.writeLanegrant, hm, hg, hh, hne]

theorem State.writeLanegrant_ignored {s : State} {v : Word}
    (h : s.cur.vec.mmode = true ∨ grantShape (v.setWidth 8) = false ∨ s.lanesHeld (v.setWidth 8) = true) : s.writeLanegrant v = s := by
  obtain h | h | h := h <;> simp [State.writeLanegrant, h]

/-- A vowner that is accepted changes vowner, and what the Landing keeps of vector parts (R359, log 16). -/
theorem State.writeVowner_accepted {s : State} {v : Word} (h : contextAccepted s.cur (v.setWidth 16) = true) :
    ∃ k, s.writeVowner v = { s with saved := k, cur := { s.cur with vowner := v.setWidth 16 } } := by
  exact ⟨_, if_neg (by simp [h])⟩

theorem State.writeVowner_ignored {s : State} {v : Word} (h : contextAccepted s.cur (v.setWidth 16) = false) :
    s.writeVowner v = s := if_pos (by simp [h])

theorem Strand.regrant_unbound (c : Strand) (g : BitVec 8) (i : Fin 8) : (c.regrant g).vec.streams[i].bound = none := by
  have hmap : (c.regrant g).vec.streams[i] = c.vec.streams[i].unbind := Vector.getElem_map ..
  rw [hmap]
  rfl

/-- The record of a core with a counter selected and an event assigned to it (R393). -/
def CoreState.select (i : BitVec 4) (ev : BitVec 8) (k : CoreState) : CoreState :=
  { k with idx := i, events := k.events.set i.toNat ev }

theorem State.coreOf_select (s : State) (i : BitVec 4) (ev : BitVec 8) :
    (s.mapCore (CoreState.select i ev)).coreOf = s.coreOf.select i ev :=
  s.coreOf_mapCore fun _ => rfl

/-- EVENT of a value of pcntsel (Table 6-3). -/
theorem event_toNat (v : Word) : ((v >>> 8).setWidth 8).toNat = v.toNat / 256 % 256 := by
  simp [Nat.shiftRight_eq_div_pow]

theorem State.writePcntsel_accepted {s : State} {v : Word} (h : v.toNat / 256 % 256 ≤ 0x0F) :
    s.writePcntsel v =
      (s.settleCounter s.cur.id.core (v.setWidth 4)).mapCore (CoreState.select (v.setWidth 4) ((v >>> 8).setWidth 8)) := by
  rw [← event_toNat] at h
  exact if_neg (Nat.not_lt.mpr h)

theorem State.writePcntsel_ignored {s : State} {v : Word} (h : 0x0F < v.toNat / 256 % 256) : s.writePcntsel v = s := by
  rw [← event_toNat] at h
  exact if_pos h

/-! ### The obligation -/

/-- Settles O11: the rights CSR by CSR, a CSRPUT to each CSR from what its write puts there, and the writes with side effects. -/
theorem csrWriteResults : Obligations.CsrWriteResults := by
  unfold Obligations.CsrWriteResults
  refine ⟨⟨mayWrite_a_iff, mayWrite_s_iff, fun o s h => ?priv⟩,
    fun o s hown => ?puts, fun v s => ?inner⟩
  case priv =>
    have hmodify (f : Word → Word → Word) : csrModify o s f = .next (s.trap .priv s.cur.iword) := csrModify_priv h f
    exact ⟨hmodify fun _ x => x, hmodify fun old x => old ||| x, hmodify fun old x => old &&& ~~~x, execCsrput_priv h⟩
  case puts =>
    intro n puts
    have hputs : ∀ accepted v, s.CsrputLeaves o accepted v → puts accepted v := fun _ _ h => h
    clear_value puts
    obtain ⟨c, a⟩ := o
    have leaves {c : Csr} (hall : csrRight c = .all) (hown : csrVector c = true → s.cur.vowner = s.cur.ctxid) {p : Prop}
        [Decidable p] {v : Nat} (haccepts : p → s.PutsCsr c v (s.csrWrite c (s.getX a)))
        (hignores : ¬p → s.csrWrite c (s.getX a) = s) : s.CsrputLeaves ⟨c, a⟩ (decide p) v :=
      State.csrputLeaves hall hown (fun h => haccepts (of_decide_eq_true h)) (fun h => hignores (of_decide_eq_false h))
    cases c with
    | vstart => exact hputs _ _ <| leaves rfl hown (fun h => State.csrWrite_vstart h) fun h => if_neg h
    | vrm => exact hputs _ _ <| leaves rfl hown (fun h => State.csrWrite_vrm h) fun h =>
        State.csrWrite_vrm_ignored (Nat.lt_of_not_le h)
    | frm => exact hputs _ _ <| leaves rfl hown (fun h => State.csrWrite_frm h) fun h =>
        State.csrWrite_frm_ignored (Nat.lt_of_not_le h)
    | planebase => exact hputs _ _ <| leaves rfl hown (fun h => State.csrWrite_planebase h) fun h => if_neg h
    | trvec => exact hputs _ _ <| leaves rfl hown (fun h => State.csrWrite_trvec h) fun h => if_neg h
    | wctl i => exact hputs _ _ <| leaves rfl hown (fun h => State.csrWrite_wctl i h) fun h => if_neg h
    | vsat => exact hputs _ _ <| State.csrputLeaves rfl hown (fun _ => s.putsCsr_vsat _) nofun
    | fflags => exact hputs _ _ <| State.csrputLeaves rfl hown (fun _ => s.putsCsr_fflags _) nofun
    | trpc => exact hputs _ _ <| State.csrputLeaves rfl hown (fun _ => s.putsCsr_trpc _) nofun
    | trscratch => exact hputs _ _ <| State.csrputLeaves rfl hown (fun _ => s.putsCsr_trscratch _) nofun
    | watch i => exact hputs _ _ <| State.csrputLeaves rfl hown (fun _ => s.putsCsr_watch i _) nofun
    | pcnt i => exact hputs _ _ <| State.csrputLeaves rfl hown (fun _ => s.putsCsr_pcnt i _) nofun
    | _ => trivial
  case inner =>
    intro g c own
    have hown : contextAccepted s.cur c = true ↔ own := contextAccepted_iff s.cur c
    refine ⟨fun hm hg hh hne => ?_, fun h => congrArg Host.Outcome.next (State.writeLanegrant_ignored h), fun h => ?_,
      fun h => ?_, fun h => ?_, fun h => ?_, fun h => ?_, fun h => congrArg Host.Outcome.next (State.writePcntsel_ignored h)⟩
    · exact ⟨_, congrArg Host.Outcome.next (State.writeLanegrant_accepted hm hg hh hne), rfl, rfl, rfl, rfl, rfl,
        Strand.regrant_unbound _ _, rfl, rfl, rfl⟩
    · exact congrArg Host.Outcome.next (if_pos (hown.mpr h))
    · exact congrArg Host.Outcome.next (if_neg (mt hown.mp h))
    · obtain ⟨k, hk⟩ := State.writeVowner_accepted (hown.mpr h)
      exact ⟨k, congrArg _ hk⟩
    · exact congrArg Host.Outcome.next (State.writeVowner_ignored (Bool.not_eq_true _ ▸ mt hown.mp h))
    · have hcore := (s.settleCounter s.cur.id.core (v.setWidth 4)).coreOf_select (v.setWidth 4) ((v >>> 8).setWidth 8)
      exact ⟨_, congrArg Host.Outcome.next (State.writePcntsel_accepted h), congrArg CoreState.idx hcore,
        (congrArg (fun k : CoreState => k.events[(v.setWidth 4 : BitVec 4).toNat]) hcore).trans
          (Vector.getElem_set_self (v.setWidth 4 : BitVec 4).isLt),
        State.settleCounter_cur _ _ _, State.settleCounter_mem _ _ _⟩

end Sys2Proof.Machine
end

section
/-! The scalar integer parcels: what the shared operations of ALU functions, branches and jumps leave, the numbers of Table 7-3
that the model computes in another way, and O3, O4 and O5, assembled from them. -/

namespace Sys2Proof.Machine

/-! ### What the shared operations leave -/

/-- What every parcel that writes one scalar register leaves, where the value it writes is named in another way. -/
theorem State.result_of_eq {s : State} {d : XReg} {v w : Word} (h : v = w) : s.result d v = .next (s.withResult d w 4) :=
  h ▸ s.result_eq d v

/-- A link register written before a jump (R138). -/
theorem State.setX_setPc (s : State) (d : XReg) (v t : Word) : (s.setX d v).setPc t = (s.withResult d v 0).setPc t := by
  unfold State.setX
  rw [Strand.setX_eq]
  rfl

/-- The offset of a branch or of JAL counts 4-byte units (R137, R138). -/
theorem shiftLeft_two (w : Word) : w <<< 2 = 4 * w := by
  rw [BitVec.shiftLeft_eq_mul_twoPow, BitVec.mul_comm]
  rfl

theorem branchOn_of_eq {o : BranchOp} {s : State} {f : Word → Word → Bool} {taken : Bool}
    (h : f (s.getX o.a) (s.getX o.b) = taken) :
    branchOn o s f = .next (s.setPc (if taken then s.cur.pc + 4 * o.off.signExtend 64 else s.cur.pc + 4)) := by
  rw [branchOn, h, shiftLeft_two]
  split <;> rfl

/-! ### Shifts, minima and comparisons -/

theorem sshiftRight_eq_ofInt_div (a : Word) (n : Nat) : a.sshiftRight n = BitVec.ofInt 64 (a.toInt / (2 ^ n : Nat)) :=
  congrArg (BitVec.ofInt 64) (Int.shiftRight_eq_div_pow a.toInt n)

/-- The scaled immediate of LUI and ADPC (R132). -/
theorem sext20_shiftLeft (i : BitVec 20) : sext20 i <<< 16 = BitVec.ofInt 64 (i.toInt * 65536) := by
  have hval : (sext20 i).toInt = i.toInt := BitVec.toInt_signExtend_of_le (by decide)
  rw [BitVec.shiftLeft_eq_mul_twoPow, BitVec.ofInt_mul, ← hval, BitVec.ofInt_toInt]
  rfl

/-- The word of the lesser value, for values in any order that g reads back. -/
theorem ite_lt_eq_min {α : Type} [LinearOrder α] {f : Word → α} {g : α → Word} (hg : ∀ w, g (f w) = w) (a b : Word) :
    (if decide (f b < f a) then b else a) = g (min (f a) (f b)) := by
  by_cases h : f b < f a
  · rw [if_pos (decide_eq_true h), min_eq_right h.le, hg]
  · rw [if_neg (by simpa using h), min_eq_left (not_lt.mp h), hg]

/-- The word of the greater value, for values in any order that g reads back. -/
theorem ite_lt_eq_max {α : Type} [LinearOrder α] {f : Word → α} {g : α → Word} (hg : ∀ w, g (f w) = w) (a b : Word) :
    (if decide (f a < f b) then b else a) = g (max (f a) (f b)) := by
  by_cases h : f a < f b
  · rw [if_pos (decide_eq_true h), max_eq_right h.le, hg]
  · rw [if_neg (by simpa using h), max_eq_left (not_lt.mp h), hg]

theorem boolWord_decide (p : Prop) [Decidable p] : boolWord (decide p) = if p then 1 else 0 := by
  unfold boolWord
  by_cases h : p <;> simp [h]

theorem not_sltW (a b : Word) : (!sltW a b) = decide (b.toInt ≤ a.toInt) := by
  rw [sltW, ← decide_not, decide_eq_decide, not_lt]

theorem not_sltnW (a b : Word) : (!sltnW a b) = decide (b.toNat ≤ a.toNat) := by
  rw [sltnW, ← decide_not, decide_eq_decide, not_lt]

/-! ### Division (R131) -/

theorem divideU_spec {a b : Word} (hb : b ≠ 0) :
    a.toNat = (divideU a b).1.toNat * b.toNat + (divideU a b).2.toNat ∧ (divideU a b).2.toNat < b.toNat := by
  have hpos : 0 < b.toNat := Nat.pos_of_ne_zero fun h => hb (BitVec.eq_of_toNat_eq h)
  have hq : (BitVec.ofNat 64 (a.toNat / b.toNat)).toNat = a.toNat / b.toNat := by
    rw [BitVec.toNat_ofNat]
    exact Nat.mod_eq_of_lt ((Nat.div_le_self _ _).trans_lt a.isLt)
  have hr : (BitVec.ofNat 64 (a.toNat % b.toNat)).toNat = a.toNat % b.toNat := by
    rw [BitVec.toNat_ofNat]
    exact Nat.mod_eq_of_lt ((Nat.mod_le _ _).trans_lt a.isLt)
  rw [divideU, if_neg hb]
  dsimp only
  rw [hq, hr]
  exact ⟨(Nat.div_add_mod' _ _).symm, Nat.mod_lt _ hpos⟩

/-- A quotient of two words leaves the signed range in the second corner of R131 alone. -/
theorem tdiv_range {a b : Word} (hb : b ≠ 0) (h : ¬(a = 0x8000000000000000#64 ∧ b = 0xFFFFFFFFFFFFFFFF#64)) :
    -2 ^ 63 ≤ a.toInt.tdiv b.toInt ∧ a.toInt.tdiv b.toInt < 2 ^ 63 := by
  have hlo : -2 ^ 63 ≤ a.toInt := a.le_toInt
  have hhi : a.toInt < 2 ^ 63 := a.toInt_lt
  have hb0 : b.toInt ≠ 0 := fun h0 => hb (BitVec.toInt_inj.mp h0)
  obtain h1 | hm1 | h2 : b.toInt = 1 ∨ b.toInt = -1 ∨ 2 ≤ b.toInt.natAbs := by omega
  · rw [h1, Int.tdiv_one]
    exact ⟨hlo, hhi⟩
  · have hmin : a.toInt ≠ -2 ^ 63 := fun hx => h ⟨BitVec.toInt_inj.mp hx, BitVec.toInt_inj.mp hm1⟩
    rw [hm1, Int.tdiv_neg, Int.tdiv_one]
    omega
  · have hhalf : a.toInt.natAbs / b.toInt.natAbs ≤ a.toInt.natAbs / 2 := Nat.div_le_div_left h2 (by decide)
    have habs : (a.toInt.tdiv b.toInt).natAbs = a.toInt.natAbs / b.toInt.natAbs := Int.natAbs_tdiv _ _
    omega

theorem divideS_spec {a b : Word} (hb : b ≠ 0) (h : ¬(a = 0x8000000000000000#64 ∧ b = 0xFFFFFFFFFFFFFFFF#64)) :
    a.toInt = (divideS a b).1.toInt * b.toInt + (divideS a b).2.toInt ∧
      (divideS a b).2.toInt.natAbs < b.toInt.natAbs ∧ 0 ≤ (divideS a b).2.toInt * a.toInt := by
  have hb0 : b.toInt ≠ 0 := fun h0 => hb (BitVec.toInt_inj.mp h0)
  have hrest : a.toInt - a.toInt.tdiv b.toInt * b.toInt = a.toInt.tmod b.toInt := by
    rw [Int.tmod_def, mul_comm]
  have hlt : (a.toInt.tmod b.toInt).natAbs < b.toInt.natAbs := by
    rw [Int.natAbs_tmod]
    exact Nat.mod_lt _ (Int.natAbs_pos.mpr hb0)
  have hq : (divideS a b).1.toInt = a.toInt.tdiv b.toInt := by
    rw [divideS, if_neg hb, if_neg h]
    exact BitVec.toInt_ofInt_eq_self (by decide) (tdiv_range hb h).1 (tdiv_range hb h).2
  have hr : (divideS a b).2.toInt = a.toInt.tmod b.toInt := by
    have hblo : -2 ^ 63 ≤ b.toInt := b.le_toInt
    have hbhi : b.toInt < 2 ^ 63 := b.toInt_lt
    rw [divideS, if_neg hb, if_neg h]
    dsimp only
    rw [hrest]
    exact BitVec.toInt_ofInt_eq_self (by decide) (by omega) (by omega)
  rw [hq, hr]
  refine ⟨(Int.tdiv_mul_add_tmod _ _).symm, hlt, ?_⟩
  obtain ha | ha := le_total 0 a.toInt
  · exact mul_nonneg (Int.tmod_nonneg _ ha) ha
  · have hneg := Int.tmod_nonneg b.toInt (Int.neg_nonneg_of_nonpos ha)
    rw [Int.neg_tmod] at hneg
    exact mul_nonneg_of_nonpos_of_nonpos (by omega) ha

/-! ### Counts of bits -/

theorem popCount_eq_sum (a : Word) : popCount a = ((List.range 64).map fun i => (a.getLsbD i).toNat).sum := by
  unfold popCount
  induction List.range 64 with
  | nil => rfl
  | cons i t ih => cases h : a.getLsbD i <;> simp [h, ih, Nat.add_comm]

theorem leadingZeros_spec (a : Word) : leadingZeros a ≤ 64 ∧ (∀ i, 64 - leadingZeros a ≤ i → a.getLsbD i = false) ∧
    (leadingZeros a < 64 → a.getLsbD (63 - leadingZeros a) = true) := by
  unfold leadingZeros
  by_cases ha : a = 0
  · rw [if_pos ha]
    exact ⟨le_rfl, fun i _ => by simp [ha], fun h => absurd h (lt_irrefl _)⟩
  · rw [if_neg ha]
    have ha0 : a.toNat ≠ 0 := fun h => ha (BitVec.eq_of_toNat_eq h)
    have hlog : a.toNat.log2 < 64 := (Nat.log2_lt ha0).mpr a.isLt
    refine ⟨by omega, fun i hi => ?_, fun _ => ?_⟩
    · exact Nat.testBit_lt_two_pow (Nat.lt_log2_self.trans_le (Nat.pow_le_pow_right (by decide) (by omega)))
    · rw [show 63 - (63 - a.toNat.log2) = a.toNat.log2 by omega]
      exact Nat.testBit_log2 ha0

theorem trailingZeros_spec (a : Word) : trailingZeros a ≤ 64 ∧ (∀ i < trailingZeros a, a.getLsbD i = false) ∧
    (trailingZeros a < 64 → a.getLsbD (trailingZeros a) = true) := by
  unfold trailingZeros
  cases h : (List.range 64).find? fun i => a.getLsbD i with
  | none =>
    rw [List.find?_eq_none] at h
    refine ⟨le_rfl, fun i hi => ?_, fun hlt => absurd hlt (lt_irrefl _)⟩
    simpa using h i (List.mem_range.mpr hi)
  | some i =>
    obtain ⟨hset, hmem, hbelow⟩ := List.find?_range_eq_some.mp h
    exact ⟨(List.mem_range.mp hmem).le, fun j hj => by simpa using hbelow j hj, fun _ => hset⟩

/-! ### The obligations -/

/-- Settles O3: each function from what the shared operation leaves, division and the counts by their own lemmas. -/
theorem aluFunctionResults : Obligations.AluFunctionResults := by
  unfold Obligations.AluFunctionResults
  refine ⟨fun o s => ?functions, fun o s => ?division, fun o s => ?counts⟩
  case functions =>
    have hS (w : Word) : BitVec.ofInt 64 w.toInt = w := BitVec.ofInt_toInt
    have hU (w : Word) : BitVec.ofNat 64 w.toNat = w := by rw [BitVec.ofNat_toNat, BitVec.setWidth_eq]
    exact ⟨rfl, State.result_of_eq rfl, State.result_of_eq rfl, State.result_of_eq rfl, State.result_of_eq rfl,
      State.result_of_eq rfl, State.result_of_eq rfl, State.result_of_eq rfl, State.result_of_eq rfl,
      State.result_of_eq (sshiftRight_eq_ofInt_div _ _), State.result_of_eq (ite_lt_eq_min hS _ _),
      State.result_of_eq (ite_lt_eq_max hS _ _), State.result_of_eq (ite_lt_eq_min hU _ _),
      State.result_of_eq (ite_lt_eq_max hU _ _), State.result_of_eq (boolWord_decide _), State.result_of_eq (boolWord_decide _),
      State.result_of_eq rfl, State.result_of_eq rfl, State.result_of_eq rfl⟩
  case division =>
    refine ⟨fun hb => ?_, fun ha hb => ?_, fun hb h => ?_, fun hb => ?_⟩
    · have hS : divideS (s.getX o.a) (s.getX o.b) = (0xFFFFFFFFFFFFFFFF#64, s.getX o.a) := if_pos hb
      have hU : divideU (s.getX o.a) (s.getX o.b) = (0xFFFFFFFFFFFFFFFF#64, s.getX o.a) := if_pos hb
      exact ⟨State.result_of_eq (congrArg Prod.fst hS), State.result_of_eq (congrArg Prod.snd hS),
        State.result_of_eq (congrArg Prod.fst hU), State.result_of_eq (congrArg Prod.snd hU)⟩
    · have hS : divideS (s.getX o.a) (s.getX o.b) = (s.getX o.a, 0) := by
        rw [divideS, if_neg (by rw [hb]; decide), if_pos ⟨ha, hb⟩]
      exact ⟨State.result_of_eq (congrArg Prod.fst hS), State.result_of_eq (congrArg Prod.snd hS)⟩
    · exact ⟨_, _, State.result_of_eq rfl, State.result_of_eq rfl, divideS_spec hb h⟩
    · exact ⟨_, _, State.result_of_eq rfl, State.result_of_eq rfl, divideU_spec hb⟩
  case counts =>
    obtain ⟨hclz, hclzAbove, hclzTop⟩ := leadingZeros_spec (s.getX o.a)
    obtain ⟨hctz, hctzBelow, hctzLow⟩ := trailingZeros_spec (s.getX o.a)
    exact ⟨⟨_, hclz, State.result_of_eq rfl, hclzAbove, hclzTop⟩,
      ⟨_, hctz, State.result_of_eq rfl, hctzBelow, hctzLow⟩,
      State.result_of_eq (congrArg (BitVec.ofNat 64) (popCount_eq_sum _))⟩

/-- Settles O4: the shared operations with the immediate in place of xb, and the scaled immediate. -/
theorem aluImmediateResults : Obligations.AluImmediateResults := by
  unfold Obligations.AluImmediateResults
  refine ⟨fun o s => ?immediates, fun o s => ?shifts, fun o s => ?scaled⟩
  case immediates =>
    have hslt : (s.getX o.a).toInt < (o.imm.signExtend 64).toInt ↔ (s.getX o.a).toInt < o.imm.toInt := by
      rw [BitVec.toInt_signExtend_of_le (by decide)]
    exact ⟨State.result_of_eq rfl, State.result_of_eq rfl, State.result_of_eq rfl, State.result_of_eq rfl,
      State.result_of_eq ((boolWord_decide _).trans (if_congr hslt rfl rfl)), State.result_of_eq (boolWord_decide _)⟩
  case shifts => exact ⟨State.result_of_eq rfl, State.result_of_eq rfl, State.result_of_eq (sshiftRight_eq_ofInt_div _ _)⟩
  case scaled =>
    exact ⟨State.result_of_eq (sext20_shiftLeft _), State.result_of_eq (congrArg (s.cur.pc + 8 + ·) (sext20_shiftLeft _))⟩

/-- Settles O5: a branch by its condition, a jump by its link and its target. -/
theorem branchAndJumpResults : Obligations.BranchAndJumpResults := by
  unfold Obligations.BranchAndJumpResults
  refine ⟨fun o s => ?branches, fun o s => ?jal, fun o s => ?jalr⟩
  case branches =>
    exact ⟨branchOn_of_eq (f := fun a b => decide (a = b)) rfl, branchOn_of_eq (f := fun a b => decide (a ≠ b)) rfl,
      branchOn_of_eq (f := sltW) rfl, branchOn_of_eq (f := fun a b => !sltW a b) (not_sltW _ _),
      branchOn_of_eq (f := sltnW) rfl, branchOn_of_eq (f := fun a b => !sltnW a b) (not_sltnW _ _)⟩
  case jal =>
    have hjal : exec (.jal o) s =
        .next ((s.setX o.d (s.cur.pc + 4)).setPc (s.cur.pc + (o.imm.signExtend 64 <<< 2))) := rfl
    rw [hjal, shiftLeft_two, State.setX_setPc]
  case jalr =>
    refine ⟨fun h => ?_, fun h => ?_⟩
    · exact (if_neg (not_not.mpr h)).trans (congrArg _ (s.setX_setPc _ _ _))
    · exact if_pos h

end Sys2Proof.Machine
end

section
/-! The scalar loads and stores: what one that passes its checks leaves, what one that fails a check answers, where the checks of
Table 7-7 fail, and O6, assembled from these. -/

namespace Sys2Proof.Machine

/-! ### What the parts of an access leave -/

/-- The checks of an access leave everything but the TLB and the free values. -/
theorem State.access_leaves {s t : State} {ea : Word} {n : Nat} {need : Need} {r : Except Fail Xlat}
    (h : s.access ea n need = (r, t)) : ∃ tlb free, t = { s with tlb := tlb, free := free } := by
  have hstate := s.access_state ea n need
  rwa [h] at hstate

theorem State.access_keeps {s t : State} {ea : Word} {n : Nat} {need : Need} {r : Except Fail Xlat}
    (h : s.access ea n need = (r, t)) : t.cur = s.cur ∧ t.readPlace = s.readPlace := by
  obtain ⟨tlb, free, rfl⟩ := State.access_leaves h
  exact ⟨rfl, rfl⟩

/-- The search for a leaf leaves everything but the TLB and the free values. -/
theorem State.findLeaf_leaves {s t : State} {v : Via} {va : Nat} {r : WalkResult}
    (h : s.findLeaf v va = (r, t)) : ∃ tlb free, t = { s with tlb := tlb, free := free } := by
  have hstate := s.findLeaf_state v va
  rwa [h] at hstate

/-- A watch match is kept with the convoy (R332). -/
theorem State.noteWatch_state (s : State) (va n : Nat) (rd wr : Bool) :
    ∃ conv, s.noteWatch va n rd wr = s.withCur { s.cur with conv := conv } := by
  unfold State.noteWatch
  split
  · exact ⟨_, rfl⟩
  · exact ⟨s.cur.conv, rfl⟩

theorem State.touch_cur (s : State) (v : Via) (x : Xlat) (n : Need) : (s.touch v x n).cur = s.cur := by
  obtain ⟨mem, tlb, h⟩ := s.touch_state v x n
  rw [h]

/-- A byte of a place outside the leaf's entry reads as before A and D are set (R222). -/
theorem State.touch_readPlace (s : State) (v : Via) (x : Xlat) (n : Need) (q : Place) (h : q.host = true ∨ x.spares q.addr 1) :
    (s.touch v x n).readPlace q 1 = s.readPlace q 1 := by
  have hbyte := fun hs => s.touch_read v x n q.addr hs
  obtain ⟨mem, tlb, ht⟩ := s.touch_state v x n
  rw [ht] at hbyte ⊢
  unfold State.readPlace
  cases hq : q.host with
  | true => rfl
  | false =>
    have hm := hbyte (h.resolve_left (by simp [hq]))
    simp only at hm
    simp [State.byteUnder, State.keyAt, State.memoryKey, Memory.readLE, hm]

theorem ofBytes_lt (bs : List Byte) : ofBytes bs < 256 ^ bs.length := by
  induction bs with
  | nil => decide
  | cons b t ih =>
    have hb : b.toNat < 256 := b.isLt
    rw [ofBytes, List.length_cons, pow_succ']
    omega

theorem State.readPlace_lt (s : State) (p : Place) (n : Nat) : s.readPlace p n < 256 ^ n := by
  unfold State.readPlace
  split
  · exact Memory.readLE_lt _ _ _
  · split
    · exact Memory.readLE_lt _ _ _
    · simpa using ofBytes_lt ((List.range n).map fun i => s.byteUnder p.key (p.addr + i))

/-! ### An access that passes its checks (R133) -/

theorem Strand.failsLate_eq_false {c : Strand} (h : c.lateStop = none) (e : Nat) : c.failsLate e = false := by
  simp [Strand.failsLate, Strand.lateAccess, h]

section Passes

variable {o : RRI} {s t : State} {x : Xlat} {n : Nat}

theorem scalarLoad_passes (ext : Nat → Word) (hlate : s.cur.lateStop = none)
    (h : s.access (effAddr o s) n .load = (.ok x, t)) :
    scalarLoad o s n ext = .next (((t.touch t.cur.via x .load).noteWatch (effAddr o s).toNat n true false).withResult o.d
      (ext (s.readPlace x.place n)) 4) := by
  obtain ⟨hcur, hread⟩ := State.access_keeps h
  unfold scalarLoad
  simp only [h]
  generalize hu : (t.touch t.cur.via x .load).noteWatch (effAddr o s).toNat n true false = u
  have hnone : u.cur.lateStop = none := by
    obtain ⟨conv, hconv⟩ := (t.touch t.cur.via x .load).noteWatch_state (effAddr o s).toNat n true false
    rw [← hu, hconv, State.withCur_cur, State.touch_cur, hcur]
    exact hlate
  have hload : u.cur.lateLoad = none := by rw [Strand.lateLoad, hnone]
  rw [hload, Strand.failsLate_eq_false hnone, hread]
  exact u.result_eq _ _

theorem scalarStore_passes (hlate : s.cur.lateStop = none) (h : s.access (effAddr o s) n .store = (.ok x, t)) :
    scalarStore o s n = .next ((t.storeAt t.cur.via (effAddr o s).toNat x n (s.getX o.d).toNat).noteWatch
      (effAddr o s).toNat n false true).next4 := by
  obtain ⟨hcur, -⟩ := State.access_keeps h
  unfold scalarStore
  simp only [h]
  exact if_neg (by rw [Strand.failsLate_eq_false (hcur ▸ hlate)]; decide)

end Passes

/-! ### Bytes after a store -/

/-- The bytes stored stand at the place the address was translated to. -/
theorem State.readPlace_storeAt (s : State) (u : Via) (va : Nat) (x : Xlat) (n v : Nat) :
    (s.storeAt u va x n v).readPlace x.place n = v % 256 ^ n := by
  obtain ⟨agenda, h⟩ := State.bell_state ((s.touch u x .store).writePlace x.place n v) u.part va n
  rw [State.storeAt, h]
  exact State.readPlace_writePlace _ _ _ _

/-- Every other byte is as before, but for those of the page-table entry that is touched (R222). -/
theorem State.readPlace_storeAt_ne (s : State) (u : Via) (va : Nat) (x : Xlat) (n v : Nat) {q : Place}
    (hapart : x.place.apart n q 1) (hspare : q.host = true ∨ x.spares q.addr 1) :
    (s.storeAt u va x n v).readPlace q 1 = s.readPlace q 1 := by
  obtain ⟨agenda, h⟩ := State.bell_state ((s.touch u x .store).writePlace x.place n v) u.part va n
  rw [State.storeAt, h, ← s.touch_readPlace u x .store q hspare]
  exact State.readPlace_writePlace_ne _ _ _ _ _ hapart

/-- What a scalar store that passes its checks leaves (R133). -/
theorem scalarStore_leaves {o : RRI} {s t : State} {x : Xlat} {n : Nat} (hlate : s.cur.lateStop = none)
    (h : s.access (effAddr o s) n .store = (.ok x, t)) :
    ∃ u, scalarStore o s n = .next u ∧ u.readPlace x.place n = (s.getX o.d).toNat % 256 ^ n ∧
      (∀ q : Place, x.place.apart n q 1 → (q.host = true ∨ x.spares q.addr 1) → u.readPlace q 1 = s.readPlace q 1) ∧
      u.cur.x = s.cur.x ∧ u.cur.pc = s.cur.pc + 4 ∧ u.cur.vec = s.cur.vec ∧ u.others = s.others ∧ u.larder = s.larder := by
  have hpass := scalarStore_passes hlate h
  obtain ⟨tlb, free, rfl⟩ := State.access_leaves h
  generalize hw : State.storeAt _ _ _ x n _ = w at hpass
  obtain ⟨conv, hconv⟩ := w.noteWatch_state (effAddr o s).toNat n false true
  rw [hconv] at hpass
  have hbytes := State.readPlace_storeAt { s with tlb := tlb, free := free } s.cur.via (effAddr o s).toNat x n (s.getX o.d).toNat
  have hothers := fun q => State.readPlace_storeAt_ne { s with tlb := tlb, free := free } s.cur.via (effAddr o s).toNat x n
    (s.getX o.d).toNat (q := q)
  obtain ⟨mem, keys, hostMem, tlb', agenda, hstore⟩ := State.storeAt_state { s with tlb := tlb, free := free } s.cur.via
    (effAddr o s).toNat x n (s.getX o.d).toNat
  rw [hw] at hbytes hothers hstore
  refine ⟨_, hpass, hbytes, hothers, ?_⟩
  subst hstore
  exact ⟨rfl, rfl, rfl, rfl, rfl⟩

/-! ### Values loaded -/

/-- n bytes read, sign-extended or zero-extended to a word. -/
def extendLoad (n : Nat) (sx : Bool) (v : Nat) : Word :=
  if sx ∧ 2 ^ (8 * n - 1) ≤ v then BitVec.ofInt 64 ((v : Int) - 2 ^ (8 * n)) else BitVec.ofNat 64 v

theorem extendLoad_unsigned (n v : Nat) : BitVec.ofNat 64 v = extendLoad n false v := (if_neg (by simp)).symm

theorem extendLoad_signed {n v : Nat} (h : v < 256 ^ n) : sextN (8 * n) v = extendLoad n true v := by
  have hv : v < 2 ^ (8 * n) := by rwa [pow_mul]
  unfold sextN signed extendLoad
  rw [Nat.mod_eq_of_lt hv]
  by_cases hs : 2 ^ (8 * n - 1) ≤ v
  · rw [if_neg (by omega), if_pos ⟨rfl, hs⟩]
    norm_cast
  · rw [if_pos (by omega), if_neg fun hc => hs hc.2, BitVec.ofInt_natCast]

/-- A load of 64 bits has nothing to extend. -/
theorem extendLoad_full (v : Nat) : BitVec.ofNat 64 v = extendLoad 8 true v := by
  unfold extendLoad
  split
  · apply BitVec.eq_of_toNat_eq
    rw [BitVec.toNat_ofInt, BitVec.toNat_ofNat]
    omega
  · rfl

/-! ### Where the checks of Table 7-7 fail -/

theorem State.access_misaligned {s : State} {ea : Word} {n : Nat} (need : Need) (h : ea.toNat % n ≠ 0) :
    s.access ea n need = (.error (.trap .align), s) := if_pos h

theorem State.access_beyond {s : State} {ea : Word} {n : Nat} (need : Need) (ha : ea.toNat % n = 0) (h : 2 ^ 56 ≤ ea.toNat) :
    s.access ea n need = (.error (.trap .access), s) := by
  rw [State.access, if_neg (not_not.mpr ha), if_pos h]

theorem State.access_eq_translate {s : State} {ea : Word} {n : Nat} (need : Need) (ha : ea.toNat % n = 0)
    (h : ea.toNat < 2 ^ 56) : s.access ea n need = s.translate s.cur.via s.cur.level ea.toNat need false := by
  rw [State.access, if_neg (not_not.mpr ha), if_neg (not_le.mpr h)]

section Translation

variable {s t : State} {v : Via} {lvl : Level} {va : Nat} {need : Need} {b : Bool} {p : Partition} {l : Leaf}

/-- A walk that fails with nothing cached is the answer of the search (R219, R223). -/
theorem State.findLeaf_error {c : Cause} (hp : s.partition? v.part = some p) (hc : s.cached v va = none)
    (hw : walk s.mem s.tableOk p.root va = .error c) : s.findLeaf v va = (.error c, s) := by
  simp [State.findLeaf, hp, hc, hw]

theorem State.translate_error {c : Cause} (need : Need) (b : Bool) (hl : s.landingAt v.part va = none)
    (hf : s.findLeaf v va = (.error c, t)) : s.translate v lvl va need b = (.error (.trap c), t) := by
  simp [State.translate, State.leafOf, hl, hf]

/-- The checks after the search for the leaf read nothing that the search changes. -/
theorem State.translate_leaf (need : Need) (b : Bool) (hl : s.landingAt v.part va = none)
    (hf : s.findLeaf v va = (.ok l, t)) :
    s.translate v lvl va need b = (s.locate v.part lvl va need b (some l), t) := by
  have hloc : t.locate v.part lvl va need b (some l) = s.locate v.part lvl va need b (some l) := by
    obtain ⟨tlb, free, rfl⟩ := State.findLeaf_leaves hf
    rfl
  simp [State.translate, State.leafOf, hl, hf, hloc]

variable {part : Nat}

theorem State.locate_denied
    (h : leafPermits l.word lvl need = false ∨ queueAreaDenied (s.partition? part) lvl need va = true) :
    s.locate part lvl va need b (some l) = .error (.trap .access) :=
  if_pos (by simpa using h)

theorem State.locate_place {f : Fail} (hperm : leafPermits l.word lvl need = true)
    (hqueue : queueAreaDenied (s.partition? part) lvl need va = false)
    (h : s.place part va (pteFrame l.word + (va - l.base)) b = .error f) :
    s.locate part lvl va need b (some l) = .error f := by
  simp [State.locate, hperm, hqueue, h]

end Translation

section Places

variable {s : State} {part va pa : Nat} {p : Partition} {w : Window}

theorem State.place_reserved (b : Bool) (h : rangeOf pa = .reserved) : s.place part va pa b = .error (.trap .access) := by
  simp [State.place, h]

theorem State.place_gddr {b : Bool} (h : rangeOf pa = .gddr) (hm : s.memoryOk pa = false) :
    s.place part va pa b = .error (.trap .access) := by
  simp [State.place, h, hm]

/-- An address behind a port group where the window that covers it may not be used. -/
theorem State.place_unusable (hr : rangeOf pa ∈ [Range.cxl, .peer, .host]) (hp : s.partition? part = some p)
    (h : ∀ w, p.windowAt va pa = some w → w.bounce = true ∨ w.en = false) :
    s.place part va pa false = .error (.trap .access) := by
  simp only [List.mem_cons, List.not_mem_nil, or_false] at hr
  cases hw : p.windowAt va pa with
  | none => obtain hr | hr | hr := hr <;> simp [State.place, hr, hp, hw]
  | some w =>
    obtain hb | hen := h w hw
    · obtain hr | hr | hr := hr <;> simp [State.place, hr, hp, hw, hb]
    · obtain hr | hr | hr := hr <;> simp [State.place, hr, hp, hw, State.route, hen]

/-- An address behind a port group fails as the route of its window does (R373). -/
theorem State.place_route {f : Fail} (hr : rangeOf pa ∈ [Range.cxl, .peer, .host]) (hp : s.partition? part = some p)
    (hw : p.windowAt va pa = some w) (hb : w.bounce = false) (h : s.route w (pa - w.pa) = .error f) :
    s.place part va pa false = .error f := by
  simp only [List.mem_cons, List.not_mem_nil, or_false] at hr
  obtain hr | hr | hr := hr <;> simp [State.place, hr, hp, hw, hb, h]

variable {a : Nat}

/-- No group serves the window, and the access may not wait for one (R373). -/
theorem State.route_portgone (hen : w.en = true)
    (hserved : (((routeGroups w a).filterMap s.group?).any fun g => groupServes g w.kind) = false)
    (hwaits : (!w.rm && ((routeGroups w a).filterMap s.group?).any groupSwitching) = false) :
    s.route w a = .error (.trap .portgone) := by
  simp only [State.route, hen, hserved, hwaits]
  rfl

/-- No group serves the window, and the access waits for one (R373). -/
theorem State.route_stall (hen : w.en = true)
    (hserved : (((routeGroups w a).filterMap s.group?).any fun g => groupServes g w.kind) = false)
    (hwaits : (!w.rm && ((routeGroups w a).filterMap s.group?).any groupSwitching) = true) (hrev : w.revoked = false) :
    s.route w a = .error .stall := by
  simp only [State.route, hen, hserved, hwaits, hrev]
  rfl

/-- A window whose session is lost fails an access that a group serves or that would wait for one (R386). -/
theorem State.route_hostgone (hen : w.en = true)
    (h : (((routeGroups w a).filterMap s.group?).any fun g => groupServes g w.kind) = true ∨
      (!w.rm && ((routeGroups w a).filterMap s.group?).any groupSwitching) = true) (hrev : w.revoked = true) :
    s.route w a = .error (.trap .hostgone) := by
  unfold State.route
  cases hserved : ((routeGroups w a).filterMap s.group?).any fun g => groupServes g w.kind with
  | true => simp [hen, hserved, hrev]
  | false =>
    have hwaits := h.resolve_left (by simp [hserved])
    simp only [hen, hserved, hwaits, hrev]
    rfl

end Places

/-! ### A parcel whose access fails -/

/-- A scalar load or store of n bytes whose checks fail answers what R134 has a failed access answer. -/
def FailsAt (i : RRI → Instr) (n : Nat) (need : Need) : Prop :=
  ∀ (o : RRI) (s t : State) (f : Fail), s.access (effAddr o s) n need = (.error f, t) →
    exec (i o) s = .next (t.failed f (effAddr o s) need)

theorem scalarLoad_fails {o : RRI} {s t : State} {n : Nat} {f : Fail} (ext : Nat → Word)
    (h : s.access (effAddr o s) n .load = (.error f, t)) :
    scalarLoad o s n ext = .next (t.failed f (effAddr o s) .load) := by
  unfold scalarLoad
  simp only [h]

theorem scalarStore_fails {o : RRI} {s t : State} {n : Nat} {f : Fail}
    (h : s.access (effAddr o s) n .store = (.error f, t)) :
    scalarStore o s n = .next (t.failed f (effAddr o s) .store) := by
  unfold scalarStore
  simp only [h]

/-- Every scalar load and store, its width in bytes and its need (R133). -/
def scalarAccesses : List ((RRI → Instr) × Nat × Need) :=
  [(.ld8, 1, .load), (.ld16, 2, .load), (.ld32, 4, .load), (.ld64, 8, .load), (.ldn8, 1, .load), (.ldn16, 2, .load),
    (.ldn32, 4, .load), (.st8, 1, .store), (.st16, 2, .store), (.st32, 4, .store), (.st64, 8, .store)]

theorem scalarAccesses_failAt : ∀ r ∈ scalarAccesses, FailsAt r.1 r.2.1 r.2.2 := by
  simp only [scalarAccesses, List.forall_mem_cons, List.not_mem_nil, false_imp_iff, implies_true, and_true]
  exact ⟨fun _ _ _ _ => scalarLoad_fails _, fun _ _ _ _ => scalarLoad_fails _, fun _ _ _ _ => scalarLoad_fails _,
    fun _ _ _ _ => scalarLoad_fails _, fun _ _ _ _ => scalarLoad_fails _, fun _ _ _ _ => scalarLoad_fails _,
    fun _ _ _ _ => scalarLoad_fails _, fun _ _ _ _ => scalarStore_fails, fun _ _ _ _ => scalarStore_fails,
    fun _ _ _ _ => scalarStore_fails, fun _ _ _ _ => scalarStore_fails⟩

section Fails

variable {i : RRI → Instr} {n : Nat} {need : Need} {o : RRI} {s t : State} {p : Partition} {l : Leaf}

/-- The first two checks of Table 7-7: nothing of the access has happened, and trval holds the address. -/
theorem FailsAt.form (h : FailsAt i n need) (o : RRI) (s : State) :
    ((effAddr o s).toNat % n ≠ 0 → exec (i o) s = .next (s.trap .align (effAddr o s))) ∧
      ((effAddr o s).toNat % n = 0 → 2 ^ 56 ≤ (effAddr o s).toNat → exec (i o) s = .next (s.trap .access (effAddr o s))) :=
  ⟨fun ha => h _ _ _ _ (State.access_misaligned need ha), fun ha hlt => h _ _ _ _ (State.access_beyond need ha hlt)⟩

theorem FailsAt.untranslated {c : Cause} (h : FailsAt i n need) (ha : (effAddr o s).toNat % n = 0)
    (hlt : (effAddr o s).toNat < 2 ^ 56) (hl : s.landingAt s.cur.part (effAddr o s).toNat = none)
    (hf : s.findLeaf s.cur.via (effAddr o s).toNat = (.error c, t)) :
    exec (i o) s = .next (t.failed (.trap c) (effAddr o s) need) :=
  h _ _ _ _ ((State.access_eq_translate need ha hlt).trans (State.translate_error need false hl hf))

theorem FailsAt.unlocated {f : Fail} (h : FailsAt i n need) (ha : (effAddr o s).toNat % n = 0)
    (hlt : (effAddr o s).toNat < 2 ^ 56) (hl : s.landingAt s.cur.part (effAddr o s).toNat = none)
    (hf : s.findLeaf s.cur.via (effAddr o s).toNat = (.ok l, t))
    (hloc : s.locate s.cur.part s.cur.level (effAddr o s).toNat need false (some l) = .error f) :
    exec (i o) s = .next (t.failed f (effAddr o s) need) :=
  h _ _ _ _ ((State.access_eq_translate need ha hlt).trans ((State.translate_leaf need false hl hf).trans
    (congrArg (·, t) hloc)))

end Fails

/-! ### A parcel whose access passes -/

/-- A scalar load of n bytes that passes its checks reads them, extends them and writes xd (R133). -/
def LoadsAs (i : RRI → Instr) (n : Nat) (sx : Bool) : Prop :=
  ∀ (o : RRI) (s t : State) (x : Xlat), s.cur.lateStop = none → s.access (effAddr o s) n .load = (.ok x, t) →
    exec (i o) s = .next (((t.touch t.cur.via x .load).noteWatch (effAddr o s).toNat n true false).withResult o.d
      (extendLoad n sx (s.readPlace x.place n)) 4)

theorem scalarLoad_extends {o : RRI} {s t : State} {x : Xlat} {n : Nat} {sx : Bool} {ext : Nat → Word}
    (hext : ∀ v < 256 ^ n, ext v = extendLoad n sx v) (hlate : s.cur.lateStop = none)
    (h : s.access (effAddr o s) n .load = (.ok x, t)) :
    scalarLoad o s n ext = .next (((t.touch t.cur.via x .load).noteWatch (effAddr o s).toNat n true false).withResult o.d
      (extendLoad n sx (s.readPlace x.place n)) 4) := by
  rw [scalarLoad_passes ext hlate h, hext _ (s.readPlace_lt _ _)]

theorem loadsAs_scalar : ∀ r ∈ ([(.ld8, 1, true), (.ld16, 2, true), (.ld32, 4, true), (.ld64, 8, true), (.ldn8, 1, false),
    (.ldn16, 2, false), (.ldn32, 4, false)] : List ((RRI → Instr) × Nat × Bool)), LoadsAs r.1 r.2.1 r.2.2 := by
  simp only [List.forall_mem_cons, List.not_mem_nil, false_imp_iff, implies_true, and_true]
  have signed (n : Nat) (v : Nat) (h : v < 256 ^ n) : sextN (8 * n) v = extendLoad n true v := extendLoad_signed h
  have unsigned (n : Nat) (v : Nat) (_ : v < 256 ^ n) : BitVec.ofNat 64 v = extendLoad n false v := extendLoad_unsigned n v
  exact ⟨fun _ _ _ _ => scalarLoad_extends (signed 1), fun _ _ _ _ => scalarLoad_extends (signed 2),
    fun _ _ _ _ => scalarLoad_extends (signed 4), fun _ _ _ _ => scalarLoad_extends fun v _ => extendLoad_full v,
    fun _ _ _ _ => scalarLoad_extends (unsigned 1), fun _ _ _ _ => scalarLoad_extends (unsigned 2),
    fun _ _ _ _ => scalarLoad_extends (unsigned 4)⟩

/-- A scalar store is the store of its low n bytes (R133). -/
theorem exec_scalarStore : ∀ r ∈ ([(.st8, 1), (.st16, 2), (.st32, 4), (.st64, 8)] : List ((RRI → Instr) × Nat)),
    ∀ (o : RRI) (s : State), exec (r.1 o) s = scalarStore o s r.2 := by
  simp only [List.forall_mem_cons, List.not_mem_nil, false_imp_iff, implies_true, and_true]
  exact ⟨fun _ _ => rfl, fun _ _ => rfl, fun _ _ => rfl, fun _ _ => rfl⟩

/-! ### The obligation -/

/-- Settles O6: an access that passes by what it leaves, and one that fails by the check that fails. -/
theorem scalarAccessResults : Obligations.ScalarAccessResults := by
  unfold Obligations.ScalarAccessResults
  refine ⟨loadsAs_scalar, fun r hr o s t x hlate => ?stores, fun r hr => ?form, fun r hr o s p => ?rest⟩
  case stores =>
    intro ea n h
    obtain ⟨u, hu, hbytes, hothers, hframe⟩ := scalarStore_leaves hlate h
    refine ⟨u, (exec_scalarStore r hr o s).trans hu, hbytes.trans ?_, fun q hq => hothers q ?_, hframe⟩
    · rw [pow_mul]
      rfl
    · obtain h | h | h := hq
      · exact .inl h.symm
      · exact .inr (.inr h)
      · exact .inr (.inl h)
  case form =>
    have hmem : r ∈ scalarAccesses.map fun a => (a.1, a.2.1) := hr
    obtain ⟨a, ha, rfl⟩ := List.mem_map.mp hmem
    exact (scalarAccesses_failAt a ha).form
  case rest =>
    have hfails := scalarAccesses_failAt r hr
    intro xa ea need traps ha hlt hp hl
    refine ⟨fun hc hw => hfails.untranslated ha hlt hl (State.findLeaf_error hp hc hw), fun l t hf => ?_⟩
    intro pa
    have hfail {f : Fail} (hloc : s.locate s.cur.part s.cur.level ea need false (some l) = .error f) :
        exec (r.1 o) s = .next (t.failed f xa need) := hfails.unlocated ha hlt hl hf hloc
    obtain ⟨tlb, free, rfl⟩ := State.findLeaf_leaves hf
    refine ⟨fun hdenied => hfail (State.locate_denied (hp ▸ hdenied)), fun hperm hqueue => ?_⟩
    have hplace {f : Fail} (h : s.place s.cur.part ea pa false = .error f) := hfail (State.locate_place hperm (hp ▸ hqueue) h)
    refine ⟨fun h => ?memory, fun hrange => ⟨fun hw => hplace (State.place_unusable hrange hp hw), fun w hw hb hen => ?window⟩⟩
    case memory =>
      obtain hres | ⟨hgddr, hbad⟩ := h
      · exact hplace (State.place_reserved false hres)
      · exact hplace (State.place_gddr hgddr hbad)
    case window =>
      intro gs served waits
      have hroute {f : Fail} (h : s.route w (pa - w.pa) = .error f) := hplace (State.place_route hrange hp hw hb h)
      exact ⟨fun hserved hwaits => hroute (State.route_portgone hen hserved hwaits),
        fun hserved hwaits hrev => hroute (State.route_stall hen hserved hwaits hrev),
        fun h hrev => hroute (State.route_hostgone hen h hrev)⟩

end Sys2Proof.Machine
end

section
/-! The scalar floating-point parcels: the value of an encoding by its magnitude, what NaN operands and the invalid operations
give, the rounding of a value that the format holds, and O8 and O9, assembled from these. -/

namespace Sys2Proof.Machine

/-! ### The value of an encoding (R152) -/

/-- A format with infinities whose sign bit stands above its fraction. -/
structure FloatFmt.Ieee (f : FloatFmt) : Prop where
  hasInf : f.hasInf = true
  frac_lt : f.frac < f.width

theorem scalarFmt_ieee (k : FFmt) : (scalarFmt k).Ieee := by
  cases k <;> exact ⟨rfl, by decide⟩

theorem FloatFmt.value_of_isNaN {f : FloatFmt} {b : Nat} (h : f.isNaN b = true) : f.value b = .nan (f.quiet b) := if_pos h

namespace FloatFmt.Ieee

variable {f : FloatFmt} {b : Nat}

theorem isNaN_iff (hf : f.Ieee) : f.isNaN b = true ↔ f.infEnc < f.mag b := by
  rw [FloatFmt.isNaN, if_pos hf.hasInf, decide_eq_true_eq]

/-- The fraction is the low bits of the magnitude. -/
theorem mod_frac (hf : f.Ieee) : b % 2 ^ f.frac = f.mag b % 2 ^ f.frac :=
  (Nat.mod_mod_of_dvd b (pow_dvd_pow 2 (Nat.le_sub_one_of_lt hf.frac_lt))).symm

theorem value_inf (hf : f.Ieee) (h : f.mag b = f.infEnc) : f.value b = .inf (f.neg b) := by
  have hnan : ¬f.isNaN b = true := by rw [hf.isNaN_iff]; omega
  simp [FloatFmt.value, hnan, hf.hasInf, h]

/-- A finite encoding: subnormal where its exponent field is zero. -/
theorem value_number (hf : f.Ieee) (h : f.mag b < f.infEnc) : f.value b =
    if f.mag b / 2 ^ f.frac = 0 then .num (f.neg b) (f.mag b % 2 ^ f.frac) (f.emin - f.frac)
    else .num (f.neg b) (2 ^ f.frac + f.mag b % 2 ^ f.frac) ((f.mag b / 2 ^ f.frac : Nat) - f.bias - f.frac) := by
  have hnan : ¬f.isNaN b = true := by rw [hf.isNaN_iff]; omega
  have hinf : ¬(f.hasInf && decide (f.mag b = f.infEnc)) = true := by simp [h.ne]
  rw [FloatFmt.value, if_neg hnan, if_neg hinf, hf.mod_frac]
  rfl

/-- A finite number is zero where its magnitude is. -/
theorem value_finite (hf : f.Ieee) (h : f.mag b < f.infEnc) : ∃ m e, f.value b = .num (f.neg b) m e ∧ (m = 0 ↔ f.mag b = 0) := by
  rw [hf.value_number h]
  have hpos : 0 < 2 ^ f.frac := Nat.two_pow_pos _
  have hparts : 2 ^ f.frac * (f.mag b / 2 ^ f.frac) + f.mag b % 2 ^ f.frac = f.mag b := Nat.div_add_mod _ _
  split
  · next hsub =>
    rw [hsub, Nat.mul_zero, Nat.zero_add] at hparts
    exact ⟨_, _, rfl, by rw [hparts]⟩
  · next hnorm =>
    have hmag : f.mag b ≠ 0 := fun h0 => hnorm (by rw [h0, Nat.zero_div])
    exact ⟨_, _, rfl, iff_of_false (by omega) hmag⟩

theorem value_zero (hf : f.Ieee) (h : f.mag b = 0) : ∃ e, f.value b = .num (f.neg b) 0 e := by
  obtain ⟨m, e, hv, hm⟩ := hf.value_finite (b := b) (by rw [h]; exact Nat.succ_pos _)
  exact ⟨e, by rw [hv, hm.mpr h]⟩

/-- An encoding signals where it is a NaN that is not quiet (R153). -/
theorem value_isSNaN (hf : f.Ieee) : (f.value b).isSNaN = (f.isNaN b && !f.quiet b) := by
  by_cases hnan : f.isNaN b = true
  · rw [FloatFmt.value_of_isNaN hnan, hnan]
    rfl
  · have hle : f.mag b ≤ f.infEnc := not_lt.mp (mt hf.isNaN_iff.mpr hnan)
    rw [Bool.eq_false_of_not_eq_true hnan]
    obtain hlt | heq := hle.lt_or_eq
    · obtain ⟨m, e, hv, -⟩ := hf.value_finite hlt
      rw [hv]
      rfl
    · rw [hf.value_inf heq]
      rfl

end FloatFmt.Ieee

/-! ### NaN operands (R142) -/

theorem FVal.eq_nan_of_isNaN {x : FVal} (h : x.isNaN = true) : ∃ q, x = .nan q := by
  cases x with
  | nan q => exact ⟨q, rfl⟩
  | inf n => exact absurd h Bool.false_ne_true
  | num n m e => exact absurd h Bool.false_ne_true

theorem FVal.isSNaN_eq_false {x : FVal} (h : x.isNaN = false) : x.isSNaN = false := by
  cases x with
  | nan q => cases h
  | inf n => rfl
  | num n m e => rfl

/-- An operation that hands on a NaN of either operand gives a NaN that is quiet where neither operand signals. -/
theorem nan_of_operands {g : FVal → FVal → FVal} (hleft : ∀ q y, g (.nan q) y = .nan (q && !y.isSNaN))
    (hright : ∀ x q, x.isNaN = false → g x (.nan q) = .nan q) {x y : FVal} (h : (x.isNaN || y.isNaN) = true) :
    g x y = .nan !(x.isSNaN || y.isSNaN) := by
  cases hx : x.isNaN with
  | true =>
    obtain ⟨q, rfl⟩ := FVal.eq_nan_of_isNaN hx
    rw [hleft]
    simp [FVal.isSNaN]
  | false =>
    rw [hx, Bool.false_or] at h
    obtain ⟨q, rfl⟩ := FVal.eq_nan_of_isNaN h
    rw [hright x q hx, FVal.isSNaN_eq_false hx]
    simp [FVal.isSNaN]

theorem FVal.add_nan {x y : FVal} (mode : RMode) (h : (x.isNaN || y.isNaN) = true) :
    x.add mode y = .nan !(x.isSNaN || y.isSNaN) := by
  refine nan_of_operands (g := FVal.add mode) (fun _ _ => rfl) (fun x q hx => ?_) h
  cases x with
  | nan _ => cases hx
  | inf n => rfl
  | num n m e => rfl

theorem FVal.mul_nan {x y : FVal} (h : (x.isNaN || y.isNaN) = true) : x.mul y = .nan !(x.isSNaN || y.isSNaN) := by
  refine nan_of_operands (g := FVal.mul) (fun _ _ => rfl) (fun x q hx => ?_) h
  cases x with
  | nan _ => cases hx
  | inf n => rfl
  | num n m e => rfl

@[simp] theorem FVal.negate_isNaN (x : FVal) : x.negate.isNaN = x.isNaN := by cases x <;> rfl

@[simp] theorem FVal.negate_isSNaN (x : FVal) : x.negate.isSNaN = x.isSNaN := by cases x <;> rfl

theorem FloatFmt.value_isNaN {f : FloatFmt} {b : Nat} (h : f.isNaN b = true) : (f.value b).isNaN = true := by
  rw [FloatFmt.value_of_isNaN h]
  rfl

theorem fDiv_nan {f : FloatFmt} {a b : Nat} (mode : RMode) (h : ((f.value a).isNaN || (f.value b).isNaN) = true) :
    fDiv f mode a b = f.nan ((f.value a).isSNaN || (f.value b).isSNaN) := by
  unfold fDiv
  generalize f.value a = x at h ⊢
  generalize f.value b = y at h ⊢
  cases x with
  | nan q => rfl
  | inf n =>
    obtain ⟨q, rfl⟩ := FVal.eq_nan_of_isNaN h
    rfl
  | num n m e =>
    obtain ⟨q, rfl⟩ := FVal.eq_nan_of_isNaN h
    rfl

theorem fSqrt_nan {f : FloatFmt} {a : Nat} (mode : RMode) (h : f.isNaN a = true) : fSqrt f mode a = f.nan !f.quiet a := by
  rw [fSqrt, FloatFmt.value_of_isNaN h]

/-! ### The functions with a NaN operand and the invalid operations (R142) -/

namespace FloatFmt.Ieee

variable {f : FloatFmt} {a b : Nat} (mode : RMode)

/-- The NaN rule of R142 for the functions of two operands. -/
theorem nan_operand (hf : f.Ieee) (h : (f.isNaN a || f.isNaN b) = true) :
    let r := f.nan ((f.isNaN a && !f.quiet a) || (f.isNaN b && !f.quiet b))
    fAdd f mode a b = r ∧ fSub f mode a b = r ∧ fMul f mode a b = r ∧ fDiv f mode a b = r := by
  have hval : ((f.value a).isNaN || (f.value b).isNaN) = true := by
    obtain h | h := (Bool.or_eq_true _ _).mp h
    · rw [FloatFmt.value_isNaN h, Bool.true_or]
    · rw [FloatFmt.value_isNaN h, Bool.or_true]
  have hdeliver (q : Bool) : f.deliver mode (.nan !q) = f.nan q := by rw [FloatFmt.deliver, Bool.not_not]
  rw [← hf.value_isSNaN, ← hf.value_isSNaN]
  refine ⟨?_, ?_, ?_, fDiv_nan mode hval⟩
  · rw [fAdd, FVal.add_nan mode hval, hdeliver]
  · rw [fSub, FVal.add_nan mode (by rwa [FVal.negate_isNaN]), FVal.negate_isSNaN, hdeliver]
  · rw [fMul, FVal.mul_nan hval, hdeliver]

theorem mul_zero_inf (hf : f.Ieee) (ha : f.mag a = 0) (hb : f.mag b = f.infEnc) :
    fMul f mode a b = f.nan true ∧ fMul f mode b a = f.nan true := by
  obtain ⟨e, hz⟩ := hf.value_zero ha
  have hi := hf.value_inf hb
  unfold fMul
  rw [hz, hi]
  exact ⟨rfl, rfl⟩

theorem div_zero_zero (hf : f.Ieee) (ha : f.mag a = 0) (hb : f.mag b = 0) : fDiv f mode a b = f.nan true := by
  obtain ⟨e1, h1⟩ := hf.value_zero ha
  obtain ⟨e2, h2⟩ := hf.value_zero hb
  unfold fDiv
  rw [h1, h2]
  rfl

theorem div_inf_inf (hf : f.Ieee) (ha : f.mag a = f.infEnc) (hb : f.mag b = f.infEnc) : fDiv f mode a b = f.nan true := by
  unfold fDiv
  rw [hf.value_inf ha, hf.value_inf hb]

/-- A finite number by zero: DZ and an infinity. -/
theorem div_by_zero (hf : f.Ieee) (ha0 : f.mag a ≠ 0) (ha : f.mag a < f.infEnc) (hb : f.mag b = 0) :
    fDiv f mode a b = { bits := f.signed (f.neg a != f.neg b) f.infEnc, flags := flagDZ } := by
  obtain ⟨m, e1, h1, hm⟩ := hf.value_finite ha
  obtain ⟨e2, h2⟩ := hf.value_zero hb
  unfold fDiv
  rw [h1, h2]
  simp [mt hm.mp ha0]

end FloatFmt.Ieee

/-! ### Rounding of values that the format holds (R158 to R160) -/

theorem FloatFmt.signed_neg_mag {f : FloatFmt} {a : Nat} (hw : 0 < f.width) (h : a < 2 ^ f.width) :
    f.signed (f.neg a) (f.mag a) = a := by
  obtain ⟨w, hwidth⟩ : ∃ w, f.width = w + 1 := ⟨_, (Nat.succ_pred_eq_of_pos hw).symm⟩
  rw [hwidth, pow_succ] at h
  have hdiv : a / 2 ^ w < 2 := Nat.div_lt_of_lt_mul h
  have hparts : 2 ^ w * (a / 2 ^ w) + a % 2 ^ w = a := Nat.div_add_mod _ _
  unfold FloatFmt.signed FloatFmt.neg FloatFmt.mag
  rw [hwidth, Nat.add_sub_cancel, Nat.mod_eq_of_lt hdiv]
  obtain h0 | h1 : a / 2 ^ w = 0 ∨ a / 2 ^ w = 1 :=
    Nat.le_one_iff_eq_zero_or_eq_one.mp (Nat.lt_succ_iff.mp hdiv)
  · rw [h0] at hparts ⊢
    simpa using hparts
  · rw [h1] at hparts ⊢
    simpa using hparts

namespace FloatFmt

section Rounding

variable {f : FloatFmt} {mode : RMode} {neg : Bool} {m g : Nat} {e : Int}

/-- A number rounds to its encoding where that is the encoding of its parts at the exponent that its rounding keeps. -/
theorem round_encoding (hm : m ≠ 0) (hk : max (floorLog2 m e - f.frac) (f.emin - f.frac) = e)
    (henc : (e - (f.emin - f.frac)).toNat * 2 ^ f.frac + m = g) (hmax : g ≤ f.maxEnc) :
    f.round mode false neg m e = { bits := f.signed neg g, flags := 0 } := by
  have hround : roundAt mode neg m e e = (m, false) := by
    rw [roundAt, if_pos le_rfl, Int.sub_self]
    exact congrArg (·, false) (Nat.mul_one m)
  unfold FloatFmt.round
  simp only [hk, hround, henc]
  rw [if_neg hm, if_neg (not_lt.mpr hmax)]
  simp [flagIf]

theorem round_subnormal (hmax : g ≤ f.maxEnc) (hsub : g < 2 ^ f.frac) :
    f.round mode false neg g (f.emin - f.frac) = { bits := f.signed neg g, flags := 0 } := by
  by_cases hg : g = 0
  · rw [FloatFmt.round, if_pos hg, hg]
  · have hlog : g.log2 < f.frac := (Nat.log2_lt hg).mpr hsub
    refine round_encoding hg (max_eq_right ?_) ?_ hmax
    · unfold floorLog2
      omega
    · rw [Int.sub_self, Int.toNat_zero, Nat.zero_mul, Nat.zero_add]

theorem round_normal (hmax : g ≤ f.maxEnc) (hnorm : g / 2 ^ f.frac ≠ 0) :
    f.round mode false neg (2 ^ f.frac + g % 2 ^ f.frac) ((g / 2 ^ f.frac : Nat) - f.bias - f.frac) =
      { bits := f.signed neg g, flags := 0 } := by
  have hpos : 0 < 2 ^ f.frac := Nat.two_pow_pos _
  have hrest : g % 2 ^ f.frac < 2 ^ f.frac := Nat.mod_lt _ hpos
  have hne : 2 ^ f.frac + g % 2 ^ f.frac ≠ 0 := by omega
  have hlog : (2 ^ f.frac + g % 2 ^ f.frac).log2 = f.frac :=
    (Nat.log2_eq_iff hne).mpr ⟨Nat.le_add_right _ _, by rw [pow_succ]; omega⟩
  obtain ⟨k, hk⟩ : ∃ k, g / 2 ^ f.frac = k + 1 := Nat.exists_eq_succ_of_ne_zero hnorm
  have hparts : 2 ^ f.frac * (k + 1) + g % 2 ^ f.frac = g := hk ▸ Nat.div_add_mod _ _
  refine round_encoding hne ?_ ?_ hmax
  · unfold floorLog2 FloatFmt.emin
    rw [hlog, hk]
    omega
  · have hexp : ((k + 1 : Nat) - (f.bias : Int) - f.frac - (f.emin - f.frac)).toNat = k := by
      unfold FloatFmt.emin
      omega
    rw [hk, hexp]
    linarith

end Rounding

/-- Rounding leaves every value of the format as it is, zeros and infinities with their signs included. -/
theorem Ieee.deliver_value {f : FloatFmt} (hf : f.Ieee) (mode : RMode) {a : Nat} (ha : a < 2 ^ f.width) (hnan : f.isNaN a = false) :
    f.deliver mode (f.value a) = { bits := a, flags := 0 } := by
  have hbits : f.signed (f.neg a) (f.mag a) = a := FloatFmt.signed_neg_mag (Nat.zero_lt_of_lt hf.frac_lt) ha
  have hle : f.mag a ≤ f.infEnc := not_lt.mp fun h => Bool.eq_false_iff.mp hnan (hf.isNaN_iff.mpr h)
  obtain hlt | hinf := hle.lt_or_eq
  · have hmax : f.mag a ≤ f.maxEnc := Nat.lt_succ_iff.mp hlt
    rw [hf.value_number hlt]
    split
    · next hsub =>
      have hsmall : f.mag a < 2 ^ f.frac := Nat.lt_of_div_eq_zero (Nat.two_pow_pos _) hsub
      rw [Nat.mod_eq_of_lt hsmall, FloatFmt.deliver, round_subnormal hmax hsmall, hbits]
    · next hnorm => rw [FloatFmt.deliver, round_normal hmax hnorm, hbits]
  · rw [hf.value_inf hinf, FloatFmt.deliver, ← hinf, hbits]

end FloatFmt

/-! ### The parcels (R139) -/

theorem floatResult_eq (d : XReg) (r : FRes) (s : State) : floatResult d r s = .next (s.withFloat d r) := by
  unfold floatResult State.setX
  rw [Strand.setX_eq]
  rfl

/-- A result named in another way. -/
theorem floatResult_of_eq {d : XReg} {r q : FRes} {s : State} (h : r = q) : floatResult d r s = .next (s.withFloat d q) :=
  h ▸ floatResult_eq d r s

/-! ### The obligations -/

/-- Settles O9: a format with infinities keeps its values, and each scalar format is one. -/
theorem roundingKeepsFormatValues : Obligations.RoundingKeepsFormatValues := by
  unfold Obligations.RoundingKeepsFormatValues
  exact fun k m a => (scalarFmt_ieee k).deliver_value m

/-- Settles O8: each parcel by what a result leaves, the NaN rule and the invalid operations by the values of the operands. -/
theorem scalarFloatResults : Obligations.ScalarFloatResults := by
  unfold Obligations.ScalarFloatResults
  refine ⟨⟨fun o s => ?two, fun o s => ?one, fun o s => ⟨floatResult_of_eq rfl, floatResult_of_eq rfl⟩,
    fun o s => floatResult_of_eq rfl, fun o s => ?three⟩, fun k m a b => ?invalid⟩
  case two =>
    have hcmp (p : Bool) (fl : BitVec 5) : (⟨if p then 1 else 0, fl⟩ : FRes) = ⟨p.toNat, fl⟩ := by cases p <;> rfl
    intro f a b m cmp sign
    have hkeep : (f.neg b != false) = f.neg b := by simp
    have hflip : (f.neg b != true) = !f.neg b := by simp
    exact ⟨floatResult_of_eq rfl, floatResult_of_eq rfl, floatResult_of_eq rfl, floatResult_of_eq rfl,
      floatResult_of_eq rfl, floatResult_of_eq rfl, floatResult_of_eq (hcmp _ _), floatResult_of_eq (hcmp _ _),
      floatResult_of_eq (hcmp _ _), floatResult_of_eq (congrArg sign hkeep), floatResult_of_eq (congrArg sign hflip)⟩
  case one => exact ⟨floatResult_of_eq rfl, floatResult_of_eq rfl⟩
  case three => exact ⟨floatResult_of_eq rfl, floatResult_of_eq rfl, floatResult_of_eq rfl, floatResult_of_eq rfl⟩
  case invalid =>
    have hf := scalarFmt_ieee k
    exact ⟨hf.nan_operand m, fSqrt_nan m, hf.mul_zero_inf m, hf.div_zero_zero m, hf.div_inf_inf m, hf.div_by_zero m⟩

end Sys2Proof.Machine
end

section
/-! The CSR instructions where their checks pass, and where the vector part is not the strand's; and O10, assembled from them. -/

namespace Sys2Proof.Machine

/-! ### The checks of R149 -/

theorem csrCheck_passes {k : Strand} {c : Csr} {writes : Bool} (hw : writes = true → mayWrite k.level c = true)
    (hown : csrVector c = true → k.vowner = k.ctxid) : csrCheck k c writes = none := by
  cases writes with
  | false => simpa [csrCheck] using hown
  | true => simpa [csrCheck, hw rfl] using hown

theorem csrCheck_vowner {k : Strand} {c : Csr} {writes : Bool} (hw : writes = true → mayWrite k.level c = true)
    (hvec : csrVector c = true) (hown : k.vowner ≠ k.ctxid) : csrCheck k c writes = some .vowner := by
  cases writes with
  | false => simp [csrCheck, hvec, hown]
  | true => simp [csrCheck, hw rfl, hvec, hown]

/-! ### The instructions (R148) -/

theorem csrModify_passes {o : CsrRmw} {s : State} (h : csrCheck s.cur o.csr true = none) (f : Word → Word → Word) :
    csrModify o s f = .next
      (((s.csrRead o.csr).2.csrWrite o.csr (f (s.csrRead o.csr).1 (s.getX o.a))).withResult o.d (s.csrRead o.csr).1 4) := by
  unfold csrModify
  rw [h]
  exact State.result_eq _ _ _

theorem execCsrget_passes {o : CsrGet} {s : State} (h : csrCheck s.cur o.csr false = none) :
    execCsrget o s = .next ((s.csrRead o.csr).2.withResult o.d (s.csrRead o.csr).1 4) := by
  unfold execCsrget
  rw [h]
  exact State.result_eq _ _ _

theorem execCsrput_passes {o : CsrPut} {s : State} (h : csrCheck s.cur o.csr true = none) :
    execCsrput o s = .next (s.csrWrite o.csr (s.getX o.a)).next4 := by
  rw [execCsrput, h]

/-- An instruction on a CSR of the vector part that another context owns answers what VOWNER has it answer (R149). -/
theorem exec_csr_vowner {d a : XReg} {c : Csr} {s : State} (hvec : csrVector c = true) (hown : s.cur.vowner ≠ s.cur.ctxid)
    {i : Instr} (hi : i = .csrget { d := d, csr := c } ∨
      (mayWrite s.cur.level c = true ∧ i ∈ [Instr.csrput { csr := c, a := a }, .csrswap { d := d, a := a, csr := c },
        .csrset { d := d, a := a, csr := c }, .csrclr { d := d, a := a, csr := c }])) :
    exec i s = .next s.vownerTrap := by
  obtain rfl | ⟨hw, hi⟩ := hi
  · have hcheck := csrCheck_vowner (writes := false) nofun hvec hown
    show execCsrget _ s = _
    rw [execCsrget, hcheck]
    rfl
  · have hcheck := csrCheck_vowner (writes := true) (fun _ => hw) hvec hown
    have hmodify (f : Word → Word → Word) : csrModify { d := d, a := a, csr := c } s f = .next s.vownerTrap := by
      rw [csrModify, hcheck]
      rfl
    simp only [List.mem_cons, List.not_mem_nil, or_false] at hi
    obtain rfl | rfl | rfl | rfl := hi
    · show execCsrput _ s = _
      rw [execCsrput, hcheck]
      rfl
    · exact hmodify fun _ a => a
    · exact hmodify fun old a => old ||| a
    · exact hmodify fun old a => old &&& ~~~a

/-! ### The obligation -/

/-- Settles O10: the instructions where the checks pass, and the trap or the Landing's switch where VOWNER is what fails. -/
theorem csrInstructionResults : Obligations.CsrInstructionResults := by
  unfold Obligations.CsrInstructionResults
  refine ⟨fun o s hown => execCsrget_passes (csrCheck_passes nofun hown),
    fun o s hw hown => execCsrput_passes (csrCheck_passes (fun _ => hw) hown), fun o s hw hown => ?_,
    fun d a c s hvec hown i hi => ?_⟩
  · have hcheck := csrCheck_passes (writes := true) (fun _ => hw) hown
    exact ⟨csrModify_passes hcheck fun _ a => a, csrModify_passes hcheck fun old a => old ||| a,
      csrModify_passes hcheck fun old a => old &&& ~~~a⟩
  · have htrap := exec_csr_vowner hvec hown hi
    refine ⟨fun hsoft => htrap.trans (congrArg _ (if_neg (not_le.mpr hsoft))), fun htask => ?_⟩
    have hswitch : s.vownerTrap = s.vectorSwitch := if_pos htask
    exact ⟨s.vectorSwitch, htrap.trans (congrArg _ hswitch), rfl, rfl, rfl, rfl, rfl⟩

end Sys2Proof.Machine
end

section
/-! The words of Table 9-6: RoundFixed by its modes, the functions of the model as those of the table, the frame in which the words
run, and O20, assembled from these. -/

namespace Sys2Proof.Machine

/-! ### RoundFixed (R161) -/

/-- With no discarded bit every mode keeps the value. -/
@[simp] theorem roundFixed_zero (mode : Vrm) (v : Int) : roundFixed mode v 0 = v := if_pos rfl

/-- A value as the multiple of 2ᵏ at or below it and the discarded part, and 2ᵏ as twice a half. -/
theorem fixed_parts (v : Int) (k : Nat) :
    v / 2 ^ (k + 1) * 2 ^ (k + 1) + v % 2 ^ (k + 1) = v ∧ 0 ≤ v % 2 ^ (k + 1) ∧ v % 2 ^ (k + 1) < 2 ^ (k + 1) ∧
      (2 : Int) ^ (k + 1) = 2 * 2 ^ k :=
  ⟨Int.ediv_mul_add_emod _ _, Int.emod_nonneg _ (by positivity), Int.emod_lt_of_pos _ (by positivity), by rw [pow_succ, mul_comm]⟩

theorem roundFixed_floor (v : Int) (k : Nat) : roundFixed .floor v k = v / 2 ^ k := by
  cases k with
  | zero => simp
  | succ k => simp [roundFixed]

theorem roundFixed_trunc (v : Int) (k : Nat) : roundFixed .trunc v k = v.tdiv (2 ^ k) := by
  cases k with
  | zero => simp
  | succ k =>
    have hsign : ((2 : Int) ^ (k + 1)).sign = 1 := Int.sign_eq_one_of_pos (by positivity)
    rw [Int.tdiv_eq_ediv, hsign]
    simp only [roundFixed, Nat.succ_ne_zero, if_false, Nat.cast_pow, Nat.cast_ofNat, Int.dvd_iff_emod_eq_zero]
    split_ifs <;> omega

theorem roundFixed_near (v : Int) (k : Nat) :
    2 * (roundFixed .near v k * 2 ^ k - v).natAbs ≤ (2 : Int) ^ k ∧
      (2 * (roundFixed .near v k * 2 ^ k - v).natAbs = (2 : Int) ^ k → v.natAbs < (roundFixed .near v k * 2 ^ k).natAbs) := by
  cases k with
  | zero => simp
  | succ k =>
    obtain ⟨hv, hnonneg, hlt, hhalf⟩ := fixed_parts v k
    simp only [roundFixed, Nat.succ_ne_zero, if_false, Nat.add_sub_cancel, Nat.cast_pow, Nat.cast_ofNat]
    split_ifs with hup
    · rw [add_mul, one_mul]
      omega
    · omega

theorem roundFixed_even (v : Int) (k : Nat) :
    2 * (roundFixed .even v k * 2 ^ k - v).natAbs ≤ (2 : Int) ^ k ∧
      (2 * (roundFixed .even v k * 2 ^ k - v).natAbs = (2 : Int) ^ k → roundFixed .even v k % 2 = 0) := by
  cases k with
  | zero => simp
  | succ k =>
    obtain ⟨hv, hnonneg, hlt, hhalf⟩ := fixed_parts v k
    simp only [roundFixed, Nat.succ_ne_zero, if_false, Nat.add_sub_cancel, Nat.cast_pow, Nat.cast_ofNat]
    split_ifs with hup
    · rw [add_mul, one_mul]
      omega
    · omega

theorem roundFixed_jam (v : Int) (k : Nat) :
    (v % 2 ^ k = 0 → roundFixed .jam v k = v / 2 ^ k) ∧
      (v % 2 ^ k ≠ 0 → roundFixed .jam v k % 2 = 1 ∧
        (roundFixed .jam v k = v / 2 ^ k ∨ roundFixed .jam v k = v / 2 ^ k + 1)) := by
  cases k with
  | zero => simp
  | succ k =>
    simp only [roundFixed, Nat.succ_ne_zero, if_false, Nat.cast_pow, Nat.cast_ofNat]
    split_ifs with hup <;> omega

/-! ### Integers of n bits -/

theorem intRange_eq (n : Nat) (isSigned : Bool) : intRange n isSigned =
    (if isSigned then (-(2 ^ (n - 1) : Nat) : Int) else 0, ((if isSigned then 2 ^ (n - 1) else 2 ^ n : Nat) : Int) - 1) := by
  cases isSigned <;> rfl

theorem intRange_le (n : Nat) (isSigned : Bool) : (intRange n isSigned).1 ≤ (intRange n isSigned).2 := by
  have hfull := Nat.two_pow_pos n
  have hhalf := Nat.two_pow_pos (n - 1)
  rw [intRange_eq]
  cases isSigned <;> simp only [if_true, Bool.false_eq_true, if_false] <;> omega

/-- Clip in terms of the ends of the range (R162). -/
theorem clipped_eq_clipTo (n : Nat) (isSigned : Bool) (v : Int) : clipped n isSigned v = clipTo n isSigned v := by
  have hrange := intRange_le n isSigned
  have hclip : clipTo n isSigned v = (nval n (max (intRange n isSigned).1 (min (intRange n isSigned).2 v)),
      decide (v < (intRange n isSigned).1 ∨ (intRange n isSigned).2 < v)) := by
    rw [intRange_eq]
    rfl
  rw [hclip, clipped, clip, wrapTo_eq_nval]
  generalize intRange n isSigned = range at hrange
  split_ifs with hlo hhi
  · rw [max_eq_left (min_le_of_right_le hlo.le), decide_eq_true (Or.inl hlo)]
  · rw [min_eq_left hhi.le, max_eq_right hrange, decide_eq_true (Or.inr hhi)]
  · rw [min_eq_right (not_lt.mp hhi), max_eq_right (not_lt.mp hlo), decide_eq_false (not_or.mpr ⟨hlo, hhi⟩)]

theorem nval_natCast (n v : Nat) : nval n v = v % 2 ^ n := by
  simp [nval]

theorem nval_sval {n v : Nat} (h : v < 2 ^ n) : nval n (sval n v) = v := by
  rw [nval, sval, BitVec.ofInt_toInt, BitVec.toNat_ofNat, Nat.mod_eq_of_lt h]

/-- A difference modulo 2ⁿ without leaving the natural numbers. -/
theorem nval_sub (n x y : Nat) : nval n ((x : Int) - y) = (x + (2 ^ n - y % 2 ^ n)) % 2 ^ n := by
  have hlt : y % 2 ^ n < 2 ^ n := Nat.mod_lt _ (Nat.two_pow_pos n)
  have hmod : ((x : Int) - y) % (2 ^ n : Nat) = (x + (2 ^ n - y % 2 ^ n) : Nat) % (2 ^ n : Nat) := by
    rw [Int.emod_eq_emod_iff_emod_sub_eq_zero, ← Int.dvd_iff_emod_eq_zero]
    refine ⟨-(y / 2 ^ n : Nat) - 1, ?_⟩
    have hy : ((2 ^ n * (y / 2 ^ n) + y % 2 ^ n : Nat) : Int) = y := by rw [Nat.div_add_mod]
    push_cast [hlt.le] at hy ⊢
    linarith
  rw [← wrapTo_eq_nval, wrapTo, hmod]
  exact congrArg Int.toNat (Int.natCast_mod _ _).symm

theorem ite_lt_eq_nval_min {n x y : Nat} (hx : x < 2 ^ n) (hy : y < 2 ^ n) :
    (if sval n y < sval n x then y else x) = nval n (min (sval n x) (sval n y)) := by
  split_ifs with h
  · rw [min_eq_right h.le, nval_sval hy]
  · rw [min_eq_left (not_lt.mp h), nval_sval hx]

theorem ite_lt_eq_nval_max {n x y : Nat} (hx : x < 2 ^ n) (hy : y < 2 ^ n) :
    (if sval n x < sval n y then y else x) = nval n (max (sval n x) (sval n y)) := by
  split_ifs with h
  · rw [max_eq_right h.le, nval_sval hy]
  · rw [max_eq_left (not_lt.mp h), nval_sval hx]

/-- The operands of the second corner of Divide (R131). -/
theorem sval_corner {n : Nat} (hn : 0 < n) : sval n (2 ^ (n - 1)) = -(2 ^ (n - 1) : Nat) ∧ sval n (2 ^ n - 1) = -1 := by
  obtain ⟨k, rfl⟩ : ∃ k, n = k + 1 := ⟨n - 1, by omega⟩
  have hpow : 2 ^ (k + 1) = 2 * 2 ^ k := pow_succ' 2 k
  have hpos : 0 < 2 ^ k := Nat.two_pow_pos k
  simp only [← signed_eq_sval hn, signed, Nat.add_sub_cancel]
  rw [Nat.mod_eq_of_lt (by omega), Nat.mod_eq_of_lt (by omega)]
  constructor <;> split_ifs <;> omega

/-- The second corner of Divide is the quotient modulo 2ⁿ, with no remainder. -/
theorem divideAtS_eq {n : Nat} (hn : 0 < n) (x y : Nat) : divideAtS n x y =
    (if y = 0 then 2 ^ n - 1 else nval n ((sval n x).tdiv (sval n y)),
      if y = 0 then x else nval n ((sval n x).tmod (sval n y))) := by
  unfold divideAtS
  by_cases hy : y = 0
  · simp [hy]
  rw [if_neg hy, if_neg hy, if_neg hy]
  by_cases hcorner : x = 2 ^ (n - 1) ∧ y = 2 ^ n - 1
  · obtain ⟨rfl, rfl⟩ := hcorner
    obtain ⟨hmin, hminus⟩ := sval_corner hn
    have hlt : 2 ^ (n - 1) < 2 ^ n := Nat.pow_lt_pow_right (by decide) (by omega)
    rw [if_pos ⟨rfl, rfl⟩, hmin, hminus]
    simp only [Int.tdiv_neg, Int.tdiv_one, neg_neg, nval_natCast, Nat.mod_eq_of_lt hlt, Int.tmod_neg, Int.tmod_one]
    rfl
  · rw [if_neg hcorner]
    simp only [signed_eq_sval hn, wrapTo_eq_nval, Int.tmod_def, mul_comm]

/-! ### Operands -/

theorem isWidth_bits (ew : EW) : IsWidth ew.bits := by cases ew <;> simp [IsWidth, EW.bits]

theorem bits_pos (ew : EW) : 0 < ew.bits := by cases ew <;> decide

/-- The element widths at which the wide operands of a function are elements: widening and narrowing ones have ew 0 to 2. -/
def VKind.fits (k : VKind) (ew : EW) : Bool :=
  match k with
  | .wide | .wideAcc | .narrow => ew.narrow
  | .plain | .iter | .acc => true

theorem VKind.isWidth_dw {k : VKind} {ew : EW} (h : k.fits ew = true) : IsWidth (k.dw ew.bits) := by
  cases k with
  | plain | iter | acc | narrow => exact isWidth_bits ew
  | wide | wideAcc =>
    cases ew with
    | e8 | e16 | e32 => simp [IsWidth, VKind.dw, EW.bits]
    | e64 => cases h

theorem VKind.eight_dvd_aw (k : VKind) (ew : EW) : 8 ∣ k.aw ew.bits := by
  have hbits : 8 ∣ ew.bits := by cases ew <;> decide
  cases k with
  | plain | iter | acc | wide | wideAcc => exact hbits
  | narrow => exact hbits.mul_left 2

/-- An element of whole bytes lies in its width. -/
theorem Strand.elem_lt (c : Strand) (r : VReg) {w : Nat} (e : Nat) (hw : 8 ∣ w) : c.elem r w e < 2 ^ w := by
  obtain ⟨k, rfl⟩ := hw
  have hread := Memory.readLE_lt c.vec.v (c.elemBit r.toNat (8 * k) e / 8) k
  rw [Strand.elem, if_neg (by omega), Nat.mul_div_cancel_left k (by decide), pow_mul]
  exact hread

/-! ### The frame of a VINT word (R168, R179) -/

/-- The effect of a VINT word: g of the elements of a, of the second source y and of the old destination. -/
def intEffect (k : VKind) (g : VFun) (n : Nat) (m : MReg) (d a : VReg) (y : State → Nat → Nat) (t : State) : State :=
  (t.intWise d (k.dw n) m fun e => g n t.cur.vec.vrm (t.cur.elem a (k.aw n) e) (y t e) (t.cur.elem d (k.dw n) e)).next8

/-- A word executes in the frame of every word, and its effect is that of a VINT word. -/
def RunsInt (i : Instr) (k : VKind) (g : VFun) (n : Nat) (m : MReg) (d a : VReg) (y : State → Nat → Nat) : Prop :=
  ∀ s, exec i s = vecWord (wordInfo i s.cur) s (intEffect k g n m d a y)

/-- A VINT word that is ready writes F in its elements, where F is its function of their sources. -/
theorem RunsInt.elementWise {i : Instr} {k : VKind} {g : VFun} {n : Nat} {m : MReg} {d a : VReg} {y : State → Nat → Nat}
    {s t : State} (h : RunsInt i k g n m d a y) (hw : IsWidth (k.dw n)) (hr : s.Ready i t) {F : Nat → Nat × Bool}
    (hF : ∀ e, g n t.cur.vec.vrm (t.cur.elem a (k.aw n) e) (y t e) (t.cur.elem d (k.dw n) e) = F e) :
    t.ElementWise (exec i s) d (k.dw n) m (fun e => (F e).1) (fun _ => 0) (fun e => (F e).2) := by
  rw [h s, vecWord_ready hr, intEffect, funext hF]
  exact t.intWise_spec d hw m F

/-! ### The rows of Table 9-6 -/

/-- The words of a row have the operands of a kind and the meaning f at each width of the second source, and those with a wide
destination are well formed at the widths that fit. -/
structure IntRow.RunsAs (r : IntRow) (k : VKind) (f : Nat → VFun) : Prop where
  aw : ∀ n, k.aw n = r.aw * n
  dw : ∀ n, k.dw n = r.dw * n
  vv : ∀ c, r.vv = some c → ∀ o : VV, (c o).wf = k.fits o.ew ∧ RunsInt (c o) k (f o.ew.bits) o.ew.bits o.m o.d o.a
    fun t e => t.cur.elem o.b o.ew.bits e
  vvw : ∀ c, r.vvw = some c → ∀ o : VVW, (c o).wf = k.fits o.ew ∧
    RunsInt (c o) k (f (if o.wide then 2 * o.ew.bits else o.ew.bits)) o.ew.bits o.m o.d o.a
      fun t e => t.cur.elem o.b (if o.wide then 2 * o.ew.bits else o.ew.bits) e
  vs : ∀ c, r.vs = some c → ∀ o : VS, (c o).wf = k.fits o.ew ∧ RunsInt (c o) k (f o.ew.bits) o.ew.bits o.m o.d o.a
    fun t _ => (t.getX o.x).toNat % 2 ^ o.ew.bits
  vi : ∀ c, r.vi = some c → ∀ o : VI, k.dw o.ew.bits = o.ew.bits ∧ RunsInt (c o) k (f o.ew.bits) o.ew.bits o.m o.d o.a
    fun _ _ => wrapTo o.ew.bits o.imm.toInt

/-- The meaning f is the row's function, on sources that lie in their widths; a second source that may be wide need not. -/
def IntRow.Computes (r : IntRow) (k : VKind) (f : Nat → VFun) : Prop :=
  ∀ (n w : Nat) (v : Vrm) (x y d : Nat), 0 < n → 0 < w → x < 2 ^ k.aw n → (r.vvw = none → y < 2 ^ n) →
    f w n v x y d = r.f n w v x y d

/-- In the order of the table: the plain functions, Divide, VMACC, the saturating ones, the widening and the narrowing ones. -/
theorem intRows_runAs : ∀ r ∈ intRows, ∃ k f, r.RunsAs k f ∧ r.Computes k f := by
  unfold intRows
  simp only [List.cons_append, List.nil_append, List.forall_mem_cons]
  refine ⟨⟨.plain, fun _ => vAdd, ?_⟩, ⟨.plain, fun _ => vSub, ?_⟩, ⟨.plain, fun _ => vAnd, ?_⟩, ⟨.plain, fun _ => vOr, ?_⟩,
    ⟨.plain, fun _ => vXor, ?_⟩, ⟨.plain, fun _ => vShl, ?_⟩, ⟨.plain, fun _ => vShr, ?_⟩, ⟨.plain, fun _ => vSha, ?_⟩,
    ⟨.plain, fun _ => vMin, ?_⟩, ⟨.plain, fun _ => vMax, ?_⟩, ⟨.plain, fun _ => vMinn, ?_⟩, ⟨.plain, fun _ => vMaxn, ?_⟩,
    ⟨.plain, fun _ => vMul, ?_⟩, ⟨.plain, fun _ => vMulh, ?_⟩, ⟨.plain, fun _ => vMulhn, ?_⟩, ⟨.iter, fun _ => vDiv, ?_⟩,
    ⟨.iter, fun _ => vDivn, ?_⟩, ⟨.iter, fun _ => vRem, ?_⟩, ⟨.iter, fun _ => vRemn, ?_⟩, ⟨.acc, fun _ => vMacc, ?_⟩,
    ⟨.plain, fun _ => vAdds, ?_⟩, ⟨.plain, fun _ => vSubs, ?_⟩, ⟨.plain, fun _ => vAddsn, ?_⟩, ⟨.plain, fun _ => vSubsn, ?_⟩,
    ⟨.plain, fun _ => vAvg, ?_⟩, ⟨.plain, fun _ => vSmul, ?_⟩, ⟨.plain, fun _ => vSshr, ?_⟩, ⟨.wide, vWadd, ?_⟩,
    ⟨.wide, fun _ => vWaddn, ?_⟩, ⟨.wide, fun _ => vWmul, ?_⟩, ⟨.wide, fun _ => vWmuln, ?_⟩, ⟨.wideAcc, fun _ => vWmacc, ?_⟩,
    ⟨.wideAcc, fun _ => vWmaccn, ?_⟩, ⟨.narrow, fun _ => vNshr, ?_⟩, ⟨.narrow, fun _ => vNclip, ?_⟩,
    ⟨.narrow, fun _ => vNclipn, ?_⟩, nofun⟩
  all_goals
    refine ⟨?runs, fun n w v x y d hn hw hx hy => ?computes⟩
    case runs =>
      constructor
      case aw => intro n; simp [VKind.aw]
      case dw => intro n; simp [VKind.dw]
      all_goals
        intro c h o
        cases h <;> exact ⟨rfl, fun _ => rfl⟩
    case computes =>
      dsimp only [VKind.aw] at hx hy
      simp only [vAdd, vSub, vAnd, vOr, vXor, vShl, vShr, vSha, vMin, vMax, vMinn, vMaxn, vMul, vMulh, vMulhn, vDiv, vDivn, vRem,
        vRemn, vMacc, vAdds, vSubs, vAddsn, vSubsn, vAvg, vSmul, vSshr, vWadd, vWaddn, vWmul, vWmuln, vWmacc, vWmaccn, vNshr,
        vNclip, vNclipn, exactly, divideAtU, apply_ite Prod.fst, apply_ite Prod.snd, clipped_eq_clipTo, wrapTo_eq_nval,
        signed_eq_sval, divideAtS_eq, nval_sub, ← Nat.cast_add, ← Nat.cast_mul, nval_natCast, ite_lt_eq_nval_min,
        ite_lt_eq_nval_max, Nat.succ_pos, Nat.mul_pos, hn, hw, hx, hy]

/-! ### The obligation -/

/-- Settles O20: the words of a row run as its function on the elements, in each form, and RoundFixed by its modes. -/
theorem vectorIntegerResults : Obligations.VectorIntegerResults := by
  unfold Obligations.VectorIntegerResults
  refine ⟨fun r hr s t => ?words, fun v k => ?rounding⟩
  case words =>
    obtain ⟨k, f, hk, hf⟩ := intRows_runAs r hr
    intro z holds
    have hholds {i : Instr} {ew : EW} {w : Nat} {m : MReg} {d a : VReg} {y : State → Nat → Nat}
        (hrun : RunsInt i k (f w) ew.bits m d a y) (hw : 0 < w) (hwidth : i.wf = true → IsWidth (k.dw ew.bits))
        (hy : r.vvw = none → ∀ e, y t e < 2 ^ ew.bits) : holds i ew.bits w m d a (y t) := by
      intro hwf hready
      have hvalue (e : Nat) : f w ew.bits t.cur.vec.vrm (t.cur.elem a (k.aw ew.bits) e) (y t e) (t.cur.elem d (k.dw ew.bits) e) =
          z ew.bits w d a (y t) e := by
        rw [hf _ _ _ _ _ _ (bits_pos ew) hw (t.cur.elem_lt a e (k.eight_dvd_aw ew)) fun h => hy h e, hk.aw, hk.dw]
      have helem := hrun.elementWise (hwidth hwf) hready hvalue
      rwa [hk.dw] at helem
    have hwidth {i : Instr} {ew : EW} (hwf : i.wf = k.fits ew) (h : i.wf = true) : IsWidth (k.dw ew.bits) :=
      VKind.isWidth_dw (hwf.symm.trans h)
    refine ⟨fun c hc o => ?vv, fun c hc o => ?vvw, fun c hc o => ?vs, fun c hc o => ?vi⟩
    case vv =>
      obtain ⟨hwf, hrun⟩ := hk.vv c hc o
      exact hholds hrun (bits_pos _) (hwidth hwf) fun _ e => t.cur.elem_lt o.b e (VKind.plain.eight_dvd_aw o.ew)
    case vvw =>
      obtain ⟨hwf, hrun⟩ := hk.vvw c hc o
      have hpos : 0 < if o.wide then 2 * o.ew.bits else o.ew.bits := by
        have := bits_pos o.ew
        split <;> omega
      exact hholds hrun hpos (hwidth hwf) fun h => nomatch hc.symm.trans h
    case vs =>
      obtain ⟨hwf, hrun⟩ := hk.vs c hc o
      exact hholds hrun (bits_pos _) (hwidth hwf) fun _ _ => Nat.mod_lt _ (Nat.two_pow_pos _)
    case vi =>
      obtain ⟨hsame, hrun⟩ := hk.vi c hc o
      rw [← wrapTo_eq_nval]
      exact hholds hrun (bits_pos _) (fun _ => hsame.symm ▸ isWidth_bits o.ew) fun _ _ => by
        rw [wrapTo_eq_nval]
        exact BitVec.isLt _
  case rounding =>
    intro p
    exact ⟨roundFixed_floor v k, roundFixed_trunc v k, roundFixed_near v k, roundFixed_even v k, roundFixed_jam v k⟩

end Sys2Proof.Machine
end

section
/-! The number formats of VFCVT: where the fields of an encoding stand, the numbers that a format holds and that rounding therefore
keeps, and the bounds of the values of every format of Table 3-6. -/

namespace Sys2Proof.Machine

/-! ### Encodings -/

/-- Where the fields of a format stand: the fraction and every finite magnitude below the sign bit, and among the magnitudes a whole
binade besides the subnormal ones. -/
structure FloatFmt.Laid (f : FloatFmt) : Prop where
  frac_lt : f.frac < f.width
  maxEnc_lt : f.maxEnc < 2 ^ (f.width - 1)
  normal : 2 * 2 ^ f.frac ≤ f.infEnc

theorem fmtKind_laid {d : Fmt} {f : FloatFmt} (h : fmtKind d = .float f) : f.Laid := by
  cases d <;> cases h <;> constructor <;> decide

theorem laid_of_mem {f : FloatFmt} (h : f ∈ [fp64, fp32, fp16, bf16, e4m3, e5m2]) : f.Laid := by
  simp only [List.mem_cons, List.not_mem_nil, or_false] at h
  obtain rfl | rfl | rfl | rfl | rfl | rfl := h
  exacts [fmtKind_laid (d := .fp64) rfl, fmtKind_laid (d := .fp32) rfl, fmtKind_laid (d := .fp16) rfl,
    fmtKind_laid (d := .bf16) rfl, fmtKind_laid (d := .e4m3) rfl, fmtKind_laid (d := .e5m2) rfl]

theorem div_two_pow_mod_two {b w i : Nat} (h : i < w) : b % 2 ^ w / 2 ^ i % 2 = b / 2 ^ i % 2 := by
  have hw : 2 ^ w = 2 ^ i * 2 ^ (w - i) := by rw [← pow_add, Nat.add_sub_cancel' h.le]
  rw [hw, Nat.mod_mul_right_div_self, Nat.mod_mod_of_dvd _ (dvd_pow_self 2 (by omega))]

/-- The value of an encoding is that of its low bits. -/
theorem FloatFmt.Laid.value_mod {f : FloatFmt} (hf : f.Laid) (b : Nat) : f.value (b % 2 ^ f.width) = f.value b := by
  have hfrac := hf.frac_lt
  have hmag : f.mag (b % 2 ^ f.width) = f.mag b := Nat.mod_mod_of_dvd _ (pow_dvd_pow 2 (Nat.sub_le _ _))
  have hlow : b % 2 ^ f.width % 2 ^ f.frac = b % 2 ^ f.frac := Nat.mod_mod_of_dvd _ (pow_dvd_pow 2 hfrac.le)
  have hneg : f.neg (b % 2 ^ f.width) = f.neg b := by rw [FloatFmt.neg, div_two_pow_mod_two (by omega)]; rfl
  have hquiet : f.quiet (b % 2 ^ f.width) = f.quiet b := by rw [FloatFmt.quiet, div_two_pow_mod_two (by omega)]; rfl
  have hnan : f.isNaN (b % 2 ^ f.width) = f.isNaN b := by rw [FloatFmt.isNaN, hmag]; rfl
  unfold FloatFmt.value
  rw [hmag, hlow, hneg, hquiet, hnan]

section Signed

variable {f : FloatFmt} {g : Nat} (neg : Bool)

theorem FloatFmt.mag_signed (h : g < 2 ^ (f.width - 1)) : f.mag (f.signed neg g) = g := by
  cases neg <;> simp [FloatFmt.mag, FloatFmt.signed, Nat.mod_eq_of_lt h]

theorem FloatFmt.neg_signed (h : g < 2 ^ (f.width - 1)) : f.neg (f.signed neg g) = neg := by
  cases neg with
  | false => simp [FloatFmt.neg, FloatFmt.signed, Nat.div_eq_of_lt h]
  | true => simp [FloatFmt.neg, FloatFmt.signed, Nat.add_div_left, Nat.div_eq_of_lt h]

end Signed

/-- A finite encoding: subnormal where its exponent field is zero. -/
theorem FloatFmt.Laid.value_number {f : FloatFmt} (hf : f.Laid) {b : Nat} (h : f.mag b ≤ f.maxEnc) : f.value b =
    if f.mag b / 2 ^ f.frac = 0 then .num (f.neg b) (f.mag b % 2 ^ f.frac) (f.emin - f.frac)
    else .num (f.neg b) (2 ^ f.frac + f.mag b % 2 ^ f.frac) ((f.mag b / 2 ^ f.frac : Nat) - f.bias - f.frac) := by
  have hnan : ¬f.isNaN b = true := by
    unfold FloatFmt.isNaN FloatFmt.infEnc
    split <;> simp <;> omega
  have hinf : ¬(f.hasInf && decide (f.mag b = f.infEnc)) = true := by simp [FloatFmt.infEnc, (Nat.lt_succ_of_le h).ne]
  have hmod : b % 2 ^ f.frac = f.mag b % 2 ^ f.frac :=
    (Nat.mod_mod_of_dvd b (pow_dvd_pow 2 (Nat.le_sub_one_of_lt hf.frac_lt))).symm
  rw [FloatFmt.value, if_neg hnan, if_neg hinf, hmod]
  rfl

/-- The value of the encoding that a mantissa has at an exponent j above the least: subnormal mantissas stand at the least. -/
theorem FloatFmt.Laid.value_encoding {f : FloatFmt} (hf : f.Laid) (neg : Bool) {j m : Nat} (hm : m < 2 ^ (f.frac + 1))
    (hj : j = 0 ∨ 2 ^ f.frac ≤ m) (hmax : j * 2 ^ f.frac + m ≤ f.maxEnc) :
    f.value (f.signed neg (j * 2 ^ f.frac + m)) = .num neg m (f.emin - f.frac + j) := by
  have hlt : j * 2 ^ f.frac + m < 2 ^ (f.width - 1) := hmax.trans_lt hf.maxEnc_lt
  have hpos : 0 < 2 ^ f.frac := Nat.two_pow_pos _
  have hmag := FloatFmt.mag_signed (f := f) neg hlt
  rw [hf.value_number (hmag.trans_le hmax), hmag, FloatFmt.neg_signed neg hlt]
  rw [pow_succ] at hm
  by_cases hsub : m < 2 ^ f.frac
  · obtain rfl : j = 0 := hj.resolve_right (not_le.mpr hsub)
    rw [Nat.zero_mul, Nat.zero_add, Nat.div_eq_of_lt hsub, if_pos rfl, Nat.mod_eq_of_lt hsub]
    simp
  · obtain ⟨r, rfl⟩ : ∃ r, m = 2 ^ f.frac + r := Nat.exists_eq_add_of_le (not_lt.mp hsub)
    have henc : j * 2 ^ f.frac + (2 ^ f.frac + r) = r + (j + 1) * 2 ^ f.frac := by ring
    have hr : r < 2 ^ f.frac := by omega
    rw [henc, Nat.add_mul_div_right _ _ hpos, Nat.div_eq_of_lt hr, Nat.add_mul_mod_self_right, Nat.mod_eq_of_lt hr,
      if_neg (by omega)]
    congr 1
    unfold FloatFmt.emin
    push_cast
    ring

/-! ### Exact rounding (R158, R166) -/

/-- The exponent of the greatest binade all of whose values are finite. -/
def FloatFmt.top (f : FloatFmt) : Int := f.emin + (f.infEnc / 2 ^ f.frac : Nat) - 2

/-- The mantissa and the exponents of a number lie within the format's, so that an encoding holds it. -/
structure FloatFmt.Holds (f : FloatFmt) (m : Nat) (e : Int) : Prop where
  mantissa : m < 2 ^ (f.frac + 1)
  low : f.emin - f.frac ≤ e
  high : floorLog2 m e ≤ f.top

/-- Such a number at the exponent that its rounding keeps, j above the least: its mantissa M there, and its magnitude's encoding. -/
theorem FloatFmt.Holds.kept {f : FloatFmt} (hf : f.Laid) {m : Nat} {e : Int} (hm : m ≠ 0) (h : f.Holds m e) :
    ∃ j M : Nat, max (floorLog2 m e - f.frac) (f.emin - f.frac) = f.emin - f.frac + j ∧ f.emin - f.frac + j ≤ e ∧
      M = m * 2 ^ (e - (f.emin - f.frac + j)).toNat ∧ M < 2 ^ (f.frac + 1) ∧ (j = 0 ∨ 2 ^ f.frac ≤ M) ∧
      j * 2 ^ f.frac + M ≤ f.maxEnc := by
  obtain ⟨hmantissa, hlow, hhigh⟩ := h
  have hlog : m.log2 ≤ f.frac := Nat.lt_succ_iff.mp ((Nat.log2_lt hm).mpr hmantissa)
  have htwo : 2 ≤ f.infEnc / 2 ^ f.frac := (Nat.le_div_iff_mul_le (Nat.two_pow_pos _)).mpr hf.normal
  unfold floorLog2 FloatFmt.top at *
  obtain ⟨j, hj⟩ : ∃ j : Nat, max (m.log2 + e - f.frac) (f.emin - f.frac) = f.emin - f.frac + j :=
    ⟨(max (m.log2 + e - f.frac) (f.emin - f.frac) - (f.emin - f.frac)).toNat, by omega⟩
  obtain ⟨s, hs⟩ : ∃ s, (e - (f.emin - f.frac + j)).toNat = s := ⟨_, rfl⟩
  have hle : m.log2 + s ≤ f.frac := by omega
  have hfull : j = 0 ∨ m.log2 + s = f.frac := by omega
  have hbinade : j + 2 ≤ f.infEnc / 2 ^ f.frac := by omega
  have hlt : m * 2 ^ s < 2 ^ (f.frac + 1) := calc
    m * 2 ^ s < 2 ^ (m.log2 + 1) * 2 ^ s := Nat.mul_lt_mul_of_pos_right Nat.lt_log2_self (Nat.two_pow_pos _)
    _ = 2 ^ (m.log2 + s + 1) := by rw [← pow_add]; congr 1; omega
    _ ≤ 2 ^ (f.frac + 1) := Nat.pow_le_pow_right (by decide) (by omega)
  have hge : 2 ^ (m.log2 + s) ≤ m * 2 ^ s := by
    rw [pow_add]
    exact Nat.mul_le_mul_right _ (Nat.log2_self_le hm)
  refine ⟨j, m * 2 ^ s, hj, by omega, by rw [hs], hlt, hfull.imp_right fun (h : m.log2 + s = f.frac) => h ▸ hge, ?_⟩
  have hscaled : (j + 2) * 2 ^ f.frac ≤ f.infEnc := (Nat.le_div_iff_mul_le (Nat.two_pow_pos _)).mp hbinade
  rw [add_mul] at hscaled
  rw [pow_succ] at hlt
  unfold FloatFmt.infEnc at hscaled
  omega

/-- Such a number rounds in every mode to an encoding of itself, at an exponent k not above its own. -/
theorem FloatFmt.Holds.round {f : FloatFmt} (hf : f.Laid) {m : Nat} {e : Int} (hm : m ≠ 0) (h : f.Holds m e) (neg : Bool) :
    ∃ (b M : Nat) (k : Int), k ≤ e ∧ M = m * 2 ^ (e - k).toNat ∧ f.value b = .num neg M k ∧
      ∀ mode sat, f.round mode sat neg m e = { bits := b, flags := 0 } := by
  obtain ⟨j, M, hkept, hle, hM, hlt, hfull, hmax⟩ := h.kept hf hm
  refine ⟨f.signed neg (j * 2 ^ f.frac + M), M, f.emin - f.frac + j, hle, hM, hf.value_encoding neg hlt hfull hmax,
    fun mode sat => ?_⟩
  have hround : roundAt mode neg m e (f.emin - f.frac + j) = (M, false) := by rw [roundAt, if_pos hle, hM]
  have hexp : (f.emin - f.frac + j - (f.emin - f.frac)).toNat = j := by omega
  unfold FloatFmt.round
  simp only [hkept, hround, hexp]
  rw [if_neg hm, if_neg (not_lt.mpr hmax)]
  simp [flagIf]

/-- Numbers that differ in their exponents alone. -/
theorem FVal.eq_num {n : Bool} {m : Nat} {e k : Int} (h : k ≤ e) :
    (FVal.num n (m * 2 ^ (e - k).toNat) k).eq (.num n m e) = true := by
  simp [FVal.eq, FVal.isNaN, FVal.lt, numLt, scaled, min_eq_left h, min_eq_right h]

theorem FVal.eq_zero (n : Bool) (e k : Int) : (FVal.num n 0 k).eq (.num n 0 e) = true := by
  simp [FVal.eq, FVal.isNaN, FVal.lt, numLt, scaled]

theorem FVal.eq_inf (n : Bool) : (FVal.inf n).eq (.inf n) = true := by
  cases n <;> rfl

theorem FloatFmt.round_zero (f : FloatFmt) (mode : RMode) (sat neg : Bool) (e : Int) :
    f.round mode sat neg 0 e = { bits := f.signed neg 0, flags := 0 } := if_pos rfl

/-- Rounding a number that is zero or that the format holds: the value stays, and no mode makes a difference. -/
theorem FloatFmt.Laid.round_exact {f : FloatFmt} (hf : f.Laid) {m : Nat} {e : Int} (h : m ≠ 0 → f.Holds m e) (neg : Bool) :
    ∃ b, (f.value b).eq (.num neg m e) = true ∧ ∀ mode sat, f.round mode sat neg m e = { bits := b, flags := 0 } := by
  by_cases hm : m = 0
  · subst hm
    have hzero := hf.value_encoding neg (j := 0) (m := 0) (Nat.two_pow_pos _) (Or.inl rfl) (by omega)
    rw [Nat.zero_mul, Nat.zero_add] at hzero
    exact ⟨_, by rw [hzero]; exact FVal.eq_zero _ _ _, fun mode sat => f.round_zero mode sat neg e⟩
  · obtain ⟨b, M, k, hle, rfl, hv, hround⟩ := (h hm).round hf hm neg
    exact ⟨b, by rw [hv]; exact FVal.eq_num hle, hround⟩

/-! ### The values of a format (Table 3-6) -/

/-- Bounds of the finite values m × 2ᵉ of a format: the bits of m, the least e, and the greatest binade. -/
structure Span where
  bits : Nat
  low : Int
  high : Int

/-- The bounds of each kind of format. -/
def FmtKind.span : FmtKind → Span
  | .float f => { bits := f.frac + 1, low := f.emin - f.frac, high := (f.maxEnc / 2 ^ f.frac : Nat) - f.bias }
  | .int n _ => { bits := n, low := 0, high := n - 1 }
  | .e8m0 => { bits := 1, low := -127, high := 127 }

/-- The bounds lie within those of a floating-point format. -/
def FloatFmt.covers (f : FloatFmt) (s : Span) : Bool :=
  decide (s.bits ≤ f.frac + 1 ∧ f.emin - f.frac ≤ s.low ∧ s.high ≤ f.top)

/-- What every format of Table 3-6 meets. -/
def FmtKind.Laid : FmtKind → Prop
  | .float f => f.Laid
  | .int n _ => 0 < n
  | .e8m0 => True

theorem fmtKind_isLaid (d : Fmt) : (fmtKind d).Laid := by
  cases h : fmtKind d with
  | float f => exact fmtKind_laid h
  | int n s => cases d <;> cases h <;> exact Nat.succ_pos _
  | e8m0 => trivial

theorem floorLog2_le {m n : Nat} (e : Int) (hm : m ≠ 0) (h : m < 2 ^ n) : floorLog2 m e ≤ n - 1 + e := by
  have := (Nat.log2_lt hm).mpr h
  unfold floorLog2
  omega

theorem natAbs_signed_lt (n x : Nat) : (Machine.signed n x).natAbs < 2 ^ n := by
  have hmod : x % 2 ^ n < 2 ^ n := Nat.mod_lt _ (Nat.two_pow_pos n)
  have hhalf : 0 < 2 ^ (n - 1) := Nat.two_pow_pos _
  unfold Machine.signed
  split <;> omega

theorem FloatFmt.mag_le_of_num {f : FloatFmt} {b : Nat} {neg : Bool} {m : Nat} {e : Int} (h : f.value b = .num neg m e) :
    f.mag b ≤ f.maxEnc := by
  have hnan : ¬f.isNaN b = true := fun hn => by
    rw [FloatFmt.value_of_isNaN hn] at h
    cases h
  have hinf : ¬(f.hasInf && decide (f.mag b = f.infEnc)) = true := fun hi => by
    rw [FloatFmt.value, if_neg hnan, if_pos hi] at h
    cases h
  unfold FloatFmt.isNaN at hnan
  unfold FloatFmt.infEnc at hnan hinf
  cases hh : f.hasInf <;> simp [hh] at hnan hinf <;> omega

theorem FloatFmt.Laid.value_num {f : FloatFmt} (hf : f.Laid) {b : Nat} {neg : Bool} {m : Nat} {e : Int}
    (h : f.value b = .num neg m e) : m < 2 ^ (f.frac + 1) ∧ f.emin - f.frac ≤ e ∧
      e + f.frac ≤ (f.maxEnc / 2 ^ f.frac : Nat) - f.bias := by
  have hle := FloatFmt.mag_le_of_num h
  have hpos : 0 < 2 ^ f.frac := Nat.two_pow_pos _
  have hexp : f.mag b / 2 ^ f.frac ≤ f.maxEnc / 2 ^ f.frac := Nat.div_le_div_right hle
  have hone : 1 ≤ f.maxEnc / 2 ^ f.frac := by
    have := hf.normal
    unfold FloatFmt.infEnc at this
    exact (Nat.le_div_iff_mul_le hpos).mpr (by omega)
  have hfrac : f.mag b % 2 ^ f.frac < 2 ^ f.frac := Nat.mod_lt _ hpos
  rw [hf.value_number hle] at h
  unfold FloatFmt.emin at *
  rw [pow_succ]
  generalize f.mag b / 2 ^ f.frac = q at *
  generalize f.maxEnc / 2 ^ f.frac = top at *
  split at h <;> cases h <;> omega

theorem FmtKind.Laid.value_num {k : FmtKind} (hk : k.Laid) {b : Nat} {neg : Bool} {m : Nat} {e : Int}
    (h : k.value b = .num neg m e) (hm : m ≠ 0) : m < 2 ^ k.span.bits ∧ k.span.low ≤ e ∧ floorLog2 m e ≤ k.span.high := by
  cases k with
  | float f =>
    obtain ⟨hlt, hlow, hhigh⟩ := FloatFmt.Laid.value_num hk h
    have hlog := floorLog2_le e hm hlt
    refine ⟨hlt, hlow, ?_⟩
    dsimp only [FmtKind.span]
    omega
  | int n s =>
    obtain ⟨v, hv, hlt⟩ : ∃ v : Int, FVal.ofInt v = .num neg m e ∧ v.natAbs < 2 ^ n := by
      refine ⟨_, h, ?_⟩
      cases s with
      | true => exact natAbs_signed_lt n b
      | false => exact Nat.mod_lt _ (Nat.two_pow_pos n)
    cases hv
    have hlog := floorLog2_le 0 hm hlt
    exact ⟨hlt, le_rfl, by simpa [FmtKind.span] using hlog⟩
  | e8m0 =>
    simp only [FmtKind.value, e8m0Value] at h
    split at h <;> cases h
    have hlog := floorLog2_le ((b % 256 : Nat) - 127) hm (n := 1) (by decide)
    dsimp only [FmtKind.span]
    omega

/-- A format that covers another holds its finite values. -/
theorem FmtKind.Laid.holds {f : FloatFmt} {k : FmtKind} (hk : k.Laid) (h : f.covers k.span = true) {b : Nat} {neg : Bool} {m : Nat}
    {e : Int} (hv : k.value b = .num neg m e) (hm : m ≠ 0) : f.Holds m e := by
  obtain ⟨hlt, hlow, hhigh⟩ := hk.value_num hv hm
  obtain ⟨hbits, hlows, hhighs⟩ := of_decide_eq_true h
  exact ⟨hlt.trans_le (Nat.pow_le_pow_right (by decide) hbits), hlows.trans hlow, hhigh.trans hhighs⟩

end Sys2Proof.Machine
end

section
/-! Conversions between formats: the facts of Tables 3-6 and 8-8 that they turn on, and what each kind of destination makes of each
kind of value. -/

namespace Sys2Proof.Machine

/-! ### The formats of Tables 3-6 and 8-8 -/

/-- In a conversion into a floating-point format an infinity stays one whatever saturate holds (R166). -/
def FmtKind.keepsInf (k : FmtKind) (f : FloatFmt) : Bool :=
  match k with
  | .float g => exactPair g f
  | .int _ _ | .e8m0 => false

/-- The kind of a format that has infinities among its values. -/
def FmtKind.hasInf : FmtKind → Bool
  | .float f => f.hasInf
  | .int _ _ | .e8m0 => false

theorem FmtKind.hasInf_of_value {k : FmtKind} {b : Nat} {neg : Bool} (h : k.value b = .inf neg) : k.hasInf = true := by
  cases k with
  | float f =>
    simp only [FmtKind.value, FloatFmt.value] at h
    split_ifs at h with hnan hinf
    exact (Bool.and_eq_true_iff.mp hinf).1
  | int n s => cases h
  | e8m0 =>
    simp only [FmtKind.value, e8m0Value] at h
    split_ifs at h

/-- Each format into each: where an infinity is kept, the finite values are too. -/
theorem covers_of_keepsInf {d s : Fmt} {f : FloatFmt} (hd : fmtKind d = .float f) :
    (fmtKind s).keepsInf f = true → f.covers (fmtKind s).span = true := by
  cases d <;> cases hd <;> cases s <;> decide

/-- The conversions of Table 8-8 from a format with infinities, as destination and source. -/
def infKept : List (Fmt × Fmt) :=
  [(.fp16, .e5m2), (.bf16, .e5m2), (.fp32, .e5m2), (.fp64, .e5m2), (.fp32, .fp16), (.fp64, .fp16), (.fp32, .bf16), (.fp64, .bf16),
    (.fp64, .fp32)]

theorem mem_infKept {d s : Fmt} {f : FloatFmt} (hd : fmtKind d = .float f) :
    (fmtKind s).hasInf = true → (fmtKind s).keepsInf f = true → (d, s) ∈ infKept := by
  cases d <;> cases hd <;> cases s <;> decide

/-- What the exactness of a conversion rests on: the destination covers the source's numbers and keeps its infinities. -/
def exactInto (d s : Fmt) : Bool :=
  match fmtKind d with
  | .float f => f.covers (fmtKind s).span && (!(fmtKind s).hasInf || ((fmtKind s).keepsInf f && f.hasInf))
  | .int _ _ | .e8m0 => false

/-- The conversions of Table 8-8, from e2m1 up to fp32 and int32. -/
theorem exactInto_of_table {d s : Fmt} :
    (s = .e2m1 ∧ d ∈ [Fmt.e4m3, .e5m2]) ∨
      (s ∈ [Fmt.e2m1, .e4m3, .e5m2, .int4, .nat4, .int8, .nat8] ∧ d ∈ [Fmt.fp16, .bf16, .fp32, .fp64]) ∨
      (s ∈ [Fmt.fp16, .bf16, .e8m0, .int16] ∧ d ∈ [Fmt.fp32, .fp64]) ∨ (s ∈ [Fmt.fp32, .int32] ∧ d = .fp64) →
    exactInto d s = true := by
  cases d <;> cases s <;> decide

theorem exactInto_float {d s : Fmt} (h : exactInto d s = true) : ∃ f, fmtKind d = .float f := by
  unfold exactInto at h
  cases hd : fmtKind d with
  | float f => exact ⟨f, rfl⟩
  | int n sg => rw [hd] at h; cases h
  | e8m0 => rw [hd] at h; cases h

/-! ### Into a floating-point format (Table 8-7) -/

/-- A conversion is made from the value of the source, and saturate counts where infinities are not kept. -/
theorem convertFmt_float {k : FmtKind} (hk : k.Laid) (f : FloatFmt) (mode : RMode) (sat : Bool) (b : Nat) :
    convertFmt (.float f) k mode sat b = (toFloat f mode (sat && !k.keepsInf f) (k.value b), false) := by
  cases k with
  | float g =>
    have hmod : (FmtKind.float g).value b = g.value b := FloatFmt.Laid.value_mod hk b
    rw [hmod]
    rfl
  | int n s => rw [FmtKind.keepsInf, Bool.not_false, Bool.and_true]; rfl
  | e8m0 => rw [FmtKind.keepsInf, Bool.not_false, Bool.and_true]; rfl

section IntoFloat

variable {d : Fmt} {f : FloatFmt}

theorem canon_eq_zero_iff (hd : fmtKind d = .float f) : f.canon = 0 ↔ f = e2m1 := by
  cases d <;> cases hd <;> decide

theorem hasInf_iff (hd : fmtKind d = .float f) : f.hasInf = true ↔ f ≠ e2m1 ∧ f ≠ e4m3 := by
  cases d <;> cases hd <;> decide

theorem infEnc_lt (hd : fmtKind d = .float f) : f.hasInf = true → f.infEnc < 2 ^ (f.width - 1) := by
  cases d <;> cases hd <;> decide

/-- An infinity without saturation, in a format that has them. -/
theorem toFloat_inf_keeps (hd : fmtKind d = .float f) (h : f.hasInf = true) (mode : RMode) (neg : Bool) :
    toFloat f mode false (.inf neg) = { bits := f.signed neg f.infEnc, flags := 0 } := by
  have hcanon : f.canon ≠ 0 := mt (canon_eq_zero_iff hd).mp ((hasInf_iff hd).mp h).1
  rw [toFloat, if_neg (by simpa using hcanon), if_pos h]

theorem value_infEnc (hd : fmtKind d = .float f) (h : f.hasInf = true) (neg : Bool) :
    f.value (f.signed neg f.infEnc) = .inf neg := by
  have hlt := infEnc_lt hd h
  rw [FloatFmt.Ieee.value_inf ⟨h, (fmtKind_laid hd).frac_lt⟩ (FloatFmt.mag_signed neg hlt), FloatFmt.neg_signed neg hlt]

theorem convertFmt_nan (hd : fmtKind d = .float f) {s : Fmt} (mode : RMode) (sat : Bool) {x : Nat} {q : Bool}
    (hv : (fmtKind s).value x = .nan q) : (convertFmt (.float f) (fmtKind s) mode sat x).1 =
      if f = e2m1 then { bits := 0, flags := flagNV } else { bits := f.canon, flags := if q then 0 else flagNV } := by
  rw [convertFmt_float (fmtKind_isLaid s), hv, toFloat, if_congr (canon_eq_zero_iff hd) rfl rfl]
  cases q <;> rfl

/-- An infinity as source: the formats without infinities, and the others with saturate and without it. -/
theorem convertFmt_inf (hd : fmtKind d = .float f) {s : Fmt} (mode : RMode) (sat : Bool) {x : Nat} {neg : Bool}
    (hv : (fmtKind s).value x = .inf neg) :
    let r := (convertFmt (.float f) (fmtKind s) mode sat x).1
    (f = e2m1 → r = { bits := f.signed neg 7, flags := flagNV }) ∧
    (f = e4m3 → r = if sat then { bits := f.signed neg 0x7E, flags := flagNV } else { bits := 0x7F, flags := flagNV }) ∧
    (f ≠ e2m1 → f ≠ e4m3 → (d, s) ∉ infKept → sat = true → r = { bits := f.signed neg f.maxEnc, flags := flagNV }) ∧
    (f ≠ e2m1 → f ≠ e4m3 → sat = false → r = { bits := f.signed neg f.infEnc, flags := 0 }) := by
  have hlost (hinf : f.hasInf = false) : (fmtKind s).keepsInf f = false := by
    cases fmtKind s with
    | float g => rw [FmtKind.keepsInf, exactPair, hinf, Bool.and_false]
    | int n sg => rfl
    | e8m0 => rfl
  simp only [convertFmt_float (fmtKind_isLaid s), hv]
  refine ⟨fun h => ?_, fun h => ?_, fun h2 h4 hnot hsat => ?_, fun h2 h4 hsat => ?_⟩
  · subst h
    exact if_pos (Bool.or_true _)
  · subst h
    rw [hlost rfl, Bool.not_false, Bool.and_true]
    cases sat <;> rfl
  · have hkeep : (fmtKind s).keepsInf f = false :=
      Bool.eq_false_of_not_eq_true fun h => hnot (mem_infKept hd (FmtKind.hasInf_of_value hv) h)
    rw [hkeep, hsat]
    rfl
  · rw [hsat, Bool.false_and, toFloat_inf_keeps hd ((hasInf_iff hd).mpr ⟨h2, h4⟩)]

/-- A finite source is rounded once: where infinities are kept, saturate makes no difference to it. -/
theorem convertFmt_num (hd : fmtKind d = .float f) (s : Fmt) (mode : RMode) (sat : Bool) {x : Nat} {neg : Bool} {m : Nat} {e : Int}
    (hv : (fmtKind s).value x = .num neg m e) :
    (convertFmt (.float f) (fmtKind s) mode sat x).1 = f.round mode sat neg m e := by
  have hs := fmtKind_isLaid s
  rw [convertFmt_float hs, hv]
  cases hkeep : (fmtKind s).keepsInf f with
  | false => rw [Bool.not_false, Bool.and_true]; rfl
  | true =>
    obtain ⟨b, -, hround⟩ := (fmtKind_laid hd).round_exact (hs.holds (covers_of_keepsInf hd hkeep) hv) neg
    rw [toFloat, hround, hround]

/-- The conversions of Table 8-8 keep every value that is no NaN (R166). -/
theorem convertFmt_exact (hd : fmtKind d = .float f) {s : Fmt} (h : exactInto d s = true) (mode : RMode) (sat : Bool) {x : Nat}
    (hnan : ((fmtKind s).value x).isNaN = false) :
    let r := (convertFmt (.float f) (fmtKind s) mode sat x).1
    (f.value r.bits).eq ((fmtKind s).value x) = true ∧ r.flags = 0 := by
  have hs := fmtKind_isLaid s
  simp only [exactInto, hd, Bool.and_eq_true, Bool.or_eq_true, Bool.not_eq_true'] at h
  obtain ⟨hcovers, hinf⟩ := h
  simp only [convertFmt_float hs]
  cases hv : (fmtKind s).value x with
  | nan q => rw [hv] at hnan; cases hnan
  | inf neg =>
    obtain ⟨hkeep, hhas⟩ := hinf.resolve_left (by simp [FmtKind.hasInf_of_value hv])
    rw [hkeep, Bool.not_true, Bool.and_false, toFloat_inf_keeps hd hhas, value_infEnc hd hhas]
    exact ⟨FVal.eq_inf neg, rfl⟩
  | num neg m e =>
    obtain ⟨b, heq, hround⟩ := (fmtKind_laid hd).round_exact (hs.holds hcovers hv) neg
    rw [toFloat, hround]
    exact ⟨heq, rfl⟩

end IntoFloat

/-! ### Into E8M0 (R165) -/

theorem convertFmt_e8m0 (k : FmtKind) (mode : RMode) (sat : Bool) (b : Nat) :
    convertFmt .e8m0 k mode sat b = (toE8m0 mode sat (k.value b), false) := by
  cases k <;> rfl

/-- The exponent to which a positive number m × 2ᵉ is rounded into E8M0, where 2ˡ is the leading bit of m and j is l + e (R165). -/
def e8m0Exponent (mode : RMode) (m l : Nat) (j : Int) : Int :=
  match mode with
  | .rtz => j
  | .rdn => j
  | .rup => if m = 2 ^ l then j else j + 1
  | .rne => if 3 * 2 ^ l ≤ 2 * m then j + 1 else j
  | .rmm => if 3 * 2 ^ l ≤ 2 * m then j + 1 else j

/-- A positive number into E8M0 (R165). -/
theorem toE8m0_positive (mode : RMode) (sat : Bool) {m l : Nat} (e : Int) (hl : 2 ^ l ≤ m) (hlt : m < 2 ^ (l + 1)) :
    let r := toE8m0 mode sat (.num false m e)
    let k := e8m0Exponent mode m l (e + l)
    (127 < k → r = { bits := if sat then 0xFE else 0xFF, flags := flagOF ||| flagNX }) ∧
    (k < -127 → r = { bits := 0, flags := flagUF ||| flagNX }) ∧
    (-127 ≤ k → k ≤ 127 → r = { bits := (k + 127).toNat, flags := if m = 2 ^ l then 0 else flagNX }) := by
  intro r k
  have hm : m ≠ 0 := ((Nat.two_pow_pos l).trans_le hl).ne'
  obtain rfl : m.log2 = l := (Nat.log2_eq_iff hm).mpr ⟨hl, hlt⟩
  have hr : r = if 127 < k then { bits := if sat then 0xFE else 0xFF, flags := flagOF ||| flagNX }
      else if k < -127 then { bits := 0, flags := flagUF ||| flagNX }
      else { bits := (k + 127).toNat, flags := if m = 2 ^ m.log2 then 0 else flagNX } := by
    unfold r k
    cases mode <;> simp [toE8m0, e8m0Exponent, hm, floorLog2, flagIf, add_comm]
  exact ⟨fun h => hr.trans (if_pos h), fun h => hr.trans ((if_neg (lt_asymm (h.trans (by decide)))).trans (if_pos h)),
    fun hge hle => hr.trans ((if_neg (not_lt.mpr hle)).trans (if_neg (not_lt.mpr hge)))⟩

/-! ### Into an integer (R144, R163, R164) -/

theorem convertFmt_int_int {k : Nat} (hk : 0 < k) (n : Nat) (sg u sat : Bool) (mode : RMode) (x : Nat) :
    convertFmt (.int n sg) (.int k u) mode sat x =
      let r := intToInt n sg sat (if u then sval k x else (x % 2 ^ k : Nat))
      ({ bits := r.1, flags := 0 }, r.2) := by
  rw [← signed_eq_sval hk]
  rfl

section IntToInt

variable {n : Nat} {sg sat : Bool} {v : Int}

theorem intToInt_wraps (h : ((intRange n sg).1 ≤ v ∧ v ≤ (intRange n sg).2) ∨ sat = false) :
    intToInt n sg sat v = (nval n v, false) := by
  rw [intToInt, ← wrapTo_eq_nval]
  by_cases hin : (intRange n sg).1 ≤ v ∧ v ≤ (intRange n sg).2
  · exact if_pos hin
  · obtain rfl := h.resolve_left hin
    exact if_neg hin

theorem intToInt_below (h : v < (intRange n sg).1) : intToInt n sg true v = (nval n (intRange n sg).1, true) := by
  rw [intToInt, ← wrapTo_eq_nval, if_neg (by omega), if_pos rfl, if_pos h]

theorem intToInt_above (h : (intRange n sg).2 < v) : intToInt n sg true v = (nval n (intRange n sg).2, true) := by
  have := intRange_le n sg
  rw [intToInt, ← wrapTo_eq_nval, if_neg (by omega), if_pos rfl, if_neg (by omega)]

end IntToInt

theorem convertFmt_int_float {f : FloatFmt} (hf : f.Laid) (n : Nat) (sg sat : Bool) (mode : RMode) (x : Nat) :
    (convertFmt (.int n sg) (.float f) mode sat x).1 =
      let r := toIntRange mode (intRange n sg).1 (intRange n sg).2 (f.value x)
      { bits := nval n r.1, flags := r.2 } := by
  have hmod : (FmtKind.float f).value x = f.value x := hf.value_mod x
  simp only [← hmod, ← wrapTo_eq_nval]
  rfl

section ToIntRange

variable {mode : RMode} {lo hi : Int} {neg : Bool} {m : Nat} {e : Int}

theorem toIntRange_below (h : (toInteger mode neg m e).1 < lo) : toIntRange mode lo hi (.num neg m e) = (lo, flagNV) :=
  if_pos h

theorem toIntRange_above (hle : lo ≤ hi) (h : hi < (toInteger mode neg m e).1) :
    toIntRange mode lo hi (.num neg m e) = (hi, flagNV) :=
  (if_neg (by omega)).trans (if_pos h)

theorem toIntRange_within (hlo : lo ≤ (toInteger mode neg m e).1) (hhi : (toInteger mode neg m e).1 ≤ hi) :
    toIntRange mode lo hi (.num neg m e) = ((toInteger mode neg m e).1, flagIf (toInteger mode neg m e).2 flagNX) :=
  (if_neg (not_lt.mpr hlo)).trans (if_neg (not_lt.mpr hhi))

end ToIntRange

/-- Only the clamping of an integer source into an integer format saturates. -/
theorem convertFmt_sat {k l : FmtKind} {mode : RMode} {sat : Bool} {x : Nat} (h : (convertFmt k l mode sat x).2 = true) :
    sat = true ∧ ∃ n sg i u, k = .int n sg ∧ l = .int i u := by
  cases k with
  | float f => cases l <;> cases h
  | e8m0 => cases l <;> cases h
  | int n sg =>
    cases l with
    | float g => cases h
    | e8m0 => cases h
    | int i u =>
      refine ⟨?_, n, sg, i, u, rfl, rfl⟩
      cases sat with
      | true => rfl
      | false =>
        simp only [convertFmt, intToInt_wraps (Or.inr rfl)] at h
        cases h

end Sys2Proof.Machine
end

section
/-! The words of Table 10-3, VFWMA and VFCVT in their frame; and O24, assembled from it and from the conversions. -/

namespace Sys2Proof.Machine

/-! ### The frame of an element-wise floating-point word (R192) -/

theorem isWidth_vectorFmt (k : VFmt) : IsWidth (vectorFmt k).width := by
  cases k <;> simp [IsWidth, vectorFmt, fp64, fp32, fp16, bf16]

/-- The formats of VFWMA widen to an element width (R198). -/
theorem isWidth_two_mul_vectorFmt {k : VFmt} (h : k.small = true) : IsWidth (2 * (vectorFmt k).width) := by
  cases k with
  | fp64 => cases h
  | fp32 | fp16 | bf16 => simp [IsWidth, vectorFmt, fp32, fp16, bf16]

/-- A word executes in the frame of every word, and its effect is element-wise with the results and flags g. -/
def RunsFloat (i : Instr) (w : Nat) (m : MReg) (d : VReg) (g : State → Nat → FRes) : Prop :=
  ∀ s, exec i s = vecWord (wordInfo i s.cur) s fun t => (t.floatWise d w m (g t)).next8

theorem RunsFloat.elementWise {i : Instr} {w : Nat} {m : MReg} {d : VReg} {g : State → Nat → FRes} {s t : State}
    (h : RunsFloat i w m d g) (hw : IsWidth w) (hr : s.Ready i t) :
    t.ElementWise (exec i s) d w m (fun e => (g t e).bits) (fun e => (g t e).flags) (fun _ => false) := by
  rw [h s, vecWord_ready hr]
  exact t.floatWise_spec d hw m (g t)

theorem wideFmt_eq {k : VFmt} (h : k.small = true) : wideFmt k = if k = .fp32 then fp64 else fp32 := by
  cases k with
  | fp64 => cases h
  | fp32 | fp16 | bf16 => rfl

theorem isWidth_container (f : Fmt) : IsWidth (container f) := by
  cases f <;> simp [IsWidth, container]

/-- An element-wise word with flags that may saturate too (R203). -/
theorem State.floatWise_convSat_spec (t : State) (d : VReg) {w : Nat} (hw : IsWidth w) (m : MReg) (f : Nat → FRes)
    (sat : Nat → Bool) :
    t.ElementWise (.next ((t.floatWise d w m f).convSat
      (decide (t.cur.vec.vstart < t.cur.vec.vl) && (t.cur.actives m).any sat)).next8) d w m
        (fun e => (f e).bits) (fun e => (f e).flags) sat := by
  have h := t.elementWise_flags d hw m (fun e => (f e).bits) (fun e => (f e).flags) sat
  rw [List.foldl_map] at h
  unfold State.floatWise
  simp only [List.map_map, List.foldl_map]
  by_cases hvl : t.cur.vec.vl ≤ t.cur.vec.vstart
  · rw [if_pos hvl] at h ⊢
    rwa [decide_eq_false (not_lt.mpr hvl), Bool.false_and, State.convSat_false]
  · rw [if_neg hvl] at h ⊢
    rwa [decide_eq_true (not_le.mp hvl), Bool.true_and]

/-! ### The obligation -/

/-- Settles O24: the words of Table 10-3, VFWMA and VFCVT run element-wise, and VFCVT's results by the kinds of its formats. -/
theorem vectorFloatResults : Obligations.VectorFloatResults := by
  unfold Obligations.VectorFloatResults
  refine ⟨fun s t => ?words, fun o s t _ hr => ?vfcvt, fun f n sg sat mode x hf _ => ?toInt, fun d s sat mode x => ?formats⟩
  case words =>
    intro md elems low at_ plain sign two three one wide wma
    have helems {i : Instr} {w : Nat} {m : MReg} {d : VReg} {g : State → Nat → FRes} {F : Nat → FRes} (h : RunsFloat i w m d g)
        (hF : ∀ e, g t e = F e) (hw : i.wf = true → IsWidth w) : elems i w m d F := by
      intro hwf hr
      rw [← funext hF]
      exact h.elementWise (hw hwf) hr
    have hfmt (k : VFmt) {p : Prop} (_ : p) : IsWidth (vectorFmt k).width := isWidth_vectorFmt k
    refine ⟨?two, ?three, ?one, fun o hwf => ?wmaVV, fun o hwf => ?wmaVS⟩
    case two =>
      have hkeep (f : FloatFmt) (x y : Nat) : flagless (fSign f false x y) = sign f (f.neg y) x := by
        simp [fSign, sign, plain, flagless]
      have hflip (f : FloatFmt) (x y : Nat) : flagless (fSign f true x y) = sign f (!f.neg y) x := by
        simp [fSign, sign, plain, flagless]
      simp only [two, List.forall_mem_cons]
      refine ⟨?_, ?_, ?_, ?_, ?_, ?_, ?sgn, ?sgnn, nofun⟩
      case sgn =>
        exact ⟨fun o => helems (fun _ => rfl) (fun _ => hkeep _ _ _) (hfmt _),
          fun o => helems (fun _ => rfl) (fun _ => hkeep _ _ _) (hfmt _)⟩
      case sgnn =>
        exact ⟨fun o => helems (fun _ => rfl) (fun _ => hflip _ _ _) (hfmt _),
          fun o => helems (fun _ => rfl) (fun _ => hflip _ _ _) (hfmt _)⟩
      all_goals
        exact ⟨fun o => helems (fun _ => rfl) (fun _ => rfl) (hfmt _), fun o => helems (fun _ => rfl) (fun _ => rfl) (hfmt _)⟩
    case three =>
      simp only [three, List.forall_mem_cons]
      refine ⟨?_, ?_, ?_, nofun⟩
      all_goals
        exact ⟨fun o => helems (fun _ => rfl) (fun _ => rfl) (hfmt _), fun o => helems (fun _ => rfl) (fun _ => rfl) (hfmt _)⟩
    case one =>
      simp only [one, List.forall_mem_cons]
      refine ⟨?_, ?_, ?_, ?_, ?_, nofun⟩
      all_goals exact fun o => helems (fun _ => rfl) (fun _ => rfl) (hfmt _)
    case wmaVV => exact helems (fun _ => rfl) (fun _ => by rw [wideFmt_eq hwf]; rfl) isWidth_two_mul_vectorFmt hwf
    case wmaVS => exact helems (fun _ => rfl) (fun _ => by rw [wideFmt_eq hwf]; rfl) isWidth_two_mul_vectorFmt hwf
  case vfcvt =>
    intro mode g
    have hexec : exec (.vfcvt o) s = vecWord (wordInfo (.vfcvt o) s.cur) s _ := rfl
    rw [hexec, vecWord_ready hr]
    exact t.floatWise_convSat_spec o.d (isWidth_container o.dst) o.m (fun e => (g e).1) fun e => (g e).2
  case toInt =>
    intro lo hi r
    have hrange : intRange n sg = (lo, hi) := intRange_eq n sg
    have hle : lo ≤ hi := by simpa only [hrange] using intRange_le n sg
    have hr {y : FVal} {p : Int × BitVec 5} (hy : f.value x = y) (hp : toIntRange mode lo hi y = p) :
        r = { bits := nval n p.1, flags := p.2 } := by
      rw [← hp, ← hy]
      simpa only [hrange] using convertFmt_int_float (laid_of_mem hf) n sg sat mode x
    cases hv : f.value x with
    | nan q => exact hr hv rfl
    | inf k => exact hr hv rfl
    | num k m e =>
      refine ⟨fun h => hr hv (toIntRange_below h), fun h => hr hv (toIntRange_above hle h), fun hlo hhi => ?_⟩
      rw [hr hv (toIntRange_within hlo hhi)]
      refine ⟨rfl, ?_⟩
      cases (toInteger mode k m e).2
      · exact Or.inl rfl
      · exact Or.inr rfl
  case formats =>
    intro r src
    have hr {k : FmtKind} (hd : fmtKind d = k) : r = convertFmt k (fmtKind s) mode sat x := hd ▸ rfl
    refine ⟨convertFmt_sat, fun n sg k u hd hs => ?ints, fun f hd => ?floats, fun h hnan => ?exact, fun hd => ?e8m0⟩
    case ints =>
      intro lo hi v
      have hk : 0 < k := (hs ▸ fmtKind_isLaid s : (FmtKind.int k u).Laid)
      have hrange : intRange n sg = (lo, hi) := intRange_eq n sg
      rw [hr hd, hs, convertFmt_int_int hk]
      refine ⟨fun h => ?_, fun h hsat => ?_, fun h hsat => ?_⟩
      · rw [intToInt_wraps (by rwa [hrange])]
      · rw [hsat, intToInt_below (by rwa [hrange]), hrange]
      · rw [hsat, intToInt_above (by rwa [hrange]), hrange]
    case floats =>
      intro signed
      rw [hr hd]
      cases hv : src with
      | nan q => exact convertFmt_nan hd mode sat hv
      | inf neg => exact convertFmt_inf hd mode sat hv
      | num neg m e => exact convertFmt_num hd s mode sat hv
    case exact =>
      have hexact := exactInto_of_table h
      obtain ⟨f, hd⟩ := exactInto_float hexact
      have hvalue (b : Nat) : (fmtKind d).value b = f.value b := hd ▸ (fmtKind_laid hd).value_mod b
      rw [hr hd, hvalue]
      exact convertFmt_exact hd hexact mode sat hnan
    case e8m0 =>
      have hconv : r.1 = toE8m0 mode sat src := by rw [hr hd, convertFmt_e8m0]
      rw [hconv]
      cases src with
      | nan q => rfl
      | inf neg => cases neg <;> rfl
      | num neg m e =>
        refine ⟨fun h => if_pos (by simpa using h), fun l hneg hl hlt => ?_⟩
        subst hneg
        exact toE8m0_positive mode sat e hl hlt

end Sys2Proof.Machine
end

section
/-! The moves and comparisons of VINT and VFP: VMERGE and VMV write vector elements, VCMP and VFCMP mask bits; and O21, assembled
from their frames. -/

namespace Sys2Proof.Machine

/-! ### VMERGE and VMV (R179, R181) -/

/-- VMERGE writes every element from vstart on, whatever its mask bit: none is masked off. -/
theorem State.merge_spec (t : State) (d : VReg) {w : Nat} (hw : IsWidth w) (m : MReg) (x y : Nat → Nat) :
    (t.cur.vec.vl ≤ t.cur.vec.vstart → t.OnlyVstart (.next (t.merge d w m x y).next8)) ∧
      (t.cur.vec.vstart < t.cur.vec.vl → t.WritesVector (.next (t.merge d w m x y).next8) d w t.cur.fromVstart []
        (fun e => if t.cur.maskBit m e then y e else x e) 0 false) := by
  unfold State.merge
  refine ⟨fun h => ?_, fun h => ?_⟩
  · rw [if_pos h]
    rfl
  · rw [if_neg (not_le.mpr h)]
    have hwrite := t.writeVec_writesVector d hw t.cur.fromVstart [] (fun e => if t.cur.maskBit m e then y e else x e) 0 false
      (fun _ he => (List.mem_filter.1 he).1) (fun _ he => nomatch he) fun _ _ _ he => nomatch he
    rwa [State.convFlags_zero, State.convSat_false] at hwrite

/-! ### VCMP and VFCMP (R182, R201) -/

/-- A word executes in the frame of every word, and its effect is element-wise on a mask. -/
def RunsMask (i : Instr) (m d : MReg) (f : State → Nat → Bool) : Prop :=
  ∀ s, exec i s = vecWord (wordInfo i s.cur) s fun t => (t.elementWiseMask d m (f t)).next8

theorem RunsMask.elementWise {i : Instr} {m d : MReg} {f : State → Nat → Bool} {s t : State} (h : RunsMask i m d f) (h0 : d ≠ 0)
    (hr : s.Ready i t) {F : Nat → Bool} (hF : ∀ e, f t e = F e) : t.ElementWiseMask (exec i s) d m F (fun _ => 0) := by
  rw [h s, vecWord_ready hr, funext hF]
  exact t.elementWiseMask_spec d m h0 F

/-- An element-wise word on a mask with flags. -/
theorem State.floatMask_spec (t : State) (d m : MReg) (h0 : d ≠ 0) (f : Nat → Bool × BitVec 5) :
    t.ElementWiseMask (.next (t.floatMask d m f).next8) d m (fun e => (f e).1) (fun e => (f e).2) := by
  unfold State.floatMask
  refine ⟨fun h => ?_, fun h => ?_⟩
  · rw [if_pos h]
    rfl
  · rw [if_neg (not_le.mpr h), List.foldl_map]
    exact t.writeMask_writesMask d h0 _ _ (fun e => (f e).1) _ (t.cur.actives_body m) (t.cur.maskedOff_body m)
      (t.cur.actives_maskedOff m)

/-! ### The obligation -/

/-- Settles O21: VMERGE and VMV in their frames, and the comparisons as element-wise words on a mask. -/
theorem moveAndCompareResults : Obligations.MoveAndCompareResults := by
  unfold Obligations.MoveAndCompareResults
  refine ⟨fun s t => ?moves, fun s t => ?compares⟩
  case moves =>
    intro merges moves
    have hmerge {i : Instr} {ew : EW} {m : MReg} {d a : VReg} {y : State → Nat → Nat}
        (hexec : exec i s = vecWord (wordInfo i s.cur) s fun t =>
          (t.merge d ew.bits m (fun e => t.cur.elem a ew.bits e) (y t)).next8) : merges i ew.bits m d a (y t) := by
      intro hr
      rw [hexec, vecWord_ready hr]
      exact t.merge_spec d (isWidth_bits ew) m _ _
    have hmove {i : Instr} {ew : EW} {m : MReg} {d : VReg} {y : State → Nat → Nat}
        (hexec : exec i s = vecWord (wordInfo i s.cur) s fun t => (t.elementWise d ew.bits m (y t)).next8) :
        moves i ew.bits m d (y t) := by
      intro hr
      rw [hexec, vecWord_ready hr]
      exact t.elementWise_spec d (isWidth_bits ew) m _
    simp only [← wrapTo_eq_nval]
    exact ⟨fun o => hmerge (y := fun t e => t.cur.elem o.b o.ew.bits e) rfl,
      fun o => hmerge (y := fun t _ => (t.getX o.x).toNat % 2 ^ o.ew.bits) rfl,
      fun o => hmerge (y := fun _ _ => wrapTo o.ew.bits o.imm.toInt) rfl,
      fun o => hmove (y := fun t e => t.cur.elem o.a o.ew.bits e) rfl,
      fun o => hmove (y := fun t _ => (t.getX o.x).toNat % 2 ^ o.ew.bits) rfl,
      fun o => hmove (y := fun _ _ => wrapTo o.ew.bits o.imm.toInt) rfl⟩
  case compares =>
    intro holdsAt ints floats
    have hcond (c : Cond) {n : Nat} (hn : 0 < n) (x y : Nat) : condHolds c n x y = holdsAt c n x y := by
      simp only [condHolds, signed_eq_sval hn]
      cases c <;> rfl
    have hint {i : Instr} {c : Cond} {ew : EW} {m d : MReg} {a : VReg} {y : State → Nat → Nat} (hd : i.wf = true → d ≠ 0)
        (hrun : RunsMask i m d fun t e => condHolds c ew.bits (t.cur.elem a ew.bits e) (y t e)) :
        ints i c ew.bits m d a (y t) :=
      fun hwf hr => hrun.elementWise (hd hwf) hr fun _ => hcond c (bits_pos ew) _ _
    have hfloat {i : Instr} {k : VFmt} {c : FCond} {m d : MReg} {a : VReg} {y : State → Nat → Nat} (hd : i.wf = true → d ≠ 0)
        (hexec : exec i s = vecWord (wordInfo i s.cur) s fun t =>
          (t.floatMask d m fun e => fCmp (vectorFmt k) c (t.cur.elem a (vectorFmt k).width e) (y t e)).next8) :
        floats i k c m d a (y t) := by
      intro hwf hr
      rw [hexec, vecWord_ready hr]
      exact t.floatMask_spec d m (hd hwf) _
    have hdst {d : MReg} {b : Bool} (h : (d != 0 && b) = true) : d ≠ 0 := bne_iff_ne.1 (Bool.and_eq_true_iff.1 h).1
    simp only [← wrapTo_eq_nval]
    exact ⟨fun o => hint (i := .vcmpVV o) (y := fun t e => t.cur.elem o.b o.ew.bits e) bne_iff_ne.1 fun _ => rfl,
      fun o => hint (i := .vcmpVS o) (y := fun t _ => (t.getX o.x).toNat % 2 ^ o.ew.bits) bne_iff_ne.1 fun _ => rfl,
      fun o => hint (i := .vcmpVI o) (y := fun _ _ => wrapTo o.ew.bits o.imm.toInt) hdst fun _ => rfl,
      fun o => hfloat (i := .vfcmpVV o) (y := fun t e => t.cur.elem o.b (vectorFmt o.fmt).width e) bne_iff_ne.1 rfl,
      fun o => hfloat (i := .vfcmpVS o) (y := fun t _ => floatScalar (vectorFmt o.fmt) t o.x) bne_iff_ne.1 rfl⟩

end Sys2Proof.Machine
end

section
/-! The mask words and those that count mask bits, each in its frame; and O22, assembled from them. -/

namespace Sys2Proof.Machine

/-! ### Results modulo 2ⁿ -/

/-- What a vector destination holds depends on the results modulo 2ʷ alone. -/
theorem Strand.VecWritten.congr {c : Strand} {v : SMap Byte} {d : VReg} {w : Nat} {act off : List Nat} {f g : Nat → Nat}
    (h : c.VecWritten v d w act off f) (hfg : ∀ e, f e % 2 ^ w = g e % 2 ^ w) : c.VecWritten v d w act off g := by
  intro h64
  obtain ⟨hact, hrest⟩ := h h64
  exact ⟨fun e he => (hact e he).trans (hfg e), hrest⟩

theorem State.AcrossElements.congr {t : State} {out : Out} {d : VReg} {w : Nat} {m : MReg} {f g : Nat → Nat}
    (h : t.AcrossElements out d w m f) (hfg : ∀ e, f e % 2 ^ w = g e % 2 ^ w) : t.AcrossElements out d w m g := by
  obtain ⟨hnone, hsome⟩ := h
  refine ⟨hnone, fun hvl => ?_⟩
  obtain ⟨v, p, hout, hv, hp⟩ := hsome hvl
  exact ⟨v, p, hout, hv.congr hfg, hp⟩

/-! ### Words that read across elements (R168) -/

/-- A word executes in the frame of every word, and its effect reads across elements. -/
def RunsAcross (i : Instr) (w : Nat) (m : MReg) (d : VReg) (f : State → Nat → Nat) : Prop :=
  ∀ s, exec i s = vecWord (wordInfo i s.cur) s fun t => (t.acrossElements d w m (f t)).next8

theorem RunsAcross.acrossElements {i : Instr} {w : Nat} {m : MReg} {d : VReg} {f : State → Nat → Nat} {s t : State}
    (h : RunsAcross i w m d f) (hw : IsWidth w) (hr : s.Ready i t) {F : Nat → Nat} (hF : ∀ e, f t e % 2 ^ w = F e % 2 ^ w) :
    t.AcrossElements (exec i s) d w m F := by
  rw [h s, vecWord_ready hr]
  exact (t.acrossElements_spec d hw m (f t)).congr hF

/-- A word executes in the frame of every word, and its effect on a mask reads across elements. -/
def RunsAcrossMask (i : Instr) (m d : MReg) (f : State → Nat → Bool) : Prop :=
  ∀ s, exec i s = vecWord (wordInfo i s.cur) s fun t => (t.acrossMask d m (f t)).next8

theorem RunsAcrossMask.acrossMask {i : Instr} {m d : MReg} {f : State → Nat → Bool} {s t : State} (h : RunsAcrossMask i m d f)
    (h0 : d ≠ 0) (hr : s.Ready i t) {F : Nat → Bool} (hF : ∀ e, f t e = F e) : t.AcrossMask (exec i s) d m F := by
  rw [h s, vecWord_ready hr, funext hF]
  exact t.acrossMask_spec d m h0 F

/-! ### Words that write a scalar register -/

/-- A word executes in the frame of every word, and its effect is vstart 0 and one scalar register (R168). -/
def RunsToX (i : Instr) (d : XReg) (f : State → Word) : Prop :=
  ∀ s, exec i s = vecWord (wordInfo i s.cur) s fun t => (t.vstart0.setX d (f t)).next8

theorem RunsToX.result {i : Instr} {d : XReg} {f : State → Word} {s t : State} (h : RunsToX i d f) (hr : s.Ready i t) {v : Word}
    (hv : f t = v) : exec i s =
      .next (({ t with cur := { t.cur with vec := { t.cur.vec with vstart := 0 } } } : State).withResult d v 8) := by
  rw [h s, vecWord_ready hr, hv]
  exact congrArg Host.Outcome.next (State.setX_next8 t.vstart0 d v)

/-! ### The active elements whose source bit is set (R184) -/

theorem State.setActives_eq (t : State) (m a : MReg) :
    t.setActives m a = (t.cur.activesFrom0 m).filter fun e => t.cur.maskBit a e := rfl

/-- The lowest of them, or all ones. -/
def lowestOf (l : List Nat) : Word :=
  match l.head? with
  | some e => BitVec.ofNat 64 e
  | none => 0xFFFFFFFFFFFFFFFF#64

/-! ### The obligation -/

/-- Settles O22: the mask words as element-wise words and as words that read across elements, and the words that count bits. -/
theorem maskWordResults : Obligations.MaskWordResults := by
  unfold Obligations.MaskWordResults
  refine ⟨fun s t => ?masks, fun s t => ?counts⟩
  case masks =>
    intro bit on
    refine ⟨fun o => ?two, fun o hd => ?one, fun o hd hr => ?mmovf⟩
    case two =>
      have htwo {i : Instr} {f g : Bool → Bool → Bool} (hd : i.wf = (o.d != 0))
          (hrun : RunsMask i o.m o.d fun t e => f (t.bitOf o.a e) (t.bitOf o.b e)) (hfg : ∀ a b, f a b = g a b) :
          i.WellFormed → s.Ready i t →
            t.ElementWiseMask (exec i s) o.d o.m (fun e => g (bit o.a e) (bit o.b e)) fun _ => 0 :=
        fun hwf hr => hrun.elementWise (bne_iff_ne.1 (hd.symm.trans hwf)) hr fun _ => hfg _ _
      simp only [List.forall_mem_cons]
      exact ⟨htwo rfl (f := fun a b => a && b) (fun _ => rfl) fun _ _ => rfl,
        htwo rfl (f := fun a b => a || b) (fun _ => rfl) fun _ _ => rfl,
        htwo rfl (f := fun a b => a != b) (fun _ => rfl) (by decide),
        htwo rfl (f := fun a b => a && !b) (fun _ => rfl) fun _ _ => rfl, List.forall_mem_nil _⟩
    case one =>
      have hd : o.d ≠ 0 := bne_iff_ne.1 hd
      refine ⟨fun hr => ?not, fun hr => ?after, fun hr => ?from_⟩
      case not => exact RunsMask.elementWise (fun _ => rfl) hd hr fun _ => rfl
      case after =>
        refine RunsAcrossMask.acrossMask (f := fun t e => (t.setActives o.m o.a).any fun j => decide (j < e)) (fun _ => rfl) hd hr
          fun e => ?_
        simp only [List.any_eq, decide_eq_true_eq, State.setActives_eq]
        rfl
      case from_ =>
        refine RunsAcrossMask.acrossMask (f := fun t e => (t.setActives o.m o.a).any fun j => decide (j ≤ e)) (fun _ => rfl) hd hr
          fun e => ?_
        simp only [List.any_eq, decide_eq_true_eq, State.setActives_eq]
        rfl
    case mmovf => exact RunsAcrossMask.acrossMask (fun _ => rfl) (bne_iff_ne.1 hd) hr fun _ => rfl
  case counts =>
    intro on toX
    refine ⟨fun o => ⟨fun hr => ?mcnt, fun hr => ?mlow⟩, fun o hr => ?mcum, fun o hr => ?vseq, fun o hr => ?vconfl⟩
    case mcnt => exact RunsToX.result (f := fun t => BitVec.ofNat 64 (t.setActives o.m o.a).length) (fun _ => rfl) hr rfl
    case mlow =>
      refine RunsToX.result (f := fun t => lowestOf (t.setActives o.m o.a)) (fun _ => rfl) hr ?_
      rw [State.setActives_eq]
      show lowestOf (on o.m o.a) = _
      cases on o.m o.a <;> rfl
    case mcum => exact RunsAcross.acrossElements (fun _ => rfl) (isWidth_bits o.ew) hr fun _ => Nat.mod_mod _ _
    case vseq => exact RunsAcross.acrossElements (fun _ => rfl) (isWidth_bits o.ew) hr fun _ => Nat.mod_mod _ _
    case vconfl =>
      refine RunsAcross.acrossElements (fun _ => rfl) (isWidth_bits o.ew) hr fun e => ?_
      simp only [Bool.decide_and, Nat.min_comm]

end Sys2Proof.Machine
end

section
/-! The permutes: slides, VPERMV, VCOMPRESS, element moves and VBCAST; and O23, assembled from them. -/

namespace Sys2Proof.Machine

/-! ### VSLIDEUP (R188) -/

/-- A word that reads across elements and writes some of the active ones. -/
theorem State.writeAcross_spec (t : State) (d : VReg) {w : Nat} (hw : IsWidth w) (m : MReg) (p : Nat → Bool) (f : Nat → Nat) :
    t.WritesVector (.next (t.writeVec d w (((t.cur.activesFrom0 m).filter p).map fun e => (e, f e)) (t.cur.maskedOff0 m)).next8)
      d w ((t.cur.activesFrom0 m).filter p) (t.cur.maskedOff0 m) f 0 false := by
  have hwrite := t.writeVec_writesVector d hw ((t.cur.activesFrom0 m).filter p) (t.cur.maskedOff0 m) f 0 false
    (fun e he => (List.mem_filter.1 (List.mem_filter.1 he).1).1) (fun e he => (List.mem_filter.1 he).1) fun _ e he hoff => by
      have hon := (List.mem_filter.1 (List.mem_filter.1 he).1).2
      have hmasked := (List.mem_filter.1 hoff).2
      simp [hon] at hmasked
  rwa [State.convFlags_zero, State.convSat_false] at hwrite

/-! ### Results packed from element 0 on (R188) -/

/-- A strip is a list of elements from its start on. -/
theorem Strand.fillStrip_eq_putAll (c : Strand) (r : VReg) (w : Nat) (g : Nat → Nat) (l : List Nat) (i : Nat) (v : SMap Byte) :
    c.fillStrip v r w i (l.map g) = c.putAll v r w ((List.range l.length).map fun j => (i + j, g (l.getD j 0))) := by
  induction l generalizing i v with
  | nil => rfl
  | cons x l ih =>
    simp only [List.length_cons, List.range_succ_eq_map, List.map_cons, List.map_map]
    show c.fillStrip (c.putElem v r w i (g x)) r w (i + 1) (l.map g) = c.putAll (c.putElem v r w i (g x)) r w _
    rw [ih]
    congr 2
    funext j
    show (i + 1 + j, g (l.getD j 0)) = (i + (j + 1), g (l.getD j 0))
    rw [Nat.add_assoc, Nat.add_comm 1 j]

/-- Elements 0 to k − 1 lie below k in either mode. -/
theorem Strand.mem_body_of_lt {c : Strand} {k e : Nat} (hk : k ≤ c.body.length) (he : e < k) :
    e ∈ ({ c with vec := { c.vec with vl := k } } : Strand).body := by
  unfold Strand.body at hk ⊢
  dsimp only
  split at hk
  · next hm =>
    have hlen := hk.trans (List.length_filter_le _ _)
    rw [List.length_range] at hlen
    rw [if_pos hm, List.mem_filter, List.mem_range, decide_eq_true_eq]
    have hmod := Nat.mod_le e 128
    show e < 128 * c.lanes ∧ e % 128 < k
    omega
  · next hm =>
    rw [if_neg hm]
    exact List.mem_range.2 he

/-- vl does not say where an element stands. -/
theorem Strand.putAll_vl (c : Strand) (n : Nat) (r : VReg) (w : Nat) (l : List (Nat × Nat)) (v : SMap Byte) :
    ({ c with vec := { c.vec with vl := n } } : Strand).putAll v r w l = c.putAll v r w l := by
  induction l generalizing v with
  | nil => rfl
  | cons x l ih => exact ih _

/-- With no element masked off only the results and the tail are written. -/
theorem Strand.written_nil (c : Strand) (d : VReg) (w : Nat) (res : List (Nat × Nat)) : c.written d w res [] =
    if c.vec.tp then c.zeroTail (c.putAll c.vec.v d w res) d w (c.groupSize w) else c.putAll c.vec.v d w res := by
  unfold Strand.written
  simp only [List.map_nil, Strand.putAll, ite_self]

/-- A strip written from element 0 on, with the tail behind it, as VecWritten says of a strand whose vl is its length. -/
theorem Strand.fillStrip_vecWritten (c : Strand) (d : VReg) {w : Nat} (hw : IsWidth w) (g : Nat → Nat) {l : List Nat}
    (hl : l.length ≤ c.body.length) :
    let k : Strand := { c with vec := { c.vec with vl := l.length } }
    let v := c.fillStrip c.vec.v d w 0 (l.map g)
    k.VecWritten (if c.vec.tp then k.zeroTail v d w (c.groupSize w) else v) d w (List.range l.length) []
      fun j => g (l.getD j 0) := by
  intro k v
  have hwritten := k.written_vecWritten d hw (List.range l.length) [] (fun j => g (l.getD j 0))
    (fun e he => Strand.mem_body_of_lt hl (List.mem_range.1 he)) (fun _ he => nomatch he) fun _ _ _ he => nomatch he
  have hv : v = k.putAll c.vec.v d w ((List.range l.length).map fun e => (e, g (l.getD e 0))) := by
    rw [Strand.putAll_vl]
    simpa only [Nat.zero_add] using c.fillStrip_eq_putAll d w g l 0 c.vec.v
  rw [hv]
  rwa [k.written_nil] at hwritten

/-- VCOMPRESS as the words that write only a front: its strip is the elements chosen, each at its place. -/
theorem State.fillStrip_writesFront (t : State) (d : VReg) {w : Nat} (hw : IsWidth w) (g : Nat → Nat) {l : List Nat}
    (hl : l.length ≤ t.cur.body.length) :
    let v := t.cur.fillStrip t.cur.vec.v d w 0 (l.map g)
    let k : Strand := { t.cur with vec := { t.cur.vec with vl := l.length } }
    t.WritesFront (.next (((t.withVec { t.cur.vec with
        v := if t.cur.vec.tp then k.zeroTail v d w (t.cur.groupSize w) else v, vstart := 0 }).notePush (t.cur.use d w)
          (List.range l.length)).next8)) d w l.length (fun j => g (l.getD j 0)) 0 := by
  intro v k
  have hwritten := t.cur.fillStrip_vecWritten d hw g hl
  dsimp only at hwritten
  generalize (if t.cur.vec.tp then k.zeroTail v d w (t.cur.groupSize w) else v) = new at hwritten ⊢
  obtain ⟨p, hp, hsame⟩ := (t.withVec { t.cur.vec with v := new, vstart := 0 }).notePush_spec (t.cur.use d w) (List.range l.length)
  rw [hp]
  refine ⟨new, p, ?_, hwritten, fun h => hsame fun r hr => ?_⟩
  · simp [State.withVec, State.withCur, State.next8, State.setPc]
  · exact (Strand.boundTo_congr (k := t.cur) rfl r true).trans (h r hr)

/-! ### Element 0 alone (R188) -/

/-- Element 0 of an operand is the first bits of its first register, in either mode. -/
theorem Strand.elemBit_zero (c : Strand) (r w : Nat) : c.elemBit r w 0 = r * c.regBytes * 8 := by
  unfold Strand.elemBit
  split <;> simp

/-- The state in which element 0 of an operand alone has been written. -/
def State.putFirst (t : State) (d : VReg) (w x : Nat) : State :=
  (t.withVec { t.cur.vec with v := t.cur.putElem t.cur.vec.v d w 0 x, vstart := 0 }).notePush (t.cur.use d w) [0]

theorem State.putFirst_spec (t : State) (d : VReg) {w : Nat} (hw : IsWidth w) (h8 : 8 ∣ w) (x : Nat) :
    ∃ (v : SMap Byte) (p : List Push),
      (t.putFirst d w x).next8 = { t with cur := { t.cur with
        pc := t.cur.pc + 8, vec := { t.cur.vec with v := v, vstart := 0 }, conv := { t.cur.conv with pushes := p } } } ∧
      ({ t.cur with vec := { t.cur.vec with v := v } } : Strand).elem d w 0 = x % 2 ^ w ∧
      (∀ a, a < d.toNat * t.cur.regBytes ∨ d.toNat * t.cur.regBytes + w / 8 ≤ a → Memory.read v a = Memory.read t.cur.vec.v a) ∧
      ((∀ r ∈ regsOf [t.cur.use d w], t.cur.boundTo r true = none) → p = t.cur.conv.pushes) := by
  obtain ⟨p, hp, hsame⟩ := (t.withVec { t.cur.vec with v := t.cur.putElem t.cur.vec.v d w 0 x, vstart := 0 }).notePush_spec
    (t.cur.use d w) [0]
  refine ⟨t.cur.putElem t.cur.vec.v d w 0 x, p, ?_, t.cur.elem_putElem_self _ d 0 x hw, fun a ha => ?_, fun h =>
    hsame fun r hr => (Strand.boundTo_congr (k := t.cur) rfl r true).trans (h r hr)⟩
  · rw [State.putFirst, hp]
    rfl
  · refine t.cur.read_putElem _ d 0 x hw ?_
    rw [Strand.elemBit_zero]
    omega

/-! ### The obligation -/

/-- Settles O23: the permutes in their frames. -/
theorem permuteResults : Obligations.PermuteResults := by
  unfold Obligations.PermuteResults
  intro s t
  refine ⟨fun o => ⟨fun hr => ?up, fun hr => ?down⟩, fun o hr => ?vpermv, fun o hr => ?vcompress, fun o hr => ?vmvxs,
    fun o hr => ?vmvsx, fun o hr => ?vbcast⟩
  case up =>
    have hexec : exec (.vslideup o) s = vecWord (wordInfo (.vslideup o) s.cur) s _ := rfl
    rw [hexec, vecWord_ready hr]
    refine ⟨fun hvl => ?_, fun hvl => ?_⟩
    · exact congrArg Host.Outcome.next (if_pos hvl)
    · rw [if_neg (by omega)]
      exact t.writeAcross_spec o.d (isWidth_bits o.ew) o.m _ _
  case down =>
    exact RunsAcross.acrossElements (f := fun t e =>
      if e + (t.getX o.x).toNat < t.cur.vlmax then t.cur.elem o.a o.ew.bits (e + (t.getX o.x).toNat) else 0)
      (fun _ => rfl) (isWidth_bits o.ew) hr fun _ => rfl
  case vpermv =>
    exact RunsAcross.acrossElements (f := fun t e =>
      if t.cur.elem o.b o.ew.bits e < t.cur.vlmax then t.cur.elem o.a o.ew.bits (t.cur.elem o.b o.ew.bits e) else 0)
      (fun _ => rfl) (isWidth_bits o.ew) hr fun _ => rfl
  case vcompress =>
    intro chosen
    have hexec : exec (.vcompress o) s = vecWord (wordInfo (.vcompress o) s.cur) s _ := rfl
    rw [hexec, vecWord_ready hr]
    refine ⟨fun hvl => ?_, fun hvl => ?_⟩
    · exact congrArg Host.Outcome.next (if_pos hvl)
    · dsimp only
      rw [if_neg (by omega), List.length_map]
      exact t.fillStrip_writesFront o.d (isWidth_bits o.ew) (t.cur.elem o.a o.ew.bits) (List.length_filter_le _ _)
  case vmvxs =>
    intro u
    have hexec : exec (.vmvxs o) s = vecWord (wordInfo (.vmvxs o) s.cur) s _ := rfl
    rw [hexec, vecWord_ready hr]
    refine ⟨fun hvl => ?_, fun hvl => ?_⟩
    · dsimp only
      rw [if_neg (by omega)]
      rfl
    · dsimp only
      rw [if_pos hvl, State.setX_next8, sextN, signed_eq_sval (bits_pos o.ew)]
      rfl
  case vmvsx =>
    have hexec : exec (.vmvsx o) s = vecWord (wordInfo (.vmvsx o) s.cur) s fun t => if t.cur.vec.vl = 0 then t.vstart0.next8
      else (t.putFirst o.d o.ew.bits ((t.getX o.x).toNat % 2 ^ o.ew.bits)).next8 := rfl
    rw [hexec, vecWord_ready hr]
    refine ⟨fun hvl => congrArg Host.Outcome.next (if_pos hvl), fun hvl => ?_⟩
    have h8 : 8 ∣ o.ew.bits := VKind.plain.eight_dvd_aw o.ew
    obtain ⟨v, p, hnext, helem, hrest⟩ := t.putFirst_spec o.d (isWidth_bits o.ew) h8 ((t.getX o.x).toNat % 2 ^ o.ew.bits)
    rw [if_neg (by omega), hnext]
    exact ⟨v, p, rfl, helem.trans (Nat.mod_mod _ _), hrest⟩
  case vbcast =>
    exact RunsAcross.acrossElements (f := fun t _ => (t.getX o.x).toNat % 2 ^ o.ew.bits) (fun _ => rfl) (isWidth_bits o.ew) hr
      fun _ => Nat.mod_mod _ _

end Sys2Proof.Machine
end

section
/-! The configuration words SETVL, SETVT, VCONFIG, MENTER and MEXIT, and the loop words; and O26, assembled from them. -/

namespace Sys2Proof.Machine

/-! ### What a ready word has passed (Table 4-19) -/

theorem State.Ready.modeHolds {i : Instr} {s t : State} (h : s.Ready i t) : s.cur.modeFails (wordInfo i s.cur) = false := by
  have hcheck := h.1
  unfold Strand.wordCheck at hcheck
  split_ifs at hcheck with _ _ hmode
  simpa using hmode

/-- A word of vector mode runs in vector mode (R172). -/
theorem State.Ready.vectorMode {i : Instr} {s t : State} (h : s.Ready i t) (hm : (wordInfo i s.cur).mode = .vector) :
    s.cur.vec.mmode = false := by
  rw [Bool.eq_false_iff]
  intro hmmode
  have hfails := (s.cur.modeFails_iff (wordInfo i s.cur)).2 (.inr (by unfold Strand.OtherMode; rwa [hm]))
  exact absurd (hfails.symm.trans h.modeHolds) nofun

/-- A word without vector sources pops nothing. -/
theorem State.Ready.eq_self {i : Instr} {s t : State} (h : s.Ready i t) (hs : (wordInfo i s.cur).srcs = []) : t = s := by
  have hpops := h.2.2
  rw [hs] at hpops
  exact (Except.ok.inj hpops).symm

/-- Without an operand a word passes the checks of registers and level, and MODE is the first that may fail. -/
theorem exec_traps_mode {i : Instr} {s : State} (hw : (wordInfo i s.cur).klass ≠ .noWord)
    (hillegal : s.cur.illegalRegs (wordInfo i s.cur) = false) (hpriv : s.cur.privFails (wordInfo i s.cur) = false)
    (hmode : (wordInfo i s.cur).lanes = true ∧ s.cur.lanegrant = 0 ∨ s.cur.OtherMode (wordInfo i s.cur)) :
    exec i s = .next (s.trap .mode s.cur.iword) := by
  refine exec_traps_word hw nofun ?_
  unfold Strand.wordCheck
  rw [hillegal, hpriv, (s.cur.modeFails_iff _).2 hmode]
  rfl

/-! ### SETVT, VCONFIG, MENTER and MEXIT (R175, R176, Table 14-1) -/

/-- vlmax of a strand with lane groups, in vector mode and not in virtual-length mode (R114). -/
theorem Strand.vlmax_eq {c : Strand} (hm : c.vec.mmode = false) (hg : c.lanegrant ≠ 0) (hv : c.vec.virt = false) :
    c.vlmax = min 65536 (laneCount c.lanegrant * (262144 / c.vec.vnreg)) / c.vec.ew.bits := by
  have hlanes : c.lanes ≠ 0 := mt c.lanes_eq_zero_iff.1 hg
  unfold Strand.vlmax Strand.vlmaxBits
  rw [hm, hv, if_neg hlanes]
  rfl

/-- The counts of registers that VCONFIG names (R176). -/
theorem vconfigCount_eq (n : BitVec 2) : vconfigCount n = [8, 16, 32, 64].getD n.toNat 0 := by
  revert n
  decide

theorem VecPart.unbindAll_bound (v : VecPart) (i : Fin 8) : v.unbindAll.streams[i].bound = none :=
  congrArg Stream.bound (Vector.getElem_map _ i.isLt)

/-- MENTER leaves a stream unbound, or as it was where it is bound below v32. -/
theorem VecPart.unbindHigh_stream (v : VecPart) (i : Fin 8) : v.unbindHigh.streams[i].bound = none ∨
    (v.unbindHigh.streams[i] = v.streams[i] ∧ ∀ r, v.unbindHigh.streams[i].bound = some r → r.toNat < 32) := by
  have hi : v.unbindHigh.streams[i] = match v.streams[i].bound with
      | none => v.streams[i]
      | some r => if 32 ≤ r.toNat then v.streams[i].unbind else v.streams[i] := Vector.getElem_map _ i.isLt
  rw [hi]
  cases hb : v.streams[i].bound with
  | none => exact .inl hb
  | some r =>
    dsimp only
    split
    · exact .inl rfl
    · next hr => exact .inr ⟨rfl, fun q hq => by cases hb.symm.trans hq; omega⟩

/-- The registers from v32 on cleared (Table 14-1). -/
theorem read_clearHigh (v : SMap Byte) (n : Nat) :
    (∀ a, a < 32 * n → Memory.read (clearBytes v (32 * n) (64 * n)) a = Memory.read v a) ∧
      ∀ a, 32 * n ≤ a → a < 64 * n → Memory.read (clearBytes v (32 * n) (64 * n)) a = 0 := by
  simp only [read_clearBytes]
  exact ⟨fun a ha => if_neg fun h => absurd h.1 (not_le.mpr ha), fun a hlo hhi => if_pos ⟨hlo, hhi⟩⟩

/-! ### The loop words (R189, R190) -/

theorem sext20_shiftLeft_three (i : BitVec 20) : sext20 i <<< 3 = 8 * i.signExtend 64 := by
  rw [BitVec.shiftLeft_eq_mul_twoPow, BitVec.mul_comm]
  rfl

/-- Two scalar registers written, neither of them x0. -/
theorem State.setX_setX (t : State) {i r : XReg} (hi : i ≠ 0) (hr : r ≠ 0) (a b : Word) : (t.setX i a).setX r b =
    { t with cur := { t.cur with x := (t.cur.x.set i.toNat a).set r.toNat b } } := by
  unfold State.setX
  simp only [Strand.setX_eq, if_neg hi, if_neg hr]
  rfl

/-- A mask register that holds the first n elements (R190). -/
theorem VecPart.setMask_first (v : VecPart) {m : MReg} (h0 : m ≠ 0) (n : Nat) :
    ∃ ms, v.setMask m (setBits 0 (List.range n) true) = { v with m := ms } ∧
      (∀ i : Fin 7, i.val + 1 ≠ m.toNat → ms[i] = v.m[i]) ∧
      ∀ (i : Fin 7) (e : Nat), i.val + 1 = m.toNat → e < 16384 → ms[i].getLsbD e = decide (e < n) := by
  have hpos : m.toNat ≠ 0 := fun h => h0 (BitVec.eq_of_toNat_eq h)
  have hlt : m.toNat - 1 < 7 := by omega
  refine ⟨_, dif_neg h0, fun i hi => Vector.getElem_set_ne hlt i.isLt (by omega), fun i e hi he => ?_⟩
  have hset : (v.m.set (m.toNat - 1) (setBits 0 (List.range n) true) hlt)[i] = setBits 0 (List.range n) true := by
    simp only [Fin.getElem_fin, Vector.getElem_set, if_pos (show m.toNat - 1 = i.val by omega)]
  rw [hset]
  refine (getLsbD_foldl_setBit (List.range n) (fun _ => true) 0 e).trans ?_
  by_cases hn : e < n <;> simp [hn, he]

/-- What a pass of a loop leaves (R190): the step and the remaining count, the mask of the next pass, and the jump while elements
remain. -/
def State.Loops (t : State) (o : LoopOp) (out : Out) : Prop :=
  let vl := t.cur.vec.vl
  let a := (t.getX o.rem).toNat
  let step := min vl a
  ∃ v, out = .next { t with cur := { t.cur with
      x := (t.cur.x.set o.idx.toNat (t.getX o.idx + BitVec.ofNat 64 step)).set o.rem.toNat (BitVec.ofNat 64 (a - step)), vec := v
      pc := if a = step then t.cur.pc + 8 else t.cur.pc + 8 * o.off.signExtend 64 } } ∧
    (a = step ∨ o.m = 0 → v = t.cur.vec) ∧
    (a ≠ step → o.m ≠ 0 → ∃ m, v = { t.cur.vec with m := m } ∧
      (∀ i : Fin 7, i.val + 1 ≠ o.m.toNat → m[i] = t.cur.vec.m[i]) ∧
      ∀ (i : Fin 7) (e : Nat), i.val + 1 = o.m.toNat → e < 16384 → m[i].getLsbD e = decide (e < min (a - step) vl))

theorem State.vwhile_loops (t : State) {o : LoopOp} (hr : o.rem ≠ 0) (hi : o.idx ≠ 0) : t.Loops o (.next (t.vwhile o)) := by
  unfold State.Loops State.vwhile
  dsimp only
  rw [t.setX_setX hi hr, sext20_shiftLeft_three]
  generalize ha : (t.getX o.rem).toNat = a
  have hle : min t.cur.vec.vl a ≤ a := Nat.min_le_right _ _
  by_cases hend : a = min t.cur.vec.vl a
  · rw [if_pos (by omega), if_pos hend]
    exact ⟨t.cur.vec, rfl, fun _ => rfl, fun h => absurd hend h⟩
  · rw [if_neg (by omega), if_neg hend]
    by_cases hm : o.m = 0
    · rw [if_pos hm]
      exact ⟨t.cur.vec, rfl, fun _ => rfl, fun _ h => absurd hm h⟩
    · obtain ⟨m, hset, hothers, hbits⟩ := t.cur.vec.setMask_first hm (min (a - min t.cur.vec.vl a) t.cur.vec.vl)
      rw [if_neg hm, hset]
      exact ⟨{ t.cur.vec with m := m }, rfl, fun h => absurd h (not_or.mpr ⟨hend, hm⟩), fun _ _ => ⟨m, rfl, hothers, hbits⟩⟩

/-! ### The obligation -/

/-- Settles O26: the configuration words one by one, their traps in the other mode, and the loop words by the pass they share. -/
theorem configAndLoopResults : Obligations.ConfigAndLoopResults := by
  unfold Obligations.ConfigAndLoopResults
  refine ⟨fun s t => ?config, fun o s t hwf => ?loop⟩
  case config =>
    intro v zeroHigh
    refine ⟨fun o hr => ?setvl, fun o hr => ?setvt, fun o hr => ?vconfig, fun hr => ?menter, fun hr => ?mexit, fun h => ?noMenter,
      fun h => ?noMexit⟩
    case setvl =>
      have hexec : exec (.setvl o) s = _ := (vecWord_ready hr _ : execSetvl o s = _)
      rw [hexec]
      exact congrArg Host.Outcome.next (State.setX_next8 _ _ _)
    case setvt =>
      have hm : t.cur.vec.mmode = false := by rw [hr.eq_self rfl]; exact hr.vectorMode rfl
      have hexec : exec (.setvt o) s = _ := (vecWord_ready hr _ : execSetvt o s = _)
      rw [hexec]
      exact ⟨_, rfl, fun hg hv => congrArg (min v.vl) (Strand.vlmax_eq hm hg hv)⟩
    case vconfig =>
      intro n
      have hn : vconfigCount o.n = n := vconfigCount_eq o.n
      have hexec : exec (.vconfig o) s = _ := (vecWord_ready hr _ : execVconfig o s = _)
      rw [hexec]
      dsimp only
      rw [hn]
      refine ⟨fun h => ?_, fun h => ⟨v.unbindAll.streams, v.unbindAll_bound, ?_⟩⟩
      · rw [if_pos h]
        rfl
      · rw [if_neg h]
        rfl
    case menter =>
      have hexec : exec .menter s = _ := (vecWord_ready hr _ : execMenter s = _)
      rw [hexec]
      exact ⟨v.unbindHigh.streams, _, read_clearHigh v.v t.cur.regBytes, v.unbindHigh_stream, rfl⟩
    case mexit =>
      have hexec : exec .mexit s = _ := (vecWord_ready hr _ : execMexit s = _)
      rw [hexec]
      exact ⟨_, read_clearHigh v.v t.cur.regBytes, rfl⟩
    case noMenter =>
      refine exec_traps_mode nofun rfl rfl ?_
      by_cases hn : s.cur.vec.vnreg = 64
      · have hinfo : wordInfo .menter s.cur = { menterInfo s.cur with mode := .vector } := by
          simp only [wordInfo, menterInfo, if_pos hn]
        rw [hinfo]
        exact h.resolve_left (absurd hn) |>.elim .inr fun hg => .inl ⟨rfl, hg⟩
      · have hinfo : wordInfo .menter s.cur = { menterInfo s.cur with mode := .never } := by
          simp only [wordInfo, menterInfo, if_neg hn]
        rw [hinfo]
        exact .inr trivial
    case noMexit =>
      refine exec_traps_mode nofun rfl rfl ?_
      exact h.symm.imp (fun hg => ⟨rfl, hg⟩) .inl
  case loop =>
    intro vl a b regs loops first
    have hregs : (o.rem ≠ 0 ∧ o.idx ≠ 0) ∧ o.rem ≠ o.idx := by simpa [Instr.WellFormed, Instr.wf] using hwf
    obtain ⟨⟨hrem, hidx⟩, -⟩ := hregs
    have hloops : loops (.next (t.vwhile o)) := t.vwhile_loops hrem hidx
    refine ⟨fun hr => ?vwhile, fun hr => ?vwhilem⟩
    case vwhile =>
      have hexec : exec (.vwhile o) s = _ := (vecWord_ready hr _ : execVwhile o s = _)
      rw [hexec]
      refine ⟨fun hvl => congrArg Host.Outcome.next (if_pos hvl), fun hvl => ?_⟩
      rwa [if_neg (by omega)]
    case vwhilem =>
      have hexec : exec (.vwhilem o) s = _ := (vecWord_ready hr _ : execVwhilem o s = _)
      rw [hexec]
      dsimp only
      refine ⟨fun hvl => congrArg Host.Outcome.next (if_pos hvl), fun hvl hnone => ?_, fun f hf => ?_⟩
      · have hfirst : ((List.range t.cur.vec.vl).find? fun e => t.cur.maskBit o.m e) = none := hnone
        rw [if_neg (by omega), hfirst]
        exact hloops
      · have hfirst : ((List.range t.cur.vec.vl).find? fun e => t.cur.maskBit o.m e) = some f := hf
        have hvl : t.cur.vec.vl ≠ 0 := fun h0 => by rw [h0] at hfirst; exact absurd hfirst nofun
        rw [if_neg hvl, hfirst]
        dsimp only
        rw [t.setX_setX hidx hrem]
        rfl

end Sys2Proof.Machine
end

section
/-! The segments of a strip and SETVLF, which reads their starts from a bit string; and O27, assembled from them. -/

namespace Sys2Proof.Machine

/-! ### The segments of a strip (R207) -/

/-- One element put in front of the segments of those above it: in the first of them, or ahead of it in one of its own. -/
def Strand.segmentStep (c : Strand) (e : Nat) : List (List Nat) → List (List Nat)
  | [] => [[e]]
  | seg :: rest =>
    if c.vec.seg && c.vec.ms.getLsbD (e + 1) && decide (e + 1 < c.vec.vl) then [e] :: seg :: rest else (e :: seg) :: rest

/-- The segments of the strip, before the strip of no elements gets its one empty segment. -/
def Strand.rawSegments (c : Strand) : List (List Nat) := (List.range c.vec.vl).foldr c.segmentStep []

theorem Strand.segments_eq (c : Strand) : c.segments = if c.rawSegments = [] then [[]] else c.rawSegments := by
  have hfold : ∀ f, f = c.segmentStep → (fun l => if l = [] then [[]] else l) ((List.range c.vec.vl).foldr f []) =
      if c.rawSegments = [] then [[]] else c.rawSegments := by
    rintro f rfl
    rfl
  refine hfold _ ?_
  funext e acc
  cases acc <;> rfl

/-- An element other than 0 begins a segment (R207). -/
def Strand.Begins (c : Strand) (e : Nat) : Prop := c.vec.seg = true ∧ c.vec.ms.getLsbD e = true

/-- l divides the n elements from k on into segments: none is empty, and each but the first begins where R207 says. -/
structure Strand.Divides (c : Strand) (k n : Nat) (l : List (List Nat)) : Prop where
  flatten : l.flatten = List.range' k n
  nonempty : ∀ g ∈ l, g ≠ []
  inside : ∀ g ∈ l, ∀ e ∈ g.tail, ¬ c.Begins e
  begins : ∀ g ∈ l.tail, ∀ e, g.head? = some e → c.Begins e

theorem Strand.Divides.nil (c : Strand) (k : Nat) : c.Divides k 0 [] :=
  ⟨rfl, List.forall_mem_nil _, List.forall_mem_nil _, List.forall_mem_nil _⟩

/-- One element more in front: it joins the first segment, or stands alone where that segment's first element begins one. -/
theorem Strand.Divides.step {c : Strand} {k n : Nat} {l : List (List Nat)} (h : c.Divides (k + 1) n l) (hn : k + 1 + n = c.vec.vl) :
    c.Divides k (n + 1) (c.segmentStep k l) := by
  obtain ⟨hflatten, hnonempty, hinside, hbegins⟩ := h
  match l, hflatten, hnonempty, hinside, hbegins with
  | [], hflatten, _, _, _ =>
    have hzero : n = 0 := by simpa using (congrArg List.length hflatten).symm
    subst hzero
    exact ⟨rfl, by simp [Strand.segmentStep], by simp [Strand.segmentStep], by simp [Strand.segmentStep]⟩
  | [] :: rest, _, hnonempty, _, _ => exact absurd rfl (hnonempty [] List.mem_cons_self)
  | (e :: seg) :: rest, hflatten, hnonempty, hinside, hbegins =>
    have hpos : n ≠ 0 := by rintro rfl; simp at hflatten
    have he : e = k + 1 := by
      obtain ⟨m, rfl⟩ := Nat.exists_eq_succ_of_ne_zero hpos
      rw [List.range'_succ] at hflatten
      exact (List.cons.inj hflatten).1
    subst he
    have hstart : (c.vec.seg && c.vec.ms.getLsbD (k + 1) && decide (k + 1 < c.vec.vl)) = true ↔ c.Begins (k + 1) := by
      simp only [Strand.Begins, Bool.and_eq_true, decide_eq_true_eq]
      exact and_iff_left (by omega)
    have hrange : k :: List.range' (k + 1) n = List.range' k (n + 1) := List.range'_succ.symm
    by_cases hb : c.Begins (k + 1)
    · have hstep : c.segmentStep k (((k + 1) :: seg) :: rest) = [k] :: ((k + 1) :: seg) :: rest := if_pos (hstart.2 hb)
      rw [hstep]
      refine ⟨by rw [← hrange, ← hflatten]; rfl, List.forall_mem_cons.2 ⟨nofun, hnonempty⟩,
        List.forall_mem_cons.2 ⟨List.forall_mem_nil _, hinside⟩, List.forall_mem_cons.2 ⟨fun e h => ?_, hbegins⟩⟩
      cases h
      exact hb
    · have hstep : c.segmentStep k (((k + 1) :: seg) :: rest) = (k :: (k + 1) :: seg) :: rest := if_neg (mt hstart.1 hb)
      rw [hstep]
      rw [List.forall_mem_cons] at hnonempty hinside
      exact ⟨by rw [← hrange, ← hflatten]; rfl, List.forall_mem_cons.2 ⟨nofun, hnonempty.2⟩,
        List.forall_mem_cons.2 ⟨List.forall_mem_cons.2 ⟨hb, hinside.1⟩, hinside.2⟩, hbegins⟩

theorem Strand.rawSegments_divides (c : Strand) : c.Divides 0 c.vec.vl c.rawSegments := by
  have hfrom : ∀ n k, k + n = c.vec.vl → c.Divides k n ((List.range' k n).foldr c.segmentStep []) := by
    intro n
    induction n with
    | zero => exact fun k _ => .nil c k
    | succ n ih =>
      intro k hk
      rw [List.range'_succ]
      exact (ih (k + 1) (by omega)).step (by omega)
  have hall := hfrom c.vec.vl 0 (Nat.zero_add _)
  rwa [← List.range_eq_range'] at hall

/-- A strip with elements has its segments as R207 divides them. -/
theorem Strand.segments_divides (c : Strand) (h : 0 < c.vec.vl) : c.Divides 0 c.vec.vl c.segments := by
  have hraw := c.rawSegments_divides
  have hsome : c.rawSegments ≠ [] := fun hnil => by
    have hlen := congrArg List.length hraw.flatten
    rw [hnil, List.length_range'] at hlen
    exact absurd hlen (by simp; omega)
  rwa [c.segments_eq, if_neg hsome]

theorem Strand.segments_zero {c : Strand} (h : c.vec.vl = 0) : c.segments = [[]] := by
  have hraw : c.rawSegments = [] := by unfold Strand.rawSegments; rw [h]; rfl
  rw [c.segments_eq, if_pos hraw]

/-- Without segments the elements make one. -/
theorem Strand.Divides.single {c : Strand} {k n : Nat} {l : List (List Nat)} (h : c.Divides k n l) (hn : 0 < n)
    (hseg : c.vec.seg = false) : l = [List.range' k n] := by
  obtain ⟨hflatten, hnonempty, -, hbegins⟩ := h
  match l, hflatten, hnonempty, hbegins with
  | [], hflatten, _, _ =>
    have hlen := congrArg List.length hflatten
    simp at hlen
    omega
  | [g], hflatten, _, _ => rw [← hflatten, List.flatten_singleton]
  | _ :: [] :: _, _, hnonempty, _ => simp at hnonempty
  | _ :: (e :: g) :: _, _, _, hbegins =>
    have hb : c.Begins e := hbegins (e :: g) List.mem_cons_self e rfl
    exact absurd (hseg.symm.trans hb.1) nofun

/-! ### What a word's accesses leave -/

theorem State.AccessOnly.cur {s t : State} (h : s.AccessOnly t) : t.cur = s.cur :=
  congrArg (a₁ := t.exceptMemory) (a₂ := s.exceptMemory) State.cur h

theorem State.AccessOnly.others {s t : State} (h : s.AccessOnly t) : t.others = s.others :=
  congrArg (a₁ := t.exceptMemory) (a₂ := s.exceptMemory) State.others h

/-- The page-sorting unit leaves everything but the TLB and the free values. -/
theorem State.sortPages_state (s : State) (gs : List Nat) :
    ∃ tlb free, (s.sortPages gs).2 = { s with tlb := tlb, free := free } := by
  induction gs generalizing s with
  | nil => exact ⟨s.tlb, s.free, rfl⟩
  | cons g gs ih =>
    obtain ⟨_, _, hleaf⟩ := s.leafOf_state s.cur.via s.cur.level g
    obtain ⟨tlb, free, hrest⟩ := ih (s.leafOf s.cur.via s.cur.level g).2
    rw [hleaf] at hrest
    exact ⟨tlb, free, (congrArg (fun u : State => (u.sortPages gs).2) hleaf).trans hrest⟩

theorem State.touchElems_accessOnly (s : State) (tbl : List (Nat × Except Cause (Option Leaf))) (p : VmPlan) (es : List VmElem) :
    s.AccessOnly (s.touchElems tbl p es) := by
  refine State.AccessOnly.foldl id _ (fun t a => ?_) _ s
  dsimp only [id]
  split
  · exact t.touch_accessOnly _ _ _
  · exact .refl t

/-- The watch matches of a word are kept with the convoy (R332). -/
theorem State.watchElems_state (s : State) (p : VmPlan) (es : List VmElem) :
    ∃ conv, s.watchElems p es = s.withCur { s.cur with conv := conv } := by
  unfold State.watchElems
  generalize es.flatMap (fun e => e.2.1) = l
  induction l generalizing s with
  | nil => exact ⟨s.cur.conv, rfl⟩
  | cons a l ih =>
    obtain ⟨_, hnote⟩ := s.noteWatch_state a p.size p.need.rd p.need.wr
    obtain ⟨conv, hrest⟩ := ih (s.noteWatch a p.size p.need.rd p.need.wr)
    rw [hnote] at hrest
    exact ⟨conv, (congrArg (fun u : State => l.foldl _ u) hnote).trans hrest⟩

theorem State.sortPages_keeps {t u : State} {gs : List Nat} {tbl : List (Nat × Except Cause (Option Leaf))}
    (h : t.sortPages gs = (tbl, u)) : u.cur = t.cur ∧ u.others = t.others ∧ u.readPlace = t.readPlace := by
  obtain ⟨tlb, free, hu⟩ := t.sortPages_state gs
  have hstate : u = { t with tlb := tlb, free := free } := (congrArg Prod.snd h).symm.trans hu
  rw [hstate]
  exact ⟨rfl, rfl, rfl⟩

/-- The accesses of a word, before it writes what they read, leave the vector part, the registers and the other strands. -/
theorem State.watch_touchElems_keeps (u : State) (tbl : List (Nat × Except Cause (Option Leaf))) (p : VmPlan) (es : List VmElem) :
    ((u.touchElems tbl p es).watchElems p es).cur.vec = u.cur.vec ∧ ((u.touchElems tbl p es).watchElems p es).cur.x = u.cur.x ∧
      ((u.touchElems tbl p es).watchElems p es).cur.pc = u.cur.pc ∧
      ((u.touchElems tbl p es).watchElems p es).others = u.others := by
  have htouch := u.touchElems_accessOnly tbl p es
  obtain ⟨conv, hwatch⟩ := (u.touchElems tbl p es).watchElems_state p es
  rw [hwatch, htouch.cur]
  exact ⟨rfl, rfl, rfl, htouch.others⟩

/-! ### A plan of loads that passes (R237) -/

section
variable {t u : State} {p : VmPlan} {tbl : List (Nat × Except Cause (Option Leaf))}

/-- Where every access passes, each field is translated. -/
theorem State.Passes.field_ok (h : t.Passes p tbl u) (hhost : p.noHost = false) {e : Nat × List Nat} (he : e ∈ p.acts) {a : Nat}
    (ha : a ∈ e.2) : ∃ x, u.field tbl p a = .ok x := by
  have hmem : (a, p.need) ∈ p.addresses :=
    List.mem_append_right _ (List.mem_flatMap.2 ⟨e, he, List.mem_map.2 ⟨a, ha, rfl⟩⟩)
  obtain ⟨x, hx, -⟩ := h.2.2 _ hmem
  refine ⟨x, ?_⟩
  unfold State.field
  rw [hhost]
  exact hx

theorem State.Passes.checkFields_none (h : t.Passes p tbl u) (hprog : p.prog = none) {e : Nat × List Nat} (he : e ∈ p.acts) :
    checkFields p.align e.2 = none := by
  have hprecise := h.1
  unfold VmPlan.precise at hprecise
  rw [hprog] at hprecise
  exact List.findSome?_eq_none_iff.1 hprecise e he

theorem State.Passes.elementFault_none (h : t.Passes p tbl u) (hhost : p.noHost = false) {e : Nat × List Nat} (he : e ∈ p.acts) :
    u.elementFault tbl p e.2 = none := by
  have hfaults : u.fieldFaults tbl p e.2 = [] := by
    refine List.filterMap_eq_nil_iff.2 fun a ha => ?_
    obtain ⟨x, hx⟩ := h.field_ok hhost he ha
    rw [hx]
  unfold State.elementFault
  rw [hfaults]
  rfl

theorem State.Passes.anyStall_false (h : t.Passes p tbl u) (hhost : p.noHost = false) (hprog : p.prog = none) :
    u.anyStall tbl p = false := by
  unfold State.anyStall
  rw [hprog]
  refine (Bool.false_or _).trans (List.any_eq_false.2 fun e he => ?_)
  rw [Bool.not_eq_true, List.any_eq_false]
  intro a ha
  obtain ⟨x, hx⟩ := h.field_ok hhost he ha
  rw [hx]
  exact nofun

end

/-- The bytes of a field that passes, but of a nibble. -/
theorem State.readField_of_ok {s : State} {p : VmPlan} {tbl : List (Nat × Except Cause (Option Leaf))} {w e a : Nat} {x : Xlat}
    (hhost : p.noHost = false) (hw : w ≠ 4) (h : s.byGranule tbl p.need a = .ok x) :
    s.readField tbl p w e a = s.readPlace x.place p.size := by
  have hfield : s.field tbl p a = .ok x := by
    unfold State.field
    rw [hhost]
    exact h
  unfold State.readField
  rw [hfield]
  exact if_neg hw

/-! ### SETVLF (R177) -/

theorem Strand.vlmax_le (c : Strand) : c.vlmax ≤ 8192 := by
  have hbits : c.vlmaxBits ≤ 65536 := by
    unfold Strand.vlmaxBits
    split_ifs <;> omega
  have hew : 8 ≤ c.vec.ew.bits := by cases c.vec.ew <;> decide
  unfold Strand.vlmax
  split
  · decide
  · calc c.vlmaxBits / c.vec.ew.bits ≤ c.vlmaxBits / 8 := Nat.div_le_div_left hew (by decide)
      _ ≤ 8192 := by omega

/-- A bit string of SETVLF whose first byte lies within 56 bits has its bytes one after the other. -/
theorem vmAddr_add {a i : Nat} (ha : a < 2 ^ 56) (hi : i < 16384) : vmAddr ((a : Int) + i) = a + i := by
  unfold vmAddr wrapTo
  omega

/-- The bits of a mask whose elements are picked among the first n. -/
theorem getLsbD_setBits_filter {n i : Nat} (f : Nat → Bool) (hi : i < 16384) :
    (setBits 0 ((List.range n).filter f) true : Mask).getLsbD i = (decide (i < n) && f i) := by
  refine (getLsbD_foldl_setBit _ (fun _ => true) 0 i).trans ?_
  rw [show (0 : Mask).getLsbD i = false from BitVec.getLsbD_zero]
  by_cases hn : i < n <;> cases hf : f i <;> simp [List.mem_filter, hn, hi, hf]

/-- SETVLF without a string, or of no element, clears ms. -/
theorem exec_setvlf_none {o : SetvlfOp} {s t : State} (hr : s.Ready (.setvlf o) t)
    (h : o.b = 0 ∨ min (t.getX o.a).toNat t.cur.vlmax = 0) :
    exec (.setvlf o) s = .next (t.setvlfWrite o.d (min (t.getX o.a).toNat t.cur.vlmax) 0) := by
  have hexec : exec (.setvlf o) s = _ := (vecWord_ready hr _ : execSetvlf o s = _)
  rw [hexec]
  exact congrArg Host.Outcome.next (if_pos h)

theorem State.Passes.setvlfFaults_nil {t u : State} {a : Word} {n : Nat} {tbl : List (Nat × Except Cause (Option Leaf))}
    (h : t.Passes (setvlfPlan a n) tbl u) : u.setvlfFaults tbl (setvlfPlan a n) = [] := by
  have hnone : ((setvlfPlan a n).acts.filterMap fun e => (checkFields 1 e.2).or (u.elementFault tbl (setvlfPlan a n) e.2)) = [] := by
    refine List.filterMap_eq_nil_iff.2 fun e he => ?_
    rw [h.elementFault_none rfl he, Option.or_none]
    exact h.checkFields_none rfl he
  unfold State.setvlfFaults
  rw [hnone]
  exact List.mergeSort_nil

/-- A string whose bytes pass has none to leave out ahead of its accesses. -/
theorem State.Passes.setvlfPlan_filter {t u : State} {a : Word} {n : Nat} {tbl : List (Nat × Except Cause (Option Leaf))}
    (h : t.Passes (setvlfPlan a n) tbl u) :
    ({ setvlfPlan a n with acts := (setvlfPlan a n).acts.filter fun e => (checkFields 1 e.2).isNone } : VmPlan) = setvlfPlan a n := by
  have hall : ((setvlfPlan a n).acts.filter fun e => (checkFields 1 e.2).isNone) = (setvlfPlan a n).acts :=
    List.filter_eq_self.2 fun e he => Option.isNone_iff_eq_none.2 (h.checkFields_none rfl he)
  rw [hall]

/-- SETVLF whose bytes all pass sets ms to their bits. -/
theorem exec_setvlf_passes {o : SetvlfOp} {s t u : State} {n : Nat} {tbl : List (Nat × Except Cause (Option Leaf))}
    (hr : s.Ready (.setvlf o) t) (hn : min (t.getX o.a).toNat t.cur.vlmax = n) (hb : o.b ≠ 0) (hpos : 0 < n)
    (h : t.Passes (setvlfPlan (t.getX o.b) n) tbl u) :
    let p := setvlfPlan (t.getX o.b) n
    let es := u.vmElems tbl p
    ∃ bytes : List Nat, (∀ k < (n + 7) / 8, bytes.getD k 0 = u.readField tbl p 8 k (vmAddr (((t.getX o.b).toNat : Int) + k))) ∧
      exec (.setvlf o) s = .next (((u.touchElems tbl p es).watchElems p es).setvlfWrite o.d n
        (setBits 0 ((List.range n).filter fun i => decide (bytes.getD (i / 8) 0 / 2 ^ (i % 8) % 2 = 1)) true)) := by
  intro p es
  have hexec : exec (.setvlf o) s = _ := (vecWord_ready hr _ : execSetvlf o s = _)
  rw [hexec]
  dsimp only
  rw [hn, if_neg (not_or.mpr ⟨hb, hpos.ne'⟩), h.setvlfPlan_filter, h.2.1]
  dsimp only
  rw [if_neg (by rw [h.anyStall_false rfl rfl]; exact nofun), if_neg (not_not.mpr h.setvlfFaults_nil)]
  refine ⟨_, fun k hk => ?_, rfl⟩
  have hact : p.acts[k]? = some (k, [vmAddr (((t.getX o.b).toNat : Int) + k)]) := by simp [p, setvlfPlan, hk]
  simp only [State.vmElems, List.getD, List.getElem?_map, p, hact, Option.map_some, Option.getD_some]

/-- A string whose bytes pass begins within 56 bits (Table 7-7). -/
theorem setvlfPlan_base {t u : State} {a : Word} {n : Nat} {tbl : List (Nat × Except Cause (Option Leaf))}
    (h : t.Passes (setvlfPlan a n) tbl u) (hpos : 0 < n) : a.toNat < 2 ^ 56 := by
  have hmem : (0, [vmAddr ((a.toNat : Int) + (0 : Nat))]) ∈ (setvlfPlan a n).acts :=
    List.mem_map.2 ⟨0, List.mem_range.2 (by omega), rfl⟩
  have hcheck := h.checkFields_none rfl hmem
  have haddr : vmAddr ((a.toNat : Int) + (0 : Nat)) = a.toNat := by
    have ha := a.isLt
    unfold vmAddr wrapTo
    omega
  rw [haddr] at hcheck
  simpa [checkFields, setvlfPlan, Nat.mod_one] using hcheck

/-- The write of SETVLF on a state whose vector part is that of another. -/
theorem State.setvlfWrite_eq {w t : State} (h : w.cur.vec = t.cur.vec) (d : XReg) (n : Nat) (ms : Mask) : w.setvlfWrite d n ms =
    ({ w with cur := { w.cur with vec := { t.cur.vec with vl := n, vstart := 0, ms := ms } } } : State).withResult d
      (BitVec.ofNat 64 n) 8 := by
  rw [← h]
  exact State.setX_next8 _ _ _

/-! ### The obligation -/

/-- Settles O27: SETVLF by its string's bytes, and the segments by the way they are built from the strip's end. -/
theorem segmentResults : Obligations.SegmentResults := by
  unfold Obligations.SegmentResults
  refine ⟨fun o s t hr => ?setvlf, fun c => ?segments⟩
  case setvlf =>
    intro n set
    refine ⟨fun h => (exec_setvlf_none hr h).trans (congrArg Host.Outcome.next (State.setvlfWrite_eq rfl o.d n 0)),
      fun hb hpos tbl u h => ?_⟩
    obtain ⟨bytes, hbytes, hexec⟩ := exec_setvlf_passes hr rfl hb hpos h
    obtain ⟨hcur, hothers, hread⟩ := State.sortPages_keeps h.2.1
    obtain ⟨hvec, hx, hpc, hstrands⟩ := u.watch_touchElems_keeps tbl (setvlfPlan (t.getX o.b) n)
      (u.vmElems tbl (setvlfPlan (t.getX o.b) n))
    rw [hcur] at hvec hx hpc
    refine ⟨_, _, hexec.trans (congrArg Host.Outcome.next (State.setvlfWrite_eq hvec o.d n _)), hx, hpc, hstrands.trans hothers,
      fun i hi hni => ?_, fun i hin x hok => ?_⟩
    · rw [getLsbD_setBits_filter _ hi, decide_eq_false (by omega)]
      rfl
    · have hmax : n ≤ 8192 := (Nat.min_le_right _ _).trans t.cur.vlmax_le
      have hbase : (t.getX o.b).toNat < 2 ^ 56 := setvlfPlan_base h hpos
      rw [← vmAddr_add (i := i / 8) hbase (by omega)] at hok
      rw [getLsbD_setBits_filter _ (by omega), decide_eq_true hin, hbytes _ (by omega), State.readField_of_ok rfl (by decide) hok, hread]
      exact Bool.true_and _
  case segments =>
    rcases Nat.eq_zero_or_pos c.vec.vl with hzero | hpos
    · rw [c.segments_zero hzero, hzero]
      exact ⟨rfl, fun _ => rfl, fun h => absurd h (lt_irrefl 0), fun _ => ⟨by simp, by simp⟩⟩
    · have hdiv := c.segments_divides hpos
      refine ⟨hdiv.flatten.trans List.range_eq_range'.symm, fun hseg => ?_, fun _ => hdiv.nonempty, fun hseg => ⟨?_, ?_⟩⟩
      · rw [List.range_eq_range']
        exact hdiv.single hpos hseg
      · exact fun g hg e he => Bool.eq_false_iff.2 fun hms => hdiv.inside g hg e he ⟨hseg, hms⟩
      · exact fun g hg e he => (hdiv.begins g hg e he).2

end Sys2Proof.Machine
end

section
/-! O60, refuted by a HALT with which a launch ends: its packet retires, and the queue's done word is stored (R101, R363). -/

namespace Sys2Proof.Machine

/-- Page tables of three entries (R219 to R221): the first 64 MiB are physical 0x4000000 on, readable, writable, accessed and dirty. -/
def endingTable : Memory := [(0x2000, 0x03), (0x2001, 0x40), (0x4000, 0x03), (0x4001, 0x60), (0x6000, 0x7D), (0x6003, 0x04)]

/-- A partition of one core over those tables, its queue area at 0x100000. -/
def endingPartition : Partition :=
  { pid := 1, first := 0, count := 1, policy := 0, conf := false, root := 0x2000, queueArea := 0x100000, arenaBase := 0x1000000
    arenaSize := 0x100000, transSize := 0x10000, images := [], variants := [], handle := (0, 0), owner := none, creator := 1, events := []
    lost := 0, stale := 0, proxies := 0, windows := [], nextWin := 1, job := none, secret := [], memKey := 0, ending := false }

/-- A launch of its queue 0 that has ended but for its one task. -/
def endedLaunch : Launch :=
  { lid := 1, queue := { part := 1, q := 0 }, index := 0, tag := 0, sup := false, evt := false, ordered := false, conc := false, grant := 1
    vnreg := 32, param := 0, stack := 0, ssize := 0, trvec := 0, entry := 0, signal := ⟨0, 0, 0⟩, virt := false, tasks := 1, tripC := 1
    fuse := 1, levelC := none, levelD := none, code := [], state := .ended, seq := 0, halted := 0
    endRec := some { kind := 3, subj := 0, ctx := 0, a := 0, b := 0, c := 0 } }

/-- A strand that runs the task and is to stop, with the records of its launch and its queue. -/
def endingState : State :=
  { State.reset with
    cur := { Strand.reset { core := 0, sid := 0 } with part := 1, run := .running, task := some (1, 0), preempt := .ending }
    mem := endingTable, parts := [endingPartition], launches := [endedLaunch]
    hwq := [{ HwQueue.fresh { part := 1, q := 0 } with state := .halted }] }

/-- HALT with which a launch ends leaves the memory of that end. -/
theorem State.endingHalt_mem {s u : State} {k : Nat × Nat} (hd : s.cur.commandsDone = true) (hb : s.cur.board = [])
    (hl : s.cur.lateHeld = []) (ht : s.cur.task = some k) (hp : s.cur.preempt = .ending) (hu : exec .halt s = .next u) :
    u.mem = ((s.withCur s.cur.halt.release).finishEnd k.1).mem := by
  have hexec := (exec_halt_ends hd hb hl).symm.trans hu
  rw [ht] at hexec
  dsimp only at hexec
  rw [if_pos hp] at hexec
  obtain ⟨agenda, hdue⟩ := ((s.withCur s.cur.halt.release).finishEnd k.1).selectDue_state s.cur.part
  rw [← Host.Outcome.next.inj hexec, (State.parkGang_mem _ _).1, hdue]

/-- Refutes O60: it says that HALT of a strand with no command left changes no memory, but HALT of the last task of a launch that has
ended retires the launch's packet, and the done word of queue 0, at 0x4100028, becomes 1 (R101, R363 step 4). -/
theorem not_instructionsExecuteNormally : ¬ Obligations.InstructionsExecuteNormally := by
  unfold Obligations.InstructionsExecuteNormally
  intro h
  obtain ⟨-, hhalt, -⟩ := h
  obtain ⟨u, hu, -, -, hmem⟩ := hhalt endingState (by decide) rfl rfl
  have hend := State.endingHalt_mem (by decide) rfl rfl rfl rfl hu
  have hread := congrArg (Memory.read · 0x4100028) (hmem.symm.trans hend)
  exact absurd hread (by decide)

end Sys2Proof.Machine
end

section
/-! The pops of a word leave the mode of the strand: what reads a stream's elements leaves the strand. -/

namespace Sys2Proof.Machine

/-! ### Pops (R226 to R228) -/

theorem State.streamLeaf_cur (s : State) (t : Stream) (va : Nat) : (s.streamLeaf t va).2.2.cur = s.cur := by
  obtain ⟨tlb, free, hleaf⟩ := s.leafOf_state s.cur.via s.cur.level (granule va)
  have hcur : (s.leafOf s.cur.via s.cur.level (granule va)).2.cur = s.cur := by rw [hleaf]
  unfold State.streamLeaf
  generalize s.leafOf s.cur.via s.cur.level (granule va) = found at hcur
  obtain ⟨_ | _ | _, _⟩ := found
  all_goals
    split
    · rfl
    · exact hcur

theorem State.streamPlace_cur (s : State) (t : Stream) (k : Nat) (n : Need) : (s.streamPlace t k n).2.2.cur = s.cur := by
  have hleaf := s.streamLeaf_cur t (t.addr k)
  unfold State.streamPlace
  dsimp only
  split
  · rfl
  split
  · split <;> rfl
  split
  · rfl
  generalize s.streamLeaf t (t.addr k) = found at hleaf
  obtain ⟨_ | l, t1, s1⟩ := found
  · exact hleaf
  · dsimp only
    split <;> exact hleaf

theorem State.streamRead_cur (s : State) (t : Stream) (k : Nat) : (s.streamRead t k).2.2.cur = s.cur := by
  have hplace := s.streamPlace_cur t k .load
  unfold State.streamRead
  generalize s.streamPlace t k .load = found at hplace
  obtain ⟨_ | _ | x, t1, s1⟩ := found
  · exact hplace
  · exact hplace
  · exact (s1.touch_accessOnly s1.cur.via x .load).cur.trans hplace

theorem State.streamFetch_cur (s : State) (t : Stream) (n : Nat) : (s.streamFetch t n).2.cur = s.cur := by
  induction n generalizing s t with
  | zero => rfl
  | succ n ih =>
    have hread := s.streamRead_cur t (t.pos + t.fetched.length)
    unfold State.streamFetch
    dsimp only
    split
    · rfl
    generalize s.streamRead t (t.pos + t.fetched.length) = found at hread
    obtain ⟨(_ | _) | v, t1, s1⟩ := found
    · exact hread
    · exact hread
    · exact (ih _ _).trans hread

theorem State.popOne_mmode {s u : State} {i : BitVec 3} {r : VReg} (h : s.popOne i r = .ok u) :
    u.cur.vec.mmode = s.cur.vec.mmode := by
  unfold State.popOne at h
  dsimp only at h
  have hfetch := s.streamFetch_cur (s.cur.stream i)
    (min s.cur.vec.vl ((s.cur.stream i).length - (s.cur.stream i).pos) - (s.cur.stream i).fetched.length)
  split at h
  · split at h <;> cases h
  · cases h
    exact congrArg (fun c => c.vec.mmode) hfetch

theorem State.popAll_mmode {s u : State} {rs : List Nat} (h : s.popAll rs = .ok u) : u.cur.vec.mmode = s.cur.vec.mmode := by
  induction rs generalizing s with
  | nil => cases h; rfl
  | cons r rs ih =>
    unfold State.popAll at h
    split at h
    · exact ih h
    · split at h
      · exact ih h
      · split at h
        · next hpop => exact (ih h).trans (State.popOne_mmode hpop)
        · cases h

/-- The state in which the pops of a word of vector mode stand is in vector mode too (R172). -/
theorem State.Ready.popped_vectorMode {i : Instr} {s t : State} (h : s.Ready i t) (hm : (wordInfo i s.cur).mode = .vector) :
    t.cur.vec.mmode = false :=
  (State.popAll_mmode h.2.2).trans (h.vectorMode hm)

end Sys2Proof.Machine
end

section
/-! The tree of VFREDSUM, level by level and from its root down (R209). -/

namespace Sys2Proof.Machine

/-! ### A level of the tree -/

theorem pairSum_none_right (g : Nat → Nat → FRes) (p : Option FRes) : pairSum g p none = p := by
  cases p <;> rfl

theorem treeLevel_cons_cons (g : Nat → Nat → FRes) (p q : Option FRes) (l : List (Option FRes)) :
    treeLevel g (p :: q :: l) = pairSum g p q :: treeLevel g l := by
  cases p <;> cases q <;> rfl

theorem length_treeLevel (g : Nat → Nat → FRes) (l : List (Option FRes)) : (treeLevel g l).length = (l.length + 1) / 2 := by
  induction l using treeLevel.induct with
  | case1 => rfl
  | case2 => simp [treeLevel]
  | case3 p q l ih =>
    rw [treeLevel_cons_cons, List.length_cons, List.length_cons, List.length_cons, ih]
    omega

theorem treeLevel_take (g : Nat → Nat → FRes) (l : List (Option FRes)) (k : Nat) :
    treeLevel g (l.take (2 * k)) = (treeLevel g l).take k := by
  induction l using treeLevel.induct generalizing k with
  | case1 => simp [treeLevel]
  | case2 p => cases k <;> simp [treeLevel, Nat.mul_succ]
  | case3 p q l ih =>
    cases k with
    | zero => rfl
    | succ k => simp only [Nat.mul_succ, List.take_succ_cons, treeLevel_cons_cons, ih]

theorem treeLevel_drop (g : Nat → Nat → FRes) (l : List (Option FRes)) (k : Nat) :
    treeLevel g (l.drop (2 * k)) = (treeLevel g l).drop k := by
  induction l using treeLevel.induct generalizing k with
  | case1 => simp [treeLevel]
  | case2 p => cases k <;> simp [treeLevel, Nat.mul_succ]
  | case3 p q l ih =>
    cases k with
    | zero => rfl
    | succ k => simp only [Nat.mul_succ, List.drop_succ_cons, treeLevel_cons_cons, ih]

/-! ### The tree from its root down -/

/-- The root over 2ⁿ⁺¹ leaves is the root over the 2ⁿ nodes of their first level. -/
theorem treeSum_succ (g : Nat → Nat → FRes) (n : Nat) (l : List (Option FRes)) :
    treeSum g (n + 1) l = treeSum g n (treeLevel g l) := by
  induction n generalizing l with
  | zero =>
    match l with
    | [] => rfl
    | [p] => exact pairSum_none_right g p
    | p :: q :: l => rw [treeLevel_cons_cons]; rfl
  | succ n ih =>
    rw [treeSum, ih, ih, pow_succ', treeLevel_take, treeLevel_drop]
    rfl

/-- A single leaf is passed up to the root by EMPTY nodes. -/
theorem treeSum_of_length_le_one (g : Nat → Nat → FRes) (n : Nat) {l : List (Option FRes)} (h : l.length ≤ 1) :
    treeSum g n l = l.head?.join := by
  induction n generalizing l with
  | zero => rfl
  | succ n ih =>
    have hlen : l.length ≤ 2 ^ n := h.trans Nat.one_le_two_pow
    rw [treeSum, List.take_of_length_le hlen, List.drop_of_length_le hlen, ih h, ih (l := []) (Nat.zero_le 1)]
    exact pairSum_none_right g _

theorem treeSum_eq_none (g : Nat → Nat → FRes) (n : Nat) {l : List (Option FRes)} (h : ∀ x ∈ l, x = none) :
    treeSum g n l = none := by
  induction n generalizing l with
  | zero =>
    cases l with
    | nil => rfl
    | cons x l => exact h x (.head l)
  | succ n ih =>
    rw [treeSum, ih fun x hx => h x (List.mem_of_mem_take hx), ih fun x hx => h x (List.mem_of_mem_drop hx)]
    rfl

/-- The levels of the tree end at the root of any tree that has room for the leaves. -/
theorem treeOf_eq_treeSum (g : Nat → Nat → FRes) {fuel n : Nat} {l : List (Option FRes)} (hfuel : l.length ≤ fuel)
    (hn : l.length ≤ 2 ^ n) : treeOf g fuel l = treeSum g n l := by
  induction fuel generalizing n l with
  | zero => exact (treeSum_of_length_le_one g n (hfuel.trans zero_le_one)).symm
  | succ fuel ih =>
    unfold treeOf
    by_cases hone : l.length ≤ 1
    · rw [if_pos hone, treeSum_of_length_le_one g n hone]
    · have hlevel := length_treeLevel g l
      cases n with
      | zero => exact absurd hn hone
      | succ n =>
        rw [pow_succ'] at hn
        rw [if_neg hone, treeSum_succ]
        exact ih (by omega) (by omega)

/-! ### Combine of R209 -/

theorem foldTree_treeSum {g : Nat → Nat → FRes} {n : Nat} {xs : List (Option Nat)} {u : FRes} (seed : Nat) (hn : xs.length ≤ 2 ^ n)
    (hu : treeSum g n (xs.map fun x => x.map flagless) = some u) :
    foldTree g seed xs = { bits := (g seed u.bits).bits, flags := u.flags ||| (g seed u.bits).flags } := by
  have hroot : treeOf g (xs.length + 1) (xs.map fun x => x.map flagless) = some u := by
    rw [treeOf_eq_treeSum (n := n), hu]
    · rw [List.length_map]; exact Nat.le_succ _
    · rwa [List.length_map]
  unfold foldTree
  rw [hroot]

theorem foldTree_singleton (g : Nat → Nat → FRes) (seed x : Nat) : foldTree g seed [some x] = g seed x := by
  have hone : foldTree g seed [some x] = { bits := (g seed x).bits, flags := 0 ||| (g seed x).flags } :=
    foldTree_treeSum (n := 0) (u := flagless x) seed (Nat.le_refl 1) rfl
  exact hone.trans (congrArg (FRes.mk _) BitVec.zero_or)

theorem foldTree_none (g : Nat → Nat → FRes) (seed : Nat) {xs : List (Option Nat)} (h : ∀ x ∈ xs, x = none) :
    foldTree g seed xs = flagless seed := by
  have hroot : treeOf g (xs.length + 1) (xs.map fun x => x.map flagless) = none := by
    rw [treeOf_eq_treeSum (n := xs.length), treeSum_eq_none]
    · intro y hy
      obtain ⟨x, hx, rfl⟩ := List.mem_map.1 hy
      rw [h x hx]
      rfl
    · rw [List.length_map]; exact Nat.le_succ _
    · rw [List.length_map]; exact Nat.lt_two_pow_self.le
  unfold foldTree
  rw [hroot]

end Sys2Proof.Machine
end

section
/-! The reductions by segment (R205 to R210). -/

namespace Sys2Proof.Machine

/-! ### Results written to the front of a destination (R206, R208) -/

theorem Strand.mem_body_of_vector {c : Strand} (hm : c.vec.mmode = false) {e : Nat} : e ∈ c.body ↔ e < c.vec.vl := by
  simp [Strand.body, hm]

/-- k results, with the tail behind them, as VecWritten says of a strand whose vl is k. -/
theorem Strand.front_vecWritten (c : Strand) (hm : c.vec.mmode = false) (d : VReg) {w : Nat} (hw : IsWidth w) (k : Nat)
    (f : Nat → Nat) :
    let front : Strand := { c with vec := { c.vec with vl := k } }
    let v := c.putAll c.vec.v d w ((List.range k).map fun e => (e, f e))
    front.VecWritten (if c.vec.tp then front.zeroTail v d w (c.groupSize w) else v) d w (List.range k) [] f := by
  intro front v
  have hwritten := front.written_vecWritten d hw (List.range k) [] f
    (fun e he => (Strand.mem_body_of_vector (c := front) hm).2 (List.mem_range.1 he)) nofun fun _ _ _ => nofun
  rwa [front.written_nil, Strand.putAll_vl] at hwritten

theorem State.writeSeeds_writesFront (t : State) (hm : t.cur.vec.mmode = false) (d : VReg) {w : Nat} (hw : IsWidth w) (k : Nat)
    (res : Nat → FRes) :
    t.WritesFront (.next (t.writeSeeds d w ((List.range k).map res)).next8) d w k (fun j => (res j).bits)
      (((List.range k).map fun j => (res j).flags).foldl (· ||| ·) 0) := by
  have hentries : (List.range k).zip (((List.range k).map res).map (·.bits)) = (List.range k).map fun j => (j, (res j).bits) := by
    have hzip := List.zip_map' (f := fun j => j) (g := fun j => (res j).bits) (l := List.range k)
    rw [List.map_id'] at hzip
    rw [List.map_map]
    exact hzip
  have hwritten := t.cur.front_vecWritten hm d hw k fun j => (res j).bits
  unfold State.writeSeeds
  dsimp only at hwritten ⊢
  rw [List.length_map, List.length_range, hentries, List.foldl_map, List.foldl_map]
  generalize (if t.cur.vec.tp then _ else _ : SMap Byte) = new at hwritten ⊢
  obtain ⟨p, hp, hsame⟩ := (t.withVec { t.cur.vec with v := new, vstart := 0 }).notePush_spec (t.cur.use d w) (List.range k)
  rw [hp]
  refine ⟨new, p, ?_, hwritten, fun h => hsame fun r hr => ?_⟩
  · simp only [State.withVec, State.withCur, State.convFlags, State.next8, State.setPc]
  · exact (Strand.boundTo_congr (k := t.cur) rfl r true).trans (h r hr)

/-! ### Reduce of R208 -/

/-- A combination leaves the seed of a segment without active elements (R208). -/
def KeepsSeed (comb : Nat → List (Option Nat) → FRes) : Prop :=
  ∀ seed xs, (∀ x ∈ xs, x = none) → comb seed xs = flagless seed

/-- The elements of segment k of the source, an inactive one as none. -/
def Strand.operands (c : Strand) (a : VReg) (n : Nat) (m : MReg) (k : Nat) : List (Option Nat) :=
  (c.segments.getD k []).map fun e => if c.maskBit m e then some (c.elem a n e) else none

/-- The active elements of segment k of the source. -/
def Strand.activeOperands (c : Strand) (a : VReg) (n : Nat) (m : MReg) (k : Nat) : List Nat :=
  ((c.segments.getD k []).filter fun e => c.maskBit m e).map fun e => c.elem a n e

theorem Strand.reduceOption_operands (c : Strand) (a : VReg) (n : Nat) (m : MReg) (k : Nat) :
    (c.operands a n m k).reduceOption = c.activeOperands a n m k := by
  unfold Strand.operands Strand.activeOperands
  induction c.segments.getD k [] with
  | nil => rfl
  | cons e l ih => cases hb : c.maskBit m e <;> simp [hb, ih]

theorem zip_range_eq_map {α : Type} (l : List α) (x : α) :
    (List.range l.length).zip l = (List.range l.length).map fun k => (k, l.getD k x) := by
  refine List.ext_getElem (by simp) fun k hk _ => ?_
  have hlt : k < l.length := by simpa using hk
  simp [hlt]

/-- Each segment gets the combination of its seed with its elements. -/
theorem State.reduce_eq_writeSeeds (t : State) (d a b : VReg) (n w : Nat) (m : MReg) {comb : Nat → List (Option Nat) → FRes}
    (hk : KeepsSeed comb) : t.reduce d a b n w m comb = t.writeSeeds d w
      ((List.range t.cur.segments.length).map fun k => comb (t.cur.elem b w k) (t.cur.operands a n m k)) := by
  unfold State.reduce
  dsimp only
  rw [zip_range_eq_map _ [], List.map_map]
  refine congrArg _ (List.map_congr_left fun k _ => ?_)
  show (if (t.cur.operands a n m k).all Option.isNone = true then _ else comb _ (t.cur.operands a n m k)) = _
  split
  · next h => exact (hk _ _ fun x hx => Option.isNone_iff_eq_none.1 (List.all_eq_true.1 h x hx)).symm
  · rfl

/-- A word of vector mode executes in the frame of every word, and its effect is a reduction. -/
def RunsReduce (i : Instr) (n w : Nat) (m : MReg) (d a b : VReg) (comb : State → Nat → List (Option Nat) → FRes) : Prop :=
  ∀ s, (wordInfo i s.cur).mode = .vector ∧
    exec i s = vecWord (wordInfo i s.cur) s fun t => (t.reduce d a b n w m (comb t)).next8

theorem RunsReduce.writesFront {i : Instr} {n w : Nat} {m : MReg} {d a b : VReg} {comb : State → Nat → List (Option Nat) → FRes}
    {s t : State} (h : RunsReduce i n w m d a b comb) (hw : IsWidth w) (hr : s.Ready i t) (hk : KeepsSeed (comb t)) {res : Nat → FRes}
    (hres : ∀ k, comb t (t.cur.elem b w k) (t.cur.operands a n m k) = res k) :
    t.WritesFront (exec i s) d w t.cur.segments.length (fun k => (res k).bits)
      (((List.range t.cur.segments.length).map fun k => (res k).flags).foldl (· ||| ·) 0) := by
  obtain ⟨hmode, hexec⟩ := h s
  rw [hexec, vecWord_ready hr, t.reduce_eq_writeSeeds d a b n w m hk, funext hres]
  exact t.writeSeeds_writesFront (hr.popped_vectorMode hmode) d hw _ res

theorem runsReduce_redWord {i : Instr} {wide : Bool} {g : Nat → Nat → Nat → Nat} {o : VV}
    (hinfo : ∀ c, wordInfo i c = ireInfo wide o c) (hexec : ∀ s, exec i s = redWord wide g o s) :
    RunsReduce i o.ew.bits (if wide then 2 * o.ew.bits else o.ew.bits) o.m o.d o.a o.b fun _ => foldActive (g o.ew.bits) := fun s =>
  ⟨congrArg WordInfo.mode (hinfo s.cur), by rw [hexec, hinfo]; rfl⟩

theorem runsReduce_fredWord {i : Instr} {comb : (Nat → Nat → FRes) → Nat → List (Option Nat) → FRes} {g : FFun} {o : FVV}
    (hinfo : ∀ c, wordInfo i c = freInfo o c) (hexec : ∀ s, exec i s = fredWord comb g o s) :
    RunsReduce i (vectorFmt o.fmt).width (vectorFmt o.fmt).width o.m o.d o.a o.b
      fun t => comb (g (vectorFmt o.fmt) t.cur.frm) := fun s =>
  ⟨congrArg WordInfo.mode (hinfo s.cur), by rw [hexec, hinfo]; rfl⟩

/-! ### The combinations (R208, R210) -/

theorem reduceOption_eq_nil {xs : List (Option Nat)} (h : ∀ x ∈ xs, x = none) : xs.reduceOption = [] :=
  List.filterMap_eq_nil_iff.2 h

/-- A combination that passes over the inactive elements combines the active ones. -/
theorem foldl_eq_foldl_reduceOption {β : Type} {f : β → Option Nat → β} {g : β → Nat → β} (hnone : ∀ r, f r none = r)
    (hsome : ∀ r x, f r (some x) = g r x) (xs : List (Option Nat)) (r : β) : xs.foldl f r = xs.reduceOption.foldl g r := by
  induction xs generalizing r with
  | nil => rfl
  | cons x xs ih =>
    cases x with
    | none => rw [List.foldl_cons, hnone, List.reduceOption_cons_of_none, ih]
    | some x => rw [List.foldl_cons, hsome, List.reduceOption_cons_of_some, List.foldl_cons, ih]

theorem foldActive_eq (g : Nat → Nat → Nat) (seed : Nat) (xs : List (Option Nat)) :
    foldActive g seed xs = flagless (xs.reduceOption.foldl g seed) :=
  congrArg flagless (foldl_eq_foldl_reduceOption (fun _ => rfl) (fun _ _ => rfl) xs seed)

/-- One step of a floating-point combination: the flags are gathered. -/
def gather (g : Nat → Nat → FRes) (r : FRes) (x : Nat) : FRes :=
  { bits := (g r.bits x).bits, flags := r.flags ||| (g r.bits x).flags }

theorem foldFloat_eq (g : Nat → Nat → FRes) (seed : Nat) (xs : List (Option Nat)) :
    foldFloat g seed xs = xs.reduceOption.foldl (gather g) (flagless seed) :=
  foldl_eq_foldl_reduceOption (fun _ => rfl) (fun _ _ => rfl) xs (flagless seed)

theorem keepsSeed_foldActive (g : Nat → Nat → Nat) : KeepsSeed (foldActive g) := fun seed xs h => by
  rw [foldActive_eq, reduceOption_eq_nil h, List.foldl_nil]

theorem keepsSeed_foldFloat (g : Nat → Nat → FRes) : KeepsSeed (foldFloat g) := fun seed xs h => by
  rw [foldFloat_eq, reduceOption_eq_nil h, List.foldl_nil]

theorem keepsSeed_foldTree (g : Nat → Nat → FRes) : KeepsSeed (foldTree g) := fun seed _ h => foldTree_none g seed h

/-- Two combinations that agree on accumulators and elements in their widths, and keep the accumulator in its width, agree on a list
of elements. -/
theorem foldl_congr_of_lt {n w : Nat} {g f : Nat → Nat → Nat} (hg : ∀ x y, x < 2 ^ w → y < 2 ^ n → g x y = f x y)
    (hf : ∀ x y, x < 2 ^ w → y < 2 ^ n → f x y < 2 ^ w) {seed : Nat} (hseed : seed < 2 ^ w) {xs : List Nat}
    (hxs : ∀ x ∈ xs, x < 2 ^ n) : xs.foldl g seed = xs.foldl f seed := by
  induction xs generalizing seed with
  | nil => rfl
  | cons x xs ih =>
    rw [List.forall_mem_cons] at hxs
    obtain ⟨hx, hxs⟩ := hxs
    rw [List.foldl_cons, List.foldl_cons, hg _ _ hseed hx]
    exact ih (hf _ _ hseed hx) hxs

theorem Strand.activeOperands_lt (c : Strand) (a : VReg) {n : Nat} (m : MReg) (k : Nat) (hn : 8 ∣ n) :
    ∀ x ∈ c.activeOperands a n m k, x < 2 ^ n := by
  intro x hx
  obtain ⟨e, -, rfl⟩ := List.mem_map.1 hx
  exact c.elem_lt a e hn

/-- An integer reduction whose function is f on operands in their widths. -/
theorem RunsReduce.writesFront_int {i : Instr} {n w : Nat} {m : MReg} {d a b : VReg} {g f : Nat → Nat → Nat} {s t : State}
    (h : RunsReduce i n w m d a b fun _ => foldActive g) (hw : IsWidth w) (hn8 : 8 ∣ n) (hw8 : 8 ∣ w) (hr : s.Ready i t)
    (hg : ∀ x y, x < 2 ^ w → y < 2 ^ n → g x y = f x y) (hf : ∀ x y, x < 2 ^ w → y < 2 ^ n → f x y < 2 ^ w) :
    t.WritesFront (exec i s) d w t.cur.segments.length
      (fun k => (t.cur.activeOperands a n m k).foldl f (t.cur.elem b w k)) 0 := by
  have hfront := h.writesFront hw hr (keepsSeed_foldActive g)
    (res := fun k => flagless ((t.cur.activeOperands a n m k).foldl f (t.cur.elem b w k))) fun k => by
      rw [foldActive_eq, t.cur.reduceOption_operands,
        foldl_congr_of_lt hg hf (t.cur.elem_lt b k hw8) (t.cur.activeOperands_lt a m k hn8)]
  rwa [show (fun k => (flagless ((t.cur.activeOperands a n m k).foldl f (t.cur.elem b w k))).flags) = fun _ => 0 from rfl,
    foldl_no_flags] at hfront

end Sys2Proof.Machine
end

section
/-! The scans (R212); and O25, assembled from them and from the reductions. -/

namespace Sys2Proof.Machine

/-! ### The running values of a segment -/

/-- The seed with a list of elements added in order: the last sum, with its flags. -/
def runningSum (g : Nat → Nat → FRes) (seed : Nat) (xs : List Nat) : FRes := xs.foldl (fun r x => g r.bits x) (flagless seed)

/-- The flags of a sum are those of its last addition. -/
theorem runningSum_cons (g : Nat → Nat → FRes) (seed x : Nat) {xs : List Nat} (h : xs ≠ []) :
    runningSum g seed (x :: xs) = runningSum g (g seed x).bits xs := by
  cases xs with
  | nil => exact absurd rfl h
  | cons y xs => rfl

/-- Each active element of an ascending list gets the seed with the active elements up to it. -/
theorem scanSeg_eq_map (g : Nat → Nat → FRes) (act : Nat → Bool) (x : Nat → Nat) (seed : Nat) {l : List Nat}
    (hl : l.Pairwise (· < ·)) : scanSeg g act x seed l =
      (l.filter act).map fun e => (e, runningSum g seed ((l.filter fun j => act j && decide (j ≤ e)).map x)) := by
  induction l generalizing seed with
  | nil => rfl
  | cons e l ih =>
    obtain ⟨hlt, hl⟩ := List.pairwise_cons.1 hl
    unfold scanSeg
    cases hact : act e with
    | false => simp [hact, ih seed hl]
    | true =>
      have hfirst : ((e :: l).filter fun j => act j && decide (j ≤ e)) = [e] := by
        rw [List.filter_cons_of_pos (by simp [hact]), List.filter_eq_nil_iff.2 fun j hj => ?_]
        simp [Nat.not_le.2 (hlt j hj)]
      rw [if_pos rfl, List.filter_cons_of_pos hact, List.map_cons, hfirst]
      refine congrArg _ ((ih _ hl).trans (List.map_congr_left fun j hj => ?_))
      obtain ⟨hjl, hjact⟩ := List.mem_filter.1 hj
      have hle : e ≤ j := (hlt j hjl).le
      have hsome : j ∈ l.filter fun k => act k && decide (k ≤ j) := List.mem_filter.2 ⟨hjl, by simp [hjact]⟩
      rw [List.filter_cons_of_pos (by simp [hact, hle]), List.map_cons, runningSum_cons]
      exact fun hnil => List.ne_nil_of_mem hsome (List.map_eq_nil_iff.1 hnil)

/-! ### The segment of an element (R207) -/

/-- The segment in which an element of the strip stands. -/
def Strand.segmentOf (c : Strand) (e : Nat) : Nat :=
  ((List.range c.segments.length).find? fun k => (c.segments.getD k []).contains e).getD 0

theorem Strand.segments_flatten {c : Strand} (h : 0 < c.vec.vl) : c.segments.flatten = List.range c.vec.vl :=
  (c.segments_divides h).flatten.trans List.range_eq_range'.symm

/-- The segments ascend, each in itself and each before the next. -/
theorem Strand.segments_ascend {c : Strand} (h : 0 < c.vec.vl) : (∀ l ∈ c.segments, l.Pairwise (· < ·)) ∧
    c.segments.Pairwise fun l k => ∀ x ∈ l, ∀ y ∈ k, x < y := by
  rw [← List.pairwise_flatten, Strand.segments_flatten h]
  exact List.pairwise_lt_range

theorem Strand.segmentOf_eq {c : Strand} (h : 0 < c.vec.vl) {k e : Nat} (hk : k < c.segments.length) (he : e ∈ c.segments.getD k []) :
    c.segmentOf e = k := by
  have hfind : (List.range c.segments.length).find? (fun k => (c.segments.getD k []).contains e) = some k := by
    refine List.find?_range_eq_some.2 ⟨by simpa using he, List.mem_range.2 hk, fun j hj => ?_⟩
    have hbefore := List.pairwise_iff_getElem.1 (Strand.segments_ascend h).2 j k (hj.trans hk) hk hj
    simp only [List.getD_eq_getElem _ _ hk, List.getD_eq_getElem _ _ (hj.trans hk)] at he ⊢
    simp only [List.contains_eq_mem, Bool.not_eq_true', decide_eq_false_iff_not]
    exact fun hin => absurd (hbefore e hin e he) (lt_irrefl e)
  rw [Strand.segmentOf, hfind]
  rfl

/-! ### The effect of a scan -/

/-- The sum, in the segment of element e, of the seed and the active elements up to e. -/
def Strand.scanned (c : Strand) (a b : VReg) (n : Nat) (m : MReg) (g : Nat → Nat → FRes) (e : Nat) : FRes :=
  runningSum g (c.elem b n (c.segmentOf e))
    (((c.segments.getD (c.segmentOf e) []).filter fun j => c.maskBit m j && decide (j ≤ e)).map fun j => c.elem a n j)

/-- The segments one after another give the active elements of the strip. -/
theorem Strand.scanSegs_eq_map {c : Strand} (h : 0 < c.vec.vl) (hm : c.vec.mmode = false) (a b : VReg) (n : Nat) (m : MReg)
    (g : Nat → Nat → FRes) :
    (((List.range c.segments.length).zip c.segments).flatMap fun k =>
      scanSeg g (c.maskBit m) (c.elem a n) (c.elem b n k.1) k.2) = (c.activesFrom0 m).map fun e => (e, c.scanned a b n m g e) := by
  have hbody : c.body = (List.range c.segments.length).flatMap fun k => c.segments.getD k [] := by
    rw [Strand.body, hm, if_neg Bool.false_ne_true, ← Strand.segments_flatten h, List.flatMap_def]
    congr 1
    exact List.ext_getElem (by simp) fun k hk _ => by simp [hk]
  rw [zip_range_eq_map _ [], List.flatMap_map, Strand.activesFrom0, hbody, List.filter_flatMap, List.map_flatMap]
  refine List.flatMap_congr fun k hk => ?_
  have hlt := List.mem_range.1 hk
  have hmem : c.segments.getD k [] ∈ c.segments := by
    rw [List.getD_eq_getElem _ _ hlt]
    exact List.getElem_mem hlt
  rw [scanSeg_eq_map g _ _ _ ((Strand.segments_ascend h).1 _ hmem)]
  refine List.map_congr_left fun e he => ?_
  rw [Strand.scanned, Strand.segmentOf_eq h hlt (List.mem_filter.1 he).1]

/-- No element is both active and masked off. -/
theorem Strand.not_mem_maskedOff0 {c : Strand} {m : MReg} {e : Nat} (h : e ∈ c.activesFrom0 m) : e ∉ c.maskedOff0 m := by
  have hon := (List.mem_filter.1 h).2
  exact fun hoff => by simpa [hon] using (List.mem_filter.1 hoff).2

theorem State.scan_writesVector (t : State) (hvl : 0 < t.cur.vec.vl) (hm : t.cur.vec.mmode = false) (d a b : VReg) {n : Nat}
    (hn : IsWidth n) (m : MReg) (g : Nat → Nat → FRes) :
    t.WritesVector (.next (t.scan d a b n m g).next8) d n (t.cur.activesFrom0 m) (t.cur.maskedOff0 m)
      (fun e => (t.cur.scanned a b n m g e).bits)
      (((t.cur.activesFrom0 m).map fun e => (t.cur.scanned a b n m g e).flags).foldl (· ||| ·) 0) false := by
  have hwrite := t.writeVec_writesVector d hn (t.cur.activesFrom0 m) (t.cur.maskedOff0 m)
    (fun e => (t.cur.scanned a b n m g e).bits)
    (((t.cur.activesFrom0 m).map fun e => (t.cur.scanned a b n m g e).flags).foldl (· ||| ·) 0) false
    (fun e he => (List.mem_filter.1 he).1) (fun e he => (List.mem_filter.1 he).1) fun _ e he => Strand.not_mem_maskedOff0 he
  rw [State.convSat_false, List.foldl_map] at hwrite
  unfold State.scan
  dsimp only
  rw [if_neg (by omega), Strand.scanSegs_eq_map hvl hm, List.map_map, List.foldl_map, List.foldl_map]
  exact hwrite

/-- A word of vector mode executes in the frame of every word, and its effect is a scan. -/
def RunsScan (i : Instr) (n : Nat) (m : MReg) (d a b : VReg) (g : State → Nat → Nat → FRes) : Prop :=
  ∀ s, (wordInfo i s.cur).mode = .vector ∧ exec i s = vecWord (wordInfo i s.cur) s fun t => (t.scan d a b n m (g t)).next8

theorem RunsScan.onlyVstart {i : Instr} {n : Nat} {m : MReg} {d a b : VReg} {g : State → Nat → Nat → FRes} {s t : State}
    (h : RunsScan i n m d a b g) (hr : s.Ready i t) (hvl : t.cur.vec.vl = 0) : t.OnlyVstart (exec i s) := by
  rw [(h s).2, vecWord_ready hr, State.scan]
  exact congrArg (fun u : State => Host.Outcome.next u.next8) (if_pos hvl)

theorem RunsScan.writesVector {i : Instr} {n : Nat} {m : MReg} {d a b : VReg} {g : State → Nat → Nat → FRes} {s t : State}
    (h : RunsScan i n m d a b g) (hn : IsWidth n) (hr : s.Ready i t) (hvl : 0 < t.cur.vec.vl) :
    t.WritesVector (exec i s) d n (t.cur.activesFrom0 m) (t.cur.maskedOff0 m) (fun e => (t.cur.scanned a b n m (g t) e).bits)
      (((t.cur.activesFrom0 m).map fun e => (t.cur.scanned a b n m (g t) e).flags).foldl (· ||| ·) 0) false := by
  obtain ⟨hmode, hexec⟩ := h s
  rw [hexec, vecWord_ready hr]
  exact t.scan_writesVector hvl (hr.popped_vectorMode hmode) d a b hn m (g t)

/-! ### Integer sums -/

/-- Addition modulo 2ⁿ, which raises no flag. -/
def addMod (n x y : Nat) : FRes := flagless ((x + y) % 2 ^ n)

theorem runningSum_addMod_flags (n seed : Nat) (xs : List Nat) : (runningSum (addMod n) seed xs).flags = 0 := by
  have hkeep (r : FRes) (hr : r.flags = 0) : (xs.foldl (fun r x => addMod n r.bits x) r).flags = 0 := by
    induction xs generalizing r with
    | nil => exact hr
    | cons x xs ih => exact ih _ rfl
  exact hkeep _ rfl

theorem runningSum_addMod_bits (n seed : Nat) (xs : List Nat) :
    (runningSum (addMod n) seed xs).bits % 2 ^ n = (seed + xs.sum) % 2 ^ n := by
  have hsum (r : FRes) : (xs.foldl (fun r x => addMod n r.bits x) r).bits % 2 ^ n = (r.bits + xs.sum) % 2 ^ n := by
    induction xs generalizing r with
    | nil => rfl
    | cons x xs ih =>
      rw [List.foldl_cons, ih, List.sum_cons, ← Nat.add_assoc]
      exact Nat.mod_add_mod _ _ _
  exact hsum _

theorem RunsScan.acrossElements {i : Instr} {n : Nat} {m : MReg} {d a b : VReg} {s t : State}
    (h : RunsScan i n m d a b fun _ => addMod n) (hn : IsWidth n) (hr : s.Ready i t) :
    t.AcrossElements (exec i s) d n m fun e => t.cur.elem b n (t.cur.segmentOf e) +
      (((t.cur.segments.getD (t.cur.segmentOf e) []).filter fun j => t.cur.maskBit m j && decide (j ≤ e)).map fun j =>
        t.cur.elem a n j).sum := by
  have hsum : t.AcrossElements (exec i s) d n m fun e => (t.cur.scanned a b n m (addMod n) e).bits := by
    refine ⟨h.onlyVstart hr, fun hvl => ?_⟩
    have hwrite := h.writesVector hn hr hvl
    rwa [show (fun e => (t.cur.scanned a b n m (addMod n) e).flags) = fun _ => 0 from
      funext fun e => runningSum_addMod_flags _ _ _, foldl_no_flags] at hwrite
  exact hsum.congr fun e => runningSum_addMod_bits _ _ _

/-! ### The obligation -/

/-- Settles O25: the reductions in their order, VFREDSUM by its tree, and the scans by the running values of their segments. -/
theorem reductionAndScanResults : Obligations.ReductionAndScanResults := by
  unfold Obligations.ReductionAndScanResults
  refine ⟨fun s t => ?reductions, fun s t => ?scans⟩
  case reductions =>
    intro md segs acts ints ordered floats
    have hbits8 (ew : EW) : 8 ∣ ew.bits := VKind.plain.eight_dvd_aw ew
    refine ⟨?ints, ?ordered, fun o => ?tree⟩
    case ints =>
      have hplain (c : VV → Instr) (g : Nat → Nat → Nat → Nat) (o : VV) {f : Nat → Nat → Nat}
          (hinfo : ∀ k, wordInfo (c o) k = ireInfo false o k) (hexec : ∀ s, exec (c o) s = redWord false g o s)
          (hg : ∀ x y, x < 2 ^ o.ew.bits → y < 2 ^ o.ew.bits → g o.ew.bits x y = f x y)
          (hf : ∀ x y, x < 2 ^ o.ew.bits → y < 2 ^ o.ew.bits → f x y < 2 ^ o.ew.bits)
          (_ : (c o).WellFormed) (hr : s.Ready (c o) t) :
          t.WritesFront (exec (c o) s) o.d (1 * o.ew.bits) segs.length (fun k =>
            ((acts o.m (segs.getD k [])).map fun e => t.cur.elem o.a o.ew.bits e).foldl f (t.cur.elem o.b (1 * o.ew.bits) k)) 0 := by
        rw [Nat.one_mul]
        exact (runsReduce_redWord hinfo hexec).writesFront_int (isWidth_bits o.ew) (hbits8 _) (hbits8 _) hr hg hf
      simp only [ints, List.forall_mem_cons]
      refine ⟨fun o => hplain .vredsum (fun n x y => (x + y) % 2 ^ n) o (fun _ => rfl) (fun _ => rfl) (fun x y _ _ => ?sum)
          fun _ _ _ _ => BitVec.isLt _,
        fun o => hplain .vredmin (fun n x y => if signed n y < signed n x then y else x) o (fun _ => rfl) (fun _ => rfl)
          (fun x y hx hy => ?min) fun _ _ _ _ => BitVec.isLt _,
        fun o => hplain .vredmax (fun n x y => if signed n x < signed n y then y else x) o (fun _ => rfl) (fun _ => rfl)
          (fun x y hx hy => ?max) fun _ _ _ _ => BitVec.isLt _,
        fun o => hplain .vredand (fun _ x y => x &&& y) o (fun _ => rfl) (fun _ => rfl) (fun _ _ _ _ => rfl)
          fun _ _ _ hy => Nat.and_lt_two_pow _ hy,
        fun o => hplain .vredor (fun _ x y => x ||| y) o (fun _ => rfl) (fun _ => rfl) (fun _ _ _ _ => rfl)
          fun _ _ hx hy => Nat.or_lt_two_pow hx hy,
        fun o => hplain .vredxor (fun _ x y => x ^^^ y) o (fun _ => rfl) (fun _ => rfl) (fun _ _ _ _ => rfl)
          fun _ _ hx hy => Nat.xor_lt_two_pow hx hy,
        fun o hwf hr => ?wide, nofun⟩
      case sum => exact (nval_natCast _ (x + y)).symm
      case min => simp only [signed_eq_sval (bits_pos o.ew), ite_lt_eq_nval_min hx hy]
      case max => simp only [signed_eq_sval (bits_pos o.ew), ite_lt_eq_nval_max hx hy]
      case wide =>
        have hrun := runsReduce_redWord (i := .vwredsum o) (wide := true) (g := fun n x y => wrapTo (2 * n) ((x : Int) + signed n y))
          (fun _ => rfl) fun _ => rfl
        exact hrun.writesFront_int (VKind.isWidth_dw (k := .wide) hwf) (hbits8 _) ((hbits8 o.ew).mul_left 2) hr
          (fun x y _ _ => by rw [wrapTo_eq_nval, signed_eq_sval (bits_pos o.ew)]) fun _ _ _ _ => BitVec.isLt _
    case ordered =>
      have hfold (c : FVV → Instr) (g : FFun) (o : FVV)
          (hinfo : ∀ k, wordInfo (c o) k = freInfo o k) (hexec : ∀ s, exec (c o) s = fredWord foldFloat g o s) :
          floats (c o) o fun seed xs => xs.foldl (gather (g (vectorFmt o.fmt) md)) (flagless seed) := fun _ hr =>
        (runsReduce_fredWord hinfo hexec).writesFront (isWidth_vectorFmt o.fmt) hr (keepsSeed_foldFloat _) fun k => by
          rw [foldFloat_eq, t.cur.reduceOption_operands]
          rfl
      simp only [ordered, List.forall_mem_cons]
      exact ⟨fun o => hfold .vfredosum fAdd o (fun _ => rfl) fun _ => rfl, fun o => hfold .vfredmin vfMin o (fun _ => rfl) fun _ => rfl,
        fun o => hfold .vfredmax vfMax o (fun _ => rfl) fun _ => rfl, nofun⟩
    case tree =>
      intro f _ hr
      have hrun := runsReduce_fredWord (i := .vfredsum o) (comb := foldTree) (g := fAdd) (fun _ => rfl) fun _ => rfl
      refine ⟨_, hrun.writesFront (isWidth_vectorFmt o.fmt) hr (keepsSeed_foldTree _) fun k => rfl, fun k _ => ?_⟩
      intro seed xs
      refine ⟨foldTree_none _ _, fun x hx => ?_, fun n u hn hu => foldTree_treeSum _ hn hu⟩
      exact (congrArg (foldTree (fAdd f md) seed) hx).trans (foldTree_singleton _ seed x)
  case scans =>
    intro md segOf upTo
    refine ⟨fun o hr => ?vscan, fun o hr => ?vfscan⟩
    case vscan =>
      have hrun : RunsScan (.vscan o) o.ew.bits o.m o.d o.a o.b fun _ => addMod o.ew.bits := fun _ => ⟨rfl, rfl⟩
      exact hrun.acrossElements (isWidth_bits o.ew) hr
    case vfscan =>
      intro f res
      have hrun : RunsScan (.vfscan o) f.width o.m o.d o.a o.b fun t => fAdd f t.cur.frm := fun _ => ⟨rfl, rfl⟩
      exact ⟨hrun.onlyVstart hr, hrun.writesVector (isWidth_vectorFmt o.fmt) hr⟩

end Sys2Proof.Machine
end

section
/-!
### The canonical form under the operations of the state (log 1)

O57 goes along the model's own structure: for each function on states one lemma, named after the function (`State.Canonical.f`, or
`f_canonical` where `f` is not a function of `State`), that its result is canonical where its argument is. A lemma splits the
function where it branches and cites, along each branch, the lemmas of the functions it calls. They stand in the order of the
model. Only the few functions that write a memory themselves use that `Memory` and `SMap` keep their form.
-/

-- Without it each of the many short lemmas is checked in a thread with a stack of its own, and the memory for these adds up.
set_option Elab.async false

namespace Sys2Proof.Machine

/-- Whatever state a result goes on to is canonical. -/
def CanonicalOut (o : Out) : Prop := ∀ t, o = .next t → t.Canonical

/-- The state of a result that is no error is canonical. -/
def CanonicalOk {ε : Type} (r : Except ε State) : Prop := ∀ t, r = .ok t → t.Canonical

/-- The state of a result, where it has one, is canonical. -/
def CanonicalSome (r : Option State) : Prop := ∀ t, r = some t → t.Canonical

theorem CanonicalOut.next {s : State} (h : s.Canonical) : CanonicalOut (.next s) :=
  fun _ e => Host.Outcome.next.inj e ▸ h

theorem CanonicalOut.fault {x : Fault} : CanonicalOut (.fault x) := by
  intro _ e
  cases e

theorem CanonicalOut.refused {x : Refusal} : CanonicalOut (.refused x) := by
  intro _ e
  cases e

theorem CanonicalOk.ok {ε : Type} {s : State} (h : s.Canonical) : CanonicalOk (.ok s : Except ε State) :=
  fun _ e => Except.ok.inj e ▸ h

theorem CanonicalOk.error {ε : Type} {x : ε} : CanonicalOk (.error x) := by
  intro _ e
  cases e

theorem CanonicalSome.some {s : State} (h : s.Canonical) :
    CanonicalSome (.some s) := fun _ e => Option.some.inj e ▸ h

theorem CanonicalSome.none : CanonicalSome .none := by
  intro _ e
  cases e

/-- The state of a result that is a value and a state. -/
theorem State.Canonical.right {α : Type} {r : α × State} {a : α} {t : State} (h : r.2.Canonical) (e : r = (a, t)) :
    t.Canonical := by
  subst e
  exact h

theorem State.Canonical.left {α : Type} {r : State × α} {a : α} {t : State} (h : r.1.Canonical) (e : r = (t, a)) :
    t.Canonical := by
  subst e
  exact h

/-- A fold keeps the canonical form where each of its steps does. -/
theorem State.Canonical.foldl {α : Type} {s : State} {f : State → α → State} {l : List α} (h : s.Canonical)
    (hf : ∀ t a, t.Canonical → (f t a).Canonical) : (l.foldl f s).Canonical := by
  induction l generalizing s with
  | nil => exact h
  | cons a l ih => exact ih (hf s a h)

theorem State.Canonical.right2 {α β : Type} {r : α × β × State} {a : α} {b : β} {t : State} (h : r.2.2.Canonical)
    (e : r = (a, b, t)) : t.Canonical := by
  subst e
  exact h

/-- Whatever else of a state changes, its memories are as before. -/
theorem State.Canonical.same {s : State}
    {cur others parked saved agenda free planes tlb cores parts hwq launches nextLaunch pending
      reservations rr groups sessions outbox submits strays tables module} (h : s.Canonical) :
    State.Canonical { s with
      cur := cur, others := others, parked := parked, saved := saved, agenda := agenda, free := free, planes := planes
      tlb := tlb
      cores := cores, parts := parts, hwq := hwq, launches := launches, nextLaunch := nextLaunch, pending := pending
      reservations := reservations, rr := rr, groups := groups, sessions := sessions, outbox := outbox, submits := submits
      strays := strays, tables := tables, module := module } := h

theorem State.Canonical.withMem {s : State} {mem} (h : s.Canonical) (hm : mem.wf = true) :
    State.Canonical { s with mem := mem } :=
  ⟨hm, h.2⟩

theorem State.Canonical.ite {p : Prop} [Decidable p] {s t : State} (hs : s.Canonical) (ht : t.Canonical) :
    (if p then s else t).Canonical := by
  split
  · exact hs
  · exact ht

/-- A canonical memory after writes in a row. -/
theorem Memory.wf_foldl_writeLE {α : Type} {m : Memory} (h : m.wf = true) (l : List α) (a n v : α → Nat) :
    (l.foldl (fun (m : Memory) i => m.writeLE (a i) (n i) (v i)) m).wf = true :=
  List.foldlRecOn (motive := fun m : Memory => m.wf = true) _ _ h fun _ hm _ _ => Memory.wf_writeLE _ _ _ hm

theorem setKeys_wf {keys : SMap Nat} {a n key : Nat} (h : SMap.wf 0 keys = true) :
    SMap.wf 0 (setKeys keys a n key) = true :=
  SMap.wf_setRange _ _ h

theorem State.Canonical.withMemKeys {s : State} {mem keys} (h : s.Canonical) (hm : mem.wf = true)
    (hk : SMap.wf 0 keys = true) :
    State.Canonical { s with mem := mem, keys := keys } := ⟨hm, h.2.1, h.2.2.1, hk⟩

variable {s : State}

theorem State.Canonical.withCur {c} (h : s.Canonical) : (s.withCur c).Canonical := h.same

theorem State.Canonical.setX {r v} (h : s.Canonical) : (s.setX r v).Canonical := h.withCur

theorem State.Canonical.setPc {v} (h : s.Canonical) : (s.setPc v).Canonical := h.withCur

theorem State.Canonical.next4 (h : s.Canonical) : s.next4.Canonical := h.setPc

theorem State.Canonical.next8 (h : s.Canonical) : s.next8.Canonical := h.setPc

theorem State.Canonical.withVec {v} (h : s.Canonical) : (s.withVec v).Canonical := h.withCur

theorem State.Canonical.raise {f} (h : s.Canonical) : (s.raise f).Canonical := h.withCur

theorem State.Canonical.takeFree (h : s.Canonical) : s.takeFree.2.Canonical := h.same

theorem State.Canonical.shuffle {α : Type} {l : List α} (h : s.Canonical) : (s.shuffle l).2.Canonical := by
  rw [(s.shuffle_spec l).2]
  exact h.same

theorem State.Canonical.countOn {core ev n} (h : s.Canonical) : (s.countOn core ev n).Canonical := h.same

theorem State.Canonical.stir {core evs} (h : s.Canonical) : (s.stir core evs).Canonical := h.same

theorem State.Canonical.settleCounter {core i} (h : s.Canonical) : (s.settleCounter core i).Canonical := by
  unfold State.settleCounter
  dsimp only
  split
  · exact h.takeFree.same
  · exact h

theorem State.Canonical.count {ev n} (h : s.Canonical) : (s.count ev n).Canonical := h.countOn

theorem State.Canonical.mapPart {p f} (h : s.Canonical) : (s.mapPart p f).Canonical := h.same

theorem State.Canonical.partEvent {p e} (h : s.Canonical) : (s.partEvent p e).Canonical := h.mapPart

theorem State.Canonical.send {m} (h : s.Canonical) : (s.send m).Canonical := h.same

theorem State.Canonical.respond {session verb seq status payload} (h : s.Canonical) :
    (s.respond session verb seq status payload).Canonical :=
  h.send

theorem State.Canonical.hostEvent {session e part} (h : s.Canonical) : (s.hostEvent session e part).Canonical := by
  unfold State.hostEvent
  split
  · exact h
  · exact h.send

theorem State.Canonical.fillTlb {t} (h : s.Canonical) : (s.fillTlb t).Canonical := by
  unfold State.fillTlb
  dsimp only
  split
  · exact h.same
  · split <;> exact h.takeFree.same

theorem State.Canonical.findLeaf {v va} (h : s.Canonical) : (s.findLeaf v va).2.Canonical := by
  unfold State.findLeaf
  dsimp only
  split
  · exact h
  · split
    · split
      · exact h.fillTlb
      · exact h
    · split
      · split
        · exact h
        · split <;> exact h.takeFree
      · split
        · exact h
        · split <;> exact h.takeFree

theorem State.Canonical.leafOf {v lvl va} (h : s.Canonical) : (s.leafOf v lvl va).2.Canonical := by
  unfold State.leafOf
  split
  · exact h
  · split <;> exact h.findLeaf.right ‹_›

theorem State.Canonical.translate {v lvl va n bounce} (h : s.Canonical) : (s.translate v lvl va n bounce).2.Canonical := by
  unfold State.translate
  split <;> exact h.leafOf.right ‹_›

theorem State.Canonical.touchLeaf {v l n} (h : s.Canonical) : (s.touchLeaf v l n).Canonical := by
  unfold State.touchLeaf
  split
  · exact h
  · obtain ⟨hmem, hrest⟩ := h
    refine ⟨?_, hrest⟩
    dsimp only
    split
    · exact hmem
    · exact Memory.wf_writeLE _ _ _ hmem

theorem State.Canonical.touch {v x n} (h : s.Canonical) : (s.touch v x n).Canonical := by
  unfold State.touch
  split
  · exact h
  · exact h.touchLeaf

theorem State.Canonical.writePlace {p n v} (h : s.Canonical) : (s.writePlace p n v).Canonical := by
  obtain ⟨hmem, hhost, hlarder, hkeys⟩ := h
  unfold State.writePlace
  split
  · exact ⟨hmem, Memory.wf_writeLE _ _ _ hhost, hlarder, hkeys⟩
  · exact ⟨Memory.wf_writeLE _ _ _ hmem, hhost, hlarder, SMap.wf_setRange _ _ hkeys⟩

theorem State.Canonical.bell {part va n} (h : s.Canonical) : (s.bell part va n).Canonical := by
  unfold State.bell
  dsimp only
  split
  · exact h
  · split
    · split
      · split <;> exact h.same
      · split
        · exact h.same
        · exact h
    · exact h

theorem State.Canonical.storeAt {u va x n v} (h : s.Canonical) : (s.storeAt u va x n v).Canonical := h.touch.writePlace.bell

theorem State.Canonical.noteWatch {va n rd wr} (h : s.Canonical) : (s.noteWatch va n rd wr).Canonical := by
  unfold State.noteWatch
  dsimp only
  split
  · exact h.withCur
  · exact h

theorem State.Canonical.setQword {q off v} (h : s.Canonical) : (s.setQword q off v).Canonical := by
  unfold State.setQword
  split
  · exact (h.translate.right ‹_›).touch.writePlace
  · exact h.translate.right ‹_›

theorem State.Canonical.mapHwq {q f} (h : s.Canonical) : (s.mapHwq q f).Canonical := h.same

theorem State.Canonical.haltQueue {q tag step code idx} (h : s.Canonical) : (s.haltQueue q tag step code idx).Canonical :=
  h.mapHwq.setQword.setQword.setQword.partEvent

theorem State.Canonical.retirePacket {q idx} (h : s.Canonical) : (s.retirePacket q idx).Canonical := by
  unfold State.retirePacket
  dsimp only
  split
  · exact h.mapHwq
  · exact h.mapHwq.setQword

theorem State.Canonical.landingRead {part va n} (h : s.Canonical) : (s.landingRead part va n).2.Canonical := by
  unfold State.landingRead
  split
  · exact h
  · split
    · exact h.translate.right ‹_›
    · exact (h.translate.right ‹_›).touch

theorem State.Canonical.landingStore {part va v} (h : s.Canonical) : CanonicalOk (s.landingStore part va v) := by
  unfold State.landingStore
  split
  · exact .error
  · split
    · exact .error
    · exact .ok (h.translate.right ‹_›).storeAt

theorem State.Canonical.landingAdd {part va v} (h : s.Canonical) : CanonicalOk (s.landingAdd part va v) := by
  unfold State.landingAdd
  dsimp only
  split
  · exact .error
  · split
    · exact .error
    · exact .ok (h.translate.right ‹_›).touch.writePlace.bell

theorem State.Canonical.doSignal {part g} (h : s.Canonical) : CanonicalOk (s.doSignal part g) := by
  unfold State.doSignal
  split
  · exact .ok h
  · split
    · exact h.landingStore
    · exact h.landingAdd

theorem State.Canonical.retireEvent {q tag idx} (h : s.Canonical) : (s.retireEvent q tag idx).Canonical := h.partEvent

theorem State.Canonical.trySignal {q g} (h : s.Canonical) : CanonicalOk (s.trySignal q g) := by
  unfold State.trySignal
  split
  · exact .error
  · exact h.doSignal

theorem State.Canonical.signalLaunch {q g} (h : s.Canonical) : (s.signalLaunch q g).Canonical := by
  unfold State.signalLaunch
  dsimp only
  split
  · exact h
  · split
    · dsimp only
      split
      · exact (h.trySignal _ ‹_›).mapHwq.retirePacket.retireEvent
      · exact (h.trySignal _ ‹_›).mapHwq.retirePacket
    · dsimp only
      split
      · exact h.mapHwq.retirePacket.retireEvent.haltQueue
      · exact h.mapHwq.retirePacket.haltQueue

theorem State.Canonical.releaseSignals {q gs} (h : s.Canonical) : (s.releaseSignals q gs).Canonical := by
  induction gs generalizing s with
  | nil => exact h
  | cons g gs ih =>
    refine ih ?_
    split
    · exact h.signalLaunch
    · exact h

theorem State.Canonical.releaseHeld {q} (h : s.Canonical) : (s.releaseHeld q).Canonical := by
  unfold State.releaseHeld
  split
  · exact h
  · exact h.releaseSignals

theorem State.Canonical.mapStrands {f} (h : s.Canonical) : (s.mapStrands f).Canonical := h.same

theorem State.Canonical.dropTlb {part hits} (h : s.Canonical) : (s.dropTlb part hits).Canonical := h.mapStrands.same

theorem State.Canonical.freeGang {l} (h : s.Canonical) : (s.freeGang l).Canonical := h.mapStrands.same

theorem State.Canonical.stray {gone} (h : s.Canonical) : (s.stray gone).Canonical := h.same

theorem State.Canonical.finishEnd {l} (h : s.Canonical) : (s.finishEnd l).Canonical := by
  unfold State.finishEnd
  dsimp only
  split
  · exact h
  · split
    · exact h
    · split
      · exact h
      · split
        · split
          · exact h.same.mapHwq.retirePacket.partEvent.hostEvent.releaseHeld
          · exact h.same.mapHwq.retirePacket.haltQueue.partEvent.hostEvent.releaseHeld
        · exact h.same.mapHwq.retirePacket.partEvent.hostEvent.releaseHeld

theorem State.Canonical.endLaunch {l who e} (h : s.Canonical) : (s.endLaunch l who e).Canonical :=
  h.stray.mapStrands.same.finishEnd

theorem State.Canonical.endTask {cause tpc tval} (h : s.Canonical) : (s.endTask cause tpc tval).Canonical := by
  unfold State.endTask
  dsimp only
  split
  · exact h.withCur
  · exact h.endLaunch

theorem writePages_wf {m : Memory} {pa : Nat} {ps : List (Nat × Need)} (h : m.wf = true) :
    (writePages m pa ps).wf = true := by
  induction ps generalizing m pa with
  | nil => exact h
  | cons p ps ih => exact ih (Memory.wf_writeLE _ _ _ h)

theorem State.Canonical.listPages {ps} (h : s.Canonical) : (s.listPages ps).Canonical := by
  unfold State.listPages
  split
  · exact h
  · exact (h.withMem (writePages_wf h.1)).same

theorem State.Canonical.countTrap {c} (h : s.Canonical) : (s.countTrap c).Canonical := by
  unfold State.countTrap
  split
  · exact h.count.count
  · exact h.count

theorem State.Canonical.escalate {t} (h : s.Canonical) : (s.escalate t).Canonical := by
  unfold State.escalate
  dsimp only
  split
  · exact h.partEvent.endTask
  · exact h.partEvent.withCur

theorem State.Canonical.takeTrap {t} (h : s.Canonical) : (s.takeTrap t).Canonical := by
  unfold State.takeTrap
  dsimp only
  split
  · exact h.countTrap.withCur
  · split
    · exact h.countTrap.escalate.withCur
    · exact h.countTrap.listPages.withCur

theorem State.Canonical.raisePreempt {t} (h : s.Canonical) : (s.raisePreempt t).Canonical := h.withCur.count.takeTrap

theorem State.Canonical.trap {c tval} (h : s.Canonical) : (s.trap c tval).Canonical := h.takeTrap

theorem State.Canonical.trapReturn {lvl slot rk} (h : s.Canonical) : (s.trapReturn lvl slot rk).Canonical := by
  unfold State.trapReturn
  dsimp only
  split
  · exact h.withCur
  · exact h.withCur
  · exact h.withCur
  · split
    · exact h.withCur
    · split <;> exact h.withCur

theorem State.Canonical.vectorSwitch (h : s.Canonical) : s.vectorSwitch.Canonical := h.same

theorem State.Canonical.vownerTrap (h : s.Canonical) : s.vownerTrap.Canonical := by
  unfold State.vownerTrap
  split
  · exact h.vectorSwitch
  · exact h.trap

theorem State.Canonical.decodeTrap {c} (h : s.Canonical) : (s.decodeTrap c).Canonical := by
  unfold State.decodeTrap
  split
  · exact h.vownerTrap
  · exact h.trap

theorem State.Canonical.larderPut {a n v} (h : s.Canonical) : (s.larderPut a n v).Canonical := by
  obtain ⟨hmem, hhost, hlarder, hkeys⟩ := h
  exact ⟨hmem, hhost, Memory.wf_writeLE _ _ _ hlarder, hkeys⟩

theorem State.Canonical.streamLeaf {t va} (h : s.Canonical) : (s.streamLeaf t va).2.2.Canonical := by
  unfold State.streamLeaf
  cases t.leaves.find? fun e => e.1 = granule va with
  | some l => exact h
  | none =>
    have hleaf := h.leafOf (v := s.cur.via) (lvl := s.cur.level) (va := granule va)
    generalize s.leafOf s.cur.via s.cur.level (granule va) = r at hleaf
    obtain ⟨_ | _ | _, _⟩ := r <;> exact hleaf

theorem State.Canonical.streamPlace {t k n} (h : s.Canonical) : (s.streamPlace t k n).2.2.Canonical := by
  unfold State.streamPlace
  dsimp only
  split
  · exact h
  · split
    · split <;> exact h
    · split
      · exact h
      · split
        · exact h.streamLeaf.right2 ‹_›
        · split <;> exact h.streamLeaf.right2 ‹_›

theorem State.Canonical.streamRead {t k} (h : s.Canonical) : (s.streamRead t k).2.2.Canonical := by
  unfold State.streamRead
  split
  · exact h.streamPlace.right2 ‹_›
  · exact h.streamPlace.right2 ‹_›
  · exact (h.streamPlace.right2 ‹_›).touch

theorem State.Canonical.streamFetch {t n} (h : s.Canonical) : (s.streamFetch t n).2.Canonical := by
  induction n generalizing s t with
  | zero => exact h
  | succ n ih =>
    unfold State.streamFetch
    dsimp only
    split
    · exact h
    · split
      · exact h.streamRead.right2 ‹_›
      · exact h.streamRead.right2 ‹_›
      · exact ih (h.streamRead.right2 ‹_›)

theorem State.Canonical.setStream {i t} (h : s.Canonical) : (s.setStream i t).Canonical := h.withVec

theorem State.Canonical.popTrap {i t c} (h : s.Canonical) : (s.popTrap i t c).2.Canonical := h.setStream

theorem State.Canonical.notePush {u act} (h : s.Canonical) : (s.notePush u act).Canonical := by
  unfold State.notePush
  dsimp only
  refine h.foldl fun t _ h => ?_
  split
  · exact h
  · exact h.withCur

theorem State.Canonical.unwind {after : State} (h : s.Canonical) : (s.unwind after).Canonical :=
  h.same.withVec

theorem State.Canonical.rewound (h : s.Canonical) : s.rewound.Canonical := by
  unfold State.rewound
  dsimp only
  split
  · exact h
  · exact h.withCur

theorem State.Canonical.stallHere (h : s.Canonical) : s.stallHere.Canonical := h.withCur

/-- The states in which the pops of a word end (R227) are canonical. -/
def PopResult.Canonical : PopResult → Prop
  | .ok t => t.Canonical
  | .error (.inl x) => x.2.Canonical
  | .error (.inr t) => t.Canonical

theorem State.Canonical.popOne {i r} (h : s.Canonical) : (s.popOne i r).Canonical := by
  unfold State.popOne
  dsimp only
  split
  · split
    · exact h.streamFetch.popTrap
    · exact h.streamFetch.setStream
  · exact h.streamFetch.setStream.withCur

theorem State.Canonical.popAll {rs} (h : s.Canonical) : (s.popAll rs).Canonical := by
  induction rs generalizing s with
  | nil => exact h
  | cons r rs ih =>
    unfold State.popAll
    split
    · exact ih h
    · split
      · exact ih h
      · have hp := h.popOne (i := ‹_›) (r := BitVec.ofNat 6 r)
        split <;> simp only [*] at hp
        · exact ih hp
        · exact hp

theorem vecWord_canonical {i eff} (h : s.Canonical) (heff : ∀ t, t.Canonical → (eff t).Canonical) :
    CanonicalOut (vecWord i s eff) := by
  unfold vecWord
  split
  · exact .next h.decodeTrap
  · split
    · exact .next h.trap
    · have hp := h.popAll (rs := regsOf i.srcs)
      split <;> simp only [*] at hp
      · exact .next h.unwind.takeTrap
      · exact .next hp
      · exact .next (heff _ hp)

theorem State.Canonical.convFlags {f} (h : s.Canonical) : (s.convFlags f).Canonical := h.withCur

theorem State.Canonical.convSat {b} (h : s.Canonical) : (s.convSat b).Canonical := h.withCur

theorem State.Canonical.vstart0 (h : s.Canonical) : s.vstart0.Canonical := h.withVec

theorem State.Canonical.writeVec {d w res off} (h : s.Canonical) : (s.writeVec d w res off).Canonical := h.withVec.notePush

theorem State.Canonical.writeMask {d act off f} (h : s.Canonical) : (s.writeMask d act off f).Canonical := h.withVec

theorem State.Canonical.elementWise {d w m f} (h : s.Canonical) : (s.elementWise d w m f).Canonical := by
  unfold State.elementWise
  split
  · exact h.vstart0
  · exact h.writeVec

theorem State.Canonical.acrossElements {d w m f} (h : s.Canonical) : (s.acrossElements d w m f).Canonical := by
  unfold State.acrossElements
  split
  · exact h.vstart0
  · exact h.writeVec

theorem State.Canonical.elementWiseMask {d m f} (h : s.Canonical) : (s.elementWiseMask d m f).Canonical := by
  unfold State.elementWiseMask
  split
  · exact h.vstart0
  · exact h.writeMask

theorem State.Canonical.acrossMask {d m f} (h : s.Canonical) : (s.acrossMask d m f).Canonical := by
  unfold State.acrossMask
  split
  · exact h.vstart0
  · exact h.writeMask

theorem writeWords_wf {m : Memory} {a : Nat} {ws : List Nat} (h : m.wf = true) : (writeWords m a ws).wf = true := by
  induction ws generalizing m a with
  | nil => exact h
  | cons w ws ih => exact ih (Memory.wf_writeLE _ _ _ h)

theorem State.Canonical.writeBoard (h : s.Canonical) : s.writeBoard.Canonical := h.withMem (writeWords_wf h.1)

theorem State.Canonical.raiseLate {rk slot tpc panel} (h : s.Canonical) : (s.raiseLate rk slot tpc panel).Canonical := by
  unfold State.raiseLate
  dsimp only
  split
  · exact h.withCur.takeTrap
  · exact h.withCur.writeBoard.takeTrap

theorem State.Canonical.holdLate {e} (h : s.Canonical) : (s.holdLate e).Canonical := by
  unfold State.holdLate
  dsimp only
  split
  · exact h
  · exact h.withCur

theorem State.Canonical.stopLoad {e goOn} (h : s.Canonical) (hgoOn : ∀ t, t.Canonical → (goOn t).Canonical) :
    (s.stopLoad e goOn).Canonical := by
  unfold State.stopLoad
  dsimp only
  split
  · exact hgoOn _ h.withCur
  · exact h.withCur.raiseLate

theorem State.Canonical.raiseWatch (h : s.Canonical) : s.raiseWatch.Canonical := by
  unfold State.raiseWatch
  dsimp only
  split
  · exact h
  · exact h.withCur.takeTrap

theorem State.Canonical.retireCounting {events} (h : s.Canonical) : (s.retireCounting events).Canonical := by
  unfold State.retireCounting
  dsimp only
  split
  · exact h.withCur.same.raiseWatch
  · exact h.withCur.same

theorem State.Canonical.retireParcel (h : s.Canonical) : s.retireParcel.Canonical := h.retireCounting

theorem State.Canonical.focus {who} (h : s.Canonical) : (s.focus who).Canonical := by
  unfold State.focus
  split
  · exact h
  · split
    · exact h
    · exact h.same

theorem State.Canonical.onStrand {who f} (h : s.Canonical) (hf : ∀ t, t.Canonical → (f t).Canonical) :
    (s.onStrand who f).Canonical := by
  unfold State.onStrand
  dsimp only
  split
  · exact (hf _ h.focus).focus
  · exact h

theorem State.Canonical.passWord (h : s.Canonical) : s.passWord.Canonical := by
  unfold State.passWord
  dsimp only
  split <;> exact h.withCur

end Sys2Proof.Machine
end

section
/-!
### The canonical form under the scalar and atomic words, the CSRs, the streams and the queue words
-/

set_option Elab.async false

namespace Sys2Proof.Machine

variable {s : State}

theorem State.Canonical.result {d v} (h : s.Canonical) : CanonicalOut (s.result d v) := .next h.setX.next4

theorem aluRR_canonical {o f} (h : s.Canonical) : CanonicalOut (aluRR o s f) := h.result

theorem aluR_canonical {o f} (h : s.Canonical) : CanonicalOut (aluR o s f) := h.result

theorem aluRI_canonical {o f} (h : s.Canonical) : CanonicalOut (aluRI o s f) := h.result

theorem aluSh_canonical {o f} (h : s.Canonical) : CanonicalOut (aluSh o s f) := h.result

theorem State.Canonical.access {ea n need} (h : s.Canonical) : (s.access ea n need).2.Canonical := by
  unfold State.access
  split
  · exact h
  · split
    · exact h
    · exact h.translate

theorem State.Canonical.failed {f ea need} (h : s.Canonical) : (s.failed f ea need).Canonical := by
  unfold State.failed
  split
  · exact h.takeTrap
  · exact h.stallHere

theorem scalarLoad_canonical {o n ext} (h : s.Canonical) : CanonicalOut (scalarLoad o s n ext) := by
  unfold scalarLoad
  dsimp only
  split
  · exact .next (h.access.right ‹_›).failed
  · split
    · exact .next ((h.access.right ‹_›).touch.noteWatch.stopLoad (fun _ h => h.next4))
    · split
      · exact .next (h.access.right ‹_›).touch.noteWatch.holdLate.next4
      · exact .next (h.access.right ‹_›).touch.noteWatch.setX.next4

theorem scalarStore_canonical {o n} (h : s.Canonical) : CanonicalOut (scalarStore o s n) := by
  unfold scalarStore
  dsimp only
  split
  · exact .next (h.access.right ‹_›).failed
  · split
    · exact .next (h.access.right ‹_›).holdLate.next4
    · exact .next (h.access.right ‹_›).storeAt.noteWatch.next4

theorem branchOn_canonical {o f} (h : s.Canonical) : CanonicalOut (branchOn o s f) := by
  unfold branchOn
  split
  · exact .next h.setPc
  · exact .next h.next4

theorem execJalr_canonical {o} (h : s.Canonical) : CanonicalOut (execJalr o s) := by
  unfold execJalr
  dsimp only
  split
  · exact .next h.trap
  · exact .next h.setX.setPc

theorem State.Canonical.amoWrite {va x n new} (h : s.Canonical) : (s.amoWrite va x n new).Canonical := by
  unfold State.amoWrite
  split
  · exact h.touch
  · exact h.touch.writePlace.bell

theorem State.Canonical.proxyOrTrap {f} (h : s.Canonical) : (s.proxyOrTrap f).Canonical := by
  unfold State.proxyOrTrap
  dsimp only
  split
  · exact h.send.withCur
  · exact h.withCur.trap

theorem State.Canonical.carrier {w a} (h : s.Canonical) : (s.carrier w a).2.Canonical := h.takeFree

theorem State.Canonical.amoOut {op n order b c va d x w} (h : s.Canonical) :
    (s.amoOut op n order b c va d x w).Canonical := by
  unfold State.amoOut
  dsimp only
  split
  · exact h.carrier.withCur
  · exact h.carrier.proxyOrTrap

theorem amo_canonical {op o} (h : s.Canonical) : CanonicalOut (amo op o s) := by
  unfold amo
  dsimp only
  split
  · exact .next (h.access.right ‹_›).failed
  · split
    · exact .next (h.access.right ‹_›).amoOut
    · split
      · split
        · split
          · exact .next (h.access.right ‹_›).amoWrite.noteWatch.holdLate.next4
          · exact .next (h.access.right ‹_›).holdLate.next4
        · split
          · exact .next (h.access.right ‹_›).amoWrite.noteWatch.holdLate.next4
          · exact .next (h.access.right ‹_›).holdLate.next4
      · exact .next (h.access.right ‹_›).amoWrite.noteWatch.setX.next4

theorem State.Canonical.finishAmo {f old} (h : s.Canonical) : (s.finishAmo f old).Canonical := by
  unfold State.finishAmo
  dsimp only
  split
  · split
    · exact h.noteWatch.withCur.setX.next4.retireParcel
    · exact h.touchLeaf.noteWatch.withCur.setX.next4.retireParcel
  · split
    · exact h.writePlace.bell.noteWatch.withCur.setX.next4.retireParcel
    · exact h.touchLeaf.writePlace.bell.noteWatch.withCur.setX.next4.retireParcel

theorem State.Canonical.staleFor {who} (h : s.Canonical) : (s.staleFor who).2.Canonical := by
  unfold State.staleFor
  dsimp only
  split
  · exact h
  · split
    · exact h.takeFree
    · exact h.takeFree.same.mapPart

theorem State.Canonical.onAmo {who run f} (h : s.Canonical) (hf : ∀ t old, t.Canonical → (f t old).Canonical) :
    (s.onAmo who run f).Canonical := by
  unfold State.onAmo
  split
  · exact h.staleFor.right ‹_›
  · refine (h.staleFor.right ‹_›).onStrand fun t h => ?_
    split
    · split
      · exact hf _ _ h
      · exact h
    · exact h

theorem execAtomicopCompletion_canonical {who ok old} (h : s.Canonical) :
    CanonicalOut (execAtomicopCompletion who ok old s) := by
  unfold execAtomicopCompletion
  refine .next (h.onAmo fun t _ h => ?_)
  split
  · exact h.finishAmo
  · exact h.proxyOrTrap

theorem execProxyResponse_canonical {who ok old} (h : s.Canonical) : CanonicalOut (execProxyResponse who ok old s) := by
  unfold execProxyResponse
  dsimp only
  refine .next (h.onAmo fun t _ h => ?_)
  split
  · exact h.mapPart.finishAmo
  · exact h.withCur.trap

theorem execAtomicTimeout_canonical {who} (h : s.Canonical) : CanonicalOut (execAtomicTimeout who s) := by
  unfold execAtomicTimeout
  dsimp only
  refine .next (h.onStrand fun t h => ?_)
  split
  · exact h
  · exact h.withCur.next4

theorem State.Canonical.claimVowner (h : s.Canonical) : s.claimVowner.Canonical := by
  unfold State.claimVowner
  split
  · exact h.vectorSwitch
  · exact h.trap

theorem execClaim_canonical {o} (h : s.Canonical) : CanonicalOut (execClaim o s) := by
  unfold execClaim
  dsimp only
  split
  · exact .next h.trap
  · split
    · exact .next h.claimVowner
    · split
      · exact .next (h.access.right ‹_›).failed
      · split
        · exact .next (h.access.right ‹_›).takeTrap
        · split
          · split
            · exact .next (h.access.right ‹_›).amoWrite.noteWatch.noteWatch.holdLate.next4
            · exact .next (h.access.right ‹_›).holdLate.next4
          · exact .next (h.access.right ‹_›).amoWrite.noteWatch.noteWatch.withVec.setX.next4

theorem execFence_canonical {o} (h : s.Canonical) : CanonicalOut (execFence o s) := by
  unfold execFence
  dsimp only
  split
  · exact .next h.withCur
  · exact .next h.next4

theorem execFenceEWaitDone_canonical {who} (h : s.Canonical) : CanonicalOut (execFenceEWaitDone who s) := by
  unfold execFenceEWaitDone
  dsimp only
  refine .next (h.onStrand fun t h => ?_)
  split
  · exact h.withCur.next4.retireParcel
  · exact h

theorem State.Canonical.mapCore {f} (h : s.Canonical) : (s.mapCore f).Canonical := h.same

theorem State.Canonical.csrRead {c} (h : s.Canonical) : (s.csrRead c).2.Canonical := by
  unfold State.csrRead
  dsimp only
  split
  case h_33 => exact h.takeFree.withCur
  case h_35 => exact h.settleCounter
  all_goals exact h

theorem State.Canonical.writeLanegrant {v} (h : s.Canonical) : (s.writeLanegrant v).Canonical := by
  unfold State.writeLanegrant
  dsimp only
  split
  · exact h
  · exact h.withCur

theorem State.Canonical.writeCtxid {v} (h : s.Canonical) : (s.writeCtxid v).Canonical := by
  unfold State.writeCtxid
  dsimp only
  split
  · exact h.withCur
  · exact h

theorem State.Canonical.writeVowner {v} (h : s.Canonical) : (s.writeVowner v).Canonical := by
  unfold State.writeVowner
  dsimp only
  split
  · exact h
  · exact h.same

theorem State.Canonical.writePcntsel {v} (h : s.Canonical) : (s.writePcntsel v).Canonical := by
  unfold State.writePcntsel
  dsimp only
  split
  · exact h
  · exact h.settleCounter.mapCore

theorem State.Canonical.csrWrite {c v} (h : s.Canonical) : (s.csrWrite c v).Canonical := by
  unfold State.csrWrite
  dsimp only
  split
  case h_1 | h_7 | h_12 => exact h.withVec
  case h_2 => exact h
  case h_3 | h_5 =>
    split
    · exact h.withVec
    · exact h
  case h_4 | h_6 =>
    split
    · exact h
    · exact h.withVec
  case h_8 | h_20 =>
    split
    · exact h
    · exact h.withCur
  case h_10 => exact h.writeLanegrant
  case h_11 | h_21 | h_26 | h_32 =>
    split
    · exact h.withCur
    · exact h
  case h_27 => exact h.writeVowner
  case h_28 => exact h.writeCtxid
  case h_35 => exact h.mapCore
  case h_36 => exact h.writePcntsel
  all_goals exact h.withCur

theorem csrModify_canonical {o f} (h : s.Canonical) : CanonicalOut (csrModify o s f) := by
  unfold csrModify
  dsimp only
  split
  · exact .next h.decodeTrap
  · exact .next h.csrRead.csrWrite.setX.next4

theorem execCsrget_canonical {o} (h : s.Canonical) : CanonicalOut (execCsrget o s) := by
  unfold execCsrget
  dsimp only
  split
  · exact .next h.decodeTrap
  · exact .next h.csrRead.setX.next4

theorem execCsrput_canonical {o} (h : s.Canonical) : CanonicalOut (execCsrput o s) := by
  unfold execCsrput
  split
  · exact .next h.decodeTrap
  · exact .next h.csrWrite.next4

theorem State.Canonical.setPlaneRecord {core off n} (h : s.Canonical) : (s.setPlaneRecord core off n).Canonical := h.same

theorem State.Canonical.readBlock {ea} (h : s.Canonical) : (s.readBlock ea).2.Canonical := by
  unfold State.readBlock
  split
  · exact h.access.right ‹_›
  · exact (h.access.right ‹_›).touch.noteWatch

theorem execStcfg_canonical {o} (h : s.Canonical) : CanonicalOut (execStcfg o s) := by
  unfold execStcfg
  dsimp only
  refine vecWord_canonical h fun t h => ?_
  split
  · exact (h.readBlock.right ‹_›).failed
  · split
    · exact (h.readBlock.right ‹_›).trap
    · exact (h.readBlock.right ‹_›).setStream.next8

theorem execStbind_canonical {o} (h : s.Canonical) : CanonicalOut (execStbind o s) := by
  unfold execStbind
  dsimp only
  refine vecWord_canonical h fun t h => ?_
  split
  · exact h.trap
  · exact h.withVec.setStream.withCur.next8

theorem execStunbind_canonical {o} (h : s.Canonical) : CanonicalOut (execStunbind o s) := by
  unfold execStunbind
  dsimp only
  refine vecWord_canonical h fun t h => ?_
  split
  · exact h.next8
  · exact h.setStream.next8

theorem execStreamFetch_canonical {who i n} (h : s.Canonical) : CanonicalOut (execStreamFetch who i n s) := by
  unfold execStreamFetch
  dsimp only
  refine .next (h.onStrand fun t h => ?_)
  split
  · exact h.stir.streamFetch.setStream
  · exact h

theorem State.Canonical.pushPlaces {t js} (h : s.Canonical) : (s.pushPlaces t js).2.Canonical := by
  induction js generalizing s t with
  | nil => exact h
  | cons j js ih =>
    unfold State.pushPlaces
    split
    · exact h.streamPlace.right2 ‹_›
    · next hplace =>
      split <;> exact (ih (h.streamPlace.right2 hplace)).right ‹_›

theorem State.Canonical.pushElem {t r p} (h : s.Canonical) : (s.pushElem t r p).Canonical := by
  unfold State.pushElem
  dsimp only
  split
  · exact h.larderPut
  · exact h.storeAt

theorem State.Canonical.pushOne {k n p} (h : s.Canonical) : (s.pushOne k n p).Canonical := by
  unfold State.pushOne
  dsimp only
  split
  · exact h
  · exact ((h.foldl (fun _ _ h => h.pushElem)).holdLate).setStream

theorem State.Canonical.pushFrom {k n ps} (h : s.Canonical) : (s.pushFrom k n ps).Canonical := by
  induction ps generalizing s n with
  | nil => exact h
  | cons p ps ih => exact ih h.pushOne

theorem State.Canonical.placePushes {ps} (h : s.Canonical) : (s.placePushes ps).2.Canonical := by
  induction ps generalizing s with
  | nil => exact h
  | cons p ps ih =>
    unfold State.placePushes
    dsimp only
    split
    · exact h.pushPlaces.right ‹_›
    · next hplaces =>
      split <;> exact (ih (h.pushPlaces.right hplaces)).right ‹_›

theorem State.Canonical.waitRoom (h : s.Canonical) : s.waitRoom.Canonical := h.withCur

theorem State.Canonical.enterCmd {j cmd ntf scope} (h : s.Canonical) : (s.enterCmd j cmd ntf scope).Canonical :=
  h.withCur.next8

theorem State.Canonical.withRoom {q f} (h : s.Canonical) (hf : ∀ t, t.Canonical → (f t).Canonical) :
    (s.withRoom q f).Canonical := by
  unfold State.withRoom
  split
  · exact h.trap
  · split
    · exact h.waitRoom
    · exact hf _ h

theorem State.Canonical.doQcopy {o} (h : s.Canonical) : (s.doQcopy o).Canonical := h.withRoom (fun _ h => h.enterCmd)

theorem State.Canonical.doQblock {o mk} (h : s.Canonical) : (s.doQblock o mk).Canonical := by
  unfold State.doQblock
  dsimp only
  refine h.withRoom fun t h => ?_
  split
  · exact (h.readBlock.right ‹_›).failed
  · exact (h.readBlock.right ‹_›).enterCmd

theorem State.Canonical.doQfence {o} (h : s.Canonical) : (s.doQfence o).Canonical := by
  unfold State.doQfence
  dsimp only
  split
  · exact h.trap
  · split
    · exact h.waitRoom
    · exact h.withCur.next8

theorem State.Canonical.doQsignal {o} (h : s.Canonical) : (s.doQsignal o).Canonical := h.withRoom (fun _ h => h.enterCmd)

theorem State.Canonical.doQstat {o} (h : s.Canonical) : (s.doQstat o).Canonical := by
  unfold State.doQstat
  dsimp only
  split
  · exact h.trap
  · split
    · exact h.withCur
    · split
      · exact h.trap
      · split
        · exact h.setX.setX.withCur.next8
        · exact h.setX.setX.next8

/-- The state that an operation answers, or the one before where it answers none. -/
theorem State.Canonical.getD_map {α : Type} {f : α → State} {o : Option α} (h : s.Canonical)
    (hf : ∀ a, (f a).Canonical) :
    ((o.map f).getD s).Canonical := by
  cases o with
  | none => exact h
  | some a => exact hf a

theorem State.Canonical.queueWord (h : s.Canonical) : s.queueWord.Canonical := by
  unfold State.queueWord
  dsimp only
  split
  · exact h.getD_map fun _ => h.doQcopy
  iterate 5 exact h.getD_map fun _ => h.doQblock
  · exact h.getD_map fun _ => h.doQfence
  · exact h.getD_map fun _ => h.doQsignal
  · exact h.getD_map fun _ => h.doQstat

theorem State.Canonical.afterWait {eff} (h : s.Canonical) (heff : ∀ t, t.Canonical → (eff t).Canonical) :
    (s.afterWait eff).Canonical := by
  unfold State.afterWait
  dsimp only
  split
  · exact (heff _ h.withCur).withCur
  · exact heff _ h.withCur

theorem execQueueEntryRoom_canonical {who} (h : s.Canonical) : CanonicalOut (execQueueEntryRoom who s) := by
  unfold execQueueEntryRoom
  refine .next (h.onStrand fun t h => ?_)
  split
  · exact h.afterWait (fun _ h => h.queueWord)
  · exact h

theorem execQstatWaitDone_canonical {who} (h : s.Canonical) : CanonicalOut (execQstatWaitDone who s) := by
  unfold execQstatWaitDone
  refine .next (h.onStrand fun t h => ?_)
  split
  · exact h.afterWait (fun _ h => h.queueWord)
  · exact h

end Sys2Proof.Machine
end

section
/-!
### The canonical form under the vector accesses and the engines
-/

set_option Elab.async false

namespace Sys2Proof.Machine

variable {s : State}

theorem State.Canonical.sortPages {gs} (h : s.Canonical) : (s.sortPages gs).2.Canonical := by
  induction gs generalizing s with
  | nil => exact h
  | cons g gs ih => exact ih h.leafOf

theorem State.Canonical.touchElems {tbl p es} (h : s.Canonical) : (s.touchElems tbl p es).Canonical := by
  unfold State.touchElems
  refine h.foldl fun t _ h => ?_
  split
  · exact h.touch
  · exact h

theorem State.Canonical.watchElems {p es} (h : s.Canonical) : (s.watchElems p es).Canonical :=
  h.foldl (fun _ _ h => h.noteWatch)

theorem State.Canonical.vmReport {p tbl pf es done} (h : s.Canonical) : (s.vmReport p tbl pf es done).Canonical := by
  unfold State.vmReport
  dsimp only
  split
  · exact h.vstart0.next8
  · exact h.withVec.takeTrap

theorem vmRun_canonical {p perform} (h : s.Canonical)
    (hperform : ∀ t todo done late, t.Canonical → (perform t todo done late).Canonical) :
    (vmRun s p perform).Canonical := by
  unfold vmRun
  dsimp only
  split
  · exact h.vstart0.next8
  · split
    · exact h.trap
    · split
      · exact h.sortPages.stallHere
      · exact hperform _ _ _ _ h.sortPages

theorem State.Canonical.fillFields {tbl p d w m done nf} (h : s.Canonical) : (s.fillFields tbl p d w m done nf).Canonical :=
  h.foldl (fun _ _ h => h.writeVec.withVec)

theorem State.Canonical.lateElems {d w nf done} {old : State} (h : s.Canonical) :
    CanonicalSome (s.lateElems old d w nf done) := by
  unfold State.lateElems
  dsimp only
  split
  · exact .none
  · split
    · exact .none
    · exact .some (h.withVec.stopLoad (fun _ h => h.next8))

theorem vmLoad_canonical {p d w m nf} (h : s.Canonical) : (vmLoad s p d w m nf).Canonical := by
  unfold vmLoad
  refine vmRun_canonical h fun t _ _ _ h => ?_
  dsimp only
  split
  · next u hu =>
    split at hu
    · exact h.touchElems.fillFields.watchElems.lateElems _ hu
    · cases hu
  · exact h.touchElems.fillFields.watchElems.vmReport

theorem State.Canonical.writeField {tbl p w e a v} (h : s.Canonical) : (s.writeField tbl p w e a v).Canonical := by
  unfold State.writeField
  dsimp only
  split
  · exact h
  · split <;> exact h.writePlace.bell

theorem State.Canonical.storeElems {tbl p d w done} (h : s.Canonical) : (s.storeElems tbl p d w done).Canonical :=
  h.foldl (fun _ _ h => h.foldl (fun _ _ h => h.writeField))

theorem State.Canonical.anyOrder {done} (h : s.Canonical) : (s.anyOrder done).2.Canonical := h.shuffle

theorem State.Canonical.writeProgress {tbl p c} (h : s.Canonical) : (s.writeProgress tbl p c).Canonical := by
  unfold State.writeProgress
  split
  · exact h
  · split
    · exact h
    · exact h.storeAt.noteWatch

theorem State.Canonical.progress {k tbl p d c} (h : s.Canonical) : (s.progress k tbl p d c).Canonical := by
  unfold State.progress
  dsimp only
  split
  · exact h.holdLate
  · exact h.writeProgress

theorem vmStore_canonical {p d w ordered} (h : s.Canonical) : (vmStore s p d w ordered).Canonical := by
  unfold vmStore
  dsimp only
  refine vmRun_canonical h fun t _ _ _ h => ?_
  split
  · split
    · exact h.touchElems.storeElems.watchElems.holdLate.progress.vmReport
    · exact h.touchElems.anyOrder.storeElems.watchElems.holdLate.progress.vmReport
  · split
    · exact h.touchElems.storeElems.watchElems.holdLate.vmReport
    · exact h.touchElems.anyOrder.storeElems.watchElems.holdLate.vmReport

theorem State.Canonical.addField {tbl p w a v} (h : s.Canonical) : (s.addField tbl p w a v).Canonical := by
  unfold State.addField
  split
  · exact h
  · exact h.writePlace.bell

theorem vmScatterAdd_canonical {p d w} (h : s.Canonical) : (vmScatterAdd s p d w).Canonical :=
  vmRun_canonical h fun _ _ _ _ h =>
    (h.touchElems.foldl fun _ _ h => h.foldl fun _ _ h => h.addField).watchElems.holdLate.vmReport

theorem State.Canonical.firstDone {tbl p d w m ok left} (h : s.Canonical) : (s.firstDone tbl p d w m ok left).Canonical := by
  unfold State.firstDone
  dsimp only
  split
  · exact h.touchElems.fillFields.watchElems.withVec.lateElems _ ‹_›
  · exact h.touchElems.fillFields.watchElems.withVec.next8

theorem vmFirst_canonical {p d w m} (h : s.Canonical) : (vmFirst s p d w m).Canonical := by
  unfold vmFirst
  dsimp only
  split
  · exact h.vstart0.next8
  · split
    · exact h.sortPages.stallHere
    · split
      · split
        · split
          · exact h.sortPages
          · exact h.sortPages.takeTrap
        · exact h.sortPages.firstDone
      · exact h.sortPages.firstDone

theorem execVld_canonical {o} (h : s.Canonical) : CanonicalOut (execVld o s) := by
  unfold execVld
  exact vecWord_canonical h fun _ h => vmLoad_canonical h

theorem execVlds_canonical {o} (h : s.Canonical) : CanonicalOut (execVlds o s) := by
  unfold execVlds
  exact vecWord_canonical h fun _ h => vmLoad_canonical h

theorem execVldx_canonical {o} (h : s.Canonical) : CanonicalOut (execVldx o s) := by
  unfold execVldx
  exact vecWord_canonical h fun _ h => vmLoad_canonical h

theorem execVldseg_canonical {o} (h : s.Canonical) : CanonicalOut (execVldseg o s) := by
  unfold execVldseg
  exact vecWord_canonical h fun _ h => vmLoad_canonical h

theorem State.Canonical.vwaitDone {o un} (h : s.Canonical) : (s.vwaitDone o un).Canonical := h.withCur.next8

theorem State.Canonical.vwaitLook {o ws last} (h : s.Canonical) : (s.vwaitLook o ws last).Canonical := by
  unfold State.vwaitLook
  dsimp only
  split
  · exact h.takeTrap
  · split
    · exact h.withCur
    · split
      · exact h.withCur
      · exact h.vwaitDone

theorem State.Canonical.vwaitStart {o} (h : s.Canonical) : (s.vwaitStart o).Canonical := by
  unfold State.vwaitStart
  dsimp only
  split
  · exact h.vwaitDone
  · split
    · exact h.trap
    · split
      · exact h.sortPages.stallHere
      · split
        · exact h.sortPages.takeTrap
        · exact h.sortPages.touchElems.watchElems.vwaitLook

theorem execVwait_canonical {o} (h : s.Canonical) : CanonicalOut (execVwait o s) := by
  unfold execVwait
  refine vecWord_canonical h fun t h => ?_
  split
  · exact h.vwaitLook
  · exact h.vwaitStart

theorem State.Canonical.vwaitAgain {late} (h : s.Canonical) : (s.vwaitAgain late).Canonical := by
  unfold State.vwaitAgain
  dsimp only
  split
  · exact h
  · split
    · exact h
    · exact h.withCur.same

theorem execVwaitTimeout_canonical {who} (h : s.Canonical) : CanonicalOut (execVwaitTimeout who s) := by
  unfold execVwaitTimeout
  refine .next (h.onStrand fun t h => ?_)
  split
  · exact h
  · split
    · exact h
    · exact h.vwaitAgain

theorem State.Canonical.writeSpot {p b} (h : s.Canonical) : (s.writeSpot p b).Canonical := by
  unfold State.writeSpot
  split
  · exact h.writePlace
  · exact h.larderPut

theorem State.Canonical.touchEach {n l} (h : s.Canonical) : (s.touchEach n l).Canonical := by
  unfold State.touchEach
  refine List.foldlRecOn (motive := fun r : State × Option Leaf => r.1.Canonical) _ _ h fun r hr x _ => ?_
  split
  · exact hr
  · exact hr.touchLeaf

theorem State.Canonical.touchReads {l} (h : s.Canonical) : (s.touchReads l).Canonical := h.touchEach

theorem State.Canonical.touchWrites {ws} (h : s.Canonical) : (s.touchWrites ws).Canonical := h.touchEach

theorem State.Canonical.doWrite {w} (h : s.Canonical) : (s.doWrite w).Canonical := by
  unfold State.doWrite
  dsimp only
  split
  · exact h.writeSpot
  · split
    · exact h.writeSpot
    · exact h.takeFree.writeSpot

theorem State.Canonical.bellWrites {ws} (h : s.Canonical) : (s.bellWrites ws).Canonical := by
  unfold State.bellWrites
  split
  · exact h
  · exact h.foldl (fun _ _ h => h.bell)

theorem State.Canonical.doWrites {ws} (h : s.Canonical) : (s.doWrites ws).Canonical :=
  (h.touchWrites.foldl (fun _ _ h => h.doWrite)).bellWrites

theorem State.Canonical.someOf {ws} (h : s.Canonical) : (s.someOf ws).2.Canonical := by
  induction ws generalizing s with
  | nil => exact h
  | cons w ws ih => exact ih h.same

theorem State.Canonical.partOf {r whole} (h : s.Canonical) : (s.partOf r whole).2.Canonical := by
  unfold State.partOf
  dsimp only
  split
  · exact h.takeFree
  · exact h.takeFree.someOf

theorem State.Canonical.addWord {a v} (h : s.Canonical) : CanonicalOk (s.addWord a v) := by
  unfold State.addWord
  dsimp only
  split
  · exact .error
  · split
    · exact .error
    · split
      · exact .error
      · exact .ok (h.translate.right ‹_›).touch.writePlace.bell

theorem State.Canonical.haltEngine {j fn code detail} (h : s.Canonical) : (s.haltEngine j fn code detail).Canonical :=
  h.withCur

theorem State.Canonical.popEngine {j} (h : s.Canonical) : (s.popEngine j).Canonical := h.withCur.count

theorem State.Canonical.stirEngine (h : s.Canonical) : s.stirEngine.Canonical := h.stir

theorem State.Canonical.holdWatch {j spans} (h : s.Canonical) : (s.holdWatch j spans).Canonical := by
  unfold State.holdWatch
  dsimp only
  split
  · exact h
  · exact h.withCur

theorem State.Canonical.atLevel {l f} (h : s.Canonical) (hf : ∀ t, t.Canonical → (f t).Canonical) :
    (s.atLevel l f).Canonical :=
  (hf _ h.withCur).withCur

theorem State.Canonical.haltWith {j fn code detail ws record} (h : s.Canonical) :
    (s.haltWith j fn code detail ws record).Canonical := by
  unfold State.haltWith
  dsimp only
  split
  · split
    · exact h.doWrites.haltEngine
    · exact h.doWrites.takeFree.setPlaneRecord.haltEngine
  · exact h.doWrites.haltEngine

theorem State.Canonical.engineFault {j fn code detail part record} (h : s.Canonical) :
    (s.engineFault j fn code detail part record).Canonical :=
  h.someOf.haltWith

theorem State.Canonical.setRecords {l} (h : s.Canonical) : (s.setRecords l).Canonical :=
  h.foldl (fun _ _ h => h.setPlaneRecord)

theorem State.Canonical.performCmd {j e run} (h : s.Canonical) (hrun : ∀ t, t.Canonical → (run t).2.Canonical) :
    (s.performCmd j e run).Canonical := by
  unfold State.performCmd
  dsimp only
  refine h.atLevel fun t h => ?_
  split
  · exact ((hrun _ h)).right ‹_›
  · exact (((hrun _ h)).right ‹_›).engineFault
  · split
    · exact (((hrun _ h)).right ‹_›).doWrites.setRecords.popEngine.holdWatch
    · split
      · exact ((((hrun _ h)).right ‹_›).doWrites.setRecords.addWord _ ‹_›).popEngine.holdWatch
      · exact ((hrun _ h)).right ‹_›
      · split
        · exact (((hrun _ h)).right ‹_›).partOf.haltWith.setRecords
        · exact (((hrun _ h)).right ‹_›).partOf.haltWith

theorem performEvent_canonical {who j} {sel : QCmd → Option (State → ERun)} (h : s.Canonical)
    (hsel : ∀ c run, sel c = some run → ∀ t, t.Canonical → (run t).2.Canonical) :
    CanonicalOut (performEvent who j s sel) := by
  refine .next (h.onStrand fun t h => ?_)
  dsimp only
  split
  · exact h
  · split
    · exact h
    · split
      · exact h
      · next hrun => exact h.stirEngine.performCmd (hsel _ _ hrun)

theorem State.Canonical.runCopy {src dst cnt sl dl} (h : s.Canonical) : (State.runCopy src dst cnt sl dl s).2.Canonical := by
  unfold State.runCopy
  dsimp only
  split
  · exact h
  · split
    · exact h.sortPages.sortPages.touchReads
    · split
      · exact h.sortPages.sortPages.touchReads
      · exact h.sortPages.sortPages.touchReads.same

theorem execQcopyPerform_canonical {who j} (h : s.Canonical) : CanonicalOut (execQcopyPerform who j s) := by
  refine performEvent_canonical h fun c run hrun t h => ?_
  cases c <;> cases hrun
  exact h.runCopy

theorem State.Canonical.runElements {g scatter idx} (h : s.Canonical) : (s.runElements g scatter idx).2.Canonical := by
  unfold State.runElements
  dsimp only
  split
  · exact h
  · split <;> exact h.sortPages.sortPages.touchReads

theorem State.Canonical.runGather {b scatter} (h : s.Canonical) : (State.runGather b scatter s).2.Canonical := by
  unfold State.runGather
  dsimp only
  split
  · exact h
  · split
    · exact h
    · split
      · exact h
      · split
        · exact h
        · split
          · exact h
          · split
            · exact h.sortPages.touchReads
            · exact h.sortPages.touchReads.runElements

theorem execQgatherPerform_canonical {who j} (h : s.Canonical) : CanonicalOut (execQgatherPerform who j s) := by
  refine performEvent_canonical h fun c run hrun t h => ?_
  cases c <;> cases hrun
  exact h.runGather

theorem execQscatterPerform_canonical {who j} (h : s.Canonical) : CanonicalOut (execQscatterPerform who j s) := by
  refine performEvent_canonical h fun c run hrun t h => ?_
  cases c <;> cases hrun
  exact h.runGather

theorem State.Canonical.runPload {b} (h : s.Canonical) : (State.runPload b s).2.Canonical := by
  -- Behind a name of its own the check is not computed when the branches are compared.
  obtain ⟨fault, hfault⟩ : ∃ f, f = PlaneBlock.fault := ⟨_, rfl⟩
  unfold State.runPload
  rw [← hfault]
  split
  · exact h
  · split
    · exact h
    · split
      · next hsort =>
        dsimp only
        split <;> exact (h.sortPages.right hsort).touchReads

theorem execQploadPerform_canonical {who j} (h : s.Canonical) : CanonicalOut (execQploadPerform who j s) := by
  refine performEvent_canonical h fun c run hrun t h => ?_
  cases c <;> cases hrun
  exact h.runPload

theorem State.Canonical.storeOrder {p ws} (h : s.Canonical) : (s.storeOrder p ws).2.Canonical := by
  unfold State.storeOrder
  split
  · exact h
  · exact h.shuffle

theorem State.Canonical.runPstore {b} (h : s.Canonical) : (State.runPstore b s).2.Canonical := by
  obtain ⟨fault, hfault⟩ : ∃ f, f = PlaneBlock.fault := ⟨_, rfl⟩
  unfold State.runPstore
  rw [← hfault]
  split
  · exact h
  · split
    · exact h
    · split
      · next hsort =>
        dsimp only
        split <;> exact (h.sortPages.right hsort).storeOrder

theorem execQpstorePerform_canonical {who j} (h : s.Canonical) : CanonicalOut (execQpstorePerform who j s) := by
  refine performEvent_canonical h fun c run hrun t h => ?_
  cases c <;> cases hrun
  exact h.runPstore

theorem State.Canonical.signalStore {wr v} (h : s.Canonical) : (s.signalStore wr v).2.Canonical := by
  unfold State.signalStore
  dsimp only
  split
  · exact h
  · split <;> exact h.sortPages

theorem State.Canonical.performSignal {j wr v add sig} (h : s.Canonical) : (s.performSignal j wr v add sig).Canonical := by
  unfold State.performSignal
  split
  · exact h.haltEngine
  · split
    · exact h.signalStore.right ‹_›
    · exact (h.signalStore.right ‹_›).engineFault
    · split
      · exact ((h.signalStore.right ‹_›).doWrites.addWord _ ‹_›).popEngine.holdWatch
      · exact h.signalStore.right ‹_›
      · exact (h.signalStore.right ‹_›).engineFault

theorem execQsignalPerform_canonical {who j} (h : s.Canonical) : CanonicalOut (execQsignalPerform who j s) := by
  unfold execQsignalPerform
  dsimp only
  refine .next (h.onStrand fun t h => ?_)
  split
  · exact h
  · split
    · exact h
    · split
      · exact h.stirEngine.atLevel (fun _ h => h.performSignal)
      · exact h

theorem State.Canonical.popFence {id js} (h : s.Canonical) : (s.popFence id js).Canonical := by
  unfold State.popFence
  refine h.foldl fun t _ h => ?_
  split
  · exact h.popEngine
  · exact h

theorem execQfencePass_canonical {who j} (h : s.Canonical) : CanonicalOut (execQfencePass who j s) := by
  unfold execQfencePass
  dsimp only
  refine .next (h.onStrand fun t h => ?_)
  split
  · exact h
  · split
    · split
      · exact h
      · split
        · exact h.popFence
        · refine h.atLevel fun t h => ?_
          split
          · exact (h.addWord _ ‹_›).popFence.holdWatch
          · exact h
          · exact h.haltEngine
    · exact h

theorem State.Canonical.raiseHeldWatch (h : s.Canonical) : s.raiseHeldWatch.Canonical := by
  unfold State.raiseHeldWatch
  dsimp only
  split
  · exact h
  · split
    · exact h
    · exact h.withCur.takeTrap

theorem execWatchImprecise_canonical {who j} (h : s.Canonical) : CanonicalOut (execWatchImprecise who j s) := by
  unfold execWatchImprecise
  refine .next (h.onStrand fun t h => ?_)
  split
  · split
    · exact h.raiseHeldWatch
    · exact h
  · exact h

end Sys2Proof.Machine
end

section
/-!
### The canonical form under the gang's words, the packets and what lands later
-/

set_option Elab.async false

namespace Sys2Proof.Machine

variable {s : State}

theorem State.Canonical.selectDue {part} (h : s.Canonical) : (s.selectDue part).Canonical := by
  unfold State.selectDue
  dsimp only
  split
  · exact h
  · exact h.same

theorem State.Canonical.seatTask {l p k seat} (h : s.Canonical) : (s.seatTask l p k seat).Canonical := h.mapStrands

theorem State.Canonical.mapLaunch {l f} (h : s.Canonical) : (s.mapLaunch l f).Canonical := h.same

theorem State.Canonical.startLaunch {l p seats} (h : s.Canonical) : (s.startLaunch l p seats).Canonical :=
  (((h.foldl (fun _ _ h => h.seatTask)).mapLaunch).mapHwq).same

theorem State.Canonical.stopStrand (h : s.Canonical) : s.stopStrand.Canonical := by
  unfold State.stopStrand
  dsimp only
  split
  · exact h.withCur
  · exact h.count.withCur

theorem State.Canonical.askGang {l} (h : s.Canonical) : (s.askGang l).Canonical := h.same

theorem State.Canonical.parkGang {l} (h : s.Canonical) : (s.parkGang l).Canonical := by
  unfold State.parkGang
  dsimp only
  split
  · exact h
  · split
    · exact h.mapStrands.mapLaunch.same
    · exact h.mapStrands.mapLaunch.same.selectDue

theorem State.Canonical.reseat {c seat} (h : s.Canonical) : (s.reseat c seat).Canonical := h.mapStrands

theorem moveRegion_wf {old m : Memory} {src dst : StrandId} (h : m.wf = true) : (moveRegion old m src dst).wf = true := by
  unfold moveRegion
  split
  · exact h
  · exact SMap.wf_setRange _ _ h

theorem State.Canonical.resumeGang {l} (h : s.Canonical) : (s.resumeGang l).Canonical := by
  unfold State.resumeGang
  split
  · exact h
  · split
    · exact h
    · split
      · exact h
      · dsimp only
        split
        · exact h
        · have hseats := fun l => h.foldl (l := l) (f := fun t (y : Strand × Seat) => t.reseat y.1 y.2) fun _ _ h => h.reseat
          refine ((hseats _).withMem ?_).same.mapLaunch
          exact List.foldlRecOn (motive := fun m : Memory => m.wf = true) _ _ h.1 fun _ hm _ _ => moveRegion_wf hm

theorem State.Canonical.packetHalt {p step code} (h : s.Canonical) : (s.packetHalt p step code).Canonical :=
  h.mapHwq.setQword.haltQueue

theorem State.Canonical.packetDone {p} (h : s.Canonical) : (s.packetDone p).Canonical := by
  unfold State.packetDone
  dsimp only
  split
  · exact h.mapHwq.retirePacket.retireEvent.selectDue
  · exact h.mapHwq.retirePacket.selectDue

theorem State.Canonical.packetStarts {p launch} (h : s.Canonical) : (s.packetStarts p launch).Canonical := h.mapHwq

theorem State.Canonical.holdAt {p x} (h : s.Canonical) : (s.holdAt p x).Canonical := h.mapHwq

/-- The state in which a step of a packet that is done leaves the module is canonical. -/
def StepResult.Canonical : StepResult → Prop
  | .done t => t.Canonical
  | .holds => True
  | .fault => True

theorem stepOf_canonical {r : Except Fail State} (h : CanonicalOk r) : (stepOf r).Canonical := by
  unfold stepOf
  split
  · exact h _ rfl
  · trivial
  · trivial

theorem State.Canonical.packetStep {p i} (h : s.Canonical) : (s.packetStep p i).Canonical := by
  unfold State.packetStep
  split
  · trivial
  · split
    · exact stepOf_canonical h.landingStore
    · exact stepOf_canonical h.doSignal
    · split
      · exact stepOf_canonical h.landingStore
      · exact stepOf_canonical h.doSignal
    · split
      · trivial
      · split
        · exact h
        · trivial

theorem State.Canonical.packetSteps {p n i} (h : s.Canonical) : (s.packetSteps p n i).Canonical := by
  induction n generalizing s i with
  | zero => exact h.packetDone
  | succ n ih =>
    have hstep := h.packetStep (p := p) (i := i)
    unfold State.packetSteps
    split <;> simp only [*] at hstep
    · exact ih hstep
    · exact h.holdAt
    · exact h.packetHalt

theorem State.Canonical.stepsFrom {p i} (h : s.Canonical) : (s.stepsFrom p i).Canonical := h.packetSteps

theorem State.Canonical.waitLook {p} (h : s.Canonical) : (s.waitLook p).Canonical := by
  unfold State.waitLook
  split
  · exact h.packetHalt
  · split
    · split
      · exact (h.landingRead.right ‹_›).packetDone
      · exact (h.landingRead.right ‹_›).holdAt
    · exact (h.landingRead.right ‹_›).holdAt
    · exact (h.landingRead.right ‹_›).packetHalt

theorem State.Canonical.runCopyBytes {a b n} (h : s.Canonical) : (State.runCopyBytes a b n s).2.Canonical := by
  unfold State.runCopyBytes
  dsimp only
  split <;> exact h.sortPages.touchReads

theorem State.Canonical.copyPacket {p} (h : s.Canonical) : (s.copyPacket p).Canonical := by
  unfold State.copyPacket
  dsimp only
  split
  · exact (h.withCur.runCopyBytes.right ‹_›).withCur
  · exact (h.withCur.runCopyBytes.right ‹_›).someOf.doWrites.withCur.packetHalt
  · split
    · exact (h.withCur.runCopyBytes.right ‹_›).partOf.doWrites.withCur.packetHalt
    · exact (h.withCur.runCopyBytes.right ‹_›).doWrites.withCur.packetDone

theorem State.Canonical.readTrips {part param ws} (h : s.Canonical) : (s.readTrips part param ws).2.Canonical := by
  induction ws generalizing s with
  | nil => exact h
  | cons w ws ih =>
    unfold State.readTrips
    split
    · split
      · exact h.landingRead.right ‹_›
      · next ht =>
        split <;> exact (ih (h.landingRead.right ht)).right ‹_›
    · split <;> exact (ih h).right ‹_›

theorem State.Canonical.beginLaunch {l q seats} (h : s.Canonical) : (s.beginLaunch l q seats).Canonical :=
  h.startLaunch.mapHwq

theorem State.Canonical.reserve {l} (h : s.Canonical) : (s.reserve l).Canonical := by
  unfold State.reserve
  split
  · exact h
  · exact h.same

theorem State.Canonical.tryLaunch {l q} (h : s.Canonical) : (s.tryLaunch l q).2.Canonical := by
  unfold State.tryLaunch
  dsimp only
  split
  · exact h
  · split
    · exact h.beginLaunch
    · exact (h.foldl (fun _ _ h => h.askGang)).reserve

theorem State.Canonical.emptyLaunch {l} (h : s.Canonical) : (s.emptyLaunch l).Canonical := h.mapHwq.same.releaseHeld

/-- The state that the reads of a launch's validation leave is canonical. -/
def LaunchCheck.Canonical : LaunchCheck → Prop
  | .fault _ t => t.Canonical
  | .stall t => t.Canonical
  | .ok _ t => t.Canonical

theorem State.Canonical.checkLaunch {p hq q} (h : s.Canonical) : (s.checkLaunch p hq q).Canonical := by
  unfold State.checkLaunch
  dsimp only
  split
  · exact h
  · split
    · exact h
    · split
      · exact h
      · split
        · exact h.readTrips.right ‹_›
        · exact h.readTrips.right ‹_›
        · split
          · exact h.readTrips.right ‹_›
          · split <;> exact h.readTrips.right ‹_›

theorem State.Canonical.takeLaunch {p} (h : s.Canonical) : (s.takeLaunch p).Canonical := by
  unfold State.takeLaunch
  split
  · next hq q _ _ =>
    have hcheck := h.checkLaunch (p := p) (hq := hq) (q := q)
    split <;> simp only [*] at hcheck
    · exact State.Canonical.packetHalt hcheck
    · exact State.Canonical.mapHwq hcheck
    · have ht : State.Canonical _ := hcheck
      dsimp only
      split
      · exact ht.same.emptyLaunch.selectDue
      · exact ht.same.tryLaunch
  · exact h

theorem State.Canonical.performPacket {p} (h : s.Canonical) : (s.performPacket p).Canonical := by
  unfold State.performPacket
  dsimp only
  split
  · exact h.packetStarts.packetDone
  · exact h.takeLaunch
  · exact h.packetStarts.waitLook
  · exact h.packetStarts.holdAt
  · exact h.packetStarts.packetDone
  · exact h.packetStarts.stepsFrom

theorem State.Canonical.runPacket {p} (h : s.Canonical) : (s.runPacket p).Canonical := by
  unfold State.runPacket
  split
  · exact h
  · split
    · exact h
    · split
      · exact h.packetHalt
      · exact h.performPacket

theorem packetStepOf_canonical {t p} (h : s.Canonical) : CanonicalOut (packetStepOf t p s) := by
  unfold packetStepOf
  split
  · exact .next h.runPacket
  · exact .next h

theorem execWaitRecheck_canonical {q} (h : s.Canonical) : CanonicalOut (execWaitRecheck q s) := by
  unfold execWaitRecheck
  split
  · exact .next h.waitLook
  · exact .next h
  · exact .next h
  · exact .next h

theorem execWaitTimeout_canonical {q} (h : s.Canonical) : CanonicalOut (execWaitTimeout q s) := by
  unfold execWaitTimeout
  split
  · split
    · exact .next h
    · exact .next h.packetHalt
  · exact .next h
  · exact .next h
  · exact .next h

theorem execCopyDone_canonical {q} (h : s.Canonical) : CanonicalOut (execCopyDone q s) := by
  unfold execCopyDone
  split
  · split
    · exact .next h
    · exact .next h.copyPacket
  · exact .next h
  · exact .next h
  · exact .next h

theorem execDependSatisfied_canonical {q} (h : s.Canonical) : CanonicalOut (execDependSatisfied q s) := by
  unfold execDependSatisfied
  split
  · exact .next h.stepsFrom
  · exact .next h
  · exact .next h
  · exact .next h

theorem State.Canonical.readSlot {h'} (h : s.Canonical) : (s.readSlot h').2.Canonical := by
  unfold State.readSlot
  dsimp only
  split
  · exact h
  · split
    · exact h.translate.right ‹_›
    · exact (h.translate.right ‹_›).touch

theorem State.Canonical.fetchNext {h'} (h : s.Canonical) : (s.fetchNext h').Canonical := by
  unfold State.fetchNext
  dsimp only
  split
  · exact h.readSlot.right ‹_›
  · split
    · exact (h.readSlot.right ‹_›).haltQueue
    · exact h.readSlot.right ‹_›
  · split
    · exact h.readSlot.right ‹_›
    · exact (h.readSlot.right ‹_›).mapHwq.setQword.runPacket

theorem State.Canonical.setRr {die lvl q} (h : s.Canonical) : (s.setRr die lvl q).Canonical := h.same

/-- The state in which serving a queue leaves the module is canonical. -/
def Served.Canonical : Served → Prop
  | .topped t => t.Canonical
  | .goOn t => t.Canonical
  | .ends t => t.Canonical

theorem State.Canonical.afterServe {s0 s : State} {die lvl q} (h : s.Canonical) : (s0.afterServe s die lvl q).Canonical := by
  unfold State.afterServe
  split
  · exact h
  · split
    · exact h.setRr
    · exact h

theorem State.Canonical.serve {die lvl q} (h : s.Canonical) : (s.serve die lvl q).Canonical := by
  unfold State.serve
  split
  · exact h
  · split
    · exact h.mapHwq
    · split
      · split
        · exact h
        · exact h.tryLaunch.afterServe
      · exact h.runPacket.afterServe
      · split
        · exact h.fetchNext.afterServe
        · exact h

theorem State.Canonical.selectPass {die lvl qs} (h : s.Canonical) : (s.selectPass die lvl qs).1.Canonical := by
  induction qs generalizing s with
  | nil => exact h
  | cons q qs ih =>
    have hserve := h.serve (die := die) (lvl := lvl) (q := q)
    unfold State.selectPass
    split <;> simp only [*] at hserve
    · exact hserve
    · exact ih hserve
    · exact ih hserve

theorem State.Canonical.selectLevel {die lvl n qs} (h : s.Canonical) : (s.selectLevel die lvl n qs).1.Canonical := by
  induction n generalizing s qs with
  | zero => exact h
  | succ n ih =>
    unfold State.selectLevel
    split
    · exact h
    · split
      · exact h.selectPass.left ‹_›
      · exact ih (h.selectPass.left ‹_›)

theorem State.Canonical.selectFrom {die n lvl} (h : s.Canonical) : (s.selectFrom die n lvl).Canonical := by
  induction n generalizing s lvl with
  | zero => exact h
  | succ n ih =>
    unfold State.selectFrom
    split
    · exact h.selectLevel.left ‹_›
    · exact ih (h.selectLevel.left ‹_›)

theorem State.Canonical.clearDeficits (h : s.Canonical) : s.clearDeficits.Canonical := h.same

theorem State.Canonical.retrySignals {die} (h : s.Canonical) : (s.retrySignals die).Canonical :=
  h.foldl (fun _ _ h => h.releaseHeld)

theorem State.Canonical.select {die} (h : s.Canonical) : (s.select die).Canonical := by
  unfold State.select
  dsimp only
  split
  · exact h
  · exact h.same.retrySignals.clearDeficits.selectFrom

theorem State.Canonical.haltOver {h'} (h : s.Canonical) : (s.haltOver h').Canonical := h.haltQueue

theorem State.Canonical.resumeRequests {session path} (h : s.Canonical) : (s.resumeRequests session path).Canonical := h.same

theorem State.Canonical.publish {x} (h : s.Canonical) : (s.publish x).Canonical :=
  h.setQword.respond.same.resumeRequests.same

theorem State.Canonical.publishDue {q} (h : s.Canonical) : (s.publishDue q).Canonical := by
  unfold State.publishDue
  split
  · exact h
  · exact h.publish

theorem State.Canonical.markPending {q} (h : s.Canonical) : (s.markPending q).Canonical := h.same

theorem State.Canonical.ring {q} (h : s.Canonical) : (s.ring q).Canonical := by
  unfold State.ring
  dsimp only
  split
  · exact h
  · split
    · exact h.markPending.haltOver.select
    · exact h.markPending.select

theorem execQueueDoorbell_canonical {q} (h : s.Canonical) : CanonicalOut (execQueueDoorbell q s) := by
  unfold execQueueDoorbell
  split
  · exact .next h
  · exact .next h.publishDue.ring

theorem State.Canonical.beginRun {q h' ctl} (h : s.Canonical) : (s.beginRun q h' ctl).Canonical := by
  unfold State.beginRun
  dsimp only
  split
  · exact h.mapHwq.takeFree.haltQueue
  · split
    · exact h.mapHwq.haltOver
    · split
      · exact h.mapHwq.mapHwq.setQword.setQword.setQword.markPending.select
      · exact h.mapHwq.mapHwq.setQword.markPending.select

theorem State.Canonical.runStart {q} (h : s.Canonical) : (s.runStart q).Canonical := by
  unfold State.runStart
  dsimp only
  split
  · exact h
  · split
    · exact h
    · split
      · exact h.setQword.ring
      · exact h.beginRun

theorem State.Canonical.runStop {q} (h : s.Canonical) : (s.runStop q).Canonical := by
  unfold State.runStop
  dsimp only
  split
  · exact h
  · split
    · exact h
    · exact h.mapHwq.setQword.ring

theorem execPriorityAging_canonical {q} (h : s.Canonical) : CanonicalOut (execPriorityAging q s) := by
  unfold execPriorityAging
  split
  · exact .next h
  · split
    · exact .next h.mapHwq
    · exact .next h

theorem execSliceEnd_canonical {l} (h : s.Canonical) : CanonicalOut (execSliceEnd l s) := by
  unfold execSliceEnd
  dsimp only
  split
  · exact .next h
  · split
    · exact .next h
    · split
      · exact .next h.takeFree.mapHwq.askGang
      · exact .next h.takeFree.mapHwq

theorem State.Canonical.retireLaunch {x} (h : s.Canonical) : (s.retireLaunch x).Canonical :=
  h.freeGang.same.mapHwq.releaseHeld.selectDue

theorem execLaunchRetire_canonical {l} (h : s.Canonical) : CanonicalOut (execLaunchRetire l s) := by
  unfold execLaunchRetire
  split
  · exact .next h
  · split
    · exact .next h.retireLaunch
    · exact .next h

theorem State.Canonical.stepDataError {q idx step} (h : s.Canonical) : (s.stepDataError q idx step).Canonical := h.mapHwq

theorem State.Canonical.saveDataError {ctx} (h : s.Canonical) : (s.saveDataError ctx).Canonical := by
  unfold State.saveDataError
  dsimp only
  split
  · exact h
  · split
    · exact h
    · exact h.takeFree.endLaunch

theorem execGangPreempt_canonical {l} (h : s.Canonical) : CanonicalOut (execGangPreempt l s) := by
  unfold execGangPreempt
  split
  · exact .next h
  · split
    · exact .next h.askGang
    · exact .next h

theorem State.Canonical.forceStop (h : s.Canonical) : s.forceStop.Canonical := by
  unfold State.forceStop
  split
  · exact h
  · exact h.stopStrand.parkGang

theorem execPreemptDeadline_canonical {who} (h : s.Canonical) : CanonicalOut (execPreemptDeadline who s) := by
  unfold execPreemptDeadline
  dsimp only
  refine .next (h.onStrand fun t h => ?_)
  split
  · exact h
  · exact h
  · split
    · exact h.forceStop
    · exact h.withCur

end Sys2Proof.Machine
end

section
/-!
### The canonical form under vector and matrix arithmetic and the onion's words
-/

set_option Elab.async false

namespace Sys2Proof.Machine

variable {s : State}

theorem State.Canonical.intWise {d w m f} (h : s.Canonical) : (s.intWise d w m f).Canonical := by
  unfold State.intWise
  dsimp only
  split
  · exact h.vstart0
  · exact h.writeVec.convSat

theorem intVV_canonical {k f o} (h : s.Canonical) : CanonicalOut (intVV k f o s) :=
  vecWord_canonical h (fun _ h => h.intWise.next8)

theorem intVVW_canonical {k f o} (h : s.Canonical) : CanonicalOut (intVVW k f o s) :=
  vecWord_canonical h (fun _ h => h.intWise.next8)

theorem intVS_canonical {k f o} (h : s.Canonical) : CanonicalOut (intVS k f o s) :=
  vecWord_canonical h (fun _ h => h.intWise.next8)

theorem intVI_canonical {k f o} (h : s.Canonical) : CanonicalOut (intVI k f o s) :=
  vecWord_canonical h (fun _ h => h.intWise.next8)

theorem State.Canonical.merge {d n m x y} (h : s.Canonical) : (s.merge d n m x y).Canonical := by
  unfold State.merge
  split
  · exact h.vstart0
  · exact h.writeVec

theorem State.Canonical.floatWise {d w m f} (h : s.Canonical) : (s.floatWise d w m f).Canonical := by
  unfold State.floatWise
  dsimp only
  split
  · exact h.vstart0
  · exact h.writeVec.convFlags

theorem floatVV_canonical {iter g o} (h : s.Canonical) : CanonicalOut (floatVV iter g o s) :=
  vecWord_canonical h (fun _ h => h.floatWise.next8)

theorem floatVS_canonical {iter g o} (h : s.Canonical) : CanonicalOut (floatVS iter g o s) :=
  vecWord_canonical h (fun _ h => h.floatWise.next8)

theorem fusedVV_canonical {negP negZ o} (h : s.Canonical) : CanonicalOut (fusedVV negP negZ o s) :=
  vecWord_canonical h (fun _ h => h.floatWise.next8)

theorem fusedVS_canonical {negP negZ o} (h : s.Canonical) : CanonicalOut (fusedVS negP negZ o s) :=
  vecWord_canonical h (fun _ h => h.floatWise.next8)

theorem floatV_canonical {iter g o} (h : s.Canonical) : CanonicalOut (floatV iter g o s) :=
  vecWord_canonical h (fun _ h => h.floatWise.next8)

theorem State.Canonical.floatMask {d m f} (h : s.Canonical) : (s.floatMask d m f).Canonical := by
  unfold State.floatMask
  split
  · exact h.vstart0
  · exact h.writeMask.convFlags

theorem State.Canonical.writeSeeds {d w rs} (h : s.Canonical) : (s.writeSeeds d w rs).Canonical :=
  h.withVec.notePush.convFlags

theorem State.Canonical.reduce {d a b n w m comb} (h : s.Canonical) : (s.reduce d a b n w m comb).Canonical := h.writeSeeds

theorem redWord_canonical {wide g o} (h : s.Canonical) : CanonicalOut (redWord wide g o s) :=
  vecWord_canonical h (fun _ h => h.reduce.next8)

theorem fredWord_canonical {comb g o} (h : s.Canonical) : CanonicalOut (fredWord comb g o s) :=
  vecWord_canonical h (fun _ h => h.reduce.next8)

theorem State.Canonical.scan {d a b n m g} (h : s.Canonical) : (s.scan d a b n m g).Canonical := by
  unfold State.scan
  dsimp only
  split
  · exact h.vstart0
  · exact h.writeVec.convFlags

theorem State.Canonical.mapSlices {f} (h : s.Canonical) : (s.mapSlices f).1.Canonical := h.withVec

theorem State.Canonical.stopMatrix {k late} (h : s.Canonical) : (s.stopMatrix k late).Canonical := by
  unfold State.stopMatrix
  dsimp only
  split
  · exact h.withVec.withCur.raiseLate
  · exact h.withVec.raisePreempt

theorem State.Canonical.endMatrix (h : s.Canonical) : s.endMatrix.Canonical := h.withCur.next8

theorem rankOne_canonical {neg o} (h : s.Canonical) : CanonicalOut (rankOne neg o s) := by
  unfold rankOne
  dsimp only
  refine vecWord_canonical h fun t h => ?_
  split
  · exact h.trap
  · exact h.mapSlices.convFlags.next8

theorem State.Canonical.countSteps {n} (h : s.Canonical) : (s.countSteps n).Canonical := h.count

theorem State.Canonical.mmacSteps {o} (h : s.Canonical) : (s.mmacSteps o).Canonical := by
  unfold State.mmacSteps
  dsimp only
  split
  · split
    · exact h.mapSlices.mapSlices.countSteps.raise.stopMatrix
    · exact h.mapSlices.countSteps.raise.stopMatrix
  · split
    · exact h.mapSlices.mapSlices.countSteps.mapSlices.convFlags.endMatrix
    · exact h.mapSlices.countSteps.mapSlices.convFlags.endMatrix

theorem execMmac_canonical {o} (h : s.Canonical) : CanonicalOut (execMmac o s) := by
  unfold execMmac
  refine vecWord_canonical h fun t h => ?_
  split
  · exact h.trap
  · split
    · exact h.trap
    · exact h.mmacSteps

theorem State.Canonical.writeRow {d w rs} (h : s.Canonical) : (s.writeRow d w rs).Canonical := h.withVec.notePush

theorem execMzpt_canonical {o} (h : s.Canonical) : CanonicalOut (execMzpt o s) := by
  unfold execMzpt
  refine vecWord_canonical h fun t h => ?_
  split <;> exact h.mapSlices.next8

theorem State.Canonical.runSpload {b} (h : s.Canonical) : (State.runSpload b s).2.Canonical := by
  obtain ⟨fault, hfault⟩ : ∃ f, f = SpBlock.fault := ⟨_, rfl⟩
  unfold State.runSpload
  rw [← hfault]
  split
  · exact h
  · split
    · exact h
    · split
      · next hsort =>
        have hs := h.sortPages.right hsort
        dsimp only
        split
        · exact hs.touchReads
        · split <;> exact hs.touchReads

theorem execQsploadPerform_canonical {who j} (h : s.Canonical) : CanonicalOut (execQsploadPerform who j s) := by
  refine performEvent_canonical h fun c run hrun t h => ?_
  cases c <;> cases hrun
  exact h.runSpload

theorem State.Canonical.runSploadUpTo {b k} (h : s.Canonical) : (State.runSploadUpTo b k s).2.Canonical := by
  obtain ⟨fault, hfault⟩ : ∃ f, f = SpBlock.fault := ⟨_, rfl⟩
  unfold State.runSploadUpTo
  rw [← hfault]
  split
  · exact h
  · split
    · exact h
    · split
      · next hsort =>
        have hs := h.sortPages.right hsort
        dsimp only
        split
        · exact hs.touchReads
        · split <;> exact hs.touchReads

theorem State.Canonical.failCmd {j e detail run} (h : s.Canonical) (hrun : ∀ t, t.Canonical → (run t).2.Canonical) :
    (s.failCmd j e detail run).Canonical := by
  unfold State.failCmd
  dsimp only
  split
  · exact ((hrun _ h)).right ‹_›
  · exact (((hrun _ h)).right ‹_›).engineFault
  · exact (((hrun _ h)).right ‹_›).partOf.haltWith

theorem State.Canonical.run? {c : QCmd} {run} (h : s.Canonical) (hrun : c.run? = some run) : (run s).2.Canonical := by
  cases c <;> cases hrun
  · exact h.runCopy
  · exact h.runGather
  · exact h.runGather
  · exact h.runPload
  · exact h.runPstore
  · exact h.runSpload

theorem State.Canonical.commandDataError {j k} (h : s.Canonical) : (s.commandDataError j k).Canonical := by
  unfold State.commandDataError
  dsimp only
  split
  · exact h
  · split
    · exact h
    · refine h.atLevel fun t h => ?_
      split
      · split
        · exact h.failCmd fun _ h => h.runSpload
        · exact h.failCmd fun _ h => h.runSploadUpTo
      · split
        · exact h.haltEngine
        · exact h
      · split
        · exact (h.signalStore.right ‹_›).engineFault
        · exact h.signalStore.right ‹_›
      · split
        · next hrun => exact h.failCmd fun _ h => h.run? hrun
        · exact h

theorem State.Canonical.sparseSteps {acc fa fb pb planes w steps} (h : s.Canonical) :
    (s.sparseSteps acc fa fb pb planes w steps).Canonical := by
  unfold State.sparseSteps
  dsimp only
  split
  · split
    · exact h.mapSlices.mapSlices.countSteps.raise.stopMatrix
    · exact h.mapSlices.countSteps.raise.stopMatrix
  · split
    · exact h.mapSlices.mapSlices.countSteps.mapSlices.convFlags.endMatrix
    · exact h.mapSlices.countSteps.mapSlices.convFlags.endMatrix

theorem execSpmmac_canonical {o} (h : s.Canonical) : CanonicalOut (execSpmmac o s) := by
  unfold execSpmmac
  dsimp only
  refine vecWord_canonical h fun t h => ?_
  split
  · exact h.trap
  · exact h.sparseSteps

theorem execSpres_canonical {o} (h : s.Canonical) : CanonicalOut (execSpres o s) := by
  unfold execSpres
  dsimp only
  refine vecWord_canonical h fun t h => ?_
  split
  · exact h.trap
  · split
    · exact h.endMatrix
    · exact h.sparseSteps

theorem execSpstat_canonical {o} (h : s.Canonical) : CanonicalOut (execSpstat o s) := by
  unfold execSpstat
  dsimp only
  refine vecWord_canonical h fun t h => ?_
  split
  · exact h.trap
  · split
    · exact h.trap
    · exact h.setX.next8

end Sys2Proof.Machine
end

section
/-!
### The canonical form under the ports and the verbs of the host
-/

set_option Elab.async false

namespace Sys2Proof.Machine

variable {s : State}

theorem State.Canonical.serviceReport {kind cls index left holder} (h : s.Canonical) :
    (s.serviceReport kind cls index left holder).Canonical :=
  h.foldl (fun _ _ h => h.send)

theorem State.Canonical.mapGroup {g f} (h : s.Canonical) : (s.mapGroup g f).Canonical := h.same

theorem State.Canonical.rmAll {g} (h : s.Canonical) : (s.rmAll g).Canonical := h.same

theorem State.Canonical.startSwitch {g target cold} (h : s.Canonical) : (s.startSwitch g target cold).Canonical := by
  unfold State.startSwitch
  dsimp only
  split
  · exact h.mapGroup.mapStrands
  · exact h.mapGroup

theorem State.Canonical.requestSwitch {g r owned} (h : s.Canonical) : (s.requestSwitch g r owned).2.Canonical := by
  unfold State.requestSwitch
  dsimp only
  iterate 7
    split
    · exact h
  split
  · exact h.rmAll.startSwitch
  · exact h.startSwitch

theorem execPortsw_canonical {o} (h : s.Canonical) : CanonicalOut (execPortsw o s) := by
  unfold execPortsw
  dsimp only
  refine vecWord_canonical h fun t h => ?_
  split
  · exact h.requestSwitch.mapGroup.withCur
  · exact h.requestSwitch.setX.next8

theorem State.Canonical.answerSwitch {g} (h : s.Canonical) : (s.answerSwitch g).Canonical := by
  unfold State.answerSwitch
  dsimp only
  split
  · split
    · exact h.mapGroup
    · exact h.mapGroup.respond
  · split
    · refine h.mapGroup.onStrand fun t h => ?_
      split
      · exact h.setX.passWord
      · exact h
    · refine h.mapGroup.respond.onStrand fun t h => ?_
      split
      · exact h.setX.passWord
      · exact h

theorem State.Canonical.quiesce {g} (h : s.Canonical) : (s.quiesce g).Canonical := h.mapGroup.answerSwitch

theorem State.Canonical.whenGroup {g st f} (h : s.Canonical) (hf : ∀ t, t.Canonical → (f t).Canonical) :
    (s.whenGroup g st f).Canonical := by
  unfold State.whenGroup
  split
  · exact h
  · split
    · exact hf _ h
    · exact h

theorem State.Canonical.drain {g} (h : s.Canonical) : (s.drain g).Canonical := h.mapStrands

theorem execSwitchDrainComplete_canonical {g} (h : s.Canonical) : CanonicalOut (execSwitchDrainComplete g s) := by
  unfold execSwitchDrainComplete
  dsimp only
  refine .next (h.whenGroup fun t h => ?_)
  split
  · exact h.drain
  · exact h.drain.quiesce

theorem State.Canonical.failPending {g who} (h : s.Canonical) : (s.failPending g who).Canonical := by
  unfold State.failPending
  dsimp only
  refine h.onStrand fun t h => ?_
  split
  · exact h
  · split
    · exact h.withCur.trap
    · exact h

theorem execRetrainDone_canonical {g} (h : s.Canonical) : CanonicalOut (execRetrainDone g s) := by
  unfold execRetrainDone
  refine .next (h.whenGroup fun t h => ?_)
  split
  · exact h
  · exact h.mapGroup

theorem State.Canonical.groupEvent {g} (h : s.Canonical) : (s.groupEvent g).Canonical := by
  unfold State.groupEvent
  dsimp only
  split
  · exact h.partEvent
  · exact h.hostEvent

theorem State.Canonical.activate {g result pers} (h : s.Canonical) : (s.activate g result pers).Canonical :=
  h.mapGroup.groupEvent

theorem execVerifyPass_canonical {g} (h : s.Canonical) : CanonicalOut (execVerifyPass g s) := by
  unfold execVerifyPass
  refine .next (h.whenGroup fun t h => ?_)
  split
  · exact h
  · exact h.activate

theorem execFallbackActive_canonical {g} (h : s.Canonical) : CanonicalOut (execFallbackActive g s) := by
  unfold execFallbackActive
  refine .next (h.whenGroup fun t h => ?_)
  split
  · exact h.activate
  · exact h

theorem State.Canonical.loseLink {g} (h : s.Canonical) : (s.loseLink g).Canonical := h.whenGroup (fun _ h => h.mapGroup)

theorem State.Canonical.markRemoved {p} (h : s.Canonical) : (s.markRemoved p).Canonical := by
  unfold State.markRemoved
  dsimp only
  split
  · exact h
  · exact h.same

theorem State.Canonical.retireLane {g lane} (h : s.Canonical) : (s.retireLane g lane).Canonical := by
  unfold State.retireLane
  split
  · exact h
  · split
    · exact h
    · split
      · exact h.markRemoved.loseLink.serviceReport
      · exact h.mapGroup.serviceReport

theorem State.Canonical.heard {n path} (h : s.Canonical) : (s.heard n path).Canonical := h.same

theorem State.Canonical.answer {m status body} (h : s.Canonical) : (s.answer m status body).Canonical := h.respond

theorem State.Canonical.queueRequest {x m} (h : s.Canonical) : (s.queueRequest x m).Canonical := h.same

theorem request_canonical {verb used bits m f} (h : s.Canonical) (hf : ∀ b0 t1, t1.Canonical → (f b0 t1).Canonical) :
    CanonicalOut (request verb used bits m s f) := by
  unfold request
  split
  · exact .next h
  · split
    · exact .next h.answer
    · split
      · exact .next h.answer
      · split
        · exact .next h.answer
        · split
          · exact .next h.heard.queueRequest
          · exact .next (hf _ _ h.heard)

theorem State.Canonical.onPart {m x} {f : Partition → State} (h : s.Canonical) (hf : ∀ p, (f p).Canonical) :
    (s.onPart m x f).Canonical := by
  unfold State.onPart
  split
  · exact h.answer
  · exact hf _

theorem State.Canonical.addSession {path} (h : s.Canonical) : (s.addSession path).Canonical := h.same

theorem execOpenSession_canonical {m} (h : s.Canonical) : CanonicalOut (execOpenSession m s) := by
  unfold execOpenSession
  dsimp only
  split
  · exact .next h
  · split
    · exact .next h.answer
    · split
      · exact .next h.answer
      · split
        · exact .next h.addSession.answer
        · split
          · exact .next h.answer
          · split
            · exact .next h.addSession.mapPart.answer
            · exact .next h.answer

theorem execAttest_canonical {m} (h : s.Canonical) : CanonicalOut (execAttest m s) := by
  unfold execAttest
  dsimp only
  refine request_canonical h fun _ t h => ?_
  split
  · exact h.answer
  · exact h.same.answer

theorem State.Canonical.answerDevice {m} (h : s.Canonical) : (s.answerDevice m).Canonical := by
  unfold State.answerDevice
  split
  · exact h.answer
  · split
    · exact h
    · exact h.answer

theorem execKeepalive_canonical {m} (h : s.Canonical) : CanonicalOut (execKeepalive m s) := by
  unfold execKeepalive
  split
  · exact .next h
  · split
    · split
      · exact .next h.answerDevice
      · exact .next h
    · split
      · exact .next h.answer
      · exact .next h.heard

theorem execKeepaliveSend_canonical {session} (h : s.Canonical) : CanonicalOut (execKeepaliveSend session s) := by
  unfold execKeepaliveSend
  split
  · exact .next h
  · exact .next h.send

theorem State.Canonical.freshStrands {pid first count} (h : s.Canonical) : (s.freshStrands pid first count).Canonical :=
  h.mapStrands.same

theorem State.Canonical.clearDescriptor {q} (h : s.Canonical) : (s.clearDescriptor q).Canonical :=
  h.foldl (fun _ _ h => h.setQword)

theorem State.Canonical.withLarder {larder} (h : s.Canonical) (hl : larder.wf = true) :
    State.Canonical { s with larder := larder } := ⟨h.1, h.2.1, hl, h.2.2.2⟩

theorem State.Canonical.zeroLarders {first count} (h : s.Canonical) : (s.zeroLarders first count).Canonical := by
  unfold State.zeroLarders
  obtain ⟨_, _, hlarder, _⟩ := id h
  exact (h.withLarder (SMap.wf_filter _ hlarder)).same

theorem execCreatePartition_canonical {m} (h : s.Canonical) : CanonicalOut (execCreatePartition m s) := by
  unfold execCreatePartition
  dsimp only
  refine request_canonical h fun _ t h => ?_
  split
  · exact h.answer
  · split
    · exact h.answer
    · split
      · exact h.answer
      · exact (h.takeFree.takeFree.zeroLarders.freshStrands.same.foldl (fun _ _ h => h.clearDescriptor)).answer

theorem State.Canonical.writeVariant {p imgs v} (h : s.Canonical) : (s.writeVariant p imgs v).Canonical := by
  obtain ⟨hmem, _, _, hkeys⟩ := id h
  exact h.withMemKeys (Memory.wf_foldl_writeLE hmem _ _ _ _) (setKeys_wf hkeys)

theorem State.Canonical.copyCode {key dst host len} (h : s.Canonical) : (s.copyCode key dst host len).Canonical := by
  obtain ⟨hmem, _, _, hkeys⟩ := id h
  exact h.withMemKeys (Memory.wf_foldl_writeLE hmem _ _ _ _) (setKeys_wf hkeys)

theorem execLoadCode_canonical {m} (h : s.Canonical) : CanonicalOut (execLoadCode m s) := by
  refine request_canonical h fun x t h => h.onPart fun p => ?_
  exact h.answer.ite (h.answer.ite (h.copyCode.foldl fun _ _ h => h.writeVariant).mapPart.answer)

/-- The memory that page tables stand in, and its keys, are canonical. -/
def Tables.Canonical (t : Tables) : Prop := t.mem.wf = true ∧ SMap.wf 0 t.keys = true

theorem Tables.Canonical.put {t : Tables} {table i v} (h : t.Canonical) : (t.put table i v).Canonical := by
  unfold Tables.put
  split
  · exact ⟨Memory.wf_writeLE _ _ _ h.1, setKeys_wf h.2⟩
  · exact h

theorem Tables.Canonical.foldl {α : Type} {t : Tables} {f : Tables → α → Tables} {l : List α} (h : t.Canonical)
    (hf : ∀ t a, t.Canonical → (f t a).Canonical) : (l.foldl f t).Canonical :=
  List.foldlRecOn (motive := Tables.Canonical) _ _ h fun _ ht a _ => hf _ a ht

theorem Tables.Canonical.splitRun {t : Tables} {table level va} (h : t.Canonical) :
    (t.splitRun table level va).Canonical := by
  unfold Tables.splitRun
  dsimp only
  split
  · exact h
  · split
    · exact h
    · exact h.foldl fun _ _ h => h.put

/-- A range of memory emptied for a new table. -/
theorem Tables.Canonical.emptied {t : Tables} {lo hi a n made} (h : t.Canonical) :
    Tables.Canonical { t with mem := clearBytes t.mem lo hi, keys := setKeys t.keys a n t.key, made := made } :=
  ⟨SMap.wf_filter _ h.1, setKeys_wf h.2⟩

theorem Tables.Canonical.newTable {t : Tables} {e level} (h : t.Canonical) : (t.newTable e level).Canonical := by
  unfold Tables.newTable
  dsimp only
  split
  · exact h.emptied.foldl fun _ _ h => h.put
  · exact h.emptied

theorem Tables.Canonical.reach {t : Tables} {va n level table} (h : t.Canonical) :
    (t.reach va n level table).1.Canonical := by
  induction n generalizing t level table with
  | zero => exact h
  | succ n ih =>
    unfold Tables.reach
    dsimp only
    split
    · exact ih h.splitRun
    · exact ih h.splitRun.newTable.put

theorem Tables.Canonical.putLeaf {t : Tables} {root va pa left} (h : t.Canonical) :
    (t.putLeaf root va pa left).1.Canonical := by
  unfold Tables.putLeaf
  dsimp only
  split
  · exact h.reach.splitRun.put
  · exact h.reach.reach.splitRun.put

theorem Tables.Canonical.putLeaves {t : Tables} {root fuel va pa left} (h : t.Canonical) :
    (t.putLeaves root fuel va pa left).Canonical := by
  induction fuel generalizing t va pa left with
  | zero => exact h
  | succ fuel ih =>
    unfold Tables.putLeaves
    split
    · exact h
    · exact ih h.putLeaf

theorem Tables.Canonical.clearLeaves {t : Tables} {root fuel va left} (h : t.Canonical) :
    (t.clearLeaves root fuel va left).Canonical := by
  induction fuel generalizing t va left with
  | zero => exact h
  | succ fuel ih =>
    unfold Tables.clearLeaves
    split
    · exact h
    · refine ih ?_
      split
      · exact h
      · dsimp only
        split <;> exact h.put

theorem State.Canonical.tablesOf {p} (h : s.Canonical) : (s.tablesOf p).Canonical := ⟨h.1, h.2.2.2⟩

theorem State.Canonical.withTables {t} (h : s.Canonical) (ht : t.Canonical) : (s.withTables t).Canonical :=
  (h.withMemKeys ht.1 ht.2).same

theorem mapRequest_canonical {op used bits m f} (h : s.Canonical)
    (hf : ∀ x p t, t.Canonical → (f x p t).Canonical) : CanonicalOut (mapRequest op used bits m s f) := by
  unfold mapRequest
  split
  · exact .next h
  · refine request_canonical h fun x t h => ?_
    split
    · exact h.answer
    · exact h.onPart fun p => hf x p t h

theorem execMapWindowMap_canonical {m} (h : s.Canonical) : CanonicalOut (execMapWindowMap m s) := by
  refine mapRequest_canonical h fun x p t h => ?_
  dsimp only
  split
  · exact h.answer
  · exact (h.withTables h.tablesOf.putLeaves).mapPart.answer

theorem execMapWindowChange_canonical {m} (h : s.Canonical) : CanonicalOut (execMapWindowChange m s) := by
  unfold execMapWindowChange
  refine mapRequest_canonical h fun _ _ t h => ?_
  split
  · exact h.answer
  · exact h.mapPart.answer

theorem execMapWindowRemove_canonical {m} (h : s.Canonical) : CanonicalOut (execMapWindowRemove m s) := by
  refine mapRequest_canonical h fun x p t h => ?_
  dsimp only
  split
  · exact h.answer
  · exact (h.withTables h.tablesOf.clearLeaves).dropTlb.mapPart.answer

theorem State.Canonical.writeSlots {part ring size m n k} (h : s.Canonical) :
    CanonicalSome (s.writeSlots part ring size m n k) := by
  induction k with
  | zero => exact .some h
  | succ k ih =>
    unfold State.writeSlots
    split
    · exact .none
    · refine List.foldlRecOn (motive := CanonicalSome) _ _ (.some (ih _ ‹_›)) fun o ho i _ => ?_
      cases o with
      | none => exact .none
      | some u =>
        have hstore := (ho u rfl).landingStore (part := part) (va := ring + 64 * ((n + k) % 2 ^ size) + 8 * i)
          (v := BitVec.ofNat 64 (payload m (8 + 64 * k + 8 * i) 8))
        dsimp only [Option.bind_some]
        split
        · exact .some (hstore _ ‹_›)
        · exact .none

theorem execSubmit_canonical {m} (h : s.Canonical) : CanonicalOut (execSubmit m s) := by
  refine request_canonical h fun x t h => h.onPart fun p => ?_
  dsimp only
  split
  · exact h.answer
  · iterate 3
      split
      · exact h.answer
    split
    · exact h.answer
    · exact (h.writeSlots _ ‹_›).setQword.same.publishDue

theorem State.Canonical.settleCounters {core} (h : s.Canonical) : (s.settleCounters core).Canonical := by
  unfold State.settleCounters
  dsimp only
  split
  · exact h.stir.foldl (fun _ _ h => h.settleCounter)
  · exact h.foldl (fun _ _ h => h.settleCounter)

theorem execReadCounters_canonical {m} (h : s.Canonical) : CanonicalOut (execReadCounters m s) := by
  refine request_canonical h fun x t h => h.onPart fun p => ?_
  dsimp only
  split
  · exact h.answer
  · exact h.settleCounters.answer

theorem execSwitchPort_canonical {m} (h : s.Canonical) : CanonicalOut (execSwitchPort m s) := by
  unfold execSwitchPort
  dsimp only
  refine request_canonical h fun _ t h => ?_
  split
  · exact h.answer
  · split
    · exact h.requestSwitch.mapGroup
    · exact h.requestSwitch.answer

theorem execCheckpoint_canonical {m} (h : s.Canonical) : CanonicalOut (execCheckpoint m s) := by
  refine request_canonical h fun x t h => h.onPart fun p => ?_
  split
  · exact h.answer
  · split
    · exact h.answer
    · exact h.mapPart

theorem State.Canonical.endCheckpoint {part j status body} (h : s.Canonical) :
    (s.endCheckpoint part j status body).Canonical :=
  h.mapPart.respond.resumeRequests

theorem execCheckpointDone_canonical {part} (h : s.Canonical) : CanonicalOut (execCheckpointDone part s) := by
  refine .next ?_
  split
  · exact h
  · split
    · exact h
    · split
      · exact h.endCheckpoint
      · dsimp only
        split
        · exact h.endCheckpoint
        · split
          · exact h
          · exact h.endCheckpoint
          · exact (h.shuffle.withMem (SMap.wf_setRange _ _ h.shuffle.1)).endCheckpoint

theorem State.Canonical.tearDown {pid} (h : s.Canonical) : (s.tearDown pid).Canonical := h.stray.mapStrands.same

theorem State.Canonical.dropSession {n} (h : s.Canonical) : (s.dropSession n).Canonical := h.same

theorem State.Canonical.revoke {n} (h : s.Canonical) : (s.revoke n).Canonical := h.same

theorem State.Canonical.failSession {n who} (h : s.Canonical) : (s.failSession n who).Canonical := by
  unfold State.failSession
  dsimp only
  refine h.onStrand fun t h => ?_
  split
  · exact h
  · split
    · exact h.withCur.trap
    · exact h

theorem State.Canonical.quiesceQueues {pid} (h : s.Canonical) : (s.quiesceQueues pid).Canonical :=
  h.foldl (fun _ _ h => h.mapHwq.setQword)

theorem State.Canonical.terminate {pid} (h : s.Canonical) : (s.terminate pid).Canonical := by
  unfold State.terminate
  dsimp only
  split
  · exact h.quiesceQueues.mapPart.foldl (fun _ _ h => h.endLaunch)
  · exact (h.quiesceQueues.mapPart.foldl (fun _ _ h => h.endLaunch)).tearDown

theorem State.Canonical.tearDownDue {pid} (h : s.Canonical) : (s.tearDownDue pid).Canonical := by
  unfold State.tearDownDue
  split
  · exact h
  · split
    · exact h.tearDown
    · exact h

theorem State.Canonical.losePart {p} (h : s.Canonical) : (s.losePart p).Canonical := by
  unfold State.losePart
  dsimp only
  split
  · exact h.partEvent.mapPart
  · exact h.partEvent.mapPart.quiesceQueues
  · exact h.partEvent.mapPart.terminate

theorem execSessionLost_canonical {session} (h : s.Canonical) : CanonicalOut (execSessionLost session s) := by
  unfold execSessionLost
  dsimp only
  split
  · exact .next h
  · exact .next (((h.revoke.foldl (fun _ _ h => h.failSession)).foldl (fun _ _ h => h.losePart)).dropSession)

theorem State.Canonical.bringUp {img} (h : s.Canonical) : (s.bringUp img).Canonical := (h.withLarder (SMap.wf_nil _)).same

theorem execFirmware_canonical {m} (h : s.Canonical) : CanonicalOut (execFirmware m s) := by
  unfold execFirmware
  dsimp only
  split
  · exact .next h
  · split
    · exact .next h.answer
    · split
      · exact .next h.answer
      · split
        · exact .next h.same.answer
        · split
          · exact .next h.bringUp.answer
          · exact .next h.same.answer

end Sys2Proof.Machine
end

section
/-!
### The canonical form under the scoreboard, the service processor and the system words
-/

set_option Elab.async false

namespace Sys2Proof.Machine

variable {s : State}

theorem floatResult_canonical {d r} (h : s.Canonical) : CanonicalOut (floatResult d r s) := .next h.setX.raise.next4

theorem float2_canonical {o op} (h : s.Canonical) : CanonicalOut (float2 o s op) := floatResult_canonical h

theorem float1_canonical {o op} (h : s.Canonical) : CanonicalOut (float1 o s op) := floatResult_canonical h

theorem floatCmp_canonical {o c} (h : s.Canonical) : CanonicalOut (floatCmp o s c) := float2_canonical h

theorem float3_canonical {o negP negZ} (h : s.Canonical) : CanonicalOut (float3 o s negP negZ) := floatResult_canonical h

theorem State.Canonical.deliverLoad {e x v} (h : s.Canonical) : (s.deliverLoad e x v).Canonical := by
  unfold State.deliverLoad
  dsimp only
  split
  · exact h.withVec
  · exact h.setX

theorem State.Canonical.replayLoad {e x} (h : s.Canonical) : CanonicalOk (s.replayLoad e x) := by
  unfold State.replayLoad
  dsimp only
  split
  · exact .error
  · exact .ok (h.access.right ‹_›).touch.deliverLoad

theorem State.Canonical.replayStore {e x} (h : s.Canonical) : CanonicalOk (s.replayStore e x) := by
  unfold State.replayStore
  dsimp only
  split
  · exact .error
  · exact .ok (h.access.right ‹_›).storeAt

theorem State.Canonical.replayAdd {e x} (h : s.Canonical) : CanonicalOk (s.replayAdd e x) := by
  unfold State.replayAdd
  split
  · exact .error
  · exact .ok (h.access.right ‹_›).storeAt

theorem State.Canonical.replayAmo {e x} (h : s.Canonical) : CanonicalOk (s.replayAmo e x) := by
  unfold State.replayAmo
  dsimp only
  split
  · exact .error
  · exact .ok (h.access.right ‹_›).amoWrite.setX

theorem State.Canonical.replayClaim {e x} (h : s.Canonical) : CanonicalOk (s.replayClaim e x) := by
  unfold State.replayClaim
  dsimp only
  split
  · exact .error
  · exact .ok (h.access.right ‹_›).amoWrite.withVec.setX

theorem State.Canonical.replayElem {e x} (h : s.Canonical) : CanonicalOk (s.replayElem e x) := by
  unfold State.replayElem
  split
  · exact h.replayLoad
  · split
    · exact h.replayAdd
    · exact h.replayStore
  · split
    · exact h.replayClaim
    · exact h.replayAmo

theorem State.Canonical.replayFrom {e xs} (h : s.Canonical) : (s.replayFrom e xs).2.2.Canonical := by
  induction xs generalizing s with
  | nil => exact h
  | cons x xs ih =>
    unfold State.replayFrom
    split
    · exact ih (h.replayElem _ ‹_›)
    · exact h

theorem State.Canonical.setEntry {i e} (h : s.Canonical) : (s.setEntry i e).Canonical := h.withCur.writeBoard

theorem State.Canonical.markSettled {i e} (h : s.Canonical) : (s.markSettled i e).Canonical := h.setEntry

theorem State.Canonical.zeroEntry {i e} (h : s.Canonical) : (s.zeroEntry i e).Canonical := by
  unfold State.zeroEntry
  dsimp only
  split
  · exact (h.foldl (fun _ _ h => h.deliverLoad)).markSettled
  · exact h.markSettled
  · exact h.setX.markSettled

theorem State.Canonical.propagateEntry {i e} (h : s.Canonical) : (s.propagateEntry i e).Canonical := h.partEvent.zeroEntry

theorem State.Canonical.replayEntry {i e} (h : s.Canonical) : (s.replayEntry i e).2.Canonical := by
  unfold State.replayEntry
  dsimp only
  split
  · exact h
  · split
    · exact (h.withCur.replayFrom.right2 ‹_›).withCur.markSettled
    · exact (h.withCur.replayFrom.right2 ‹_›).withCur.setEntry
    · exact (h.withCur.replayFrom.right2 ‹_›).withCur.setEntry

theorem State.Canonical.settleWith {f} (h : s.Canonical)
    (hf : ∀ t watch late, t.Canonical → (f t watch late).Canonical) :
    (s.settleWith f).Canonical := by
  unfold State.settleWith
  refine h.foldl fun t _ h => ?_
  split
  · exact h
  · split
    · exact h
    · exact hf _ _ _ h

theorem State.Canonical.holdInBoard (h : s.Canonical) : s.holdInBoard.Canonical := h.withCur

theorem State.Canonical.propagateAll (h : s.Canonical) : s.propagateAll.Canonical :=
  h.holdInBoard.settleWith (fun _ _ _ h => h.propagateEntry)

theorem State.Canonical.returnSettle (h : s.Canonical) : s.returnSettle.Canonical := by
  unfold State.returnSettle
  refine h.settleWith fun t _ _ h => ?_
  split
  · exact h.replayEntry.right ‹_›
  · exact (h.replayEntry.right ‹_›).propagateEntry
  · exact h.replayEntry.right ‹_›

theorem execScoreboardSettleTimeout_canonical {who} (h : s.Canonical) :
    CanonicalOut (execScoreboardSettleTimeout who s) := by
  unfold execScoreboardSettleTimeout
  refine .next (h.onStrand fun t h => ?_)
  split
  · exact h
  · exact h.propagateAll

theorem execPowerGood_canonical (h : s.Canonical) : CanonicalOut (execPowerGood s) := by
  unfold execPowerGood
  dsimp only
  split
  · exact .next h
  · exact .next h.same.mapGroup

theorem execPowerLoss_canonical (h : s.Canonical) : CanonicalOut (execPowerLoss s) := by
  obtain ⟨hmem, hhost, _, _⟩ := h
  exact .next ⟨SMap.wf_filter _ hmem, hhost, SMap.wf_nil _, SMap.wf_nil _⟩

theorem State.Canonical.trip (h : s.Canonical) : s.trip.Canonical :=
  ((h.foldl (fun _ _ h => h.partEvent.hostEvent)).mapStrands).same

theorem execPowerSample_canonical {watts tempC flow} (h : s.Canonical) :
    CanonicalOut (execPowerSample watts tempC flow s) := by
  unfold execPowerSample
  dsimp only
  split
  · exact .next h
  · split
    · exact .next h.trip
    · exact .next h.takeFree.same

theorem State.Canonical.takeOver {p} (h : s.Canonical) : (s.takeOver p).Canonical := by
  unfold State.takeOver
  dsimp only
  split
  · exact h.mapStrands.same
  · exact h.mapStrands.same
  · exact h.same
  · exact h
  · exact h
  · exact h

theorem State.Canonical.moveEnds {p} (h : s.Canonical) : (s.moveEnds p).Canonical := by
  unfold State.moveEnds
  dsimp only
  split
  · exact h.mapStrands.same
  · exact h

theorem State.Canonical.withCore {core f} (h : s.Canonical) : (s.withCore core f).Canonical := h.same

theorem State.Canonical.freshCore {core} (h : s.Canonical) : (s.freshCore core).Canonical := h.withCore.same

theorem State.Canonical.spareFor {p} (h : s.Canonical) : (s.spareFor p).Canonical := by
  unfold State.spareFor
  split
  · exact h.freshCore.takeOver
  · exact h.takeOver

theorem State.Canonical.stopCore {core} (h : s.Canonical) : (s.stopCore core).Canonical := h.mapStrands

theorem State.Canonical.removePart {p} (h : s.Canonical) : (s.removePart p).Canonical := by
  unfold State.removePart
  dsimp only
  split
  · split
    · exact h.withCore.stopCore
    · exact h.withCore.stopCore.terminate
  · split
    · exact h.withCore
    · split
      · exact h.withCore
      · exact h.withCore.endLaunch
  · exact h.markRemoved
  · exact h.markRemoved
  · exact h
  · exact h

theorem State.Canonical.retirePart {p} (h : s.Canonical) : (s.retirePart p).Canonical := by
  unfold State.retirePart
  dsimp only
  split
  · exact h.retireLane
  · split
    · exact h.same.spareFor.serviceReport
    · exact h.same.removePart.serviceReport

theorem State.Canonical.correct {p} (h : s.Canonical) : (s.correct p).Canonical := by
  unfold State.correct
  dsimp only
  split
  · split
    · split
      · split
        · exact h.same.takeFree.retirePart
        · exact h.same.takeFree
      · split
        · exact h.same.countOn.takeFree.retirePart
        · exact h.same.countOn.takeFree
    · exact h.same
  · split
    · split
      · split
        · exact h.same.takeFree.retirePart
        · exact h.same.takeFree
      · split
        · exact h.same.countOn.takeFree.retirePart
        · exact h.same.countOn.takeFree
    · split
      · exact h.same
      · exact h.same.countOn
  · split
    · split
      · split
        · exact h.same.takeFree.retirePart
        · exact h.same.takeFree
      · split
        · exact h.same.countOn.takeFree.retirePart
        · exact h.same.countOn.takeFree
    · split
      · exact h.same
      · exact h.same.countOn

theorem execCorrectedError_canonical {p} (h : s.Canonical) : CanonicalOut (execCorrectedError p s) := by
  unfold execCorrectedError
  split
  · exact .next h.correct
  · exact .next h

theorem execUncorrectableError_canonical {p} (h : s.Canonical) : CanonicalOut (execUncorrectableError p s) := by
  unfold execUncorrectableError
  split
  · exact .next h
  · split
    · exact .next h
    · exact .next h.retirePart

theorem execTrapret_canonical (h : s.Canonical) : CanonicalOut (execTrapret s) := by
  unfold execTrapret
  dsimp only
  split
  · exact .next h.decodeTrap
  · split
    · exact .next h.trap
    · split
      · exact .next h.returnSettle.stallHere
      · exact .next h.returnSettle.trapReturn

theorem execResume_canonical {o} (h : s.Canonical) : CanonicalOut (execResume o s) := by
  unfold execResume
  dsimp only
  split
  · exact .next h.decodeTrap
  · split
    · exact .next h.setX.next4
    · split
      · exact .next h.setX.next4
      · split
        · exact .next h.zeroEntry.setX.next4
        · exact .next h.propagateEntry.setX.next4
        · split
          · exact .next (h.replayEntry.right ‹_›).setX.next4
          · exact .next (h.replayEntry.right ‹_›).stallHere

theorem execYield_canonical (h : s.Canonical) : CanonicalOut (execYield s) := by
  unfold execYield
  dsimp only
  split
  · exact .next h.next4
  · split
    · exact .next h.next4
    · split
      · exact .next h.next4.stopStrand.askGang.parkGang
      · exact .next h.next4

theorem State.Canonical.haltTask (h : s.Canonical) : s.haltTask.Canonical := by
  unfold State.haltTask
  dsimp only
  split
  · exact h.withCur
  · split
    · exact h.withCur.withCur.finishEnd.selectDue
    · exact h.withCur.mapLaunch.selectDue

theorem execHalt_canonical (h : s.Canonical) : CanonicalOut (execHalt s) := by
  unfold execHalt
  dsimp only
  split
  · exact .next h.withCur.withCur
  · split
    · exact .next h.withCur.propagateAll.haltTask
    · exact .next h.withCur.propagateAll.haltTask.parkGang

theorem State.Canonical.recordPlaces {va is} (h : s.Canonical) : (s.recordPlaces va is).2.Canonical := by
  induction is generalizing s with
  | nil => exact h
  | cons i is ih =>
    unfold State.recordPlaces
    dsimp only
    split
    · exact h.access.right ‹_›
    · next t ht =>
      have hs := ih (h.access.right ht)
      split <;> exact hs.right ‹_›

theorem State.Canonical.storeWord {p v} (h : s.Canonical) : (s.storeWord p v).Canonical := h.storeAt.noteWatch

theorem State.Canonical.deliverEvent {d va} (h : s.Canonical) : CanonicalSome (s.deliverEvent d va) := by
  unfold State.deliverEvent
  dsimp only
  split
  · exact .none
  · split
    · exact .none
    · split
      · exact .some (h.recordPlaces.right ‹_›).failed
      · exact .some (((((h.recordPlaces.right ‹_›).mapPart.foldl (fun _ _ h => h.storeWord)).withCur).setX).next4)

theorem execWaitev_canonical {o} (h : s.Canonical) : CanonicalOut (execWaitev o s) := by
  unfold execWaitev
  dsimp only
  split
  · exact .next h.decodeTrap
  · split
    · exact .next (h.deliverEvent _ ‹_›)
    · split
      · exact .next h.setX.next4
      · exact .next h.withCur

theorem execWaitevWake_canonical {who} (h : s.Canonical) : CanonicalOut (execWaitevWake who s) := by
  unfold execWaitevWake
  dsimp only
  refine .next (h.onStrand fun t h => ?_)
  split
  · exact h
  · split
    · exact h
    · split
      · exact (h.withCur.deliverEvent _ ‹_›).retireParcel
      · exact h.withCur.deliverEvent _ ‹_›

theorem execWaitevTimeout_canonical {who} (h : s.Canonical) : CanonicalOut (execWaitevTimeout who s) := by
  unfold execWaitevTimeout
  dsimp only
  refine .next (h.onStrand fun t h => ?_)
  split
  · exact h
  · split
    · exact h
    · exact h.withCur.setX.next4.retireParcel

theorem execInvtlb_canonical {o} (h : s.Canonical) : CanonicalOut (execInvtlb o s) := by
  unfold execInvtlb
  split
  · exact .next h.decodeTrap
  · exact .next h.dropTlb.next4

theorem execVconfig_canonical {o} (h : s.Canonical) : CanonicalOut (execVconfig o s) := by
  unfold execVconfig
  dsimp only
  refine vecWord_canonical h fun t h => ?_
  split
  · exact h.next8
  · exact h.withVec.next8

theorem State.Canonical.setvlfWrite {d vl ms} (h : s.Canonical) : (s.setvlfWrite d vl ms).Canonical := h.withVec.setX.next8

theorem execSetvlf_canonical {o} (h : s.Canonical) : CanonicalOut (execSetvlf o s) := by
  unfold execSetvlf
  dsimp only
  refine vecWord_canonical h fun t h => ?_
  split
  · exact h.setvlfWrite
  · split
    · exact h.sortPages.stallHere
    · split
      · exact h.sortPages.takeTrap
      · exact h.sortPages.touchElems.watchElems.setvlfWrite

theorem State.Canonical.vwhile {o} (h : s.Canonical) : (s.vwhile o).Canonical := by
  unfold State.vwhile
  dsimp only
  split
  · exact h.setX.setX.next8
  · split
    · exact h.setX.setX.setPc
    · exact h.setX.setX.withVec.setPc

theorem execVwhile_canonical {o} (h : s.Canonical) : CanonicalOut (execVwhile o s) := by
  unfold execVwhile
  refine vecWord_canonical h fun t h => ?_
  split
  · exact h.next8
  · exact h.vwhile

theorem execVwhilem_canonical {o} (h : s.Canonical) : CanonicalOut (execVwhilem o s) := by
  unfold execVwhilem
  dsimp only
  refine vecWord_canonical h fun t h => ?_
  split
  · exact h.next8
  · split
    · exact h.vwhile
    · exact h.setX.setX.next8

theorem maskBits2_canonical {o f} (h : s.Canonical) : CanonicalOut (maskBits2 o s f) :=
  vecWord_canonical h (fun _ h => h.elementWiseMask.next8)

theorem execVslideup_canonical {o} (h : s.Canonical) : CanonicalOut (execVslideup o s) := by
  unfold execVslideup
  dsimp only
  refine vecWord_canonical h fun t h => ?_
  split
  · exact h.vstart0.next8
  · exact h.writeVec.next8

theorem execVcompress_canonical {o} (h : s.Canonical) : CanonicalOut (execVcompress o s) := by
  unfold execVcompress
  dsimp only
  refine vecWord_canonical h fun t h => ?_
  split
  · exact h.vstart0.next8
  · exact h.withVec.notePush.next8

theorem execVmvxs_canonical {o} (h : s.Canonical) : CanonicalOut (execVmvxs o s) := by
  unfold execVmvxs
  dsimp only
  refine vecWord_canonical h fun t h => ?_
  split
  · exact h.vstart0.setX.next8
  · exact h.vstart0.next8

theorem execVmvsx_canonical {o} (h : s.Canonical) : CanonicalOut (execVmvsx o s) := by
  unfold execVmvsx
  dsimp only
  refine vecWord_canonical h fun t h => ?_
  split
  · exact h.vstart0.next8
  · exact h.withVec.notePush.next8

theorem State.Canonical.withImage {xa most len need f} (h : s.Canonical)
    (hf : ∀ t tbl, t.Canonical → (f t tbl).Canonical) :
    (s.withImage xa most len need f).Canonical := by
  unfold State.withImage
  refine h.trap.ite (h.trap.ite ?_)
  split
  · next tbl t ht =>
    have hs := h.sortPages.right ht
    exact hs.trap.ite (hs.stallHere.ite (hs.takeTrap.ite (hf _ _ hs)))

theorem State.Canonical.imageStore {tbl va v} (h : s.Canonical) : (s.imageStore tbl va v).Canonical := by
  unfold State.imageStore
  split
  · exact h
  · exact h.storeAt.noteWatch

theorem State.Canonical.imageRead {tbl va len} (h : s.Canonical) : (s.imageRead tbl va len).Canonical :=
  h.touchElems.noteWatch

theorem execVrestore_canonical {a} (h : s.Canonical) : CanonicalOut (execVrestore a s) := by
  unfold execVrestore
  dsimp only
  refine vecWord_canonical h fun t h => ?_
  refine h.withImage fun t _ h => ?_
  split
  · exact h.imageRead.withCur.withVec.next8
  · exact h.trap

end Sys2Proof.Machine
end

section
/-!
### The canonical form under every word and every step, and O57 and O58 from it
-/

set_option Elab.async false

namespace Sys2Proof.Machine

variable {s : State}

theorem exec_canonical {i} (h : s.Canonical) : CanonicalOut (exec i s) := by
  cases i with
  | add _ | sub _ | and _ | or _ | xor _ | andn _ | shl _ | shr _ | sha _ | min _ | max _ | minn _ | maxn _ | slt _
  | sltn _ | mul _ | mulh _ | mulhn _ | div _ | divn _ | rem _ | remn _ =>
    dsimp only [exec]
    exact aluRR_canonical h
  | clz _ | ctz _ | popc _ =>
    dsimp only [exec]
    exact aluR_canonical h
  | addi _ | andi _ | ori _ | xori _ | slti _ | sltni _ =>
    dsimp only [exec]
    exact aluRI_canonical h
  | shli _ | shri _ | shai _ =>
    dsimp only [exec]
    exact aluSh_canonical h
  | lui _ | adpc _ =>
    dsimp only [exec]
    exact h.result
  | ld8 _ | ld16 _ | ld32 _ | ld64 _ | ldn8 _ | ldn16 _ | ldn32 _ =>
    dsimp only [exec]
    exact scalarLoad_canonical h
  | st8 _ | st16 _ | st32 _ | st64 _ =>
    dsimp only [exec]
    exact scalarStore_canonical h
  | amoAdd _ | amoSwap _ | amoAnd _ | amoOr _ | amoXor _ | amoMin _ | amoMax _ | amoMinn _ | amoMaxn _ | amoCas _ =>
    dsimp only [exec]
    exact amo_canonical h
  | claim _ => exact execClaim_canonical h
  | beq _ | bne _ | blt _ | bge _ | bltn _ | bgen _ =>
    dsimp only [exec]
    exact branchOn_canonical h
  | jal _ =>
    dsimp only [exec]
    exact .next h.setX.setPc
  | jalr _ => exact execJalr_canonical h
  | fadd _ | fsub _ | fmul _ | fdiv _ | fmin _ | fmax _ | fsgnj _ | fsgnjn _ =>
    dsimp only [exec]
    exact float2_canonical h
  | fsqrt _ | fclass _ =>
    dsimp only [exec]
    exact float1_canonical h
  | feq _ | flt _ | fle _ =>
    dsimp only [exec]
    exact floatCmp_canonical h
  | fcvtfi _ | fcvtif _ | fcvtff _ =>
    dsimp only [exec]
    exact floatResult_canonical h
  | fma _ | fms _ | fnma _ | fnms _ =>
    dsimp only [exec]
    exact float3_canonical h
  | csrget _ => exact execCsrget_canonical h
  | csrput _ => exact execCsrput_canonical h
  | csrswap _ | csrset _ | csrclr _ =>
    dsimp only [exec]
    exact csrModify_canonical h
  | lanegrantWrite _ =>
    dsimp only [exec]
    exact .next h.writeLanegrant
  | ctxidWrite _ =>
    dsimp only [exec]
    exact .next h.writeCtxid
  | vownerWrite _ =>
    dsimp only [exec]
    exact .next h.writeVowner
  | pcntselWrite _ =>
    dsimp only [exec]
    exact .next h.writePcntsel
  | fence _ => exact execFence_canonical h
  | fenceEWaitDone _ => exact execFenceEWaitDone_canonical h
  | syscall | ebreak | illegalWord _ =>
    dsimp only [exec]
    exact .next h.trap
  | trapret => exact execTrapret_canonical h
  | resume _ => exact execResume_canonical h
  | track =>
    dsimp only [exec]
    exact .next h.withCur.next4
  | yield => exact execYield_canonical h
  | halt => exact execHalt_canonical h
  | waitev _ => exact execWaitev_canonical h
  | waitevWake _ => exact execWaitevWake_canonical h
  | waitevTimeout _ => exact execWaitevTimeout_canonical h
  | invtlb _ => exact execInvtlb_canonical h
  | cache _ =>
    dsimp only [exec]
    exact .next h.next4
  | setvl _ =>
    dsimp only [exec]
    exact vecWord_canonical h (fun _ h => h.withVec.setX.next8)
  | setvt _ | mexit =>
    dsimp only [exec]
    exact vecWord_canonical h (fun _ h => h.withVec.next8)
  | vconfig _ => exact execVconfig_canonical h
  | setvlf _ => exact execSetvlf_canonical h
  | menter =>
    dsimp only [exec]
    exact vecWord_canonical h (fun _ h => h.withCur.next8)
  | vaddVV _ | vsubVV _ | vandVV _ | vorVV _ | vxorVV _ | vshlVV _ | vshrVV _ | vshaVV _ | vminVV _ | vmaxVV _
  | vminnVV _ | vmaxnVV _ | vmulVV _ | vmulhVV _ | vmulhnVV _ | vdivVV _ | vdivnVV _ | vremVV _ | vremnVV _
  | vmaccVV _ | vaddsVV _ | vsubsVV _ | vaddsnVV _ | vsubsnVV _ | vavgVV _ | vsmulVV _ | vsshrVV _ | vwmulVV _
  | vwmulnVV _ | vwmaccVV _ | vwmaccnVV _ =>
    dsimp only [exec]
    exact intVV_canonical h
  | vaddVS _ | vsubVS _ | vandVS _ | vorVS _ | vxorVS _ | vshlVS _ | vshrVS _ | vshaVS _ | vminVS _ | vmaxVS _
  | vminnVS _ | vmaxnVS _ | vmulVS _ | vmulhVS _ | vmulhnVS _ | vdivVS _ | vdivnVS _ | vremVS _ | vremnVS _
  | vmaccVS _ | vaddsVS _ | vsubsVS _ | vaddsnVS _ | vsubsnVS _ | vavgVS _ | vsmulVS _ | vsshrVS _ | vwaddVS _
  | vwaddnVS _ | vwmulVS _ | vwmulnVS _ | vwmaccVS _ | vwmaccnVS _ | vnshrVS _ | vnclipVS _ | vnclipnVS _ =>
    dsimp only [exec]
    exact intVS_canonical h
  | vaddVI _ | vsubVI _ | vandVI _ | vorVI _ | vxorVI _ | vshlVI _ | vshrVI _ | vshaVI _ | vminVI _ | vmaxVI _
  | vminnVI _ | vmaxnVI _ | vaddsVI _ | vsubsVI _ | vaddsnVI _ | vsubsnVI _ | vsshrVI _ | vnshrVI _ | vnclipVI _
  | vnclipnVI _ =>
    dsimp only [exec]
    exact intVI_canonical h
  | vmergeVV _ | vmergeVS _ | vmergeVI _ =>
    dsimp only [exec]
    exact vecWord_canonical h (fun _ h => h.merge.next8)
  | vmvVV _ | vmvVS _ | vmvVI _ =>
    dsimp only [exec]
    exact vecWord_canonical h (fun _ h => h.elementWise.next8)
  | vwaddVV _ | vwaddnVV _ | vnshrVV _ | vnclipVV _ | vnclipnVV _ =>
    dsimp only [exec]
    exact intVVW_canonical h
  | vcmpVV _ | vcmpVS _ | vcmpVI _ | mnot _ =>
    dsimp only [exec]
    exact vecWord_canonical h (fun _ h => h.elementWiseMask.next8)
  | mand _ | mor _ | mxor _ | mandn _ =>
    dsimp only [exec]
    exact maskBits2_canonical h
  | morx _ | mori _ | mmovf _ =>
    dsimp only [exec]
    exact vecWord_canonical h (fun _ h => h.acrossMask.next8)
  | mcnt _ | mlow _ =>
    dsimp only [exec]
    exact vecWord_canonical h (fun _ h => h.vstart0.setX.next8)
  | mcum _ | vseq _ | vconfl _ | vslidedn _ | vpermv _ | vbcast _ =>
    dsimp only [exec]
    exact vecWord_canonical h (fun _ h => h.acrossElements.next8)
  | vslideup _ => exact execVslideup_canonical h
  | vcompress _ => exact execVcompress_canonical h
  | vmvxs _ => exact execVmvxs_canonical h
  | vmvsx _ => exact execVmvsx_canonical h
  | vwhile _ => exact execVwhile_canonical h
  | vwhilem _ => exact execVwhilem_canonical h
  | vfaddVV _ | vfsubVV _ | vfmulVV _ | vfdivVV _ | vfminVV _ | vfmaxVV _ | vfsgnVV _ | vfsgnnVV _ =>
    dsimp only [exec]
    exact floatVV_canonical h
  | vfaddVS _ | vfsubVS _ | vfmulVS _ | vfdivVS _ | vfminVS _ | vfmaxVS _ | vfsgnVS _ | vfsgnnVS _ =>
    dsimp only [exec]
    exact floatVS_canonical h
  | vfsqrt _ | vfclass _ | vfexp2 _ | vfrcp _ | vfrsqrt _ =>
    dsimp only [exec]
    exact floatV_canonical h
  | vfmaVV _ | vfmsVV _ | vfnmaVV _ =>
    dsimp only [exec]
    exact fusedVV_canonical h
  | vfmaVS _ | vfmsVS _ | vfnmaVS _ =>
    dsimp only [exec]
    exact fusedVS_canonical h
  | vfwmaVV _ | vfwmaVS _ =>
    dsimp only [exec]
    exact vecWord_canonical h (fun _ h => h.floatWise.next8)
  | vfcmpVV _ | vfcmpVS _ =>
    dsimp only [exec]
    exact vecWord_canonical h (fun _ h => h.floatMask.next8)
  | vfcvt _ =>
    dsimp only [exec]
    exact vecWord_canonical h (fun _ h => h.floatWise.convSat.next8)
  | vredsum _ | vredmin _ | vredmax _ | vredand _ | vredor _ | vredxor _ | vwredsum _ =>
    dsimp only [exec]
    exact redWord_canonical h
  | vfredsum _ | vfredosum _ | vfredmin _ | vfredmax _ =>
    dsimp only [exec]
    exact fredWord_canonical h
  | vscan _ | vfscan _ =>
    dsimp only [exec]
    exact vecWord_canonical h (fun _ h => h.scan.next8)
  | vld _ => exact execVld_canonical h
  | vlds _ => exact execVlds_canonical h
  | vldx _ => exact execVldx_canonical h
  | vldseg _ => exact execVldseg_canonical h
  | vldff _ =>
    dsimp only [exec]
    exact vecWord_canonical h (fun _ h => vmFirst_canonical h)
  | vst _ | vsts _ | vstx _ | vstseg _ =>
    dsimp only [exec]
    exact vecWord_canonical h (fun _ h => vmStore_canonical h)
  | vscadd _ =>
    dsimp only [exec]
    exact vecWord_canonical h (fun _ h => vmScatterAdd_canonical h)
  | vwait _ => exact execVwait_canonical h
  | vwaitWake _ =>
    dsimp only [exec]
    exact .next (h.onStrand (fun _ h => h.vwaitAgain))
  | vwaitTimeout _ => exact execVwaitTimeout_canonical h
  | stcfg _ => exact execStcfg_canonical h
  | stbind _ => exact execStbind_canonical h
  | stunbind _ => exact execStunbind_canonical h
  | ststat _ | mstat _ | portq _ =>
    dsimp only [exec]
    exact vecWord_canonical h (fun _ h => h.setX.next8)
  | streamFetch _ _ _ => exact execStreamFetch_canonical h
  | qcopy _ =>
    dsimp only [exec]
    exact vecWord_canonical h (fun _ h => h.doQcopy)
  | qgather _ | qscatter _ | qpload _ | qpstore _ | qspload _ =>
    dsimp only [exec]
    exact vecWord_canonical h (fun _ h => h.doQblock)
  | qfence _ =>
    dsimp only [exec]
    exact vecWord_canonical h (fun _ h => h.doQfence)
  | qsignal _ =>
    dsimp only [exec]
    exact vecWord_canonical h (fun _ h => h.doQsignal)
  | qstat _ =>
    dsimp only [exec]
    exact vecWord_canonical h (fun _ h => h.doQstat)
  | qstatWaitDone _ => exact execQstatWaitDone_canonical h
  | queueEntryRoom _ => exact execQueueEntryRoom_canonical h
  | qcopyPerform _ _ => exact execQcopyPerform_canonical h
  | qgatherPerform _ _ => exact execQgatherPerform_canonical h
  | qscatterPerform _ _ => exact execQscatterPerform_canonical h
  | qploadPerform _ _ => exact execQploadPerform_canonical h
  | qpstorePerform _ _ => exact execQpstorePerform_canonical h
  | qsploadPerform _ _ => exact execQsploadPerform_canonical h
  | qfencePass _ _ => exact execQfencePass_canonical h
  | qsignalPerform _ _ => exact execQsignalPerform_canonical h
  | watchImprecise _ _ => exact execWatchImprecise_canonical h
  | mzero _ | mwrite _ | mscl _ =>
    dsimp only [exec]
    exact vecWord_canonical h (fun _ h => h.mapSlices.next8)
  | mupd _ | mupdn _ =>
    dsimp only [exec]
    exact rankOne_canonical h
  | mmac _ => exact execMmac_canonical h
  | mread _ =>
    dsimp only [exec]
    exact vecWord_canonical h (fun _ h => h.writeRow.convFlags.next8)
  | mzpt _ => exact execMzpt_canonical h
  | spmmac _ => exact execSpmmac_canonical h
  | spres _ => exact execSpres_canonical h
  | spstat _ => exact execSpstat_canonical h
  | vsave _ =>
    dsimp only [exec]
    exact vecWord_canonical h (fun _ h => h.withImage (fun _ _ h => (h.foldl (fun _ _ h => h.imageStore)).next8))
  | vrestore _ => exact execVrestore_canonical h
  | portsw _ => exact execPortsw_canonical h
  | lateError _ _ _ =>
    dsimp only [exec]
    exact .next (h.onStrand (fun _ h => h.withCur))
  | scoreboardSettleTimeout _ => exact execScoreboardSettleTimeout_canonical h
  | queueDoorbell _ => exact execQueueDoorbell_canonical h
  | queueRunStart _ =>
    dsimp only [exec]
    exact .next h.runStart
  | queueRunStop _ =>
    dsimp only [exec]
    exact .next h.runStop
  | landingSelect _ =>
    dsimp only [exec]
    exact .next h.select
  | priorityAging _ => exact execPriorityAging_canonical h
  | sliceEnd _ => exact execSliceEnd_canonical h
  | nop _ | launch _ | write _ | signal _ | wait _ | writeSignal _ | copy _ | depend _ | fencePacket _ =>
    dsimp only [exec]
    exact packetStepOf_canonical h
  | waitRecheck _ => exact execWaitRecheck_canonical h
  | waitTimeout _ => exact execWaitTimeout_canonical h
  | copyDone _ => exact execCopyDone_canonical h
  | dependSatisfied _ => exact execDependSatisfied_canonical h
  | launchRetire _ => exact execLaunchRetire_canonical h
  | gangPreempt _ => exact execGangPreempt_canonical h
  | preemptDeadline _ => exact execPreemptDeadline_canonical h
  | gangResume _ =>
    dsimp only [exec]
    exact .next h.resumeGang
  | engineQuiesceTimeout _ =>
    dsimp only [exec]
    exact .next h.mapStrands
  | staleCompletion _ =>
    dsimp only [exec]
    exact .next h.mapPart
  | switchDrainComplete _ => exact execSwitchDrainComplete_canonical h
  | switchDrainLimit _ =>
    dsimp only [exec]
    exact .next (h.whenGroup (fun _ h => (h.drain.foldl (fun _ _ h => h.failPending)).quiesce))
  | quiesceEnd _ | trainingFail _ | verifyFail _ | verifyTimeout _ =>
    dsimp only [exec]
    exact .next (h.whenGroup (fun _ h => h.mapGroup))
  | retrainDone _ => exact execRetrainDone_canonical h
  | verifyPass _ => exact execVerifyPass_canonical h
  | fallbackActive _ => exact execFallbackActive_canonical h
  | fallbackDown _ =>
    dsimp only [exec]
    exact .next (h.whenGroup (fun _ h => h.mapGroup.groupEvent))
  | linkLost _ =>
    dsimp only [exec]
    exact .next h.loseLink
  | laneFailure _ _ =>
    dsimp only [exec]
    exact .next h.retireLane
  | openSession _ => exact execOpenSession_canonical h
  | attest _ => exact execAttest_canonical h
  | createPartition _ => exact execCreatePartition_canonical h
  | loadCode _ => exact execLoadCode_canonical h
  | submit _ => exact execSubmit_canonical h
  | readCounters _ => exact execReadCounters_canonical h
  | checkpoint _ => exact execCheckpoint_canonical h
  | mapWindowMap _ => exact execMapWindowMap_canonical h
  | mapWindowChange _ => exact execMapWindowChange_canonical h
  | mapWindowRemove _ => exact execMapWindowRemove_canonical h
  | switchPort _ => exact execSwitchPort_canonical h
  | close _ =>
    dsimp only [exec]
    exact request_canonical h (fun _ _ h => ((h.foldl (fun _ _ h => h.quiesceQueues.tearDown)).answer).dropSession)
  | keepalive _ => exact execKeepalive_canonical h
  | keepaliveSend _ => exact execKeepaliveSend_canonical h
  | sessionLost _ => exact execSessionLost_canonical h
  | atomicopCompletion _ _ _ => exact execAtomicopCompletion_canonical h
  | proxyResponse _ _ _ => exact execProxyResponse_canonical h
  | atomicTimeout _ => exact execAtomicTimeout_canonical h
  | firmware _ => exact execFirmware_canonical h
  | powerGood => exact execPowerGood_canonical h
  | powerSample _ _ _ => exact execPowerSample_canonical h
  | correctedError _ => exact execCorrectedError_canonical h
  | gddrCopyDone _ =>
    dsimp only [exec]
    exact .next h.same
  | patrolScrub =>
    dsimp only [exec]
    exact .next h
  | uncorrectableError _ => exact execUncorrectableError_canonical h
  | checkpointDone _ => exact execCheckpointDone_canonical h
  | powerLoss => exact execPowerLoss_canonical h

theorem State.Canonical.atSlot {first k w} (h : s.Canonical) : (s.atSlot first k w).Canonical := h.withCur

theorem State.Canonical.arenaTrap {k} (h : s.Canonical) : (s.arenaTrap k).Canonical := h.takeTrap

theorem State.Canonical.goneTrap {k} (h : s.Canonical) : (s.goneTrap k).Canonical := h.takeTrap

theorem State.Canonical.convoyTrap (h : s.Canonical) : CanonicalSome s.convoyTrap := by
  unfold State.convoyTrap
  split
  · next ws e _ =>
    split
    · exact .some h.arenaTrap
    · split
      · exact .some h.goneTrap
      · dsimp only
        cases convoyFault s.cur (decodeConvoy s.cur ws) e with
        | none => exact .none
        | some f => exact .some h.atSlot.decodeTrap

theorem State.Canonical.undo {t} {after : State} (h : s.Canonical) : (s.undo after t).Canonical :=
  h.unwind.takeTrap

theorem State.Canonical.touchWatched (h : s.Canonical) : s.touchWatched.Canonical := by
  unfold State.touchWatched
  refine h.foldl fun t _ h => ?_
  split
  · exact h
  · exact h.touchLeaf

theorem State.Canonical.pushAll {slot} (h : s.Canonical) : PopResult.Canonical (s.pushAll slot) := by
  unfold State.pushAll
  split
  · exact (h.placePushes.right ‹_›).pushFrom
  · exact h.placePushes.right ‹_›
  · exact (h.placePushes.right ‹_›).setStream

theorem State.Canonical.frame (h : s.Canonical) : s.frame.before.Canonical := h

theorem State.Canonical.hide {f : Frame} {u : State} {done} (h : u.Canonical) (hf : f.before.Canonical) :
    (State.hide f done u).Canonical := by
  unfold State.hide
  dsimp only
  split
  · exact hf.same.touchWatched
  · exact h.withCur

theorem State.Canonical.retireConvoy {f : Frame} {left} (h : s.Canonical) (hf : f.before.Canonical) :
    (State.retireConvoy f left s).Canonical := by
  have hpush := h.pushAll (slot := s.cur.slot)
  unfold State.retireConvoy
  split <;> simp only [*] at hpush
  · exact hf.undo
  · have ht : State.Canonical _ := hpush
    split
    · exact ht.stallHere
    · exact ht.setPc.stallHere.hide hf
  · have ht : State.Canonical _ := hpush
    exact ht.withCur.count.raiseWatch

theorem State.Canonical.present1 {w} (h : s.Canonical) : (s.present1 w).Canonical := h.withCur

theorem State.Canonical.unpopped (h : s.Canonical) : s.unpopped.Canonical := h.withCur

theorem State.Canonical.stopWord {s u : State} {f : Frame} {k c rest} (h : u.Canonical) (hf : f.before.Canonical) :
    (s.stopWord u f k c rest).Canonical := by
  unfold State.stopWord
  split
  · exact hf.undo
  · split
    · exact hf.undo
    · exact h
  · exact h.hide hf

theorem State.Canonical.runWords {f : Frame} {k ws} (h : s.Canonical) (hf : f.before.Canonical) :
    CanonicalOut (s.runWords f k ws) := by
  induction ws generalizing s k with
  | nil => exact .next (h.retireConvoy hf)
  | cons c rest ih =>
    unfold State.runWords
    split
    · exact .next h.trap
    · next i _ =>
      split
      · exact .fault
      · exact .refused
      · next u hu =>
        have hnext := exec_canonical h.present1 u hu
        split
        · exact .next (hnext.stopWord hf)
        · split
          · exact .next (hnext.withCur.retireConvoy hf)
          · exact ih hnext.withCur

theorem State.Canonical.runConvoy (h : s.Canonical) : CanonicalOut s.runConvoy :=
  h.rewound.stir.runWords h.rewound.stir.frame

/-- The state in which the earlier words of a convoy leave a strand is canonical. -/
def EarlierCanonical : State ⊕ State → Prop
  | .inl t => t.Canonical
  | .inr t => t.Canonical

theorem State.Canonical.runEarlier {f : Frame} {k ws} (h : s.Canonical) (hf : f.before.Canonical) :
    EarlierCanonical (s.runEarlier f k ws) := by
  induction ws generalizing s k with
  | nil => exact h
  | cons c rest ih =>
    unfold State.runEarlier
    split
    · exact h
    · next i _ =>
      split
      · exact h
      · exact h
      · next u hu =>
        have hnext := exec_canonical h.present1 u hu
        split
        · exact hnext.stopWord hf
        · exact ih hnext.withCur

theorem State.Canonical.atStop {g : State → State} (h : s.Canonical) (hg : ∀ t, t.Canonical → (g t).Canonical) :
    (s.atStop g).Canonical := by
  unfold State.atStop
  split
  · exact hg _ h
  · have hrun := h.rewound.runEarlier (k := s.rewound.cur.slot.toNat) h.rewound.frame
      (ws := s.rewound.convoyWords.take (s.cur.slot.toNat - s.rewound.cur.slot.toNat))
    dsimp only
    split <;> simp only [*] at hrun
    · exact hrun
    · exact hg _ (State.Canonical.withCur hrun)

theorem State.Canonical.preemptHere (h : s.Canonical) : s.preemptHere.Canonical := h.raisePreempt

theorem State.Canonical.leaveEnded (h : s.Canonical) : s.leaveEnded.Canonical := by
  unfold State.leaveEnded
  dsimp only
  split
  · exact h.withCur
  · exact h.withCur.finishEnd

theorem State.Canonical.stopForMove (h : s.Canonical) : s.stopForMove.Canonical := h.count.withCur

theorem State.Canonical.pointStop {raise} (h : s.Canonical) : CanonicalSome (s.pointStop raise) := by
  unfold State.pointStop
  split
  · exact .some (h.atStop fun _ h => h.leaveEnded)
  · split
    · exact .some (h.atStop fun _ h => h.stopForMove)
    · split
      · exact .none
      · split
        · exact .some (h.atStop fun _ h => h.forceStop)
        · split
          · exact .some (h.atStop fun _ h => h.preemptHere)
          · exact .none

theorem State.Canonical.boundaryStop (h : s.Canonical) : CanonicalSome s.boundaryStop := by
  unfold State.boundaryStop
  split
  · exact .some (h.pointStop _ ‹_›)
  · split
    · exact .none
    · split
      · exact .some h.raiseLate
      · split
        · exact .some h.raiseHeldWatch
        · exact .none

theorem execParcel_canonical {w} (h : s.Canonical) : CanonicalOut (execParcel w s) := by
  unfold execParcel
  split
  · exact .next h.trap
  · exact exec_canonical h

theorem finishParcel_canonical {events o} (h : CanonicalOut o) : CanonicalOut (finishParcel events o) := by
  unfold finishParcel
  split
  · refine .next ?_
    split
    · exact h _ rfl
    · exact State.Canonical.retireCounting (h _ rfl)
  · exact .fault
  · exact .refused

theorem State.Canonical.runParcel {fresh w} (h : s.Canonical) : CanonicalOut (s.runParcel fresh w) := by
  have hr := execParcel_canonical (w := w) (h.present1 (w := w.setWidth 64))
  unfold State.runParcel
  dsimp only
  split
  · split
    · split
      · exact .next (hr _ ‹_›)
      · exact .next h.preemptHere
    · exact .fault
    · exact .refused
  · exact finishParcel_canonical hr

theorem State.Canonical.startConvoy {fresh} (h : s.Canonical) : CanonicalOut (s.startConvoy fresh) := by
  unfold State.startConvoy
  dsimp only
  split
  · exact .next (h.convoyTrap _ ‹_›)
  · split
    · split
      · exact .next h.preemptHere
      · exact h.runConvoy
    · split
      · exact .next h.preemptHere
      · exact h.runConvoy

theorem State.Canonical.freshConvoy (h : s.Canonical) : s.freshConvoy.Canonical := h.withCur

theorem State.Canonical.freshParcel (h : s.Canonical) : s.freshParcel.Canonical := h.withCur

theorem State.Canonical.stirTurn (h : s.Canonical) : s.stirTurn.Canonical := h.stir

theorem State.Canonical.stirParcel {w} (h : s.Canonical) : (s.stirParcel w).Canonical := h.stir

theorem State.Canonical.issueHere {fresh} (h : s.Canonical) : CanonicalOut (s.issueHere fresh) := by
  unfold State.issueHere
  split
  · exact .next h.takeTrap
  · exact h.stirTurn.stirParcel.freshParcel.runParcel
  · exact h.stirTurn.freshConvoy.startConvoy

theorem State.Canonical.finishLeft (h : s.Canonical) : s.finishLeft.Canonical := by
  unfold State.finishLeft
  dsimp only
  split
  · exact h.withCur.withCur.retireParcel
  · exact h.withCur.stir.retireConvoy h.withCur.frame

theorem State.Canonical.issue (h : s.Canonical) : CanonicalOut s.issue := by
  unfold State.issue
  split
  · exact .next h.finishLeft
  · split
    · split
      · exact .next (h.pointStop _ ‹_›)
      · split
        · exact h.stirTurn.runConvoy
        · exact h.issueHere
    · split
      · exact h.stirTurn.runConvoy
      · split
        · split
          · exact .next (h.boundaryStop _ ‹_›)
          · exact h.issueHere
        · exact h.issueHere

theorem State.Canonical.issueOf {who} (h : s.Canonical) : CanonicalOut (s.issueOf who) := by
  unfold State.issueOf
  dsimp only
  split
  · split
    · exact .next (State.Canonical.focus (h.focus.issue _ ‹_›))
    · exact .fault
    · exact .refused
  · exact .next h

theorem State.Canonical.dataError {a} (h : s.Canonical) : (s.dataError a).Canonical := by
  unfold State.dataError
  split
  · exact h.onStrand (fun _ h => h.commandDataError)
  · exact h.stepDataError
  · exact h.saveDataError

theorem State.Canonical.act {a} (h : s.Canonical) : CanonicalOut (s.act a) := by
  unfold State.act
  split
  · exact exec_canonical h
  · exact .next h.runPacket
  · exact execQueueDoorbell_canonical h
  · exact .next h.runStart.runStop
  · exact .next h.runStop
  · exact .next h.select
  · exact h.issueOf
  · obtain ⟨hmem, hhost, hrest⟩ := id h
    exact .next (.ite ⟨hmem, Memory.wf_write _ _ hhost, hrest⟩ (h.ite (h.withMem (Memory.wf_write _ _ hmem))))
  · exact .next h.dataError
  · exact .next h.tearDownDue
  · exact .next h.moveEnds
  · exact exec_canonical h

theorem State.Canonical.chosen {acts a t} (h : s.Canonical) (hc : s.chosen acts = some (a, t)) : t.Canonical := by
  unfold State.chosen at hc
  split at hc
  · cases hc
  · cases hc
    exact h
  · dsimp only at hc
    obtain ⟨_, _, hx⟩ := Option.map_eq_some_iff.1 hc
    cases hx
    exact h.takeFree

theorem State.Canonical.advance (h : s.Canonical) : CanonicalOut s.advance := by
  unfold State.advance
  split
  · exact h.same.act
  · split
    · exact .next h
    · next hc => exact (h.chosen hc).act

theorem step_canonical (h : s.Canonical) : CanonicalOut (step s) := h.advance

/-- Settles O57: the canonical form is kept by every function on states, and a step is the action that `State.advance` chooses. -/
theorem stepKeepsMemoriesCanonical : Obligations.StepKeepsMemoriesCanonical := by
  unfold Obligations.StepKeepsMemoriesCanonical
  intro s t hcanonical hstep
  exact hcanonical.advance t hstep

/-- Settles O58: at reset nothing is listed. -/
theorem resetIsCanonical : Obligations.ResetIsCanonical :=
  ⟨⟨rfl, rfl, rfl, rfl⟩, fun _ => rfl⟩

end Sys2Proof.Machine
end

section
/-! The walk of four levels (R219 to R221); and O7. -/

namespace Sys2Proof.Machine

/-- An entry that leads to a table sends the walk on to it, on the next level (R220). -/
theorem walkFrom_of_table {m : Memory} {ok : Nat → Bool} {va fuel level table : Nat} {e : Word} (hok : ok table = true)
    (he : m.readLE (table + 8 * (va / 2 ^ entryShift level % 1024)) 8 = e.toNat) (hlevel : level ≠ 4)
    (hlink : (pteV e && pteT e && pteReservedOk e && decide (pteSz e = 0)) = true) :
    walkFrom m ok va (fuel + 1) level table = walkFrom m ok va fuel (level + 1) (pteNext e) := by
  simp only [Bool.and_eq_true, decide_eq_true_eq] at hlink
  obtain ⟨⟨⟨hv, ht⟩, hres⟩, hsz⟩ := hlink
  simp [walkFrom, hok, he, hlevel, hv, ht, hres, hsz]

/-- An entry of the fourth level that is no run is a leaf of 64 KiB, aligned by its form (R221). -/
theorem checkLeaf_page {e : Word} (hres : pteReservedOk e = true) (hsz : pteSz e = 0) (htlo : pteTlo e = 0) :
    checkLeaf 4 e = .ok 16 := by
  have haligned : pteFrame e % 65536 = 0 := by
    unfold pteFrame
    omega
  simp [checkLeaf, leafSize, hres, hsz, htlo, haligned]

/-- A leaf of the fourth level that is no run maps 64 KiB (R221). -/
theorem walkFrom_of_page {m : Memory} {ok : Nat → Bool} {va fuel table : Nat} {e : Word} (hok : ok table = true)
    (he : m.readLE (table + 8 * (va / 2 ^ entryShift 4 % 1024)) 8 = e.toNat) (hv : pteV e = true) (ht : pteT e = false)
    (hres : pteReservedOk e = true) (hsz : pteSz e = 0) (htlo : pteTlo e = 0) :
    walkFrom m ok va (fuel + 1) 4 table =
      .ok { entry := table + 8 * (va / 2 ^ entryShift 4 % 1024), word := e, base := va / 65536 * 65536, size := 16 } := by
  have hidx : va / 65536 * 65536 / 2 ^ entryShift 4 = va / 2 ^ entryShift 4 := by
    simp [entryShift]
  simp [walkFrom, walkLeaf, leafSize, hok, he, hv, ht, hres, hsz, hidx, checkLeaf_page hres hsz htlo]

/-- Settles O7, one level after the other. -/
theorem fourLevelWalkFindsLeaf : Obligations.FourLevelWalkFindsLeaf := by
  unfold Obligations.FourLevelWalkFindsLeaf
  intro m ok root va e1 e2 e3 e4 at_ link h1 h2 h3 h4 ok1 ok2 ok3 ok4 l1 l2 l3 hv ht hres hsz htlo
  calc walk m ok root va
      _ = walkFrom m ok va 3 2 (pteNext e1) := walkFrom_of_table ok1 h1 (by decide) l1
      _ = walkFrom m ok va 2 3 (pteNext e2) := walkFrom_of_table ok2 h2 (by decide) l2
      _ = walkFrom m ok va 1 4 (pteNext e3) := walkFrom_of_table ok3 h3 (by decide) l3
      _ = _ := walkFrom_of_page ok4 h4 hv ht hres hsz htlo

end Sys2Proof.Machine
end

section
/-! TRAPRET (R348) with nothing to settle; and O16. -/

namespace Sys2Proof.Machine

/-! ### TRAPRET (R348) -/

/-- With nothing on the scoreboard there is nothing to settle. -/
theorem State.returnSettle_of_empty {s : State} (hboard : s.cur.board = []) : s.returnSettle = s := by
  simp [State.returnSettle, State.settleWith, hboard]

theorem exec_trapret_reserved {s : State} (hlevel : s.cur.level ≠ .a) (hword : resumeWord s.cur.trscratch = none) :
    exec .trapret s = .next (s.trap .illegal s.cur.trscratch) := by
  show execTrapret s = _
  simp [execTrapret, hlevel, hword]

theorem exec_trapret_returns {s : State} {lvl : Level} {slot : BitVec 2} {rk : Nat} (hlevel : s.cur.level ≠ .a)
    (hboard : s.cur.board = []) (hword : resumeWord s.cur.trscratch = some (lvl, slot, rk)) :
    exec .trapret s = .next (s.trapReturn lvl slot rk) := by
  show execTrapret s = _
  simp [execTrapret, hlevel, hword, State.returnSettle_of_empty hboard, Strand.boardOpen, hboard]

section
variable (s : State) (lvl : Level) (slot : BitVec 2)

/-- The strand that goes on with what the convoy carried that stopped here (R227, R344). -/
def Strand.returned (c : Strand) (lvl : Level) (slot : BitVec 2) : Strand :=
  { c with
    trIn := false, level := lvl, slot := 0, restarted := false, history := none, reissue := .none
    conv := c.carried slot, suspended := c.suspended.filter fun x => !(x.pc = c.trpc && x.slot = slot) }

theorem State.trapReturn_underMf : s.trapReturn lvl slot 1 = s.withCur { s.cur.returned lvl slot with
    pc := s.cur.trpc + 8 * slot.setWidth 64, reissue := .underMf } := rfl

theorem State.trapReturn_fromVstart : s.trapReturn lvl slot 2 = s.withCur { s.cur.returned lvl slot with
    pc := s.cur.trpc + 8 * slot.setWidth 64, reissue := .fromVstart } := rfl

/-- RK 3 at a parcel: behind it. -/
theorem State.trapReturn_pastParcel (h : isWide (s.codeWord s.cur.trpc) = false) :
    s.trapReturn lvl slot 3 = s.withCur { s.cur.returned lvl slot with pc := s.cur.trpc + 4, reissue := .parcel } := by
  simp [State.trapReturn, h, Strand.returned]

/-- RK 3 at a word of a convoy: behind it, where the retirement alone is left if it was the last. -/
theorem State.trapReturn_pastWord (h : isWide (s.codeWord s.cur.trpc) = true) :
    s.trapReturn lvl slot 3 = s.withCur { s.cur.returned lvl slot with
      pc := s.cur.trpc + 8 * slot.setWidth 64 + 8
      reissue := if lastBit (s.codeWord (s.cur.trpc + 8 * slot.setWidth 64)) then .retire else .rest } := by
  simp only [State.trapReturn, h, Strand.returned, Bool.not_true, Bool.false_eq_true, if_false]
  split <;> rfl

/-- RK 0 where no convoy had stopped on its way: it begins again. -/
theorem State.trapReturn_again (h : ∀ y, s.cur.stoppedConvoy slot = some y → y.how = .none) :
    s.trapReturn lvl slot 0 = s.withCur { s.cur with
      trIn := false, level := lvl, slot := 0, restarted := false, conv := .none, history := none, reissue := .none
      pc := s.cur.trpc } := by
  have hhow : ((s.cur.stoppedConvoy slot).map (·.how)).getD .none = .none := by
    cases hstop : s.cur.stoppedConvoy slot with
    | none => rfl
    | some y => exact h y hstop
  simp only [State.trapReturn, hhow, if_true]

/-- RK 0 where a convoy had stopped on its way: it is issued again as it was then (log 22). -/
theorem State.trapReturn_resumes {y : Suspended} (hstop : s.cur.stoppedConvoy slot = some y) (h : y.how ≠ .none) :
    s.trapReturn lvl slot 0 = s.withCur { s.cur.returned lvl slot with
      pc := if y.how = .retire then s.cur.trpc + 8 else s.cur.trpc, reissue := y.how } := by
  simp only [State.trapReturn, hstop, Option.map_some, Option.getD_some, if_neg h, Strand.returned]

theorem Strand.returned_conv_of_stopped {c : Strand} {y : Suspended} (hstop : c.stoppedConvoy slot = some y) :
    (c.returned lvl slot).conv = y.ctx := by
  simp [Strand.returned, Strand.carried, hstop]

/-- What TRAPRET leaves whatever the resume kind. -/
theorem State.trapReturn_frame (rk : Nat) : ∃ c, s.trapReturn lvl slot rk = s.withCur c ∧ c.trIn = false ∧ c.level = lvl ∧
    c.x = s.cur.x ∧ c.vec = s.cur.vec := by
  unfold State.trapReturn
  dsimp only
  split
  · split <;> exact ⟨_, rfl, rfl, rfl, rfl, rfl⟩
  · exact ⟨_, rfl, rfl, rfl, rfl, rfl⟩
  · exact ⟨_, rfl, rfl, rfl, rfl, rfl⟩
  · split
    · exact ⟨_, rfl, rfl, rfl, rfl, rfl⟩
    · split <;> exact ⟨_, rfl, rfl, rfl, rfl, rfl⟩

/-- Where the kind is not 0, the convoy's context is what a stopped one carried. -/
theorem State.trapReturn_conv {rk : Nat} (h : rk ≠ 0) : (s.trapReturn lvl slot rk).cur.conv = s.cur.carried slot := by
  unfold State.trapReturn
  dsimp only
  split
  · exact absurd rfl h
  · rfl
  · rfl
  · split
    · rfl
    · split <;> rfl

end

/-- Settles O16, one resume kind after the other. -/
theorem trapretReturns : Obligations.TrapretReturns := by
  unfold Obligations.TrapretReturns
  intro s hlevel hboard _
  refine ⟨exec_trapret_reserved hlevel, fun lvl slot rk hword => ?_⟩
  obtain ⟨c, hret, hin, hlvl, hx, hvec⟩ := s.trapReturn_frame lvl slot rk
  refine ⟨s.trapReturn lvl slot rk, exec_trapret_returns hlevel hboard hword, by rw [hret]; exact hin, by rw [hret]; exact hlvl,
    by rw [hret]; exact hx, by rw [hret]; exact hvec, by rw [hret]; rfl, by rw [hret]; rfl, ?again, ?resumes, ?underMf,
    ?fromVstart, ?pastParcel, ?pastWord, fun h => s.trapReturn_conv lvl slot h⟩
  case again =>
    rintro rfl hnone
    rw [s.trapReturn_again lvl slot hnone]
    exact ⟨rfl, rfl, rfl⟩
  case resumes =>
    rintro rfl y hstop hhow
    rw [s.trapReturn_resumes lvl slot hstop hhow]
    exact ⟨rfl, rfl, Strand.returned_conv_of_stopped lvl slot hstop⟩
  case underMf =>
    rintro rfl
    rw [State.trapReturn_underMf]
    exact ⟨rfl, rfl⟩
  case fromVstart =>
    rintro rfl
    rw [State.trapReturn_fromVstart]
    exact ⟨rfl, rfl⟩
  case pastParcel =>
    rintro rfl hwide
    rw [s.trapReturn_pastParcel lvl slot hwide]
    exact ⟨rfl, rfl⟩
  case pastWord =>
    rintro rfl hwide
    rw [s.trapReturn_pastWord lvl slot hwide]
    exact ⟨rfl, rfl⟩

end Sys2Proof.Machine
end

section
/-! The QUEUE words: the owner of a queue, its room, and the entry of a command; and O33. -/

namespace Sys2Proof.Machine

/-! ### Entering a command (R229, R249) -/

/-- A queue with a command behind those it holds. -/
def EngineQueue.push (q : EngineQueue) (e : QEntry) : EngineQueue := { q with entries := q.entries ++ [e] }

theorem localQueue_toNat (q : BitVec 5) : (localQueue q).toNat = q.toNat % 4 := by
  simp [localQueue]

/-- Entering a command changes its queue alone. -/
theorem Strand.enter_eq (c : Strand) (j : BitVec 2) (e : QEntry) : ∃ k : Vector EngineQueue 4,
    c.enter j e = { c with queues := k } ∧
      ∀ i : Fin 4, k[i] = if i.val = j.toNat then c.queues[i].push e else c.queues[i] := by
  refine ⟨_, rfl, fun i => ?_⟩
  simp only [Fin.getElem_fin, Vector.getElem_set, Strand.queue, EngineQueue.push, eq_comm (a := j.toNat)]
  split
  · next h => simp only [h]
  · rfl

/-- Entered into distinct queues, each takes its own command. -/
theorem Strand.foldl_enter_eq (e : Nat → QEntry) (c : Strand) {js : List Nat} (hjs : js.Nodup) (hlt : ∀ j ∈ js, j < 4) :
    ∃ k : Vector EngineQueue 4, js.foldl (fun c j => c.enter (BitVec.ofNat 2 j) (e j)) c = { c with queues := k } ∧
      ∀ i : Fin 4, k[i] = if i.val ∈ js then c.queues[i].push (e i) else c.queues[i] := by
  induction js generalizing c with
  | nil => exact ⟨c.queues, rfl, fun i => by simp⟩
  | cons j js ih =>
    obtain ⟨hj, hjs⟩ := List.nodup_cons.1 hjs
    have hj4 : (BitVec.ofNat 2 j).toNat = j := by
      have := hlt j (List.mem_cons_self ..)
      simp only [BitVec.toNat_ofNat]
      omega
    obtain ⟨k, hk, hkq⟩ := c.enter_eq (BitVec.ofNat 2 j) (e j)
    obtain ⟨l, hl, hlq⟩ := ih { c with queues := k } hjs fun i hi => hlt i (List.mem_cons_of_mem _ hi)
    refine ⟨l, ?_, fun i => ?_⟩
    · rw [List.foldl_cons, hk, hl]
    · rw [hlq i]
      dsimp only
      rw [hkq i, hj4]
      by_cases hij : i.val = j
      · simp [hij, hj]
      · simp [hij]

theorem State.enterCmd_eq (s : State) (q : BitVec 5) (cmd : QCmd) (ntf : Option Word) (scope : Scope) :
    ∃ (l : Bool) (k : Vector EngineQueue 4),
      s.enterCmd (localQueue q) cmd ntf scope =
        { s with cur := { s.cur with pc := s.cur.pc + 8, usedLarder := l, queues := k } } ∧
      ∀ j : Fin 4, k[j] = if j.val = q.toNat % 4
        then s.cur.queues[j].push { cmd := cmd, ntf := ntf, scope := scope, level := s.cur.level } else s.cur.queues[j] := by
  obtain ⟨k, hk, hkq⟩ := s.cur.enter_eq (localQueue q) (s.entry cmd ntf scope)
  rw [localQueue_toNat] at hkq
  refine ⟨s.cur.usedLarder || cmd.usesLarder, k, ?_, hkq⟩
  unfold State.enterCmd
  rw [hk]
  rfl

/-! ### The queue's owner and its room (R229) -/

theorem Strand.not_ownsQueue_iff (c : Strand) (q : BitVec 5) : (!c.ownsQueue q) = true ↔ ¬q.toNat / 4 = c.id.sid.toNat := by
  simp [Strand.ownsQueue]

theorem EngineQueue.full_iff (q : EngineQueue) : q.full = true ↔ 16 ≤ q.entries.length := by
  simp [EngineQueue.full]

theorem Strand.queue_ofNat (c : Strand) (j : Nat) : c.queue (BitVec.ofNat 2 j) = c.queues[j % 4] := by
  simp [Strand.queue]

section
variable {s : State} {q : BitVec 5} {f : State → State}

theorem State.withRoom_foreign (h : ¬q.toNat / 4 = s.cur.id.sid.toNat) :
    s.withRoom q f = s.trap .access (q.setWidth 64) := by
  rw [State.withRoom, if_pos ((s.cur.not_ownsQueue_iff q).2 h)]

theorem State.withRoom_full (h : q.toNat / 4 = s.cur.id.sid.toNat)
    (hfull : 16 ≤ (s.cur.queues[q.toNat % 4]).entries.length) :
    s.withRoom q f = { s with cur := { s.cur with run := .queueRoom } } := by
  have hq : (s.cur.queue (localQueue q)).full = true := by
    rw [localQueue, s.cur.queue_ofNat, EngineQueue.full_iff]
    exact hfull
  rw [State.withRoom, if_neg fun hf => (s.cur.not_ownsQueue_iff q).1 hf h, if_pos hq]
  rfl

theorem State.withRoom_room (h : q.toNat / 4 = s.cur.id.sid.toNat)
    (hroom : (s.cur.queues[q.toNat % 4]).entries.length < 16) : s.withRoom q f = f s := by
  have hq : ¬(s.cur.queue (localQueue q)).full = true := by
    rw [localQueue, s.cur.queue_ofNat, EngineQueue.full_iff]
    omega
  rw [State.withRoom, if_neg fun hf => (s.cur.not_ownsQueue_iff q).1 hf h, if_neg hq]

end

/-! ### The block of a command (R249) -/

/-- The words of a block that may be read, and what reading them leaves. -/
theorem State.readBlock_ok {t k : State} {ea : Word} {x : Xlat} (h : t.access ea 64 .load = (.ok x, k)) :
    ∃ u conv, t.readBlock ea = (.ok (t.blockWords x.place), u) ∧
      (u.cur = { t.cur with conv := conv } ∧ u.others = t.others ∧ u.larder = t.larder) := by
  obtain ⟨tlb, free, hk⟩ := t.access_state ea 64 .load
  rw [h] at hk
  dsimp only at hk
  subst hk
  obtain ⟨mem, tlb', ht⟩ := State.touch_state { t with tlb := tlb, free := free } t.cur.via x .load
  obtain ⟨conv, hn⟩ := State.noteWatch_state { t with mem := mem, tlb := tlb', free := free } ea.toNat 64 true false
  refine ⟨State.noteWatch { t with mem := mem, tlb := tlb', free := free } ea.toNat 64 true false, conv, ?_, ?_⟩
  · unfold State.readBlock
    rw [h]
    dsimp only
    rw [ht]
    rfl
  · rw [hn]
    exact ⟨rfl, rfl, rfl⟩

/-! ### The words -/

/-- Settles O33: the words that enter a command share its checks; a fence is entered into each queue of its set. -/
theorem queueWordsEnter : Obligations.QueueWordsEnter := by
  unfold Obligations.QueueWordsEnter
  intro s t own len opt adds common
  have hcommon {i : Instr} {q : BitVec 5} {f : State → State} (hexec : s.Ready i t → exec i s = .next (t.withRoom q f)) :
      common i q := by
    intro hr
    rw [hexec hr]
    exact ⟨fun hown => congrArg _ (State.withRoom_foreign hown), fun hown hfull => congrArg _ (State.withRoom_full hown hfull)⟩
  have hadds (u : State) (q : BitVec 5) (cmd : QCmd) (ntf : Option Word) (scope : Scope) {conv : ConvCtx}
      (hu : u.cur = { t.cur with conv := conv } ∧ u.others = t.others ∧ u.larder = t.larder) :
      ∃ l, adds (u.enterCmd (localQueue q) cmd ntf scope) l q { cmd := cmd, ntf := ntf, scope := scope, level := t.cur.level } := by
    obtain ⟨hcur, hothers, hlarder⟩ := hu
    obtain ⟨l, k, henter, hk⟩ := u.enterCmd_eq q cmd ntf scope
    refine ⟨l, k, ?_⟩
    rw [henter]
    simp only [hcur] at hk ⊢
    exact ⟨trivial, hothers, hlarder, hk⟩
  refine ⟨fun o => ?qcopy, fun o => ?qsignal, fun o => ?qblock, fun o hr => ?qfence⟩
  case qcopy =>
    have hexec (hr : s.Ready (.qcopy o) t) : exec (.qcopy o) s = .next (t.doQcopy o) := vecWord_ready hr fun t => t.doQcopy o
    refine ⟨hcommon hexec, fun hr hown hroom => ?_⟩
    obtain ⟨l, h⟩ := hadds t o.q (.copy (t.getX o.src) (t.getX o.dst) (t.getX o.cnt) o.sl o.dl) (opt o.ntf) o.scope
      ⟨rfl, rfl, rfl⟩
    exact ⟨_, l, (hexec hr).trans (congrArg _ (State.withRoom_room hown hroom)), h, rfl⟩
  case qsignal =>
    have hexec (hr : s.Ready (.qsignal o) t) : exec (.qsignal o) s = .next (t.doQsignal o) := vecWord_ready hr fun t => t.doQsignal o
    refine ⟨hcommon hexec, fun hr hown hroom => ?_⟩
    obtain ⟨l, h⟩ := hadds t o.q (.signal (opt o.wr) (t.getX o.val) (t.getX o.add) (t.getX o.sig)) none o.scope
      ⟨rfl, rfl, rfl⟩
    exact ⟨_, l, (hexec hr).trans (congrArg _ (State.withRoom_room hown hroom)), h, rfl⟩
  case qblock =>
    intro r hr
    have hexec : s.Ready r.1 t → exec r.1 s = .next (t.doQblock o r.2) := by
      simp only [List.mem_cons, List.not_mem_nil, or_false] at hr
      obtain rfl | rfl | rfl | rfl | rfl := hr
      all_goals exact fun hready => vecWord_ready hready fun t => t.doQblock o _
    refine ⟨hcommon hexec, fun hready hown hroom x k hx => ?_⟩
    obtain ⟨u, conv, hread, hu⟩ := State.readBlock_ok hx
    obtain ⟨l, h⟩ := hadds u o.q (r.2 (t.blockWords x.place)) (opt o.ntf) o.scope hu
    have hopt : u.optX o.ntf = opt o.ntf := by
      unfold State.optX State.getX
      rw [hu.1]
      rfl
    refine ⟨_, l, ?_, h⟩
    rw [hexec hready, State.doQblock, State.withRoom_room hown hroom]
    dsimp only
    rw [hread]
    dsimp only
    rw [hopt]
  case qfence =>
    have hexec : exec (.qfence o) s = .next (t.doQfence o) := vecWord_ready hr fun t => t.doQfence o
    intro js
    have hlt (j : Nat) (hj : j ∈ js) : j < 4 := List.mem_range.1 (List.mem_of_mem_filter hj)
    have hfull : (joined o.q o.join).any (fun j => (t.cur.queue (BitVec.ofNat 2 j)).full) = true ↔ ∃ j ∈ js, 16 ≤ len j := by
      simp only [List.any_eq_true, EngineQueue.full_iff]
      exact exists_congr fun j => and_congr_right fun _ => by rw [t.cur.queue_ofNat]
    rw [hexec]
    have hforeign := t.cur.not_ownsQueue_iff o.q
    unfold State.doQfence
    refine ⟨fun hown => ?_, fun hown hsome => ?_, fun hown hroom => ?_⟩
    · rw [if_pos (hforeign.2 hown)]
    · rw [if_neg (fun h => hforeign.1 h hown), if_pos (hfull.2 hsome)]
      rfl
    · rw [if_neg (fun h => hforeign.1 h hown)]
      rw [if_neg fun h => by
        obtain ⟨j, hj, hlen⟩ := hfull.1 h
        exact absurd (hroom j hj) (by omega)]
      obtain ⟨k, hk, hkq⟩ := t.cur.foldl_enter_eq (js := js)
        (fun j => t.entry (.fence t.cur.freshFence js) (if j = o.q.toNat % 4 then t.optX o.ntf else none) o.scope)
        (List.nodup_range.filter _) hlt
      exact ⟨t.cur.freshFence, k, congrArg (fun c => Host.Outcome.next (t.withCur c).next8) hk, hkq⟩

end Sys2Proof.Machine
end

section
/-! The words of streams, and the fetch of a stream that reads the Larder; and O31. -/

namespace Sys2Proof.Machine

/-! ### The words (R244 to R247) -/

section
variable {s t : State}

/-- The effect of a ready word, with what its checks need to know of it spelled out. -/
theorem vecWord_of_ready {i : Instr} {w : WordInfo} (hr : s.Ready i t) (hw : wordInfo i s.cur = w) (eff : State → State) :
    vecWord w s eff = .next (eff t) :=
  hw ▸ vecWord_ready hr eff

theorem exec_stcfg (o : StcfgOp) (hr : s.Ready (.stcfg o) t) {x : Xlat} {u : State}
    (hx : t.access (t.getX o.a) 64 .load = (.ok x, u)) : ∃ (k : State) (conv : ConvCtx), k.cur = { t.cur with conv := conv } ∧
      exec (.stcfg o) s = .next (if malformed (t.blockWords x.place) then k.trap .access (t.getX o.a)
        else (k.setStream o.s { Stream.reset with cfg := true, pattern := t.blockWords x.place }).next8) := by
  obtain ⟨k, conv, hread, hcur, -⟩ := State.readBlock_ok hx
  refine ⟨k, conv, hcur, ?_⟩
  have hexec : exec (.stcfg o) s = execStcfg o s := rfl
  rw [hexec, execStcfg, vecWord_of_ready (w := stcfgInfo o s.cur) hr rfl]
  dsimp only
  rw [hread]

/-- STBIND of a stream without a block (R245). -/
theorem exec_stbind_empty (o : StbindOp) (hr : s.Ready (.stbind o) t) (h : (t.cur.vec.streams[o.s.toNat]).cfg = false) :
    exec (.stbind o) s = .next (t.trap .access (o.s.setWidth 64)) := by
  have hexec : exec (.stbind o) s = execStbind o s := rfl
  rw [hexec, execStbind, vecWord_of_ready (w := stbindInfo o s.cur) hr rfl, if_pos (by simp [Strand.stream, h])]

/-- The streams with one bound to a register, and nothing else bound to it (R245). -/
def bindStream (o : StbindOp) (st : Vector Stream 8) : Vector Stream 8 :=
  let freed := st.map fun q => if q.bound = some o.v then q.unbind else q
  freed.set o.s.toNat { (freed[o.s.toNat]).unbind with bound := some o.v, write := o.write }

theorem exec_stbind (o : StbindOp) (hr : s.Ready (.stbind o) t) (h : (t.cur.vec.streams[o.s.toNat]).cfg = true) :
    ∃ l : Bool, exec (.stbind o) s = .next { t with cur := { t.cur with
      pc := t.cur.pc + 8, usedLarder := l, vec := { t.cur.vec with streams := bindStream o t.cur.vec.streams } } } := by
  have hexec : exec (.stbind o) s = execStbind o s := rfl
  rw [hexec, execStbind, vecWord_of_ready (w := stbindInfo o s.cur) hr rfl, if_neg (by simp [Strand.stream, h])]
  simp only [State.withVec, State.setStream, State.withCur, State.next8, State.setPc, Strand.stream, VecPart.unbindReg, bindStream]
  exact ⟨_, rfl⟩

/-- What binding leaves of a stream: its block and its position; its binding, if another stream takes the register (R245). -/
theorem bindStream_spec (o : StbindOp) (st : Vector Stream 8) :
    (bindStream o st)[o.s.toNat].bound = some o.v ∧ (bindStream o st)[o.s.toNat].write = o.write ∧
    (∀ i : Fin 8, (bindStream o st)[i].pos = st[i].pos ∧ (bindStream o st)[i].pattern = st[i].pattern ∧
      (bindStream o st)[i].cfg = st[i].cfg) ∧
    ∀ i : Fin 8, i.val ≠ o.s.toNat → (bindStream o st)[i].bound = if st[i].bound = some o.v then none else st[i].bound := by
  refine ⟨by simp [bindStream], by simp [bindStream], fun i => ?_, fun i hi => ?_⟩
  · by_cases hi : o.s.toNat = i.val
    · simp only [bindStream, Fin.getElem_fin, hi, Vector.getElem_set_self, Vector.getElem_map, Stream.unbind]
      split <;> exact ⟨rfl, rfl, rfl⟩
    · simp only [bindStream, Fin.getElem_fin, Vector.getElem_set_ne _ _ hi, Vector.getElem_map, Stream.unbind]
      split <;> exact ⟨rfl, rfl, rfl⟩
  · simp only [bindStream, Fin.getElem_fin, Vector.getElem_set_ne _ _ (Ne.symm hi), Vector.getElem_map, Stream.unbind]
    split <;> rfl

theorem exec_stunbind (o : StunbindOp) (hr : s.Ready (.stunbind o) t) :
    ∃ w : Vector Stream 8, exec (.stunbind o) s = .next { t with cur := { t.cur with
        pc := t.cur.pc + 8, vec := { t.cur.vec with streams := w } } } ∧
      w[o.s.toNat].bound = none ∧ w[o.s.toNat].pos = (t.cur.vec.streams[o.s.toNat]).pos ∧
      w[o.s.toNat].cfg = (t.cur.vec.streams[o.s.toNat]).cfg ∧
      ∀ i : Fin 8, i.val ≠ o.s.toNat → w[i] = t.cur.vec.streams[i] := by
  have hexec : exec (.stunbind o) s = execStunbind o s := rfl
  rw [hexec, execStunbind, vecWord_of_ready (w := stunbindInfo o s.cur) hr rfl]
  by_cases hb : (t.cur.vec.streams[o.s.toNat]).bound = none
  · rw [if_pos (by simp [Strand.stream, hb])]
    exact ⟨t.cur.vec.streams, rfl, hb, rfl, rfl, fun _ _ => rfl⟩
  · rw [if_neg (by simp [Strand.stream, hb])]
    refine ⟨t.cur.vec.streams.set o.s.toNat (t.cur.stream o.s).unbind, rfl, ?_⟩
    simp +contextual [Stream.unbind, Strand.stream, eq_comm]

theorem Stream.status_eq (q : Stream) : q.status = BitVec.ofNat 64 (q.pos % 2 ^ 48 * 65536 + q.fcode.toNat * 256 +
    (if q.ovr then 64 else 0) + (if q.exh then 32 else 0) + (if q.write then 16 else 0) +
    (if q.bound.isSome then 8 else 0) + (if q.cfg then 4 else 0)) := by
  have hflag (b : Bool) (n : Nat) : b.toNat * n = if b then n else 0 := by
    cases b <;> simp
  simp only [Stream.status, hflag]

theorem exec_ststat (o : StstatOp) (hr : s.Ready (.ststat o) t) :
    exec (.ststat o) s = .next (t.withResult o.d (t.cur.vec.streams[o.s.toNat]).status 8) := by
  have hexec : exec (.ststat o) s = execStstat o s := rfl
  rw [hexec, execStstat, vecWord_of_ready (w := ststatInfo o s.cur) hr rfl, State.setX_next8]
  rfl

end

/-! ### The fetch (R227, R228) -/

/-- An event of the strand in front acts on it where it stands. -/
theorem State.onStrand_cur {s : State} {f : State → State} (h : (f s).cur.id = s.cur.id) : s.onStrand s.cur.id f = f s := by
  unfold State.onStrand
  rw [s.focus_self]
  dsimp only
  rw [if_pos rfl, State.focus, if_pos h]

/-- Element k of a stream that reads the Larder stands in it. -/
def Stream.InLarder (q : Stream) (k : Nat) : Prop := q.addr k % (q.bits / 8) = 0 ∧ q.addr k + q.bits / 8 ≤ larderSize

/-- The value of element k of a stream that reads the Larder. -/
def State.larderElem (s : State) (q : Stream) (k : Nat) : Word :=
  BitVec.ofNat 64 (s.larder.readLE (larderBase s.cur.id.core + q.addr k) (q.bits / 8))

theorem State.streamRead_larder {s : State} {q : Stream} {k : Nat} (hl : q.larder = true) (hk : q.InLarder k) :
    s.streamRead q k = (.ok (s.larder.readLE (larderBase s.cur.id.core + q.addr k) (q.bits / 8)), q, s) := by
  obtain ⟨halign, hend⟩ := hk
  have hplace : s.streamPlace q k .load = (.ok (.larder (larderBase s.cur.id.core + q.addr k)), q, s) := by
    unfold State.streamPlace
    dsimp only
    rw [if_neg (by simpa using halign), if_pos hl, if_neg (by omega)]
  rw [State.streamRead, hplace]

/-- A stream with elements fetched behind those it has: its pattern and position are the same. -/
def Stream.more (q : Stream) (vs : List Word) : Stream := { q with fetched := q.fetched ++ vs }

theorem Stream.more_more (q : Stream) (us vs : List Word) : (q.more us).more vs = q.more (us ++ vs) := by
  simp [Stream.more]

/-- A fetch from the Larder appends the elements that stand behind those fetched before, and leaves the state as it is. -/
theorem State.streamFetch_larder {s : State} {q : Stream} {n : Nat} (hl : q.larder = true) (hstop : q.stop = none)
    (hcode : q.fcode = 0)
    (hin : ∀ k, q.pos + q.fetched.length ≤ k → k < q.length → k < q.pos + q.fetched.length + n → q.InLarder k) :
    s.streamFetch q n = (q.more ((List.range (min n (q.length - (q.pos + q.fetched.length)))).map fun j =>
      s.larderElem q (q.pos + q.fetched.length + j)), s) := by
  induction n generalizing q with
  | zero => simp [State.streamFetch, Stream.more]
  | succ n ih =>
    unfold State.streamFetch
    dsimp only
    by_cases hend : q.length ≤ q.pos + q.fetched.length
    · simp [hend, Stream.more]
    · rw [if_neg (by simp [hend, hstop]), State.streamRead_larder hl (hin _ le_rfl (by omega) (by omega))]
      dsimp only
      have hnext : ({ q with
          fetched := q.fetched ++ [s.larderElem q (q.pos + q.fetched.length)]
          fcode := if q.fetched = [] then 0 else q.fcode } : Stream) =
          q.more [s.larderElem q (q.pos + q.fetched.length)] := by
        rw [hcode, ite_self, ← hcode]
        rfl
      have hlen : (q.more [s.larderElem q (q.pos + q.fetched.length)]).fetched.length = q.fetched.length + 1 := by
        simp [Stream.more]
      have hmin : min (n + 1) (q.length - (q.pos + q.fetched.length)) =
          min n (q.length - (q.pos + (q.fetched.length + 1))) + 1 := by omega
      refine (congrArg (s.streamFetch · n) hnext).trans ((ih (q := q.more [_]) hl hstop hcode fun k hk hkl hkn => ?_).trans ?_)
      · rw [hlen] at hk hkn
        exact hin k (by change q.pos + _ ≤ k at hk; omega) hkl (by change k < q.pos + _ + n at hkn; omega)
      · rw [hlen, hmin, List.range_succ_eq_map, List.map_cons, List.map_map, Stream.more_more]
        refine congrArg (q.more ·, s) (congrArg₂ List.cons rfl (List.map_congr_left fun j _ => ?_))
        exact congrArg (s.larderElem q) (by change q.pos + _ + j = _; omega)

theorem exec_streamFetch_idle {s : State} {i : BitVec 3} {n : Nat}
    (h : (s.cur.vec.streams[i.toNat]).bound = none ∨ (s.cur.vec.streams[i.toNat]).write = true) :
    exec (.streamFetch s.cur.id i n) s = .next s := by
  have hcond : ¬((s.cur.stream i).bound.isSome && !(s.cur.stream i).write) = true := by
    obtain h | h := h <;> simp [Strand.stream, h]
  exact congrArg Host.Outcome.next ((State.onStrand_cur (by rw [if_neg hcond])).trans (if_neg hcond))

theorem exec_streamFetch_larder {s : State} {i : BitVec 3} {n : Nat} (hb : (s.cur.vec.streams[i.toNat]).bound.isSome = true)
    (hw : (s.cur.vec.streams[i.toNat]).write = false) (hl : (s.cur.vec.streams[i.toNat]).larder = true)
    (hstop : (s.cur.vec.streams[i.toNat]).stop = none) (hcode : (s.cur.vec.streams[i.toNat]).fcode = 0)
    (hin : let q := s.cur.vec.streams[i.toNat]
      ∀ k, q.pos + q.fetched.length ≤ k → k < q.length → k < q.pos + q.fetched.length + n → q.InLarder k) :
    exec (.streamFetch s.cur.id i n) s = .next ((s.stir s.cur.id.core [6, 7, 9]).setStream i
      ((s.cur.vec.streams[i.toNat]).more (let q := s.cur.vec.streams[i.toNat]
        (List.range (min n (q.length - (q.pos + q.fetched.length)))).map fun j =>
          s.larderElem q (q.pos + q.fetched.length + j)))) := by
  have hexec : exec (.streamFetch s.cur.id i n) s = execStreamFetch s.cur.id i n s := rfl
  have hcond : ((s.cur.stream i).bound.isSome && !(s.cur.stream i).write) = true := by
    simp [Strand.stream, hb, hw]
  have hfetch := State.streamFetch_larder (s := s.stir s.cur.id.core [6, 7, 9]) (n := n) hl hstop hcode hin
  rw [hexec, execStreamFetch]
  refine congrArg Host.Outcome.next ((State.onStrand_cur ?_).trans ?_)
  all_goals
    dsimp only
    rw [if_pos hcond, Strand.stream, hfetch]
    rfl

/-- Settles O31: the words one by one, and the fetch by what it appends from the Larder. -/
theorem streamResults : Obligations.StreamResults := by
  unfold Obligations.StreamResults
  refine ⟨fun s t => ⟨fun o x u hr hx => ?stcfg, fun o hr => ?stbind, fun o hr => exec_stunbind o hr, fun o hr => ?ststat⟩,
    fun s i n => ⟨exec_streamFetch_idle, fun hb hw hl hstop hcode hin => ⟨_, exec_streamFetch_larder hb hw hl hstop hcode hin⟩⟩⟩
  case stcfg =>
    intro block
    obtain ⟨k, conv, hk, hexec⟩ := exec_stcfg o hr hx
    have hblock : t.blockWords x.place = block := rfl
    rw [hblock] at hexec
    refine ⟨_, hexec, fun hgood => ?_, fun hbad => ⟨k, if_pos hbad, by rw [hk]⟩⟩
    rw [if_neg (fun hbad => Bool.false_ne_true (hgood.symm.trans hbad))]
    simp only [State.setStream, State.withVec, State.withCur, State.next8, State.setPc, hk, and_self]
  case stbind =>
    refine ⟨exec_stbind_empty o hr, fun h => ?_⟩
    obtain ⟨l, hexec⟩ := exec_stbind o hr h
    obtain ⟨hbound, hwrite, hkept, hothers⟩ := bindStream_spec o t.cur.vec.streams
    obtain ⟨hpos, hpattern, hcfg⟩ := hkept ⟨o.s.toNat, o.s.isLt⟩
    exact ⟨_, l, hexec, hbound, hwrite, hpos, hpattern, hcfg.trans h, fun i hi =>
      ⟨hothers i hi, (hkept i).1, (hkept i).2.1⟩⟩
  case ststat =>
    intro q
    rw [← q.status_eq]
    exact exec_ststat o hr

end Sys2Proof.Machine
end

section
/-! The performance of the oldest command of a queue, and QCOPY within the Larder; and O35. -/

namespace Sys2Proof.Machine

/-! ### What the run of a command leaves alone (R230, R250) -/

theorem State.shuffle_accessOnly {α : Type} (s : State) (l : List α) : s.AccessOnly (s.shuffle l).2 := by
  rw [(s.shuffle_spec l).2]
  rfl

/-- What the reads of an operand leave alone: their pages are sorted and their A bits set. -/
theorem State.reads_accessOnly (s : State) (gs : List Nat) (l : List Spot) : s.AccessOnly ((s.sortPages gs).2.touchReads l) :=
  (s.sortPages_accessOnly gs).trans (State.touchEach_accessOnly _ .load l)

theorem State.runCopy_accessOnly (a b n : Word) (sl dl : Bool) (s : State) : s.AccessOnly (State.runCopy a b n sl dl s).2 := by
  have hread (gs hs l) : s.AccessOnly (((s.sortPages gs).2.sortPages hs).2.touchReads l) :=
    (s.sortPages_accessOnly gs).trans (State.reads_accessOnly _ hs l)
  unfold State.runCopy
  dsimp only
  split
  · exact .refl s
  · split
    · exact hread _ _ _
    · split
      · exact hread _ _ _
      · exact (hread _ _ _).trans rfl

theorem State.runElements_accessOnly (s : State) (g : GatherBlock) (scatter : Bool) (idx : List Nat) :
    s.AccessOnly (s.runElements g scatter idx).2 := by
  have hread (gs hs l) : s.AccessOnly (((s.sortPages gs).2.sortPages hs).2.touchReads l) :=
    (s.sortPages_accessOnly gs).trans (State.reads_accessOnly _ hs l)
  unfold State.runElements
  dsimp only
  split
  · exact .refl s
  · split
    · exact hread _ _ _
    · exact hread _ _ _

theorem State.runGather_accessOnly (b : List Word) (scatter : Bool) (s : State) : s.AccessOnly (State.runGather b scatter s).2 := by
  unfold State.runGather
  dsimp only
  split
  · exact .refl s
  · split
    · exact .refl s
    · split
      · exact .refl s
      · split
        · exact .refl s
        · split
          · exact .refl s
          · split
            · exact s.reads_accessOnly _ _
            · exact (s.reads_accessOnly _ _).trans (State.runElements_accessOnly _ _ _ _)

theorem State.runPload_accessOnly (b : List Word) (s : State) : s.AccessOnly (State.runPload b s).2 := by
  obtain ⟨fault, hfault⟩ : ∃ f, f = PlaneBlock.fault := ⟨_, rfl⟩
  unfold State.runPload
  rw [← hfault]
  dsimp only
  split
  · exact .refl s
  · split
    · exact .refl s
    · split
      · exact s.reads_accessOnly _ _
      · exact s.reads_accessOnly _ _

theorem State.storeOrder_accessOnly (s : State) (p : PlaneBlock) (ws : List EWrite) : s.AccessOnly (s.storeOrder p ws).2 := by
  unfold State.storeOrder
  split
  · exact .refl s
  · exact s.shuffle_accessOnly ws

theorem State.runPstore_accessOnly (b : List Word) (s : State) : s.AccessOnly (State.runPstore b s).2 := by
  obtain ⟨fault, hfault⟩ : ∃ f, f = PlaneBlock.fault := ⟨_, rfl⟩
  unfold State.runPstore
  rw [← hfault]
  dsimp only
  split
  · exact .refl s
  · split
    · exact .refl s
    · split
      · exact (s.sortPages_accessOnly _).trans (State.storeOrder_accessOnly _ _ _)
      · exact (s.sortPages_accessOnly _).trans (State.storeOrder_accessOnly _ _ _)

theorem State.runSpload_accessOnly (b : List Word) (s : State) : s.AccessOnly (State.runSpload b s).2 := by
  obtain ⟨fault, hfault⟩ : ∃ f, f = SpBlock.fault := ⟨_, rfl⟩
  unfold State.runSpload
  rw [← hfault]
  dsimp only
  split
  · exact .refl s
  · split
    · exact .refl s
    · split
      · exact s.reads_accessOnly _ _
      · split
        · exact s.reads_accessOnly _ _
        · exact s.reads_accessOnly _ _

/-! ### What the writes of a command leave alone -/

/-- A state without what the accesses and the writes of a command may change. -/
def State.exceptBytes (s : State) : State := { s.exceptMemory with larder := [], planes := [] }

/-- From s to t memory, the Larders and their plane records, what translation uses, and the acts due have changed, and nothing
else. -/
def State.BytesOnly (s t : State) : Prop := t.exceptBytes = s.exceptBytes

namespace State.BytesOnly

theorem refl (s : State) : s.BytesOnly s := rfl

theorem trans {s t u : State} (h : s.BytesOnly t) (k : t.BytesOnly u) : s.BytesOnly u := Eq.trans k h

theorem of_accessOnly {s t : State} (h : s.AccessOnly t) : s.BytesOnly t :=
  congrArg (fun u : State => ({ u with larder := [], planes := [] } : State)) h

theorem cur {s t : State} (h : s.BytesOnly t) : t.cur = s.cur :=
  congrArg (a₁ := t.exceptBytes) (a₂ := s.exceptBytes) State.cur h

theorem others {s t : State} (h : s.BytesOnly t) : t.others = s.others :=
  congrArg (a₁ := t.exceptBytes) (a₂ := s.exceptBytes) State.others h

theorem parts {s t : State} (h : s.BytesOnly t) : t.parts = s.parts :=
  congrArg (a₁ := t.exceptBytes) (a₂ := s.exceptBytes) State.parts h

theorem foldl {α : Type} (f : State → α → State) (hf : ∀ (t : State) (a : α), t.BytesOnly (f t a)) (l : List α) (s : State) :
    s.BytesOnly (l.foldl f s) := by
  induction l generalizing s with
  | nil => exact .refl s
  | cons a l ih => exact (hf s a).trans (ih _)

end State.BytesOnly

theorem State.writeSpot_bytesOnly (s : State) (p : Spot) (b : Byte) : s.BytesOnly (s.writeSpot p b) := by
  cases p with
  | mem x va => exact .of_accessOnly (s.writePlace_accessOnly _ _ _)
  | larder a => rfl

/-- A write is of its own value, or where it copies one that has changed, perhaps of that (R251). -/
theorem State.doWrite_eq (s : State) (w : EWrite) : ∃ free b, s.doWrite w = { s with free := free }.writeSpot w.dst b ∧
    (w.src = none → b = w.val) := by
  unfold State.doWrite
  split
  · exact ⟨s.free, w.val, rfl, fun _ => rfl⟩
  · next p hsrc =>
    dsimp only
    split
    · exact ⟨s.free, w.val, rfl, fun _ => rfl⟩
    · exact ⟨_, _, rfl, fun h => nomatch hsrc.symm.trans h⟩

theorem State.doWrite_bytesOnly (s : State) (w : EWrite) : s.BytesOnly (s.doWrite w) := by
  obtain ⟨free, b, hw, -⟩ := s.doWrite_eq w
  rw [hw]
  exact .trans (t := { s with free := free }) rfl (State.writeSpot_bytesOnly _ _ _)

theorem State.doWrites_bytesOnly (s : State) (ws : List EWrite) : s.BytesOnly (s.doWrites ws) :=
  ((State.BytesOnly.of_accessOnly (s.touchEach_accessOnly .store _)).trans
    (.foldl State.doWrite State.doWrite_bytesOnly ws _)).trans (.of_accessOnly (State.bellWrites_accessOnly _ ws))

theorem State.setRecords_bytesOnly (s : State) (l : List (Nat × Nat)) : s.BytesOnly (s.setRecords l) :=
  .foldl (fun u (x : Nat × Nat) => u.setPlaneRecord u.cur.id.core x.1 x.2) (fun _ _ => rfl) l s

/-! ### What bytes read as -/

/-- From s to t no byte of memory or of a Larder has changed. -/
structure State.SameBytes (s t : State) : Prop where
  mem : t.mem = s.mem
  keys : t.keys = s.keys
  hostMem : t.hostMem = s.hostMem
  larder : t.larder = s.larder
  parts : t.parts = s.parts

namespace State.SameBytes

theorem refl (s : State) : s.SameBytes s := ⟨rfl, rfl, rfl, rfl, rfl⟩

theorem trans {s t u : State} (h : s.SameBytes t) (k : t.SameBytes u) : s.SameBytes u :=
  ⟨k.mem.trans h.mem, k.keys.trans h.keys, k.hostMem.trans h.hostMem, k.larder.trans h.larder, k.parts.trans h.parts⟩

theorem readPlace {s t : State} (h : s.SameBytes t) : t.readPlace = s.readPlace := by
  funext p n
  unfold State.readPlace State.byteUnder State.keyAt State.memoryKey
  rw [h.mem, h.keys, h.hostMem, h.parts]

theorem readSpot {s t : State} (h : s.SameBytes t) : t.readSpot = s.readSpot := by
  funext p
  cases p with
  | mem x va => exact congrArg (BitVec.ofNat 8 <| · x.place 1) h.readPlace
  | larder a => exact congrArg (Memory.read · a) h.larder

theorem setRecords (s : State) (l : List (Nat × Nat)) : s.SameBytes (s.setRecords l) := by
  unfold State.setRecords
  induction l generalizing s with
  | nil => exact .refl s
  | cons a l ih => exact .trans (t := s.setPlaneRecord s.cur.id.core a.1 a.2) ⟨rfl, rfl, rfl, rfl, rfl⟩ (ih _)

theorem bell (s : State) (part va n : Nat) : s.SameBytes (s.bell part va n) := by
  obtain ⟨agenda, h⟩ := s.bell_state part va n
  rw [h]
  exact ⟨rfl, rfl, rfl, rfl, rfl⟩

theorem bellWrites (s : State) (ws : List EWrite) : s.SameBytes (s.bellWrites ws) := by
  unfold State.bellWrites
  split
  · exact .refl s
  · next p _ =>
    generalize queueWords p.queueArea ws = l
    clear * -
    induction l generalizing s with
    | nil => exact .refl s
    | cons a l ih => exact (SameBytes.bell s _ _ _).trans (ih _)

end State.SameBytes

/-! ### One write after another (R250) -/

/-- Two spots share no byte. -/
def Spot.Apart (p q : Spot) : Prop :=
  match p, q with
  | .mem a _, .mem b _ => a.place.apart 1 b.place 1
  | .larder a, .larder b => a ≠ b
  | _, _ => True

theorem State.readSpot_writeSpot (s : State) (p : Spot) (b : Byte) : (s.writeSpot p b).readSpot p = b := by
  cases p with
  | mem x va =>
    refine (congrArg (BitVec.ofNat 8) (s.readPlace_writePlace x.place 1 b.toNat)).trans ?_
    rw [pow_one, Nat.mod_eq_of_lt b.isLt, BitVec.ofNat_toNat, BitVec.setWidth_eq]
  | larder a => exact (Memory.read_writeLE_of_in _ a 1 _ 0 one_pos).trans (by simp)

theorem State.readSpot_writeSpot_ne (s : State) (b : Byte) {p q : Spot} (h : p.Apart q) :
    (s.writeSpot q b).readSpot p = s.readSpot p := by
  cases p with
  | mem x va =>
    cases q with
    | mem y vb =>
      have happart : y.place.apart 1 x.place 1 := by
        have hpq : x.place.apart 1 y.place 1 := h
        unfold Place.apart at hpq ⊢
        exact hpq.imp Ne.symm Or.symm
      exact congrArg (BitVec.ofNat 8) (s.readPlace_writePlace_ne _ _ _ _ happart)
    | larder b => exact congrArg (BitVec.ofNat 8) rfl
  | larder a =>
    cases q with
    | mem y vb => exact congrArg (Memory.read · a) (s.writePlace_accessOnly _ _ _).larder
    | larder b =>
      have hne : a ≠ b := h
      exact Memory.read_writeLE_of_out _ _ _ _ _ (by omega)

/-- A byte stays as it is through writes apart from it. -/
theorem State.readSpot_foldl_doWrite (s : State) {p : Spot} {ws : List EWrite} (h : ∀ x ∈ ws, p.Apart x.dst) :
    (ws.foldl State.doWrite s).readSpot p = s.readSpot p := by
  induction ws generalizing s with
  | nil => rfl
  | cons w ws ih =>
    obtain ⟨free, b, hw, -⟩ := s.doWrite_eq w
    rw [List.foldl_cons, ih _ fun x hx => h x (List.mem_cons_of_mem _ hx), hw,
      State.readSpot_writeSpot_ne _ _ (h w List.mem_cons_self)]
    rfl

/-- A byte that a command writes by value stands where no later write of it meets it. -/
theorem State.readSpot_doWrites (s : State) {ws l1 l2 : List EWrite} {w : EWrite} (hws : ws = l1 ++ w :: l2)
    (hsrc : w.src = none) (h : ∀ x ∈ l2, w.dst.Apart x.dst) : (s.doWrites ws).readSpot w.dst = w.val := by
  obtain ⟨free, b, hw, hb⟩ := (l1.foldl State.doWrite (s.touchWrites ws)).doWrite_eq w
  have hfold : ws.foldl State.doWrite (s.touchWrites ws) = (l1 ++ w :: l2).foldl State.doWrite (s.touchWrites ws) :=
    congrArg (List.foldl State.doWrite _) hws
  unfold State.doWrites
  rw [(State.SameBytes.bellWrites _ ws).readSpot, hfold, List.foldl_append, List.foldl_cons, State.readSpot_foldl_doWrite _ h, hw, State.readSpot_writeSpot, hb hsrc]

/-! ### The performance of a queue's oldest command (R230, R250) -/

theorem State.doWrites_nil (s : State) : s.doWrites [] = s := by
  have hbell : s.bellWrites [] = s := by
    unfold State.bellWrites
    split
    · rfl
    · rfl
  exact hbell

/-- The state in which an engine runs a command: its counters may move on, and it runs at the command's level. -/
def State.atCommand (s : State) (e : QEntry) : State :=
  { s.stir s.cur.id.core [6, 7, 8, 9] with cur := { s.cur with level := e.level } }

/-- The strand back at its own level after a command. -/
def State.backFromCommand (s t : State) : State := t.withCur { t.cur with level := s.cur.level }

theorem State.SameBytes.backFromCommand (s t : State) : t.SameBytes (s.backFromCommand t) := ⟨rfl, rfl, rfl, rfl, rfl⟩

theorem State.stirEngine_atLevel (s : State) (e : QEntry) (f : State → State) :
    s.stirEngine.atLevel e.level f = s.backFromCommand (f (s.atCommand e)) := rfl

section
variable {s : State} {j : BitVec 2} {e : QEntry} {run : State → ERun} {u : State}

theorem State.performCmd_stall (h : run (s.atCommand e) = (.error .stall, u)) :
    s.stirEngine.performCmd j e run = s.backFromCommand u := by
  unfold State.performCmd
  rw [State.stirEngine_atLevel]
  dsimp only
  rw [h]

theorem State.engineFault_of_unwritten (s : State) (j : BitVec 2) (fn code : Nat) (d : Int) (record : Option Nat) :
    s.engineFault j fn code d [] record = s.haltEngine j fn code d := by
  unfold State.engineFault State.haltWith
  dsimp only [State.someOf]
  rw [State.doWrites_nil]
  cases record with
  | none => rfl
  | some off => rfl

theorem State.performCmd_fault {c : Nat} {d : Int} (h : run (s.atCommand e) = (.error (.fault c d []), u)) :
    s.stirEngine.performCmd j e run = s.backFromCommand (u.haltEngine j e.cmd.fn c d) := by
  unfold State.performCmd
  rw [State.stirEngine_atLevel]
  dsimp only
  rw [h]
  dsimp only
  rw [State.engineFault_of_unwritten]

theorem State.performCmd_done {r : EDone} (h : run (s.atCommand e) = (.ok r, u)) (hn : e.ntf = none) :
    s.stirEngine.performCmd j e run =
      s.backFromCommand (((((u.doWrites r.all).setRecords r.records).popEngine j).holdWatch j r.spans)) := by
  unfold State.performCmd
  rw [State.stirEngine_atLevel]
  dsimp only
  rw [h]
  dsimp only
  rw [hn]

theorem State.performCmd_notifies {r : EDone} {a : Word} {t : State} (h : run (s.atCommand e) = (.ok r, u)) (hn : e.ntf = some a)
    (hadd : ((u.doWrites r.all).setRecords r.records).addWord a 1 = .ok t) :
    s.stirEngine.performCmd j e run = s.backFromCommand ((t.popEngine j).holdWatch j ((a.toNat, 8) :: r.spans)) := by
  unfold State.performCmd
  rw [State.stirEngine_atLevel]
  dsimp only
  rw [h]
  dsimp only
  rw [hn]
  dsimp only
  rw [hadd]

end

/-! ### The queue after a command -/

/-- From s to t the strand's queue j is another, and perhaps a watch match is held; the strand is as it was besides. -/
def State.QueueTo (s t : State) (j : BitVec 2) (q : EngineQueue) : Prop :=
  ∃ held, t.cur = { s.cur with queues := s.cur.queues.set j.toNat q, watchHeld := held }

theorem State.holdWatch_cur (s : State) (j : BitVec 2) (spans : List (Nat × Nat)) :
    ∃ held, s.holdWatch j spans = s.withCur { s.cur with watchHeld := held } := by
  unfold State.holdWatch
  split
  · exact ⟨s.cur.watchHeld, rfl⟩
  · exact ⟨_, rfl⟩

/-- The oldest command halts its queue. -/
theorem State.queueTo_halt {s u : State} {e : QEntry} (hu : u.cur = (s.atCommand e).cur) (j : BitVec 2) (fn c : Nat) (d : Int) :
    s.QueueTo (s.backFromCommand (u.haltEngine j fn c d)) j
      { s.cur.queues[j.toNat] with halted := true, fault := faultRecord fn c d } := by
  refine ⟨s.cur.watchHeld, ?_⟩
  unfold State.backFromCommand State.haltEngine
  simp only [State.withCur, Strand.setQueue, Strand.queue, hu]
  rfl

/-- The oldest command leaves its queue. -/
theorem State.queueTo_pop {s u : State} {e : QEntry} {es : List QEntry} {j : BitVec 2} (hu : u.cur = (s.atCommand e).cur)
    (hq : (s.cur.queues[j.toNat]).entries = e :: es) (spans : List (Nat × Nat)) :
    s.QueueTo (s.backFromCommand ((u.popEngine j).holdWatch j spans)) j
      { s.cur.queues[j.toNat] with entries := es, done := (s.cur.queues[j.toNat]).done + 1 } := by
  obtain ⟨held, hheld⟩ := (u.popEngine j).holdWatch_cur j spans
  refine ⟨held, ?_⟩
  rw [hheld]
  have hdrop : ((s.atCommand e).cur.queue j).entries.drop 1 = es := congrArg (List.drop 1) hq
  unfold State.backFromCommand State.popEngine
  simp only [State.withCur, State.count, State.countOn, hu, hdrop]
  rfl

theorem State.SameBytes.popEngine (s : State) (j : BitVec 2) (spans : List (Nat × Nat)) :
    s.SameBytes ((s.popEngine j).holdWatch j spans) := by
  obtain ⟨held, hheld⟩ := (s.popEngine j).holdWatch_cur j spans
  rw [hheld]
  exact ⟨rfl, rfl, rfl, rfl, rfl⟩

/-! ### The event of a command (R250) -/

/-- The event of the kind of a queue's oldest command performs it. -/
theorem performEvent_performs {s : State} {j : BitVec 2} {e : QEntry} {es : List QEntry} {sel : QCmd → Option (State → ERun)}
    {run : State → ERun} (hq : (s.cur.queues[j.toNat]).entries = e :: es) (hhalted : (s.cur.queues[j.toNat]).halted = false)
    (hrun : s.cur.run ≠ .stopped) (hsel : sel e.cmd = some run) (hid : (s.stirEngine.performCmd j e run).cur.id = s.cur.id) :
    performEvent s.cur.id j s sel = .next (s.stirEngine.performCmd j e run) := by
  have hcond : ¬(((s.cur.queue j).halted || decide (s.cur.run = .stopped)) = true) := by
    simp [Strand.queue, hhalted, hrun]
  have hperform : (fun t : State =>
      let q := t.cur.queue j
      if q.halted || t.cur.run = .stopped then t
      else match q.entries with
        | [] => t
        | e :: _ => match sel e.cmd with
          | none => t
          | some run => t.stirEngine.performCmd j e run) s = s.stirEngine.performCmd j e run := by
    dsimp only
    rw [if_neg hcond, Strand.queue, hq]
    dsimp only
    rw [hsel]
  exact congrArg Host.Outcome.next ((State.onStrand_cur ((congrArg (·.cur.id) hperform).trans hid)).trans hperform)

/-- The oldest command of queue j is performed where nothing holds it up. -/
structure State.Oldest (s : State) (j : BitVec 2) (e : QEntry) (es : List QEntry) : Prop where
  entries : (s.cur.queues[j.toNat]).entries = e :: es
  halted : (s.cur.queues[j.toNat]).halted = false
  run : s.cur.run ≠ .stopped

/-- What the engines run for a command, and the event that performs it; fences and signals have their own. (The runtime has no
tags for as many instructions as there are.) -/
noncomputable def commandRun (w : StrandId) (j : BitVec 2) : QCmd → Option (Instr × (State → ERun))
  | .copy a b n sl dl => some (.qcopyPerform w j, State.runCopy a b n sl dl)
  | .gather b => some (.qgatherPerform w j, State.runGather b false)
  | .scatter b => some (.qscatterPerform w j, State.runGather b true)
  | .pload b => some (.qploadPerform w j, State.runPload b)
  | .pstore b => some (.qpstorePerform w j, State.runPstore b)
  | .spload b => some (.qsploadPerform w j, State.runSpload b)
  | .fence _ _ => none
  | .signal _ _ _ _ => none

theorem commandRun_accessOnly {w : StrandId} {j : BitVec 2} {c : QCmd} {i : Instr} {run : State → ERun}
    (h : commandRun w j c = some (i, run)) (t : State) : t.AccessOnly (run t).2 := by
  cases c with
  | copy a b n sl dl =>
    cases h
    exact t.runCopy_accessOnly a b n sl dl
  | gather b =>
    cases h
    exact t.runGather_accessOnly b false
  | scatter b =>
    cases h
    exact t.runGather_accessOnly b true
  | pload b =>
    cases h
    exact t.runPload_accessOnly b
  | pstore b =>
    cases h
    exact t.runPstore_accessOnly b
  | spload b =>
    cases h
    exact t.runSpload_accessOnly b
  | fence n js => cases h
  | signal a v x y => cases h

/-- The event of each kind of command is its PERFORM event. -/
theorem exec_commandRun {s : State} {j : BitVec 2} {e : QEntry} {i : Instr} {run : State → ERun}
    (h : commandRun s.cur.id j e.cmd = some (i, run)) :
    ∃ sel : QCmd → Option (State → ERun), sel e.cmd = some run ∧ exec i s = performEvent s.cur.id j s sel := by
  unfold commandRun at h
  split at h
  · next hc =>
    cases h
    have hexec : exec (.qcopyPerform s.cur.id j) s = execQcopyPerform s.cur.id j s := rfl
    unfold execQcopyPerform at hexec
    exact ⟨_, by rw [hc], hexec⟩
  · next hc =>
    cases h
    have hexec : exec (.qgatherPerform s.cur.id j) s = execQgatherPerform s.cur.id j s := rfl
    unfold execQgatherPerform at hexec
    exact ⟨_, by rw [hc], hexec⟩
  · next hc =>
    cases h
    have hexec : exec (.qscatterPerform s.cur.id j) s = execQscatterPerform s.cur.id j s := rfl
    unfold execQscatterPerform at hexec
    exact ⟨_, by rw [hc], hexec⟩
  · next hc =>
    cases h
    have hexec : exec (.qploadPerform s.cur.id j) s = execQploadPerform s.cur.id j s := rfl
    unfold execQploadPerform at hexec
    exact ⟨_, by rw [hc], hexec⟩
  · next hc =>
    cases h
    have hexec : exec (.qpstorePerform s.cur.id j) s = execQpstorePerform s.cur.id j s := rfl
    unfold execQpstorePerform at hexec
    exact ⟨_, by rw [hc], hexec⟩
  · next hc =>
    cases h
    have hexec : exec (.qsploadPerform s.cur.id j) s = execQsploadPerform s.cur.id j s := rfl
    unfold execQsploadPerform at hexec
    exact ⟨_, by rw [hc], hexec⟩
  · cases h
  · cases h

theorem State.addWord_ok {u k : State} {a v : Word} {x : Xlat} (halign : a.toNat % 8 = 0) (hva : a.toNat < 2 ^ 56)
    (hx : u.translate u.cur.via u.cur.level a.toNat .amo false = (.ok x, k)) :
    ∃ t, u.addWord a v = .ok t ∧ t.cur = u.cur ∧ t.readPlace x.place 8 = (u.readPlace x.place 8 + v.toNat) % 2 ^ 64 := by
  obtain ⟨tlb, free, hk⟩ := u.translate_state u.cur.via u.cur.level a.toNat .amo false
  rw [hx] at hk
  dsimp only at hk
  have hsame : u.SameBytes k := by
    rw [hk]
    exact ⟨rfl, rfl, rfl, rfl, rfl⟩
  have hcur : k.cur = u.cur := by rw [hk]
  unfold State.addWord
  rw [if_neg (by omega), if_neg (by omega), hx]
  refine ⟨_, rfl, ?_, ?_⟩
  · exact ((((k.touch_accessOnly _ x .amo).trans (State.writePlace_accessOnly _ _ _ _)).trans
      (State.bell_accessOnly _ _ _ _)).cur).trans hcur
  · rw [(State.SameBytes.bell _ _ _ _).readPlace, State.readPlace_writePlace, hsame.readPlace]
    exact Nat.mod_mod _ _

section
variable {s u : State} {j : BitVec 2} {e : QEntry} {es : List QEntry} {i : Instr} {run : State → ERun}

/-- The run of a command leaves the strand as it is. -/
theorem commandRun_cur (hpick : commandRun s.cur.id j e.cmd = some (i, run)) {r : Except EStop EDone}
    (h : run (s.atCommand e) = (r, u)) : u.cur = (s.atCommand e).cur := by
  have haccess := commandRun_accessOnly hpick (s.atCommand e)
  rw [h] at haccess
  exact haccess.cur

theorem exec_performs (hpick : commandRun s.cur.id j e.cmd = some (i, run)) (ho : s.Oldest j e es) {t : State}
    (h : s.stirEngine.performCmd j e run = t) (hid : t.cur.id = s.cur.id) : exec i s = .next t := by
  obtain ⟨sel, hsel, hexec⟩ := exec_commandRun hpick
  rw [hexec, performEvent_performs ho.entries ho.halted ho.run hsel (h ▸ hid), h]

theorem State.QueueTo.id {t : State} {q : EngineQueue} (h : s.QueueTo t j q) : t.cur.id = s.cur.id := by
  obtain ⟨held, ht⟩ := h
  rw [ht]

theorem exec_command_stalls (hpick : commandRun s.cur.id j e.cmd = some (i, run)) (ho : s.Oldest j e es)
    (h : run (s.atCommand e) = (.error .stall, u)) : ∃ t, exec i s = .next t ∧ t.cur = s.cur := by
  have hback : (s.backFromCommand u).cur = s.cur := by
    unfold State.backFromCommand
    rw [commandRun_cur hpick h]
    rfl
  exact ⟨_, exec_performs hpick ho (State.performCmd_stall h) (by rw [hback]), hback⟩

theorem exec_command_faults (hpick : commandRun s.cur.id j e.cmd = some (i, run)) (ho : s.Oldest j e es) {c : Nat} {d : Int}
    (h : run (s.atCommand e) = (.error (.fault c d []), u)) : ∃ t, exec i s = .next t ∧ u.SameBytes t ∧
      s.QueueTo t j { s.cur.queues[j.toNat] with halted := true, fault := faultRecord e.cmd.fn c d } := by
  have hto := State.queueTo_halt (commandRun_cur hpick h) j e.cmd.fn c d
  exact ⟨_, exec_performs hpick ho (State.performCmd_fault h) hto.id, ⟨rfl, rfl, rfl, rfl, rfl⟩, hto⟩

/-- A command that is done: its bytes are written, and it has left the queue. -/
theorem exec_command_done (hpick : commandRun s.cur.id j e.cmd = some (i, run)) (ho : s.Oldest j e es) {r : EDone}
    (h : run (s.atCommand e) = (.ok r, u)) (hn : e.ntf = none) :
    ∃ t, exec i s = .next t ∧ (u.doWrites r.all).SameBytes t ∧ t.others = (u.doWrites r.all).others ∧
      s.QueueTo t j { s.cur.queues[j.toNat] with entries := es, done := (s.cur.queues[j.toNat]).done + 1 } := by
  have hcur : ((u.doWrites r.all).setRecords r.records).cur = (s.atCommand e).cur :=
    ((u.doWrites_bytesOnly r.all).trans (State.setRecords_bytesOnly _ _)).cur.trans (commandRun_cur hpick h)
  have hto := State.queueTo_pop hcur ho.entries r.spans
  refine ⟨_, exec_performs hpick ho (State.performCmd_done h hn) hto.id, ?_, ?_, hto⟩
  · exact ((State.SameBytes.setRecords _ _).trans (.popEngine _ _ _)).trans (.backFromCommand _ _)
  · obtain ⟨held, hheld⟩ := (((u.doWrites r.all).setRecords r.records).popEngine j).holdWatch_cur j r.spans
    rw [hheld]
    exact (State.setRecords_bytesOnly _ _).others

theorem exec_command_notifies (hpick : commandRun s.cur.id j e.cmd = some (i, run)) (ho : s.Oldest j e es) {r : EDone}
    (h : run (s.atCommand e) = (.ok r, u)) {a : Word} {x : Xlat} {k : State} (hn : e.ntf = some a) (hall : r.all = [])
    (hrecords : r.records = []) (halign : a.toNat % 8 = 0) (hva : a.toNat < 2 ^ 56)
    (hx : u.translate u.cur.via u.cur.level a.toNat .amo false = (.ok x, k)) :
    ∃ t, exec i s = .next t ∧ t.readPlace x.place 8 = (u.readPlace x.place 8 + 1) % 2 ^ 64 ∧
      s.QueueTo t j { s.cur.queues[j.toNat] with entries := es, done := (s.cur.queues[j.toNat]).done + 1 } := by
  obtain ⟨v, hadd, hcur, hread⟩ := State.addWord_ok (v := 1) halign hva hx
  have hto := State.queueTo_pop (hcur.trans (commandRun_cur hpick h)) ho.entries ((a.toNat, 8) :: r.spans)
  have hwritten : (u.doWrites r.all).setRecords r.records = u := by
    rw [hall, hrecords, State.doWrites_nil]
    rfl
  refine ⟨_, exec_performs hpick ho (State.performCmd_notifies h hn (by rw [hwritten]; exact hadd)) hto.id, ?_, hto⟩
  rw [(State.SameBytes.backFromCommand s _).readPlace, (State.SameBytes.popEngine v j _).readPlace]
  exact hread

end

/-! ### QCOPY within the Larder (R251) -/

theorem State.runCopy_of_fault {src dst cnt : Word} {sl dl : Bool} {c : Nat} {d : Int} (s : State)
    (h : copyFault src.toNat dst.toNat cnt.toNat sl dl = some (c, d)) :
    State.runCopy src dst cnt sl dl s = (.error (.fault c d []), s) := by
  unfold State.runCopy
  dsimp only
  rw [h]

section
variable {a b n : Nat} (hn : 0 < n) (hmax : n ≤ 2 ^ 32)

theorem copyFault_count {sl dl : Bool} (h : 2 ^ 32 < n) : copyFault a b n sl dl = some (0x105, 0) := if_pos h

include hn hmax

theorem copyFault_source (ha : larderSize < a + n) :
    copyFault a b n true true = some (0x103, ((larderSize - a : Nat) : Int)) := by
  unfold copyFault
  rw [if_neg (by omega), if_neg (by omega), if_pos (by simpa using ha)]

theorem copyFault_destination (ha : a + n ≤ larderSize) (hb : larderSize < b + n) :
    copyFault a b n true true = some (0x103, ((larderSize - b : Nat) : Int)) := by
  unfold copyFault
  rw [if_neg (by omega), if_neg (by omega), if_neg (by simpa using ha), if_pos (by simpa using hb)]

theorem copyFault_overlap (ha : a + n ≤ larderSize) (hb : b + n ≤ larderSize) (h : a < b + n ∧ b < a + n) :
    copyFault a b n true true = some (0x106, 0) := by
  unfold copyFault
  rw [if_neg (by omega), if_neg (by omega), if_neg (by simpa using ha), if_neg (by simpa using hb), if_pos (by simpa using h)]

theorem copyFault_none (ha : a + n ≤ larderSize) (hb : b + n ≤ larderSize) (h : b + n ≤ a ∨ a + n ≤ b) :
    copyFault a b n true true = none := by
  unfold copyFault
  rw [if_neg (by omega), if_neg (by omega), if_neg (by simpa using ha), if_neg (by simpa using hb),
    if_neg (by simp only [Bool.and_eq_true, decide_eq_true_eq]; omega)]

end

/-- The writes of a copy within the Larder, from the byte at a to that at b. -/
def State.larderWritesFrom (s : State) (a b n : Nat) : List EWrite :=
  (List.range n).map fun k => { dst := .larder (b + k), src := some (.larder (a + k)), val := s.larder.read (a + k) }

/-- The spots of a range of a Larder (Table 12-2). -/
def larderSpots (a n : Nat) : List (Nat × Except Fail Spot) := (List.range n).map fun k => (k, .ok (.larder (a + k)))

theorem State.rangeSpots_larder (s : State) (tbl : PageTable) (need : Need) (bounce : Bool) (a n : Nat) :
    s.rangeSpots tbl need true bounce a n = larderSpots (larderBase s.cur.id.core + a) n := rfl

theorem firstFail_larderSpots (a n : Nat) : firstFail (larderSpots a n) = none := by
  simp [firstFail, larderSpots]

theorem bounceOf_larderSpots (a n : Nat) : bounceOf (larderSpots a n) = none := by
  simp [bounceOf, larderSpots, Spot.bounce?]

/-- The Larder has no pages (R222). -/
theorem State.touchEach_of_larder (s : State) (need : Need) {l : List Spot} (h : ∀ p ∈ l, p.leaf = none) :
    s.touchEach need l = s := by
  have hnone : l.filterMap Spot.leaf = [] := List.filterMap_eq_nil_iff.2 h
  unfold State.touchEach
  rw [hnone]
  rfl

theorem reached_larderSpots (a n : Nat) : reached (larderSpots a n) = (List.range n).map fun k => .larder (a + k) := by
  unfold reached larderSpots
  rw [List.filterMap_map, ← List.filterMap_eq_map']
  rfl

theorem State.copyWrites_larder (s : State) (a b n : Nat) :
    s.copyWrites (larderSpots a n) (larderSpots b n) = s.larderWritesFrom a b n := by
  unfold State.copyWrites larderSpots State.larderWritesFrom
  rw [List.zip_map', List.filterMap_map, ← List.filterMap_eq_map']
  rfl

/-- A copy whose checks pass and that reads and writes the Larder writes each byte, and looks nothing up. -/
theorem State.runCopy_larder {src dst cnt : Word} (s : State) (h : copyFault src.toNat dst.toNat cnt.toNat true true = none) :
    ∃ r, State.runCopy src dst cnt true true s = (.ok r, s) ∧
      r.all = s.larderWritesFrom (larderBase s.cur.id.core + src.toNat) (larderBase s.cur.id.core + dst.toNat) cnt.toNat := by
  have htouch : s.touchReads (reached (larderSpots (larderBase s.cur.id.core + src.toNat) cnt.toNat)) = s := by
    refine s.touchEach_of_larder .load fun p hp => ?_
    rw [reached_larderSpots] at hp
    obtain ⟨k, -, rfl⟩ := List.mem_map.1 hp
    rfl
  unfold State.runCopy
  dsimp only
  rw [h]
  simp only [if_true, State.sortPages, State.rangeSpots_larder, htouch, firstFail_larderSpots, Option.or_none, State.copyBody,
    bounceOf_larderSpots, State.copyWrites_larder]
  exact ⟨_, rfl, by simp [EDone.all]⟩

/-- Bytes copied one after another between ranges that do not meet. -/
theorem State.foldl_larderWritesFrom (s : State) {a b n m : Nat} (hm : m ≤ n) (hapart : b + n ≤ a ∨ a + n ≤ b) :
    let t := (s.larderWritesFrom a b m).foldl State.doWrite s
    t.mem = s.mem ∧ t.hostMem = s.hostMem ∧ (∀ k < m, t.larder.read (b + k) = s.larder.read (a + k)) ∧
      ∀ p, p < b ∨ b + m ≤ p → t.larder.read p = s.larder.read p := by
  induction m with
  | zero => exact ⟨rfl, rfl, fun k hk => absurd hk (Nat.not_lt_zero k), fun _ _ => rfl⟩
  | succ m ih =>
    obtain ⟨hmem, hhost, hin, hout⟩ := ih (by omega)
    have ht : (s.larderWritesFrom a b (m + 1)).foldl State.doWrite s =
        ((s.larderWritesFrom a b m).foldl State.doWrite s).larderPut (b + m) 1 (s.larder.read (a + m)).toNat := by
      unfold State.larderWritesFrom
      rw [List.range_succ, List.map_append, List.foldl_append]
      exact if_pos (hout (a + m) (by omega))
    rw [ht]
    refine ⟨hmem, hhost, fun k hk => ?_, fun p hp => ?_⟩
    · by_cases hkm : k = m
      · rw [hkm]
        exact (Memory.read_writeLE_of_in _ (b + m) 1 _ 0 one_pos).trans (by simp)
      · exact (Memory.read_writeLE_of_out _ _ _ _ _ (by omega)).trans (hin k (by omega))
    · exact (Memory.read_writeLE_of_out _ _ _ _ _ (by omega)).trans (hout p (by omega))

/-- Writes to the Larder alone touch no page and ring no doorbell. -/
theorem State.doWrites_larderWritesFrom (s u : State) (a b n : Nat) :
    u.doWrites (s.larderWritesFrom a b n) = (s.larderWritesFrom a b n).foldl State.doWrite u := by
  have hdst (w : EWrite) (hw : w ∈ s.larderWritesFrom a b n) : ∃ p, w.dst = .larder p := by
    obtain ⟨k, -, rfl⟩ := List.mem_map.1 hw
    exact ⟨_, rfl⟩
  have htouch : u.touchWrites (s.larderWritesFrom a b n) = u := by
    refine u.touchEach_of_larder .store fun p hp => ?_
    obtain ⟨w, hw, rfl⟩ := List.mem_map.1 hp
    obtain ⟨p, hp⟩ := hdst w hw
    rw [hp]
    rfl
  have hwords (area : Nat) : queueWords area (s.larderWritesFrom a b n) = [] := by
    unfold queueWords
    rw [List.filterMap_eq_nil_iff.2 fun w hw => ?_]
    · rfl
    · obtain ⟨p, hp⟩ := hdst w hw
      rw [hp]
  unfold State.doWrites State.bellWrites
  rw [htouch]
  split
  · rfl
  · rw [hwords]
    rfl

theorem faultRecord_ofNat (c d : Nat) (h : d < 2 ^ 32) : faultRecord 0 c (d : Int) = BitVec.ofNat 64 (d * 2 ^ 32 + c) := by
  unfold faultRecord
  rw [Int.natAbs_natCast, Nat.min_eq_left (by omega), if_neg (by omega)]
  simp

/-- Settles O35: a command's run leaves the strand as it is, and what the engine does with its outcome changes the queue alone; a
QCOPY within the Larder by its checks in their order, and its bytes one after another. -/
theorem enginePerformResults : Obligations.EnginePerformResults := by
  unfold Obligations.EnginePerformResults
  refine ⟨fun s j e es i run => ?performs, fun s j e es a b n => ?copies⟩
  case performs =>
    intro q w pick hpick hq hhalted hrun s0 set
    have ho : s.Oldest j e es := ⟨hq, hhalted, hrun⟩
    have hpick : commandRun s.cur.id j e.cmd = some (i, run) := hpick
    refine ⟨fun u h => ?stalls, fun u c d h => ?faults, fun u r h hn => ?done, fun u r a x k h hn hall hrecords halign hva hx => ?notifies⟩
    case stalls =>
      obtain ⟨t, hexec, hcur⟩ := exec_command_stalls hpick ho h
      exact ⟨t, hexec, by rw [hcur], by rw [hcur]⟩
    case faults =>
      obtain ⟨t, hexec, -, held, hcur⟩ := exec_command_faults hpick ho h
      exact ⟨t, hexec, by rw [hcur], by rw [hcur]⟩
    case done =>
      obtain ⟨t, hexec, hbytes, -, held, hcur⟩ := exec_command_done hpick ho h hn
      refine ⟨t, hexec, by rw [hcur], by rw [hcur], by rw [hcur], by rw [hcur], by rw [hcur], fun l1 l2 w hall hsrc hapart => ?_,
        fun hall => ?_⟩
      · rw [hbytes.readSpot]
        exact State.readSpot_doWrites u hall hsrc hapart
      · rw [hbytes.mem, hbytes.larder, hall, State.doWrites_nil]
        exact ⟨rfl, rfl⟩
    case notifies =>
      obtain ⟨t, hexec, hread, held, hcur⟩ := exec_command_notifies hpick ho h hn hall hrecords halign hva hx
      exact ⟨t, hexec, by rw [hcur], hread⟩
  case copies =>
    intro q hq hhalted hrun hcmd hn base halts
    have ho : s.Oldest j e es := ⟨hq, hhalted, hrun⟩
    have hpick : commandRun s.cur.id j e.cmd = some (.qcopyPerform s.cur.id j, State.runCopy a b n true true) := by
      rw [hcmd]
      rfl
    have hfault {c d : Nat} (hd : d < 2 ^ 32) (h : copyFault a.toNat b.toNat n.toNat true true = some (c, (d : Int))) :
        halts c d := by
      obtain ⟨t, hexec, hbytes, held, hcur⟩ := exec_command_faults hpick ho (State.runCopy_of_fault (s.atCommand e) h)
      refine ⟨t, hexec, hbytes.mem, hbytes.larder, ?_⟩
      rw [hcur, hcmd]
      exact congrArg (fun f => s.cur.queues.set j.toNat { q with halted := true, fault := f }) (faultRecord_ofNat c d hd)
    have hsize (x : Nat) : larderSize - x < 2 ^ 32 := by
      unfold larderSize
      omega
    refine ⟨fun h => hfault (by decide) (copyFault_count h), fun h0 hmax => ⟨fun ha => hfault (hsize _) (copyFault_source h0 hmax ha),
      fun ha hb => hfault (hsize _) (copyFault_destination h0 hmax ha hb), fun ha hb =>
      ⟨fun h => hfault (by decide) (copyFault_overlap h0 hmax ha hb h), fun h => ?_⟩⟩⟩
    obtain ⟨r, hcopy, hall⟩ := (s.atCommand e).runCopy_larder (copyFault_none h0 hmax ha hb h)
    obtain ⟨t, hexec, hbytes, hothers, held, hcur⟩ := exec_command_done hpick ho hcopy hn
    rw [hall, State.doWrites_larderWritesFrom] at hbytes hothers
    obtain ⟨hmem, hhost, hin, hout⟩ := (s.atCommand e).foldl_larderWritesFrom (a := base + a.toNat) (b := base + b.toNat)
      (n := n.toNat) le_rfl (by omega)
    have hwritten := State.BytesOnly.foldl State.doWrite State.doWrite_bytesOnly
      ((s.atCommand e).larderWritesFrom (base + a.toNat) (base + b.toNat) n.toNat) (s.atCommand e)
    exact ⟨t, hexec, hbytes.mem.trans hmem, hbytes.hostMem.trans hhost, hothers.trans hwritten.others, by rw [hcur], by rw [hcur],
      fun k hk => (congrArg (Memory.read · _) hbytes.larder).trans (hin k hk),
      fun p hp => (congrArg (Memory.read · _) hbytes.larder).trans (hout p hp)⟩

end Sys2Proof.Machine
end

section
/-! Vector stores and scatter-add; and O29. -/

namespace Sys2Proof.Machine

/-- Page tables of three levels (R219 to R221) whose one leaf, at 0x6000, maps the first 64 MiB to themselves, with RD, W and U,
and with A and D clear. -/
def selfMappedTables : Memory := [(0x2000, 0x03), (0x2001, 0x40), (0x4000, 0x03), (0x4001, 0x60), (0x6000, 0x1D)]

/-- A partition whose tables are these. -/
def selfMappedPartition : Partition :=
  { pid := 1, first := 0, count := 1, policy := 0, conf := false, root := 0x2000, queueArea := 0x100000, arenaBase := 0x1000000
    arenaSize := 0x100000, transSize := 0x10000, images := [], variants := [], handle := (5, 6), owner := none, creator := 1
    events := [], lost := 0, stale := 0, proxies := 0, windows := [], nextWin := 1, job := none, secret := [], memKey := 0
    ending := false }

/-- A strand of it at S level with a strip of one element of 8 bits, x5 the address of the leaf and x7 that of a progress word
in the same page. -/
def selfMappedState : State :=
  { State.reset with
    cur := { Strand.reset { core := 0, sid := 0 } with
      part := 1, run := .running, level := .s, pc := 0x1000000, lanegrant := 1, arenabase := 0x1000000, arenabound := 0x1100000
      x := ((Vector.replicate 32 0).set 5 0x6000).set 7 0x9000
      vec := { VecPart.reset with vl := 1, ew := .e8, vnreg := 32, slices := [.reset] } }
    mem := selfMappedTables, parts := [selfMappedPartition] }

/-- A store of v0 to the leaf, with a progress word. -/
def storeToLeaf : VstOp := { m := 0, d := 0, base := 5, ew := .of .e8, mode := .notify 7, scope := .device, off := 0 }

/-- The accesses of that store. -/
def storeToLeafPlan : VmPlan :=
  { acts := [(0, [0x6000])], size := 1, align := 1, need := .store, prog := some 0x9000, noHost := false }

/-- The page-sorting unit's table of them, and the state it leaves. -/
def storeToLeafPages : List (Nat × Except Cause (Option Leaf)) × State :=
  selfMappedState.sortPages (distinct (storeToLeafPlan.addresses.map fun a => granule a.1))

theorem storeToLeaf_ready : selfMappedState.Ready (.vst storeToLeaf) selfMappedState :=
  ⟨by decide +kernel, by decide +kernel, rfl⟩

/-- The translation of one of its two addresses. -/
def storeToLeafXlat (a : Nat) : Xlat :=
  { place := { host := false, addr := a }, win := none
    leaf := some { entry := 0x6000, word := 0x1D, base := 0, size := 26 } }

theorem storeToLeaf_xlat : ∀ a ∈ [0x6000, 0x9000],
    storeToLeafPages.2.byGranule storeToLeafPages.1 .store a = .ok (storeToLeafXlat a) := by decide +kernel

theorem storeToLeaf_passes : selfMappedState.Passes storeToLeafPlan storeToLeafPages.1 storeToLeafPages.2 := by
  refine ⟨by decide +kernel, rfl, fun a ha => ⟨storeToLeafXlat a.1, ?_, nofun⟩⟩
  have ha' : a = (0x9000, .store) ∨ a = (0x6000, .store) := by simpa [storeToLeafPlan, VmPlan.addresses] using ha
  obtain rfl | rfl := ha' <;> exact storeToLeaf_xlat _ (by decide)

/-- The byte stored to the leaf has A and D set when the progress word has been written (R222). -/
theorem storeToLeaf_readPlace {z : State} (h : exec (.vst storeToLeaf) selfMappedState = .next z) :
    z.readPlace { host := false, addr := 0x6000 } 1 = 0x60 := by
  have hrun : (match exec (.vst storeToLeaf) selfMappedState with
    | .next z => decide (z.readPlace { host := false, addr := 0x6000 } 1 = 0x60)
    | _ => false) = true := by decide +kernel
  rw [h] at hrun
  exact of_decide_eq_true hrun

/-- Refutes O29: a store whose element is written to the leaf entry of its progress word's page. The progress word is written
after the elements, and A and D of its page are set with it (R222): the byte of the element, 0, then reads 0x60, and no hypothesis
keeps an element apart from the entries. -/
theorem not_vectorStoreResults : ¬ Obligations.VectorStoreResults := by
  unfold Obligations.VectorStoreResults
  intro h
  obtain ⟨hvst, -⟩ := h.1 selfMappedState selfMappedState storeToLeafPages.2 storeToLeafPages.1
  obtain ⟨z, hexec, -, -, -, -, -, hfield, -⟩ := (hvst storeToLeaf storeToLeaf_ready).2 (by decide) (.inl (by decide))
    storeToLeaf_passes rfl
  have hbyte := hfield 0 0 0 { host := false, addr := 0x6000 } (by decide +kernel)
    (fun j e k q hj hne => by
      obtain _ | j := j
      · exact absurd rfl hne
      · cases hj)
    (fun a y ha hy => by
      cases ha
      cases (storeToLeaf_xlat 0x9000 (by decide)).symm.trans hy
      exact .inr (.inl (by decide)))
  have helem : selfMappedState.cur.elem 0 8 0 = 0 := by decide +kernel
  exact absurd ((storeToLeaf_readPlace hexec).symm.trans (hbyte.trans helem)) (by decide)

end Sys2Proof.Machine
end
